-- ==== Sys2Proof/Word.lean ====
section
/-!
DEFINITION. The word types of the VJ-HM400 and their plainest arithmetic (R5: little-endian bytes, 32-bit words).
-/

namespace Sys2Proof

/-- A byte of memory. -/
abbrev Byte := BitVec 8

/-- A register word. -/
abbrev Word := BitVec 32

/-- A 64-bit value: an address, a register pair, a page table entry. -/
abbrev DWord := BitVec 64

/-- One bit for each thread of a group, t0 at bit 0 (R8). -/
abbrev Mask := BitVec 128

/-- The two halves of a 64-bit value, the low word first (R157). -/
def DWord.halves (x : DWord) : Word × Word := (x.extractLsb' 0 32, x.extractLsb' 32 32)

/-- A 64-bit value from its low and its high word (R157). -/
def DWord.ofHalves (lo hi : Word) : DWord := hi ++ lo

end Sys2Proof
end

