-- ==== Sys2Proof/Machine/Numbers.lean ====
section
/-!
DEFINITION. The number formats and conversions of R107 to R119, and the typed arithmetic of R222 to R229. Every result
is the exact value rounded once: a finite value is kept as an exact fraction until it is rounded.
-/

namespace Sys2Proof.Machine

/-! ## Formats -/

/-- R109: FP32 and BF16 have 8 exponent bits with bias 127 and `frac` fraction bits. -/
structure Fmt where
  frac : Nat
  deriving DecidableEq, Repr

/-- R109: FP32. -/
def fp32 : Fmt := ⟨23⟩
/-- R109: BF16. -/
def bf16 : Fmt := ⟨7⟩

/-- R111: the default NaN. -/
def Fmt.nan (f : Fmt) : Nat := 255 * 2 ^ f.frac + 2 ^ (f.frac - 1)
/-- The sign bit's value. -/
def Fmt.signBit (f : Fmt) : Nat := 2 ^ (f.frac + 8)
/-- Infinity's magnitude bits. -/
def Fmt.inf (f : Fmt) : Nat := 255 * 2 ^ f.frac
/-- R109: the maximum finite value's magnitude bits. -/
def Fmt.maxFinite (f : Fmt) : Nat := 255 * 2 ^ f.frac - 1

/-- The value of a floating operand. A finite value is its sign and the fraction num / den of its magnitude. -/
inductive FVal where
  | nan
  | inf (neg : Bool)
  | fin (neg : Bool) (num den : Nat)
  deriving DecidableEq, Repr

/-- Two to the power of an integer, as a fraction. -/
def pow2Frac (e : Int) : Nat × Nat := if e < 0 then (1, 2 ^ e.natAbs) else (2 ^ e.toNat, 1)

/-- R109, R110: the value of a bit pattern; under ftz a subnormal reads as a zero of the same sign. -/
def Fmt.decode (f : Fmt) (ftz : Bool) (bits : Nat) : FVal :=
  let neg := f.signBit ≤ bits
  let mag := bits % f.signBit
  let e := mag / 2 ^ f.frac
  let m := mag % 2 ^ f.frac
  if e = 255 then (if m = 0 then .inf neg else .nan)
  else if e = 0 then
    if ftz then .fin neg 0 1
    else .fin neg m (2 ^ (126 + f.frac))
  else
    let s := pow2Frac ((e : Int) - 127 - (f.frac : Int))
    .fin neg ((2 ^ f.frac + m) * s.1) s.2

/-- R109: whether a rounding mode (00 nearest-even, 01 toward zero, 10 down, 11 up) takes the magnitude up from `q` when
the rest compares with one half as given (`rest` 0: exact, 1: below, 2: equal, 3: above). -/
def roundUp (mode : Nat) (neg : Bool) (q rest : Nat) : Bool :=
  if rest = 0 then false
  else match mode with
    | 0 => rest = 3 || (rest = 2 && q % 2 = 1)
    | 1 => false
    | 2 => neg
    | _ => !neg

/-- How the rest r of a division by d compares with one half. -/
def halfCompare (r d : Nat) : Nat := if r = 0 then 0 else if 2 * r < d then 1 else if 2 * r = d then 2 else 3

/-- R109: rounds the magnitude num / den to an integer. -/
def roundInt (mode : Nat) (neg : Bool) (num den : Nat) : Nat :=
  let q := num / den
  if roundUp mode neg q (halfCompare (num % den) den) then q + 1 else q

/-- The exponent e with 2^e ≤ num / den < 2^(e+1), for a positive fraction. -/
def binade (num den : Nat) : Int :=
  let e : Int := (num.log2 : Int) - (den.log2 : Int)
  let s := pow2Frac e
  if s.1 * den ≤ num * s.2 then e else e - 1

/-- R109: the magnitude bits of the fraction num / den rounded once, overflow included. -/
def Fmt.roundMag (f : Fmt) (mode : Nat) (neg : Bool) (num den : Nat) : Nat :=
  if num = 0 then 0 else
  let e := max (binade num den) (-126)
  let s := pow2Frac (e - (f.frac : Int))
  let q := roundInt mode neg (num * s.2) (den * s.1)
  -- q counts units of 2^(e - frac); the bits of magnitude q there are q plus the exponent field's offset
  let mag := (e + 126).toNat * 2 ^ f.frac + q
  if mag < f.inf then mag
  else if roundUp mode neg 1 3 then f.inf else f.maxFinite

/-- R109: bits from a sign and a magnitude. -/
def Fmt.pack (f : Fmt) (neg : Bool) (mag : Nat) : Nat := if neg then f.signBit + mag else mag

/-- R222: rounding, saturation and flushing of an exact result. `operandsFinite` as in R222, R112. An infinity that is no
overflow, such as a division by zero gives (R226), stays (log entry 34). -/
def Fmt.fit (f : Fmt) (mode : Nat) (sat ftz operandsFinite : Bool) : FVal → Nat
  | .nan => f.nan
  | .inf neg => f.pack neg f.inf
  | .fin neg num den =>
    let mag := f.roundMag mode neg num den
    let mag := if mag = f.inf && sat && operandsFinite then f.maxFinite else mag
    f.pack neg (if ftz && mag < 2 ^ f.frac then 0 else mag)

/-! ## Exact arithmetic on values -/

/-- Whether a value is finite. -/
def FVal.isFinite : FVal → Bool
  | .fin _ _ _ => true
  | _ => false

/-- IEEE 754 addition before rounding. The sign of an exact zero sum is that of both operands when they agree, and
otherwise negative only under rounding down. -/
def FVal.add (mode : Nat) : FVal → FVal → FVal
  | .nan, _ => .nan
  | _, .nan => .nan
  | .inf a, .inf b => if a = b then .inf a else .nan
  | .inf a, _ => .inf a
  | _, .inf b => .inf b
  | .fin s a b, .fin t c d =>
    let x := a * d
    let y := c * b
    if s = t then .fin s (x + y) (b * d)
    else if x = y then .fin (mode = 2) 0 1
    else if y < x then .fin s (x - y) (b * d)
    else .fin t (y - x) (b * d)

/-- IEEE 754 multiplication before rounding. -/
def FVal.mul : FVal → FVal → FVal
  | .nan, _ => .nan
  | _, .nan => .nan
  | .inf a, .inf b => .inf (a != b)
  | .inf a, .fin t c _ => if c = 0 then .nan else .inf (a != t)
  | .fin s a _, .inf b => if a = 0 then .nan else .inf (s != b)
  | .fin s a b, .fin t c d => .fin (s != t) (a * c) (b * d)

/-- R42: IEEE 754 division before rounding. -/
def FVal.div : FVal → FVal → FVal
  | .nan, _ => .nan
  | _, .nan => .nan
  | .inf _, .inf _ => .nan
  | .inf a, .fin t _ _ => .inf (a != t)
  | .fin s _ _, .inf b => .fin (s != b) 0 1
  | .fin s a b, .fin t c d =>
    if c = 0 then (if a = 0 then .nan else .inf (s != t)) else .fin (s != t) (a * d) (b * c)

/-- The opposite. -/
def FVal.neg : FVal → FVal
  | .nan => .nan
  | .inf s => .inf (!s)
  | .fin s a b => .fin (!s) a b

/-- R224, R237: a < b as reals, −0 equal to +0; false when either is NaN. -/
def FVal.lt : FVal → FVal → Bool
  | .nan, _ => false
  | _, .nan => false
  | .inf a, .inf b => a && !b
  | .inf a, .fin _ _ _ => a
  | .fin _ _ _, .inf b => !b
  | .fin s a b, .fin t c d =>
    let x : Int := if s then -(a * d : Nat) else (a * d : Nat)
    let y : Int := if t then -(c * b : Nat) else (c * b : Nat)
    x < y

/-- R237: equal as reals; false when either is NaN. -/
def FVal.eq (a b : FVal) : Bool := a ≠ .nan && b ≠ .nan && !FVal.lt a b && !FVal.lt b a

/-! ## Roots and transcendental functions (R228, R229) -/

/-- The integer square root: the greatest r with r * r ≤ n, from the bits below `k`. -/
def isqrtFrom (n : Nat) : Nat → Nat → Nat
  | 0, r => r
  | k + 1, r => let r' := r + 2 ^ k; isqrtFrom n k (if r' * r' ≤ n then r' else r)

/-- The integer square root. -/
def isqrt (n : Nat) : Nat := isqrtFrom n (n.log2 / 2 + 1) 0

/-- A fraction that rounds as the square root of num / den does: exact when the root is, else between the root's
neighbours at 2^-400. -/
def sqrtFrac (num den : Nat) : Nat × Nat :=
  let n := num * den * 2 ^ 800
  let r := isqrt n
  if r * r = n then (r, den * 2 ^ 400) else (2 * r + 1, den * 2 ^ 401)

/-- Fixed-point precision of the series below: 2^-600. Every correctly rounded FP32 result lies further than that from a
rounding boundary or is exact (log entry 18). -/
def fixP : Nat := 600

/-- One in fixed point. -/
def fixOne : Nat := 2 ^ fixP

/-- The sum of z^(2k+1) / (2k+1) from k up, for fixed-point z; `p` is z^(2k+1). -/
def atanhSum (z2 : Nat) : Nat → Nat → Nat → Nat
  | 0, _, _ => 0
  | n + 1, k, p => p / (2 * k + 1) + atanhSum z2 n (k + 1) (p * z2 / fixOne)

/-- The area tangent of num / den, at most 1/3, in fixed point. -/
def atanhFix (num den : Nat) : Nat :=
  let z := num * fixOne / den
  atanhSum (z * z / fixOne) 200 0 z

/-- The natural logarithm of 2 in fixed point. -/
def ln2Fix : Nat := 2 * atanhFix 1 3

/-- The sum of x^n / n! in fixed point, x below 1; `p` is the current term. -/
def expSum (x : Nat) : Nat → Nat → Nat → Nat
  | 0, _, _ => 0
  | n + 1, k, p => p + expSum x n (k + 1) (p * x / fixOne / (k + 1))

/-- The alternating sum of x^(2k+s) / (2k+s)! in fixed point: even terms added, odd ones subtracted. -/
def altSum (x2 : Nat) : Nat → Nat → Int → Int
  | 0, _, _ => 0
  | n + 1, k, p => p - altSum x2 n (k + 2) (p * (x2 : Int) / (fixOne : Int) / (((k + 1) * (k + 2) : Nat) : Int))

/-- The alternating sum of z^(2k+1) / (2k+1) in fixed point. -/
def atanSum (z2 : Nat) : Nat → Nat → Int → Int
  | 0, _, _ => 0
  | n + 1, k, p => p / ((2 * k + 1 : Nat) : Int) - atanSum z2 n (k + 1) (p * (z2 : Int) / (fixOne : Int))

/-- The arc tangent of 1 / n in fixed point. -/
def atanInv (n : Nat) : Int := atanSum (fixOne / (n * n)) 320 0 ((fixOne / n : Nat) : Int)

/-- π in fixed point, by Machin's formula. -/
def piFix : Nat := (4 * (4 * atanInv 5 - atanInv 239)).toNat

/-- R228: 2^x for a finite x = ±num / den, as a fraction; outside the exponent range a value that overflows or
underflows. -/
def exp2Frac (neg : Bool) (num den : Nat) : Nat × Nat :=
  let q := num / den
  if 200 ≤ q then (if neg then (1, 2 ^ 400) else (2 ^ 400, 1))
  else
    let r := num % den
    -- the integer part n and the fraction f in [0, 1)
    let (n, fnum) : Int × Nat := if neg then (if r = 0 then (-(q : Int), 0) else (-(q : Int) - 1, den - r)) else ((q : Int), r)
    let s := pow2Frac n
    if fnum = 0 then s
    else
      let x := fnum * ln2Fix / den
      let y := expSum x 160 0 fixOne
      (y * s.1, fixOne * s.2)

/-- R228: log2 of the positive fraction num / den: sign, numerator, denominator. -/
def log2Frac (num den : Nat) : Bool × Nat × Nat :=
  let e := binade num den
  let s := pow2Frac e
  let mn := num * s.2
  let md := den * s.1
  -- m = mn / md lies in [1, 2)
  let l : Nat := 2 * atanhFix (mn - md) (mn + md) * fixOne / ln2Fix
  let v : Int := e * (fixOne : Int) + (l : Int)
  (v < 0, v.natAbs, fixOne)

/-- Sine (`cos` false) or cosine of the fraction num / den, not negative, in fixed point, with the quadrant reduction
done exactly against π. -/
def sinFix (cos : Bool) (num den : Nat) : Int :=
  -- the number of half turns of π/2, with π taken to 600 bits
  let t := num * 2 * fixOne / (den * piFix)
  let x : Nat := ((num * fixOne / den : Nat) : Int) |>.toNat
  let r : Nat := x - t * piFix / 2
  let q := (t + (if cos then 1 else 0)) % 4
  let x2 := r * r / fixOne
  let sinv := altSum x2 100 1 (r : Int)
  let cosv := altSum x2 100 0 (fixOne : Int)
  match q with
  | 0 => sinv
  | 1 => cosv
  | 2 => -sinv
  | _ => -cosv

/-- R228, R229: the functions of R228. -/
inductive SfFn where
  | rcp | rsq | sqrt | exp2 | log2 | sin | cos
  deriving DecidableEq, Repr

/-- R229: exact value of a function before the one rounding. -/
def SfFn.eval : SfFn → FVal → FVal
  | _, .nan => .nan
  | .rcp, .inf s => .fin s 0 1
  | .rcp, .fin s a b => if a = 0 then .inf s else .fin s b a
  | .sqrt, .inf s => if s then .nan else .inf false
  | .sqrt, .fin s a b =>
    if a = 0 then .fin s 0 1 else if s then .nan
    else let r := sqrtFrac a b; .fin false r.1 r.2
  | .rsq, .inf s => if s then .nan else .fin false 0 1
  | .rsq, .fin s a b =>
    if a = 0 then .inf s else if s then .nan
    else let r := sqrtFrac b a; .fin false r.1 r.2
  | .exp2, .inf s => if s then .fin false 0 1 else .inf false
  | .exp2, .fin s a b => let r := exp2Frac s a b; .fin false r.1 r.2
  | .log2, .inf s => if s then .nan else .inf false
  | .log2, .fin s a b =>
    if a = 0 then .inf true else if s then .nan
    else let r := log2Frac a b; .fin (r.1) r.2.1 r.2.2
  | .sin, .inf _ => .nan
  | .sin, .fin s a b =>
    if a = 0 then .fin s 0 1
    else if a * 2 ^ 40 < b then .fin s (a * 2 ^ 200 - 1) (b * 2 ^ 200)
    else let v := sinFix false a b; .fin (s != decide (v < 0)) v.natAbs fixOne
  | .cos, .inf _ => .nan
  | .cos, .fin _ a b =>
    if a = 0 then .fin false 1 1
    else let v := sinFix true a b; .fin (decide (v < 0)) v.natAbs fixOne

/-! ## Integer fitting -/

/-- R108: the ends of an integer type of width w. -/
def intMin (signed : Bool) (w : Nat) : Int := if signed then -(2 ^ (w - 1) : Nat) else 0
/-- R108: the ends of an integer type of width w. -/
def intMax (signed : Bool) (w : Nat) : Int := if signed then (2 ^ (w - 1) : Nat) - 1 else (2 ^ w : Nat) - 1

/-- R222: wraps or clamps an exact integer result to width w; the bits. -/
def fitInt (signed sat : Bool) (w : Nat) (x : Int) : Nat :=
  let y := if sat then max (intMin signed w) (min x (intMax signed w)) else x
  (y % (2 ^ w : Nat)).toNat

/-- R107: the value of w bits as an integer type. -/
def intVal (signed : Bool) (w bits : Nat) : Int := if signed && 2 ^ (w - 1) ≤ bits then (bits : Int) - (2 ^ w : Nat) else bits

/-! ## DM8 (R114 to R117) -/

/-- Ten to the power of an integer, as a fraction. -/
def pow10Frac (e : Int) : Nat × Nat := if e < 0 then (1, 10 ^ e.natAbs) else (10 ^ e.toNat, 1)

/-- R114: the magnitude of a code with field c from 2 to 127, as a fraction. -/
def dm8Mag (c : Nat) : Nat × Nat :=
  let z := 6 - c.log2
  let (ef, frac, fden) : Int × Nat × Nat :=
    match z with
    | 0 => ((c / 16 % 4 : Nat) - 2, c % 16, 16)
    | 1 => let e := c / 4 % 8; (if e < 4 then (e : Int) - 6 else (e : Int) - 2, c % 4, 4)
    | 2 => let e := c / 2 % 8; (if e < 4 then (e : Int) - 10 else (e : Int) + 2, c % 2, 2)
    | 3 => let e := c % 8; (if e < 4 then (e : Int) - 14 else (e : Int) + 6, 0, 1)
    | 4 => let e := c % 4; (if e < 2 then (e : Int) - 16 else (e : Int) + 12, 0, 1)
    | _ => (if c % 2 = 0 then -17 else 16, 0, 1)
  let p := pow10Frac ef
  ((fden + 9 * frac) * p.1, fden * p.2)

/-- R114: the value of a DM8 code. -/
def dm8Val (code : Nat) : FVal :=
  let neg := 128 ≤ code
  let c := code % 128
  if c = 0 then (if neg then .nan else .fin false 0 1)
  else if c = 1 then .inf neg
  else let m := dm8Mag c; .fin neg m.1 m.2

/-- Compares two fractions. -/
def fracLe (a b : Nat × Nat) : Bool := a.1 * b.2 ≤ b.1 * a.2

/-- R117: the set V as codes: zero and the 126 magnitudes. -/
def dm8Codes : List Nat := 0 :: (List.range 126).map (· + 2)

/-- The magnitude of a code of V. -/
def dm8V (c : Nat) : Nat × Nat := if c = 0 then (0, 1) else dm8Mag c

/-- R117: the code of V next below or equal, and next above or equal, a magnitude that is at most 10^16. -/
def dm8Around (x : Nat × Nat) : Nat × Nat :=
  dm8Codes.foldl (fun lh c =>
    (if fracLe (dm8V c) x && fracLe (dm8V lh.1) (dm8V c) then c else lh.1,
     if fracLe x (dm8V c) && fracLe (dm8V c) (dm8V lh.2) then c else lh.2)) (0, 3)

/-- R117: conversion of a value to DM8. -/
def toDm8 (mode : Nat) (sat : Bool) : FVal → Nat
  | .nan => 0x80
  | .inf neg => if neg then 0x81 else 0x01
  | .fin neg num den =>
    let x := (num, den)
    let sign (c : Nat) := if neg && c ≠ 0 then c + 128 else c
    let up := (mode = 3 && !neg) || (mode = 2 && neg)
    if !fracLe x (10 ^ 16, 1) then
      if (mode = 0 || up) && !sat then (if neg then 0x81 else 0x01) else sign 3
    else
      let lh := dm8Around x
      let lo := dm8V lh.1
      let hi := dm8V lh.2
      if fracLe x lo || mode = 1 then sign lh.1
      else if mode = 0 then
        -- twice x against lo + hi
        let s : Nat × Nat := (lo.1 * hi.2 + hi.1 * lo.2, lo.2 * hi.2)
        let t : Nat × Nat := (2 * num, den)
        if fracLe t s then
          if fracLe s t then sign (if lh.1 % 2 = 0 then lh.1 else if lh.2 % 2 = 0 then lh.2 else lh.1) else sign lh.1
        else sign lh.2
      else if up then sign lh.2 else sign lh.1

/-! ## Conversions (R118) -/

/-- R118: conversion of a value to an integer type: none is CONVERT_RANGE poison. -/
def toInt (mode : Nat) (sat signed : Bool) (w : Nat) : FVal → Option Nat
  | .nan => if sat then some 0 else none
  | .inf neg => if sat then some (fitInt signed true w (if neg then intMin signed w else intMax signed w)) else none
  | .fin neg num den =>
    let m := roundInt mode neg num den
    let x : Int := if neg then -(m : Int) else m
    if intMin signed w ≤ x && x ≤ intMax signed w then some (fitInt signed false w x)
    else if sat then some (fitInt signed true w x) else none

/-- An integer as an exact value; zero is +0. -/
def FVal.ofInt (x : Int) : FVal := .fin (x < 0) x.natAbs 1

/-- R118, R119, R240: CVT of a 32-bit register between the formats of R240; none is CONVERT_RANGE poison. -/
def convert (mode : Nat) (sat ftz : Bool) (src dst : Nat) (a : Word) : Option Word :=
  let lo16 := a.toNat % 65536
  let lo8 := a.toNat % 256
  let val : FVal := match src with
    | 0 => .ofInt a.toInt
    | 1 => .ofInt a.toNat
    | 2 => fp32.decode ftz a.toNat
    | 3 => bf16.decode ftz lo16
    | 6 => dm8Val lo8
    | _ => .ofInt (intVal true 8 lo8)
  let int := src = 0 || src = 1
  -- R116: a DM8 source rounds to nearest and ignores saturation and flushing
  let (rm, st, fz) := if src = 6 then (0, false, false) else (mode, sat, ftz)
  match dst with
  | 0 => if src = 7 then some (BitVec.ofInt 32 (intVal true 8 lo8)) else (toInt rm st true 32 val).map (BitVec.ofNat 32)
  | 1 => (toInt rm st false 32 val).map (BitVec.ofNat 32)
  | 2 => some (BitVec.ofNat 32 (fp32.fit rm st fz val.isFinite val))
  | 3 => some (BitVec.ofNat 32 (bf16.fit rm st fz val.isFinite val))
  | 4 => (toInt rm st true 16 val).map fun x => (BitVec.ofNat 16 x).signExtend 32
  | 5 => (toInt rm st false 16 val).map fun x => (BitVec.ofNat 16 x).setWidth 32
  | 6 => some (BitVec.ofNat 32 (toDm8 rm st val))
  | _ =>
    if int then
      let x : Int := if src = 0 then a.toInt else a.toNat
      some ((BitVec.ofNat 8 (fitInt true sat 8 x)).signExtend 32)
    else (toInt rm st true 8 val).map fun x => (BitVec.ofNat 8 x).signExtend 32

end Sys2Proof.Machine
end

