-- ==== Sys2Proof/Config.lean ====
section
/-!
DEFINITION. What the specification leaves open, as constants without a body: no proof can see their values, so a
statement about them holds for every value. Each is applied to a counter of the state (a fresh value each time) or to
the operands it depends on.
-/

namespace Sys2Proof.Config

/-- R43: which free entry a new side-table record takes. DESIGN CHOICE (log entry 4). -/
opaque entryChoice : Nat → Nat

/-- R88: which of the writes that the rules allow a read returns. DESIGN CHOICE (log entry 5). -/
opaque readChoice : Nat → Nat

/-- R386, R392: whether a translation held by a core is used although the leaf has changed since. DESIGN CHOICE
(log entry 6). -/
opaque tlbChoice : Nat → Bool

/-- R386: which entry of a full TLB makes room. DESIGN CHOICE (log entry 6). -/
opaque tlbVictim : Nat → Nat

/-- R2, R213: the local cycle counter. DESIGN CHOICE (log entry 7). -/
opaque cycles : Nat → BitVec 64

/-- R449: local cycles added to tdelay or lwait by one event. DESIGN CHOICE (log entry 7). -/
opaque delay : Nat → BitVec 32

/-- R450: how many of the records in a core's trace buffer are still there when the next one comes. DESIGN CHOICE (log entry 7). -/
opaque traceKept : Nat → Nat

/-- R425: the signature of an attestation report by the device key under a leaf. DESIGN CHOICE (log entry 8). -/
opaque attestSignature : List Byte → Nat → List Byte

/-- R106: whether a BIND beyond the bound of R106 finds its slice full. DESIGN CHOICE (log entry 13). -/
opaque bindFull : Nat → Bool

/-- R74, R106: the L2 slice of its home quadrant that a line is homed on, which remains unpublished. DESIGN CHOICE (log entry 68). -/
opaque homeSlice : Nat → Nat

/-- R418: the self-test result of a unit at a reset: the failing step, 0 for a pass. DESIGN CHOICE (log entry 14). -/
opaque selfTest : Nat → Nat → BitVec 16

/-- R418: the failing address or pattern of a unit at a reset. DESIGN CHOICE (log entry 14). -/
opaque selfTestDetail : Nat → Nat → BitVec 160

/-- R357, R360: the stack bytes per thread of a kernel, which the launch record does not hold: context tag and entry
address. DESIGN CHOICE (log entry 28). -/
opaque stackBytes : Nat → Nat → BitVec 32

end Sys2Proof.Config
end

