-- ==== Sys2Proof/Syntax.lean ====
section
/-!
DEFINITION. Syntax of the VJ-HM400: one constructor of Instr per row of the opcode table. The first 227 are the
instruction words (R153, R174); the others are the steps of the other agents (95_what_each_step_holds). Field names
are those of the table; e and f, the E bits of fields a and b (R153), are called ea and eb here.
-/

namespace Sys2Proof

/-- R403: a packet of a chord, its header fields parsed. `data` holds the data bytes and `marks` says which of their
words the flits' pmask marks as poisoned (R409). -/
structure Packet where
  op : BitVec 4
  vc : BitVec 2
  pext : Bool
  status : BitVec 2
  len : BitVec 9
  tag : BitVec 12
  src : BitVec 12
  dst : BitVec 12
  ctxtag : BitVec 8
  aop : BitVec 8
  aflags : BitVec 2
  pa : BitVec 52
  org0 : BitVec 32
  org1 : BitVec 32
  data : List (BitVec 8)
  marks : List Bool
  deriving DecidableEq, Repr

/-- R129: a worklist entry of 16 bytes, as its four words. -/
structure Entry where
  prio : BitVec 32
  ctl : BitVec 32
  lo : BitVec 32
  hi : BitVec 32
  deriving DecidableEq, Repr

/-- R403: what a MESSAGE about a worklist carries between the units of two packages. The payload is internal to the units
(R403); these are the messages that R126 to R150 need. Units are named by node * 4 + quadrant. `asking` is the bucket of the
urgent push that the source asks for. -/
inductive ListMessage where
  | summary (source : Nat) (low : Option Nat) (count : Nat) (asking : Option Nat)
  | stealRequest (thief victim : Nat)
  | stealReply (thief victim : Nat) (entries : List Entry)
  | stealTaken (victim serial : Nat)
  | floorLower (source : Nat) (floor : Nat)
  | floorAck (source target floor : Nat)
  | cellLook (unit tag pa : Nat)
  | cellState (unit node pa : Nat) (state : Nat)
  | waveRead (leader : Nat)
  | waveReply (source : Nat) (pushes dones : BitVec 64)
  | armed
  | terminated
  | configure (node : Nat) (words : List (BitVec 32))
  | configured (node : Nat)
  deriving DecidableEq, Repr

/-- R403: what a MESSAGE carries: a message about a worklist of the receiver's context, with the number of the configuration
that it belongs to, or one between distributors (R27): they are named by node * 4 + quadrant, and the units lo to hi - 1 are dealt
units by their number; `more` says that another part of the answer follows. -/
inductive Message where
  | list (ctx list config : Nat) (msg : ListMessage)
  | unitSummary (launch source target count : Nat)
  | unitSteal (launch : Nat) (thief victim : Nat)
  | unitReply (launch thief victim lo hi : Nat) (more : Bool)
  deriving DecidableEq, Repr

/-- R363, R364: where a host agent reads: the channel of VOCL or the requester of CXL.mem by which it does, and the address or the
offset there. -/
structure HostPlace where
  agent : Nat
  addr : Nat
  deriving DecidableEq, Repr

/-- One constructor per row of the opcode table. -/
inductive Instr where
  /-- R187: Sends the whole path to the target if the predicate test holds in any active thread. -/
  | bra (p : BitVec 3) (s : Bool) (o : BitVec 19)
  /-- R185: Per-thread conditional branch that may split the path at the pending join point. -/
  | brc (p : BitVec 3) (s : Bool) (o : BitVec 19)
  /-- R189: Pushes the next PC on the return stack and branches without divergence. -/
  | call (o : BitVec 19)
  /-- R184: Sets the path's pending join point and records mode and return stack. -/
  | reconv (o : BitVec 19)
  /-- R55: Opens a span with a declared action and recovery PC for the active threads. -/
  | span (c : BitVec 2) (o : BitVec 19)
  /-- R61: Evaluates the open threads of the path and releases, drops, replays or sends them to recovery. -/
  | commit (c : BitVec 2) (o : BitVec 19)
  /-- R188: Indirect branch on a per-thread 64-bit target, splitting by distinct targets. -/
  | brx (ea : Bool) (a : BitVec 7)
  /-- R188: Indirect call on a per-thread target, pushing the return address. -/
  | callx (ea : Bool) (a : BitVec 7)
  /-- R192: Opens a melded region, placing threads on melded path 0 or 1 by predicate. -/
  | meld (ea : Bool) (p : BitVec 3)
  /-- R194: Writes one rename-table entry mapping a v-register name to another. -/
  | rnset (n : BitVec 4) (a b : BitVec 7)
  /-- R223: Adds two sources and fits the result to the mode type. -/
  | add (d : BitVec 7) (ea : Bool) (a : BitVec 7) (eb : Bool) (b : BitVec 7)
  /-- R223: Uniform ADD on s-registers. -/
  | addU (d : BitVec 7) (ea : Bool) (a : BitVec 7) (eb : Bool) (b : BitVec 7)
  /-- R223: Subtracts b from a. -/
  | sub (d : BitVec 7) (ea : Bool) (a : BitVec 7) (eb : Bool) (b : BitVec 7)
  /-- R223: Uniform SUB. -/
  | subU (d : BitVec 7) (ea : Bool) (a : BitVec 7) (eb : Bool) (b : BitVec 7)
  /-- R223: Multiplies two sources. -/
  | mul (d : BitVec 7) (ea : Bool) (a : BitVec 7) (eb : Bool) (b : BitVec 7)
  /-- R223: Uniform MUL. -/
  | mulU (d : BitVec 7) (ea : Bool) (a : BitVec 7) (eb : Bool) (b : BitVec 7)
  /-- R223: Returns the high half of the exact integer product. -/
  | mulhi (d : BitVec 7) (ea : Bool) (a : BitVec 7) (eb : Bool) (b : BitVec 7)
  /-- R223: Uniform MULHI. -/
  | mulhiU (d : BitVec 7) (ea : Bool) (a : BitVec 7) (eb : Bool) (b : BitVec 7)
  /-- R223: Computes a times b plus d with one rounding. -/
  | fma (d : BitVec 7) (ea : Bool) (a : BitVec 7) (eb : Bool) (b : BitVec 7)
  /-- R223: Uniform FMA. -/
  | fmaU (d : BitVec 7) (ea : Bool) (a : BitVec 7) (eb : Bool) (b : BitVec 7)
  /-- R224: Returns the lesser operand. -/
  | min (d : BitVec 7) (ea : Bool) (a : BitVec 7) (eb : Bool) (b : BitVec 7)
  /-- R224: Uniform MIN. -/
  | minU (d : BitVec 7) (ea : Bool) (a : BitVec 7) (eb : Bool) (b : BitVec 7)
  /-- R224: Returns the greater operand. -/
  | max (d : BitVec 7) (ea : Bool) (a : BitVec 7) (eb : Bool) (b : BitVec 7)
  /-- R224: Uniform MAX. -/
  | maxU (d : BitVec 7) (ea : Bool) (a : BitVec 7) (eb : Bool) (b : BitVec 7)
  /-- R226: Divides a by b, with INT_DIV_ZERO poison for integer division by zero. -/
  | div (d : BitVec 7) (ea : Bool) (a : BitVec 7) (eb : Bool) (b : BitVec 7)
  /-- R226: Uniform DIV. -/
  | divU (d : BitVec 7) (ea : Bool) (a : BitVec 7) (eb : Bool) (b : BitVec 7)
  /-- R226: Integer remainder truncated toward zero. -/
  | rem (d : BitVec 7) (ea : Bool) (a : BitVec 7) (eb : Bool) (b : BitVec 7)
  /-- R226: Uniform REM. -/
  | remU (d : BitVec 7) (ea : Bool) (a : BitVec 7) (eb : Bool) (b : BitVec 7)
  /-- R225: Negates a. -/
  | neg (d : BitVec 7) (ea : Bool) (a : BitVec 7)
  /-- R225: Uniform NEG. -/
  | negU (d : BitVec 7) (ea : Bool) (a : BitVec 7)
  /-- R225: Absolute value of a. -/
  | abs (d : BitVec 7) (ea : Bool) (a : BitVec 7)
  /-- R225: Uniform ABS. -/
  | absU (d : BitVec 7) (ea : Bool) (a : BitVec 7)
  /-- R235: Selects a or b per thread by the guard predicate. -/
  | sel (d : BitVec 7) (ea : Bool) (a : BitVec 7) (eb : Bool) (b : BitVec 7)
  /-- R227: Adds two 64-bit register pairs modulo 2^64. -/
  | add64 (d : BitVec 7) (ea : Bool) (a : BitVec 7) (eb : Bool) (b : BitVec 7)
  /-- R227: Uniform ADD64 on s pairs. -/
  | add64U (d : BitVec 7) (ea : Bool) (a : BitVec 7) (eb : Bool) (b : BitVec 7)
  /-- R227: Adds an extended 32-bit offset to a 64-bit pair. -/
  | lea (d : BitVec 7) (ea : Bool) (a : BitVec 7) (eb : Bool) (b : BitVec 7)
  /-- R227: Uniform LEA. -/
  | leaU (d : BitVec 7) (ea : Bool) (a : BitVec 7) (eb : Bool) (b : BitVec 7)
  /-- R237: Writes a predicate with the truth of a comparison condition. -/
  | cmp (c : BitVec 4) (p : BitVec 3) (ea : Bool) (a : BitVec 7) (eb : Bool) (b : BitVec 7)
  /-- R239: Writes a predicate true when the class of a is in the mask. -/
  | classP (p : BitVec 3) (ea : Bool) (a : BitVec 7) (m : BitVec 8)
  /-- R230: Bitwise AND. -/
  | and (d : BitVec 7) (ea : Bool) (a : BitVec 7) (eb : Bool) (b : BitVec 7)
  /-- R230: Uniform AND. -/
  | andU (d : BitVec 7) (ea : Bool) (a : BitVec 7) (eb : Bool) (b : BitVec 7)
  /-- R230: Bitwise OR. -/
  | or (d : BitVec 7) (ea : Bool) (a : BitVec 7) (eb : Bool) (b : BitVec 7)
  /-- R230: Uniform OR. -/
  | orU (d : BitVec 7) (ea : Bool) (a : BitVec 7) (eb : Bool) (b : BitVec 7)
  /-- R230: Bitwise XOR. -/
  | xor (d : BitVec 7) (ea : Bool) (a : BitVec 7) (eb : Bool) (b : BitVec 7)
  /-- R230: Uniform XOR. -/
  | xorU (d : BitVec 7) (ea : Bool) (a : BitVec 7) (eb : Bool) (b : BitVec 7)
  /-- R230: Bitwise complement of a. -/
  | not (d : BitVec 7) (ea : Bool) (a : BitVec 7)
  /-- R230: Uniform NOT. -/
  | notU (d : BitVec 7) (ea : Bool) (a : BitVec 7)
  /-- R231: Shifts left by b. -/
  | shl (d : BitVec 7) (ea : Bool) (a : BitVec 7) (eb : Bool) (b : BitVec 7)
  /-- R231: Uniform SHL. -/
  | shlU (d : BitVec 7) (ea : Bool) (a : BitVec 7) (eb : Bool) (b : BitVec 7)
  /-- R231: Logical shift right by b. -/
  | shr (d : BitVec 7) (ea : Bool) (a : BitVec 7) (eb : Bool) (b : BitVec 7)
  /-- R231: Uniform SHR. -/
  | shrU (d : BitVec 7) (ea : Bool) (a : BitVec 7) (eb : Bool) (b : BitVec 7)
  /-- R231: Arithmetic shift right by b. -/
  | sar (d : BitVec 7) (ea : Bool) (a : BitVec 7) (eb : Bool) (b : BitVec 7)
  /-- R231: Uniform SAR. -/
  | sarU (d : BitVec 7) (ea : Bool) (a : BitVec 7) (eb : Bool) (b : BitVec 7)
  /-- R231: Rotates left by b mod 32. -/
  | rot (d : BitVec 7) (ea : Bool) (a : BitVec 7) (eb : Bool) (b : BitVec 7)
  /-- R231: Uniform ROT. -/
  | rotU (d : BitVec 7) (ea : Bool) (a : BitVec 7) (eb : Bool) (b : BitVec 7)
  /-- R232: Extracts a bit field of a described by b. -/
  | bfx (d : BitVec 7) (ea : Bool) (a : BitVec 7) (eb : Bool) (b : BitVec 7)
  /-- R232: Uniform BFX. -/
  | bfxU (d : BitVec 7) (ea : Bool) (a : BitVec 7) (eb : Bool) (b : BitVec 7)
  /-- R232: Inserts the low bits of a into a field of d. -/
  | bfi (d : BitVec 7) (ea : Bool) (a : BitVec 7) (eb : Bool) (b : BitVec 7)
  /-- R232: Uniform BFI. -/
  | bfiU (d : BitVec 7) (ea : Bool) (a : BitVec 7) (eb : Bool) (b : BitVec 7)
  /-- R233: Counts set bits of a. -/
  | popc (d : BitVec 7) (ea : Bool) (a : BitVec 7)
  /-- R233: Uniform POPC. -/
  | popcU (d : BitVec 7) (ea : Bool) (a : BitVec 7)
  /-- R233: Counts leading zeros of a. -/
  | clz (d : BitVec 7) (ea : Bool) (a : BitVec 7)
  /-- R233: Uniform CLZ. -/
  | clzU (d : BitVec 7) (ea : Bool) (a : BitVec 7)
  /-- R233: Counts trailing zeros of a. -/
  | ctz (d : BitVec 7) (ea : Bool) (a : BitVec 7)
  /-- R233: Uniform CTZ. -/
  | ctzU (d : BitVec 7) (ea : Bool) (a : BitVec 7)
  /-- R233: Reverses the bit order of a. -/
  | brev (d : BitVec 7) (ea : Bool) (a : BitVec 7)
  /-- R233: Uniform BREV. -/
  | brevU (d : BitVec 7) (ea : Bool) (a : BitVec 7)
  /-- R234: Copies a with its poison unchanged. -/
  | mov (d : BitVec 7) (ea : Bool) (a : BitVec 7)
  /-- R234: Uniform MOV. -/
  | movU (d : BitVec 7) (ea : Bool) (a : BitVec 7)
  /-- R228: Correctly rounded reciprocal. -/
  | rcp (d : BitVec 7) (ea : Bool) (a : BitVec 7)
  /-- R228: Uniform RCP. -/
  | rcpU (d : BitVec 7) (ea : Bool) (a : BitVec 7)
  /-- R228: Reciprocal square root. -/
  | rsq (d : BitVec 7) (ea : Bool) (a : BitVec 7)
  /-- R228: Uniform RSQ. -/
  | rsqU (d : BitVec 7) (ea : Bool) (a : BitVec 7)
  /-- R228: Correctly rounded square root. -/
  | sqrt (d : BitVec 7) (ea : Bool) (a : BitVec 7)
  /-- R228: Uniform SQRT. -/
  | sqrtU (d : BitVec 7) (ea : Bool) (a : BitVec 7)
  /-- R228: Base-2 exponential. -/
  | exp2 (d : BitVec 7) (ea : Bool) (a : BitVec 7)
  /-- R228: Uniform EXP2. -/
  | exp2U (d : BitVec 7) (ea : Bool) (a : BitVec 7)
  /-- R228: Base-2 logarithm. -/
  | log2 (d : BitVec 7) (ea : Bool) (a : BitVec 7)
  /-- R228: Uniform LOG2. -/
  | log2U (d : BitVec 7) (ea : Bool) (a : BitVec 7)
  /-- R228: Sine in radians. -/
  | sin (d : BitVec 7) (ea : Bool) (a : BitVec 7)
  /-- R228: Uniform SIN. -/
  | sinU (d : BitVec 7) (ea : Bool) (a : BitVec 7)
  /-- R228: Cosine in radians. -/
  | cos (d : BitVec 7) (ea : Bool) (a : BitVec 7)
  /-- R228: Uniform COS. -/
  | cosU (d : BitVec 7) (ea : Bool) (a : BitVec 7)
  /-- R241: Converts between the formats named in imm8. -/
  | cvt (d : BitVec 7) (ea : Bool) (a : BitVec 7) (i : BitVec 8)
  /-- R241: Uniform CVT. -/
  | cvtU (d : BitVec 7) (ea : Bool) (a : BitVec 7) (i : BitVec 8)
  /-- R242: Builds a packed pair from two 32-bit sources. -/
  | pack2 (d : BitVec 7) (ea : Bool) (a : BitVec 7) (eb : Bool) (b : BitVec 7)
  /-- R242: Uniform PACK2. -/
  | pack2U (d : BitVec 7) (ea : Bool) (a : BitVec 7) (eb : Bool) (b : BitVec 7)
  /-- R243: Widens one element of a packed pair. -/
  | unpk2 (d : BitVec 7) (ea : Bool) (a : BitVec 7) (n : Bool)
  /-- R243: Uniform UNPK2. -/
  | unpk2U (d : BitVec 7) (ea : Bool) (a : BitVec 7) (n : Bool)
  /-- R223: Adds an extended 8-bit immediate. -/
  | addi (d : BitVec 7) (ea : Bool) (a : BitVec 7) (i : BitVec 8)
  /-- R223: Uniform ADDI. -/
  | addiU (d : BitVec 7) (ea : Bool) (a : BitVec 7) (i : BitVec 8)
  /-- R230: AND with a zero-extended immediate. -/
  | andi (d : BitVec 7) (ea : Bool) (a : BitVec 7) (i : BitVec 8)
  /-- R230: Uniform ANDI. -/
  | andiU (d : BitVec 7) (ea : Bool) (a : BitVec 7) (i : BitVec 8)
  /-- R230: OR with a zero-extended immediate. -/
  | ori (d : BitVec 7) (ea : Bool) (a : BitVec 7) (i : BitVec 8)
  /-- R230: Uniform ORI. -/
  | oriU (d : BitVec 7) (ea : Bool) (a : BitVec 7) (i : BitVec 8)
  /-- R230: XOR with a zero-extended immediate. -/
  | xori (d : BitVec 7) (ea : Bool) (a : BitVec 7) (i : BitVec 8)
  /-- R230: Uniform XORI. -/
  | xoriU (d : BitVec 7) (ea : Bool) (a : BitVec 7) (i : BitVec 8)
  /-- R231: Shifts left by an immediate amount. -/
  | shli (d : BitVec 7) (ea : Bool) (a : BitVec 7) (i : BitVec 5)
  /-- R231: Uniform SHLI. -/
  | shliU (d : BitVec 7) (ea : Bool) (a : BitVec 7) (i : BitVec 5)
  /-- R231: Logical shift right by an immediate amount. -/
  | shri (d : BitVec 7) (ea : Bool) (a : BitVec 7) (i : BitVec 5)
  /-- R231: Uniform SHRI. -/
  | shriU (d : BitVec 7) (ea : Bool) (a : BitVec 7) (i : BitVec 5)
  /-- R238: Compares a with an immediate into a predicate. -/
  | cmpi (c : BitVec 4) (p : BitVec 3) (ea : Bool) (a : BitVec 7) (i : BitVec 8)
  /-- R234: Writes a zero-extended 16-bit immediate. -/
  | movw (d : BitVec 7) (i : BitVec 16)
  /-- R234: Uniform MOVW. -/
  | movwU (d : BitVec 7) (i : BitVec 16)
  /-- R234: Writes a 16-bit immediate to the upper half of d. -/
  | movh (d : BitVec 7) (i : BitVec 16)
  /-- R234: Uniform MOVH. -/
  | movhU (d : BitVec 7) (i : BitVec 16)
  /-- R245: Each thread reads a from the thread indexed by b. -/
  | shflIdx (d : BitVec 7) (ea : Bool) (a : BitVec 7) (eb : Bool) (b : BitVec 7)
  /-- R245: Each thread reads a from thread t minus n. -/
  | shflUp (d : BitVec 7) (ea : Bool) (a i : BitVec 7)
  /-- R245: Each thread reads a from thread t plus n. -/
  | shflDn (d : BitVec 7) (ea : Bool) (a i : BitVec 7)
  /-- R245: Each thread reads a from thread t xor n. -/
  | shflXor (d : BitVec 7) (ea : Bool) (a i : BitVec 7)
  /-- R245: Each thread reads a from thread n. -/
  | bcast (d : BitVec 7) (ea : Bool) (a i : BitVec 7)
  /-- R246: ALL, ANY or ballot of a predicate over the contributors. -/
  | vote (d : BitVec 7) (ea : Bool) (p : BitVec 3) (k : BitVec 2)
  /-- R247: Prefix scan of a over the contributors in ascending t. -/
  | qscan (d : BitVec 7) (ea : Bool) (a : BitVec 7) (i : BitVec 4)
  /-- R247: Reduction of a over the contributors. -/
  | reduce (d : BitVec 7) (ea : Bool) (a : BitVec 7) (i : BitVec 4)
  /-- R248: AND of two predicates. -/
  | pand (d : BitVec 3) (ea : Bool) (a : BitVec 3) (eb : Bool) (b : BitVec 3)
  /-- R248: OR of two predicates. -/
  | por (d : BitVec 3) (ea : Bool) (a : BitVec 3) (eb : Bool) (b : BitVec 3)
  /-- R248: XOR of two predicates. -/
  | pxor (d : BitVec 3) (ea : Bool) (a : BitVec 3) (eb : Bool) (b : BitVec 3)
  /-- R248: Complement of a predicate. -/
  | pnot (d : BitVec 3) (ea : Bool) (a : BitVec 3)
  /-- R248: Copies a predicate. -/
  | pmov (d : BitVec 3) (ea : Bool) (a : BitVec 3)
  /-- R250: Sets an index register's base and bound. -/
  | xset (d : BitVec 2) (ea : Bool) (a : BitVec 7)
  /-- R250: Adds a signed immediate to an index register's base. -/
  | xadd (d a : BitVec 2) (i : BitVec 8)
  /-- R251: Reads a v-register through an index register. -/
  | movx (d : BitVec 7) (a : BitVec 2) (eb : Bool) (b : BitVec 7)
  /-- R252: Writes b into a v-register through an index register. -/
  | movxw (d : BitVec 2) (ea : Bool) (a : BitVec 7) (eb : Bool) (b : BitVec 7)
  /-- R236: Copies an s-register into a v-register in every executing thread. -/
  | smov (d : BitVec 7) (ea : Bool) (a : BitVec 7)
  /-- R236: Copies the lowest executing thread's v-register into an s-register. -/
  | vset (d : BitVec 7) (ea : Bool) (a : BitVec 7)
  /-- R260: Loads from a flat address, marking the destination empty until data arrives. -/
  | ld (d : BitVec 7) (ea : Bool) (a : BitVec 7) (s : BitVec 2) (k : BitVec 6)
  /-- R260: Uniform LD into s-registers. -/
  | ldU (d : BitVec 7) (ea : Bool) (a : BitVec 7) (s : BitVec 2) (k : BitVec 6)
  /-- R262: Stores to a flat address, held while a span is open. -/
  | st (d : BitVec 7) (ea : Bool) (a : BitVec 7) (s : BitVec 2) (k : BitVec 6)
  /-- R262: Uniform ST. -/
  | stU (d : BitVec 7) (ea : Bool) (a : BitVec 7) (s : BitVec 2) (k : BitVec 6)
  /-- R260: Loads from the scratchpad. -/
  | lds (d : BitVec 7) (ea : Bool) (a : BitVec 7) (s : BitVec 2) (k : BitVec 6)
  /-- R260: Uniform LDS. -/
  | ldsU (d : BitVec 7) (ea : Bool) (a : BitVec 7) (s : BitVec 2) (k : BitVec 6)
  /-- R262: Stores to the scratchpad. -/
  | sts (d : BitVec 7) (ea : Bool) (a : BitVec 7) (s : BitVec 2) (k : BitVec 6)
  /-- R262: Uniform STS. -/
  | stsU (d : BitVec 7) (ea : Bool) (a : BitVec 7) (s : BitVec 2) (k : BitVec 6)
  /-- R71: Loads through the constant cache. -/
  | ldc (d : BitVec 7) (ea : Bool) (a : BitVec 7) (s : BitVec 2) (k : BitVec 6)
  /-- R71: Uniform LDC. -/
  | ldcU (d : BitVec 7) (ea : Bool) (a : BitVec 7) (s : BitVec 2) (k : BitVec 6)
  /-- R264: Brings a line toward the L1 with no architectural effect. -/
  | pref (ea : Bool) (a : BitVec 7) (k : BitVec 6)
  /-- R264: Uniform PREF. -/
  | prefU (ea : Bool) (a : BitVec 7) (k : BitVec 6)
  /-- R265: Atomic add at the home slice. -/
  | aadd (d : BitVec 7) (ea : Bool) (a : BitVec 7) (r w : Bool) (k : BitVec 6)
  /-- R265: Atomic FP32 add at the home slice. -/
  | afadd (d : BitVec 7) (ea : Bool) (a : BitVec 7) (r : Bool) (k : BitVec 6)
  /-- R265: Atomic minimum. -/
  | amin (d : BitVec 7) (ea : Bool) (a : BitVec 7) (r w : Bool) (k : BitVec 6)
  /-- R265: Atomic maximum. -/
  | amax (d : BitVec 7) (ea : Bool) (a : BitVec 7) (r w : Bool) (k : BitVec 6)
  /-- R265: Atomic AND. -/
  | aand (d : BitVec 7) (ea : Bool) (a : BitVec 7) (r w : Bool) (k : BitVec 6)
  /-- R265: Atomic OR. -/
  | aor (d : BitVec 7) (ea : Bool) (a : BitVec 7) (r w : Bool) (k : BitVec 6)
  /-- R265: Atomic XOR. -/
  | axor (d : BitVec 7) (ea : Bool) (a : BitVec 7) (r w : Bool) (k : BitVec 6)
  /-- R265: Atomic exchange. -/
  | axch (d : BitVec 7) (ea : Bool) (a : BitVec 7) (r w : Bool) (k : BitVec 6)
  /-- R265: Atomic compare and swap. -/
  | acas (d : BitVec 7) (ea : Bool) (a : BitVec 7) (r w : Bool) (k : BitVec 6)
  /-- R265: Atomic wrapping increment. -/
  | ainc (d : BitVec 7) (ea : Bool) (a : BitVec 7) (r w : Bool) (k : BitVec 6)
  /-- R267: Binds a region of lines to a synchronisation object. -/
  | bind (d : BitVec 7) (ea : Bool) (a : BitVec 7) (eb : Bool) (b : BitVec 7)
  /-- R267: Uniform BIND. -/
  | bindU (d : BitVec 7) (ea : Bool) (a : BitVec 7) (eb : Bool) (b : BitVec 7)
  /-- R268: Removes an object's region. -/
  | unbind (ea : Bool) (a : BitVec 7)
  /-- R268: Uniform UNBIND. -/
  | unbindU (ea : Bool) (a : BitVec 7)
  /-- R269: Acquires an object, holding the path until write-backs complete. -/
  | acq (d : BitVec 7) (ea : Bool) (a : BitVec 7) (s : BitVec 3)
  /-- R269: Uniform ACQ by the group. -/
  | acqU (d : BitVec 7) (ea : Bool) (a : BitVec 7) (s : BitVec 3)
  /-- R270: Releases an object by writing its word. -/
  | rel (d : BitVec 7) (ea : Bool) (a : BitVec 7) (s : BitVec 3)
  /-- R270: Uniform REL. -/
  | relU (d : BitVec 7) (ea : Bool) (a : BitVec 7) (s : BitVec 3)
  /-- R271: Orders and publishes the thread's accesses at a scope. -/
  | fence (s : BitVec 3)
  /-- R271: Publishes the thread's writes in a virtual range. -/
  | pub (d : BitVec 7) (ea : Bool) (a : BitVec 7) (s : BitVec 3)
  /-- R273: Pushes a word into an engine command buffer, forking the operation at the last word. -/
  | qw (q : BitVec 3) (ea : Bool) (a : BitVec 7)
  /-- R274: Pops an engine result queue into an s-register. -/
  | qr (d : BitVec 7) (q : BitVec 3)
  /-- R275: Returns an engine queue's status word. -/
  | qstat (d : BitVec 7) (q : BitVec 3)
  /-- R280: Sets a sync word's target and clears its count. -/
  | swset (d : BitVec 7) (ea : Bool) (a : BitVec 7)
  /-- R280: Adds to a sync word's count. -/
  | swadd (d : BitVec 7) (ea : Bool) (a : BitVec 7)
  /-- R280: Reads a sync word's generation. -/
  | swgen (d : BitVec 7) (ea : Bool) (a : BitVec 7)
  /-- R281: Reads a future cell, returning FUTURE_EMPTY poison if empty. -/
  | fread (d : BitVec 7) (ea : Bool) (a : BitVec 7) (k : BitVec 6)
  /-- R281: Uniform FREAD. -/
  | freadU (d : BitVec 7) (ea : Bool) (a : BitVec 7) (k : BitVec 6)
  /-- R282: Fills a future cell and wakes its waiters. -/
  | ffill (d : BitVec 7) (ea : Bool) (a : BitVec 7) (k : BitVec 6)
  /-- R282: Uniform FFILL. -/
  | ffillU (d : BitVec 7) (ea : Bool) (a : BitVec 7) (k : BitVec 6)
  /-- R283: Parks the path until the future cells are full. -/
  | fwait (ea : Bool) (a : BitVec 7) (k : BitVec 6)
  /-- R284: Clears a future cell's full bit. -/
  | fclr (ea : Bool) (a : BitVec 7) (k : BitVec 6)
  /-- R284: Uniform FCLR. -/
  | fclrU (ea : Bool) (a : BitVec 7) (k : BitVec 6)
  /-- R285: Pushes a 16-byte entry to a worklist. -/
  | wlpush (d : BitVec 7) (w : BitVec 4)
  /-- R285: Uniform WLPUSH. -/
  | wlpushU (d : BitVec 7) (w : BitVec 4)
  /-- R285: Pushes a range entry to a worklist. -/
  | wlpushr (d : BitVec 7) (w : BitVec 4)
  /-- R285: Uniform WLPUSHR. -/
  | wlpushrU (d : BitVec 7) (w : BitVec 4)
  /-- R286: Pops an entry from a worklist, finishing any held task. -/
  | wlpop (d : BitVec 7) (p : BitVec 3) (w : BitVec 4)
  /-- R287: Finishes the thread's held task of a worklist. -/
  | wldone (w : BitVec 4)
  /-- R152: Returns a worklist's status word at the local unit. -/
  | wlstat (d : BitVec 7) (w : BitVec 4)
  /-- R128: Privileged configuration of a worklist from a descriptor. -/
  | wlcfg (d : BitVec 7) (ea : Bool) (a : BitVec 7) (w : BitVec 4)
  /-- R294: Swaps the group's gang register with a new gang word. -/
  | gang (d : BitVec 7) (ea : Bool) (a : BitVec 7)
  /-- R295: Arrives at the rendezvous latch for an unscaled matrix operation. -/
  | mma (c : BitVec 3) (ea : Bool) (a : BitVec 7) (s : BitVec 3)
  /-- R295: Arrives at the rendezvous latch for a scaled matrix operation. -/
  | mmas (c : BitVec 3) (ea : Bool) (a : BitVec 7) (s : BitVec 3)
  /-- R305: Zeroes an accumulator tile once it is full. -/
  | accz (c : BitVec 3)
  /-- R306: Loads an accumulator tile from memory. -/
  | accld (c : BitVec 3) (ea : Bool) (a : BitVec 7) (s : BitVec 3)
  /-- R306: Stores a full accumulator tile to memory with conversion. -/
  | accst (c : BitVec 3) (ea : Bool) (a : BitVec 7) (s : BitVec 3)
  /-- R307: Reads one tile element per thread. -/
  | accrd (d : BitVec 7) (c : BitVec 3) (eb : Bool) (b : BitVec 7)
  /-- R307: Writes one tile element per thread. -/
  | accwr (c : BitVec 3) (ea : Bool) (a : BitVec 7) (eb : Bool) (b : BitVec 7)
  /-- R301: Returns a tile's progress without waiting. -/
  | mprog (d : BitVec 7) (c : BitVec 3)
  /-- R308: Checks a tile descriptor and returns a status. -/
  | tdesc (d : BitVec 7) (ea : Bool) (a : BitVec 7)
  /-- R309: Converts a memory tile from one element format to another. -/
  | tcvt (d : BitVec 7) (ea : Bool) (a : BitVec 7) (s : BitVec 3)
  /-- R180: Writes the whole mode register of the path. -/
  | mode (i : BitVec 16)
  /-- R180: Writes guard, sense and path fields of the mode register. -/
  | modeg (i : BitVec 16)
  /-- R181: Stages register blocks into the operand buffer. -/
  | stage (i : BitVec 16)
  /-- R198: Writes a predicate true where a source is poisoned. -/
  | pchk (p : BitVec 3) (ea : Bool) (a : BitVec 7) (k : BitVec 2)
  /-- R199: Writes a word with a source's poison token and cause. -/
  | pcause (d : BitVec 7) (ea : Bool) (a : BitVec 7)
  /-- R199: Uniform PCAUSE on an s-register. -/
  | pcauseU (d : BitVec 7) (ea : Bool) (a : BitVec 7)
  /-- R200: Reads a word of the side-table record or first-live record. -/
  | porig (d : BitVec 7) (ea : Bool) (a : BitVec 7) (b : BitVec 4)
  /-- R200: Uniform PORIG. -/
  | porigU (d : BitVec 7) (ea : Bool) (a : BitVec 7) (b : BitVec 4)
  /-- R201: Replaces a poisoned value by a clean zero. -/
  | pclr (d : BitVec 7) (ea : Bool) (a : BitVec 7)
  /-- R201: Uniform PCLR. -/
  | pclrU (d : BitVec 7) (ea : Bool) (a : BitVec 7)
  /-- R201: Creates PROGRAM poison with a record. -/
  | pmake (d : BitVec 7) (ea : Bool) (a : BitVec 7)
  /-- R201: Uniform PMAKE. -/
  | pmakeU (d : BitVec 7) (ea : Bool) (a : BitVec 7)
  /-- R204: Arrives at a named barrier and waits for the phase to complete. -/
  | barSync (c : BitVec 5) (b : BitVec 4)
  /-- R204: Arrives at a named barrier without waiting. -/
  | barArrive (c : BitVec 5) (b : BitVec 4)
  /-- R205: Waits for the phase of the group's pending arrival. -/
  | barWait (b : BitVec 4)
  /-- R206: Arms the group's monitor on a line and clears its flag. -/
  | monitor (ea : Bool) (a : BitVec 7) (m : Bool)
  /-- R208: Waits until a sync word reaches a generation. -/
  | await (p : BitVec 3) (ea : Bool) (a : BitVec 7) (eb : Bool) (b : BitVec 7)
  /-- R210: Parks the path for at least n local cycles. -/
  | pause (i : BitVec 16)
  /-- R211: Writes the thread's coordinate at a level. -/
  | getid (d : BitVec 7) (k : BitVec 3)
  /-- R211: Uniform GETID. -/
  | getidU (d : BitVec 7) (k : BitVec 3)
  /-- R212: Writes a group-uniform system value. -/
  | getsys (d : BitVec 7) (i : BitVec 4)
  /-- R212: Uniform GETSYS. -/
  | getsysU (d : BitVec 7) (i : BitVec 4)
  /-- R213: Reads a system register. -/
  | sysr (d : BitVec 7) (i : BitVec 8)
  /-- R213: Uniform SYSR. -/
  | sysrU (d : BitVec 7) (i : BitVec 8)
  /-- R213: Writes a writable system register from an s-register. -/
  | sysw (ea : Bool) (a : BitVec 7) (i : BitVec 8)
  /-- R215: Breakpoint that is a NOP, stops the group, or traps. -/
  | brk (i : BitVec 16)
  /-- R216: Emits a trace marker record. -/
  | mark (i : BitVec 16)
  /-- R14: Barrier among a role's groups followed by redistribution of threads by predicate. -/
  | regroup (ea : Bool) (p : BitVec 3)
  /-- R29: Asks the distributor to withdraw an unplaced workgroup into a mailbox. -/
  | fetchwg (d : BitVec 7) (ea : Bool) (a : BitVec 7)
  /-- R175: A fetched word whose code point is unassigned, or whose fetch failed, issues and raises an illegal-instruction event. -/
  | unassignedCodePoint (w : BitVec 32) (reason : Nat)
  /-- R276: Copy-engine command copying words with their poison marks. -/
  | copy (op words : Nat)
  /-- R276: Copy-engine command filling a destination with a pattern. -/
  | fill (op words : Nat)
  /-- R277: Gather-engine command copying indexed table elements to a packed array. -/
  | gather (op words : Nat)
  /-- R277: Gather-engine command copying packed elements to indexed table elements. -/
  | scatter (op words : Nat)
  /-- R278: Collective-engine command applying one atomic per destination word. -/
  | reduceInto (op words : Nat)
  /-- R80: Engine bytes arrive and are added to the sync word, advancing generations. -/
  | engineArrival (op : Nat)
  /-- R272: A completed engine operation enters its result into the paired result queue when room exists. -/
  | engineResult (op : Nat)
  /-- R160: A load, atomic reply or other long-latency result arrives and marks its destination full. -/
  | longLatencyComplete (pending : Nat)
  /-- R62: After service waits end, live threads discard held effects and resume at the start PC. -/
  | spanReplay (group : Nat)
  /-- R15: When all participants have arrived and drained, threads are redistributed by predicate. -/
  | regroupRedistribute (workgroup role : Nat)
  /-- R191: A fully exited group drains producers, frees records, leaves barriers and frees its slot. -/
  | groupExitComplete (group : Nat)
  /-- R36: The watchdog reaches its threshold and raises a group-stall event. -/
  | groupStall (group : Nat)
  /-- R38: All paths of a group are parked on waits that cannot complete, raising an event. -/
  | groupDeadlock (group : Nat)
  /-- R210: A PAUSE's cycle count expires and the path resumes. -/
  | pauseEnd (group path : Nat)
  /-- R26: A distributor places an unplaced workgroup on a core that can admit its gang. -/
  | workgroupPlace (launch quadrant core : Nat)
  /-- R27: A distributor's steal request is answered with half the victim's unplaced units or empty. -/
  | stealRequest (launch thief victim : Nat)
  /-- R27: A distributor's occupancy summary arrives at another quadrant. -/
  | occupancySummary (launch source target : Nat)
  /-- R30: The distributor writes coordinates, status and the destination register of a FETCHWG. -/
  | fetchwgAnswer (group : Nat)
  /-- R136: Units acknowledge a lowered floor and an urgent push is performed. -/
  | floorAcknowledgement (ctx list unit : Nat)
  /-- R144: A worklist unit's summary of its lowest bucket arrives at another unit. -/
  | worklistOccupancySummary (ctx list source target : Nat)
  /-- R145: A worklist unit answers a steal request with entries of its lowest bucket or empty. -/
  | worklistStealRequest (ctx list thief victim : Nat)
  /-- R131: A fill's wake message queues entries parked on the cell. -/
  | futureFillWake (ctx list unit : Nat)
  /-- R150: The wave leader sums push and done counts and declares termination on two equal balanced waves. -/
  | terminationWave (ctx list : Nat)
  /-- R298: The matrix engine completes one k-step of an operation and advances the progress counter. -/
  | kstep (workgroup tile : Nat)
  /-- R302: A paused matrix operation resumes once its fault records are serviced. -/
  | matrixResume (workgroup tile : Nat)
  /-- R388: A PAGE_NOT_PRESENT fault record is posted to the partition's fault queue when room exists. -/
  | faultRecordPost (fault : Nat)
  /-- R370: Distributors read and validate the record at head and start the launch. -/
  | launchRecordRead (queue : Nat)
  /-- R372: A serial launch starts once every earlier launch of its ring has completed. -/
  | serialLaunchStart (launch : Nat)
  /-- R375: A finished launch writes its completion word and optional event. -/
  | launchComplete (launch : Nat)
  /-- R394: After draining, each workgroup's image is written to a slot and its resources freed. -/
  | preemptSave (workgroup : Nat)
  /-- R428: A checkpoint engine copies one marked page into a stream record. -/
  | checkpointPageCopy (partition quadrant : Nat)
  /-- R445: Firmware finishes writing a dump and sends an event. -/
  | dumpComplete (partition : Nat)
  /-- R105: A workgroup moves between cores with a fence and a flush of the old L1. -/
  | migration (workgroup quadrant core : Nat)
  /-- R388: The driver completes a fault record as serviced or failed, releasing its waiters. -/
  | faultCompletion (partition : Nat) (id : BitVec 32) (status : BitVec 2)
  /-- R364: A host agent's write to device memory is performed at the home slice. -/
  | hostWrite (port pa : Nat) (data : List (BitVec 8))
  /-- R364: A host agent reads device memory. -/
  | hostRead (place : HostPlace) (len : Nat)
  /-- R367: A host snoop drops a half of a host-homed line. -/
  | cxlSnoop (pa : Nat) (upper : Bool)
  /-- R368: A host CXL.mem read of a device line returns data or the poison indication. -/
  | cxlMemRead (place : HostPlace) (len : Nat)
  /-- R369: A write to a launch queue descriptor, refusing enable on invalid values. -/
  | queueDescriptorWrite (queue : Nat) (second : Bool) (value : BitVec 64)
  /-- R377: A write defining an isolation partition's quadrant mask. -/
  | partitionMaskWrite (partition : Nat) (value : BitVec 32)
  /-- R378: Makes a context live, bound to a partition and a translation root. -/
  | create (tag partition : Nat) (root : BitVec 64)
  /-- R378: Ends a context's launches and frees its state and bindings. -/
  | destroy (tag : Nat)
  /-- R392: Removes a context's translations for a range and converts affected held effects. -/
  | inval (tag : Nat) (va : BitVec 64) (npages : Nat)
  /-- R394: Stops a context's groups and drains outstanding loads and k-steps. -/
  | preempt (tag : Nat)
  /-- R397: Restores every saved workgroup image onto cores of the partition. -/
  | resume (tag : Nat)
  /-- R400: Setting or clearing a chord's enable bit starts training or takes it down. -/
  | chordEnable (chord : Nat) (value : BitVec 32)
  /-- R400: A chord finishes training and comes up with its lane count and peer. -/
  | chordTrainingComplete (chord : Nat) (ok : Bool) (peer : BitVec 12)
  /-- R404: A data flit is accepted in sequence or discarded, and its packets are performed. -/
  | dataFlitReceive (chord : Nat) (flit : List (BitVec 8))
  /-- R401: An idle flit delivers acknowledgements and go bits. -/
  | idleFlitReceive (chord : Nat) (flit : List (BitVec 8))
  /-- R404: A replay request makes the sender resend its buffer from the named number. -/
  | replayRequestReceive (chord : Nat) (flit : List (BitVec 8))
  /-- R404: rtimer expires, causing a replay or a repeated replay request. -/
  | replayTimerExpiry (chord : Nat)
  /-- R403: A received READ packet passes the inbound filter and is answered with READ_RESP. -/
  | read (chord : Nat) (pkt : Packet)
  /-- R403: A received WRITE packet is performed at the home slice and acknowledged. -/
  | write (chord : Nat) (pkt : Packet)
  /-- R403: A received ATOMIC packet is performed at the home slice and answered. -/
  | atomic (chord : Nat) (pkt : Packet)
  /-- R405: A read response delivers data or poison to the waiting registers. -/
  | readResp (chord : Nat) (pkt : Packet)
  /-- R405: A write acknowledgement counts the bytes or fails the engine operation. -/
  | writeAck (chord : Nat) (pkt : Packet)
  /-- R405: An atomic response delivers the old value or poison. -/
  | atomicResp (chord : Nat) (pkt : Packet)
  /-- R403: A MESSAGE packet carries worklist and distributor traffic between packages. -/
  | message (msg : Message)
  /-- R407: A lane loses lock and the chord retrains on the surviving whole ports. -/
  | laneLoss (chord lane : Nat)
  /-- R417: A function passes self-test and its ready bit is set. -/
  | functionReady (bit : Nat)
  /-- R424: Writes a firmware image to the staging partition. -/
  | stageImage (image : List (BitVec 8))
  /-- R424: Raises the fused minimum security version. -/
  | minsvn (n : Nat)
  /-- R424: Fuses the operator key hash. -/
  | opkey (hash : List (BitVec 8))
  /-- R422: Delivers an image to the ROM to boot once from RAM. -/
  | image (image : List (BitVec 8))
  /-- R425: Returns a signed attestation report for a nonce. -/
  | attest (nonce : List (BitVec 8))
  /-- R428: Starts a checkpoint: flushes, flips the generation and snapshots the dirty map. -/
  | ckpt (partition : Nat)
  /-- R436: A write of a severity matrix word, ignored if any field is reserved. -/
  | matrixWordWrite (partition cls : Nat) (value : BitVec 32)
  /-- R441: Writing the log head consumes records and clears dropped. -/
  | logHeadWrite (partition : Nat) (value : BitVec 32)
  /-- R444: A write of the dump descriptor; writing size clears status. -/
  | dumpDescriptorWrite (partition : Nat) (sizeWord : Bool) (value : BitVec 64)
  /-- R447: A write of a context's debug control bits, record taking effect at the next interval. -/
  | debugBlockWrite (tag off : Nat) (value : BitVec 32)
  /-- R454: Stops every group of a context at its next issue slot. -/
  | halt (tag : Nat)
  /-- R454: Resumes every stopped group of a context. -/
  | go (tag : Nat)
  /-- R455: Runs a stopped workgroup's groups until a barrier, exit or unsatisfiable wait. -/
  | step (tag launch wgnum : Nat)
  /-- R462: Resumes a context in replay from logged values and stops at a precise point. -/
  | replay (tag id n : Nat)
  /-- R453: The sampling period expires and a partition records one sample. -/
  | sample (quadrant core part : Nat) (tag : Nat)
  /-- R391: A channel-1 write to a management register that has no behaviour of its own. -/
  | managementRegisterWrite (off : Nat) (value : BitVec 32)
  /-- R434: A CXL link or protocol error is detected and raises a class-22 event with no context. -/
  | cxlLinkError (info : BitVec 64)
  /-- R434: A unit's internal consistency check fails and raises a class-23 event, reset partition by default. -/
  | internalConsistencyCheck (quadrant : Nat) (source : Nat) (info : BitVec 64)
  /-- R438: Scrubbing finds an ECC error in memory and raises an event that has no context. -/
  | scrubbing (pa : Nat) (uncorrected : Bool)
  /-- R182: Retires with no effect. -/
  | nop
  /-- R182: Uniform NOP; retires with no effect. -/
  | nopU
  /-- R189: Pops the return stack and sends the path to the popped address. -/
  | ret
  /-- R190: Pops or merges reconvergence entries, parks for the other top path, or retires as NOP. -/
  | join
  /-- R191: Ends the guarded active threads of the path after an implicit commit. -/
  | exit
  /-- R194: Closes a melded region and invalidates the rename table. -/
  | meldend
  /-- R194: Invalidates every rename-table entry. -/
  | rnclr
  /-- R207: Parks the path until the monitor flag is set. -/
  | mwait
  /-- R209: Moves the group to the youngest age position. -/
  | yield
  /-- R422: Package reset: the mask ROM verifies and boots firmware and self-test begins. -/
  | reset
  /-- R424: Verifies staging and copies it to active. -/
  | firmwareCommit
  /-- R424: Makes the next reset boot the recovery image. -/
  | recover
  deriving DecidableEq, Repr

end Sys2Proof
end

