-- ==== Sys2Proof/WellFormed.lean ====
section
/-!
DEFINITION. What a legal word is (R177 checks 3 and 4, on the word alone): the sub-fields of R176 and of the
instruction chapters, the register-field rule of R156, and the register boundaries of R157, R253 and R288. The rows
that are steps of other agents have no word; they are never refused here.
-/

namespace Sys2Proof.WellFormed

/-- R156: an s-register field names s0 to s63, so bit 6 is 0. -/
def sReg (r : BitVec 7) : Bool := r.toNat < 64

/-- R157, R253, R288: a register group starts at a multiple of its alignment. -/
def multOf (n : Nat) (r : BitVec 7) : Bool := r.toNat % n == 0

/-- R241: the 25 conversions, source format in [7:4] and destination in [3:0]. -/
def cvtOk (i : BitVec 8) : Bool :=
  [0x23, 0x26, 0x27, 0x20, 0x21, 0x24, 0x25, 0x32, 0x36, 0x37, 0x30, 0x31, 0x34, 0x35, 0x62, 0x63, 0x72, 0x73, 0x70,
    0x02, 0x03, 0x07, 0x12, 0x13, 0x17].contains i.toNat

/-- R213: the system registers that exist. -/
def sysReadable (i : BitVec 8) : Bool := i.toNat ≤ 0x0A || (0x10 ≤ i.toNat && i.toNat ≤ 0x13)

/-- R213: the system registers that SYSW may name. -/
def sysWritable (i : BitVec 8) : Bool := i.toNat == 0 || i.toNat == 9 || (0x10 ≤ i.toNat && i.toNat ≤ 0x13)

/-- R198, R156: the field a of PCHK names a v-register, a predicate, an index register or a tile; only a tile has no E bit here:
R161 denies it to index registers of MOVX and MOVXW (R158). -/
def pchkOk (k : BitVec 2) (ea : Bool) (a : BitVec 7) : Bool :=
  match k.toNat with
  | 0 => true
  | 1 => a.toNat < 8
  | 2 => a.toNat < 4
  | _ => a.toNat < 8 && !ea

/-- R164: a mode value that MODE may write: type not 110 or 111, path not 00, bits [2:0] zero. -/
def modeOk (i : BitVec 16) : Bool :=
  (i.extractLsb' 9 3).toNat < 6 && i.extractLsb' 3 2 != 0 && i.extractLsb' 0 3 == 0

/-- R181: reserved bits are zero and no set bit of the mask names a block above 31. -/
def stageOk (i : BitVec 16) : Bool :=
  i.extractLsb' 8 3 == 0 &&
    (List.range 8).all fun k => !i.getLsbD k || (i.extractLsb' 11 5).toNat + k ≤ 31

/-- R177 check 3 (FIELD), beyond the bits that the formats fix at zero. -/
def fieldOk : Instr → Bool
  | .commit c o => (c == 0 || o == 0)
  | .addU d _ a _ b => sReg d && sReg a && sReg b
  | .subU d _ a _ b => sReg d && sReg a && sReg b
  | .mulU d _ a _ b => sReg d && sReg a && sReg b
  | .mulhiU d _ a _ b => sReg d && sReg a && sReg b
  | .fmaU d _ a _ b => sReg d && sReg a && sReg b
  | .minU d _ a _ b => sReg d && sReg a && sReg b
  | .maxU d _ a _ b => sReg d && sReg a && sReg b
  | .divU d _ a _ b => sReg d && sReg a && sReg b
  | .remU d _ a _ b => sReg d && sReg a && sReg b
  | .negU d _ a => sReg d && sReg a
  | .absU d _ a => sReg d && sReg a
  | .add64U d _ a _ b => sReg d && sReg a && sReg b
  | .leaU d _ a _ b => sReg d && sReg a && sReg b
  | .cmp c _ _ _ _ _ => c.toNat < 8
  | .andU d _ a _ b => sReg d && sReg a && sReg b
  | .orU d _ a _ b => sReg d && sReg a && sReg b
  | .xorU d _ a _ b => sReg d && sReg a && sReg b
  | .notU d _ a => sReg d && sReg a
  | .shlU d _ a _ b => sReg d && sReg a && sReg b
  | .shrU d _ a _ b => sReg d && sReg a && sReg b
  | .sarU d _ a _ b => sReg d && sReg a && sReg b
  | .rotU d _ a _ b => sReg d && sReg a && sReg b
  | .bfxU d _ a _ b => sReg d && sReg a && sReg b
  | .bfiU d _ a _ b => sReg d && sReg a && sReg b
  | .popcU d _ a => sReg d && sReg a
  | .clzU d _ a => sReg d && sReg a
  | .ctzU d _ a => sReg d && sReg a
  | .brevU d _ a => sReg d && sReg a
  | .movU d _ a => sReg d && sReg a
  | .rcpU d _ a => sReg d && sReg a
  | .rsqU d _ a => sReg d && sReg a
  | .sqrtU d _ a => sReg d && sReg a
  | .exp2U d _ a => sReg d && sReg a
  | .log2U d _ a => sReg d && sReg a
  | .sinU d _ a => sReg d && sReg a
  | .cosU d _ a => sReg d && sReg a
  | .cvt _ _ _ i => cvtOk i
  | .cvtU d _ a i => sReg d && sReg a && cvtOk i
  | .pack2U d _ a _ b => sReg d && sReg a && sReg b
  | .unpk2U d _ a _ => sReg d && sReg a
  | .addiU d _ a _ => sReg d && sReg a
  | .andiU d _ a _ => sReg d && sReg a
  | .oriU d _ a _ => sReg d && sReg a
  | .xoriU d _ a _ => sReg d && sReg a
  | .shliU d _ a _ => sReg d && sReg a
  | .shriU d _ a _ => sReg d && sReg a
  | .cmpi c _ _ _ _ => c.toNat < 8
  | .movwU d _ => sReg d
  | .movhU d _ => sReg d
  | .vote d _ _ k => k != 3 && (k == 2 || d.extractLsb' 3 4 == 0)
  | .qscan _ _ _ i => (i.extractLsb' 0 3).toNat < 6
  | .reduce _ _ _ i => i.toNat < 6
  | .smov _ _ a => sReg a
  | .vset d _ _ => sReg d
  | .ldU d _ a _ _ => sReg d && sReg a
  | .stU d _ a _ _ => sReg d && sReg a
  | .ldsU d _ a _ _ => sReg d && sReg a
  | .stsU d _ a _ _ => sReg d && sReg a
  | .ldcU d _ a _ _ => sReg d && sReg a
  | .prefU _ a _ => sReg a
  | .bindU d _ a _ b => sReg d && sReg a && sReg b
  | .unbindU _ a => sReg a
  | .acqU d _ a _ => sReg d && sReg a
  | .relU d _ a _ => sReg d && sReg a
  | .qw q _ a => sReg a && (q != 1 && q != 3 && q != 5)
  | .qr d q => sReg d && (q != 0 && q != 2 && q != 4)
  | .qstat d _ => sReg d
  | .swset d _ a => sReg d && sReg a
  | .swadd d _ a => sReg d && sReg a
  | .swgen d _ a => sReg d && sReg a
  | .freadU d _ a _ => sReg d && sReg a
  | .ffillU d _ a _ => sReg d && sReg a
  | .fclrU _ a _ => sReg a
  | .wlpushU d _ => sReg d
  | .wlpushrU d _ => sReg d
  | .wlstat d _ => sReg d
  | .wlcfg d _ a _ => sReg d && sReg a
  | .gang d _ a => sReg d && sReg a
  | .mma _ _ a _ => sReg a
  | .mmas _ _ a _ => sReg a
  | .accld _ _ a _ => sReg a
  | .accst _ _ a _ => sReg a
  | .mprog d _ => sReg d
  | .tdesc d _ a => sReg d && sReg a
  | .tcvt d _ a _ => sReg d && sReg a
  | .mode i => modeOk i
  | .modeg i => (i &&& 0x0FE7#16 == 0 && i.extractLsb' 3 2 != 0)
  | .stage i => stageOk i
  | .pchk _ ea a k => pchkOk k ea a
  | .pcauseU d _ a => sReg d && sReg a
  | .porig _ ea a b => (!b.getLsbD 3 || (a == 0 && !ea))
  | .porigU d ea a b => sReg d && sReg a && (!b.getLsbD 3 || (a == 0 && !ea))
  | .pclrU d _ a => sReg d && sReg a
  | .pmakeU d _ a => sReg d && sReg a
  | .barSync c _ => c.toNat <= 16
  | .barArrive c _ => c.toNat <= 16
  | .getidU d _ => sReg d
  | .getsysU d _ => sReg d
  | .sysr _ i => sysReadable i
  | .sysrU d i => sReg d && sysReadable i
  | .sysw _ a i => sReg a && sysWritable i
  | .fetchwg d _ a => sReg d && sReg a
  | .nop | .nopU | .bra _ _ _ | .brc _ _ _ | .call _ | .reconv _ | .span _ _ | .brx _ _ | .callx _ _ | .ret
  | .join | .exit | .meld _ _ | .meldend | .rnset _ _ _ | .add _ _ _ _ _ | .sub _ _ _ _ _ | .mul _ _ _ _ _
  | .mulhi _ _ _ _ _ | .fma _ _ _ _ _ | .min _ _ _ _ _ | .max _ _ _ _ _ | .div _ _ _ _ _ | .rem _ _ _ _ _
  | .neg _ _ _ | .abs _ _ _ | .sel _ _ _ _ _ | .add64 _ _ _ _ _ | .lea _ _ _ _ _ | .classP _ _ _ _
  | .and _ _ _ _ _ | .or _ _ _ _ _ | .xor _ _ _ _ _ | .not _ _ _ | .shl _ _ _ _ _ | .shr _ _ _ _ _
  | .sar _ _ _ _ _ | .rot _ _ _ _ _ | .bfx _ _ _ _ _ | .bfi _ _ _ _ _ | .popc _ _ _ | .clz _ _ _ | .ctz _ _ _
  | .brev _ _ _ | .mov _ _ _ | .rcp _ _ _ | .rsq _ _ _ | .sqrt _ _ _ | .exp2 _ _ _ | .log2 _ _ _ | .sin _ _ _
  | .cos _ _ _ | .pack2 _ _ _ _ _ | .unpk2 _ _ _ _ | .addi _ _ _ _ | .andi _ _ _ _ | .ori _ _ _ _
  | .xori _ _ _ _ | .shli _ _ _ _ | .shri _ _ _ _ | .movw _ _ | .movh _ _ | .shflIdx _ _ _ _ _
  | .shflUp _ _ _ _ | .shflDn _ _ _ _ | .shflXor _ _ _ _ | .bcast _ _ _ _ | .pand _ _ _ _ _ | .por _ _ _ _ _
  | .pxor _ _ _ _ _ | .pnot _ _ _ | .pmov _ _ _ | .xset _ _ _ | .xadd _ _ _ | .movx _ _ _ _ | .movxw _ _ _ _ _
  | .ld _ _ _ _ _ | .st _ _ _ _ _ | .lds _ _ _ _ _ | .sts _ _ _ _ _ | .ldc _ _ _ _ _ | .pref _ _ _
  | .aadd _ _ _ _ _ _ | .afadd _ _ _ _ _ | .amin _ _ _ _ _ _ | .amax _ _ _ _ _ _ | .aand _ _ _ _ _ _
  | .aor _ _ _ _ _ _ | .axor _ _ _ _ _ _ | .axch _ _ _ _ _ _ | .acas _ _ _ _ _ _ | .ainc _ _ _ _ _ _
  | .bind _ _ _ _ _ | .unbind _ _ | .acq _ _ _ _ | .rel _ _ _ _ | .fence _ | .pub _ _ _ _ | .fread _ _ _ _
  | .ffill _ _ _ _ | .fwait _ _ _ | .fclr _ _ _ | .wlpush _ _ | .wlpushr _ _ | .wlpop _ _ _ | .wldone _
  | .accz _ | .accrd _ _ _ _ | .accwr _ _ _ _ _ | .rnclr | .pcause _ _ _ | .pclr _ _ _ | .pmake _ _ _
  | .barWait _ | .monitor _ _ _ | .mwait | .yield | .await _ _ _ _ _ | .pause _ | .getid _ _ | .getsys _ _
  | .brk _ | .mark _ | .regroup _ _ | .copy _ _ | .fill _ _ | .gather _ _ | .scatter _ _ | .reduceInto _ _
  | .engineArrival _ | .engineResult _ | .longLatencyComplete _ | .spanReplay _ | .regroupRedistribute _ _
  | .groupExitComplete _ | .groupStall _ | .groupDeadlock _ | .pauseEnd _ _ | .workgroupPlace _ _ _
  | .stealRequest _ _ _ | .occupancySummary _ _ _ | .fetchwgAnswer _ | .migration _ _ _
  | .floorAcknowledgement _ _ _ | .worklistOccupancySummary _ _ _ _ | .worklistStealRequest _ _ _ _
  | .futureFillWake _ _ _ | .terminationWave _ _ | .kstep _ _ | .matrixResume _ _ | .faultRecordPost _
  | .faultCompletion _ _ _ | .hostWrite _ _ _ | .hostRead _ _ | .launchRecordRead _ | .serialLaunchStart _
  | .launchComplete _ | .cxlSnoop _ _ | .cxlMemRead _ _ | .queueDescriptorWrite _ _ _ | .partitionMaskWrite _ _
  | .create _ _ _ | .destroy _ | .inval _ _ _ | .preempt _ | .preemptSave _ | .resume _ | .chordEnable _ _
  | .chordTrainingComplete _ _ _ | .dataFlitReceive _ _ | .idleFlitReceive _ _ | .replayRequestReceive _ _
  | .replayTimerExpiry _ | .read _ _ | .write _ _ | .atomic _ _ | .readResp _ _ | .writeAck _ _ | .atomicResp _ _
  | .message _ | .laneLoss _ _ | .reset | .functionReady _ | .stageImage _ | .firmwareCommit | .recover
  | .minsvn _ | .opkey _ | .image _ | .attest _ | .ckpt _ | .checkpointPageCopy _ _ | .matrixWordWrite _ _ _
  | .logHeadWrite _ _ | .dumpDescriptorWrite _ _ _ | .dumpComplete _ | .debugBlockWrite _ _ _ | .halt _ | .go _
  | .step _ _ _ | .replay _ _ _ | .sample _ _ _ _ | .managementRegisterWrite _ _ | .unassignedCodePoint _ _
  | .cxlLinkError _ | .internalConsistencyCheck _ _ _ | .scrubbing _ _ => true

/-- R177 check 4 (PAIR). -/
def pairOk : Instr → Bool
  | .brx _ a => multOf 2 a
  | .callx _ a => multOf 2 a
  | .add64 d _ a _ b => multOf 2 d && multOf 2 a && multOf 2 b
  | .add64U d _ a _ b => multOf 2 d && multOf 2 a && multOf 2 b
  | .lea d _ a _ _ => multOf 2 d && multOf 2 a
  | .leaU d _ a _ _ => multOf 2 d && multOf 2 a
  | .ld d _ a s _ => multOf 2 a && (s != 1 || multOf 2 d)
  | .ldU d _ a s _ => multOf 2 a && (s != 1 || multOf 2 d)
  | .st d _ a s _ => multOf 2 a && (s != 1 || multOf 2 d)
  | .stU d _ a s _ => multOf 2 a && (s != 1 || multOf 2 d)
  | .lds d _ _ s _ => (s != 1 || multOf 2 d)
  | .ldsU d _ _ s _ => (s != 1 || multOf 2 d)
  | .sts d _ _ s _ => (s != 1 || multOf 2 d)
  | .stsU d _ _ s _ => (s != 1 || multOf 2 d)
  | .ldc d _ a s _ => multOf 2 a && (s != 1 || multOf 2 d)
  | .ldcU d _ a s _ => multOf 2 a && (s != 1 || multOf 2 d)
  | .pref _ a _ => multOf 2 a
  | .prefU _ a _ => multOf 2 a
  | .aadd d _ a _ w _ => multOf 2 a && (!w || multOf 2 d)
  | .afadd _ _ a _ _ => multOf 2 a
  | .amin d _ a _ w _ => multOf 2 a && (!w || multOf 2 d)
  | .amax d _ a _ w _ => multOf 2 a && (!w || multOf 2 d)
  | .aand d _ a _ w _ => multOf 2 a && (!w || multOf 2 d)
  | .aor d _ a _ w _ => multOf 2 a && (!w || multOf 2 d)
  | .axor d _ a _ w _ => multOf 2 a && (!w || multOf 2 d)
  | .axch d _ a _ w _ => multOf 2 a && (!w || multOf 2 d)
  | .acas d _ a _ w _ => multOf 2 a && (if w then multOf 4 d else multOf 2 d)
  | .ainc d _ a _ w _ => multOf 2 a && (!w || multOf 2 d)
  | .bind _ _ a _ b => multOf 2 a && multOf 2 b
  | .bindU _ _ a _ b => multOf 2 a && multOf 2 b
  | .unbind _ a => multOf 2 a
  | .unbindU _ a => multOf 2 a
  | .acq d _ a _ => multOf 2 d && multOf 2 a
  | .acqU d _ a _ => multOf 2 d && multOf 2 a
  | .rel d _ a _ => multOf 2 d && multOf 2 a
  | .relU d _ a _ => multOf 2 d && multOf 2 a
  | .pub _ _ a _ => multOf 2 a
  | .fread d _ a _ => multOf 2 d && multOf 2 a
  | .freadU d _ a _ => multOf 2 d && multOf 2 a
  | .ffill d _ a _ => multOf 2 d && multOf 2 a
  | .ffillU d _ a _ => multOf 2 d && multOf 2 a
  | .fwait _ a _ => multOf 2 a
  | .fclr _ a _ => multOf 2 a
  | .fclrU _ a _ => multOf 2 a
  | .wlpush d _ => multOf 4 d
  | .wlpushU d _ => multOf 4 d
  | .wlpushr d _ => multOf 4 d
  | .wlpushrU d _ => multOf 4 d
  | .wlpop d _ _ => multOf 4 d
  | .wlcfg _ _ a _ => multOf 2 a
  | .mma _ _ a _ => multOf 8 a
  | .mmas _ _ a _ => multOf 8 a && a.toNat <= 48
  | .accld _ _ a _ => multOf 4 a
  | .accst _ _ a _ => multOf 4 a
  | .tdesc _ _ a => multOf 4 a
  | .tcvt d _ a _ => multOf 4 d && multOf 4 a
  | .monitor _ a m => (m || multOf 2 a)
  | .nop | .nopU | .bra _ _ _ | .brc _ _ _ | .call _ | .reconv _ | .span _ _ | .commit _ _ | .ret | .join
  | .exit | .meld _ _ | .meldend | .rnset _ _ _ | .add _ _ _ _ _ | .addU _ _ _ _ _ | .sub _ _ _ _ _
  | .subU _ _ _ _ _ | .mul _ _ _ _ _ | .mulU _ _ _ _ _ | .mulhi _ _ _ _ _ | .mulhiU _ _ _ _ _ | .fma _ _ _ _ _
  | .fmaU _ _ _ _ _ | .min _ _ _ _ _ | .minU _ _ _ _ _ | .max _ _ _ _ _ | .maxU _ _ _ _ _ | .div _ _ _ _ _
  | .divU _ _ _ _ _ | .rem _ _ _ _ _ | .remU _ _ _ _ _ | .neg _ _ _ | .negU _ _ _ | .abs _ _ _ | .absU _ _ _
  | .sel _ _ _ _ _ | .cmp _ _ _ _ _ _ | .classP _ _ _ _ | .and _ _ _ _ _ | .andU _ _ _ _ _ | .or _ _ _ _ _
  | .orU _ _ _ _ _ | .xor _ _ _ _ _ | .xorU _ _ _ _ _ | .not _ _ _ | .notU _ _ _ | .shl _ _ _ _ _
  | .shlU _ _ _ _ _ | .shr _ _ _ _ _ | .shrU _ _ _ _ _ | .sar _ _ _ _ _ | .sarU _ _ _ _ _ | .rot _ _ _ _ _
  | .rotU _ _ _ _ _ | .bfx _ _ _ _ _ | .bfxU _ _ _ _ _ | .bfi _ _ _ _ _ | .bfiU _ _ _ _ _ | .popc _ _ _
  | .popcU _ _ _ | .clz _ _ _ | .clzU _ _ _ | .ctz _ _ _ | .ctzU _ _ _ | .brev _ _ _ | .brevU _ _ _
  | .mov _ _ _ | .movU _ _ _ | .rcp _ _ _ | .rcpU _ _ _ | .rsq _ _ _ | .rsqU _ _ _ | .sqrt _ _ _ | .sqrtU _ _ _
  | .exp2 _ _ _ | .exp2U _ _ _ | .log2 _ _ _ | .log2U _ _ _ | .sin _ _ _ | .sinU _ _ _ | .cos _ _ _
  | .cosU _ _ _ | .cvt _ _ _ _ | .cvtU _ _ _ _ | .pack2 _ _ _ _ _ | .pack2U _ _ _ _ _ | .unpk2 _ _ _ _
  | .unpk2U _ _ _ _ | .addi _ _ _ _ | .addiU _ _ _ _ | .andi _ _ _ _ | .andiU _ _ _ _ | .ori _ _ _ _
  | .oriU _ _ _ _ | .xori _ _ _ _ | .xoriU _ _ _ _ | .shli _ _ _ _ | .shliU _ _ _ _ | .shri _ _ _ _
  | .shriU _ _ _ _ | .cmpi _ _ _ _ _ | .movw _ _ | .movwU _ _ | .movh _ _ | .movhU _ _ | .shflIdx _ _ _ _ _
  | .shflUp _ _ _ _ | .shflDn _ _ _ _ | .shflXor _ _ _ _ | .bcast _ _ _ _ | .vote _ _ _ _ | .qscan _ _ _ _
  | .reduce _ _ _ _ | .pand _ _ _ _ _ | .por _ _ _ _ _ | .pxor _ _ _ _ _ | .pnot _ _ _ | .pmov _ _ _
  | .xset _ _ _ | .xadd _ _ _ | .movx _ _ _ _ | .movxw _ _ _ _ _ | .smov _ _ _ | .vset _ _ _ | .fence _
  | .qw _ _ _ | .qr _ _ | .qstat _ _ | .swset _ _ _ | .swadd _ _ _ | .swgen _ _ _ | .wldone _ | .wlstat _ _
  | .gang _ _ _ | .accz _ | .accrd _ _ _ _ | .accwr _ _ _ _ _ | .mprog _ _ | .mode _ | .modeg _ | .stage _
  | .rnclr | .pchk _ _ _ _ | .pcause _ _ _ | .pcauseU _ _ _ | .porig _ _ _ _ | .porigU _ _ _ _ | .pclr _ _ _
  | .pclrU _ _ _ | .pmake _ _ _ | .pmakeU _ _ _ | .barSync _ _ | .barArrive _ _ | .barWait _ | .mwait | .yield
  | .await _ _ _ _ _ | .pause _ | .getid _ _ | .getidU _ _ | .getsys _ _ | .getsysU _ _ | .sysr _ _
  | .sysrU _ _ | .sysw _ _ _ | .brk _ | .mark _ | .regroup _ _ | .fetchwg _ _ _ | .copy _ _ | .fill _ _
  | .gather _ _ | .scatter _ _ | .reduceInto _ _ | .engineArrival _ | .engineResult _ | .longLatencyComplete _
  | .spanReplay _ | .regroupRedistribute _ _ | .groupExitComplete _ | .groupStall _ | .groupDeadlock _
  | .pauseEnd _ _ | .workgroupPlace _ _ _ | .stealRequest _ _ _ | .occupancySummary _ _ _ | .fetchwgAnswer _
  | .migration _ _ _ | .floorAcknowledgement _ _ _ | .worklistOccupancySummary _ _ _ _
  | .worklistStealRequest _ _ _ _ | .futureFillWake _ _ _ | .terminationWave _ _ | .kstep _ _
  | .matrixResume _ _ | .faultRecordPost _ | .faultCompletion _ _ _ | .hostWrite _ _ _ | .hostRead _ _
  | .launchRecordRead _ | .serialLaunchStart _ | .launchComplete _ | .cxlSnoop _ _ | .cxlMemRead _ _
  | .queueDescriptorWrite _ _ _ | .partitionMaskWrite _ _ | .create _ _ _ | .destroy _ | .inval _ _ _
  | .preempt _ | .preemptSave _ | .resume _ | .chordEnable _ _ | .chordTrainingComplete _ _ _
  | .dataFlitReceive _ _ | .idleFlitReceive _ _ | .replayRequestReceive _ _ | .replayTimerExpiry _ | .read _ _
  | .write _ _ | .atomic _ _ | .readResp _ _ | .writeAck _ _ | .atomicResp _ _ | .message _ | .laneLoss _ _ | .reset
  | .functionReady _ | .stageImage _ | .firmwareCommit | .recover | .minsvn _ | .opkey _ | .image _ | .attest _
  | .ckpt _ | .checkpointPageCopy _ _ | .matrixWordWrite _ _ _ | .logHeadWrite _ _ | .dumpDescriptorWrite _ _ _
  | .dumpComplete _ | .debugBlockWrite _ _ _ | .halt _ | .go _ | .step _ _ _ | .replay _ _ _ | .sample _ _ _ _
  | .managementRegisterWrite _ _ | .unassignedCodePoint _ _ | .cxlLinkError _ | .internalConsistencyCheck _ _ _
  | .scrubbing _ _ => true

end Sys2Proof.WellFormed

namespace Sys2Proof

/-- A word that passes checks 3 and 4 of R177. -/
def Instr.wellFormed (i : Instr) : Bool := WellFormed.fieldOk i && WellFormed.pairOk i

end Sys2Proof
end

