-- ==== Sys2Proof/Decode.lean ====
section
/-!
DEFINITION. The decoder of instruction words (R153, R173 to R176) and, after it, the encoder. Decoding is total: a word
is an instruction, or is rejected by the name of the first failing check of R177 that the word alone decides.
-/

namespace Sys2Proof

/-- Why a word is no legal instruction: checks 2, 3 and 4 of R177, and a byte list too short to hold a word. -/
inductive Reject where
  | short | unassigned | field | pair
  deriving DecidableEq, Repr

/-- R177: the reason code of a rejected word. A list too short to hold a word is a failed fetch, reason 1. -/
def Reject.reason : Reject → Nat
  | .short => 1 | .unassigned => 2 | .field => 3 | .pair => 4

/-- R153: field d, bits [22:16]. -/
def wd (w : Word) : BitVec 7 := w.extractLsb' 16 7
/-- R153: the E bit of field a, bit 15. -/
def we (w : Word) : Bool := w.getLsbD 15
/-- R153: field a, bits [14:8]. -/
def wa (w : Word) : BitVec 7 := w.extractLsb' 8 7
/-- R153: the E bit of field b, bit 7. -/
def wf (w : Word) : Bool := w.getLsbD 7
/-- R153: field b, bits [6:0]. -/
def wb (w : Word) : BitVec 7 := w.extractLsb' 0 7
/-- R153: imm8, bits [7:0]. -/
def wi (w : Word) : BitVec 8 := w.extractLsb' 0 8
/-- R153: imm16, bits [15:0]. -/
def wh (w : Word) : BitVec 16 := w.extractLsb' 0 16
/-- R153: off19, bits [18:0]. -/
def wo (w : Word) : BitVec 19 := w.extractLsb' 0 19

/-- R158: `n` bits from bit `lo` up, which the instruction does not use, are 0. -/
def zeroAt (w : Word) (lo n : Nat) : Bool := w.extractLsb' lo n == 0

/-- R158: check 3 for a word whose unused bits must be 0. -/
def need (c : Bool) (i : Instr) : Except Reject Instr := if c then .ok i else .error .field

/-- R176: the variant of BAR is in imm8 [7:6]; 11 is reserved. -/
def decodeBar (w : Word) : Except Reject Instr :=
  match (w.extractLsb' 6 2).toNat with
  | 0 => need (zeroAt w 4 2 && zeroAt w 8 8 && zeroAt w 21 2) (.barSync (w.extractLsb' 16 5) (w.extractLsb' 0 4))
  | 1 => need (zeroAt w 4 2 && zeroAt w 8 8 && zeroAt w 21 2) (.barArrive (w.extractLsb' 16 5) (w.extractLsb' 0 4))
  | 2 => need (zeroAt w 4 2 && zeroAt w 8 15) (.barWait (w.extractLsb' 0 4))
  | _ => .error .field

/-- R174: row 0x00 of the grid, one arm per column. -/
def decodeRow0 (u : Bool) (w : BitVec 32) : Nat → Except Reject Instr
  | 0 =>
    if u then need (zeroAt w 0 23) (.nopU)
    else need (zeroAt w 0 23) (.nop)
  | 1 =>
    if u then .error .unassigned
    else .ok (.bra (w.extractLsb' 20 3) (w.getLsbD 19) (wo w))
  | 2 =>
    if u then .error .unassigned
    else .ok (.brc (w.extractLsb' 20 3) (w.getLsbD 19) (wo w))
  | 3 =>
    if u then .error .unassigned
    else need (zeroAt w 19 4) (.call (wo w))
  | 4 =>
    if u then .error .unassigned
    else need (zeroAt w 19 4) (.reconv (wo w))
  | 5 =>
    if u then .error .unassigned
    else need (zeroAt w 19 1 && zeroAt w 22 1) (.span (w.extractLsb' 20 2) (wo w))
  | 6 =>
    if u then .error .unassigned
    else need (zeroAt w 19 1 && zeroAt w 22 1) (.commit (w.extractLsb' 20 2) (wo w))
  | 8 =>
    if u then .error .unassigned
    else need (zeroAt w 0 8 && zeroAt w 16 7) (.brx (we w) (wa w))
  | 9 =>
    if u then .error .unassigned
    else need (zeroAt w 0 8 && zeroAt w 16 7) (.callx (we w) (wa w))
  | 10 =>
    if u then .error .unassigned
    else need (zeroAt w 0 23) (.ret)
  | 11 =>
    if u then .error .unassigned
    else need (zeroAt w 0 23) (.join)
  | 12 =>
    if u then .error .unassigned
    else need (zeroAt w 0 23) (.exit)
  | 13 =>
    if u then .error .unassigned
    else need (zeroAt w 0 8 && zeroAt w 11 4 && zeroAt w 16 7) (.meld (we w) (w.extractLsb' 8 3))
  | 14 =>
    if u then .error .unassigned
    else need (zeroAt w 0 23) (.meldend)
  | 15 =>
    if u then .error .unassigned
    else need (zeroAt w 7 1 && zeroAt w 15 1 && zeroAt w 20 3) (.rnset (w.extractLsb' 16 4) (wa w) (wb w))
  | _ => .error .unassigned

/-- R174: row 0x10 of the grid, one arm per column. -/
def decodeRow1 (u : Bool) (w : BitVec 32) : Nat → Except Reject Instr
  | 0 =>
    if u then .ok (.addU (wd w) (we w) (wa w) (wf w) (wb w))
    else .ok (.add (wd w) (we w) (wa w) (wf w) (wb w))
  | 1 =>
    if u then .ok (.subU (wd w) (we w) (wa w) (wf w) (wb w))
    else .ok (.sub (wd w) (we w) (wa w) (wf w) (wb w))
  | 2 =>
    if u then .ok (.mulU (wd w) (we w) (wa w) (wf w) (wb w))
    else .ok (.mul (wd w) (we w) (wa w) (wf w) (wb w))
  | 3 =>
    if u then .ok (.mulhiU (wd w) (we w) (wa w) (wf w) (wb w))
    else .ok (.mulhi (wd w) (we w) (wa w) (wf w) (wb w))
  | 4 =>
    if u then .ok (.fmaU (wd w) (we w) (wa w) (wf w) (wb w))
    else .ok (.fma (wd w) (we w) (wa w) (wf w) (wb w))
  | 5 =>
    if u then .ok (.minU (wd w) (we w) (wa w) (wf w) (wb w))
    else .ok (.min (wd w) (we w) (wa w) (wf w) (wb w))
  | 6 =>
    if u then .ok (.maxU (wd w) (we w) (wa w) (wf w) (wb w))
    else .ok (.max (wd w) (we w) (wa w) (wf w) (wb w))
  | 7 =>
    if u then .ok (.divU (wd w) (we w) (wa w) (wf w) (wb w))
    else .ok (.div (wd w) (we w) (wa w) (wf w) (wb w))
  | 8 =>
    if u then .ok (.remU (wd w) (we w) (wa w) (wf w) (wb w))
    else .ok (.rem (wd w) (we w) (wa w) (wf w) (wb w))
  | 9 =>
    if u then need (zeroAt w 0 8) (.negU (wd w) (we w) (wa w))
    else need (zeroAt w 0 8) (.neg (wd w) (we w) (wa w))
  | 10 =>
    if u then need (zeroAt w 0 8) (.absU (wd w) (we w) (wa w))
    else need (zeroAt w 0 8) (.abs (wd w) (we w) (wa w))
  | 11 =>
    if u then .error .unassigned
    else .ok (.sel (wd w) (we w) (wa w) (wf w) (wb w))
  | 12 =>
    if u then .ok (.add64U (wd w) (we w) (wa w) (wf w) (wb w))
    else .ok (.add64 (wd w) (we w) (wa w) (wf w) (wb w))
  | 13 =>
    if u then .ok (.leaU (wd w) (we w) (wa w) (wf w) (wb w))
    else .ok (.lea (wd w) (we w) (wa w) (wf w) (wb w))
  | 14 =>
    if u then .error .unassigned
    else .ok (.cmp (w.extractLsb' 19 4) (w.extractLsb' 16 3) (we w) (wa w) (wf w) (wb w))
  | 15 =>
    if u then .error .unassigned
    else need (zeroAt w 19 4) (.classP (w.extractLsb' 16 3) (we w) (wa w) (wi w))
  | _ => .error .unassigned

/-- R174: row 0x20 of the grid, one arm per column. -/
def decodeRow2 (u : Bool) (w : BitVec 32) : Nat → Except Reject Instr
  | 0 =>
    if u then .ok (.andU (wd w) (we w) (wa w) (wf w) (wb w))
    else .ok (.and (wd w) (we w) (wa w) (wf w) (wb w))
  | 1 =>
    if u then .ok (.orU (wd w) (we w) (wa w) (wf w) (wb w))
    else .ok (.or (wd w) (we w) (wa w) (wf w) (wb w))
  | 2 =>
    if u then .ok (.xorU (wd w) (we w) (wa w) (wf w) (wb w))
    else .ok (.xor (wd w) (we w) (wa w) (wf w) (wb w))
  | 3 =>
    if u then need (zeroAt w 0 8) (.notU (wd w) (we w) (wa w))
    else need (zeroAt w 0 8) (.not (wd w) (we w) (wa w))
  | 4 =>
    if u then .ok (.shlU (wd w) (we w) (wa w) (wf w) (wb w))
    else .ok (.shl (wd w) (we w) (wa w) (wf w) (wb w))
  | 5 =>
    if u then .ok (.shrU (wd w) (we w) (wa w) (wf w) (wb w))
    else .ok (.shr (wd w) (we w) (wa w) (wf w) (wb w))
  | 6 =>
    if u then .ok (.sarU (wd w) (we w) (wa w) (wf w) (wb w))
    else .ok (.sar (wd w) (we w) (wa w) (wf w) (wb w))
  | 7 =>
    if u then .ok (.rotU (wd w) (we w) (wa w) (wf w) (wb w))
    else .ok (.rot (wd w) (we w) (wa w) (wf w) (wb w))
  | 8 =>
    if u then .ok (.bfxU (wd w) (we w) (wa w) (wf w) (wb w))
    else .ok (.bfx (wd w) (we w) (wa w) (wf w) (wb w))
  | 9 =>
    if u then .ok (.bfiU (wd w) (we w) (wa w) (wf w) (wb w))
    else .ok (.bfi (wd w) (we w) (wa w) (wf w) (wb w))
  | 10 =>
    if u then need (zeroAt w 0 8) (.popcU (wd w) (we w) (wa w))
    else need (zeroAt w 0 8) (.popc (wd w) (we w) (wa w))
  | 11 =>
    if u then need (zeroAt w 0 8) (.clzU (wd w) (we w) (wa w))
    else need (zeroAt w 0 8) (.clz (wd w) (we w) (wa w))
  | 12 =>
    if u then need (zeroAt w 0 8) (.ctzU (wd w) (we w) (wa w))
    else need (zeroAt w 0 8) (.ctz (wd w) (we w) (wa w))
  | 13 =>
    if u then need (zeroAt w 0 8) (.brevU (wd w) (we w) (wa w))
    else need (zeroAt w 0 8) (.brev (wd w) (we w) (wa w))
  | 14 =>
    if u then need (zeroAt w 0 8) (.movU (wd w) (we w) (wa w))
    else need (zeroAt w 0 8) (.mov (wd w) (we w) (wa w))
  | _ => .error .unassigned

/-- R174: row 0x30 of the grid, one arm per column. -/
def decodeRow3 (u : Bool) (w : BitVec 32) : Nat → Except Reject Instr
  | 0 =>
    if u then need (zeroAt w 0 8) (.rcpU (wd w) (we w) (wa w))
    else need (zeroAt w 0 8) (.rcp (wd w) (we w) (wa w))
  | 1 =>
    if u then need (zeroAt w 0 8) (.rsqU (wd w) (we w) (wa w))
    else need (zeroAt w 0 8) (.rsq (wd w) (we w) (wa w))
  | 2 =>
    if u then need (zeroAt w 0 8) (.sqrtU (wd w) (we w) (wa w))
    else need (zeroAt w 0 8) (.sqrt (wd w) (we w) (wa w))
  | 3 =>
    if u then need (zeroAt w 0 8) (.exp2U (wd w) (we w) (wa w))
    else need (zeroAt w 0 8) (.exp2 (wd w) (we w) (wa w))
  | 4 =>
    if u then need (zeroAt w 0 8) (.log2U (wd w) (we w) (wa w))
    else need (zeroAt w 0 8) (.log2 (wd w) (we w) (wa w))
  | 5 =>
    if u then need (zeroAt w 0 8) (.sinU (wd w) (we w) (wa w))
    else need (zeroAt w 0 8) (.sin (wd w) (we w) (wa w))
  | 6 =>
    if u then need (zeroAt w 0 8) (.cosU (wd w) (we w) (wa w))
    else need (zeroAt w 0 8) (.cos (wd w) (we w) (wa w))
  | 7 =>
    if u then .ok (.cvtU (wd w) (we w) (wa w) (wi w))
    else .ok (.cvt (wd w) (we w) (wa w) (wi w))
  | 8 =>
    if u then .ok (.pack2U (wd w) (we w) (wa w) (wf w) (wb w))
    else .ok (.pack2 (wd w) (we w) (wa w) (wf w) (wb w))
  | 9 =>
    if u then need (zeroAt w 1 7) (.unpk2U (wd w) (we w) (wa w) (w.getLsbD 0))
    else need (zeroAt w 1 7) (.unpk2 (wd w) (we w) (wa w) (w.getLsbD 0))
  | _ => .error .unassigned

/-- R174: row 0x40 of the grid, one arm per column. -/
def decodeRow4 (u : Bool) (w : BitVec 32) : Nat → Except Reject Instr
  | 0 =>
    if u then .ok (.addiU (wd w) (we w) (wa w) (wi w))
    else .ok (.addi (wd w) (we w) (wa w) (wi w))
  | 1 =>
    if u then .ok (.andiU (wd w) (we w) (wa w) (wi w))
    else .ok (.andi (wd w) (we w) (wa w) (wi w))
  | 2 =>
    if u then .ok (.oriU (wd w) (we w) (wa w) (wi w))
    else .ok (.ori (wd w) (we w) (wa w) (wi w))
  | 3 =>
    if u then .ok (.xoriU (wd w) (we w) (wa w) (wi w))
    else .ok (.xori (wd w) (we w) (wa w) (wi w))
  | 4 =>
    if u then need (zeroAt w 5 3) (.shliU (wd w) (we w) (wa w) (w.extractLsb' 0 5))
    else need (zeroAt w 5 3) (.shli (wd w) (we w) (wa w) (w.extractLsb' 0 5))
  | 5 =>
    if u then need (zeroAt w 5 3) (.shriU (wd w) (we w) (wa w) (w.extractLsb' 0 5))
    else need (zeroAt w 5 3) (.shri (wd w) (we w) (wa w) (w.extractLsb' 0 5))
  | 6 =>
    if u then .error .unassigned
    else .ok (.cmpi (w.extractLsb' 19 4) (w.extractLsb' 16 3) (we w) (wa w) (wi w))
  | 8 =>
    if u then .ok (.movwU (wd w) (wh w))
    else .ok (.movw (wd w) (wh w))
  | 9 =>
    if u then .ok (.movhU (wd w) (wh w))
    else .ok (.movh (wd w) (wh w))
  | _ => .error .unassigned

/-- R174: row 0x50 of the grid, one arm per column. -/
def decodeRow5 (u : Bool) (w : BitVec 32) : Nat → Except Reject Instr
  | 0 =>
    if u then .error .unassigned
    else .ok (.shflIdx (wd w) (we w) (wa w) (wf w) (wb w))
  | 1 =>
    if u then .error .unassigned
    else need (zeroAt w 7 1) (.shflUp (wd w) (we w) (wa w) (wb w))
  | 2 =>
    if u then .error .unassigned
    else need (zeroAt w 7 1) (.shflDn (wd w) (we w) (wa w) (wb w))
  | 3 =>
    if u then .error .unassigned
    else need (zeroAt w 7 1) (.shflXor (wd w) (we w) (wa w) (wb w))
  | 4 =>
    if u then .error .unassigned
    else need (zeroAt w 7 1) (.bcast (wd w) (we w) (wa w) (wb w))
  | 5 =>
    if u then .error .unassigned
    else need (zeroAt w 2 6 && zeroAt w 11 4) (.vote (wd w) (we w) (w.extractLsb' 8 3) (w.extractLsb' 0 2))
  | 6 =>
    if u then .error .unassigned
    else need (zeroAt w 4 4) (.qscan (wd w) (we w) (wa w) (w.extractLsb' 0 4))
  | 7 =>
    if u then .error .unassigned
    else need (zeroAt w 4 4) (.reduce (wd w) (we w) (wa w) (w.extractLsb' 0 4))
  | 8 =>
    if u then .error .unassigned
    else need (zeroAt w 3 4 && zeroAt w 11 4 && zeroAt w 19 4) (.pand (w.extractLsb' 16 3) (we w) (w.extractLsb' 8 3) (wf w) (w.extractLsb' 0 3))
  | 9 =>
    if u then .error .unassigned
    else need (zeroAt w 3 4 && zeroAt w 11 4 && zeroAt w 19 4) (.por (w.extractLsb' 16 3) (we w) (w.extractLsb' 8 3) (wf w) (w.extractLsb' 0 3))
  | 10 =>
    if u then .error .unassigned
    else need (zeroAt w 3 4 && zeroAt w 11 4 && zeroAt w 19 4) (.pxor (w.extractLsb' 16 3) (we w) (w.extractLsb' 8 3) (wf w) (w.extractLsb' 0 3))
  | 11 =>
    if u then .error .unassigned
    else need (zeroAt w 0 8 && zeroAt w 11 4 && zeroAt w 19 4) (.pnot (w.extractLsb' 16 3) (we w) (w.extractLsb' 8 3))
  | 12 =>
    if u then .error .unassigned
    else need (zeroAt w 0 8 && zeroAt w 11 4 && zeroAt w 19 4) (.pmov (w.extractLsb' 16 3) (we w) (w.extractLsb' 8 3))
  | 13 =>
    if u then .error .unassigned
    else need (zeroAt w 0 8 && zeroAt w 18 5) (.xset (w.extractLsb' 16 2) (we w) (wa w))
  | 14 =>
    if u then .error .unassigned
    else need (zeroAt w 10 6 && zeroAt w 18 5) (.xadd (w.extractLsb' 16 2) (w.extractLsb' 8 2) (wi w))
  | 15 =>
    if u then .error .unassigned
    else need (zeroAt w 10 6) (.movx (wd w) (w.extractLsb' 8 2) (wf w) (wb w))
  | _ => .error .unassigned

/-- R174: row 0x60 of the grid, one arm per column. -/
def decodeRow6 (u : Bool) (w : BitVec 32) : Nat → Except Reject Instr
  | 0 =>
    if u then .error .unassigned
    else need (zeroAt w 18 5) (.movxw (w.extractLsb' 16 2) (we w) (wa w) (wf w) (wb w))
  | 1 =>
    if u then .error .unassigned
    else need (zeroAt w 0 8) (.smov (wd w) (we w) (wa w))
  | 2 =>
    if u then .error .unassigned
    else need (zeroAt w 0 8) (.vset (wd w) (we w) (wa w))
  | 8 =>
    if u then .ok (.ldU (wd w) (we w) (wa w) (w.extractLsb' 6 2) (w.extractLsb' 0 6))
    else .ok (.ld (wd w) (we w) (wa w) (w.extractLsb' 6 2) (w.extractLsb' 0 6))
  | 9 =>
    if u then .ok (.stU (wd w) (we w) (wa w) (w.extractLsb' 6 2) (w.extractLsb' 0 6))
    else .ok (.st (wd w) (we w) (wa w) (w.extractLsb' 6 2) (w.extractLsb' 0 6))
  | 10 =>
    if u then .ok (.ldsU (wd w) (we w) (wa w) (w.extractLsb' 6 2) (w.extractLsb' 0 6))
    else .ok (.lds (wd w) (we w) (wa w) (w.extractLsb' 6 2) (w.extractLsb' 0 6))
  | 11 =>
    if u then .ok (.stsU (wd w) (we w) (wa w) (w.extractLsb' 6 2) (w.extractLsb' 0 6))
    else .ok (.sts (wd w) (we w) (wa w) (w.extractLsb' 6 2) (w.extractLsb' 0 6))
  | 12 =>
    if u then .ok (.ldcU (wd w) (we w) (wa w) (w.extractLsb' 6 2) (w.extractLsb' 0 6))
    else .ok (.ldc (wd w) (we w) (wa w) (w.extractLsb' 6 2) (w.extractLsb' 0 6))
  | 13 =>
    if u then need (zeroAt w 6 2 && zeroAt w 16 7) (.prefU (we w) (wa w) (w.extractLsb' 0 6))
    else need (zeroAt w 6 2 && zeroAt w 16 7) (.pref (we w) (wa w) (w.extractLsb' 0 6))
  | _ => .error .unassigned

/-- R174: row 0x70 of the grid, one arm per column. -/
def decodeRow7 (u : Bool) (w : BitVec 32) : Nat → Except Reject Instr
  | 0 =>
    if u then .error .unassigned
    else .ok (.aadd (wd w) (we w) (wa w) (wf w) (w.getLsbD 6) (w.extractLsb' 0 6))
  | 1 =>
    if u then .error .unassigned
    else need (zeroAt w 6 1) (.afadd (wd w) (we w) (wa w) (wf w) (w.extractLsb' 0 6))
  | 2 =>
    if u then .error .unassigned
    else .ok (.amin (wd w) (we w) (wa w) (wf w) (w.getLsbD 6) (w.extractLsb' 0 6))
  | 3 =>
    if u then .error .unassigned
    else .ok (.amax (wd w) (we w) (wa w) (wf w) (w.getLsbD 6) (w.extractLsb' 0 6))
  | 4 =>
    if u then .error .unassigned
    else .ok (.aand (wd w) (we w) (wa w) (wf w) (w.getLsbD 6) (w.extractLsb' 0 6))
  | 5 =>
    if u then .error .unassigned
    else .ok (.aor (wd w) (we w) (wa w) (wf w) (w.getLsbD 6) (w.extractLsb' 0 6))
  | 6 =>
    if u then .error .unassigned
    else .ok (.axor (wd w) (we w) (wa w) (wf w) (w.getLsbD 6) (w.extractLsb' 0 6))
  | 7 =>
    if u then .error .unassigned
    else .ok (.axch (wd w) (we w) (wa w) (wf w) (w.getLsbD 6) (w.extractLsb' 0 6))
  | 8 =>
    if u then .error .unassigned
    else .ok (.acas (wd w) (we w) (wa w) (wf w) (w.getLsbD 6) (w.extractLsb' 0 6))
  | 9 =>
    if u then .error .unassigned
    else .ok (.ainc (wd w) (we w) (wa w) (wf w) (w.getLsbD 6) (w.extractLsb' 0 6))
  | _ => .error .unassigned

/-- R174: row 0x80 of the grid, one arm per column. -/
def decodeRow8 (u : Bool) (w : BitVec 32) : Nat → Except Reject Instr
  | 0 =>
    if u then .ok (.bindU (wd w) (we w) (wa w) (wf w) (wb w))
    else .ok (.bind (wd w) (we w) (wa w) (wf w) (wb w))
  | 1 =>
    if u then need (zeroAt w 0 8 && zeroAt w 16 7) (.unbindU (we w) (wa w))
    else need (zeroAt w 0 8 && zeroAt w 16 7) (.unbind (we w) (wa w))
  | 2 =>
    if u then need (zeroAt w 3 5) (.acqU (wd w) (we w) (wa w) (w.extractLsb' 0 3))
    else need (zeroAt w 3 5) (.acq (wd w) (we w) (wa w) (w.extractLsb' 0 3))
  | 3 =>
    if u then need (zeroAt w 3 5) (.relU (wd w) (we w) (wa w) (w.extractLsb' 0 3))
    else need (zeroAt w 3 5) (.rel (wd w) (we w) (wa w) (w.extractLsb' 0 3))
  | 4 =>
    if u then .error .unassigned
    else need (zeroAt w 3 20) (.fence (w.extractLsb' 0 3))
  | 5 =>
    if u then .error .unassigned
    else need (zeroAt w 3 5) (.pub (wd w) (we w) (wa w) (w.extractLsb' 0 3))
  | 6 =>
    if u then need (zeroAt w 0 8 && zeroAt w 19 4) (.qw (w.extractLsb' 16 3) (we w) (wa w))
    else .error .unassigned
  | 7 =>
    if u then need (zeroAt w 0 8 && zeroAt w 11 5) (.qr (wd w) (w.extractLsb' 8 3))
    else .error .unassigned
  | 8 =>
    if u then need (zeroAt w 0 8 && zeroAt w 11 5) (.qstat (wd w) (w.extractLsb' 8 3))
    else .error .unassigned
  | 9 =>
    if u then need (zeroAt w 0 8) (.swset (wd w) (we w) (wa w))
    else .error .unassigned
  | 10 =>
    if u then need (zeroAt w 0 8) (.swadd (wd w) (we w) (wa w))
    else .error .unassigned
  | 11 =>
    if u then need (zeroAt w 0 8) (.swgen (wd w) (we w) (wa w))
    else .error .unassigned
  | 12 =>
    if u then need (zeroAt w 6 2) (.freadU (wd w) (we w) (wa w) (w.extractLsb' 0 6))
    else need (zeroAt w 6 2) (.fread (wd w) (we w) (wa w) (w.extractLsb' 0 6))
  | 13 =>
    if u then need (zeroAt w 6 2) (.ffillU (wd w) (we w) (wa w) (w.extractLsb' 0 6))
    else need (zeroAt w 6 2) (.ffill (wd w) (we w) (wa w) (w.extractLsb' 0 6))
  | 14 =>
    if u then .error .unassigned
    else need (zeroAt w 6 2 && zeroAt w 16 7) (.fwait (we w) (wa w) (w.extractLsb' 0 6))
  | 15 =>
    if u then need (zeroAt w 6 2 && zeroAt w 16 7) (.fclrU (we w) (wa w) (w.extractLsb' 0 6))
    else need (zeroAt w 6 2 && zeroAt w 16 7) (.fclr (we w) (wa w) (w.extractLsb' 0 6))
  | _ => .error .unassigned

/-- R174: row 0x90 of the grid, one arm per column. -/
def decodeRow9 (u : Bool) (w : BitVec 32) : Nat → Except Reject Instr
  | 0 =>
    if u then need (zeroAt w 4 12) (.wlpushU (wd w) (w.extractLsb' 0 4))
    else need (zeroAt w 4 12) (.wlpush (wd w) (w.extractLsb' 0 4))
  | 1 =>
    if u then need (zeroAt w 4 12) (.wlpushrU (wd w) (w.extractLsb' 0 4))
    else need (zeroAt w 4 12) (.wlpushr (wd w) (w.extractLsb' 0 4))
  | 2 =>
    if u then .error .unassigned
    else need (zeroAt w 4 4 && zeroAt w 11 5) (.wlpop (wd w) (w.extractLsb' 8 3) (w.extractLsb' 0 4))
  | 3 =>
    if u then .error .unassigned
    else need (zeroAt w 4 19) (.wldone (w.extractLsb' 0 4))
  | 4 =>
    if u then need (zeroAt w 4 12) (.wlstat (wd w) (w.extractLsb' 0 4))
    else .error .unassigned
  | 5 =>
    if u then need (zeroAt w 4 4) (.wlcfg (wd w) (we w) (wa w) (w.extractLsb' 0 4))
    else .error .unassigned
  | _ => .error .unassigned

/-- R174: row 0xA0 of the grid, one arm per column. -/
def decodeRowA (u : Bool) (w : BitVec 32) : Nat → Except Reject Instr
  | 0 =>
    if u then need (zeroAt w 0 8) (.gang (wd w) (we w) (wa w))
    else .error .unassigned
  | 1 =>
    if u then need (zeroAt w 3 5 && zeroAt w 19 4) (.mma (w.extractLsb' 16 3) (we w) (wa w) (w.extractLsb' 0 3))
    else .error .unassigned
  | 2 =>
    if u then need (zeroAt w 3 5 && zeroAt w 19 4) (.mmas (w.extractLsb' 16 3) (we w) (wa w) (w.extractLsb' 0 3))
    else .error .unassigned
  | 3 =>
    if u then need (zeroAt w 0 16 && zeroAt w 19 4) (.accz (w.extractLsb' 16 3))
    else .error .unassigned
  | 4 =>
    if u then need (zeroAt w 3 5 && zeroAt w 19 4) (.accld (w.extractLsb' 16 3) (we w) (wa w) (w.extractLsb' 0 3))
    else .error .unassigned
  | 5 =>
    if u then need (zeroAt w 3 5 && zeroAt w 19 4) (.accst (w.extractLsb' 16 3) (we w) (wa w) (w.extractLsb' 0 3))
    else .error .unassigned
  | 6 =>
    if u then .error .unassigned
    else need (zeroAt w 11 5) (.accrd (wd w) (w.extractLsb' 8 3) (wf w) (wb w))
  | 7 =>
    if u then .error .unassigned
    else need (zeroAt w 19 4) (.accwr (w.extractLsb' 16 3) (we w) (wa w) (wf w) (wb w))
  | 8 =>
    if u then need (zeroAt w 0 8 && zeroAt w 11 5) (.mprog (wd w) (w.extractLsb' 8 3))
    else .error .unassigned
  | 9 =>
    if u then need (zeroAt w 0 8) (.tdesc (wd w) (we w) (wa w))
    else .error .unassigned
  | 10 =>
    if u then need (zeroAt w 3 5) (.tcvt (wd w) (we w) (wa w) (w.extractLsb' 0 3))
    else .error .unassigned
  | _ => .error .unassigned

/-- R174: row 0xB0 of the grid, one arm per column. -/
def decodeRowB (u : Bool) (w : BitVec 32) : Nat → Except Reject Instr
  | 0 =>
    if u then .error .unassigned
    else need (zeroAt w 16 7) (.mode (wh w))
  | 1 =>
    if u then .error .unassigned
    else need (zeroAt w 16 7) (.modeg (wh w))
  | 2 =>
    if u then .error .unassigned
    else need (zeroAt w 16 7) (.stage (wh w))
  | 3 =>
    if u then .error .unassigned
    else need (zeroAt w 0 23) (.rnclr)
  | 4 =>
    if u then .error .unassigned
    else need (zeroAt w 2 6 && zeroAt w 19 4) (.pchk (w.extractLsb' 16 3) (we w) (wa w) (w.extractLsb' 0 2))
  | 5 =>
    if u then need (zeroAt w 0 8) (.pcauseU (wd w) (we w) (wa w))
    else need (zeroAt w 0 8) (.pcause (wd w) (we w) (wa w))
  | 6 =>
    if u then need (zeroAt w 4 4) (.porigU (wd w) (we w) (wa w) (w.extractLsb' 0 4))
    else need (zeroAt w 4 4) (.porig (wd w) (we w) (wa w) (w.extractLsb' 0 4))
  | 7 =>
    if u then need (zeroAt w 0 8) (.pclrU (wd w) (we w) (wa w))
    else need (zeroAt w 0 8) (.pclr (wd w) (we w) (wa w))
  | 8 =>
    if u then need (zeroAt w 0 8) (.pmakeU (wd w) (we w) (wa w))
    else need (zeroAt w 0 8) (.pmake (wd w) (we w) (wa w))
  | 9 => if u then .error .unassigned else decodeBar w
  | 10 =>
    if u then .error .unassigned
    else need (zeroAt w 1 7 && zeroAt w 16 7) (.monitor (we w) (wa w) (w.getLsbD 0))
  | 11 =>
    if u then .error .unassigned
    else need (zeroAt w 0 23) (.mwait)
  | 12 =>
    if u then .error .unassigned
    else need (zeroAt w 0 23) (.yield)
  | 13 =>
    if u then .error .unassigned
    else need (zeroAt w 19 4) (.await (w.extractLsb' 16 3) (we w) (wa w) (wf w) (wb w))
  | 14 =>
    if u then .error .unassigned
    else need (zeroAt w 16 7) (.pause (wh w))
  | 15 =>
    if u then need (zeroAt w 3 13) (.getidU (wd w) (w.extractLsb' 0 3))
    else need (zeroAt w 3 13) (.getid (wd w) (w.extractLsb' 0 3))
  | _ => .error .unassigned

/-- R174: row 0xC0 of the grid, one arm per column. -/
def decodeRowC (u : Bool) (w : BitVec 32) : Nat → Except Reject Instr
  | 0 =>
    if u then need (zeroAt w 4 12) (.getsysU (wd w) (w.extractLsb' 0 4))
    else need (zeroAt w 4 12) (.getsys (wd w) (w.extractLsb' 0 4))
  | 1 =>
    if u then need (zeroAt w 8 8) (.sysrU (wd w) (wi w))
    else need (zeroAt w 8 8) (.sysr (wd w) (wi w))
  | 2 =>
    if u then need (zeroAt w 16 7) (.sysw (we w) (wa w) (wi w))
    else .error .unassigned
  | 3 =>
    if u then .error .unassigned
    else need (zeroAt w 16 7) (.brk (wh w))
  | 4 =>
    if u then .error .unassigned
    else need (zeroAt w 16 7) (.mark (wh w))
  | 5 =>
    if u then .error .unassigned
    else need (zeroAt w 0 8 && zeroAt w 11 4 && zeroAt w 16 7) (.regroup (we w) (w.extractLsb' 8 3))
  | 6 =>
    if u then need (zeroAt w 0 8) (.fetchwg (wd w) (we w) (wa w))
    else .error .unassigned
  | _ => .error .unassigned

/-- R173, R174: rows of the grid. Rows 0xD0 to 0xF0 are unassigned. -/
def decodeRow (u : Bool) (w : Word) (col : Nat) : Nat → Except Reject Instr
  | 0 => decodeRow0 u w col
  | 1 => decodeRow1 u w col
  | 2 => decodeRow2 u w col
  | 3 => decodeRow3 u w col
  | 4 => decodeRow4 u w col
  | 5 => decodeRow5 u w col
  | 6 => decodeRow6 u w col
  | 7 => decodeRow7 u w col
  | 8 => decodeRow8 u w col
  | 9 => decodeRow9 u w col
  | 10 => decodeRowA u w col
  | 11 => decodeRowB u w col
  | 12 => decodeRowC u w col
  | _ => .error .unassigned

/-- R153, R175: the instruction of a word before the value checks of its fields: its code point is assigned and its
unused bits are 0. -/
def decodeRaw (w : Word) : Except Reject Instr :=
  decodeRow (w.getLsbD 31) w (w.extractLsb' 23 4).toNat (w.extractLsb' 27 4).toNat

/-- R177 checks 2 to 4, in order: the instruction that a word is. -/
def decode (w : Word) : Except Reject Instr :=
  match decodeRaw w with
  | .error r => .error r
  | .ok i =>
    if !WellFormed.fieldOk i then .error .field
    else if !WellFormed.pairOk i then .error .pair
    else .ok i

/-- R5: a little-endian word from four bytes. -/
def wordOfBytes (b0 b1 b2 b3 : Byte) : Word := b3 ++ b2 ++ b1 ++ b0

/-- R5: the four bytes of a word, lowest address first. -/
def bytesOfWord (w : Word) : List Byte :=
  [w.extractLsb' 0 8, w.extractLsb' 8 8, w.extractLsb' 16 8, w.extractLsb' 24 8]

/-- R153: the instruction at the head of a byte list, with the rest of the list. -/
def decodeBytes : List Byte → Except Reject (Instr × List Byte)
  | b0 :: b1 :: b2 :: b3 :: rest =>
    match decode (wordOfBytes b0 b1 b2 b3) with
    | .ok i => .ok (i, rest)
    | .error r => .error r
  | _ => .error .short

/-- The instruction that the decoder reads from an instruction whose bits are `w`, bit 0 the least significant of the
first byte: laid out as the memory holds it (R153) and given to the byte decoder. -/
def decodeTableWord (_nbits w : Nat) : Option Instr :=
  match decodeBytes (bytesOfWord (BitVec.ofNat 32 w)) with
  | .ok (i, _) => some i
  | .error _ => none

/-! ## The encoder -/

/-- R153: format V. -/
def fmtV (cp : BitVec 9) (d : BitVec 7) (ea : Bool) (a : BitVec 7) (eb : Bool) (b : BitVec 7) : Word :=
  cp ++ d ++ BitVec.ofBool ea ++ a ++ BitVec.ofBool eb ++ b

/-- R153: format I. -/
def fmtI (cp : BitVec 9) (d : BitVec 7) (ea : Bool) (a : BitVec 7) (i : BitVec 8) : Word :=
  cp ++ d ++ BitVec.ofBool ea ++ a ++ i

/-- R153: format W. -/
def fmtW (cp : BitVec 9) (d : BitVec 7) (i : BitVec 16) : Word := cp ++ d ++ i

/-- R153: format B; `t` is bits [22:19]. -/
def fmtB (cp : BitVec 9) (t : BitVec 4) (o : BitVec 19) : Word := cp ++ t ++ o

/-- R153, R174: the word of an instruction. A step of another agent has no word; it stands for the unassigned word
0xFFFF_FFFF here, and an unassigned word for itself. -/
def encode : Instr → Word
  | .nop => fmtI 0#9 0#7 false 0#7 0#8
  | .nopU => fmtI 256#9 0#7 false 0#7 0#8
  | .bra p s o => fmtB 1#9 (p ++ BitVec.ofBool s) o
  | .brc p s o => fmtB 2#9 (p ++ BitVec.ofBool s) o
  | .call o => fmtB 3#9 0#4 o
  | .reconv o => fmtB 4#9 0#4 o
  | .span c o => fmtB 5#9 (0#1 ++ c ++ 0#1) o
  | .commit c o => fmtB 6#9 (0#1 ++ c ++ 0#1) o
  | .brx ea a => fmtI 8#9 0#7 ea a 0#8
  | .callx ea a => fmtI 9#9 0#7 ea a 0#8
  | .ret => fmtI 10#9 0#7 false 0#7 0#8
  | .join => fmtI 11#9 0#7 false 0#7 0#8
  | .exit => fmtI 12#9 0#7 false 0#7 0#8
  | .meld ea p => fmtI 13#9 0#7 ea (0#4 ++ p) 0#8
  | .meldend => fmtI 14#9 0#7 false 0#7 0#8
  | .rnset n a b => fmtI 15#9 (0#3 ++ n) false a (0#1 ++ b)
  | .add d ea a eb b => fmtV 16#9 d ea a eb b
  | .addU d ea a eb b => fmtV 272#9 d ea a eb b
  | .sub d ea a eb b => fmtV 17#9 d ea a eb b
  | .subU d ea a eb b => fmtV 273#9 d ea a eb b
  | .mul d ea a eb b => fmtV 18#9 d ea a eb b
  | .mulU d ea a eb b => fmtV 274#9 d ea a eb b
  | .mulhi d ea a eb b => fmtV 19#9 d ea a eb b
  | .mulhiU d ea a eb b => fmtV 275#9 d ea a eb b
  | .fma d ea a eb b => fmtV 20#9 d ea a eb b
  | .fmaU d ea a eb b => fmtV 276#9 d ea a eb b
  | .min d ea a eb b => fmtV 21#9 d ea a eb b
  | .minU d ea a eb b => fmtV 277#9 d ea a eb b
  | .max d ea a eb b => fmtV 22#9 d ea a eb b
  | .maxU d ea a eb b => fmtV 278#9 d ea a eb b
  | .div d ea a eb b => fmtV 23#9 d ea a eb b
  | .divU d ea a eb b => fmtV 279#9 d ea a eb b
  | .rem d ea a eb b => fmtV 24#9 d ea a eb b
  | .remU d ea a eb b => fmtV 280#9 d ea a eb b
  | .neg d ea a => fmtI 25#9 d ea a 0#8
  | .negU d ea a => fmtI 281#9 d ea a 0#8
  | .abs d ea a => fmtI 26#9 d ea a 0#8
  | .absU d ea a => fmtI 282#9 d ea a 0#8
  | .sel d ea a eb b => fmtV 27#9 d ea a eb b
  | .add64 d ea a eb b => fmtV 28#9 d ea a eb b
  | .add64U d ea a eb b => fmtV 284#9 d ea a eb b
  | .lea d ea a eb b => fmtV 29#9 d ea a eb b
  | .leaU d ea a eb b => fmtV 285#9 d ea a eb b
  | .cmp c p ea a eb b => fmtV 30#9 (c ++ p) ea a eb b
  | .classP p ea a m => fmtI 31#9 (0#4 ++ p) ea a m
  | .and d ea a eb b => fmtV 32#9 d ea a eb b
  | .andU d ea a eb b => fmtV 288#9 d ea a eb b
  | .or d ea a eb b => fmtV 33#9 d ea a eb b
  | .orU d ea a eb b => fmtV 289#9 d ea a eb b
  | .xor d ea a eb b => fmtV 34#9 d ea a eb b
  | .xorU d ea a eb b => fmtV 290#9 d ea a eb b
  | .not d ea a => fmtI 35#9 d ea a 0#8
  | .notU d ea a => fmtI 291#9 d ea a 0#8
  | .shl d ea a eb b => fmtV 36#9 d ea a eb b
  | .shlU d ea a eb b => fmtV 292#9 d ea a eb b
  | .shr d ea a eb b => fmtV 37#9 d ea a eb b
  | .shrU d ea a eb b => fmtV 293#9 d ea a eb b
  | .sar d ea a eb b => fmtV 38#9 d ea a eb b
  | .sarU d ea a eb b => fmtV 294#9 d ea a eb b
  | .rot d ea a eb b => fmtV 39#9 d ea a eb b
  | .rotU d ea a eb b => fmtV 295#9 d ea a eb b
  | .bfx d ea a eb b => fmtV 40#9 d ea a eb b
  | .bfxU d ea a eb b => fmtV 296#9 d ea a eb b
  | .bfi d ea a eb b => fmtV 41#9 d ea a eb b
  | .bfiU d ea a eb b => fmtV 297#9 d ea a eb b
  | .popc d ea a => fmtI 42#9 d ea a 0#8
  | .popcU d ea a => fmtI 298#9 d ea a 0#8
  | .clz d ea a => fmtI 43#9 d ea a 0#8
  | .clzU d ea a => fmtI 299#9 d ea a 0#8
  | .ctz d ea a => fmtI 44#9 d ea a 0#8
  | .ctzU d ea a => fmtI 300#9 d ea a 0#8
  | .brev d ea a => fmtI 45#9 d ea a 0#8
  | .brevU d ea a => fmtI 301#9 d ea a 0#8
  | .mov d ea a => fmtI 46#9 d ea a 0#8
  | .movU d ea a => fmtI 302#9 d ea a 0#8
  | .rcp d ea a => fmtI 48#9 d ea a 0#8
  | .rcpU d ea a => fmtI 304#9 d ea a 0#8
  | .rsq d ea a => fmtI 49#9 d ea a 0#8
  | .rsqU d ea a => fmtI 305#9 d ea a 0#8
  | .sqrt d ea a => fmtI 50#9 d ea a 0#8
  | .sqrtU d ea a => fmtI 306#9 d ea a 0#8
  | .exp2 d ea a => fmtI 51#9 d ea a 0#8
  | .exp2U d ea a => fmtI 307#9 d ea a 0#8
  | .log2 d ea a => fmtI 52#9 d ea a 0#8
  | .log2U d ea a => fmtI 308#9 d ea a 0#8
  | .sin d ea a => fmtI 53#9 d ea a 0#8
  | .sinU d ea a => fmtI 309#9 d ea a 0#8
  | .cos d ea a => fmtI 54#9 d ea a 0#8
  | .cosU d ea a => fmtI 310#9 d ea a 0#8
  | .cvt d ea a i => fmtI 55#9 d ea a i
  | .cvtU d ea a i => fmtI 311#9 d ea a i
  | .pack2 d ea a eb b => fmtV 56#9 d ea a eb b
  | .pack2U d ea a eb b => fmtV 312#9 d ea a eb b
  | .unpk2 d ea a n => fmtI 57#9 d ea a (0#7 ++ BitVec.ofBool n)
  | .unpk2U d ea a n => fmtI 313#9 d ea a (0#7 ++ BitVec.ofBool n)
  | .addi d ea a i => fmtI 64#9 d ea a i
  | .addiU d ea a i => fmtI 320#9 d ea a i
  | .andi d ea a i => fmtI 65#9 d ea a i
  | .andiU d ea a i => fmtI 321#9 d ea a i
  | .ori d ea a i => fmtI 66#9 d ea a i
  | .oriU d ea a i => fmtI 322#9 d ea a i
  | .xori d ea a i => fmtI 67#9 d ea a i
  | .xoriU d ea a i => fmtI 323#9 d ea a i
  | .shli d ea a i => fmtI 68#9 d ea a (0#3 ++ i)
  | .shliU d ea a i => fmtI 324#9 d ea a (0#3 ++ i)
  | .shri d ea a i => fmtI 69#9 d ea a (0#3 ++ i)
  | .shriU d ea a i => fmtI 325#9 d ea a (0#3 ++ i)
  | .cmpi c p ea a i => fmtI 70#9 (c ++ p) ea a i
  | .movw d i => fmtW 72#9 d i
  | .movwU d i => fmtW 328#9 d i
  | .movh d i => fmtW 73#9 d i
  | .movhU d i => fmtW 329#9 d i
  | .shflIdx d ea a eb b => fmtV 80#9 d ea a eb b
  | .shflUp d ea a i => fmtI 81#9 d ea a (0#1 ++ i)
  | .shflDn d ea a i => fmtI 82#9 d ea a (0#1 ++ i)
  | .shflXor d ea a i => fmtI 83#9 d ea a (0#1 ++ i)
  | .bcast d ea a i => fmtI 84#9 d ea a (0#1 ++ i)
  | .vote d ea p k => fmtI 85#9 d ea (0#4 ++ p) (0#6 ++ k)
  | .qscan d ea a i => fmtI 86#9 d ea a (0#4 ++ i)
  | .reduce d ea a i => fmtI 87#9 d ea a (0#4 ++ i)
  | .pand d ea a eb b => fmtV 88#9 (0#4 ++ d) ea (0#4 ++ a) eb (0#4 ++ b)
  | .por d ea a eb b => fmtV 89#9 (0#4 ++ d) ea (0#4 ++ a) eb (0#4 ++ b)
  | .pxor d ea a eb b => fmtV 90#9 (0#4 ++ d) ea (0#4 ++ a) eb (0#4 ++ b)
  | .pnot d ea a => fmtI 91#9 (0#4 ++ d) ea (0#4 ++ a) 0#8
  | .pmov d ea a => fmtI 92#9 (0#4 ++ d) ea (0#4 ++ a) 0#8
  | .xset d ea a => fmtI 93#9 (0#5 ++ d) ea a 0#8
  | .xadd d a i => fmtI 94#9 (0#5 ++ d) false (0#5 ++ a) i
  | .movx d a eb b => fmtV 95#9 d false (0#5 ++ a) eb b
  | .movxw d ea a eb b => fmtV 96#9 (0#5 ++ d) ea a eb b
  | .smov d ea a => fmtI 97#9 d ea a 0#8
  | .vset d ea a => fmtI 98#9 d ea a 0#8
  | .ld d ea a s k => fmtI 104#9 d ea a (s ++ k)
  | .ldU d ea a s k => fmtI 360#9 d ea a (s ++ k)
  | .st d ea a s k => fmtI 105#9 d ea a (s ++ k)
  | .stU d ea a s k => fmtI 361#9 d ea a (s ++ k)
  | .lds d ea a s k => fmtI 106#9 d ea a (s ++ k)
  | .ldsU d ea a s k => fmtI 362#9 d ea a (s ++ k)
  | .sts d ea a s k => fmtI 107#9 d ea a (s ++ k)
  | .stsU d ea a s k => fmtI 363#9 d ea a (s ++ k)
  | .ldc d ea a s k => fmtI 108#9 d ea a (s ++ k)
  | .ldcU d ea a s k => fmtI 364#9 d ea a (s ++ k)
  | .pref ea a k => fmtI 109#9 0#7 ea a (0#2 ++ k)
  | .prefU ea a k => fmtI 365#9 0#7 ea a (0#2 ++ k)
  | .aadd d ea a r w k => fmtI 112#9 d ea a (BitVec.ofBool r ++ BitVec.ofBool w ++ k)
  | .afadd d ea a r k => fmtI 113#9 d ea a (BitVec.ofBool r ++ 0#1 ++ k)
  | .amin d ea a r w k => fmtI 114#9 d ea a (BitVec.ofBool r ++ BitVec.ofBool w ++ k)
  | .amax d ea a r w k => fmtI 115#9 d ea a (BitVec.ofBool r ++ BitVec.ofBool w ++ k)
  | .aand d ea a r w k => fmtI 116#9 d ea a (BitVec.ofBool r ++ BitVec.ofBool w ++ k)
  | .aor d ea a r w k => fmtI 117#9 d ea a (BitVec.ofBool r ++ BitVec.ofBool w ++ k)
  | .axor d ea a r w k => fmtI 118#9 d ea a (BitVec.ofBool r ++ BitVec.ofBool w ++ k)
  | .axch d ea a r w k => fmtI 119#9 d ea a (BitVec.ofBool r ++ BitVec.ofBool w ++ k)
  | .acas d ea a r w k => fmtI 120#9 d ea a (BitVec.ofBool r ++ BitVec.ofBool w ++ k)
  | .ainc d ea a r w k => fmtI 121#9 d ea a (BitVec.ofBool r ++ BitVec.ofBool w ++ k)
  | .bind d ea a eb b => fmtV 128#9 d ea a eb b
  | .bindU d ea a eb b => fmtV 384#9 d ea a eb b
  | .unbind ea a => fmtI 129#9 0#7 ea a 0#8
  | .unbindU ea a => fmtI 385#9 0#7 ea a 0#8
  | .acq d ea a s => fmtI 130#9 d ea a (0#5 ++ s)
  | .acqU d ea a s => fmtI 386#9 d ea a (0#5 ++ s)
  | .rel d ea a s => fmtI 131#9 d ea a (0#5 ++ s)
  | .relU d ea a s => fmtI 387#9 d ea a (0#5 ++ s)
  | .fence s => fmtI 132#9 0#7 false 0#7 (0#5 ++ s)
  | .pub d ea a s => fmtI 133#9 d ea a (0#5 ++ s)
  | .qw q ea a => fmtI 390#9 (0#4 ++ q) ea a 0#8
  | .qr d q => fmtI 391#9 d false (0#4 ++ q) 0#8
  | .qstat d q => fmtI 392#9 d false (0#4 ++ q) 0#8
  | .swset d ea a => fmtI 393#9 d ea a 0#8
  | .swadd d ea a => fmtI 394#9 d ea a 0#8
  | .swgen d ea a => fmtI 395#9 d ea a 0#8
  | .fread d ea a k => fmtI 140#9 d ea a (0#2 ++ k)
  | .freadU d ea a k => fmtI 396#9 d ea a (0#2 ++ k)
  | .ffill d ea a k => fmtI 141#9 d ea a (0#2 ++ k)
  | .ffillU d ea a k => fmtI 397#9 d ea a (0#2 ++ k)
  | .fwait ea a k => fmtI 142#9 0#7 ea a (0#2 ++ k)
  | .fclr ea a k => fmtI 143#9 0#7 ea a (0#2 ++ k)
  | .fclrU ea a k => fmtI 399#9 0#7 ea a (0#2 ++ k)
  | .wlpush d w => fmtI 144#9 d false 0#7 (0#4 ++ w)
  | .wlpushU d w => fmtI 400#9 d false 0#7 (0#4 ++ w)
  | .wlpushr d w => fmtI 145#9 d false 0#7 (0#4 ++ w)
  | .wlpushrU d w => fmtI 401#9 d false 0#7 (0#4 ++ w)
  | .wlpop d p w => fmtI 146#9 d false (0#4 ++ p) (0#4 ++ w)
  | .wldone w => fmtI 147#9 0#7 false 0#7 (0#4 ++ w)
  | .wlstat d w => fmtI 404#9 d false 0#7 (0#4 ++ w)
  | .wlcfg d ea a w => fmtI 405#9 d ea a (0#4 ++ w)
  | .gang d ea a => fmtI 416#9 d ea a 0#8
  | .mma c ea a s => fmtI 417#9 (0#4 ++ c) ea a (0#5 ++ s)
  | .mmas c ea a s => fmtI 418#9 (0#4 ++ c) ea a (0#5 ++ s)
  | .accz c => fmtI 419#9 (0#4 ++ c) false 0#7 0#8
  | .accld c ea a s => fmtI 420#9 (0#4 ++ c) ea a (0#5 ++ s)
  | .accst c ea a s => fmtI 421#9 (0#4 ++ c) ea a (0#5 ++ s)
  | .accrd d c eb b => fmtV 166#9 d false (0#4 ++ c) eb b
  | .accwr c ea a eb b => fmtV 167#9 (0#4 ++ c) ea a eb b
  | .mprog d c => fmtI 424#9 d false (0#4 ++ c) 0#8
  | .tdesc d ea a => fmtI 425#9 d ea a 0#8
  | .tcvt d ea a s => fmtI 426#9 d ea a (0#5 ++ s)
  | .mode i => fmtW 176#9 0#7 i
  | .modeg i => fmtW 177#9 0#7 i
  | .stage i => fmtW 178#9 0#7 i
  | .rnclr => fmtI 179#9 0#7 false 0#7 0#8
  | .pchk p ea a k => fmtI 180#9 (0#4 ++ p) ea a (0#6 ++ k)
  | .pcause d ea a => fmtI 181#9 d ea a 0#8
  | .pcauseU d ea a => fmtI 437#9 d ea a 0#8
  | .porig d ea a b => fmtI 182#9 d ea a (0#4 ++ b)
  | .porigU d ea a b => fmtI 438#9 d ea a (0#4 ++ b)
  | .pclr d ea a => fmtI 183#9 d ea a 0#8
  | .pclrU d ea a => fmtI 439#9 d ea a 0#8
  | .pmake d ea a => fmtI 184#9 d ea a 0#8
  | .pmakeU d ea a => fmtI 440#9 d ea a 0#8
  | .barSync c b => fmtI 185#9 (0#2 ++ c) false 0#7 (0#4 ++ b)
  | .barArrive c b => fmtI 185#9 (0#2 ++ c) false 0#7 (4#4 ++ b)
  | .barWait b => fmtI 185#9 0#7 false 0#7 (8#4 ++ b)
  | .monitor ea a m => fmtI 186#9 0#7 ea a (0#7 ++ BitVec.ofBool m)
  | .mwait => fmtI 187#9 0#7 false 0#7 0#8
  | .yield => fmtI 188#9 0#7 false 0#7 0#8
  | .await p ea a eb b => fmtV 189#9 (0#4 ++ p) ea a eb b
  | .pause i => fmtW 190#9 0#7 i
  | .getid d k => fmtI 191#9 d false 0#7 (0#5 ++ k)
  | .getidU d k => fmtI 447#9 d false 0#7 (0#5 ++ k)
  | .getsys d i => fmtI 192#9 d false 0#7 (0#4 ++ i)
  | .getsysU d i => fmtI 448#9 d false 0#7 (0#4 ++ i)
  | .sysr d i => fmtI 193#9 d false 0#7 i
  | .sysrU d i => fmtI 449#9 d false 0#7 i
  | .sysw ea a i => fmtI 450#9 0#7 ea a i
  | .brk i => fmtW 195#9 0#7 i
  | .mark i => fmtW 196#9 0#7 i
  | .regroup ea p => fmtI 197#9 0#7 ea (0#4 ++ p) 0#8
  | .fetchwg d ea a => fmtI 454#9 d ea a 0#8
  | .copy _ _ => 0xFFFFFFFF#32
  | .fill _ _ => 0xFFFFFFFF#32
  | .gather _ _ => 0xFFFFFFFF#32
  | .scatter _ _ => 0xFFFFFFFF#32
  | .reduceInto _ _ => 0xFFFFFFFF#32
  | .engineArrival _ => 0xFFFFFFFF#32
  | .engineResult _ => 0xFFFFFFFF#32
  | .longLatencyComplete _ => 0xFFFFFFFF#32
  | .spanReplay _ => 0xFFFFFFFF#32
  | .regroupRedistribute _ _ => 0xFFFFFFFF#32
  | .groupExitComplete _ => 0xFFFFFFFF#32
  | .groupStall _ => 0xFFFFFFFF#32
  | .groupDeadlock _ => 0xFFFFFFFF#32
  | .pauseEnd _ _ => 0xFFFFFFFF#32
  | .workgroupPlace _ _ _ => 0xFFFFFFFF#32
  | .stealRequest _ _ _ => 0xFFFFFFFF#32
  | .occupancySummary _ _ _ => 0xFFFFFFFF#32
  | .fetchwgAnswer _ => 0xFFFFFFFF#32
  | .migration _ _ _ => 0xFFFFFFFF#32
  | .floorAcknowledgement _ _ _ => 0xFFFFFFFF#32
  | .worklistOccupancySummary _ _ _ _ => 0xFFFFFFFF#32
  | .worklistStealRequest _ _ _ _ => 0xFFFFFFFF#32
  | .futureFillWake _ _ _ => 0xFFFFFFFF#32
  | .terminationWave _ _ => 0xFFFFFFFF#32
  | .kstep _ _ => 0xFFFFFFFF#32
  | .matrixResume _ _ => 0xFFFFFFFF#32
  | .faultRecordPost _ => 0xFFFFFFFF#32
  | .faultCompletion _ _ _ => 0xFFFFFFFF#32
  | .hostWrite _ _ _ => 0xFFFFFFFF#32
  | .hostRead _ _ => 0xFFFFFFFF#32
  | .launchRecordRead _ => 0xFFFFFFFF#32
  | .serialLaunchStart _ => 0xFFFFFFFF#32
  | .launchComplete _ => 0xFFFFFFFF#32
  | .cxlSnoop _ _ => 0xFFFFFFFF#32
  | .cxlMemRead _ _ => 0xFFFFFFFF#32
  | .queueDescriptorWrite _ _ _ => 0xFFFFFFFF#32
  | .partitionMaskWrite _ _ => 0xFFFFFFFF#32
  | .create _ _ _ => 0xFFFFFFFF#32
  | .destroy _ => 0xFFFFFFFF#32
  | .inval _ _ _ => 0xFFFFFFFF#32
  | .preempt _ => 0xFFFFFFFF#32
  | .preemptSave _ => 0xFFFFFFFF#32
  | .resume _ => 0xFFFFFFFF#32
  | .chordEnable _ _ => 0xFFFFFFFF#32
  | .chordTrainingComplete _ _ _ => 0xFFFFFFFF#32
  | .dataFlitReceive _ _ => 0xFFFFFFFF#32
  | .idleFlitReceive _ _ => 0xFFFFFFFF#32
  | .replayRequestReceive _ _ => 0xFFFFFFFF#32
  | .replayTimerExpiry _ => 0xFFFFFFFF#32
  | .read _ _ => 0xFFFFFFFF#32
  | .write _ _ => 0xFFFFFFFF#32
  | .atomic _ _ => 0xFFFFFFFF#32
  | .readResp _ _ => 0xFFFFFFFF#32
  | .writeAck _ _ => 0xFFFFFFFF#32
  | .atomicResp _ _ => 0xFFFFFFFF#32
  | .message _ => 0xFFFFFFFF#32
  | .laneLoss _ _ => 0xFFFFFFFF#32
  | .reset => 0xFFFFFFFF#32
  | .functionReady _ => 0xFFFFFFFF#32
  | .stageImage _ => 0xFFFFFFFF#32
  | .firmwareCommit => 0xFFFFFFFF#32
  | .recover => 0xFFFFFFFF#32
  | .minsvn _ => 0xFFFFFFFF#32
  | .opkey _ => 0xFFFFFFFF#32
  | .image _ => 0xFFFFFFFF#32
  | .attest _ => 0xFFFFFFFF#32
  | .ckpt _ => 0xFFFFFFFF#32
  | .checkpointPageCopy _ _ => 0xFFFFFFFF#32
  | .matrixWordWrite _ _ _ => 0xFFFFFFFF#32
  | .logHeadWrite _ _ => 0xFFFFFFFF#32
  | .dumpDescriptorWrite _ _ _ => 0xFFFFFFFF#32
  | .dumpComplete _ => 0xFFFFFFFF#32
  | .debugBlockWrite _ _ _ => 0xFFFFFFFF#32
  | .halt _ => 0xFFFFFFFF#32
  | .go _ => 0xFFFFFFFF#32
  | .step _ _ _ => 0xFFFFFFFF#32
  | .replay _ _ _ => 0xFFFFFFFF#32
  | .sample _ _ _ _ => 0xFFFFFFFF#32
  | .managementRegisterWrite _ _ => 0xFFFFFFFF#32
  | .unassignedCodePoint w _ => w
  | .cxlLinkError _ => 0xFFFFFFFF#32
  | .internalConsistencyCheck _ _ _ => 0xFFFFFFFF#32
  | .scrubbing _ _ => 0xFFFFFFFF#32

/-- R153: the constructor stands for an instruction word, and not for the step of another agent. -/
def Instr.isWord : Instr → Bool
  | .bra _ _ _ | .brc _ _ _ | .call _ | .reconv _ | .span _ _ | .commit _ _ | .brx _ _ | .callx _ _ | .meld _ _
  | .rnset _ _ _ | .add _ _ _ _ _ | .addU _ _ _ _ _ | .sub _ _ _ _ _ | .subU _ _ _ _ _ | .mul _ _ _ _ _
  | .mulU _ _ _ _ _ | .mulhi _ _ _ _ _ | .mulhiU _ _ _ _ _ | .fma _ _ _ _ _ | .fmaU _ _ _ _ _ | .min _ _ _ _ _
  | .minU _ _ _ _ _ | .max _ _ _ _ _ | .maxU _ _ _ _ _ | .div _ _ _ _ _ | .divU _ _ _ _ _ | .rem _ _ _ _ _
  | .remU _ _ _ _ _ | .neg _ _ _ | .negU _ _ _ | .abs _ _ _ | .absU _ _ _ | .sel _ _ _ _ _ | .add64 _ _ _ _ _
  | .add64U _ _ _ _ _ | .lea _ _ _ _ _ | .leaU _ _ _ _ _ | .cmp _ _ _ _ _ _ | .classP _ _ _ _ | .and _ _ _ _ _
  | .andU _ _ _ _ _ | .or _ _ _ _ _ | .orU _ _ _ _ _ | .xor _ _ _ _ _ | .xorU _ _ _ _ _ | .not _ _ _ | .notU _ _ _
  | .shl _ _ _ _ _ | .shlU _ _ _ _ _ | .shr _ _ _ _ _ | .shrU _ _ _ _ _ | .sar _ _ _ _ _ | .sarU _ _ _ _ _
  | .rot _ _ _ _ _ | .rotU _ _ _ _ _ | .bfx _ _ _ _ _ | .bfxU _ _ _ _ _ | .bfi _ _ _ _ _ | .bfiU _ _ _ _ _ | .popc _ _ _
  | .popcU _ _ _ | .clz _ _ _ | .clzU _ _ _ | .ctz _ _ _ | .ctzU _ _ _ | .brev _ _ _ | .brevU _ _ _ | .mov _ _ _
  | .movU _ _ _ | .rcp _ _ _ | .rcpU _ _ _ | .rsq _ _ _ | .rsqU _ _ _ | .sqrt _ _ _ | .sqrtU _ _ _ | .exp2 _ _ _
  | .exp2U _ _ _ | .log2 _ _ _ | .log2U _ _ _ | .sin _ _ _ | .sinU _ _ _ | .cos _ _ _ | .cosU _ _ _ | .cvt _ _ _ _
  | .cvtU _ _ _ _ | .pack2 _ _ _ _ _ | .pack2U _ _ _ _ _ | .unpk2 _ _ _ _ | .unpk2U _ _ _ _ | .addi _ _ _ _
  | .addiU _ _ _ _ | .andi _ _ _ _ | .andiU _ _ _ _ | .ori _ _ _ _ | .oriU _ _ _ _ | .xori _ _ _ _ | .xoriU _ _ _ _
  | .shli _ _ _ _ | .shliU _ _ _ _ | .shri _ _ _ _ | .shriU _ _ _ _ | .cmpi _ _ _ _ _ | .movw _ _ | .movwU _ _
  | .movh _ _ | .movhU _ _ | .shflIdx _ _ _ _ _ | .shflUp _ _ _ _ | .shflDn _ _ _ _ | .shflXor _ _ _ _ | .bcast _ _ _ _
  | .vote _ _ _ _ | .qscan _ _ _ _ | .reduce _ _ _ _ | .pand _ _ _ _ _ | .por _ _ _ _ _ | .pxor _ _ _ _ _ | .pnot _ _ _
  | .pmov _ _ _ | .xset _ _ _ | .xadd _ _ _ | .movx _ _ _ _ | .movxw _ _ _ _ _ | .smov _ _ _ | .vset _ _ _
  | .ld _ _ _ _ _ | .ldU _ _ _ _ _ | .st _ _ _ _ _ | .stU _ _ _ _ _ | .lds _ _ _ _ _ | .ldsU _ _ _ _ _ | .sts _ _ _ _ _
  | .stsU _ _ _ _ _ | .ldc _ _ _ _ _ | .ldcU _ _ _ _ _ | .pref _ _ _ | .prefU _ _ _ | .aadd _ _ _ _ _ _
  | .afadd _ _ _ _ _ | .amin _ _ _ _ _ _ | .amax _ _ _ _ _ _ | .aand _ _ _ _ _ _ | .aor _ _ _ _ _ _ | .axor _ _ _ _ _ _
  | .axch _ _ _ _ _ _ | .acas _ _ _ _ _ _ | .ainc _ _ _ _ _ _ | .bind _ _ _ _ _ | .bindU _ _ _ _ _ | .unbind _ _
  | .unbindU _ _ | .acq _ _ _ _ | .acqU _ _ _ _ | .rel _ _ _ _ | .relU _ _ _ _ | .fence _ | .pub _ _ _ _ | .qw _ _ _
  | .qr _ _ | .qstat _ _ | .swset _ _ _ | .swadd _ _ _ | .swgen _ _ _ | .fread _ _ _ _ | .freadU _ _ _ _
  | .ffill _ _ _ _ | .ffillU _ _ _ _ | .fwait _ _ _ | .fclr _ _ _ | .fclrU _ _ _ | .wlpush _ _ | .wlpushU _ _
  | .wlpushr _ _ | .wlpushrU _ _ | .wlpop _ _ _ | .wldone _ | .wlstat _ _ | .wlcfg _ _ _ _ | .gang _ _ _ | .mma _ _ _ _
  | .mmas _ _ _ _ | .accz _ | .accld _ _ _ _ | .accst _ _ _ _ | .accrd _ _ _ _ | .accwr _ _ _ _ _ | .mprog _ _
  | .tdesc _ _ _ | .tcvt _ _ _ _ | .mode _ | .modeg _ | .stage _ | .pchk _ _ _ _ | .pcause _ _ _ | .pcauseU _ _ _
  | .porig _ _ _ _ | .porigU _ _ _ _ | .pclr _ _ _ | .pclrU _ _ _ | .pmake _ _ _ | .pmakeU _ _ _ | .barSync _ _
  | .barArrive _ _ | .barWait _ | .monitor _ _ _ | .await _ _ _ _ _ | .pause _ | .getid _ _ | .getidU _ _ | .getsys _ _
  | .getsysU _ _ | .sysr _ _ | .sysrU _ _ | .sysw _ _ _ | .brk _ | .mark _ | .regroup _ _ | .fetchwg _ _ _ | .nop
  | .nopU | .ret | .join | .exit | .meldend | .rnclr | .mwait | .yield => true
  | .unassignedCodePoint _ _ | .copy _ _ | .fill _ _ | .gather _ _ | .scatter _ _ | .reduceInto _ _ | .engineArrival _
  | .engineResult _ | .longLatencyComplete _ | .spanReplay _ | .regroupRedistribute _ _ | .groupExitComplete _
  | .groupStall _ | .groupDeadlock _ | .pauseEnd _ _ | .workgroupPlace _ _ _ | .stealRequest _ _ _
  | .occupancySummary _ _ _ | .fetchwgAnswer _ | .floorAcknowledgement _ _ _ | .worklistOccupancySummary _ _ _ _
  | .worklistStealRequest _ _ _ _ | .futureFillWake _ _ _ | .terminationWave _ _ | .kstep _ _ | .matrixResume _ _
  | .faultRecordPost _ | .launchRecordRead _ | .serialLaunchStart _ | .launchComplete _ | .preemptSave _
  | .checkpointPageCopy _ _ | .dumpComplete _ | .migration _ _ _ | .faultCompletion _ _ _ | .hostWrite _ _ _
  | .hostRead _ _ | .cxlSnoop _ _ | .cxlMemRead _ _ | .queueDescriptorWrite _ _ _ | .partitionMaskWrite _ _
  | .create _ _ _ | .destroy _ | .inval _ _ _ | .preempt _ | .resume _ | .chordEnable _ _ | .chordTrainingComplete _ _ _
  | .dataFlitReceive _ _ | .idleFlitReceive _ _ | .replayRequestReceive _ _ | .replayTimerExpiry _ | .read _ _
  | .write _ _ | .atomic _ _ | .readResp _ _ | .writeAck _ _ | .atomicResp _ _ | .message _ | .laneLoss _ _
  | .functionReady _ | .stageImage _ | .minsvn _ | .opkey _ | .image _ | .attest _ | .ckpt _ | .matrixWordWrite _ _ _
  | .logHeadWrite _ _ | .dumpDescriptorWrite _ _ _ | .debugBlockWrite _ _ _ | .halt _ | .go _ | .step _ _ _
  | .replay _ _ _ | .sample _ _ _ _ | .managementRegisterWrite _ _ | .cxlLinkError _ | .internalConsistencyCheck _ _ _
  | .scrubbing _ _ | .reset | .firmwareCommit | .recover => false

end Sys2Proof
end

