-- ==== Sys2Proof/Machine/State.lean ====
section
/-!
DEFINITION. The state of the VJ-HM400: every piece of state that the specification names, as plain data.
A sparse map is a list of (key, value) pairs with keys strictly rising and no value equal to what an unlisted key reads
as, so that equal contents are equal data. Where a comment says DESIGN CHOICE or PRESUMED, notes/assumptions has a row.
-/

namespace Sys2Proof.Machine

/-- A sparse map from numbers. Its operations and its canonical form are in Machine/SMap.lean. -/
abbrev SMap (α : Type) := List (Nat × α)

/-- A 10-bit side-table token (R40). -/
abbrev Token := BitVec 10

/-- A cause code of R47. -/
abbrev Cause := BitVec 6

/-! ## Registers -/

/-- R40, R160: one v-register of one thread, or one s-register. When `poi` is set, `val` holds the token. -/
structure Reg where
  val : Word := 0
  full : Bool := true
  poi : Bool := false
  deriving DecidableEq, Repr

/-- R40, R160: one predicate of one thread. -/
structure Pred where
  val : Bool := false
  full : Bool := true
  poi : Bool := false
  tok : Token := 0
  deriving DecidableEq, Repr

/-- R40, R249: one index register of one thread. -/
structure Idx where
  base : BitVec 8 := 0
  bound : BitVec 8 := 0
  poi : Bool := false
  tok : Token := 0
  deriving DecidableEq, Repr

/-! ## Paths -/

/-- R184: a join point with the mode and return stack that RECONV recorded. -/
structure JoinPoint where
  pc : DWord
  mode : BitVec 16
  rstack : List DWord
  deriving DecidableEq, Repr

/-- R9: what a path does. A path in `running` may issue. A path in `waiting`, `bar` or `barWait` stands at a word that
waits; the word is tried again until it no longer waits. The other values are waits that another step ends. -/
inductive Park where
  | running
  | waiting
  /-- R190 case 3: parked at a JOIN at this address. -/
  | join (pc : DWord)
  /-- R204: parked at a BAR: barrier, count, whether it waits after arriving. -/
  | bar (b : Nat) (count : Nat) (sync : Bool)
  /-- R205: the group has arrived; parked until the phase completes. -/
  | barWait (b : Nat)
  /-- R295: arrived at the rendezvous latch. -/
  | rendezvous
  /-- R14, R16: arrived at a REGROUP, with the threads whose predicate read true. -/
  | regroup (t : Mask)
  /-- R210: PAUSE, until this turn of the machine or until nothing else goes on (log entry 12); its pc is already the next
  word's. -/
  | pause (turn : Nat)
  /-- R62: parked at a COMMIT until replay ends. -/
  | commit
  deriving DecidableEq, Repr

/-- R183: a top path of a group. `mask` holds the active threads; `meld` is set inside a melded region and holds the
threads of melded path 1 (R192). -/
structure Path where
  pc : DWord
  mask : Mask
  mode : BitVec 16
  rstack : List DWord := []
  pend : Option JoinPoint := none
  trapInfo : Word := 0
  meld : Option Mask := none
  park : Park := .running
  deriving DecidableEq, Repr

/-- R183, R215: an entry of the reconvergence stack. -/
inductive EntryKind where
  | merge | deferred | trap
  deriving DecidableEq, Repr

/-- R183, R215: an entry of the reconvergence stack, tagged with the top path that owns it. -/
structure StackEntry where
  kind : EntryKind
  owner : Nat
  pc : DWord
  mask : Mask
  mode : BitVec 16
  rstack : List DWord
  join : Option JoinPoint
  /-- R188: the fall side of a BRX or CALLX: its join point is pending again when it is popped. -/
  repend : Bool := false
  /-- R62: the hold whose parked side this deferred entry is. -/
  hold : Option Nat := none
  deriving DecidableEq, Repr

/-! ## Poison -/

/-- R62: a register that a read found empty: its file (0 v, 1 s, 2 p), its number, and the thread that holds it. -/
structure RegName where
  file : Nat
  reg : Nat
  t : Nat
  deriving DecidableEq, Repr

/-- R43: a side-table record. Two fields are no part of the layout: `regs` holds, for EMPTY_READ, the registers found empty,
each with the thread that read it (R62), and `inst` the group's retired-work count at the instruction that made the record
(R44). -/
structure Record where
  regs : List (Nat × RegName) := []
  inst : Word := 0
  inspan : Bool
  cause : Cause
  count : BitVec 16
  slot : BitVec 5
  thread : BitVec 7
  quad : BitVec 2
  core : BitVec 7
  write : Bool
  pc : BitVec 55
  avalid : Bool
  addr : BitVec 55
  gorigin : Word
  deriving DecidableEq, Repr

/-- R43, R45: the side table of a core. `recs` maps an entry 0x000 to 0x3FE to its record and the group that owns it. -/
structure Side where
  recs : SMap (Nat × Record) := []
  lost : DWord := 0
  lostMask : DWord := 0
  deriving DecidableEq, Repr

/-- R60, R62: a live poison of a thread: its cause and what its record names (address, write bit), or the registers
that were found empty (EMPTY_READ). -/
structure LivePoison where
  t : Nat
  tok : Token := 0x3FF
  cause : Cause
  write : Bool := false
  addr : BitVec 55 := 0
  regs : List RegName := []
  deriving DecidableEq, Repr

/-- R62: what a replay waits for: a page, with the write bit of the record that names it; a page that holds a future cell; a full cell, by physical address; a full cell on
another package, by virtual address, chord, node and address there; a full register. -/
inductive Service where
  | page (va : BitVec 55) (write : Bool)
  | cellPage (va : BitVec 55)
  | cell (pa : Nat)
  | farCell (va : DWord) (chord node pa : Nat)
  | reg (r : RegName)
  deriving DecidableEq, Repr

/-- R62: a side that is parked at the COMMIT at `pc` while `replaying` threads run again: the threads that continue
(`waiting`) and those that go to recovery at `target`, the join point that the split consumed, and the path that holds
them (none: the tagged stack entry). -/
structure Hold where
  pc : DWord
  replaying : Mask
  waiting : Mask
  recover : Mask
  target : DWord
  explicit : Bool
  pend : Option JoinPoint
  side : Option Nat
  deriving DecidableEq, Repr

/-- R62: the evaluation at which a path waits for the services of the threads in `replaying`. `same` is the hold that it
merges with. A service that fails adds its thread to `failed`. -/
structure Serving where
  pc : DWord
  replaying : Mask
  failed : Mask := 0
  waiting : Mask
  recover : Mask
  target : DWord
  explicit : Bool
  same : Option Nat
  services : List (Nat × Service)
  deriving DecidableEq, Repr

/-- R55, R56: the span status of a group. -/
structure Span where
  action : BitVec 2 := 0
  recover : DWord := 0
  start : DWord := 0
  opened : Mask := 0
  live : Mask := 0
  unserv : Mask := 0
  first : SMap Cause := []
  replays : SMap Nat := []
  record : List Word := []
  poisons : List LivePoison := []
  holds : SMap Hold := []
  serving : SMap Serving := []
  deriving DecidableEq, Repr

/-! ## Effects -/

/-- R57, R66: the kinds of effect that a span holds and that are performed at issue outside one. -/
inductive EffKind where
  | store
  | atomic (op : Nat) (wide signed : Bool)
  | fill
  | clear
  | push (list : Nat)
  | qw
  | swset
  | swadd
  deriving DecidableEq, Repr

/-- R57: an effect of a thread with its addresses, data, poison of address, data and guard as they were at issue. It
names its group, context, partition and core itself, since it may be performed after the group has gone on. `ags` are the
agents that make it: one thread, or every active thread whose guard is true for a uniform instruction (R86). For a QW,
`size` is the queue. -/
structure Eff where
  kind : EffKind
  t : Nat
  gid : Nat
  ctx : Nat
  part : Nat
  core : Nat
  ags : List Nat
  pc : DWord
  scratch : Bool := false
  va : DWord := 0
  pa : Nat := 0
  chord : Option (Nat × Nat) := none
  size : Nat := 4
  data : List Word := []
  apoi : Option Token := none
  dpoi : Option Token := none
  gpoi : Option Token := none
  /-- R52: the global origin of the poison it would store. -/
  origin : Word := 0
  /-- R83: the group's retired-work count at the instruction, which tells its lanes from those of another issue. -/
  inst : Word := 0
  /-- R57, R86: the threads with an open span whose effect a held effect is. -/
  owners : Mask := 0
  /-- R393: the level of the leaf through which its address was translated. -/
  level : Nat := 0
  deriving DecidableEq, Repr

/-- R58: a quarantine entry: the line that it holds effects for, where it holds effects on a line. -/
structure QEntry where
  line : Option Nat
  effs : List Eff
  deriving DecidableEq, Repr

/-! ## Groups -/

/-- R82: the monitor of a group. -/
structure Monitor where
  armed : Bool := false
  scratch : Bool := false
  line : Nat := 0
  flag : Bool := false
  deriving DecidableEq, Repr

/-- R193: a rename-table entry. -/
structure Rename where
  src : BitVec 7
  dst : BitVec 7
  deriving DecidableEq, Repr

/-- R272, R274: an entry of a result queue. A failed command carries what its record will say. -/
structure EngResult where
  tag : BitVec 8
  failed : Bool
  pc : DWord := 0
  avalid : Bool := false
  addr : BitVec 55 := 0
  op : Option Nat := none
  deriving DecidableEq, Repr

/-- R272, R273: the queue pair of one engine of a group: words of the command being assembled, results, and results that
wait for room. Commands that the engine has not started are `EngOp`s. -/
structure Queue where
  partWords : List Word := []
  results : List EngResult := []
  held : List EngResult := []
  deriving DecidableEq, Repr

/-- R29: an outstanding FETCHWG: mailbox and destination, with the thread that executed it and the retired-work count of
its group (R460). -/
structure FetchReq where
  mailbox : Nat
  /-- R32: the place of the request among those of the machine. -/
  order : Nat
  dst : Nat
  t : Nat
  count : Word
  deriving DecidableEq, Repr

/-- R202: the part of a named barrier that a group holds. -/
structure GroupBar where
  pending : Bool := false
  wgen : Word := 0
  deriving DecidableEq, Repr

/-- R447, R454 to R457, R462: why a group does not issue though its paths could. -/
inductive Stop where
  | none
  /-- R215, R454 to R456: stopped by the debugger. -/
  | debug
  /-- R394, R437: stopping for a pre-emption or a kill. -/
  | context
  /-- R455: runs on until its step ends. -/
  | stepping
  deriving DecidableEq, Repr

/-- R8, R9, R183: a resident group of 128 threads. -/
structure Group where
  id : Nat
  wg : Nat
  pos : Nat
  role : Nat
  budget : Nat
  part : Nat
  slot : Nat
  age : Nat
  loss : Nat := 0
  exited : Mask := 0
  paths : SMap Path := []
  topJoin : Option JoinPoint := none
  lastPath : Nat := 0
  stack : List StackEntry := []
  v : SMap Reg := []
  sr : SMap Reg := []
  p : SMap Pred := []
  x : SMap Idx := []
  ren : SMap Rename := []
  span : Span := {}
  quar : List QEntry := []
  mon : Monitor := {}
  gang : Word := 0
  scr : SMap Word := []
  cycHi : Word := 0
  wdog : BitVec 41 := 0
  retired : Word := 0
  bars : SMap GroupBar := []
  fetch : Option FetchReq := none
  fetchSeq : BitVec 16 := 0
  queues : SMap Queue := []
  staged : List Nat := []
  held : SMap Nat := []
  /-- R306, R309: the words that ACCLD or TCVT has asked another package for, and those that came, by address. -/
  tileAsk : List Nat := []
  tileGot : SMap (Word × Option (BitVec 6 × Word)) := []
  /-- R172, R258: words of code that came from another package and have not issued yet, by address; none: the fetch failed. -/
  code : List (DWord × Option Word) := []
  /-- R283: cells on another package, by virtual address, that an FWAIT or a service of the group found full, or whose access
  failed (false). -/
  cells : List (DWord × Bool) := []
  /-- R269, R287: by thread, what came for an ACQ of a window object or a WLCFG that reads its descriptor there. -/
  gotten : SMap (List Word × Option (BitVec 6 × Word)) := []
  /-- R20: coordinates, by 128 * level + t. -/
  coord : SMap Nat := []
  stop : Stop := .none
  deadlocked : Bool := false
  /-- R457: its image held a reserved kind of stack entry: its next issue raises the illegal-instruction event. -/
  badImage : Bool := false
  traceCount : Nat := 255
  recordId : BitVec 16 := 0
  deriving DecidableEq, Repr

/-! ## Workgroups -/

/-- R202: a named barrier. `need` is none when unset. -/
structure Barrier where
  gen : Word := 0
  arrived : BitVec 16 := 0
  need : Option Nat := none
  deriving DecidableEq, Repr

/-- R295, R297: an arrival at the rendezvous latch: the operands as read at the arrival. A block register that was
poisoned or empty under E=1 is recorded by its token. `t` is the lowest active thread, `floor` what the group's threads
see at the arrival (R299), `count` the group's retired-work count (R460). -/
structure Arrival where
  pos : Nat
  gid : Nat
  pc : DWord
  scaled : Bool
  acc : Nat
  slot : Nat
  block : List (Word × Option Token)
  t : Nat
  floor : SMap Nat
  count : Word
  deriving DecidableEq, Repr

/-- R297, R303: an operation captured for a tile. `fail` is set when it performs no k-step: the poison of every element
is that token. `agent` names it as an agent of the consistency model (R299). `gang` is the leader's gang register as it was
at the rendezvous, 0 for a lone group (R297). The engine is held by the started operation with the greatest `turn` that is
not paused (R302); `passed` says that another operation had a k-step since the services of a paused one ended. `seen` holds the causes that the operation has a record of; `rid`, `count` and `reads` name its operand
words in record mode (R460). -/
structure MatOp where
  gid : Nat
  pc : DWord
  fmt : Word
  scaled : Bool
  block : List Word
  nk : Nat
  agent : Nat
  gang : Nat
  t : Nat
  fail : Option Token := none
  started : Bool := false
  paused : Bool := false
  passed : Bool := false
  turn : Nat := 0
  rid : BitVec 16 := 0
  count : Word := 0
  reads : Nat := 0
  waits : List (BitVec 55) := []
  failedPages : List (BitVec 55) := []
  seen : List (Cause × Token) := []
  deriving DecidableEq, Repr

/-- R289: an accumulator tile. Element (i, j) is under key 64 i + j. `last` holds the completed operations that observing
the tile full joins (R299). -/
structure Tile where
  elems : SMap Word := []
  poi : SMap Bool := []
  tok : Option Token := none
  full : Bool := true
  done : Nat := 0
  total : Nat := 0
  ops : List MatOp := []
  last : List Nat := []
  deriving DecidableEq, Repr

/-- R21: a resident workgroup. -/
structure WG where
  id : Nat
  ctx : Nat
  launch : Nat
  unit : Nat
  num : Nat
  quad : Nat
  core : Nat
  ngroups : Nat
  scratch : Nat
  ntiles : Nat
  bars : SMap Barrier := []
  barViews : List (Nat × Word × SMap Nat) := []
  arrivals : List Arrival := []
  tiles : SMap Tile := []
  /-- R79: the scratchpad offsets that an instruction or a command has named as sync words (log entry 20). -/
  syncs : List Nat := []
  /-- R81, R103: for named offsets, the operations whose bytes contributed to a range of generations. -/
  contribs : List (Nat × Word × Word × Nat) := []
  stepping : Bool := false
  /-- R105: it was moved, and a write from before the move is not yet ordered: its groups access no memory. -/
  moved : Bool := false
  deriving DecidableEq, Repr

/-! ## The memory system -/

/-- R52: the POISON state of a line. -/
structure Mark where
  mask : Word := 0
  origin : Word := 0
  deriving DecidableEq, Repr

/-- R87: a write in the coherence order of a word: its place `seq`, the word, its poison bit and origin, the virtual
address through which it was made, the object its line was bound to (R92), and the agent. -/
structure WriteRec where
  loc : Nat
  seq : Nat
  val : Word
  poi : Bool
  origin : Word
  va : DWord
  obj : Option Nat
  agent : Nat
  deriving DecidableEq, Repr

/-- R96: where an agent runs, for common(T1, T2). Host agents and remote packages have their own kind. -/
structure Place where
  kind : Nat
  thread : Nat
  group : Nat
  quad : Nat
  facet : Nat
  core : Nat
  ctx : Nat
  deriving DecidableEq, Repr

/-- R100: a publishing point in the fence order: who published, at which scope, and for each word the latest write of
its coherence order that is visible there. -/
structure Publish where
  place : Place
  scope : Nat
  floor : SMap Nat
  deriving DecidableEq, Repr

/-- R93, R95: a release of an object: the bound writes visible at it. -/
structure ReleaseRec where
  obj : Nat
  floor : SMap Nat
  deriving DecidableEq, Repr

/-- R90, R106: the region bound to an object, as intervals of physical line numbers, and whether the object is in eager
mode. -/
structure Binding where
  lines : List (Nat × Nat)
  eager : Bool
  ctx : Nat
  deriving DecidableEq, Repr

/-- R386: a translation held by a core or by a facet (`facetTlb`): the leaf entry as filled, its address, and whether dirty was set. -/
structure TlbEntry where
  core : Nat
  ctx : Nat
  level : Nat
  vpage : Nat
  entryAddr : Nat
  entry : DWord
  dirty : Bool
  deriving DecidableEq, Repr

/-- R364, R380: physical memory and what travels with it. Addresses below 2^52 are physical (R380); the scratchpad of
each resident workgroup lies above (log entry 15). -/
structure MemSys where
  bytes : List Host.Cell := []
  marks : SMap Mark := []
  fulls : SMap Bool := []
  /-- R54, R434, R435: the words that hold an uncorrectable error, and where it lies: 1 in the memory itself, 2 in the L2 slice of
  its home, 4 + q in the remote-data cache of quadrant q, 8 + c in a cache of core c. -/
  ecc : SMap Nat := []
  flight : List (Nat × Nat) := []
  bridge : SMap (BitVec 2) := []
  /-- R368: the host granules that the host holds with the poison indication. -/
  hostPoi : SMap Bool := []
  writes : List WriteRec := []
  seq : Nat := 0
  views : SMap (SMap Nat) := []
  pubs : List Publish := []
  rels : List ReleaseRec := []
  binds : SMap Binding := []
  tlb : List TlbEntry := []
  deriving DecidableEq, Repr

/-! ## Results in flight -/

/-- R160: a register that a long-latency result is for: file 0 v, 1 s, 2 p; number and thread. -/
structure Dest where
  file : Nat
  reg : Nat
  t : Nat
  deriving DecidableEq, Repr

/-- R261: what a load does to the raw value: bits unchanged, or a conversion from DM8 or I8 to the type of the mode. -/
inductive LoadConv where
  | raw
  | dm8 (bf : Bool)
  | i8int
  | i8f32
  | i8bf16
  deriving DecidableEq, Repr

/-- R78, R258, R429: an access that has left the core and waits at its home, or for another package. A read names the
agents that make it and the bytes of the access that the thread held (R59), with the origin of held poison; `const` is
the constant path (R71). -/
inductive AccKind where
  | load (conv : LoadConv) (const : Bool) (ags : List Nat) (held : SMap (Byte × Option Word))
  | fread (ags : List Nat)
  | eff (e : Eff)
  | atomicRet (e : Eff)
  /-- R269: the object word of an ACQ in a fabric window. -/
  | acquire (ags : List Nat)
  /-- R283: the look of an FWAIT or a service at a cell on another package. -/
  | poll
  /-- R287: the read of a worklist descriptor. -/
  | config (list : Nat)
  /-- R306, R309: the read of a word of a tile by ACCLD or TCVT. -/
  | tileWord
  /-- R172, R258: the fetch of a word of code. -/
  | code
  deriving DecidableEq, Repr

/-- What a long-latency producer will deliver (R160). -/
inductive Delivery where
  /-- The value is known; it arrives later. -/
  | ready (regs : List (Dest × Reg))
  /-- R78, R429: performed once its line is not in flight and its page is not awaiting a checkpoint copy. -/
  | access (k : AccKind) (va : DWord) (pa : Nat) (size : Nat) (dst : List Dest)
  /-- R258: sent to another package over a chord under a request tag; a store waits for its WRITE_ACK. -/
  | remote (k : AccKind) (va : DWord) (chord tag : Nat) (dst : List Dest)
  /-- R274: an entry of a result queue. `ags` are the threads for which its arrival is a join (R103). -/
  | result (q : Nat) (dst : Dest) (ags : List Nat)
  /-- R286: an entry of a worklist. -/
  | pop (list : Nat) (dst : List Dest) (pred : Dest)
  deriving DecidableEq, Repr

/-- R160, R163: an outstanding result of a thread of a group, with the pc of its instruction, the retired-work count of the
group at its issue (R460) and the level of the leaf through which its address was translated (R392). -/
structure Pending where
  id : Nat
  gid : Nat
  t : Nat
  pc : DWord
  count : Word
  what : Delivery
  level : Nat := 0
  deriving DecidableEq, Repr

/-- R279, R409: a source word that an operation has received for the word that it moves now: its value, its origin where
it is poisoned. -/
structure Fetched where
  val : Word
  poi : Option Word
  deriving DecidableEq, Repr

/-- R103, R279: a forked engine operation. `pos` counts the words it has moved, `moved` the bytes that may be added to
its sync word and `arrived` those already added; `acks` are its requests in flight to another package; `asking` says that it
waits for a source word, and `fetched` holds those that came. `rid`, `count` and `reads` name its operand words in record
mode (R460). `forkers` are the threads that forked it (R103), `drops` the elements that SCATTER dropped (R441). It keeps what it needs of
its group and workgroup, which may be gone (R78, R394). -/
structure EngOp where
  id : Nat
  gid : Nat
  wg : Nat
  ctx : Nat
  launch : Nat
  q : Nat
  words : List Word
  pc : DWord
  base : Nat
  scratch : Nat
  quad : Nat
  core : Nat
  part : Nat
  priv : Bool
  rid : BitVec 16
  count : Word
  reads : Nat := 0
  started : Bool := true
  pos : Nat := 0
  moved : Nat := 0
  arrived : Nat := 0
  acks : Nat := 0
  asking : Bool := false
  fetched : SMap Fetched := []
  failed : Bool := false
  failAddr : BitVec 55 := 0
  waits : List (BitVec 55) := []
  failedPages : List (BitVec 55) := []
  forkers : List Nat := []
  drops : Nat := 0
  killed : Bool := false
  deriving DecidableEq, Repr

/-- Groups, workgroups and everything in flight for them. -/
structure ExeSys where
  groups : SMap Group := []
  wgs : SMap WG := []
  sides : SMap Side := []
  pendings : SMap Pending := []
  engOps : SMap EngOp := []
  nextId : Nat := 1
  /-- R450: how many trace records the buffer of each core held after the last one came. -/
  traceBufs : SMap Nat := []
  deriving DecidableEq, Repr

/-! ## Worklists -/

/-- R133, R140, R142: a queued entry: its age, its bin, and whether it is spilled. -/
structure QueuedEntry where
  age : Nat
  bin : Nat
  entry : Entry
  spilled : Bool
  deriving DecidableEq, Repr

/-- R140: the current bin of a bucket at a unit and the selections made from it in a row. -/
structure BinState where
  bin : Nat := 0
  run : Nat := 0
  deriving DecidableEq, Repr

/-- R136, R143: a push that is not yet performed: the thread and the instruction (its group's retired-work count) that made it
and what it waits for (0 room, 1 acknowledgements, 2 the translation of its cell, 3 a look at a cell of another package, at
`cell`). `acked` lists the units that acknowledged. -/
structure WaitingPush where
  gid : Nat
  t : Nat
  inst : Word
  entry : Entry
  why : Nat
  acked : List Nat
  page : BitVec 55
  cell : Nat
  priv : Bool
  deriving DecidableEq, Repr

/-- R131: a parked future-fill entry: the place of its cell. -/
structure ParkedEntry where
  cell : Nat
  entry : Entry
  woken : Bool
  deriving DecidableEq, Repr

/-- R127, R139, R144, R149: one unit of a worklist. A unit of another package is a place holder whose `seen` and `lowered` are
the last summary that this package's units sent to it. `seen` is the last summary of every other unit: its lowest bucket
(none: nothing queued) and that bucket's count; `lowered` the floor that another unit's urgent push asks for (R136); `asked`
the units that answered the steal in progress empty, `stealing` the one whose answer has not come. `transit` are entries in
steal replies that the thief does not have yet (R133), each with its message's number; `arriving` the replies that wait for
room here; `taken` those that have it, but whose victim is told only when every package has been sent the thief's summary
(R138). -/
structure WLUnit where
  queued : List QueuedEntry := []
  parked : List ParkedEntry := []
  waiting : List WaitingPush := []
  sleeping : List Nat := []
  pushes : DWord := 0
  dones : DWord := 0
  rejected : Nat := 0
  late : Bool := false
  spfull : Bool := false
  seen : SMap (Option Nat × Nat) := []
  lowered : SMap Nat := []
  bins : SMap BinState := []
  asked : List Nat := []
  stealing : Option Nat := none
  transit : List (Nat × QueuedEntry) := []
  arriving : List (Nat × Nat × List Entry) := []
  taken : List (Nat × Nat × List (Nat × Nat)) := []
  deriving DecidableEq, Repr

/-- R125 to R128, R148, R150: a worklist of a context. Units are named by node * 4 + quadrant. `config` numbers its
configurations, `confirm` lists the packages whose units have not taken the last one yet (R287), `early` keeps messages of a
configuration that has not come yet, `waveAsked` lists the packages that the wave under way has asked. -/
structure Worklist where
  state : Nat := 0
  armed : Bool := false
  fabric : Bool := false
  shift : Nat := 0
  bound : Nat := 0
  spbase : DWord := 0
  spsize : Nat := 0
  config : Nat := 0
  age : Nat := 0
  units : SMap WLUnit := []
  wave : Option (DWord × DWord) := none
  waveAsked : List Nat := []
  remoteSums : SMap (DWord × DWord) := []
  confirm : List Nat := []
  early : List (Nat × ListMessage) := []
  deriving DecidableEq, Repr

/-! ## Launches and contexts -/

/-- R22, R374: a role. -/
structure Role where
  pc : DWord
  blocks : Nat
  groups : Nat
  deriving DecidableEq, Repr

/-- R17, R374: a level. -/
structure Level where
  extent : Nat
  scope : Nat
  domain : Nat
  deriving DecidableEq, Repr

/-- R26, R28: the unplaced share of a quadrant: intervals of dealt units in ascending order, and the first workgroup of
the first unit that is not placed yet (0 when none of it is). `asked` lists the distributors that answered a steal request empty
since the last summary, `waiting` names the one of another package whose answer has not come: distributors are named by their
quadrant, those of other packages by 4 + 4 * node + quadrant. A unit that came from another package has the number of the
package's units added to its own number (log entry 26). -/
structure Share where
  ranges : List (Nat × Nat) := []
  nextWg : Nat := 0
  asked : List Nat := []
  waiting : Option Nat := none
  deriving DecidableEq, Repr

/-- R370 to R376: a launch whose record was read. `state`: 0 waiting for earlier launches (R372), 1 running, 2 ending
(its completion is not written yet), 3 ended. `facets` holds the facet of each unit of a level with domain facet (R19),
`names` the groups and engine operations of the launch (R375), `floor` the host writes visible to it (R365). -/
structure Launch where
  id : Nat
  queue : Nat
  index : Word
  ctx : Nat
  state : Nat
  code : Nat
  detail : Nat
  prio : Nat
  serial : Bool
  priv : Bool
  arch : Bool
  regroup : Bool
  notify : Bool
  acc : Nat
  scratch : Nat
  argp : DWord
  cplt : DWord
  kentry : DWord
  stackb : Word
  stackOff : Word
  levels : List Level
  roles : List Role
  slots : List Word
  flo : Nat
  fhi : Nat
  shares : SMap Share := []
  seen : SMap (SMap Nat) := []
  floor : SMap Nat := []
  facets : SMap Nat := []
  names : List Nat := []
  deriving DecidableEq, Repr

/-- R394, R395: a saved workgroup. Its slot holds what R395 and R396 place there; here stands what they do not: the model's
names, `tails` (by offset, the words for which a region of the slot has no room) and `authors` (by offset, the agent that last
wrote a word of the scratchpad, R459). -/
structure Image where
  serial : Nat
  wg : WG
  groups : List Group
  records : List (Nat × Nat × Record)
  origin : Nat
  tails : SMap (List Word) := []
  authors : SMap Nat := []
  deriving DecidableEq, Repr

/-- R388, R62, R279, R302, R131: what waits on a page fault: the agent code of R388 and the waiter (group, engine
operation, tile of a workgroup, or worklist unit). -/
structure FaultRec where
  id : Option Word
  ctx : Nat
  part : Nat
  page : BitVec 55
  agent : Nat
  write : Bool
  loc : BitVec 11
  deriving DecidableEq, Repr

/-- R459, R460: a log entry that is made but not in the ring yet, since a result of its group that comes earlier in program order is
still to come: the group, the place in program order, the words. -/
structure LateEntry where
  gid : Nat
  order : Nat
  words : List Word
  deriving DecidableEq, Repr

/-- R458 to R463: record mode and replay of a context. `interval` says that an interval is recorded now, `recorded` that
one was, `broken` that its checkpoint was aborted (R461), `logStart` where its log entries begin. `status` is rstat. `used` lists the log
entries that a replay has taken, by number; `late` the entries that wait for earlier ones, `waited` says that a producer found no room
since the last entry (R461); `failPc` the pc of the instruction whose value the log did not hold, `target` its group. The snapshot
keeps images, and with them the results in flight and the engine operations of the start point. -/
structure ReplayState where
  nextId : Nat := 0
  interval : Bool := false
  recorded : Bool := false
  broken : Bool := false
  logStart : Word := 0
  status : Nat := 0
  target : Nat := 0
  limit : Nat := 0
  failPc : DWord := 0
  used : List Nat := []
  late : List LateEntry := []
  waited : Bool := false
  snaps : List Image := []
  pendings : List Pending := []
  ops : List EngOp := []
  deriving DecidableEq, Repr

/-- R378, R391: a live context. -/
structure Context where
  tag : Nat
  part : Nat
  root : DWord
  wdogCtl : Word := 0x000000A8
  trapPc : BitVec 24 := 0
  rgDeny : Word := 0
  lists : SMap Worklist := []
  killed : Bool := false
  stopping : Bool := false
  preempted : Bool := false
  images : List (Nat × Nat) := []
  ckact : Bool := false
  gen : Bool := false
  rep : ReplayState := {}
  deriving DecidableEq, Repr

/-! ## The fabric -/

/-- R404, R405: a request sent over a chord whose response has not come: for results in flight (the lanes of one
instruction, in ascending t) or an engine operation, with the virtual address and the length of what it moves. -/
structure Request where
  tag : BitVec 12
  op : BitVec 4
  pendings : List Nat
  engine : Option Nat
  lo : Nat
  len : Nat
  place : Nat
  deriving DecidableEq, Repr

/-- R406: a received flit that occupies a receive buffer: its virtual channel, the packets of it that wait, and whether a packet
at its end has not come whole. -/
structure HeldFlit where
  vc : Nat
  waits : List Packet
  cut : Bool
  deriving DecidableEq, Repr

/-- R400 to R408: the run-time state of a chord; its configuration is in its management words. `tx` holds packets that are
in no flit yet, each with its virtual channel and its words with their poison marks, `unacked` the flits of the replay
buffer, `rx` the words of a packet that is not complete, `bad` the positions of ports with a lost lane, `inq` packets that
wait to be performed (R78, R461), `held` the flits that fill its receive buffers. -/
structure Chord where
  state : Nat := 0
  lanes : Nat := 0
  live : BitVec 4 := 0
  peer : BitVec 12 := 0
  retrains : Nat := 0
  failed : Nat := 0
  tx : List (Nat × List (Word × Bool)) := []
  nextSeq : BitVec 12 := 0
  unacked : List (BitVec 12 × List Byte) := []
  expected : BitVec 12 := 0
  accepted : Bool := false
  rx : List (Word × Bool) := []
  go : BitVec 4 := 0xF
  asked : Bool := false
  requests : List Request := []
  nextTag : BitVec 12 := 0
  bad : BitVec 4 := 0
  inq : List Packet := []
  held : List HeldFlit := []
  deriving DecidableEq, Repr

/-! ## Firmware -/

/-- R420 to R425: the firmware store, the fuses and the boot state. An image is its bytes. -/
structure Firmware where
  active : List Byte := []
  staging : List Byte := []
  recovery : List Byte := []
  verjorHash : List Byte := []
  opHash : Option (List Byte) := none
  minsvn : Nat := 0
  recoverNext : Bool := false
  romWaiting : Bool := false
  running : List Byte := []
  leaf : Nat := 0
  tests : List (List Byte) := []
  /-- R418: the functions, by their bit of the ready word, whose units were tested since their last reset. -/
  tested : List Nat := []
  /-- R418: the number of the last reset of each quadrant, under 4 that of everything else. -/
  runs : SMap Nat := []
  /-- Resets so far, of the package or of a partition: each tests its units again (R418). -/
  resets : Nat := 0
  deriving DecidableEq, Repr

/-- R363, R364: what the package sends to the outside. -/
inductive Out where
  /-- Channel 3: severity-matrix interrupts (R437), launch notifications (R375), queue errors (R371), others. -/
  | event (data : List Byte)
  | launchDone (value : DWord)
  | queueError (queue : Nat)
  | faultQueue (partition : Nat)
  | checkpoint (partition : Nat)
  | dump (partition : Nat)
  /-- R379: a completion reply on channel 1 or 2. -/
  | reply (channel : Nat) (value : Word)
  /-- R364: data read over channel 0. -/
  | data (bytes : List Byte)
  /-- R368: data or the poison indication of a CXL.mem half, for the requester that reads. -/
  | cxlHalf (requester pa : Nat) (poison : Bool) (bytes : List Byte)
  /-- R367: a write of the host granule at `pa` with byte enables, its 64 bytes, and the poison indication. -/
  | cxlWrite (pa : Nat) (poison : Bool) (enables : BitVec 64) (bytes : List Byte)
  /-- R366, R367: a shared read of the host granule at `pa`. -/
  | cxlFetch (pa : Nat)
  /-- R366, R367: the answer to a snoop of the granule at `pa`, with whether the device held it. -/
  | cxlSnooped (pa : Nat) (held : Bool)
  /-- R363: a management register read over channel 1. -/
  | register (off : Nat) (value : Word)
  /-- R363, R418, R445: bytes of a dump or of the self-test log read over channel 2. -/
  | firmwareData (bytes : List Byte)
  /-- R401: a flit sent on a chord. -/
  | flit (chord : Nat) (bytes : List Byte)
  /-- R425: an attestation report. -/
  | report (bytes : List Byte)
  deriving DecidableEq, Repr

/-- R131: a watch mark of another package's unit on a cell here: the context and worklist there, the unit, the number of the
configuration, and whether the cell was filled. -/
structure Watch where
  cell : Nat
  ctx : Nat
  list : Nat
  unit : Nat
  config : Nat
  filled : Bool
  deriving DecidableEq, Repr

/-- Contexts, launches, management registers and everything outside the cores. Management words are 32-bit words by
management offset; 64-bit registers take two. -/
structure HostSys where
  ctxs : SMap Context := []
  launches : SMap Launch := []
  mgmt : SMap Word := []
  faults : List FaultRec := []
  chords : SMap Chord := []
  fw : Firmware := {}
  images : List Image := []
  resetting : SMap Bool := []
  /-- R441: the next record that a partition writes carries lost. -/
  logLost : SMap Bool := []
  /-- R439: the triggering record of a partition reset that waits for the dump of its partition. -/
  resetWaits : SMap (List Byte) := []
  /-- R453: samples taken of a context in a partition of a core, by 1280 * tag + 4 * core + partition. -/
  samples : SMap Nat := []
  /-- R365, R370, R371: for each queue, the tails that its distributors accepted and that records are still read under,
  each with the host writes performed before it. -/
  tails : SMap (List (Word × SMap Nat)) := []
  /-- R146: the messages to each other package whose arrival is not confirmed, in order, with their numbers and contexts. -/
  unconfirmed : SMap (List (Nat × Nat × Message)) := []
  /-- R146: the numbers of the messages that came from each other package, as far as they may come again. -/
  heard : SMap (List Nat) := []
  watches : List Watch := []
  /-- R379: the channel-1 replies that are not sent yet, in command order, each with its context: none for a PREEMPT that is
  not complete, behind which the others wait. -/
  replies : List (Nat × Option Word) := []
  out : List Out := []
  deriving DecidableEq, Repr

/-! ## Whose turn it is -/

/-- The next act of the machine (log entry 1): an arbitration round of a partition of a core (R33), or a step of another
agent, or an upset: an input that makes the next matching check fail (log entry 11). -/
inductive Turn where
  | round (core part : Nat)
  | event (i : Instr)
  /-- R432: the shadow check of a thread's next floating result disagrees; 128 stands for an engine or another package, 256 + e for
  element e of a tile after the next k-step of its core. -/
  | shadow (t : Nat)
  /-- R438: the word at this physical address holds an uncorrectable error, in the unit that `MemSys.ecc` numbers so. -/
  | ecc (pa unit : Nat)
  /-- R434: a unit of a quadrant corrects an error, or finds one that no read of a register or of memory meets: class, source, the
  group whose access met it, and the address or the entry index. -/
  | flaw (cls src quad : Nat) (gid : Option Nat) (addr : DWord)
  /-- R47, R434: the next read of this register of a group meets an uncorrectable error. -/
  | register (gid : Nat) (name : RegName)
  deriving DecidableEq, Repr

/-- R453: what a sample of the last slot says of a group that did not issue in it: the group, its leaf, and the pc and the mask of its
oldest path. -/
structure Seen where
  gid : Nat
  leaf : Nat
  pc : DWord
  mask : Mask
  deriving DecidableEq, Repr

/-- The last issue slot of a partition (R452, R453): the group and path that issued with the pc and the mask of its word, the
candidates, the leaf, and the other groups of contexts that are sampled. -/
structure Slot where
  winner : Option (Nat × Nat) := none
  pc : DWord := 0
  mask : Mask := 0
  cands : List Nat := []
  leaf : Nat := 9
  others : List Seen := []
  deriving DecidableEq, Repr

/-- The model's own control state, none of it the specification's: who acts (log entry 1), the path that issues now,
whether its word waits, whether it failed a check, the counter of free values, the threads whose shadow check will disagree and the registers of groups
whose next read meets an error (log entry 11), and the
last issue slot of each partition, by 4 * core + partition. -/
structure Ctl where
  agenda : List Turn := []
  cur : Option (Nat × Nat) := none
  stalled : Bool := false
  rejected : Bool := false
  turn : Nat := 0
  tick : Nat := 0
  shadow : List Nat := []
  upsets : List (Nat × RegName) := []
  slots : SMap Slot := []
  deriving DecidableEq, Repr

/-- The whole machine. -/
structure State where
  ctl : Ctl := {}
  mem : MemSys := {}
  exe : ExeSys := {}
  host : HostSys := {}
  deriving DecidableEq, Repr

/-- Why the machine stops. -/
inductive Fault where
  /-- Raised by `exec` on an instruction word when no path is issuing it: no such step exists in the machine. Safe. -/
  | noIssuingPath
  /-- Raised by a host access to a reserved physical address (R380), which does not exist. Safe. -/
  | reservedAddress
  deriving DecidableEq, Repr

/-- Why there is no meaning. -/
inductive Refusal where
  /-- Raised by the dispatch of an instruction that the model does not give a meaning. Safe. -/
  | notModelled (mnemonic : String)
  deriving DecidableEq, Repr

/-- R436: the reset word of a class of the severity matrix. -/
def matrixReset (cls : Nat) : Word :=
  if cls ∈ [1, 3, 5, 7, 8, 12, 16, 17, 21] then 0x00249249
  else if cls ∈ [10, 11, 22] then 0x00492492
  else if cls ∈ [13, 14, 15, 20] then 0x006DB6DB
  else if cls = 23 then 0x00924924
  else 0

/-- What a management word that is not listed reads as: its reset value (R400: headroom 96 and rtimer 8,192 of a chord;
R425: signatures remaining; R436: the matrix; every other word 0). -/
def mgmtReset (off : Nat) : Word :=
  if off = 0x18 then 1048576
  else if 0x10000 ≤ off ∧ off < 0x10800 ∧ off % 32 = 12 then 0x00602000
  else if 0x15000 ≤ off ∧ off < 0x15400 ∧ off % 0x100 < 0x60 ∧ off % 4 = 0 then matrixReset (off % 0x100 / 4)
  else 0

/-- The machine right after reset (R378, R417): no live context, no resident group, no configured worklist, nothing in
flight, and every management word at its reset value. -/
def State.reset : State := {}

end Sys2Proof.Machine
end

