-- ==== Sys2Proof/Machine/SMap.lean ====
section
/-!
DEFINITION. Operations on sparse maps, and their canonical form: keys strictly rising and, for a map with a default,
no value equal to the default.
-/

namespace Sys2Proof.Machine

/-- The value under a key, if one is listed. -/
def sfind {α : Type} : SMap α → Nat → Option α
  | [], _ => none
  | (k, x) :: m, i => if i = k then some x else sfind m i

/-- Lists a value under a key, in place of an earlier one. -/
def sins {α : Type} : SMap α → Nat → α → SMap α
  | [], i, y => [(i, y)]
  | (k, x) :: m, i, y =>
    if i < k then (i, y) :: (k, x) :: m
    else if i = k then (i, y) :: m
    else (k, x) :: sins m i y

/-- Removes every entry of a key. -/
def sdel {α : Type} : SMap α → Nat → SMap α
  | [], _ => []
  | (k, x) :: m, i => if i = k then sdel m i else (k, x) :: sdel m i

/-- The value under a key of a map whose unlisted keys read as `d`. -/
def sget {α : Type} (d : α) (m : SMap α) (i : Nat) : α := (sfind m i).getD d

/-- Writes a value into a map whose unlisted keys read as `d`. -/
def sput {α : Type} [DecidableEq α] (d : α) (m : SMap α) (i : Nat) (y : α) : SMap α :=
  if y = d then sdel m i else sins m i y

/-- Applies a function to the value under a key, if one is listed. -/
def smod {α : Type} (m : SMap α) (i : Nat) (f : α → α) : SMap α :=
  match sfind m i with
  | some x => sins m i (f x)
  | none => m

/-- Applies a function to every listed value. -/
def smapAll {α : Type} (m : SMap α) (f : α → α) : SMap α := m.map fun kx => (kx.1, f kx.2)

/-- The keys of a map. -/
def skeys {α : Type} (m : SMap α) : List Nat := m.map (·.1)

/-- Every key is above `lo` and keys rise strictly. -/
def sortedFrom {α : Type} : Nat → SMap α → Bool
  | _, [] => true
  | lo, (k, _) :: m => lo ≤ k && sortedFrom (k + 1) m

/-- The canonical form of a map whose unlisted keys read as `d`. -/
def canonical {α : Type} [DecidableEq α] (d : α) (m : SMap α) : Bool :=
  sortedFrom 0 m && m.all (·.2 ≠ d)

/-- Puts an element behind those that go before it. -/
def insertBy {α : Type} (le : α → α → Bool) (x : α) : List α → List α
  | [] => [x]
  | y :: ys => if le y x then y :: insertBy le x ys else x :: y :: ys

/-- A list in the order of `le`; equal elements keep their order. -/
def sortBy {α : Type} (le : α → α → Bool) (l : List α) : List α := l.foldl (fun acc x => insertBy le x acc) []

/-- The greater of two maps of numbers at every key, unlisted keys reading 0. -/
def sjoin (a b : SMap Nat) : SMap Nat :=
  b.foldl (fun m kx => if sget 0 m kx.1 < kx.2 then sins m kx.1 kx.2 else m) a

end Sys2Proof.Machine
end

