-- ==== Sys2Proof/Machine/Memory.lean ====
section
/-!
DEFINITION. Memory words, the POISON state of lines (R52, R53), and the consistency model of R86 to R106: the coherence
order of every word, and for every agent the earliest write that it may still read. A word is named by its byte address
in `MemSys.bytes` (a multiple of 4): a physical address, or a place in a scratchpad (log entry 15).
-/

namespace Sys2Proof.Machine

/-- The default that an unlisted byte reads as (log entry 2). -/
def unlistedByte : Byte := 0

/-- R5: one byte of memory. -/
def memByte (m : MemSys) (a : Nat) : Byte := sget unlistedByte m.bytes a

/-- R5: the little-endian word at an address. -/
def memWord (m : MemSys) (a : Nat) : Word :=
  wordOfBytes (memByte m a) (memByte m (a + 1)) (memByte m (a + 2)) (memByte m (a + 3))

/-- R5: the little-endian 8 bytes at an address. -/
def memDWord (m : MemSys) (a : Nat) : DWord := DWord.ofHalves (memWord m a) (memWord m (a + 4))

/-- Stores one byte. -/
def setByte (m : MemSys) (a : Nat) (b : Byte) : MemSys := { m with bytes := sput unlistedByte m.bytes a b }

/-- Stores bytes at rising addresses. -/
def setBytes (m : MemSys) (a : Nat) : List Byte → MemSys
  | [] => m
  | b :: bs => setBytes (setByte m a b) (a + 1) bs

/-- Stores the four bytes of a word. -/
def setWord (m : MemSys) (a : Nat) (w : Word) : MemSys := setBytes m a (bytesOfWord w)

/-- `n` bytes from an address up. -/
def memBytes (m : MemSys) (a n : Nat) : List Byte := (List.range n).map fun k => memByte m (a + k)

/-- The canonical form of memory: addresses strictly rising and no byte equal to what an unlisted address reads as. -/
def Memory.wf (m : MemSys) : Bool := canonical unlistedByte m.bytes

/-- A line is 128 bytes (R52). -/
def lineOf (a : Nat) : Nat := a / 128

/-- R52: the word is marked poisoned. -/
def wordPoi (m : MemSys) (a : Nat) : Bool := (sget {} m.marks (lineOf a)).mask.getLsbD (a % 128 / 4)

/-- R52: the global origin of the word's line. -/
def lineOrigin (m : MemSys) (a : Nat) : Word := (sget {} m.marks (lineOf a)).origin

/-- R53: marks a word poisoned or clean. A line that had no origin takes the given one; a line whose mask becomes zero
leaves the POISON state. -/
def setPoi (m : MemSys) (a : Nat) (poi : Bool) (origin : Word) : MemSys :=
  let k : Mark := sget {} m.marks (lineOf a)
  let bit : Word := 1#32 <<< (a % 128 / 4)
  let mask := if poi then k.mask ||| bit else k.mask &&& ~~~bit
  let k' : Mark := if mask = 0 then {} else { mask := mask, origin := if k.mask = 0 then origin else k.origin }
  { m with marks := sput {} m.marks (lineOf a) k' }

/-- R67: the full bit of the word at an address. -/
def fullBit (m : MemSys) (a : Nat) : Bool := sget false m.fulls a

/-- R67: a cell's two full bits are always equal. -/
def setFull (m : MemSys) (a : Nat) (b : Bool) : MemSys :=
  { m with fulls := sput false (sput false m.fulls a b) (a + 4) b }

/-! ## Coherence order and views -/

/-- R87: the writes of a word's coherence order, latest first. -/
def writesOf (m : MemSys) (a : Nat) : List WriteRec := m.writes.filter (·.loc = a)

/-- The latest write of each word that an agent must see at least (0: the initial value). -/
def floorsOf (m : MemSys) (agent : Nat) : SMap Nat := sget [] m.views agent

/-- Raises an agent's floors to those of another point (R95, R100, R102, R103). -/
def raiseFloors (m : MemSys) (agent : Nat) (f : SMap Nat) : MemSys :=
  { m with views := sput [] m.views agent (sjoin (floorsOf m agent) f) }

/-- R90: whether a line lies in a list of line intervals. -/
def inLines (ls : List (Nat × Nat)) (l : Nat) : Bool := ls.any fun i => i.1 ≤ l && l < i.2

/-- R90, R92: the object that the line of a word is bound to now. -/
def boundTo (m : MemSys) (a : Nat) : Option Nat :=
  (m.binds.find? fun b => inLines b.2.lines (lineOf a)).map (·.1)

/-- R87: enters a write into the coherence order of its word. The first write of a word also enters the initial value,
which a read may still return. -/
def pushWrite (m : MemSys) (agent a : Nat) (val : Word) (poi : Bool) (origin : Word) (va : DWord) : MemSys :=
  let init : WriteRec :=
    { loc := a, seq := 0, val := memWord m a, poi := wordPoi m a, origin := lineOrigin m a, va := 0, obj := none, agent := 0 }
  let old := if (writesOf m a).isEmpty then init :: m.writes else m.writes
  let n := m.seq + 1
  let w : WriteRec :=
    { loc := a, seq := n, val := val, poi := poi, origin := origin, va := va, obj := boundTo m a, agent := agent }
  raiseFloors { m with writes := w :: old, seq := n } agent [(a, n)]

/-- R53: the origin that a poisoned word is read with: its line's, or that of the write where the line is clean by now. -/
def readOrigin (m : MemSys) (a : Nat) (origin : Word) : Word :=
  let k : Mark := sget {} m.marks (lineOf a)
  if k.mask = 0 then origin else k.origin

/-- R53, R87: a write of a whole word: its value, its poison mark, its place in the coherence order, and the writer's
own view. -/
def pokeWord (m : MemSys) (agent a : Nat) (val : Word) (poi : Bool) (origin : Word) (va : DWord) : MemSys :=
  let k : Mark := sget {} m.marks (lineOf a)
  let m1 := pushWrite m agent a val poi (if k.mask = 0 then origin else k.origin) va
  setPoi (setWord m1 a val) a poi origin

/-- Replaces the bytes of a word selected by a 4-bit mask. -/
def mergeBytes (old new : Word) (be : BitVec 4) : Word :=
  let b k := if be.getLsbD k then new.extractLsb' (8 * k) 8 else old.extractLsb' (8 * k) 8
  wordOfBytes (b 0) (b 1) (b 2) (b 3)

/-- R53, R262: a write of some bytes of a word keeps the other bytes of the latest write and its poison mark; a write of
all four bytes with a clean value clears the mark. -/
def pokePart (m : MemSys) (agent a : Nat) (val : Word) (be : BitVec 4) (poi : Bool) (origin : Word) (va : DWord) :
    MemSys :=
  let keep := wordPoi m a && be ≠ 0xF
  pokeWord m agent a (mergeBytes (memWord m a) val be) (poi || keep) origin va

/-- A word as read: its value, its poison mark and the origin of its line. -/
structure WordRead where
  val : Word
  poi : Bool
  origin : Word
  deriving DecidableEq, Repr

/-- R83: the latest write, which an atomic reads. -/
def latestWord (m : MemSys) (a : Nat) : WordRead := ⟨memWord m a, wordPoi m a, lineOrigin m a⟩

/-- R87, R88: the writes that an agent may read: its floor's write and every later one. -/
def readable (m : MemSys) (floor a : Nat) : List WriteRec := (writesOf m a).filter (floor ≤ ·.seq)

/-- R88: a read from a floor: when more than one write may be returned, a free value decides (log entry 5). Returns
the place of the write read. -/
def readFrom (m : MemSys) (tick floor a : Nat) : WordRead × Nat :=
  match readable m floor a with
  | [] => (latestWord m a, 0)
  | [w] => (latestWord m a, w.seq)
  | w :: ws =>
    let k := Config.readChoice tick % (ws.length + 1)
    let r := (w :: ws).getD k w
    if k = 0 then (latestWord m a, w.seq) else (⟨r.val, r.poi, readOrigin m a r.origin⟩, r.seq)

/-- R87: a read by an agent raises its floor to the write it returned. -/
def peekWord (m : MemSys) (tick agent a : Nat) : WordRead × MemSys :=
  let (r, n) := readFrom m tick (sget 0 (floorsOf m agent) a) a
  (r, if n = 0 then m else raiseFloors m agent [(a, n)])

/-- R95: the writes visible at a floor that were bound to an object when performed. -/
def boundFloor (m : MemSys) (f : SMap Nat) (obj : Nat) : SMap Nat :=
  sjoin [] ((m.writes.filter fun w => w.obj = some obj && w.seq ≤ sget 0 f w.loc && w.seq ≠ 0).map fun w => (w.loc, w.seq))

/-- R99: the writes visible at a floor that were made through a virtual address in a range. A word that overlaps the
range is in it (R271). -/
def rangeFloor (m : MemSys) (f : SMap Nat) (base len : Nat) : SMap Nat :=
  sjoin [] ((m.writes.filter fun w =>
    w.seq ≤ sget 0 f w.loc && w.seq ≠ 0 && w.va.toNat < base + len && base < w.va.toNat / 4 * 4 + 4).map
      fun w => (w.loc, w.seq))

/-- R91: the writes to lines that leave an object's region, released on it before. -/
def leavingFloor (m : MemSys) (obj : Nat) (gone : Nat → Bool) : SMap Nat :=
  let rel := (m.rels.filter (·.obj = obj)).foldl (fun f r => sjoin f r.floor) []
  sjoin [] ((m.writes.filter fun w => w.obj = some obj && w.seq ≤ sget 0 rel w.loc && gone (lineOf w.loc)).map
    fun w => (w.loc, w.seq))

/-- R96: the lowest scope code within which two agents lie. -/
def common (a b : Place) : Nat :=
  if a.kind ≠ 0 || b.kind ≠ 0 then (if a.kind ≤ 1 && b.kind ≤ 1 && a.ctx = b.ctx then 6 else 7)
  else if a.group = b.group then (if a.thread = b.thread then 0 else 1)
  else if a.quad = b.quad then
    if a.facet = b.facet then (if a.core = b.core then 2 else 3) else 4
  else 5

/-- R98, R99: a publishing point. -/
def publish (m : MemSys) (p : Place) (scope : Nat) (f : SMap Nat) : MemSys :=
  if f.isEmpty then m else { m with pubs := m.pubs ++ [{ place := p, scope := scope, floor := f }] }

/-- R100: an observing point: every earlier publishing point whose scope, and this one's, reach both agents. -/
def observe (m : MemSys) (agent : Nat) (p : Place) (scope : Nat) : MemSys :=
  (m.pubs.filter fun q => common q.place p ≤ q.scope && common q.place p ≤ scope).foldl
    (fun m q => raiseFloors m agent q.floor) m

/-- R94, R95: an acquire of an object joins every release of it that precedes. -/
def acquireFrom (m : MemSys) (agent obj : Nat) : MemSys :=
  (m.rels.filter (·.obj = obj)).foldl (fun m r => raiseFloors m agent r.floor) m

/-- R93, R95: a release of an object by an agent. -/
def releaseTo (m : MemSys) (agent obj : Nat) : MemSys :=
  { m with rels := m.rels ++ [{ obj := obj, floor := boundFloor m (floorsOf m agent) obj }] }

end Sys2Proof.Machine
end

