-- ==== Sys2Proof/Machine/Codec.lean ====
section
/-!
DEFINITION. The words in which an image keeps what R395 and R396 name without a layout: the control block of a group, its
default-mode stack block, rendezvous arrivals, command buffers and result queues, quarantine entries, and what a tile holds
beside its elements. The order of the words inside these regions is the model's choice (log entry 16). Each `put` has a
`get` that reads the same words back; a `get` is total, and a word that is missing reads 0.
-/

namespace Sys2Proof.Machine

/-! ## Reading words -/

/-- A reader: the value at the head of a list of words, and the words after it. -/
abbrev Reader (α : Type) := List Word → α × List Word

/-- Reads a value and goes on with it. -/
def reads {α β : Type} (r : Reader α) (k : α → Reader β) : Reader β := fun ws => match r ws with | (x, ws) => k x ws

/-- Ends a reader. -/
def gives {α : Type} (x : α) : Reader α := fun ws => (x, ws)

/-- One word. -/
def getWord : Reader Word
  | [] => (0, [])
  | w :: ws => (w, ws)

/-- A number: one word below 2^31, else two. -/
def putNat (n : Nat) : List Word :=
  if n < 2 ^ 31 then [BitVec.ofNat 32 n] else [BitVec.ofNat 32 (2 ^ 31 + n % 2 ^ 31), BitVec.ofNat 32 (n / 2 ^ 31)]
/-- Reads a number. -/
def getNat : Reader Nat := reads getWord fun w =>
  if w.getLsbD 31 then reads getWord fun v => gives (w.toNat - 2 ^ 31 + 2 ^ 31 * v.toNat) else gives w.toNat

/-- A 64-bit value. -/
def putDWord (x : DWord) : List Word := [x.halves.1, x.halves.2]
/-- Reads a 64-bit value. -/
def getDWord : Reader DWord := reads getWord fun a => reads getWord fun b => gives (DWord.ofHalves a b)

/-- A mask. -/
def putMask (m : Mask) : List Word := [m.extractLsb' 0 32, m.extractLsb' 32 32, m.extractLsb' 64 32, m.extractLsb' 96 32]
/-- Reads a mask. -/
def getMask : Reader Mask :=
  reads getWord fun a => reads getWord fun b => reads getWord fun c => reads getWord fun d => gives (d ++ c ++ b ++ a)

/-- A flag. -/
def putBool (b : Bool) : List Word := [if b then 1 else 0]
/-- Reads a flag. -/
def getBool : Reader Bool := reads getWord fun w => gives (w.getLsbD 0)

/-- A field of at most 32 bits. -/
def putBits {n : Nat} (x : BitVec n) : List Word := [x.setWidth 32]
/-- Reads a field of at most 32 bits. -/
def getBits (n : Nat) : Reader (BitVec n) := reads getWord fun w => gives (w.setWidth n)

/-- Something that may be absent. -/
def putOpt {α : Type} (f : α → List Word) : Option α → List Word
  | none => [0]
  | some x => 1 :: f x
/-- Reads something that may be absent. -/
def getOpt {α : Type} (r : Reader α) : Reader (Option α) := reads getBool fun b =>
  if b then reads r fun x => gives (some x) else gives none

/-- Reads a number of values. -/
def getTimes {α : Type} (r : Reader α) : Nat → Reader (List α)
  | 0 => gives []
  | n + 1 => reads r fun x => reads (getTimes r n) fun xs => gives (x :: xs)

/-- A list after its length. -/
def putMany {α : Type} (f : α → List Word) (l : List α) : List Word := putNat l.length ++ l.flatMap f
/-- Reads a list, of at most as many values as words are left. -/
def getMany {α : Type} (r : Reader α) : Reader (List α) := reads getNat fun n ws => getTimes r (min n ws.length) ws

/-- A map as the list of its entries. -/
def putMap {α : Type} (f : α → List Word) (m : SMap α) : List Word := putMany (fun kx => putNat kx.1 ++ f kx.2) m
/-- Reads a map. -/
def getMap {α : Type} (r : Reader α) : Reader (SMap α) := getMany (reads getNat fun k => reads r fun x => gives (k, x))

/-- A pair. -/
def putPair {α β : Type} (f : α → List Word) (g : β → List Word) (x : α × β) : List Word := f x.1 ++ g x.2
/-- Reads a pair. -/
def getPair {α β : Type} (r : Reader α) (q : Reader β) : Reader (α × β) := reads r fun x => reads q fun y => gives (x, y)

/-! ## Paths and stacks -/

/-- R184: a join point. -/
def putJoin (j : JoinPoint) : List Word := putDWord j.pc ++ putBits j.mode ++ putMany putDWord j.rstack
/-- Reads a join point. -/
def getJoin : Reader JoinPoint :=
  reads getDWord fun pc => reads (getBits 16) fun mode => reads (getMany getDWord) fun rstack => gives ⟨pc, mode, rstack⟩

/-- R9: how a path is parked. -/
def putPark : Park → List Word
  | .running => [0]
  | .waiting => [1]
  | .join pc => 2 :: putDWord pc
  | .bar b n sync => 3 :: (putNat b ++ putNat n ++ putBool sync)
  | .barWait b => 4 :: putNat b
  | .rendezvous => [5]
  | .regroup t => 6 :: putMask t
  | .pause n => 7 :: putNat n
  | .commit => [8]
/-- Reads how a path is parked. -/
def getPark : Reader Park := reads getNat fun k => match k with
  | 1 => gives .waiting
  | 2 => reads getDWord fun pc => gives (.join pc)
  | 3 => reads getNat fun b => reads getNat fun n => reads getBool fun sync => gives (.bar b n sync)
  | 4 => reads getNat fun b => gives (.barWait b)
  | 5 => gives .rendezvous
  | 6 => reads getMask fun t => gives (.regroup t)
  | 7 => reads getNat fun n => gives (.pause n)
  | 8 => gives .commit
  | _ => gives .running

/-- R183: a top path. -/
def putPath (p : Path) : List Word :=
  putDWord p.pc ++ putMask p.mask ++ putBits p.mode ++ putMany putDWord p.rstack ++ putOpt putJoin p.pend ++ [p.trapInfo] ++
    putOpt putMask p.meld ++ putPark p.park
/-- Reads a top path. -/
def getPath : Reader Path :=
  reads getDWord fun pc => reads getMask fun mask => reads (getBits 16) fun mode => reads (getMany getDWord) fun rstack =>
  reads (getOpt getJoin) fun pend => reads getWord fun trapInfo => reads (getOpt getMask) fun meld => reads getPark fun park =>
    gives ⟨pc, mask, mode, rstack, pend, trapInfo, meld, park⟩

/-- R183, R215: the code of an entry's kind, as in R457. -/
def EntryKind.code : EntryKind → Nat
  | .merge => 0
  | .deferred => 1
  | .trap => 2
/-- The kind that a code names. -/
def kindOf : Nat → EntryKind
  | 0 => .merge
  | 1 => .deferred
  | _ => .trap

/-- R183: an entry of the reconvergence stack. -/
def putEntry (e : StackEntry) : List Word :=
  putNat e.kind.code ++ putNat e.owner ++ putDWord e.pc ++ putMask e.mask ++ putBits e.mode ++ putMany putDWord e.rstack ++
    putOpt putJoin e.join ++ putBool e.repend ++ putOpt putNat e.hold
/-- Reads an entry of the reconvergence stack. -/
def getEntry : Reader StackEntry :=
  reads getNat fun kind => reads getNat fun owner => reads getDWord fun pc => reads getMask fun mask =>
  reads (getBits 16) fun mode => reads (getMany getDWord) fun rstack => reads (getOpt getJoin) fun join =>
  reads getBool fun repend => reads (getOpt getNat) fun hold =>
    gives ⟨kindOf kind, owner, pc, mask, mode, rstack, join, repend, hold⟩

/-! ## The span -/

/-- R62: the name of a register. -/
def putReg (r : RegName) : List Word := putNat r.file ++ putNat r.reg ++ putNat r.t
/-- Reads the name of a register. -/
def getReg : Reader RegName := reads getNat fun f => reads getNat fun r => reads getNat fun t => gives ⟨f, r, t⟩

/-- R60: a live poison. -/
def putLive (x : LivePoison) : List Word :=
  putNat x.t ++ putBits x.tok ++ putBits x.cause ++ putBool x.write ++ putDWord (x.addr.setWidth 64) ++ putMany putReg x.regs
/-- Reads a live poison. -/
def getLive : Reader LivePoison :=
  reads getNat fun t => reads (getBits 10) fun tok => reads (getBits 6) fun cause => reads getBool fun write =>
  reads getDWord fun addr => reads (getMany getReg) fun regs => gives ⟨t, tok, cause, write, addr.setWidth 55, regs⟩

/-- R62: what a replay waits for. -/
def putService : Service → List Word
  | .page va write => 0 :: (putDWord (va.setWidth 64) ++ putBool write)
  | .cellPage va => 1 :: putDWord (va.setWidth 64)
  | .cell pa => 2 :: putNat pa
  | .farCell va c n pa => 3 :: (putDWord va ++ putNat c ++ putNat n ++ putNat pa)
  | .reg r => 4 :: putReg r
/-- Reads what a replay waits for. -/
def getService : Reader Service := reads getNat fun k => match k with
  | 0 => reads getDWord fun va => reads getBool fun write => gives (.page (va.setWidth 55) write)
  | 1 => reads getDWord fun va => gives (.cellPage (va.setWidth 55))
  | 2 => reads getNat fun pa => gives (.cell pa)
  | 3 => reads getDWord fun va => reads getNat fun c => reads getNat fun n => reads getNat fun pa => gives (.farCell va c n pa)
  | _ => reads getReg fun r => gives (.reg r)

/-- R62: a side parked at a COMMIT. -/
def putHold (x : Hold) : List Word :=
  putDWord x.pc ++ putMask x.replaying ++ putMask x.waiting ++ putMask x.recover ++ putDWord x.target ++ putBool x.explicit ++
    putOpt putJoin x.pend ++ putOpt putNat x.side
/-- Reads a side parked at a COMMIT. -/
def getHold : Reader Hold :=
  reads getDWord fun pc => reads getMask fun replaying => reads getMask fun waiting => reads getMask fun recover =>
  reads getDWord fun target => reads getBool fun explicit => reads (getOpt getJoin) fun pend => reads (getOpt getNat) fun side =>
    gives ⟨pc, replaying, waiting, recover, target, explicit, pend, side⟩

/-- R62: a path that waits for services. -/
def putServing (x : Serving) : List Word :=
  putDWord x.pc ++ putMask x.replaying ++ putMask x.failed ++ putMask x.waiting ++ putMask x.recover ++ putDWord x.target ++
    putBool x.explicit ++ putOpt putNat x.same ++ putMany (putPair putNat putService) x.services
/-- Reads a path that waits for services. -/
def getServing : Reader Serving :=
  reads getDWord fun pc => reads getMask fun replaying => reads getMask fun failed => reads getMask fun waiting =>
  reads getMask fun recover => reads getDWord fun target => reads getBool fun explicit => reads (getOpt getNat) fun same =>
  reads (getMany (getPair getNat getService)) fun services =>
    gives ⟨pc, replaying, failed, waiting, recover, target, explicit, same, services⟩

/-- R56: the span status of a group, but for what its threads' span_thr words hold. -/
def putSpan (sp : Span) : List Word :=
  putBits sp.action ++ putDWord sp.recover ++ putDWord sp.start ++ putMany (fun w => [w]) sp.record ++
    putMany putLive sp.poisons ++ putMap putHold sp.holds ++ putMap putServing sp.serving
/-- Reads the span status of a group into one that holds its threads' bits. -/
def getSpan (sp : Span) : Reader Span :=
  reads (getBits 2) fun action => reads getDWord fun recover => reads getDWord fun start => reads (getMany getWord) fun record =>
  reads (getMany getLive) fun poisons => reads (getMap getHold) fun holds => reads (getMap getServing) fun serving =>
    gives { sp with action := action, recover := recover, start := start, record := record, poisons := poisons, holds := holds,
                    serving := serving }

/-! ## The control block -/

/-- R82: a monitor. -/
def putMonitor (x : Monitor) : List Word := putBool x.armed ++ putBool x.scratch ++ putNat x.line ++ putBool x.flag
/-- Reads a monitor. -/
def getMonitor : Reader Monitor :=
  reads getBool fun armed => reads getBool fun scratch => reads getNat fun line => reads getBool fun flag => gives ⟨armed, scratch, line, flag⟩

/-- R29: an outstanding FETCHWG. -/
def putFetch (x : FetchReq) : List Word := putNat x.mailbox ++ putNat x.order ++ putNat x.dst ++ putNat x.t ++ [x.count]
/-- Reads an outstanding FETCHWG. -/
def getFetch : Reader FetchReq :=
  reads getNat fun mailbox => reads getNat fun order => reads getNat fun dst => reads getNat fun t => reads getWord fun count =>
    gives ⟨mailbox, order, dst, t, count⟩

/-- R193: a rename-table entry. -/
def putRename (x : Rename) : List Word := putBits x.src ++ putBits x.dst
/-- Reads a rename-table entry. -/
def getRename : Reader Rename := reads (getBits 7) fun a => reads (getBits 7) fun b => gives ⟨a, b⟩

/-- R396, R457: the control block of a group. The span status comes first, so that the group's watchdog and paths, which are
longest, come last; `stack` is what the architected stack block does not hold of the entries, none in default mode. -/
def putControl (g : Group) (stack : List StackEntry) : List Word :=
  putNat g.lastPath ++ putMask g.exited ++ [g.gang] ++ putDWord (g.wdog.setWidth 64) ++ putNat g.loss ++ [g.retired] ++
    putBits g.fetchSeq ++ putBits g.recordId ++ putBool g.deadlocked ++ [g.cycHi] ++ putMap (fun w => [w]) g.scr ++
    putMonitor g.mon ++ putOpt putFetch g.fetch ++ putMap putRename g.ren ++ putSpan g.span ++ putOpt putJoin g.topJoin ++
    putMap putPath g.paths ++ putMany putEntry stack
/-- Reads the control block of a group, and what it holds of the stack. -/
def getControl (g : Group) : Reader (Group × List StackEntry) :=
  reads getNat fun lastPath => reads getMask fun exited => reads getWord fun gang => reads getDWord fun wdog =>
  reads getNat fun loss => reads getWord fun retired => reads (getBits 16) fun fetchSeq => reads (getBits 16) fun recordId =>
  reads getBool fun deadlocked => reads getWord fun cycHi => reads (getMap getWord) fun scr => reads getMonitor fun mon =>
  reads (getOpt getFetch) fun fetch => reads (getMap getRename) fun ren => reads (getSpan g.span) fun span =>
  reads (getOpt getJoin) fun topJoin => reads (getMap getPath) fun paths => reads (getMany getEntry) fun stack =>
    gives ({ g with lastPath := lastPath, exited := exited, gang := gang, wdog := wdog.setWidth 41, loss := loss, retired := retired,
                    fetchSeq := fetchSeq, recordId := recordId, deadlocked := deadlocked, cycHi := cycHi, scr := scr, mon := mon,
                    fetch := fetch, ren := ren, span := span, topJoin := topJoin, paths := paths }, stack)

/-! ## Queues and arrivals -/

/-- R272: an entry of a result queue. -/
def putResult (x : EngResult) : List Word :=
  putBits x.tag ++ putBool x.failed ++ putDWord x.pc ++ putBool x.avalid ++ putDWord (x.addr.setWidth 64) ++ putOpt putNat x.op
/-- Reads an entry of a result queue. -/
def getResult : Reader EngResult :=
  reads (getBits 8) fun tag => reads getBool fun failed => reads getDWord fun pc => reads getBool fun avalid =>
  reads getDWord fun addr => reads (getOpt getNat) fun op => gives ⟨tag, failed, pc, avalid, addr.setWidth 55, op⟩

/-- R272: a queue pair. -/
def putQueue (x : Queue) : List Word :=
  putMany (fun w => [w]) x.partWords ++ putMany putResult x.results ++ putMany putResult x.held
/-- Reads a queue pair. -/
def getQueue : Reader Queue :=
  reads (getMany getWord) fun partWords => reads (getMany getResult) fun results => reads (getMany getResult) fun held =>
    gives ⟨partWords, results, held⟩

/-- A word with the token of its poison. -/
def putOperand (x : Word × Option Token) : List Word := x.1 :: putOpt putBits x.2
/-- Reads a word with the token of its poison. -/
def getOperand : Reader (Word × Option Token) := reads getWord fun w => reads (getOpt (getBits 10)) fun k => gives (w, k)

/-- R295: an arrival at the rendezvous latch, but for what its threads have seen. -/
def putArrival (a : Arrival) : List Word :=
  putNat a.pos ++ putNat a.gid ++ putDWord a.pc ++ putBool a.scaled ++ putNat a.acc ++ putNat a.slot ++ putMany putOperand a.block ++
    putNat a.t ++ [a.count]
/-- Reads an arrival; `seen` gives what the threads of a group had seen. -/
def getArrival (seen : Nat → SMap Nat) : Reader Arrival :=
  reads getNat fun pos => reads getNat fun gid => reads getDWord fun pc => reads getBool fun scaled => reads getNat fun acc =>
  reads getNat fun slot => reads (getMany getOperand) fun block => reads getNat fun t => reads getWord fun count =>
    gives ⟨pos, gid, pc, scaled, acc, slot, block, t, seen gid, count⟩

/-! ## Quarantine entries -/

/-- R57: the kind of a held effect. -/
def putKind : EffKind → List Word
  | .store => [0]
  | .atomic op wide signed => 1 :: (putNat op ++ putBool wide ++ putBool signed)
  | .fill => [2]
  | .clear => [3]
  | .push l => 4 :: putNat l
  | .qw => [5]
  | .swset => [6]
  | .swadd => [7]
/-- Reads the kind of a held effect. -/
def getKind : Reader EffKind := reads getNat fun k => match k with
  | 1 => reads getNat fun op => reads getBool fun wide => reads getBool fun signed => gives (.atomic op wide signed)
  | 2 => gives .fill
  | 3 => gives .clear
  | 4 => reads getNat fun l => gives (.push l)
  | 5 => gives .qw
  | 6 => gives .swset
  | 7 => gives .swadd
  | _ => gives .store

/-- R57: a held effect. -/
def putEff (e : Eff) : List Word :=
  putKind e.kind ++ putNat e.t ++ putNat e.gid ++ putNat e.ctx ++ putNat e.part ++ putNat e.core ++ putMany putNat e.ags ++
    putDWord e.pc ++ putBool e.scratch ++ putDWord e.va ++ putNat e.pa ++ putOpt (putPair putNat putNat) e.chord ++ putNat e.size ++
    putMany (fun w => [w]) e.data ++ putOpt putBits e.apoi ++ putOpt putBits e.dpoi ++ putOpt putBits e.gpoi ++ [e.origin, e.inst] ++
    putMask e.owners ++ putNat e.level
/-- Reads a held effect. -/
def getEff : Reader Eff :=
  reads getKind fun kind => reads getNat fun t => reads getNat fun gid => reads getNat fun ctx => reads getNat fun part =>
  reads getNat fun core => reads (getMany getNat) fun ags => reads getDWord fun pc => reads getBool fun scratch =>
  reads getDWord fun va => reads getNat fun pa => reads (getOpt (getPair getNat getNat)) fun chord => reads getNat fun size =>
  reads (getMany getWord) fun data => reads (getOpt (getBits 10)) fun apoi => reads (getOpt (getBits 10)) fun dpoi =>
  reads (getOpt (getBits 10)) fun gpoi => reads getWord fun origin => reads getWord fun inst => reads getMask fun owners =>
  reads getNat fun level =>
    gives { kind := kind, t := t, gid := gid, ctx := ctx, part := part, core := core, ags := ags, pc := pc, scratch := scratch,
            va := va, pa := pa, chord := chord, size := size, data := data, apoi := apoi, dpoi := dpoi, gpoi := gpoi,
            origin := origin, inst := inst, owners := owners, level := level }

/-- R58: a quarantine entry of the group at a position. -/
def putQEntry (pos : Nat) (q : QEntry) : List Word := putNat (pos + 1) ++ putOpt putNat q.line ++ putMany putEff q.effs
/-- Reads a quarantine entry with the position of its group; none where there is none. -/
def getQEntry : Reader (Option (Nat × QEntry)) := reads getNat fun p =>
  if p = 0 then gives none
  else reads (getOpt getNat) fun line => reads (getMany getEff) fun effs => gives (some (p - 1, ⟨line, effs⟩))

/-! ## Tiles -/

/-- R297, R303: a captured operation. -/
def putMatOp (o : MatOp) : List Word :=
  putNat o.gid ++ putDWord o.pc ++ [o.fmt] ++ putBool o.scaled ++ putMany (fun w => [w]) o.block ++ putNat o.nk ++ putNat o.agent ++
    putNat o.gang ++ putNat o.t ++ putOpt putBits o.fail ++ putBool o.started ++ putBool o.paused ++ putBool o.passed ++ putNat o.turn ++ putBits o.rid ++
    [o.count] ++ putNat o.reads ++ putMany (fun x => putDWord (x.setWidth 64)) o.waits ++
    putMany (fun x => putDWord (x.setWidth 64)) o.failedPages ++ putMany (putPair putBits putBits) o.seen
/-- Reads a captured operation. -/
def getMatOp : Reader MatOp :=
  let page : Reader (BitVec 55) := reads getDWord fun x => gives (x.setWidth 55)
  reads getNat fun gid => reads getDWord fun pc => reads getWord fun fmt => reads getBool fun scaled =>
  reads (getMany getWord) fun block => reads getNat fun nk => reads getNat fun agent => reads getNat fun gang => reads getNat fun t =>
  reads (getOpt (getBits 10)) fun fail => reads getBool fun started => reads getBool fun paused => reads getBool fun passed =>
  reads getNat fun turn =>
  reads (getBits 16) fun rid => reads getWord fun count => reads getNat fun n => reads (getMany page) fun waits =>
  reads (getMany page) fun failedPages => reads (getMany (getPair (getBits 6) (getBits 10))) fun seen =>
    gives { gid := gid, pc := pc, fmt := fmt, scaled := scaled, block := block, nk := nk, agent := agent, gang := gang, t := t,
            fail := fail, started := started, paused := paused, passed := passed, turn := turn, rid := rid, count := count, reads := n,
            waits := waits, failedPages := failedPages, seen := seen }

/-- R395: the token, the counter, the paused state and the captured operations of a tile. -/
def putTile (x : Tile) : List Word :=
  putOpt putBits x.tok ++ putBool x.full ++ putNat x.done ++ putNat x.total ++ putMany putNat x.last ++ putMany putMatOp x.ops
/-- Reads them into a tile that holds the elements. -/
def getTile (x : Tile) : Reader Tile :=
  reads (getOpt (getBits 10)) fun tok => reads getBool fun full => reads getNat fun done => reads getNat fun total =>
  reads (getMany getNat) fun last => reads (getMany getMatOp) fun ops =>
    gives { x with tok := tok, full := full, done := done, total := total, last := last, ops := ops }

end Sys2Proof.Machine
end

