-- ==== Sys2Proof/Machine/Image.lean ====
section
/-!
DEFINITION. The workgroup image of R395 and R396 and the architected stack block of R457: the words that a saved workgroup
writes into its slot, and the state that a restore takes from them. The order of words inside a region that R395 or R396 only
names is the model's (Machine/Codec.lean, log entry 16).
-/

namespace Sys2Proof.Machine

/-- Registers are keyed by number * 128 + thread. -/
def regKey (n t : Nat) : Nat := n * 128 + t

/-- R40: a register of a thread. -/
def vGet (g : Group) (n t : Nat) : Reg := sget {} g.v (regKey n t)
/-- R40: an s-register. -/
def sGet (g : Group) (n : Nat) : Reg := sget {} g.sr n
/-- R40, R159: a predicate of a thread. p0 always reads true, full and clean. -/
def pGet (g : Group) (n t : Nat) : Pred := if n = 0 then { val := true } else sget {} g.p (regKey n t)
/-- R249: an index register of a thread. -/
def xGet (g : Group) (n t : Nat) : Idx := sget {} g.x (regKey n t)

/-- R40: writes a v-register of a thread. -/
def vSet (g : Group) (n t : Nat) (r : Reg) : Group := { g with v := sput {} g.v (regKey n t) r }
/-- R40: writes an s-register. -/
def sSet (g : Group) (n : Nat) (r : Reg) : Group := { g with sr := sput {} g.sr n r }
/-- R162: a write to p0 is dropped. -/
def pSet (g : Group) (n t : Nat) (r : Pred) : Group :=
  if n = 0 then g else { g with p := sput {} g.p (regKey n t) r }
/-- R249: writes an index register of a thread. -/
def xSet (g : Group) (n t : Nat) (r : Idx) : Group := { g with x := sput {} g.x (regKey n t) r }

/-- A 128-bit mask of the threads that satisfy a test. -/
def maskOf (f : Nat → Bool) : Mask :=
  (List.range 128).foldl (fun m t => if f t then m ||| (1#128 <<< t) else m) 0

/-- The threads of a mask in ascending order. -/
def threadsOf (m : Mask) : List Nat := if m = 0 then [] else (List.range 128).filter (m.getLsbD ·)

/-- The four words of a mask, t0 in bit 0 of the first. -/
def maskWords (m : Mask) : List Word :=
  [m.extractLsb' 0 32, m.extractLsb' 32 32, m.extractLsb' 64 32, m.extractLsb' 96 32]

/-- A mask from four words. -/
def maskFrom (a b c d : Word) : Mask := d ++ c ++ b ++ a

/-- One bit as a word. -/
def bitW (b : Bool) : Word := if b then 1 else 0

/-- R214: the span_thr word of a thread. -/
def spanThr (g : Group) (t : Nat) : Word :=
  (BitVec.ofNat 32 (sget 0 g.span.replays t) <<< 10) ||| (bitW (g.span.unserv.getLsbD t) <<< 9)
    ||| (bitW (g.span.live.getLsbD t) <<< 8) ||| (bitW (g.span.opened.getLsbD t) <<< 7)
    ||| (sget 0 g.span.first t).setWidth 32

/-- R43: the eight words of a record. -/
def recordWords (r : Record) : List Word :=
  let w0 : DWord := (1#1 ++ BitVec.ofBool r.inspan ++ r.cause ++ r.count ++ r.slot ++ r.thread ++ r.quad ++ r.core
    ++ BitVec.ofBool r.write ++ 0#18)
  let w1 : DWord := 0#9 ++ r.pc
  let w2 : DWord := BitVec.ofBool r.avalid ++ 0#8 ++ r.addr
  [w0.halves.1, w0.halves.2, w1.halves.1, w1.halves.2, w2.halves.1, w2.halves.2, r.gorigin, 0]

/-- R43: a record from its eight words; none when valid is 0. -/
def recordFrom (w : Nat → Word) : Option Record :=
  let a := DWord.ofHalves (w 0) (w 1)
  let b := DWord.ofHalves (w 2) (w 3)
  let c := DWord.ofHalves (w 4) (w 5)
  if a.getLsbD 63 then
    some { inspan := a.getLsbD 62, cause := a.extractLsb' 56 6, count := a.extractLsb' 40 16, slot := a.extractLsb' 35 5,
           thread := a.extractLsb' 28 7, quad := a.extractLsb' 26 2, core := a.extractLsb' 19 7, write := a.getLsbD 18,
           pc := b.extractLsb' 0 55, avalid := c.getLsbD 63, addr := c.extractLsb' 0 55, gorigin := w 6 }
  else none

/-- Words at rising addresses. -/
def atOff (off : Nat) : List Word → List (Nat × Word)
  | [] => []
  | w :: ws => (off, w) :: atOff (off + 4) ws

/-- R457: the 16-byte entry and its mask, for entry e. -/
def stackWords (kentry : DWord) (e : Nat) (x : StackEntry) : List (Nat × Word) :=
  let kind : BitVec 2 := match x.kind with | .merge => 0 | .deferred => 1 | .trap => 2
  let lo : DWord := kind ++ BitVec.ofNat 1 x.owner ++ 1#1 ++ 0#5 ++
    (if x.kind = .merge then (0#55) else x.pc.setWidth 55)
  let join : Word := match x.kind, x.join with
    | .trap, _ => 0
    | _, some j => ((j.pc - kentry).sshiftRight 2).setWidth 32
    | _, none => 0
  let hi : DWord := 0#16 ++ x.mode ++ join
  atOff (0x23600 + 16 * e) [lo.halves.1, lo.halves.2, hi.halves.1, hi.halves.2] ++
    atOff (0x23C00 + 16 * e) (maskWords x.mask)

/-- R214, R396: the span_thr words of a group, by offset in its region. -/
def threadWords (g : Group) : List (Nat × Word) := (List.range 128).map fun t => (0x23400 + 4 * t, spanThr g t)

/-- R396: the words of the group region, by offset in it. -/
def groupWords (arch : Bool) (kentry : DWord) (g : Group) : List (Nat × Word) :=
  let vs := (List.range (8 * g.budget)).flatMap fun n =>
    ((List.range 128).map fun t => (512 * n + 4 * t, (vGet g n t).val)) ++
      atOff (0x20000 + 16 * n) (maskWords (maskOf fun t => (vGet g n t).full)) ++
      atOff (0x21000 + 16 * n) (maskWords (maskOf fun t => (vGet g n t).poi))
  let sw (f : Nat → Bool) : List Word := (maskWords (maskOf fun n => n < 64 && f n)).take 2
  let ss := ((List.range 64).map fun n => (0x22000 + 4 * n, (sGet g n).val)) ++
    atOff 0x22100 (sw fun n => (sGet g n).full) ++ atOff 0x22108 (sw fun n => (sGet g n).poi)
  let ps := (List.range 8).flatMap fun n =>
    atOff (0x22200 + 16 * n) (maskWords (maskOf fun t => (pGet g n t).val)) ++
      atOff (0x22280 + 16 * n) (maskWords (maskOf fun t => (pGet g n t).full)) ++
      atOff (0x22300 + 16 * n) (maskWords (maskOf fun t => (pGet g n t).poi)) ++
      (List.range 64).map fun k => (0x22400 + 256 * n + 4 * k,
        ((0#6 ++ (pGet g n (2 * k + 1)).tok ++ 0#6 ++ (pGet g n (2 * k)).tok : Word)))
  let xs := (List.range 4).flatMap fun n => (List.range 128).map fun t =>
    let x := xGet g n t
    (0x22C00 + 512 * n + 4 * t, (BitVec.ofBool x.poi ++ 0#5 ++ x.tok ++ x.bound ++ x.base : Word))
  let th := threadWords g
  let st := if arch then (List.range 32).flatMap fun e =>
      match g.stack[e]? with
      | some x => stackWords kentry e x
      | none => atOff (0x23600 + 16 * e) [0, 0, 0, 0]
    else []
  vs ++ ss ++ ps ++ xs ++ th ++ st

/-- R395, R396: the regions of a slot that have no layout of their own: offset, room in words, and the words that go there. A
quarantine entry has 48 words; the entries of a group follow those of the groups before it, and a word 0 follows the last.
`pops` gives the outstanding WLPOPs of a group, which stay with their unit (R394). -/
def slotRegions (w : WG) (gs : List Group) (arch : Bool) (pops : Nat → List Word) : List (Nat × Nat × List Word) :=
  let queues := putMany putArrival w.arrivals ++ putMany (fun g : Group => putNat g.pos ++ putMap putQueue g.queues) gs
  let held := (gs.flatMap fun g => g.quar.map (putQEntry g.pos)) ++ [[0]]
  let quar := ((List.range held.length).zip held).filterMap fun ke => if ke.1 < 512 then some (0xC000 + 192 * ke.1, 48, ke.2) else none
  let tiles := (List.range w.ntiles).map fun k => (0x28200 + 0x4400 * k, 128, putTile (sget {} w.tiles k))
  let control := gs.flatMap fun g =>
    let a := 0x100000 + 0x40000 * g.pos
    (if arch then [] else [(a + 0x23600, 128, putMany putEntry g.stack)]) ++
      [(a + 0x23800, 256, putControl g (if arch then g.stack else []) ++ pops g.id)]
  (0x2000, 2048, queues) :: quar ++ tiles ++ control

/-- The words for which a region has no room. -/
def slotTails (rs : List (Nat × Nat × List Word)) : SMap (List Word) :=
  rs.filterMap fun r => if r.2.2.length ≤ r.2.1 then none else some (r.1, r.2.2.drop r.2.1)

/-- The words of the regions, by offset. -/
def regionWords (rs : List (Nat × Nat × List Word)) : List (Nat × Word) := rs.flatMap fun r => atOff r.1 (r.2.2.take r.2.1)

/-- R43, R395: the words of the side table of a slot. -/
def sideWords (recs : List (Nat × Record)) : List (Nat × Word) := recs.flatMap fun kr => atOff (0x4000 + 32 * kr.1) (recordWords kr.2)

/-- R395: the words of a slot, by offset in it, without its regions. `recs` are the records of the workgroup's groups with their
tokens. -/
def imageWords (w : WG) (gs : List Group) (recs : List (Nat × Record)) (queue : Nat) (index : Word) (origin serial : Nat)
    (arch : Bool) (kentry : DWord) : List (Nat × Word) :=
  let n (k : Nat) : Word := BitVec.ofNat 32 k
  let head := atOff 0 ([0x57474931, 1, n w.ctx, n w.ngroups, n queue, index, n w.unit, n w.num, n origin, n w.scratch,
    n w.ntiles, n serial] ++ gs.map fun g => n g.age)
  let bars := (List.range 16).flatMap fun b =>
    let r : Barrier := sget {} w.bars b
    atOff (0x1000 + 8 * b) [r.gen, (0#10 ++ BitVec.ofBool r.need.isSome ++ BitVec.ofNat 5 (r.need.getD 0) ++ r.arrived : Word)]
  let gbars := gs.flatMap fun g => (List.range 16).flatMap fun b =>
    let r : GroupBar := sget {} g.bars b
    atOff (0x1100 + 8 * (16 * g.pos + b)) [r.wgen, bitW r.pending]
  let side := sideWords recs
  let tiles := (List.range w.ntiles).flatMap fun k =>
    let t : Tile := sget {} w.tiles k
    ((List.range 4096).map fun e => (0x24000 + 0x4400 * k + 4 * e, sget 0 t.elems e)) ++
      (List.range 128).map fun e => (0x24000 + 0x4400 * k + 0x4000 + 4 * e,
        ((maskOf fun b => b < 32 && sget false t.poi (32 * e + b)).setWidth 32 : Word))
  let regs := gs.flatMap fun g =>
    (groupWords arch kentry g).map fun ow => (0x100000 + 0x40000 * g.pos + ow.1, ow.2)
  head ++ bars ++ gbars ++ side ++ tiles ++ regs

/-- A mask read from a slot. -/
def maskAt (m : MemSys) (a : Nat) : Mask :=
  maskFrom (memWord m a) (memWord m (a + 4)) (memWord m (a + 8)) (memWord m (a + 12))

/-- R457: the entries of the stack block, up to the first invalid one, and whether that one holds the reserved kind. Return
stacks and the RECONV values of a join point stay with the control block, entry by entry. An entry that had no join point gets
one from a join field that is not 0, and a merge entry from any: its RECONV mode is the mode of the entry, its return stack empty
(log entry 16). -/
def stackFrom (m : MemSys) (a : Nat) (kentry : DWord) (old : List StackEntry) : Nat → Nat → List StackEntry × Bool
  | 0, _ => ([], false)
  | k + 1, e =>
    let lo := memDWord m (a + 0x23600 + 16 * e)
    let hi := memDWord m (a + 0x23600 + 16 * e + 8)
    if !lo.getLsbD 60 then ([], false)
    else match (lo.extractLsb' 62 2).toNat with
      | 3 => ([], true)
      | kn =>
        let o : StackEntry := old.getD e
          { kind := .deferred, owner := 0, pc := 0, mask := 0, mode := 0, rstack := [], join := none }
        let kind : EntryKind := if kn = 0 then .merge else if kn = 1 then .deferred else .trap
        let jpc := kentry + ((hi.extractLsb' 0 32).signExtend 64 <<< 2)
        let mode : BitVec 16 := hi.extractLsb' 32 16
        let join : Option JoinPoint := match o.join with
          | some j => if kind = .trap then none else some { j with pc := jpc }
          | none => if kind = .merge || (kind = .deferred && hi.extractLsb' 0 32 ≠ 0) then some ⟨jpc, mode, []⟩ else none
        let x : StackEntry :=
          { kind := kind, owner := (lo.extractLsb' 61 1).toNat, pc := (lo.extractLsb' 0 55).setWidth 64,
            mask := maskAt m (a + 0x23C00 + 16 * e), mode := mode, rstack := o.rstack, join := join,
            repend := o.repend, hold := o.hold }
        let (xs, bad) := stackFrom m a kentry old k (e + 1)
        (x :: xs, bad)

/-- R214, R396: the span status of the threads as their span_thr words hold it. -/
def spanFrom (m : MemSys) (a : Nat) (sp : Span) : Span :=
  let w (t : Nat) : Word := memWord m (a + 0x23400 + 4 * t)
  { sp with
    opened := maskOf fun t => (w t).getLsbD 7
    live := maskOf fun t => (w t).getLsbD 8
    unserv := maskOf fun t => (w t).getLsbD 9
    first := (List.range 128).foldl (fun f t => sput 0 f t ((w t).extractLsb' 0 6)) []
    replays := (List.range 128).foldl (fun f t => sput 0 f t ((w t).extractLsb' 10 3).toNat) [] }

/-- R396: a group as its region at address `a` holds it; registers above the budget keep their reset value. -/
def groupFrom (m : MemSys) (a : Nat) (g : Group) : Group :=
  let vs := (List.range (8 * g.budget)).flatMap fun n =>
    let f := maskAt m (a + 0x20000 + 16 * n)
    let p := maskAt m (a + 0x21000 + 16 * n)
    (List.range 128).map fun t => (n, t, ({ val := memWord m (a + 512 * n + 4 * t), full := f.getLsbD t, poi := p.getLsbD t } : Reg))
  let g := vs.foldl (fun g x => vSet g x.1 x.2.1 x.2.2) { g with v := [] }
  let f := memDWord m (a + 0x22100)
  let p := memDWord m (a + 0x22108)
  let g := (List.range 64).foldl (fun g n =>
    sSet g n { val := memWord m (a + 0x22000 + 4 * n), full := f.getLsbD n, poi := p.getLsbD n }) { g with sr := [] }
  let g := (List.range 8).foldl (fun g n =>
    let v := maskAt m (a + 0x22200 + 16 * n)
    let f := maskAt m (a + 0x22280 + 16 * n)
    let p := maskAt m (a + 0x22300 + 16 * n)
    (List.range 128).foldl (fun g t =>
      let w := memWord m (a + 0x22400 + 256 * n + 4 * (t / 2))
      pSet g n t { val := v.getLsbD t, full := f.getLsbD t, poi := p.getLsbD t,
                   tok := if t % 2 = 0 then w.extractLsb' 0 10 else w.extractLsb' 16 10 }) g) { g with p := [] }
  (List.range 4).foldl (fun g n => (List.range 128).foldl (fun g t =>
    let w := memWord m (a + 0x22C00 + 512 * n + 4 * t)
    xSet g n t { base := w.extractLsb' 0 8, bound := w.extractLsb' 8 8, poi := w.getLsbD 31, tok := w.extractLsb' 16 10 }) g)
    { g with x := [], span := spanFrom m a g.span }

/-- R395: the barriers and tiles of a workgroup as its slot at address `a` holds them. -/
def wgFrom (m : MemSys) (a : Nat) (w : WG) : WG :=
  let bars := (List.range 16).foldl (fun bs b =>
    let x := memWord m (a + 0x1000 + 8 * b + 4)
    let need := if x.getLsbD 21 then some (x.extractLsb' 16 5).toNat else none
    sput ({} : Barrier) bs b { gen := memWord m (a + 0x1000 + 8 * b), arrived := x.extractLsb' 0 16, need := need })
    ([] : SMap Barrier)
  let tiles := (List.range w.ntiles).foldl (fun ts k =>
    let t : Tile := sget {} w.tiles k
    let b := a + 0x24000 + 0x4400 * k
    let es := (List.range 4096).foldl (fun es e => sput 0 es e (memWord m (b + 4 * e))) ([] : SMap Word)
    let ps := (List.range 4096).foldl (fun ps e => sput false ps e ((memWord m (b + 0x4000 + 4 * (e / 32))).getLsbD (e % 32)))
      ([] : SMap Bool)
    sput ({} : Tile) ts k { t with elems := es, poi := ps }) ([] : SMap Tile)
  { w with bars := bars, tiles := tiles }

/-- R395: the per-group barrier words. -/
def groupBarsFrom (m : MemSys) (a : Nat) (g : Group) : Group :=
  { g with bars := (List.range 16).foldl (fun bs b =>
      let o := a + 0x1100 + 8 * (16 * g.pos + b)
      sput ({} : GroupBar) bs b { wgen := memWord m o, pending := (memWord m (o + 4)).getLsbD 0 }) [] }

/-- R395, R396: the words of a region of a slot: those in memory, then those that had no room. -/
def regionAt (m : MemSys) (base : Nat) (tails : SMap (List Word)) (off room : Nat) : List Word :=
  (List.range room).map (fun k => memWord m (base + off + 4 * k)) ++ sget [] tails off

/-- R395: the quarantine entries of a slot, up to the first word 0, with the positions of their groups. -/
def heldFrom (m : MemSys) (base : Nat) (tails : SMap (List Word)) : Nat → Nat → List (Nat × QEntry)
  | 0, _ => []
  | n + 1, k => match (getQEntry (regionAt m base tails (0xC000 + 192 * k) 48)).1 with
    | none => []
    | some x => x :: heldFrom m base tails n (k + 1)

/-- R395, R396: what the regions of a slot hold of a group. -/
def groupRest (m : MemSys) (base : Nat) (tails : SMap (List Word)) (arch : Bool) (kentry : DWord) (queues : List (Nat × SMap Queue))
    (held : List (Nat × QEntry)) (g : Group) : Group :=
  let off := 0x100000 + 0x40000 * g.pos
  let g := { g with span := spanFrom m (base + off) g.span }
  let (g, old) := (getControl g (regionAt m base tails (off + 0x23800) 256)).1
  let (st, bad) :=
    if arch then stackFrom m (base + off) kentry old 32 0
    else ((getMany getEntry (regionAt m base tails (off + 0x23600) 128)).1, false)
  { g with
    stack := st, badImage := g.badImage || bad, quar := (held.filter (·.1 = g.pos)).map (·.2)
    queues := ((queues.find? (·.1 = g.pos)).map (·.2)).getD [] }

/-- R395, R396: a workgroup and its groups with what the regions of their slot hold. -/
def restFrom (m : MemSys) (base : Nat) (arch : Bool) (kentry : DWord) (i : Image) : Image :=
  let seen (gid : Nat) : SMap Nat := ((i.wg.arrivals.find? (·.gid = gid)).map (·.floor)).getD []
  let (arrivals, ws) := getMany (getArrival seen) (regionAt m base i.tails 0x2000 2048)
  let (queues, _) := getMany (getPair getNat (getMap getQueue)) ws
  let tiles := (List.range i.wg.ntiles).foldl (fun ts k =>
    sput ({} : Tile) ts k (getTile (sget {} i.wg.tiles k) (regionAt m base i.tails (0x28200 + 0x4400 * k) 128)).1) ([] : SMap Tile)
  { i with
    wg := { i.wg with arrivals := arrivals, tiles := tiles }
    groups := i.groups.map (groupRest m base i.tails arch kentry queues (heldFrom m base i.tails 512 0)) }

/-- R367, R395: the parts of a slot that are read: offset and length. -/
def slotParts (w : WG) (gs : List Group) (tokens : List Nat) : List (Nat × Nat) :=
  [(0, 0x4000)] ++ tokens.map (fun k => (0x4000 + 32 * k, 32)) ++ [(0xC000, 0x18000), (0x24000, 0x4400 * w.ntiles), (0x80000, w.scratch)] ++
    gs.flatMap fun g =>
      let a := 0x100000 + 0x40000 * g.pos
      [(a, 512 * 8 * g.budget), (a + 0x20000, 0x3E00)]

end Sys2Proof.Machine
end

