-- ==== Sys2Proof/Machine/Ops.lean ====
section
/-!
DEFINITION. The named operations that every meaning uses: access to groups, workgroups, contexts and management words;
events and the severity matrix (R434 to R445); poison records (R43 to R46); the illegal-instruction event, which is how
this machine takes an exception (R177, R178); and how a word retires.
-/

namespace Sys2Proof.Machine

/-- The outcome of a step. -/
abbrev Result := Host.Outcome State Fault Refusal

/-! ## Access -/

/-- A resident group. -/
def State.group (s : State) (gid : Nat) : Option Group := sfind s.exe.groups gid
/-- Replaces the groups. -/
def State.withGroups (s : State) (m : SMap Group) : State := { s with exe := { s.exe with groups := m } }
/-- A group, resident or saved. -/
def findGroup (s : State) (gid : Nat) : Option Group :=
  match s.group gid with
  | some g => some g
  | none => s.host.images.findSome? fun i => i.groups.find? (·.id = gid)
/-- A workgroup, resident or saved. -/
def findWg (s : State) (id : Nat) : Option WG :=
  (sfind s.exe.wgs id).or ((s.host.images.find? (·.wg.id = id)).map (·.wg))
/-- Writes a group back. -/
def State.setGroup (s : State) (g : Group) : State := s.withGroups (sins s.exe.groups g.id g)
/-- Changes a group, if it is resident. -/
def State.modGroup (s : State) (gid : Nat) (f : Group → Group) : State := s.withGroups (smod s.exe.groups gid f)
/-- Changes every resident group. -/
def State.mapGroups (s : State) (f : Group → Group) : State :=
  s.withGroups (s.exe.groups.map fun kg => (kg.1, f kg.2))
/-- A resident workgroup. -/
def State.wg (s : State) (id : Nat) : Option WG := sfind s.exe.wgs id
/-- Changes a workgroup, if it is resident. -/
def State.modWg (s : State) (id : Nat) (f : WG → WG) : State := { s with exe := { s.exe with wgs := smod s.exe.wgs id f } }
/-- A live context. -/
def State.ctx (s : State) (tag : Nat) : Option Context := sfind s.host.ctxs tag
/-- Changes a context, if it is live. -/
def State.modCtx (s : State) (tag : Nat) (f : Context → Context) : State :=
  { s with host := { s.host with ctxs := smod s.host.ctxs tag f } }
/-- A launch. -/
def State.launch (s : State) (id : Nat) : Option Launch := sfind s.host.launches id
/-- Changes a launch. -/
def State.modLaunch (s : State) (id : Nat) (f : Launch → Launch) : State :=
  { s with host := { s.host with launches := smod s.host.launches id f } }
/-- Changes the memory system. -/
def State.withMem (s : State) (m : MemSys) : State := { s with mem := m }
/-- Sends something to the outside (R363). -/
def State.send (s : State) (o : Out) : State := { s with host := { s.host with out := s.host.out ++ [o] } }
/-- Takes the next value of the counter of free values. -/
def State.bump (s : State) : State := { s with ctl := { s.ctl with tick := s.ctl.tick + 1 } }
/-- A fresh name for a group, workgroup, operation or other object of the model. -/
def State.fresh (s : State) : Nat × State := (s.exe.nextId, { s with exe := { s.exe with nextId := s.exe.nextId + 1 } })

/-- R391: a management word. -/
def State.mgmt (s : State) (off : Nat) : Word := sget (mgmtReset off) s.host.mgmt off
/-- R391: writes a management word. -/
def State.setMgmt (s : State) (off : Nat) (w : Word) : State :=
  { s with host := { s.host with mgmt := sput (mgmtReset off) s.host.mgmt off w } }
/-- R391: a 64-bit management register. -/
def State.mgmt64 (s : State) (off : Nat) : DWord := DWord.ofHalves (s.mgmt off) (s.mgmt (off + 4))
/-- R391: writes a 64-bit management register. -/
def State.setMgmt64 (s : State) (off : Nat) (x : DWord) : State := (s.setMgmt off x.halves.1).setMgmt (off + 4) x.halves.2

/-- R440, R449: a count that saturates at 0xFFFF_FFFF. -/
def satAdd (w : Word) (n : Nat) : Word := BitVec.ofNat 32 (min (w.toNat + n) 0xFFFFFFFF)

/-- R449: counts in a debug-block counter of a context. -/
def State.count (s : State) (tag off n : Nat) : State :=
  let a := 0x18000 + 0x100 * tag + off
  s.setMgmt a (satAdd (s.mgmt a) n)

/-! ## Names of agents and places -/

/-- R86: the first agent number of a thread. Below it are the device, the host's agents and remote packages. -/
def firstThread : Nat := 65536

/-- R86: the agent number of a thread, or of an engine or matrix operation (thread 0 of its name). -/
def agentOf (id t : Nat) : Nat := firstThread + id * 128 + t

/-- R86: the name of the group or operation that an agent belongs to. -/
def agentName (agent : Nat) : Option Nat := if firstThread ≤ agent then some ((agent - firstThread) / 128) else none

/-- The agents that are no threads: device and firmware, the host's agents, remote packages. -/
def deviceAgent : Nat := 0
/-- R364: VOCL channel 0. -/
def voclAgent : Nat := 1
/-- R364: a CXL requester on the host side, by its number. -/
def cxlAgent (requester : Nat) : Nat := 16 + requester % 0xFFF0
/-- R412: the packages on the other side of the chords. -/
def remoteAgent : Nat := 4

/-- The core of a workgroup, numbered 80 q + 8 f + c as in R452. -/
def WG.coreNo (w : WG) : Nat := 80 * w.quad + w.core

/-- R70: where the scratchpad of a workgroup lies in the model's memory: above every physical address, 1 MiB for each
name (log entry 15). -/
def WG.scratchBase (w : WG) : Nat := 0x10000000000000 + w.id * 0x100000

/-- R96: where a thread runs. -/
def placeOf (g : Group) (w : WG) (t : Nat) : Place :=
  { kind := 0, thread := t, group := g.id, quad := w.quad, facet := w.core / 8, core := w.core, ctx := w.ctx }

/-- R212: the location word: quadrant, facet, core, partition. -/
def location (w : WG) (part : Nat) : BitVec 11 :=
  BitVec.ofNat 2 w.quad ++ BitVec.ofNat 4 (w.core / 8) ++ BitVec.ofNat 3 (w.core % 8) ++ BitVec.ofNat 2 part

/-- R43: the group slot on the core. -/
def groupSlot (g : Group) : BitVec 5 := BitVec.ofNat 5 (g.part * 8 + g.slot)

/-- R377: the quadrant mask of an isolation partition. -/
def partMask (s : State) (n : Nat) : BitVec 4 := (s.mgmt (0x100 + 4 * n)).setWidth 4

/-- R377: the quadrants of an isolation partition, ascending. -/
def partQuads (s : State) (n : Nat) : List Nat := (List.range 4).filter fun q => (partMask s n).getLsbD q

/-- R377: the partition that a quadrant belongs to; none when it is idle. -/
def quadPart (s : State) (q : Nat) : Option Nat := (List.range 4).find? fun n => (partMask s n).getLsbD q

/-- R400: the package's node number. -/
def nodeNo (s : State) : Nat := (s.mgmt 0x12000).toNat % 4096

/-! ## Physical memory and what the device itself writes -/

/-- R380: what a physical address is. -/
inductive Region where
  | near (quad : Nat)
  | far (region : Nat)
  | host
  | window (slice : Nat)
  | reserved
  deriving DecidableEq, Repr

/-- R380, R381, R410: what lies at a physical address. -/
def regionOf (pa : Nat) : Region :=
  if pa ≥ 0x10000000000000 then .reserved
  else if pa ≥ 0x8000000000000 then .window ((pa - 0x8000000000000) / 0x10000000000)
  else if pa ≥ 0x1000000000000 then .host
  else if pa ≥ 0x20000000000 && pa < 0x40000000000 then .far ((pa - 0x20000000000) / 0x20000000)
  else if pa / 0x2000000000 < 4 && pa % 0x2000000000 < 0x1200000000 then .near (pa / 0x2000000000)
  else .reserved

/-- R82: a write performed to a line sets the flag of every monitor armed on it. -/
def wakeMonitors (s : State) (a : Nat) : State :=
  s.mapGroups fun g => if g.mon.armed && g.mon.line = lineOf a then { g with mon := { g.mon with flag := true } } else g

/-- R367: the bytes of a granule that a write of the bytes `be` of the word at `a` carries, 0 elsewhere. -/
def granuleBytes (m : MemSys) (a : Nat) (be : BitVec 4) : List Byte :=
  List.replicate (a % 64 / 4 * 4) 0 ++
    (bytesOfWord (memWord m (a / 4 * 4))).zipWith (fun b k => if be.getLsbD k then b else 0) (List.range 4) ++
    List.replicate (60 - a % 64 / 4 * 4) 0

/-- R367, R368: after a device write of the bytes `be` of a host-homed word, its half goes to the host with byte enables, and
with the poison indication when a word of it is poisoned. -/
def writeHalf (s : State) (a : Nat) (be : BitVec 4) : State :=
  match regionOf a with
  | .host =>
    let g := a / 64
    let poi := (List.range 16).any fun k => wordPoi s.mem (64 * g + 4 * k)
    let held := (sget (0 : BitVec 2) s.mem.bridge (lineOf a)).getLsbD (g % 2)
    let keep := sget false s.mem.hostPoi g
    (s.withMem { s.mem with hostPoi := sput false s.mem.hostPoi g (poi || (keep && !held)) }).send
      (.cxlWrite (64 * g) poi (be.setWidth 64 <<< (a % 64 / 4 * 4)) (granuleBytes s.mem a be))
  | _ => s

/-- R370, R441: a word written by the device itself, at its home, clean or with the poison that it was copied with. -/
def devicePoke (s : State) (a : Nat) (w : Word) (poi : Bool) (origin : Word) : State :=
  writeHalf (wakeMonitors (s.withMem (pokeWord s.mem deviceAgent a w poi origin 0)) a) a 0xF

/-- R370: a clean word written by the device itself. -/
def deviceWord (s : State) (a : Nat) (w : Word) : State := devicePoke s a w false 0

/-- Two words written by the device itself. -/
def deviceDWord (s : State) (a : Nat) (x : DWord) : State := deviceWord (deviceWord s a x.halves.1) (a + 4) x.halves.2

/-- Words written by the device at rising addresses. -/
def deviceWords (s : State) (a : Nat) : List Word → State
  | [] => s
  | w :: ws => deviceWords (deviceWord s a w) (a + 4) ws

/-- R395: writes an image's words at a slot. -/
def writeImage (s : State) (base : Nat) : List (Nat × Word) → State
  | [] => s
  | (o, w) :: ws => writeImage (deviceWord s (base + o) w) base ws

/-- R395: words are copied with their poison marks. -/
def copyWords (s : State) (src dst : Nat) : Nat → State
  | 0 => s
  | k + 1 => copyWords (devicePoke s dst (memWord s.mem src) (wordPoi s.mem src) (lineOrigin s.mem src)) (src + 4) (dst + 4) k

/-! ## Causes, owners and homes -/

/-- R47: the cause codes. -/
def causeNotPresent : Cause := 0x01
def causeInvalid : Cause := 0x02
def causeDenied : Cause := 0x03
def causeBounds : Cause := 0x04
def causeEcc : Cause := 0x05
def causeDivZero : Cause := 0x06
def causeShadow : Cause := 0x07
def causeFutureEmpty : Cause := 0x08
def causeRemote : Cause := 0x09
def causeLinkLost : Cause := 0x0A
def causeEngine : Cause := 0x0B
def causeMisaligned : Cause := 0x0C
def causeEmptyRead : Cause := 0x0D
def causeRange : Cause := 0x0E
def causeGang : Cause := 0x0F
def causeProgram : Cause := 0x3F

/-- R381: the ownership entry of a far region. -/
def farEntry (s : State) (r : Nat) : BitVec 4 := (s.mgmt (0x800 + 4 * (r / 8))).extractLsb' (4 * (r % 8)) 4

/-- R377, R381: the partition that owns a physical address, if one does. -/
def ownerOf (s : State) (pa : Nat) : Option Nat :=
  match regionOf pa with
  | .near q => quadPart s q
  | .far r => (List.range 4).find? fun n => farEntry s r = 1#4 <<< n
  | _ => none

/-- R74: the home quadrant of a physical address for an access of a partition. Host pages are spread over the quadrants of
the accessing partition. -/
def homeQuad (s : State) (part pa : Nat) : Nat :=
  match regionOf pa with
  | .near q => q
  | _ =>
    let qs := partQuads s ((ownerOf s pa).getD part)
    qs.getD (pa / 65536 % (max qs.length 1)) 0

/-- R54, R279: an origin that names no token: core 0x7F or an engine's core. -/
def originRaw (s : State) (quad core : Nat) (cause : Cause) : Word :=
  BitVec.ofNat 7 (nodeNo s) ++ BitVec.ofNat 2 quad ++ BitVec.ofNat 7 core ++ 0x3FF#10 ++ cause

/-! ## Events and the severity matrix -/

/-- R434, R435, R442: an event: class, source, context, partition, place, group slot, occurrences, information, the number of the
unit where its kind is numbered, and its name where it is not that of its source. A unit that lies in no quadrant has 3 in the two bits of quad, since 0xF does not fit
there (log entry 65). -/
structure Ev where
  cls : Nat
  src : Nat
  ctx : Option Nat := none
  part : Option Nat := none
  loc : BitVec 14 := 0x3FFF
  slot : BitVec 5 := 0x1F
  count : Nat := 1
  info : List DWord := []
  num : Option Nat := none
  name : List Byte := []
  deriving DecidableEq, Repr

/-- R442: a place that only has a quadrant. -/
def quadLoc (q : Nat) : BitVec 14 := BitVec.ofNat 2 q ++ 0xFFF#12

/-- R442: the place of a core by its number, or of a partition of it. -/
def coreAt (core : Nat) (part : BitVec 4) : BitVec 14 :=
  BitVec.ofNat 2 (core / 80) ++ BitVec.ofNat 4 (core % 80 / 8) ++ BitVec.ofNat 4 (core % 8) ++ part

/-- R442: the place of the core of a workgroup, or of a partition of it. -/
def coreLoc (w : WG) (part : BitVec 4) : BitVec 14 :=
  BitVec.ofNat 2 w.quad ++ BitVec.ofNat 4 (w.core / 8) ++ BitVec.ofNat 4 (w.core % 8) ++ part

/-- A number below 100 in ASCII digits. -/
def asciiNumber (n : Nat) : List Byte :=
  (if n < 10 then [] else [BitVec.ofNat 8 (0x30 + n / 10)]) ++ [BitVec.ofNat 8 (0x30 + n % 10)]

/-- R4, R442: a unit name in ASCII: core, l2s with the slice's number, rdc, near, far, fabric, cxl, engine. The names beyond
R418's examples are the model's (log entry 17). -/
def unitName (src : Nat) (num : Option Nat) : List Byte :=
  [[0x63, 0x6F, 0x72, 0x65], [0x6C, 0x32, 0x73], [0x72, 0x64, 0x63], [0x6E, 0x65, 0x61, 0x72], [0x66, 0x61, 0x72],
    [0x66, 0x61, 0x62, 0x72, 0x69, 0x63], [0x63, 0x78, 0x6C], [0x65, 0x6E, 0x67, 0x69, 0x6E, 0x65]].getD src [] ++
    num.elim [] asciiNumber

/-- The bytes of a 64-bit value. -/
def bytesOfDWord (x : DWord) : List Byte := bytesOfWord x.halves.1 ++ bytesOfWord x.halves.2

/-- A list of bytes cut or filled with zeros to a length. -/
def padTo (n : Nat) (l : List Byte) : List Byte := (l ++ List.replicate n 0).take n

/-- A word from the head of a byte list. -/
def wordAt (l : List Byte) (o : Nat) : Word :=
  wordOfBytes (l.getD o 0) (l.getD (o + 1) 0) (l.getD (o + 2) 0) (l.getD (o + 3) 0)

/-- The words of a byte list. -/
def wordsOfBytes (l : List Byte) : List Word := (List.range ((l.length + 3) / 4)).map fun k => wordAt l (4 * k)

/-- R442: the 64 bytes of an error record. -/
def errorRecord (e : Ev) (action : Nat) (lost : Bool) (seq : DWord) : List Byte :=
  let w0 : Word := BitVec.ofNat 5 e.cls ++ BitVec.ofNat 3 e.src ++ BitVec.ofNat 3 action ++ BitVec.ofBool lost ++
    BitVec.ofNat 8 (e.ctx.getD 0) ++ 0#12
  let w1 : Word := 0#2 ++ e.loc ++ 0#11 ++ e.slot
  bytesOfWord w0 ++ bytesOfWord w1 ++ padTo 8 (if e.name.isEmpty then unitName e.src e.num else e.name) ++ bytesOfDWord (BitVec.ofNat 64 e.count) ++
    bytesOfDWord seq ++ padTo 32 (e.info.flatMap bytesOfDWord)

/-- R441, R442: the record of an event as it would be written now: its number is the tail, and lost says that a record was dropped
since the last one. -/
def recordOf (s : State) (part : Nat) (e : Ev) (action : Nat) : List Byte :=
  errorRecord e action (sget false s.host.logLost part) ((s.mgmt (0x15000 + 0x100 * part + 0x8C)).setWidth 64)

/-- R441: writes an error record to the partition's log ring, or counts it as dropped; then the next record written carries
lost. -/
def writeLog (s : State) (part : Nat) (bytes : List Byte) : State :=
  let b := 0x15000 + 0x100 * part + 0x80
  let d := s.mgmt64 b
  let tail := s.mgmt (b + 0xC)
  let n := 2 ^ (d.extractLsb' 4 4).toNat
  let lost (s : State) (x : Bool) : State := { s with host := { s.host with logLost := sput false s.host.logLost part x } }
  if d.getLsbD 0 && (tail - s.mgmt (b + 8)).toNat < n then
    let base := (d.extractLsb' 16 48).toNat * 65536
    lost ((deviceWords s (base + 64 * (tail.toNat % n)) (wordsOfBytes bytes)).setMgmt (b + 0xC) (tail + 1)) false
  else lost (s.setMgmt (b + 0x10) (satAdd (s.mgmt (b + 0x10)) 1)) true

/-- R431: aborts the checkpoint of a partition with a cause: waiting writes proceed and one event is sent. -/
def abortCheckpoint (s : State) (part cause : Nat) : State :=
  let b := 0x14000 + 64 * part + 0x18
  let hi := s.mgmt (b + 4)
  if (hi.extractLsb' 6 2).toNat = 1 then
    let tag := (hi.extractLsb' 16 8).toNat
    let hi' := (hi &&& 0xFFFFFF00#32) ||| BitVec.ofNat 32 (3 * 64 + cause)
    let s := (s.setMgmt (b + 4) hi').modCtx tag fun c => { c with ckact := false, rep := { c.rep with interval := false, broken := c.rep.broken || c.rep.interval } }
    s.send (.checkpoint part)
  else s

/-- R427: the context that the checkpoint block of a partition names. -/
def ckTag (s : State) (part : Nat) : Nat := ((s.mgmt (0x14000 + 64 * part + 0x1C)).extractLsb' 16 8).toNat

/-- R431: the checkpoints of a context that ends are aborted: the context was destroyed. -/
def abortCheckpoints (s : State) (tag : Nat) : State :=
  (List.range 4).foldl (fun s p => if ckTag s p = tag then abortCheckpoint s p 1 else s) s

/-- R437, R378: the queues of a context are disabled. -/
def disableQueues (s : State) (tag : Nat) : State :=
  (List.range 64).foldl (fun s k =>
    if (s.mgmt (0x1000 + 16 * k + 8)).toNat % 256 = tag then
      let s := s.setMgmt (0x1000 + 16 * k) (s.mgmt (0x1000 + 16 * k) &&& ~~~1#32)
      { s with host := { s.host with tails := sdel s.host.tails k } }
    else s) s

/-- R437, R378: the running launches of a context end with code 0x02; a record that is read but not started (R372) is
discarded, as are those still in the rings of its disabled queues. -/
def endLaunches (s : State) (tag : Nat) : State :=
  { s with host := { s.host with
      launches := smapAll s.host.launches fun l =>
        if l.ctx ≠ tag then l else if l.state = 1 then { l with state := 2, code := 2 } else if l.state = 0 then { l with state := 3 } else l } }

/-- The groups of a context. -/
def State.groupsOf (s : State) (tag : Nat) : List Group :=
  (s.exe.groups.map (·.2)).filter fun g => (s.wg g.wg).any (·.ctx = tag)

/-! ## Images in slots (R391, R394, R395) -/

/-- R391, R395: where a slot of a context's save area begins. -/
def slotBase (s : State) (ctx slot : Nat) : Nat :=
  ((s.mgmt64 (0x4000 + 32 * ctx + 8)).extractLsb' 16 48).toNat * 65536 + 0x500000 * slot

/-- R395: where the slot of a saved workgroup begins. -/
def imageSlot (s : State) (i : Image) : Option Nat :=
  (s.ctx i.wg.ctx).bind fun c => (c.images.find? (·.2 = i.serial)).map fun x => slotBase s i.wg.ctx x.1

/-- R215: the launch of a workgroup uses architected stacks, and its entry. -/
def stackMode (s : State) (w : WG) : Bool × DWord := ((s.launch w.launch).map fun l => (l.arch, l.kentry)).getD (false, 0)

/-- R396: the outstanding WLPOPs of a group: thread, worklist and destinations of each. -/
def outstandingWords (s : State) (gid : Nat) : List Word :=
  let one (p : Pending) : Option (List Word) := match p.what with
    | .pop list ds pred => some (putNat p.t ++ putNat list ++ putMany (fun d : Dest => putNat d.file ++ putNat d.reg ++ putNat d.t) (ds ++ [pred]))
    | _ => none
  putMany id (((s.exe.pendings.map (·.2)).filter (·.gid = gid)).filterMap one)

/-- R395, R396: the regions of the slot of a workgroup. -/
def regionsOf (s : State) (i : Image) : List (Nat × Nat × List Word) := slotRegions i.wg i.groups (stackMode s i.wg).1 (outstandingWords s)

/-- R395: the words of the slot of a workgroup, but for its scratchpad. -/
def slotWords (s : State) (i : Image) : List (Nat × Word) :=
  let l := s.launch i.wg.launch
  imageWords i.wg i.groups (i.records.map fun kr => (kr.1, kr.2.2)) (l.elim 0 (·.queue)) (l.elim 0 (·.index)) i.origin i.serial
    (stackMode s i.wg).1 (stackMode s i.wg).2 ++ regionWords (regionsOf s i)

/-- R459: the agents that wrote the words of a scratchpad last, by offset. -/
def scratchAuthors (m : MemSys) (w : WG) : SMap Nat :=
  m.writes.foldl (fun l x =>
    let o := x.loc - w.scratchBase
    if x.seq = 0 || x.loc < w.scratchBase || w.scratch ≤ o || (sfind l o).isSome then l else sins l o x.agent) []

/-- R395: a resident workgroup as an image, under a number. -/
def imageNumbered (s : State) (w : WG) (serial : Nat) : Image :=
  let gs := sortBy (fun a b => a.pos ≤ b.pos) ((s.exe.groups.map (·.2)).filter (·.wg = w.id))
  let recs := (sget ({} : Side) s.exe.sides w.coreNo).recs.filter fun kr => gs.any (·.id = kr.2.1)
  let i : Image := { serial := serial, wg := w, groups := gs, records := recs, origin := w.coreNo, authors := scratchAuthors s.mem w }
  { i with tails := slotTails (regionsOf s i) }

/-- R395: a resident workgroup as an image, under a new number. -/
def imageOf (s : State) (w : WG) : Image × State :=
  let (serial, s) := s.fresh
  (imageNumbered s w serial, s)

/-- R394, R395: writes the image of a resident workgroup at a slot. -/
def writeSlot (s : State) (base : Nat) (i : Image) : State :=
  copyWords (writeImage s base (slotWords s i)) i.wg.scratchBase (base + 0x80000) (i.wg.scratch / 4)

/-! ## Dumps (R445) -/

/-- R445: a range of memory that a dump fills is clean and zero before its words are written. -/
def blankRange (m : MemSys) (a n : Nat) : MemSys :=
  let mine (x : Nat) : Bool := a ≤ x && x < a + n
  { m with
    bytes := m.bytes.filter fun ab => !mine ab.1
    marks := m.marks.filter fun lm => !mine (lm.1 * 128)
    fulls := m.fulls.filter fun ab => !mine ab.1
    ecc := m.ecc.filter fun ab => !mine ab.1
    writes := m.writes.filter fun w => !mine w.loc }

/-- R43, R45, R58, R445: the side table of a core with its overflow record, and the quarantine entries of its groups, by offset in
the core's 128 KiB of a dump. A free entry is zero. -/
def coreDump (s : State) (core : Nat) : List (Nat × Word) :=
  let side : Side := sget {} s.exe.sides core
  let gs := (s.exe.groups.map (·.2)).filter fun g => (s.wg g.wg).any (·.coreNo = core)
  let held := gs.flatMap fun g => g.quar.map (putQEntry (g.part * 8 + g.slot))
  (side.recs.flatMap fun kr => atOff (32 * kr.1) (recordWords kr.2.2)) ++
    atOff (32 * 0x3FF) [side.lost.halves.1, side.lost.halves.2, side.lostMask.halves.1, side.lostMask.halves.2] ++
    ((List.range 512).zip held).flatMap fun ke => atOff (0x8000 + 192 * ke.1) (ke.2.take 48)

/-- R445: the dump of a partition: header, matrix, counters, records, per core the side table and the quarantine entries, and the
images of resident workgroups with their scratchpads, as far as the region holds them. Writing ends at DUMP_COMPLETE. -/
def writeDump (s : State) (part : Nat) (trigger : List Byte) (tags : List Nat) : State :=
  let b := 0x15000 + 0x100 * part + 0xA0
  let base := ((s.mgmt64 b).extractLsb' 16 48).toNat * 65536
  let limit := (s.mgmt (b + 8)).toNat * 65536
  if limit = 0 then s else
  let put (s : State) (off : Nat) (ws : List Word) : State :=
    if off + 4 * ws.length ≤ limit then deviceWords s (base + off) ws else s
  let lb := 0x15000 + 0x100 * part + 0x80
  let ring := ((s.mgmt64 lb).extractLsb' 16 48).toNat * 65536
  let n := 2 ^ ((s.mgmt64 lb).extractLsb' 4 4).toNat
  let tail := (s.mgmt (lb + 0xC)).toNat
  let count := min (min tail n) 1024
  let logged := (List.range count).map fun k => (List.range 16).map fun j => memWord s.mem (ring + 64 * ((tail - count + k) % n) + 4 * j)
  let cores := (partQuads s part).flatMap fun q => (List.range 80).map fun c => 80 * q + c
  let first := (0x12000 + 0x20000 * cores.length + 0xFFFF) / 0x10000 * 0x10000
  let wgs := (s.exe.wgs.map (·.2)).filter fun w => tags.contains w.ctx
  let s := s.withMem (blankRange s.mem base (min limit (first + 0x500000 * wgs.length)))
  let s := put s 0 ([0x44554D50, 1, BitVec.ofNat 32 part] ++ wordsOfBytes trigger ++ [s.mgmt 0x10, s.mgmt 0])
  let s := put s 0x1000 ((List.range 24).map fun c => s.mgmt (0x15000 + 0x100 * part + 4 * c))
  let s := put s 0x1060 ((List.range 192).map fun c => s.mgmt (0x16000 + 0x400 * part + 4 * c))
  let s := ((List.range count).zip logged).foldl (fun s kw => put s (0x2000 + 64 * kw.1) kw.2) s
  let s := ((List.range cores.length).zip cores).foldl (fun s kc =>
    (coreDump s kc.2).foldl (fun s ow => put s (0x12000 + 0x20000 * kc.1 + ow.1) [ow.2]) s) s
  let s := (wgs.zip (List.range wgs.length)).foldl (fun s wk =>
    let off := first + 0x500000 * wk.2
    if off + 0x500000 ≤ limit then writeSlot s (base + off) (imageNumbered s wk.1 0) else s) s
  let fits := first + 0x500000 * wgs.length ≤ limit
  s.setMgmt (b + 0x10) ((1 : Word) ||| (bitW (!fits) <<< 3))

/-! ## Replies (R379) -/

/-- R379: the completion reply of a command. -/
def replyWord (code detail : Nat) : Word := BitVec.ofNat 32 (256 * detail + code)

/-- R379: ends a command with its reply. A reply of channel 1 waits behind a PREEMPT that is not complete. -/
def reply (s : State) (channel code detail : Nat) : State :=
  if channel = 1 && !s.host.replies.isEmpty then
    { s with host := { s.host with replies := s.host.replies ++ [(0, some (replyWord code detail))] } }
  else s.send (.reply channel (replyWord code detail))

/-- R379: the replies that are ready leave, in command order. -/
def sendReplies (s : State) : List (Nat × Option Word) → State
  | (_, some w) :: rest => sendReplies (s.send (.reply 1 w)) rest
  | rest => { s with host := { s.host with replies := rest } }

/-- R379, R394: the PREEMPTs of a context that are not complete end with a reply. -/
def endPreempts (s : State) (tag code detail : Nat) : State :=
  sendReplies s (s.host.replies.map fun x => if x = (tag, none) then (tag, some (replyWord code detail)) else x)

/-- R437: what kill context does, beside the dump. Groups stop and their held effects are discarded, engine operations stop,
launches end with code 0x02, queues are disabled. -/
def haltContext (s : State) (tag : Nat) : State :=
  match s.ctx tag with
  | none => s
  | some c =>
    if c.killed then s else
    let s := s.modCtx tag fun c => { c with killed := true, rep := { c.rep with interval := false, recorded := false } }
    -- a PREEMPT of it that is not complete fails (R439)
    let s := endPreempts s tag 4 3
    let mine (wg : Nat) : Bool := (s.wg wg).any (·.ctx = tag)
    let s := s.mapGroups fun g => if mine g.wg then { g with stop := .context, quar := [] } else g
    let ops := smapAll s.exe.engOps fun o => if o.ctx = tag then { o with killed := true } else o
    let s := endLaunches { s with exe := { s.exe with engOps := ops } } tag
    abortCheckpoints (disableQueues s tag) tag

/-- R437, R444: kill context, with a dump where onkill is set: it shows the context as the event found it. -/
def killContext (s : State) (tag : Nat) (trigger : List Byte) : State :=
  match s.ctx tag with
  | none => s
  | some c =>
    if c.killed then s
    else haltContext (if (s.mgmt (0x15000 + 0x100 * c.part + 0xA0)).getLsbD 0 then writeDump s c.part trigger [tag] else s) tag

/-- The records of groups leave the side tables (R46, R378). -/
def freeRecords (s : State) (gids : List Nat) : State :=
  { s with exe := { s.exe with sides := s.exe.sides.map fun ks =>
      (ks.1, { ks.2 with recs := ks.2.recs.filter fun kr => !gids.contains kr.2.1 }) } }

/-! ## Completions (R375) -/

/-- R375: the completion value. -/
def completionValue (l : Launch) : DWord :=
  DWord.ofHalves (0#16 ++ BitVec.ofNat 8 l.detail ++ BitVec.ofNat 8 l.code) l.index

/-- R375: what a host agent sees after it reads the completion: the writes of the launch. -/
def launchWrites (m : MemSys) (l : Launch) : SMap Nat :=
  sjoin [] ((m.writes.filter fun w => (agentName w.agent).any l.names.contains).map fun w => (w.loc, w.seq))

/-- R375: the key of the release that a completion word makes. -/
def completionKey (seq : Nat) : Nat := 2 ^ 70 + seq

/-- R375: the completion of a launch is written at a physical address. -/
def writeCompletion (s : State) (l : Launch) (pa : Nat) : State :=
  let s := deviceDWord s pa (completionValue l)
  let floor := launchWrites s.mem l
  let rel (seq : Nat) : ReleaseRec := { obj := completionKey seq, floor := floor }
  s.withMem { s.mem with rels := s.mem.rels ++ [rel s.mem.seq, rel (s.mem.seq - 1)] }

/-! ## Page tables -/

/-- R381: a partition may access a physical address. -/
def mayAccess (s : State) (part pa : Nat) : Bool :=
  match regionOf pa with
  | .near q => (partMask s part).getLsbD q
  | .far r => farEntry s r = 1#4 <<< part
  | .reserved => false
  | _ => true

/-- R382: a leaf: its address, its entry and its level. -/
structure Leaf where
  addr : Nat
  entry : DWord
  level : Nat
  deriving DecidableEq, Repr

/-- R382: bytes below the index of a level. -/
def levelShift (level : Nat) : Nat := 16 + 13 * level

/-- R383: bits [51:16] of an entry as an address. -/
def entryPa (e : DWord) : Nat := (e.extractLsb' 16 36).toNat * 65536

/-- R383: a table pointer uses only valid, pa and kind. -/
def pointerOk (e : DWord) : Bool := (e &&& 0x7FF000000000FFFF#64) = 0

/-- R383: a leaf's reserved bits, tier and alignment. -/
def leafOk (e : DWord) (level : Nat) : Bool :=
  (e &&& 0xFFFC#64) = 0 && (e.extractLsb' 56 2).toNat ≠ 3 && entryPa e % 2 ^ levelShift level = 0

/-- R382, R384: a walk that raises no event and fetches nothing from the host: what a partition reset uses (log entry 66). -/
def bareWalk (m : MemSys) (va : Nat) : List Nat → Nat → Option Leaf
  | [], _ => none
  | level :: rest, table =>
    let a := table + 8 * (va / 2 ^ levelShift level % 8192)
    let e := memDWord m a
    let known : Bool := match regionOf table with
      | .near _ | .far _ | .host => true
      | _ => false
    if !known || !e.getLsbD 63 || (sfind m.ecc a).isSome || (sfind m.ecc (a + 4)).isSome || wordPoi m a || wordPoi m (a + 4) then none
    else match (e.extractLsb' 0 2).toNat with
      | 0 => if pointerOk e then bareWalk m va rest (entryPa e) else none
      | 1 => if leafOk e level && e.getLsbD 62 then some ⟨a, e, level⟩ else none
      | _ => none

/-- R375, R437: where the completion of a launch lies while its partition is reset: its address, translated once more; none for
no address, one that fails translation, or one on another package, whose chords go down with the partition (log entry 66). -/
def completionPlace (s : State) (l : Launch) : Option Nat :=
  (s.ctx l.ctx).bind fun c =>
    if l.cplt = 0 || l.cplt.extractLsb' 55 9 ≠ 0 then none
    else (bareWalk s.mem l.cplt.toNat [2, 1, 0] c.root.toNat).bind fun x =>
      let pa := entryPa x.entry + l.cplt.toNat % 2 ^ levelShift x.level
      let known : Bool := match regionOf pa with
        | .near _ | .far _ | .host => true
        | _ => false
      if known && x.entry.getLsbD 61 && (l.priv || x.entry.getLsbD 59) && !x.entry.getLsbD 58 && !x.entry.getLsbD 52 &&
        mayAccess s c.part pa then some pa else none

/-- R375, R437: the launches of a context that a partition reset ended write their completions. -/
def resetCompletions (s : State) (tag : Nat) : State :=
  ((s.host.launches.map (·.2)).filter fun l => l.ctx = tag && l.state = 2).foldl (fun s l =>
    (completionPlace s l).elim s (writeCompletion s l)) s

/-- R378: DESTROY of a context: its launches end, its state, bindings, records and results are freed, its tag is free
again. -/
def destroyContext (s : State) (tag : Nat) : State :=
  -- a PREEMPT of it that is not complete fails: the tag is not live (R392)
  let s := endPreempts (disableQueues s tag) tag 1 1
  let s := abortCheckpoints s tag
  let gids := (s.groupsOf tag).map (·.id)
  let saved := (s.host.images.filter (·.wg.ctx = tag)).flatMap fun i => i.groups.map (·.id)
  let s := freeRecords s gids
  let s := endLaunches s tag
  let exe := { s.exe with
    groups := s.exe.groups.filter fun kg => !gids.contains kg.1
    wgs := s.exe.wgs.filter fun kw => kw.2.ctx ≠ tag
    pendings := s.exe.pendings.filter fun kp => !(gids.contains kp.2.gid || saved.contains kp.2.gid)
    engOps := s.exe.engOps.filter fun ko => ko.2.ctx ≠ tag }
  -- the lines that its engine operations held in flight leave flight (R77)
  let gone := (s.exe.engOps.filter fun ko => ko.2.ctx = tag).map (·.1)
  let s := { s with exe := exe, mem := { s.mem with flight := s.mem.flight.filter fun f => !gone.contains f.2,
                                                     binds := s.mem.binds.filter fun kb => kb.2.ctx ≠ tag,
                                                     tlb := s.mem.tlb.filter fun t => t.ctx ≠ tag } }
  -- the completions are written already (R375); what is left is the notification
  let launches := smapAll s.host.launches fun l => if l.ctx = tag then { l with cplt := 0 } else l
  { s with host := { s.host with
      ctxs := sdel s.host.ctxs tag, faults := s.host.faults.filter fun f => f.ctx ≠ tag, launches := launches
      images := s.host.images.filter fun i => i.wg.ctx ≠ tag } }

/-- R437: a dirty line of a partition's caches that cannot be read is written back poisoned to the far memory that the partition
owns. -/
def writeBackBad (s : State) (part : Nat) : State :=
  let bad := s.mem.ecc.filter fun x => 2 ≤ x.2 && (match regionOf x.1 with | .far _ => true | _ => false) && ownerOf s x.1 = some part
  bad.foldl (fun s x =>
    let quad := if 8 ≤ x.2 then (x.2 - 8) / 80 else if 4 ≤ x.2 then x.2 - 4 else homeQuad s part x.1
    s.withMem (setPoi { s.mem with ecc := sdel s.mem.ecc x.1 } x.1 true (originRaw s quad 0x7F causeEcc))) s

/-- R375, R437: reset partition: its contexts are killed, their launches' completions are written, they are destroyed, the dump is written, unreadable dirty
lines are written back poisoned, its ready bits clear, and the near
memory of its quadrants is zero-filled. The quadrants return as self-test passes (FUNCTION_READY). -/
def resetPartition (s : State) (part : Nat) (trigger : List Byte) : State :=
  let tags := (s.host.ctxs.filter fun kc => kc.2.part = part).map (·.1)
  let s := writeDump s part trigger tags
  let s := tags.foldl (fun s t => destroyContext (resetCompletions (haltContext s t) t) t) s
  let s := writeBackBad s part
  let qs := partQuads s part
  let clear : Word := qs.foldl (fun w q => w ||| (0x111100#32 <<< q)) 0
  let inQuad (a : Nat) : Bool := qs.any fun q => q * 0x2000000000 ≤ a && a < q * 0x2000000000 + 0x1200000000
  let mem := { s.mem with
    bytes := s.mem.bytes.filter fun ab => !inQuad ab.1
    marks := s.mem.marks.filter fun lm => !inQuad (lm.1 * 128)
    fulls := s.mem.fulls.filter fun ab => !inQuad ab.1
    ecc := s.mem.ecc.filter fun ab => !inQuad ab.1
    writes := s.mem.writes.filter fun w => !inQuad w.loc }
  let s := (s.withMem mem).setMgmt 0 (s.mgmt 0 &&& ~~~clear)
  { s with host := { s.host with resetting := sins s.host.resetting part true,
                                 fw := { s.host.fw with
                                   resets := s.host.fw.resets + 1
                                   tested := s.host.fw.tested.filter fun bit => !(8 ≤ bit && qs.contains (bit % 4))
                                   runs := qs.foldl (fun r q => sput 0 r q (s.host.fw.resets + 1)) s.host.fw.runs } } }

/-- R436 to R439: the action that the matrix selects for an event, after the rules for events without a context, on
idle quadrants, of killed contexts, and during a reset. -/
def actionOf (s : State) (e : Ev) : Nat :=
  let part := e.part.getD 0
  let a := ((s.mgmt (0x15000 + 0x100 * part + 4 * e.cls)).extractLsb' (3 * e.src) 3).toNat
  let gone := match e.ctx with
    | some t => (s.ctx t).all (·.killed)
    | none => false
  if e.part.isNone || gone || sget false s.host.resetting part then min a 1
  else if e.ctx.isNone && a = 3 then 2
  else a

/-- R440: an event is counted. -/
def countEvent (s : State) (e : Ev) : State :=
  let c := 0x16000 + 0x400 * e.part.getD 0 + 32 * e.cls + 4 * e.src
  s.setMgmt c (satAdd (s.mgmt c) e.count)

/-- R434 to R441: what the action of an event that is counted says is done. -/
def actOn (s : State) (e : Ev) : State :=
  let part := e.part.getD 0
  let a := actionOf s e
  let bytes := recordOf s part e a
  let s := if a ≥ 1 then writeLog s part bytes else s
  let s := if a ≥ 2 then s.send (.event bytes) else s
  if a = 4 && (s.mgmt (0x15000 + 0x100 * part + 0xB0)).extractLsb' 0 2 = 1#2 then
    { s with host := { s.host with resetWaits := sins s.host.resetWaits part bytes } }
  else
  let s := if a = 3 then (match e.ctx with | some t => killContext s t bytes | none => s) else s
  if a = 4 then resetPartition s part bytes else s

/-- R434 to R441: raises an event: it is counted, and what the action says is done. -/
def raise (s : State) (e : Ev) : State := if e.count = 0 then s else actOn (countEvent s e) e

/-- An event of a group: its context, its partition, its place (R438, R442). -/
def groupEvent (s : State) (g : Group) (cls src count : Nat) (info : List DWord) : Ev :=
  match findWg s g.wg with
  | none => { cls := cls, src := src, count := count, info := info }
  | some w =>
    { cls := cls, src := src, ctx := some w.ctx, part := (s.ctx w.ctx).map (·.part), slot := groupSlot g,
      loc := coreLoc w (BitVec.ofNat 4 g.part),
      count := count, info := info }

/-- R434: raises an event of a group, resident or saved. -/
def raiseGroup (s : State) (gid cls src count : Nat) (info : List DWord) : State :=
  match findGroup s gid with
  | none => s
  | some g => raise s (groupEvent s g cls src count info)

/-- R443: the information of classes 8, 12 and 16 to 19. -/
def poisonInfo (pc : DWord) (tok : Token) (cause : Cause) : List DWord :=
  [pc, (cause.setWidth 64 <<< 16) ||| tok.setWidth 64]

/-! ## The current path -/

/-- The group, workgroup and path that issue now. -/
structure Here where
  g : Group
  w : WG
  pid : Nat
  p : Path
  deriving DecidableEq, Repr

/-- The group, workgroup and path that issue now, if there are: each listed under its own name. -/
def State.here (s : State) : Option Here :=
  match s.ctl.cur with
  | none => none
  | some (gid, pid) =>
    match s.group gid with
    | none => none
    | some g =>
      match s.wg g.wg, sfind g.paths pid with
      | some w, some p => if g.id = gid && w.id = g.wg then some ⟨g, w, pid, p⟩ else none
      | _, _ => none

/-- Runs a meaning on the path that issues; without one no word can be issued. -/
def issuing (s : State) (k : Here → Result) : Result :=
  match s.here with
  | some h => k h
  | none => .fault .noIssuingPath

/-- Changes the path of a group. -/
def Group.modPath (g : Group) (pid : Nat) (f : Path → Path) : Group := { g with paths := smod g.paths pid f }

/-- Changes the path that issues. -/
def State.modPath (s : State) (h : Here) (f : Path → Path) : State := s.modGroup h.g.id fun g => g.modPath h.pid f

/-- R154: a target relative to an address: 55-bit wrap. -/
def pcAdd (pc : DWord) (off : DWord) : DWord := ((pc + off).setWidth 55).setWidth 64

/-- R154: the target of a B-format word. -/
def branchTarget (pc : DWord) (o : BitVec 19) : DWord := pcAdd pc (o.signExtend 64 <<< 2)

/-- The address of the next word. -/
def nextPc (pc : DWord) : DWord := pcAdd pc 4

/-- R446: the word retires: the retired-work count rises by 1. -/
def countRetire (s : State) (gid : Nat) : State := s.modGroup gid fun g => { g with retired := g.retired + 1 }

/-- The word retires and its path goes on at an address. -/
def retireAt (s : State) (h : Here) (pc : DWord) : State :=
  (countRetire s h.g.id).modPath h fun p => { p with pc := pc, park := .running }

/-- The word retires and its path goes on at the next word. -/
def retire (s : State) (h : Here) : State := retireAt s h (nextPc h.p.pc)

/-- R161: the word does not issue now; it has had no effect. -/
def stall (s : State) : State := { s with ctl := { s.ctl with stalled := true } }

/-- R9: the path parks at its word; once it is parked so, the word waits. -/
def parkAs (s : State) (h : Here) (k : Park) : State :=
  if h.p.park = k then stall s else s.modPath h fun p => { p with park := k }

/-- R9: a wait that parks the path. -/
def stallParked (s : State) (h : Here) : State := parkAs s h .waiting

/-- R36: the watchdog counter returns to zero. -/
def resetWatchdog (s : State) (gid : Nat) : State := s.modGroup gid fun g => { g with wdog := 0 }

/-! ## Taking the illegal-instruction event -/

/-- R178: the event of a failing check: class 15, source core, with the pc, the word and reason, and the active mask. -/
def illegalEvent (s : State) (h : Here) (word : Word) (reason : Nat) : Ev :=
  groupEvent s h.g 15 0 1
    [h.p.pc, (BitVec.ofNat 64 reason <<< 32) ||| word.setWidth 64, h.p.mask.extractLsb' 0 64, h.p.mask.extractLsb' 64 64]

/-- R178: whether the matrix action lets the group resume. -/
def resumes (s : State) (e : Ev) : Bool := actionOf s e < 3

/-- R178: the group of a word whose event ends its context or resets its partition does not go on. -/
def heldBack (s : State) (gid : Nat) : State := s.modGroup gid fun g => { g with stop := .context }

/-- R178: taking the illegal-instruction event for a word with a failing check 2 to 7. Nothing of the word happens. When
the action kills, the group does not resume; otherwise the word retires as NOP. -/
def illegal (s : State) (h : Here) (word : Word) (reason : Nat) : State :=
  let e := illegalEvent s h word reason
  let s' := raise s e
  let s' := { s' with ctl := { s'.ctl with rejected := true } }
  if resumes s e then retire s' h else heldBack s' h.g.id

/-- R177: a word that fails a check that depends on the state: the event of the instruction's own word. -/
def reject (s : State) (h : Here) (i : Instr) (reason : Nat) : Result := .next (illegal s h (encode i) reason)

/-! ## Poison records -/

/-- R43: new poison of a thread: its cause and what its record says of the access; for EMPTY_READ the registers found empty,
each with the thread that reads it; `inst` is the group's retired-work count at the instruction, where it is not the present
one (R44). -/
structure Fresh where
  t : Nat
  cause : Cause
  write : Bool := false
  addr : Option DWord := none
  gorigin : Word := 0
  regs : List (Nat × RegName) := []
  inst : Option Word := none
  deriving DecidableEq, Repr

/-- R44: the 64 KiB page of an address. -/
def pageOf (a : Option DWord) : Option Nat := a.map fun x => x.toNat / 65536
/-- R44: the 8-byte cell of an address. -/
def cellOf (a : Option DWord) : Option Nat := a.map fun x => x.toNat / 8

/-- R44: what must agree for two occurrences of one instruction to share a record: the cause, the page and write bit for
PAGE_NOT_PRESENT, the cell for FUTURE_EMPTY. -/
def freshKey (f : Fresh) : Cause × Option Nat × Bool :=
  (f.cause,
    if f.cause = causeNotPresent then pageOf f.addr else if f.cause = causeFutureEmpty then cellOf f.addr else none,
    f.cause = causeNotPresent && f.write)

/-- R44: the key of an existing record. -/
def Record.key (r : Record) : Cause × Option Nat × Bool :=
  freshKey { t := 0, cause := r.cause, write := r.write, addr := some (r.addr.setWidth 64) }

/-- R44: an existing record that a new occurrence merges into: one of the same instruction, whose results come at several
times, or one of an earlier instruction, which must agree in inspan and gorigin too. -/
def mergesInto (g : Group) (pc : DWord) (inspan : Bool) (f : Fresh) (kr : Nat × Nat × Record) : Bool :=
  let r := kr.2.2
  kr.2.1 = g.id && r.pc = pc.setWidth 55 && r.key = freshKey f &&
    (r.inst = f.inst.getD g.retired || r.inspan = inspan && r.gorigin = f.gorigin)

/-- R43: the record of new poison, of `n` occurrences the first of which is `f`. -/
def Record.first (g : Group) (w : WG) (pc : DWord) (inspan : Bool) (f : Fresh) (n : Nat) : Record :=
  { regs := f.regs, inst := f.inst.getD g.retired, inspan := inspan, cause := f.cause,
    count := BitVec.ofNat 16 (min n 0xFFFF), slot := groupSlot g, thread := BitVec.ofNat 7 f.t,
    quad := BitVec.ofNat 2 w.quad, core := BitVec.ofNat 7 w.core, write := f.write, pc := pc.setWidth 55,
    avalid := f.addr.isSome, addr := (f.addr.getD 0).setWidth 55, gorigin := f.gorigin }

/-- R44: a record after `n` more occurrences: the count rises. A lower thread of the instruction that made the record becomes
the one that it names. -/
def Record.merged (r new : Record) (n : Nat) : Record :=
  let r' := if r.inst = new.inst && new.thread < r.thread then new else r
  { r' with count := BitVec.ofNat 16 (min (r.count.toNat + n) 0xFFFF), regs := (r.regs ++ new.regs).eraseDups }

/-- R43: the entry that a new record takes: a free one, chosen freely when there is a choice (log entry 4): the chosen
number, or the next free entry above it. -/
def freeEntry (recs : SMap (Nat × Record)) (tick : Nat) : Option Nat :=
  if recs.length ≥ 1023 then none
  else
    let k := Config.entryChoice tick % 1023
    ((List.range 1023).map fun j => (k + j) % 1023).find? fun e => (sfind recs e).isNone

/-- R45: `n` occurrences that found no entry are lost: they are counted, and raise side-table-overflow events. -/
def loseRecord (s : State) (gid core : Nat) (pc : DWord) (cause : Cause) (n : Nat) : State :=
  let side : Side := sget {} s.exe.sides core
  let side' := { side with lost := side.lost + BitVec.ofNat 64 n, lostMask := side.lostMask ||| (1#64 <<< cause.toNat) }
  raiseGroup { s with exe := { s.exe with sides := sput {} s.exe.sides core side' } } gid 17 0 n (poisonInfo pc 0x3FF cause)

/-- R43, R44: where the record of `n` threads of one instruction goes, the lowest of which is `f`: into one that it merges with,
or into a free entry. None: no entry is free. -/
def enterRecord (recs : SMap (Nat × Record)) (tick : Nat) (g : Group) (w : WG) (pc : DWord) (inspan : Bool) (f : Fresh) (n : Nat) :
    Option (Nat × SMap (Nat × Record)) :=
  let new := Record.first g w pc inspan f n
  match recs.find? (mergesInto g pc inspan f) with
  | some (e, o, r) => some (e, sins recs e (o, r.merged new n))
  | none => (freeEntry recs tick).map fun e => (e, sins recs e (g.id, new))

/-- R43, R395: the records among which a group's new record goes: those of its core, or those of its image; and how they are
put back. -/
def recordsOf (s : State) (g : Group) : Option (WG × SMap (Nat × Record) × (SMap (Nat × Record) → State)) :=
  match s.wg g.wg with
  | some w =>
    let side : Side := sget {} s.exe.sides w.coreNo
    some (w, side.recs, fun recs => { s with exe := { s.exe with sides := sput {} s.exe.sides w.coreNo { side with recs := recs } } })
  | none => (s.host.images.find? fun i => i.wg.id = g.wg).map fun i =>
    (i.wg, i.records, fun recs => { s with host := { s.host with images := s.host.images.map fun x =>
      if x.serial = i.serial then { x with records := recs } else x } })

/-- R43 to R45, R443: one record for `n` threads of one instruction, the lowest of which is `f`: merged into an existing record,
or in a free entry, or lost in the overflow record, which raises a side-table-overflow event. Poison of an invalid or denied page
raises a translation-invalid event too. -/
def newRecord (s : State) (gid : Nat) (pc : DWord) (inspan : Bool) (f : Fresh) (n : Nat) : Token × State :=
  match findGroup s gid with
  | none => (0x3FF, s)
  | some g =>
  match recordsOf s g with
  | none => (0x3FF, s)
  | some (w, recs, put) =>
    let (tok, s) : Token × State := match enterRecord recs s.ctl.tick g w pc inspan f n with
      | some (e, recs) => (BitVec.ofNat 10 e, (put recs).bump)
      | none => (0x3FF, loseRecord s gid w.coreNo pc f.cause n)
    (tok, if f.cause = causeInvalid || f.cause = causeDenied then raiseGroup s gid 12 0 n (poisonInfo pc tok f.cause) else s)

/-- R44: the occurrences of one instruction that share a record, as its first: the lowest thread's, with all the registers
found empty. -/
def lowestOf (f : Fresh) (fs : List Fresh) : Fresh :=
  let low := fs.foldl (fun m x => if x.t < m.t then x else m) f
  { low with regs := fs.flatMap (·.regs) }

/-- R44: the records of one instruction: occurrences with one key share a record, which names the lowest thread and counts
the threads. Gives every occurrence its token. -/
def newRecords (s : State) (gid : Nat) (pc : DWord) (inspan : Nat → Bool) (fs : List Fresh) :
    List (Fresh × Token) × State :=
  fs.foldl (fun acc f =>
    match acc.1.find? fun gt => freshKey gt.1 = freshKey f with
    | some gt => (acc.1 ++ [(f, gt.2)], acc.2)
    | none =>
      let mine := fs.filter fun g => freshKey g = freshKey f
      let low := lowestOf f mine
      let (tok, s) := newRecord acc.2 gid pc (inspan low.t) low (mine.map (·.t)).eraseDups.length
      (acc.1 ++ [(f, tok)], s)) ([], s)

/-- R199, R200: the record that a token names now, if the entry holds a valid one. -/
def recordAt (s : State) (core : Nat) (tok : Token) : Option Record :=
  if tok = 0x3FF then none else (sfind (sget ({} : Side) s.exe.sides core).recs tok.toNat).map (·.2)

/-- R60, R199: the record that a token of a group names now, resident or saved. -/
def recordFor (s : State) (gid : Nat) (tok : Token) : Option Record :=
  if tok = 0x3FF then none
  else (findGroup s gid).bind fun g => (recordsOf s g).bind fun x => (sfind x.2.1 tok.toNat).map (·.2)

/-- R66, R443: counts poison dropped; the record names the first token. -/
def dropped (s : State) (gid : Nat) (pc : DWord) (toks : List Token) : State :=
  match s.group gid with
  | none => s
  | some g =>
    let tok := toks.headD 0
    let cause := ((s.wg g.wg).bind fun w => recordAt s w.coreNo tok).elim (0 : Cause) (·.cause)
    raiseGroup s gid 18 0 toks.length (poisonInfo pc tok cause)

/-- R66, R443: counts poison kept; the record names the first token. -/
def kept (s : State) (gid : Nat) (pc : DWord) (toks : List Token) : State :=
  match s.group gid with
  | none => s
  | some g =>
    let tok := toks.headD 0
    let cause := ((s.wg g.wg).bind fun w => recordAt s w.coreNo tok).elim (0 : Cause) (·.cause)
    raiseGroup s gid 19 0 toks.length (poisonInfo pc tok cause)

/-- R46: the records of a group made in a span are freed. -/
def freeInspan (s : State) (gid : Nat) : State :=
  { s with exe := { s.exe with sides := s.exe.sides.map fun ks =>
      (ks.1, { ks.2 with recs := ks.2.recs.filter fun kr => !(kr.2.1 = gid && kr.2.2.inspan) }) } }

/-- R52: the global origin of poison that a core stores: package, quadrant, core, token and cause. -/
def originOf (s : State) (w : WG) (tok : Token) : Word :=
  let cause : Cause := match recordAt s w.coreNo tok with
    | some r => r.cause
    | none => 0
  BitVec.ofNat 7 (nodeNo s) ++ BitVec.ofNat 2 w.quad ++ BitVec.ofNat 7 w.core ++ tok ++ cause

end Sys2Proof.Machine
end

