-- ==== Sys2Proof/Machine/Operands.lean ====
section
/-!
DEFINITION. Operand forms: which threads execute (R12, R165, R344), how a source is read (R40, R156, R157, R161, R193),
how a destination is written (R41, R162), and the one pipeline through which the instructions of the arithmetic chapter
run (R219): checks 5 to 7, waits, poison by operand order (R48), records (R44), the shadow check (R433), and the writes.
-/

namespace Sys2Proof.Machine

/-! ## Mode fields (R164) -/

/-- R164: the guard predicate's number. -/
def mGuard (m : BitVec 16) : Nat := (m.extractLsb' 13 3).toNat
/-- R164: sense. -/
def mSense (m : BitVec 16) : Bool := m.getLsbD 12
/-- R164: type. -/
def mType (m : BitVec 16) : Nat := (m.extractLsb' 9 3).toNat
/-- R164: rounding. -/
def mRound (m : BitVec 16) : Nat := (m.extractLsb' 7 2).toNat
/-- R164: saturation. -/
def mSat (m : BitVec 16) : Bool := m.getLsbD 6
/-- R164: flushing. -/
def mFtz (m : BitVec 16) : Bool := m.getLsbD 5
/-- R164: melded path k is enabled. -/
def mPath (m : BitVec 16) (k : Nat) : Bool := m.getLsbD (3 + k)

/-! ## Executing threads -/

/-- R165: the path field enables a thread; outside a melded region it has no effect. -/
def enabled (p : Path) (t : Nat) : Bool :=
  match p.meld with
  | none => true
  | some m => mPath p.mode (if m.getLsbD t then 1 else 0)

/-- The active threads of a path that its path field enables. -/
def enabledThreads (p : Path) : List Nat := (threadsOf p.mask).filter (enabled p)

/-- R161: the guard predicate is full in every thread that reads it. -/
def guardFull (g : Group) (p : Path) : Bool :=
  mGuard p.mode = 0 || (enabledThreads p).all fun t => (pGet g (mGuard p.mode) t).full

/-- R165, R49: the threads that a vector instruction executes for, with the token of a poisoned guard. -/
def vecThreads (g : Group) (p : Path) : List (Nat × Option Token) :=
  (enabledThreads p).filterMap fun t =>
    let q := pGet g (mGuard p.mode) t
    if q.poi then some (t, some q.tok) else if q.val != mSense p.mode then some (t, none) else none

/-- R12, R344: a uniform instruction executes once: with a poisoned guard if one is, else if a guard is true. The thread
is the lowest-numbered one concerned. -/
def uniThreads (g : Group) (p : Path) : List (Nat × Option Token) :=
  match (vecThreads g p).find? (·.2.isSome) with
  | some x => [x]
  | none => (vecThreads g p).take 1

/-- The executions of an instruction: threads with the token of their guard where it is poisoned. -/
def execThreads (unif : Bool) (g : Group) (p : Path) : List (Nat × Option Token) :=
  if unif then uniThreads g p else vecThreads g p

/-- R235: SEL executes for every active thread that the path field enables. -/
def allThreads (p : Path) : List (Nat × Option Token) := (enabledThreads p).map fun t => (t, none)

/-! ## Registers -/

/-- R156: the register files. -/
inductive File where
  | v | s | p | x
  deriving DecidableEq, Repr

/-- The number of a file in records and destinations. -/
def File.no : File → Nat
  | .v => 0 | .s => 1 | .p => 2 | .x => 3

/-- The v file for a vector form and the s file for a uniform one (R219, R253). -/
def fileOf (unif : Bool) : File := if unif then .s else .v

/-- R193: the first matching entry of the rename table. -/
def renameLookup (ren : SMap Rename) (n : Nat) : Nat :=
  match ren.find? fun r => r.2.src.toNat = n with
  | some r => r.2.dst.toNat
  | none => n

/-- R193: the v-register that a name means for a thread. -/
def resolve (g : Group) (p : Path) (n t : Nat) : Nat :=
  match p.meld with
  | none => n
  | some m => if m.getLsbD t then renameLookup g.ren n else n

/-- A source operand: file, first register, E bit, number of registers. -/
structure Src where
  file : File
  reg : Nat
  e : Bool := false
  n : Nat := 1
  deriving DecidableEq, Repr

/-- A destination: file, first register, number of registers. -/
structure Dst where
  file : File
  reg : Nat
  n : Nat := 1
  deriving DecidableEq, Repr

/-- What a source reads as in a thread. -/
inductive SrcVal where
  | words (ws : List Word)
  | poison (tok : Token)
  | empty
  deriving DecidableEq, Repr

/-- The registers of a v or s operand. -/
def regsOf (g : Group) (p : Path) (f : File) (reg n t : Nat) : List Reg :=
  match f with
  | .v => let r := resolve g p reg t; (List.range n).map fun k => vGet g (r + k) t
  | .s => (List.range n).map fun k => sGet g (reg + k)
  | .p => let q := pGet g reg t; [{ val := if q.poi then q.tok.setWidth 32 else bitW q.val, full := q.full, poi := q.poi }]
  | .x => let q := xGet g reg t
          [{ val := if q.poi then q.tok.setWidth 32 else (q.bound ++ q.base).setWidth 32, poi := q.poi }]

/-- R161: a source is full in a thread. -/
def srcFull (g : Group) (p : Path) (x : Src) (t : Nat) : Bool := (regsOf g p x.file x.reg x.n t).all (·.full)

/-- R161: a source read with E = 0 is full in the threads given. -/
def srcReady (g : Group) (p : Path) (x : Src) (ts : List Nat) : Bool := x.e || ts.all (srcFull g p x)

/-- R161, R41, R48: a source's value in a thread; a pair with a poisoned half is poisoned whole, a pair with an empty
half reads empty. -/
def readSrc (g : Group) (p : Path) (x : Src) (t : Nat) : SrcVal :=
  let rs := regsOf g p x.file x.reg x.n t
  if rs.all (·.full) then
    match rs.find? (·.poi) with
    | some r => .poison (r.val.setWidth 10)
    | none => .words (rs.map (·.val))
  else .empty

/-- R62: the empty registers among those of an operand. -/
def emptyRegs (g : Group) (p : Path) (x : Src) (t : Nat) : List RegName :=
  let base := if x.file = .v then resolve g p x.reg t else x.reg
  (((regsOf g p x.file x.reg x.n t).zip (List.range x.n)).filter (!·.1.full)).map fun rk =>
    ⟨x.file.no, base + rk.2, t⟩

/-- R48: the record of an E = 1 read of an empty source. -/
def emptyRead (g : Group) (p : Path) (x : Src) (t : Nat) : Fresh :=
  { t := t, cause := causeEmptyRead, regs := (emptyRegs g p x t).map fun r => (t, r) }

/-- R162: a destination is full in a thread. A write to p0 never waits. -/
def dstFull (g : Group) (p : Path) (d : Dst) (t : Nat) : Bool :=
  (d.file = .p && d.reg = 0) || (regsOf g p d.file d.reg d.n t).all (·.full)

/-- R22, R157: the v-registers of an operand lie below the budget. -/
def inBudget (g : Group) (f : File) (reg n : Nat) : Bool := f ≠ .v || reg + n ≤ 8 * g.budget

/-- R193: a v pair's even name resolves to an even name, in every thread of melded path 1; wider groups keep their
boundary in the same way. -/
def renameOk (g : Group) (p : Path) (f : File) (reg n : Nat) : Bool :=
  match p.meld with
  | none => true
  | some _ => f ≠ .v || n = 1 || renameLookup g.ren reg % 2 = 0

/-! ## Results -/

/-- What an execution gives its destination. -/
inductive ThreadOut where
  | keep
  | words (ws : List Word)
  | bool (b : Bool)
  | idx (base bound : BitVec 8)
  | tok (tok : Token)
  | fresh (f : Fresh)
  deriving DecidableEq, Repr

/-- Writes one result into the registers of a destination (R40, R41). -/
def writeOut (p : Path) (d : Dst) (g : Group) (t : Nat) : ThreadOut → Group
  | .words ws =>
    let base := if d.file = .v then resolve g p d.reg t else d.reg
    (ws.zip (List.range ws.length)).foldl (fun g wk =>
      match d.file with
      | .v => vSet g (base + wk.2) t { val := wk.1 }
      | _ => sSet g (base + wk.2) { val := wk.1 }) g
  | .bool b => pSet g d.reg t { val := b }
  | .idx b e => xSet g d.reg t { base := b, bound := e }
  | .tok k =>
    match d.file with
    | .p => pSet g d.reg t { poi := true, tok := k }
    | .x => xSet g d.reg t { poi := true, tok := k }
    | .v =>
      let base := resolve g p d.reg t
      (List.range d.n).foldl (fun g n => vSet g (base + n) t { val := k.setWidth 32, poi := true }) g
    | .s => (List.range d.n).foldl (fun g n => sSet g (d.reg + n) { val := k.setWidth 32, poi := true }) g
  | _ => g

/-- R44, R48: gives every new poison of an instruction its record; the results then hold tokens. `late` are empty reads whose
poison reaches no result (R339). -/
def settle (s : State) (h : Here) (outs : List (Nat × ThreadOut)) (late : List Fresh := []) :
    List (Nat × ThreadOut) × State :=
  let fs := (outs.filterMap fun o => match o.2 with | .fresh f => some f | _ => none) ++ late
  if fs.isEmpty then (outs, s) else
  let (ts, s) := newRecords s h.g.id h.p.pc (h.g.span.opened.getLsbD ·) fs
  (outs.map fun o => match o.2 with
    | .fresh f => (o.1, match ts.find? (·.1 = f) with | some ft => .tok ft.2 | none => .keep)
    | _ => o, s)

/-- Writes the results of an instruction. -/
def writeAll (s : State) (h : Here) (d : Dst) (outs : List (Nat × ThreadOut)) : State :=
  s.modGroup h.g.id fun g => outs.foldl (fun g o => writeOut h.p d g o.1 o.2) g

/-! ## The pipeline -/

/-- An instruction of the common mould: uniform or vector, the threads, sources in operand order a, b, d, destination, the
types it accepts (R221), whether its result is checked by the shadow unit (R432), and its effect on clean sources. -/
structure AluOp where
  unif : Bool
  sel : Bool := false
  srcs : List Src
  dst : Dst
  typeOk : Bool := true
  float : Bool := false
  f : Nat → List (List Word) → ThreadOut

/-- R48: the sources of an execution in operand order: the first poisoned or empty one decides, else all values. -/
def gather (g : Group) (p : Path) (t : Nat) : List Src → Sum ThreadOut (List (List Word))
  | [] => .inr []
  | x :: xs =>
    match readSrc g p x t with
    | .poison k => .inl (.tok k)
    | .empty => .inl (.fresh (emptyRead g p x t))
    | .words ws =>
      match gather g p t xs with
      | .inl o => .inl o
      | .inr vs => .inr (ws :: vs)

/-- R161, R339: the E = 1 reads of empty sources that stand behind the source that decides: they make records, though their
poison reaches no result. -/
def lateReads (g : Group) (p : Path) (t : Nat) : List Src → List Fresh
  | [] => []
  | x :: xs =>
    match readSrc g p x t with
    | .words _ => lateReads g p t xs
    | _ => (xs.filter fun y => readSrc g p y t = .empty).map (emptyRead g p · t)

/-- R433: a mismatch of the shadow unit poisons the value of a thread (log entry 11); poison passes no shadow unit. -/
def shadowed (s : State) (float : Bool) (t : Nat) : ThreadOut → ThreadOut
  | .words ws => if float && s.ctl.shadow.contains t then .fresh { t := t, cause := causeShadow } else .words ws
  | o => o

/-- R433: the threads of an instruction whose result failed its shadow check. -/
def mismatches (outs : List (Nat × ThreadOut)) : List Nat := outs.filterMap fun o => match o.2 with
  | .fresh f => if f.cause = causeShadow then some o.1 else none
  | _ => none

/-- R433, R443: the mismatches of an instruction are counted and used up; the record names the token of their record. `outs` are the
results before they got their records, `made` those after. -/
def countShadow (s : State) (h : Here) (outs made : List (Nat × ThreadOut)) : State :=
  let ts := mismatches outs
  if ts.isEmpty then s
  else
    let tok := (made.findSome? fun o => if ts.contains o.1 then (match o.2 with | .tok k => some k | _ => none) else none).getD 0x3FF
    raiseGroup { s with ctl := { s.ctl with shadow := s.ctl.shadow.filter fun t => !ts.contains t } } h.g.id 8 0 ts.length
      (poisonInfo h.p.pc tok causeShadow)

/-- R177: checks 5 and 7 for register operands: none, or the reason. -/
def operandCheck (h : Here) (srcs : List Src) (dst : Option Dst) (typeOk : Bool) : Option Nat :=
  if !(srcs.all fun x => inBudget h.g x.file x.reg x.n) || !(dst.all fun d => inBudget h.g d.file d.reg d.n) then some 5
  else if !typeOk || !(srcs.all fun x => renameOk h.g h.p x.file x.reg x.n) ||
      !(dst.all fun d => renameOk h.g h.p d.file d.reg d.n) then some 7
  else none

/-- R161, R162: guard, destination and E = 0 sources are full in the threads concerned. -/
def operandsReady (h : Here) (ths : List (Nat × Option Token)) (srcs : List Src) (dst : Option Dst) : Bool :=
  guardFull h.g h.p && (dst.all fun d => ths.all fun t => dstFull h.g h.p d t.1) &&
    srcs.all fun x => srcReady h.g h.p x ((ths.filter (·.2.isNone)).map (·.1))

/-- R48, R49: the result of one execution. -/
def aluOut (s : State) (h : Here) (op : AluOp) (t : Nat) (guard : Option Token) : ThreadOut :=
  match guard with
  | some k => .tok k
  | none =>
    match gather h.g h.p t op.srcs with
    | .inl o => o
    | .inr vs => shadowed s op.float t (op.f t vs)

/-- The threads for which an operation of the mould executes. -/
def aluThreads (h : Here) (op : AluOp) : List (Nat × Option Token) :=
  if op.sel then allThreads h.p else execThreads op.unif h.g h.p

/-- R161, R339: the empty reads of an operation of the mould that decide no result. -/
def aluLate (h : Here) (op : AluOp) (ths : List (Nat × Option Token)) : List Fresh :=
  (ths.filter (·.2.isNone)).flatMap fun t => lateReads h.g h.p t.1 op.srcs

/-- The effect of an operation of the mould once nothing is left to check or to wait for. -/
def aluEffect (s : State) (h : Here) (op : AluOp) : State :=
  let ths := aluThreads h op
  let outs := ths.map fun t => (t.1, aluOut s h op t.1 t.2)
  let (made, s1) := settle s h outs (aluLate h op ths)
  retire (writeAll (countShadow s1 h outs made) h op.dst made) h

/-- R219: an instruction of the common mould. -/
def alu (i : Instr) (s : State) (h : Here) (op : AluOp) : Result :=
  match operandCheck h op.srcs (some op.dst) op.typeOk with
  | some r => reject s h i r
  | none =>
    if operandsReady h (aluThreads h op) op.srcs (some op.dst) then .next (aluEffect s h op) else .next (stall s)

end Sys2Proof.Machine
end

