-- ==== Sys2Proof/Machine/Flags.lean ====
section
/-!
DEFINITION. Typed results and conditions: the fit of R222 element by element, the arithmetic of R223 to R229, the
comparison conditions of R237 and the classes of R239.
-/

namespace Sys2Proof.Machine

/-- R107: the integer types. -/
def isInt (ty : Nat) : Bool := ty = 0 || ty = 1 || ty = 4 || ty = 5
/-- R107: i32 and i16x2 are signed. -/
def isSigned (ty : Nat) : Bool := ty = 0 || ty = 4
/-- R107: the packed types. -/
def isPacked (ty : Nat) : Bool := 3 ≤ ty
/-- The width of an element. -/
def elemWidth (ty : Nat) : Nat := if isPacked ty then 16 else 32
/-- The floating format of a type. -/
def fmtOf (ty : Nat) : Fmt := if ty = 2 then fp32 else bf16
/-- The elements of a register under a type: one or two. -/
def elems (ty : Nat) (a : Word) : List Nat :=
  if isPacked ty then [(a.extractLsb' 0 16).toNat, (a.extractLsb' 16 16).toNat] else [a.toNat]
/-- A register from its elements. -/
def ofElems (ty : Nat) (l : List Nat) : Word :=
  if isPacked ty then (BitVec.ofNat 16 (l.getD 1 0) ++ BitVec.ofNat 16 (l.getD 0 0)) else BitVec.ofNat 32 (l.getD 0 0)

/-- The rounding, saturation and flushing of an operation. -/
structure Rnd where
  mode : Nat
  sat : Bool
  ftz : Bool
  deriving DecidableEq, Repr

/-- R164: those of the mode register. -/
def rndOf (m : BitVec 16) : Rnd := ⟨mRound m, mSat m, mFtz m⟩

/-- R223, R224: the two-operand operations. -/
inductive BinOp where
  | add | sub | mul | min | max | div | mulhi | rem
  deriving DecidableEq, Repr

/-- R226: truncated quotient. -/
def truncDiv (a b : Int) : Int := Int.tdiv a b
/-- R226: the rest has the sign of the dividend. -/
def truncRem (a b : Int) : Int := Int.tmod a b

/-- R223, R224, R226: an integer operation on two elements of width w; none is division by zero. -/
def intBin (op : BinOp) (signed sat : Bool) (w a b : Nat) : Option Nat :=
  let x := intVal signed w a
  let y := intVal signed w b
  match op with
  | .add => some (fitInt signed sat w (x + y))
  | .sub => some (fitInt signed sat w (x - y))
  | .mul => some (fitInt signed sat w (x * y))
  | .min => some (if x ≤ y then a else b)
  | .max => some (if y ≤ x then a else b)
  | .div => if y = 0 then none else some (fitInt signed sat w (truncDiv x y))
  | .rem => if y = 0 then none else some (fitInt signed sat w (truncRem x y))
  | .mulhi => some (fitInt signed false w (x * y / (2 ^ w : Nat)))

/-- R224: whether the first of two floating operands is the lesser, −0 below +0. -/
def fltMinLt (x y : FVal) (xneg : Bool) : Bool := FVal.lt x y || (FVal.eq x y && xneg)

/-- R224: MIN or MAX of two floating elements: an operand unchanged but for flushing, or the default NaN. -/
def fltMinMax (f : Fmt) (ftz isMin : Bool) (a b : Nat) : Nat :=
  let x := f.decode ftz a
  let y := f.decode ftz b
  let flush (bits : Nat) (v : FVal) : Nat := if v = .fin (f.signBit ≤ bits) 0 1 then f.pack (f.signBit ≤ bits) 0 else bits
  if x = .nan then (if y = .nan then f.nan else flush b y)
  else if y = .nan then flush a x
  else if fltMinLt x y (f.signBit ≤ a) = isMin then flush a x else flush b y

/-- R223, R224, R226: a floating operation on two elements. -/
def fltBin (op : BinOp) (f : Fmt) (r : Rnd) (a b : Nat) : Nat :=
  let x := f.decode r.ftz a
  let y := f.decode r.ftz b
  let fin := x.isFinite && y.isFinite
  match op with
  | .add => f.fit r.mode r.sat r.ftz fin (x.add r.mode y)
  | .sub => f.fit r.mode r.sat r.ftz fin (x.add r.mode y.neg)
  | .mul => f.fit r.mode r.sat r.ftz fin (x.mul y)
  | .div => f.fit r.mode r.sat r.ftz fin (x.div y)
  | .min => fltMinMax f r.ftz true a b
  | .max => fltMinMax f r.ftz false a b
  | _ => f.nan

/-- An element-by-element operation; none when an element has none. -/
def elementwise (ty : Nat) (f : Nat → Nat → Option Nat) (a b : Word) : Option Word :=
  (((elems ty a).zip (elems ty b)).mapM fun xy => f xy.1 xy.2).map (ofElems ty)

/-- R223, R224, R226: a two-operand operation under a type; none is division of an integer by zero. -/
def binTyped (op : BinOp) (ty : Nat) (r : Rnd) (a b : Word) : Option Word :=
  elementwise ty (fun x y =>
    if isInt ty then intBin op (isSigned ty) r.sat (elemWidth ty) x y else some (fltBin op (fmtOf ty) r x y)) a b

/-- R223: a × b + d with one rounding. -/
def fmaTyped (ty : Nat) (r : Rnd) (a b d : Word) : Word :=
  let one (x y z : Nat) : Nat :=
    if isInt ty then
      let s := isSigned ty
      let w := elemWidth ty
      fitInt s r.sat w (intVal s w x * intVal s w y + intVal s w z)
    else
      let f := fmtOf ty
      let u := f.decode r.ftz x
      let v := f.decode r.ftz y
      let c := f.decode r.ftz z
      f.fit r.mode r.sat r.ftz (u.isFinite && v.isFinite && c.isFinite) ((u.mul v).add r.mode c)
  ofElems ty (((elems ty a).zip ((elems ty b).zip (elems ty d))).map fun t => one t.1 t.2.1 t.2.2)

/-- R225: NEG and ABS. -/
def negAbsTyped (isNeg : Bool) (ty : Nat) (sat : Bool) (a : Word) : Word :=
  let one (x : Nat) : Nat :=
    if isInt ty then
      let v := intVal (isSigned ty) (elemWidth ty) x
      fitInt (isSigned ty) sat (elemWidth ty) (if isNeg then -v else (v.natAbs : Int))
    else
      let f := fmtOf ty
      if isNeg then (if f.signBit ≤ x then x - f.signBit else x + f.signBit) else x % f.signBit
  ofElems ty ((elems ty a).map one)

/-- R228: a function under f32 or bf16x2. RCP and SQRT round in mode.round; the others to nearest even, and under bf16x2
their FP32 result is rounded to BF16. -/
def sfTyped (fn : SfFn) (ty : Nat) (r : Rnd) (a : Word) : Word :=
  let f := fmtOf ty
  let exactRound := fn = .rcp || fn = .sqrt
  let one (x : Nat) : Nat :=
    let v := f.decode r.ftz x
    let y := fn.eval v
    if exactRound then f.fit r.mode r.sat r.ftz v.isFinite y
    else if ty = 2 then f.fit 0 r.sat r.ftz v.isFinite y
    else
      let z := fp32.decode false (fp32.fit 0 r.sat false v.isFinite y)
      f.fit 0 r.sat r.ftz v.isFinite z
  ofElems ty ((elems ty a).map one)

/-- R223, R238: imm8 as an element of a type: sign-extended under i32 and i16x2, zero-extended under n32 and n16x2,
sign-extended and converted exactly under a floating type. -/
def immElem (ty : Nat) (i : BitVec 8) : Nat :=
  if isInt ty then
    (if isSigned ty then (i.signExtend (elemWidth ty)).toNat else i.toNat)
  else (fmtOf ty).fit 0 false false true (.ofInt i.toInt)

/-- R223, R238: imm8 in every element of a register. -/
def immWord (ty : Nat) (i : BitVec 8) : Word := ofElems ty [immElem ty i, immElem ty i]

/-- R237: a condition on two values with a given order, equality and orderedness. -/
def condition (c : Nat) (lt eq ordered : Bool) : Bool :=
  match c with
  | 0 => eq
  | 1 => !eq
  | 2 => lt
  | 3 => lt || eq
  | 4 => ordered && !lt && !eq
  | 5 => ordered && !lt
  | 6 => ordered
  | _ => !ordered

/-- R237: CMP of two registers under a type: the condition holds in every element. -/
def compareTyped (c ty : Nat) (ftz : Bool) (a b : Word) : Bool :=
  ((elems ty a).zip (elems ty b)).all fun xy =>
    if isInt ty then
      let x := intVal (isSigned ty) (elemWidth ty) xy.1
      let y := intVal (isSigned ty) (elemWidth ty) xy.2
      condition c (x < y) (x = y) true
    else
      let x := (fmtOf ty).decode ftz xy.1
      let y := (fmtOf ty).decode ftz xy.2
      condition c (FVal.lt x y) (FVal.eq x y) (x ≠ .nan && y ≠ .nan)

/-- R239: the bit of the class of an element. -/
def classBit (ty : Nat) (ftz : Bool) (x : Nat) : Nat :=
  if isInt ty then
    let v := intVal (isSigned ty) (elemWidth ty) x
    if v = 0 then 4 else if v < 0 then 2 else 6
  else
    let f := fmtOf ty
    let neg := f.signBit ≤ x
    let mag := x % f.signBit
    if f.inf < mag then 0
    else if mag = f.inf then (if neg then 1 else 7)
    else if mag = 0 then 4
    else if mag < 2 ^ f.frac then (if ftz then 4 else if neg then 3 else 5)
    else (if neg then 2 else 6)

/-- R239: CLASS of a register: every element's class is in the mask. -/
def classTyped (ty : Nat) (ftz : Bool) (m : BitVec 8) (a : Word) : Bool := (elems ty a).all fun x => m.getLsbD (classBit ty ftz x)

/-! ## Logic, shifts and fields -/

/-- R231: the shifts by an amount k. -/
inductive ShiftOp where
  | shl | shr | sar | rot
  deriving DecidableEq, Repr

/-- R231: a shift by an unsigned amount. -/
def shiftWord (op : ShiftOp) (a : Word) (k : Nat) : Word :=
  match op with
  | .shl => if 32 ≤ k then 0 else a <<< k
  | .shr => if 32 ≤ k then 0 else a >>> k
  | .sar => a.sshiftRight (min k 31)
  | .rot => a.rotateLeft (k % 32)

/-- R232: position and length of a control word. -/
def fieldOf (b : Word) : Nat × Nat :=
  let pos := (b.extractLsb' 0 5).toNat
  (pos, min (min (b.extractLsb' 8 6).toNat 32) (32 - pos))

/-- R232: BFX. -/
def bfxWord (a b : Word) : Word :=
  let (pos, n) := fieldOf b
  if n = 0 then 0
  else
    let x := (a.toNat / 2 ^ pos) % 2 ^ n
    if b.getLsbD 16 && 2 ^ (n - 1) ≤ x then BitVec.ofInt 32 ((x : Int) - (2 ^ n : Nat)) else BitVec.ofNat 32 x

/-- R232: BFI. -/
def bfiWord (a b d : Word) : Word :=
  let (pos, n) := fieldOf b
  let mask : Word := BitVec.ofNat 32 ((2 ^ n - 1) * 2 ^ pos)
  (d &&& ~~~mask) ||| ((a <<< pos) &&& mask)

/-- R233: the number of set bits. -/
def popWord (a : Word) : Nat := ((List.range 32).filter (a.getLsbD ·)).length
/-- R233: leading zeros. -/
def clzWord (a : Word) : Nat := if a = 0 then 32 else 31 - a.toNat.log2
/-- R233: trailing zeros. -/
def ctzWord (a : Word) : Nat := ((List.range 32).find? (a.getLsbD ·)).getD 32
/-- R233: bit i goes to bit 31 − i. -/
def brevWord (a : Word) : Word := a.reverse

/-! ## Packing -/

/-- R242: PACK2: none of its conversions gives CONVERT_RANGE. -/
def packTyped (ty : Nat) (r : Rnd) (a b : Word) : Word :=
  let one (x : Word) : Nat :=
    match ty with
    | 3 => let v := fp32.decode r.ftz x.toNat; bf16.fit r.mode r.sat r.ftz v.isFinite v
    | 4 => fitInt true r.sat 16 x.toInt
    | _ => fitInt false r.sat 16 x.toNat
  ofElems ty [one a, one b]

/-- R243: UNPK2: one element widened. -/
def unpackTyped (ty : Nat) (ftz : Bool) (a : Word) (k : Bool) : Word :=
  let x : BitVec 16 := if k then a.extractLsb' 16 16 else a.extractLsb' 0 16
  match ty with
  | 3 => let v := bf16.decode ftz x.toNat
         match v with
         | .nan => BitVec.ofNat 32 fp32.nan
         | .fin _ 0 _ => (x &&& 0x8000#16).setWidth 32 <<< 16
         | _ => x.setWidth 32 <<< 16
  | 4 => x.signExtend 32
  | _ => x.setWidth 32

end Sys2Proof.Machine
end

