-- ==== Sys2Proof/Machine/Translate.lean ====
section
/-!
DEFINITION. Physical memory as the package decodes it (R380, R381), fabric windows (R410, R411), page tables, TLBs and
the checks of an access (R382 to R386, R255), what a write records (R389, R390, R429), detected ECC errors (R54) and the
CXL bridge (R367, R368).
-/

namespace Sys2Proof.Machine

/-- R434, R435, R438: the event source of memory at a physical address. -/
def memSource (pa : Nat) : Nat :=
  match regionOf pa with
  | .near _ => 3
  | .far _ => 4
  | .host => 6
  | _ => 5

/-! ## Fabric windows -/

/-- R410: the node and the address on it that a window address reaches; none when its slice is not valid. -/
def windowOf (s : State) (pa : Nat) : Option (Nat × Nat) :=
  match regionOf pa with
  | .window k =>
    let e := s.mgmt64 (0x8000 + 8 * k)
    if e.getLsbD 63 then
      some ((e.extractLsb' 12 12).toNat, (e.extractLsb' 0 12).toNat * 0x10000000000 + pa % 0x10000000000)
    else none
  | _ => none

/-- R411: the chord that carries traffic to a node; none gives LINK_LOST. -/
def routeTo (s : State) (node : Nat) : Option Nat :=
  let r := s.mgmt (0xC000 + 4 * node)
  let c := (r.extractLsb' 0 6).toNat
  if r.getLsbD 31 && node ≠ nodeNo s && (sget ({} : Chord) s.host.chords c).state = 2 then some c else none

/-! ## Errors detected by a read -/

/-- R4, R442: the place of memory: that of a quadrant, or none. -/
def memoryLoc (a : Nat) : BitVec 14 :=
  match regionOf a with
  | .near q => quadLoc q
  | _ => 0x3FFF

/-- R74, R106: the slice of its home quadrant that a line is homed on (log entry 68). -/
def homeSlice (a : Nat) : Nat := Config.homeSlice (lineOf a) % 48

/-- R54, R434, R435, R442, R443: the event of an uncorrectable error in a word, with the quadrant that detects it: in a scratchpad, in a
cache or in near or far memory. A word of host memory or of another package can only be wrong in a slice's copy. Without a
context it counts for the partition that owns the memory (R438). -/
def eccEvent (s : State) (ctx : Option Nat) (part a : Nat) : Nat × Ev :=
  let e : Ev := { cls := 3, src := 1, ctx := ctx, part := if ctx.isNone then ownerOf s a else some part, info := [BitVec.ofNat 64 a] }
  if 0x10000000000000 ≤ a then
    let k := a - 0x10000000000000
    let w := s.wg (k / 0x100000)
    (w.elim 0 (·.quad), { e with cls := 5, src := 0, part := some part, loc := w.elim 0x3FFF (coreLoc · 15), info := [BitVec.ofNat 64 (k % 0x100000 / 4)]
                                 name := [0x73, 0x63, 0x72, 0x61, 0x74, 0x63, 0x68] })
  else
    let home := homeQuad s part a
    match sget 0 s.mem.ecc a with
    | 0 | 1 | 2 | 3 =>
      let slice : Nat × Ev := (home, { e with loc := quadLoc home, num := some (homeSlice a) })
      if sget 0 s.mem.ecc a = 2 then slice else match regionOf a with
        | .near _ | .far _ => (home, { e with cls := 7, src := memSource a, loc := memoryLoc a })
        | _ => slice
    | n =>
      if n < 8 then (n - 4, { e with src := 2, loc := quadLoc (n - 4) })
      else ((n - 8) / 80, { e with src := 0, loc := coreAt (n - 8) 15, name := [0x6C, 0x31] })

/-- R54, R384: a read of a word that holds an uncorrectable error: the home slice marks the word poisoned with the
detecting quadrant, core 0x7F and cause ECC_UNCORRECTABLE, and the event is counted. -/
def detectEcc (s : State) (ctx : Option Nat) (part a : Nat) : State :=
  let (quad, e) := eccEvent s ctx part a
  raise (s.withMem (setPoi { s.mem with ecc := sdel s.mem.ecc a } a true (originRaw s quad 0x7F causeEcc))) e

/-- R54: the word at an address holds an uncorrectable error. -/
def eccBad (s : State) (a : Nat) : Bool := (sfind s.mem.ecc a).isSome

/-- Marks the words of a 64-byte granule. -/
def markGranule (m : MemSys) (g : Nat) (poi : Bool) (origin : Word) : MemSys :=
  (List.range 16).foldl (fun m k => setPoi m (64 * g + 4 * k) poi origin) m

/-- R367, R368: before a device read of a host-homed word, its half is fetched by a shared read if the device does not hold
it. A half with the poison indication becomes 16 poisoned words. -/
def fetchHalf (s : State) (ctx : Option Nat) (part a : Nat) : State :=
  match regionOf a with
  | .host =>
    let g := a / 64
    let st := sget (0 : BitVec 2) s.mem.bridge (lineOf a)
    if st.getLsbD (g % 2) then s else
    let m := { s.mem with bridge := sput 0 s.mem.bridge (lineOf a) (st ||| (1#2 <<< (g % 2))) }
    let s := s.send (.cxlFetch (64 * g))
    if sget false m.hostPoi g then
      let s := s.withMem (markGranule m g true (originRaw s 0 0x7F causeRemote))
      raise s { cls := 22, src := 6, ctx := ctx, part := some part, count := 16, info := [BitVec.ofNat 64 a] }
    else s.withMem (markGranule m g false 0)
  | _ => s

/-- R367: the halves of a range are fetched from the host where they are homed there. -/
def fetchRange (s : State) (ctx : Option Nat) (part a n : Nat) : State :=
  if n = 0 then s
  else (List.range ((a + n - 1) / 64 - a / 64 + 1)).foldl (fun s k => fetchHalf s ctx part (64 * (a / 64 + k))) s

/-! ## The walk -/

/-- R383, R384: what a walk gives. -/
inductive Walked where
  | leaf (l : Leaf)
  | fail (cause : Cause) (origin : Word)
  deriving DecidableEq, Repr

/-- R384: the walk of a virtual address from a table, level by level. -/
def walkFrom (s : State) (ctx part va : Nat) : List Nat → Nat → Walked × State
  | [], _ => (.fail causeInvalid 0, s)
  | level :: rest, table =>
    let a := table + 8 * (va / 2 ^ levelShift level % 8192)
    if regionOf table = .reserved || (windowOf s table).isSome then (.fail causeInvalid 0, s) else
    let s := fetchHalf s (some ctx) part a
    if eccBad s a || eccBad s (a + 4) then
      (.fail causeEcc 0, detectEcc s (some ctx) part (if eccBad s a then a else a + 4))
    else if wordPoi s.mem a || wordPoi s.mem (a + 4) then (.fail causeRemote (lineOrigin s.mem a), s)
    else
      let e := memDWord s.mem a
      if !e.getLsbD 63 then (.fail causeInvalid 0, s) else
      match (e.extractLsb' 0 2).toNat with
      | 0 => if pointerOk e then walkFrom s ctx part va rest (entryPa e) else (.fail causeInvalid 0, s)
      | 1 =>
        if !leafOk e level then (.fail causeInvalid 0, s)
        else if !e.getLsbD 62 then (.fail causeNotPresent 0, s)
        else (.leaf ⟨a, e, level⟩, s)
      | _ => (.fail causeInvalid 0, s)

/-- R382: the walk of a virtual address of a context. -/
def walk (s : State) (ctx va : Nat) : Walked × State :=
  match s.ctx ctx with
  | none => (.fail causeInvalid 0, s)
  | some c => walkFrom s ctx c.part va [2, 1, 0] c.root.toNat

/-- R389: the bits that the device sets itself. -/
def deviceBits : DWord := 0x00E0000000000000

/-- R53, R384: changes an entry by an atomic at its home slice, which leaves a poisoned word unchanged. -/
def updateEntry (s : State) (ctx part a : Nat) (f : DWord → DWord) : State :=
  let s := fetchHalf s (some ctx) part a
  match [a, a + 4].find? (eccBad s ·) with
  | some b => detectEcc s (some ctx) part b
  | none =>
    let e := memDWord s.mem a
    if wordPoi s.mem a || wordPoi s.mem (a + 4) || f e = e then s else deviceDWord s a (f e)

/-- R384: sets bits of an entry by an atomic OR at its home slice. -/
def orEntry (s : State) (ctx part a : Nat) (bits : DWord) : State := updateEntry s ctx part a (· ||| bits)

/-- R386: a translation of a virtual page held by a core, or by a facet (`facetTlb`). -/
def tlbFind (m : MemSys) (core ctx va : Nat) : Option TlbEntry :=
  m.tlb.find? fun t => t.core = core && t.ctx = ctx && va / 2 ^ levelShift t.level = t.vpage

/-- R392: the level of the leaf through which a core has translated an address; 0 where it has not. -/
def tlbLevel (m : MemSys) (core ctx va : Nat) : Nat := (tlbFind m core ctx va).elim 0 (·.level)

/-- R392: the level of the leaf that serves an address now; 0 where none does. -/
def leafLevel (s : State) (ctx va : Nat) : Nat := match (walk s ctx va).1 with
  | .leaf l => l.level
  | .fail _ _ => 0

/-- R386: the holder of a facet's second-level TLB, by a core of it: after the cores, which hold their first-level TLBs. -/
def facetTlb (core : Nat) : Nat := 512 + core / 8

/-- R386: the entries of a holder's TLB. -/
def tlbRoom (holder : Nat) : Nat := if holder < 512 then 384 else 4096

/-- R386: a TLB takes an entry; a full one first gives one up, which a free value names (log entry 6). -/
def tlbPut (s : State) (t : TlbEntry) : State :=
  let mine := s.mem.tlb.filter (·.core = t.core)
  if mine.length < tlbRoom t.core then s.withMem { s.mem with tlb := t :: s.mem.tlb }
  else
    let out := mine[Config.tlbVictim s.ctl.tick % mine.length]?
    (s.withMem { s.mem with tlb := t :: s.mem.tlb.filter (some · ≠ out) }).bump

/-- R386: the entry of a TLB that serves an address. Where the leaf has changed since it was filled and no INVAL has come, a free
value decides whether it still serves or is gone (log entry 6). -/
def tlbServe (s : State) (holder ctx va : Nat) : Option TlbEntry × State :=
  match tlbFind s.mem holder ctx va with
  | none => (none, s)
  | some t =>
    let now := memDWord s.mem t.entryAddr
    if (now ^^^ t.entry) &&& ~~~deviceBits = 0 && !(t.dirty && !now.getLsbD 55) then (some t, s)
    else if Config.tlbChoice s.ctl.tick then (some t, s.bump)
    else (none, (s.withMem { s.mem with tlb := s.mem.tlb.filter (· ≠ t) }).bump)

/-- R384, R386: a walk that sets accessed. -/
def walkLeaf (s : State) (ctx va : Nat) : Walked × State :=
  match walk s ctx va with
  | (.leaf l, s) => (.leaf l, orEntry s ctx ((s.ctx ctx).elim 0 (·.part)) l.addr 0x0040000000000000)
  | r => r

/-- R386: the leaf for a virtual address: from the core's TLB, or its facet's, or by a walk, which fills both. -/
def leafFor (s : State) (ctx : Nat) (core : Option Nat) (va : Nat) : Walked × State :=
  match core with
  | none => walkLeaf s ctx va
  | some c =>
    match tlbServe s c ctx va with
    | (some t, s) => (.leaf ⟨t.entryAddr, t.entry, t.level⟩, s)
    | (none, s) =>
      match tlbServe s (facetTlb c) ctx va with
      | (some t, s) => (.leaf ⟨t.entryAddr, t.entry, t.level⟩, tlbPut s { t with core := c })
      | (none, s) =>
        match walkLeaf s ctx va with
        | (.leaf l, s) =>
          let t (holder : Nat) : TlbEntry :=
            { core := holder, ctx := ctx, level := l.level, vpage := va / 2 ^ levelShift l.level,
              entryAddr := l.addr, entry := l.entry, dirty := l.entry.getLsbD 55 }
          (.leaf l, tlbPut (tlbPut s (t (facetTlb c))) (t c))
        | r => r

/-! ## The checks of an access -/

/-- R255: what an access is, for the checks of its page: a write, a future operation, a fetch; `anyPage` for PREF. -/
structure Access where
  write : Bool := false
  future : Bool := false
  exec : Bool := false
  anyPage : Bool := false
  deriving DecidableEq, Repr

/-- R255: the outcome of the checks of a flat address. `poa` says that the page poisons accesses (R385), which fails
step 8. -/
inductive Checked where
  | loc (pa : Nat) (poa : Bool)
  | remote (chord node pa : Nat) (poa : Bool)
  | fail (cause : Cause) (origin : Word)
  deriving DecidableEq, Repr

/-- R255 step 6: the permissions of a leaf. -/
def permitted (priv : Bool) (ac : Access) (e : DWord) : Bool :=
  (!ac.write || e.getLsbD 61) && (!ac.exec || e.getLsbD 60) && (priv || e.getLsbD 59) &&
    (ac.anyPage || ac.future = e.getLsbD 58)

/-- R255 steps 6 and 7 on a leaf: permission, isolation partition, window and chord. -/
def checkLeaf (s : State) (part : Nat) (priv : Bool) (ac : Access) (va : Nat) (l : Leaf) : Checked :=
  let pa := entryPa l.entry + va % 2 ^ levelShift l.level
  let poa := l.entry.getLsbD 52
  match regionOf pa with
  | .reserved => .fail causeInvalid 0
  | .window _ =>
    match windowOf s pa with
    | none => .fail causeInvalid 0
    | some (node, tpa) =>
      if !permitted priv ac l.entry then .fail causeDenied 0
      else match routeTo s node with
        | none => .fail causeLinkLost 0
        | some c => .remote c node tpa poa
  | _ => if permitted priv ac l.entry && mayAccess s part pa then .loc pa poa else .fail causeDenied 0

/-- R69, R255 steps 2 and 5 to 7: a flat address of a context, checked for an access. -/
def checkFlat (s : State) (ctx : Nat) (core : Option Nat) (priv : Bool) (ac : Access) (va : DWord) : Checked × State :=
  if va.extractLsb' 55 9 ≠ 0 then (.fail causeInvalid 0, s) else
  match s.ctx ctx with
  | none => (.fail causeInvalid 0, s)
  | some c =>
    match leafFor s ctx core va.toNat with
    | (.fail k o, s) => (.fail k o, s)
    | (.leaf l, s) => (checkLeaf s c.part priv ac va.toNat l, s)

/-! ## What a write records -/

/-- R391: a bit of a map of 64 KiB pages at a physical base: the byte that holds it and its number. -/
def mapBit (base pa : Nat) : Nat × Nat := (base + pa / 65536 / 8, pa / 65536 % 8)

/-- R391: a page's bit in a map. -/
def mapGet (m : MemSys) (base pa : Nat) : Bool := (memByte m (mapBit base pa).1).getLsbD (mapBit base pa).2

/-- R53, R391: writes a page's bit in a map by an atomic, which leaves a poisoned word unchanged. -/
def mapSet (s : State) (ctx part base pa : Nat) (v : Bool) : State :=
  let (a, b) := mapBit base pa
  let a := a / 4 * 4
  let bit : Word := 1#32 <<< ((mapBit base pa).1 % 4 * 8 + b)
  let s := fetchHalf s (some ctx) part a
  let w := memWord s.mem a
  if eccBad s a then detectEcc s (some ctx) part a
  else if wordPoi s.mem a then s
  else deviceWord s a (if v then w ||| bit else w &&& ~~~bit)

/-- R391: near or far memory, which the maps cover. -/
def mapped (pa : Nat) : Bool := pa < 0x40000000000

/-- R427: the snapshot map of a partition. -/
def ckmapBase (s : State) (part : Nat) : Nat := ((s.mgmt64 (0x14000 + 64 * part + 0x10)).extractLsb' 16 48).toNat * 65536

/-- R390, R429: a write through a leaf waits while its page is marked for the running checkpoint and is not copied. -/
def checkpointHolds (s : State) (c : Context) (entry : DWord) (pa : Nat) : Bool :=
  c.ckact && entry.getLsbD 53 != c.gen && mapped pa && mapGet s.mem (ckmapBase s c.part) pa

/-- R389, R391: a write to near or far memory enters the dirty map of its context. -/
def noteDirty (s : State) (ctx pa : Nat) : State :=
  let d := s.mgmt64 (0x4000 + 32 * ctx + 0x10)
  if d.getLsbD 0 && mapped pa then
    mapSet s ctx ((s.ctx ctx).elim 0 (·.part)) ((d.extractLsb' 16 48).toNat * 65536) pa true
  else s

/-- R389, R390: what a write makes of its leaf: dirty, unless its TLB entry records it, and the generation. -/
def writtenLeaf (c : Context) (dirty : Bool) (e : DWord) : DWord :=
  (if dirty then e else e ||| 0x0080000000000000#64) &&& ~~~0x0020000000000000#64 ||| (if c.gen then 0x0020000000000000#64 else 0)

/-- R389, R390, R429: a write is performed through the leaf of its virtual page: dirty, generation and dirty map are set.
None when the write must wait for the checkpoint. A write whose leaf is gone, and with it the generation, waits while its page is
marked, and enters the dirty map all the same (log entry 69). -/
def noteWrite (s : State) (ctx : Nat) (core : Option Nat) (va : DWord) (pa : Nat) : Option State :=
  match s.ctx ctx with
  | none => some s
  | some c =>
    let hit := core.bind fun k => tlbFind s.mem k ctx va.toNat
    let addr := match hit with
      | some t => some t.entryAddr
      | none => match (walk s ctx va.toNat).1 with
        | .leaf l => some l.addr
        | .fail _ _ => none
    match addr with
    | none =>
      if c.ckact && mapped pa && mapGet s.mem (ckmapBase s c.part) pa then none else some (noteDirty s ctx pa)
    | some a =>
      if checkpointHolds s c (memDWord s.mem a) pa then none else
      let s := updateEntry s ctx c.part a (writtenLeaf c (hit.any (·.dirty)))
      let mark (t : TlbEntry) : TlbEntry :=
        if (some t.core = core || some t.core = core.map facetTlb) && t.ctx = ctx && t.entryAddr = a then { t with dirty := true } else t
      some (noteDirty (s.withMem { s.mem with tlb := s.mem.tlb.map mark }) ctx pa)

/-- R389: an address that no dirty map covers. -/
def unmapped : Nat := 2 ^ 51

/-- R389, R390: a write leaves for a fabric window through the leaf of its virtual page: dirty and generation are set; no map
covers it. -/
def noteWindow (s : State) (ctx : Nat) (core : Option Nat) (va : DWord) : State := (noteWrite s ctx core va unmapped).getD s

end Sys2Proof.Machine
end

