-- ==== Sys2Proof/Machine/Saved.lean ====
section
/-!
DEFINITION. Workgroup images in memory: how one is written into a slot (R394, R395, R458), how what a slot holds is read back
(R397), and changes of a saved workgroup (R272, R388, R393).
-/

namespace Sys2Proof.Machine

/-- R431: the pages of a save area that an image is written to enter the dirty map of its context, so that a checkpoint of a
pre-empted context copies them (log entry 50). -/
def markSaved (s : State) (tag base : Nat) (offs : List Nat) : State :=
  ((List.range 80).filter fun p => offs.any (· / 65536 = p)).foldl (fun s p => noteDirty s tag (base + 65536 * p)) s

/-- R367: the words of a slot that a restore reads are fetched from the host where they are homed there. -/
def fetchSlot (s : State) (base : Nat) (i : Image) : State :=
  match regionOf base with
  | .host =>
    let part := (s.ctx i.wg.ctx).elim 0 (·.part)
    (slotParts i.wg i.groups (i.records.map (·.1))).foldl (fun s p => fetchRange s (some i.wg.ctx) part (base + p.1) p.2) s
  | _ => s

/-- R397: a saved workgroup with what the regions of its slot hold now. -/
def readRegions (s : State) (base : Nat) (i : Image) : Image := restFrom s.mem base (stackMode s i.wg).1 (stackMode s i.wg).2 i

/-- Writes the regions, the thread words and the records of a saved workgroup back to its slot, where they differ. -/
def writeRegions (s : State) (base : Nat) (i : Image) : State :=
  let rs := regionsOf s i
  let ws := sideWords (i.records.map fun kr => (kr.1, kr.2.2)) ++ regionWords rs ++
    i.groups.flatMap fun g => (threadWords g).map fun ow => (0x100000 + 0x40000 * g.pos + ow.1, ow.2)
  let ws := ws.filter fun ow => memWord s.mem (base + ow.1) ≠ ow.2
  let s := markSaved (writeImage s base ws) i.wg.ctx base (ws.map (·.1))
  let i := { i with tails := slotTails rs }
  { s with host := { s.host with images := s.host.images.map fun x => if x.serial = i.serial then i else x } }

/-- R272, R393: changes a saved workgroup in its slot. -/
def modSaved (s : State) (i : Image) (f : Image → Image) : State :=
  match imageSlot s i with
  | none => s
  | some base =>
    let s := fetchSlot s base i
    writeRegions s base (f (readRegions s base i))

/-- The image of a saved group. -/
def imageWith (s : State) (gid : Nat) : Option Image := s.host.images.find? fun i => i.groups.any (·.id = gid)

/-- Changes a group of an image. -/
def Image.modGroup (i : Image) (gid : Nat) (f : Group → Group) : Image :=
  { i with groups := i.groups.map fun g => if g.id = gid then f g else g }

/-- Changes a group, resident or saved (R272, R394). -/
def modGroupAny (s : State) (gid : Nat) (f : Group → Group) : State :=
  match imageWith s gid with
  | none => s.modGroup gid f
  | some i => modSaved s i (·.modGroup gid f)

/-- Changes what the model itself keeps of a group, resident or saved. -/
def noteGroupAny (s : State) (gid : Nat) (f : Group → Group) : State :=
  let s := s.modGroup gid f
  { s with host := { s.host with images := s.host.images.map (·.modGroup gid f) } }

/-- Changes a workgroup, resident or saved. -/
def modWgAny (s : State) (wg : Nat) (f : WG → WG) : State :=
  match s.host.images.find? (·.wg.id = wg) with
  | none => s.modWg wg f
  | some i => modSaved s i fun i => { i with wg := f i.wg }

/-- Changes what the model itself keeps of a workgroup, resident or saved. -/
def noteWgAny (s : State) (wg : Nat) (f : WG → WG) : State :=
  let s := s.modWg wg f
  { s with host := { s.host with images := s.host.images.map fun i => if i.wg.id = wg then { i with wg := f i.wg } else i } }

end Sys2Proof.Machine
end

