-- ==== Sys2Proof/Machine/Trace.lean ====
section
/-!
DEFINITION. Trace, stop and log records (R448, R450, R451, R459, R460) and how a group stops or traps for the debugger
(R215, R454 to R456).
-/

namespace Sys2Proof.Machine

/-- R447: the management offset of a context's debug block. -/
def debugBlock (tag : Nat) : Nat := 0x18000 + 0x100 * tag

/-- R447: a control bit of a context's debug block: 0 trace, 1 sample, 2 debug, 3 record, 4 watch. -/
def debugBit (s : State) (tag bit : Nat) : Bool := (s.mgmt (debugBlock tag)).getLsbD bit

/-- R448: room in a ring of the debug block (offset 0x08 trace, 0x18 samples, 0x28 log). -/
def ringRoom (s : State) (tag off : Nat) : Bool :=
  let b := debugBlock tag + off
  let d := s.mgmt64 b
  d.getLsbD 0 && (s.mgmt (b + 12) - s.mgmt (b + 8)).toNat < 2 ^ (d.extractLsb' 4 4).toNat

/-- R448: writes a record into a ring that has room. -/
def ringPut (s : State) (tag off : Nat) (ws : List Word) : State :=
  let b := debugBlock tag + off
  let d := s.mgmt64 b
  let tail := s.mgmt (b + 12)
  let a := (d.extractLsb' 16 48).toNat * 65536 + 32 * (tail.toNat % 2 ^ (d.extractLsb' 4 4).toNat)
  (deviceWords s a ws).setMgmt (b + 12) (tail + 1)

/-- R451: the words of a trace, stop or sample record. -/
def traceWords (kind outcome leaf : Nat) (slot : BitVec 5) (loc : BitVec 11) (info : Word) (pc : DWord) (mask : Mask) :
    List Word :=
  let w0 : Word := BitVec.ofNat 4 kind ++ BitVec.ofNat 2 outcome ++ BitVec.ofNat 4 leaf ++ slot ++ loc ++ 0#6
  let p : DWord := (pc.setWidth 55).setWidth 64
  [w0, info, p.halves.1, p.halves.2] ++ maskWords mask

/-- R450: a core's trace buffer takes a record: how many of its 64 records are there when it comes is a free value, at most those that
were there before (log entry 7). None: it is full. -/
def traceRoom (s : State) (core : Nat) : Option State :=
  let kept := Config.traceKept s.ctl.tick % (sget 0 s.exe.traceBufs core + 1)
  if 64 ≤ kept then none
  else some { s with exe := { s.exe with traceBufs := sput 0 s.exe.traceBufs core (kept + 1) } }.bump

/-- R449, R450: writes one trace record of a group, or drops and counts it; a dropping group writes a sync record next.
The delay of other requests is a free value (log entry 7). -/
def tracePut (s : State) (g : Group) (w : WG) (kind : Nat) (info : Word) (pc : DWord) (mask : Mask) : State :=
  match (if ringRoom s w.ctx 0x08 then traceRoom s w.coreNo else none) with
  | some s =>
    let s := ringPut s w.ctx 0x08 (traceWords kind 0 0 (groupSlot g) (location w g.part) info pc mask)
    (s.count w.ctx 0x44 (Config.delay s.ctl.tick).toNat).bump
  | none => (s.count w.ctx 0x40 1).modGroup g.id fun g => { g with traceCount := 255 }

/-- R450: a trace record of a group, preceded by a sync record where one is due. Stop records and hit masks are written
even with trace off. -/
def trace (s : State) (gid kind : Nat) (info : Word) (pc : DWord) (mask : Mask) : State :=
  match s.group gid with
  | none => s
  | some g =>
  match s.wg g.wg with
  | none => s
  | some w =>
    if !debugBit s w.ctx 0 && kind ≠ 4 && kind ≠ 5 then s else
    let s := if g.traceCount ≥ 255 && debugBit s w.ctx 0 then
        (tracePut s g w 0 g.retired pc mask).modGroup gid fun g => { g with traceCount := 0 }
      else s
    let s := s.modGroup gid fun g => { g with traceCount := g.traceCount + 1 }
    tracePut s g w kind info pc mask

/-- R450: a flow record: 0 taken, 1 split, 2 merge, 3 replay. -/
def traceFlow (s : State) (gid what : Nat) (pc : DWord) (mask : Mask) : State :=
  trace s gid 1 (BitVec.ofNat 32 what) pc mask

/-- R215, R454, R455: the group stops before its next word and a stop record is written. -/
def stopGroup (s : State) (gid : Nat) (why : Nat) (code : BitVec 16) (pc : DWord) (mask : Mask) : State :=
  trace (s.modGroup gid fun g => { g with stop := .debug }) gid 4 (code ++ 0#12 ++ BitVec.ofNat 4 why) pc mask

/-- R213, R215: the address of the trap handler of a group in architected-stack mode; none without one. The word offset of
trap_pc counts as signed: the model's choice (log entry 68). -/
def trapTarget (s : State) (w : WG) : Option DWord :=
  match s.launch w.launch, s.ctx w.ctx with
  | some l, some c => if l.arch && c.trapPc ≠ 0 then some (pcAdd l.kentry (c.trapPc.signExtend 64 <<< 2)) else none
  | _, _ => none

/-- R215, R455, R456: pushes the trap entry of a path and sends it to the handler. -/
def takeTrap (s : State) (gid pid : Nat) (next : DWord) (kind : Nat) (code : BitVec 16) (handler : DWord) : State :=
  s.modGroup gid fun g =>
    match sfind g.paths pid with
    | none => g
    | some p =>
      let e : StackEntry :=
        { kind := .trap, owner := pid, pc := next, mask := p.mask, mode := p.mode, rstack := [], join := none }
      { g with stack := g.stack ++ [e]
               paths := sins g.paths pid
                 { p with pc := handler, park := .running, trapInfo := code ++ 0#14 ++ BitVec.ofNat 2 kind } }

/-! ## Record mode and replay (R458 to R463) -/

/-- R459: the context records its interval now, or is replayed. -/
def logging (s : State) (tag : Nat) : Bool :=
  match s.ctx tag with
  | some c => c.rep.interval || c.rep.status = 1
  | none => false

/-- R460: the words of a log entry. -/
def logWords (kind : Nat) (id : BitVec 16) (count index : Word) (pois : Bool) (value : DWord) : List Word :=
  [BitVec.ofNat 4 kind ++ 0#12 ++ id, count, index, bitW pois, value.halves.1, value.halves.2, 0, 0]

/-- What a log entry says of a value. -/
structure Logged where
  pois : Bool
  value : DWord
  deriving DecidableEq, Repr

/-- R460: where an entry of the interval's log lies, by its number from the start of the interval; none when the ring no
longer holds it. -/
def logEntry (s : State) (tag : Nat) (c : Context) (k : Nat) : Option Nat :=
  let b := debugBlock tag + 0x28
  let base := ((s.mgmt64 b).extractLsb' 16 48).toNat * 65536
  let n := 2 ^ ((s.mgmt64 b).extractLsb' 4 4).toNat
  let i := c.rep.logStart + BitVec.ofNat 32 k
  if (s.mgmt (b + 12) - i).toNat ≤ n then some (base + 32 * (i.toNat % n)) else none

/-- R460: how many entries the interval's log has. -/
def logLength (s : State) (tag : Nat) (c : Context) : Nat := (s.mgmt (debugBlock tag + 0x34) - c.rep.logStart).toNat

/-- R460: the kind and the group id of the entry at an address. -/
def logKind (m : MemSys) (a : Nat) : BitVec 4 := (memWord m a).extractLsb' 28 4
/-- R460: the group id of the entry at an address. -/
def logId (m : MemSys) (a : Nat) : BitVec 16 := (memWord m a).extractLsb' 0 16

/-- R460: what the entry at an address says of its value. -/
def logValue (m : MemSys) (a : Nat) : Logged := ⟨(memWord m (a + 12)).getLsbD 0, memDWord m (a + 16)⟩

/-- R462: the entries of the log for a value that a group receives at its place, which the replay has not taken yet: the number and
the address of each. -/
def logPlaces (s : State) (tag : Nat) (c : Context) (id : BitVec 16) (count index : Word) : List (Nat × Nat) :=
  (List.range (logLength s tag c)).filterMap fun k =>
    if c.rep.used.contains k then none else (logEntry s tag c k).bind fun a =>
      if logId s.mem a = id && (logKind s.mem a = 1 || logKind s.mem a = 2) && memWord s.mem (a + 4) = count &&
        memWord s.mem (a + 8) = index then some (k, a) else none

/-- R460, R462: the entry of one operand of an engine or matrix operation, wherever it lies in the log. -/
def logOperand (s : State) (tag : Nat) (c : Context) (id : BitVec 16) (count index : Word) : Option Nat :=
  (List.range (logLength s tag c)).findSome? fun k =>
    (logEntry s tag c k).bind fun a =>
      if logId s.mem a = id && logKind s.mem a = 3 && memWord s.mem (a + 4) = count && memWord s.mem (a + 8) = index
      then some a else none

/-- R461: the log ring has room for one more entry, beside those that wait for earlier ones. -/
def logRoom (s : State) (tag : Nat) : Bool :=
  let b := debugBlock tag + 0x28
  let d := s.mgmt64 b
  d.getLsbD 0 && (s.mgmt (b + 12) - s.mgmt (b + 8)).toNat + (s.ctx tag).elim 0 (·.rep.late.length) < 2 ^ (d.extractLsb' 4 4).toNat

/-- R461: a producer of an entry finds no room: it waits. -/
def logWaits (s : State) (tag : Nat) : State :=
  if (s.ctx tag).any (·.rep.interval) && !logRoom s tag then s.modCtx tag fun c => { c with rep := { c.rep with waited := true } } else s

/-- R461: a log entry is written. The cycles that its producer waited for room are a free value (log entry 7); they are none when no
producer found the ring full. -/
def logPut (s : State) (tag : Nat) (ws : List Word) : State :=
  let waited := (s.ctx tag).any (·.rep.waited)
  let s := ringPut s tag 0x28 ws
  if !waited then s
  else ((s.modCtx tag fun c => { c with rep := { c.rep with waited := false } }).count tag 0x5C (Config.delay s.ctl.tick).toNat).bump

/-- R459: a result in flight makes an entry of its group's when it comes. -/
def Pending.logs (p : Pending) : Bool :=
  let late : AccKind → Bool
    | .load _ _ _ _ => true
    | .fread _ => true
    | .atomicRet _ => true
    | _ => false
  match p.what with
  | .access k _ _ _ _ => late k
  | .remote k _ _ _ _ => late k
  | .result _ _ _ => true
  | .pop _ _ _ => true
  | .ready _ => false

/-- R459: a value of a group that comes before a place in its program order is still to come. -/
def earlierEntry (s : State) (gid order : Nat) : Bool :=
  (s.exe.pendings.any fun kp => kp.1 < order && kp.2.gid = gid && kp.2.logs) ||
    (findGroup s gid).any (·.fetch.any (·.order < order))

/-- R459: the entries of a context that wait for no earlier one any more go into the ring. -/
def flushLate (tag : Nat) : Nat → State → State
  | 0, s => s
  | n + 1, s =>
    match (s.ctx tag).bind fun c => c.rep.late.find? fun e => !earlierEntry s e.gid e.order with
    | none => s
    | some e => flushLate tag n (logPut (s.modCtx tag fun c => { c with rep := { c.rep with late := c.rep.late.erase e } }) tag e.words)

/-- R459: an entry of a group takes its place in the group's program order. -/
def logInOrder (s : State) (tag gid order : Nat) (ws : List Word) : State :=
  let s := s.modCtx tag fun c =>
    let early := c.rep.late.takeWhile (·.order ≤ order)
    { c with rep := { c.rep with late := early ++ [⟨gid, order, ws⟩] ++ c.rep.late.drop early.length } }
  flushLate tag ((s.ctx tag).elim 0 (·.rep.late.length)) s

/-- R462: the log does not hold what a receiver needs: the replay stops. The pc of the receiving instruction is kept. -/
def failReplay (s : State) (tag : Nat) (id : BitVec 16) (count : Word) : State :=
  let mine := s.exe.groups.find? fun kg => kg.2.recordId = id && (s.wg kg.2.wg).any (·.ctx = tag)
  let pc := match s.exe.pendings.find? fun kp => mine.any (·.1 = kp.2.gid) && kp.2.count = count with
    | some kp => kp.2.pc
    | none => match s.exe.engOps.find? fun ko => ko.2.ctx = tag && ko.2.rid = id && ko.2.count = count with
      | some ko => ko.2.pc
      | none => (mine.bind fun kg => (kg.2.paths.head?).map (·.2.pc)).getD 0
  s.modCtx tag fun c => { c with rep := { c.rep with status := 3, target := id.toNat, failPc := pc } }

/-- R54, R367, R462: what the entry at an address says of its value, read for a replay; none where it cannot be read. -/
def readEntry (s : State) (tag a : Nat) : Option Logged × State :=
  let s := fetchRange s (some tag) ((s.ctx tag).elim 0 (·.part)) a 32
  if (List.range 8).any fun k => wordPoi s.mem (a + 4 * k) || eccBad s (a + 4 * k) then (none, s) else (some (logValue s.mem a), s)

/-- R462: the context is replayed. -/
def replaying (s : State) (tag : Nat) : Bool := (s.ctx tag).any (·.rep.status = 1)

/-- R462: a receiver in a replay takes the value of an entry; none: the log does not hold one. A clean value of its own stands where
the original run logged none; any other value must be there. -/
def takeLogged (s : State) (tag : Nat) (id : BitVec 16) (count : Word) (entry : Option Nat) (own : Bool) (v : Logged) : Logged × State :=
  match entry with
  | none => (v, if own then s else failReplay s tag id count)
  | some a => match readEntry s tag a with
    | (some x, s) => (x, s)
    | (none, s) => (v, failReplay s tag id count)

/-- R459, R461, R462: an operand received by an engine or matrix operation: logged while an interval is recorded, where it is foreign
or poisoned, and taken from the log while a replay runs. None: the log has no room. -/
def receiveOperand (s : State) (tag : Nat) (id : BitVec 16) (count index : Word) (foreign : Bool) (v : Logged) : Option (Logged × State) :=
  match s.ctx tag with
  | none => some (v, s)
  | some c =>
    if c.rep.status = 1 then some (takeLogged s tag id count (logOperand s tag c id count index) (!v.pois) v)
    else if c.rep.interval && (foreign || v.pois) then
      if logRoom s tag then some (v, logPut s tag (logWords 3 id count index v.pois v.value)) else none
    else some (v, s)

/-- R459, R461, R462: a value received by a group: kind 1 a load, which is logged where it is foreign or poisoned, kind 2 a returned
value. While an interval is recorded it is logged, in the place `order` of the group's program; none when the log has no room. While
a replay runs, the logged value takes its place; an entry that is missing or of another kind stops the replay with rstat 11. -/
def receive (s : State) (tag kind : Nat) (id : BitVec 16) (gid order : Nat) (count index : Word) (foreign : Bool) (v : Logged) :
    Option (Logged × State) :=
  match s.ctx tag with
  | none => some (v, s)
  | some c =>
    if c.rep.status = 1 then
      match logPlaces s tag c id count index with
      | (k, a) :: _ =>
        if logKind s.mem a = BitVec.ofNat 4 kind then
          some (takeLogged (s.modCtx tag fun c => { c with rep := { c.rep with used := k :: c.rep.used } }) tag id count (some a) false v)
        else some (v, failReplay s tag id count)
      | [] => some (takeLogged s tag id count none (kind = 1 && !v.pois) v)
    else if c.rep.interval && (kind = 2 || foreign || v.pois) then
      if logRoom s tag then some (v, logInOrder s tag gid order (logWords kind id count index v.pois v.value)) else none
    else some (v, s)

end Sys2Proof.Machine
end

