-- ==== Sys2Proof/Machine/Access.lean ====
section
/-!
DEFINITION. Accesses at the home slice or in a scratchpad: reads (R53, R54, R87), writes (R53, R82, R262), atomics (R83,
R84, R265, R266), sync words (R79, R80), future cells (R67, R282, R284), results in flight (R160), and accesses that wait
(R78, R429).
-/

namespace Sys2Proof.Machine

/-- The agents of threads of a group (R86). -/
def agentsOf (gid : Nat) (ts : List Nat) : List Nat := ts.map (agentOf gid)

/-- The place of an effect or an access: its physical or scratchpad address, or its place on another package. -/
def placeKey (chord : Option (Nat × Nat)) (pa : Nat) : Nat :=
  match chord with
  | none => pa
  | some (_, node) => 0x1000000000000000 + node * 0x10000000000000 + pa

/-- R71: the name under which an agent's view of the constant path is kept. -/
def constAgent (agent : Nat) : Nat := 0x10000000000000000 + agent

/-! ## Reads -/

/-- A word as an access receives it, or the poison of step 8 of R255: its cause and the origin it is chained to. -/
abbrev Got := Word × Option (Cause × Word)

/-- R53, R54, R87: agents read one word. -/
def readOne (s : State) (ctx : Option Nat) (part : Nat) (ags : List Nat) (a : Nat) : Got × State :=
  let s := fetchHalf s ctx part a
  if eccBad s a then ((0, some (causeEcc, 0)), detectEcc s ctx part a)
  else
    let floor := ags.foldl (fun n g => max n (sget 0 (floorsOf s.mem g) a)) 0
    let (r, n) := readFrom s.mem s.ctl.tick floor a
    let s' := if (readable s.mem floor a).length > 1 then s.bump else s
    let m := if n = 0 then s'.mem else ags.foldl (fun m g => raiseFloors m g [(a, n)]) s'.mem
    ((r.val, if r.poi then some (causeRemote, r.origin) else none), s'.withMem m)

/-- R53, R87: agents read `n` words. -/
def readWords (s : State) (ctx : Option Nat) (part : Nat) (ags : List Nat) (a : Nat) : Nat → List Got × State
  | 0 => ([], s)
  | n + 1 =>
    let (x, s) := readOne s ctx part ags a
    let (xs, s) := readWords s ctx part ags (a + 4) n
    (x :: xs, s)

/-- R53: the first poisoned word decides. -/
def gotPoison (l : List Got) : Option (Cause × Word) := l.findSome? (·.2)

/-! ## Writes -/

/-- R53, R82, R87, R262, R367: agents write the bytes `be` of a word. A whole word written ends an undetected error. -/
def writeOne (s : State) (ags : List Nat) (a : Nat) (val : Word) (be : BitVec 4) (poi : Bool) (origin : Word) (va : DWord) :
    State :=
  let m := pokePart s.mem (ags.headD deviceAgent) a val be poi origin va
  let m := ags.tail.foldl (fun m g => raiseFloors m g [(a, m.seq)]) m
  let m := if be = 0xF then { m with ecc := sdel m.ecc a } else m
  writeHalf (wakeMonitors (s.withMem m) a) a be

/-- Agents write whole words at rising addresses. -/
def writeWords (s : State) (ags : List Nat) (a : Nat) (poi : Bool) (origin : Word) (va : DWord) : List Word → State
  | [] => s
  | w :: ws => writeWords (writeOne s ags a w 0xF poi origin va) ags (a + 4) poi origin (va + 4) ws

/-! ## Atomics -/

/-- R265, R278: the new value of an atomic: `op` is its op value less 0x70, or 10 and 11 for the MIN and MAX of f32 of a
collective operation; narrow values are zero-extended. -/
def atomicValue (op : Nat) (wide signed : Bool) (m x y : DWord) : DWord :=
  let cut (v : DWord) : DWord := if wide then v else (v.setWidth 32).setWidth 64
  let less (u v : DWord) : Bool :=
    if signed then (if wide then u.slt v else (u.setWidth 32).slt (v.setWidth 32)) else u.ult v
  match op with
  | 0 => cut (m + x)
  | 1 => ((binTyped .add 2 ⟨0, false, false⟩ (m.setWidth 32) (x.setWidth 32)).getD 0).setWidth 64
  | 2 => if less x m then x else m
  | 3 => if less m x then x else m
  | 4 => m &&& x
  | 5 => m ||| x
  | 6 => m ^^^ x
  | 7 => x
  | 8 => if m = x then y else m
  | 9 => if x ≤ m then 0 else cut (m + 1)
  | 10 => ((binTyped .min 2 ⟨0, false, false⟩ (m.setWidth 32) (x.setWidth 32)).getD 0).setWidth 64
  | _ => ((binTyped .max 2 ⟨0, false, false⟩ (m.setWidth 32) (x.setWidth 32)).getD 0).setWidth 64

/-- R265: the old value of an atomic, or why it returns poison. -/
inductive AtomicOut where
  | old (ws : List Word)
  | poison (cause : Cause) (origin : Word)
  deriving DecidableEq, Repr

/-- A list of one or two words as a 64-bit value. -/
def pairOf (ws : List Word) : DWord := DWord.ofHalves (ws.getD 0 0) (ws.getD 1 0)

/-- A 64-bit value as one or two words. -/
def wordsOf (wide : Bool) (x : DWord) : List Word := if wide then [x.halves.1, x.halves.2] else [x.halves.1]

/-- R459: the receiver of a value: its context, the kind of entry, the group with its id, the place in program order, the retired-work
count, and the index. -/
structure Receiver where
  tag : Nat
  kind : Nat
  id : BitVec 16
  gid : Nat
  order : Nat
  count : Word
  index : Word
  deriving DecidableEq, Repr

/-- R459, R462: the words or the poison of a read pass through the log of record mode. `n` is the number of its words, `f` what a
record of it says. -/
def throughLog (s : State) (r : Receiver) (foreign : Bool) (n : Nat) (f : Fresh) (x : Sum Fresh (List Word)) :
    Option (Sum Fresh (List Word) × State) :=
  let v : Logged := match x with
    | .inr ws => ⟨false, pairOf ws⟩
    | .inl y => ⟨true, DWord.ofHalves (y.cause.setWidth 32) y.gorigin⟩
  (receive s r.tag r.kind r.id r.gid r.order r.count r.index foreign v).map fun y =>
    (if y.1 = v then x
     else if y.1.pois then .inl { f with cause := y.1.value.extractLsb' 0 6, gorigin := y.1.value.halves.2 }
     else .inr (wordsOf (n = 2) y.1.value), y.2)

/-- R433, R435, R442: a shadow mismatch of a word at its home slice: in the slice, for the group of the atomic if there is one. -/
def homeMismatch (s : State) (gid : Option Nat) (ctx part pa : Nat) (pc : DWord) : Ev :=
  { cls := 8, src := 1, ctx := some ctx, part := some part, loc := quadLoc (homeQuad s part pa), num := some (homeSlice pa)
    slot := (gid.bind s.group).elim 0x1F groupSlot, info := poisonInfo pc 0x3FF causeShadow }

/-- R432, R433: a floating atomic on a word whose shadow check disagrees: the mismatch is counted once and used up. -/
def atomicShadow (s : State) (mismatch : Ev) (t op : Nat) : Bool × State :=
  if (op = 1 || 10 ≤ op) && s.ctl.shadow.contains t then
    (true, raise { s with ctl := { s.ctl with shadow := s.ctl.shadow.filter (· ≠ t) } } mismatch)
  else (false, s)

/-- R53, R84, R265, R433: one atomic at the home slice. `mismatch` is the event of its shadow check. -/
def atomicAt (s : State) (op : Nat) (wide signed : Bool) (mismatch : Ev) (t ctx part : Nat) (ags : List Nat) (va : DWord) (pa : Nat)
    (data : List Word) (dpoi : Bool) (origin : Word) : AtomicOut × State :=
  let n := if wide then 2 else 1
  let s := fetchHalf s (some ctx) part pa
  let at' := (List.range n).map fun k => pa + 4 * k
  match at'.find? (eccBad s ·) with
  | some a => (.poison causeEcc 0, detectEcc s (some ctx) part a)
  | none =>
    if at'.any (wordPoi s.mem ·) then
      -- the atomic has read the word all the same (R87)
      let seen := (at'.map fun a => (a, ((writesOf s.mem a).head?).elim 0 (·.seq))).filter (·.2 ≠ 0)
      (.poison causeRemote (lineOrigin s.mem pa), s.withMem (ags.foldl (fun m g => raiseFloors m g seen) s.mem))
    else
      let old := at'.map (memWord s.mem ·)
      if dpoi then (.old old, writeWords s ags pa true origin va old)
      else
        let x := if wide then pairOf data else (data.headD 0).setWidth 64
        let y := if wide then pairOf (data.drop 2) else (data.getD 1 0).setWidth 64
        let m := if wide then pairOf old else (old.headD 0).setWidth 64
        let new := wordsOf wide (atomicValue op wide signed m x y)
        let (bad, s) := atomicShadow s mismatch t op
        if bad then (.old old, writeWords s ags pa true (originRaw s (homeQuad s part pa) 0x7F causeShadow) va new)
        else (.old old, writeWords s ags pa false 0 va new)

/-! ## Sync words -/

/-- R80: agents apply the rule to the sync word at a location: as many generations as the count holds. -/
def syncRule (s : State) (ags : List Nat) (a : Nat) : State :=
  let target := memWord s.mem a
  let count := memWord s.mem (a + 4)
  if target ≠ 0 && target ≤ count then
    let s := writeOne s ags (a + 4) (count % target) 0xF false 0 0
    writeOne s ags (a + 8) (memWord s.mem (a + 8) + count / target) 0xF false 0 0
  else s

/-- R80: adds arrived bytes to the count of a sync word as one update. -/
def syncAdd (s : State) (ags : List Nat) (a : Nat) (n : Word) : State :=
  syncRule (writeOne s ags (a + 4) (memWord s.mem (a + 4) + n) 0xF false 0 0) ags a

/-- R280: sets the target of a sync word and clears its count. -/
def syncSet (s : State) (ags : List Nat) (a : Nat) (n : Word) : State :=
  syncRule (writeOne (writeOne s ags a n 0xF false 0 0) ags (a + 4) 0 0xF false 0 0) ags a

/-- R79, R80: the scratchpad offset is named as a sync word: its reserved word reads 0 from then on, and an STS before its
first naming takes effect as R80 says at that naming (log entry 20). -/
def nameSync (s : State) (wg off : Nat) : State :=
  match s.wg wg with
  | none => s
  | some w =>
    if w.syncs.contains off then s
    else
      let at' := w.scratchBase + off
      let s := s.modWg wg fun w => { w with syncs := off :: w.syncs }
      let s := if memWord s.mem (at' + 12) = 0 then s else writeOne s [deviceAgent] (at' + 12) 0 0xF false 0 0
      syncRule s [deviceAgent] at'

/-- R79: a scratchpad offset lies in the reserved word of a sync word of a workgroup. -/
def WG.reserves (w : WG) (off : Nat) : Bool := off % 16 / 4 = 3 && w.syncs.contains (off / 16 * 16)

/-- R6, R79: a location is the reserved word of a sync word of a workgroup: a write to it does nothing. -/
def syncReserved (w : WG) (a : Nat) : Bool := w.scratchBase ≤ a && w.reserves (a - w.scratchBase)

/-- R79: a scratchpad offset at which a whole sync word lies. -/
def syncAt (w : WG) (a : Nat) : Bool := a % 16 = 0 && a + 16 ≤ w.scratch

/-- R80: after an STS to a location, the rule is applied to a sync word that it wrote. -/
def syncAfterStore (s : State) (wg : Nat) (ags : List Nat) (a : Nat) : State :=
  match s.wg wg with
  | none => s
  | some w =>
    let off := (a - w.scratchBase) / 16 * 16
    if w.syncs.contains off && a % 16 < 8 then syncRule s ags (w.scratchBase + off) else s

/-! ## Future cells -/

/-- R131: a fill wakes the worklist entries parked on its cell, and those of other packages. -/
def wakeParked (s : State) (cell : Nat) : State :=
  let wake (u : WLUnit) : WLUnit := { u with parked := u.parked.map fun e => if e.cell = cell then { e with woken := true } else e }
  { s with host := { s.host with
      watches := s.host.watches.map fun x => if x.cell = cell then { x with filled := true } else x
      ctxs := smapAll s.host.ctxs fun c =>
        { c with lists := smapAll c.lists fun l => { l with units := smapAll l.units wake } } } }

/-- R282: fills a future cell: written and full, its waiters woken; a full cell keeps its first value and the fill is
counted. -/
def fillAt (s : State) (ctx : Nat) (ags : List Nat) (pa : Nat) (data : List Word) (poi : Bool) (origin : Word) (va : DWord) :
    State :=
  if fullBit s.mem pa then s.count ctx 0x54 1
  else
    let s := writeWords s ags pa poi origin va data
    wakeParked (s.withMem (setFull s.mem pa true)) pa

/-- R284: clears the full bit of a cell. -/
def clearAt (s : State) (pa : Nat) : State := wakeMonitors (s.withMem (setFull s.mem pa false)) pa

/-! ## Results in flight -/

/-- The effect that an access performs when its wait ends, if it is a write. -/
def Delivery.eff : Delivery → Option Eff
  | .access (.eff e) _ _ _ _ => some e
  | .access (.atomicRet e) _ _ _ _ => some e
  | .remote (.eff e) _ _ _ _ => some e
  | .remote (.atomicRet e) _ _ _ _ => some e
  | _ => none

/-- The virtual address of an access. -/
def Delivery.va : Delivery → Option DWord
  | .access _ va _ _ _ => some va
  | .remote _ va _ _ _ => some va
  | _ => none

/-- R392: the level of the leaf through which an access of a group was translated. -/
def accessLevel (s : State) (gid : Nat) (d : Delivery) : Nat :=
  match d.eff, d.va, (s.group gid).bind fun g => s.wg g.wg with
  | some e, _, _ => e.level
  | none, some va, some w => tlbLevel s.mem w.coreNo w.ctx va.toNat
  | _, _, _ => 0

/-- R160: enters a result in flight of a thread of a group. -/
def addPending (s : State) (gid t : Nat) (pc : DWord) (d : Delivery) : State :=
  let (n, s) := s.fresh
  let p : Pending :=
    { id := n, gid := gid, t := t, pc := pc, count := (s.group gid).elim 0 (·.retired), what := d, level := accessLevel s gid d }
  { s with exe := { s.exe with pendings := sins s.exe.pendings n p } }

/-- Removes a result in flight. -/
def dropPending (s : State) (n : Nat) : State := { s with exe := { s.exe with pendings := sdel s.exe.pendings n } }

/-- R160: marks the registers of a destination empty. -/
def markEmpty (s : State) (gid : Nat) (ds : List Dest) : State :=
  s.modGroup gid fun g => ds.foldl (fun g d =>
    match d.file with
    | 0 => vSet g d.reg d.t { val := 0, full := false }
    | 1 => sSet g d.reg { val := 0, full := false }
    | _ => pSet g d.reg d.t { full := false }) g

/-- R160: a result arrives in a register and marks it full. -/
def deliverReg (g : Group) (x : Dest × Reg) : Group :=
  match x.1.file with
  | 0 => vSet g x.1.reg x.1.t { x.2 with full := true }
  | 1 => sSet g x.1.reg { x.2 with full := true }
  | _ => pSet g x.1.reg x.1.t
    { val := x.2.val ≠ 0 && !x.2.poi, full := true, poi := x.2.poi, tok := if x.2.poi then x.2.val.setWidth 10 else 0 }

/-- R160: results arrive in registers. -/
def deliver (s : State) (gid : Nat) (rs : List (Dest × Reg)) : State := s.modGroup gid fun g => rs.foldl deliverReg g

/-- A destination holding poison. -/
def poisonRegs (ds : List Dest) (tok : Token) : List (Dest × Reg) := ds.map fun d => (d, { val := tok.setWidth 32, poi := true })

/-- A destination holding words. -/
def valueRegs (ds : List Dest) (ws : List Word) : List (Dest × Reg) := (ds.zip ws).map fun dw => (dw.1, { val := dw.2 })

/-- R77: the line of a location is in flight. -/
def inFlight (m : MemSys) (a : Nat) : Bool := m.flight.any (·.1 = lineOf a)

/-- R78: the destination line of a copy of a context at a virtual address has not arrived, whether or not its page could be
marked when the engine accepted the command. -/
def awaitsCopy (s : State) (ctx : Nat) (va : DWord) : Bool :=
  s.exe.engOps.any fun ko =>
    let o := ko.2
    let w (k : Nat) : Word := o.words.getD k 0
    let dst := (DWord.ofHalves (w 3) (w 4)).toNat
    let lo := va.toNat / 128 * 128
    o.q = 0 && o.ctx = ctx && !(w 0).getLsbD 18 && (w 3).extractLsb' 0 2 = 0 &&
      lo < dst + (w 5).toNat && dst < lo + 128 && dst + 4 * o.pos < min (lo + 128) (dst + (w 5).toNat)

/-- R86: the agents of an access that waits. -/
def AccKind.agents : AccKind → List Nat
  | .load _ _ ags _ => ags
  | .fread ags => ags
  | .eff e => e.ags
  | .atomicRet e => e.ags
  | .acquire ags => ags
  | _ => []

/-- R78, R87: an access of a thread to a line waits while the line is in flight, or while an earlier access of its group to
the line still waits, so that a thread's accesses to one word keep their order. -/
def lineBlocked (s : State) (gid : Nat) (va : DWord) (a before : Nat) : Bool :=
  inFlight s.mem a || ((s.group gid).bind fun g => s.wg g.wg).any (fun w => awaitsCopy s w.ctx va) ||
    s.exe.pendings.any fun kp => kp.1 < before && kp.2.gid = gid &&
      match kp.2.what with
      | .access k _ pa _ _ => !k.agents.isEmpty && lineOf pa = lineOf a
      | _ => false

/-- R78, R259: threads have accesses that are not performed yet; `remote` counts writes sent to another package whose
acknowledgement has not come. -/
def accessesWaiting (s : State) (gid : Nat) (ts : List Nat) (remote : Bool) : Bool :=
  let mine (k : AccKind) : Bool := k.agents.any fun a => ts.any fun t => a = agentOf gid t
  s.exe.pendings.any fun kp => kp.2.gid = gid &&
    match kp.2.what with
    | .access k _ _ _ _ => mine k
    | .remote (.eff e) _ _ _ _ => remote && mine (.eff e)
    | .remote k _ _ _ _ => mine k
    | _ => false

/-- R136: a push of one of the threads waits at its unit. -/
def pushesDeferred (s : State) (w : WG) (gid : Nat) (ts : List Nat) (list : Option Nat) : Bool :=
  match s.ctx w.ctx with
  | none => false
  | some c => c.lists.any fun kl => list.all (· = kl.1) &&
      kl.2.units.any fun ku => ku.2.waiting.any fun p => p.gid = gid && ts.contains p.t

/-- R135, R136: a push of one of the threads is not performed yet: it waits at its unit, or for its turn there. -/
def pushesWaiting (s : State) (w : WG) (gid : Nat) (ts : List Nat) (list : Option Nat) : Bool :=
  pushesDeferred s w gid ts list || s.exe.pendings.any fun kp => kp.2.gid = gid && ts.contains kp.2.t &&
    match kp.2.what with
    | .access (.eff e) _ _ _ _ => (match e.kind with | .push l => list.all (· = l) | _ => false)
    | _ => false

end Sys2Proof.Machine
end

