-- ==== Sys2Proof/Machine/Packets.lean ====
section
/-!
DEFINITION. Packets and flits of a chord (R401 to R406): their layouts, CRC-32C, how packets leave in data flits as far
as go bits and the replay buffer allow, and how a remote access becomes a request (R258, R409).
-/

namespace Sys2Proof.Machine

/-! ## Flits -/

/-- R401: one byte of CRC-32C (Castagnoli, reflected). -/
def crcByte (c : Word) (b : Byte) : Word :=
  (List.range 8).foldl (fun c _ => if c.getLsbD 0 then (c >>> 1) ^^^ 0x82F63B78 else c >>> 1) (c ^^^ b.setWidth 32)

/-- R401: CRC-32C of a byte list. -/
def crc32c (l : List Byte) : Word := ~~~(l.foldl crcByte 0xFFFFFFFF)

/-- R401: the header fields of a flit. -/
structure FlitHead where
  type : BitVec 2
  go : BitVec 4
  av : Bool
  ackseq : BitVec 12
  seq : BitVec 12
  pmask : BitVec 60
  deriving DecidableEq, Repr

/-- The bytes of a 96-bit header, least significant first. -/
def headBytes (h : FlitHead) : List Byte :=
  let x : BitVec 96 := 0#5 ++ h.type ++ h.go ++ BitVec.ofBool h.av ++ h.ackseq ++ h.seq ++ h.pmask
  (List.range 12).map fun k => x.extractLsb' (8 * k) 8

/-- R401: the 256 bytes of a flit. -/
def flitBytes (h : FlitHead) (payload : List Word) : List Byte :=
  let body := headBytes h ++ padTo 240 (payload.flatMap bytesOfWord)
  body ++ bytesOfWord (crc32c body)

/-- R401: the header of a received flit. -/
def flitHead (l : List Byte) : FlitHead :=
  let x : BitVec 96 := wordAt l 8 ++ wordAt l 4 ++ wordAt l 0
  { type := x.extractLsb' 89 2, go := x.extractLsb' 85 4, av := x.getLsbD 84, ackseq := x.extractLsb' 72 12,
    seq := x.extractLsb' 60 12, pmask := x.extractLsb' 0 60 }

/-- R401: the flit has 256 bytes, its CRC passes and its type is not reserved. -/
def flitGood (l : List Byte) : Bool :=
  l.length = 256 && crc32c (l.take 252) = wordAt l 252 && (flitHead l).type ≠ 3

/-- R401: the payload words of a flit with their poison marks. -/
def flitWords (l : List Byte) : List (Word × Bool) :=
  (List.range 60).map fun k => (wordAt l (12 + 4 * k), (flitHead l).pmask.getLsbD k)

/-! ## Packets -/

/-- R403: ops whose packets carry data. -/
def carriesData (op : BitVec 4) : Bool := op = 2 || op = 3 || op = 4 || op = 6 || op = 7

/-- R403: the whole words of data that a packet of an op carries. len is 1 at least, so a packet that has nothing to say carries a
word of zeros. -/
def dataWords (op : BitVec 4) (len : BitVec 9) : Nat := if carriesData op then (len.toNat + 3) / 4 else 0

/-- R403: the words of a packet, with the marks of its data words. -/
def packetWords (p : Packet) : List (Word × Bool) :=
  let w0 : Word := p.op ++ p.vc ++ BitVec.ofBool p.pext ++ p.status ++ p.len ++ 0#2 ++ p.tag
  let w1 : Word := p.src ++ p.dst ++ p.ctxtag
  let w2 : DWord := p.aop ++ p.aflags ++ 0#2 ++ p.pa
  let ext := if p.pext then [p.org0, p.org1] else []
  ([w0, w1, w2.halves.1, w2.halves.2] ++ ext).map (·, false) ++ (wordsOfBytes (padTo (4 * dataWords p.op p.len) p.data)).zip (p.marks ++ List.replicate 64 false)

/-- R403: the number of words of the packet that a header word begins. -/
def packetLength (w0 : Word) : Nat :=
  4 + (if w0.getLsbD 25 then 2 else 0) + dataWords (w0.extractLsb' 28 4) (w0.extractLsb' 14 9)

/-- R403: a packet from its words. -/
def parsePacket (ws : List (Word × Bool)) : Packet :=
  let w (k : Nat) : Word := (ws.getD k (0, false)).1
  let w0 := w 0
  let w1 := w 1
  let w2 := DWord.ofHalves (w 2) (w 3)
  let pext := w0.getLsbD 25
  let d := ws.drop (if pext then 6 else 4)
  let len : BitVec 9 := w0.extractLsb' 14 9
  { op := w0.extractLsb' 28 4, vc := w0.extractLsb' 26 2, pext := pext, status := w0.extractLsb' 23 2, len := len,
    tag := w0.extractLsb' 0 12, src := w1.extractLsb' 20 12, dst := w1.extractLsb' 8 12, ctxtag := w1.extractLsb' 0 8,
    aop := w2.extractLsb' 56 8, aflags := w2.extractLsb' 54 2, pa := w2.extractLsb' 0 52,
    org0 := if pext then w 4 else 0, org1 := if pext then w 5 else 0,
    data := if d.isEmpty then [] else (d.flatMap fun x => bytesOfWord x.1).take len.toNat,
    marks := d.map (·.2) }

/-! ## Sending -/

/-- A chord. -/
def getChord (s : State) (c : Nat) : Chord := sget {} s.host.chords c

/-- Changes a chord. -/
def modChord (s : State) (c : Nat) (f : Chord → Chord) : State :=
  { s with host := { s.host with chords := sput {} s.host.chords c (f (getChord s c)) } }

/-- R402: the 60-word payloads of words laid end to end; the last is padded (log entry 21). -/
def payloads : Nat → List (Word × Bool) → List (List (Word × Bool))
  | 0, _ => []
  | _, [] => []
  | n + 1, ws => ws.take 60 :: payloads n (ws.drop 60)

/-- R406: the flits in the receive buffer of a virtual channel. -/
def Chord.filled (ch : Chord) (vc : Nat) : Nat := (ch.held.filter (·.vc = vc)).length

/-- R406: the go bits of the flits that a chord sends: set for a channel whose receive buffer of 256 flits has at least headroom
free. -/
def goBits (s : State) (c : Nat) : BitVec 4 :=
  let ch := getChord s c
  let room := ((s.mgmt (0x10000 + 32 * c + 0xC)).extractLsb' 16 16).toNat
  let go (v : Nat) : BitVec 1 := BitVec.ofBool (room + ch.filled v ≤ 256)
  go 3 ++ go 2 ++ go 1 ++ go 0

/-- R401, R404: sends one data flit: numbered, buffered, and sent. -/
def sendData (s : State) (c : Nat) (ws : List (Word × Bool)) : State :=
  let ch := getChord s c
  let mask : BitVec 60 := (List.range 60).foldl (fun m k => if (ws.getD k (0, false)).2 then m ||| (1#60 <<< k) else m) 0
  let h : FlitHead := { type := 0, go := goBits s c, av := ch.accepted, ackseq := ch.expected - 1, seq := ch.nextSeq, pmask := mask }
  let b := flitBytes h (ws.map (·.1))
  (modChord s c fun ch => { ch with nextSeq := ch.nextSeq + 1, unacked := ch.unacked ++ [(ch.nextSeq, b)] }).send (.flit c b)

/-- A packet that waits: its channel and its words. -/
abbrev Waiting := Nat × List (Word × Bool)

/-- R404, R406: the waiting packets that may leave now and those that stay: in order within each channel, while the
channel's go bit is set and the replay buffer has room. -/
def readyPackets (go : BitVec 4) (room : Nat) : List Nat → Nat → List Waiting → List Waiting × List Waiting
  | _, _, [] => ([], [])
  | held, used, p :: ps =>
    if go.getLsbD p.1 && !held.contains p.1 && (used + p.2.length + 59) / 60 ≤ room then
      let (a, b) := readyPackets go room held (used + p.2.length) ps
      (p :: a, b)
    else
      let (a, b) := readyPackets go room (p.1 :: held) used ps
      (a, p :: b)

/-- R402, R404, R406: sends the packets of a chord that is up and that may leave now, laid end to end. -/
def flushChord (s : State) (c : Nat) : State :=
  let ch := getChord s c
  if ch.state ≠ 2 then s else
  let (now, later) := readyPackets ch.go (1024 - ch.unacked.length) [] 0 ch.tx
  let s := modChord s c fun ch => { ch with tx := later }
  (payloads 1024 (now.flatMap (·.2))).foldl (fun s ws => sendData s c ws) s

/-- R402: gives a packet to its chord. -/
def queuePacket (s : State) (c : Nat) (p : Packet) : State :=
  modChord s c fun ch => { ch with tx := ch.tx ++ [(p.vc.toNat, packetWords p)] }

/-- R402: sends a packet as soon as its chord lets it leave. -/
def sendPacket (s : State) (c : Nat) (p : Packet) : State := flushChord (queuePacket s c p) c

/-- R409: the marks and the origins of data words for a packet. -/
def packetOrigins (words : List Got) : List Bool × Word :=
  (words.map (·.2.isSome), ((words.findSome? (·.2)).map (·.2)).getD 0)

/-- R258, R403: a request over a chord for results in flight or an engine operation. -/
def queueRequest (s : State) (c node ctx : Nat) (op : BitVec 4) (aop : BitVec 8) (aflags st : BitVec 2) (pa : Nat)
    (va : DWord) (len : Nat) (data : List Byte) (marks : List Bool) (org : Word × Word) (pendings : List Nat)
    (engine : Option Nat) :
    State :=
  let ch := getChord s c
  let tag := ch.nextTag
  let r : Request := { tag := tag, op := op, pendings := pendings, engine := engine, lo := va.toNat, len := len
                       place := placeKey (some (c, node)) pa }
  let s := modChord s c fun ch => { ch with nextTag := ch.nextTag + 1, requests := ch.requests ++ [r] }
  let poi := marks.any id
  queuePacket s c
    { op := op, vc := 0, pext := poi, status := st, len := BitVec.ofNat 9 len, tag := tag, src := BitVec.ofNat 12 (nodeNo s),
      dst := BitVec.ofNat 12 node, ctxtag := BitVec.ofNat 8 ctx, aop := aop, aflags := aflags, pa := BitVec.ofNat 52 pa,
      org0 := if poi then org.1 else 0, org1 := if poi then org.2 else 0, data := data, marks := marks }

/-- R258, R403: sends a request over a chord for results in flight. -/
def sendRequest (s : State) (c node ctx : Nat) (op : BitVec 4) (aop : BitVec 8) (aflags st : BitVec 2) (pa : Nat)
    (va : DWord) (len : Nat) (data : List Byte) (marks : List Bool) (origin : Word) (pendings : List Nat) : State :=
  flushChord (queueRequest s c node ctx op aop aflags st pa va len data marks (origin, 0) pendings none) c

end Sys2Proof.Machine
end

