-- ==== Sys2Proof/Machine/Messages.lean ====
section
/-!
DEFINITION. The packages of a context (R464) and MESSAGE packets between their units (R403). The payload of a MESSAGE is
the model's own (log entry 26).
-/

namespace Sys2Proof.Machine

/-- R464: an entry of a fabric member list. -/
structure Member where
  node : Nat
  tag : Nat
  quads : BitVec 4
  deriving DecidableEq, Repr

/-- R464: the fabric member list of a context. -/
def members (s : State) (ctx : Nat) : List Member :=
  let d := s.mgmt64 (0x17000 + 16 * ctx)
  let base := (d.extractLsb' 16 48).toNat * 65536
  (List.range (min (d.extractLsb' 0 13).toNat 4096)).map fun k =>
    let w := memWord s.mem (base + 4 * k)
    { node := (w.extractLsb' 0 12).toNat, tag := (w.extractLsb' 16 8).toNat, quads := w.extractLsb' 12 4 }

/-- R464: the list names this package with the context's tag and the quadrants of its partition. -/
def memberHere (s : State) (ctx : Nat) : Bool :=
  (members s ctx).any fun m => m.node = nodeNo s && m.tag = ctx && m.quads = partMask s ((s.ctx ctx).elim 0 (·.part))

/-- R127: the units of a package with the quadrants of a mask. -/
def unitsOf (node : Nat) (quads : BitVec 4) : List Nat := ((List.range 4).filter (quads.getLsbD ·)).map (node * 4 + ·)

/-- R127: the worklist units of a context over all its packages. -/
def fabricUnits (s : State) (ctx : Nat) : List Nat := (members s ctx).flatMap fun m => unitsOf m.node m.quads

/-- The tag of a context on another package. -/
def tagAt (s : State) (ctx node : Nat) : Nat := (((members s ctx).find? (·.node = node)).map (·.tag)).getD ctx

/-! ## Payloads -/

/-- A number as two payload words. -/
def numWords (n : Nat) : List Word := let d : DWord := BitVec.ofNat 64 n; [d.halves.1, d.halves.2]

/-- The words of an entry. -/
def entryWords (e : Entry) : List Word := [e.prio, e.ctl, e.lo, e.hi]

/-- Entries from their words. -/
def entriesFrom (ws : List Word) : List Entry :=
  (List.range (ws.length / 4)).map fun k =>
    ⟨ws.getD (4 * k) 0, ws.getD (4 * k + 1) 0, ws.getD (4 * k + 2) 0, ws.getD (4 * k + 3) 0⟩

/-- A number that may be absent as one number. -/
def optNum (x : Option Nat) : Nat := x.elim 0 (· + 1)

/-- A number that may be absent. -/
def numOpt (n : Nat) : Option Nat := if n = 0 then none else some (n - 1)

/-- The kind, the numbers and the further words of a message about a worklist. -/
def listParts : ListMessage → Nat × List Nat × List Word
  | .summary u low n a => (1, [u, optNum low, n, optNum a], [])
  | .stealRequest t v => (2, [t, v], [])
  | .stealReply t v es => (3, [t, v], es.flatMap entryWords)
  | .stealTaken v n => (4, [v, n], [])
  | .floorLower u f => (5, [u, f], [])
  | .floorAck u t f => (6, [u, t, f], [])
  | .cellLook u g pa => (7, [u, g, pa], [])
  | .cellState u n pa x => (8, [u, n, pa, x], [])
  | .waveRead u => (9, [u], [])
  | .waveReply u p d => (10, [u, p.toNat, d.toNat], [])
  | .armed => (11, [], [])
  | .terminated => (12, [], [])
  | .configure n ws => (13, [n], ws)
  | .configured n => (14, [n], [])

/-- The payload words of a message (log entry 26). -/
def messageWords : Message → List Word
  | .list c l g m =>
    let (k, ns, ws) := listParts m
    BitVec.ofNat 32 k :: (c :: l :: g :: ns).flatMap numWords ++ ws
  | .unitSteal i t v => 15 :: [i, t, v].flatMap numWords
  | .unitReply i t v lo hi more => 16 :: [i, t, v, lo, hi, if more then 1 else 0].flatMap numWords
  | .unitSummary i u t n => 17 :: [i, u, t, n].flatMap numWords

/-- A message from its payload words; none when they are no message. -/
def messageFrom (ws : List Word) : Option Message :=
  let f (k : Nat) : Nat := (DWord.ofHalves (ws.getD (1 + 2 * k) 0) (ws.getD (2 + 2 * k) 0)).toNat
  let g (k : Nat) : Nat := f (k + 3)
  let about (m : ListMessage) : Option Message := some (.list (f 0) (f 1) (f 2) m)
  match (ws.headD 0).toNat with
  | 1 => about (.summary (g 0) (numOpt (g 1)) (g 2) (numOpt (g 3)))
  | 2 => about (.stealRequest (g 0) (g 1))
  | 3 => about (.stealReply (g 0) (g 1) (entriesFrom (ws.drop 11)))
  | 4 => about (.stealTaken (g 0) (g 1))
  | 5 => about (.floorLower (g 0) (g 1))
  | 6 => about (.floorAck (g 0) (g 1) (g 2))
  | 7 => about (.cellLook (g 0) (g 1) (g 2))
  | 8 => about (.cellState (g 0) (g 1) (g 2) (g 3))
  | 9 => about (.waveRead (g 0))
  | 10 => about (.waveReply (g 0) (BitVec.ofNat 64 (g 1)) (BitVec.ofNat 64 (g 2)))
  | 11 => about .armed
  | 12 => about .terminated
  | 13 => about (.configure (g 0) (ws.drop 9))
  | 14 => about (.configured (g 0))
  | 15 => some (.unitSteal (f 0) (f 1) (f 2))
  | 16 => some (.unitReply (f 0) (f 1) (f 2) (f 3) (f 4) (f 5 ≠ 0))
  | 17 => some (.unitSummary (f 0) (f 1) (f 2) (f 3))
  | _ => none

/-- R403: puts a message on its way, if there is a route: its number, the oldest number that is not confirmed, its words. -/
def postMessage (s : State) (node : Nat) (x : Nat × Nat × Message) : State :=
  match routeTo s node with
  | none => s
  | some c =>
    let oldest := (((sget [] s.host.unconfirmed node).head?).map (·.1)).getD x.1
    let ws := numWords x.1 ++ numWords oldest ++ messageWords x.2.2
    sendPacket s c
      { op := 7, vc := 2, pext := false, status := 0, len := BitVec.ofNat 9 (4 * ws.length), tag := 0,
        src := BitVec.ofNat 12 (nodeNo s), dst := BitVec.ofNat 12 node, ctxtag := BitVec.ofNat 8 x.2.1, aop := 0, aflags := 0,
        pa := 0, org0 := 0, org1 := 0, data := ws.flatMap bytesOfWord, marks := [] }

/-- R146, R403: sends a message to another package. It is kept until the other package confirms it, and goes out again when a
route comes back. -/
def sendMessage (s : State) (node ctx : Nat) (m : Message) : State :=
  let x := (s.exe.nextId, ctx, m)
  let s := s.fresh.2
  let old := sget [] s.host.unconfirmed node
  postMessage { s with host := { s.host with unconfirmed := sins s.host.unconfirmed node (old ++ [x]) } } node x

/-- R146: confirms to another package that a message has come: its number alone. -/
def confirmMessage (s : State) (node n : Nat) : State :=
  match routeTo s node with
  | none => s
  | some c =>
    let ws := numWords n
    sendPacket s c
      { op := 7, vc := 2, pext := false, status := 0, len := BitVec.ofNat 9 (4 * ws.length), tag := 0,
        src := BitVec.ofNat 12 (nodeNo s), dst := BitVec.ofNat 12 node, ctxtag := 0, aop := 0, aflags := 0,
        pa := 0, org0 := 0, org1 := 0, data := ws.flatMap bytesOfWord, marks := [] }

/-- R146: the messages to a package that are not confirmed go out again. -/
def resendMessages (s : State) (node : Nat) : State :=
  (sget [] s.host.unconfirmed node).foldl (fun s x => postMessage s node x) s

/-- R146: a message is confirmed. -/
def messageConfirmed (s : State) (node n : Nat) : State :=
  let l := (sget [] s.host.unconfirmed node).filter (·.1 ≠ n)
  { s with host := { s.host with unconfirmed := sput [] s.host.unconfirmed node l } }

/-- R146: whether a message that came is new, with the memory of it. -/
def hearMessage (s : State) (node n oldest : Nat) : Bool × State :=
  let l := sget [] s.host.heard node
  (!l.contains n,
    { s with host := { s.host with heard := sins s.host.heard node ((if l.contains n then l else n :: l).filter (oldest ≤ ·)) } })

end Sys2Proof.Machine
end

