-- ==== Sys2Proof/Machine/Push.lean ====
section
/-!
DEFINITION. Worklist units (R125 to R152): the floor, room and spilling, how a push is performed, waits or is rejected,
how a task is finished, and the request for a page fault (R388).
-/

namespace Sys2Proof.Machine

/-! ## Page faults -/

/-- R388: a page that is not present is queued for the driver, unless a record for it is outstanding or waits already. -/
def requestFault (s : State) (ctx : Nat) (page : BitVec 55) (agent : Nat) (write : Bool) (loc : BitVec 11) : State :=
  let part := (s.ctx ctx).elim 0 (·.part)
  let pg := page &&& ~~~0xFFFF#55
  if s.host.faults.any fun f => f.ctx = ctx && f.page = pg then s
  else { s with host := { s.host with faults := s.host.faults ++
      [{ id := none, ctx := ctx, part := part, page := pg, agent := agent, write := write, loc := loc }] } }

/-! ## Access to worklists -/

/-- R127: the name of the worklist unit of a quadrant of this package. A fabric-domain worklist also lists the units of
other packages, under their own names. -/
def unitOf (s : State) (quad : Nat) : Nat := nodeNo s * 4 + quad

/-- R125: a worklist of a context. -/
def getList (s : State) (ctx n : Nat) : Worklist := ((s.ctx ctx).map fun c => sget {} c.lists n).getD {}

/-- Changes a worklist of a context. -/
def modList (s : State) (ctx n : Nat) (f : Worklist → Worklist) : State :=
  s.modCtx ctx fun c => { c with lists := sins c.lists n (f (sget {} c.lists n)) }

/-- A unit of a worklist. -/
def Worklist.unit (l : Worklist) (u : Nat) : WLUnit := sget {} l.units u

/-- Changes a unit of a worklist. -/
def Worklist.modUnit (l : Worklist) (u : Nat) (f : WLUnit → WLUnit) : Worklist :=
  { l with units := sins l.units u (f (l.unit u)) }

/-- R132: the bucket of an entry. -/
def Worklist.bucket (l : Worklist) (e : Entry) : Nat := e.prio.toNat >>> l.shift

/-- The lesser of two buckets, none being infinite. -/
def minBucket (a b : Option Nat) : Option Nat :=
  match a, b with
  | some x, some y => some (min x y)
  | some x, none => some x
  | none, y => y

/-- The least of a list of buckets. -/
def leastBucket (l : List Nat) : Option Nat := l.foldl (fun a x => minBucket a (some x)) none

/-- R139: the lowest bucket that a unit may hand over. -/
def Worklist.lowest (l : Worklist) (u : WLUnit) : Option Nat := leastBucket (u.queued.map fun q => l.bucket q.entry)

/-- R133: the queued entries that belong to a unit: its own, and those in transit to another unit. -/
def WLUnit.owned (u : WLUnit) : List QueuedEntry := u.queued ++ u.transit.map (·.2)

/-- R133, R134: the lowest bucket queued at a unit. -/
def Worklist.lowestOwned (l : Worklist) (u : WLUnit) : Option Nat := leastBucket (u.owned.map fun q => l.bucket q.entry)

/-- R134: the floor over the units that this package holds. -/
def Worklist.floor (l : Worklist) : Option Nat := l.units.foldl (fun a ku => minBucket a (l.lowestOwned ku.2)) none

/-- R136, R138: the floor as a unit knows it: its own lowest bucket, those of the last summaries, and the floors that other
units' urgent pushes lower. -/
def Worklist.known (l : Worklist) (u : WLUnit) : Option Nat :=
  u.lowered.foldl (fun a x => minBucket a (some x.2)) (u.seen.foldl (fun a x => minBucket a x.2.1) (l.lowestOwned u))

/-- R135, R139: a bucket lies within the bound of the floor. -/
def Worklist.within (l : Worklist) (u : WLUnit) (b : Nat) : Bool :=
  match minBucket (l.known u) l.floor with
  | some f => b ≤ f + l.bound
  | none => true

/-! ## Room (R142, R143) -/

/-- R127: the entries that a unit's spill share holds. -/
def Worklist.share (l : Worklist) : Nat := l.spsize / max l.units.length 1 * 4096

/-- R142: the entries that a quadrant's unit holds on chip, over all worklists of all contexts. -/
def onChip (s : State) (u : Nat) : Nat :=
  s.host.ctxs.foldl (fun n kc => kc.2.lists.foldl (fun n kl =>
    n + ((kl.2.unit u).owned.filter fun q => !q.spilled).length) n) 0

/-- R142: the on-chip entries of other worklists at a unit. -/
def othersAt (s : State) (l : Worklist) (u : Nat) : Nat := onChip s u - ((l.unit u).owned.filter fun q => !q.spilled).length

/-- R127: the entries of a unit's spill share that are taken. -/
def WLUnit.spillUsed (u : WLUnit) : Nat := (u.owned.filter (·.spilled)).length + u.parked.length

/-- R142: the base of the window of a unit: its lowest bucket rounded down to a multiple of 64. -/
def windowBase (lowest : Option Nat) : Nat := lowest.getD 0 / 64 * 64

/-- R142: entries above the window are spilled. -/
def Worklist.spillAbove (l : Worklist) (u : WLUnit) : WLUnit :=
  let base := windowBase (l.lowest u)
  { u with queued := u.queued.map fun q => if base + 1024 ≤ l.bucket q.entry then { q with spilled := true } else q }

/-- R142: makes room for a pushed entry: whole buckets above its own are spilled, highest first, until the unit's on-chip
entries fit; else the entry itself is spilled. -/
def Worklist.spillFor (l : Worklist) (b : Nat) (others : Nat) : Nat → WLUnit → WLUnit
  | 0, u => u
  | k + 1, u =>
    let here := (u.owned.filter fun q => !q.spilled).length
    if others + here ≤ 65536 then u
    else
      let top := (u.queued.filter fun q => !q.spilled && b < l.bucket q.entry).foldl (fun m q => max m (l.bucket q.entry)) b
      let spill (q : QueuedEntry) : QueuedEntry := if l.bucket q.entry = top then { q with spilled := true } else q
      if top = b then
        match u.queued.getLast? with
        | some q => { u with queued := u.queued.dropLast ++ [{ q with spilled := true }] }
        | none => u
      else l.spillFor b others k { u with queued := u.queued.map spill }

/-- R142, R143: places an entry at the end of a unit's queue; none when there is no room. `others` counts on-chip entries
of other worklists at the unit. -/
def Worklist.place (l : Worklist) (u : WLUnit) (others : Nat) (q : QueuedEntry) : Option WLUnit :=
  let u' := l.spillFor (l.bucket q.entry) others 65537 (l.spillAbove { u with queued := u.queued ++ [q] })
  if l.share < u'.spillUsed then none else some u'

/-- R142: the lowest bucket that a unit holds on chip. -/
def Worklist.lowestChip (l : Worklist) (u : WLUnit) : Option Nat :=
  leastBucket ((u.queued.filter fun q => !q.spilled).map fun q => l.bucket q.entry)

/-- R142: a unit's window moves up and refills from the spill share, lowest buckets first, as far as there is room. -/
def Worklist.fill (l : Worklist) (u : WLUnit) (others : Nat) : WLUnit :=
  let base := windowBase (l.lowest u)
  let room := 65536 - others - (u.owned.filter fun q => !q.spilled).length
  let due := (sortBy (fun x y => decide (l.bucket x.entry < l.bucket y.entry) || (l.bucket x.entry = l.bucket y.entry && x.age ≤ y.age))
    (u.queued.filter fun q => q.spilled && l.bucket q.entry < base + 1024)).take room
  { u with queued := u.queued.map fun q => if due.contains q then { q with spilled := false } else q }

/-- R142: after entries left a unit, it refills when its lowest on-chip bucket has emptied. -/
def Worklist.refill (l : Worklist) (before after : WLUnit) (others : Nat) : WLUnit :=
  if l.lowestChip after = l.lowestChip before then after else l.fill after others

/-! ## Performing a push -/

/-- R140: the locality bin of a payload. -/
def binOf (a : DWord) : Nat :=
  ((List.range 8).foldl (fun (b : BitVec 4) k => b ^^^ a.extractLsb' (12 + 4 * k) 4) 0).toNat

/-- R129: the kind of an entry. -/
def entryKind (e : Entry) : Nat := (e.ctl.extractLsb' 28 4).toNat
/-- R129: the payload. -/
def entryPayload (e : Entry) : DWord := DWord.ofHalves e.lo e.hi

/-- R129: a push that is not performed whatever the worklist's state. -/
def entryMalformed (e : Entry) : Bool :=
  3 ≤ entryKind e || (entryKind e ≠ 1 && e.ctl.extractLsb' 24 4 ≠ 0) ||
    (entryKind e = 2 && (e.lo.extractLsb' 0 3 ≠ 0 || (entryPayload e).extractLsb' 55 9 ≠ 0))

/-- R151, R125, R129: a rejected push. -/
def rejectPush (s : State) (ctx list u : Nat) (late : Bool) : State :=
  modList s ctx list fun l => l.modUnit u fun x => { x with rejected := min (x.rejected + 1) 127, late := x.late || late }

/-- R149: P rises at a unit by `p`, D by `d`. -/
def countWork (s : State) (ctx list u p d : Nat) : State :=
  modList s ctx list fun l => l.modUnit u fun x =>
    { x with pushes := x.pushes + BitVec.ofNat 64 p, dones := x.dones + BitVec.ofNat 64 d }

/-- R143: the worklist-spill-full event of a worklist, once until room appears. -/
def spillFull (s : State) (ctx list u gid : Nat) : State :=
  if ((getList s ctx list).unit u).spfull then s
  else
    let s := modList s ctx list fun l => l.modUnit u fun x => { x with spfull := true }
    let info := [BitVec.ofNat 64 list, BitVec.ofNat 64 (u % 4)]
    match s.group gid with
    | some g => raise s { groupEvent s g 20 7 1 info with ctx := some ctx, loc := quadLoc (u % 4) }
    | none => raise s { cls := 20, src := 7, ctx := some ctx, part := (s.ctx ctx).map (·.part), loc := quadLoc (u % 4), info := info }

/-- R136, R143: a push waits at its unit. -/
def deferPush (s : State) (ctx list u : Nat) (w : WaitingPush) : State :=
  modList s ctx list fun l => l.modUnit u fun x => { x with waiting := x.waiting ++ [w] }

/-- A push that waited is taken up again. -/
def takeWaiting (s : State) (ctx list u : Nat) (w : WaitingPush) : State :=
  modList s ctx list fun l => l.modUnit u fun x => { x with waiting := x.waiting.erase w }

/-- R142, R149: queues an entry at its unit, where there is room; none otherwise. -/
def enqueue (s : State) (ctx list u : Nat) (e : Entry) : Option State :=
  let l := getList s ctx list
  match l.place (l.unit u) (othersAt s l u) { age := l.age, bin := binOf (entryPayload e), entry := e, spilled := false } with
  | none => none
  | some x =>
    some (modList s ctx list fun l => { l.modUnit u fun _ => { x with pushes := x.pushes + 1 } with age := l.age + 1 })

/-- R131: parks a future-fill entry on its cell, where the share has room. -/
def parkEntry (s : State) (ctx list u : Nat) (e : Entry) (cell : Nat) : Option State :=
  let l := getList s ctx list
  if l.share ≤ (l.unit u).spillUsed then none
  else
    some (modList s ctx list fun l => l.modUnit u fun x =>
      { x with parked := x.parked ++ [{ cell := cell, entry := e, woken := false }], pushes := x.pushes + 1 })

/-! ## Messages about a worklist -/

/-- The other packages of a worklist's domain. -/
def otherNodes (s : State) (l : Worklist) : List Nat := ((skeys l.units).map (· / 4)).eraseDups.filter (· ≠ nodeNo s)

/-- Sends a message about a worklist to the package `node`. -/
def sendList (s : State) (ctx list node : Nat) (m : ListMessage) : State :=
  sendMessage s node (tagAt s ctx node) (.list (tagAt s ctx node) list (getList s ctx list).config m)

/-- Sends a message about a worklist to every other package of its domain. -/
def tellOthers (s : State) (ctx list : Nat) (m : ListMessage) : State :=
  (otherNodes s (getList s ctx list)).foldl (fun s n => sendList s ctx list n m) s

/-- R148: termination detection is armed, on every package. -/
def arm (s : State) (ctx list : Nat) : State :=
  if (getList s ctx list).armed then s else tellOthers (modList s ctx list fun l => { l with armed := true }) ctx list .armed

/-- The place of a cell on another package. -/
def farCell (node pa : Nat) : Nat := placeKey (some (0, node)) pa

/-- R130, R131, R142, R143, R148, R151: performs a push that is not, or no longer, urgent. A future push whose cell lies behind
a chord that is down, or whose walk fails otherwise, is rejected too: the model's choice (log entry 68). -/
def acceptPush (s : State) (ctx list u : Nat) (w : WaitingPush) : State :=
  let e := w.entry
  let wait (s : State) (why : Nat) (page : BitVec 55) (cell : Nat) : State :=
    deferPush s ctx list u { w with why := why, acked := [], page := page, cell := cell }
  let settleIn (s : State) (r : Option State) : State :=
    match r with
    | some s' => arm s' ctx list
    | none => wait (spillFull s ctx list u w.gid) 0 0 0
  if (getList s ctx list).state ≠ 1 then rejectPush s ctx list u ((getList s ctx list).state = 2)
  else if entryKind e = 1 && e.hi ≤ e.lo then arm (countWork s ctx list u 1 1) ctx list
  else if entryKind e = 2 then
    match checkFlat s ctx none w.priv { future := true } (entryPayload e) with
    | (.loc pa _, s) => settleIn s (if fullBit s.mem pa then enqueue s ctx list u e else parkEntry s ctx list u e pa)
    | (.remote _ node pa _, s) => sendList (wait s 3 0 (farCell node pa)) ctx list node (.cellLook u ctx pa)
    | (.fail k _, s) =>
      if k = causeNotPresent then
        let page := ((entryPayload e).setWidth 55 &&& ~~~0xFFFF#55)
        wait (requestFault s ctx page 1 false (BitVec.ofNat 2 (u % 4) ++ 0#9)) 2 page 0
      else rejectPush s ctx list u false
  else settleIn s (enqueue s ctx list u e)

/-- R131: another package has looked at the cell of a push, which is full, empty, or out of reach there. -/
def cellLooked (s : State) (ctx list u : Nat) (w : WaitingPush) (state : Nat) : State :=
  let s := takeWaiting s ctx list u w
  if state = 2 then rejectPush s ctx list u false
  else match (if state = 1 then enqueue s ctx list u w.entry else parkEntry s ctx list u w.entry w.cell) with
    | some s => arm s ctx list
    | none => deferPush (spillFull s ctx list u w.gid) ctx list u { w with why := 0 }

/-- R136: a bucket lies below the floor as a unit knows it. -/
def Worklist.urgent (l : Worklist) (u b : Nat) : Bool :=
  (l.units.any (·.1 ≠ u)) && (match l.known (l.unit u) with
    | some f => decide (b < f)
    | none => true)

/-- R136: the urgent push that a unit asks acknowledgements for: the first that waits. -/
def WLUnit.asking (x : WLUnit) : Option WaitingPush := x.waiting.find? (·.why = 1)

/-- R136: the floor that a unit's urgent push lowers. -/
def Worklist.asks (l : Worklist) (u : Nat) : Option Nat := (l.unit u).asking.map fun w => l.bucket w.entry

/-- R136: a unit learns the floor that another unit's urgent push lowers. -/
def WLUnit.lower (x : WLUnit) (source : Nat) (floor : Option Nat) : WLUnit :=
  { x with lowered := match floor with | some f => sins x.lowered source f | none => sdel x.lowered source }

/-- R136: tells the units of other packages the floor that an urgent push lowers. -/
def announceFloor (s : State) (ctx list u : Nat) : State :=
  let l := getList s ctx list
  match l.asks u with
  | none => s
  | some f =>
    let far := (skeys l.units).filter (· / 4 ≠ nodeNo s)
    let s := modList s ctx list fun l => far.foldl (fun l v => l.modUnit v fun x => x.lower u (some f)) l
    tellOthers s ctx list (.floorLower u f)

/-- R125, R129, R136, R151: a push by a thread at the unit of its quadrant. An urgent push waits for the acknowledgement of
every other unit. -/
def pushEntry (s : State) (ctx list u : Nat) (w : WaitingPush) : State :=
  let l := getList s ctx list
  let e := w.entry
  if l.state ≠ 1 then rejectPush s ctx list u (l.state = 2)
  else if entryMalformed e then rejectPush s ctx list u false
  else if l.urgent u (l.bucket e) && !(entryKind e = 1 && e.hi ≤ e.lo) then
    let first := ((l.unit u).asking).isNone
    let s := deferPush s ctx list u { w with why := 1, acked := [u] }
    if first then announceFloor s ctx list u else s
  else acceptPush s ctx list u w

/-- R136: performs the urgent pushes of a unit that every unit has acknowledged, or that are urgent no longer. -/
def settleUrgent (s : State) (ctx list u : Nat) : Nat → State
  | 0 => s
  | k + 1 =>
    let l := getList s ctx list
    match (l.unit u).asking with
    | none => s
    | some w =>
      if l.urgent u (l.bucket w.entry) && !(l.units.all fun ku => w.acked.contains ku.1) then s
      else settleUrgent (announceFloor (acceptPush (takeWaiting s ctx list u w) ctx list u w) ctx list u) ctx list u k

/-- R136: a unit acknowledges the floor that the urgent push of another unit lowers, and knows it from then on. -/
def acknowledge (s : State) (ctx list source target : Nat) : State :=
  let l := getList s ctx list
  match (l.unit source).asking with
  | none => s
  | some w =>
    if w.acked.contains target || !(l.units.any (·.1 = target)) then s
    else
      let s := modList s ctx list fun l =>
        (l.modUnit target fun x => x.lower source (some (l.bucket w.entry))).modUnit source fun x =>
          { x with waiting := x.waiting.map fun y => if y = w then { y with acked := target :: y.acked } else y }
      settleUrgent s ctx list source ((l.unit source).waiting.length + 1)

/-! ## Summaries, and entries from another package -/

/-- R144: a unit's summary: its lowest bucket and that bucket's count. -/
def Worklist.summary (l : Worklist) (u : WLUnit) : Option Nat × Nat :=
  let b := l.lowestOwned u
  (b, (u.owned.filter fun q => some (l.bucket q.entry) = b).length)

/-- R144: the units of another package are sent a unit's summary. -/
def sendSummary (s : State) (ctx list source node : Nat) : State :=
  let l := getList s ctx list
  let x := l.summary (l.unit source)
  let there := (skeys l.units).filter (· / 4 = node)
  let s := modList s ctx list fun l => there.foldl (fun l v => l.modUnit v fun y =>
    ({ y with seen := sins y.seen source x }).lower source (l.asks source)) l
  sendList s ctx list node (.summary source x.1 x.2 (l.asks source))

/-- R142: places entries one after another; none when one finds no room. -/
def Worklist.placeAll (l : Worklist) (others : Nat) : Nat → List Entry → WLUnit → Option WLUnit
  | _, [], u => some u
  | age, e :: es, u =>
    (l.place u others { age := age, bin := binOf (entryPayload e), entry := e, spilled := false }).bind
      (l.placeAll others (age + 1) es)

/-- R133, R145: the entries of a steal reply that waits are placed, if they all find room. The other packages are sent the
summary; the victim is told later. -/
def takeArrived (s : State) (ctx list u : Nat) (x : Nat × Nat × List Entry) : State :=
  let l := getList s ctx list
  match l.placeAll (othersAt s l u) l.age x.2.2 (l.unit u) with
  | none => s
  | some y =>
    let nodes := otherNodes s l
    let s := modList s ctx list fun l =>
      { l.modUnit u fun _ => { y with arriving := y.arriving.erase x } with age := l.age + x.2.2.length }
    let (sent, s) := nodes.foldl (fun acc n => (acc.1 ++ [(n, acc.2.exe.nextId)], sendSummary acc.2 ctx list u n))
      (([] : List (Nat × Nat)), s)
    modList s ctx list fun l => l.modUnit u fun y => { y with taken := y.taken ++ [(x.1, x.2.1, sent)] }

/-- R143: the pushes of a unit that wait for room try again, in order, and entries that arrived. With no push waiting for room
any longer, room has appeared. -/
def retryRoom (s : State) (ctx list u : Nat) : State :=
  let s := ((getList s ctx list).unit u).arriving.foldl (fun s x => takeArrived s ctx list u x) s
  let s := (((getList s ctx list).unit u).waiting.filter (·.why = 0)).foldl (fun s w =>
    acceptPush (takeWaiting s ctx list u w) ctx list u w) s
  modList s ctx list fun l => l.modUnit u fun x => { x with spfull := x.spfull && x.waiting.any (·.why = 0) }

/-- R142, R143: room has appeared at a quadrant's unit: every worklist that waits for it tries again. -/
def retryAll (s : State) (u : Nat) : State :=
  s.host.ctxs.foldl (fun s kc => kc.2.lists.foldl (fun s kl =>
    if (kl.2.unit u).waiting.any (·.why = 0) || !(kl.2.unit u).arriving.isEmpty then retryRoom s kc.1 kl.1 u else s) s) s

/-! ## Tasks -/

/-- R147: the key of a held task. -/
def taskKey (list t : Nat) : Nat := list * 128 + t

/-- R147, R149: a thread finishes the task that it holds of a worklist; a task held under an earlier configuration
changes no count. -/
def finishTask (s : State) (g : Group) (w : WG) (list t : Nat) : State :=
  match sfind g.held (taskKey list t) with
  | none => s
  | some cfg =>
    let s := s.modGroup g.id fun g => { g with held := sdel g.held (taskKey list t) }
    if cfg = (getList s w.ctx list).config && (getList s w.ctx list).state ≠ 0 then
      countWork s w.ctx list (unitOf s w.quad) 0 1
    else s

end Sys2Proof.Machine
end

