-- ==== Sys2Proof/Machine/Fork.lean ====
section
/-!
DEFINITION. Engine queues up to the fork (R77, R103, R272, R273, R276 to R279): the command buffer, the checks that
reject a command, the fork edge, the in-flight marks and the posting of results.
-/

namespace Sys2Proof.Machine

/-- R272: the length of a command of a queue. -/
def commandLength (q : Nat) : Nat := if q = 2 then 9 else 7

/-- A word of a command. -/
def cw (ws : List Word) (k : Nat) : Word := ws.getD k 0

/-- R276 to R278: the sync-word bit and the offset of a command. -/
def commandSync (q : Nat) (ws : List Word) : Option Nat :=
  let bit := if q = 4 then 17 else 16
  let off := cw ws (if q = 2 then 8 else 6)
  if (cw ws 0).getLsbD bit then some off.toNat else none

/-- R276 to R278: the offset word of a command. -/
def commandOff (q : Nat) (ws : List Word) : Word := cw ws (if q = 2 then 8 else 6)

/-- R79, R80: a sync word is aligned and wholly inside the allocation. -/
def syncOk (scratch off : Nat) : Bool := off % 16 = 0 && off + 16 ≤ scratch

/-- R279: a command is malformed and is rejected before its fork. -/
def commandBad (scratch q : Nat) (ws : List Word) : Bool :=
  let h := cw ws 0
  let cmd := (h.extractLsb' 28 4).toNat
  let sync := match commandSync q ws with
    | some off => !syncOk scratch off
    | none => commandOff q ws ≠ 0
  sync || match q with
    | 0 => !(cmd = 1 || cmd = 2) || h.extractLsb' 0 16 ≠ 0 || (cmd = 2 && h.getLsbD 17) || (cw ws 5).extractLsb' 0 2 ≠ 0 ||
        (h.getLsbD 17 && cw ws 2 ≠ 0) || (h.getLsbD 18 && cw ws 4 ≠ 0)
    | 2 => !(cmd = 1 || cmd = 2) || h.extractLsb' 0 15 ≠ 0 || (cw ws 7).extractLsb' 24 8 ≠ 0 ||
        (h.getLsbD 18 && cw ws 6 ≠ 0) || (h.getLsbD 17 && cw ws 4 ≠ 0)
    | _ => cmd ≠ 1 || 3 ≤ (h.extractLsb' 14 3).toNat || (h.extractLsb' 12 2).toNat = 3 || h.extractLsb' 0 12 ≠ 0 ||
        (h.getLsbD 18 && cw ws 2 ≠ 0)

/-- R276 to R278: the total of bytes that an operation counts on its sync word. -/
def commandBytes (q : Nat) (ws : List Word) : Nat :=
  match q with
  | 0 => (cw ws 5).toNat
  | 2 => ((cw ws 7).extractLsb' 0 24).toNat * (if (cw ws 0).getLsbD 15 then 8 else 4)
  | _ => 4 * (cw ws 5).toNat

/-! ## Results -/

/-- The queue pair of a group: q0 and q1 under 0, q2 and q3 under 2, q4 and q5 under 4. -/
def Group.queue (g : Group) (q : Nat) : Queue := sget {} g.queues (q / 2 * 2)

/-- Changes a queue pair. -/
def Group.modQueue (g : Group) (q : Nat) (f : Queue → Queue) : Group :=
  { g with queues := sput {} g.queues (q / 2 * 2) (f (g.queue q)) }

/-- R272: room in a result queue. -/
def resultRoom (s : State) (gid q : Nat) : Bool :=
  (findGroup s gid).all fun g => (g.queue q).results.length < 8 && (g.queue q).held.isEmpty

/-- R272, R279: posts a result, or holds it for room. -/
def postResult (s : State) (gid q : Nat) (r : EngResult) : State :=
  modGroupAny s gid fun g => g.modQueue q fun u =>
    if u.results.length < 8 && u.held.isEmpty then { u with results := u.results ++ [r] }
    else { u with held := u.held ++ [r] }

/-! ## The fork -/

/-- R272: the words of a group's commands that its engine has not started. -/
def unstartedWords (s : State) (gid q : Nat) : Nat :=
  s.exe.engOps.foldl (fun n ko => if ko.2.gid = gid && ko.2.q = q && !ko.2.started then n + ko.2.words.length else n) 0

/-- R272, R275: words in the command buffer of a queue. -/
def bufferUsed (s : State) (g : Group) (q : Nat) : Nat := (g.queue q).partWords.length + unstartedWords s g.id q

/-- R273: a QW waits while the buffer is full. -/
def bufferFull (s : State) (g : Group) (q : Nat) : Bool := 16 ≤ bufferUsed s g q

/-- The bytes of an operation that have been moved in whole. -/
def EngOp.total (o : EngOp) : Nat := commandBytes o.q o.words

/-- R279: every word of an operation was moved and counted, and no remote word is in flight. -/
def EngOp.finished (o : EngOp) : Bool := o.started && o.total ≤ 4 * o.pos && o.acks = 0 && o.moved = o.arrived

/-- R272: the engine holds a result of a group's queue for room, and starts no further command of that queue. -/
def engineHolds (s : State) (g : Group) (q : Nat) : Bool :=
  !(g.queue q).held.isEmpty ||
    (8 ≤ (g.queue q).results.length && s.exe.engOps.any fun ko => ko.2.gid = g.id && ko.2.q = q && ko.2.finished)

/-- R413: the destination of a copy lies in a fabric window, judged at its first page. -/
def destRemote (s : State) (o : EngOp) : Bool :=
  match (checkFlat s o.ctx none o.priv { write := true } (DWord.ofHalves (cw o.words 3) (cw o.words 4))).1 with
  | .remote _ _ _ _ => true
  | _ => false

/-- R82: the copy of a line in a core's L1 is invalidated: monitors armed on it there take the flag. -/
def invalidateLine (s : State) (core line : Nat) : State :=
  s.mapGroups fun g =>
    if g.mon.armed && g.mon.line = line && (s.wg g.wg).any (·.coreNo = core) then { g with mon := { g.mon with flag := true } }
    else g

/-- R77, R82: marks the destination lines of a page range in flight: those whose page translates to local memory. The
issuing core's copies are invalidated. -/
def markLines (s : State) (o : EngOp) (va : Nat) : Nat → State
  | 0 => s
  | k + 1 =>
    let s := match (walk s o.ctx va).1 with
      | .leaf l =>
        let pa := entryPa l.entry + va % 2 ^ levelShift l.level
        if (regionOf pa = .reserved) || (windowOf s pa).isSome then s
        else invalidateLine (s.withMem { s.mem with flight := (lineOf pa, o.id) :: s.mem.flight }) (80 * o.quad + o.core) (lineOf pa)
      | .fail _ _ => s
    markLines s o (va + 128) k

/-- R77: marks in flight the destination lines of a copy-engine operation between two addresses, those that it has not written yet. -/
def markBetween (s : State) (o : EngOp) (lo hi : Nat) : State :=
  if o.q ≠ 0 || (cw o.words 0).getLsbD 18 || (cw o.words 3).extractLsb' 0 2 ≠ 0 then s else
  let dst := (DWord.ofHalves (cw o.words 3) (cw o.words 4)).toNat
  let lo := max (dst + 4 * o.pos) lo
  let hi := min (dst + o.total) hi
  if hi ≤ lo then s else markLines s o (lo / 128 * 128) ((hi - 1) / 128 - lo / 128 + 1)

/-- R77: marks every destination line of a copy-engine operation in flight. -/
def markFlight (s : State) (o : EngOp) : State := markBetween s o 0 (2 ^ 65)

/-- R103: the operation's reads see what is visible to the threads that fork it. -/
def forkEdge (s : State) (op : Nat) (ags : List Nat) : State :=
  s.withMem (ags.foldl (fun m a => raiseFloors m (agentOf op 0) (floorsOf m a)) s.mem)

/-- R273, R279: the QW that completes a command forks the operation, or the command is rejected with one ENGINE_FAULT
result. -/
def forkCommand (s : State) (g : Group) (w : WG) (q : Nat) (ags : List Nat) (pc : DWord) (ws : List Word) : State :=
  if commandBad w.scratch q ws then postResult s g.id q { tag := 0, failed := true, pc := pc }
  else
    let (n, s) := s.fresh
    let l := s.launch w.launch
    let o : EngOp :=
      { id := n, gid := g.id, wg := w.id, ctx := w.ctx, launch := w.launch, q := q, words := ws, pc := pc,
        base := w.scratchBase, scratch := w.scratch, quad := w.quad, core := w.core,
        part := (s.ctx w.ctx).elim 0 (·.part), priv := l.any (·.priv), rid := g.recordId, count := g.retired, started := !engineHolds s g q
        forkers := ags }
    let s := s.modLaunch w.launch fun l => { l with names := n :: l.names }
    let s := forkEdge { s with exe := { s.exe with engOps := sins s.exe.engOps n o } } n ags
    let s := match commandSync q ws with
      | some off => nameSync s w.id off
      | none => s
    markFlight s o

/-- R273: pushes a word into the command buffer of q0, q2 or q4. -/
def pushWord (s : State) (gid q : Nat) (ags : List Nat) (pc : DWord) (x : Word) : State :=
  match s.group gid with
  | none => s
  | some g =>
  match s.wg g.wg with
  | none => s
  | some w =>
    let ws := (g.queue q).partWords ++ [x]
    if ws.length < commandLength q then s.modGroup gid fun g => g.modQueue q fun u => { u with partWords := ws }
    else
      let s := s.modGroup gid fun g => g.modQueue q fun u => { u with partWords := [] }
      forkCommand s g w q ags pc ws

/-- R66, R273: a QW with poisoned data discards the command being assembled and posts one ENGINE_FAULT result. -/
def poisonWord (s : State) (gid q : Nat) (pc : DWord) : State :=
  postResult (s.modGroup gid fun g => g.modQueue q fun u => { u with partWords := [] }) gid q
    { tag := 0, failed := true, pc := pc }

/-- R103: a thread that observes a join sees what the operation wrote. -/
def joinOp (s : State) (ags : List Nat) (op : Nat) : State :=
  s.withMem (ags.foldl (fun m a => raiseFloors m a (floorsOf m (agentOf op 0))) s.mem)

/-- R299: threads that observe a tile full join the operations that completed on it. -/
def joinTile (s : State) (ags : List Nat) (x : Tile) : State := x.last.foldl (fun s n => joinOp s ags n) s

/-- Ranges of generations, modulo 2^32, have one in common. -/
def rangesMeet (a b c d : Word) : Bool := (c - a).toNat ≤ (b - a).toNat || (a - c).toNat ≤ (d - c).toNat

/-- R81, R103: observing generations from `lo` to `hi` of a sync word joins the operations that contributed to them. -/
def joinSync (s : State) (w : WG) (ags : List Nat) (off : Nat) (lo hi : Word) : State :=
  (w.contribs.filter fun c => c.1 = off && rangesMeet lo hi c.2.1 c.2.2.1).foldl (fun s c =>
    s.withMem (ags.foldl (fun m a => raiseFloors m a (floorsOf m c.2.2.2)) s.mem)) s

end Sys2Proof.Machine
end

