-- ==== Sys2Proof/Machine/Effects.lean ====
section
/-!
DEFINITION. Effects (R57): how one is performed at its place, how it waits (R78, R258, R429), what poison does to it
outside a span (R66), the quarantine buffer that holds it inside one (R58, R59), and how poison becomes live (R60).
-/

namespace Sys2Proof.Machine

/-- The poison that an effect stores: of its data, or of its guard. -/
def Eff.poi (e : Eff) : Bool := e.dpoi.isSome || e.gpoi.isSome

/-- R262, R306: a narrow store writes one or two bytes of its word. -/
def storeByte (s : State) (e : Eff) : State :=
  let k := e.pa % 4
  writeOne s e.ags (e.pa / 4 * 4) ((e.data.headD 0).shiftLeft (8 * k)) (BitVec.ofNat 4 (2 ^ e.size - 1) <<< k) e.poi e.origin
    (e.va - BitVec.ofNat 64 k)

/-- R6, R79: what an STS writes: not the reserved word of a sync word. -/
def Eff.written (e : Eff) (w : Option WG) : Eff :=
  let keep := (List.range e.data.length).filter fun k => !w.any fun w => syncReserved w (e.pa + 4 * k)
  if e.scratch then { e with data := (e.data.take keep.length) } else e

/-- R66, R262, R265, R280, R282, R284, R285, R273: performs an effect at its local place. -/
def performLocal (s : State) (e : Eff) : State :=
  let w := (s.group e.gid).bind fun g => s.wg g.wg
  match e.kind with
  | .store =>
    let e := e.written w
    let s := if e.data.isEmpty then s else if e.size < 4 then storeByte s e else writeWords s e.ags e.pa e.poi e.origin e.va e.data
    if e.scratch then syncAfterStore s (w.elim 0 (·.id)) e.ags e.pa else s
  | .atomic op wide signed =>
    (atomicAt s op wide signed (homeMismatch s (some e.gid) e.ctx e.part e.pa e.pc) e.t e.ctx e.part e.ags e.va e.pa e.data e.dpoi.isSome e.origin).2
  | .fill => fillAt s e.ctx e.ags e.pa e.data e.poi e.origin e.va
  | .clear => clearAt s e.pa
  | .push list =>
    match w with
    | none => s
    | some w =>
      pushEntry s w.ctx list (unitOf s w.quad)
        { gid := e.gid, t := e.t, inst := e.inst, why := 0, acked := [], page := 0, cell := 0
          entry := ⟨e.data.getD 0 0, e.data.getD 1 0, e.data.getD 2 0, e.data.getD 3 0⟩
          priv := (s.launch w.launch).any (·.priv) }
  | .qw => if e.dpoi.isSome then poisonWord s e.gid e.size e.pc else pushWord s e.gid e.size e.ags e.pc (e.data.headD 0)
  | .swset => syncSet s e.ags e.pa (e.data.headD 0)
  | .swadd => syncAdd s e.ags e.pa (e.data.headD 0)

/-! ## Effects on another package -/

/-- The op, the atomic op, its flags, and the status bits of the request that an effect sends to another package (R403).
FFILL and FCLR travel as ATOMIC packets with their own op values, and status bit 0 carries signedness (log entry 22). -/
def effRequest (e : Eff) (ret : Bool) : BitVec 4 × BitVec 8 × BitVec 2 × BitVec 2 :=
  match e.kind with
  | .atomic op wide signed => (3, BitVec.ofNat 8 (0x70 + op), BitVec.ofBool ret ++ BitVec.ofBool wide, if signed then 1 else 0)
  | .fill => (3, 0x8D, 1, 0)
  | .clear => (3, 0x8F, 1, 0)
  | _ => (2, 0, 0, 0)

/-- R83, R257, R403: the status bit with which a packet says that more lanes of its instruction follow for the word (log entry
22). -/
def moreLanes : BitVec 2 := 2

/-- R83, R257, R258, R259: sends lanes of one instruction to a word of another package: those of an atomic in packets of at most 256
bytes, any others one by one. Each has its destination. Their results in flight end with the responses. -/
def sendLanes (c node : Nat) (ret : Bool) : Nat → List (Eff × List Dest) → State → State
  | 0, _, s => s
  | _, [], s => s
  | n + 1, (e, d) :: es, s =>
    let (op, aop, aflags, st) := effRequest e ret
    let bytes (e : Eff) : List Byte :=
      if e.size < 4 then (e.data.flatMap bytesOfWord).take e.size else e.data.flatMap bytesOfWord
    let k := match e.kind with | .atomic _ _ _ => 256 / max (bytes e).length 1 | _ => 1
    let now := (e, d) :: es.take (k - 1)
    let later := es.drop (k - 1)
    let data := now.flatMap fun x => bytes x.1
    let marks := now.flatMap fun x => x.1.data.map fun _ => x.1.poi
    let origin := ((now.find? (·.1.poi)).map (·.1.origin)).getD 0
    let tag := (getChord s c).nextTag.toNat
    let (ids, s) := now.foldl (fun (acc : List Nat × State) x =>
      let k : AccKind := if ret then .atomicRet x.1 else .eff x.1
      (acc.1 ++ [acc.2.exe.nextId], addPending acc.2 x.1.gid x.1.t x.1.pc (.remote k x.1.va c tag x.2)))
      (([] : List Nat), s)
    let s := sendRequest s c node e.ctx op aop aflags (if later.isEmpty then st else st ||| moreLanes) e.pa e.va (max data.length 1) data
      marks origin ids
    sendLanes c node ret n later s

/-- R258, R259: sends effects of one instruction on one place to another package. -/
def performRemote (s : State) (c node : Nat) (ret : Bool) (es : List (Eff × List Dest)) : State :=
  sendLanes c node ret es.length es (es.foldl (fun s x => noteWindow s x.1.ctx (some x.1.core) x.1.va) s)

/-- R66: a poisoned guard does not keep an effect of the kind from being performed. -/
def Eff.stores (e : Eff) : Bool := e.kind = .store || e.kind = .fill

/-- R83, R257: the lanes of one instruction whose writes go to one word, in ascending t. -/
def Eff.mates (e : Eff) (effs : List Eff) : List Eff :=
  effs.filter fun x => x.kind = e.kind && x.gid = e.gid && x.pc = e.pc && x.inst = e.inst && x.chord = e.chord && x.pa / 4 = e.pa / 4 &&
    x.apoi.isNone && (x.gpoi.isNone || x.stores)

/-! ## Performing -/

/-- The effect acts on a physical page (R389). -/
def Eff.flat (e : Eff) : Bool :=
  !e.scratch && match e.kind with
    | .push _ | .qw | .swset | .swadd => false
    | _ => true

/-- The place of an effect that acts on no memory. -/
def noPlace : Nat := 0x2000000000000000

/-- R78, R103, R135, R273: an effect that has left the core must wait: for its line; a QW for room in the buffer and for the
earlier accesses of its threads, which the operation that it forks sees; a push for the earlier pushes and pops of its thread,
and for those of lower threads that its instruction made (R285). `before` tells what is earlier. -/
def Eff.blocked (e : Eff) (s : State) (before : Nat) : Bool :=
  let earlier (p : Eff → Bool) : Bool := s.exe.pendings.any fun kp => kp.1 < before && kp.2.gid = e.gid && match kp.2.what with
    | .access k _ _ _ _ => (match k with | .eff x => p x | k => k.agents.any (e.ags.contains ·))
    | .remote k _ _ _ _ => (match k with | .eff _ => false | k => k.agents.any (e.ags.contains ·))
    | _ => false
  match e.kind with
  | .qw => (s.group e.gid).any (bufferFull s · e.size) || earlier fun x => x.kind = .qw || x.ags.any (e.ags.contains ·)
  | .push _ =>
    (s.ctx e.ctx).any (fun c => c.lists.any fun kl => kl.2.units.any fun ku => ku.2.waiting.any fun p =>
        p.gid = e.gid && (p.t = e.t || p.inst = e.inst)) ||
      s.exe.pendings.any fun kp => kp.1 < before && kp.2.gid = e.gid && match kp.2.what with
        | .access (.eff x) _ _ _ _ => (match x.kind with | .push _ => x.t = e.t || x.inst = e.inst | _ => false)
        | .pop _ _ _ => kp.2.t = e.t
        | _ => false
  | _ => e.flat && lineBlocked s e.gid e.va e.pa before

/-- R78, R389, R429: performs an effect now, or lets it wait, or sends it away with the lanes of its instruction. -/
def submit (effs : List Eff) (s : State) (e : Eff) : State :=
  match e.chord with
  | some (c, node) =>
    if (e.mates effs).head? = some e then performRemote s c node false ((e.mates effs).map fun x => (x, [])) else s
  | none =>
    let wait := addPending s e.gid e.t e.pc (.access (.eff e) e.va (if e.flat then e.pa else noPlace) e.size [])
    if e.blocked s s.exe.nextId then wait
    else if !e.flat then performLocal s e
    else match noteWrite s e.ctx (some e.core) e.va e.pa with
      | none => wait
      | some s => performLocal s e

/-- R66: what becomes of an effect outside a span: performed, performed poisoned and counted as kept, or dropped and
counted. -/
inductive Fate where
  | clean
  | kept (tok : Token)
  | dropped (tok : Token)
  deriving DecidableEq, Repr

/-- R66, R84, R256, R273, R280: the fate of an effect. A fill with poisoned data counts as kept, whether or not its cell is full
already (log entry 65). -/
def Eff.fate (e : Eff) : Fate :=
  match e.apoi, e.gpoi, e.dpoi with
  | some k, _, _ => .dropped k
  | none, some k, _ =>
    match e.kind with
    | .store | .fill => .kept k
    | _ => .dropped k
  | none, none, some k =>
    match e.kind with
    | .store | .atomic _ _ _ | .fill => .kept k
    | _ => .dropped k
  | none, none, none => .clean

/-- R66: performs one effect of several by its fate. A QW with poisoned data discards its command, in its turn. -/
def performOne (effs : List Eff) (s : State) (e : Eff) : State :=
  match e.fate with
  | .clean => submit effs s e
  | .kept _ => submit effs s e
  | .dropped _ => if e.kind = .qw && e.dpoi.isSome && e.gpoi.isNone then submit effs s e else s

/-- R66: performs effects in order and counts what was kept and what was dropped, for the instruction at `pc`. -/
def performAll (s : State) (gid : Nat) (pc : DWord) (effs : List Eff) : State :=
  let s := kept s gid pc (effs.filterMap fun e => match e.fate with | .kept k => some k | _ => none)
  let s := dropped s gid pc (effs.filterMap fun e => match e.fate with | .dropped k => some k | _ => none)
  effs.foldl (performOne effs) s

/-! ## The quarantine buffer -/

/-- R58: the place of a held effect. -/
def Eff.place (e : Eff) : Nat := placeKey e.chord e.pa

/-- R58: the line of a held effect; none for a push, a QW and an effect with no address. -/
def Eff.line (e : Eff) : Option Nat :=
  match e.kind with
  | .push _ | .qw => none
  | _ => if e.apoi.isSome then none else some (lineOf e.place)

/-- R79, R280: where the bytes of a held effect lie: those of SWADD are the count of its sync word. -/
def Eff.start (e : Eff) : Nat := if e.kind = .swadd then e.place + 4 else e.place

/-- R58: the bytes that a held effect writes, by their place. -/
def Eff.bytes (e : Eff) : List Nat := (List.range e.size).map (e.start + ·)

/-- R58: an effect that merges with the entry of its line. -/
def Eff.isStore (e : Eff) : Bool := e.kind = .store || e.kind = .swset || e.kind = .swadd

/-- R58: stores merge into the youngest entry when it is for their line and holds no byte that they write from another
thread. -/
def mergesEntry (q : QEntry) (line : Option Nat) (effs : List Eff) : Bool :=
  q.line.isSome && q.line = line &&
    effs.all fun e => q.effs.all fun o => o.owners = e.owners || !(e.bytes.any o.bytes.contains)

/-- R58: whether effects of one instruction share an entry: those on one line; a push and a QW take one each. Effects with
poisoned addresses, which have no line, share one too, for which the rule gives no count (log entry 65). -/
def sameEntry (a b : Eff) : Bool :=
  match a.kind with
  | .push _ | .qw => false
  | _ => a.line = b.line

/-- R58: the effects of one instruction by entry, in order of their first threads. -/
def groupEffs : Nat → List Eff → List (List Eff)
  | 0, _ => []
  | _, [] => []
  | n + 1, e :: es => (e :: es.filter (sameEntry e)) :: groupEffs n (es.filter fun x => !sameEntry e x)

/-- R58: a group's quarantine with the effects of one instruction added. -/
def holdIn (q : List QEntry) (effs : List Eff) : List QEntry :=
  (groupEffs effs.length effs).foldl (fun q es =>
    let line := (es.head?.bind Eff.line)
    match q.getLast? with
    | some y => if es.all (·.isStore) && mergesEntry y line es then q.dropLast ++ [{ y with effs := y.effs ++ es }]
                else q ++ [⟨line, es⟩]
    | none => q ++ [⟨line, es⟩]) q

/-- R58: the shared entries in use on a core, but for one group. -/
def sharedUsed (s : State) (core gid : Nat) : Nat :=
  s.exe.groups.foldl (fun n kg =>
    if kg.1 ≠ gid && (s.wg kg.2.wg).any (·.coreNo = core) then n + (kg.2.quar.length - 8) else n) 0

/-- R58: the effects find free entries: 8 reserved for the group, then 256 shared on the core. -/
def fitsHeld (s : State) (g : Group) (w : WG) (effs : List Eff) : Bool :=
  let n := (holdIn g.quar effs).length
  n ≤ 8 || n - 8 + sharedUsed s w.coreNo g.id ≤ 256

/-! ## Live poison -/

/-- R47: causes that COMMIT.RPL serves. -/
def serviceable (c : Cause) : Bool := c = causeNotPresent || c = causeShadow || c = causeFutureEmpty || c = causeEmptyRead

/-- R62: the registers whose fill serves an EMPTY_READ poison of a thread: those that the thread's own read found empty, or
those of the thread that the record names where the poison came from another thread. -/
def Record.emptyFor (r : Record) (t : Nat) : List RegName :=
  let own := r.regs.filter (·.1 = t)
  (if own.isEmpty then r.regs.filter (·.1 = r.thread.toNat) else own).map (·.2)

/-- R60: poison with a token becomes live in a thread with its span open; `r` is the record that the token names now. -/
def Group.becomeLive (g : Group) (t : Nat) (tok : Token) (r : Option Record) : Group :=
  if !g.span.opened.getLsbD t then g else
  let sp := g.span
  let bit : Mask := 1#128 <<< t
  let cause : Cause := r.elim 0 (·.cause)
  let x : LivePoison :=
    { t := t, tok := tok, cause := cause, write := r.any (·.write), addr := r.elim 0 (·.addr), regs := r.elim [] (·.emptyFor t) }
  { g with span := { sp with
      live := sp.live ||| bit
      unserv := if serviceable cause then sp.unserv else sp.unserv ||| bit
      first := if sp.live.getLsbD t then sp.first else sput 0 sp.first t cause
      poisons := if sp.poisons.contains x then sp.poisons else sp.poisons ++ [x] } }

/-- R60: poison that reaches a sink becomes live in a thread of a group. -/
def makeLive (s : State) (gid t : Nat) (tok : Token) : State := s.modGroup gid (·.becomeLive t tok (recordFor s gid tok))

/-- R60: the poison of an effect, in the order address, data, guard. -/
def Eff.tokens (e : Eff) : List Token := [e.apoi, e.dpoi, e.gpoi].filterMap id

/-- R57, R60, R86: holds effects in the quarantine buffer; their poison becomes live in every thread whose effect it is. -/
def holdEffs (s : State) (gid : Nat) (effs : List Eff) : State :=
  let s := effs.foldl (fun s e => e.tokens.foldl (fun s k => (threadsOf e.owners).foldl (fun s t => makeLive s gid t k) s) s) s
  s.modGroup gid fun g => { g with quar := holdIn g.quar effs }

/-- Takes the held effects of threads out of the buffer, in order of allocation. -/
def takeHeld (g : Group) (m : Mask) : List Eff × Group :=
  ((g.quar.flatMap (·.effs)).filter fun e => e.owners &&& m ≠ 0,
   { g with quar := (g.quar.map fun q => { q with effs := q.effs.filter fun e => e.owners &&& m = 0 }).filter fun q => !q.effs.isEmpty })

/-- R61, R62: discards the held effects of threads: an effect that is other threads' too stays held for them. -/
def discardHeld (g : Group) (m : Mask) : Group :=
  let left (e : Eff) : Option Eff := if e.owners &&& ~~~m = 0 then none else some { e with owners := e.owners &&& ~~~m }
  { g with quar := (g.quar.map fun q => { q with effs := q.effs.filterMap left }).filter fun q => !q.effs.isEmpty }

/-- R59, R280: a held byte of a thread at a place, from its effects, youngest first, with the origin of its poison. SWSET stores
target and count, SWADD what it makes of the count that the thread sees. -/
def heldByteOf (m : MemSys) (t : Nat) (a : Nat) : List Eff → Option (Byte × Option Word)
  | [] => none
  | e :: es =>
    let at' := e.start
    let mine := e.owners.getLsbD t && e.apoi.isNone && at' ≤ a && a < at' + e.size
    let k := a - at'
    let byte (w : Word) : Byte := w.extractLsb' (8 * (k % 4)) 8
    if !mine then heldByteOf m t a es
    else match e.kind with
      | .store | .swset => some (byte (e.data.getD (k / 4) 0), if e.poi then some e.origin else none)
      | .swadd =>
        if e.poi then heldByteOf m t a es
        else
          let old (j : Nat) : Byte := ((heldByteOf m t (at' + j) es).map (·.1)).getD (memByte m (at' + j))
          some (byte (wordOfBytes (old 0) (old 1) (old 2) (old 3) + e.data.headD 0), none)
      | _ => heldByteOf m t a es

/-- R59, R79: the held bytes of a thread's access, by their place in it. The reserved word of a sync word holds none. -/
def heldBytes (m : MemSys) (w : WG) (g : Group) (t place size : Nat) : SMap (Byte × Option Word) :=
  if g.quar.isEmpty then [] else
  let effs := (g.quar.flatMap (·.effs)).reverse
  (List.range size).filterMap fun k =>
    if syncReserved w (place + k) then none else (heldByteOf m t (place + k) effs).map (k, ·)

end Sys2Proof.Machine
end

