-- ==== Sys2Proof/Machine/Paths.lean ====
section
/-!
DEFINITION. Paths of a group (R183 to R191): splits, joins, the reconvergence stack, how threads leave, and named barriers
(R202 to R205) as far as exits and arrivals complete their phases.
-/

namespace Sys2Proof.Machine

/-! ## The stack -/

/-- R183: the index of the innermost stack entry that a path owns. -/
def Group.innermost (g : Group) (pid : Nat) : Option Nat :=
  ((List.range g.stack.length).filter fun k => (g.stack[k]?).any (·.owner = pid)).getLast?

/-- R183: the innermost stack entry that a path owns. -/
def Group.top (g : Group) (pid : Nat) : Option StackEntry := (g.innermost pid).bind fun k => g.stack[k]?

/-- R185: a divergent split of the path is a top split. -/
def Group.topSplit (g : Group) (pid : Nat) : Bool := g.paths.length = 1 && (g.innermost pid).isNone

/-- R185: a divergent split of the path finds the stack entries it needs. -/
def Group.canSplit (g : Group) (pid : Nat) : Bool :=
  g.topSplit pid ||
    match sfind g.paths pid with
    | some p => g.stack.length + (if p.pend.isSome then 2 else 1) ≤ 32
    | none => false

/-- R185, R186, R188: splits a path into the taken threads at `tpc` and the rest at `fpc`. In a top split the issuing path
goes on as the fall side (log entry 23). `repend` sets the fall side's pending join point again. -/
def Group.split (g : Group) (pid : Nat) (taken : Mask) (tpc fpc : DWord) (repend : Bool) : Group :=
  match sfind g.paths pid with
  | none => g
  | some p =>
    let fall := p.mask &&& ~~~taken
    let again := if repend then p.pend else none
    if g.topSplit pid then
      let t : Path := { p with pc := tpc, mask := taken, pend := none, park := .running }
      let f : Path := { p with pc := fpc, mask := fall, pend := again, park := .running }
      { g with paths := sins (sins g.paths pid f) (1 - pid) t, topJoin := p.pend }
    else
      let merge : List StackEntry := match p.pend with
        | some j => [{ kind := .merge, owner := pid, pc := 0, mask := p.mask, mode := j.mode, rstack := j.rstack, join := p.pend }]
        | none => []
      let deferred : StackEntry :=
        { kind := .deferred, owner := pid, pc := fpc, mask := fall, mode := p.mode, rstack := p.rstack, join := p.pend,
          repend := repend }
      { g with stack := g.stack ++ merge ++ [deferred]
               paths := sins g.paths pid { p with pc := tpc, mask := taken, pend := none, park := .running } }

/-- R190: pops the stack entry at an index into its path: a deferred entry resumes, a merge entry goes on after the
join. Threads held at a COMMIT stay parked there (R62). -/
def Group.popAt (g : Group) (pid k : Nat) : Group :=
  match g.stack[k]?, sfind g.paths pid with
  | some e, some p =>
    let mask := e.mask &&& ~~~g.exited
    let p' : Path := match e.kind with
      | .merge => { p with mask := mask, mode := e.mode, rstack := e.rstack, park := .running
                           pc := nextPc ((e.join.map (·.pc)).getD 0) }
      | .deferred => { p with mask := mask, mode := e.mode, rstack := e.rstack, pc := e.pc
                              pend := if e.repend then e.join else none
                              park := if e.hold.isSome then .commit else .running }
      | .trap => { p with mask := mask, mode := e.mode, pc := e.pc, park := .running }
    let holds := match e.hold with
      | some h => smod g.span.holds h fun x => { x with side := some pid }
      | none => g.span.holds
    let g := { g with stack := g.stack.eraseIdx k, paths := sins g.paths pid p' }
    { g with span := { g.span with holds := holds } }
  | _, _ => g

/-- R190 cases 1 and 2, applied again while the new innermost entry has the same join point after a merge entry. -/
def Group.popJoin (g : Group) (pid : Nat) (a : DWord) : Nat → Group
  | 0 => g
  | n + 1 =>
    match g.innermost pid with
    | none => g
    | some k =>
      match g.stack[k]? with
      | none => g
      | some e =>
        if e.join.map (·.pc) ≠ some a then g
        else if e.kind = .merge then (g.popAt pid k).popJoin pid a n
        else g.popAt pid k

/-- R190 case 3: the two top paths become one, with the union of their masks and the RECONV mode and return stack. -/
def Group.mergeTop (g : Group) (pid other : Nat) (a : DWord) : Group :=
  match sfind g.paths pid, sfind g.paths other with
  | some p, some o =>
    let (mode, rstack) := match g.topJoin with
      | some j => (j.mode, j.rstack)
      | none => (p.mode, p.rstack)
    { g with
      paths := sins (sdel g.paths other) pid
        { p with mask := p.mask ||| o.mask, mode := mode, rstack := rstack, pc := nextPc a, park := .running }
      stack := g.stack.map fun e => if e.owner = other then { e with owner := pid } else e
      topJoin := none }
  | _, _ => g

/-- R190: what a path does at a JOIN at an address. The flag says that two sides have merged. -/
def Group.join (g : Group) (pid : Nat) (a : DWord) : Group × Bool :=
  match sfind g.paths pid with
  | none => (g, false)
  | some p =>
    match g.top pid with
    | some e =>
      if e.join.map (·.pc) = some a then (g.popJoin pid a 33, e.kind = .merge)
      else ({ g with paths := sins g.paths pid { p with pc := nextPc a, park := .running } }, false)
    | none =>
      if g.topJoin.map (·.pc) = some a && g.paths.length = 2 then
        match sfind g.paths (1 - pid) with
        | some o =>
          if o.park = .join a || (o.mask = 0 && (g.innermost (1 - pid)).isNone) then (g.mergeTop pid (1 - pid) a, true)
          else ({ g with paths := sins g.paths pid { p with park := .join a } }, false)
        | none => (g, false)
      else ({ g with paths := sins g.paths pid { p with pc := nextPc a, park := .running } }, false)

/-- R186: a path ends; the other, if there is one, becomes the group's only path and keeps its entries. -/
def Group.endPath (g : Group) (pid : Nat) : Group :=
  { g with paths := sdel g.paths pid, topJoin := none }

/-- R186, R190: a path without an active thread behaves as if it had issued JOIN at its innermost join point, until a popped
entry has threads; with no entry left it does so at its top join point, or ends. -/
def Group.vanish (g : Group) (pid : Nat) : Nat → Group
  | 0 => g
  | n + 1 =>
    match sfind g.paths pid with
    | none => g
    | some p =>
      if p.mask ≠ 0 then g
      else
        match g.innermost pid with
        | some k =>
          match (g.stack[k]?).bind (·.join) with
          | some j => (g.popJoin pid j.pc 33).vanish pid n
          | none => (g.popAt pid k).vanish pid n
        | none =>
          match g.topJoin with
          | some j => if g.paths.length = 2 then (g.join pid j.pc).1 else g.endPath pid
          | none => g.endPath pid

/-- R36, R190, R446: a JOIN at which a path was parked retires when the two paths become one. -/
def countJoins (before after : Group) : Group :=
  let parked (g : Group) : Nat := (g.paths.filter fun kp => match kp.2.park with | .join _ => true | _ => false).length
  if parked after < parked before then { after with retired := after.retired + 1, wdog := 0 } else after

/-! ## Named barriers -/

/-- R204: the phase of a barrier is due. -/
def barrierDue (s : State) (w : WG) (b : Nat) : Bool :=
  let x : Barrier := sget {} w.bars b
  match x.need with
  | none => false
  | some 0 => s.exe.groups.all fun kg => kg.2.wg ≠ w.id || kg.2.exited = BitVec.allOnes 128 || x.arrived.getLsbD kg.2.pos
  | some n => n ≤ ((List.range 16).filter (x.arrived.getLsbD ·)).length

/-- R204: completes the phase of a barrier if it is due. -/
def completeIfDue (s : State) (wg b : Nat) : State :=
  match s.wg wg with
  | none => s
  | some w =>
    if barrierDue s w b then
      s.modWg wg fun w => { w with bars := smod w.bars b fun x => { gen := x.gen + 1, arrived := 0, need := none } }
    else s

/-- R15, R204: a group's exit is evaluated on every barrier of its workgroup. -/
def completeAll (s : State) (wg : Nat) : State := (List.range 16).foldl (fun s b => completeIfDue s wg b) s

/-! ## Leaving -/

/-- R147: the tasks that threads hold are finished, but for those of a worklist to which a push of the thread still waits;
these are finished behind it: the model's choice (log entry 68). -/
def finishTasks (s : State) (gid : Nat) (m : Mask) : State :=
  match s.group gid with
  | none => s
  | some g =>
  match s.wg g.wg with
  | none => s
  | some w =>
    let ready (k : Nat) : Bool := m.getLsbD (k % 128) && !pushesWaiting s w gid [k % 128] (some (k / 128))
    (g.held.filter fun kh => ready kh.1).foldl (fun s kh => finishTask s g w (kh.1 / 128) (kh.1 % 128)) s

/-- R450: two sides of a path or of a group have become one by no JOIN that issues: the path that goes on. -/
def Group.joined (before after : Group) (pid : Nat) : Option Path :=
  let parked (g : Group) : Nat := (g.paths.filter fun kp => match kp.2.park with | .join _ => true | _ => false).length
  let merges (g : Group) : Nat := (g.stack.filter (·.kind = .merge)).length
  if parked after < parked before || merges after < merges before then (sfind after.paths pid).filter (·.mask ≠ 0) else none

/-- R450: the record of such a merge. -/
def traceJoined (s : State) (before : Group) (pid : Nat) : State :=
  match (s.group before.id).bind (before.joined · pid) with
  | some p => traceFlow s before.id 2 p.pc p.mask
  | none => s

/-- R147, R191: threads leave a path: their tasks are finished, they leave every stack entry and their span. -/
def endThreads (s : State) (gid pid : Nat) (m : Mask) : State :=
  match s.group gid with
  | none => s
  | some g =>
    let s := (finishTasks s gid m).modGroup gid fun g =>
      let g : Group := { g with exited := g.exited ||| m, span := { g.span with opened := g.span.opened &&& ~~~m } }
      let g : Group := { g with stack := g.stack.map fun (e : StackEntry) => { e with mask := e.mask &&& ~~~m } }
      let g := g.modPath pid fun p => { p with mask := p.mask &&& ~~~m }
      if g.exited = BitVec.allOnes 128 then { g with paths := [], stack := [], topJoin := none } else countJoins g (g.vanish pid 70)
    match s.group gid with
    | some g' => if g'.exited = BitVec.allOnes 128 && g.exited ≠ BitVec.allOnes 128 then
        trace s gid 3 g'.retired ((sfind g.paths pid).elim 0 (·.pc)) m else traceJoined s g pid
    | none => s

end Sys2Proof.Machine
end

