-- ==== Sys2Proof/Machine/Fetch.lean ====
section
/-!
DEFINITION. The fetch of a word (R172, R177 checks 1 to 4).
-/

namespace Sys2Proof.Machine

/-- R172: what the fetch of a word gives; `away` says that the word lies on another package and has not come yet. -/
inductive FetchOut where
  | word (w : Word)
  | failed
  | away (chord node pa : Nat)
  deriving DecidableEq, Repr

/-- R52: a line is in the POISON state. -/
def linePoisoned (m : MemSys) (a : Nat) : Bool := (sget {} m.marks (lineOf a)).mask ≠ 0

/-- R52, R172, R255: the word at the pc of a path, read by its active threads from a page that the context may execute, or the
failure of the fetch. A page of either kind may be fetched (R385). A word on another package, for which the specification names
no failure, is fetched over its chord (log entry 67). -/
def fetchWord (s : State) (h : Here) : FetchOut × State :=
  let part := (s.ctx h.w.ctx).elim 0 (·.part)
  let priv := (s.launch h.w.launch).any (·.priv)
  match checkFlat s h.w.ctx (some h.w.coreNo) priv { exec := true, anyPage := true } h.p.pc with
  | (.loc pa false, s) =>
    if pa % 4 ≠ 0 then (.failed, s)
    else match readOne s (some h.w.ctx) part ((threadsOf h.p.mask).map (agentOf h.g.id ·)) pa with
      | ((w, none), s) => (if linePoisoned s.mem pa then .failed else .word w, s)
      | (_, s) => (.failed, s)
  | (.remote c node pa false, s) =>
    if pa % 4 ≠ 0 then (.failed, s)
    else match h.g.code.find? (·.1 = h.p.pc) with
      | none => (.away c node pa, s)
      | some (_, none) => (.failed, s)
      | some (_, some w) => (.word w, s)
  | (_, s) => (.failed, s)

/-- R177 checks 1 to 4: the instruction that a fetched word is; a word that fails one is the unassigned code point's step,
with its reason. None while the word has not come. -/
def instrOf : FetchOut → Option Instr
  | .away _ _ _ => none
  | .failed => some (.unassignedCodePoint 0 1)
  | .word w => match decode w with
    | .ok i => some i
    | .error r => some (.unassignedCodePoint w r.reason)

/-- R172, R177: the instruction at the pc of a path; none while its word has not come. -/
def fetch (s : State) (h : Here) : Option Instr := instrOf (fetchWord s h).1

/-- R172, R258: a path asks another package for the line of the word at its pc, once. -/
def askCode (s : State) (h : Here) : State :=
  match (fetchWord s h).1 with
  | .away c node pa =>
    let asked := s.exe.pendings.any fun kp => kp.2.gid = h.g.id && match kp.2.what with
      | .remote .code va _ _ _ => va = h.p.pc
      | _ => false
    if asked then s
    else
      let n := s.exe.nextId
      let s := addPending s h.g.id 0 h.p.pc (.remote .code h.p.pc c (getChord s c).nextTag.toNat [])
      sendRequest s c node h.w.ctx 1 0 0 0 (pa / 128 * 128) (h.p.pc &&& ~~~0x7F#64) 128 [] [] 0 [n]
  | _ => s

/-- R172, R258: a word of another package is fetched anew each time it issues. -/
def forgetCode (s : State) (h : Here) : State :=
  if h.g.code.isEmpty then s else
  s.modGroup h.g.id fun g => match sfind g.paths h.pid with
    | some p => if p.pc = h.p.pc && p.park ≠ .running then g else { g with code := g.code.filter (·.1 ≠ h.p.pc) }
    | none => { g with code := g.code.filter (·.1 ≠ h.p.pc) }

/-- A path of a group as it would issue. -/
def hereOf (s : State) (gid pid : Nat) : Option Here := { s with ctl := { s.ctl with cur := some (gid, pid) } }.here

end Sys2Proof.Machine
end

