-- ==== Sys2Proof/Machine/Arith.lean ====
section
/-!
DEFINITION. The instructions of chapter 10 (R219 to R252): integer, floating, conversion, lanes, predicates and index
registers. Each is one line over a shared mould; the moulds stand first.
-/

namespace Sys2Proof.Machine

/-! ## Moulds -/

/-- Register j of source k. -/
def arg (vs : List (List Word)) (k : Nat) (j : Nat := 0) : Word := (vs.getD k []).getD j 0

/-- R156: a v source. -/
def vSrc (a : BitVec 7) (e : Bool) : Src := { file := .v, reg := a.toNat, e := e }
/-- R156: a predicate source. -/
def pSrc (a : BitVec 3) (e : Bool) : Src := { file := .p, reg := a.toNat, e := e }
/-- R219: a register source in the file of the form. -/
def rSrc (unif : Bool) (a : BitVec 7) (e : Bool) (n : Nat := 1) : Src := { file := fileOf unif, reg := a.toNat, e := e, n := n }
/-- R219: a register destination in the file of the form. -/
def rDst (unif : Bool) (d : BitVec 7) (n : Nat := 1) : Dst := { file := fileOf unif, reg := d.toNat, n := n }

/-- R220: the types an instruction accepts. -/
def allTypes (ty : Nat) : Bool := ty < 6
/-- R220: i32, n32, i16x2, n16x2. -/
def intTypes (ty : Nat) : Bool := isInt ty
/-- R220: f32, bf16x2. -/
def floatTypes (ty : Nat) : Bool := ty = 2 || ty = 3
/-- R220: bf16x2, i16x2, n16x2. -/
def packedTypes (ty : Nat) : Bool := ty = 3 || ty = 4 || ty = 5

/-- R220: an operation of two registers that reads the mode. -/
def typed2 (i : Instr) (unif : Bool) (d : BitVec 7) (ea : Bool) (a : BitVec 7) (eb : Bool) (b : BitVec 7)
    (tyOk : Nat → Bool) (f : Nat → BitVec 16 → Word → Word → ThreadOut) (s : State) : Result :=
  issuing s fun h => alu i s h
    { unif := unif, srcs := [rSrc unif a ea, rSrc unif b eb], dst := rDst unif d, typeOk := tyOk (mType h.p.mode)
      float := !isInt (mType h.p.mode), f := fun t vs => f t h.p.mode (arg vs 0) (arg vs 1) }

/-- R223, R224, R226: the result of a two-operand operation. -/
def binOut (op : BinOp) (t : Nat) (m : BitVec 16) (x y : Word) : ThreadOut :=
  match binTyped op (mType m) (rndOf m) x y with
  | some w => .words [w]
  | none => .fresh { t := t, cause := causeDivZero }

/-- R223: FMA, which reads d as its third source. -/
def typed3 (i : Instr) (unif : Bool) (d : BitVec 7) (ea : Bool) (a : BitVec 7) (eb : Bool) (b : BitVec 7)
    (s : State) : Result :=
  issuing s fun h => alu i s h
    { unif := unif, srcs := [rSrc unif a ea, rSrc unif b eb, rSrc unif d false], dst := rDst unif d
      typeOk := allTypes (mType h.p.mode), float := !isInt (mType h.p.mode)
      f := fun _ vs => .words [fmaTyped (mType h.p.mode) (rndOf h.p.mode) (arg vs 0) (arg vs 1) (arg vs 2)] }

/-- R220: an operation of one register that reads the mode. -/
def typed1 (i : Instr) (unif : Bool) (d : BitVec 7) (ea : Bool) (a : BitVec 7) (tyOk float : Nat → Bool)
    (f : BitVec 16 → Word → Word) (s : State) : Result :=
  issuing s fun h => alu i s h
    { unif := unif, srcs := [rSrc unif a ea], dst := rDst unif d, typeOk := tyOk (mType h.p.mode), float := float (mType h.p.mode)
      f := fun _ vs => .words [f h.p.mode (arg vs 0)] }

/-- R230 to R234: an operation of one register on 32 bits, whatever the type. -/
def word1 (i : Instr) (unif : Bool) (d : BitVec 7) (ea : Bool) (a : BitVec 7) (f : Word → Word) (s : State) : Result :=
  issuing s fun h => alu i s h
    { unif := unif, srcs := [rSrc unif a ea], dst := rDst unif d, f := fun _ vs => .words [f (arg vs 0)] }

/-- R230 to R232: an operation of two registers on 32 bits, whatever the type. -/
def word2 (i : Instr) (unif : Bool) (d : BitVec 7) (ea : Bool) (a : BitVec 7) (eb : Bool) (b : BitVec 7)
    (f : Word → Word → Word) (s : State) : Result :=
  issuing s fun h => alu i s h
    { unif := unif, srcs := [rSrc unif a ea, rSrc unif b eb], dst := rDst unif d
      f := fun _ vs => .words [f (arg vs 0) (arg vs 1)] }

/-- R232: BFI, which reads d as its third source. -/
def insertOp (i : Instr) (unif : Bool) (d : BitVec 7) (ea : Bool) (a : BitVec 7) (eb : Bool) (b : BitVec 7)
    (s : State) : Result :=
  issuing s fun h => alu i s h
    { unif := unif, srcs := [rSrc unif a ea, rSrc unif b eb, rSrc unif d false], dst := rDst unif d
      f := fun _ vs => .words [bfiWord (arg vs 0) (arg vs 1) (arg vs 2)] }

/-- R234: a constant. -/
def const (i : Instr) (unif : Bool) (d : BitVec 7) (x : Word) (s : State) : Result :=
  issuing s fun h => alu i s h { unif := unif, srcs := [], dst := rDst unif d, f := fun _ _ => .words [x] }

/-- R227: an operation on a pair; b has nb registers. -/
def pairOp (i : Instr) (unif : Bool) (d : BitVec 7) (ea : Bool) (a : BitVec 7) (eb : Bool) (b : BitVec 7) (nb : Nat)
    (tyOk : Nat → Bool) (f : Nat → DWord → DWord → DWord) (s : State) : Result :=
  issuing s fun h => alu i s h
    { unif := unif, srcs := [rSrc unif a ea 2, rSrc unif b eb nb], dst := rDst unif d 2, typeOk := tyOk (mType h.p.mode)
      f := fun _ vs =>
        let x := DWord.ofHalves (arg vs 0 0) (arg vs 0 1)
        let r := (f (mType h.p.mode) x (DWord.ofHalves (arg vs 1 0) (arg vs 1 1))).halves
        .words [r.1, r.2] }

/-- R227: LEA extends its 32-bit offset by sign under i32 and by zeros under n32. -/
def leaOut (ty : Nat) (x y : DWord) : DWord :=
  x + if ty = 0 then y.halves.1.signExtend 64 else y.halves.1.setWidth 64

/-- R219, R248: an operation whose destination is a predicate. -/
def predOp (i : Instr) (d : BitVec 3) (srcs : List Src) (tyOk : Nat → Bool)
    (f : BitVec 16 → List (List Word) → Bool) (s : State) : Result :=
  issuing s fun h => alu i s h
    { unif := false, srcs := srcs, dst := ⟨.p, d.toNat, 1⟩, typeOk := tyOk (mType h.p.mode)
      f := fun _ vs => .bool (f h.p.mode vs) }

/-- R241: CVT. -/
def convertOp (i : Instr) (unif : Bool) (d : BitVec 7) (ea : Bool) (a : BitVec 7) (k : BitVec 8) (s : State) : Result :=
  issuing s fun h => alu i s h
    { unif := unif, srcs := [rSrc unif a ea], dst := rDst unif d, float := (k.extractLsb' 0 4).toNat ∈ [2, 3]
      f := fun t vs =>
        let r := rndOf h.p.mode
        match convert r.mode r.sat r.ftz (k.extractLsb' 4 4).toNat (k.extractLsb' 0 4).toNat (arg vs 0) with
        | some w => .words [w]
        | none => .fresh { t := t, cause := causeRange } }

/-- R242: PACK2. -/
def pack2Op (i : Instr) (unif : Bool) (d : BitVec 7) (ea : Bool) (a : BitVec 7) (eb : Bool) (b : BitVec 7)
    (s : State) : Result :=
  issuing s fun h => alu i s h
    { unif := unif, srcs := [rSrc unif a ea, rSrc unif b eb], dst := rDst unif d, typeOk := packedTypes (mType h.p.mode)
      float := mType h.p.mode = 3
      f := fun _ vs => .words [packTyped (mType h.p.mode) (rndOf h.p.mode) (arg vs 0) (arg vs 1)] }

/-- R48: a source that a thread copies: its words, its token, or new poison where it is empty. -/
def copyOut (h : Here) (x : Src) (t : Nat) : ThreadOut :=
  match readSrc h.g h.p x t with
  | .words ws => .words ws
  | .poison k => .tok k
  | .empty => .fresh (emptyRead h.g h.p x t)

/-- R235: what SEL gives a thread: the token of a poisoned guard, or the source that the guard selects. -/
def selOut (h : Here) (a b : Src) (t : Nat) : ThreadOut :=
  let q := pGet h.g (mGuard h.p.mode) t
  if q.poi then .tok q.tok else if q.val != mSense h.p.mode then copyOut h a t else copyOut h b t

/-- R161, R235, R339: the empty reads of SEL that decide no result: its unselected source, and both under a poisoned guard. -/
def selLate (h : Here) (a b : Src) (t : Nat) : List Fresh :=
  let q := pGet h.g (mGuard h.p.mode) t
  let unused := if q.poi then [a, b] else if q.val != mSense h.p.mode then [b] else [a]
  (unused.filter fun x => readSrc h.g h.p x t = .empty).map (emptyRead h.g h.p · t)

/-- R235: SEL. Both data sources are read under R161; only the selected one's poison reaches d. -/
def selOp (i : Instr) (d : BitVec 7) (ea : Bool) (a : BitVec 7) (eb : Bool) (b : BitVec 7) (s : State) : Result :=
  issuing s fun h =>
    match operandCheck h [vSrc a ea, vSrc b eb] (some (rDst false d)) true with
    | some r => reject s h i r
    | none =>
      if operandsReady h (allThreads h.p) [vSrc a ea, vSrc b eb] (some (rDst false d)) then
        let (outs, s) := settle s h ((allThreads h.p).map fun t => (t.1, selOut h (vSrc a ea) (vSrc b eb) t.1))
          ((allThreads h.p).flatMap fun t => selLate h (vSrc a ea) (vSrc b eb) t.1)
        .next (retire (writeAll s h (rDst false d) outs) h)
      else .next (stall s)

/-- R236: a move from one file to another. -/
def moveOp (i : Instr) (unif : Bool) (srcs : List Src) (dst : Dst) (s : State) : Result :=
  issuing s fun h => alu i s h { unif := unif, srcs := srcs, dst := dst, f := fun _ vs => .words [arg vs 0] }

/-- R49: the token of a poisoned guard, else a result. -/
def guardedOut (t : Nat × Option Token) (f : Nat → ThreadOut) : ThreadOut :=
  match t.2 with
  | some k => .tok k
  | none => f t.1

/-- R236: VSET reads and waits for the lowest-numbered executing thread only; a poisoned guard is that of R49.
That thread is the lowest whose guard is true or poisoned: the model's choice (log entry 68). -/
def vsetOp (i : Instr) (d : BitVec 7) (ea : Bool) (a : BitVec 7) (s : State) : Result :=
  issuing s fun h =>
    let x := vSrc a ea
    match operandCheck h [x] none true with
    | some r => reject s h i r
    | none =>
      let ths := (vecThreads h.g h.p).take 1
      if operandsReady h ths [x] (some (rDst true d)) then
        let (outs, s) := settle s h (ths.map fun t => (t.1, guardedOut t fun t => copyOut h x t))
        .next (retire (writeAll s h (rDst true d) outs) h)
      else .next (stall s)

/-! ## Index registers -/

/-- R250: XSET. -/
def xsetOp (i : Instr) (d : BitVec 2) (ea : Bool) (a : BitVec 7) (s : State) : Result :=
  issuing s fun h => alu i s h
    { unif := false, srcs := [vSrc a ea], dst := ⟨.x, d.toNat, 1⟩
      f := fun _ vs => .idx ((arg vs 0).extractLsb' 0 8) ((arg vs 0).extractLsb' 8 8) }

/-- R250: XADD. -/
def xaddOp (i : Instr) (d a : BitVec 2) (k : BitVec 8) (s : State) : Result :=
  issuing s fun h => alu i s h
    { unif := false, srcs := [⟨.x, a.toNat, false, 1⟩], dst := ⟨.x, d.toNat, 1⟩
      f := fun t vs =>
        let w := arg vs 0
        let n : Int := ((w.extractLsb' 0 8).toNat : Int) + k.toInt
        if 0 ≤ n && n ≤ 255 then .idx (BitVec.ofInt 8 n) (w.extractLsb' 8 8) else .fresh { t := t, cause := causeBounds } }

/-- R251: what an offset names in a thread through an index register: the register number, or the poison that there is instead. -/
def indexLook (h : Here) (x : Nat) (off : Src) (t : Nat) : Sum ThreadOut Nat :=
  let q := xGet h.g x t
  if q.poi then .inl (.tok q.tok)
  else match readSrc h.g h.p off t with
    | .poison k => .inl (.tok k)
    | .empty => .inl (.fresh (emptyRead h.g h.p off t))
    | .words ws =>
      let n := q.base.toNat + (ws.getD 0 0).toNat
      if q.bound.toNat ≤ n || 8 * h.g.budget ≤ n then .inl (.fresh { t := t, cause := causeBounds }) else .inr n

/-- R161, R339: an empty offset that stands behind a poisoned index register. -/
def indexLate (h : Here) (x : Nat) (off : Src) (t : Nat) : List Fresh :=
  if (xGet h.g x t).poi && readSrc h.g h.p off t = .empty then [emptyRead h.g h.p off t] else []

/-- R251: what MOVX gives a thread. -/
def movxOut (h : Here) (x : Nat) (off : Src) (t : Nat) : ThreadOut :=
  match indexLook h x off t with
  | .inl o => o
  | .inr n =>
    let r := vGet h.g n t
    if r.poi then .tok (r.val.setWidth 10) else .words [r.val]

/-- R251: the register that MOVX reads is full. -/
def movxFull (h : Here) (x : Nat) (off : Src) (t : Nat) : Bool :=
  match indexLook h x off t with
  | .inl _ => true
  | .inr n => (vGet h.g n t).full

/-- R251: MOVX. The computed register is never renamed and is read under E = 0. -/
def movxOp (i : Instr) (d : BitVec 7) (a : BitVec 2) (eb : Bool) (b : BitVec 7) (s : State) : Result :=
  issuing s fun h =>
    let x := vSrc b eb
    match operandCheck h [x] (some (rDst false d)) true with
    | some r => reject s h i r
    | none =>
      let ths := vecThreads h.g h.p
      if operandsReady h ths [x] (some (rDst false d)) && ths.all fun t => t.2.isSome || movxFull h a.toNat x t.1 then
        let (outs, s) := settle s h (ths.map fun t => (t.1, guardedOut t (movxOut h a.toNat x)))
          (ths.flatMap fun t => if t.2.isNone then indexLate h a.toNat x t.1 else [])
        .next (retire (writeAll s h (rDst false d) outs) h)
      else .next (stall s)

/-- R252: what MOVXW does in a thread: the index register is poisoned (none), or a register is written. -/
def movxwOut (h : Here) (x : Nat) (a b : Src) (t : Nat × Option Token) : Option Nat × ThreadOut :=
  match indexLook h x a t.1 with
  | .inl o => (none, o)
  | .inr n => (some n, guardedOut t (copyOut h b))

/-- R161, R339: the empty reads of MOVXW that decide nothing it writes: its offset or its data behind a poisoned index
register or offset. -/
def movxwLate (h : Here) (x : Nat) (a b : Src) (t : Nat × Option Token) : List Fresh :=
  indexLate h x a t.1 ++ match indexLook h x a t.1 with
    | .inl _ => if t.2.isNone && readSrc h.g h.p b t.1 = .empty then [emptyRead h.g h.p b t.1] else []
    | .inr _ => []

/-- R252: the write of one thread. -/
def movxwWrite (h : Here) (x : Nat) (g : Group) (t : Nat) : Option Nat × ThreadOut → Group
  | (none, o) => writeOut h.p ⟨.x, x, 1⟩ g t o
  | (some n, .words ws) => vSet g n t { val := ws.getD 0 0 }
  | (some n, .tok k) => vSet g n t { val := k.setWidth 32, poi := true }
  | (some _, _) => g

/-- R252: MOVXW. -/
def movxwOp (i : Instr) (d : BitVec 2) (ea : Bool) (a : BitVec 7) (eb : Bool) (b : BitVec 7) (s : State) : Result :=
  issuing s fun h =>
    let sa := vSrc a ea
    let sb := vSrc b eb
    match operandCheck h [sa, sb] none true with
    | some r => reject s h i r
    | none =>
      let ths := vecThreads h.g h.p
      let ready := guardFull h.g h.p && srcReady h.g h.p sa (ths.map (·.1)) &&
        srcReady h.g h.p sb ((ths.filter (·.2.isNone)).map (·.1)) && ths.all fun t => movxFull h d.toNat sa t.1
      if ready then
        let acts := ths.map fun t => (t.1, movxwOut h d.toNat sa sb t)
        let (outs, s) := settle s h (acts.map fun ta => (ta.1, ta.2.2))
          (ths.flatMap (movxwLate h d.toNat sa sb))
        let s := s.modGroup h.g.id fun g => (acts.zip outs).foldl (fun g ao => movxwWrite h d.toNat g ao.1.1 (ao.1.2.1, ao.2.2)) g
        .next (retire s h)
      else .next (stall s)

/-! ## Lanes -/

/-- R245: the thread whose a thread t receives, where the index operand holds k: the one that `pick` names, if it is a supplier
(R244: active on the path), else t itself. -/
def laneFrom (h : Here) (pick : Nat → Nat → Option Nat) (t k : Nat) : Nat :=
  match pick t k with
  | some u => if h.p.mask.getLsbD u then u else t
  | none => t

/-- R245: the source thread of a thread, or the poison of its index operand. -/
def laneLook (h : Here) (idx : Option Src) (pick : Nat → Nat → Option Nat) (t : Nat) : Sum ThreadOut Nat :=
  match idx with
  | none => .inr (laneFrom h pick t 0)
  | some x => match readSrc h.g h.p x t with
    | .poison k => .inl (.tok k)
    | .empty => .inl (.fresh (emptyRead h.g h.p x t))
    | .words ws => .inr (laneFrom h pick t (ws.getD 0 0).toNat)

/-- R244, R245: what a lane instruction gives a thread. Poison of an empty source is the reading thread's. -/
def laneOut (h : Here) (a : Src) (idx : Option Src) (pick : Nat → Nat → Option Nat) (t : Nat) : ThreadOut :=
  match laneLook h idx pick t with
  | .inl o => o
  | .inr u => match copyOut h a u with
    | .fresh f => .fresh { f with t := t, regs := f.regs.map fun r => (t, r.2) }
    | o => o

/-- R244: the source that a thread reads in another thread is full. -/
def laneFull (h : Here) (a : Src) (idx : Option Src) (pick : Nat → Nat → Option Nat) (t : Nat) : Bool :=
  match laneLook h idx pick t with
  | .inl _ => true
  | .inr u => srcFull h.g h.p a u

/-- R245: the source lanes of SHFL and BCAST, by the destination t and the value k of the index operand. -/
def idxLane (_ k : Nat) : Option Nat := some (k % 128)
/-- R245: thread t − n. -/
def upLane (n t _k : Nat) : Option Nat := if n ≤ t then some (t - n) else none
/-- R245: thread t + n. -/
def dnLane (n t _k : Nat) : Option Nat := if t + n < 128 then some (t + n) else none
/-- R245: thread t xor n. -/
def xorLane (n t _k : Nat) : Option Nat := some (t ^^^ n)
/-- R245: thread n. -/
def oneLane (n _t _k : Nat) : Option Nat := some n

/-- R161, R244, R245: the registers that a lane instruction needs are full. -/
def lanesReady (h : Here) (d : Dst) (a : Src) (idx : Option Src) (pick : Nat → Nat → Option Nat) : Bool :=
  let ths := vecThreads h.g h.p
  let run := (ths.filter (·.2.isNone)).map (·.1)
  guardFull h.g h.p && (ths.all fun t => dstFull h.g h.p d t.1) && (idx.all fun x => srcReady h.g h.p x run) &&
    (a.e || run.all fun t => laneFull h a idx pick t)

/-- R245: SHFL and BCAST: `pick t k` names the source thread of t, where k is the value of the index operand. -/
def shuffle (i : Instr) (d : BitVec 7) (ea : Bool) (a : BitVec 7) (idx : Option Src) (pick : Nat → Nat → Option Nat)
    (s : State) : Result :=
  issuing s fun h =>
    let sa := vSrc a ea
    match operandCheck h (sa :: idx.toList) (some (rDst false d)) true with
    | some r => reject s h i r
    | none =>
      let ths := vecThreads h.g h.p
      if lanesReady h (rDst false d) sa idx pick then
        let (outs, s) := settle s h (ths.map fun t => (t.1, guardedOut t (laneOut h sa idx pick)))
        .next (retire (writeAll s h (rDst false d) outs) h)
      else .next (stall s)

/-- R244, R49: the contributors of VOTE, QSCAN and REDUCE in ascending order, each with its value or its poison. -/
def contributions (h : Here) (x : Src) (ths : List (Nat × Option Token)) : List (Nat × SrcVal) :=
  (ths.filter (·.2.isNone)).map fun t => (t.1, readSrc h.g h.p x t.1)

/-- R49: gives every E = 1 read of an empty source its token, before results that depend on it. -/
def tokenise (s : State) (h : Here) (x : Src) (cs : List (Nat × SrcVal)) : List (Nat × SrcVal) × State :=
  let fs := cs.filterMap fun c => if c.2 = .empty then some (emptyRead h.g h.p x c.1) else none
  if fs.isEmpty then (cs, s) else
  let (ts, s) := newRecords s h.g.id h.p.pc (h.g.span.opened.getLsbD ·) fs
  (cs.map fun c => if c.2 = .empty then
      (c.1, match ts.find? (·.1.t = c.1) with | some ft => .poison ft.2 | none => .poison 0x3FF)
    else c, s)

/-- R49: the token of the lowest-numbered poisoned contributor among some. -/
def firstPoison (cs : List (Nat × SrcVal)) : Option Token :=
  cs.findSome? fun c => match c.2 with | .poison k => some k | _ => none

/-- The word of a clean contribution. -/
def cleanWord (v : SrcVal) : Word := match v with | .words ws => ws.getD 0 0 | _ => 0

/-- R246, R49: the value of VOTE for a contributor: a word of the ballot, or all or any of the predicates. -/
def voteOut (k : BitVec 2) (cs : List (Nat × SrcVal)) (t : Nat) : ThreadOut :=
  if k = 2 then
    let mine := cs.filter fun c => c.1 / 32 = t % 4
    match firstPoison mine with
    | some tok => .tok tok
    | none => .words [mine.foldl (fun w c => if cleanWord c.2 ≠ 0 then w ||| (1#32 <<< (c.1 % 32)) else w) 0]
  else match firstPoison cs with
    | some tok => .tok tok
    | none => .bool (if k = 0 then cs.all fun c => cleanWord c.2 ≠ 0 else cs.any fun c => cleanWord c.2 ≠ 0)

/-- R246: VOTE. k selects .ALL, .ANY or .BAL. -/
def voteOp (i : Instr) (d : BitVec 7) (ea : Bool) (p : BitVec 3) (k : BitVec 2) (s : State) : Result :=
  issuing s fun h =>
    let x := pSrc p ea
    let dst : Dst := if k = 2 then rDst false d else ⟨.p, d.toNat % 8, 1⟩
    match operandCheck h [x] (some dst) true with
    | some r => reject s h i r
    | none =>
      let ths := vecThreads h.g h.p
      if operandsReady h ths [x] (some dst) then
        let (cs, s) := tokenise s h x (contributions h x ths)
        .next (retire (writeAll s h dst (ths.map fun t => (t.1, guardedOut t (voteOut k cs)))) h)
      else .next (stall s)

/-- R247: one combining step. -/
def combine (op : Nat) (m : BitVec 16) (x y : Word) : Word :=
  match op with
  | 0 => (binTyped .add (mType m) (rndOf m) x y).getD 0
  | 1 => (binTyped .min (mType m) (rndOf m) x y).getD 0
  | 2 => (binTyped .max (mType m) (rndOf m) x y).getD 0
  | 3 => x &&& y
  | 4 => x ||| y
  | _ => x ^^^ y

/-- R247: the identity of an operation under a type. -/
def identity (op ty : Nat) : Word :=
  let f := fmtOf ty
  let w := elemWidth ty
  let e (x : Nat) := ofElems ty [x, x]
  match op with
  | 1 => if isInt ty then e (fitInt (isSigned ty) false w (intMax (isSigned ty) w)) else e f.inf
  | 2 => if isInt ty then e (fitInt (isSigned ty) false w (intMin (isSigned ty) w)) else e (f.signBit + f.inf)
  | 3 => 0xFFFFFFFF
  | _ => 0

/-- R247: the running values of a scan: for each contributor the value before it (none for the first) and after it,
or the poison on which they depend. -/
def scanRun (op : Nat) (m : BitVec 16) : Option SrcVal → List (Nat × SrcVal) → List (Nat × Option SrcVal × SrcVal)
  | _, [] => []
  | acc, (t, v) :: cs =>
    let next : SrcVal := match acc, v with
      | some (.poison k), _ => .poison k
      | _, .poison k => .poison k
      | some (.words a), .words b => .words [combine op m (a.getD 0 0) (b.getD 0 0)]
      | _, v => v
    (t, acc, next) :: scanRun op m (some next) cs

/-- R247: a running value as a result. -/
def runOut : SrcVal → ThreadOut
  | .words ws => .words ws
  | .poison k => .tok k
  | .empty => .keep

/-- R247: what QSCAN or REDUCE gives a contributor: its running value, the one before it (the identity for the first), or the
last of all. -/
def scanOut (scan excl : Bool) (e : Word) (run : List (Nat × Option SrcVal × SrcVal)) (t : Nat) : ThreadOut :=
  if scan then
    match run.find? (·.1 = t) with
    | some (_, before, after) => if excl then runOut (before.getD (.words [e])) else runOut after
    | none => .keep
  else match run.getLast? with
    | some (_, _, after) => runOut after
    | none => .keep

/-- R247: QSCAN and REDUCE. A result under a floating ADD, MIN or MAX passes the shadow unit. -/
def scanOp (i : Instr) (d : BitVec 7) (ea : Bool) (a : BitVec 7) (op : Nat) (scan excl : Bool) (s : State) : Result :=
  issuing s fun h =>
    let x := vSrc a ea
    match operandCheck h [x] (some (rDst false d)) (allTypes (mType h.p.mode)) with
    | some r => reject s h i r
    | none =>
      let ths := vecThreads h.g h.p
      if operandsReady h ths [x] (some (rDst false d)) then
        let float := op < 3 && !isInt (mType h.p.mode)
        let (cs, s) := tokenise s h x (contributions h x ths)
        let run := scanRun op h.p.mode none cs
        let outs := ths.map fun t =>
          (t.1, guardedOut t fun t => shadowed s float t (scanOut scan excl (identity op (mType h.p.mode)) run t))
        let (made, s) := settle s h outs
        .next (retire (writeAll (countShadow s h outs made) h (rDst false d) made) h)
      else .next (stall s)

/-! ## Meanings -/

/-- R223: a + b, fitted. -/
def execAdd (d : BitVec 7) (ea : Bool) (a : BitVec 7) (eb : Bool) (b : BitVec 7) (s : State) : Result :=
  typed2 (.add d ea a eb b) false d ea a eb b allTypes (binOut .add) s

/-- R223: a + b, fitted. Uniform form. -/
def execAddU (d : BitVec 7) (ea : Bool) (a : BitVec 7) (eb : Bool) (b : BitVec 7) (s : State) : Result :=
  typed2 (.addU d ea a eb b) true d ea a eb b allTypes (binOut .add) s

/-- R223: a − b, fitted. -/
def execSub (d : BitVec 7) (ea : Bool) (a : BitVec 7) (eb : Bool) (b : BitVec 7) (s : State) : Result :=
  typed2 (.sub d ea a eb b) false d ea a eb b allTypes (binOut .sub) s

/-- R223: a − b, fitted. Uniform form. -/
def execSubU (d : BitVec 7) (ea : Bool) (a : BitVec 7) (eb : Bool) (b : BitVec 7) (s : State) : Result :=
  typed2 (.subU d ea a eb b) true d ea a eb b allTypes (binOut .sub) s

/-- R223: a × b, fitted. -/
def execMul (d : BitVec 7) (ea : Bool) (a : BitVec 7) (eb : Bool) (b : BitVec 7) (s : State) : Result :=
  typed2 (.mul d ea a eb b) false d ea a eb b allTypes (binOut .mul) s

/-- R223: a × b, fitted. Uniform form. -/
def execMulU (d : BitVec 7) (ea : Bool) (a : BitVec 7) (eb : Bool) (b : BitVec 7) (s : State) : Result :=
  typed2 (.mulU d ea a eb b) true d ea a eb b allTypes (binOut .mul) s

/-- R223: the upper half of the exact product. -/
def execMulhi (d : BitVec 7) (ea : Bool) (a : BitVec 7) (eb : Bool) (b : BitVec 7) (s : State) : Result :=
  typed2 (.mulhi d ea a eb b) false d ea a eb b intTypes (binOut .mulhi) s

/-- R223: the upper half of the exact product. Uniform form. -/
def execMulhiU (d : BitVec 7) (ea : Bool) (a : BitVec 7) (eb : Bool) (b : BitVec 7) (s : State) : Result :=
  typed2 (.mulhiU d ea a eb b) true d ea a eb b intTypes (binOut .mulhi) s

/-- R224: the lesser operand. -/
def execMin (d : BitVec 7) (ea : Bool) (a : BitVec 7) (eb : Bool) (b : BitVec 7) (s : State) : Result :=
  typed2 (.min d ea a eb b) false d ea a eb b allTypes (binOut .min) s

/-- R224: the lesser operand. Uniform form. -/
def execMinU (d : BitVec 7) (ea : Bool) (a : BitVec 7) (eb : Bool) (b : BitVec 7) (s : State) : Result :=
  typed2 (.minU d ea a eb b) true d ea a eb b allTypes (binOut .min) s

/-- R224: the greater operand. -/
def execMax (d : BitVec 7) (ea : Bool) (a : BitVec 7) (eb : Bool) (b : BitVec 7) (s : State) : Result :=
  typed2 (.max d ea a eb b) false d ea a eb b allTypes (binOut .max) s

/-- R224: the greater operand. Uniform form. -/
def execMaxU (d : BitVec 7) (ea : Bool) (a : BitVec 7) (eb : Bool) (b : BitVec 7) (s : State) : Result :=
  typed2 (.maxU d ea a eb b) true d ea a eb b allTypes (binOut .max) s

/-- R226: a ÷ b; an integer division by zero gives INT_DIV_ZERO poison. -/
def execDiv (d : BitVec 7) (ea : Bool) (a : BitVec 7) (eb : Bool) (b : BitVec 7) (s : State) : Result :=
  typed2 (.div d ea a eb b) false d ea a eb b allTypes (binOut .div) s

/-- R226: a ÷ b; an integer division by zero gives INT_DIV_ZERO poison. Uniform form. -/
def execDivU (d : BitVec 7) (ea : Bool) (a : BitVec 7) (eb : Bool) (b : BitVec 7) (s : State) : Result :=
  typed2 (.divU d ea a eb b) true d ea a eb b allTypes (binOut .div) s

/-- R226: the rest of a ÷ b; a division by zero gives INT_DIV_ZERO poison. -/
def execRem (d : BitVec 7) (ea : Bool) (a : BitVec 7) (eb : Bool) (b : BitVec 7) (s : State) : Result :=
  typed2 (.rem d ea a eb b) false d ea a eb b intTypes (binOut .rem) s

/-- R226: the rest of a ÷ b; a division by zero gives INT_DIV_ZERO poison. Uniform form. -/
def execRemU (d : BitVec 7) (ea : Bool) (a : BitVec 7) (eb : Bool) (b : BitVec 7) (s : State) : Result :=
  typed2 (.remU d ea a eb b) true d ea a eb b intTypes (binOut .rem) s

/-- R223: a × b + d with one rounding. -/
def execFma (d : BitVec 7) (ea : Bool) (a : BitVec 7) (eb : Bool) (b : BitVec 7) (s : State) : Result :=
  typed3 (.fma d ea a eb b) false d ea a eb b s

/-- R223: a × b + d with one rounding. Uniform form. -/
def execFmaU (d : BitVec 7) (ea : Bool) (a : BitVec 7) (eb : Bool) (b : BitVec 7) (s : State) : Result :=
  typed3 (.fmaU d ea a eb b) true d ea a eb b s

/-- R225: the opposite of a. -/
def execNeg (d : BitVec 7) (ea : Bool) (a : BitVec 7) (s : State) : Result :=
  typed1 (.neg d ea a) false d ea a allTypes (!isInt ·) (fun m x => negAbsTyped true (mType m) (mSat m) x) s

/-- R225: the opposite of a. Uniform form. -/
def execNegU (d : BitVec 7) (ea : Bool) (a : BitVec 7) (s : State) : Result :=
  typed1 (.negU d ea a) true d ea a allTypes (!isInt ·) (fun m x => negAbsTyped true (mType m) (mSat m) x) s

/-- R225: the magnitude of a. -/
def execAbs (d : BitVec 7) (ea : Bool) (a : BitVec 7) (s : State) : Result :=
  typed1 (.abs d ea a) false d ea a allTypes (!isInt ·) (fun m x => negAbsTyped false (mType m) (mSat m) x) s

/-- R225: the magnitude of a. Uniform form. -/
def execAbsU (d : BitVec 7) (ea : Bool) (a : BitVec 7) (s : State) : Result :=
  typed1 (.absU d ea a) true d ea a allTypes (!isInt ·) (fun m x => negAbsTyped false (mType m) (mSat m) x) s

/-- R235: a where the guard holds, b elsewhere; the guard's poison passes on, that of the unselected source does not. -/
def execSel (d : BitVec 7) (ea : Bool) (a : BitVec 7) (eb : Bool) (b : BitVec 7) (s : State) : Result :=
  selOp (.sel d ea a eb b) d ea a eb b s

/-- R227: the sum of two pairs modulo 2^64. -/
def execAdd64 (d : BitVec 7) (ea : Bool) (a : BitVec 7) (eb : Bool) (b : BitVec 7) (s : State) : Result :=
  pairOp (.add64 d ea a eb b) false d ea a eb b 2 (fun _ => true) (fun _ x y => x + y) s

/-- R227: the sum of two pairs modulo 2^64. Uniform form. -/
def execAdd64U (d : BitVec 7) (ea : Bool) (a : BitVec 7) (eb : Bool) (b : BitVec 7) (s : State) : Result :=
  pairOp (.add64U d ea a eb b) true d ea a eb b 2 (fun _ => true) (fun _ x y => x + y) s

/-- R227: a pair plus an extended register modulo 2^64. -/
def execLea (d : BitVec 7) (ea : Bool) (a : BitVec 7) (eb : Bool) (b : BitVec 7) (s : State) : Result :=
  pairOp (.lea d ea a eb b) false d ea a eb b 1 (fun ty => ty = 0 || ty = 1) leaOut s

/-- R227: a pair plus an extended register modulo 2^64. Uniform form. -/
def execLeaU (d : BitVec 7) (ea : Bool) (a : BitVec 7) (eb : Bool) (b : BitVec 7) (s : State) : Result :=
  pairOp (.leaU d ea a eb b) true d ea a eb b 1 (fun ty => ty = 0 || ty = 1) leaOut s

/-- R237: the truth of a condition on a and b. -/
def execCmp (c : BitVec 4) (p : BitVec 3) (ea : Bool) (a : BitVec 7) (eb : Bool) (b : BitVec 7) (s : State) : Result :=
  predOp (.cmp c p ea a eb b) p [vSrc a ea, vSrc b eb] allTypes (fun m vs => compareTyped c.toNat (mType m) (mFtz m) (arg vs 0) (arg vs 1)) s

/-- R239: whether the class of a is in the mask. -/
def execClassP (p : BitVec 3) (ea : Bool) (a : BitVec 7) (m : BitVec 8) (s : State) : Result :=
  predOp (.classP p ea a m) p [vSrc a ea] allTypes (fun md vs => classTyped (mType md) (mFtz md) m (arg vs 0)) s

/-- R238: the truth of a condition on a and imm8. -/
def execCmpi (c : BitVec 4) (p : BitVec 3) (ea : Bool) (a : BitVec 7) (i : BitVec 8) (s : State) : Result :=
  predOp (.cmpi c p ea a i) p [vSrc a ea] allTypes (fun m vs => compareTyped c.toNat (mType m) (mFtz m) (arg vs 0) (immWord (mType m) i)) s

/-- R230: bitwise AND. -/
def execAnd (d : BitVec 7) (ea : Bool) (a : BitVec 7) (eb : Bool) (b : BitVec 7) (s : State) : Result :=
  word2 (.and d ea a eb b) false d ea a eb b (fun x y => x &&& y) s

/-- R230: bitwise AND. Uniform form. -/
def execAndU (d : BitVec 7) (ea : Bool) (a : BitVec 7) (eb : Bool) (b : BitVec 7) (s : State) : Result :=
  word2 (.andU d ea a eb b) true d ea a eb b (fun x y => x &&& y) s

/-- R230: bitwise AND with imm8 zero-extended. -/
def execAndi (d : BitVec 7) (ea : Bool) (a : BitVec 7) (i : BitVec 8) (s : State) : Result :=
  word1 (.andi d ea a i) false d ea a (fun x => x &&& i.setWidth 32) s

/-- R230: bitwise AND with imm8 zero-extended. Uniform form. -/
def execAndiU (d : BitVec 7) (ea : Bool) (a : BitVec 7) (i : BitVec 8) (s : State) : Result :=
  word1 (.andiU d ea a i) true d ea a (fun x => x &&& i.setWidth 32) s

/-- R230: bitwise OR. -/
def execOr (d : BitVec 7) (ea : Bool) (a : BitVec 7) (eb : Bool) (b : BitVec 7) (s : State) : Result :=
  word2 (.or d ea a eb b) false d ea a eb b (fun x y => x ||| y) s

/-- R230: bitwise OR. Uniform form. -/
def execOrU (d : BitVec 7) (ea : Bool) (a : BitVec 7) (eb : Bool) (b : BitVec 7) (s : State) : Result :=
  word2 (.orU d ea a eb b) true d ea a eb b (fun x y => x ||| y) s

/-- R230: bitwise OR with imm8 zero-extended. -/
def execOri (d : BitVec 7) (ea : Bool) (a : BitVec 7) (i : BitVec 8) (s : State) : Result :=
  word1 (.ori d ea a i) false d ea a (fun x => x ||| i.setWidth 32) s

/-- R230: bitwise OR with imm8 zero-extended. Uniform form. -/
def execOriU (d : BitVec 7) (ea : Bool) (a : BitVec 7) (i : BitVec 8) (s : State) : Result :=
  word1 (.oriU d ea a i) true d ea a (fun x => x ||| i.setWidth 32) s

/-- R230: bitwise XOR. -/
def execXor (d : BitVec 7) (ea : Bool) (a : BitVec 7) (eb : Bool) (b : BitVec 7) (s : State) : Result :=
  word2 (.xor d ea a eb b) false d ea a eb b (fun x y => x ^^^ y) s

/-- R230: bitwise XOR. Uniform form. -/
def execXorU (d : BitVec 7) (ea : Bool) (a : BitVec 7) (eb : Bool) (b : BitVec 7) (s : State) : Result :=
  word2 (.xorU d ea a eb b) true d ea a eb b (fun x y => x ^^^ y) s

/-- R230: bitwise XOR with imm8 zero-extended. -/
def execXori (d : BitVec 7) (ea : Bool) (a : BitVec 7) (i : BitVec 8) (s : State) : Result :=
  word1 (.xori d ea a i) false d ea a (fun x => x ^^^ i.setWidth 32) s

/-- R230: bitwise XOR with imm8 zero-extended. Uniform form. -/
def execXoriU (d : BitVec 7) (ea : Bool) (a : BitVec 7) (i : BitVec 8) (s : State) : Result :=
  word1 (.xoriU d ea a i) true d ea a (fun x => x ^^^ i.setWidth 32) s

/-- R230: the bitwise complement. -/
def execNot (d : BitVec 7) (ea : Bool) (a : BitVec 7) (s : State) : Result :=
  word1 (.not d ea a) false d ea a (fun x => ~~~x) s

/-- R230: the bitwise complement. Uniform form. -/
def execNotU (d : BitVec 7) (ea : Bool) (a : BitVec 7) (s : State) : Result :=
  word1 (.notU d ea a) true d ea a (fun x => ~~~x) s

/-- R231: shift left. -/
def execShl (d : BitVec 7) (ea : Bool) (a : BitVec 7) (eb : Bool) (b : BitVec 7) (s : State) : Result :=
  word2 (.shl d ea a eb b) false d ea a eb b (fun x y => shiftWord .shl x y.toNat) s

/-- R231: shift left. Uniform form. -/
def execShlU (d : BitVec 7) (ea : Bool) (a : BitVec 7) (eb : Bool) (b : BitVec 7) (s : State) : Result :=
  word2 (.shlU d ea a eb b) true d ea a eb b (fun x y => shiftWord .shl x y.toNat) s

/-- R231: logical shift right. -/
def execShr (d : BitVec 7) (ea : Bool) (a : BitVec 7) (eb : Bool) (b : BitVec 7) (s : State) : Result :=
  word2 (.shr d ea a eb b) false d ea a eb b (fun x y => shiftWord .shr x y.toNat) s

/-- R231: logical shift right. Uniform form. -/
def execShrU (d : BitVec 7) (ea : Bool) (a : BitVec 7) (eb : Bool) (b : BitVec 7) (s : State) : Result :=
  word2 (.shrU d ea a eb b) true d ea a eb b (fun x y => shiftWord .shr x y.toNat) s

/-- R231: arithmetic shift right. -/
def execSar (d : BitVec 7) (ea : Bool) (a : BitVec 7) (eb : Bool) (b : BitVec 7) (s : State) : Result :=
  word2 (.sar d ea a eb b) false d ea a eb b (fun x y => shiftWord .sar x y.toNat) s

/-- R231: arithmetic shift right. Uniform form. -/
def execSarU (d : BitVec 7) (ea : Bool) (a : BitVec 7) (eb : Bool) (b : BitVec 7) (s : State) : Result :=
  word2 (.sarU d ea a eb b) true d ea a eb b (fun x y => shiftWord .sar x y.toNat) s

/-- R231: rotation left. -/
def execRot (d : BitVec 7) (ea : Bool) (a : BitVec 7) (eb : Bool) (b : BitVec 7) (s : State) : Result :=
  word2 (.rot d ea a eb b) false d ea a eb b (fun x y => shiftWord .rot x y.toNat) s

/-- R231: rotation left. Uniform form. -/
def execRotU (d : BitVec 7) (ea : Bool) (a : BitVec 7) (eb : Bool) (b : BitVec 7) (s : State) : Result :=
  word2 (.rotU d ea a eb b) true d ea a eb b (fun x y => shiftWord .rot x y.toNat) s

/-- R231: shift by an immediate amount. -/
def execShli (d : BitVec 7) (ea : Bool) (a : BitVec 7) (i : BitVec 5) (s : State) : Result :=
  word1 (.shli d ea a i) false d ea a (fun x => shiftWord .shl x i.toNat) s

/-- R231: shift by an immediate amount. Uniform form. -/
def execShliU (d : BitVec 7) (ea : Bool) (a : BitVec 7) (i : BitVec 5) (s : State) : Result :=
  word1 (.shliU d ea a i) true d ea a (fun x => shiftWord .shl x i.toNat) s

/-- R231: shift by an immediate amount. -/
def execShri (d : BitVec 7) (ea : Bool) (a : BitVec 7) (i : BitVec 5) (s : State) : Result :=
  word1 (.shri d ea a i) false d ea a (fun x => shiftWord .shr x i.toNat) s

/-- R231: shift by an immediate amount. Uniform form. -/
def execShriU (d : BitVec 7) (ea : Bool) (a : BitVec 7) (i : BitVec 5) (s : State) : Result :=
  word1 (.shriU d ea a i) true d ea a (fun x => shiftWord .shr x i.toNat) s

/-- R232: the bit field of a that b describes. -/
def execBfx (d : BitVec 7) (ea : Bool) (a : BitVec 7) (eb : Bool) (b : BitVec 7) (s : State) : Result :=
  word2 (.bfx d ea a eb b) false d ea a eb b bfxWord s

/-- R232: the bit field of a that b describes. Uniform form. -/
def execBfxU (d : BitVec 7) (ea : Bool) (a : BitVec 7) (eb : Bool) (b : BitVec 7) (s : State) : Result :=
  word2 (.bfxU d ea a eb b) true d ea a eb b bfxWord s

/-- R232: inserts the low bits of a into the field of d that b describes. -/
def execBfi (d : BitVec 7) (ea : Bool) (a : BitVec 7) (eb : Bool) (b : BitVec 7) (s : State) : Result :=
  insertOp (.bfi d ea a eb b) false d ea a eb b s

/-- R232: inserts the low bits of a into the field of d that b describes. Uniform form. -/
def execBfiU (d : BitVec 7) (ea : Bool) (a : BitVec 7) (eb : Bool) (b : BitVec 7) (s : State) : Result :=
  insertOp (.bfiU d ea a eb b) true d ea a eb b s

/-- R233: the number of set bits. -/
def execPopc (d : BitVec 7) (ea : Bool) (a : BitVec 7) (s : State) : Result :=
  word1 (.popc d ea a) false d ea a (fun x => BitVec.ofNat 32 (popWord x)) s

/-- R233: the number of set bits. Uniform form. -/
def execPopcU (d : BitVec 7) (ea : Bool) (a : BitVec 7) (s : State) : Result :=
  word1 (.popcU d ea a) true d ea a (fun x => BitVec.ofNat 32 (popWord x)) s

/-- R233: leading zeros; 32 for 0. -/
def execClz (d : BitVec 7) (ea : Bool) (a : BitVec 7) (s : State) : Result :=
  word1 (.clz d ea a) false d ea a (fun x => BitVec.ofNat 32 (clzWord x)) s

/-- R233: leading zeros; 32 for 0. Uniform form. -/
def execClzU (d : BitVec 7) (ea : Bool) (a : BitVec 7) (s : State) : Result :=
  word1 (.clzU d ea a) true d ea a (fun x => BitVec.ofNat 32 (clzWord x)) s

/-- R233: trailing zeros; 32 for 0. -/
def execCtz (d : BitVec 7) (ea : Bool) (a : BitVec 7) (s : State) : Result :=
  word1 (.ctz d ea a) false d ea a (fun x => BitVec.ofNat 32 (ctzWord x)) s

/-- R233: trailing zeros; 32 for 0. Uniform form. -/
def execCtzU (d : BitVec 7) (ea : Bool) (a : BitVec 7) (s : State) : Result :=
  word1 (.ctzU d ea a) true d ea a (fun x => BitVec.ofNat 32 (ctzWord x)) s

/-- R233: the bits in reverse order. -/
def execBrev (d : BitVec 7) (ea : Bool) (a : BitVec 7) (s : State) : Result :=
  word1 (.brev d ea a) false d ea a brevWord s

/-- R233: the bits in reverse order. Uniform form. -/
def execBrevU (d : BitVec 7) (ea : Bool) (a : BitVec 7) (s : State) : Result :=
  word1 (.brevU d ea a) true d ea a brevWord s

/-- R234: a copy with its poison. -/
def execMov (d : BitVec 7) (ea : Bool) (a : BitVec 7) (s : State) : Result :=
  word1 (.mov d ea a) false d ea a (fun x => x) s

/-- R234: a copy with its poison. Uniform form. -/
def execMovU (d : BitVec 7) (ea : Bool) (a : BitVec 7) (s : State) : Result :=
  word1 (.movU d ea a) true d ea a (fun x => x) s

/-- R228: the exact value of the function rounded once. -/
def execRcp (d : BitVec 7) (ea : Bool) (a : BitVec 7) (s : State) : Result :=
  typed1 (.rcp d ea a) false d ea a floatTypes (fun _ => true) (fun m x => sfTyped .rcp (mType m) (rndOf m) x) s

/-- R228: the exact value of the function rounded once. Uniform form. -/
def execRcpU (d : BitVec 7) (ea : Bool) (a : BitVec 7) (s : State) : Result :=
  typed1 (.rcpU d ea a) true d ea a floatTypes (fun _ => true) (fun m x => sfTyped .rcp (mType m) (rndOf m) x) s

/-- R228: the exact value of the function rounded once. -/
def execRsq (d : BitVec 7) (ea : Bool) (a : BitVec 7) (s : State) : Result :=
  typed1 (.rsq d ea a) false d ea a floatTypes (fun _ => true) (fun m x => sfTyped .rsq (mType m) (rndOf m) x) s

/-- R228: the exact value of the function rounded once. Uniform form. -/
def execRsqU (d : BitVec 7) (ea : Bool) (a : BitVec 7) (s : State) : Result :=
  typed1 (.rsqU d ea a) true d ea a floatTypes (fun _ => true) (fun m x => sfTyped .rsq (mType m) (rndOf m) x) s

/-- R228: the exact value of the function rounded once. -/
def execSqrt (d : BitVec 7) (ea : Bool) (a : BitVec 7) (s : State) : Result :=
  typed1 (.sqrt d ea a) false d ea a floatTypes (fun _ => true) (fun m x => sfTyped .sqrt (mType m) (rndOf m) x) s

/-- R228: the exact value of the function rounded once. Uniform form. -/
def execSqrtU (d : BitVec 7) (ea : Bool) (a : BitVec 7) (s : State) : Result :=
  typed1 (.sqrtU d ea a) true d ea a floatTypes (fun _ => true) (fun m x => sfTyped .sqrt (mType m) (rndOf m) x) s

/-- R228: the exact value of the function rounded once. -/
def execExp2 (d : BitVec 7) (ea : Bool) (a : BitVec 7) (s : State) : Result :=
  typed1 (.exp2 d ea a) false d ea a floatTypes (fun _ => true) (fun m x => sfTyped .exp2 (mType m) (rndOf m) x) s

/-- R228: the exact value of the function rounded once. Uniform form. -/
def execExp2U (d : BitVec 7) (ea : Bool) (a : BitVec 7) (s : State) : Result :=
  typed1 (.exp2U d ea a) true d ea a floatTypes (fun _ => true) (fun m x => sfTyped .exp2 (mType m) (rndOf m) x) s

/-- R228: the exact value of the function rounded once. -/
def execLog2 (d : BitVec 7) (ea : Bool) (a : BitVec 7) (s : State) : Result :=
  typed1 (.log2 d ea a) false d ea a floatTypes (fun _ => true) (fun m x => sfTyped .log2 (mType m) (rndOf m) x) s

/-- R228: the exact value of the function rounded once. Uniform form. -/
def execLog2U (d : BitVec 7) (ea : Bool) (a : BitVec 7) (s : State) : Result :=
  typed1 (.log2U d ea a) true d ea a floatTypes (fun _ => true) (fun m x => sfTyped .log2 (mType m) (rndOf m) x) s

/-- R228: the exact value of the function rounded once. -/
def execSin (d : BitVec 7) (ea : Bool) (a : BitVec 7) (s : State) : Result :=
  typed1 (.sin d ea a) false d ea a floatTypes (fun _ => true) (fun m x => sfTyped .sin (mType m) (rndOf m) x) s

/-- R228: the exact value of the function rounded once. Uniform form. -/
def execSinU (d : BitVec 7) (ea : Bool) (a : BitVec 7) (s : State) : Result :=
  typed1 (.sinU d ea a) true d ea a floatTypes (fun _ => true) (fun m x => sfTyped .sin (mType m) (rndOf m) x) s

/-- R228: the exact value of the function rounded once. -/
def execCos (d : BitVec 7) (ea : Bool) (a : BitVec 7) (s : State) : Result :=
  typed1 (.cos d ea a) false d ea a floatTypes (fun _ => true) (fun m x => sfTyped .cos (mType m) (rndOf m) x) s

/-- R228: the exact value of the function rounded once. Uniform form. -/
def execCosU (d : BitVec 7) (ea : Bool) (a : BitVec 7) (s : State) : Result :=
  typed1 (.cosU d ea a) true d ea a floatTypes (fun _ => true) (fun m x => sfTyped .cos (mType m) (rndOf m) x) s

/-- R241: conversion between the formats of imm8; CONVERT_RANGE poison out of range. -/
def execCvt (d : BitVec 7) (ea : Bool) (a : BitVec 7) (i : BitVec 8) (s : State) : Result :=
  convertOp (.cvt d ea a i) false d ea a i s

/-- R241: conversion between the formats of imm8; CONVERT_RANGE poison out of range. Uniform form. -/
def execCvtU (d : BitVec 7) (ea : Bool) (a : BitVec 7) (i : BitVec 8) (s : State) : Result :=
  convertOp (.cvtU d ea a i) true d ea a i s

/-- R242: a packed pair from two sources. -/
def execPack2 (d : BitVec 7) (ea : Bool) (a : BitVec 7) (eb : Bool) (b : BitVec 7) (s : State) : Result :=
  pack2Op (.pack2 d ea a eb b) false d ea a eb b s

/-- R242: a packed pair from two sources. Uniform form. -/
def execPack2U (d : BitVec 7) (ea : Bool) (a : BitVec 7) (eb : Bool) (b : BitVec 7) (s : State) : Result :=
  pack2Op (.pack2U d ea a eb b) true d ea a eb b s

/-- R243: one element of a packed pair, widened. -/
def execUnpk2 (d : BitVec 7) (ea : Bool) (a : BitVec 7) (n : Bool) (s : State) : Result :=
  typed1 (.unpk2 d ea a n) false d ea a packedTypes (!isInt ·) (fun m x => unpackTyped (mType m) (mFtz m) x n) s

/-- R243: one element of a packed pair, widened. Uniform form. -/
def execUnpk2U (d : BitVec 7) (ea : Bool) (a : BitVec 7) (n : Bool) (s : State) : Result :=
  typed1 (.unpk2U d ea a n) true d ea a packedTypes (!isInt ·) (fun m x => unpackTyped (mType m) (mFtz m) x n) s

/-- R223: a + imm8, extended as the type states. -/
def execAddi (d : BitVec 7) (ea : Bool) (a : BitVec 7) (i : BitVec 8) (s : State) : Result :=
  typed1 (.addi d ea a i) false d ea a intTypes (fun _ => false) (fun m x => (binTyped .add (mType m) (rndOf m) x (immWord (mType m) i)).getD 0) s

/-- R223: a + imm8, extended as the type states. Uniform form. -/
def execAddiU (d : BitVec 7) (ea : Bool) (a : BitVec 7) (i : BitVec 8) (s : State) : Result :=
  typed1 (.addiU d ea a i) true d ea a intTypes (fun _ => false) (fun m x => (binTyped .add (mType m) (rndOf m) x (immWord (mType m) i)).getD 0) s

/-- R234: imm16 zero-extended. -/
def execMovw (d : BitVec 7) (i : BitVec 16) (s : State) : Result :=
  const (.movw d i) false d (i.setWidth 32) s

/-- R234: imm16 zero-extended. Uniform form. -/
def execMovwU (d : BitVec 7) (i : BitVec 16) (s : State) : Result :=
  const (.movwU d i) true d (i.setWidth 32) s

/-- R234: imm16 into the upper half of d. -/
def execMovh (d : BitVec 7) (i : BitVec 16) (s : State) : Result :=
  word1 (.movh d i) false d false d (fun x => i ++ x.extractLsb' 0 16) s

/-- R234: imm16 into the upper half of d. Uniform form. -/
def execMovhU (d : BitVec 7) (i : BitVec 16) (s : State) : Result :=
  word1 (.movhU d i) true d false d (fun x => i ++ x.extractLsb' 0 16) s

/-- R236: copies an s-register into d of every executing thread. -/
def execSmov (d : BitVec 7) (ea : Bool) (a : BitVec 7) (s : State) : Result :=
  moveOp (.smov d ea a) false [⟨.s, a.toNat, ea, 1⟩] ⟨.v, d.toNat, 1⟩ s

/-- R236: copies d from the lowest-numbered executing thread into an s-register. -/
def execVset (d : BitVec 7) (ea : Bool) (a : BitVec 7) (s : State) : Result :=
  vsetOp (.vset d ea a) d ea a s

/-- R248: a predicate operation. -/
def execPand (d : BitVec 3) (ea : Bool) (a : BitVec 3) (eb : Bool) (b : BitVec 3) (s : State) : Result :=
  predOp (.pand d ea a eb b) d [pSrc a ea, pSrc b eb] (fun _ => true) (fun _ vs => (fun x y => x && y) (arg vs 0 != 0) (arg vs 1 != 0)) s

/-- R248: a predicate operation. -/
def execPor (d : BitVec 3) (ea : Bool) (a : BitVec 3) (eb : Bool) (b : BitVec 3) (s : State) : Result :=
  predOp (.por d ea a eb b) d [pSrc a ea, pSrc b eb] (fun _ => true) (fun _ vs => (fun x y => x || y) (arg vs 0 != 0) (arg vs 1 != 0)) s

/-- R248: a predicate operation. -/
def execPxor (d : BitVec 3) (ea : Bool) (a : BitVec 3) (eb : Bool) (b : BitVec 3) (s : State) : Result :=
  predOp (.pxor d ea a eb b) d [pSrc a ea, pSrc b eb] (fun _ => true) (fun _ vs => (fun x y => x != y) (arg vs 0 != 0) (arg vs 1 != 0)) s

/-- R248: the complement of a predicate. -/
def execPnot (d : BitVec 3) (ea : Bool) (a : BitVec 3) (s : State) : Result :=
  predOp (.pnot d ea a) d [pSrc a ea] (fun _ => true) (fun _ vs => arg vs 0 == 0) s

/-- R248: a copy of a predicate. -/
def execPmov (d : BitVec 3) (ea : Bool) (a : BitVec 3) (s : State) : Result :=
  predOp (.pmov d ea a) d [pSrc a ea] (fun _ => true) (fun _ vs => arg vs 0 != 0) s

/-- R250: sets base and bound from a. -/
def execXset (d : BitVec 2) (ea : Bool) (a : BitVec 7) (s : State) : Result :=
  xsetOp (.xset d ea a) d ea a s

/-- R250: adds to the base; BOUNDS poison outside 0 to 255. -/
def execXadd (d a : BitVec 2) (i : BitVec 8) (s : State) : Result :=
  xaddOp (.xadd d a i) d a i s

/-- R251: reads a register through an index register. -/
def execMovx (d : BitVec 7) (a : BitVec 2) (eb : Bool) (b : BitVec 7) (s : State) : Result :=
  movxOp (.movx d a eb b) d a eb b s

/-- R252: writes a register through an index register. -/
def execMovxw (d : BitVec 2) (ea : Bool) (a : BitVec 7) (eb : Bool) (b : BitVec 7) (s : State) : Result :=
  movxwOp (.movxw d ea a eb b) d ea a eb b s

/-- R245: the value of a in the thread that b names. -/
def execShflIdx (d : BitVec 7) (ea : Bool) (a : BitVec 7) (eb : Bool) (b : BitVec 7) (s : State) : Result :=
  shuffle (.shflIdx d ea a eb b) d ea a (some (vSrc b eb)) idxLane s

/-- R245: the value of a in thread t − n. -/
def execShflUp (d : BitVec 7) (ea : Bool) (a i : BitVec 7) (s : State) : Result :=
  shuffle (.shflUp d ea a i) d ea a none (upLane i.toNat) s

/-- R245: the value of a in thread t + n. -/
def execShflDn (d : BitVec 7) (ea : Bool) (a i : BitVec 7) (s : State) : Result :=
  shuffle (.shflDn d ea a i) d ea a none (dnLane i.toNat) s

/-- R245: the value of a in thread t xor n. -/
def execShflXor (d : BitVec 7) (ea : Bool) (a i : BitVec 7) (s : State) : Result :=
  shuffle (.shflXor d ea a i) d ea a none (xorLane i.toNat) s

/-- R245: the value of a in thread n. -/
def execBcast (d : BitVec 7) (ea : Bool) (a i : BitVec 7) (s : State) : Result :=
  shuffle (.bcast d ea a i) d ea a none (oneLane i.toNat) s

/-- R246: ALL, ANY or the ballot of a predicate over the contributors. -/
def execVote (d : BitVec 7) (ea : Bool) (p : BitVec 3) (k : BitVec 2) (s : State) : Result :=
  voteOp (.vote d ea p k) d ea p k s

/-- R247: prefix scan of a over the contributors. -/
def execQscan (d : BitVec 7) (ea : Bool) (a : BitVec 7) (i : BitVec 4) (s : State) : Result :=
  scanOp (.qscan d ea a i) d ea a (i.extractLsb' 0 3).toNat true (i.getLsbD 3) s

/-- R247: reduction of a over the contributors. -/
def execReduce (d : BitVec 7) (ea : Bool) (a : BitVec 7) (i : BitVec 4) (s : State) : Result :=
  scanOp (.reduce d ea a i) d ea a (i.extractLsb' 0 3).toNat false false s

end Sys2Proof.Machine
end

