-- ==== Sys2Proof/Machine/Spans.lean ====
section
/-!
DEFINITION. Commit (R61 to R65): the evaluation of a span's open threads, service and replay, the parked side, and the
implicit commit before a trigger (R64).
-/

namespace Sys2Proof.Machine

/-! ## Parked sides -/

/-- R62: whether the side parked at a COMMIT can merge with the path that evaluates there: every thread that was sent
to replay is on the path, and nothing lies between the sides. -/
def Group.mergeable (g : Group) (pid : Nat) (p : Path) (hid : Nat) (x : Hold) : Bool :=
  x.replaying &&& ~~~g.exited &&& ~~~p.mask = 0 &&
    match x.side with
    | none => (g.top pid).any (·.hold = some hid)
    | some q => q ≠ pid && (sfind g.paths q).isSome && (g.innermost pid).isNone

/-- R62: the replaying path and the side parked at the COMMIT become one path again; the join point that their split
consumed is pending again (log entry 24). The path carries the mode and the return stack of the replaying side: the model's choice
(log entry 68). -/
def Group.unsplit (g : Group) (pid hid : Nat) (x : Hold) : Group :=
  let g : Group := { g with span := { g.span with holds := sdel g.span.holds hid } }
  match x.side with
  | some q =>
    let m := (sfind g.paths q).elim (0 : Mask) (·.mask)
    let g := { g with paths := sdel g.paths q, topJoin := none }
    g.modPath pid fun p => { p with mask := p.mask ||| (m &&& ~~~g.exited), pend := x.pend }
  | none =>
    match g.innermost pid with
    | none => g
    | some k =>
      let m := (g.stack[k]?).elim (0 : Mask) (·.mask)
      let g : Group := { g with stack := g.stack.eraseIdx k }
      let g : Group := match g.innermost pid with
        | some j => if x.pend.isSome && (g.stack[j]?).any (·.kind = .merge) then { g with stack := g.stack.eraseIdx j } else g
        | none => g
      g.modPath pid fun p => { p with mask := p.mask ||| (m &&& ~~~g.exited), pend := x.pend }

/-- R61: some threads of a path go on at `fpc` and others to recovery at `target`; with both, the path splits with the
recovery threads as the taken side. -/
def Group.part2 (g : Group) (pid : Nat) (cont rec' : Mask) (target fpc : DWord) : Group :=
  let g := g.modPath pid fun p =>
    { p with mask := cont ||| rec', park := .running, pc := if rec' = 0 then fpc else if cont = 0 then target else p.pc }
  if rec' ≠ 0 && cont ≠ 0 then g.split pid rec' target fpc false else g

/-- R62: a COMMIT completes for a side parked at it, because its replaying threads were evaluated at another point. A
deferred side with both kinds of threads becomes two entries, the recovery threads inner. -/
def Group.releaseHold (g : Group) (hid : Nat) (x : Hold) : Group :=
  let w := x.waiting &&& ~~~g.exited
  let r := x.recover &&& ~~~g.exited
  let fpc := if x.explicit then nextPc x.pc else x.pc
  let sp := g.span
  let g : Group :=
    { g with wdog := 0, retired := if x.explicit then g.retired + 1 else g.retired
             span := { sp with holds := sdel sp.holds hid, opened := sp.opened &&& ~~~(w ||| r) } }
  match x.side with
  | some q => g.part2 q w r x.target fpc
  | none =>
    { g with stack := g.stack.flatMap fun e =>
        if e.hold ≠ some hid then [e]
        else if r = 0 then [{ e with hold := none, pc := fpc }]
        else if w = 0 then [{ e with hold := none, pc := x.target }]
        else [{ e with hold := none, pc := fpc, mask := w, join := none }, { e with hold := none, pc := x.target, mask := r }] }

/-- R62, R450: the COMMIT of a parked side completes; where it splits, with its record. -/
def releaseSide (s : State) (gid hid : Nat) (x : Hold) : State :=
  match s.group gid with
  | none => s
  | some g =>
    let s := s.setGroup (g.releaseHold hid x)
    let r := x.recover &&& ~~~g.exited
    if r ≠ 0 && x.waiting &&& ~~~g.exited ≠ 0 then traceFlow s gid 1 x.target r else s

/-- R183: what a COMMIT does leaves a group's stack within its 32 entries. -/
def stackFits (before after : State) (gid : Nat) : Bool :=
  match before.group gid, after.group gid with
  | some b, some a => a.stack.length ≤ 32 || a.stack.length ≤ b.stack.length
  | _, _ => true

/-! ## Service -/

/-- R62: the services that the live poisons of the replaying threads need, with the threads whose service fails at once.
Pages are requested from the driver (R388). -/
def startServices (s : State) (ctx : Nat) (priv : Bool) (loc : BitVec 11) (ps : List LivePoison) :
    List (Nat × Service) × Mask × State :=
  ps.foldl (fun acc x =>
    let (l, bad, s) := acc
    if x.cause = causeNotPresent then (l ++ [(x.t, .page x.addr x.write)], bad, requestFault s ctx x.addr 0 x.write loc)
    else if x.cause = causeFutureEmpty then
      match checkFlat s ctx none priv { future := true } (x.addr.setWidth 64) with
      | (.loc pa _, s) => (l ++ [(x.t, .cell pa)], bad, s)
      | (.remote c node pa _, s) => (l ++ [(x.t, .farCell (x.addr.setWidth 64) c node pa)], bad, s)
      | (.fail k _, s) =>
        if k = causeNotPresent then (l ++ [(x.t, .cellPage x.addr)], bad, requestFault s ctx x.addr 0 false loc)
        else (l, bad ||| (1#128 <<< x.t), s)
    else if x.cause = causeEmptyRead then (l ++ x.regs.map fun r => (x.t, .reg r), bad, s)
    else (l, bad, s)) ([], 0, s)

/-- R62: a wait is over. -/
def serviceDone (s : State) (g : Group) : Service → Bool
  | .page _ _ => false
  | .cellPage _ => false
  | .cell pa => fullBit s.mem pa
  | .farCell va _ _ _ => g.cells.any (·.1 = va)
  | .reg ⟨0, r, t⟩ => (vGet g r t).full
  | .reg ⟨1, r, _⟩ => (sGet g r).full
  | .reg ⟨_, r, t⟩ => (pGet g r t).full

/-! ## Evaluation -/

/-- R61 step 1, R310: the first-live record: the record of the first live poison of the lowest-numbered live thread; all
zero when no thread is live, and, by the model's choice, when that poison's entry holds no valid record (log entry 65). -/
def firstLive (s : State) (core : Nat) (sp : Span) (live : Mask) : List Word :=
  match (threadsOf live).head? with
  | none => List.replicate 8 0
  | some t =>
    match sp.poisons.find? (·.t = t) with
    | none => List.replicate 8 0
    | some x => ((recordAt s core x.tok).map recordWords).getD (List.replicate 8 0)

/-- R61: the held effects of an evaluation are released, dropped or discarded by the action, in order of allocation
(R63). -/
def settleEffects (s : State) (gid : Nat) (pc : DWord) (action : Nat) (ev live rec' : Mask) : State :=
  match s.group gid with
  | none => s
  | some g =>
    let (effs, g1) := takeHeld g (if 2 ≤ action then ev else ev &&& ~~~live)
    let s := s.setGroup (discardHeld g1 rec')
    if action = 2 then
      let bad := effs.filter fun e => !e.tokens.isEmpty
      let s := dropped s gid pc (bad.map fun e => e.tokens.headD 0)
      let good := effs.filter (·.tokens.isEmpty)
      good.foldl (submit good) s
    else performAll s gid pc effs

/-- R61: the COMMIT completes: the two sides of a replay merge, the open bits clear and the path splits or goes on. An
explicit COMMIT retires. -/
def finishCommit (s : State) (gid pid : Nat) (cont rec' : Mask) (target pc : DWord) (explicit : Bool) (same : Option Nat) :
    State :=
  match s.group gid with
  | none => s
  | some g =>
    let x := same.bind (sfind g.span.holds ·)
    let cont := cont ||| (x.elim 0 (·.waiting) &&& ~~~g.exited)
    let rec' := rec' ||| (x.elim 0 (·.recover) &&& ~~~g.exited)
    let g : Group := match same, x with
      | some hid, some x => g.unsplit pid hid x
      | _, _ => g
    let sp := g.span
    let g : Group :=
      { g with wdog := 0, retired := if explicit then g.retired + 1 else g.retired, span := { sp with opened := sp.opened &&& ~~~(cont ||| rec') } }
    let s := s.setGroup (g.part2 pid cont rec' target (if explicit then nextPc pc else pc))
    if cont ≠ 0 && rec' ≠ 0 then traceFlow s gid 1 target rec' else s

/-- The sides parked at a COMMIT for which threads of a path replay. -/
def myHolds (g : Group) (p : Path) : List (Nat × Hold) := g.span.holds.filter fun kh => kh.2.replaying &&& p.mask ≠ 0

/-- R61, R62, R64: evaluates the open threads of a path by an action. None when the split that it needs finds no room,
which fails check 7. -/
def commit (s : State) (h : Here) (action : Nat) (target : DWord) (explicit : Bool) : Option State :=
  let sp := h.g.span
  let ev := h.p.mask &&& sp.opened
  let live := ev &&& sp.live
  let spent := maskOf fun t => live.getLsbD t && (sp.unserv.getLsbD t || 4 ≤ sget 0 sp.replays t)
  let rec' := if action = 0 then live else if action = 1 then spent else 0
  let rep := if action = 1 then live &&& ~~~spent else 0
  let cont := h.p.mask &&& ~~~rec' &&& ~~~rep
  let mine := myHolds h.g h.p
  let same := (mine.find? fun kh => kh.2.pc = h.p.pc && h.g.mergeable h.pid h.p kh.1 kh.2).map (·.1)
  if same.isNone && ((rep ≠ 0 && (cont ||| rec') ≠ 0) || (cont ≠ 0 && rec' ≠ 0)) && !h.g.canSplit h.pid then none
  else
    let before := s
    let rcd := firstLive s h.w.coreNo sp live
    let s := (freeInspan s h.g.id).modGroup h.g.id fun g => { g with span := { g.span with record := rcd } }
    let s := settleEffects s h.g.id h.p.pc action ev live rec'
    let s := (mine.filter fun kh => some kh.1 ≠ same).foldl (fun s kh => releaseSide s h.g.id kh.1 kh.2) s
    let s := if explicit then s else resetWatchdog s h.g.id
    let done := finishCommit s h.g.id h.pid cont rec' target h.p.pc explicit same
    if !stackFits before (if rep = 0 then done else s) h.g.id then none
    else if rep = 0 then some done
    else
      let priv := (s.launch h.w.launch).any (·.priv)
      let (sv, bad, s) := startServices s h.w.ctx priv (location h.w h.g.part) (sp.poisons.filter fun x => rep.getLsbD x.t)
      let x : Serving :=
        { pc := h.p.pc, replaying := rep, failed := bad, waiting := cont, recover := rec', target := target,
          explicit := explicit, same := same, services := sv }
      some (s.modGroup h.g.id fun g =>
        ({ g with span := { g.span with serving := sins g.span.serving h.pid x } }).modPath h.pid fun p => { p with park := .commit })

/-- R62: the replay itself, once every wait is over. -/
def replay (s : State) (gid pid : Nat) (x : Serving) : State :=
  let go := x.replaying &&& ~~~x.failed
  let rec' := x.recover ||| (x.replaying &&& x.failed)
  let s := s.modGroup gid fun g =>
    let g := discardHeld g x.replaying
    let sp := g.span
    { g with span := { sp with
        serving := sdel sp.serving pid
        live := sp.live &&& ~~~go
        unserv := (sp.unserv ||| (x.replaying &&& x.failed)) &&& ~~~go
        poisons := sp.poisons.filter fun y => !go.getLsbD y.t
        first := sp.first.filter fun kt => !go.getLsbD kt.1
        replays := (threadsOf go).foldl (fun m t => sins m t (sget 0 m t + 1)) sp.replays } }
  if go = 0 then finishCommit s gid pid x.waiting rec' x.target x.pc x.explicit x.same
  else
    let start := (s.group gid).elim 0 (·.span.start)
    let (hid, s) := s.fresh
    let s := s.modGroup gid fun g =>
      match x.same.bind fun k => (sfind g.span.holds k).map (k, ·) with
      | some (k, y) =>
        let y' := { y with waiting := y.waiting ||| x.waiting, recover := y.recover ||| rec', replaying := go }
        let g : Group := { g with span := { g.span with holds := sins g.span.holds k y' } }
        let add := x.waiting ||| rec'
        let g : Group := match y.side with
          | some q => g.modPath q fun p => { p with mask := p.mask ||| add }
          | none => { g with stack := g.stack.map fun (e : StackEntry) => if e.hold = some k then { e with mask := e.mask ||| add } else e }
        g.modPath pid fun p => { p with mask := go, pc := start, park := .running }
      | none =>
        if x.waiting ||| rec' = 0 then g.modPath pid fun p => { p with pc := start, park := .running }
        else
          let top := g.topSplit pid
          let pend := (sfind g.paths pid).bind (·.pend)
          let g := g.split pid go start x.pc false
          let y : Hold :=
            { pc := x.pc, replaying := go, waiting := x.waiting, recover := rec', target := x.target, explicit := x.explicit,
              pend := pend, side := if top then some pid else none }
          let g : Group := { g with span := { g.span with holds := sins g.span.holds hid y } }
          if top then g.modPath pid fun p => { p with park := .commit }
          else match g.stack.getLast? with
            | some e => { g with stack := g.stack.dropLast ++ [{ e with hold := some hid }] }
            | none => g
    traceFlow s gid 3 start go

/-- R55, R64: threads of the path that issues have their span open. -/
def spanOpen (h : Here) : Bool := h.p.mask &&& h.g.span.opened ≠ 0

/-- R64: before a trigger issues, the span of the issuing path's open threads closes with the declared action; then the
trigger issues, if its path still stands at it and nothing replays: its own issue counts after the reset (R36). A trigger that
must still wait issues later; so does one whose path a replay or recovery takes away, or it never does. `overflow` is the
quarantine overflow, which in a melded region commits with .KEEP. -/
def withCommit (i : Instr) (s : State) (h : Here) (overflow : Bool) (k : State → Here → Result) : Result :=
  if !spanOpen h then k s h
  else if h.p.meld.isSome && !overflow then reject s h i 7
  else
    let action := if h.p.meld.isSome then 3 else h.g.span.action.toNat
    match commit s h action h.g.span.recover false with
    | none => reject s h i 7
    | some s1 =>
      match s1.here with
      | none => .next s1
      | some h1 =>
        if h1.p.pc = h.p.pc && h1.p.park = .running && h1.p.mask ≠ 0 && !spanOpen h1 then
          let s1' := s1.modGroup h.g.id fun g => { g with wdog := 1 }
          match s1'.here with
          | none => .next s1
          | some h1' =>
            match k s1' h1' with
            | .next s2 => if s2.ctl.stalled then .next s1 else .next s2
            | r => r
        else .next s1

/-- R58, R64: a write-type instruction: its effects are held for threads with their span open and performed for the
others. An effect that finds no entry first commits the span and then issues outside it. `mk` gives the effects of an
instruction, with the records of the addresses that fail (R256). -/
def issueEffects (i : Instr) (s : State) (h : Here) (mk : State → Here → List Eff × State) : Result :=
  let run (s : State) (h : Here) : List Eff × State := mk s h
  let finish (h : Here) (effs : List Eff) (s : State) : State :=
    let inSpan (e : Eff) : Bool := e.owners ≠ 0
    retire (performAll (holdEffs s h.g.id (effs.filter inSpan)) h.g.id h.p.pc (effs.filter fun e => !inSpan e)) h
  let (effs, s1) := run s h
  let held := effs.filter (·.owners ≠ 0)
  if held.isEmpty || fitsHeld s h.g h.w held then .next (finish h effs s1)
  else
    let s0 := raiseGroup s h.g.id 16 0 1 (poisonInfo h.p.pc 0x3FF 0)
    withCommit i s0 h true fun s2 h2 =>
      let (effs, s3) := run s2 h2
      .next (finish h2 effs s3)

end Sys2Proof.Machine
end

