-- ==== Sys2Proof/Machine/Control.lean ====
section
/-!
DEFINITION. Mode, staging, branches, calls, joins, exits, melded regions, spans and the poison inspection instructions
(R180 to R201), and a word whose fetch or code point fails (R175, R178).
-/

namespace Sys2Proof.Machine

/-! ## Mode, staging and NOP -/

/-- R182. -/
def execNop (s : State) : Result := issuing s fun h => .next (retire s h)

/-- R182. -/
def execNopU (s : State) : Result := issuing s fun h => .next (retire s h)

/-- R180: MODE. -/
def execMode (i : BitVec 16) (s : State) : Result :=
  issuing s fun h => .next (retire (s.modPath h fun p => { p with mode := i }) h)

/-- R180: MODEG writes bits [15:12] and [4:3] and keeps the others. -/
def modegMode (old i : BitVec 16) : BitVec 16 := (old &&& 0x0FE7#16) ||| (i &&& 0xF018#16)

/-- R180: MODEG. -/
def execModeg (i : BitVec 16) (s : State) : Result :=
  issuing s fun h => .next (retire (s.modPath h fun p => { p with mode := modegMode p.mode i }) h)

/-- R181: the blocks that a STAGE names. -/
def stagedBlocks (i : BitVec 16) : List Nat :=
  ((List.range 8).filter (i.getLsbD ·)).map fun k => (i.extractLsb' 11 5).toNat + k

/-- R181: STAGE. -/
def execStage (i : BitVec 16) (s : State) : Result :=
  issuing s fun h =>
    if (stagedBlocks i).any (h.g.budget ≤ ·) then reject s h (.stage i) 5
    else .next (retire (s.modGroup h.g.id fun g => { g with staged := stagedBlocks i }) h)

/-! ## Branches -/

/-- R50, R60, R66: poisoned predicates or targets of threads: live where the span is open, else counted as dropped. -/
def branchPoison (s : State) (h : Here) (l : List (Nat × Token)) : State :=
  let isOpen (x : Nat × Token) : Bool := h.g.span.opened.getLsbD x.1
  let s := (l.filter isOpen).foldl (fun s x => makeLive s h.g.id x.1 x.2) s
  dropped s h.g.id h.p.pc ((l.filter fun x => !isOpen x).map (·.2))

/-- The predicate is full in every active thread (R161, R185). -/
def predReady (h : Here) (p : BitVec 3) : Bool := (threadsOf h.p.mask).all fun t => (pGet h.g p.toNat t).full

/-- R185, R187: the predicate test of a thread holds; a poisoned one does not. -/
def branchTest (h : Here) (p : BitVec 3) (sen : Bool) (t : Nat) : Bool :=
  let q := pGet h.g p.toNat t
  !q.poi && q.val != sen

/-- The active threads whose predicate is poisoned. -/
def poisonedPreds (h : Here) (p : BitVec 3) : List (Nat × Token) :=
  (threadsOf h.p.mask).filterMap fun t => let q := pGet h.g p.toNat t; if q.poi then some (t, q.tok) else none

/-- R185, R188, R189: a branch that may split, by its taken threads. It consumes the pending join point; `again` sets it
again for the fall side, and `push` is pushed onto the return stack of the taken side. -/
def goSplit (s : State) (h : Here) (taken : Mask) (target fpc : DWord) (again : Bool) (push : Option DWord) : State :=
  let stackOf (p : Path) : List DWord := match push with | some a => a :: p.rstack | none => p.rstack
  let s := countRetire s h.g.id
  if taken = 0 then s.modPath h fun p => { p with pc := fpc, pend := none, park := .running }
  else if taken = h.p.mask then
    traceFlow (s.modPath h fun p => { p with pc := target, pend := none, park := .running, rstack := stackOf p })
      h.g.id 0 target taken
  else
    let tid := if h.g.topSplit h.pid then 1 - h.pid else h.pid
    let s := s.modGroup h.g.id fun g =>
      (g.split h.pid taken target fpc again).modPath tid fun p => { p with rstack := stackOf p }
    traceFlow s h.g.id 1 target taken

/-- R184: RECONV. -/
def execReconv (o : BitVec 19) (s : State) : Result :=
  issuing s fun h =>
    if h.p.meld.isSome then reject s h (.reconv o) 7
    else .next (retire (s.modPath h fun p =>
      { p with pend := some { pc := branchTarget p.pc o, mode := p.mode, rstack := p.rstack } }) h)

/-- R187: BRA. -/
def execBra (p : BitVec 3) (sen : Bool) (o : BitVec 19) (s : State) : Result :=
  issuing s fun h =>
    if h.p.meld.isSome then reject s h (.bra p sen o) 7
    else if !predReady h p then .next (stall s)
    else
      let s := branchPoison s h (poisonedPreds h p)
      if (threadsOf h.p.mask).any (branchTest h p sen) then
        let target := branchTarget h.p.pc o
        .next (traceFlow (retireAt s h target) h.g.id 0 target h.p.mask)
      else .next (retire s h)

/-- R185: BRC. -/
def execBrc (p : BitVec 3) (sen : Bool) (o : BitVec 19) (s : State) : Result :=
  issuing s fun h =>
    if h.p.meld.isSome then reject s h (.brc p sen o) 7
    else if !predReady h p then .next (stall s)
    else
      let taken := maskOf fun t => h.p.mask.getLsbD t && branchTest h p sen t
      if taken ≠ 0 && taken ≠ h.p.mask && !h.g.canSplit h.pid then reject s h (.brc p sen o) 7
      else .next (goSplit (branchPoison s h (poisonedPreds h p)) h taken (branchTarget h.p.pc o) (nextPc h.p.pc) false none)

/-- R188: the target of a thread: poisoned, empty, or an address with bits [1:0] ignored. -/
def brxTarget : ThreadOut → Option DWord
  | .words ws => some (pairOf ws &&& ~~~3#64)
  | _ => none

/-- R188, R189: BRX, and CALLX where `call` is set. -/
def brx (i : Instr) (ea : Bool) (a : BitVec 7) (call : Bool) (s : State) : Result :=
  issuing s fun h =>
    let src : Src := { file := .v, reg := a.toNat, e := ea, n := 2 }
    let ts := threadsOf h.p.mask
    match operandCheck h [src] none true with
    | some r => reject s h i r
    | none =>
      if h.p.meld.isSome then reject s h i 7
      else if !srcReady h.g h.p src ts then .next (stall s)
      else
        let outs : List (Nat × ThreadOut) := ts.map fun t => (t, match readSrc h.g h.p src t with
          | .words ws => .words ws
          | .poison k => .tok k
          | .empty => .fresh (emptyRead h.g h.p src t))
        let clean := outs.filterMap fun o => (brxTarget o.2).map (o.1, ·)
        let bad (outs : List (Nat × ThreadOut)) : List (Nat × Token) :=
          outs.filterMap fun o => match o.2 with | .tok k => some (o.1, k) | _ => none
        match clean with
        | [] =>
          let (outs, s) := settle s h outs
          .next (goSplit (branchPoison s h (bad outs)) h 0 0 (nextPc h.p.pc) false none)
        | (_, target) :: _ =>
          let taken := maskOf fun t => clean.any fun c => c.1 = t && c.2 = target
          if (call && 16 ≤ h.p.rstack.length) || (taken ≠ h.p.mask && !h.g.canSplit h.pid) then reject s h i 7
          else
            let (outs, s) := settle s h outs
            let s := (bad outs).foldl (fun s x => makeLive s h.g.id x.1 x.2) s
            .next (goSplit s h taken target h.p.pc true (if call then some (nextPc h.p.pc) else none))

/-- R188: BRX. -/
def execBrx (ea : Bool) (a : BitVec 7) (s : State) : Result := brx (.brx ea a) ea a false s

/-- R188, R189: CALLX. -/
def execCallx (ea : Bool) (a : BitVec 7) (s : State) : Result := brx (.callx ea a) ea a true s

/-- R189: CALL. -/
def execCall (o : BitVec 19) (s : State) : Result :=
  issuing s fun h =>
    if h.p.meld.isSome || 16 ≤ h.p.rstack.length then reject s h (.call o) 7
    else
      let target := branchTarget h.p.pc o
      let s := (countRetire s h.g.id).modPath h fun p => { p with rstack := nextPc p.pc :: p.rstack, pc := target, park := .running }
      .next (traceFlow s h.g.id 0 target h.p.mask)

/-- R189, R215: RET. -/
def execRet (s : State) : Result :=
  issuing s fun h =>
    if h.p.meld.isSome then reject s h .ret 7
    else if (h.g.top h.pid).any (·.kind = .trap) then
      match h.g.innermost h.pid with
      | none => reject s h .ret 7
      | some k =>
        let s := (countRetire s h.g.id).modGroup h.g.id fun g => countJoins g ((g.popAt h.pid k).vanish h.pid 70)
        .next (traceJoined s h.g h.pid)
    else match h.p.rstack with
      | [] => reject s h .ret 7
      | a :: r =>
        let s := (countRetire s h.g.id).modPath h fun p => { p with pc := a, rstack := r, park := .running }
        .next (traceFlow s h.g.id 0 a h.p.mask)

/-- R190: JOIN. -/
def execJoin (s : State) : Result :=
  issuing s fun h =>
    if h.p.meld.isSome then reject s h .join 7
    else
      let (g, merged) := h.g.join h.pid h.p.pc
      let parked := (sfind g.paths h.pid).any fun p => p.park = .join h.p.pc
      if parked then .next (s.setGroup g)
      else
        let other := (sfind h.g.paths (1 - h.pid)).any fun o => o.park = .join h.p.pc && o.mask ≠ 0
        let n : Word := if merged && other && g.paths.length < h.g.paths.length then 2 else 1
        let g : Group := { g with retired := g.retired + n, wdog := 0 }
        let g := countJoins g (g.vanish h.pid 70)
        let s := s.setGroup g
        if merged then
          match sfind g.paths h.pid with
          | some p => .next (traceFlow s h.g.id 2 p.pc p.mask)
          | none => .next s
        else .next (traceJoined s h.g h.pid)

/-- R191: EXIT. -/
def execExit (s : State) : Result :=
  issuing s fun h =>
    if !guardFull h.g h.p then .next (stall s)
    else withCommit .exit s h false fun s h =>
      let ths := vecThreads h.g h.p
      let m := maskOf fun t => ths.contains (t, none)
      let s := dropped s h.g.id h.p.pc (ths.filterMap (·.2))
      .next (endThreads (resetWatchdog (retire s h) h.g.id) h.g.id h.pid m)

/-- R175, R177, R178: a fetched word that is no instruction, or a fetch that failed (reason 1). With a span open reason 1 commits
it first; the path ends with the span open where that commit finds no stack room, and inside a melded region the commit keeps: the
model's choices (log entry 68). -/
def execUnassignedCodePoint (w : Word) (reason : Nat) (s : State) : Result :=
  issuing s fun h =>
    if reason ≠ 1 then .next (illegal s h w reason)
    else
      let e := illegalEvent s h w 1
      let s1 := raise s e
      if !resumes s e then .next (heldBack s1 h.g.id)
      else
        match s1.here with
        | none => .next s1
        | some h =>
          let leave (s : State) : Result :=
            match s.here with
            | none => .next s
            | some h => .next (endThreads (resetWatchdog s h.g.id) h.g.id h.pid h.p.mask)
          if !spanOpen h then leave s1
          else match commit s1 h (if h.p.meld.isSome then 3 else h.g.span.action.toNat) h.g.span.recover false with
            | none => leave s1
            | some s2 =>
              match s2.here with
              | some h2 => if h2.p.pc = h.p.pc && h2.p.park = .running && !spanOpen h2 then leave s2 else .next s2
              | none => .next s2

/-! ## Melded regions -/

/-- R192: MELD. -/
def execMeld (ea : Bool) (p : BitVec 3) (s : State) : Result :=
  issuing s fun h =>
    let src := pSrc p ea
    let ts := threadsOf h.p.mask
    if h.p.meld.isSome then reject s h (.meld ea p) 7
    else if !srcReady h.g h.p src ts then .next (stall s)
    else
      let outs : List (Nat × ThreadOut) := ts.map fun t => (t, match readSrc h.g h.p src t with
        | .words ws => .bool (ws.headD 0 ≠ 0)
        | .poison k => .tok k
        | .empty => .fresh (emptyRead h.g h.p src t))
      let (outs, s) := settle s h outs
      let s := outs.foldl (fun s o => match o.2 with | .tok k => makeLive s h.g.id o.1 k | _ => s) s
      .next (retire (s.modPath h fun p => { p with meld := some (maskOf fun t => outs.contains (t, .bool true)) }) h)

/-- R194: MELDEND. -/
def execMeldend (s : State) : Result :=
  issuing s fun h =>
    let s := if h.p.meld.isSome then
        (s.modGroup h.g.id fun g => { g with ren := [] }).modPath h fun p => { p with meld := none }
      else s
    .next (retire s h)

/-- R194: RNSET. -/
def execRnset (n : BitVec 4) (a b : BitVec 7) (s : State) : Result :=
  issuing s fun h =>
    if 8 * h.g.budget ≤ a.toNat || 8 * h.g.budget ≤ b.toNat then reject s h (.rnset n a b) 5
    else .next (retire (s.modGroup h.g.id fun g => { g with ren := sins g.ren n.toNat { src := a, dst := b } }) h)

/-- R194: RNCLR. -/
def execRnclr (s : State) : Result :=
  issuing s fun h => .next (retire (s.modGroup h.g.id fun g => { g with ren := [] }) h)

/-! ## Spans -/

/-- R55: what SPAN sets once no thread of its path has a span open. -/
def openSpan (g : Group) (m : Mask) (action : BitVec 2) (recover start : DWord) : Group :=
  let sp := g.span
  let mine (t : Nat) : Bool := m.getLsbD t
  { g with span := { sp with
      action := action, recover := recover, start := start
      opened := sp.opened ||| m
      live := sp.live &&& ~~~m
      unserv := sp.unserv &&& ~~~m
      first := sp.first.filter fun kt => !mine kt.1
      replays := sp.replays.filter fun kt => !mine kt.1
      poisons := sp.poisons.filter fun x => !mine x.t } }

/-- R55, R196: SPAN. -/
def execSpan (c : BitVec 2) (o : BitVec 19) (s : State) : Result :=
  issuing s fun h =>
    if h.p.meld.isSome || h.g.span.opened &&& ~~~h.p.mask ≠ 0 then reject s h (.span c o) 7
    else withCommit (.span c o) s h false fun s h =>
      .next (retire (s.modGroup h.g.id fun g => openSpan g h.p.mask c (branchTarget h.p.pc o) (nextPc h.p.pc)) h)

/-- R61, R65, R136, R197: COMMIT. -/
def execCommit (c : BitVec 2) (o : BitVec 19) (s : State) : Result :=
  issuing s fun h =>
    if h.p.meld.isSome then reject s h (.commit c o) 7
    else if pushesWaiting s h.w h.g.id (threadsOf h.p.mask) none then .next (stall s)
    else if !spanOpen h then .next (resetWatchdog (retire s h) h.g.id)
    else
      let target := if c = 0 && o ≠ 0 then branchTarget h.p.pc o else h.g.span.recover
      match commit s h c.toNat target true with
      | none => reject s h (.commit c o) 7
      | some s => .next s

/-! ## Poison inspection -/

/-- R48, R198 to R201: an instruction that reads poison as data: a register source, its value or token, and the word it
writes, judged after the record of an empty source was made. -/
def inspect (i : Instr) (unif : Bool) (d : BitVec 7) (ea : Bool) (a : BitVec 7) (f : State → Here → Option Token → Word → Word)
    (s : State) : Result :=
  issuing s fun h =>
    let src := rSrc unif a ea
    let dst := rDst unif d
    match operandCheck h [src] (some dst) true with
    | some r => reject s h i r
    | none =>
      let ths := execThreads unif h.g h.p
      if !operandsReady h ths [src] (some dst) then .next (stall s)
      else
        let read (t : Nat × Option Token) : Nat × ThreadOut := (t.1, match t.2 with
          | some k => .tok k
          | none => match readSrc h.g h.p src t.1 with
            | .words ws => .words ws
            | .poison k => .tok k
            | .empty => .fresh (emptyRead h.g h.p src t.1))
        let (outs, s) := settle s h (ths.map read)
        let out (o : Nat × ThreadOut) : Nat × ThreadOut :=
          if ths.contains (o.1, none) then
            match o.2 with
            | .words ws => (o.1, .words [f s h none (ws.headD 0)])
            | .tok k => (o.1, .words [f s h (some k) 0])
            | x => (o.1, x)
          else o
        .next (retire (writeAll s h dst (outs.map out)) h)

/-- R199: the PCAUSE word. -/
def pcauseWord (s : State) (h : Here) (tok : Option Token) (_ : Word) : Word :=
  match tok with
  | none => 0
  | some k =>
    let cause : Cause := (recordAt s h.w.coreNo k).elim (0 : Cause) (·.cause)
    1#1 ++ 0#5 ++ k ++ 0#10 ++ cause

/-- R199. -/
def execPcause (d : BitVec 7) (ea : Bool) (a : BitVec 7) (s : State) : Result :=
  inspect (.pcause d ea a) false d ea a pcauseWord s
/-- R199. -/
def execPcauseU (d : BitVec 7) (ea : Bool) (a : BitVec 7) (s : State) : Result :=
  inspect (.pcauseU d ea a) true d ea a pcauseWord s

/-- R200: word i of the record that a token names. The overflow record is read under token 0x3FF (R45). -/
def porigWord (n : Nat) (s : State) (h : Here) (tok : Option Token) (_ : Word) : Word :=
  match tok with
  | none => 0
  | some k =>
    if k = 0x3FF then
      let side : Side := sget {} s.exe.sides h.w.coreNo
      [side.lost.halves.1, side.lost.halves.2, side.lostMask.halves.1, side.lostMask.halves.2].getD n 0
    else ((recordAt s h.w.coreNo k).map recordWords |>.getD []).getD n 0

/-- R200: PORIG.SPAN. -/
def porigSpan (i : Instr) (unif : Bool) (d : BitVec 7) (n : Nat) (s : State) : Result :=
  issuing s fun h => alu i s h
    { unif := unif, srcs := [], dst := rDst unif d, f := fun _ _ => .words [h.g.span.record.getD n 0] }

/-- R200. -/
def execPorig (d : BitVec 7) (ea : Bool) (a : BitVec 7) (b : BitVec 4) (s : State) : Result :=
  if b.getLsbD 3 then porigSpan (.porig d ea a b) false d (b.toNat % 8) s
  else inspect (.porig d ea a b) false d ea a (porigWord b.toNat) s
/-- R200. -/
def execPorigU (d : BitVec 7) (ea : Bool) (a : BitVec 7) (b : BitVec 4) (s : State) : Result :=
  if b.getLsbD 3 then porigSpan (.porigU d ea a b) true d (b.toNat % 8) s
  else inspect (.porigU d ea a b) true d ea a (porigWord b.toNat) s

/-- R201: the PCLR word. -/
def pclrWord (_ : State) (_ : Here) (tok : Option Token) (x : Word) : Word := if tok.isSome then 0 else x

/-- R201. -/
def execPclr (d : BitVec 7) (ea : Bool) (a : BitVec 7) (s : State) : Result := inspect (.pclr d ea a) false d ea a pclrWord s
/-- R201. -/
def execPclrU (d : BitVec 7) (ea : Bool) (a : BitVec 7) (s : State) : Result := inspect (.pclrU d ea a) true d ea a pclrWord s

/-- R201: PMAKE. -/
def pmake (i : Instr) (unif : Bool) (d : BitVec 7) (ea : Bool) (a : BitVec 7) (s : State) : Result :=
  issuing s fun h => alu i s h
    { unif := unif, srcs := [rSrc unif a ea], dst := rDst unif d
      f := fun t vs => .fresh { t := t, cause := causeProgram, addr := some ((arg vs 0).setWidth 64) } }

/-- R201. -/
def execPmake (d : BitVec 7) (ea : Bool) (a : BitVec 7) (s : State) : Result := pmake (.pmake d ea a) false d ea a s
/-- R201. -/
def execPmakeU (d : BitVec 7) (ea : Bool) (a : BitVec 7) (s : State) : Result := pmake (.pmakeU d ea a) true d ea a s

/-- R198: the source of PCHK by its file selector. -/
def pchkSrc (k : BitVec 2) (ea : Bool) (a : BitVec 7) : List Src :=
  match k.toNat with
  | 0 => [vSrc a ea]
  | 1 => [{ file := .p, reg := a.toNat % 8, e := ea }]
  | 2 => [{ file := .x, reg := a.toNat % 4 }]
  | _ => []

/-- R198: PCHK. Observing a tile joins for the whole group (R299). -/
def execPchk (p : BitVec 3) (ea : Bool) (a : BitVec 7) (k : BitVec 2) (s : State) : Result :=
  issuing s fun h =>
    let srcs := pchkSrc k ea a
    let dst : Dst := { file := .p, reg := p.toNat }
    let tile : Tile := sget {} h.w.tiles (a.toNat % 8)
    match operandCheck h srcs (some dst) true with
    | some r => reject s h (.pchk p ea a k) r
    | none =>
      if k = 3 && h.w.ntiles ≤ a.toNat % 8 then reject s h (.pchk p ea a k) 7
      else
      let ths := vecThreads h.g h.p
      if !operandsReady h ths srcs (some dst) || (k = 3 && !tile.full && ths.any (·.2.isNone)) then .next (stall s)
      else
        let clean := (ths.filter (·.2.isNone)).map (·.1)
        let look (t : Nat) : ThreadOut := match srcs with
          | [] => .bool (!tile.poi.isEmpty)
          | x :: _ => match readSrc h.g h.p x t with
            | .words _ => .bool false
            | .poison _ => .bool true
            | .empty => .fresh (emptyRead h.g h.p x t)
        let (made, s) := settle s h (clean.map fun t => (t, look t))
        let outs := ths.map fun t => (t.1, match t.2 with
          | some k => ThreadOut.tok k
          | none => match made.find? (·.1 = t.1) with
            | some (_, .bool b) => .bool b
            | _ => .bool true)
        let s := if k = 3 && !clean.isEmpty then joinTile s (agentsOf h.g.id (threadsOf (~~~h.g.exited))) tile else s
        .next (retire (writeAll s h dst outs) h)

end Sys2Proof.Machine
end

