-- ==== Sys2Proof/Machine/System.lean ====
section
/-!
DEFINITION. Named barriers (R202 to R205), waiting (R206 to R210), identity and system registers (R211 to R214),
breakpoints and markers (R215, R216), REGROUP (R13 to R16) and FETCHWG (R29 to R32).
-/

namespace Sys2Proof.Machine

/-! ## Values that record mode logs -/

/-- R459, R460: the index of register k of a thread. -/
def logIndex (t k : Nat) : Word := BitVec.ofNat 32 (t + 256 * k)

/-- R459: the thread of a word that issues receives a value. -/
def Here.receives (h : Here) (s : State) (kind t : Nat) : Receiver :=
  ⟨h.w.ctx, kind, h.g.recordId, h.g.id, s.exe.nextId, h.g.retired, logIndex t 0⟩

/-- R459: passes a returned value that a thread receives through the log of record mode. -/
def logged (s : State) (h : Here) (t : Nat) (v : Logged) : Option (Logged × State) :=
  receive s h.w.ctx 2 h.g.recordId h.g.id s.exe.nextId h.g.retired (logIndex t 0) true v

/-- R461: a word waits for room in the log. -/
def waitForLog (s : State) (h : Here) : State := logWaits (stallParked s h) h.w.ctx

/-- R459: passes one-word results through the log of record mode. -/
def logOuts (s : State) (h : Here) : List (Nat × ThreadOut) → Option (List (Nat × ThreadOut) × State)
  | [] => some ([], s)
  | (t, .words ws) :: os =>
    match logged s h t ⟨false, (ws.headD 0).setWidth 64⟩ with
    | none => none
    | some (v, s) => (logOuts s h os).map fun r => ((t, .words [v.value.setWidth 32]) :: r.1, r.2)
  | o :: os => (logOuts s h os).map fun r => (o :: r.1, r.2)

/-- R219, R459: as `alu`, for a returned value that record mode logs. `after` is what the read does besides. -/
def aluLogged (i : Instr) (s : State) (h : Here) (op : AluOp) (after : State → State) : Result :=
  match operandCheck h op.srcs (some op.dst) op.typeOk with
  | some r => reject s h i r
  | none =>
    let ths := aluThreads h op
    if !operandsReady h ths op.srcs (some op.dst) then .next (stall s)
    else
      match logOuts s h (ths.map fun t => (t.1, aluOut s h op t.1 t.2)) with
      | none => .next (waitForLog s h)
      | some (outs, s) =>
        let s := if ths.any (·.2.isNone) then after s else s
        .next (retire (writeAll s h op.dst outs) h)

/-! ## Named barriers -/

/-- The floors of several threads together (R101). -/
def joinFloors (m : MemSys) (ags : List Nat) : SMap Nat := ags.foldl (fun f a => sjoin f (floorsOf m a)) []

/-- R102: what the arrivals of a phase of a barrier make visible to the threads that complete a wait for it. -/
def observePhase (s : State) (w : WG) (ags : List Nat) (b : Nat) (gen : Word) : State :=
  (w.barViews.filter fun v => v.1 = b && v.2.1 = gen).foldl (fun s v =>
    s.withMem (ags.foldl (fun m a => raiseFloors m a v.2.2) s.mem)) s

/-- R205: a path that waits at a barrier waits still: the phase of its group's arrival is not complete. -/
def stillWaits (g : Group) (w : WG) (b : Nat) : Bool :=
  let gb : GroupBar := sget {} g.bars b
  gb.pending && (sget ({} : Barrier) w.bars b).gen = gb.wgen

/-- R102: the threads of a group that wait at a barrier: those of the path at hand and of the other one, where it waits there
too. -/
def barWaiters (h : Here) (b : Nat) : List Nat :=
  (h.g.paths.filter fun kp => kp.1 = h.pid || kp.2.park = .barWait b).flatMap fun kp => threadsOf kp.2.mask

/-- R205: the wait of BAR.SYNC and BAR.WAIT. The end of the group's wait is that of both of its paths, where both wait. -/
def barrierWait (s : State) (h : Here) (b : Nat) : Result :=
  let gb : GroupBar := sget {} h.g.bars b
  if stillWaits h.g h.w b then .next (parkAs s h (.barWait b))
  else
    let s := if gb.pending then observePhase s h.w (agentsOf h.g.id (barWaiters h b)) b gb.wgen else s
    let s := s.modGroup h.g.id fun g => { g with bars := sins g.bars b { gb with pending := false } }
    .next (resetWatchdog (retire s h) h.g.id)

/-- R102, R204: a group arrives at a barrier, for the paths given. -/
def arriveAt (s : State) (h : Here) (b count : Nat) (paths : List (Nat × Path)) : State :=
  let ags := agentsOf h.g.id (paths.flatMap fun kp => threadsOf kp.2.mask)
  let floors := joinFloors s.mem ags
  let bar : Barrier := sget {} h.w.bars b
  let s := s.modWg h.w.id fun w =>
    { w with bars := sins w.bars b { bar with need := some count, arrived := bar.arrived ||| (1#16 <<< h.g.pos) }
             barViews := (b, bar.gen, floors) :: w.barViews }
  let s := s.modGroup h.g.id fun g => { g with bars := sins g.bars b { pending := true, wgen := bar.gen } }
  completeIfDue s h.w.id b

/-- R204: the other top path, if it has active threads. -/
def otherPath (h : Here) : Option (Nat × Path) := h.g.paths.find? fun kp => kp.1 ≠ h.pid && kp.2.mask ≠ 0

/-- R204: the three variants of BAR. -/
inductive BarKind where
  | sync | arrive | wait
  deriving DecidableEq, Repr

/-- R204: the two BARs of a diverged group on one barrier differ in variant or count. -/
def barMismatch (h : Here) (b count : Nat) (k : BarKind) : Bool :=
  match otherPath h with
  | some (_, o) => match o.park with
    | .bar b' c' s' => b' = b && (c' ≠ count || k ≠ (if s' then .sync else .arrive))
    | .barWait b' => b' = b && stillWaits h.g h.w b && k ≠ .wait
    | _ => false
  | none => false

/-- R204: the paths that arrive with the one that issues: the other top path is parked at the same BAR, or there is none. -/
def arrivers (h : Here) (b count : Nat) (sync : Bool) : Option (List (Nat × Path)) :=
  match otherPath h with
  | some (q, o) => if o.park = .bar b count sync then some [(h.pid, h.p), (q, o)] else none
  | none => some [(h.pid, h.p)]

/-- R178, R204: an arrival that would take place now fails check 7. Of two paths at one BAR that arrive together the one that
issues fails it alone: the model's choice (log entry 68). -/
def barRejects (h : Here) (b count : Nat) (sync : Bool) : Bool :=
  let bar : Barrier := sget {} h.w.bars b
  barMismatch h b count (if sync then .sync else .arrive) ||
    ((arrivers h b count sync).isSome && !bar.arrived.getLsbD h.g.pos && bar.need.any (· ≠ count))

/-- R204: BAR.SYNC and BAR.ARRIVE once the span is closed. The arrival follows the accesses of the threads (R102). -/
def barrierArrive (i : Instr) (b count : Nat) (sync : Bool) (s : State) (h : Here) : Result :=
  if sync && h.p.park = .barWait b then barrierWait s h b
  else if barRejects h b count sync then reject s h i 7
  else match arrivers h b count sync with
    | none => .next (parkAs s h (.bar b count sync))
    | some paths =>
      let bar : Barrier := sget {} h.w.bars b
      let ts := paths.flatMap fun kp => threadsOf kp.2.mask
      if bar.arrived.getLsbD h.g.pos || accessesWaiting s h.g.id ts false then .next (parkAs s h (.bar b count sync))
      else
        let s := arriveAt s h b count paths
        let leave (s : State) (kp : Nat × Path) : State :=
          if sync then s.modGroup h.g.id fun g => g.modPath kp.1 fun p => { p with park := .barWait b }
          else s.modGroup h.g.id fun g =>
            { g.modPath kp.1 fun p => { p with park := .running, pc := nextPc p.pc } with retired := g.retired + 1, wdog := 0 }
        .next (paths.foldl leave s)

/-- R203 to R205: BAR.SYNC. A word that fails check 7 closes no span (R178). -/
def execBarSync (c : BitVec 5) (b : BitVec 4) (s : State) : Result :=
  issuing s fun h =>
    if h.p.park ≠ .barWait b.toNat && barRejects h b.toNat c.toNat true then reject s h (.barSync c b) 7
    else withCommit (.barSync c b) s h false (barrierArrive (.barSync c b) b.toNat c.toNat true)

/-- R203, R204: BAR.ARRIVE. -/
def execBarArrive (c : BitVec 5) (b : BitVec 4) (s : State) : Result :=
  issuing s fun h =>
    if barRejects h b.toNat c.toNat false then reject s h (.barArrive c b) 7
    else withCommit (.barArrive c b) s h false (barrierArrive (.barArrive c b) b.toNat c.toNat false)

/-- R203 to R205: BAR.WAIT. One that waits already is the earlier of two BARs, and fails no check. -/
def execBarWait (b : BitVec 4) (s : State) : Result :=
  issuing s fun h =>
    if h.p.park ≠ .barWait b.toNat && barMismatch h b.toNat 0 .wait then reject s h (.barWait b) 7
    else withCommit (.barWait b) s h false fun s h => barrierWait s h b.toNat

/-! ## Waiting -/

/-- R206: the monitor that an address arms; none when it is disarmed: by step 6 of R255 also on a page with the FUTURE
attribute. -/
def monitorAt (s : State) (h : Here) (scratch : Bool) (ws : List Word) : Option Monitor × State :=
  if scratch then
    let off := (ws.headD 0).toNat
    if h.w.scratch ≤ off then (none, s) else (some { armed := true, scratch := true, line := lineOf (h.w.scratchBase + off) }, s)
  else
    let priv := (s.launch h.w.launch).any (·.priv)
    match checkFlat s h.w.ctx (some h.w.coreNo) priv {} (pairOf ws) with
    | (.loc pa false, s) => (some { armed := true, line := lineOf pa }, s)
    | (.remote c n pa false, s) => (some { armed := true, line := lineOf (placeKey (some (c, n)) pa) }, s)
    | (_, s) => (none, s)

/-- R206: MONITOR. -/
def execMonitor (ea : Bool) (a : BitVec 7) (m : Bool) (s : State) : Result :=
  issuing s fun h =>
    let src : Src := { file := .v, reg := a.toNat, e := ea, n := if m then 1 else 2 }
    match operandCheck h [src] none true with
    | some r => reject s h (.monitor ea a m) r
    | none =>
      let set (s : State) (x : Monitor) : State := s.modGroup h.g.id fun g => { g with mon := x }
      if !guardFull h.g h.p then .next (stall s)
      else match (vecThreads h.g h.p).head? with
        | none => .next (retire s h)
        | some (_, some k) => .next (retire (dropped (set s {}) h.g.id h.p.pc [k]) h)
        | some (t, none) =>
          if !srcReady h.g h.p src [t] then .next (stall s)
          else match readSrc h.g h.p src t with
            | .words ws =>
              let (x, s) := monitorAt s h m ws
              .next (retire (set s (x.getD {})) h)
            | _ => .next (retire (set s {}) h)

/-- R207: MWAIT. -/
def execMwait (s : State) : Result :=
  issuing s fun h => .next (if h.g.mon.armed && !h.g.mon.flag then stallParked s h else retire s h)

/-- R208: what a thread finds at a sync word: its result with the offset, what it waits for and, where the word could be read, its
gen. -/
inductive Awaited where
  | done (out : ThreadOut) (off : Option (Nat × Word × Sum Fresh Word))
  | waits
  deriving DecidableEq, Repr

/-- R81, R208: whether a generation has reached another. -/
def genReached (gen b : Word) : Bool := !(gen - b).getLsbD 31

/-- R462: what the log of a replay holds for a thread of the word that issues. -/
def replayedValue (s : State) (h : Here) (t : Nat) : Option Logged :=
  (s.ctx h.w.ctx).bind fun c => if c.rep.status ≠ 1 then none else
    (logPlaces s c.tag c h.g.recordId h.g.retired (logIndex t 0)).head?.map fun ka => logValue s.mem ka.2

/-- R208: one thread of an AWAIT with clean operands. In a replay it observes the gen of the log (R462). -/
def awaitThread (s : State) (h : Here) (t : Nat) (a b : Word) : Awaited :=
  let bad (c : Cause) (g : Word) : Fresh := { t := t, cause := c, addr := some (a.setWidth 64), gorigin := g }
  if a.toNat % 16 ≠ 0 then .done (.fresh (bad causeMisaligned 0)) none
  else if h.w.scratch < a.toNat + 16 then .done (.fresh (bad causeBounds 0)) none
  else
    let r := latestWord s.mem (h.w.scratchBase + a.toNat + 8)
    let seen : Sum Fresh Word := match replayedValue s h t with
      | some v => if v.pois then .inl (bad (v.value.extractLsb' 0 6) v.value.halves.2) else .inr v.value.halves.1
      | none => if r.poi then .inl (bad causeRemote r.origin) else .inr r.val
    match seen with
    | .inl f => .done (.fresh f) (some (a.toNat, b, seen))
    | .inr v => if genReached v b then .done (.bool true) (some (a.toNat, b, seen)) else .waits

/-- R87: a thread has read the latest gen of a sync word. -/
def sawGen (s : State) (w : WG) (agent off : Nat) : State :=
  let a := w.scratchBase + off + 8
  match (writesOf s.mem a).head? with
  | some x => if x.seq = 0 then s else s.withMem (raiseFloors s.mem agent [(a, x.seq)])
  | none => s

/-- R208: AWAIT. -/
def execAwait (p : BitVec 3) (ea : Bool) (a : BitVec 7) (eb : Bool) (b : BitVec 7) (s : State) : Result :=
  issuing s fun h =>
    let sa := vSrc a ea
    let sb := vSrc b eb
    let dst : Dst := { file := .p, reg := p.toNat }
    match operandCheck h [sa, sb] (some dst) true with
    | some r => reject s h (.await p ea a eb b) r
    | none =>
      let ths := vecThreads h.g h.p
      if !operandsReady h ths [sa, sb] (some dst) then .next (stall s)
      else
        let s := ths.foldl (fun s t => match t.2, gather h.g h.p t.1 [sa, sb] with
          | none, .inr vs => if syncAt h.w (arg vs 0).toNat then nameSync s h.w.id (arg vs 0).toNat else s
          | _, _ => s) s
        let look (t : Nat × Option Token) : Nat × Awaited := (t.1, match t.2 with
          | some k => .done (.tok k) none
          | none => match gather h.g h.p t.1 [sa, sb] with
            | .inl o => .done o none
            | .inr vs => awaitThread s h t.1 (arg vs 0) (arg vs 1))
        let all := ths.map look
        if all.any (·.2 = .waits) then .next (stallParked s h)
        else
          let outs := all.map fun x => (x.1, match x.2 with | .done o _ => o | .waits => .keep)
          let seen := all.filterMap fun x => match x.2 with | .done _ (some o) => some (x.1, o) | _ => none
          let s1 := seen.foldl (fun (acc : Option State) x => acc.bind fun s =>
            (throughLog s (h.receives s 2 x.1) true 1 { t := x.1, cause := 0 } (x.2.2.2.map id fun v => [v])).map (·.2)) (some s)
          match s1 with
          | none => .next (waitForLog s h)
          | some s =>
            let join (s : State) (x : Nat × Nat × Word × Sum Fresh Word) : State := match x.2.2.2 with
              | .inr v => joinSync s h.w [agentOf h.g.id x.1] x.2.1 x.2.2.1 v
              | .inl _ => s
            let s := seen.foldl (fun s x => sawGen (join s x) h.w (agentOf h.g.id x.1) x.2.1) s
            let (outs, s) := settle s h outs ((ths.filter (·.2.isNone)).flatMap fun t => lateReads h.g h.p t.1 [sa, sb])
            .next (retire (writeAll s h dst outs) h)

/-- R209: YIELD. -/
def execYield (s : State) : Result :=
  issuing s fun h =>
    let (n, s) := s.fresh
    .next (retire (s.modGroup h.g.id fun g => { g with age := n, loss := 0 }) h)

/-- R210: PAUSE. -/
def execPause (i : BitVec 16) (s : State) : Result :=
  issuing s fun h =>
    let s := retire s h
    .next (if i = 0 then s else s.modPath h fun p => { p with park := .pause (s.ctl.turn + i.toNat) })

/-! ## Identity and system registers -/

/-- The lowest-numbered active thread of the path that issues. -/
def firstActive (h : Here) : Nat := (threadsOf h.p.mask).headD 0

/-- R20, R211: the coordinate of a thread at a level. -/
def coordinate (g : Group) (level t : Nat) : Word := BitVec.ofNat 32 (sget 0 g.coord (128 * level + t))

/-- R211: GETID. -/
def getid (i : Instr) (unif : Bool) (d : BitVec 7) (k : BitVec 3) (s : State) : Result :=
  issuing s fun h => alu i s h
    { unif := unif, srcs := [], dst := rDst unif d
      f := fun t _ => .words [coordinate h.g k.toNat (if unif then firstActive h else t)] }

/-- R211. -/
def execGetid (d : BitVec 7) (k : BitVec 3) (s : State) : Result := getid (.getid d k) false d k s
/-- R211. -/
def execGetidU (d : BitVec 7) (k : BitVec 3) (s : State) : Result := getid (.getidU d k) true d k s

/-- R18: the lowest level with a domain. -/
def levelWith (l : Launch) (domain : Nat) : Nat := (l.levels.findIdx? (·.domain = domain)).getD 0

/-- The product of the extents of levels lo to hi. -/
def extentProduct (l : Launch) (lo hi : Nat) : Nat :=
  (((l.levels.zip (List.range l.levels.length)).filter fun x => lo ≤ x.2 && x.2 ≤ hi).map (·.1.extent)).foldl (· * ·) 1

/-- R18: threads per group. -/
def threadsPerGroup (l : Launch) : Nat := extentProduct l 1 (levelWith l 1)

/-- R212: the group-uniform system values. -/
def sysItem (s : State) (h : Here) (n : Nat) : Word :=
  match s.launch h.w.launch with
  | none => 0
  | some l =>
    let part := (s.ctx h.w.ctx).elim 0 (·.part)
    let w (k : Nat) : Word := BitVec.ofNat 32 k
    match n with
    | 8 => w l.levels.length
    | 9 => w h.g.role
    | 10 => w h.g.pos
    | 11 => w h.w.ngroups
    | 12 => w (threadsPerGroup l)
    | 13 => (location h.w h.g.part).setWidth 32
    | 14 => w (h.w.ctx % 256) ||| (w part <<< 8) ||| (bitW l.priv <<< 10) ||| (bitW l.regroup <<< 11) |||
        (bitW l.arch <<< 12)
    | 15 => w h.w.scratch
    | k => w ((l.levels[k]?).elim 0 (·.extent))

/-- R212, R459: GETSYS. -/
def getsys (i : Instr) (unif : Bool) (d : BitVec 7) (n : BitVec 4) (s : State) : Result :=
  issuing s fun h =>
    let op : AluOp := { unif := unif, srcs := [], dst := rDst unif d, f := fun _ _ => .words [sysItem s h n.toNat] }
    if n = 13 then aluLogged i s h op id else alu i s h op

/-- R212. -/
def execGetsys (d : BitVec 7) (i : BitVec 4) (s : State) : Result := getsys (.getsys d i) false d i s
/-- R212. -/
def execGetsysU (d : BitVec 7) (i : BitVec 4) (s : State) : Result := getsys (.getsysU d i) true d i s

/-- R214: span_grp. -/
def spanGrp (g : Group) : Word := (bitW (g.span.opened ≠ 0) <<< 2) ||| g.span.action.setWidth 32

/-- R214: mon_stat. -/
def monStat (g : Group) : Word := (bitW g.mon.scratch <<< 2) ||| (bitW g.mon.flag <<< 1) ||| bitW g.mon.armed

/-- R213: a system register as a thread reads it. -/
def sysReg (s : State) (h : Here) (t n : Nat) : Word :=
  let c := s.ctx h.w.ctx
  match n with
  | 0x00 => c.elim (0 : Word) (·.wdogCtl)
  | 0x01 => h.g.wdog.extractLsb' 0 32
  | 0x02 => (h.g.wdog.extractLsb' 32 9).setWidth 32
  | 0x03 => (Config.cycles s.ctl.tick).extractLsb' 0 32
  | 0x04 => h.g.cycHi
  | 0x05 => c.elim (0 : Word) (·.rgDeny)
  | 0x06 => spanThr h.g t
  | 0x07 => spanGrp h.g
  | 0x08 => monStat h.g
  | 0x09 => (c.elim (0 : BitVec 24) (·.trapPc)).setWidth 32
  | 0x0A => h.p.trapInfo
  | k => if 0x10 ≤ k ∧ k < 0x14 then sget 0 h.g.scr (k - 0x10) else 0

/-- R213, R459: SYSR. Reading cyc_lo latches the upper half for the group. -/
def sysr (i : Instr) (unif : Bool) (d : BitVec 7) (n : BitVec 8) (s : State) : Result :=
  issuing s fun h => aluLogged i s h
    { unif := unif, srcs := [], dst := rDst unif d
      f := fun t _ => .words [sysReg s h (if unif then firstActive h else t) n.toNat] }
    fun s' => if n = 0x03 then
        (s'.modGroup h.g.id fun g => { g with cycHi := (Config.cycles s.ctl.tick).extractLsb' 32 32 }).bump
      else s'

/-- R213. -/
def execSysr (d : BitVec 7) (i : BitVec 8) (s : State) : Result := sysr (.sysr d i) false d i s
/-- R213. -/
def execSysrU (d : BitVec 7) (i : BitVec 8) (s : State) : Result := sysr (.sysrU d i) true d i s

/-- R37, R213: writes a system register. -/
def sysWrite (s : State) (h : Here) (n : Nat) (x : Word) : State :=
  if n = 0 then s.modCtx h.w.ctx fun c => { c with wdogCtl := x &&& 0xBF#32 }
  else if n = 9 then s.modCtx h.w.ctx fun c => { c with trapPc := x.setWidth 24 }
  else s.modGroup h.g.id fun g => { g with scr := sput 0 g.scr (n - 0x10) x }

/-- R213: SYSW. -/
def execSysw (ea : Bool) (a : BitVec 7) (i : BitVec 8) (s : State) : Result :=
  issuing s fun h =>
    let src : Src := { file := .s, reg := a.toNat, e := ea }
    if (i = 0 || i = 9) && !(s.launch h.w.launch).any (·.priv) then reject s h (.sysw ea a i) 6
    else if !operandsReady h (uniThreads h.g h.p) [src] none then .next (stall s)
    else withCommit (.sysw ea a i) s h false fun s h =>
      match uniThreads h.g h.p with
      | [] => .next (retire s h)
      | (_, some k) :: _ => .next (retire (dropped s h.g.id h.p.pc [k]) h)
      | (t, none) :: _ =>
        match readSrc h.g h.p src t with
        | .words ws => .next (retire (sysWrite s h i.toNat (ws.headD 0)) h)
        | .poison k => .next (retire (dropped s h.g.id h.p.pc [k]) h)
        | .empty =>
          let (k, s) := newRecord s h.g.id h.p.pc false (emptyRead h.g h.p src t) 1
          .next (retire (dropped s h.g.id h.p.pc [k]) h)

/-! ## Breakpoints and markers -/

/-- R215: BRK. -/
def execBrk (i : BitVec 16) (s : State) : Result :=
  issuing s fun h =>
    match trapTarget s h.w with
    | some handler =>
      if 32 ≤ h.g.stack.length then reject s h (.brk i) 7
      else .next (takeTrap (countRetire s h.g.id) h.g.id h.pid (nextPc h.p.pc) 0 i handler)
    | none =>
      let s' := retire s h
      .next (if debugBit s h.w.ctx 2 then stopGroup s' h.g.id 0 i h.p.pc h.p.mask else s')

/-- R216: MARK. -/
def execMark (i : BitVec 16) (s : State) : Result :=
  issuing s fun h => .next (trace (retire s h) h.g.id 2 (i.setWidth 32) h.p.pc h.p.mask)

/-! ## Regrouping and persistent work -/

/-- R16: the group is diverged. -/
def diverged (g : Group) : Bool := g.paths.length ≠ 1 || !g.stack.isEmpty

/-- R13 to R16: REGROUP. The redistribution is REGROUP_REDISTRIBUTE. -/
def execRegroup (ea : Bool) (p : BitVec 3) (s : State) : Result :=
  issuing s fun h =>
    let i : Instr := .regroup ea p
    let src := pSrc p ea
    let allowed := (s.launch h.w.launch).any (·.regroup)
    let parked := match h.p.park with | .regroup _ => true | _ => false
    if diverged h.g || h.p.meld.isSome then reject s h i 7
    else if parked || !srcReady h.g h.p src (threadsOf h.p.mask) then .next (stall s)
    else withCommit i s h false fun s h =>
      if diverged h.g then reject s h i 7
      else if !allowed then
        .next (retire (s.modCtx h.w.ctx fun c => { c with rgDeny := satAdd c.rgDeny 1 }) h)
      else
        let ts := threadsOf h.p.mask
        let yes := maskOf fun t => ts.contains t && readSrc h.g h.p src t = .words [1]
        let (_, s) := newRecords s h.g.id h.p.pc (fun _ => false)
          ((ts.filter fun t => readSrc h.g h.p src t = .empty).map (emptyRead h.g h.p src ·))
        .next (parkAs s h (.regroup yes))

/-- R29, R32, R218: FETCHWG. With a poisoned guard the withdrawal is an effect that is dropped (R12, R66). -/
def execFetchwg (d : BitVec 7) (ea : Bool) (a : BitVec 7) (s : State) : Result :=
  issuing s fun h =>
    let src : Src := { file := .s, reg := a.toNat, e := ea }
    let dst : Dst := { file := .s, reg := d.toNat }
    if !operandsReady h (uniThreads h.g h.p) [src] (some dst) || h.g.fetch.isSome then .next (stall s)
    else withCommit (.fetchwg d ea a) s h false fun s h =>
      let give (s : State) (t : Nat) (o : ThreadOut) : Result :=
        let (outs, s) := settle s h [(t, o)]
        .next (retire (writeAll s h dst outs) h)
      match uniThreads h.g h.p with
      | [] => .next (retire s h)
      | (t, some k) :: _ =>
        .next (retire (dropped (writeAll s h dst [(t, .tok k)]) h.g.id h.p.pc [k]) h)
      | (t, none) :: _ =>
        match readSrc h.g h.p src t with
        | .poison k => give s t (.tok k)
        | .empty => give s t (.fresh (emptyRead h.g h.p src t))
        | .words ws =>
          let off := (ws.headD 0).toNat
          let bad (c : Cause) : ThreadOut := .fresh { t := t, cause := c, addr := some (BitVec.ofNat 64 off) }
          if off % 32 ≠ 0 then give s t (bad causeMisaligned)
          else if h.w.scratch < off + 32 then give s t (bad causeBounds)
          else
            let ags := agentsOf h.g.id (((vecThreads h.g h.p).filter (·.2.isNone)).map (·.1))
            let s := writeOne s ags (h.w.scratchBase + off) 0 0xF false 0 (BitVec.ofNat 64 off)
            let s := markEmpty s h.g.id [{ file := 1, reg := d.toNat, t := 0 }]
            let (n, s) := s.fresh
            .next (retire (s.modGroup h.g.id fun g =>
              { g with fetch := some { mailbox := off, order := n, dst := d.toNat, t := t, count := h.g.retired } }) h)

end Sys2Proof.Machine
end

