-- ==== Sys2Proof/Machine/Loads.lean ====
section
/-!
DEFINITION. Addresses and their checks (R254, R255), loads and prefetch (R260, R261, R264), and watchpoints (R456).
-/

namespace Sys2Proof.Machine

/-! ## Addresses -/

/-- R254: the unit of an offset, which is the size of the access. -/
def unitSize (sz : BitVec 2) : Nat := match sz.toNat with | 0 => 4 | 1 => 8 | _ => 1

/-- R254: the offset of a load or a store. -/
def memOffset (unit : Nat) (k : BitVec 6) : DWord := k.signExtend 64 * BitVec.ofNat 64 unit

/-- R254: the effective address from the address registers. -/
def effAddr (scratch : Bool) (ws : List Word) (off : DWord) : DWord :=
  if scratch then (ws.headD 0 + off.setWidth 32).setWidth 64 else pairOf ws + off

/-- R255: what the checks of an access find. `loc` is a local physical address or a place in the scratchpad. -/
inductive AddrOut where
  | tok (k : Token)
  | fresh (f : Fresh)
  | loc (pa : Nat)
  | remote (chord node pa : Nat)
  deriving DecidableEq, Repr

/-- The launch that a workgroup belongs to is privileged (R374). -/
def privileged (s : State) (w : WG) : Bool := (s.launch w.launch).any (·.priv)

/-- R255 steps 2 to 8 as far as they need no data, for an access of a thread. `align` is the alignment, `size` the bytes
that must lie inside a scratchpad allocation. -/
def checkAccess (s : State) (h : Here) (t : Nat) (scratch : Bool) (ac : Access) (align size : Nat) (va : DWord) :
    AddrOut × State :=
  let bad (c : Cause) (o : Word) : AddrOut := .fresh { t := t, cause := c, write := ac.write, addr := some va, gorigin := o }
  if scratch then
    if va.toNat % align ≠ 0 then (bad causeMisaligned 0, s)
    else if h.w.scratch < va.toNat + size then (bad causeBounds 0, s)
    else (.loc (h.w.scratchBase + va.toNat), s)
  else if va.extractLsb' 55 9 ≠ 0 then (bad causeInvalid 0, s)
  else if va.toNat % align ≠ 0 then (bad causeMisaligned 0, s)
  else
    match checkFlat s h.w.ctx (some h.w.coreNo) (privileged s h.w) ac va with
    | (.fail c o, s) => (bad c o, s)
    | (.loc pa poa, s) => (if poa then bad causeEcc 0 else .loc pa, s)
    | (.remote c n pa poa, s) => (if poa then bad causeEcc 0 else .remote c n pa, s)

/-- R255 step 1: an address source of a thread. -/
def addrOf (h : Here) (src : Src) (scratch : Bool) (off : DWord) (t : Nat) : Sum AddrOut DWord :=
  match readSrc h.g h.p src t with
  | .poison k => .inl (.tok k)
  | .empty => .inl (.fresh (emptyRead h.g h.p src t))
  | .words ws => .inr (effAddr scratch ws off)

/-! ## Watchpoints -/

/-- R456: the watchpoint that the accesses of an instruction hit, with the lanes that hit it. -/
def watchHit (s : State) (tag : Nat) (write : Bool) (size : Nat) (l : List (Nat × DWord)) : Option (Nat × Mask) :=
  if !(debugBit s tag 4 && debugBit s tag 2) then none
  else (List.range 4).findSome? fun k =>
    let b := debugBlock tag + 0x60 + 16 * k
    let base := (s.mgmt64 b).toNat
    let len := (s.mgmt (b + 8)).toNat
    let kind := (s.mgmt (b + 12)).extractLsb' 0 2
    let m := maskOf fun t => l.any fun x => x.1 = t && x.2.toNat < base + len && base < x.2.toNat + size
    if len ≠ 0 && kind.getLsbD (if write then 1 else 0) && m ≠ 0 then some (k, m) else none

/-- R456: after an instruction whose lanes hit a watchpoint, the group stops before its next word, or traps. -/
def watchStop (s : State) (h : Here) (hit : Option (Nat × Mask)) : State :=
  match hit with
  | none => s
  | some (k, m) =>
    match s.here with
    | none => s
    | some h' =>
      match trapTarget s h.w with
      | some handler =>
        if h'.g.stack.length < 32 then takeTrap s h.g.id h.pid h'.p.pc 2 0 handler
        else trace (stopGroup s h.g.id 2 0 h'.p.pc h'.p.mask) h.g.id 5 (BitVec.ofNat 32 k) h'.p.pc m
      | none => trace (stopGroup s h.g.id 2 0 h'.p.pc h'.p.mask) h.g.id 5 (BitVec.ofNat 32 k) h'.p.pc m

/-- R456: watchpoints of an instruction that retires now; one that still waits is watched when it issues. -/
def watchRetired (h : Here) (hit : Option (Nat × Mask)) : Result → Result
  | .next s => .next (if s.here.any (·.p.pc = nextPc h.p.pc) then watchStop s h hit else s)
  | r => r

/-- R456: of two hits of one instruction, the one of the lower watchpoint. -/
def lowerHit : Option (Nat × Mask) → Option (Nat × Mask) → Option (Nat × Mask)
  | some a, some b => some (if b.1 < a.1 then b else a)
  | a, b => a.or b

/-! ## Reading for a load -/

/-- R261: the conversion of a load; none when the type is not listed, which fails check 7. -/
def loadConvOf (sz : BitVec 2) (ty : Nat) : Option LoadConv :=
  match sz.toNat, ty with
  | 2, 2 => some (.dm8 false)
  | 2, 3 => some (.dm8 true)
  | 3, 0 => some .i8int
  | 3, 1 => some .i8int
  | 3, 2 => some .i8f32
  | 3, 3 => some .i8bf16
  | 2, _ => none
  | 3, _ => none
  | _, _ => some .raw

/-- R260, R261: the registers of a load from its bytes. -/
def loadValue (conv : LoadConv) (bytes : List Byte) : List Word :=
  let b : Word := (bytes.headD 0).setWidth 32
  match conv with
  | .raw => wordsOfBytes bytes
  | .dm8 bf => [(convert 0 false false 6 (if bf then 3 else 2) b).getD 0]
  | .i8int => [b.setWidth 8 |>.signExtend 32]
  | .i8f32 => [(convert 0 false false 7 2 b).getD 0]
  | .i8bf16 => [(convert 0 false false 7 3 b).getD 0]

/-- R71: a read through the constant path: from what was visible to a thread at its first instruction on. -/
def readConst (s : State) (ctx : Option Nat) (part : Nat) (floor : SMap Nat) (a : Nat) : Got × State :=
  let s := fetchHalf s ctx part a
  if eccBad s a then ((0, some (causeEcc, 0)), detectEcc s ctx part a)
  else
    let n := sget 0 floor a
    let (r, _) := readFrom s.mem s.ctl.tick n a
    ((r.val, if r.poi then some (causeRemote, r.origin) else none), if (readable s.mem n a).length > 1 then s.bump else s)

/-- R53, R59, R260: the bytes of a load, held bytes first: a word is read only for a byte that is not held. The first
poisoned word or held byte decides. `rd` reads one word. -/
def loadBytes {σ : Type} (rd : σ → Nat → Got × σ) (s : σ) (a size : Nat) (held : SMap (Byte × Option Word)) :
    List Byte × Option (Cause × Word) × σ :=
  let words := ((List.range size).map fun k => (a + k) / 4 * 4).eraseDups
  words.foldl (fun acc wa =>
    let (bs, poi, s) := acc
    let ks := (List.range size).filter fun k => (a + k) / 4 * 4 = wa
    let own : Option (Cause × Word) := ks.findSome? fun k => (sfind held k).bind fun b => b.2.map (causeRemote, ·)
    if ks.all fun k => (sfind held k).isSome then
      (bs ++ ks.map fun k => ((sfind held k).map (·.1)).getD 0, if poi.isSome then poi else own, s)
    else
      let ((w, p), s) := rd s wa
      (bs ++ ks.map fun k => ((sfind held k).map (·.1)).getD (w.extractLsb' (8 * ((a + k) % 4)) 8),
       if poi.isSome then poi else if own.isSome then own else p, s)) ([], none, s)

/-- The words that one instruction has read, with the state that the reads leave. -/
abbrev Reads := List (Nat × Got) × State

/-- R257: one instruction reads a word once, for all its readers; `floor` is that of the constant path (R71), which also sees what a
copy brought to a line that its reader waited for or that its reader's thread copied (R78). -/
def readShared (ctx part : Nat) (floor : Option (SMap Nat)) (readers : Nat → List Nat) (c : Reads) (wa : Nat) : Got × Reads :=
  match c.1.find? (·.1 = wa) with
  | some x => (x.2, c)
  | none =>
    let (x, s) := match floor with
      | some f => readConst c.2 (some ctx) part ((readers wa).foldl (fun f a => sjoin f (floorsOf c.2.mem (constAgent a))) f) wa
      | none => readOne c.2 (some ctx) part (readers wa) wa
    (x, (wa, x) :: c.1, s)

/-- R260: performs a load at its place: registers' words, or the poison of step 8. -/
def loadNow (c : Reads) (ctx part : Nat) (floor : Option (SMap Nat)) (readers : Nat → List Nat) (a size : Nat)
    (conv : LoadConv) (held : SMap (Byte × Option Word)) : Sum (Cause × Word) (List Word) × Reads :=
  let (bs, poi, c) := loadBytes (readShared ctx part floor readers) c a size held
  (match poi with | some p => .inl p | none => .inr (loadValue conv bs), c)

/-- R459: the word was last written by an agent that is no thread of the group. -/
def foreignWord (m : MemSys) (gid a : Nat) : Bool :=
  match (writesOf m a).head? with
  | some w => w.seq ≠ 0 && agentName w.agent ≠ some gid
  | none => false

/-! ## Loads -/

/-- R260: what a load finds for a thread at issue. -/
inductive LoadOut where
  | tok (k : Token)
  | fresh (f : Fresh)
  | value (ws : List Word)
  | wait (va : DWord) (pa : Nat)
  | remote (va : DWord) (chord node pa : Nat)
  deriving DecidableEq, Repr

/-- The form of a load: uniform, scratchpad or constant, size, conversion. -/
structure LoadForm where
  unif : Bool
  scratch : Bool
  const : Bool
  size : Nat
  conv : LoadConv
  src : Src
  off : DWord
  dst : Dst

/-- The registers that a result of a thread goes to. -/
def destsOf (g : Group) (p : Path) (d : Dst) (t : Nat) : List Dest :=
  match d.file with
  | .v => (List.range d.n).map fun j => { file := 0, reg := resolve g p d.reg t + j, t := t }
  | .p => [{ file := 2, reg := d.reg, t := t }]
  | _ => (List.range d.n).map fun j => { file := 1, reg := d.reg + j, t := 0 }

/-- R86: the agents of an execution: one thread, or for a uniform instruction every active thread whose guard is true. -/
def execAgents (h : Here) (unif : Bool) (t : Nat) : List Nat :=
  if unif then agentsOf h.g.id (((vecThreads h.g h.p).filter (·.2.isNone)).map (·.1)) else [agentOf h.g.id t]

/-- R71: the floor of the constant path for a launch. -/
def constFloor (s : State) (w : WG) (const : Bool) : Option (SMap Nat) :=
  if const then some ((s.launch w.launch).elim [] (·.floor)) else none

/-- R459: what a read finds at issue passes through the log of record mode: kind 1 a load, kind 2 a returned value. None: no
room. -/
def logRead (s : State) (h : Here) (kind t : Nat) (foreign : Bool) (n : Nat) (va : Option DWord) (o : LoadOut) : Option (LoadOut × State) :=
  let f : Fresh := { t := t, cause := 0, addr := va }
  let give (x : Sum Fresh (List Word)) : Option (LoadOut × State) :=
    (throughLog s (h.receives s kind t) foreign n f x).map fun y => (y.1.elim .fresh .value, y.2)
  match o with
  | .value ws => give (.inr ws)
  | .fresh f => give (.inl f)
  | _ => some (o, s)

/-- R255: the address of one thread of a load: its virtual address and where it leads. -/
def loadAddr (s : State) (h : Here) (f : LoadForm) (t : Nat) : (DWord × AddrOut) × State :=
  match addrOf h f.src f.scratch f.off t with
  | .inl o => ((0, o), s)
  | .inr va => let (o, s) := checkAccess s h t f.scratch {} f.size f.size va; ((va, o), s)

/-- R78: the accesses of a flat address wait at their home. -/
def loadWaits (s : State) (h : Here) (f : LoadForm) (va : DWord) (pa : Nat) : Bool :=
  !f.scratch && lineBlocked s h.g.id va pa s.exe.nextId

/-- R81, R103: a load from a workgroup's scratchpad that returns the gen field of a sync word is a join of its readers. -/
def joinLoad (s : State) (w : WG) (ags : List Nat) (a size : Nat) (words : List Word) : State :=
  let off := a - w.scratchBase
  let base := off / 16 * 16
  if w.scratchBase ≤ a && w.syncs.contains base && size % 4 = 0 && off ≤ base + 8 && base + 8 < off + size then
    let gen := words.getD ((base + 8 - off) / 4) 0
    joinSync s w ags base gen gen
  else s

/-- R86, R257: the agents that read a word by one load: those of the executions that touch it. -/
def loadReaders (h : Here) (f : LoadForm) (l : List (Nat × DWord × AddrOut)) (wa : Nat) : List Nat :=
  if f.unif then execAgents h true 0
  else l.filterMap fun x => match x.2.2 with
    | .loc pa => if pa < wa + 4 && wa < pa + f.size then some (agentOf h.g.id x.1) else none
    | _ => none

/-- R260: one thread of a load, once its address is known. -/
def loadThread (h : Here) (f : LoadForm) (readers : Nat → List Nat) (c : Reads) (x : Nat × DWord × AddrOut) : LoadOut × Reads :=
  let (t, va, o) := x
  match o with
  | .tok k => (.tok k, c)
  | .fresh x => (.fresh x, c)
  | .remote ch n pa => (.remote va ch n pa, c)
  | .loc pa =>
    if loadWaits c.2 h f va pa then (.wait va pa, c)
    else
      let part := (c.2.ctx h.w.ctx).elim 0 (·.part)
      let held := heldBytes c.2.mem h.w h.g t pa f.size
      match loadNow c h.w.ctx part (constFloor c.2 h.w f.const) readers pa f.size f.conv held with
      | (.inr ws, c) => (.value ws, if f.scratch then (c.1, joinLoad c.2 h.w (execAgents h f.unif t) pa f.size ws) else c)
      | (.inl (k, o), c) => (.fresh { t := t, cause := k, addr := some va, gorigin := o }, c)

/-- R257, R258: asks another package once for the threads of an instruction that read one place; each has its result in
flight. -/
def askRemote (s : State) (h : Here) (c node : Nat) (op : BitVec 4) (aop : BitVec 8) (aflags : BitVec 2) (pa : Nat) (len : Nat)
    (xs : List (Nat × AccKind × DWord × List Dest)) : State :=
  let tag := (getChord s c).nextTag.toNat
  let (ids, s) := xs.foldl (fun (acc : List Nat × State) x =>
    (acc.1 ++ [acc.2.exe.nextId], addPending acc.2 h.g.id x.1 h.p.pc (.remote x.2.1 x.2.2.1 c tag x.2.2.2))) (([] : List Nat), s)
  sendRequest s c node h.w.ctx op aop aflags 0 pa ((xs.head?).elim 0 (·.2.2.1)) len [] [] 0 ids

/-- R257: a thread's place on another package, by whole words: a narrow load asks for its word. -/
def LoadOut.far (size : Nat) : LoadOut → Option (Nat × Nat × Nat)
  | .remote _ c node pa => some (c, node, if size < 4 then pa / 4 * 4 else pa)
  | _ => none

/-- R160: enters a load's outcome as a result in flight. Threads that read one place of another package share a request: the
lowest of them sends it (R257). -/
def loadPending (s : State) (h : Here) (f : LoadForm) (all : List (Nat × LoadOut)) (toks : List (Fresh × Token)) (t : Nat)
    (o : LoadOut) : State :=
  let ds := destsOf h.g h.p f.dst t
  let kind (t place : Nat) : AccKind := .load f.conv f.const (execAgents h f.unif t) (heldBytes s.mem h.w h.g t place f.size)
  let add (s : State) (d : Delivery) : State := addPending s h.g.id t h.p.pc d
  match o with
  | .tok k => add s (.ready (poisonRegs ds k))
  | .fresh x => add s (.ready (poisonRegs ds (((toks.find? (·.1 = x)).map (·.2)).getD 0)))
  | .value ws => add s (.ready (valueRegs ds ws))
  | .wait va pa => add s (.access (kind t pa) va pa f.size ds)
  | .remote _ c node pa =>
    let mates := all.filter fun x => (x.2.far f.size).isSome && x.2.far f.size = o.far f.size
    if (mates.head?).any (·.1 ≠ t) then s
    else
      let xs := mates.filterMap fun x => match x.2 with
        | .remote va _ _ pa =>
          some (x.1, kind x.1 (placeKey (some (c, node)) pa), va, destsOf h.g h.p f.dst x.1)
        | _ => none
      askRemote s h c node 1 0 0 (if f.size < 4 then pa / 4 * 4 else pa) (max 4 f.size) xs

/-- Applies a step to a list of threads, in ascending t, with the state going through. -/
def eachThread {α σ : Type} (f : σ → Nat → α × σ) (s : σ) (ts : List Nat) : List (Nat × α) × σ :=
  ts.foldl (fun acc t => let (x, s) := f acc.2 t; (acc.1 ++ [(t, x)], s)) ([], s)

/-- R459: the word at a load's place is foreign while values are logged. -/
def loadForeign (s : State) (h : Here) (f : LoadForm) (o : AddrOut) : Bool :=
  logging s h.w.ctx && match o with
    | .loc pa => (List.range ((f.size + 3) / 4)).any fun k => foreignWord s.mem h.g.id (pa / 4 * 4 + 4 * k)
    | _ => false

/-- R459: passes the outcomes of all threads through the log of record mode. -/
def logLoads (s : State) (h : Here) (f : LoadForm) : List ((Nat × DWord × AddrOut) × LoadOut) →
    Option (List (Nat × LoadOut) × State)
  | [] => some ([], s)
  | (x, o) :: os =>
    match logRead s h 1 x.1 (loadForeign s h f x.2.2) f.dst.n (some x.2.1) o with
    | none => none
    | some (o, s) => (logLoads s h f os).map fun r => ((x.1, o) :: r.1, r.2)

/-- R260: a load once its operands are ready. -/
def loadIssue (s : State) (h : Here) (f : LoadForm) : State :=
  let ths := execThreads f.unif h.g h.p
  let ts := (ths.filter (·.2.isNone)).map (·.1)
  let (addrs, s1) := eachThread (fun s t => loadAddr s h f t) s ts
  let (outs, c) := addrs.foldl (fun acc x =>
    let (o, c) := loadThread h f (loadReaders h f addrs) acc.2 x
    (acc.1 ++ [(x, o)], c)) (([] : List ((Nat × DWord × AddrOut) × LoadOut)), (([], s1) : Reads))
  match logLoads c.2 h f outs with
  | none => waitForLog s h
  | some (outs, s) =>
    let fs := outs.filterMap fun o => match o.2 with | .fresh x => some x | _ => none
    let (toks, s) := newRecords s h.g.id h.p.pc (h.g.span.opened.getLsbD ·) fs
    let s := markEmpty s h.g.id (ts.flatMap (destsOf h.g h.p f.dst))
    let s := outs.foldl (fun s o => loadPending s h f outs toks o.1 o.2) s
    let s := writeAll s h f.dst (ths.filterMap fun t => t.2.map fun k => (t.1, .tok k))
    let seen := ts.filterMap fun t => match addrOf h f.src f.scratch f.off t with | .inr va => some (t, va) | .inl _ => none
    let hit := if f.scratch then none else watchHit s h.w.ctx false f.size seen
    watchStop (retire s h) h hit

/-- R260, R261: LD, LDS and LDC. -/
def load (i : Instr) (unif scratch const : Bool) (d : BitVec 7) (ea : Bool) (a : BitVec 7) (sz : BitVec 2) (k : BitVec 6)
    (s : State) : Result :=
  issuing s fun h =>
    let src := rSrc unif a ea (if scratch then 1 else 2)
    let dst := rDst unif d (if sz = 1 then 2 else 1)
    let conv := loadConvOf sz (mType h.p.mode)
    match operandCheck h [src] (some dst) conv.isSome with
    | some r => reject s h i r
    | none =>
      if !operandsReady h (execThreads unif h.g h.p) [src] (some dst) then .next (stall s)
      else .next (loadIssue s h
        { unif := unif, scratch := scratch, const := const, size := unitSize sz, conv := conv.getD .raw, src := src
          off := memOffset (unitSize sz) k, dst := dst })

/-- R260: LD. -/
def execLd (d : BitVec 7) (ea : Bool) (a : BitVec 7) (s : BitVec 2) (k : BitVec 6) (st : State) : Result :=
  load (.ld d ea a s k) false false false d ea a s k st
/-- R260: uniform LD. -/
def execLdU (d : BitVec 7) (ea : Bool) (a : BitVec 7) (s : BitVec 2) (k : BitVec 6) (st : State) : Result :=
  load (.ldU d ea a s k) true false false d ea a s k st
/-- R260: LDS. -/
def execLds (d : BitVec 7) (ea : Bool) (a : BitVec 7) (s : BitVec 2) (k : BitVec 6) (st : State) : Result :=
  load (.lds d ea a s k) false true false d ea a s k st
/-- R260: uniform LDS. -/
def execLdsU (d : BitVec 7) (ea : Bool) (a : BitVec 7) (s : BitVec 2) (k : BitVec 6) (st : State) : Result :=
  load (.ldsU d ea a s k) true true false d ea a s k st
/-- R71, R260: LDC. -/
def execLdc (d : BitVec 7) (ea : Bool) (a : BitVec 7) (s : BitVec 2) (k : BitVec 6) (st : State) : Result :=
  load (.ldc d ea a s k) false false true d ea a s k st
/-- R71, R260: uniform LDC. -/
def execLdcU (d : BitVec 7) (ea : Bool) (a : BitVec 7) (s : BitVec 2) (k : BitVec 6) (st : State) : Result :=
  load (.ldcU d ea a s k) true false true d ea a s k st

/-- R264: PREF. The translation fills the core's TLB as any other. -/
def pref (i : Instr) (unif : Bool) (ea : Bool) (a : BitVec 7) (k : BitVec 6) (s : State) : Result :=
  issuing s fun h =>
    let src := rSrc unif a ea 2
    match operandCheck h [src] none true with
    | some r => reject s h i r
    | none =>
      let ths := execThreads unif h.g h.p
      if !operandsReady h ths [src] none then .next (stall s)
      else
        let touch (s : State) (t : Nat) : State := match addrOf h src false (memOffset 4 k) t with
          | .inr va => (checkAccess s h t false { anyPage := true } 4 4 va).2
          | .inl _ => s
        .next (retire (((ths.filter (·.2.isNone)).map (·.1)).foldl touch s) h)

/-- R264: PREF. -/
def execPref (ea : Bool) (a : BitVec 7) (k : BitVec 6) (s : State) : Result := pref (.pref ea a k) false ea a k s
/-- R264: uniform PREF. -/
def execPrefU (ea : Bool) (a : BitVec 7) (k : BitVec 6) (s : State) : Result := pref (.prefU ea a k) true ea a k s

end Sys2Proof.Machine
end

