-- ==== Sys2Proof/Machine/Stores.lean ====
section
/-!
DEFINITION. Write-type instructions: stores (R262, R263), atomics (R265, R266), updates of sync words (R280), future
fills and clears (R282, R284), worklist pushes (R285) and queue writes (R273); reads of sync words and futures (R280,
R281, R283).
-/

namespace Sys2Proof.Machine

/-! ## Building effects -/

/-- R57, R256: the form of a write-type instruction: address source, data source, the access that is checked, its kind of
effect and, for a narrow store, the conversion of its data; `pre` is what the instruction does besides when it issues. -/
structure WriteForm where
  unif : Bool
  scratch : Bool := false
  addr : Option Src := none
  off : DWord := 0
  data : Option Src := none
  ac : Access := { write := true }
  align : Nat := 4
  extent : Nat := 4
  size : Nat := 4
  kind : EffKind
  conv : Option (Word → Option Byte) := none
  shape : List Word → List Word := id
  pre : State → State := id

/-- R12, R57, R86, R273: the threads whose effect an execution for thread t makes: t itself; for a uniform instruction every
thread that executes it, and for a QW every thread of the path. -/
def WriteForm.threads (f : WriteForm) (h : Here) (t : Nat) : Mask :=
  if !f.unif then 1#128 <<< t
  else if f.kind = .qw then h.p.mask
  else maskOf fun t => (vecThreads h.g h.p).any (·.1 = t)

/-- What an instruction holds of a thread's effect before its records are made. -/
structure Draft where
  t : Nat
  guard : Option Token
  va : DWord
  addr : AddrOut
  data : List Word
  dpoi : Option Token
  conv : Option Fresh
  deriving DecidableEq, Repr

/-- The raw registers of a source with the token of its first poisoned register (R41, R262), and the record of an empty
source read with E = 1. -/
def rawData (g : Group) (p : Path) (x : Src) (t : Nat) : List Word × Option Token × Option Fresh :=
  let rs := regsOf g p x.file x.reg x.n t
  if x.e && !srcFull g p x t then (rs.map (·.val), none, some (emptyRead g p x t))
  else (rs.map (·.val), (rs.find? (·.poi)).map (fun r => r.val.setWidth 10), none)

/-- R255, R256, R261: one thread's effect: its address, its data, and the conversion of a narrow store. -/
def draft (h : Here) (f : WriteForm) (s : State) (x : Nat × Option Token) : Draft × State :=
  let (va, addr, s) : DWord × AddrOut × State := match f.addr with
    | none => (0, .loc 0, s)
    | some src => match addrOf h src f.scratch f.off x.1 with
      | .inl o => (0, o, s)
      | .inr va => let (o, s) := checkAccess s h x.1 f.scratch f.ac f.align f.extent va; (va, o, s)
  let (ws, dpoi, empty) : List Word × Option Token × Option Fresh := match f.data with
    | none => ([], none, none)
    | some src => rawData h.g h.p src x.1
  let (data, conv) : List Word × Option Fresh := match f.conv with
    | none => (f.shape ws, empty)
    | some c => match c (ws.headD 0) with
      | some b => ([b.setWidth 32], none)
      | none => ([ws.headD 0], if dpoi.isSome then none else some { t := x.1, cause := causeRange })
  ({ t := x.1, guard := x.2, va := va, addr := addr, data := data, dpoi := dpoi, conv := conv }, s)

/-- The token of the record of a new poison. -/
def tokenOf (toks : List (Fresh × Token)) (f : Fresh) : Token := ((toks.find? (·.1 = f)).map (·.2)).getD 0

/-- R57: the effect of a draft. -/
def effectOf (s : State) (h : Here) (f : WriteForm) (toks : List (Fresh × Token)) (d : Draft) : Eff :=
  let apoi : Option Token := match d.addr with
    | .tok k => some k
    | .fresh x => some (tokenOf toks x)
    | _ => none
  let dpoi : Option Token := if d.dpoi.isSome then d.dpoi else d.conv.map (tokenOf toks)
  let (pa, chord) : Nat × Option (Nat × Nat) := match d.addr with
    | .loc pa => (pa, none)
    | .remote c n pa => (pa, some (c, n))
    | _ => (0, none)
  let origin : Word := match dpoi, d.guard with
    | some k, _ => originOf s h.w k
    | none, some k => originOf s h.w k
    | none, none => 0
  { kind := f.kind, t := d.t, gid := h.g.id, ctx := h.w.ctx, part := (s.ctx h.w.ctx).elim 0 (·.part), core := h.w.coreNo
    ags := if d.guard.isSome then [agentOf h.g.id d.t] else execAgents h f.unif d.t
    pc := h.p.pc, scratch := f.scratch, va := d.va, pa := pa, chord := chord, size := f.size, data := d.data
    apoi := apoi, dpoi := dpoi, gpoi := d.guard, origin := origin, inst := h.g.retired
    owners := f.threads h d.t &&& h.g.span.opened
    level := if f.scratch || f.addr.isNone then 0 else tlbLevel s.mem h.w.coreNo h.w.ctx d.va.toNat }

/-- The effects of a write-type instruction, in ascending t, with their records (R44). -/
def effectsOf (f : WriteForm) (s : State) (h : Here) : List Eff × State :=
  let ths := execThreads f.unif h.g h.p
  let s := f.pre s
  let (ds, s) := ths.foldl (fun acc x => let (d, s) := draft h f acc.2 x; (acc.1 ++ [d], s)) (([] : List Draft), s)
  let fresh (d : Draft) : List Fresh :=
    (match d.addr with | .fresh x => [x] | _ => []) ++ (match d.conv with | some x => [x] | none => [])
  let (toks, s) := newRecords s h.g.id h.p.pc (h.g.span.opened.getLsbD ·) (ds.flatMap fresh)
  (ds.map (effectOf s h f toks), s)

/-- R161: the sources of a write-type instruction, those of threads with a poisoned guard too. -/
def writeReady (h : Here) (f : WriteForm) : Bool :=
  let ts := (execThreads f.unif h.g h.p).map (·.1)
  guardFull h.g h.p && (f.addr.toList ++ f.data.toList).all fun x => srcReady h.g h.p x ts

/-- R456: the watchpoint that the writes of an instruction hit. -/
def writeHit (s : State) (h : Here) (f : WriteForm) : Option (Nat × Mask) :=
  let ts := (execThreads f.unif h.g h.p).map (·.1)
  let seen : List (Nat × DWord) := match f.addr with
    | none => []
    | some src => ts.filterMap fun t => match addrOf h src f.scratch f.off t with | .inr va => some (t, va) | .inl _ => none
  if f.scratch then none else watchHit s h.w.ctx true f.size seen

/-- A write-type instruction of the common form: checks, waits, then its effects (R57, R66); a flat access may hit a
watchpoint (R456). -/
def writeOp (i : Instr) (s : State) (h : Here) (f : WriteForm) (typeOk : Bool) : Result :=
  match operandCheck h (f.addr.toList ++ f.data.toList) none typeOk with
  | some r => reject s h i r
  | none =>
    if !writeReady h f then .next (stall s)
    else
      watchRetired h (writeHit s h f) (issueEffects i s h (effectsOf f))

/-! ## Stores -/

/-- R261: the conversion of a narrow store; none in the outer option when the type is not listed. -/
def storeConvOf (sz : BitVec 2) (m : BitVec 16) : Option (Option (Word → Option Byte)) :=
  let cv (src dst : Nat) : Option (Option (Word → Option Byte)) :=
    some (some fun w => (convert (mRound m) (mSat m) (mFtz m) src dst w).map (·.setWidth 8))
  match sz.toNat, mType m with
  | 2, 2 => cv 2 6
  | 2, 3 => cv 3 6
  | 3, 0 => cv 0 7
  | 3, 1 => cv 1 7
  | 3, 2 => cv 2 7
  | 3, 3 => cv 3 7
  | 2, _ => none
  | 3, _ => none
  | _, _ => some none

/-- R262: ST and STS. -/
def store (i : Instr) (unif scratch : Bool) (d : BitVec 7) (ea : Bool) (a : BitVec 7) (sz : BitVec 2) (k : BitVec 6)
    (s : State) : Result :=
  issuing s fun h =>
    let n := unitSize sz
    let conv := storeConvOf sz h.p.mode
    writeOp i s h
      { unif := unif, scratch := scratch, addr := some (rSrc unif a ea (if scratch then 1 else 2)), off := memOffset n k
        data := some (rSrc unif d false (if sz = 1 then 2 else 1)), align := n, extent := n, size := n, kind := .store
        conv := conv.getD none } conv.isSome

/-- R262: ST. -/
def execSt (d : BitVec 7) (ea : Bool) (a : BitVec 7) (s : BitVec 2) (k : BitVec 6) (st : State) : Result :=
  store (.st d ea a s k) false false d ea a s k st
/-- R262: uniform ST. -/
def execStU (d : BitVec 7) (ea : Bool) (a : BitVec 7) (s : BitVec 2) (k : BitVec 6) (st : State) : Result :=
  store (.stU d ea a s k) true false d ea a s k st
/-- R262: STS. -/
def execSts (d : BitVec 7) (ea : Bool) (a : BitVec 7) (s : BitVec 2) (k : BitVec 6) (st : State) : Result :=
  store (.sts d ea a s k) false true d ea a s k st
/-- R262: uniform STS. -/
def execStsU (d : BitVec 7) (ea : Bool) (a : BitVec 7) (s : BitVec 2) (k : BitVec 6) (st : State) : Result :=
  store (.stsU d ea a s k) true true d ea a s k st

/-! ## Atomics -/

/-- R253, R265: the registers that an atomic reads and those that it returns. -/
def atomicRegs (op : Nat) (wide : Bool) : Nat × Nat :=
  let n := if wide then 2 else 1
  (if op = 8 then 2 * n else n, n)

/-- R83, R265: one lane of a returning atomic: the reply. -/
def atomicReply (s : State) (e : Eff) (op : Nat) (wide signed : Bool) : Sum Fresh (List Word) × State :=
  match atomicAt s op wide signed (homeMismatch s (some e.gid) e.ctx e.part e.pa e.pc) e.t e.ctx e.part e.ags e.va e.pa e.data e.dpoi.isSome e.origin with
  | (.old ws, s) => (.inr ws, s)
  | (.poison c o, s) => (.inl { t := e.t, cause := c, write := true, addr := some e.va, gorigin := o }, s)

/-- What a lane of a returning atomic is at issue. -/
inductive AtomicIssue where
  | tok (k : Token)
  | fresh (f : Fresh)
  | value (ws : List Word)
  | wait
  | remote (chord node : Nat)
  deriving DecidableEq, Repr

/-- R78, R256, R265: a lane of a returning atomic at issue. -/
def atomicLane (s : State) (e : Eff) (op : Nat) (wide signed : Bool) : AtomicIssue × State :=
  match e.apoi, e.chord with
  | some k, _ => (.tok k, s)
  | none, some (c, n) => (.remote c n, s)
  | none, none =>
    if lineBlocked s e.gid e.va e.pa s.exe.nextId then (.wait, s)
    else match noteWrite s e.ctx (some e.core) e.va e.pa with
      | none => (.wait, s)
      | some s => match atomicReply s e op wide signed with
        | (.inr ws, s) => (.value ws, s)
        | (.inl f, s) => (.fresh f, s)

/-- R459: passes the replies of a returning atomic through the log of record mode. -/
def logAtomics (s : State) (h : Here) : List (Eff × AtomicIssue) → Option (List (Eff × AtomicIssue) × State)
  | [] => some ([], s)
  | (e, o) :: os =>
    let give (x : Sum Fresh (List Word)) : Option (AtomicIssue × State) :=
      (throughLog s (h.receives s 2 e.t) true (e.size / 4) { t := e.t, cause := 0, write := true, addr := some e.va } x).map fun y =>
        (y.1.elim .fresh .value, y.2)
    let r : Option (AtomicIssue × State) := match o with
      | .value ws => give (.inr ws)
      | .fresh f => give (.inl f)
      | _ => some (o, s)
    match r with
    | none => none
    | some (o, s) => (logAtomics s h os).map fun r => ((e, o) :: r.1, r.2)

/-- R265: a returning atomic outside any span. A lane with poisoned data, which performs its step (R84), counts as poison kept
as one without a return does (log entry 65). -/
def atomicIssue (s : State) (h : Here) (f : WriteForm) (dst : Dst) (op : Nat) (wide signed : Bool) : State :=
  let ths := execThreads false h.g h.p
  let (effs, s1) := effectsOf f s h
  let (outs, s1) := (effs.filter (·.gpoi.isNone)).foldl (fun acc e =>
    let (o, s) := atomicLane acc.2 e op wide signed
    (acc.1 ++ [(e, o)], s)) (([] : List (Eff × AtomicIssue)), s1)
  match logAtomics s1 h outs with
  | none => waitForLog s h
  | some (outs, s) =>
    let fs := outs.filterMap fun o => match o.2 with | .fresh x => some x | _ => none
    let (toks, s) := newRecords s h.g.id h.p.pc (fun _ => false) fs
    let s := markEmpty s h.g.id (outs.flatMap fun o => destsOf h.g h.p dst o.1.t)
    let give (s : State) (o : Eff × AtomicIssue) : State :=
      let ds := destsOf h.g h.p dst o.1.t
      let add (d : Delivery) : State := addPending s h.g.id o.1.t h.p.pc d
      match o.2 with
      | .tok k => add (.ready (poisonRegs ds k))
      | .fresh x => add (.ready (poisonRegs ds (tokenOf toks x)))
      | .value ws => add (.ready (valueRegs ds ws))
      | .wait => add (.access (.atomicRet o.1) o.1.va o.1.pa o.1.size ds)
      | .remote c n =>
        -- R83: the lanes on one word leave together, with the first of them
        let mates := (o.1.mates (outs.map (·.1)))
        if mates.head? = some o.1 then performRemote s c n true (mates.map fun e => (e, destsOf h.g h.p dst e.t)) else s
    let s := outs.foldl give s
    let s := kept s h.g.id h.p.pc (outs.filterMap fun o => match o.2 with | .tok _ => none | _ => o.1.dpoi)
    let s := dropped s h.g.id h.p.pc (effs.filterMap (·.gpoi))
    let s := writeAll s h dst (ths.filterMap fun t => t.2.map fun k => (t.1, .tok k))
    let seen := outs.filterMap fun o => if o.1.va = 0 && o.1.apoi.isSome then none else some (o.1.t, o.1.va)
    watchStop (retire s h) h (watchHit s h.w.ctx true f.size seen)

/-- R265: an atomic. `op` is the op value less 0x70. -/
def atomic (i : Instr) (op : Nat) (d : BitVec 7) (ea : Bool) (a : BitVec 7) (ret wide : Bool) (k : BitVec 6) (s : State) : Result :=
  issuing s fun h =>
    let ty := mType h.p.mode
    let minMax := op = 2 || op = 3
    let typeOk := !minMax || ty = 0 || ty = 1
    let signed := minMax && ty = 0
    let n := if wide then 8 else 4
    let (nin, nout) := atomicRegs op wide
    let f : WriteForm :=
      { unif := false, addr := some (vSrc a ea |> fun x => { x with n := 2 }), off := memOffset n k
        data := some { file := .v, reg := d.toNat, n := nin }, align := n, extent := n, size := n
        kind := .atomic op wide signed }
    if !ret then writeOp i s h f typeOk
    else
      let dst : Dst := { file := .v, reg := d.toNat, n := nout }
      match operandCheck h (f.addr.toList ++ f.data.toList) (some dst) typeOk with
      | some r => reject s h i r
      | none =>
        if !writeReady h f || !operandsReady h (vecThreads h.g h.p) [] (some dst) then .next (stall s)
        else withCommit i s h false fun s h => .next (atomicIssue s h f dst op wide signed)

/-- R265. -/
def execAadd (d : BitVec 7) (ea : Bool) (a : BitVec 7) (r w : Bool) (k : BitVec 6) (s : State) : Result :=
  atomic (.aadd d ea a r w k) 0 d ea a r w k s
/-- R265. -/
def execAfadd (d : BitVec 7) (ea : Bool) (a : BitVec 7) (r : Bool) (k : BitVec 6) (s : State) : Result :=
  atomic (.afadd d ea a r k) 1 d ea a r false k s
/-- R265. -/
def execAmin (d : BitVec 7) (ea : Bool) (a : BitVec 7) (r w : Bool) (k : BitVec 6) (s : State) : Result :=
  atomic (.amin d ea a r w k) 2 d ea a r w k s
/-- R265. -/
def execAmax (d : BitVec 7) (ea : Bool) (a : BitVec 7) (r w : Bool) (k : BitVec 6) (s : State) : Result :=
  atomic (.amax d ea a r w k) 3 d ea a r w k s
/-- R265. -/
def execAand (d : BitVec 7) (ea : Bool) (a : BitVec 7) (r w : Bool) (k : BitVec 6) (s : State) : Result :=
  atomic (.aand d ea a r w k) 4 d ea a r w k s
/-- R265. -/
def execAor (d : BitVec 7) (ea : Bool) (a : BitVec 7) (r w : Bool) (k : BitVec 6) (s : State) : Result :=
  atomic (.aor d ea a r w k) 5 d ea a r w k s
/-- R265. -/
def execAxor (d : BitVec 7) (ea : Bool) (a : BitVec 7) (r w : Bool) (k : BitVec 6) (s : State) : Result :=
  atomic (.axor d ea a r w k) 6 d ea a r w k s
/-- R265. -/
def execAxch (d : BitVec 7) (ea : Bool) (a : BitVec 7) (r w : Bool) (k : BitVec 6) (s : State) : Result :=
  atomic (.axch d ea a r w k) 7 d ea a r w k s
/-- R265. -/
def execAcas (d : BitVec 7) (ea : Bool) (a : BitVec 7) (r w : Bool) (k : BitVec 6) (s : State) : Result :=
  atomic (.acas d ea a r w k) 8 d ea a r w k s
/-- R265. -/
def execAinc (d : BitVec 7) (ea : Bool) (a : BitVec 7) (r w : Bool) (k : BitVec 6) (s : State) : Result :=
  atomic (.ainc d ea a r w k) 9 d ea a r w k s

/-! ## Sync words -/

/-- R280: SWSET and SWADD. SWSET writes target and count. -/
def syncUpdate (i : Instr) (kind : EffKind) (d : BitVec 7) (ea : Bool) (a : BitVec 7) (s : State) : Result :=
  issuing s fun h =>
    let off : Option Nat := match uniThreads h.g h.p with
      | (t, none) :: _ => match addrOf h (rSrc true a ea) true 0 t with
        | .inr va => if syncAt h.w va.toNat then some va.toNat else none
        | .inl _ => none
      | _ => none
    writeOp i s h
      { unif := true, scratch := true, addr := some (rSrc true a ea), data := some (rSrc true d false), align := 16, extent := 16
        size := if kind = .swset then 8 else 4, kind := kind
        shape := fun ws => if kind = .swset then ws ++ [0] else ws
        pre := fun s => match off with | some o => nameSync s h.w.id o | none => s } true

/-- R280: SWSET. -/
def execSwset (d : BitVec 7) (ea : Bool) (a : BitVec 7) (s : State) : Result := syncUpdate (.swset d ea a) .swset d ea a s
/-- R280: SWADD. -/
def execSwadd (d : BitVec 7) (ea : Bool) (a : BitVec 7) (s : State) : Result := syncUpdate (.swadd d ea a) .swadd d ea a s

/-- R280: SWGEN reads gen as a scratchpad load; a generation read is a join (R103). -/
def execSwgen (d : BitVec 7) (ea : Bool) (a : BitVec 7) (s : State) : Result :=
  issuing s fun h =>
    let src := rSrc true a ea
    let dst := rDst true d
    if !operandsReady h (uniThreads h.g h.p) [src] (some dst) then .next (stall s)
    else match uniThreads h.g h.p with
      | [] => .next (retire s h)
      | (t, some k) :: _ => .next (retire (writeAll s h dst [(t, .tok k)]) h)
      | (t, none) :: _ =>
        let ags := execAgents h true t
        let (o, s1) : LoadOut × State := match addrOf h src true 0 t with
          | .inl (.tok k) => (.tok k, s)
          | .inl (.fresh x) => (.fresh x, s)
          | .inl _ => (.tok 0, s)
          | .inr va => match checkAccess s h t true {} 16 16 va with
            | (.loc pa, s) =>
              let held := heldBytes s.mem h.w h.g t (pa + 8) 4
              let s := nameSync s h.w.id va.toNat
              match loadNow ([], s) h.w.ctx ((s.ctx h.w.ctx).elim 0 (·.part)) none (fun _ => ags) (pa + 8) 4 .raw held with
              | (.inr ws, c) => (.value ws, joinSync c.2 h.w ags va.toNat (ws.headD 0) (ws.headD 0))
              | (.inl (c, o), c') => (.fresh { t := t, cause := c, addr := some va, gorigin := o }, c'.2)
            | (.fresh x, s) => (.fresh x, s)
            | (_, s) => (.tok 0, s)
        match logRead s1 h 2 t true 1 none o with
        | none => .next (waitForLog s h)
        | some (o, s) =>
          let (toks, s) := newRecords s h.g.id h.p.pc (h.g.span.opened.getLsbD ·)
            (match o with | .fresh x => [x] | _ => [])
          let form : LoadForm :=
            { unif := true, scratch := true, const := false, size := 4, conv := .raw, src := src, off := 8, dst := dst }
          let s := markEmpty s h.g.id (destsOf h.g h.p dst t)
          .next (retire (loadPending s h form [(t, o)] toks t o) h)

/-! ## Futures -/

/-- R254: the address source of a future instruction. -/
def futureSrc (unif : Bool) (a : BitVec 7) (ea : Bool) : Src := rSrc unif a ea 2

/-- R282, R284: FFILL and FCLR. -/
def futureWrite (i : Instr) (unif : Bool) (kind : EffKind) (d : Option (BitVec 7)) (ea : Bool) (a : BitVec 7) (k : BitVec 6)
    (s : State) : Result :=
  issuing s fun h => writeOp i s h
    { unif := unif, addr := some (futureSrc unif a ea), off := memOffset 8 k, data := d.map fun x => rSrc unif x false 2
      ac := { write := true, future := true }, align := 8, extent := 8, size := 8, kind := kind } true

/-- R282: FFILL. -/
def execFfill (d : BitVec 7) (ea : Bool) (a : BitVec 7) (k : BitVec 6) (s : State) : Result :=
  futureWrite (.ffill d ea a k) false .fill (some d) ea a k s
/-- R282: uniform FFILL. -/
def execFfillU (d : BitVec 7) (ea : Bool) (a : BitVec 7) (k : BitVec 6) (s : State) : Result :=
  futureWrite (.ffillU d ea a k) true .fill (some d) ea a k s
/-- R284: FCLR. -/
def execFclr (ea : Bool) (a : BitVec 7) (k : BitVec 6) (s : State) : Result :=
  futureWrite (.fclr ea a k) false .clear none ea a k s
/-- R284: uniform FCLR. -/
def execFclrU (ea : Bool) (a : BitVec 7) (k : BitVec 6) (s : State) : Result :=
  futureWrite (.fclrU ea a k) true .clear none ea a k s

/-- R59, R281: a fill of the cell at a place by the same thread that its span holds, with no later clear. A cell whose last held
effect is an FCLR is read from memory: the model's choice (log entry 68). -/
def heldFill (g : Group) (t place : Nat) : Option Eff :=
  match (g.quar.flatMap (·.effs)).reverse.find? fun e =>
    e.owners.getLsbD t && (e.kind = .fill || e.kind = .clear) && e.apoi.isNone && e.place = place with
  | some e => if e.kind = .fill then some e else none
  | none => none

/-- R281: what a thread reads of its own held fill. -/
def fillValue (t : Nat) (va : DWord) (e : Eff) : LoadOut :=
  if e.poi then .fresh { t := t, cause := causeRemote, addr := some va, gorigin := e.origin } else .value e.data

/-- R100: the publishing points before a fill are seen by a later observing point of its reader; the fill itself is read
as any write. -/
def freadNow (s : State) (ctx part : Nat) (ags : List Nat) (t pa : Nat) (va : DWord) : Sum Fresh (List Word) × State :=
  let bad (c : Cause) (o : Word) : Fresh := { t := t, cause := c, addr := some va, gorigin := o }
  let s := fetchHalf s (some ctx) part pa
  if !fullBit s.mem pa then (.inl (bad causeFutureEmpty 0), s)
  else if eccBad s pa then (.inl (bad causeEcc 0), detectEcc s (some ctx) part pa)
  else if eccBad s (pa + 4) then (.inl (bad causeEcc 0), detectEcc s (some ctx) part (pa + 4))
  else
    let ws := [memWord s.mem pa, memWord s.mem (pa + 4)]
    let seqOf (a : Nat) : Nat := ((writesOf s.mem a).head?).elim 0 (·.seq)
    let seen := ([pa, pa + 4].map fun a => (a, seqOf a)).filter (·.2 ≠ 0)
    let s := s.withMem (ags.foldl (fun m g => raiseFloors m g seen) s.mem)
    if wordPoi s.mem pa || wordPoi s.mem (pa + 4) then (.inl (bad causeRemote (lineOrigin s.mem pa)), s)
    else (.inr ws, s)

/-- R281: one thread of a FREAD. -/
def freadThread (s : State) (h : Here) (unif : Bool) (src : Src) (off : DWord) (t : Nat) : LoadOut × State :=
  match addrOf h src false off t with
  | .inl (.tok k) => (.tok k, s)
  | .inl (.fresh x) => (.fresh x, s)
  | .inl _ => (.tok 0, s)
  | .inr va =>
    match checkAccess s h t false { future := true } 8 8 va with
    | (.tok k, s) => (.tok k, s)
    | (.fresh x, s) => (.fresh x, s)
    | (.remote c n pa, s) =>
      match heldFill h.g t (placeKey (some (c, n)) pa) with
      | some e => (fillValue t va e, s)
      | none => (.remote va c n pa, s)
    | (.loc pa, s) =>
      match heldFill h.g t pa with
      | some e => (fillValue t va e, s)
      | none =>
        if lineBlocked s h.g.id va pa s.exe.nextId then (.wait va pa, s)
        else match freadNow s h.w.ctx ((s.ctx h.w.ctx).elim 0 (·.part)) (execAgents h unif t) t pa va with
          | (.inr ws, s) => (.value ws, s)
          | (.inl f, s) => (.fresh f, s)

/-- R459: passes the results of FREAD or ACQ through the log of record mode; `va` gives the address of a thread. -/
def logReturned (s : State) (h : Here) (va : Nat → Option DWord) : List (Nat × LoadOut) → Option (List (Nat × LoadOut) × State)
  | [] => some ([], s)
  | (t, o) :: os =>
    (logRead s h 2 t true 2 (va t) o).bind fun x => (logReturned x.2 h va os).map fun r => ((t, x.1) :: r.1, r.2)

/-- R281: FREAD. -/
def fread (i : Instr) (unif : Bool) (d : BitVec 7) (ea : Bool) (a : BitVec 7) (k : BitVec 6) (s : State) : Result :=
  issuing s fun h =>
    let src := futureSrc unif a ea
    let dst := rDst unif d 2
    let off := memOffset 8 k
    match operandCheck h [src] (some dst) true with
    | some r => reject s h i r
    | none =>
      let ths := execThreads unif h.g h.p
      if !operandsReady h ths [src] (some dst) then .next (stall s)
      else
        let ts := (ths.filter (·.2.isNone)).map (·.1)
        let (outs, s1) := eachThread (fun s t => freadThread s h unif src off t) s ts
        match logReturned s1 h (fun t => (addrOf h src false off t).elim (fun _ => none) some) outs with
        | none => .next (waitForLog s h)
        | some (outs, s) =>
          let fs := outs.filterMap fun o => match o.2 with | .fresh x => some x | _ => none
          let (toks, s) := newRecords s h.g.id h.p.pc (h.g.span.opened.getLsbD ·) fs
          let s := markEmpty s h.g.id (ts.flatMap (destsOf h.g h.p dst))
          let give (s : State) (o : Nat × LoadOut) : State :=
            let ds := destsOf h.g h.p dst o.1
            let add (d : Delivery) : State := addPending s h.g.id o.1 h.p.pc d
            match o.2 with
            | .tok k => add (.ready (poisonRegs ds k))
            | .fresh x => add (.ready (poisonRegs ds (tokenOf toks x)))
            | .value ws => add (.ready (valueRegs ds ws))
            | .wait va pa => add (.access (.fread (execAgents h unif o.1)) va pa 8 ds)
            | .remote _ c node pa =>
              let mates := outs.filter fun x => (x.2.far 8).isSome && x.2.far 8 = o.2.far 8
              if (mates.head?).any (·.1 ≠ o.1) then s
              else askRemote s h c node 3 0x8C 3 pa 8 (mates.filterMap fun x => match x.2 with
                | .remote va _ _ _ => some (x.1, .fread (execAgents h unif x.1), va, destsOf h.g h.p dst x.1)
                | _ => none)
          let s := outs.foldl give s
          let s := writeAll s h dst (ths.filterMap fun t => t.2.map fun k => (t.1, .tok k))
          let seen := ts.filterMap fun t => match addrOf h src false off t with | .inr va => some (t, va) | .inl _ => none
          .next (watchStop (retire s h) h (watchHit s h.w.ctx false 8 seen))

/-- R281: FREAD. -/
def execFread (d : BitVec 7) (ea : Bool) (a : BitVec 7) (k : BitVec 6) (s : State) : Result := fread (.fread d ea a k) false d ea a k s
/-- R281: uniform FREAD. -/
def execFreadU (d : BitVec 7) (ea : Bool) (a : BitVec 7) (k : BitVec 6) (s : State) : Result :=
  fread (.freadU d ea a k) true d ea a k s

/-- R283: looks at a cell on another package for a group, unless such a look is under way. -/
def pollCell (s : State) (gid ctx t : Nat) (pc va : DWord) (c node pa : Nat) : State :=
  let under := s.exe.pendings.any fun kp => kp.2.gid = gid && match kp.2.what with
    | .remote .poll a _ _ _ => a = va
    | _ => false
  if under then s
  else
    let n := s.exe.nextId
    let s := addPending s gid t pc (.remote .poll va c (getChord s c).nextTag.toNat [])
    sendRequest s c node ctx 3 0x8C 3 0 pa va 8 [] [] 0 [n]

/-- What an FWAIT finds of a thread's cell: full, at a local place or not; empty, here or on another package. -/
inductive CellLook where
  | full (pa : Option Nat)
  | empty
  | far (va : DWord) (chord node pa : Nat)
  deriving DecidableEq, Repr

/-- R67, R283: what an FWAIT finds of a thread's cell. An address that fails does not wait; a fill that is held has not made its cell
full (R57). -/
def lookCell (h : Here) (src : Src) (off : DWord) (s : State) (t : Nat) : CellLook × State :=
  match addrOf h src false off t with
  | .inl _ => (.full none, s)
  | .inr va =>
    match checkAccess s h t false { future := true } 8 8 va with
    | (.loc pa, s) => (if fullBit s.mem pa then .full (some pa) else .empty, s)
    | (.remote c n pa, s) =>
      (if h.g.cells.any (·.1 = va) then .full none else .far va c n pa, s)
    | (_, s) => (.full none, s)

/-- R100, R283: a thread has observed the fill of a cell. -/
def observeFill (s : State) (h : Here) (o : Nat × CellLook) : State :=
  match o.2 with
  | .full (some pa) =>
    let l := ([pa, pa + 4].map fun a => (a, ((writesOf s.mem a).head?).elim 0 (·.seq))).filter (·.2 ≠ 0)
    s.withMem (raiseFloors s.mem (agentOf h.g.id o.1) l)
  | _ => s

/-- R283: FWAIT. A cell on another package is looked at there until it is full. -/
def execFwait (ea : Bool) (a : BitVec 7) (k : BitVec 6) (s : State) : Result :=
  issuing s fun h =>
    let src := futureSrc false a ea
    let off := memOffset 8 k
    match operandCheck h [src] none true with
    | some r => reject s h (.fwait ea a k) r
    | none =>
      let ths := vecThreads h.g h.p
      if !operandsReady h ths [src] none then .next (stall s)
      else
        let ts := (ths.filter (·.2.isNone)).map (·.1)
        let (outs, s1) := eachThread (lookCell h src off) s ts
        let polled := outs.foldl (fun s o => match o.2 with
          | .far va c n pa => pollCell s h.g.id h.w.ctx o.1 h.p.pc va c n pa
          | _ => s) s
        if outs.all fun o => match o.2 with | .full _ => true | _ => false then
          let s := outs.foldl (fun s o => observeFill s h o) s1
          let seen := ts.filterMap fun t => match addrOf h src false off t with | .inr va => some va | .inl _ => none
          .next (retire (s.modGroup h.g.id fun g => { g with cells := g.cells.filter fun x => !seen.contains x.1 }) h)
        else if polled.exe.nextId = s.exe.nextId then .next (stallParked s h)
        else .next (polled.modPath h fun p => { p with park := .waiting })

/-! ## Pushes and queue words -/

/-- R285: WLPUSH and WLPUSHR. WLPUSHR makes the entry's kind range. -/
def push (i : Instr) (unif range : Bool) (d : BitVec 7) (w : BitVec 4) (s : State) : Result :=
  issuing s fun h =>
    let shape (ws : List Word) : List Word :=
      if range then [ws.getD 0 0, (ws.getD 1 0 &&& 0x0FFFFFFF#32) ||| 0x10000000#32, ws.getD 2 0, ws.getD 3 0] else ws
    -- R136: a later push of a thread waits until its earlier pushes are performed
    if pushesWaiting s h.w h.g.id ((execThreads unif h.g h.p).map (·.1)) none then .next (stall s)
    else writeOp i s h
      { unif := unif, data := some (rSrc unif d false 4), size := 16, kind := .push w.toNat, shape := shape
        pre := fun s => resetWatchdog s h.g.id } true

/-- R285: WLPUSH. -/
def execWlpush (d : BitVec 7) (w : BitVec 4) (s : State) : Result := push (.wlpush d w) false false d w s
/-- R285: uniform WLPUSH. -/
def execWlpushU (d : BitVec 7) (w : BitVec 4) (s : State) : Result := push (.wlpushU d w) true false d w s
/-- R285: WLPUSHR. -/
def execWlpushr (d : BitVec 7) (w : BitVec 4) (s : State) : Result := push (.wlpushr d w) false true d w s
/-- R285: uniform WLPUSHR. -/
def execWlpushrU (d : BitVec 7) (w : BitVec 4) (s : State) : Result := push (.wlpushrU d w) true true d w s

/-- R273: a QW to a command queue performed outside any span. -/
def qwNow (s : State) (h : Here) (f : WriteForm) : State :=
  let (effs, s) := effectsOf f s h
  retire (performAll s h.g.id h.p.pc effs) h

/-- R60, R66, R273: a QW to q6 or q7 is dropped and counted. In a span, poison of its data or guard is live in the path's open
threads; outside one a poisoned guard counts as poison dropped. -/
def noQueue (s : State) (h : Here) (f : WriteForm) : State :=
  let (effs, s) := effectsOf f s h
  effs.foldl (fun s e =>
    let s := if e.gpoi.isNone then s.count h.w.ctx 0x58 1 else s
    if e.owners ≠ 0 then e.tokens.foldl (fun s k => (threadsOf e.owners).foldl (fun s t => makeLive s h.g.id t k) s) s
    else dropped s h.g.id h.p.pc (match e.gpoi with | some k => [k] | none => [])) s

/-- R273: QW. A QW outside a span waits for the earlier accesses of its threads, which the operation that it forks sees
(R103). The words that it writes have no address, so no watch point of R456 meets them: the model's choice (log entry 68). -/
def execQw (q : BitVec 3) (ea : Bool) (a : BitVec 7) (s : State) : Result :=
  issuing s fun h =>
    let i : Instr := .qw q ea a
    let f : WriteForm := { unif := true, data := some (rSrc true a ea), kind := .qw, size := q.toNat }
    if !writeReady h f then .next (stall s)
    else if 6 ≤ q.toNat then .next (retire (noQueue s h f) h)
    else if bufferFull s h.g q.toNat && !(uniThreads h.g h.p).isEmpty then .next (stallParked s h)
    else if q = 0 && spanOpen h then writeOp i s h f true
    else withCommit i s h false fun s h =>
      if accessesWaiting s h.g.id ((vecThreads h.g h.p).map (·.1)) false then .next (stall s) else .next (qwNow s h f)

end Sys2Proof.Machine
end

