-- ==== Sys2Proof/Machine/Ordering.lean ====
section
/-!
DEFINITION. Bindings (R90, R91, R267, R268), acquire and release (R93 to R95, R269, R270), fences and publication (R98 to
R100, R271).
-/

namespace Sys2Proof.Machine

/-! ## What ordering waits for -/

/-- R100: a pop of one of the threads is outstanding. -/
def popsWaiting (s : State) (gid : Nat) (ts : List Nat) : Bool :=
  s.exe.pendings.any fun kp => kp.2.gid = gid && ts.contains kp.2.t &&
    match kp.2.what with
    | .pop _ _ _ => true
    | _ => false

/-- R98, R100: no pop of the executing threads is outstanding: an observing point comes after the pop's read. -/
def popsDone (s : State) (h : Here) : Bool := !popsWaiting s h.g.id ((vecThreads h.g h.p).map (·.1))

/-- R78, R98, R136, R259: every earlier access and push of the executing threads is performed; `remote` waits for
acknowledgements of remote writes too. -/
def orderedReady (s : State) (h : Here) (remote : Bool) : Bool :=
  let ts := (vecThreads h.g h.p).map (·.1)
  !accessesWaiting s h.g.id ts remote && !pushesWaiting s h.w h.g.id ts none

/-- R82: the L1 copies of a core that self-invalidate set the flags of flat monitors armed there: of every one, since what the
L1 holds is left open (log entry 65). -/
def selfInvalidate (s : State) (core : Nat) : State :=
  s.mapGroups fun g =>
    if g.mon.armed && !g.mon.scratch && (s.wg g.wg).any (·.coreNo = core) then { g with mon := { g.mon with flag := true } } else g

/-! ## Bindings -/

/-- R90: the key of the object at an address: its physical word, or for a window the node and the address there. -/
def objectKey : AddrOut → Option Nat
  | .loc pa => some pa
  | .remote c node pa => some (placeKey (some (c, node)) pa)
  | _ => none

/-- R90: the physical lines of a region of virtual lines, page by page; none when a page is not valid and present. -/
def regionLines (s : State) (w : WG) : Nat → Nat → Nat → Option (List (Nat × Nat)) × State
  | 0, _, _ => (some [], s)
  | fuel + 1, line, n =>
    if n = 0 then (some [], s)
    else if line ≥ 2 ^ 48 then (none, s)
    else
      let here := min n (512 - line % 512)
      match leafFor s w.ctx (some w.coreNo) (line * 128) with
      | (.fail _ _, s) => (none, s)
      | (.leaf l, s) =>
        let pa := entryPa l.entry + line * 128 % 2 ^ levelShift l.level
        if regionOf pa = .reserved then (none, s)
        else match regionLines s w fuel (line + here) (n - here) with
        | (none, s) => (none, s)
        | (some r, s) => (some ((pa / 128, pa / 128 + here) :: r), s)

/-- A line taken out of a list of line intervals. -/
def withoutLine (ls : List (Nat × Nat)) (l : Nat) : List (Nat × Nat) :=
  ls.flatMap fun i => if i.1 ≤ l && l < i.2 then [(i.1, l), (l + 1, i.2)].filter fun j => j.1 < j.2 else [i]

/-- The parts of an interval outside a list of intervals. -/
def minusLines (i : Nat × Nat) : List (Nat × Nat) → List (Nat × Nat)
  | [] => [i]
  | j :: js =>
    ([(i.1, min i.2 j.1), (max i.1 j.2, i.2)].filter fun k => k.1 < k.2).flatMap fun k => minusLines k js

/-- R91, R100: the released writes to lines that leave an object's region are published at scope 7. -/
def publishLeaving (s : State) (place : Place) (obj : Nat) (gone : Nat → Bool) : State :=
  s.withMem (publish s.mem place 7 (leavingFloor s.mem obj gone))

/-- R74: the quadrant that homes an object. -/
def objectHome (s : State) (part obj : Nat) : Nat := if obj < 0x10000000000000 then homeQuad s part obj else 4

/-- R106: whether a BIND of an object finds its slice full: never while at most 4,096 objects with a region are homed on
its quadrant; beyond that a free value decides (log entry 13). -/
def bindEager (s : State) (part obj : Nat) : Bool :=
  let home := objectHome s part obj
  let n := (s.mem.binds.filter fun b => b.1 ≠ obj && objectHome s part b.1 = home).length + 1
  4096 < n && Config.bindFull s.ctl.tick

/-- R90, R91, R106, R267: binds lines to an object. -/
def bindLines (s : State) (h : Here) (t obj : Nat) (lines : List (Nat × Nat)) : State :=
  let place := placeOf h.g h.w t
  let part := (s.ctx h.w.ctx).elim 0 (·.part)
  let new := withoutLine lines (lineOf obj)
  let s := s.mem.binds.foldl (fun s b =>
    let gone (l : Nat) : Bool := inLines b.2.lines l && (if b.1 = obj then !inLines new l else inLines new l)
    publishLeaving s place b.1 gone) s
  let eager := (sfind s.mem.binds obj).any (·.eager) || bindEager s part obj
  let others := (smapAll s.mem.binds fun b => { b with lines := b.lines.flatMap fun i => minusLines i new })
  let m := { s.mem with binds := sins others obj { lines := new, eager := eager, ctx := h.w.ctx } }
  let s := (s.withMem m).bump
  if eager then s.count h.w.ctx 0x4C 1 else s

/-- R268: removes an object's region. -/
def unbindObject (s : State) (h : Here) (t obj : Nat) : State :=
  match sfind s.mem.binds obj with
  | none => s
  | some b =>
    let s := publishLeaving s (placeOf h.g h.w t) obj (inLines b.lines)
    s.withMem { s.mem with binds := sdel s.mem.binds obj }

/-- R255, R267: the object address of a thread of BIND or UNBIND, with the poison that counts as dropped. An address that fails
makes a record. -/
def objectOf (s : State) (h : Here) (src : Src) (t : Nat) : (Option Nat × List Token) × State :=
  match readSrc h.g h.p src t with
  | .poison k => ((none, [k]), s)
  | .empty =>
    let (k, s) := newRecord s h.g.id h.p.pc (h.g.span.opened.getLsbD t) (emptyRead h.g h.p src t) 1
    ((none, [k]), s)
  | .words ws =>
    match checkAccess s h t false {} 8 8 (pairOf ws) with
    | (.fresh f, s) => ((none, []), (newRecord s h.g.id h.p.pc (h.g.span.opened.getLsbD t) f 1).2)
    | (o, s) => ((objectKey o, []), s)

/-- R339: a read of an empty source with E=1 makes its record. -/
def touchSrc (s : State) (h : Here) (x : Src) (t : Nat) : State :=
  match readSrc h.g h.p x t with
  | .empty => (newRecord s h.g.id h.p.pc (h.g.span.opened.getLsbD t) (emptyRead h.g h.p x t) 1).2
  | _ => s

/-- R267, R268: BIND and UNBIND over the executing threads in ascending t. `one` acts for a thread with the object found. -/
def bindOp (i : Instr) (unif : Bool) (obj : Src) (rest : List Src) (s : State)
    (one : State → Here → Nat → Nat → Bool × State) : Result :=
  issuing s fun h =>
    match operandCheck h (obj :: rest) none true with
    | some r => reject s h i r
    | none =>
      let ths := execThreads unif h.g h.p
      if !operandsReady h ths (obj :: rest) none || !orderedReady s h false then .next (stall s)
      else
        let err (s : State) : State := s.count h.w.ctx 0x50 1
        let isBind := !rest.isEmpty
        let act (acc : List Token × State) (x : Nat × Option Token) : List Token × State :=
          match x.2 with
          | some k => (acc.1 ++ [k], if isBind then err acc.2 else acc.2)
          | none =>
            -- R339: every source is read, whatever the object address is
            match objectOf (rest.foldl (fun s y => touchSrc s h y x.1) acc.2) h obj x.1 with
            | ((none, ks), s) => (acc.1 ++ ks, err s)
            | ((some o, ks), s) =>
              let (ok, s) := one s h x.1 o
              (acc.1 ++ ks, if ok then s else err s)
        let (toks, s) := ths.foldl act ([], s)
        .next (retire (dropped s h.g.id h.p.pc toks) h)

/-- R267: the binding of one thread: whether it was made. -/
def bindOne (base count : Src) (s : State) (h : Here) (t obj : Nat) : Bool × State :=
  match readSrc h.g h.p count t, readSrc h.g h.p base t with
  | .words n, .words b =>
    let n := (n.headD 0).toNat
    if n = 0 || 1048576 < n || (pairOf b).extractLsb' 55 9 ≠ 0 then (false, s)
    else match regionLines s h.w (n / 512 + 2) ((pairOf b).toNat / 128) n with
      | (none, s) => (false, s)
      | (some ls, s) => (true, bindLines s h t obj ls)
  | _, _ => (false, s)

/-- R267. -/
def bind (i : Instr) (unif : Bool) (d : BitVec 7) (ea : Bool) (a : BitVec 7) (eb : Bool) (b : BitVec 7) (s : State) : Result :=
  let base := rSrc unif b eb 2
  let count := rSrc unif d false
  bindOp i unif (rSrc unif a ea 2) [base, count] s (bindOne base count)

/-- R267: BIND. -/
def execBind (d : BitVec 7) (ea : Bool) (a : BitVec 7) (eb : Bool) (b : BitVec 7) (s : State) : Result :=
  bind (.bind d ea a eb b) false d ea a eb b s
/-- R267: uniform BIND. -/
def execBindU (d : BitVec 7) (ea : Bool) (a : BitVec 7) (eb : Bool) (b : BitVec 7) (s : State) : Result :=
  bind (.bindU d ea a eb b) true d ea a eb b s

/-- R268: UNBIND. -/
def execUnbind (ea : Bool) (a : BitVec 7) (s : State) : Result :=
  bindOp (.unbind ea a) false (rSrc false a ea 2) [] s fun s h t o => (true, unbindObject s h t o)
/-- R268: uniform UNBIND. -/
def execUnbindU (ea : Bool) (a : BitVec 7) (s : State) : Result :=
  bindOp (.unbindU ea a) true (rSrc true a ea 2) [] s fun s h t o => (true, unbindObject s h t o)

/-! ## Acquire and release -/

/-- R94, R100: the acquire itself: every release of the object, and every earlier publishing point, that reach the agents. -/
def acquire (s : State) (h : Here) (t : Nat) (ags : List Nat) (obj : Nat) : State :=
  s.withMem (ags.foldl (fun m a => observe (acquireFrom m a obj) a (placeOf h.g h.w t) 7) s.mem)

/-- R269: a thread of ACQ at a local object: its result. An access that fails with an uncorrectable error acquires nothing. -/
def acquireLocal (s : State) (h : Here) (unif : Bool) (t : Nat) (va : DWord) (pa : Nat) : LoadOut × State :=
  let ags := execAgents h unif t
  match freadWord s pa with
  | (.inr ws, s) => (.value ws, acquire s h t ags pa)
  | (.inl (c, o), s) => (.fresh { t := t, cause := c, addr := some va, gorigin := o }, if c = causeRemote then acquire s h t ags pa else s)
where
  /-- The object word, as one access in the object order. -/
  freadWord (s : State) (pa : Nat) : Sum (Cause × Word) (List Word) × State :=
    let part := (s.ctx h.w.ctx).elim 0 (·.part)
    let s := fetchHalf s (some h.w.ctx) part pa
    match [pa, pa + 4].find? (eccBad s ·) with
    | some a => (.inl (causeEcc, 0), detectEcc s (some h.w.ctx) part a)
    | none =>
      let seen := ([pa, pa + 4].map fun a => (a, ((writesOf s.mem a).head?).elim 0 (·.seq))).filter (·.2 ≠ 0)
      let s := s.withMem ((execAgents h unif t).foldl (fun m g => raiseFloors m g seen) s.mem)
      if wordPoi s.mem pa || wordPoi s.mem (pa + 4) then (.inl (causeRemote, lineOrigin s.mem pa), s)
      else (.inr [memWord s.mem pa, memWord s.mem (pa + 4)], s)

/-- R258, R269: what came for the ACQ of a thread at a window object: the word or its poison; the acquire is performed unless
the access failed. -/
def acquireFar (s : State) (h : Here) (unif : Bool) (t : Nat) (va : DWord) (obj : Option Nat)
    (got : List Word × Option (BitVec 6 × Word)) : LoadOut × State :=
  let acq (s : State) : State := match obj with | some o => acquire s h t (execAgents h unif t) o | none => s
  match got.2 with
  | none => (.value got.1, acq s)
  | some (c, o) => (.fresh { t := t, cause := c, addr := some va, gorigin := o }, if c = causeRemote then acq s else s)

/-- The reads of window objects for an ACQ that are not under way and have not come. -/
def farObjects (s : State) (h : Here) (addrs : List (Nat × DWord × AddrOut)) : List (Nat × DWord × Nat × Nat × Nat) :=
  addrs.filterMap fun x => match x.2.2 with
    | .remote c n pa =>
      if (sfind h.g.gotten x.1).isSome || s.exe.pendings.any fun kp => kp.2.gid = h.g.id && kp.2.t = x.1 && match kp.2.what with
          | .remote (.acquire _) _ _ _ _ => true
          | _ => false
      then none else some (x.1, x.2.1, c, n, pa)
    | _ => none

/-- R269, R258, R456: ACQ once the span is closed. An object in a fabric window is read by a request first; the path parks
until every reply has come. -/
def acqIssue (unif : Bool) (src : Src) (dst : Dst) (s0 : State) (h : Here) : Result :=
  let ths := execThreads unif h.g h.p
  let ts := (ths.filter (·.2.isNone)).map (·.1)
  let addr (s : State) (t : Nat) : (DWord × AddrOut) × State := match addrOf h src false 0 t with
    | .inl o => ((0, o), s)
    | .inr va => let (o, s) := checkAccess s h t false {} 8 8 va; ((va, o), s)
  let (addrs, s) := eachThread addr s0 ts
  let ask := farObjects s h addrs
  if !orderedReady s0 h true || !popsDone s0 h || addrs.any fun x => match x.2.2 with
      | .loc pa => lineBlocked s h.g.id x.2.1 pa s.exe.nextId
      | _ => false then .next (stall s0)
  else if !ask.isEmpty then
    let one (s : State) (x : Nat × DWord × Nat × Nat × Nat) : State :=
      let (t, va, c, node, pa) := x
      askRemote s h c node 1 0 0 pa 8 [(t, .acquire (execAgents h unif t), va, [])]
    .next ((ask.foldl one s).modPath h fun p => { p with park := .waiting })
  else if addrs.any fun x => match x.2.2 with | .remote _ _ _ => (sfind h.g.gotten x.1).isNone | _ => false then
    .next (stallParked s0 h)
  else
    let one (s : State) (x : Nat × DWord × AddrOut) : LoadOut × State := match x.2.2 with
      | .tok k => (.tok k, s)
      | .fresh f => (.fresh f, s)
      | .loc pa => acquireLocal s h unif x.1 x.2.1 pa
      | .remote _ _ _ => acquireFar s h unif x.1 x.2.1 (objectKey x.2.2) ((sfind h.g.gotten x.1).getD ([], none))
    let (outs, s) := addrs.foldl (fun acc x => let (o, s) := one acc.2 x; (acc.1 ++ [(x.1, o)], s))
      (([] : List (Nat × LoadOut)), s)
    match logReturned s h (fun t => (addrs.find? (·.1 = t)).map (·.2.1)) outs with
    | none => .next (waitForLog s0 h)
    | some (outs, s) =>
      let outs' : List (Nat × ThreadOut) := outs.map fun o => (o.1, match o.2 with
        | .value ws => .words ws
        | .tok k => .tok k
        | .fresh f => .fresh f
        | _ => .keep)
      let guards : List (Nat × ThreadOut) := ths.filterMap fun t => t.2.map fun k => (t.1, .tok k)
      let (outs', s) := settle s h (outs' ++ guards)
      let s := s.modGroup h.g.id fun g => { g with gotten := g.gotten.filter fun x => !ts.contains x.1 }
      let s := writeAll s h dst outs'
      let seen := ts.filterMap fun t => match addrOf h src false 0 t with | .inr va => some (t, va) | .inl _ => none
      let hit := watchHit s0 h.w.ctx false 8 seen
      .next (watchStop (retire (if ts.isEmpty then s else selfInvalidate s h.w.coreNo) h) h hit)

/-- R269: ACQ. -/
def acq (i : Instr) (unif : Bool) (d : BitVec 7) (ea : Bool) (a : BitVec 7) (s : State) : Result :=
  issuing s fun h =>
    let src := rSrc unif a ea 2
    let dst := rDst unif d 2
    match operandCheck h [src] (some dst) true with
    | some r => reject s h i r
    | none =>
      if !operandsReady h (execThreads unif h.g h.p) [src] (some dst) then .next (stall s)
      else withCommit i s h false (acqIssue unif src dst)

/-- R269: ACQ. The scope is a cost hint only (R97). -/
def execAcq (d : BitVec 7) (ea : Bool) (a : BitVec 7) (sc : BitVec 3) (s : State) : Result :=
  acq (.acq d ea a sc) false d ea a s
/-- R269: uniform ACQ. -/
def execAcqU (d : BitVec 7) (ea : Bool) (a : BitVec 7) (sc : BitVec 3) (s : State) : Result :=
  acq (.acqU d ea a sc) true d ea a s

/-- R270: REL of one thread: the store of the data, poisoned data as poison, and the release. None: its page waits for a
checkpoint copy. -/
def releaseOne (s : State) (h : Here) (e : Eff) : Option State :=
  if e.apoi.isSome || e.gpoi.isSome then some s
  else
    let done (s : State) (obj : Nat) : State := s.withMem (e.ags.foldl (fun m a => releaseTo m a obj) s.mem)
    match e.chord with
    | some (c, n) => some (done (performRemote s c n false [(e, [])]) ((objectKey (.remote c n e.pa)).getD 0))
    | none =>
      if lineBlocked s e.gid e.va e.pa s.exe.nextId then none
      else (noteWrite s e.ctx (some h.w.coreNo) e.va e.pa).map fun s =>
        done (writeWords s e.ags e.pa e.poi e.origin e.va e.data) e.pa

/-- R270, R456: REL once the span is closed. -/
def relIssue (f : WriteForm) (s0 : State) (h : Here) : Result :=
  let (effs, s) := effectsOf f s0 h
  if !orderedReady s0 h true then .next (stall s0)
  else match effs.foldl (fun (acc : Option State) e => acc.bind fun s => releaseOne s h e) (some s) with
  | none => .next (stall s0)
  | some s =>
    let s := kept s h.g.id h.p.pc (effs.filterMap fun e => if e.apoi.isNone && e.gpoi.isNone then e.dpoi else none)
    let s := dropped s h.g.id h.p.pc (effs.filterMap fun e => if e.apoi.isSome then e.apoi else e.gpoi)
    .next (watchStop (retire s h) h (writeHit s0 h f))

/-- R270: REL. -/
def rel (i : Instr) (unif : Bool) (d : BitVec 7) (ea : Bool) (a : BitVec 7) (s : State) : Result :=
  issuing s fun h =>
    let f : WriteForm :=
      { unif := unif, addr := some (rSrc unif a ea 2), data := some (rSrc unif d false 2), align := 8, extent := 8, size := 8
        kind := .store }
    match operandCheck h (f.addr.toList ++ f.data.toList) none true with
    | some r => reject s h i r
    | none =>
      if !writeReady h f then .next (stall s)
      else withCommit i s h false (relIssue f)

/-- R270: REL. The scope is a cost hint only (R97). -/
def execRel (d : BitVec 7) (ea : Bool) (a : BitVec 7) (sc : BitVec 3) (s : State) : Result :=
  rel (.rel d ea a sc) false d ea a s
/-- R270: uniform REL. -/
def execRelU (d : BitVec 7) (ea : Bool) (a : BitVec 7) (sc : BitVec 3) (s : State) : Result :=
  rel (.relU d ea a sc) true d ea a s

/-! ## Fences -/

/-- R98, R100: the fence of one thread. -/
def fenceOne (m : MemSys) (h : Here) (scope t : Nat) : MemSys :=
  let a := agentOf h.g.id t
  let place := placeOf h.g h.w t
  let m := if scope = 0 then m else publish m place scope (floorsOf m a)
  observe m a place scope

/-- R271: FENCE. -/
def execFence (sc : BitVec 3) (s : State) : Result :=
  issuing s fun h =>
    if !guardFull h.g h.p then .next (stall s)
    else withCommit (.fence sc) s h false fun s h =>
      if !orderedReady s h (5 ≤ sc.toNat) || !popsDone s h then .next (stall s) else
      let ths := vecThreads h.g h.p
      let ts := (ths.filter (·.2.isNone)).map (·.1)
      let s := s.withMem (ts.foldl (fun m t => fenceOne m h sc.toNat t) s.mem)
      let s := if 3 ≤ sc.toNat && !ts.isEmpty then selfInvalidate s h.w.coreNo else s
      .next (retire (dropped s h.g.id h.p.pc (ths.filterMap (·.2))) h)

/-- R99, R271: PUB. -/
def execPub (d : BitVec 7) (ea : Bool) (a : BitVec 7) (sc : BitVec 3) (s : State) : Result :=
  issuing s fun h =>
    let base := rSrc false a ea 2
    let len := rSrc false d false
    match operandCheck h [base, len] none true with
    | some r => reject s h (.pub d ea a sc) r
    | none =>
      if !operandsReady h (vecThreads h.g h.p) [base, len] none then .next (stall s)
      else withCommit (.pub d ea a sc) s h false fun s h =>
        if !orderedReady s h true then .next (stall s) else
        let one (acc : List Token × State) (x : Nat × Option Token) : List Token × State :=
          let (toks, s) := acc
          match x.2 with
          | some k => (toks ++ [k], s)
          | none =>
            match readSrc h.g h.p base x.1, readSrc h.g h.p len x.1 with
            | .words b, .words n =>
              let f := rangeFloor s.mem (floorsOf s.mem (agentOf h.g.id x.1)) (pairOf b).toNat (n.headD 0).toNat
              (toks, s.withMem (if (n.headD 0) = 0 || sc = 0 then s.mem else publish s.mem (placeOf h.g h.w x.1) sc.toNat f))
            | .poison k, _ => (toks ++ [k], s)
            | .empty, _ =>
              let (k, s) := newRecord s h.g.id h.p.pc false (emptyRead h.g h.p base x.1) 1
              (toks ++ [k], s)
            | _, .poison k => (toks ++ [k], s)
            | _, .empty => (toks, s)
        let (toks, s) := (vecThreads h.g h.p).foldl one ([], s)
        .next (retire (dropped s h.g.id h.p.pc toks) h)

end Sys2Proof.Machine
end

