-- ==== Sys2Proof/Machine/Engines.lean ====
section
/-!
DEFINITION. QR and QSTAT (R274, R275), the engines word by word (R276 to R279, R413), arrivals on sync words (R80) and
the posting of results (R272).
-/

namespace Sys2Proof.Machine

/-! ## QR and QSTAT -/

/-- R274: QR. Its arrival is LONG_LATENCY_COMPLETE. With a poisoned guard the removal is an effect that is dropped
(R12, R66). -/
def execQr (d : BitVec 7) (q : BitVec 3) (s : State) : Result :=
  issuing s fun h =>
    let dst := rDst true d
    if !operandsReady h (uniThreads h.g h.p) [] (some dst) then .next (stall s)
    else withCommit (.qr d q) s h false fun s h =>
      match uniThreads h.g h.p with
      | [] => .next (retire s h)
      | (t, some k) :: _ =>
        .next (retire (dropped (writeAll s h dst [(t, .tok k)]) h.g.id h.p.pc [k]) h)
      | (t, none) :: _ =>
        if 6 ≤ q.toNat then
          let (outs, s) := settle s h [(t, .fresh { t := t, cause := causeEngine })]
          .next (retire (writeAll s h dst outs) h)
        else
          let x : Dest := { file := 1, reg := d.toNat, t := 0 }
          let s := markEmpty s h.g.id [x]
          .next (retire (addPending s h.g.id t h.p.pc (.result q.toNat x (execAgents h true t))) h)

/-- R275: the status word of a queue pair. A result that an earlier QR will take waits no longer. -/
def queueStatus (s : State) (g : Group) (q : Nat) : Word :=
  if 6 ≤ q then 0
  else
    let u := g.queue q
    let claimed := (s.exe.pendings.filter fun kp => kp.2.gid = g.id && (match kp.2.what with
      | .result r _ _ => r / 2 = q / 2
      | _ => false)).length
    BitVec.ofNat 32 ((u.results.length - claimed) * 512 + u.partWords.length * 32 + (16 - bufferUsed s g (q / 2 * 2)))

/-- R275: QSTAT. -/
def execQstat (d : BitVec 7) (q : BitVec 3) (s : State) : Result :=
  issuing s fun h => aluLogged (.qstat d q) s h
    { unif := true, srcs := [], dst := rDst true d, f := fun _ _ => .words [queueStatus s h.g q.toNat] } id

/-! ## Operations -/

/-- Changes an engine operation. -/
def modOp (s : State) (n : Nat) (f : EngOp → EngOp) : State :=
  { s with exe := { s.exe with engOps := smod s.exe.engOps n f } }

/-- An engine operation. -/
def getOp (s : State) (n : Nat) : Option EngOp := sfind s.exe.engOps n

/-- R279: the origin of poison that an operation writes: its quadrant and core, no token, ENGINE_FAULT. -/
def engOrigin (s : State) (o : EngOp) : Word := originRaw s o.quad o.core causeEngine

/-- R279: an operation fails; its first failing address is kept. -/
def failOp (s : State) (n : Nat) (va : DWord) : State :=
  modOp s n fun o => if o.failed then o else { o with failed := true, failAddr := va.setWidth 55 }

/-- R70, R395: where the scratchpad of a workgroup lies: its own place, or its slot while the workgroup is saved; none
when the workgroup has ended. -/
def scratchPlace (s : State) (wg : Nat) : Option Nat :=
  match s.wg wg with
  | some w => some w.scratchBase
  | none =>
    (s.host.images.find? (·.wg.id = wg)).bind fun i => (imageSlot s i).map (· + 0x80000)

/-- R279: what an engine finds at an address: a place, a place on another package, words that read poisoned (R384, R385),
a failure, or a page to be serviced. -/
inductive EngLoc where
  | loc (pa : Nat)
  | remote (chord node pa : Nat)
  | poison (origin : Word)
  | fail
  | wait
  deriving DecidableEq, Repr

/-- R255 steps 2 and 4 to 7, R279: an address of an operation. `unit` is the alignment of the engine's units and `lead` the
address of the unit. A page that is not present is requested; the operation waits for it. -/
def engLook (s : State) (o : EngOp) (scratch : Bool) (ac : Access) (unit : Nat) (lead va : DWord) : EngLoc × State :=
  if lead.toNat % unit ≠ 0 then (.fail, s)
  else if scratch then
    match scratchPlace s o.wg with
    | none => (.poison (engOrigin s o), s)
    | some b => (if va.toNat + 4 ≤ o.scratch then .loc (b + va.toNat) else .fail, s)
  else
    match checkFlat s o.ctx none o.priv ac va with
    | (.loc pa poa, s) => (if poa then .poison (engOrigin s o) else .loc pa, s)
    | (.remote c n pa poa, s) => (if poa then .poison (engOrigin s o) else .remote c n pa, s)
    | (.fail k g, s) =>
      if k = causeNotPresent then
        let page := va.setWidth 55 &&& ~~~0xFFFF#55
        if o.failedPages.contains page then (.fail, s)
        else if o.waits.contains page then (.wait, s)
        else
          let s := requestFault s o.ctx page 1 ac.write (BitVec.ofNat 2 o.quad ++ BitVec.ofNat 4 (o.core / 8) ++
            BitVec.ofNat 3 (o.core % 8) ++ 0#2)
          (.wait, modOp s o.id fun o => { o with waits := page :: o.waits })
      else if k = causeRemote then (.poison g, s)
      else if k = causeEcc then (.poison (engOrigin s o), s)
      else (.fail, s)

/-- R78: an access of the gather or the collective engine waits on a line in flight; the copy engine's do not. -/
def engBlocked (s : State) (o : EngOp) (scratch : Bool) (pa : Nat) : Bool := !scratch && o.q ≠ 0 && inFlight s.mem pa

/-! ## Sources -/

/-- A source word of an operation: its value with the origin of its poison, or none while it must wait. -/
abbrev EngSrc := Option (Word × Option Word)

/-- R459: the word was last written by another agent than an operation. -/
def foreignTo (m : MemSys) (agent a : Nat) : Bool :=
  match (writesOf m a).head? with
  | some w => w.seq ≠ 0 && w.agent ≠ agent
  | none => false

/-- The name of a source word of an operation among those that it has received: scratchpad offsets lie apart. -/
def fetchKey (scratch : Bool) (va : DWord) : Nat := va.toNat + if scratch then 0x10000000000000000 else 0

/-- R459, R460: an operand word, or its poison and whether its access failed, passes through the log of record mode and is kept for
the word that the operation moves now. A failing access fails the operation (R279), in a replay too: an entry with cause ENGINE_FAULT
says so (log entry 32). -/
def takeOperand (s : State) (o : EngOp) (key : Nat) (va : DWord) (foreign : Bool) (w : Word) (poi : Option Word) (failed : Bool) :
    EngSrc × State :=
  let v : Logged := match poi with
    | some g => ⟨true, DWord.ofHalves ((if failed then causeEngine else causeRemote).setWidth 32) g⟩
    | none => ⟨false, w.setWidth 64⟩
  match receiveOperand s o.ctx o.rid o.count (BitVec.ofNat 32 o.reads) foreign v with
  | none => (none, logWaits s o.ctx)
  | some (v, s) =>
    let f : Fetched :=
      if v.pois then ⟨if v.value.extractLsb' 0 6 = causeEngine then 0 else w, some v.value.halves.2⟩ else ⟨v.value.halves.1, none⟩
    let s := if v.pois && v.value.extractLsb' 0 6 = causeEngine then failOp s o.id va else s
    (some (f.val, f.poi),
     modOp s o.id fun o => { o with reads := o.reads + 1, fetched := sins o.fetched key f })

/-- R276 to R279: reads a source word of an operation. A word on another package is asked for, one at a time. -/
def engRead (s : State) (n : Nat) (scratch : Bool) (unit : Nat) (lead va : DWord) : EngSrc × State :=
  match getOp s n with
  | none => (none, s)
  | some o =>
    let key := fetchKey scratch va
    match sfind o.fetched key with
    | some f => (some (f.val, f.poi), s)
    | none =>
      match engLook s o scratch {} unit lead va with
      | (.wait, s) => (none, s)
      | (.fail, s) => takeOperand s o key va true 0 (some (engOrigin s o)) true
      | (.poison g, s) => takeOperand s o key va true 0 (some g) false
      | (.loc pa, s) =>
        if engBlocked s o scratch pa then (none, s)
        else
          let foreign := foreignTo s.mem (agentOf n 0) pa
          let ((w, p), s) := readOne s (some o.ctx) o.part [agentOf n 0] pa
          takeOperand s o key va foreign w (p.map fun _ => lineOrigin s.mem pa) false
      | (.remote c node pa, s) =>
        if o.asking then (none, s)
        else
          let s := queueRequest s c node o.ctx 1 0 0 0 pa va 4 [] [] (0, 0) [] (some n)
          (none, flushChord (modOp s n fun o => { o with asking := true }) c)

/-! ## Destinations -/

/-- R77: the destination lines of an operation in a page that is present now are marked in flight, those that it has not
written yet. -/
def remarkFlight (s : State) (o : EngOp) (page : BitVec 55) : State := markBetween s o page.toNat (page.toNat + 65536)

/-- R413: a WRITE packet that an operation is filling: where it goes and its words so far. -/
structure Filling where
  chord : Nat
  node : Nat
  pa : Nat
  va : DWord
  words : List (Word × Option Word)
  deriving DecidableEq, Repr

/-- R409: the origin of the first poisoned word of a packet in one of the two lines that it may touch. -/
def lineOriginOf (f : Filling) (line : Nat) : Word :=
  (((f.words.zip (List.range f.words.length)).filterMap fun x =>
    if lineOf (f.pa + 4 * x.2) = line then x.1.2 else none).head?).getD 0

/-- R403, R413: sends a filled WRITE packet. -/
def sendFilling (s : State) (n ctx : Nat) (f : Filling) : State :=
  let org := (lineOriginOf f (lineOf f.pa), lineOriginOf f (lineOf f.pa + 1))
  let s := queueRequest s f.chord f.node ctx 2 0 0 0 f.pa f.va (4 * f.words.length) (f.words.flatMap fun w => bytesOfWord w.1)
    (f.words.map (·.2.isSome)) org [] (some n)
  modOp s n fun o => { o with acks := o.acks + 1 }

/-- An operation in the middle of a step: the state and the packet that is being filled. -/
structure Moving where
  s : State
  fill : Option Filling
  deriving DecidableEq, Repr

/-- The packet that is being filled leaves. -/
def Moving.send (m : Moving) (n ctx : Nat) : Moving :=
  match m.fill with
  | none => m
  | some f => { s := sendFilling m.s n ctx f, fill := none }

/-- R413: adds a word to the packet that is being filled, or begins another. -/
def Moving.add (m : Moving) (n ctx c node pa : Nat) (va : DWord) (x : Word × Option Word) : Moving :=
  let begin' (m : Moving) : Moving := { m with fill := some { chord := c, node := node, pa := pa, va := va, words := [x] } }
  match m.fill with
  | none => begin' m
  | some f =>
    if f.chord = c && f.node = node && f.pa + 4 * f.words.length = pa && pa % 256 ≠ 0 then
      { m with fill := some { f with words := f.words ++ [x] } }
    else begin' (m.send n ctx)

/-- R279: writes a destination word of an operation; none while it must wait. The flag says that the word counts now; a
word sent to another package counts when it is acknowledged. -/
def engWrite (m : Moving) (n : Nat) (scratch : Bool) (unit : Nat) (lead va : DWord) (x : Word × Option Word) :
    Option Bool × Moving :=
  match getOp m.s n with
  | none => (none, m)
  | some o =>
    match engLook m.s o scratch { write := true } unit lead va with
    | (.wait, s) => (none, { m with s := s })
    | (.fail, s) => (some true, { m with s := failOp s n va })
    | (.poison _, s) => (some true, { m with s := s })
    | (.remote c node pa, s) => (some false, { m with s := noteWindow s o.ctx none va }.add n o.ctx c node pa va x)
    | (.loc pa, s) =>
      if engBlocked s o scratch pa then (none, { m with s := s })
      else if scratch && (findWg s o.wg).any (·.reserves va.toNat) then (some true, { m with s := s })
      else match (if scratch then some s else noteWrite s o.ctx none va pa) with
        | none => (none, { m with s := s })
        | some s =>
          -- R77: a page that was mapped after the fork without the operation's own fault is marked first
          let s := if scratch || o.q ≠ 0 || s.mem.flight.contains (lineOf pa, n) then s
            else remarkFlight s o (va.setWidth 55 &&& ~~~0xFFFF#55)
          (some true, { m with s := writeOne s [agentOf n 0] pa x.1 0xF x.2.isSome (x.2.getD 0) (if scratch then 0 else va) })

/-- R277, R278: the flat addresses from which the gather and the collective engine read next for an operation. -/
def EngOp.nextReads (o : EngOp) : List DWord :=
  let h := cw o.words 0
  let at' (k n : Nat) : DWord := DWord.ofHalves (cw o.words k) (cw o.words (k + 1)) + BitVec.ofNat 64 n
  if o.q = 4 then (if h.getLsbD 18 then [] else [at' 1 (4 * o.pos)])
  else if o.q = 2 then
    let unit := if h.getLsbD 15 then 2 else 1
    let index := at' 3 (4 * (o.pos / unit))
    (if h.getLsbD 17 then [] else [index]) ++
      (if h.extractLsb' 28 4 = 1 then
         ((sfind o.fetched (fetchKey (h.getLsbD 17) index)).map fun f => at' 1 (4 * (f.val.toNat * unit + o.pos % unit))).toList
       else if h.getLsbD 18 then [] else [at' 5 (4 * o.pos)])
  else []

/-- R78: the agents that read a line after the copy into it: those whose access waits for it, and the threads that forked the copy. -/
def lineReaders (s : State) (o : EngOp) (line : Nat) : List Nat :=
  let waits := s.exe.pendings.flatMap fun kp => match kp.2.what with
    | .access k _ pa _ _ => if lineOf pa = line then k.agents else []
    | _ => []
  let engines := (s.exe.engOps.map (·.2)).filter fun x => x.started && x.nextReads.any fun va => match (walk s x.ctx va.toNat).1 with
    | .leaf l => lineOf (entryPa l.entry + va.toNat % 2 ^ levelShift l.level) = line
    | .fail _ _ => false
  let remote := s.host.chords.any fun kc => kc.2.inq.any fun p => lineOf p.pa.toNat = line || lineOf (p.pa.toNat + p.len.toNat - 1) = line
  let threads := o.forkers ++ waits
  threads ++ threads.map constAgent ++ engines.map (fun x => agentOf x.id 0) ++ (if remote then [remoteAgent] else [])

/-- R77, R78: a line of an operation leaves flight: what the operation wrote to it has arrived. -/
def leaveFlight (s : State) (o : EngOp) (line : Nat) : State :=
  let f := (floorsOf s.mem (agentOf o.id 0)).filter fun x => lineOf x.1 = line
  let m := (lineReaders s o line).foldl (fun m a => raiseFloors m a f) s.mem
  s.withMem { m with flight := m.flight.filter (· ≠ (line, o.id)) }

/-- R77: the line of a destination word leaves flight when the operation's last byte in it is done. -/
def landLine (s : State) (n : Nat) (va : DWord) (last : Bool) : State :=
  match getOp s n with
  | none => s
  | some o =>
    if !last && va.toNat % 128 ≠ 124 then s
    else match (walk s o.ctx va.toNat).1 with
      | .leaf l =>
        leaveFlight s o (lineOf (entryPa l.entry + va.toNat % 2 ^ levelShift l.level))
      | .fail _ _ => s

/-! ## One word of each command -/

/-- R80, R279: a word of an operation is done; `now` says that its bytes have arrived. Without a sync word nothing is
left to add. Of the source words received, the one named `keep` stays for the next word. -/
def wordDone (s : State) (n : Nat) (now : Bool) (keep : Option Nat) : State :=
  modOp s n fun o =>
    let moved := if now then o.moved + 4 else o.moved
    { o with pos := o.pos + 1, fetched := o.fetched.filter (keep = some ·.1), moved := moved,
             arrived := if (commandSync o.q o.words).isNone then moved else o.arrived }

/-- The result of one word: it was moved, or the operation must wait. -/
abbrev WordStep := Bool × Moving

/-- Ends the step of one word. -/
def endWord (n : Nat) (r : Option Bool × Moving) (keep : Option Nat := none) : WordStep :=
  match r with
  | (none, m) => (false, m)
  | (some now, m) => (true, { m with s := wordDone m.s n now keep })

/-- R276: one word of COPY or FILL. -/
def copyWord (o : EngOp) (m : Moving) : WordStep :=
  let k := o.pos
  let off : DWord := BitVec.ofNat 64 (4 * k)
  let h := cw o.words 0
  let src := DWord.ofHalves (cw o.words 1) (cw o.words 2)
  let dst := DWord.ofHalves (cw o.words 3) (cw o.words 4)
  let (x, s) : EngSrc × State :=
    if h.extractLsb' 28 4 = 2 then (some (cw o.words 1, none), m.s)
    else engRead m.s o.id (h.getLsbD 17) 4 src (src + off)
  match x with
  | none => (false, { m with s := s })
  | some x =>
    let (done, m) := endWord o.id (engWrite { m with s := s } o.id (h.getLsbD 18) 4 dst (dst + off) x)
    if done then (true, { m with s := landLine m.s o.id (dst + off) (o.total ≤ 4 * (k + 1)) }) else (false, m)

/-- R277: the event of elements that SCATTER drops for their poisoned indexes. -/
def droppedElements (o : EngOp) : Ev :=
  { cls := 18, src := 7, ctx := some o.ctx, part := some o.part, loc := quadLoc o.quad, count := o.drops
    info := poisonInfo o.pc 0x3FF causeRemote }

/-- R277, R441: counts an element that SCATTER drops. The error record is the operation's, when it ends. -/
def countDroppedElement (s : State) (o : EngOp) : State :=
  modOp (countEvent s { droppedElements o with count := 1 }) o.id fun o => { o with drops := o.drops + 1 }

/-- R277: one word of GATHER or SCATTER. The index of an element of two words is read once. -/
def gatherWord (o : EngOp) (m : Moving) : WordStep :=
  let h := cw o.words 0
  let wide := h.getLsbD 15
  let unit := if wide then 8 else 4
  let i := o.pos / (unit / 4)
  let part : DWord := BitVec.ofNat 64 (4 * (o.pos % (unit / 4)))
  let table := DWord.ofHalves (cw o.words 1) (cw o.words 2)
  let index := DWord.ofHalves (cw o.words 3) (cw o.words 4)
  let packed := DWord.ofHalves (cw o.words 5) (cw o.words 6)
  let pk := packed + BitVec.ofNat 64 (unit * i)
  let at' := index + BitVec.ofNat 64 (4 * i)
  let keep := if wide && part = 0 then some (fetchKey (h.getLsbD 17) at') else none
  let (ix, s) := engRead m.s o.id (h.getLsbD 17) 4 index at'
  let m := { m with s := s }
  match ix with
  | none => (false, m)
  | some (iv, bad) =>
    let el := table + BitVec.ofNat 64 (iv.toNat * unit)
    if h.extractLsb' 28 4 = 1 then
      match bad with
      | some g => endWord o.id (engWrite m o.id (h.getLsbD 18) unit pk (pk + part) (0, some g)) keep
      | none =>
        match engRead m.s o.id false unit el (el + part) with
        | (none, s) => (false, { m with s := s })
        | (some x, s) => endWord o.id (engWrite { m with s := s } o.id (h.getLsbD 18) unit pk (pk + part) x) keep
    else if bad.isSome then
      endWord o.id (some true, { m with s := if part = 0 then countDroppedElement m.s o else m.s }) keep
    else
      match engRead m.s o.id (h.getLsbD 18) unit pk (pk + part) with
      | (none, s) => (false, { m with s := s })
      | (some x, s) => endWord o.id (engWrite { m with s := s } o.id false unit el (el + part) x) keep

/-- R278: the operation of REDUCE_INTO: op value less 0x70 (10 and 11 for f32), and signedness. -/
def reduceOp (h : Word) : Nat × Bool :=
  match (h.extractLsb' 14 3).toNat, (h.extractLsb' 12 2).toNat with
  | 0, 2 => (1, false)
  | 0, _ => (0, false)
  | 1, 2 => (10, false)
  | 1, t => (2, t = 0)
  | _, 2 => (11, false)
  | _, t => (3, t = 0)

/-- R433, R435: a shadow mismatch in a collective engine. -/
def engineMismatch (o : EngOp) : Ev :=
  { cls := 8, src := 7, ctx := some o.ctx, part := some o.part, loc := quadLoc o.quad, info := poisonInfo o.pc 0x3FF causeShadow }

/-- R278: one word of REDUCE_INTO: one atomic at the home of its destination word. -/
def reduceWord (o : EngOp) (m : Moving) : WordStep :=
  let off : DWord := BitVec.ofNat 64 (4 * o.pos)
  let h := cw o.words 0
  let src := DWord.ofHalves (cw o.words 1) (cw o.words 2)
  let dst := DWord.ofHalves (cw o.words 3) (cw o.words 4)
  let (op, signed) := reduceOp h
  match engRead m.s o.id (h.getLsbD 18) 4 src (src + off) with
  | (none, s) => (false, { m with s := s })
  | (some x, s) =>
    match engLook s o false { write := true } 4 dst (dst + off) with
    | (.wait, s) => (false, { m with s := s })
    | (.fail, s) => endWord o.id (some true, { m with s := failOp s o.id (dst + off) })
    | (.poison _, s) => endWord o.id (some true, { m with s := s })
    | (.remote c node pa, s) =>
      let s := queueRequest (noteWindow s o.ctx none (dst + off)) c node o.ctx 3 (BitVec.ofNat 8 (0x70 + op)) 0 ((BitVec.ofBool signed).setWidth 2) pa (dst + off) 4 (bytesOfWord x.1) [x.2.isSome]
        (x.2.getD 0, 0) [] (some o.id)
      endWord o.id (some false, { m with s := modOp s o.id fun o => { o with acks := o.acks + 1 } })
    | (.loc pa, s) =>
      if engBlocked s o false pa then (false, { m with s := s })
      else match noteWrite s o.ctx none (dst + off) pa with
        | none => (false, { m with s := s })
        | some s =>
          let r := atomicAt s op false signed (engineMismatch o) 128 o.ctx o.part [agentOf o.id 0] (dst + off) pa [x.1] x.2.isSome
            (x.2.getD 0)
          endWord o.id (some true, { m with s := r.2 })

/-! ## Engine events -/

/-- Moves up to `k` words of an operation, as far as it need not wait. -/
def moveWords (word : EngOp → Moving → WordStep) (n : Nat) : Nat → Moving → Moving
  | 0, m => m
  | k + 1, m =>
    match getOp m.s n with
    | none => m
    | some o =>
      if o.killed || !o.started || o.total ≤ 4 * o.pos then m
      else match word o m with
        | (true, m) => moveWords word n k m
        | (false, m) => m

/-- R402: every chord sends the packets that wait. -/
def flushChords (s : State) : State := (skeys s.host.chords).foldl flushChord s

/-- An engine moves up to `words` words of an operation of its queue whose command is `cmd`. -/
def engineStep (q cmd : Nat) (word : EngOp → Moving → WordStep) (n words : Nat) (s : State) : State :=
  match getOp s n with
  | none => s
  | some o =>
    if o.q ≠ q || ((cw o.words 0).extractLsb' 28 4).toNat ≠ cmd then s
    else flushChords ((moveWords word n words { s := s, fill := none }).send n o.ctx).s

/-- R276, R413: COPY moves words. -/
def execCopy (op words : Nat) (s : State) : Result := .next (engineStep 0 1 copyWord op words s)
/-- R276: FILL writes words. -/
def execFill (op words : Nat) (s : State) : Result := .next (engineStep 0 2 copyWord op words s)
/-- R277: GATHER moves words. -/
def execGather (op words : Nat) (s : State) : Result := .next (engineStep 2 1 gatherWord op words s)
/-- R277: SCATTER moves words. -/
def execScatter (op words : Nat) (s : State) : Result := .next (engineStep 2 2 gatherWord op words s)
/-- R278: REDUCE_INTO updates words. -/
def execReduceInto (op words : Nat) (s : State) : Result := .next (engineStep 4 1 reduceWord op words s)

/-- R80, R103: the bytes of an operation that have arrived are added to its sync word, and the generations that they
contribute to are noted. -/
def arrive (s : State) (o : EngOp) (off : Nat) : State :=
  match scratchPlace s o.wg with
  | none => s
  | some b =>
    let g0 := memWord s.mem (b + off + 8)
    let s := syncAdd s [agentOf o.id 0] (b + off) (BitVec.ofNat 32 (o.moved - o.arrived))
    let g1 := memWord s.mem (b + off + 8)
    let hi := if memWord s.mem (b + off + 4) = 0 && g0 ≠ g1 then g1 else g1 + 1
    noteWgAny s o.wg fun w => { w with contribs := (off, g0 + 1, hi, agentOf o.id 0) :: w.contribs }

/-- R80: bytes arrive on a sync word. -/
def execEngineArrival (op : Nat) (s : State) : Result :=
  match getOp s op with
  | none => .next s
  | some o =>
    match commandSync o.q o.words with
    | none => .next s
    | some off =>
      if o.killed || o.moved = o.arrived then .next s
      else .next (modOp (arrive s o off) op fun o => { o with arrived := o.moved })

/-- R272, R276 to R278: the result bit. -/
def EngOp.res (o : EngOp) : Bool := (cw o.words 0).getLsbD 19

/-- R434: a failed operation raises an engine-fault event. -/
def engineFault (s : State) (o : EngOp) : State :=
  if o.failed then
    raise s { cls := 21, src := 7, ctx := some o.ctx, part := some o.part, loc := quadLoc o.quad, info := [o.pc, o.failAddr.setWidth 64] }
  else s

/-- R441: the error record of the elements that an operation dropped, when it ends. -/
def endDrops (s : State) (o : EngOp) : State := if o.drops = 0 then s else actOn s (droppedElements o)

/-- An operation leaves its engine: its lines leave flight. -/
def removeOp (s : State) (n : Nat) : State :=
  match getOp s n with
  | none => s
  | some o =>
    let s := ((s.mem.flight.filter (·.2 = n)).map (·.1)).foldl (fun s line => leaveFlight s o line) s
    { s with exe := { s.exe with engOps := sdel s.exe.engOps n } }

/-- R272: the engine starts the next command of a group's queue, unless it holds a result of it. -/
def startNext (s : State) (gid q : Nat) : State :=
  match s.exe.engOps.find? fun ko => ko.2.gid = gid && ko.2.q = q && !ko.2.started with
  | none => s
  | some (n, _) => if (findGroup s gid).any (engineHolds s · q) then s else modOp s n fun o => { o with started := true }

/-- R272, R274, R279: an operation completes and its result enters the result queue; a killed operation ends at any
time with no result (R437). -/
def execEngineResult (op : Nat) (s : State) : Result :=
  match getOp s op with
  | none => .next s
  | some o =>
    if o.killed then .next (endDrops (removeOp s op) o)
    else if !o.finished || (o.res && !resultRoom s o.gid o.q) then .next s
    else
      let s := engineFault (endDrops (removeOp s op) o) o
      let r : EngResult :=
        { tag := (cw o.words 0).extractLsb' 20 8, failed := o.failed, pc := o.pc, avalid := o.failed, addr := o.failAddr, op := some op }
      let s := if o.res then postResult s o.gid o.q r else s
      .next (startNext s o.gid o.q)

end Sys2Proof.Machine
end

