-- ==== Sys2Proof/Machine/Worklists.lean ====
section
/-!
DEFINITION. Worklists: pops and their selection (R139 to R141, R286), tasks (R147, R287), configuration (R126 to R128),
balancing (R144, R145), wake-up of parked entries (R131), termination (R148 to R151) and status (R152).
-/

namespace Sys2Proof.Machine

/-! ## Selection -/

/-- R140: the current bin of a bucket after one more selection. -/
def BinState.next (b : BinState) (nonempty : Nat → Bool) : BinState :=
  if nonempty b.bin && b.run < 4096 then { b with run := b.run + 1 }
  else match ((List.range 16).map fun k => (b.bin + 1 + k) % 16).find? nonempty with
    | some c => { bin := c, run := 1 }
    | none => b

/-- The oldest of a list of entries. -/
def oldest (l : List QueuedEntry) : Option QueuedEntry :=
  l.foldl (fun m q => match m with | some x => if q.age < x.age then some q else m | none => some q) none

/-- R140: the entry of a bucket that a unit selects: plain and future-fill before range, the oldest first. -/
def Worklist.select (l : Worklist) (u : WLUnit) (b : Nat) : Option (QueuedEntry × BinState) :=
  let here := u.queued.filter fun q => l.bucket q.entry = b
  let bs := (sget ({} : BinState) u.bins b).next fun c => here.any (·.bin = c)
  let inBin := here.filter (·.bin = bs.bin)
  let plain := inBin.filter fun q => entryKind q.entry ≠ 1
  (oldest (if plain.isEmpty then inBin else plain)).map (·, bs)

/-- R141: what a pop receives of a selected entry and what stays queued in its place. -/
def splitRange (e : Entry) : Entry × Option Entry :=
  let n := e.hi - e.lo
  if entryKind e ≠ 1 || n.toNat ≤ 2 ^ (e.ctl.extractLsb' 24 4).toNat then (e, none)
  else
    let mid := e.lo + (n >>> 1)
    ({ e with hi := mid }, some { e with lo := mid })

/-- R139: a unit holds an entry that a pop may take. -/
def Worklist.canTake (l : Worklist) (u : WLUnit) : Bool :=
  match l.lowest u with
  | some b => l.within u b
  | none => false

/-- R142: the entry that a unit's next pop selects is spilled. -/
def Worklist.nextSpilled (l : Worklist) (u : WLUnit) : Bool :=
  ((l.lowest u).bind (l.select u)).any (·.1.spilled)

/-- R139 to R142: a unit hands over an entry; none when it has none to hand over. A spilled one is refilled first; one that leaves at
once needs no room on chip. -/
def servePop (s : State) (ctx list u : Nat) : Option (Entry × State) :=
  let l := getList s ctx list
  let others := othersAt s l u
  let x := if l.nextSpilled (l.unit u) then l.fill (l.unit u) others else l.unit u
  if l.state ≠ 1 || !l.canTake x then none else
  (l.lowest x).bind fun b => (l.select x b).map fun qb =>
    let (q, bs) := qb
    let (e, kept) := splitRange q.entry
    let queued := match kept with
      | some k => x.queued.map fun y => if y = q then { y with entry := k } else y
      | none => x.queued.erase q
    let x' : WLUnit :=
      { x with queued := queued, bins := sput {} x.bins b bs, pushes := if kept.isSome then x.pushes + 1 else x.pushes }
    (e, retryAll (modList s ctx list fun l => l.modUnit u fun _ => l.refill x x' others) u)

/-! ## WLPOP -/

/-- R286: what a pop gives: the entry and true, or four zeros and false. -/
def popWords (e : Option Entry) : List Word × Bool :=
  match e with
  | some e => (entryWords e, true)
  | none => ([0, 0, 0, 0], false)

/-- R459: the result of a pop passes through the log of record mode, register by register; the entry of the first register
also holds the predicate in bit 32 (log entry 27). -/
def logPop (s : State) (g : Group) (tag t order : Nat) (count : Word) (r : List Word × Bool) : Option ((List Word × Bool) × State) :=
  (List.range 4).foldl (fun acc k => acc.bind fun (x : (List Word × Bool) × State) =>
    let v : DWord := DWord.ofHalves (r.1.getD k 0) (if k = 0 then bitW r.2 else 0)
    (receive x.2 tag 2 g.recordId g.id order count (logIndex t k) true ⟨false, v⟩).map fun y =>
      ((x.1.1 ++ [y.1.value.halves.1], if k = 0 then y.1.value.halves.2 ≠ 0 else x.1.2), y.2)) (some (([], r.2), s))

/-- R286: the registers of a pop's result. -/
def popRegs (ds : List Dest) (pred : Dest) (r : List Word × Bool) : List (Dest × Reg) :=
  valueRegs ds r.1 ++ [(pred, { val := bitW r.2 })]

/-- R147, R286: a pop's result arrives: the thread holds a task of the worklist's configuration if it was served. -/
def finishPop (s : State) (p : Pending) (tag list : Nat) (ds : List Dest) (pred : Dest) (r : List Word × Bool) : State :=
  let cfg := (getList s tag list).config
  let s := if r.2 then s.modGroup p.gid fun g => { g with held := sins g.held (taskKey list p.t) cfg } else s
  dropPending (deliver s p.gid (popRegs ds pred r)) p.id

/-- R139, R150, R462: completes a pop, if its unit can serve it now, its worklist is not open, or a replay gives its
result. -/
def completePop (s : State) (p : Pending) (list : Nat) (ds : List Dest) (pred : Dest) : State :=
  match s.group p.gid with
  | none => s
  | some g =>
  match s.wg g.wg with
  | none => s
  | some w =>
    let l := getList s w.ctx list
    match l.units.find? fun ku => ku.2.sleeping.contains p.id with
    | none => s
    | some (u, x) =>
      let wake (s : State) : State :=
        modList s w.ctx list fun l => l.modUnit u fun x => { x with sleeping := x.sleeping.erase p.id }
      let give (s : State) (e : Option Entry) : State :=
        match logPop s g w.ctx p.t p.id p.count (popWords e) with
        | none => logWaits s w.ctx
        | some (r, s') => wake (finishPop s' p w.ctx list ds pred r)
      if l.state ≠ 1 || (s.ctx w.ctx).any (·.rep.status = 1) then give s none
      else if x.sleeping.head? ≠ some p.id then s
      else match servePop s w.ctx list u with
        | none => s
        | some (e, s') =>
          match logPop s' g w.ctx p.t p.id p.count (popWords (some e)) with
          | none => logWaits s w.ctx
          | some (r, s') => wake (finishPop s' p w.ctx list ds pred r)

/-- R286: the pop of one thread arrives at its unit; a worklist that is not open answers at once. -/
def issuePop (h : Here) (list : Nat) (dst pdst : Dst) (acc : Option State) (t : Nat) : Option State :=
  acc.bind fun s =>
    let ds := destsOf h.g h.p dst t
    let pred : Dest := { file := 2, reg := pdst.reg, t := t }
    let s := finishTask s h.g h.w list t
    let s := markEmpty s h.g.id (ds ++ [pred])
    if (getList s h.w.ctx list).state ≠ 1 then
      (logPop s h.g h.w.ctx t s.exe.nextId h.g.retired (popWords none)).map fun r =>
        addPending r.2 h.g.id t h.p.pc (.ready (popRegs ds pred r.1))
    else
      let n := s.exe.nextId
      let s := addPending s h.g.id t h.p.pc (.pop list ds pred)
      some (modList s h.w.ctx list fun l =>
        l.modUnit (unitOf s h.w.quad) fun x => { x with sleeping := x.sleeping ++ [n] })

/-- R135, R136, R286: WLPOP. -/
def execWlpop (d : BitVec 7) (p : BitVec 3) (w : BitVec 4) (s : State) : Result :=
  issuing s fun h =>
    let dst : Dst := { file := .v, reg := d.toNat, n := 4 }
    let pdst : Dst := { file := .p, reg := p.toNat }
    match operandCheck h [] (some dst) true with
    | some r => reject s h (.wlpop d p w) r
    | none =>
      let ths := vecThreads h.g h.p
      if !operandsReady h ths [] (some dst) || !(ths.all fun t => dstFull h.g h.p pdst t.1) ||
          pushesWaiting s h.w h.g.id (ths.map (·.1)) (some w.toNat) then .next (stall s)
      else withCommit (.wlpop d p w) s h false fun s h =>
        let ths := vecThreads h.g h.p
        let ts := (ths.filter (·.2.isNone)).map (·.1)
        -- R135, R147: the pushes that the commit released come before the pop, and before the done of a task that is held
        if pushesWaiting s h.w h.g.id ts (some w.toNat) then .next (stall s) else match ts.foldl (issuePop h w.toNat dst pdst) (some s) with
        | none => .next (waitForLog s h)
        | some s =>
          let toks := ths.filterMap fun t => t.2.map fun k => (t.1, ThreadOut.tok k)
          .next (resetWatchdog (retire (writeAll (writeAll s h dst toks) h pdst toks) h) h.g.id)

/-- R287: WLDONE. -/
def execWldone (w : BitVec 4) (s : State) : Result :=
  issuing s fun h =>
    if !guardFull h.g h.p || pushesWaiting s h.w h.g.id ((vecThreads h.g h.p).map (·.1)) (some w.toNat) then .next (stall s)
    else withCommit (.wldone w) s h false fun s h =>
      let ths := vecThreads h.g h.p
      let ts := (ths.filter (·.2.isNone)).map (·.1)
      -- R147: so do the pushes that the commit released
      if pushesWaiting s h.w h.g.id (ths.map (·.1)) (some w.toNat) then .next (stall s) else
      let s := ts.foldl (fun s t => finishTask s h.g h.w w.toNat t) s
      .next (resetWatchdog (retire (dropped s h.g.id h.p.pc (ths.filterMap (·.2))) h) h.g.id)

/-- R152: the status word of a worklist at a unit. -/
def worklistStatus (l : Worklist) (u : WLUnit) : Word :=
  BitVec.ofNat 2 l.state ++ BitVec.ofBool u.late ++ BitVec.ofBool u.spfull ++ BitVec.ofBool l.armed ++
    BitVec.ofNat 7 u.rejected ++ BitVec.ofNat 20 (min u.owned.length 0xFFFFF)

/-- R152: WLSTAT. -/
def execWlstat (d : BitVec 7) (w : BitVec 4) (s : State) : Result :=
  issuing s fun h =>
    let l := getList s h.w.ctx w.toNat
    let op : AluOp :=
      { unif := true, srcs := [], dst := rDst true d, f := fun _ _ => .words [worklistStatus l (l.unit (unitOf s h.w.quad))] }
    match aluLogged (.wlstat d w) s h op id with
    | .next s' => .next (if s'.ctl.stalled || s'.here.any (·.p.pc = h.p.pc) then s' else resetWatchdog s' h.g.id)
    | r => r

/-! ## WLCFG -/

/-- A unit of this package. -/
def localUnit (s : State) (u : Nat) : Bool := u / 4 = nodeNo s

/-- R126: the units of a domain. -/
def domainUnits (s : State) (ctx : Nat) (fabric : Bool) : List Nat :=
  if fabric then fabricUnits s ctx
  else unitsOf (nodeNo s) (partMask s ((s.ctx ctx).elim 0 (·.part)))

/-- R126: a descriptor with enable set is valid. -/
def descriptorOk (s : State) (ctx : Nat) (ws : List Word) : Bool :=
  let w (k : Nat) : Word := ws.getD k 0
  let fabric := (w 0).getLsbD 29
  (w 0).extractLsb' 0 10 ≠ 0 && (w 0).extractLsb' 10 11 = 0 && (w 0).extractLsb' 26 3 = 0 && w 1 = 0 &&
    (w 2).extractLsb' 0 16 = 0 && (w 3).extractLsb' 23 9 = 0 && w 5 = 0 && w 6 = 0 && w 7 = 0 &&
    (domainUnits s ctx fabric).length ≤ (w 4).toNat && (!fabric || memberHere s ctx)

/-- R151: a unit of a worklist that terminates. A push that still waits is late, and so is one that the unit took after it had given
its counts to the last wave: its entry is not queued, nor counted as pushed. -/
def WLUnit.terminate (x : WLUnit) : WLUnit :=
  let took := x.queued.length + x.parked.length
  let n := x.waiting.length + took
  { x with waiting := [], queued := [], parked := [], pushes := x.pushes - BitVec.ofNat 64 took
           rejected := min (x.rejected + n) 127, late := x.late || n ≠ 0 }

/-- R125, R128: a worklist that is disabled. Pushes that still wait are rejected; sleeping pops return false. -/
def Worklist.disable (l : Worklist) (config : Nat) : Worklist :=
  { config := config, confirm := l.confirm, early := l.early
    units := smapAll l.units fun x => { sleeping := x.sleeping, rejected := min x.waiting.length 127 } }

/-- R150, R151: a worklist that is terminated. -/
def Worklist.terminate (l : Worklist) : Worklist :=
  { l with state := 2, wave := none, waveAsked := [], remoteSums := [], units := smapAll l.units (·.terminate) }

/-- R128: the number of the next configuration of a worklist: above every earlier one, and no other package's. -/
def nextConfig (s : State) (l : Worklist) : Nat := (l.config / 4096 + 1) * 4096 + nodeNo s

/-- R126 to R128: this package's units take a configuration. The room that the discarded entries leave is free; pushes that
wait are made to the new configuration, and pops that sleep sleep on for it: the model's choice (log entry 68). -/
def takeConfig (s : State) (ctx list config : Nat) (ws : List Word) : State :=
  let w (k : Nat) : Word := ws.getD k 0
  let old := getList s ctx list
  let mine := (skeys old.units).filter (localUnit s ·)
  let fabric := (w 0).getLsbD 29
  let s := modList s ctx list fun l =>
    if !(w 0).getLsbD 31 then l.disable config
    else
      { state := 1, armed := (w 0).getLsbD 30, fabric := fabric, shift := ((w 0).extractLsb' 21 5).toNat
        bound := ((w 0).extractLsb' 0 10).toNat, spbase := DWord.ofHalves (w 2) (w 3), spsize := (w 4).toNat
        config := config, confirm := l.confirm, early := l.early
        units := (domainUnits s ctx fabric).foldl (fun m u => sins m u { sleeping := (l.unit u).sleeping }) [] }
  let again (s : State) (u : Nat) : State :=
    retryAll ((if (w 0).getLsbD 31 then (old.unit u).waiting else []).foldl (fun s x => pushEntry s ctx list u x) s) u
  mine.foldl again s

/-- R126 to R128, R287: applies a descriptor: 0 applied, 1 invalid. The other packages of the old and of the new domain are
told. -/
def configure (s : State) (ctx list : Nat) (ws : List Word) : Nat × State :=
  let on := (ws.getD 0 0).getLsbD 31
  let ok := !on || descriptorOk s ctx ws
  let l := getList s ctx list
  let ws' := if ok then ws else []
  let config := nextConfig s l
  let old := otherNodes s l
  let s := takeConfig s ctx list config ws'
  let new := otherNodes s (getList s ctx list)
  let told := (old ++ new).eraseDups
  let s := modList s ctx list fun l => { l with confirm := told }
  let s := told.foldl (fun s n => sendList s ctx list n (.configure (nodeNo s) (if new.contains n then ws' else []))) s
  (if ok then 0 else 1, s)

/-- What the read of a descriptor finds: its words, a failure, or, after some words, a place on another package. -/
inductive ConfigRead where
  | words (ws : List Word)
  | failed (f : Fresh)
  | remote (ws : List Word) (chord node pa : Nat)
  deriving DecidableEq, Repr

/-- One more word before what the rest of a read finds. -/
def ConfigRead.after (w : Word) : ConfigRead → ConfigRead
  | .words ws => .words (w :: ws)
  | .failed f => .failed f
  | .remote ws c n p => .remote (w :: ws) c n p

/-- R255, R287: reads the last `n` of the eight words of a descriptor, as far as they lie in this package. Its address is aligned
to 4 bytes: the model's choice (log entry 68). -/
def readDescriptor (h : Here) (t : Nat) (va : DWord) : Nat → State → ConfigRead × State
  | 0, s => (.words [], s)
  | n + 1, s =>
    let a := va + BitVec.ofNat 64 (4 * (7 - n))
    match checkAccess s h t false {} 4 4 a with
    | (.loc pa, s) =>
      match readOne s (some h.w.ctx) ((s.ctx h.w.ctx).elim 0 (·.part)) (execAgents h true t) pa with
      | ((w, none), s) => ((readDescriptor h t va n s).1.after w, (readDescriptor h t va n s).2)
      | ((_, some (c, o)), s) => (.failed { t := t, cause := c, addr := some a, gorigin := o }, s)
    | (.remote c node pa, s) => (.remote [] c node pa, s)
    | (.fresh f, s) => (.failed f, s)
    | (.tok _, s) => (.words [], s)

/-- R287: WLCFG is done: sd says how. -/
def configDone (s : State) (h : Here) (t : Nat) (dst : Dst) (n : Word) : Result :=
  let s := s.modGroup h.g.id fun g => { g with gotten := sdel (sdel g.gotten t) (t + 128) }
  .next (resetWatchdog (retire (writeAll s h dst [(t, .words [n])]) h) h.g.id)

/-- R255, R287: a descriptor that was read is applied; a failing read makes a record. While other packages must still take the
configuration the path waits, and the outcome is kept. -/
def configApply (s : State) (h : Here) (t list : Nat) (dst : Dst) (r : Sum Fresh (List Word)) : Result :=
  match r with
  | .inl f => configDone (newRecord s h.g.id h.p.pc (h.g.span.opened.getLsbD t) f 1).2 h t dst 2
  | .inr ws =>
    let (n, s) := configure s h.w.ctx list ws
    if (getList s h.w.ctx list).confirm.isEmpty then configDone s h t dst (BitVec.ofNat 32 n)
    else
      let s := s.modGroup h.g.id fun g => { g with gotten := sins g.gotten (t + 128) ([BitVec.ofNat 32 n], none) }
      .next (s.modPath h fun p => { p with park := .waiting })

/-- R287: WLCFG with a clean address. Words of the descriptor on another package are asked for; the path parks until the reply
has come, and goes on with what it has. -/
def configIssue (h : Here) (t list : Nat) (dst : Dst) (va : DWord) (s : State) : Result :=
  match sfind h.g.gotten (t + 128) with
  | some x =>
    if (getList s h.w.ctx list).confirm.isEmpty then configDone s h t dst (x.1.headD 0) else .next (stallParked s h)
  | none =>
  if s.exe.pendings.any fun kp => kp.2.gid = h.g.id && kp.2.t = t && match kp.2.what with
      | .remote (.config _) _ _ _ _ => true
      | _ => false
  then .next (stallParked s h)
  else
    let (ws, bad) := (sfind h.g.gotten t).getD ([], none)
    match bad with
    | some (c, o) =>
      configApply s h t list dst
        (.inl { t := t, cause := c, addr := some (va + BitVec.ofNat 64 (4 * ws.length)), gorigin := o })
    | none =>
      match readDescriptor h t va (8 - ws.length) s with
      | (.words more, s) => configApply s h t list dst (.inr (ws ++ more))
      | (.failed f, s) => configApply s h t list dst (.inl f)
      | (.remote more c node pa, s) =>
        let ws := ws ++ more
        let len := 4 * min (8 - ws.length) ((256 - pa % 256) / 4)
        let at' := va + BitVec.ofNat 64 (4 * ws.length)
        let n := s.exe.nextId
        let s := s.modGroup h.g.id fun g => { g with gotten := sins g.gotten t (ws, none) }
        let s := addPending s h.g.id t h.p.pc (.remote (.config list) at' c (getChord s c).nextTag.toNat [])
        .next ((sendRequest s c node h.w.ctx 1 0 0 0 pa at' len [] [] 0 [n]).modPath h fun p => { p with park := .waiting })

/-- R287, R456: WLCFG. With a span open it acts at once (log entry 70). -/
def execWlcfg (d : BitVec 7) (ea : Bool) (a : BitVec 7) (w : BitVec 4) (s : State) : Result :=
  issuing s fun h =>
    let src := rSrc true a ea 2
    let dst := rDst true d
    if !privileged s h.w then reject s h (.wlcfg d ea a w) 6
    else if !operandsReady h (uniThreads h.g h.p) [src] (some dst) then .next (stall s)
    else
      let give (t : Nat) (o : ThreadOut) : Result :=
        let (outs, s) := settle s h [(t, o)]
        .next (resetWatchdog (retire (writeAll s h dst outs) h) h.g.id)
      match uniThreads h.g h.p with
      | [] => .next (resetWatchdog (retire s h) h.g.id)
      | (t, some k) :: _ =>
        .next (resetWatchdog (retire (dropped (writeAll s h dst [(t, .tok k)]) h.g.id h.p.pc [k]) h) h.g.id)
      | (t, none) :: _ => match readSrc h.g h.p src t with
        | .poison k => give t (.tok k)
        | .empty => give t (.fresh (emptyRead h.g h.p src t))
        | .words ws =>
          watchRetired h (watchHit s h.w.ctx false 32 [(t, pairOf ws)]) (configIssue h t w.toNat dst (pairOf ws) s)

/-! ## Balancing -/

/-- R138, R144, R145: a unit learns another's summary and the floor that it asks for, and may ask every unit again. -/
def learn (s : State) (ctx list source target : Nat) (x : Option Nat × Nat) (asking : Option Nat) : State :=
  modList s ctx list fun l => l.modUnit target fun u =>
    ({ u with seen := sins u.seen source x, asked := [] }).lower source asking

/-- R144: a summary is due: the lowest bucket has changed, or the count of its entries has crossed a multiple of 64. Nothing
queued has no lowest bucket. -/
def summaryDue (last : Option (Option Nat × Nat)) (x : Option Nat × Nat) : Bool :=
  match last with
  | none => x.1.isSome
  | some y => y.1 ≠ x.1 || y.2 / 64 ≠ x.2 / 64

/-- R136, R144: a unit's summary arrives at another unit, or leaves for another package, when it is due, or when the floor that
the unit asks for has changed. -/
def execWorklistOccupancySummary (ctx list source target : Nat) (s : State) : Result :=
  let l := getList s ctx list
  let has (u : Nat) : Bool := (sfind l.units u).isSome
  let x := l.summary (l.unit source)
  if l.state ≠ 1 || source = target || !has source || !has target || !localUnit s source then .next s
  else if !summaryDue (sfind (l.unit target).seen source) x && sfind (l.unit target).lowered source = l.asks source then .next s
  else if localUnit s target then .next (learn s ctx list source target x (l.asks source))
  else .next (sendSummary s ctx list source (target / 4))

/-- R145: the entries of a bucket in the order in which a victim gives them up: the bin that its pops would reach last
first, the newest first. -/
def giveOrder (l : Worklist) (u : WLUnit) (b : Nat) : List QueuedEntry :=
  let cur := (sget ({} : BinState) u.bins b).bin
  let here := u.queued.filter fun q => l.bucket q.entry = b
  ((List.range 16).map fun k => (cur + 15 - k) % 16).flatMap fun c =>
    (sortBy (fun x y => y.age ≤ x.age) (here.filter (·.bin = c)))

/-- R145: what a victim hands over. -/
def stealFrom (l : Worklist) (u : WLUnit) : List QueuedEntry :=
  match l.lowest u with
  | none => []
  | some b =>
    let n := (u.queued.filter fun q => l.bucket q.entry = b).length
    (giveOrder l u b).take (min ((n + 1) / 2) 1024)

/-- R133, R145: an entry moves from a victim to a thief of this package, where there is room. -/
def moveEntry (ctx list thief victim : Nat) (s : State) (q : QueuedEntry) : State :=
  let l := getList s ctx list
  match l.place (l.unit thief) (othersAt s l thief) { q with spilled := false } with
  | none => s
  | some x =>
    modList s ctx list fun l => (l.modUnit thief fun _ => x).modUnit victim fun v => { v with queued := v.queued.erase q }

/-- R145: the unit that a thief asks next: the lowest bucket seen, then the lowest name. -/
def nextVictim (u : WLUnit) (thief : Nat) : Option Nat :=
  (u.seen.foldl (fun (m : Option (Nat × Nat)) x =>
    match x.2.1 with
    | none => m
    | some b =>
      if x.1 = thief || u.asked.contains x.1 then m
      else match m with
        | none => some (b, x.1)
        | some y => if b < y.1 then some (b, x.1) else m) none).map (·.2)

/-- R145: a thief's request reaches a victim, which answers. While the answer of another package is awaited no other unit is
asked. -/
def execWorklistStealRequest (ctx list thief victim : Nat) (s : State) : Result :=
  let l := getList s ctx list
  let x := l.unit thief
  if l.state ≠ 1 || !localUnit s thief || x.sleeping.isEmpty || x.stealing.isSome || !x.arriving.isEmpty || l.canTake x ||
      nextVictim x thief ≠ some victim then .next s
  else if localUnit s victim then
    match stealFrom l (l.unit victim) with
    | [] => .next (modList s ctx list fun l => l.modUnit thief fun u => { u with asked := victim :: u.asked })
    | qs =>
      let before := l.unit victim
      let s := qs.foldl (moveEntry ctx list thief victim) s
      .next (retryAll (modList s ctx list fun l =>
        (l.modUnit thief fun u => { u with asked := [] }).modUnit victim fun v => l.refill before v (othersAt s l victim)) victim)
  else
    let s := modList s ctx list fun l => l.modUnit thief fun u => { u with stealing := some victim }
    .next (sendList s ctx list (victim / 4) (.stealRequest thief victim))

/-- Cuts a list into pieces of at most `n`. -/
def pieces {α : Type} (n : Nat) : Nat → List α → List (List α)
  | 0, _ => []
  | _, [] => []
  | k + 1, l => l.take n :: pieces n k (l.drop n)

/-- R133, R140, R145: answers a steal request of another package, 10 entries in a message, the oldest first, as they age at the
thief in the order of their coming; an empty answer has none. The entries stay the victim's, in transit, until the thief has them. -/
def answerSteal (s : State) (ctx list thief victim : Nat) : State :=
  let l := getList s ctx list
  let qs := sortBy (fun a b => a.age ≤ b.age) (if localUnit s victim then stealFrom l (l.unit victim) else [])
  let before := l.unit victim
  let send (s : State) (es : List QueuedEntry) : State :=
    let n := s.exe.nextId
    let s := sendList s ctx list (thief / 4) (.stealReply thief victim (es.map (·.entry)))
    modList s ctx list fun l => l.modUnit victim fun v =>
      { v with queued := v.queued.filter fun q => !es.contains q, transit := v.transit ++ es.map (n, ·) }
  if qs.isEmpty then send s []
  else
    let s := (pieces 10 103 qs).foldl send s
    modList s ctx list fun l => l.modUnit victim fun v => l.refill before v (othersAt s l victim)

/-- R145: the answer to a thief. With no entry the thief may ask the next unit. -/
def takeReply (s : State) (ctx list thief victim serial : Nat) (es : List Entry) : State :=
  if es.isEmpty then
    modList s ctx list fun l => l.modUnit thief fun u => { u with stealing := none, asked := victim :: u.asked }
  else
    retryRoom (modList s ctx list fun l => l.modUnit thief fun u =>
      { u with stealing := none, asked := [], arriving := u.arriving ++ [(serial, victim, es)] }) ctx list thief

/-- R133: the thief has the entries of a reply: they leave the victim, and the room that they took is free. -/
def stealTaken (s : State) (ctx list victim serial : Nat) : State :=
  retryAll (modList s ctx list fun l => l.modUnit victim fun v => { v with transit := v.transit.filter (·.1 ≠ serial) }) victim

/-- R138: a thief tells the victims of the replies that it has taken, once its summary has reached every other package. -/
def confirmTaken (s : State) (ctx list u : Nat) : State :=
  let reached (s : State) (x : Nat × Nat × List (Nat × Nat)) : Bool :=
    x.2.2.all fun y => !(sget [] s.host.unconfirmed y.1).any (·.1 = y.2)
  let l := getList s ctx list
  let done := (l.unit u).taken.filter (reached s)
  let s := modList s ctx list fun l => l.modUnit u fun x => { x with taken := x.taken.filter fun y => !done.contains y }
  done.foldl (fun s x => sendList s ctx list (x.2.1 / 4) (.stealTaken x.2.1 x.1)) s

/-! ## Floors, futures, termination -/

/-- R136, R138: a unit of this package acknowledges the urgent pushes that wait at other units, and tells the victims of its
steals. -/
def execFloorAcknowledgement (ctx list unit : Nat) (s : State) : Result :=
  if !localUnit s unit then .next s
  else .next ((skeys (getList s ctx list).units).foldl (fun s u =>
    if u = unit || !localUnit s u then s else acknowledge s ctx list u unit) (confirmTaken s ctx list unit))

/-- R131: the units of another package are told that a cell that they watch here was filled. -/
def tellFilled (s : State) (ctx list unit : Nat) : State :=
  let due := s.host.watches.filter fun x => x.filled && x.ctx = ctx && x.list = list && x.unit = unit
  let s := { s with host := { s.host with watches := s.host.watches.filter fun x => !due.contains x } }
  due.foldl (fun s x => sendMessage s (unit / 4) ctx (.list ctx list x.config (.cellState unit (nodeNo s) x.cell 1))) s

/-- R131, R143: the parked entries of a unit whose cells were filled are queued, as far as there is room; the pushes that
wait for the room they leave try again. -/
def execFutureFillWake (ctx list unit : Nat) (s : State) : Result :=
  if !localUnit s unit then .next (tellFilled s ctx list unit) else
  let woken := ((getList s ctx list).unit unit).parked.filter (·.woken)
  if woken.isEmpty then .next s
  else
    .next (retryAll (woken.foldl (fun s e =>
      let s' := modList s ctx list fun l => l.modUnit unit fun u => { u with parked := u.parked.erase e }
      match enqueue s' ctx list unit e.entry with
      | some s'' => modList s'' ctx list fun l => l.modUnit unit fun u => { u with pushes := u.pushes - 1 }
      | none => s) s) unit)

/-- R149: the push and done counts of the units of this package. -/
def localSums (s : State) (l : Worklist) : DWord × DWord :=
  (l.units.filter fun ku => localUnit s ku.1).foldl (fun a ku => (a.1 + ku.2.pushes, a.2 + ku.2.dones)) (0, 0)

/-- R150: the unit that leads waves. -/
def Worklist.leader (l : Worklist) : Option Nat := leastBucket (skeys l.units)

/-- R150: a wave of an armed worklist: it asks the other packages for their sums, and with all sums at hand terminates the
worklist when they equal those of the wave before and pushes equal dones. -/
def execTerminationWave (ctx list : Nat) (s : State) : Result :=
  let l := getList s ctx list
  if l.state ≠ 1 || !l.armed || !l.leader.any (localUnit s ·) then .next s
  else
    let others := otherNodes s l
    if others.any fun n => (sfind l.remoteSums n).isNone then
      let due := others.filter fun n => !l.waveAsked.contains n
      let s := modList s ctx list fun l => { l with waveAsked := l.waveAsked ++ due }
      .next (due.foldl (fun s n => sendList s ctx list n (.waveRead (l.leader.getD 0))) s)
    else
      let sums := l.remoteSums.foldl (fun (a : DWord × DWord) x => (a.1 + x.2.1, a.2 + x.2.2)) (localSums s l)
      if l.wave = some sums && sums.1 = sums.2 then
        .next (tellOthers (modList s ctx list (·.terminate)) ctx list .terminated)
      else .next (modList s ctx list fun l => { l with wave := some sums, waveAsked := [], remoteSums := [] })

end Sys2Proof.Machine
end

