-- ==== Sys2Proof/Machine/Delivery.lean ====
section
/-!
DEFINITION. Events of a group: results arrive (R160), replay after service (R62), regrouping (R14, R15), the exit of a group
(R191), the watchdog (R36) and the end of a PAUSE (R210).
-/

namespace Sys2Proof.Machine

/-! ## Results of reads -/

/-- A result in flight, if it exists. -/
def getPending (s : State) (n : Nat) : Option Pending := sfind s.exe.pendings n

/-- The context of a group, resident. -/
def ctxOf (s : State) (gid : Nat) : Option Nat := ((s.group gid).bind fun g => s.wg g.wg).map (·.ctx)

/-- R43, R256: the access that a result in flight is for is a write-type effect: that of a returning atomic. -/
def Delivery.writes : Delivery → Bool
  | .access (.atomicRet _) _ _ _ _ => true
  | .remote (.atomicRet _) _ _ _ _ => true
  | _ => false

/-- R160, R459: a read's value or poison reaches its destination, through the log of record mode. `kind` is 1 for a load,
which is logged only when the word is foreign or poisoned, and 2 for a returned value. None: the log has no room. -/
def finishRead (s : State) (p : Pending) (kind : Nat) (foreign : Bool) (out : Sum Fresh (List Word)) (ds : List Dest) :
    Option State :=
  match s.group p.gid, ctxOf s p.gid with
  | some g, some tag =>
    let give (s : State) (rs : List (Dest × Reg)) : State := dropPending (deliver s p.gid rs) p.id
    let va : Option DWord := match p.what with
      | .access _ va _ _ _ => some va
      | .remote _ va _ _ _ => some va
      | _ => none
    let r : Receiver := ⟨tag, kind, g.recordId, g.id, p.id, p.count, logIndex p.t 0⟩
    (throughLog s r foreign ds.length { t := p.t, cause := 0, addr := va } out).map fun (out, s) => match out with
      | .inl f =>
        let (k, s) := newRecord s p.gid p.pc (g.span.opened.getLsbD p.t) { f with write := p.what.writes, inst := some p.count } 1
        give s (poisonRegs ds k)
      | .inr ws => give s (valueRegs ds ws)
  | _, _ => some (dropPending s p.id)

/-- The agents of a load that touch a word: those of the executions of one instruction that wait for the same line. -/
def siblingReaders (sibs : List Pending) (wa : Nat) : List Nat :=
  (sibs.flatMap fun p => match p.what with
    | .access (.load _ _ ags _) _ pa size _ => if pa < wa + 4 && wa < pa + size then ags else []
    | _ => []).eraseDups

/-- R78, R87: an access at its home must wait on. A push and a QW act on their group, which must be resident. -/
def Pending.waits (p : Pending) (s : State) : Bool :=
  match p.what with
  | .access (.eff e) _ _ _ _ => e.blocked s p.id || (!e.flat && (s.group e.gid).isNone)
  | .access _ va pa _ _ => lineBlocked s p.gid va pa p.id
  | _ => false

/-- R78, R83, R257: performs one access that waited at its home, unless it must wait on. -/
def performAccess (sibs : List Pending) (c : Reads) (p : Pending) : Reads :=
  match p.what with
  | .access k va pa size ds =>
    if p.waits c.2 then c else
    let w := (c.2.group p.gid).bind fun g => c.2.wg g.wg
    let ctx := w.elim 0 (·.ctx)
    let part := (c.2.ctx ctx).elim 0 (·.part)
    match k with
    | .load conv const ags held =>
      let floor := w.bind fun w => constFloor c.2 w const
      let foreign := (List.range ((size + 3) / 4)).any fun j => foreignWord c.2.mem p.gid (pa / 4 * 4 + 4 * j)
      let (r, c') := loadNow c ctx part floor (siblingReaders sibs) pa size conv held
      let out : Sum Fresh (List Word) := match r with
        | .inr ws => .inr ws
        | .inl (cause, o) => .inl { t := p.t, cause := cause, addr := some va, gorigin := o }
      let s' := match r, w with
        | .inr ws, some w => joinLoad c'.2 w ags pa size ws
        | _, _ => c'.2
      match finishRead s' p 1 foreign out ds with
      | some s => (c'.1, s)
      | none => (c.1, logWaits c.2 ctx)
    | .fread ags =>
      let (out, s) := freadNow c.2 ctx part ags p.t pa va
      match finishRead s p 2 true out ds with
      | some s => (c.1, s)
      | none => (c.1, logWaits c.2 ctx)
    | .eff e =>
      match (if e.flat then noteWrite c.2 e.ctx (some e.core) e.va e.pa else some c.2) with
      | none => c
      | some s => ([], dropPending (performLocal s e) p.id)
    | .atomicRet e =>
      match e.kind, noteWrite c.2 e.ctx (some e.core) e.va e.pa with
      | .atomic op wide signed, some s =>
        let (out, s) := atomicReply s e op wide signed
        match finishRead s p 2 true out ds with
        | some s => ([], s)
        | none => (c.1, logWaits c.2 ctx)
      | _, _ => c
    | _ => c
  | _ => c

/-- The accesses of one instruction that wait for one line, in ascending t (R83). -/
def siblings (s : State) (p : Pending) : List Pending :=
  match p.what with
  | .access _ _ pa _ _ =>
    (s.exe.pendings.map (·.2)).filter fun q => q.gid = p.gid && q.pc = p.pc && q.count = p.count && match q.what with
      | .access _ _ pa' _ _ => lineOf pa' = lineOf pa
      | _ => false
  | _ => []

/-- R272, R274: the oldest QR of a queue receives the oldest result; a held result takes its place. -/
def completeResult (s : State) (p : Pending) (q : Nat) (dst : Dest) (ags : List Nat) : State :=
  match s.group p.gid with
  | none => s
  | some g =>
    let first := s.exe.pendings.find? fun kp => kp.2.gid = p.gid && match kp.2.what with
      | .result q' _ _ => q' / 2 = q / 2
      | _ => false
    match (g.queue q).results with
    | [] => s
    | r :: rest =>
      if first.any (·.1 ≠ p.id) then s
      else
        let s' := s.modGroup p.gid fun g => g.modQueue q fun u =>
          { u with results := rest ++ u.held.take 1, held := u.held.drop 1 }
        let s' := startNext s' p.gid (q / 2 * 2)
        let s' := match r.op with | some n => joinOp s' ags n | none => s'
        let addr : Option DWord := if r.avalid then some (r.addr.setWidth 64) else none
        let out : Sum Fresh (List Word) :=
          if r.failed then .inl { t := p.t, cause := causeEngine, addr := addr } else .inr [r.tag.setWidth 32 <<< 24]
        (finishRead s' { p with pc := if r.failed then r.pc else p.pc } 2 true out [dst]).getD (logWaits s ((ctxOf s p.gid).getD 0))

/-- R160: a long-latency result arrives, if it can. A result from another package comes as a packet instead. -/
def execLongLatencyComplete (pending : Nat) (s : State) : Result :=
  match getPending s pending with
  | none => .next s
  | some p =>
    match p.what with
    | .ready rs => .next (dropPending (deliver s p.gid rs) pending)
    | .access _ _ _ _ _ =>
      if p.waits s then .next s
      else
        let sibs := siblings s p
        let s' := (sibs.foldl (performAccess sibs) (([], s) : Reads)).2
        -- R83, R257: what one instruction does to a word stays together: all of its accesses or none
        .next (if sibs.any fun q => (getPending s' q.id).isSome then logWaits s ((ctxOf s p.gid).getD 0) else s')
    | .remote _ _ _ _ _ => .next s
    | .result q dst ags => .next (completeResult s p q dst ags)
    | .pop list ds pred => .next (completePop s p list ds pred)

/-! ## Replay -/

/-- R65, R394: a group goes on by itself. -/
def Group.live (g : Group) : Bool := g.stop = .none || g.stop = .stepping

/-- R62: the cells on another package that a service waits for and that are not known to be full yet. -/
def farServices (g : Group) : List (Nat × DWord × Nat × Nat × Nat) :=
  g.span.serving.flatMap fun x => x.2.services.filterMap fun y => match y.2 with
    | .farCell va c n pa => if g.cells.any (·.1 = va) then none else some (y.1, va, c, n, pa)
    | _ => none

/-- R62: the threads of a service whose cell on another package could not be looked at. -/
def farFailed (g : Group) (x : Serving) : Mask :=
  maskOf fun t => x.services.any fun y => y.1 = t && match y.2 with
    | .farCell va _ _ _ => g.cells.any fun z => z.1 = va && !z.2
    | _ => false

/-- R178, R183, R185: the split that a COMMIT needs after its services finds no stack entry: the word that commits fails check 7. -/
def noStackRoom (s : State) (gid pid : Nat) : State :=
  let s := s.modGroup gid fun g => { g with span := { g.span with serving := sdel g.span.serving pid } }
  match hereOf s gid pid with
  | none => s
  | some h => match fetchWord s h with
    | (.word w, s) => illegal s h w 7
    | (_, s) => illegal s h 0 7

/-- R62: the services of a path are over: its threads replay. A cell on another package is looked at there. -/
def execSpanReplay (group : Nat) (s : State) : Result :=
  match s.group group with
  | none => .next s
  | some g =>
    if !g.live then .next s
    else match g.span.serving.find? fun x => x.2.services.all fun y => serviceDone s g y.2 with
      | none =>
        let tag := (ctxOf s group).getD 0
        .next ((farServices g).foldl (fun s x => pollCell s group tag x.1 0 x.2.1 x.2.2.1 x.2.2.2.1 x.2.2.2.2) s)
      | some (pid, x) =>
        let mine (va : DWord) : Bool := x.services.any fun y => match y.2 with | .farCell a _ _ _ => a = va | _ => false
        let s := s.modGroup group fun g => { g with cells := g.cells.filter fun z => !mine z.1 }
        let t := replay s group pid { x with failed := x.failed ||| farFailed g x }
        if stackFits s t group then .next t else .next (noStackRoom s group pid)

/-! ## Regrouping -/

/-- R14: the participants of a REGROUP, by position. -/
def participants (s : State) (wg role : Nat) : List Group :=
  sortBy (fun a b => a.pos ≤ b.pos) ((s.exe.groups.map (·.2)).filter fun g => g.wg = wg && g.role = role && g.exited ≠ BitVec.allOnes 128)

/-- The threads with a true predicate at the REGROUP where a group waits. -/
def regroupMask (g : Group) : Option Mask :=
  match g.paths with
  | [(_, p)] => match p.park with | .regroup t => some t | _ => none
  | _ => none

/-- R14: a thread has no empty register. -/
def noEmpty (g : Group) (t : Nat) : Bool :=
  (g.v.all fun kr => kr.1 % 128 ≠ t || kr.2.full) && (g.p.all fun kr => kr.1 % 128 ≠ t || kr.2.full)

/-- R14, R78: the waits of a REGROUP are over. Writes and pushes that are not performed, and tasks of threads that have left, are
waited for as well, which only takes time. -/
def regroupReady (s : State) (gs : List Group) : Bool :=
  gs.all fun g => (regroupMask g).isSome && !(g.held.any fun kh => g.exited.getLsbD (kh.1 % 128)) &&
    let ts := threadsOf ((g.paths.head?).elim (0 : Mask) (·.2.mask))
    (ts.all fun t => noEmpty g t) && !(s.exe.pendings.any fun kp => kp.2.gid = g.id && ts.contains kp.2.t) &&
      (s.wg g.wg).all fun w => !pushesWaiting s w g.id ts none

/-- R15: for a home lane, the threads (group, t) in their order: predicate true first, then by position and quarter. -/
def laneOrder (gs : List Group) (l : Nat) : List (Group × Nat) :=
  let slots := gs.flatMap fun g => (List.range 4).map fun q => (g, 32 * q + l)
  let active (x : Group × Nat) : Bool := ((x.1.paths.head?).elim (0 : Mask) (·.2.mask)).getLsbD x.2
  let yes (x : Group × Nat) : Bool := ((regroupMask x.1).getD 0).getLsbD x.2
  ((slots.filter active).filter yes) ++ ((slots.filter active).filter fun x => !yes x)

/-- R15: which thread each slot (group, t) receives. -/
def moves (gs : List Group) : List ((Nat × Nat) × (Group × Nat)) :=
  (List.range 32).flatMap fun l =>
    let slots := gs.flatMap fun g => (List.range 4).map fun q => (g.id, 32 * q + l)
    slots.zip (laneOrder gs l)

/-- One bit of a mask as a thread's own. -/
def bitFrom (old : Mask) (src : Nat) (dst : Nat) : Mask := if old.getLsbD src then 1#128 <<< dst else 0

/-- R15: what a thread carries, moved from `(o, u)` into thread `t` of `g`. -/
def carry (g o : Group) (u t : Nat) : Group :=
  let at' {α : Type} (m : SMap α) : SMap α := (m.filter fun kr => kr.1 % 128 = u).map fun kr => (kr.1 / 128 * 128 + t, kr.2)
  let add {α : Type} (m : SMap α) (x : SMap α) : SMap α := x.foldr (fun kr m => sins m kr.1 kr.2) m
  let sp := g.span
  let os := o.span
  let key {α : Type} (m n : SMap α) : SMap α := match sfind n u with | some y => sins m t y | none => m
  { g with
    v := add g.v (at' o.v), p := add g.p (at' o.p), x := add g.x (at' o.x), coord := add g.coord (at' o.coord)
    held := add g.held (at' o.held)
    span := { sp with
      opened := sp.opened ||| bitFrom os.opened u t, live := sp.live ||| bitFrom os.live u t
      unserv := sp.unserv ||| bitFrom os.unserv u t, first := key sp.first os.first, replays := key sp.replays os.replays
      poisons := sp.poisons ++ (os.poisons.filter (·.t = u)).map fun y => { y with t := t } } }

/-- R15: a participant after the redistribution: the threads that it receives, at the word after the REGROUP. -/
def regrouped (g : Group) (mine : List (Nat × Group × Nat)) : Group :=
  let sp := g.span
  let empty : Group :=
    { g with v := [], p := [], x := [], coord := [], held := []
             span := { sp with opened := 0, live := 0, unserv := 0, first := [], replays := [], poisons := [] } }
  let g' := mine.foldl (fun g x => carry g x.2.1 x.2.2 x.1) empty
  let m := maskOf fun t => mine.any (·.1 = t)
  { g' with
    exited := ~~~m
    retired := g.retired + 1
    paths := if m = 0 then [] else smapAll g.paths fun p => { p with mask := m, pc := nextPc p.pc, park := .running } }

/-- R15, R101: redistributes the threads of the participants; what a thread has seen moves with it. -/
def redistribute (s : State) (gs : List Group) : State :=
  let mv := moves gs
  let views := mv.flatMap fun x =>
    let (new, old) := (agentOf x.1.1 x.1.2, agentOf x.2.1.id x.2.2)
    [(new, floorsOf s.mem old), (constAgent new, floorsOf s.mem (constAgent old))]
  let s := gs.foldl (fun s g =>
    s.setGroup (regrouped g ((mv.filter (·.1.1 = g.id)).map fun x => (x.1.2, x.2)))) s
  let named (a : Nat) : Nat := ((mv.find? fun x => agentOf x.2.1.id x.2.2 = a).map fun x => agentOf x.1.1 x.1.2).getD a
  let ops := smapAll s.exe.engOps fun o => { o with forkers := o.forkers.map named }
  { s with exe := { s.exe with engOps := ops }, mem := { s.mem with views := views.foldl (fun m x => sput [] m x.1 x.2) s.mem.views } }

/-- R15: REGROUP's redistribution, once every participant has arrived and no register is empty. With one participant no
thread moves. A participant without threads exits. -/
def execRegroupRedistribute (workgroup role : Nat) (s : State) : Result :=
  let gs := participants s workgroup role
  if gs.isEmpty || !regroupReady s gs || !(gs.all (·.live)) then .next s
  else if gs.length = 1 then
    .next (gs.foldl (fun s g => s.modGroup g.id fun g =>
      { g with retired := g.retired + 1, paths := smapAll g.paths fun p => { p with pc := nextPc p.pc, park := .running } }) s)
  else
    let s' := redistribute s gs
    let s' := gs.foldl (fun s g =>
      match s.group g.id with
      | some g' => if g'.paths.isEmpty then
          trace s g.id 3 g'.retired ((g.paths.head?).elim 0 (·.2.pc)) ((g.paths.head?).elim 0 (·.2.mask)) else s
      | none => s) s'
    .next (completeAll s' workgroup)

/-! ## Exit -/

/-- R191: a long-latency producer of a group is outstanding. -/
def producerWaiting (s : State) (g : Group) : Bool :=
  g.fetch.isSome || (s.exe.pendings.any fun kp => kp.2.gid = g.id && match kp.2.what with
    | .access (.eff e) _ _ _ _ => !e.flat
    | .remote (.eff _) _ _ _ _ => false
    | .remote .poll _ _ _ _ => false
    | _ => true) || (s.wg g.wg).any fun w => w.tiles.any fun kt => kt.2.ops.any (·.gid = g.id)

/-- R191: the scratchpad of a workgroup that has ended is free. -/
def freeScratch (m : MemSys) (w : WG) : MemSys :=
  let mine (a : Nat) : Bool := w.scratchBase ≤ a && a < w.scratchBase + 0x100000
  { m with
    bytes := m.bytes.filter fun x => !mine x.1
    marks := m.marks.filter fun x => !mine (x.1 * 128)
    ecc := m.ecc.filter fun x => !mine x.1
    writes := m.writes.filter fun x => !mine x.loc }

/-- R191: a group whose threads have all exited leaves: its records, its monitor, its barriers and its slot are free; with
the last group of the workgroup its scratchpad, tiles and registers are. -/
def execGroupExitComplete (group : Nat) (s : State) : Result :=
  match s.group group with
  | none => .next s
  | some g =>
    if g.exited ≠ BitVec.allOnes 128 || producerWaiting s g || !g.held.isEmpty then .next s
    else
      let s := completeAll (freeRecords s [group]) g.wg
      let s := s.modWg g.wg fun w => { w with arrivals := w.arrivals.filter (·.gid ≠ group) }
      let s := s.withGroups (sdel s.exe.groups group)
      if s.exe.groups.any (·.2.wg = g.wg) then .next s
      else match s.wg g.wg with
        | none => .next s
        | some w => .next { s with exe := { s.exe with wgs := sdel s.exe.wgs g.wg }, mem := freeScratch s.mem w }

/-! ## The watchdog -/

/-- R37: the watchdog threshold of a context; none while it is disabled. -/
def wdogThreshold (c : Context) : Option Nat :=
  if c.wdogCtl.getLsbD 7 then some (2 ^ min 40 (max 10 (c.wdogCtl.extractLsb' 0 6).toNat)) else none

/-- R36: the watchdog of a group has reached its threshold: the group does not issue. -/
def stalledOut (s : State) (g : Group) : Bool :=
  match (s.wg g.wg).bind fun w => s.ctx w.ctx with
  | some c => (wdogThreshold c).any (· ≤ g.wdog.toNat)
  | none => false

/-- R443: the pcs of the top paths of a group. -/
def pathPcs (g : Group) : List DWord := g.paths.map (·.2.pc)

/-- R36: group stall. Where the action lets the group go on, the counter restarts from zero. -/
def execGroupStall (group : Nat) (s : State) : Result :=
  match s.group group with
  | none => .next s
  | some g =>
    if !stalledOut s g || !g.live then .next s
    else
      let info := [(pathPcs g).getD 0 0, g.wdog.setWidth 64, (pathPcs g).getD 1 0]
      .next (resetWatchdog (raise s (groupEvent s g 13 0 1 info)) group)

/-! ## Gangs -/

/-- R293: valid. -/
def gangValid (g : Word) : Bool := g.getLsbD 22

/-- R293: the leader's position. -/
def gangLeader (g : Word) : Nat := (g.extractLsb' 16 4).toNat

/-- R293: the members' positions. -/
def gangMembers (g : Word) : List Nat := (List.range 16).filter (g.getLsbD ·)

/-- R295: an arrival forms a rendezvous alone: the group's gang register is not valid. -/
def formsAlone (s : State) (a : Arrival) : Bool := !((s.group a.gid).any (gangValid ·.gang))

/-- R295: the arrivals that a rendezvous led by an arrival consumes; none while a member's is missing. One that forms a
rendezvous alone is no member's arrival. -/
def gathered (s : State) (w : WG) (g : Group) (a : Arrival) : Option (List Arrival) :=
  if !gangValid g.gang then some [a]
  else if gangLeader g.gang ≠ a.pos then none
  else (gangMembers g.gang).mapM fun p => w.arrivals.find? fun x => x.pos = p && !formsAlone s x

/-! ## PAUSE -/

/-- R210: a PAUSE ends. How many cycles it took is timing (log entry 12). -/
def execPauseEnd (group path : Nat) (s : State) : Result :=
  .next (s.modGroup group fun g => g.modPath path fun p =>
    match p.park with
    | .pause _ => { p with park := .running }
    | _ => p)

end Sys2Proof.Machine
end

