-- ==== Sys2Proof/Machine/Matrix.lean ====
section
/-!
DEFINITION. Matrix instructions (R288 to R309): tile descriptors, gangs and the rendezvous latch, the k-steps of the matrix
engine (R120 to R124, R298 to R303), and the accesses to accumulator tiles.
-/

namespace Sys2Proof.Machine

/-! ## Format slots (R120, R121) -/

/-- R120: the element format: 0 FP32, 1 BF16, 2 DM8, 3 I8. -/
def slotElem (f : Word) : Nat := (f.extractLsb' 0 4).toNat
/-- R120: the scale mode: 0 none, 1 row, 2 column, 3 outer. -/
def slotMode (f : Word) : Nat := (f.extractLsb' 4 2).toNat
/-- R120: scale elements are FP32, otherwise BF16. -/
def slotWide (f : Word) : Bool := f.extractLsb' 6 2 = 1
/-- R120: rounding, saturation and flushing of the slot's conversions. -/
def slotRnd (f : Word) : Rnd := ⟨(f.extractLsb' 8 2).toNat, f.getLsbD 10, f.getLsbD 11⟩
/-- R291: the size of an element. -/
def elemSize (e : Nat) : Nat := match e with | 0 => 4 | 1 => 2 | _ => 1
/-- R240: the code of an element format in conversions. -/
def elemCode (e : Nat) : Nat := match e with | 0 => 2 | 1 => 3 | 2 => 6 | _ => 7
/-- R107, R115: the exact value of an element. -/
def elemVal (e bits : Nat) : FVal :=
  match e with
  | 0 => fp32.decode false bits
  | 1 => bf16.decode false bits
  | 2 => dm8Val bits
  | _ => .ofInt (intVal true 8 bits)
/-- The bits of an element of `size` bytes at an address, from its word. -/
def elemBits (w : Word) (va : DWord) (size : Nat) : Nat := w.toNat / 2 ^ (8 * (va.toNat % 4)) % 2 ^ (8 * size)
/-- The slot of a launch that an instruction names. -/
def slotOf (s : State) (w : WG) (n : BitVec 3) : Word := ((s.launch w.launch).map fun l => l.slots.getD n.toNat 0).getD 0

/-! ## Descriptors (R290 to R292) -/

/-- R290: a tile descriptor. -/
structure TDesc where
  base : DWord
  stride : Word
  w3 : Word
  deriving DecidableEq, Repr

/-- R290: the descriptor in four words. -/
def TDesc.of (ws : List Word) : TDesc := ⟨DWord.ofHalves (ws.getD 0 0) (ws.getD 1 0), ws.getD 2 0, ws.getD 3 0⟩
/-- R290: trans. -/
def TDesc.trans (d : TDesc) : Bool := d.w3.getLsbD 31
/-- R290: efmt. -/
def TDesc.efmt (d : TDesc) : Nat := (d.w3.extractLsb' 29 2).toNat
/-- R290: nk. -/
def TDesc.nk (d : TDesc) : Nat := (d.w3.extractLsb' 0 13).toNat

/-- R308: the first check of R290 that fails, or 0. -/
def TDesc.status (d : TDesc) : Nat :=
  if d.base.extractLsb' 55 9 ≠ 0 then 1
  else if d.base.extractLsb' 0 4 ≠ 0 || d.stride.extractLsb' 0 4 ≠ 0 then 2
  else if d.nk = 0 || 4096 < d.nk then 3
  else if d.w3.extractLsb' 13 16 ≠ 0 then 4
  else 0

/-- R290: the cause of a failing check. -/
def statusCause (n : Nat) : Cause := match n with | 1 => causeInvalid | 2 => causeMisaligned | _ => causeBounds

/-- R291: the address of element (x, y) of a role, x being the index that runs along stride when trans is 0. -/
def TDesc.addr (d : TDesc) (es x y : Nat) : DWord :=
  let n := if d.trans then y * d.stride.toNat + x * es else x * d.stride.toNat + y * es
  d.base + BitVec.ofNat 64 n

/-- R121, R292: the block registers that an operation reads: the descriptors, and of MMAS the addresses of the scale
vectors that the mode carries. -/
def blockReads (scaled : Bool) (fmt : Word) : List Nat :=
  List.range 8 ++ (if !scaled then [] else match slotMode fmt with
    | 0 => []
    | 1 => [8, 9, 12, 13]
    | 2 => [10, 11, 14, 15]
    | _ => [8, 9, 10, 11, 12, 13, 14, 15])

/-- R292: the addresses of the scale vectors that an operation carries, as ra, ca, rb, cb. -/
def scaleBases (scaled : Bool) (fmt : Word) (block : List Word) : List (Option DWord) :=
  (List.range 4).map fun k =>
    let r := 8 + 2 * k
    if (blockReads scaled fmt).contains r then some (DWord.ofHalves (block.getD r 0) (block.getD (r + 1) 0)) else none

/-- R120: the size of a scale element. -/
def scaleSize (fmt : Word) : Nat := if slotWide fmt then 4 else 2

/-- R290, R292, R297: the cause with which an operation fails before its first k-step, with the address that fails. The order
A, B, the counts, ra, ca, rb, cb among several failures is the model's choice (log entry 68). -/
def blockCause (scaled : Bool) (fmt : Word) (block : List Word) : Option (Cause × Option DWord) :=
  let a := TDesc.of block
  let b := TDesc.of (block.drop 4)
  let bad (d : TDesc) : Option (Cause × Option DWord) :=
    if d.status = 0 then none else some (statusCause d.status, if d.status ≤ 2 then some d.base else none)
  let scale (x : DWord) : Option (Cause × Option DWord) :=
    if x.extractLsb' 55 9 ≠ 0 then some (causeInvalid, some x)
    else if x.toNat % scaleSize fmt ≠ 0 then some (causeMisaligned, some x) else none
  (bad a).or ((bad b).or (if a.nk ≠ b.nk then some (causeBounds, none)
    else (scaleBases scaled fmt block).findSome? fun o => o.bind scale))

/-! ## Gangs and the latch (R293 to R297) -/

/-- R293: the fields that members compare. -/
def gangFields (g : Word) : Word := g &&& 0xFF8FFFFF#32
/-- R293: the sequence number after a rendezvous. -/
def gangNext (g : Word) : Word := (g &&& 0x00FFFFFF#32) ||| ((g.extractLsb' 24 8 + 1).setWidth 32 <<< 24)

/-- R297: a gang's operation of the preceding sequence number has not read all its operands. -/
def seqHeld (w : WG) (g : Word) : Bool :=
  let before : Word := (g &&& 0x00FFFFFF#32) ||| ((g.extractLsb' 24 8 - 1).setWidth 32 <<< 24)
  w.tiles.any fun kt => kt.2.ops.any fun o => o.gang = before.toNat

/-- R398: the tile's queue has no room for one more captured operation. -/
def queueHeld (w : WG) (acc : Nat) : Bool := 4 ≤ ((sget ({} : Tile) w.tiles acc).ops.filter fun o => !o.started).length

/-- R295, R297, R398: the arrivals that a rendezvous led by an arrival would consume; none while it cannot form. -/
def rendezvousOf (s : State) (w : WG) (g : Group) (a : Arrival) : Option (List Arrival) :=
  if queueHeld w a.acc || (gangValid g.gang && seqHeld w g.gang) then none else gathered s w g a

/-- R296: a member's arrival differs from the leader's. -/
def arrivalDiffers (s : State) (fmt : Word) (g : Group) (a m : Arrival) : Bool :=
  match s.group m.gid with
  | none => true
  | some gm =>
    gangFields gm.gang ≠ gangFields g.gang ||
      (g.gang.getLsbD 23 && (m.scaled ≠ a.scaled || m.acc ≠ a.acc || m.slot ≠ a.slot ||
        (blockReads a.scaled fmt).any fun k => m.block[k]? ≠ a.block[k]?))

/-- Poisons every element of a tile (R51). -/
def poisonTile (x : Tile) (tok : Token) : Tile :=
  { x with poi := (List.range 4096).map fun e => (e, true), tok := x.tok.or (some tok) }

/-- R296, R297: operations at the head of a tile that perform no k-step are done at once, in order. -/
def settleTile : Nat → Tile → Tile
  | 0, x => x
  | n + 1, x =>
    match x.ops with
    | [] => { x with full := true }
    | o :: rest =>
      match o.fail with
      | none => x
      | some k => settleTile n { poisonTile x k with ops := rest, done := 0, total := o.nk, last := o.agent :: x.last }

/-- Changes a tile of a workgroup. -/
def modTile (s : State) (wg acc : Nat) (f : Tile → Tile) : State :=
  s.modWg wg fun w => { w with tiles := sins w.tiles acc (f (sget {} w.tiles acc)) }

/-- R295, R297: a member's MMA retires and its seq becomes the given register's. -/
def leaveLatch (s : State) (gid : Nat) (gang : Word) : State :=
  s.modGroup gid fun g =>
    { g with
      gang := (g.gang &&& 0x00FFFFFF#32) ||| (gang &&& 0xFF000000#32)
      retired := g.retired + 1
      paths := smapAll g.paths fun p => if p.park = .rendezvous then { p with pc := nextPc p.pc, park := .running } else p }

/-- R296, R297: why an operation performs no k-step: a mismatch, a poisoned register, an invalid operand. -/
def opFails (s : State) (fmt : Word) (g : Group) (a : Arrival) (ms : List Arrival) : Option Token × State :=
  let make (c : Cause) (va : Option DWord) : Option Token × State :=
    let (k, s) := newRecord s a.gid a.pc false { t := a.t, cause := c, addr := va } 1
    (some k, s)
  if (!gangValid g.gang && g.gang.getLsbD 21) || ms.any (arrivalDiffers s fmt g a) then make causeGang none
  else match (blockReads a.scaled fmt).findSome? fun k => (a.block[k]?).bind (·.2) with
    | some k => (some k, s)
    | none => match blockCause a.scaled fmt (a.block.map (·.1)) with
      | some (c, va) => make c va
      | none => (none, s)

/-- R297: a rendezvous. -/
def rendezvous (s : State) (w : WG) (g : Group) (a : Arrival) (ms : List Arrival) : State :=
  let fmt := slotOf s w (BitVec.ofNat 3 a.slot)
  let (fail, s) := opFails s fmt g a ms
  let (n, s) := s.fresh
  let o : MatOp :=
    { gid := a.gid, pc := a.pc, fmt := fmt, scaled := a.scaled, block := a.block.map (·.1), agent := n, t := a.t, fail := fail
      nk := if (a.block[3]?).any (·.2.isNone) then (TDesc.of (a.block.map (·.1))).nk else 0
      gang := if gangValid g.gang then g.gang.toNat else 0, rid := g.recordId, count := a.count }
  let s := s.withMem (ms.foldl (fun m x => raiseFloors m (agentOf n 0) x.floor) s.mem)
  let s := s.modWg w.id fun w => { w with arrivals := w.arrivals.filter fun x => !ms.contains x }
  let s := modTile s w.id a.acc fun x => settleTile 6 { x with full := false, ops := x.ops ++ [o] }
  ms.foldl (fun s m => leaveLatch s m.gid (gangNext g.gang)) s

/-- R295: forms every rendezvous of a workgroup that can form. -/
def formAll (wg : Nat) : Nat → State → State
  | 0, s => s
  | n + 1, s =>
    match s.wg wg with
    | none => s
    | some w =>
      match w.arrivals.findSome? fun a => (s.group a.gid).bind fun g => (rendezvousOf s w g a).map fun ms => (g, a, ms) with
      | none => s
      | some (g, a, ms) => formAll wg n (rendezvous s w g a ms)

/-- R294: the gang that a value names is valid for a group. -/
def gangNamed (h : Here) (x : Word) : Bool :=
  let ms := gangMembers x
  x.extractLsb' 24 8 = 0 && x.extractLsb' 20 3 = 0 && 2 ≤ ms.length && ms.length ≤ 6 && ms.all (· < h.w.ngroups) &&
    ms.contains h.g.pos && ms.contains (gangLeader x)

/-- R294: GANG. -/
def execGang (d : BitVec 7) (ea : Bool) (a : BitVec 7) (s : State) : Result :=
  issuing s fun h =>
    let src := rSrc true a ea
    let dst := rDst true d
    let ths := uniThreads h.g h.p
    if !operandsReady h ths [src] (some dst) then .next (stall s)
    else
      let set (s : State) (t : Nat) (o : ThreadOut) (x : Word) : Result :=
        let (outs, s) := settle s h [(t, o)]
        .next (retire ((writeAll s h dst outs).modGroup h.g.id fun g => { g with gang := x }) h)
      let bad : Word := 0x00200000
      match ths with
      | [] => .next (retire s h)
      | (t, some k) :: _ => set s t (.tok k) bad
      | (t, none) :: _ =>
        match readSrc h.g h.p src t with
        | .poison k => set s t (.tok k) bad
        | .empty => set s t (.fresh (emptyRead h.g h.p src t)) bad
        | .words ws =>
          let x := ws.headD 0
          set s t (.words [h.g.gang]) (if gangNamed h x then x ||| 0x00400000#32 else bad)

/-- R296, R304: a group reads its block at its arrival: a leader, a lone group, or a member with chk set. -/
def readsBlock (g : Group) : Bool := !gangValid g.gang || g.gang.getLsbD 23 || gangLeader g.gang = g.pos

/-- R295, R297: the block registers as an arrival records them, with the record of those read empty. -/
def arriveBlock (s : State) (h : Here) (a n : Nat) (reads : List Nat) : List (Word × Option Token) × State :=
  let rs := (List.range n).map fun k => sGet h.g (a + k)
  let empty := reads.find? fun k => !(sGet h.g (a + k)).full
  let t := (threadsOf h.p.mask).headD 0
  let (tok, s) : Token × State := match empty with
    | some k => newRecord s h.g.id h.p.pc false (emptyRead h.g h.p { file := .s, reg := a + k } t) 1
    | none => (0, s)
  (rs.map fun r => (r.val, if !r.full then some tok else if r.poi then some (r.val.setWidth 10) else none), s)

/-- R295: MMA and MMAS. The arrival waits for the earlier accesses of its threads, which the operation sees (R299). -/
def matrixOp (i : Instr) (scaled : Bool) (c : BitVec 3) (ea : Bool) (a : BitVec 7) (sl : BitVec 3) (s : State) : Result :=
  issuing s fun h =>
    let reads := if readsBlock h.g then blockReads scaled (slotOf s h.w sl) else []
    if diverged h.g || h.w.ntiles ≤ c.toNat then reject s h i 7
    else if h.p.park = .rendezvous || (!ea && reads.any fun k => !(sGet h.g (a.toNat + k)).full) then .next (stall s)
    else withCommit i s h false fun s h =>
      if diverged h.g then reject s h i 7
      else if accessesWaiting s h.g.id (threadsOf h.p.mask) false then .next (stall s)
      else
        let (block, s) := arriveBlock s h a.toNat (if scaled then 16 else 8) reads
        let ts := threadsOf h.p.mask
        let x : Arrival :=
          { pos := h.g.pos, gid := h.g.id, pc := h.p.pc, scaled := scaled, acc := c.toNat, slot := sl.toNat, block := block
            t := ts.headD 0, floor := joinFloors s.mem (agentsOf h.g.id ts), count := h.g.retired }
        let s := (s.modWg h.w.id fun w => { w with arrivals := w.arrivals ++ [x] }).modPath h fun p => { p with park := .rendezvous }
        .next (formAll h.w.id 16 s)

/-- R295: MMA. -/
def execMma (c : BitVec 3) (ea : Bool) (a : BitVec 7) (sl : BitVec 3) (s : State) : Result :=
  matrixOp (.mma c ea a sl) false c ea a sl s
/-- R295: MMAS. -/
def execMmas (c : BitVec 3) (ea : Bool) (a : BitVec 7) (sl : BitVec 3) (s : State) : Result :=
  matrixOp (.mmas c ea a sl) true c ea a sl s

/-! ## A k-step (R122, R123, R298 to R302) -/

/-- R298: where the fetch of a word of an operand leads. -/
inductive MatLoc where
  | loc (pa : Nat)
  | bad (cause : Cause) (origin : Word)
  | page (p : BitVec 55)
  deriving DecidableEq, Repr

/-- R255, R299, R302: the address of an operand word. Operands lie in the local package. -/
def matLook (s : State) (w : WG) (o : MatOp) (va : DWord) : MatLoc × State :=
  match checkFlat s w.ctx (some w.coreNo) (privileged s w) {} va with
  | (.loc pa poa, s) => (if poa then .bad causeEcc 0 else .loc pa, s)
  | (.remote _ _ _ _, s) => (.bad causeDenied 0, s)
  | (.fail k g, s) =>
    let page := va.setWidth 55 &&& ~~~0xFFFF#55
    if k = causeNotPresent then (if o.failedPages.contains page then .bad k 0 else .page page, s)
    else (.bad (if k = causeLinkLost then causeDenied else k) g, s)

/-- The word that holds an address. -/
def wordAddr (va : DWord) : DWord := va &&& ~~~3#64

/-- R298, R300: the addresses of the elements that a k-step fetches: those of A, of B and of the scales. -/
def kstepElems (o : MatOp) (ks : Nat) : List DWord :=
  let es := elemSize (slotElem o.fmt)
  let a := TDesc.of o.block
  let b := TDesc.of (o.block.drop 4)
  let ss := scaleSize o.fmt
  let sc := scaleBases o.scaled o.fmt o.block
  let vec (k n from' : Nat) : List DWord := match sc.getD k none with
    | none => []
    | some x => (List.range n).map fun j => x + BitVec.ofNat 64 (ss * (from' + j))
  let k0 := 16 * ks
  ((List.range 64).flatMap fun i => (List.range 16).map fun k => a.addr es i (k0 + k)) ++
    ((List.range 16).flatMap fun k => (List.range 64).map fun j => b.addr es (k0 + k) j) ++
    vec 0 64 0 ++ vec 1 16 k0 ++ vec 2 16 k0 ++ vec 3 64 0

/-- R298, R300: the words that a k-step fetches. -/
def kstepWords (o : MatOp) (ks : Nat) : List DWord := ((kstepElems o ks).map wordAddr).eraseDups

/-- A word as a k-step has it: its value, or the cause and origin of its poison. -/
abbrev MatWord := DWord × Got

/-- R299, R459: reads the words of a k-step whose addresses were looked up; none while a line is in flight or the log has
no room. -/
def kstepRead (w : WG) (o : MatOp) : List (DWord × MatLoc) → Nat → State → Option (List MatWord × State)
  | [], _, s => some ([], s)
  | (va, l) :: rest, n, s =>
    let part := (s.ctx w.ctx).elim 0 (·.part)
    let me := agentOf o.agent 0
    let next (foreign : Bool) (x : Got) (s : State) : Option (List MatWord × State) :=
      let v : Logged := match x.2 with
        | some (c, g) => ⟨true, DWord.ofHalves (c.setWidth 32) g⟩
        | none => ⟨false, x.1.setWidth 64⟩
      (receiveOperand s w.ctx o.rid o.count (BitVec.ofNat 32 (o.reads + n)) foreign v).bind fun r =>
        let got : Got := if r.1.pois then (x.1, some (r.1.value.halves.1.setWidth 6, r.1.value.halves.2)) else (r.1.value.halves.1, none)
        (kstepRead w o rest (n + 1) r.2).map fun l => ((va, got) :: l.1, l.2)
    match l with
    | .page _ => none
    | .bad c g => next true (0, some (c, g)) s
    | .loc pa =>
      if inFlight s.mem pa then none
      else
        let (x, s') := readOne s (some w.ctx) part [me] pa
        next (foreignTo s.mem me pa) x s'

/-- R44: one more failing word for a record that an operation has made. -/
def bumpRecord (s : State) (core : Nat) (tok : Token) (n : Nat) : State :=
  let side : Side := sget {} s.exe.sides core
  let recs := smod side.recs tok.toNat fun x => (x.1, { x.2 with count := BitVec.ofNat 16 (min (x.2.count.toNat + n) 0xFFFF) })
  { s with exe := { s.exe with sides := sput {} s.exe.sides core { side with recs := recs } } }

/-- R302: `n` failing words of one cause of an operation: the record of that cause in its leader's name, made at the first of
them, with its address. -/
def opRecord (s : State) (w : WG) (o : MatOp) (seen : List (Cause × Token)) (c : Cause) (addr : Option DWord) (gorigin : Word) (n : Nat) :
    List (Cause × Token) × State :=
  match seen.find? (·.1 = c) with
  | some x => (seen, if x.2 = 0x3FF then loseRecord s o.gid w.coreNo o.pc c n else bumpRecord s w.coreNo x.2 n)
  | none =>
    let (k, s) := newRecord s o.gid o.pc false { t := o.t, cause := c, addr := addr, gorigin := gorigin } n
    (seen ++ [(c, k)], s)

/-- R302: the records of the failing words of a k-step, one per cause of the operation; the address is that of the first failing
element. -/
def kstepRecords (s : State) (w : WG) (o : MatOp) (ks : Nat) (fails : List (DWord × Cause × Word)) : List (Cause × Token) × State :=
  ((fails.map (·.2.1)).eraseDups).foldl (fun acc c =>
    let mine := fails.filter (·.2.1 = c)
    let va := (mine.head?).bind fun x => (kstepElems o ks).find? (wordAddr · = x.1)
    opRecord acc.2 w o acc.1 c va (((mine.head?).map (·.2.2)).getD 0) mine.length) (o.seen, s)

/-- R122, R123: one k-step of one element: the products of 16 k in turn, then the two roundings. -/
def kstepElem (acc : Word) (row col : FVal) (terms : List (FVal × FVal × FVal × FVal)) : Word :=
  let sum := terms.foldl (fun (x : FVal) t => x.add 0 (((t.1.mul t.2.1).mul t.2.2.1).mul t.2.2.2)) (.fin false 0 1)
  let sum : FVal := match sum with | .fin _ 0 _ => .fin false 0 1 | v => v
  let t := fp32.fit 0 false false false ((row.mul col).mul sum)
  BitVec.ofNat 32 (fp32.fit 0 false false false ((fp32.decode false acc.toNat).add 0 (fp32.decode false t)))

/-- An element of an operand as a k-step uses it: its value and whether it is poisoned. -/
abbrev MatElem := FVal × Bool

/-- The element at an address of the words of a k-step. -/
def matElem (ws : List MatWord) (fmt size : Nat) (va : DWord) : MatElem :=
  match ws.find? (·.1 = wordAddr va) with
  | some x => (elemVal fmt (elemBits x.2.1 va size), x.2.2.isSome)
  | none => (.nan, true)

/-- R298: the elements of a tile after a k-step over the given words; `tok` is the token of the first failing word. -/
def kstepTile (o : MatOp) (ks : Nat) (ws : List MatWord) (tok : Option Token) (x : Tile) : Tile :=
  let ef := slotElem o.fmt
  let es := elemSize ef
  let a := TDesc.of o.block
  let b := TDesc.of (o.block.drop 4)
  let ss := scaleSize o.fmt
  let sc := scaleBases o.scaled o.fmt o.block
  let one : MatElem := (.fin false 1 1, false)
  let scale (k n : Nat) : MatElem := match sc.getD k none with
    | none => one
    | some y => matElem ws (if slotWide o.fmt then 0 else 1) ss (y + BitVec.ofNat 64 (ss * n))
  let k0 := 16 * ks
  let rows := (List.range 64).map fun i => (List.range 16).map fun k => matElem ws ef es (a.addr es i (k0 + k))
  let cols := (List.range 64).map fun j => (List.range 16).map fun k => matElem ws ef es (b.addr es (k0 + k) j)
  let mid := (List.range 16).map fun k => (scale 1 (k0 + k), scale 2 (k0 + k))
  let left := (List.range 64).map fun i => scale 0 i
  let right := (List.range 64).map fun j => scale 3 j
  let midBad := mid.any fun m => m.1.2 || m.2.2
  let cell (i j : Nat) : Nat × Word × Bool :=
    let e := 64 * i + j
    let old := sget 0 x.elems e
    let was := sget false x.poi e
    let r := rows.getD i []
    let c := cols.getD j []
    let ri := left.getD i one
    let cj := right.getD j one
    if was || midBad || ri.2 || cj.2 || (r.any (·.2)) || c.any (·.2) then (e, old, true)
    else (e, kstepElem old ri.1 cj.1 ((r.zip (mid.zip c)).map fun t => (t.1.1, t.2.1.1.1, t.2.1.2.1, t.2.2.1)), false)
  let out := (List.range 64).flatMap fun i => (List.range 64).map (cell i)
  let bad := out.filter (·.2.2)
  { x with
    elems := (out.filter (·.2.1 ≠ 0)).map fun c => (c.1, c.2.1)
    poi := bad.map fun c => (c.1, true)
    tok := if bad.isEmpty then x.tok else x.tok.or tok }

/-- R300, R302: the operation that holds the matrix engine of a core: workgroup and tile. -/
def engineHolder (s : State) (core : Nat) : Option (Nat × Nat) :=
  let heads := s.exe.wgs.flatMap fun kw => if kw.2.coreNo ≠ core then [] else kw.2.tiles.filterMap fun kt =>
    match kt.2.ops with
    | o :: _ => if o.started && !o.paused then some (o.turn, kw.1, kt.1) else none
    | [] => none
  (heads.foldl (fun (m : Option (Nat × Nat × Nat)) x => match m with
    | some y => if y.1 < x.1 then some x else some y
    | none => some x) none).map (·.2)

/-- R302: a paused operation whose services ended takes the engine: another operation had its one k-step since. -/
def engineClaimed (s : State) (core : Nat) : Bool :=
  s.exe.wgs.any fun kw => kw.2.coreNo = core && (s.ctx kw.2.ctx).any (fun c => !c.killed && !c.stopping) &&
    kw.2.tiles.any fun kt => (kt.2.ops.head?).any fun o => o.paused && o.waits.isEmpty && o.passed

/-- R302, R303, R437: the engine may perform a k-step for the operation at the head of a tile. -/
def engineFree (s : State) (w : WG) (acc : Nat) (o : MatOp) : Bool :=
  o.fail.isNone && !o.paused && ((s.ctx w.ctx).all fun c => !c.killed && !c.stopping) && !engineClaimed s w.coreNo &&
    (if o.started then engineHolder s w.coreNo = some (w.id, acc) else engineHolder s w.coreNo = none)

/-- R302: the engine of a core finished a k-step: the paused operations whose services ended take it next. -/
def engineDone (s : State) (core : Nat) : State :=
  let pass (o : MatOp) : MatOp := if o.paused && o.waits.isEmpty then { o with passed := true } else o
  { s with exe := { s.exe with wgs := smapAll s.exe.wgs fun w =>
      if w.coreNo ≠ core then w else { w with tiles := smapAll w.tiles fun x =>
        match x.ops with
        | o :: rest => { x with ops := pass o :: rest }
        | [] => x } } }

/-- R432: the shadow input of element 0 of a tile (log entry 11). -/
def shadowElem : Nat := 256

/-- R432, R433: the elements of a tile whose shadow check disagrees after the second rounding of a k-step: they become poison
with one record of the operation, and each counts as a mismatch. -/
def kstepShadow (s : State) (w : WG) (o : MatOp) (seen : List (Cause × Token)) (x : Tile) : Tile × List (Cause × Token) × State :=
  let due := (s.ctl.shadow.filter fun t => shadowElem ≤ t && t < shadowElem + 4096 && !sget false x.poi (t - shadowElem)).eraseDups
  if due.isEmpty then (x, seen, s)
  else
    let (seen, s) := opRecord { s with ctl := { s.ctl with shadow := s.ctl.shadow.filter fun t => !due.contains t } } w o seen
      causeShadow none 0 due.length
    let tok := ((seen.find? (·.1 = causeShadow)).map (·.2)).getD 0x3FF
    let s := raiseGroup s o.gid 8 0 due.length (poisonInfo o.pc tok causeShadow)
    ({ x with poi := due.foldl (fun p t => sins p (t - shadowElem) true) x.poi, tok := x.tok.or (some tok) }, seen, s)

/-- R298, R301: the tile after a k-step was performed. -/
def kstepDone (o : MatOp) (n : Nat) (seen : List (Cause × Token)) (x : Tile) : Tile :=
  let x := { x with done := x.done + 1 }
  let rest := x.ops.drop 1
  if o.nk ≤ x.done then settleTile 6 { x with ops := rest, last := o.agent :: x.last }
  else { x with ops := { o with seen := seen, reads := o.reads + n } :: rest }

/-- A tile of a workgroup. -/
def tileAt (s : State) (wg acc : Nat) : Tile := ((s.wg wg).map fun w => sget ({} : Tile) w.tiles acc).getD {}

/-- R298, R302: the matrix engine performs one k-step, or pauses for pages that are not present. -/
def execKstep (workgroup tile : Nat) (s : State) : Result :=
  match s.wg workgroup with
  | none => .next s
  | some w =>
    match (sget ({} : Tile) w.tiles tile).ops with
    | [] => .next s
    | o :: _ =>
      if !engineFree s w tile o then .next s
      else
        -- R301: when an operation starts, the counter is 0 and total its nk
        let (turn, s0) := s.fresh
        let o1 : MatOp := if o.started then o else { o with started := true, turn := turn }
        let s1 := modTile s0 workgroup tile fun x =>
          { x with ops := o1 :: x.ops.drop 1, done := if o.started then x.done else 0, total := o.nk }
        let ks := if o.started then (sget ({} : Tile) w.tiles tile).done else 0
        let (locs, s2) := (kstepWords o ks).foldl (fun acc va =>
          let (l, s) := matLook acc.2 w o va
          (acc.1 ++ [(va, l)], s)) (([] : List (DWord × MatLoc)), s1)
        let pages := (locs.filterMap fun x => match x.2 with | .page p => some p | _ => none).eraseDups
        if !pages.isEmpty then
          let s3 := pages.foldl (fun s p => requestFault s w.ctx p 2 false (location w 0)) s2
          .next (formAll workgroup 16 (modTile s3 workgroup tile fun x =>
            { x with ops := { o1 with paused := true, waits := pages } :: x.ops.drop 1 }))
        else match kstepRead w o1 locs 0 s2 with
          | none => .next (logWaits s w.ctx)
          | some (ws, s3) =>
            let fails := ws.filterMap fun x => x.2.2.map fun p => (x.1, p.1, p.2)
            let (seen, s4) := kstepRecords s3 w o1 ks fails
            let tok := (fails.head?).bind fun f => (seen.find? (·.1 = f.2.1)).map (·.2)
            let (x', seen, s5) := kstepShadow s4 w o1 seen (kstepTile o1 ks ws tok (tileAt s4 workgroup tile))
            .next (formAll workgroup 16 (engineDone (modTile s5 workgroup tile fun _ => kstepDone o1 ws.length seen x') w.coreNo))

/-- R302: a paused operation whose pages are all serviced takes the engine again. -/
def execMatrixResume (workgroup tile : Nat) (s : State) : Result :=
  match s.wg workgroup with
  | none => .next s
  | some w =>
    match (sget ({} : Tile) w.tiles tile).ops with
    | [] => .next s
    | o :: _ =>
      if !o.paused || !o.waits.isEmpty then .next s
      else
        let (turn, s) := s.fresh
        .next (modTile s workgroup tile fun x => { x with ops := { o with paused := false, passed := false, turn := turn } :: x.ops.drop 1 })

/-! ## Accumulator access (R301, R305 to R308) -/

/-- A tile of the workgroup that issues. -/
def tileOf (h : Here) (c : Nat) : Tile := sget {} h.w.tiles c

/-- R299: the agents that an observation of a tile joins for: the threads of the observing group. -/
def observers (h : Here) : List Nat := agentsOf h.g.id (threadsOf (~~~h.g.exited))

/-- R301: the progress word of a tile. -/
def progressWord (x : Tile) : Word :=
  (bitW (!x.ops.isEmpty) <<< 31) ||| (bitW (x.ops.any (·.paused)) <<< 30) ||| (BitVec.ofNat 32 (x.total % 8192) <<< 13) |||
    BitVec.ofNat 32 (x.done % 8192)

/-- R301: MPROG. -/
def execMprog (d : BitVec 7) (c : BitVec 3) (s : State) : Result :=
  issuing s fun h => alu (.mprog d c) s h
    { unif := true, srcs := [], dst := rDst true d, typeOk := c.toNat < h.w.ntiles
      f := fun _ _ => .words [progressWord (tileOf h c.toNat)] }

/-- R308: TDESC. -/
def execTdesc (d : BitVec 7) (ea : Bool) (a : BitVec 7) (s : State) : Result :=
  issuing s fun h => alu (.tdesc d ea a) s h
    { unif := true, srcs := [rSrc true a ea 4], dst := rDst true d
      f := fun _ vs => .words [BitVec.ofNat 32 (TDesc.of (vs.headD [])).status] }

/-- R305: ACCZ. -/
def execAccz (c : BitVec 3) (s : State) : Result :=
  issuing s fun h =>
    let x := tileOf h c.toNat
    if h.w.ntiles ≤ c.toNat then reject s h (.accz c) 7
    else
      let ths := uniThreads h.g h.p
      if !guardFull h.g h.p || (!x.full && !ths.isEmpty) then .next (stall s)
      else
        let set (s : State) (y : Tile) : Result :=
          .next (retire (modTile (joinTile s (observers h) x) h.w.id c.toNat fun _ => y) h)
        match ths with
        | [] => .next (retire s h)
        | (_, some k) :: _ => set s (poisonTile { x with tok := none } k)
        | (_, none) :: _ => set s { x with elems := [], poi := [], tok := none }

/-- R307: the element that an index names. -/
def accIndex (b : Word) : Nat := (b.extractLsb' 0 12).toNat

/-- R307: ACCRD. -/
def execAccrd (d : BitVec 7) (c : BitVec 3) (eb : Bool) (b : BitVec 7) (s : State) : Result :=
  issuing s fun h =>
    let x := tileOf h c.toNat
    let look (w : Word) : ThreadOut :=
      let e := accIndex w
      if sget false x.poi e then .tok (x.tok.getD 0x3FF) else .words [sget 0 x.elems e]
    let op : AluOp :=
      { unif := false, srcs := [vSrc b eb], dst := rDst false d, typeOk := c.toNat < h.w.ntiles, f := fun _ vs => look (arg vs 0) }
    if c.toNat < h.w.ntiles && !x.full && !(vecThreads h.g h.p).isEmpty then
      match operandCheck h op.srcs (some op.dst) op.typeOk with
      | some r => reject s h (.accrd d c eb b) r
      | none => .next (stall s)
    else match alu (.accrd d c eb b) s h op with
      | .next s' => .next (if s'.ctl.stalled then s' else joinTile s' (observers h) x)
      | r => r

/-- R51, R307: one thread's write of an element. -/
def accWrite (x : Tile) (e : Nat) (v : Sum Token Word) : Tile :=
  match v with
  | .inl k => { x with poi := sins x.poi e true, tok := x.tok.or (some k) }
  | .inr w => { x with elems := sput 0 x.elems e w, poi := sdel x.poi e }

/-- R307, R339: what one thread of ACCWR writes: the element and its value or token; none when b is not clean. Every source read
empty under E=1 makes its record. -/
def accwrThread (h : Here) (sa sb : Src) (s : State) (x : Nat × Option Token) : (Option (Nat × Sum Token Word) × Option Token) × State :=
  let (b, s) := taken s sb
  let (a, s) := match x.2 with
    | some k => (.inl k, s)
    | none => taken s sa
  match b with
  | .inl k => ((none, some k), s)
  | .inr bw => ((some (accIndex bw, a), none), s)
where
  /-- A source of the thread: its word, or the token of its poison. -/
  taken (s : State) (src : Src) : Sum Token Word × State := match readSrc h.g h.p src x.1 with
    | .poison k => (.inl k, s)
    | .words ws => (.inr (ws.headD 0), s)
    | .empty =>
      let (k, s) := newRecord s h.g.id h.p.pc (h.g.span.opened.getLsbD x.1) (emptyRead h.g h.p src x.1) 1
      (.inl k, s)

/-- R307: ACCWR. -/
def execAccwr (c : BitVec 3) (ea : Bool) (a : BitVec 7) (eb : Bool) (b : BitVec 7) (s : State) : Result :=
  issuing s fun h =>
    let x := tileOf h c.toNat
    let sa := vSrc a ea
    let sb := vSrc b eb
    match operandCheck h [sa, sb] none (c.toNat < h.w.ntiles) with
    | some r => reject s h (.accwr c ea a eb b) r
    | none =>
      let ths := vecThreads h.g h.p
      let ts := ths.map (·.1)
      if !operandsReady h ths [sa] none || !srcReady h.g h.p sb ts || (!x.full && !ths.isEmpty) then .next (stall s)
      else
        let (outs, s) := ths.foldl (fun acc t =>
          let (o, s) := accwrThread h sa sb acc.2 t
          (acc.1 ++ [o], s)) (([] : List (Option (Nat × Sum Token Word) × Option Token)), joinTile s (observers h) x)
        let y := (outs.filterMap (·.1)).foldl (fun y o => accWrite y o.1 o.2) x
        let s := dropped s h.g.id h.p.pc (outs.filterMap (·.2))
        .next (retire (if ths.isEmpty then s else modTile s h.w.id c.toNat fun _ => y) h)

/-! ## Tiles in memory (R306, R309) -/

/-- What a word of a tile in memory reads as. -/
inductive TileWord where
  | val (w : Word)
  | bad (f : Fresh)
  deriving DecidableEq, Repr

/-- R258: asks another package for the words that were not asked for yet. -/
def askTile (h : Here) (t : Nat) (s : State) (x : DWord × AddrOut) : State :=
  match x.2 with
  | .remote c node pa =>
    if ((s.group h.g.id).any fun g => g.tileAsk.contains x.1.toNat) then s
    else
      let n := s.exe.nextId
      let s := addPending s h.g.id t h.p.pc (.remote .tileWord x.1 c (getChord s c).nextTag.toNat [])
      let s := s.modGroup h.g.id fun g => { g with tileAsk := x.1.toNat :: g.tileAsk }
      sendRequest s c node h.w.ctx 1 0 0 0 pa x.1 4 [] [] 0 [n]
  | _ => s

/-- R255 step 8, R459: reads the words of a tile; none when the log has no room. -/
def tileWords (h : Here) (t : Nat) : List (DWord × AddrOut) → State → Option (List (DWord × TileWord) × State)
  | [], s => some ([], s)
  | (va, o) :: rest, s =>
    let next (x : TileWord) (s : State) : Option (List (DWord × TileWord) × State) :=
      (tileWords h t rest s).map fun r => ((va, x) :: r.1, r.2)
    let read (foreign : Bool) (x : Got) (s : State) : Option (List (DWord × TileWord) × State) :=
      -- R462: the entries of the words of a tile have one place; in a replay a word that is not foreign takes one only when there
      -- are entries for all the words that are left (log entry 32)
      let entries := (s.ctx h.w.ctx).elim 0 fun c => (logPlaces s c.tag c h.g.recordId h.g.retired (logIndex t 0)).length
      if replaying s h.w.ctx && !foreign && x.2.isNone && entries < rest.length + 1 then next (.val x.1) s
      else
        let f : Fresh := { t := t, cause := 0, addr := some va }
        let out : Sum Fresh (List Word) := match x.2 with
          | some (c, g) => .inl { f with cause := c, gorigin := g }
          | none => .inr [x.1]
        (throughLog s (h.receives s 1 t) foreign 1 f out).bind fun y => match y.1 with
          | .inl f => next (.bad f) y.2
          | .inr ws => next (.val (ws.headD 0)) y.2
    match o with
    | .tok _ => next (.bad { t := t, cause := causeInvalid }) s
    | .fresh f => next (.bad f) s
    | .remote _ _ _ => read true (((h.g.tileGot.find? (·.1 = va.toNat)).map (·.2)).getD (0, none)) s
    | .loc pa =>
      let foreign := foreignWord s.mem h.g.id pa
      let (x, s) := readOne s (some h.w.ctx) ((s.ctx h.w.ctx).elim 0 (·.part)) (execAgents h true t) pa
      read foreign x s

/-- R306, R309: fetches the words that hold the given elements. Left: the path waits, for a line in flight, for another
package, or for the log. -/
def tileFetch (h : Here) (t : Nat) (vas : List DWord) (s : State) : Sum State (List (DWord × TileWord) × State) :=
  let words := (vas.map wordAddr).eraseDups
  let (locs, s1) := words.foldl (fun acc va =>
    let (o, s) := checkAccess acc.2 h t false {} 4 4 va
    (acc.1 ++ [(va, o)], s)) (([] : List (DWord × AddrOut)), s)
  let held := locs.any fun x => match x.2 with
    | .loc pa => lineBlocked s1 h.g.id x.1 pa s1.exe.nextId
    | .remote _ _ _ => (h.g.tileGot.find? (·.1 = x.1.toNat)).isNone
    | _ => false
  if held then .inl (stallParked (locs.foldl (askTile h t) s1) h)
  else match tileWords h t locs s1 with
    | none => .inl (waitForLog s h)
    | some (ws, s) => .inr (ws, s.modGroup h.g.id fun g => { g with tileAsk := [], tileGot := [] })

/-- The element of a tile in memory: its bits, or why it is poisoned. -/
def tileElem (ws : List (DWord × TileWord)) (size : Nat) (va : DWord) : Sum Fresh Nat :=
  match ws.find? (·.1 = wordAddr va) with
  | some (_, .val w) => .inr (elemBits w va size)
  | some (_, .bad f) => .inl f
  | none => .inr 0

/-- R306: the FP32 bits of a loaded element; a NaN of BF16 becomes the default NaN (R111, R118). -/
def loadElem (fmt : Word) (bits : Nat) : Word :=
  let e := slotElem fmt
  let r := slotRnd fmt
  match e with
  | 0 => if r.ftz && bits % 2 ^ 31 < 2 ^ 23 then BitVec.ofNat 32 (bits / 2 ^ 31 * 2 ^ 31) else BitVec.ofNat 32 bits
  | 1 => if 0x7F80 < bits % 2 ^ 15 then 0x7FC00000
    else if r.ftz && bits % 2 ^ 15 < 2 ^ 7 then BitVec.ofNat 32 (bits / 2 ^ 15 * 2 ^ 31) else BitVec.ofNat 32 (bits * 65536)
  | _ => (convert 0 false false (elemCode e) 2 (BitVec.ofNat 32 bits)).getD 0

/-- R306: the registers of a block read as a descriptor: its words, or the token of its first poisoned register. -/
def blockDesc (s : State) (h : Here) (src : Src) (t : Nat) : Sum Token TDesc × State :=
  match readSrc h.g h.p src t with
  | .words ws => (.inr (TDesc.of ws), s)
  | .poison k => (.inl k, s)
  | .empty => let (k, s) := newRecord s h.g.id h.p.pc false (emptyRead h.g h.p src t) 1; (.inl k, s)

/-- R306: the tile that ACCLD makes of the elements of a descriptor. -/
def loadTile (s : State) (h : Here) (fmt : Word) (d : TDesc) (ws : List (DWord × TileWord)) (x : Tile) : Tile × State :=
  let es := elemSize (slotElem fmt)
  let cells := (List.range 64).flatMap fun i => (List.range 64).map fun j => (64 * i + j, tileElem ws es (d.addr es i j))
  let bad := cells.filterMap fun c => match c.2 with | .inl f => some (c.1, f) | .inr _ => none
  let (toks, s) := newRecords s h.g.id h.p.pc (fun _ => false) (bad.map (·.2))
  ({ x with
     elems := (cells.filterMap fun c => match c.2 with
       | .inr b => if loadElem fmt b = 0 then none else some (c.1, loadElem fmt b)
       | .inl _ => none)
     poi := bad.map fun c => (c.1, true)
     tok := (toks.head?).map (·.2) }, s)

/-- R306, R456: ACCLD. It fails check 7 in a span, as R306 says, where R351 lists it among the words of a span (log entry 70). -/
def execAccld (c : BitVec 3) (ea : Bool) (a : BitVec 7) (sl : BitVec 3) (s : State) : Result :=
  issuing s fun h =>
    let src := rSrc true a ea 4
    let x := tileOf h c.toNat
    let ths := uniThreads h.g h.p
    if h.w.ntiles ≤ c.toNat || spanOpen h then reject s h (.accld c ea a sl) 7
    else if !operandsReady h ths [src] none || (!x.full && !ths.isEmpty) then .next (stall s)
    else
      let fmt := slotOf s h.w sl
      let set (s : State) (y : Tile) : Result := .next (retire (modTile (joinTile s (observers h) x) h.w.id c.toNat fun _ => y) h)
      let fresh : Tile := { x with tok := none }
      match ths with
      | [] => .next (retire s h)
      | (_, some k) :: _ => set s (poisonTile fresh k)
      | (t, none) :: _ => match blockDesc s h src t with
        | (.inl k, s) => set s (poisonTile fresh k)
        | (.inr d, s) =>
          if d.status ≠ 0 || d.nk ≠ 4 then
            let cause := if d.status ≠ 0 then statusCause d.status else causeBounds
            let va := if d.status = 1 || d.status = 2 then some d.base else none
            let (k, s) := newRecord s h.g.id h.p.pc false { t := t, cause := cause, addr := va } 1
            set s (poisonTile fresh k)
          else
            let es := elemSize (slotElem fmt)
            let vas := (List.range 64).flatMap fun i => (List.range 64).map fun j => d.addr es i j
            match tileFetch h t vas s with
            | .inl s => .next s
            | .inr (ws, s) =>
              let (y, s) := loadTile s h fmt d ws x
              watchRetired h (watchHit s h.w.ctx false es (vas.map (t, ·))) (set s y)

/-- An element that a store of a tile writes: where, its bits, and the poison that it carries. -/
structure TileStore where
  va : DWord
  bits : Word
  poi : Option Token

/-- R306, R309: the elements of a tile are stored in order, as stores of the group. -/
def storeTile (s : State) (h : Here) (t : Nat) (guard : Option Token) (size : Nat) (l : List TileStore) : State :=
  let (as, s) := l.foldl (fun acc x =>
    let (o, s) := checkAccess acc.2 h t false { write := true } size size x.va
    (acc.1 ++ [(x, o)], s)) (([] : List (TileStore × AddrOut)), s)
  let (toks, s) := newRecords s h.g.id h.p.pc (fun _ => false)
    (as.filterMap fun x => match x.2 with | .fresh f => some f | _ => none)
  let eff (x : TileStore × AddrOut) : Eff :=
    let origin : Word := match x.1.poi, guard with
      | some k, _ => originOf s h.w k
      | none, some k => originOf s h.w k
      | none, none => 0
    { kind := .store, t := t, gid := h.g.id, ctx := h.w.ctx, part := (s.ctx h.w.ctx).elim 0 (·.part), core := h.w.coreNo
      ags := if guard.isSome then [agentOf h.g.id t] else execAgents h true t
      pc := h.p.pc, va := x.1.va, pa := (match x.2 with | .loc pa => pa | .remote _ _ pa => pa | _ => 0)
      chord := (match x.2 with | .remote c n _ => some (c, n) | _ => none), size := size, data := [x.1.bits]
      apoi := (match x.2 with | .tok k => some k | .fresh f => some (tokenOf toks f) | _ => none)
      dpoi := x.1.poi, gpoi := guard, origin := origin }
  performAll s h.g.id h.p.pc (as.map eff)

/-- R117 to R119: an FP32 element in the format of a slot; none is CONVERT_RANGE. FP32 itself is stored unchanged. -/
def storeElem (fmt : Word) (w : Word) : Option Word :=
  let r := slotRnd fmt
  if slotElem fmt = 0 then some w else convert r.mode r.sat r.ftz 2 (elemCode (slotElem fmt)) w

/-- R261: the one record of the conversions of an instruction that are out of range. -/
def rangeToken (s : State) (h : Here) (t n : Nat) : Token × State :=
  if n = 0 then (0, s) else newRecord s h.g.id h.p.pc false { t := t, cause := causeRange } n

/-- R306, R456: ACCST. -/
def execAccst (c : BitVec 3) (ea : Bool) (a : BitVec 7) (sl : BitVec 3) (s : State) : Result :=
  issuing s fun h =>
    let src := rSrc true a ea 4
    let x := tileOf h c.toNat
    let ths := uniThreads h.g h.p
    if h.w.ntiles ≤ c.toNat || spanOpen h then reject s h (.accst c ea a sl) 7
    else if !operandsReady h [] [] none || !srcReady h.g h.p src (ths.map (·.1)) || (!x.full && !ths.isEmpty) then .next (stall s)
    else
      let fmt := slotOf s h.w sl
      match ths with
      | [] => .next (retire s h)
      | (t, guard) :: _ =>
        let s := joinTile s (observers h) x
        match blockDesc s h src t with
        | (.inl k, s) => .next (retire (dropped s h.g.id h.p.pc (List.replicate 4096 k)) h)
        | (.inr d, s) =>
          if d.status ≠ 0 || d.nk ≠ 4 then .next (retire (dropped s h.g.id h.p.pc (List.replicate 4096 0x3FF)) h)
          else
            let es := elemSize (slotElem fmt)
            let outs := (List.range 64).flatMap fun i => (List.range 64).map fun j =>
              let e := 64 * i + j
              let w := sget 0 x.elems e
              (d.addr es i j, w, sget false x.poi e, storeElem fmt w)
            let (rt, s) := rangeToken s h t (outs.filter fun o => !o.2.2.1 && o.2.2.2.isNone).length
            let stored := storeTile s h t guard es (outs.map fun o =>
              { va := o.1, bits := o.2.2.2.getD o.2.1
                poi := if o.2.2.1 then some (x.tok.getD 0x3FF) else if o.2.2.2.isNone then some rt else none })
            .next (watchStop (retire stored h) h (watchHit s h.w.ctx true es (outs.map fun o => (t, o.1))))

/-- R118, R309: an element of TCVT; none is CONVERT_RANGE. A format to itself is copied. -/
def convertElem (fmt : Word) (efmt bits : Nat) : Option Word :=
  let r := slotRnd fmt
  if slotElem fmt = efmt then some (BitVec.ofNat 32 bits)
  else convert r.mode r.sat r.ftz (elemCode efmt) (elemCode (slotElem fmt)) (BitVec.ofNat 32 bits)

/-- R309: the pair of formats is listed in R118. -/
def pairListed (src dst : Nat) : Bool := !((src = 2 && dst = 3) || (src = 3 && dst = 2))

/-- R309, R456: TCVT. -/
def execTcvt (d : BitVec 7) (ea : Bool) (a : BitVec 7) (sl : BitVec 3) (s : State) : Result :=
  issuing s fun h =>
    let src := rSrc true a ea 4
    let dsrc := rSrc true d false 4
    let ths := uniThreads h.g h.p
    let ts := ths.map (·.1)
    if spanOpen h then reject s h (.tcvt d ea a sl) 7
    else if !guardFull h.g h.p || !srcReady h.g h.p src ts || !srcReady h.g h.p dsrc ts then .next (stall s)
    else
      let fmt := slotOf s h.w sl
      match ths with
      | [] => .next (retire s h)
      | (t, guard) :: _ =>
        let (ra, s) := blockDesc s h src t
        let (rd, s) := blockDesc s h dsrc t
        match ra, rd with
        | .inl k, _ => .next (retire (dropped s h.g.id h.p.pc [k]) h)
        | _, .inl k => .next (retire (dropped s h.g.id h.p.pc [k]) h)
        | .inr x, .inr y =>
          if x.status ≠ 0 || y.status ≠ 0 || x.nk ≠ y.nk then .next (retire (dropped s h.g.id h.p.pc [0x3FF]) h)
          else
            let es := elemSize x.efmt
            let ed := elemSize (slotElem fmt)
            let cells := (List.range 64).flatMap fun i => (List.range (16 * x.nk)).map fun k => (x.addr es i k, y.addr ed i k)
            let writes := watchHit s h.w.ctx true ed (cells.map fun v => (t, v.2))
            let hit := lowerHit (watchHit s h.w.ctx false es (cells.map fun v => (t, v.1))) writes
            if !pairListed x.efmt (slotElem fmt) then
              let (rt, s) := rangeToken s h t cells.length
              .next (watchStop (retire (storeTile s h t guard ed (cells.map fun v => { va := v.2, bits := 0, poi := some rt })) h) h writes)
            else match tileFetch h t (cells.map (·.1)) s with
              | .inl s => .next s
              | .inr (ws, s) =>
                let outs := cells.map fun v => (v.2, match tileElem ws es v.1 with
                  | .inl f => (Sum.inl f : Sum Fresh (Option Word))
                  | .inr b => .inr (convertElem fmt x.efmt b))
                let (toks, s) := newRecords s h.g.id h.p.pc (fun _ => false)
                  (outs.filterMap fun o => match o.2 with | .inl f => some f | .inr _ => none)
                let (rt, s) := rangeToken s h t (outs.filter fun o => match o.2 with | .inr none => true | _ => false).length
                let stored := storeTile s h t guard ed (outs.map fun o => match o.2 with
                  | .inl f => { va := o.1, bits := 0, poi := some (tokenOf toks f) }
                  | .inr none => { va := o.1, bits := 0, poi := some rt }
                  | .inr (some w) => { va := o.1, bits := w, poi := none })
                .next (watchStop (retire stored h) h hit)

end Sys2Proof.Machine
end

