-- ==== Sys2Proof/Machine/Distributor.lean ====
section
/-!
DEFINITION. The distributors: launch records and their checks (R370 to R376), dealing, placement and stealing of units
(R17 to R28), what a group holds at its start (R159, R360, R365), FETCHWG's answer (R29 to R31) and the end of a launch
(R375).
-/

namespace Sys2Proof.Machine

/-! ## What a core can admit (R23) -/

/-- R23: what is free on a core: scratchpad, tiles, and for each partition its register blocks and its slots. -/
structure CoreRoom where
  scratch : Nat
  tiles : Nat
  blocks : List Nat
  slots : List (List Nat)
  deriving DecidableEq, Repr

/-- R23: an empty core. -/
def CoreRoom.empty : CoreRoom := ⟨524288, 8, List.replicate 4 64, List.replicate 4 (List.range 8)⟩

/-- R23: what is free on a core now. -/
def coreRoom (s : State) (quad core : Nat) : CoreRoom :=
  let ws := (s.exe.wgs.map (·.2)).filter fun w => w.quad = quad && w.core = core
  let gs := (s.exe.groups.map (·.2)).filter fun g => ws.any (·.id = g.wg)
  let inPart (p : Nat) : List Group := gs.filter (·.part = p)
  { scratch := 524288 - (ws.map (·.scratch)).sum
    tiles := 8 - (ws.map (·.ntiles)).sum
    blocks := (List.range 4).map fun p => 64 - ((inPart p).map (·.budget)).sum
    slots := (List.range 4).map fun p => (List.range 8).filter fun k => !(inPart p).any (·.slot = k) }

/-- R23: the partition with the most free register blocks, the lowest-numbered on a tie. -/
def CoreRoom.widest (r : CoreRoom) : Nat :=
  (List.range 4).foldl (fun m p => if r.blocks.getD m 0 < r.blocks.getD p 0 then p else m) 0

/-- R23: the partitions and slots of a gang's groups, in ascending position; `tries` are the partitions that the next group
may take, in order: the first group only the one with the most free blocks, a following group the next that can take it. -/
def CoreRoom.spread (r : CoreRoom) : List Nat → List Nat → Option (List (Nat × Nat))
  | [], _ => some []
  | b :: bs, tries =>
    match tries.find? fun p => b ≤ r.blocks.getD p 0 && !(r.slots.getD p []).isEmpty with
    | none => none
    | some p =>
      let slot := (r.slots.getD p []).headD 0
      let r' := { r with blocks := r.blocks.set p (r.blocks.getD p 0 - b), slots := r.slots.set p ((r.slots.getD p []).drop 1) }
      (r'.spread bs ((List.range 4).map fun k => (p + 1 + k) % 4)).map ((p, slot) :: ·)

/-- R23: places a gang on a core: the partition and the slot of each group. -/
def CoreRoom.takeGang (r : CoreRoom) (scratch acc : Nat) (budgets : List Nat) : Option (List (Nat × Nat)) :=
  if r.scratch < scratch || r.tiles < acc then none else r.spread budgets [r.widest]

/-- R419: a core is disabled. -/
def coreDisabled (s : State) (quad core : Nat) : Bool := (s.mgmt (0x40 + 16 * quad + 4 * (core / 32))).getLsbD (core % 32)

/-- R22: the roles of a workgroup's groups, by position. -/
def Launch.gang (l : Launch) : List (Nat × Role) :=
  (l.roles.zip (List.range l.roles.length)).flatMap fun x => List.replicate x.1.groups (x.2, x.1)

/-- R22: the register budgets of a workgroup's groups, by position. -/
def Launch.budgets (l : Launch) : List Nat := l.gang.map (·.2.blocks)

/-! ## Units (R18 to R20, R25) -/

/-- R25: the dealt level. -/
def dealtLevel (l : Launch) : Nat := ((List.range l.levels.length).filter fun k => (l.levels[k]?).any (·.domain ≤ 4)).getLastD 0

/-- R17, R25: the workgroups of a dealt unit. -/
def wgsPerUnit (l : Launch) : Nat := extentProduct l (levelWith l 2 + 1) (dealtLevel l)

/-- R19: the level whose indices the packages share out. With several levels of domain fabric the specification does not say
which: DESIGN CHOICE (log entry 65): the lowest. -/
def fabricLevel (l : Launch) : Option Nat := l.levels.findIdx? (·.domain = 6)

/-- The extent of a level. -/
def extentOf (l : Launch) (k : Nat) : Nat := (l.levels[k]?).elim 1 (·.extent)

/-- R19, R25: how many dealt units this package runs. -/
def unitCount (l : Launch) : Nat :=
  let u := extentProduct l (dealtLevel l + 1) (l.levels.length - 1)
  match fabricLevel l with
  | none => u
  | some k => u / extentOf l k * (l.fhi - l.flo)

/-- R19, R25: the number of this package's i-th dealt unit; beyond them lie those that came from other packages. -/
def unitNumber (l : Launch) (i : Nat) : Nat :=
  if unitCount l ≤ i then i - unitCount l
  else match fabricLevel l with
  | none => i
  | some k =>
    let inner := extentProduct l (dealtLevel l + 1) (k - 1)
    let span := l.fhi - l.flo
    i % inner + inner * (l.flo + i / inner % span + extentOf l k * (i / inner / span))

/-- R20: the coordinate at level k of an index that runs over levels `lo` up in row-major order. -/
def coordAt (l : Launch) (lo k n : Nat) : Nat := n / extentProduct l lo (k - 1) % extentOf l k

/-- R20, R31: the coordinate of a workgroup at a level above it. -/
def wgCoord (l : Launch) (unit wg k : Nat) : Nat :=
  let d := dealtLevel l
  if d < k then (if k = d + 1 then unit % extentOf l k else coordAt l (d + 1) k unit)
  else
    let w := levelWith l 2
    if k = w + 1 then wg % extentOf l k else coordAt l (w + 1) k wg

/-- R20: the coordinate of a thread at a level. -/
def threadCoord (l : Launch) (unit wg pos t k : Nat) : Nat :=
  let g := levelWith l 1
  let w := levelWith l 2
  if w < k then wgCoord l unit wg k
  else if g < k then (if k = g + 1 then pos % extentOf l k else coordAt l (g + 1) k pos)
  else if k = 1 then t % extentOf l k else coordAt l 1 k t

/-! ## Shares -/

/-- R27: the unplaced units of a share: a unit that the distributor has begun is none. -/
def Share.count (x : Share) : Nat := (x.ranges.map fun r => r.2 - r.1).sum - (if x.nextWg = 0 then 0 else 1)

/-- R26: takes the next workgroup of a share: unit, workgroup, and what is left. -/
def Share.take (x : Share) (perUnit : Nat) : Option ((Nat × Nat) × Share) :=
  match x.ranges with
  | [] => none
  | (a, b) :: rest =>
    let k := x.nextWg
    let left := if k + 1 < perUnit then x else { x with ranges := if a + 1 < b then (a + 1, b) :: rest else rest, nextWg := 0 }
    some ((a, k), if k + 1 < perUnit then { left with nextWg := k + 1 } else left)

/-- R27: the n highest-numbered units of ranges in ascending order, and the rest. -/
def topUnits (n : Nat) (rs : List (Nat × Nat)) : List (Nat × Nat) × List (Nat × Nat) :=
  rs.reverse.foldl (fun acc r =>
    let (got, kept) := acc
    let need := n - (got.map fun x => x.2 - x.1).sum
    let size := r.2 - r.1
    if need = 0 then (got, r :: kept)
    else if size ≤ need then (r :: got, kept)
    else ((r.2 - need, r.2) :: got, (r.1, r.2 - need) :: kept)) ([], [])

/-- R26: the chunks of the units, dealt to the quadrant at position p of m. With a level of domain fabric the chunks are cut
from the package's own units, numbered from 0 in ascending unit number, not from the numbers of R25: DESIGN CHOICE (log entry
65). -/
def dealt (n m p : Nat) : List (Nat × Nat) :=
  ((List.range ((n + 63) / 64)).filter fun c => c % m = p).map fun c => (64 * c, min n (64 * c + 64))

/-- R26: a launch starts: its units are dealt to the quadrants of its partition. -/
def startLaunch (s : State) (id : Nat) : State :=
  match s.launch id with
  | none => s
  | some l =>
    let qs := partQuads s ((s.ctx l.ctx).elim 0 (·.part))
    let shares := (qs.zip (List.range qs.length)).map fun x => (x.1, ({ ranges := dealt (unitCount l) qs.length x.2 } : Share))
    s.modLaunch id fun l => { l with state := 1, shares := shares }

/-! ## Launch records (R373 to R376) -/

/-- R373: the words of a launch record, by offset. -/
def recWord (ws : List Word) (off : Nat) : Word := ws.getD (off / 4) 0
/-- R373: a 64-bit field of a launch record. -/
def recDWord (ws : List Word) (off : Nat) : DWord := DWord.ofHalves (recWord ws off) (recWord ws (off + 4))

/-- R374: a level entry. -/
def recLevel (ws : List Word) (k : Nat) : Level :=
  let e := recWord ws (0x44 + 8 * k)
  { extent := (recWord ws (0x40 + 8 * k)).toNat, scope := (e.extractLsb' 4 3).toNat, domain := (e.extractLsb' 0 3).toNat }

/-- R373: nlevels. -/
def recLevels (ws : List Word) : Nat := ((recWord ws 0).extractLsb' 0 4).toNat
/-- R373: nroles. -/
def recRoles (ws : List Word) : Nat := ((recWord ws 0).extractLsb' 4 4).toNat

/-- R22, R374: a role entry; without roles, role 0 starts at kentry. -/
def recRole (ws : List Word) (n : Nat) : Role :=
  let e := recWord ws (0x88 + 16 * n)
  { pc := if recRoles ws = 0 then recDWord ws 0x28 else recDWord ws (0x80 + 16 * n)
    blocks := (e.extractLsb' 8 6).toNat, groups := (e.extractLsb' 0 5).toNat }

/-- R120: a format slot has no reserved value. -/
def slotOk (ws : List Word) (n : Nat) : Bool :=
  let x := recWord ws (0x100 + 16 * n)
  x.extractLsb' 12 20 = 0 && x.extractLsb' 7 1 = 0 && x.extractLsb' 2 2 = 0 &&
    (List.range 3).all fun k => recWord ws (0x104 + 16 * n + 4 * k) = 0

/-- The launch that a record describes. R357, R360: its scratch size is the declared one and 128 stacks for each group, both
multiples of 1,024; the stack area begins where the declared part ends. The stack bytes per thread are not in the record: a free
value, as far as the stacks have room (log entry 28). -/
def launchOf (ws : List Word) (id queue : Nat) (index : Word) (floor : SMap Nat) : Launch :=
  let w1 := recWord ws 4
  let w2 := recWord ws 8
  let tag := (w2.extractLsb' 0 8).toNat
  let kentry := recDWord ws 0x28
  let scratch := (recWord ws 0xC).toNat
  let groups := ((List.range (max (recRoles ws) 1)).map fun n => (recRole ws n).groups).sum
  let asked := Config.stackBytes tag kentry.toNat &&& ~~~7#32
  let stack := if 128 * groups * asked.toNat ≤ scratch then asked else 0
  { id := id, queue := queue, index := index, ctx := tag, state := 0, code := 0, detail := 0
    prio := (w2.extractLsb' 8 4).toNat, serial := w1.getLsbD 4, priv := w1.getLsbD 3, arch := w1.getLsbD 2
    regroup := w1.getLsbD 1, notify := w1.getLsbD 5, acc := (w1.extractLsb' 12 4).toNat, scratch := scratch
    argp := recDWord ws 0x10, cplt := recDWord ws 0x18, kentry := kentry
    stackb := stack, stackOff := if stack = 0 then 0 else BitVec.ofNat 32 (scratch - 128 * groups * stack.toNat)
    levels := (List.range (recLevels ws)).map (recLevel ws)
    roles := (List.range (max (recRoles ws) 1)).map (recRole ws)
    slots := (List.range 8).map fun k => recWord ws (0x100 + 16 * k)
    flo := (recWord ws 0x20).toNat, fhi := (recWord ws 0x24).toNat, floor := floor }

/-- R376 check 1: header and reserved fields, those of the level and role entries among them (R374). -/
def headOk (ws : List Word) : Bool :=
  let w0 := recWord ws 0
  let w1 := recWord ws 4
  let zero (off n : Nat) : Bool := (List.range (n / 4)).all fun k => recWord ws (off + 4 * k) = 0
  w0.extractLsb' 16 16 = 0x4C52 && w0.extractLsb' 8 8 = 1 && 2 ≤ recLevels ws && recLevels ws ≤ 8 && recRoles ws ≤ 4 &&
    w1.extractLsb' 16 16 = 0 && w1.extractLsb' 6 6 = 0 && !w1.getLsbD 0 && (w1.extractLsb' 12 4).toNat ≤ 8 &&
    (recWord ws 8).extractLsb' 12 20 = 0 && (recWord ws 0xC).toNat % 1024 = 0 && (recWord ws 0xC).toNat ≤ 524288 &&
    zero 0x30 16 && zero 0xC0 64 && zero 0x180 128 && (List.range 8).all (fun k => recWord ws (0x44 + 8 * k) &&& ~~~0x77#32 = 0) &&
    (List.range 4).all fun n => recWord ws (0x88 + 16 * n) &&& ~~~0x3F1F#32 = 0 && recWord ws (0x8C + 16 * n) = 0

/-- R376 check 2: the level table. -/
def levelsOk (ws : List Word) (l : Launch) : Bool :=
  let ls := l.levels
  let entryOk (k : Nat) : Bool :=
    let e := recWord ws (0x44 + 8 * k)
    if k < recLevels ws then e.extractLsb' 0 3 ≠ 7 && 1 ≤ (recLevel ws k).extent && (recLevel ws k).extent ≤ 2 ^ 31
    else e = 0 && recWord ws (0x40 + 8 * k) = 0
  ((List.range 8).all entryOk) && (ls[0]?).any (fun x => x.extent = 1 && x.domain = 0) &&
    ((ls.zip (ls.drop 1)).all fun x => x.1.domain ≤ x.2.domain) && ls.any (·.domain = 1) && ls.any (·.domain = 2) &&
    extentProduct l 0 (ls.length - 1) ≤ 2 ^ 48 && threadsPerGroup l ≤ 128 &&
    extentProduct l (levelWith l 1 + 1) (levelWith l 2) ≤ 16 && ls.all fun x => x.domain ≤ x.scope

/-- R376 check 3: the role table. -/
def rolesOk (ws : List Word) (l : Launch) : Bool :=
  let entryOk (n : Nat) : Bool :=
    let e := recWord ws (0x88 + 16 * n)
    let pc := recDWord ws (0x80 + 16 * n)
    if n < max (recRoles ws) 1 then
      pc.extractLsb' 55 9 = 0 && pc.extractLsb' 0 2 = 0 && (recRoles ws ≠ 0 || pc = 0) && 1 ≤ (recRole ws n).blocks && (recRole ws n).blocks ≤ 32 &&
        1 ≤ (recRole ws n).groups && (recRole ws n).groups ≤ 16
    else e = 0 && pc = 0
  (List.range 4).all entryOk && (l.roles.map (·.groups)).sum = extentProduct l (levelWith l 1 + 1) (levelWith l 2)

/-- R376 check 5, R419: the gang fits an empty enabled core of the partition. -/
def gangFits (s : State) (part : Nat) (l : Launch) : Bool :=
  ((partQuads s part).any fun q => (List.range 80).any fun c => !coreDisabled s q c) &&
    (CoreRoom.empty.takeGang l.scratch l.acc l.budgets).isSome

/-- R376: the first check that a record of a queue fails, or 0. `bad` says that a word of it could not be read. -/
def recordCheck (s : State) (ws : List Word) (l : Launch) (tag : Nat) (queuePriv bad : Bool) : Nat :=
  if bad || !headOk ws then 1
  else if !levelsOk ws l then 2
  else if !rolesOk ws l then 3
  else if !((List.range 8).all (slotOk ws)) then 4
  else if !gangFits s ((s.ctx tag).elim 0 (·.part)) l then 5
  else if l.ctx ≠ tag then 6
  else if l.priv && !queuePriv then 7
  else match fabricLevel l with
    | none => if l.flo = 0 && l.fhi = 0 then 0 else 8
    | some k => if l.flo < l.fhi && l.fhi ≤ extentOf l k then 0 else 8

/-! ## Rings (R369 to R372) -/

/-- R369: the ring of a queue: its base and its length. -/
def ringOf (s : State) (queue : Nat) : Nat × Nat :=
  let d := s.mgmt64 (0x1000 + 16 * queue)
  ((d.extractLsb' 16 36).toNat * 65536, 2 ^ (d.extractLsb' 4 4).toNat)

/-- R371: the tail of an enabled ring was written by the host: a tail beyond the ring or behind an earlier one is a queue
error; another is accepted. -/
def tailWritten (s : State) (queue : Nat) (floor : SMap Nat) : State :=
  let off := 0x1000 + 16 * queue
  let (base, n) := ringOf s queue
  let head := memWord s.mem (base + 0x40)
  let tail := memWord s.mem base
  let old := sget [] s.host.tails queue
  let last := ((old.getLast?).map (·.1)).getD head
  if n < (tail - head).toNat || (tail - head).toNat < (last - head).toNat then
    (s.setMgmt off ((s.mgmt off &&& ~~~1#32) ||| 4#32)).send (.queueError queue)
  else if tail = last then s
  else { s with host := { s.host with tails := sput [] s.host.tails queue (old ++ [(tail, floor)]) } }

/-- R54, R367, R370: a record is read for the context of its queue: its words, and whether one of them is poisoned. -/
def readRecord (s : State) (tag a : Nat) : (List Word × Bool) × State :=
  let part := (s.ctx tag).elim 0 (·.part)
  let s := fetchRange s (some tag) part a 512
  let at' := (List.range 128).map fun k => a + 4 * k
  let bad := at'.any fun x => wordPoi s.mem x || eccBad s x
  ((at'.map (memWord s.mem ·), bad), (at'.filter (eccBad s ·)).foldl (fun s x => detectEcc s (some tag) part x) s)

/-- R372: every launch of a ring read before a given one has ended. -/
def earlierDone (s : State) (queue id : Nat) : Bool :=
  s.host.launches.all fun kl => !(kl.2.queue = queue && kl.1 < id) || kl.2.state = 3

/-- R370, R372, R376: the distributors read the record at head of a ring, check it and start its launch; a serial launch
waits for the earlier launches of its ring, and the records behind it wait for it. -/
def execLaunchRecordRead (queue : Nat) (s : State) : Result :=
  match sget [] s.host.tails queue with
  | [] => .next s
  | (tail, floor) :: later =>
    let tag := ((s.mgmt (0x1000 + 16 * queue + 8)).extractLsb' 0 8).toNat
    let waits := s.host.launches.any fun kl => kl.2.queue = queue && kl.2.state = 0
    if waits || (s.ctx tag).all (·.killed) then .next s
    else
      let (base, n) := ringOf s queue
      let head := memWord s.mem (base + 0x40)
      let ((ws, bad), s) := readRecord s tag (base + 0x200 + 512 * (head.toNat % n))
      let (id, s) := s.fresh
      let l := launchOf ws id queue head floor
      let detail := recordCheck s ws l tag ((s.mgmt (0x1000 + 16 * queue)).getLsbD 3) bad
      let l := if detail = 0 then l else { l with ctx := tag, state := 2, code := 1, detail := detail }
      let tails := if head + 1 = tail then later else (tail, floor) :: later
      let s := deviceWord s (base + 0x40) (head + 1)
      let s := { s with host := { s.host with launches := sins s.host.launches id l, tails := sput [] s.host.tails queue tails } }
      .next (if detail = 0 && (!l.serial || earlierDone s queue id) then startLaunch s id else s)

/-- R372: a serial launch starts once every earlier launch of its ring has ended. -/
def execSerialLaunchStart (launch : Nat) (s : State) : Result :=
  match s.launch launch with
  | none => .next s
  | some l => .next (if l.state = 0 && earlierDone s l.queue launch then startLaunch s launch else s)

/-! ## Placement -/

/-- R394, R437: the distributors place workgroups of a context. -/
def placing (s : State) (l : Launch) : Bool := l.state = 1 && (s.ctx l.ctx).any fun c => !c.killed && !c.stopping && !c.preempted

/-- R19: the key of the unit of the highest level with domain facet that a workgroup lies in. -/
def facetUnit (l : Launch) (unit wg : Nat) : Option Nat :=
  let w := levelWith l 2
  let k := ((List.range l.levels.length).filter fun k => w < k && k ≤ dealtLevel l && (l.levels[k]?).any (·.domain = 3)).getLast?
  k.map fun k => unit * wgsPerUnit l + wg / extentProduct l (w + 1) k

/-- R19, R23, R26, R419: the next workgroup of a quadrant's share can be placed on a core: unit, workgroup, the rest of the
share, and the places of its groups. -/
def placeable (s : State) (l : Launch) (quad core : Nat) : Option ((Nat × Nat) × Share × List (Nat × Nat)) :=
  if !placing s l || !(partQuads s ((s.ctx l.ctx).elim 0 (·.part))).contains quad || 80 ≤ core || coreDisabled s quad core then none
  else
    (sget ({} : Share) l.shares quad).take (wgsPerUnit l) |>.bind fun x =>
      let ok := match facetUnit l x.1.1 x.1.2 with
        | none => true
        | some k => (sfind l.facets k).all (· = core / 8)
      if !ok then none else ((coreRoom s quad core).takeGang l.scratch l.acc l.budgets).map fun ps => (x.1, x.2, ps)

/-- R372: a launch is placed before another. -/
def Launch.before (a b : Launch) : Bool :=
  b.prio < a.prio || (a.prio = b.prio && (if a.queue = b.queue then a.id < b.id else a.queue < b.queue))

/-- R458, R460, R462: a group that starts in an interval takes the next id; while the interval is recorded its start is
logged, with the number of its workgroup in the order in which the launch deals them. None: the log has no room. -/
def startRecorded (s : State) (l : Launch) (number pos : Nat) : Option (BitVec 16 × State) :=
  match s.ctx l.ctx with
  | none => some (0, s)
  | some c =>
    let id : BitVec 16 := BitVec.ofNat 16 c.rep.nextId
    let next (s : State) : State := s.modCtx l.ctx fun c => { c with rep := { c.rep with nextId := c.rep.nextId + 1 } }
    if c.rep.status = 1 then some (id, next s)
    else if !c.rep.interval then some (0, s)
    else if !logRoom s l.ctx then none
    else
      let v : DWord := DWord.ofHalves (BitVec.ofNat 32 (number * 16 + pos)) l.index
      some (id, next (logPut s l.ctx (logWords 0 id 0 0 false v)))

/-- R460, R462: the workgroup that a replay starts next, of a launch: the number in the group-start entry of the next id. -/
def replayedStart (s : State) (c : Context) (l : Launch) : Option Nat :=
  (List.range (logLength s c.tag c)).findSome? fun k =>
    (logEntry s c.tag c k).bind fun a =>
      let v := (logValue s.mem a).value
      if logKind s.mem a = 0 && (logId s.mem a).toNat = c.rep.nextId && v.halves.2 = l.index then
        some (v.halves.1.toNat / 16)
      else none

/-- R159, R164, R360: a group as it starts at its entry PC. -/
def newGroup (l : Launch) (id wg pos role budget part slot : Nat) (pc : DWord) (unit wgnum : Nat) (rid : BitVec 16) : Group :=
  let tpg := threadsPerGroup l
  let live := maskOf (· < tpg)
  let coord := (List.range l.levels.length).flatMap fun k =>
    if k = 0 then [] else (List.range tpg).filterMap fun t =>
      let c := threadCoord l unit wgnum pos t k
      if c = 0 then none else some (128 * k + t, c)
  let g : Group :=
    { id := id, wg := wg, pos := pos, role := role, budget := budget, part := part, slot := slot, age := id
      exited := ~~~live, paths := [(0, { pc := pc, mask := live, mode := 0x0018 })], coord := coord, recordId := rid }
  let w (n : Nat) (x : Word) (g : Group) : Group := sSet g n { val := x }
  w 61 l.stackOff (w 60 l.stackb (w 1 l.argp.halves.2 (w 0 l.argp.halves.1 g)))

/-- R365: the threads of a group that starts see what is visible to its launch. -/
def startViews (m : MemSys) (gid : Nat) (tpg : Nat) (floor : SMap Nat) : MemSys :=
  if floor.isEmpty then m else (List.range tpg).foldl (fun m t => raiseFloors m (agentOf gid t) floor) m

/-- R23, R159: creates the groups of a workgroup at their places. None: the log of record mode has no room. -/
def newGroups (l : Launch) (wg unit wgnum number : Nat) : List ((Nat × Role) × (Nat × Nat) × Nat) → State → Option State
  | [], s => some s
  | ((role, r), (part, slot), pos) :: rest, s =>
    (startRecorded s l number pos).bind fun x =>
      let (id, s) := x.2.fresh
      let g := newGroup l id wg pos role r.blocks part slot r.pc unit wgnum x.1
      let s := (s.setGroup g).modLaunch l.id fun l => { l with names := id :: l.names }
      newGroups l wg unit wgnum number rest (s.withMem (startViews s.mem id (threadsPerGroup l) l.floor))

/-- R21, R23, R26: places a workgroup on a core. -/
def placeWg (s : State) (l : Launch) (quad core unitIx wgnum : Nat) (share : Share) (ps : List (Nat × Nat)) : Option State :=
  let unit := unitNumber l unitIx
  let (id, s) := s.fresh
  let w : WG :=
    { id := id, ctx := l.ctx, launch := l.id, unit := unit, num := wgnum, quad := quad, core := core
      ngroups := l.gang.length, scratch := l.scratch, ntiles := l.acc }
  let s := { s with exe := { s.exe with wgs := sins s.exe.wgs id w } }
  let s := s.modLaunch l.id fun l =>
    { l with shares := sins l.shares quad share
             facets := match facetUnit l unitIx wgnum with | some k => sins l.facets k (core / 8) | none => l.facets }
  newGroups l id unit wgnum (unitIx * wgsPerUnit l + wgnum) (l.gang.zip (ps.zip (List.range ps.length))) s

/-- A quadrant's share of a launch. -/
def Launch.share (l : Launch) (q : Nat) : Share := sget {} l.shares q

/-- R462: in a replay the distributors place the workgroups that started in the interval, in the order of the log. -/
def placeReplayed (s : State) (l : Launch) (quad core : Nat) : Option State :=
  (s.ctx l.ctx).bind fun c =>
    if c.killed || c.stopping || c.preempted || !(partQuads s c.part).contains quad || 80 ≤ core || coreDisabled s quad core then none
    else (replayedStart s c l).bind fun n =>
      ((coreRoom s quad core).takeGang l.scratch l.acc l.budgets).bind fun ps =>
        placeWg s l quad core (n / wgsPerUnit l) (n % wgsPerUnit l) (l.share quad) ps

/-- R26, R372: a distributor places the next unplaced workgroup of a launch on a core that can admit its gang, if no
launch that goes first could be placed there. -/
def execWorkgroupPlace (launch quadrant core : Nat) (s : State) : Result :=
  match s.launch launch with
  | none => .next s
  | some l =>
    if (s.ctx l.ctx).any (·.rep.status = 1) then .next ((placeReplayed s l quadrant core).getD s)
    else if s.host.launches.any fun kl => kl.2.before l && (placeable s kl.2 quadrant core).isSome then .next s
    else match placeable s l quadrant core with
      | none => .next s
      | some ((u, k), share, ps) => .next ((placeWg s l quadrant core u k share ps).getD (logWaits s l.ctx))

/-! ## Stealing (R27, R28) -/

/-- R19, R27, R464: the distributors among which those of a launch steal: the quadrants of its partition, and, where a level of it has
domain fabric and none of domain package holds several dealt units, those that the context's member list gives other packages. -/
def distributors (s : State) (l : Launch) : List Nat :=
  let d := dealtLevel l
  let whole := ((List.range l.levels.length).filter fun k => d < k && (l.levels[k]?).any (·.domain = 5)).getLastD d
  let far := if (fabricLevel l).isNone || !memberHere s l.ctx || 1 < extentProduct l (d + 1) whole then []
    else (fabricUnits s l.ctx).filter fun u => u / 4 ≠ nodeNo s && (routeTo s (u / 4)).isSome
  partQuads s ((s.ctx l.ctx).elim 0 (·.part)) ++ far.map (4 + ·)

/-- R27: a launch as another package names it: by its queue and its number there, which are the same on every package (log entry
26). -/
def Launch.key (l : Launch) : Nat := l.queue * 4294967296 + l.index.toNat

/-- R27: the launch that another package names so, while it runs. -/
def launchNamed (s : State) (key : Nat) : Option Launch :=
  (s.host.launches.find? fun kl => kl.2.state = 1 && kl.2.key = key && (fabricLevel kl.2).isSome).map (·.2)

/-- R27: the victim that a thief asks next. -/
def victimOf (l : Launch) (qs : List Nat) (thief : Nat) : Option Nat :=
  let seen := sget [] l.seen thief
  (qs.filter fun q => q ≠ thief && !(l.share thief).asked.contains q).foldl (fun m q => match m with
    | none => some q
    | some x => if sget 0 seen x < sget 0 seen q then some q else some x) none

/-- R27, R29: a quadrant steals: a core of it could admit a gang of the kernel, or a FETCHWG waits there. -/
def wantsWork (s : State) (l : Launch) (q : Nat) : Bool :=
  ((List.range 80).any fun c => !coreDisabled s q c && ((coreRoom s q c).takeGang l.scratch l.acc l.budgets).isSome) ||
    s.exe.groups.any fun kg => kg.2.fetch.isSome && (s.wg kg.2.wg).any fun w => w.launch = l.id && w.quad = q

/-- R27, R28: what a victim hands over, and what it keeps: the higher half of its unplaced units. A unit that it has begun to place
stays. -/
def Share.handOver (v : Share) : List (Nat × Nat) × Share :=
  let begun := if v.nextWg = 0 then 0 else 1
  let first := (v.ranges.head?).elim 0 (·.1)
  let free := if begun = 0 then v.ranges else match v.ranges with
    | (a, b) :: rest => if a + 1 < b then (a + 1, b) :: rest else rest
    | [] => []
  let (got, left) := topUnits ((v.count + 1) / 2) free
  (got, { v with ranges := if begun = 0 then left else (first, first + 1) :: left })

/-- R27: a distributor asks another one for units: the launch places workgroups here, the distributor has no unplaced unit and waits
for no answer, and the other is the next to ask. -/
def steals (s : State) (l : Launch) (thief victim : Nat) : Bool :=
  placing s l && (partQuads s ((s.ctx l.ctx).elim 0 (·.part))).contains thief && (l.share thief).count = 0 &&
    (l.share thief).waiting.isNone && victimOf l (distributors s l) thief = some victim && wantsWork s l thief

/-- Replaces a share of a launch. -/
def Launch.setShare (l : Launch) (q : Nat) (x : Share) : Launch := { l with shares := sins l.shares q x }

/-- R27, R28, R403: a thief's request reaches its victim, which hands over units or answers empty. The request to another package
travels as a message. -/
def execStealRequest (launch thief victim : Nat) (s : State) : Result :=
  match s.launch launch with
  | none => .next s
  | some l =>
    if !steals s l thief victim then .next s
    else
      let mine := l.share thief
      if 4 ≤ victim then
        let u := victim - 4
        .next (sendMessage (s.modLaunch launch (·.setShare thief { mine with waiting := some victim })) (u / 4) (tagAt s l.ctx (u / 4))
          (.unitSteal l.key (nodeNo s * 4 + thief) u))
      else if (l.share victim).count = 0 then
        .next (s.modLaunch launch (·.setShare thief { mine with asked := victim :: mine.asked }))
      else
        let (got, left) := (l.share victim).handOver
        .next (s.modLaunch launch fun l =>
          (l.setShare thief { mine with ranges := mine.ranges ++ got, asked := [] }).setShare victim left)

/-- R25: units of this package, by their place, as runs of unit numbers. -/
def unitRuns (l : Launch) (r : Nat × Nat) : List (Nat × Nat) :=
  let run := match fabricLevel l with
    | none => max 1 (unitCount l)
    | some k => max 1 (extentProduct l (dealtLevel l + 1) (k - 1) * (l.fhi - l.flo))
  if unitCount l ≤ r.1 then [(r.1 - unitCount l, r.2 - unitCount l)]
  else (List.range ((r.2 - 1) / run + 1 - r.1 / run)).map fun j =>
    let lo := max r.1 ((r.1 / run + j) * run)
    let n := unitNumber l lo
    (n, n + (min r.2 ((r.1 / run + j + 1) * run) - lo))

/-- R27, R28: the answer to a distributor of another package: a message for each run of units that it hands over, or an empty
one. -/
def answerUnits (s : State) (key thief victim : Nat) : State :=
  let say (ctx : Nat) (s : State) (lo hi : Nat) (more : Bool) : State :=
    sendMessage s (thief / 4) (tagAt s ctx (thief / 4)) (.unitReply key thief victim lo hi more)
  match launchNamed s key with
  | none => say 0 s 0 0 false
  | some l =>
    let v := l.share (victim % 4)
    if v.count = 0 || !placing s l || !(distributors s l).contains (4 + thief) then say l.ctx s 0 0 false
    else
      let (got, left) := v.handOver
      let runs := got.flatMap (unitRuns l)
      let s := s.modLaunch l.id (·.setShare (victim % 4) left)
      (runs.zip (List.range runs.length)).foldl (fun s x => say l.ctx s x.1.1 x.1.2 (x.2 + 1 < runs.length)) s

/-- R27: a thief takes an answer of another package. -/
def takeUnits (s : State) (key thief victim lo hi : Nat) (more : Bool) : State :=
  match launchNamed s key with
  | none => s
  | some l =>
    let q := thief % 4
    let mine := l.share q
    let waiting := if more then mine.waiting else none
    if mine.waiting ≠ some (4 + victim) then s
    else if hi ≤ lo then s.modLaunch l.id (·.setShare q { mine with asked := (4 + victim) :: mine.asked, waiting := waiting })
    else s.modLaunch l.id (·.setShare q
      { mine with ranges := mine.ranges ++ [(unitCount l + lo, unitCount l + hi)], asked := [], waiting := waiting })

/-- R27: a distributor learns how many unplaced units another one has. One that stopped asking because every other one answered
empty asks again then: the model's choice (log entry 68). -/
def Launch.learn (l : Launch) (source target n : Nat) : Launch :=
  let l := { l with seen := sins l.seen target (sput 0 (sget [] l.seen target) source n) }
  l.setShare target { l.share target with asked := [] }

/-- R27: a summary of another package. -/
def summaryTold (s : State) (key source target n : Nat) : State :=
  match launchNamed s key with
  | none => s
  | some l => s.modLaunch l.id (·.learn (4 + source) (target % 4) n)

/-- R27, R403: a summary is due after a change of 64 units, and when the count is zero; one to another package is a message. -/
def execOccupancySummary (launch source target : Nat) (s : State) : Result :=
  match s.launch launch with
  | none => .next s
  | some l =>
    let n := (l.share source).count
    let last := sget 0 (sget [] l.seen target) source
    let due := last ≠ n && (n = 0 || last + 64 ≤ n || n + 64 ≤ last)
    if l.state ≠ 1 || source = target || !(partQuads s ((s.ctx l.ctx).elim 0 (·.part))).contains source ||
        !(distributors s l).contains target || !due then .next s
    else if target < 4 then .next (s.modLaunch launch (·.learn source target n))
    else
      let s' := s.modLaunch launch fun l => { l with seen := sins l.seen target (sput 0 (sget [] l.seen target) source n) }
      .next (sendMessage s' ((target - 4) / 4) (tagAt s l.ctx ((target - 4) / 4))
        (.unitSummary l.key (nodeNo s * 4 + source) (target - 4) n))

/-! ## FETCHWG (R29 to R31) -/

/-- R29: the launch has no unplaced workgroup here, and no answer of another package is under way. -/
def exhausted (l : Launch) : Bool := l.shares.all fun x => x.2.ranges.isEmpty && x.2.waiting.isNone

/-- R29, R464: the whole launch has no unplaced workgroup, as far as a quadrant's distributor can know: those of the other packages
answered it empty. -/
def exhaustedFor (s : State) (l : Launch) (q : Nat) : Bool :=
  exhausted l && (distributors s l).all fun v => v < 4 || (l.share q).asked.contains v

/-- R30, R31: writes an answer into the mailbox and the destination of a FETCHWG: coordinate words, status, register. The
coordinate words and wgnum of an exhausted answer, for which the specification gives no values, are 0: DESIGN CHOICE (log
entry 65). -/
def answerFetch (s : State) (g : Group) (w : WG) (l : Launch) (f : FetchReq) (granted : Option (Nat × Nat)) : Option State :=
  let base := w.scratchBase + f.mailbox
  let seq := g.fetchSeq + 1
  let status : Word := seq ++ 0#13 ++ (if granted.isSome then 0#2 else 1#2) ++ 1#1
  let coord (k : Nat) : Word := match granted with
    | some (u, n) => if levelWith l 2 < k && k < l.levels.length then BitVec.ofNat 32 (wgCoord l u n k) else 0
    | none => 0
  let words := ((List.range 6).map fun k => (base + 4 + 4 * k, coord (k + 2))) ++
    [(base + 0x1C, BitVec.ofNat 32 ((granted.map (·.2)).getD 0))]
  (receive s w.ctx 2 g.recordId g.id f.order f.count (logIndex f.t 0) true ⟨false, status.setWidth 64⟩).map fun v =>
    let s := words.foldl (fun s x => if syncReserved w x.1 then s else writeOne s [deviceAgent] x.1 x.2 0xF false 0 0) v.2
    -- R30: a thread that observes the status observes the coordinate words
    let seen := words.map fun x => (x.1, (((writesOf s.mem x.1).head?).map (·.seq)).getD 0)
    let gids := (s.exe.groups.filter fun kg => kg.2.wg = w.id).map (·.1)
    let s := s.withMem (gids.foldl (fun m gid => (List.range 128).foldl (fun m t => raiseFloors m (agentOf gid t) seen) m) s.mem)
    let s := writeOne s [deviceAgent] base v.1.value.halves.1 0xF false 0 0
    let s := s.modGroup g.id fun g => { g with fetch := none, fetchSeq := seq }
    deliver s g.id [({ file := 1, reg := f.dst, t := 0 }, { val := v.1.value.halves.1 })]

/-- R32: an earlier request of the workgroup for the same mailbox has no answer yet. -/
def fetchBehind (s : State) (g : Group) (f : FetchReq) : Bool :=
  s.exe.groups.any fun kg => kg.2.wg = g.wg && kg.2.fetch.any fun x => x.mailbox = f.mailbox && x.order < f.order

/-- R29, R30, R32: the distributor answers a FETCHWG: with the next workgroup of its share, or as exhausted. A share that must
steal first waits for what it receives. Requests for one mailbox are answered in their order. In a replay the answer comes
from the log (R462). -/
def execFetchwgAnswer (group : Nat) (s : State) : Result :=
  match s.group group with
  | none => .next s
  | some g =>
    match g.fetch, s.wg g.wg with
    | some f, some w =>
      match s.launch w.launch, s.ctx w.ctx with
      | some l, some c =>
        if fetchBehind s g f then .next s
        else if c.rep.status = 1 then .next ((answerFetch s g w l f none).getD s)
        else if !placing s l then .next s
        else match (l.share w.quad).take (wgsPerUnit l) with
          | some ((u, k), share) =>
            let s' := s.modLaunch l.id fun l => { l with shares := sins l.shares w.quad share }
            .next ((answerFetch s' g w l f (some (unitNumber l u, k))).getD (logWaits s w.ctx))
          | none => if exhaustedFor s l w.quad then .next ((answerFetch s g w l f none).getD (logWaits s w.ctx)) else .next s
      | _, _ => .next s
    | _, _ => .next s

/-! ## The end of a launch (R375) -/

/-- R375, R429: writes the completion of a launch, in a fabric window by a WRITE to its package, unless its address is 0 or fails
translation, and sends its notification. None: the page of the completion waits for a checkpoint copy. -/
def finishLaunch (s : State) (l : Launch) : Option State :=
  let v := completionValue l
  let written : Option State := if l.cplt = 0 then some s else
    match checkFlat s l.ctx none l.priv { write := true } l.cplt with
    | (.loc pa false, s) => (noteWrite s l.ctx none l.cplt pa).map fun s => writeCompletion s l pa
    | (.remote c node pa false, s) =>
      some (sendRequest (noteWindow s l.ctx none l.cplt) c node l.ctx 2 0 0 0 pa l.cplt 8 (bytesOfWord v.halves.1 ++ bytesOfWord v.halves.2) [] 0 [])
    | (_, s) => some s
  written.map fun s =>
    let s := if l.notify then s.send (.launchDone v) else s
    s.modLaunch l.id fun l => { l with state := 3 }

/-- R375: every workgroup is placed, every thread has exited, every engine operation has finished and every write is
performed. -/
def launchDrained (s : State) (l : Launch) : Bool :=
  exhausted l && !(s.exe.wgs.any fun kw => kw.2.launch = l.id) && !(s.host.images.any fun i => i.wg.launch = l.id) &&
    !(s.exe.engOps.any fun ko => ko.2.launch = l.id) && !(s.exe.pendings.any fun kp => l.names.contains kp.2.gid)

/-- R375: a launch ends: completed, rejected, or ended by a context kill. -/
def execLaunchComplete (launch : Nat) (s : State) : Result :=
  match s.launch launch with
  | none => .next s
  | some l =>
    if l.state = 2 || l.state = 1 && launchDrained s l then .next ((finishLaunch s l).getD s) else .next s

end Sys2Proof.Machine
end

