-- ==== Sys2Proof/Machine/HostOps.lean ====
section
/-!
DEFINITION. The host's side: reads and writes of device memory (R363 to R368), queue descriptors and partition masks (R369,
R377), commands and their replies (R379), and the fault queue (R387, R388).
-/

namespace Sys2Proof.Machine

/-! ## Channels and replies -/

/-- R417: a bit of the ready word. -/
def ready (s : State) (bit : Nat) : Bool := (s.mgmt 0).getLsbD bit

/-- R417: channels 1 to 3 are served. -/
def served (s : State) : Bool := ready s 5

/-- R379, R417: a channel-1 command. While the channel is not served nothing answers. `fails` lists its failing conditions in
the order in which its rule lists them, each with its code: a failing command changes nothing and answers the lowest code. -/
def command1 (s : State) (fails : List (Bool × Nat)) (k : State → State) : Result :=
  if !served s then .next s
  else
    let bad := ((fails.zip (List.range fails.length)).filter fun x => x.1.1).map fun x => (x.1.2, x.2 + 1)
    match bad with
    | [] => .next (reply (k s) 1 0 0)
    | b :: bs =>
      let low := bs.foldl (fun (m : Nat × Nat) x => if x.1 < m.1 then x else m) b
      .next (reply s 1 low.1 low.2)

/-! ## Management registers as they read -/

/-- R400: the first word of a chord's registers as it reads. -/
def chordWord (s : State) (c : Nat) : Word :=
  let ch := getChord s c
  BitVec.ofBool (s.mgmt (0x10000 + 32 * c)).msb ++ BitVec.ofNat 2 ch.state ++ BitVec.ofNat 5 ch.lanes ++ ch.peer ++ 0#2 ++ ch.live ++
    BitVec.ofNat 6 ch.retrains

/-- A management word as a channel-1 read returns it: its stored bits, with the fields that the machine itself keeps: a
chord's state (R400), a context's ckact and G (R391), rstat (R447). -/
def managementRead (s : State) (off : Nat) : Word :=
  if 0x10000 ≤ off ∧ off < 0x10800 ∧ off % 32 = 0 then chordWord s ((off - 0x10000) / 32)
  else if 0x4000 ≤ off ∧ off < 0x6000 ∧ off % 32 = 0x18 then
    (s.ctx ((off - 0x4000) / 32)).elim 0 fun c => (bitW c.ckact <<< 1) ||| bitW c.gen
  else if 0x18000 ≤ off ∧ off % 0x100 = 0x38 then
    s.mgmt off ||| (s.ctx ((off - 0x18000) / 0x100)).elim (0 : Word) fun c => BitVec.ofNat 32 c.rep.status
  else s.mgmt off

/-! ## Reads and writes of memory (R364, R366 to R368) -/

/-- R364: the agent of a request: 0 is VOCL channel 0, from 1 on they are the CXL requesters. -/
def hostAgent (port : Nat) : Nat := if port = 0 then voclAgent else cxlAgent (port - 1)

/-- R363, R366: what a host agent reaches: over channel 0 device memory, over CXL.mem the far memory of a partition. A host
write of host memory changes that memory under the device (log entry 29). -/
def hostReaches (s : State) (port pa : Nat) : Bool :=
  match regionOf pa with
  | .near _ => port = 0
  | .far _ => port = 0 || (ownerOf s pa).isSome
  | .host => true
  | _ => false

/-- R367, R368: the device no longer holds a half: its words leave the line's poison state, whose host side keeps the
indication. -/
def dropHalf (s : State) (a : Nat) : State :=
  let st := sget (0 : BitVec 2) s.mem.bridge (lineOf a)
  let m := { s.mem with bridge := sput 0 s.mem.bridge (lineOf a) (st &&& ~~~(1#2 <<< (a / 64 % 2))) }
  s.withMem (markGranule m (a / 64) false 0)

/-- R364, R87: a host agent's write of the bytes `be` of a word. In host memory it takes the half away from the device
(R367). -/
def hostWord (s : State) (agent a : Nat) (val : Word) (be : BitVec 4) : State :=
  match regionOf a with
  | .host =>
    let s := dropHalf s a
    let m := pokePart s.mem agent a val be false 0 0
    wakeMonitors (s.withMem { m with hostPoi := sput false m.hostPoi (a / 64) false }) a
  | _ => writeOne s [agent] a val be false 0 0

/-- R364: a host agent's write of bytes at rising addresses, word by word. -/
def hostBytes (s : State) (agent pa : Nat) (data : List Byte) : State :=
  let first := pa / 4
  let last := (pa + data.length + 3) / 4
  (List.range (last - first)).foldl (fun s k =>
    let a := 4 * (first + k)
    let b (j : Nat) : Option Byte := if a + j < pa then none else data[a + j - pa]?
    let be : BitVec 4 := BitVec.ofBool (b 3).isSome ++ BitVec.ofBool (b 2).isSome ++ BitVec.ofBool (b 1).isSome ++
      BitVec.ofBool (b 0).isSome
    hostWord s agent a (wordOfBytes ((b 0).getD 0) ((b 1).getD 0) ((b 2).getD 0) ((b 3).getD 0)) be) s

/-- R364: an agent of the host. -/
def isHostAgent (agent : Nat) : Bool := agent = voclAgent || (16 ≤ agent && agent < firstThread)

/-- R365: the writes that the host agents have made. -/
def hostFloor (m : MemSys) : SMap Nat := (m.views.filter fun v => isHostAgent v.1).foldl (fun f v => sjoin f v.2) []

/-- R370, R371: the tails of the enabled rings that a write has reached are taken. -/
def tailsWritten (s : State) (pa len : Nat) : State :=
  (List.range 64).foldl (fun s k =>
    let base := (ringOf s k).1
    if (s.mgmt (0x1000 + 16 * k)).getLsbD 0 && pa < base + 4 && base < pa + len then tailWritten s k (hostFloor s.mem) else s) s

/-- R417: the port of a host agent is up. -/
def portReady (s : State) (port : Nat) : Bool := ready s (if port = 0 then 4 else 6)

/-- R78: a host access waits while a line of it is in flight: it is made once the line has left flight, and until then nothing
happens. -/
def hostWaits (s : State) (pa len : Nat) : Bool := (List.range len).any fun k => inFlight s.mem (pa + k)

/-- R364, R365: HOST_WRITE: a host agent's write of device memory, over channel 0 or CXL.mem. -/
def execHostWrite (port pa : Nat) (data : List Byte) (s : State) : Result :=
  if !portReady s port || data.isEmpty then .next s
  else if hostWaits s pa data.length then .next s
  else if !((List.range data.length).all fun k => hostReaches s port (pa + k)) then .fault .reservedAddress
  else .next (tailsWritten (hostBytes s (hostAgent port) pa data) pa data.length)

/-- R375: a host read that returns a completion word sees the launch's writes. -/
def seeCompletion (m : MemSys) (agent a : Nat) : MemSys :=
  let n := sget 0 (floorsOf m agent) a
  (m.rels.filter fun r => n ≠ 0 && r.obj = completionKey n).foldl (fun m r => raiseFloors m agent r.floor) m

/-- R364, R375: a host agent reads a word: of device memory, or of host memory on its own side, where nothing is fetched over the
bridge. -/
def hostReads (s : State) (agent a : Nat) : Got × State :=
  match regionOf a with
  | .host =>
    let (r, n) := readFrom s.mem s.ctl.tick (sget 0 (floorsOf s.mem agent) a) a
    let m := if n = 0 then s.mem else raiseFloors s.mem agent [(a, n)]
    ((r.val, if sget false s.mem.hostPoi (a / 64) then some (causeRemote, 0) else none), s.bump.withMem m)
  | _ => readOne s none 0 [agent] a

/-- R364: a host agent reads words: their values and poison. -/
def hostWords (s : State) (agent : Nat) (a : Nat) : Nat → List Got × State
  | 0 => ([], s)
  | n + 1 =>
    let (x, s) := hostReads s agent a
    let s := s.withMem (seeCompletion s.mem agent a)
    let (xs, s) := hostWords s agent (a + 4) n
    (x :: xs, s)

/-- R364: what channel 0 reads of device memory: it has no poison indication, so the stored bytes come (log entry 29). -/
def hostData (s : State) (pa len : Nat) : List Byte × State :=
  let first := pa / 4
  let (ws, s) := hostWords s voclAgent (4 * first) ((pa + len + 3) / 4 - first)
  (((ws.flatMap fun x => bytesOfWord x.1).drop (pa % 4)).take len, s)

/-- R444, R445: a physical range lies in the dump region of a partition. -/
def inDump (s : State) (pa len : Nat) : Bool :=
  (List.range 4).any fun p =>
    let b := 0x15000 + 0x100 * p + 0xA0
    let base := ((s.mgmt64 b).extractLsb' 16 48).toNat * 65536
    base ≤ pa && pa + len ≤ base + (s.mgmt (b + 8)).toNat * 65536

/-- R363, R364, R417, R418, R445: HOST_READ. Channel 0 reads bytes of device memory, channel 1 the management word at an
offset, channel 2 bytes of a dump, and from 2^52 on bytes of the self-test log (log entry 29). -/
def execHostRead (place : HostPlace) (len : Nat) (s : State) : Result :=
  let pa := place.addr
  match place.agent with
  | 0 =>
    if !portReady s 0 || hostWaits s pa len then .next s
    else if !((List.range len).all fun k => hostReaches s 0 (pa + k)) then .fault .reservedAddress
    else .next ((hostData s pa len).2.send (.data (hostData s pa len).1))
  | 1 => .next (if served s then s.send (.register pa (managementRead s pa)) else s)
  | 2 =>
    if !portReady s 0 || hostWaits s pa len then .next s
    else if 2 ^ 52 ≤ pa then .next (s.send (.firmwareData ((s.host.fw.tests.flatten.drop (pa - 2 ^ 52)).take len)))
    else if !(served s && inDump s pa len && (List.range len).all fun k => hostReaches s 0 (pa + k)) then .next s
    else .next ((hostData s pa len).2.send (.firmwareData (hostData s pa len).1))
  | _ => .next s

/-- R364, R368, R375: CXL_MEM_READ: a requester of the host reads the halves of far-memory lines over CXL.mem, or of lines of
host memory on its own side: what it sees there, a completion among it, it sees as any host agent does. -/
def execCxlMemRead (place : HostPlace) (len : Nat) (s : State) : Result :=
  let pa := place.addr
  if !portReady s 1 || hostWaits s pa len then .next s
  else if !((List.range len).all fun k => hostReaches s 1 (pa + k)) then
    .fault .reservedAddress
  else
    let halves := if len = 0 then [] else (List.range ((pa + len - 1) / 64 - pa / 64 + 1)).map fun k => pa / 64 + k
    .next (halves.foldl (fun s g =>
      let (ws, s) := hostWords s (cxlAgent place.agent) (64 * g) 16
      s.send (.cxlHalf place.agent (64 * g) (ws.any (·.2.isSome)) (ws.flatMap fun x => bytesOfWord x.1))) s)

/-- R367: CXL_SNOOP: the host takes a half of a host-homed line away from the device, which answers. -/
def execCxlSnoop (pa : Nat) (upper : Bool) (s : State) : Result :=
  match regionOf pa with
  | .host =>
    let a := pa / 128 * 128 + if upper then 64 else 0
    let held := (sget (0 : BitVec 2) s.mem.bridge (lineOf a)).getLsbD (a / 64 % 2)
    .next ((dropHalf s a).send (.cxlSnooped a held))
  | _ => .next s

/-! ## Queue descriptors and partition masks -/

/-- R369: a descriptor's first word may set enable: log2n, reserved bits, and a live context. -/
def descriptorValid (s : State) (queue : Nat) (x : DWord) : Bool :=
  let n := (x.extractLsb' 4 4).toNat
  4 ≤ n && n ≤ 12 && x.extractLsb' 52 12 = 0 && x.extractLsb' 8 8 = 0 && !x.getLsbD 1 &&
    (s.ctx (s.mgmt (0x1000 + 16 * queue + 8)).toNat).isSome

/-- R369: what a write of a descriptor's first word leaves in it: while enable is set only enable and err change. -/
def descriptorWord (s : State) (queue : Nat) (x : DWord) : DWord :=
  let old := s.mgmt64 (0x1000 + 16 * queue)
  let err : DWord := if x.getLsbD 2 then 0 else old &&& 4
  if old.getLsbD 0 then (old &&& ~~~5#64) ||| err ||| (x &&& 1)
  else (x &&& 0x000FFFFFFFFF00F8#64) ||| err ||| (if descriptorValid s queue x then x &&& 1 else 0)

/-- R369, R371: QUEUE_DESCRIPTOR_WRITE. A ring that becomes enabled is watched from its tail on; one that is disabled is
watched no longer. -/
def execQueueDescriptorWrite (queue : Nat) (second : Bool) (value : DWord) (s : State) : Result :=
  let off := 0x1000 + 16 * queue
  if !served s || 64 ≤ queue then .next s
  else
    let on := (s.mgmt off).getLsbD 0
    if second then .next (if on then s else s.setMgmt (off + 8) (value.extractLsb' 0 8 |>.setWidth 32))
    else
      let s' := s.setMgmt64 off (descriptorWord s queue value)
      let now := (s'.mgmt off).getLsbD 0
      if !on && now then .next (tailWritten s' queue (hostFloor s'.mem))
      else if on && !now then .next { s' with host := { s'.host with tails := sdel s'.host.tails queue } }
      else .next s'

/-- R377, R417: a mask that a partition may take: it overlaps no other, its quadrants are ready with their near memory, and
no context of the partition is live. -/
def maskAllowed (s : State) (partition : Nat) (mask : BitVec 4) : Bool :=
  ((List.range 4).all fun n => n = partition || partMask s n &&& mask = 0) &&
    ((List.range 4).all fun q => !mask.getLsbD q || (ready s (8 + q) && ready s (12 + q))) &&
    !(s.host.ctxs.any fun kc => kc.2.part = partition)

/-- R377: PARTITION_MASK_WRITE. -/
def execPartitionMaskWrite (partition : Nat) (value : Word) (s : State) : Result :=
  if !served s || 4 ≤ partition || !maskAllowed s partition (value.setWidth 4) then .next s
  else .next (s.setMgmt (0x100 + 4 * partition) (value &&& 0xF))

/-! ## The fault queue -/

/-- R387: the block of a partition's fault queue. -/
def faultBlock (part : Nat) : Nat := 0x200 + 32 * part

/-- R388: the words of a record. -/
def faultWords (f : FaultRec) (id : Word) : List Word :=
  let va : DWord := f.page.setWidth 64
  let w1 : Word := 0#21 ++ BitVec.ofNat 2 f.agent ++ BitVec.ofBool f.write ++ BitVec.ofNat 8 f.ctx
  [va.halves.1, va.halves.2, id, w1, f.loc.setWidth 32, 0, 0, 0]

/-- R388: FAULT_RECORD_POST: a fault that waits is posted, where the ring is enabled and has room and its number names no
record that is outstanding. -/
def execFaultRecordPost (fault : Nat) (s : State) : Result :=
  match s.host.faults[fault]? with
  | none => .next s
  | some f =>
    let b := faultBlock f.part
    let d := s.mgmt64 b
    let n := 2 ^ (d.extractLsb' 4 4).toNat
    let head := s.mgmt (b + 8)
    let tail := s.mgmt (b + 12)
    let busy := s.host.faults.any fun g => g.part = f.part && g.id = some tail
    if f.id.isSome || !d.getLsbD 0 || n ≤ (tail - head).toNat || busy then .next s
    else
      let base := (d.extractLsb' 16 48).toNat * 65536
      let s := deviceWords s (base + 32 * (tail.toNat % n)) (faultWords f tail)
      let faults := s.host.faults.set fault { f with id := some tail }
      let s := { s with host := { s.host with faults := faults } }.setMgmt (b + 12) (tail + 1)
      .next (if tail = head then s.send (.faultQueue f.part) else s)

/-- The page of an address. -/
def pageBase (va : BitVec 55) : BitVec 55 := va &&& ~~~0xFFFF#55

/-- A page of a context is not present still. -/
def stillAbsent (s : State) (ctx : Nat) (va : BitVec 55) : Bool :=
  match (walk s ctx va.toNat).1 with
  | .fail k _ => k = causeNotPresent
  | .leaf _ => false

/-- The groups of a context, resident and saved. -/
def groupsAnywhere (s : State) (ctx : Nat) : List Group :=
  s.groupsOf ctx ++ (s.host.images.filter (·.wg.ctx = ctx)).flatMap (·.groups)

/-- The workgroups of a context, resident and saved. -/
def wgsAnywhere (s : State) (ctx : Nat) : List WG :=
  ((s.exe.wgs.map (·.2)).filter (·.ctx = ctx)) ++ ((s.host.images.map (·.wg)).filter (·.ctx = ctx))

/-- A service waits for a page. -/
def Service.waitsFor (page : BitVec 55) : Service → Bool
  | .page va _ => pageBase va = page
  | .cellPage va => pageBase va = page
  | _ => false

/-- R62, R388: the services of a path after its page was serviced: each that waited for it translates again. -/
def retranslate (s : State) (ctx : Nat) (priv : Bool) (loc : BitVec 11) (page : BitVec 55) (x : Serving) :
    Serving × State :=
  let mine := x.services.filter fun y => y.2.waitsFor page
  let ps := mine.filterMap fun y => match y.2 with
    | .page va write =>
      if stillAbsent s ctx va then some ({ t := y.1, cause := causeNotPresent, write := write, addr := va } : LivePoison) else none
    | .cellPage va => some { t := y.1, cause := causeFutureEmpty, addr := va }
    | _ => none
  let (l, bad, s) := startServices s ctx priv loc ps
  ({ x with services := (x.services.filter fun y => !y.2.waitsFor page) ++ l, failed := x.failed ||| bad }, s)

/-- R388: the services of a path after its page failed: their threads become unserviceable. -/
def failServices (page : BitVec 55) (x : Serving) : Serving :=
  { x with
    failed := x.failed ||| (maskOf fun t => x.services.any fun y => y.1 = t && y.2.waitsFor page)
    services := x.services.filter fun y => !y.2.waitsFor page }

/-- Changes the services of every path of a group. -/
def mapServing (s : State) (g : Group) (f : State → Serving → Serving × State) : State :=
  g.span.serving.foldl (fun s kx =>
    let (y, s) := f s kx.2
    modGroupAny s g.id fun g => { g with span := { g.span with serving := sins g.span.serving kx.1 y } }) s

/-- R302: the operations of every tile of a context, resident and saved, after a page was completed. -/
def mapTileOps (s : State) (ctx : Nat) (f : MatOp → MatOp) : State :=
  (wgsAnywhere s ctx).foldl (fun s w => modWgAny s w.id fun w =>
    { w with tiles := smapAll w.tiles fun x => { x with ops := x.ops.map f } }) s

/-- R388: the pushes that wait for the translation of their cell's page. -/
def pagePushes (c : Context) (page : BitVec 55) : List (Nat × Nat × WaitingPush) :=
  c.lists.flatMap fun kl => kl.2.units.flatMap fun ku =>
    (ku.2.waiting.filter fun w => w.why = 2 && pageBase w.page = page).map fun w => (kl.1, ku.1, w)

/-- R388: a record completed with status 01: every waiter translates again. -/
def pageServiced (s : State) (f : FaultRec) : State :=
  let s := (groupsAnywhere s f.ctx).foldl (fun s g =>
    let w := findWg s g.wg
    let priv := (w.bind fun w => s.launch w.launch).any (·.priv)
    let loc := w.elim 0 fun w => location w g.part
    mapServing s g fun s x => retranslate s f.ctx priv loc f.page x) s
  let ops := (s.exe.engOps.map (·.2)).filter fun o => o.ctx = f.ctx && o.waits.contains f.page
  let s := ops.foldl (fun s o => remarkFlight (modOp s o.id fun o => { o with waits := o.waits.erase f.page }) o f.page) s
  let s := mapTileOps s f.ctx fun o => { o with waits := o.waits.erase f.page }
  (((s.ctx f.ctx).map (pagePushes · f.page)).getD []).foldl (fun s x =>
    acceptPush (takeWaiting s f.ctx x.1 x.2.1 x.2.2) f.ctx x.1 x.2.1 x.2.2) s

/-- R388, R434: a record completed with status 10: its waiters fail. -/
def pageFailed (s : State) (f : FaultRec) : State :=
  let s := (groupsAnywhere s f.ctx).foldl (fun s g => mapServing s g fun s x => (failServices f.page x, s)) s
  let s := ((s.exe.engOps.map (·.2)).filter fun o => o.ctx = f.ctx && o.waits.contains f.page).foldl (fun s o =>
    modOp s o.id fun o => { o with waits := o.waits.erase f.page, failedPages := f.page :: o.failedPages }) s
  let s := mapTileOps s f.ctx fun o =>
    if o.waits.contains f.page then { o with waits := o.waits.erase f.page, failedPages := f.page :: o.failedPages } else o
  let s := (((s.ctx f.ctx).map (pagePushes · f.page)).getD []).foldl (fun s x =>
    rejectPush (takeWaiting s f.ctx x.1 x.2.1 x.2.2) f.ctx x.1 x.2.1 false) s
  raise s { cls := 12, src := if f.agent = 1 then 7 else 0, ctx := some f.ctx, part := some f.part,
            loc := f.loc.extractLsb' 9 2 ++ if f.agent = 1 then 0xFFF#12
              else f.loc.extractLsb' 5 4 ++ (f.loc.extractLsb' 2 3).setWidth 4 ++ (f.loc.extractLsb' 0 2).setWidth 4
            info := [0, causeNotPresent.setWidth 64 <<< 16] }

/-- R388: FAULT_COMPLETION: the driver completes a record. One that names no outstanding record, and a status of 00 or 11, is
ignored. -/
def execFaultCompletion (partition : Nat) (id : Word) (status : BitVec 2) (s : State) : Result :=
  match s.host.faults.find? fun f => f.part = partition && f.id = some id with
  | none => .next s
  | some f =>
    let s' := { s with host := { s.host with faults := s.host.faults.erase f } }
    if !served s then .next s
    else if status = 1 then .next (pageServiced s' f)
    else if status = 2 then .next (pageFailed s' f)
    else .next s

end Sys2Proof.Machine
end

