-- ==== Sys2Proof/Machine/Contexts.lean ====
section
/-!
DEFINITION. Context commands (R378, R379, R392): CREATE, DESTROY, INVAL (R393), PREEMPT with its saves (R394 to R396), RESUME
(R397), and migration (R105).
-/

namespace Sys2Proof.Machine

/-! ## CREATE and DESTROY -/

/-- R378: CREATE makes a context live: its worklists are disabled and its counters are zero. -/
def createContext (s : State) (tag partition : Nat) (root : DWord) : State :=
  let table := root &&& ~~~0xFFFF#64
  let s := s.setMgmt64 (0x4000 + 32 * tag) table
  let s := (List.range 8).foldl (fun s k => s.setMgmt (debugBlock tag + 0x40 + 4 * k) 0) s
  { s with host := { s.host with ctxs := sins s.host.ctxs tag { tag := tag, part := partition, root := table } } }

/-- R417: the quadrants of a partition have quad and near set. -/
def partitionReady (s : State) (partition : Nat) : Bool :=
  (partQuads s partition).all fun q => ready s (8 + q) && ready s (12 + q)

/-- R378, R379, R417: CREATE. -/
def execCreate (tag partition : Nat) (root : DWord) (s : State) : Result :=
  command1 s
    [(tag = 0 || 255 < tag || (s.ctx tag).isSome, if (s.ctx tag).isSome then 4 else 3), (64 ≤ s.host.ctxs.length, 2),
     (4 ≤ partition || partMask s partition = 0, 1), (!partitionReady s partition, 5)]
    fun s => createContext s tag partition root

/-- R375, R378: the launches of a context that end with it write their completions while its tables still serve. -/
def finishLaunches (s : State) (tag : Nat) : State :=
  ((s.host.launches.map (·.2)).filter fun l => l.ctx = tag && l.state = 2).foldl (fun s l => (finishLaunch s l).getD s) s

/-- R378: DESTROY. Its checkpoint is aborted first, so that the completions of its launches wait for no copy (R429, R431). -/
def execDestroy (tag : Nat) (s : State) : Result :=
  command1 s [((s.ctx tag).isNone, 1)] fun s =>
    destroyContext (finishLaunches (endLaunches (abortCheckpoints s tag) tag) tag) tag

/-! ## INVAL (R392, R393) -/

/-- R392: an address lies in a range of 64 KiB pages. -/
def inPages (va npages : Nat) (a : Nat) : Bool := va / 65536 ≤ a / 65536 && a / 65536 < va / 65536 + npages

/-- R392: a page of a level meets a range of 64 KiB pages. -/
def pageMeets (level page va npages : Nat) : Bool :=
  let size := 2 ^ levelShift level
  let lo := va / 65536 * 65536
  page * size < lo + 65536 * npages && lo < (page + 1) * size

/-- R392: a translation covers a page of a range. -/
def TlbEntry.meets (t : TlbEntry) (va npages : Nat) : Bool := pageMeets t.level t.vpage va npages

/-- R392: an address that was translated through a leaf of a level, which covers a page of a range. -/
def touched (va npages level a : Nat) : Bool := pageMeets level (a / 2 ^ levelShift level) va npages

/-- R392: a result in flight is an access of a context: of one of its groups, or an effect of one that has ended. -/
def Pending.ofContext (p : Pending) (tag : Nat) (gids : List Nat) : Bool :=
  gids.contains p.gid || p.what.eff.any (·.ctx = tag)

/-- R392: an access of a context to a range is still to be performed, by one of its groups or by an operation whose request is on
its way to another package. -/
def accessWaits (s : State) (tag va npages : Nat) : Bool :=
  let gids := (groupsAnywhere s tag).map (·.id)
  (s.exe.pendings.any fun kp => kp.2.ofContext tag gids && match kp.2.what with
    | .access (.eff e) a _ _ _ => e.flat && touched va npages kp.2.level a.toNat
    | .access _ a _ _ _ => touched va npages kp.2.level a.toNat
    | .remote _ a _ _ _ => touched va npages kp.2.level a.toNat
    | _ => false) ||
  s.host.chords.any fun kc => kc.2.requests.any fun r => r.engine.any fun n => ((getOp s n).any (·.ctx = tag)) &&
    (touched va npages (leafLevel s tag r.lo) r.lo || inPages va npages (r.lo + r.len - 1))

/-- R393: the leaf of a held effect as it now stands fails R255. -/
def heldFails (s : State) (priv : Bool) (e : Eff) : Option (Cause × Word) × State :=
  let future := e.kind = .fill || e.kind = .clear
  match checkFlat s e.ctx none priv { write := true, future := future } e.va with
  | (.fail k o, s) => (some (k, o), s)
  | (.loc _ true, s) => (some (causeEcc, 0), s)
  | (.remote _ _ _ true, s) => (some (causeEcc, 0), s)
  | (_, s) => (none, s)

/-- R393: a held effect whose address is poisoned now, live in the threads whose effect it is. -/
def Group.poisonHeld (g : Group) (e : Eff) (tok : Token) (r : Option Record) : Group :=
  let g := (threadsOf e.owners).foldl (fun g t => g.becomeLive t tok r) g
  { g with quar := g.quar.map fun q => { q with effs := q.effs.map fun x => if x = e then { e with apoi := some tok } else x } }

/-- R44, R393: the held effects of one instruction of a group, resident or saved, whose page fails now get poisoned addresses
under new in-span records. -/
def convertHeld (s : State) (gid : Nat) (priv : Bool) (es : List Eff) : State :=
  let (bad, s) := es.foldl (fun acc e => match heldFails acc.2 priv e with
    | (none, s) => (acc.1, s)
    | (some (k, o), s) =>
      (acc.1 ++ [(e, ({ t := e.t, cause := k, write := true, addr := some e.va, gorigin := o, inst := some e.inst } : Fresh))], s))
    (([] : List (Eff × Fresh)), s)
  if bad.isEmpty then s else
  let (toks, s) := newRecords s gid ((es.head?).elim 0 (·.pc)) (fun _ => true) (bad.map (·.2))
  modGroupAny s gid fun g => (bad.zip toks).foldl (fun g x => g.poisonHeld x.1.1 x.2.2 (recordFor s gid x.2.2)) g

/-- R393: the held effects of a context whose translation was removed are checked again, instruction by instruction. -/
def convertRange (s : State) (tag va npages : Nat) : State :=
  let hit (e : Eff) : Bool := e.flat && e.apoi.isNone && touched va npages e.level e.va.toNat
  (groupsAnywhere s tag).foldl (fun s g =>
    let priv := ((findWg s g.wg).bind fun w => s.launch w.launch).any (·.priv)
    let effs := (g.quar.flatMap (·.effs)).filter hit
    ((effs.map fun e => (e.pc, e.inst)).eraseDups).foldl (fun s k =>
      convertHeld s g.id priv (effs.filter fun e => (e.pc, e.inst) = k)) s) s

/-- R392, R393: INVAL. It completes once every access that used a translation of the range is performed; until then nothing
happens. -/
def execInval (tag : Nat) (va : DWord) (npages : Nat) (s : State) : Result :=
  if served s && (s.ctx tag).isSome && accessWaits s tag va.toNat npages then .next s
  else command1 s [((s.ctx tag).isNone, 1)] fun s =>
    let tlb := s.mem.tlb.filter fun t => !(t.ctx = tag && t.meets va.toNat npages)
    convertRange (s.withMem { s.mem with tlb := tlb }) tag va.toNat npages

/-! ## Pre-emption (R394) -/

/-- R210, R394: a PAUSE ends. -/
def endPauses (g : Group) : Group :=
  { g with paths := smapAll g.paths fun p => match p.park with | .pause _ => { p with park := .running } | _ => p }

/-- R394: the resident workgroups of a context. -/
def residentWgs (s : State) (tag : Nat) : List WG := (s.exe.wgs.map (·.2)).filter (·.ctx = tag)

/-- R394: the lowest free slot of a context's save area. -/
def freeSlot (s : State) (c : Context) : Option Nat :=
  (List.range ((s.mgmt (0x4000 + 32 * c.tag + 8)).extractLsb' 0 16).toNat).find? fun k => !(c.images.any (·.1 = k))

/-- R394: how many slots of a context's save area are free. -/
def freeSlots (s : State) (c : Context) : Nat := ((s.mgmt (0x4000 + 32 * c.tag + 8)).extractLsb' 0 16).toNat - c.images.length

/-- R394: when the last resident workgroup is saved, PREEMPT is complete. -/
def settlePreempt (s : State) (tag : Nat) : State :=
  match s.ctx tag with
  | none => s
  | some c =>
    if !c.stopping || !(residentWgs s tag).isEmpty then s
    else
      endPreempts (s.modCtx tag fun c => { c with stopping := false, preempted := true }) tag 0 0

/-- R394: PREEMPT: the context's groups stop; each workgroup is saved by PREEMPT_SAVE, and the reply follows the last save; the
replies of later commands wait for it (R379). A PREEMPT of a killed context fails (R439). -/
def execPreempt (tag : Nat) (s : State) : Result :=
  if !served s then .next s else
  match s.ctx tag with
  | none => .next (reply s 1 1 1)
  | some c =>
    if freeSlots s c < (residentWgs s tag).length then .next (reply s 1 2 2)
    else if c.killed then .next (reply s 1 4 3)
    else
      let stop (g : Group) : Group := { endPauses g with stop := if g.stop = .debug then .debug else .context }
      let s := (s.groupsOf tag).foldl (fun s g => s.modGroup g.id stop) s
      let s := s.modCtx tag fun c => { c with stopping := true }
      .next (settlePreempt { s with host := { s.host with replies := s.host.replies ++ [(tag, none)] } } tag)

/-- R394: the accesses of a workgroup's groups are drained: only QR and WLPOP results are outstanding, released pushes and QWs
that wait for their turn, and looks of an FWAIT. -/
def drained (s : State) (gids : List Nat) : Bool :=
  s.exe.pendings.all fun kp => !gids.contains kp.2.gid || match kp.2.what with
    | .result _ _ _ => true
    | .pop _ _ _ => true
    | .access (.eff e) _ _ _ _ => !e.flat
    | .remote .poll _ _ _ _ => true
    | _ => false

/-- R395, R431: writes the image of a workgroup and frees its resources. -/
def saveWg (s : State) (w : WG) (slot : Nat) : State :=
  let base := slotBase s w.ctx slot
  let (i, s) := imageOf s w
  let s := writeSlot s base i
  let s := markSaved s w.ctx base ((slotParts w i.groups (i.records.map (·.1))).flatMap fun p => [p.1, p.1 + p.2 - 1])
  let s := freeRecords (s.withMem (freeScratch s.mem w)) (i.groups.map (·.id))
  let exe := { s.exe with groups := s.exe.groups.filter fun kg => kg.2.wg ≠ w.id, wgs := sdel s.exe.wgs w.id }
  let s := { s with exe := exe, host := { s.host with images := s.host.images ++ [i] } }
  s.modCtx w.ctx fun c => { c with images := c.images ++ [(slot, i.serial)] }

/-- R394: PREEMPT_SAVE: a drained workgroup of a stopping context is saved to the next free slot. -/
def execPreemptSave (workgroup : Nat) (s : State) : Result :=
  match s.wg workgroup with
  | none => .next s
  | some w =>
    match s.ctx w.ctx with
    | none => .next s
    | some c =>
      let gids := ((s.exe.groups.map (·.2)).filter (·.wg = w.id)).map (·.id)
      if !c.stopping || c.killed || !drained s gids then .next s
      else match freeSlot s c with
        | none => .next s
        | some k => .next (settlePreempt (saveWg s w k) w.ctx)

/-! ## Tokens of moved records (R397) -/

/-- R397: what each moved token becomes. -/
abbrev Retoken := List (Token × Token)

/-- R46, R397: a token that names no moved record is kept. -/
def retoken (ks : Retoken) (k : Token) : Token := ((ks.find? (·.1 = k)).map (·.2)).getD k

/-- R397: a register that holds poison. -/
def retokenReg (ks : Retoken) (r : Reg) : Reg :=
  if r.poi then { r with val := (retoken ks (r.val.setWidth 10)).setWidth 32 } else r

/-- R397: a held effect. -/
def retokenEff (ks : Retoken) (e : Eff) : Eff :=
  { e with apoi := e.apoi.map (retoken ks), dpoi := e.dpoi.map (retoken ks), gpoi := e.gpoi.map (retoken ks) }

/-- R397: a group: registers, predicates, index registers, quarantine entries, live poison. -/
def retokenGroup (ks : Retoken) (g : Group) : Group :=
  { g with
    v := smapAll g.v (retokenReg ks)
    sr := smapAll g.sr (retokenReg ks)
    p := smapAll g.p fun x => if x.poi then { x with tok := retoken ks x.tok } else x
    x := smapAll g.x fun x => if x.poi then { x with tok := retoken ks x.tok } else x
    quar := g.quar.map fun q => { q with effs := q.effs.map (retokenEff ks) }
    span := { g.span with poisons := g.span.poisons.map fun y => { y with tok := retoken ks y.tok } } }

/-- R397: a workgroup: tiles with their operations, and arrivals. -/
def retokenWg (ks : Retoken) (w : WG) : WG :=
  let op (o : MatOp) : MatOp := { o with fail := o.fail.map (retoken ks), seen := o.seen.map fun x => (x.1, retoken ks x.2) }
  { w with
    tiles := smapAll w.tiles fun x => { x with tok := x.tok.map (retoken ks), ops := x.ops.map op }
    arrivals := w.arrivals.map fun a => { a with block := a.block.map fun b => (b.1, b.2.map (retoken ks)) } }

/-- R397: results in flight of groups that hold poison. -/
def retokenPendings (s : State) (ks : Retoken) (gids : List Nat) : State :=
  let f (p : Pending) : Pending :=
    if !gids.contains p.gid then p else match p.what with
    | .ready rs => { p with what := .ready (rs.map fun x => (x.1, retokenReg ks x.2)) }
    | .access (.eff e) va pa n ds => { p with what := .access (.eff (retokenEff ks e)) va pa n ds }
    | .access (.atomicRet e) va pa n ds => { p with what := .access (.atomicRet (retokenEff ks e)) va pa n ds }
    | _ => p
  { s with exe := { s.exe with pendings := smapAll s.exe.pendings f } }

/-- R397: records enter the side table of a core, each in a free entry. -/
def moveRecords (s : State) (core : Nat) (recs : List (Nat × Nat × Record)) : Retoken × State :=
  recs.foldl (fun acc x =>
    let side : Side := sget {} acc.2.exe.sides core
    match freeEntry side.recs acc.2.ctl.tick with
    | none => acc
    | some e =>
      let side := { side with recs := sins side.recs e (x.2.1, x.2.2) }
      (acc.1 ++ [(BitVec.ofNat 10 x.1, BitVec.ofNat 10 e)],
       { acc.2 with exe := { acc.2.exe with sides := sput {} acc.2.exe.sides core side } }.bump)) ([], s)

/-! ## Placing a workgroup again (R105, R397) -/

/-- R58: quarantine entries of a core in use, beyond those reserved for each group. -/
def sharedOf (gs : List Group) : Nat := (gs.map fun g => g.quar.length - 8).sum

/-- R23, R397: a core takes a saved or moving workgroup: its gang, its records, its quarantine entries. `others` are the
core's groups but for the workgroup's own. -/
def takesWg (s : State) (w : WG) (gs : List Group) (nrecs quad core : Nat) : Option (List (Nat × Nat)) :=
  let used := (sget ({} : Side) s.exe.sides (80 * quad + core)).recs.length
  let others := (s.exe.groups.map (·.2)).filter fun g => g.wg ≠ w.id && (s.wg g.wg).any fun x => x.coreNo = 80 * quad + core
  if 80 ≤ core || coreDisabled s quad core || 1023 < used + nrecs || 256 < sharedOf others + sharedOf gs then none
  else (coreRoom s quad core).takeGang w.scratch w.ntiles (gs.map (·.budget))

/-- R397: the first core of the context's partition that takes a workgroup. -/
def coreFor (s : State) (w : WG) (gs : List Group) (nrecs : Nat) : Option (Nat × Nat × List (Nat × Nat)) :=
  (partQuads s ((s.ctx w.ctx).elim 0 (·.part))).findSome? fun q =>
    (List.range 80).findSome? fun c => (takesWg s w gs nrecs q c).map (q, c, ·)

/-- R82, R33: a group takes its place on a core; its monitor takes the flag. -/
def seat (ps : (Nat × Nat)) (g : Group) : Group :=
  { g with part := ps.1, slot := ps.2, mon := { g.mon with flag := g.mon.flag || g.mon.armed } }

/-- R105: each thread of a moving workgroup performs a fence as its last act on the old core. -/
def moveFence (m : MemSys) (w : WG) (gs : List Group) (quad core : Nat) : MemSys :=
  gs.foldl (fun m g => (threadsOf (~~~g.exited)).foldl (fun m t =>
    let old := placeOf g w t
    let scope := if quad ≠ w.quad then 5 else if core / 8 ≠ w.core / 8 then 4 else 3
    let a := agentOf g.id t
    observe (publish m old scope (floorsOf m a)) a old scope) m) m

/-- R105, R136: MIGRATION: a workgroup whose accesses are performed moves to another core of its partition that takes it. Its words that
access memory wait for the acknowledgement of the flush. -/
def execMigration (workgroup quadrant core : Nat) (s : State) : Result :=
  match s.wg workgroup with
  | none => .next s
  | some w =>
    let gs := sortBy (fun a b => a.pos ≤ b.pos) ((s.exe.groups.map (·.2)).filter (·.wg = w.id))
    let gids := gs.map (·.id)
    let recs := (sget ({} : Side) s.exe.sides w.coreNo).recs.filter fun kr => gids.contains kr.2.1
    let allowed := (s.ctx w.ctx).any fun c => !c.killed && !c.stopping && (partQuads s c.part).contains quadrant
    if !allowed || !drained s gids || (quadrant = w.quad && core = w.core) then .next s
    else match takesWg s w gs recs.length quadrant core with
      | none => .next s
      | some ps =>
        let s := s.withMem (moveFence s.mem w gs quadrant core)
        let s := freeRecords s gids
        let (ks, s) := moveRecords s (80 * quadrant + core) (recs.map fun kr => (kr.1, kr.2.1, kr.2.2))
        let s := retokenPendings s ks gids
        let s := s.modWg w.id fun w => { retokenWg ks w with quad := quadrant, core := core, moved := true }
        .next ((gs.zip ps).foldl (fun s gp => s.modGroup gp.1.id fun g => seat gp.2 (retokenGroup ks g)) s)

/-- R105, R136: the old core of a workgroup acknowledges the flush, once the pushes that the move's fence waits for are performed. -/
def flushAcknowledged (s : State) (wg : Nat) : State :=
  match s.wg wg with
  | none => s
  | some w =>
    let gs := (s.exe.groups.map (·.2)).filter (·.wg = wg)
    if !w.moved || gs.any fun g => pushesWaiting s w g.id (List.range 128) none then s
    else s.modWg wg fun w => { w with moved := false }

/-! ## RESUME (R397) -/

/-- R395: the records of a saved workgroup as its slot holds them; a record that is no longer valid is gone. -/
def slotRecords (m : MemSys) (base : Nat) (recs : List (Nat × Nat × Record)) : List (Nat × Nat × Record) :=
  recs.filterMap fun x =>
    (recordFrom fun k => memWord m (base + 0x4000 + 32 * x.1 + 4 * k)).map fun r => (x.1, x.2.1, { r with regs := x.2.2.regs, inst := x.2.2.inst })

/-- R395 to R397: a saved workgroup as its slot holds it. -/
def readSlot (s : State) (base : Nat) (i : Image) : Image :=
  let m := s.mem
  let group (g : Group) : Group := groupBarsFrom m base (groupFrom m (base + 0x100000 + 0x40000 * g.pos) g)
  readRegions s base { i with wg := wgFrom m base i.wg, groups := i.groups.map group, records := slotRecords m base i.records }

/-- R395, R459: words of a scratchpad come back with their poison marks. A word that an operation or a thread wrote last stays
theirs; one that nothing had written stays so while its slot holds a clean 0. -/
def scratchWords (i : Image) (src dst : Nat) (s : State) : Nat → State
  | 0 => s
  | k + 1 =>
    let o := i.wg.scratch / 4 - (k + 1)
    let a := src + 4 * o
    let late : Option Nat := ((writesOf s.mem a).head?).bind fun w => if w.agent = deviceAgent then none else some w.agent
    let s := match late.or (sfind i.authors (4 * o)) with
      | some g => s.withMem (pokeWord s.mem g (dst + 4 * o) (memWord s.mem a) (wordPoi s.mem a) (lineOrigin s.mem a) 0)
      | none => if memWord s.mem a = 0 && !wordPoi s.mem a then s else copyWords s a (dst + 4 * o) 1
    scratchWords i src dst s k

/-- R395: the scratchpad comes back; the workgroup's threads see it as it was. -/
def restoreScratch (s : State) (w : WG) (i : Image) (base : Nat) : State :=
  let s := scratchWords i (base + 0x80000) w.scratchBase s (w.scratch / 4)
  let m := s.mem
  let floor := sjoin [] ((m.writes.filter fun x => w.scratchBase ≤ x.loc && x.loc < w.scratchBase + w.scratch).map
    fun x => (x.loc, x.seq))
  s.withMem (i.groups.foldl (fun m g => (List.range 128).foldl (fun m t => raiseFloors m (agentOf g.id t) floor) m) m)

/-- R394, R455: how a restored group goes on. -/
def restoredStop (c : Context) (w : WG) (g : Group) : Stop :=
  if c.killed then .context else if g.stop = .debug then .debug else if w.stepping then .stepping else .none

/-- R33, R397: restores a workgroup from its slot onto a core. Its groups keep their ages: the saved order among them, and,
which the specification does not say, against the groups that are resident there already: DESIGN CHOICE (log entry 65). -/
def restoreWg (s : State) (c : Context) (i : Image) (slot quad core : Nat) (ps : List (Nat × Nat)) : State :=
  let base := slotBase s c.tag slot
  let s := fetchSlot s base i
  let moved := quad ≠ i.wg.quad || core ≠ i.wg.core
  let s := if moved then s.withMem (moveFence s.mem i.wg i.groups quad core) else s
  let i := readSlot s base i
  let (ks, s) := moveRecords s (80 * quad + core) i.records
  let w := retokenWg ks { i.wg with quad := quad, core := core, moved := moved }
  let back (gp : Group × (Nat × Nat)) : Group :=
    let g := seat gp.2 (retokenGroup ks gp.1)
    { g with stop := restoredStop c i.wg gp.1, traceCount := 255, quar := if c.killed then [] else g.quar }
  let exe := { s.exe with
    wgs := sins s.exe.wgs w.id w
    groups := (i.groups.zip ps).foldl (fun m gp => sins m gp.1.id (back gp)) s.exe.groups }
  let s := { s with exe := exe, host := { s.host with images := s.host.images.filter (·.serial ≠ i.serial) } }
  restoreScratch s w i base

/-- R397: restores every saved image of a context; none while one finds no core. -/
def restoreAll (s : State) (c : Context) : Option State :=
  (c.images.foldl (fun (acc : Option State) x => acc.bind fun s =>
    match s.host.images.find? (·.serial = x.2) with
    | none => some s
    | some i => (coreFor s i.wg i.groups i.records.length).map fun q => restoreWg s c i x.1 q.1 q.2.1 q.2.2) (some s)).map
    fun s => s.modCtx c.tag fun c => { c with images := [], preempted := false }

/-- R392, R397: RESUME. It completes once every image finds a core; until then nothing happens. -/
def execResume (tag : Nat) (s : State) : Result :=
  if !served s then .next s else
  match s.ctx tag with
  | none => .next (reply s 1 1 1)
  | some c =>
    if c.images.isEmpty then .next (reply s 1 4 1)
    else match restoreAll s c with
      | none => .next s
      | some s => .next (reply s 1 0 0)

end Sys2Proof.Machine
end

