-- ==== Sys2Proof/Machine/Fabric.lean ====
section
/-!
DEFINITION. Chords: enabling, training, lane loss and going down (R399, R400, R407, R408), flits with acknowledgement and
replay (R401 to R406), received requests (R409 to R412), responses (R405, R259, R413) and messages between packages.
-/

namespace Sys2Proof.Machine

/-! ## Chord registers -/

/-- R400: the registers of a chord. -/
def chordBlock (c : Nat) : Nat := 0x10000 + 32 * c

/-- R400: the number of ports that nports names; none when it is reserved. -/
def portCount (s : State) (c : Nat) : Option Nat :=
  match ((s.mgmt (chordBlock c + 4)).extractLsb' 30 2).toNat with | 0 => some 1 | 1 => some 2 | 2 => some 4 | _ => none

/-- R400: the port at a position. -/
def portAt (s : State) (c i : Nat) : Nat := ((s.mgmt (chordBlock c + 4)).extractLsb' (6 * i) 6).toNat

/-- R400: the ports of a chord. -/
def chordPorts (s : State) (c : Nat) : List Nat := (List.range ((portCount s c).getD 0)).map (portAt s c)

/-- R399: the quadrant of a chord. -/
def chordQuad (s : State) (c : Nat) : Nat := portAt s c 0 / 16

/-- R400: a chord is enabled. -/
def chordEnabled (s : State) (c : Nat) : Bool := (s.mgmt (chordBlock c)).getLsbD 31

/-- R400, R417: a chord may train. -/
def mayTrain (s : State) (c : Nat) : Bool :=
  match portCount s c with
  | none => false
  | some n =>
    let mine := chordPorts s c
    (mine.all fun p => p / 16 = chordQuad s c) && ((List.range 4).all fun i => i < n || portAt s c i = 0) &&
      ((List.range 64).all fun d => d = c || !chordEnabled s d || (chordPorts s d).all fun p => !mine.contains p) &&
      ready s (16 + chordQuad s c)

/-- R438, R443: an event of a chord: chord, lane and sequence number, and the lanes after it. -/
def raiseChord (s : State) (c cls count lane seq : Nat) : State :=
  let q := chordQuad s c
  raise s { cls := cls, src := 5, part := quadPart s q, loc := quadLoc q, count := count,
            info := [BitVec.ofNat 64 (c + 256 * lane + 65536 * seq), BitVec.ofNat 64 (getChord s c).lanes] }

/-- R400: counts in a saturating register of a chord. -/
def countChord (s : State) (c off : Nat) : State := s.setMgmt (chordBlock c + off) (satAdd (s.mgmt (chordBlock c + off)) 1)

/-! ## Responses (R405, R259) -/

/-- R405: the cause of a status. -/
def statusOf (st : BitVec 2) : Cause := match st.toNat with | 1 => causeDenied | 2 => causeLinkLost | _ => causeInvalid

/-- R409: the origin of a marked word of a packet: that of its line, or one that names the sender. -/
def markOrigin (p : Packet) (a : Nat) : Word :=
  if p.pext then (if lineOf a = lineOf p.pa.toNat then p.org0 else p.org1)
  else p.src.setWidth 7 ++ 0#2 ++ 0x7F#7 ++ 0x3FF#10 ++ causeRemote

/-- The word of a packet that holds the bytes of a word address, by offset from the packet's first byte. -/
def packetWord (p : Packet) (a : Nat) : Got :=
  let base := p.pa.toNat
  let b (j : Nat) : Byte := if a + j < base then 0 else p.data.getD (a + j - base) 0
  let k := a / 4 - base / 4
  (wordOfBytes (b 0) (b 1) (b 2) (b 3), if p.marks.getD k false then some (causeRemote, markOrigin p a) else none)

/-- The words of a packet's data from its first word on. -/
def packetData (p : Packet) (n : Nat) : List Got := (List.range n).map fun k => packetWord p (p.pa.toNat / 4 * 4 + 4 * k)

/-- R83, R405, R259: what a response gives one of the lanes that it answers, each with `n` words: words, or poison with its
cause. -/
def answerOf (t : Nat) (va : DWord) (p : Packet) (lane n : Nat) : Sum Fresh (List Word) :=
  let bad (c : Cause) (o : Word) : Sum Fresh (List Word) := .inl { t := t, cause := c, addr := some va, gorigin := o }
  if p.status ≠ 0 then bad (statusOf p.status) 0
  else
    let ws := (List.range n).map fun k => packetWord p (p.pa.toNat / 4 * 4 + 4 * (n * lane + k))
    match ws.findSome? (·.2) with
    | some (c, o) => bad c o
    | none => .inr (ws.map (·.1))

/-- R59, R405: what a response gives a load, with the bytes that its thread held. A narrow load asked for its whole word. -/
def loadAnswer (t : Nat) (va : DWord) (p : Packet) (size : Nat) (conv : LoadConv) (held : SMap (Byte × Option Word)) :
    Sum Fresh (List Word) :=
  if p.status ≠ 0 then .inl { t := t, cause := statusOf p.status, addr := some va }
  else
    let rd (u : Unit) (a : Nat) : Got × Unit := (packetWord p a, u)
    match loadBytes rd () (p.pa.toNat / 4 * 4 + if size < 4 then va.toNat % 4 else p.pa.toNat % 4) size held with
    | (bs, none, _) => .inr (loadValue conv bs)
    | (_, some (c, o), _) => .inl { t := t, cause := c, addr := some va, gorigin := o }

/-- R259: a remote write that failed raises an engine-fault event. -/
def lostWrite (s : State) (e : Eff) : State :=
  raise s { cls := 21, src := 7, ctx := some e.ctx, part := some e.part, loc := quadLoc (e.core / 80)
            info := [e.pc, e.va] }

/-- The words of a load and its size, from its conversion and destination. -/
def loadSize (conv : LoadConv) (ds : List Dest) : Nat := if conv = .raw then 4 * ds.length else 1

/-- Words of a reply, or their poison, as a group keeps them. -/
def replyOf (x : Sum Fresh (List Word)) : List Word × Option (BitVec 6 × Word) :=
  match x with
  | .inr ws => (ws, none)
  | .inl f => ([], some (f.cause, f.gorigin))

/-- R269, R287: keeps what came for a thread of a group that waits for it. -/
def keepReply (s : State) (p : Pending) (x : Sum Fresh (List Word)) : State :=
  dropPending (s.modGroup p.gid fun g => { g with gotten := sins g.gotten p.t (replyOf x) }) p.id

/-- R287: adds words that came to those that a thread has of a descriptor. -/
def moreReply (s : State) (p : Pending) (x : Sum Fresh (List Word)) : State :=
  let next (g : Group) : List Word × Option (BitVec 6 × Word) :=
    ((sfind g.gotten p.t).elim [] (·.1) ++ (replyOf x).1, (replyOf x).2)
  dropPending (s.modGroup p.gid fun g => { g with gotten := sins g.gotten p.t (next g) }) p.id

/-- R283, R405: what a look at a cell on another package found. An empty cell is looked at again, while its group is there. -/
def pollReply (s : State) (p : Pending) (va : DWord) (c : Nat) (pkt : Packet) : State :=
  let s := dropPending s p.id
  match s.group p.gid, ctxOf s p.gid with
  | some _, some tag =>
    if pkt.status = 0 && pkt.aflags.getLsbD 0 then pollCell s p.gid tag p.t p.pc va c pkt.src.toNat pkt.pa.toNat
    else s.modGroup p.gid fun g => { g with cells := (va, pkt.status = 0) :: g.cells }
  | _, _ => s

/-- R405: a response reaches one of the results in flight that wait for it: that of lane `lane`. None while the log of record
mode has no room. -/
def respondPending (s : State) (p : Pending) (lane len : Nat) (pkt : Packet) : Option State :=
  match p.what with
  | .remote (.load conv _ _ held) va _ _ ds => finishRead s p 1 true (loadAnswer p.t va pkt (loadSize conv ds) conv held) ds
  | .remote (.fread _) va _ _ ds =>
    finishRead s p 2 true (if pkt.status = 0 && pkt.aflags.getLsbD 0 then
      .inl { t := p.t, cause := causeFutureEmpty, addr := some va } else answerOf p.t va pkt 0 2) ds
  | .remote (.atomicRet e) va _ _ ds =>
    let n := match e.kind with | .atomic _ true _ => 2 | _ => 1
    finishRead s p 2 true (answerOf p.t va pkt lane n) ds
  | .remote (.eff e) _ _ _ _ => some (dropPending (if pkt.status = 0 then s else lostWrite s e) p.id)
  | .remote (.acquire _) va _ _ _ => some (keepReply s p (answerOf p.t va pkt 0 2))
  | .remote (.config _) va _ _ _ => some (moreReply s p (answerOf p.t va pkt 0 (len / 4)))
  | .remote .poll va c _ _ => some (pollReply s p va c pkt)
  | .remote .code va _ _ _ =>
    -- R172: a poisoned word of the line fails the fetch
    let w : Option Word := match answerOf p.t va pkt 0 32 with
      | .inr ws => ws[va.toNat % 128 / 4]?
      | .inl _ => none
    some (dropPending (s.modGroup p.gid fun g => { g with code := (va, w) :: g.code }) p.id)
  | .remote .tileWord va _ _ _ =>
    let got : Word × Option (BitVec 6 × Word) := match answerOf p.t va pkt 0 1 with
      | .inr ws => (ws.headD 0, none)
      | .inl f => (0, some (f.cause, f.gorigin))
    some (dropPending (s.modGroup p.gid fun g => { g with tileGot := sins g.tileGot va.toNat got }) p.id)
  | _ => some s

/-- R279, R405, R413: a response reaches the engine operation that waits for it. -/
def respondEngine (s : State) (o : EngOp) (r : Request) (pkt : Packet) : Option State :=
  if r.op = 1 then
    let va : DWord := BitVec.ofNat 64 r.lo
    let (w, p) := packetWord pkt pkt.pa.toNat
    match (if pkt.status ≠ 0 then takeOperand s o r.lo va true 0 (some (engOrigin s o)) true
           else takeOperand s o r.lo va true w (p.map (·.2)) false) with
    | (none, _) => none
    | (some _, s) => some (modOp s o.id fun o => { o with asking := false })
  else
    let s := if pkt.status = 0 then s else failOp s o.id (BitVec.ofNat 64 r.lo)
    some (modOp s o.id fun o =>
      let moved := o.moved + r.len
      { o with acks := o.acks - 1, moved := moved, arrived := if (commandSync o.q o.words).isNone then moved else o.arrived })

/-- R82: a write or an atomic of this package was performed on another one: the monitors armed here on its line take the flag. -/
def wakeFar (s : State) (r : Request) (pkt : Packet) : State :=
  let writes := r.engine.isSome || r.pendings.any fun n => (getPending s n).any (·.what.eff.isSome)
  if r.op = 1 || pkt.status ≠ 0 || !writes then s
  else
    let s := wakeMonitors s r.place
    if lineOf (r.place + r.len - 1) = lineOf r.place then s else wakeMonitors s (r.place + r.len - 1)

/-- R405: answers a request with a response: each of its results in flight that is still there, or its engine operation. -/
def respond (s : State) (r : Request) (pkt : Packet) : Option State :=
  let s := wakeFar s r pkt
  match r.engine.bind (getOp s) with
  | some o => respondEngine s o r pkt
  | none =>
    (r.pendings.zip (List.range r.pendings.length)).foldl (fun (acc : Option State) x => acc.bind fun s =>
      match getPending s x.1 with
      | some p => respondPending s p x.2 r.len pkt
      | none => some s) (some s)

/-- R405, R259: the response that a request expects; an ATOMIC that returns nothing gets a WRITE_ACK. -/
def Request.answeredBy (r : Request) (p : Packet) : Bool :=
  r.tag = p.tag && ((r.op = 1 && p.op = 4) || (r.op = 2 && p.op = 5) || (r.op = 3 && (p.op = 5 || p.op = 6)))

/-- R403: the request that a response answers: the oldest with its tag, on the chord over which it came if there is one. -/
def requestFor (s : State) (c : Nat) (p : Packet) : Option (Nat × Request) :=
  (c :: (skeys s.host.chords).filter (· ≠ c)).findSome? fun d =>
    ((getChord s d).requests.find? (·.answeredBy p)).map (d, ·)

/-- R405: takes a response; one that answers no request is dropped. None while it must wait. -/
def takeResponse (s : State) (c : Nat) (p : Packet) : Option State :=
  match requestFor s c p with
  | none => some s
  | some (d, r) => respond (modChord s d fun ch => { ch with requests := ch.requests.erase r }) r p

/-! ## A chord goes down (R408) -/

/-- R83, R257: a packet says that more lanes of its instruction follow for its word. -/
def moreFollow (p : Packet) : Bool := (p.op = 2 || p.op = 3) && p.status &&& moreLanes ≠ 0

/-- R83: a packet with all the lanes that belong to it. -/
def wholeRun (p : Packet) : Packet := { p with status := p.status &&& ~~~moreLanes }

/-- R408: the packets of accepted flits that wait when a chord goes down: lanes whose further lanes are lost are all that there
are. -/
def endRuns (l : List Packet) : List Packet :=
  match (l.filter (·.vc = 0)).getLast? with
  | some p => if moreFollow p then (l.reverse.replace p (wholeRun p)).reverse else l
  | none => l

/-- R408: the answer of a request on a chord that goes down, delivered locally. While the log of record mode has no room for it, it
waits (R461). -/
def lostAnswer (c : Nat) (s : State) (r : Request) : State :=
  let pkt : Packet :=
    { op := r.op + 3, vc := 1, pext := false, status := 2, len := 0, tag := r.tag, src := 0, dst := 0, ctxtag := 0, aop := 0,
      aflags := 0, pa := 0, org0 := 0, org1 := 0, data := [], marks := [] }
  (respond s r pkt).getD (modChord s c fun ch => { ch with requests := ch.requests ++ [r], inq := ch.inq ++ [pkt] })

/-- R400, R408: what is left of a chord that goes down: the count of its trainings since enable, and the packets of accepted flits
that wait, with the requests that such a packet answers. -/
def Chord.lost (ch : Chord) : Chord :=
  { retrains := ch.retrains, inq := endRuns ch.inq, requests := ch.requests.filter fun r => ch.inq.any r.answeredBy }

/-- R408: a chord goes down: its requests that no accepted packet answers are answered LINK_LOST. -/
def chordDown (s : State) (c : Nat) : State :=
  let old := getChord s c
  let s := modChord s c Chord.lost
  let s := raiseChord s c 11 1 0 old.nextSeq.toNat
  (old.requests.filter fun r => !(old.inq.any r.answeredBy)).foldl (lostAnswer c) s

/-- R400, R408: CHORD_ENABLE. -/
def execChordEnable (chord : Nat) (value : Word) (s : State) : Result :=
  if !served s || 64 ≤ chord then .next s
  else if value.getLsbD 31 then
    if (getChord s chord).state ≠ 0 || !mayTrain s chord then .next s
    else .next (modChord (s.setMgmt (chordBlock chord) 0x80000000) chord fun ch => { state := 1, requests := ch.requests, inq := ch.inq })
  else
    let s' := s.setMgmt (chordBlock chord) 0
    .next (if (getChord s chord).state = 0 then s' else chordDown s' chord)

/-! ## Sending flits that are not data -/

/-- R401: sends an idle flit or a replay request: its type and payload word 0. -/
def sendControl (s : State) (c : Nat) (type : BitVec 2) (w : Word) : State :=
  let ch := getChord s c
  if ch.state ≠ 2 then s else
  let h : FlitHead := { type := type, go := goBits s c, av := ch.accepted, ackseq := ch.expected - 1, seq := 0, pmask := 0 }
  s.send (.flit c (flitBytes h [w]))

/-- R404: one replay request naming the expected number, until an acceptable flit comes. -/
def askReplay (s : State) (c : Nat) : State :=
  if (getChord s c).asked then s
  else sendControl (modChord s c fun ch => { ch with asked := true }) c 2 ((getChord s c).expected.setWidth 32)

/-- R401, R406: a flit as it is sent again: its go bits and its acknowledgement are those of now. -/
def restamped (s : State) (c : Nat) (b : List Byte) : List Byte :=
  let ch := getChord s c
  flitBytes { flitHead b with go := goBits s c, av := ch.accepted, ackseq := ch.expected - 1 } ((flitWords b).map (·.1))

/-- R404: resends the buffer from the named flit on, counts the replay and raises one event. -/
def resend (s : State) (c : Nat) (named : BitVec 12) (from' : List (BitVec 12 × List Byte)) : State :=
  let s := from'.foldl (fun s x => s.send (.flit c (restamped s c x.2))) s
  raiseChord (countChord s c 8) c 9 1 0 named.toNat

/-- R407: the widest bonding of the surviving positions, lowest first. -/
def survivors (ports : Nat) (bad : BitVec 4) : BitVec 4 :=
  let good := (List.range ports).filter fun i => !bad.getLsbD i
  let n := if 4 ≤ good.length then 4 else if 2 ≤ good.length then 2 else good.length
  (good.take n).foldl (fun m i => m ||| (1#4 <<< i)) 0

/-- R400, R407: the lanes of the ports in use. -/
def laneWidth (live : BitVec 4) : Nat := 4 * ((List.range 4).filter (live.getLsbD ·)).length

/-- R400, R407: CHORD_TRAINING_COMPLETE: the chord comes up, on all its ports or on those that survive a lane loss, and then
asks for what it misses; the third failure in a row takes it down, and so does a training that finds no whole port. -/
def execChordTrainingComplete (chord : Nat) (ok : Bool) (peer : BitVec 12) (s : State) : Result :=
  let ch := getChord s chord
  if ch.state ≠ 1 then .next s
  else
    let n := min 63 (ch.retrains + 1)
    if !ok then
      if 2 ≤ ch.failed then .next (chordDown (modChord s chord fun ch => { ch with retrains := n }) chord)
      else .next (modChord s chord fun ch => { ch with retrains := n, failed := ch.failed + 1 })
    else
      let first := ch.live = 0
      let live := survivors ((portCount s chord).getD 0) ch.bad
      if live = 0 then .next (chordDown (modChord s chord fun ch => { ch with retrains := n }) chord) else
      let s := modChord s chord fun ch =>
        { ch with state := 2, live := live, lanes := laneWidth live, peer := peer, retrains := n, failed := 0, asked := false }
      let s := flushChord (if first then s else askReplay s chord) chord
      -- R146: messages that found no route, or that the chord dropped, go out again
      .next ((skeys s.host.unconfirmed).foldl (fun s n => if routeTo s n = some chord then resendMessages s n else s) s)

/-- R407: LANE_LOSS: a lane of a port is lost; a chord that uses the port retrains on the surviving ports, or goes down. -/
def execLaneLoss (chord lane : Nat) (s : State) : Result :=
  let ch := getChord s chord
  let i := lane / 4
  if ch.state = 0 then .next s
  else
    let bad := ch.bad ||| (1#4 <<< i)
    if !ch.live.getLsbD i then .next (modChord s chord fun ch => { ch with bad := bad })
    else
      let live := survivors ((portCount s chord).getD 0) bad
      if live = 0 then .next (chordDown s chord)
      else
        let s := modChord s chord fun ch => { ch with state := 1, live := live, lanes := laneWidth live, bad := bad }
        .next (raiseChord s chord 10 1 lane ch.nextSeq.toNat)

/-! ## Received requests (R410 to R412) -/

/-- R412: an inbound entry admits a request. -/
def inboundEntry (s : State) (p : Packet) (n e : Nat) : Bool :=
  let a := s.mgmt64 (0x13000 + 16 * e)
  let limit := ((s.mgmt64 (0x13000 + 16 * e + 8)).extractLsb' 16 48).toNat * 65536
  let base := (a.extractLsb' 16 48).toNat * 65536
  a.getLsbD 12 && (a.extractLsb' 0 12 = 0xFFF || a.extractLsb' 0 12 = p.src) && base ≤ p.pa.toNat && p.pa.toNat + n ≤ limit

/-- R380, R410 to R412: the status with which a request is turned away, 0 when it is performed: another node's request, an address
that is reserved here, an address outside the inbound entries, an address of a window inside one. -/
def inboundStatus (s : State) (p : Packet) (n : Nat) : BitVec 2 :=
  if p.dst.toNat ≠ nodeNo s then 2
  else match regionOf p.pa.toNat with
    | .reserved => 3
    | r => if !(List.range 16).any (inboundEntry s p n) then 1 else match r with
      | .window _ => 3
      | _ => 0

/-- R412: the context that owns the memory at an address: the one of the requester's tag, or the lowest. -/
def ownerCtx (s : State) (p : Packet) : Option Nat :=
  let mine := (s.host.ctxs.map (·.2)).filter fun c => some c.part = ownerOf s p.pa.toNat
  (((mine.find? (·.tag = p.ctxtag.toNat)).or mine.head?)).map (·.tag)

/-- The partition that an inbound access counts for. -/
def ownerPart (s : State) (p : Packet) : Nat := (ownerOf s p.pa.toNat).getD 0

/-- R403: sends the response of a request back, over the route to its node or the chord that it came over. -/
def sendResponse (s : State) (c : Nat) (p : Packet) (op : BitVec 4) (status aflags : BitVec 2) (words : List Got) (len : Nat) :
    State :=
  let marks := words.map (·.2.isSome)
  let base := p.pa.toNat / 4 * 4
  let org (line : Nat) : Word :=
    ((words.zip (List.range words.length)).findSome? fun x =>
      if lineOf (base + 4 * x.2) = line then x.1.2.map (·.2) else none).getD 0
  let bytes := ((words.flatMap fun w => bytesOfWord w.1).drop (p.pa.toNat % 4)).take len
  sendPacket s ((routeTo s p.src.toNat).getD c)
    { op := op, vc := 1, pext := marks.any id, status := status, len := BitVec.ofNat 9 (max len 1), tag := p.tag,
      src := BitVec.ofNat 12 (nodeNo s), dst := p.src, ctxtag := p.ctxtag, aop := 0, aflags := aflags, pa := p.pa,
      org0 := if marks.any id then org (lineOf base) else 0, org1 := if marks.any id then org (lineOf base + 1) else 0,
      data := bytes, marks := marks }

/-- R78: a request reaches a line in flight. -/
def requestBlocked (s : State) (p : Packet) (n : Nat) : Bool :=
  (List.range ((p.pa.toNat % 128 + n + 127) / 128)).any fun k => inFlight s.mem (p.pa.toNat + 128 * k)

/-- R403, R412: a received READ. None while it must wait. -/
def takeRead (s : State) (c : Nat) (p : Packet) : Option State :=
  let n := p.len.toNat
  let st := inboundStatus s p n
  if st ≠ 0 then some (sendResponse s c p 4 st 0 [] 0)
  else if requestBlocked s p n then none
  else
    let a := p.pa.toNat / 4 * 4
    let (ws, s) := readWords s (ownerCtx s p) (ownerPart s p) [remoteAgent] a ((p.pa.toNat % 4 + n + 3) / 4)
    let ws := ws.zip (List.range ws.length) |>.map fun x =>
      (x.1.1, x.1.2.map fun _ => (causeRemote, lineOrigin s.mem (a + 4 * x.2)))
    some (sendResponse s c p 4 0 0 ws n)

/-- R409, R412: a received WRITE writes its bytes, marked words poisoned. None while it must wait. -/
def takeWrite (s : State) (c : Nat) (p : Packet) : Option State :=
  let n := p.len.toNat
  let st := inboundStatus s p n
  if st ≠ 0 then some (sendResponse s c p 5 st 0 [] 0)
  else if requestBlocked s p n then none
  else
    let base := p.pa.toNat
    let words := (List.range ((base % 4 + n + 3) / 4)).map fun k => base / 4 * 4 + 4 * k
    let s := words.foldl (fun s a =>
      let (w, poi) := packetWord p a
      let be : BitVec 4 := (List.range 4).foldl (fun m j => if base ≤ a + j && a + j < base + n then m ||| (1#4 <<< j) else m) 0
      writeOne s [remoteAgent] a w be poi.isSome ((poi.map (·.2)).getD 0) 0) s
    some (sendResponse s c p 5 0 0 [] 0)

/-- R83: the lanes of a received ATOMIC, each with its operand words and the origin of its poison. -/
def packetLanes (p : Packet) (n : Nat) : List (List Word × Option Word) :=
  let count := (p.len.toNat + 3) / 4
  let words := (List.range count).map fun k => packetWord p (p.pa.toNat / 4 * 4 + 4 * k)
  let org := markOrigin p p.pa.toNat
  (List.range (max 1 (count / n))).map fun i =>
    let ws := (words.drop (n * i)).take n
    (ws.map (·.1), if ws.any (·.2.isSome) then some org else none)

/-- R83: the lanes of a received atomic on one word, one after another, with what each returns. -/
def atomicLanes (k : Nat) (wide signed : Bool) (ctx part a : Nat) (lanes : List (List Word × Option Word)) (s : State) :
    List Got × State :=
  lanes.foldl (fun acc x =>
    match atomicAt acc.2 k wide signed (homeMismatch acc.2 none ctx part a 0) 128 ctx part [remoteAgent] 0 a x.1 x.2.isSome (x.2.getD 0) with
    | (.old vs, s) => (acc.1 ++ vs.map (·, none), s)
    | (.poison _ _, s) =>
      (acc.1 ++ [(0, some (causeRemote, lineOrigin s.mem a))] ++ (if wide then [(0, none)] else []), s)) ([], s)

/-- R259, R405: the op of the response of a received ATOMIC: ATOMIC_RESP where it returns something. -/
def atomicAnswer (p : Packet) : BitVec 4 := if p.aflags.getLsbD 1 then 6 else 5

/-- R403: the answer to an ATOMIC: its words all lie at one place, so one origin is theirs. One that returns nothing is
acknowledged. -/
def sendAtomicResponse (s : State) (c : Nat) (p : Packet) (words : List Got) : State :=
  let marks := words.map (·.2.isSome)
  let org := ((words.findSome? (·.2)).map (·.2)).getD 0
  if atomicAnswer p = 5 then sendResponse s c p 5 0 0 [] 0 else
  sendPacket s ((routeTo s p.src.toNat).getD c)
    { op := 6, vc := 1, pext := marks.any id, status := 0, len := BitVec.ofNat 9 (max (4 * words.length) 1), tag := p.tag,
      src := BitVec.ofNat 12 (nodeNo s), dst := p.src, ctxtag := p.ctxtag, aop := 0, aflags := 0, pa := p.pa,
      org0 := if marks.any id then org else 0, org1 := 0, data := words.flatMap fun w => bytesOfWord w.1, marks := marks }

/-- R403: a received ATOMIC: an atomic with its lanes, or a future instruction under its own op value (log entry 22). None
while it must wait. -/
def takeAtomic (s : State) (c : Nat) (p : Packet) : Option State :=
  let op := p.aop.toNat
  let wide := p.aflags.getLsbD 0
  let n := if 0x8C ≤ op || wide then 8 else 4
  let st := inboundStatus s p n
  let a := p.pa.toNat
  if st ≠ 0 then some (sendResponse s c p (atomicAnswer p) st 0 [] 0)
  else if requestBlocked s p n then none
  else
    let ctx := (ownerCtx s p).getD 0
    let part := ownerPart s p
    let lanes := packetLanes p (n / 4 * if op = 0x78 then 2 else 1)
    if op = 0x8C then
      match freadNow s ctx part [remoteAgent] 0 a 0 with
      | (.inr vs, s) => some (sendResponse s c p 6 0 0 (vs.map (·, none)) 8)
      | (.inl f, s) =>
        if f.cause = causeFutureEmpty then some (sendResponse s c p 6 0 1 [] 0)
        else some (sendResponse s c p 6 0 0 ([(0, some (causeRemote, lineOrigin s.mem a)), (0, none)]) 8)
    else if op = 0x8D then
      let x := lanes.headD ([], none)
      some (sendResponse (fillAt s ctx [remoteAgent] a x.1 x.2.isSome (x.2.getD 0) 0) c p (atomicAnswer p) 0 0 [] 0)
    else if op = 0x8F then some (sendResponse (clearAt s a) c p (atomicAnswer p) 0 0 [] 0)
    else
      let (ws, s) := atomicLanes (op - 0x70) wide (p.status.getLsbD 0) ctx part a lanes s
      some (sendAtomicResponse s c p ws)

/-- R83, R257: the packets of one instruction's lanes on a word, performed together: every one but the last says that more
follow. -/
def takeLanes (s : State) (c : Nat) : List Packet → Option State
  | [] => some s
  | p :: ps =>
    let one := wholeRun p
    (if p.op = 2 then takeWrite s c one else takeAtomic s c one).bind fun s => takeLanes s c ps

/-! ## Messages -/

/-- R127: the units of this package in a worklist's domain. -/
def localUnits (s : State) (ctx list : Nat) : List Nat := (skeys (getList s ctx list).units).filter (localUnit s ·)

/-- R136: the units of this package learn a floor that another package lowers, and acknowledge it. -/
def floorLowered (s : State) (ctx list source floor : Nat) : State :=
  (localUnits s ctx list).foldl (fun s u =>
    let s := modList s ctx list fun l => l.modUnit u fun x => x.lower source (some floor)
    sendList s ctx list (source / 4) (.floorAck source u floor)) s

/-- R131, R412: a unit of another package looks at a cell here: its state, or 2 when the inbound filter denies the access. An
empty cell is watched. -/
def lookAtCell (s : State) (ctx list config unit tag pa : Nat) : State :=
  let p : Packet :=
    { op := 1, vc := 0, pext := false, status := 0, len := 8, tag := 0, src := BitVec.ofNat 12 (unit / 4),
      dst := BitVec.ofNat 12 (nodeNo s), ctxtag := BitVec.ofNat 8 tag, aop := 0, aflags := 0, pa := BitVec.ofNat 52 pa,
      org0 := 0, org1 := 0, data := [], marks := [] }
  let state := if inboundStatus s p 8 ≠ 0 then 2 else if fullBit s.mem pa then 1 else 0
  let watch : Watch := { cell := pa, ctx := tag, list := list, unit := unit, config := config, filled := false }
  let s := if state = 0 then { s with host := { s.host with watches := s.host.watches ++ [watch] } } else s
  sendMessage s (unit / 4) ctx (.list tag list config (.cellState unit (nodeNo s) pa state))

/-- R131: what another package says of a cell: the pushes that wait for it are performed or rejected, and once it is full the
entries parked on it are woken. -/
def cellTold (s : State) (ctx list unit node pa state : Nat) : State :=
  let cell := farCell node pa
  let s := (((getList s ctx list).unit unit).waiting.filter fun w => w.why = 3 && w.cell = cell).foldl
    (fun s w => cellLooked s ctx list unit w state) s
  if state ≠ 1 then s
  else modList s ctx list fun l => l.modUnit unit fun u =>
    { u with parked := u.parked.map fun e => if e.cell = cell then { e with woken := true } else e }

/-- R126 to R150, R403: what a message about a worklist does; `serial` is the message's number. -/
def performList (s : State) (c l serial : Nat) (m : ListMessage) : State :=
  match m with
  | .summary u low n a => (localUnits s c l).foldl (fun s t => learn s c l u t (low, n) a) s
  | .stealRequest t v => answerSteal s c l t v
  | .stealReply t v es => takeReply s c l t v serial es
  | .stealTaken v n => stealTaken s c l v n
  | .floorLower u f => floorLowered s c l u f
  | .floorAck u t f => if (getList s c l).asks u = some f then acknowledge s c l u t else s
  | .cellLook _ _ _ => s
  | .cellState u n pa x => cellTold s c l u n pa x
  | .waveRead u =>
    let (p, d) := localSums s (getList s c l)
    sendList s c l (u / 4) (.waveReply (nodeNo s * 4) p d)
  | .waveReply u p d => modList s c l fun x => { x with remoteSums := sins x.remoteSums (u / 4) (p, d) }
  | .armed => modList s c l fun x => { x with armed := true }
  | .terminated => modList s c l fun x => if x.state = 1 then x.terminate else x
  | .configure _ _ => s
  | .configured n => modList s c l fun x => { x with confirm := x.confirm.erase n }

/-- R128: a message of an earlier configuration is discarded, one of a later configuration waits for it. -/
def takeList (s : State) (c l config serial : Nat) (m : ListMessage) : State :=
  let now := (getList s c l).config
  if config = now then performList s c l serial m
  else if now < config then modList s c l fun x => { x with early := x.early ++ [(config, m)] }
  else s

/-- R128, R287: the units of this package take a configuration that another package's WLCFG makes, and say so; then the messages
that waited for it are performed. -/
def configureHere (s : State) (c l config node : Nat) (ws : List Word) : State :=
  let s := takeConfig s c l config ws
  let early := (getList s c l).early
  let s := modList s c l fun x => { x with early := [], confirm := [] }
  let s := sendMessage s node (tagAt s c node) (.list (tagAt s c node) l config (.configured (nodeNo s)))
  early.foldl (fun s x => takeList s c l x.1 0 x.2) s

/-- R27, R136, R144, R145, R150, R403: what a message does. -/
def handleMessage (s : State) (serial : Nat) (m : Message) : State :=
  match m with
  | .list c l g m =>
    match m with
    | .configure n ws => configureHere s c l g n ws
    | .cellLook u tag pa => lookAtCell s c l g u tag pa
    | m => takeList s c l g serial m
  | .unitSummary i u t n => summaryTold s i u t n
  | .unitSteal i t v => answerUnits s i t v
  | .unitReply i t v lo hi more => takeUnits s i t v lo hi more

/-- R146, R403: a MESSAGE packet: the confirmation of a message of this package, or a message, which is confirmed and, if it has
not come before, performed. -/
def takeMessage (s : State) (p : Packet) : State :=
  let ws := wordsOfBytes p.data
  let n (k : Nat) : Nat := (DWord.ofHalves (ws.getD (2 * k) 0) (ws.getD (2 * k + 1) 0)).toNat
  let node := p.src.toNat
  if ws.length ≤ 2 then messageConfirmed s node (n 0)
  else
    let (new, s) := hearMessage s node (n 0) (n 1)
    let s := confirmMessage s node (n 0)
    if new then ((messageFrom (ws.drop 4)).map (handleMessage s (n 0))).getD s else s

/-- R403: MESSAGE. -/
def execMessage (msg : Message) (s : State) : Result := .next (handleMessage s 0 msg)

/-! ## Packets in stream order -/

/-- R403, R404: performs a packet; none while it must wait. One with a reserved op or channel is dropped and counted as a link
replay. -/
def performPacket (s : State) (c : Nat) (p : Packet) : Option State :=
  if p.vc = 3 then some (raiseChord s c 9 1 0 0)
  else match p.op.toNat with
    | 1 => takeRead s c p
    | 2 => if moreFollow p then none else takeWrite s c p
    | 3 => if moreFollow p then none else takeAtomic s c p
    | 4 => takeResponse s c p
    | 5 => takeResponse s c p
    | 6 => takeResponse s c p
    | 7 => some (takeMessage s p)
    | _ => some (raiseChord s c 9 1 0 0)

/-- R404, R406: a packet is performed in the order of its channel: behind a packet that waits it waits too. -/
def takePacket (s : State) (c : Nat) (p : Packet) : State :=
  let wait (s : State) : State := modChord s c fun ch => { ch with inq := ch.inq ++ [p] }
  if (getChord s c).inq.any (·.vc = p.vc) then wait s else (performPacket s c p).getD (wait s)

/-- R83, R257: the first packets that wait on a channel, as far as they carry the lanes of one instruction on a word: those that say that more
follow, and the one after them. None while it has not come. -/
def laneRun (l : List Packet) : Option (List Packet) :=
  let more := l.takeWhile moreFollow
  ((l.drop more.length).head?).map fun p => more ++ [p]

/-- R406: packets that waited are performed: the flits that nothing of them holds any more leave the receive buffers, and the far
side hears of it when a go bit changes. -/
def releasePackets (s : State) (c : Nat) (ps : List Packet) : State :=
  let old := goBits s c
  let gone (l : List Packet) : List Packet := ps.foldl (fun l p => l.erase p) l
  let s := modChord s c fun ch =>
    { ch with inq := gone ch.inq
              held := (ch.held.map fun f => { f with waits := gone f.waits }).filter fun f => f.cut || !f.waits.isEmpty }
  if goBits s c = old then s else sendControl s c 1 0

/-- A packet of an op arrives from outside, or the first of its channel that waits is performed. -/
def packetEvent (op : BitVec 4) (c : Nat) (p : Packet) (s : State) : Result :=
  if p.op ≠ op then .next s
  else
    let queue := (getChord s c).inq.filter (·.vc = p.vc)
    if queue.head? = some p then
      if moreFollow p then
        match (laneRun queue).bind fun ps => (takeLanes s c ps).map (ps, ·) with
        | none => .next s
        | some (ps, s) => .next (releasePackets s c ps)
      else match performPacket s c p with
        | none => .next (if p.vc = 1 then logWaits s p.ctxtag.toNat else s)
        | some s => .next (releasePackets s c [p])
    else .next (takePacket s c p)

/-- R403, R412: READ. -/
def execRead (chord : Nat) (pkt : Packet) (s : State) : Result := packetEvent 1 chord pkt s
/-- R403, R409, R412: WRITE. -/
def execWrite (chord : Nat) (pkt : Packet) (s : State) : Result := packetEvent 2 chord pkt s
/-- R403, R412: ATOMIC. -/
def execAtomic (chord : Nat) (pkt : Packet) (s : State) : Result := packetEvent 3 chord pkt s
/-- R405: READ_RESP. -/
def execReadResp (chord : Nat) (pkt : Packet) (s : State) : Result := packetEvent 4 chord pkt s
/-- R259, R405: WRITE_ACK. -/
def execWriteAck (chord : Nat) (pkt : Packet) (s : State) : Result := packetEvent 5 chord pkt s
/-- R405: ATOMIC_RESP. -/
def execAtomicResp (chord : Nat) (pkt : Packet) (s : State) : Result := packetEvent 6 chord pkt s

/-! ## Received flits -/

/-- R404: a cumulative acknowledgement. -/
def takeAck (ch : Chord) (h : FlitHead) : Chord :=
  if h.av && ch.unacked.any (·.1 = h.ackseq) then { ch with unacked := (ch.unacked.dropWhile (·.1 ≠ h.ackseq)).drop 1 } else ch

/-- R401, R404, R406: what every good flit brings: acknowledgements and go bits; packets that waited leave. -/
def takeHead (s : State) (c : Nat) (h : FlitHead) : State :=
  flushChord (modChord s c fun ch => { takeAck ch h with go := h.go }) c

/-- R402: takes the packets from the words of a flit; `w` is what is left of the stream, the first packet of which may have
begun in an earlier flit. -/
def takeWords (c : Nat) : Nat → List (Word × Bool) → State → State
  | 0, _, s => s
  | n + 1, ws, s =>
    match ws with
    | [] => modChord s c fun ch => { ch with rx := [] }
    | w :: _ =>
      if w.1.extractLsb' 28 4 = 0 then modChord s c fun ch => { ch with rx := [] }
      else
        let k := packetLength w.1
        if ws.length < k then modChord s c fun ch => { ch with rx := ws }
        else takeWords c n (ws.drop k) (takePacket s c (parsePacket (ws.take k)))

/-- R401, R404: a flit that is damaged is counted and replayed. -/
def damaged (s : State) (c : Nat) : State := askReplay (countChord s c 0x10) c

/-- R406: the virtual channel whose receive buffer a flit occupies: that of the packet it continues, else of the first packet that
starts in it. -/
def flitChannel (ch : Chord) (l : List Byte) : Nat :=
  (((ch.rx ++ flitWords l).head?).elim (0 : BitVec 2) fun w => w.1.extractLsb' 26 2).toNat

/-- R406: after a flit came onto what a chord was before, `old`: it stays in the receive buffer of its channel while a packet of it
waits or has not come whole; the flits of the packet that it completes stay while that packet waits. -/
def holdFlit (old : Chord) (l : List Byte) (ch : Chord) : Chord :=
  let words := old.rx ++ flitWords l
  let whole := parsePacket (words.take (packetLength ((words.head?).elim 0 (·.1))))
  let fresh := ch.inq.drop old.inq.length
  let joined (f : HeldFlit) : HeldFlit :=
    if f.cut && packetLength ((words.head?).elim 0 (·.1)) ≤ words.length then
      { f with cut := false, waits := f.waits ++ (if fresh.contains whole then [whole] else []) }
    else f
  let this : HeldFlit := { vc := flitChannel old l, waits := fresh, cut := !ch.rx.isEmpty }
  { ch with held := (ch.held.map joined ++ [this]).filter fun f => f.cut || !f.waits.isEmpty }

/-- R402, R404: an acceptable data flit: its packets are performed, and it is acknowledged. -/
def acceptFlit (s : State) (c : Nat) (l : List Byte) : State :=
  let ch := getChord s c
  let s := modChord s c fun ch => { ch with expected := ch.expected + 1, accepted := true, asked := false }
  sendControl (modChord (takeWords c 64 (ch.rx ++ flitWords l) s) c (holdFlit ch l)) c 1 0

/-- R401, R404, R406: DATA_FLIT_RECEIVE. A flit that finds the receive buffer of its channel full is discarded as a gap. One that
was accepted before is discarded and acknowledged again, by the idle flit that leaves when no data flit is ready. -/
def execDataFlitReceive (chord : Nat) (flit : List Byte) (s : State) : Result :=
  if (getChord s chord).state ≠ 2 then .next s
  else if !flitGood flit then .next (damaged s chord)
  else
    let h := flitHead flit
    if h.type ≠ 0 then .next s
    else
      let s := takeHead s chord h
      let gap := h.seq - (getChord s chord).expected
      let full : Bool := 256 ≤ (getChord s chord).filled (flitChannel (getChord s chord) flit)
      if gap = 0 then .next (if full then askReplay s chord else acceptFlit s chord flit)
      else if gap < 2048 then .next (askReplay s chord)
      else .next (sendControl s chord 1 0)

/-- R401: IDLE_FLIT_RECEIVE. -/
def execIdleFlitReceive (chord : Nat) (flit : List Byte) (s : State) : Result :=
  if (getChord s chord).state ≠ 2 then .next s
  else if !flitGood flit then .next (damaged s chord)
  else if (flitHead flit).type ≠ 1 then .next s
  else .next (takeHead s chord (flitHead flit))

/-- R404: REPLAY_REQUEST_RECEIVE: the sender resends its buffer from the named number. -/
def execReplayRequestReceive (chord : Nat) (flit : List Byte) (s : State) : Result :=
  if (getChord s chord).state ≠ 2 then .next s
  else if !flitGood flit then .next (damaged s chord)
  else if (flitHead flit).type ≠ 2 then .next s
  else
    let s := takeHead s chord (flitHead flit)
    let n : BitVec 12 := (wordAt flit 12).setWidth 12
    .next (resend s chord n ((getChord s chord).unacked.dropWhile (·.1 ≠ n)))

/-- R404: REPLAY_TIMER_EXPIRY: unacknowledged flits are sent again, and a replay request that brought nothing is repeated. -/
def execReplayTimerExpiry (chord : Nat) (s : State) : Result :=
  let ch := getChord s chord
  if ch.state ≠ 2 then .next s
  else
    let s := match ch.unacked with
      | [] => s
      | x :: _ => resend s chord x.1 ch.unacked
    .next (if ch.asked then askReplay (modChord s chord fun ch => { ch with asked := false }) chord else s)

end Sys2Proof.Machine
end

