-- ==== Sys2Proof/Machine/Hash.lean ====
section
/-!
DEFINITION. SHA-256 and the verification of an LMS signature, which R420, R421 and R425 name and which FIPS 180-4 and RFC 8554
define (log entry 8).
-/

namespace Sys2Proof.Machine

/-! ## Byte strings, most significant byte first -/

/-- The `n` bytes of a number. -/
def beBytes (n x : Nat) : List Byte := (List.range n).map fun k => BitVec.ofNat 8 (x >>> (8 * (n - 1 - k)))

/-- The number that a byte string stands for. -/
def beNat (l : List Byte) : Nat := l.foldl (fun n b => 256 * n + b.toNat) 0

/-- The words of a byte string. -/
def beWords : Nat → List Byte → List Word
  | 0, _ => []
  | n + 1, l => BitVec.ofNat 32 (beNat (l.take 4)) :: beWords n (l.drop 4)

/-! ## SHA-256 -/

/-- The round constants. -/
def shaConstants : List Word :=
  [0x428a2f98, 0x71374491, 0xb5c0fbcf, 0xe9b5dba5, 0x3956c25b, 0x59f111f1, 0x923f82a4, 0xab1c5ed5] ++
  [0xd807aa98, 0x12835b01, 0x243185be, 0x550c7dc3, 0x72be5d74, 0x80deb1fe, 0x9bdc06a7, 0xc19bf174] ++
  [0xe49b69c1, 0xefbe4786, 0x0fc19dc6, 0x240ca1cc, 0x2de92c6f, 0x4a7484aa, 0x5cb0a9dc, 0x76f988da] ++
  [0x983e5152, 0xa831c66d, 0xb00327c8, 0xbf597fc7, 0xc6e00bf3, 0xd5a79147, 0x06ca6351, 0x14292967] ++
  [0x27b70a85, 0x2e1b2138, 0x4d2c6dfc, 0x53380d13, 0x650a7354, 0x766a0abb, 0x81c2c92e, 0x92722c85] ++
  [0xa2bfe8a1, 0xa81a664b, 0xc24b8b70, 0xc76c51a3, 0xd192e819, 0xd6990624, 0xf40e3585, 0x106aa070] ++
  [0x19a4c116, 0x1e376c08, 0x2748774c, 0x34b0bcb5, 0x391c0cb3, 0x4ed8aa4a, 0x5b9cca4f, 0x682e6ff3] ++
  [0x748f82ee, 0x78a5636f, 0x84c87814, 0x8cc70208, 0x90befffa, 0xa4506ceb, 0xbef9a3f7, 0xc67178f2]

/-- The initial hash value. -/
def shaStart : List Word :=
  [0x6a09e667, 0xbb67ae85, 0x3c6ef372, 0xa54ff53a, 0x510e527f, 0x9b05688c, 0x1f83d9ab, 0x5be0cd19]

/-- The message schedule of a block of 16 words, in reverse. -/
def shaSchedule (block : List Word) : List Word :=
  (List.range 48).foldl (fun w _ =>
    let x := w.getD 14 0
    let y := w.getD 1 0
    let s0 := x.rotateRight 7 ^^^ x.rotateRight 18 ^^^ (x >>> 3)
    let s1 := y.rotateRight 17 ^^^ y.rotateRight 19 ^^^ (y >>> 10)
    (s1 + w.getD 6 0 + s0 + w.getD 15 0) :: w) block.reverse

/-- One round, with its constant and its word of the schedule. -/
def shaRound (v : List Word) (kw : Word × Word) : List Word :=
  match v with
  | [a, b, c, d, e, f, g, h] =>
    let s1 := e.rotateRight 6 ^^^ e.rotateRight 11 ^^^ e.rotateRight 25
    let t1 := h + s1 + ((e &&& f) ^^^ (~~~e &&& g)) + kw.1 + kw.2
    let s0 := a.rotateRight 2 ^^^ a.rotateRight 13 ^^^ a.rotateRight 22
    [t1 + s0 + ((a &&& b) ^^^ (a &&& c) ^^^ (b &&& c)), a, b, c, d + t1, e, f, g]
  | _ => v

/-- The hash value after a block of 64 bytes. -/
def shaBlock (v : List Word) (block : List Byte) : List Word :=
  let w := (shaSchedule (beWords 16 block)).reverse
  (v.zip ((shaConstants.zip w).foldl shaRound v)).map fun x => x.1 + x.2

/-- The hash value after `n` blocks. -/
def shaBlocks : Nat → List Word → List Byte → List Word
  | 0, v, _ => v
  | n + 1, v, l => shaBlocks n (shaBlock v (l.take 64)) (l.drop 64)

/-- SHA-256 of a byte string. -/
def sha256 (l : List Byte) : List Byte :=
  let padded := l ++ [0x80] ++ List.replicate ((119 - l.length % 64) % 64) 0 ++ beBytes 8 (8 * l.length)
  (shaBlocks (padded.length / 64) shaStart padded).flatMap fun w => beBytes 4 w.toNat

/-! ## LMS_SHA256_M32_H10 with LMOTS_SHA256_N32_W8 (RFC 8554) -/

/-- A chain of hashes from step `j`, `n` steps long: identifier, leaf, chain, value. -/
def otsChain (id : List Byte) (q i : Nat) : Nat → Nat → List Byte → List Byte
  | _, 0, x => x
  | j, n + 1, x => otsChain id q i (j + 1) n (sha256 (id ++ beBytes 4 q ++ beBytes 2 i ++ beBytes 1 j ++ x))

/-- The one-time public key that a one-time signature gives for a message: its randomiser and its 34 chain values. -/
def otsKey (id : List Byte) (q : Nat) (rnd : List Byte) (chains message : List Byte) : List Byte :=
  let h := sha256 (id ++ beBytes 4 q ++ [0x81, 0x81] ++ rnd ++ message)
  let digits := h ++ beBytes 2 (h.foldl (fun n b => n + (255 - b.toNat)) 0)
  let ends := (List.range 34).flatMap fun i =>
    let a := (digits.getD i 0).toNat
    otsChain id q i a (255 - a) ((chains.drop (32 * i)).take 32)
  sha256 (id ++ beBytes 4 q ++ [0x80, 0x80] ++ ends)

/-- The root that a path of the tree gives from a node: the values beside it, lowest first. -/
def lmsRoot (id : List Byte) : Nat → Nat → List Byte → List Byte → List Byte
  | 0, _, x, _ => x
  | n + 1, node, x, path =>
    let pair := if node % 2 = 1 then path.take 32 ++ x else x ++ path.take 32
    lmsRoot id n (node / 2) (sha256 (id ++ beBytes 4 (node / 2) ++ [0x83, 0x83] ++ pair)) (path.drop 32)

/-- R421: an LMS signature of 1,452 bytes verifies under a public key of 56 bytes. -/
def lmsVerify (key message sig : List Byte) : Bool :=
  let id := (key.drop 8).take 16
  let q := beNat (sig.take 4)
  let kc := otsKey id q ((sig.drop 8).take 32) ((sig.drop 40).take 1088) message
  key.take 8 = [0, 0, 0, 6, 0, 0, 0, 4] && (sig.drop 4).take 4 = [0, 0, 0, 4] && (sig.drop 1128).take 4 = [0, 0, 0, 6] && q < 1024 &&
    lmsRoot id 10 (1024 + q) (sha256 (id ++ beBytes 4 (1024 + q) ++ [0x82, 0x82] ++ kc)) (sig.drop 1132) = key.drop 24

end Sys2Proof.Machine
end

