-- ==== Sys2Proof/Machine/Firmware.lean ====
section
/-!
DEFINITION. Package reset (R417, R422), self-test (R418, R419), firmware images and their commands (R420 to R424) and
attestation (R425).
-/

namespace Sys2Proof.Machine

/-! ## Images (R420, R421) -/

/-- Bytes of an image from an offset; one that is missing reads 0. -/
def imageBytes (img : List Byte) (off n : Nat) : List Byte := padTo n (img.drop off)

/-- R420: the body. -/
def imageBody (img : List Byte) : List Byte := imageBytes img 0x800 (wordAt img 4).toNat

/-- R420: keysel. -/
def imageKey (img : List Byte) : BitVec 2 := (wordAt img 8).extractLsb' 8 2

/-- R420: svn. -/
def imageSvn (img : List Byte) : BitVec 8 := (wordAt img 8).extractLsb' 0 8

/-- R421 check 1. -/
def imageHeadOk (img : List Byte) : Bool :=
  wordAt img 0 = 0x56465731 && 1 ≤ (wordAt img 4).toNat && (wordAt img 4).toNat ≤ 0x01000000 &&
    (imageKey img = 1 || imageKey img = 2) && (wordAt img 8).extractLsb' 10 22 = 0 &&
    (imageBytes img 0x64 156).all (· = 0)

/-- R421: the fused hash that keysel selects. -/
def fusedHash (f : Firmware) (img : List Byte) : Option (List Byte) :=
  if imageKey img = 1 then some f.verjorHash else f.opHash

/-- R421: the first check that an image fails, or 0. -/
def imageFail (f : Firmware) (img : List Byte) : Nat :=
  let key := imageBytes img 0x0C 56
  if !imageHeadOk img then 1
  else if fusedHash f img ≠ some (sha256 key) then 2
  else if !lmsVerify key (imageBytes img 0 256) (imageBytes img 0x100 1452) then 3
  else if sha256 (imageBody img) ≠ imageBytes img 0x44 32 then 4
  else if (imageSvn img).toNat < f.minsvn then 5
  else if img.length < 0x800 + (wordAt img 4).toNat then 6
  else 0

/-! ## Reset (R417, R422, R423) -/

/-- R423: the boot word. -/
def bootWord (afail : Nat) (f : Firmware) (src : BitVec 2) : Word :=
  let ran := src ≠ 0
  0#4 ++ BitVec.ofNat 4 afail ++ (if ran then imageSvn f.running else 0) ++ BitVec.ofNat 8 f.minsvn ++ 0#2 ++
    (if ran then imageKey f.running else 0) ++ 0#2 ++ src

/-- R422: what the mask ROM boots: the fail code of active, the firmware after it, and where the running image came from. -/
def romBoot (f : Firmware) : Nat × Firmware × BitVec 2 :=
  let g := { f with recoverNext := false, romWaiting := false, running := [], tests := [], tested := [], resets := f.resets + 1, runs := (List.range 5).map fun q => (q, f.resets + 1) }
  let afail := if f.recoverNext then 0 else imageFail f f.active
  if !f.recoverNext && afail = 0 then (0, { g with running := f.active }, 1)
  else if imageFail f f.recovery = 0 then (afail, { g with running := f.recovery }, 2)
  else (afail, { g with romWaiting := true }, 0)

/-- Far and host memory, which a reset keeps. -/
def keptAddress (a : Nat) : Bool :=
  match regionOf a with
  | .far _ => true
  | .host => true
  | _ => false

/-- R417, R444: memory after a package reset: near memory is zero-filled as by a partition reset (R437), far and host memory
keep their contents (log entry 31). -/
def resetMem (m : MemSys) : MemSys :=
  { bytes := m.bytes.filter fun ab => keptAddress ab.1
    marks := m.marks.filter fun lm => keptAddress (lm.1 * 128) && regionOf (lm.1 * 128) ≠ .host
    fulls := m.fulls.filter fun ab => keptAddress ab.1
    ecc := m.ecc.filter fun ab => keptAddress ab.1
    hostPoi := m.hostPoi
    seq := m.seq }

/-- R417, R422: RESET. The ROM boots an image, or brings up VOCL only and waits for one. No leaf is used again (R425). -/
def execReset (s : State) : Result :=
  let (afail, f, src) := romBoot s.host.fw
  let s' : State :=
    { ctl := { agenda := s.ctl.agenda, tick := s.ctl.tick }
      mem := resetMem s.mem
      exe := { nextId := s.exe.nextId }
      host := { fw := f, out := s.host.out } }
  let s' := (s'.setMgmt 0x10 (bootWord afail f src)).setMgmt 0x18 (BitVec.ofNat 32 (1048576 - f.leaf))
  .next (if f.romWaiting then s'.setMgmt 0 0x10 else s')

/-! ## Self-test (R417 to R419) -/

/-- R418: a self-test record. -/
def testRecord (fail : Bool) (untested : Bool) (quad facet core part : Nat) (step : BitVec 16) (name : List Byte)
    (detail : BitVec 160) : List Byte :=
  let result : BitVec 2 := if untested then 2 else if fail then 1 else 0
  let w : Word := result ++ BitVec.ofNat 2 quad ++ BitVec.ofNat 4 facet ++ BitVec.ofNat 4 core ++ BitVec.ofNat 4 part ++
    (if fail then step else 0)
  bytesOfWord w ++ padTo 8 name ++
    ((List.range 20).map fun k => if fail then detail.extractLsb' (8 * k) 8 else 0)

/-- R4, R418: a unit that is tested: its name, its facet, core and partition (15 where it has none), and the number that stands for
it in Config. -/
structure TestUnit where
  name : List Byte
  facet : Nat := 15
  core : Nat := 15
  part : Nat := 15
  id : Nat
  deriving DecidableEq, Repr

/-- R1, R334: the units of a partition of a core: vrf, srf, prf, xrf, int, fp, sf, lane, lsu, scalar (log entry 14). -/
def partNames : List (List Byte) :=
  [
    [0x76, 0x72, 0x66],
    [0x73, 0x72, 0x66],
    [0x70, 0x72, 0x66],
    [0x78, 0x72, 0x66],
    [0x69, 0x6E, 0x74],
    [0x66, 0x70],
    [0x73, 0x66],
    [0x6C, 0x61, 0x6E, 0x65],
    [0x6C, 0x73, 0x75],
    [0x73, 0x63, 0x61, 0x6C, 0x61, 0x72]]

/-- R1: the units that the partitions of a core share: l1d, l1i, cc, scratch, side, quar, tlb, matrix (log entry 14). -/
def coreNames : List (List Byte) :=
  [
    [0x6C, 0x31, 0x64],
    [0x6C, 0x31, 0x69],
    [0x63, 0x63],
    [0x73, 0x63, 0x72, 0x61, 0x74, 0x63, 0x68],
    [0x73, 0x69, 0x64, 0x65],
    [0x71, 0x75, 0x61, 0x72],
    [0x74, 0x6C, 0x62],
    [0x6D, 0x61, 0x74, 0x72, 0x69, 0x78]]

/-- R4, R418: the units of a core in the order tested. -/
def coreUnits (quad core : Nat) : List TestUnit :=
  let base := 1000 + 48 * (80 * quad + core)
  ((List.range 4).flatMap fun p => ((List.range 10).zip partNames).map fun kn =>
      { name := kn.2, facet := core / 8, core := core % 8, part := p, id := base + 10 * p + kn.1 }) ++
    ((List.range 8).zip coreNames).map fun kn => { name := kn.2, facet := core / 8, core := core % 8, id := base + 40 + kn.1 }

/-- R1, R417: the units of a quadrant outside its cores, facets and L2: rdc, dist, wlu, copy, gather, coll, walk (log entry 14). -/
def quadNames : List (List Byte) :=
  [
    [0x72, 0x64, 0x63],
    [0x64, 0x69, 0x73, 0x74],
    [0x77, 0x6C, 0x75],
    [0x63, 0x6F, 0x70, 0x79],
    [0x67, 0x61, 0x74, 0x68, 0x65, 0x72],
    [0x63, 0x6F, 0x6C, 0x6C],
    [0x77, 0x61, 0x6C, 0x6B]]

/-- R4, R417, R418: the units of a function of the ready word outside the cores, in the order tested: of a quadrant the second-level
TLB tlb2 and the tile fetch unit tile of every facet, the slices l2s0 to l2s47 and the units of `quadNames`; of the fabric of a
quadrant its ports; of another function the one unit that it is named after: vocl, fw, cxl, far, near, ckpt. -/
def functionUnits (bit : Nat) : List TestUnit :=
  let q := bit % 4
  let base := 20000 + 100 * q
  match bit / 4 with
  | 2 =>
    ((List.range 10).flatMap fun f => [{ name := [0x74, 0x6C, 0x62, 0x32], facet := f, id := base + 2 * f },
        { name := [0x74, 0x69, 0x6C, 0x65], facet := f, id := base + 2 * f + 1 }]) ++
      ((List.range 48).map fun k => { name := unitName 1 (some k), id := base + 20 + k }) ++
      ((List.range 7).zip quadNames).map fun kn => { name := kn.2, id := base + 68 + kn.1 }
  | 3 => [{ name := [0x6E, 0x65, 0x61, 0x72], id := bit }]
  | 4 => (List.range 16).map fun k => { name := [0x70, 0x6F, 0x72, 0x74] ++ asciiNumber (16 * q + k), id := 21000 + 16 * q + k }
  | 5 => [{ name := [0x63, 0x6B, 0x70, 0x74], id := bit }]
  | _ => [{ name := ([[0x76, 0x6F, 0x63, 0x6C], [0x66, 0x77], [0x63, 0x78, 0x6C], [0x66, 0x61, 0x72]] : List (List Byte)).getD (bit - 4) [], id := bit }]

/-- R418: the record of the test of a unit; `untested` after a unit that encloses it failed. -/
def unitRecord (run quad : Nat) (untested : Bool) (u : TestUnit) : List Byte :=
  let step := Config.selfTest run u.id
  testRecord (!untested && step ≠ 0) untested quad u.facet u.core u.part step u.name (Config.selfTestDetail run u.id)

/-- R418: a unit passes its test. -/
def unitPasses (run : Nat) (u : TestUnit) : Bool := Config.selfTest run u.id = 0

/-- R418, R419: tests the units of a core: the records, and whether the core fails. After a failing unit the later units of
the core are not tested. -/
def testCore (run quad core : Nat) : List (List Byte) × Bool :=
  (coreUnits quad core).foldl (fun acc u => (acc.1 ++ [unitRecord run quad acc.2 u], acc.2 || !unitPasses run u)) ([], false)

/-- R419: a function passes: a unit outside the cores that fails leaves quad and near of its quadrant clear. -/
def functionPasses (run bit : Nat) : Bool :=
  if 8 ≤ bit && bit < 16 then (functionUnits (8 + bit % 4) ++ functionUnits (12 + bit % 4)).all (unitPasses run)
  else (functionUnits bit).all (unitPasses run)

/-- R418: the reset since which a function is tested now. -/
def runOf (s : State) (bit : Nat) : Nat := sget 0 s.host.fw.runs (if 8 ≤ bit then bit % 4 else 4)

/-- R417, R418: a function may become ready, once after a reset: VOCL and the firmware once an image runs, the others after the
firmware. -/
def functionDue (s : State) (bit : Nat) : Bool :=
  4 ≤ bit && bit < 24 && !ready s bit && !s.host.fw.tested.contains bit &&
    (if bit = 4 then !s.host.fw.running.isEmpty || s.host.fw.romWaiting
     else if bit = 5 then !s.host.fw.running.isEmpty else served s)

/-- R418: test records are appended to the log. -/
def logTests (s : State) (rs : List (List Byte)) : State :=
  { s with host := { s.host with fw := { s.host.fw with tests := s.host.fw.tests ++ rs } } }

/-- R418, R419: tests the cores of a quadrant: the mask of disabled cores, and the records. -/
def testCores (s : State) (quad : Nat) : State :=
  let rs := (List.range 80).map fun c => testCore (runOf s (8 + quad)) quad c
  let mask := (rs.zip (List.range 80)).foldl (fun (m : BitVec 80) x => if x.1.2 then m ||| (1#80 <<< x.2) else m) 0
  (List.range 3).foldl (fun s k => s.setMgmt (0x40 + 16 * quad + 4 * k) ((mask >>> (32 * k)).setWidth 32))
    (logTests s (rs.flatMap (·.1)))

/-- R437, R439: the reset of a partition ends when the quad bits of all its quadrants have returned. -/
def endPartitionResets (s : State) : State :=
  let still := s.host.resetting.filter fun pr => !((partQuads s pr.1).all fun q => ready s (8 + q))
  { s with host := { s.host with resetting := still } }

/-- R417 to R419: FUNCTION_READY: the units of a function are tested; if they pass, its ready bit is set. The quad bits of the
record of a unit that lies in no quadrant are 0: the model's choice (log entry 68). -/
def execFunctionReady (bit : Nat) (s : State) : Result :=
  if !functionDue s bit then .next s
  else
    let run := runOf s bit
    let quad := if 8 ≤ bit then bit % 4 else 0
    let s := if 8 ≤ bit && bit < 12 then testCores s quad else s
    let s := logTests s ((functionUnits bit).map (unitRecord run quad false))
    let s := { s with host := { s.host with fw := { s.host.fw with tested := bit :: s.host.fw.tested } } }
    .next (if functionPasses run bit then endPartitionResets (s.setMgmt 0 (s.mgmt 0 ||| (1#32 <<< bit))) else s)

/-! ## Firmware commands (R424) -/

/-- R379, R417, R424: a channel-2 command. While VOCL is down nothing answers; the ROM answers that the firmware is not
ready. `fails` lists the failing conditions of the command with their codes. -/
def command2 (s : State) (fails : List (Bool × Nat)) (k : State → State) : Result :=
  if !ready s 4 then .next s
  else if !served s then .next (reply s 2 5 0)
  else
    let bad := ((fails.zip (List.range fails.length)).filter fun x => x.1.1).map fun x => (x.1.2, x.2 + 1)
    match bad with
    | [] => .next (reply (k s) 2 0 0)
    | b :: bs =>
      let low := bs.foldl (fun (m : Nat × Nat) x => if x.1 < m.1 then x else m) b
      .next (reply s 2 low.1 low.2)

/-- Changes the firmware store. -/
def State.modFw (s : State) (f : Firmware → Firmware) : State := { s with host := { s.host with fw := f s.host.fw } }

/-- R424: STAGE. -/
def execStageImage (image : List Byte) (s : State) : Result :=
  command2 s [(0x01000800 < image.length, 3)] fun s => s.modFw fun f => { f with staging := image }

/-- R424: COMMIT of firmware: staging replaces active if it verifies. The reply of one that does not carries its fail code
(R379). -/
def execFirmwareCommit (s : State) : Result :=
  let fail := imageFail s.host.fw s.host.fw.staging
  if ready s 4 && served s && fail ≠ 0 then .next (reply s 2 3 fail)
  else command2 s [] fun s => s.modFw fun f => { f with active := f.staging }

/-- R422, R424: RECOVER. -/
def execRecover (s : State) : Result := command2 s [] fun s => s.modFw fun f => { f with recoverNext := true }

/-- R424: MINSVN raises the fused minimum, which the boot word reports (R423). -/
def execMinsvn (n : Nat) (s : State) : Result :=
  command2 s [(n < s.host.fw.minsvn || (imageSvn s.host.fw.running).toNat < n, 3)] fun s =>
    (s.modFw fun f => { f with minsvn := n }).setMgmt 0x10
      ((s.mgmt 0x10 &&& ~~~0xFF00#32) ||| (BitVec.ofNat 32 (n % 256) <<< 8))

/-- R424: OPKEY fuses the operator key hash, once. -/
def execOpkey (hash : List Byte) (s : State) : Result :=
  command2 s [(s.host.fw.opHash.isSome, 2)] fun s => s.modFw fun f => { f with opHash := some (padTo 32 hash) }

/-- R422, R424: IMAGE: the waiting ROM boots the image once from RAM if it verifies. -/
def execImage (image : List Byte) (s : State) : Result :=
  let f := s.host.fw
  if !ready s 4 then .next s
  else if !f.romWaiting then .next (reply s 2 4 1)
  else if imageFail f image ≠ 0 then .next (reply s 2 3 (imageFail f image))
  else
    let g := { f with running := image, romWaiting := false }
    .next (reply ((s.modFw fun _ => g).setMgmt 0x10 (bootWord ((s.mgmt 0x10).extractLsb' 24 4).toNat g 3)) 2 0 0)

/-! ## Attestation (R425) -/

/-- R425: the signed part of a report: nonce, boot word, ready word, fused hashes, digest of the running body, leaf. -/
def reportBody (s : State) (nonce : List Byte) : List Byte :=
  let f := s.host.fw
  padTo 32 nonce ++ bytesOfWord (s.mgmt 0x10) ++ bytesOfWord (s.mgmt 0) ++ padTo 32 f.verjorHash ++
    padTo 32 (f.opHash.getD []) ++ sha256 (imageBody f.running) ++ bytesOfWord (BitVec.ofNat 32 f.leaf)

/-- R425: ATTEST: the report goes out and its leaf is never used again. -/
def execAttest (nonce : List Byte) (s : State) : Result :=
  command2 s [((s.mgmt 0x18).extractLsb' 0 21 = 0, 2)] fun s =>
    let body := reportBody s nonce
    let s := s.send (.report (body ++ Config.attestSignature body s.host.fw.leaf))
    (s.modFw fun f => { f with leaf := f.leaf + 1 }).setMgmt 0x18 (s.mgmt 0x18 - 1)

end Sys2Proof.Machine
end

