-- ==== Sys2Proof/Machine/Checkpoint.lean ====
section
/-!
DEFINITION. Checkpoint streaming (R427 to R431) and the interval that a start point begins in record mode (R458).
-/

namespace Sys2Proof.Machine

/-! ## The checkpoint block (R427) -/

/-- R427: the block of a partition. -/
def ckBlock (part : Nat) : Nat := 0x14000 + 64 * part
/-- R427: the stream ring's base. -/
def ckBase (s : State) (part : Nat) : Nat := ((s.mgmt64 (ckBlock part)).extractLsb' 16 48).toNat * 65536
/-- R427: the ring's slots. -/
def ckSlots (s : State) (part : Nat) : Nat := (s.mgmt (ckBlock part)).toNat % 65536
/-- R427: status: 0 idle, 1 running, 2 done, 3 aborted. -/
def ckStatus (s : State) (part : Nat) : Nat := ((s.mgmt (ckBlock part + 0x1C)).extractLsb' 6 2).toNat
/-- R427: writes status and cause. -/
def setCkStatus (s : State) (part status cause : Nat) : State :=
  let a := ckBlock part + 0x1C
  s.setMgmt a ((s.mgmt a &&& 0xFFFFFF00#32) ||| BitVec.ofNat 32 (64 * status + cause))

/-- R391: where the dirty map of a context begins, if it is enabled. -/
def dirtyMap (s : State) (tag : Nat) : Option Nat :=
  let d := s.mgmt64 (0x4000 + 32 * tag + 0x10)
  if d.getLsbD 0 then some ((d.extractLsb' 16 48).toNat * 65536) else none

/-- R391: the bytes of a map. -/
def mapBytes : Nat := 0x800000

/-- R427: the stream lies in host or CXL memory. -/
def streamOk (pa : Nat) : Bool :=
  match regionOf pa with
  | .host => true
  | _ => false

/-- R427: a physical address is memory of a partition. -/
def partitionMemory (s : State) (part pa : Nat) : Bool :=
  mayAccess s part pa && match regionOf pa with
  | .near _ => true
  | .far _ => true
  | _ => false

/-- R427: the whole snapshot map lies in the partition's memory. -/
def ckmapOk (s : State) (part : Nat) : Bool :=
  (List.range (mapBytes / 65536)).all fun k => partitionMemory s part (ckmapBase s part + 65536 * k)

/-- R427, R428: the fields of a block are valid. -/
def ckFieldsOk (s : State) (part : Nat) : Bool :=
  ckSlots s part ≠ 0 && streamOk (ckBase s part) && ckmapOk s part &&
    (match s.ctx (ckTag s part) with
     | some c => c.part = part && (dirtyMap s (ckTag s part)).isSome
     | none => true)

/-! ## The start point (R428) -/

/-- The words of a range that are listed, by their offset. -/
def listedWords (m : MemSys) (base n : Nat) : List Nat :=
  ((m.bytes.filter fun ab => base ≤ ab.1 && ab.1 < base + n).map fun ab => (ab.1 - base) / 4 * 4).eraseDups

/-- R52, R54: the words of a range that are poisoned or hold an uncorrectable error, by their offset. -/
def markedWords (m : MemSys) (base n : Nat) : List Nat :=
  ((m.marks.flatMap fun (lm : Nat × Mark) => ((List.range 32).filter fun k => lm.2.mask.getLsbD k).map fun k => 128 * lm.1 + 4 * k) ++ skeys m.ecc).filterMap
    fun a => if base ≤ a && a < base + n then some (a - base) else none

/-- R428: the dirty map is copied into the snapshot map, its poison with it, and cleared. -/
def copyMap (s : State) (part tag dmap ckmap : Nat) : State :=
  let s := ((skeys s.mem.ecc).filter fun a => dmap ≤ a && a < dmap + mapBytes).foldl (fun s a => detectEcc s (some tag) part a) s
  let offs (base : Nat) : List Nat := listedWords s.mem base mapBytes ++ markedWords s.mem base mapBytes
  let all := (offs dmap ++ offs ckmap).eraseDups
  let s := all.foldl (fun s o => copyWords s (dmap + o) (ckmap + o) 1) s
  all.foldl (fun s o => deviceWord s (dmap + o) 0) s

/-- R447: where snapshot slot k of a context begins. -/
def snapSlot (s : State) (tag k : Nat) : Nat :=
  ((s.mgmt64 (debugBlock tag + 0x38)).extractLsb' 16 48).toNat * 65536 + 0x500000 * k

/-- R458: a snapshot of a resident workgroup in a slot. -/
def snapshotWg (s : State) (w : WG) (slot : Nat) : Image × State :=
  let (i, s) := imageOf s w
  (i, writeSlot s (snapSlot s w.ctx slot) i)

/-- R458: the groups of a context in order of snapshot: those of its resident workgroups, then the saved ones, whose images stand in
its save area. -/
def snapshotOrder (s : State) (tag : Nat) (wgs : List WG) : List Nat :=
  (wgs.flatMap fun w =>
    (sortBy (fun a b => a.pos ≤ b.pos) ((s.exe.groups.map (·.2)).filter (·.wg = w.id))).map (·.id)) ++
  (s.host.images.filter (·.wg.ctx = tag)).flatMap fun i => i.groups.map (·.id)

/-- R460: the operations of a workgroup's tiles carry the ids of their groups. -/
def WG.renumber (w : WG) (idOf : Nat → Option (BitVec 16)) : WG :=
  { w with tiles := smapAll w.tiles fun x => { x with ops := x.ops.map fun o => { o with rid := (idOf o.gid).getD o.rid } } }

/-- R446, R458: every group of a context takes its id and a retired-work count of 0, and so do the operations that it forked. -/
def numberGroups (s : State) (tag : Nat) (wgs : List WG) : State :=
  let gids := snapshotOrder s tag wgs
  let idOf (gid : Nat) : Option (BitVec 16) := (gids.findIdx? (· = gid)).map (BitVec.ofNat 16 ·)
  let start (g : Group) : Group := { g with recordId := (idOf g.id).getD g.recordId, retired := 0 }
  let s := wgs.foldl (fun s w => s.modWg w.id (·.renumber idOf)) (gids.foldl (fun s gid => s.modGroup gid start) s)
  let s := (s.host.images.filter (·.wg.ctx = tag)).foldl (fun s i =>
    modSaved s i fun i => { i with wg := i.wg.renumber idOf, groups := i.groups.map start }) s
  { s with exe := { s.exe with engOps := smapAll s.exe.engOps fun o => { o with rid := (idOf o.gid).getD o.rid } } }

/-- R458: a start point begins an interval if record is set, and ends the one before. The snapshot also keeps what is in
flight for the context (log entry 32). -/
def beginInterval (s : State) (tag : Nat) : State :=
  -- the entries of the interval before that still wait for earlier ones are written first
  let late := (s.ctx tag).elim [] (·.rep.late)
  let s := late.foldl (fun s e => logPut s tag e.words) (s.modCtx tag fun c => { c with rep := { c.rep with late := [] } })
  if !debugBit s tag 3 then s.modCtx tag fun c => { c with rep := { c.rep with interval := false } }
  else
    let wgs := residentWgs s tag
    let s := numberGroups s tag wgs
    let saved := s.host.images.filter (·.wg.ctx = tag)
    let (images, s) := (wgs.zip (List.range wgs.length)).foldl (fun (acc : List Image × State) wk =>
      let (i, s) := snapshotWg acc.2 wk.1 wk.2
      (acc.1 ++ [i], s)) ([], s)
    let images := images ++ saved
    let gids := images.flatMap fun i => i.groups.map (·.id)
    let pend := (s.exe.pendings.map (·.2)).filter fun p => gids.contains p.gid
    let ops := (s.exe.engOps.map (·.2)).filter (·.ctx = tag)
    s.modCtx tag fun c => { c with rep :=
      { nextId := gids.length, interval := true, recorded := true, logStart := s.mgmt (debugBlock tag + 0x34), snaps := images
        pendings := pend, ops := ops } }

/-- R428: the start point: G flips, ckact is set, the dirty map is copied and cleared. -/
def startPoint (s : State) (part tag : Nat) : State :=
  let s := beginInterval s tag
  let s := s.modCtx tag fun c => { c with ckact := true, gen := !c.gen }
  let s := copyMap s part tag ((dirtyMap s tag).getD 0) (ckmapBase s part)
  (setCkStatus s part 1 0).setMgmt (ckBlock part + 0x18) 0

/-- R417: the checkpoint engines of a partition's quadrants are ready. -/
def ckReady (s : State) (part : Nat) : Bool := (partQuads s part).all fun q => ready s (20 + q)

/-- R428: CKPT, a channel-2 command. The flush of step 1 is done at once: every write that was performed is in memory. -/
def execCkpt (partition : Nat) (s : State) : Result :=
  let tag := ckTag s partition
  command2 s
    [(ckStatus s partition = 1, 4), (4 ≤ partition || !ckFieldsOk s partition, 3), ((s.ctx tag).isNone, 1),
     (!ckReady s partition, 5)]
    fun s => startPoint s partition tag

/-! ## Copying pages (R428 to R431) -/

/-- R428: the marked pages of a snapshot map, ascending. -/
def markedPages (m : MemSys) (ckmap : Nat) : List Nat :=
  (m.bytes.filter fun ab => ckmap ≤ ab.1 && ab.1 < ckmap + mapBytes).flatMap fun ab =>
    ((List.range 8).filter (ab.2.getLsbD ·)).map fun k => 65536 * (8 * (ab.1 - ckmap) + k)

/-- R276 to R278: where an operation writes its next word, if in the flat space. An element of SCATTER goes where its index, which
the operation has received, says. -/
def EngOp.target (o : EngOp) : Option DWord :=
  let h := cw o.words 0
  let at' (k : Nat) : DWord := DWord.ofHalves (cw o.words k) (cw o.words (k + 1)) + BitVec.ofNat 64 (4 * o.pos)
  if o.killed || o.total ≤ 4 * o.pos then none
  else if o.q = 0 then (if h.getLsbD 18 then none else some (at' 3))
  else if o.q = 4 then some (at' 3)
  else if h.extractLsb' 28 4 = 1 then (if h.getLsbD 18 then none else some (at' 5))
  else
    let unit := if h.getLsbD 15 then 2 else 1
    (sfind o.fetched (fetchKey (h.getLsbD 17) (DWord.ofHalves (cw o.words 3) (cw o.words 4) + BitVec.ofNat 64 (4 * (o.pos / unit))))).map
      fun f => DWord.ofHalves (cw o.words 1) (cw o.words 2) + BitVec.ofNat 64 (4 * (f.val.toNat * unit + o.pos % unit))

/-- R429: the address that a write in flight waits to write: of a result in flight, of an engine operation, or of the completion of a
launch. -/
def waitingWrites (s : State) (tag : Nat) : List Nat :=
  let gids := (groupsAnywhere s tag).map (·.id)
  let place (va : DWord) : Option Nat := match (walk s tag va.toNat).1 with
    | .leaf l => some (entryPa l.entry + va.toNat % 2 ^ levelShift l.level)
    | .fail _ _ => none
  (s.exe.pendings.filterMap fun kp => if !gids.contains kp.2.gid then none else match kp.2.what with
    | .access (.eff _) _ pa _ _ => some pa
    | .access (.atomicRet _) _ pa _ _ => some pa
    | _ => none) ++
  (s.exe.engOps.filterMap fun ko => if ko.2.ctx = tag then ko.2.target.bind place else none) ++
  s.host.launches.filterMap fun kl => if kl.2.ctx = tag && kl.2.state = 2 && kl.2.cplt ≠ 0 then place kl.2.cplt else none

/-- R428, R429: the page that a quadrant's engine copies next: one that a write waits for, else the lowest. -/
def nextPage (s : State) (part quad tag : Nat) : Option Nat :=
  let mine := (markedPages s.mem (ckmapBase s part)).filter fun p => homeQuad s part p = quad
  let wanted := (waitingWrites s tag).map fun a => a / 65536 * 65536
  (mine.find? (wanted.contains ·)).or mine.head?

/-- R430: the head of a record. -/
def recordHead (fin data : Bool) (seq pages : Word) (pa tag : Nat) (gen : Bool) : List Word :=
  let x : DWord := BitVec.ofNat 64 pa
  [0x434B5231, 0#30 ++ BitVec.ofBool fin ++ BitVec.ofBool data, seq, pages, x.halves.1, x.halves.2,
    0#16 ++ BitVec.ofNat 8 tag ++ 0#7 ++ BitVec.ofBool gen, 0]

/-- R430: the metadata of line k of a page: poison mask, global origin, full bits of its words, 0. -/
def lineMeta (m : MemSys) (page k : Nat) : List Word :=
  let a := page + 128 * k
  let x : Mark := sget {} m.marks (lineOf a)
  let fulls : Word := (List.range 32).foldl (fun w j => if fullBit m (a + 4 * j) then w ||| (1#32 <<< j) else w) 0
  [x.mask, x.origin, fulls, 0]

/-- R430: meta is set when a line carries poison or a full bit. -/
def pageMeta (m : MemSys) (page : Nat) : Bool :=
  m.marks.any (fun lm => page ≤ lm.1 * 128 && lm.1 * 128 < page + 65536) ||
    m.fulls.any fun ab => page ≤ ab.1 && ab.1 < page + 65536

/-- R430, R54: the words of a page with an uncorrectable error are detected as they are read. -/
def detectPage (s : State) (tag part page : Nat) : State :=
  (s.mem.ecc.filter fun ab => page ≤ ab.1 && ab.1 < page + 65536).foldl (fun s ab => detectEcc s (some tag) part ab.1) s

/-- R430: the slot of the next record. -/
def ckSlot (s : State) (part : Nat) : Nat :=
  ckBase s part + 81920 * ((s.mgmt (ckBlock part + 0xC)).toNat % max (ckSlots s part) 1)

/-- R431: a record may be written only while the ring has room. -/
def ckRoom (s : State) (part : Nat) : Bool :=
  (s.mgmt (ckBlock part + 0xC) - s.mgmt (ckBlock part + 8)).toNat < ckSlots s part

/-- R428, R430: the record of a page is written and its bit cleared. -/
def copyPage (s : State) (part tag : Nat) (gen : Bool) (page : Nat) : State :=
  let s := detectPage s tag part page
  let slot := ckSlot s part
  let tail := s.mgmt (ckBlock part + 0xC)
  let s := deviceWords s slot (recordHead false (pageMeta s.mem page) tail 0 page tag gen)
  let s := deviceWords s (slot + 0x80) ((List.range 512).flatMap (lineMeta s.mem page))
  let s := deviceWords s (slot + 0x4000) ((List.range 16384).map fun k => memWord s.mem (page + 4 * k))
  let s := mapSet s tag part (ckmapBase s part) page false
  (s.setMgmt (ckBlock part + 0xC) (tail + 1)).setMgmt (ckBlock part + 0x18) (s.mgmt (ckBlock part + 0x18) + 1)

/-- R428, R431: the end record; status becomes done and one event is sent. -/
def endCheckpoint (s : State) (part tag : Nat) (gen : Bool) : State :=
  let tail := s.mgmt (ckBlock part + 0xC)
  let s := deviceWords s (ckSlot s part) (recordHead true false tail (s.mgmt (ckBlock part + 0x18)) 0 tag gen)
  let s := (setCkStatus s part 2 0).setMgmt (ckBlock part + 0xC) (tail + 1)
  (s.modCtx tag fun c => { c with ckact := false }).send (.checkpoint part)

/-- R431: an access to the snapshot map fails: one of its words is poisoned or holds an uncorrectable error. -/
def ckmapFails (m : MemSys) (ckmap : Nat) : Bool :=
  m.marks.any (fun lm => ckmap ≤ lm.1 * 128 && lm.1 * 128 < ckmap + mapBytes) ||
    m.ecc.any fun ab => ckmap ≤ ab.1 && ab.1 < ckmap + mapBytes

/-- R428 to R431: CHECKPOINT_PAGE_COPY: the engine of a quadrant copies its next marked page; when no page of any quadrant is
marked, the engine of the lowest quadrant writes the end record. It waits while the ring has no room. -/
def execCheckpointPageCopy (partition quadrant : Nat) (s : State) : Result :=
  let tag := ckTag s partition
  let qs := partQuads s partition
  match s.ctx tag with
  | none => .next s
  | some c =>
    if 4 ≤ partition || ckStatus s partition ≠ 1 || !c.ckact || !qs.contains quadrant then .next s
    else if ckmapFails s.mem (ckmapBase s partition) || !ckmapOk s partition then
      .next (abortCheckpoint s partition 3)
    else if !streamOk (ckSlot s partition) then .next (abortCheckpoint s partition 2)
    else if !ckRoom s partition then .next s
    else match nextPage s partition quadrant tag with
      | some page => .next (copyPage s partition tag c.gen page)
      | none =>
        if qs.head? = some quadrant && (markedPages s.mem (ckmapBase s partition)).isEmpty then
          .next (endCheckpoint s partition tag c.gen)
        else .next s

end Sys2Proof.Machine
end

