-- ==== Sys2Proof/Machine/Reliability.lean ====
section
/-!
DEFINITION. The severity matrix (R436), the error log (R441), dumps (R444, R445), events that hardware detects by itself
(R434, R438), and the management registers without a behaviour of their own (R381, R387, R391, R400, R410 to R412, R427,
R440, R464).
-/

namespace Sys2Proof.Machine

/-- R436: MATRIX_WORD_WRITE: a word with a reserved action code in a field is left unchanged. -/
def execMatrixWordWrite (partition cls : Nat) (value : Word) (s : State) : Result :=
  let ok := (List.range 8).all fun k => (value.extractLsb' (3 * k) 3).toNat ≤ 4
  if !served s || 4 ≤ partition || 24 ≤ cls || !ok then .next s
  else .next (s.setMgmt (0x15000 + 0x100 * partition + 4 * cls) (value &&& 0x00FFFFFF))

/-- R441: LOG_HEAD_WRITE: records are consumed and dropped is cleared. -/
def execLogHeadWrite (partition : Nat) (value : Word) (s : State) : Result :=
  let b := 0x15000 + 0x100 * partition + 0x80
  if !served s || 4 ≤ partition then .next s else .next ((s.setMgmt (b + 8) value).setMgmt (b + 0x10) 0)

/-- R439: a reset of the partition that waited for a dump is done now. -/
def resumeReset (s : State) (partition : Nat) : State :=
  match sfind s.host.resetWaits partition with
  | none => s
  | some trigger => resetPartition { s with host := { s.host with resetWaits := sdel s.host.resetWaits partition } } partition trigger

/-- R439, R444: DUMP_DESCRIPTOR_WRITE: base with onkill, or size, which clears status: a dump that is being written ends so, and a
reset that waited for it is done. -/
def execDumpDescriptorWrite (partition : Nat) (sizeWord : Bool) (value : DWord) (s : State) : Result :=
  let b := 0x15000 + 0x100 * partition + 0xA0
  if !served s || 4 ≤ partition then .next s
  else if sizeWord then
    .next (resumeReset ((s.setMgmt (b + 8) value.halves.1).setMgmt (b + 0x10) (s.mgmt (b + 0x10) &&& ~~~3#32)) partition)
  else .next (s.setMgmt64 b (value &&& ~~~0xFFFE#64))

/-- R445, R439: DUMP_COMPLETE: status becomes ready and one event is sent; a reset of the partition that waited for the dump is
done now. -/
def execDumpComplete (partition : Nat) (s : State) : Result :=
  let a := 0x15000 + 0x100 * partition + 0xB0
  if 4 ≤ partition || (s.mgmt a).extractLsb' 0 2 ≠ 1#2 then .next s
  else .next (resumeReset ((s.setMgmt a ((s.mgmt a &&& ~~~3#32) ||| 2)).send (.dump partition)) partition)

/-! ## Events without an instruction (R434, R438) -/

/-- R434: CXL_LINK_ERROR. No quadrant owns the port: its events use partition 0 (log entry 33). -/
def execCxlLinkError (info : DWord) (s : State) : Result :=
  .next (raise s { cls := 22, src := 6, part := some 0, info := [info] })

/-- R4, R434: INTERNAL_CONSISTENCY_CHECK of a unit of a quadrant; on an idle quadrant the event has no partition (R438).
`source` is the source, and for an L2 slice 8 times the slice's number more. -/
def execInternalConsistencyCheck (quadrant source : Nat) (info : DWord) (s : State) : Result :=
  let src := source % 8
  if 48 ≤ source / 8 || (src ≠ 1 && source ≠ src) then .next s
  else .next (raise s { cls := 23, src := src, part := quadPart s quadrant, info := [info], loc := quadLoc quadrant
                        num := if src = 1 then some (source / 8) else none })

/-- R54, R434, R438: SCRUBBING finds an ECC error in near or far memory: a corrected one is counted, the word of an
uncorrectable one is poisoned. -/
def execScrubbing (pa : Nat) (uncorrected : Bool) (s : State) : Result :=
  let a := pa / 4 * 4
  let found (src : Nat) : State :=
    let origin := originRaw s (homeQuad s 0 a) 0x7F causeEcc
    let s := if uncorrected then s.withMem (setPoi { s.mem with ecc := sdel s.mem.ecc a } a true origin) else s
    raise s { cls := if uncorrected then 7 else 6, src := src, part := ownerOf s a, loc := memoryLoc a, info := [BitVec.ofNat 64 a] }
  match regionOf a with
  | .near _ => .next (found 3)
  | .far _ => .next (found 4)
  | _ => .next s

/-! ## Management registers -/

/-- The bits that a channel-1 write changes in the management word at an offset; 0 for a read-only word, and for a word
that has a behaviour and a constructor of its own. -/
def writableBits (s : State) (off : Nat) : Word :=
  let chords := (List.range 64).all fun c => !(s.mgmt (0x10000 + 32 * c)).getLsbD 31
  if off % 4 ≠ 0 then 0
  -- fault queues (R387): a ring's base, log2n and enable, and its head
  else if 0x200 ≤ off && off < 0x280 then
    match off % 32 with
    | 0 => 0xFFFF00F1
    | 4 => 0xFFFFFFFF
    | 8 => 0xFFFFFFFF
    | _ => 0
  -- the far-memory ownership map (R381)
  else if 0x800 ≤ off && off < 0x1000 then 0xFFFFFFFF
  -- context descriptors (R391): save, nslots, dmap, den
  else if 0x4000 ≤ off && off < 0x6000 then
    if (s.ctx ((off - 0x4000) / 32)).isNone then 0 else match off % 32 with
    | 8 => 0xFFFFFFFF
    | 12 => 0xFFFFFFFF
    | 16 => 0xFFFF0001
    | 20 => 0xFFFFFFFF
    | _ => 0
  -- window slices (R410)
  else if 0x8000 ≤ off && off < 0xC000 then (if off % 8 = 0 then 0x00FFFFFF else 0x80000000)
  -- routes (R411)
  else if 0xC000 ≤ off && off < 0x10000 then 0x8000003F
  -- chords (R400), while enable is clear: ports, headroom and rtimer
  else if 0x10000 ≤ off && off < 0x10800 then
    if (s.mgmt (off / 32 * 32)).getLsbD 31 then 0 else match off % 32 with
    | 4 => 0xC0FFFFFF
    | 12 => 0xFFFFFFFF
    | _ => 0
  -- the node number (R400)
  else if off = 0x12000 then (if chords then 0xFFF else 0)
  -- inbound entries (R412)
  else if 0x13000 ≤ off && off < 0x13100 then
    match off % 16 with
    | 0 => 0xFFFF1FFF
    | 4 => 0xFFFFFFFF
    | 8 => 0xFFFF0000
    | _ => 0xFFFFFFFF
  -- checkpoint blocks (R427)
  else if 0x14000 ≤ off && off < 0x14100 then
    if ckStatus s ((off - 0x14000) / 64) = 1 && off % 64 ≠ 8 then 0 else match off % 64 with
    | 0 => 0xFFFFFFFF
    | 4 => 0xFFFFFFFF
    | 8 => 0xFFFFFFFF
    | 0x10 => 0xFFFF0000
    | 0x14 => 0xFFFFFFFF
    | 0x1C => 0x00FF0000
    | _ => 0
  -- the error log's ring (R441)
  else if 0x15000 ≤ off && off < 0x15400 then
    match off % 0x100 with
    | 0x80 => 0xFFFF00F1
    | 0x84 => 0xFFFFFFFF
    | _ => 0
  -- event counters (R440)
  else if 0x16000 ≤ off && off < 0x17000 then (if off % 0x400 < 0x300 then 0xFFFFFFFF else 0)
  -- fabric member lists (R464)
  else if 0x17000 ≤ off && off < 0x18000 then
    match off % 16 with
    | 0 => 0xFFFF1FFF
    | 4 => 0xFFFFFFFF
    | _ => 0
  else 0

/-- R146, R391: MANAGEMENT_REGISTER_WRITE: a channel-1 write of one word; read-only bits keep their value. A route that is
written lets the messages to its node go out again. -/
def execManagementRegisterWrite (off : Nat) (value : Word) (s : State) : Result :=
  let w := writableBits s off
  if !served s || w = 0 then .next s
  else
    let s := s.setMgmt off ((s.mgmt off &&& ~~~w) ||| (value &&& w))
    .next (if 0xC000 ≤ off && off < 0x10000 then resendMessages s ((off - 0xC000) / 4) else s)

end Sys2Proof.Machine
end

