-- ==== Sys2Proof/Machine/Slots.lean ====
section
/-!
DEFINITION. Issue slots: the registers that an instruction names, the leaf of a slot (R452) and the counters of each
partition.
-/

namespace Sys2Proof.Machine

/-- R260: the registers of an access of a size. -/
def sizeRegs (s : BitVec 2) : Nat := if s = 1 then 2 else 1

/-- The register sources that an instruction names, beside the guard. -/
def sourcesOf : Instr → List Src
  | .bra p _ _ => [⟨.p, p.toNat, false, 1⟩]
  | .brc p _ _ => [⟨.p, p.toNat, false, 1⟩]
  | .brx ea a => [⟨.v, a.toNat, ea, 2⟩]
  | .callx ea a => [⟨.v, a.toNat, ea, 2⟩]
  | .meld ea p => [⟨.p, p.toNat, ea, 1⟩]
  | .add _ ea a eb b => [⟨.v, a.toNat, ea, 1⟩, ⟨.v, b.toNat, eb, 1⟩]
  | .addU _ ea a eb b => [⟨.s, a.toNat, ea, 1⟩, ⟨.s, b.toNat, eb, 1⟩]
  | .sub _ ea a eb b => [⟨.v, a.toNat, ea, 1⟩, ⟨.v, b.toNat, eb, 1⟩]
  | .subU _ ea a eb b => [⟨.s, a.toNat, ea, 1⟩, ⟨.s, b.toNat, eb, 1⟩]
  | .mul _ ea a eb b => [⟨.v, a.toNat, ea, 1⟩, ⟨.v, b.toNat, eb, 1⟩]
  | .mulU _ ea a eb b => [⟨.s, a.toNat, ea, 1⟩, ⟨.s, b.toNat, eb, 1⟩]
  | .mulhi _ ea a eb b => [⟨.v, a.toNat, ea, 1⟩, ⟨.v, b.toNat, eb, 1⟩]
  | .mulhiU _ ea a eb b => [⟨.s, a.toNat, ea, 1⟩, ⟨.s, b.toNat, eb, 1⟩]
  | .fma d ea a eb b => [⟨.v, a.toNat, ea, 1⟩, ⟨.v, b.toNat, eb, 1⟩, ⟨.v, d.toNat, false, 1⟩]
  | .fmaU d ea a eb b => [⟨.s, a.toNat, ea, 1⟩, ⟨.s, b.toNat, eb, 1⟩, ⟨.s, d.toNat, false, 1⟩]
  | .min _ ea a eb b => [⟨.v, a.toNat, ea, 1⟩, ⟨.v, b.toNat, eb, 1⟩]
  | .minU _ ea a eb b => [⟨.s, a.toNat, ea, 1⟩, ⟨.s, b.toNat, eb, 1⟩]
  | .max _ ea a eb b => [⟨.v, a.toNat, ea, 1⟩, ⟨.v, b.toNat, eb, 1⟩]
  | .maxU _ ea a eb b => [⟨.s, a.toNat, ea, 1⟩, ⟨.s, b.toNat, eb, 1⟩]
  | .div _ ea a eb b => [⟨.v, a.toNat, ea, 1⟩, ⟨.v, b.toNat, eb, 1⟩]
  | .divU _ ea a eb b => [⟨.s, a.toNat, ea, 1⟩, ⟨.s, b.toNat, eb, 1⟩]
  | .rem _ ea a eb b => [⟨.v, a.toNat, ea, 1⟩, ⟨.v, b.toNat, eb, 1⟩]
  | .remU _ ea a eb b => [⟨.s, a.toNat, ea, 1⟩, ⟨.s, b.toNat, eb, 1⟩]
  | .neg _ ea a => [⟨.v, a.toNat, ea, 1⟩]
  | .negU _ ea a => [⟨.s, a.toNat, ea, 1⟩]
  | .abs _ ea a => [⟨.v, a.toNat, ea, 1⟩]
  | .absU _ ea a => [⟨.s, a.toNat, ea, 1⟩]
  | .sel _ ea a eb b => [⟨.v, a.toNat, ea, 1⟩, ⟨.v, b.toNat, eb, 1⟩]
  | .add64 _ ea a eb b => [⟨.v, a.toNat, ea, 2⟩, ⟨.v, b.toNat, eb, 2⟩]
  | .add64U _ ea a eb b => [⟨.s, a.toNat, ea, 2⟩, ⟨.s, b.toNat, eb, 2⟩]
  | .lea _ ea a eb b => [⟨.v, a.toNat, ea, 2⟩, ⟨.v, b.toNat, eb, 1⟩]
  | .leaU _ ea a eb b => [⟨.s, a.toNat, ea, 2⟩, ⟨.s, b.toNat, eb, 1⟩]
  | .cmp _ _ ea a eb b => [⟨.v, a.toNat, ea, 1⟩, ⟨.v, b.toNat, eb, 1⟩]
  | .classP _ ea a _ => [⟨.v, a.toNat, ea, 1⟩]
  | .and _ ea a eb b => [⟨.v, a.toNat, ea, 1⟩, ⟨.v, b.toNat, eb, 1⟩]
  | .andU _ ea a eb b => [⟨.s, a.toNat, ea, 1⟩, ⟨.s, b.toNat, eb, 1⟩]
  | .or _ ea a eb b => [⟨.v, a.toNat, ea, 1⟩, ⟨.v, b.toNat, eb, 1⟩]
  | .orU _ ea a eb b => [⟨.s, a.toNat, ea, 1⟩, ⟨.s, b.toNat, eb, 1⟩]
  | .xor _ ea a eb b => [⟨.v, a.toNat, ea, 1⟩, ⟨.v, b.toNat, eb, 1⟩]
  | .xorU _ ea a eb b => [⟨.s, a.toNat, ea, 1⟩, ⟨.s, b.toNat, eb, 1⟩]
  | .not _ ea a => [⟨.v, a.toNat, ea, 1⟩]
  | .notU _ ea a => [⟨.s, a.toNat, ea, 1⟩]
  | .shl _ ea a eb b => [⟨.v, a.toNat, ea, 1⟩, ⟨.v, b.toNat, eb, 1⟩]
  | .shlU _ ea a eb b => [⟨.s, a.toNat, ea, 1⟩, ⟨.s, b.toNat, eb, 1⟩]
  | .shr _ ea a eb b => [⟨.v, a.toNat, ea, 1⟩, ⟨.v, b.toNat, eb, 1⟩]
  | .shrU _ ea a eb b => [⟨.s, a.toNat, ea, 1⟩, ⟨.s, b.toNat, eb, 1⟩]
  | .sar _ ea a eb b => [⟨.v, a.toNat, ea, 1⟩, ⟨.v, b.toNat, eb, 1⟩]
  | .sarU _ ea a eb b => [⟨.s, a.toNat, ea, 1⟩, ⟨.s, b.toNat, eb, 1⟩]
  | .rot _ ea a eb b => [⟨.v, a.toNat, ea, 1⟩, ⟨.v, b.toNat, eb, 1⟩]
  | .rotU _ ea a eb b => [⟨.s, a.toNat, ea, 1⟩, ⟨.s, b.toNat, eb, 1⟩]
  | .bfx _ ea a eb b => [⟨.v, a.toNat, ea, 1⟩, ⟨.v, b.toNat, eb, 1⟩]
  | .bfxU _ ea a eb b => [⟨.s, a.toNat, ea, 1⟩, ⟨.s, b.toNat, eb, 1⟩]
  | .bfi d ea a eb b => [⟨.v, a.toNat, ea, 1⟩, ⟨.v, b.toNat, eb, 1⟩, ⟨.v, d.toNat, false, 1⟩]
  | .bfiU d ea a eb b => [⟨.s, a.toNat, ea, 1⟩, ⟨.s, b.toNat, eb, 1⟩, ⟨.s, d.toNat, false, 1⟩]
  | .popc _ ea a => [⟨.v, a.toNat, ea, 1⟩]
  | .popcU _ ea a => [⟨.s, a.toNat, ea, 1⟩]
  | .clz _ ea a => [⟨.v, a.toNat, ea, 1⟩]
  | .clzU _ ea a => [⟨.s, a.toNat, ea, 1⟩]
  | .ctz _ ea a => [⟨.v, a.toNat, ea, 1⟩]
  | .ctzU _ ea a => [⟨.s, a.toNat, ea, 1⟩]
  | .brev _ ea a => [⟨.v, a.toNat, ea, 1⟩]
  | .brevU _ ea a => [⟨.s, a.toNat, ea, 1⟩]
  | .mov _ ea a => [⟨.v, a.toNat, ea, 1⟩]
  | .movU _ ea a => [⟨.s, a.toNat, ea, 1⟩]
  | .rcp _ ea a => [⟨.v, a.toNat, ea, 1⟩]
  | .rcpU _ ea a => [⟨.s, a.toNat, ea, 1⟩]
  | .rsq _ ea a => [⟨.v, a.toNat, ea, 1⟩]
  | .rsqU _ ea a => [⟨.s, a.toNat, ea, 1⟩]
  | .sqrt _ ea a => [⟨.v, a.toNat, ea, 1⟩]
  | .sqrtU _ ea a => [⟨.s, a.toNat, ea, 1⟩]
  | .exp2 _ ea a => [⟨.v, a.toNat, ea, 1⟩]
  | .exp2U _ ea a => [⟨.s, a.toNat, ea, 1⟩]
  | .log2 _ ea a => [⟨.v, a.toNat, ea, 1⟩]
  | .log2U _ ea a => [⟨.s, a.toNat, ea, 1⟩]
  | .sin _ ea a => [⟨.v, a.toNat, ea, 1⟩]
  | .sinU _ ea a => [⟨.s, a.toNat, ea, 1⟩]
  | .cos _ ea a => [⟨.v, a.toNat, ea, 1⟩]
  | .cosU _ ea a => [⟨.s, a.toNat, ea, 1⟩]
  | .cvt _ ea a _ => [⟨.v, a.toNat, ea, 1⟩]
  | .cvtU _ ea a _ => [⟨.s, a.toNat, ea, 1⟩]
  | .pack2 _ ea a eb b => [⟨.v, a.toNat, ea, 1⟩, ⟨.v, b.toNat, eb, 1⟩]
  | .pack2U _ ea a eb b => [⟨.s, a.toNat, ea, 1⟩, ⟨.s, b.toNat, eb, 1⟩]
  | .unpk2 _ ea a _ => [⟨.v, a.toNat, ea, 1⟩]
  | .unpk2U _ ea a _ => [⟨.s, a.toNat, ea, 1⟩]
  | .addi _ ea a _ => [⟨.v, a.toNat, ea, 1⟩]
  | .addiU _ ea a _ => [⟨.s, a.toNat, ea, 1⟩]
  | .andi _ ea a _ => [⟨.v, a.toNat, ea, 1⟩]
  | .andiU _ ea a _ => [⟨.s, a.toNat, ea, 1⟩]
  | .ori _ ea a _ => [⟨.v, a.toNat, ea, 1⟩]
  | .oriU _ ea a _ => [⟨.s, a.toNat, ea, 1⟩]
  | .xori _ ea a _ => [⟨.v, a.toNat, ea, 1⟩]
  | .xoriU _ ea a _ => [⟨.s, a.toNat, ea, 1⟩]
  | .shli _ ea a _ => [⟨.v, a.toNat, ea, 1⟩]
  | .shliU _ ea a _ => [⟨.s, a.toNat, ea, 1⟩]
  | .shri _ ea a _ => [⟨.v, a.toNat, ea, 1⟩]
  | .shriU _ ea a _ => [⟨.s, a.toNat, ea, 1⟩]
  | .cmpi _ _ ea a _ => [⟨.v, a.toNat, ea, 1⟩]
  | .movh d _ => [⟨.v, d.toNat, false, 1⟩]
  | .movhU d _ => [⟨.s, d.toNat, false, 1⟩]
  | .shflIdx _ ea a eb b => [⟨.v, a.toNat, ea, 1⟩, ⟨.v, b.toNat, eb, 1⟩]
  | .shflUp _ ea a _ => [⟨.v, a.toNat, ea, 1⟩]
  | .shflDn _ ea a _ => [⟨.v, a.toNat, ea, 1⟩]
  | .shflXor _ ea a _ => [⟨.v, a.toNat, ea, 1⟩]
  | .bcast _ ea a _ => [⟨.v, a.toNat, ea, 1⟩]
  | .vote _ ea p _ => [⟨.p, p.toNat, ea, 1⟩]
  | .qscan _ ea a _ => [⟨.v, a.toNat, ea, 1⟩]
  | .reduce _ ea a _ => [⟨.v, a.toNat, ea, 1⟩]
  | .pand _ ea a eb b => [⟨.p, a.toNat, ea, 1⟩, ⟨.p, b.toNat, eb, 1⟩]
  | .por _ ea a eb b => [⟨.p, a.toNat, ea, 1⟩, ⟨.p, b.toNat, eb, 1⟩]
  | .pxor _ ea a eb b => [⟨.p, a.toNat, ea, 1⟩, ⟨.p, b.toNat, eb, 1⟩]
  | .pnot _ ea a => [⟨.p, a.toNat, ea, 1⟩]
  | .pmov _ ea a => [⟨.p, a.toNat, ea, 1⟩]
  | .xset _ ea a => [⟨.v, a.toNat, ea, 1⟩]
  | .xadd _ a _ => [⟨.x, a.toNat, false, 1⟩]
  | .movx _ a eb b => [⟨.x, a.toNat, false, 1⟩, ⟨.v, b.toNat, eb, 1⟩]
  | .movxw d ea a eb b => [⟨.v, a.toNat, ea, 1⟩, ⟨.v, b.toNat, eb, 1⟩, ⟨.x, d.toNat, false, 1⟩]
  | .smov _ ea a => [⟨.s, a.toNat, ea, 1⟩]
  | .vset _ ea a => [⟨.v, a.toNat, ea, 1⟩]
  | .ld _ ea a _ _ => [⟨.v, a.toNat, ea, 2⟩]
  | .ldU _ ea a _ _ => [⟨.s, a.toNat, ea, 2⟩]
  | .st d ea a s _ => [⟨.v, a.toNat, ea, 2⟩, ⟨.v, d.toNat, false, sizeRegs s⟩]
  | .stU d ea a s _ => [⟨.s, a.toNat, ea, 2⟩, ⟨.s, d.toNat, false, sizeRegs s⟩]
  | .lds _ ea a _ _ => [⟨.v, a.toNat, ea, 1⟩]
  | .ldsU _ ea a _ _ => [⟨.s, a.toNat, ea, 1⟩]
  | .sts d ea a s _ => [⟨.v, a.toNat, ea, 1⟩, ⟨.v, d.toNat, false, sizeRegs s⟩]
  | .stsU d ea a s _ => [⟨.s, a.toNat, ea, 1⟩, ⟨.s, d.toNat, false, sizeRegs s⟩]
  | .ldc _ ea a _ _ => [⟨.v, a.toNat, ea, 2⟩]
  | .ldcU _ ea a _ _ => [⟨.s, a.toNat, ea, 2⟩]
  | .pref ea a _ => [⟨.v, a.toNat, ea, 2⟩]
  | .prefU ea a _ => [⟨.s, a.toNat, ea, 2⟩]
  | .aadd d ea a _ w _ => [⟨.v, a.toNat, ea, 2⟩, ⟨.v, d.toNat, false, if w then 2 else 1⟩]
  | .afadd d ea a _ _ => [⟨.v, a.toNat, ea, 2⟩, ⟨.v, d.toNat, false, 1⟩]
  | .amin d ea a _ w _ => [⟨.v, a.toNat, ea, 2⟩, ⟨.v, d.toNat, false, if w then 2 else 1⟩]
  | .amax d ea a _ w _ => [⟨.v, a.toNat, ea, 2⟩, ⟨.v, d.toNat, false, if w then 2 else 1⟩]
  | .aand d ea a _ w _ => [⟨.v, a.toNat, ea, 2⟩, ⟨.v, d.toNat, false, if w then 2 else 1⟩]
  | .aor d ea a _ w _ => [⟨.v, a.toNat, ea, 2⟩, ⟨.v, d.toNat, false, if w then 2 else 1⟩]
  | .axor d ea a _ w _ => [⟨.v, a.toNat, ea, 2⟩, ⟨.v, d.toNat, false, if w then 2 else 1⟩]
  | .axch d ea a _ w _ => [⟨.v, a.toNat, ea, 2⟩, ⟨.v, d.toNat, false, if w then 2 else 1⟩]
  | .acas d ea a _ w _ => [⟨.v, a.toNat, ea, 2⟩, ⟨.v, d.toNat, false, if w then 4 else 2⟩]
  | .ainc d ea a _ w _ => [⟨.v, a.toNat, ea, 2⟩, ⟨.v, d.toNat, false, if w then 2 else 1⟩]
  | .bind d ea a eb b => [⟨.v, d.toNat, false, 1⟩, ⟨.v, a.toNat, ea, 2⟩, ⟨.v, b.toNat, eb, 2⟩]
  | .bindU d ea a eb b => [⟨.s, d.toNat, false, 1⟩, ⟨.s, a.toNat, ea, 2⟩, ⟨.s, b.toNat, eb, 2⟩]
  | .unbind ea a => [⟨.v, a.toNat, ea, 2⟩]
  | .unbindU ea a => [⟨.s, a.toNat, ea, 2⟩]
  | .acq _ ea a _ => [⟨.v, a.toNat, ea, 2⟩]
  | .acqU _ ea a _ => [⟨.s, a.toNat, ea, 2⟩]
  | .rel d ea a _ => [⟨.v, a.toNat, ea, 2⟩, ⟨.v, d.toNat, false, 2⟩]
  | .relU d ea a _ => [⟨.s, a.toNat, ea, 2⟩, ⟨.s, d.toNat, false, 2⟩]
  | .pub d ea a _ => [⟨.v, a.toNat, ea, 2⟩, ⟨.v, d.toNat, false, 1⟩]
  | .qw _ ea a => [⟨.s, a.toNat, ea, 1⟩]
  | .swset d ea a => [⟨.s, a.toNat, ea, 1⟩, ⟨.s, d.toNat, false, 1⟩]
  | .swadd d ea a => [⟨.s, a.toNat, ea, 1⟩, ⟨.s, d.toNat, false, 1⟩]
  | .swgen _ ea a => [⟨.s, a.toNat, ea, 1⟩]
  | .fread _ ea a _ => [⟨.v, a.toNat, ea, 2⟩]
  | .freadU _ ea a _ => [⟨.s, a.toNat, ea, 2⟩]
  | .ffill d ea a _ => [⟨.v, a.toNat, ea, 2⟩, ⟨.v, d.toNat, false, 2⟩]
  | .ffillU d ea a _ => [⟨.s, a.toNat, ea, 2⟩, ⟨.s, d.toNat, false, 2⟩]
  | .fwait ea a _ => [⟨.v, a.toNat, ea, 2⟩]
  | .fclr ea a _ => [⟨.v, a.toNat, ea, 2⟩]
  | .fclrU ea a _ => [⟨.s, a.toNat, ea, 2⟩]
  | .wlpush d _ => [⟨.v, d.toNat, false, 4⟩]
  | .wlpushU d _ => [⟨.s, d.toNat, false, 4⟩]
  | .wlpushr d _ => [⟨.v, d.toNat, false, 4⟩]
  | .wlpushrU d _ => [⟨.s, d.toNat, false, 4⟩]
  | .wlcfg _ ea a _ => [⟨.s, a.toNat, ea, 2⟩]
  | .gang _ ea a => [⟨.s, a.toNat, ea, 1⟩]
  | .mma _ ea a _ => [⟨.s, a.toNat, ea, 8⟩]
  | .mmas _ ea a _ => [⟨.s, a.toNat, ea, 16⟩]
  | .accld _ ea a _ => [⟨.s, a.toNat, ea, 4⟩]
  | .accst _ ea a _ => [⟨.s, a.toNat, ea, 4⟩]
  | .accrd _ _ eb b => [⟨.v, b.toNat, eb, 1⟩]
  | .accwr _ ea a eb b => [⟨.v, a.toNat, ea, 1⟩, ⟨.v, b.toNat, eb, 1⟩]
  | .tdesc _ ea a => [⟨.s, a.toNat, ea, 4⟩]
  | .tcvt d ea a _ => [⟨.s, a.toNat, ea, 4⟩, ⟨.s, d.toNat, false, 4⟩]
  | .pchk _ ea a k => pchkSrc k ea a
  | .pcause _ ea a => [⟨.v, a.toNat, ea, 1⟩]
  | .pcauseU _ ea a => [⟨.s, a.toNat, ea, 1⟩]
  | .porig _ ea a _ => [⟨.v, a.toNat, ea, 1⟩]
  | .porigU _ ea a _ => [⟨.s, a.toNat, ea, 1⟩]
  | .pclr _ ea a => [⟨.v, a.toNat, ea, 1⟩]
  | .pclrU _ ea a => [⟨.s, a.toNat, ea, 1⟩]
  | .pmake _ ea a => [⟨.v, a.toNat, ea, 1⟩]
  | .pmakeU _ ea a => [⟨.s, a.toNat, ea, 1⟩]
  | .monitor ea a m => [⟨.v, a.toNat, ea, if m then 1 else 2⟩]
  | .await _ ea a eb b => [⟨.v, a.toNat, ea, 1⟩, ⟨.v, b.toNat, eb, 1⟩]
  | .sysw ea a _ => [⟨.s, a.toNat, ea, 1⟩]
  | .regroup ea p => [⟨.p, p.toNat, ea, 1⟩]
  | .fetchwg _ ea a => [⟨.s, a.toNat, ea, 1⟩]
  | .nop | .nopU | .call _ | .reconv _ | .span _ _ | .commit _ _ | .ret | .join | .exit | .meldend | .rnset _ _ _
  | .movw _ _ | .movwU _ _ | .fence _ | .qr _ _ | .qstat _ _ | .wlpop _ _ _ | .wldone _ | .wlstat _ _ | .accz _
  | .mprog _ _ | .mode _ | .modeg _ | .stage _ | .rnclr | .barSync _ _ | .barArrive _ _ | .barWait _ | .mwait
  | .yield | .pause _ | .getid _ _ | .getidU _ _ | .getsys _ _ | .getsysU _ _ | .sysr _ _ | .sysrU _ _ | .brk _
  | .mark _ | .copy _ _ | .fill _ _ | .gather _ _ | .scatter _ _ | .reduceInto _ _ | .engineArrival _
  | .engineResult _ | .longLatencyComplete _ | .spanReplay _ | .regroupRedistribute _ _ | .groupExitComplete _
  | .groupStall _ | .groupDeadlock _ | .pauseEnd _ _ | .workgroupPlace _ _ _ | .stealRequest _ _ _
  | .occupancySummary _ _ _ | .fetchwgAnswer _ | .migration _ _ _ | .floorAcknowledgement _ _ _
  | .worklistOccupancySummary _ _ _ _ | .worklistStealRequest _ _ _ _ | .futureFillWake _ _ _ | .terminationWave _ _
  | .kstep _ _ | .matrixResume _ _ | .faultRecordPost _ | .faultCompletion _ _ _ | .hostWrite _ _ _ | .hostRead _ _
  | .launchRecordRead _ | .serialLaunchStart _ | .launchComplete _ | .cxlSnoop _ _ | .cxlMemRead _ _
  | .queueDescriptorWrite _ _ _ | .partitionMaskWrite _ _ | .create _ _ _ | .destroy _ | .inval _ _ _ | .preempt _
  | .preemptSave _ | .resume _ | .chordEnable _ _ | .chordTrainingComplete _ _ _ | .dataFlitReceive _ _
  | .idleFlitReceive _ _ | .replayRequestReceive _ _ | .replayTimerExpiry _ | .read _ _ | .write _ _ | .atomic _ _
  | .readResp _ _ | .writeAck _ _ | .atomicResp _ _ | .message _ | .laneLoss _ _ | .reset | .functionReady _
  | .stageImage _ | .firmwareCommit | .recover | .minsvn _ | .opkey _ | .image _ | .attest _ | .ckpt _
  | .checkpointPageCopy _ _ | .matrixWordWrite _ _ _ | .logHeadWrite _ _ | .dumpDescriptorWrite _ _ _
  | .dumpComplete _ | .debugBlockWrite _ _ _ | .halt _ | .go _ | .step _ _ _ | .replay _ _ _ | .sample _ _ _ _
  | .managementRegisterWrite _ _ | .unassignedCodePoint _ _ | .cxlLinkError _ | .internalConsistencyCheck _ _ _
  | .scrubbing _ _ => []

/-- The register that an instruction marks empty or writes. -/
def targetOf : Instr → Option Dst
  | .add d _ _ _ _ => some ⟨.v, d.toNat, 1⟩
  | .addU d _ _ _ _ => some ⟨.s, d.toNat, 1⟩
  | .sub d _ _ _ _ => some ⟨.v, d.toNat, 1⟩
  | .subU d _ _ _ _ => some ⟨.s, d.toNat, 1⟩
  | .mul d _ _ _ _ => some ⟨.v, d.toNat, 1⟩
  | .mulU d _ _ _ _ => some ⟨.s, d.toNat, 1⟩
  | .mulhi d _ _ _ _ => some ⟨.v, d.toNat, 1⟩
  | .mulhiU d _ _ _ _ => some ⟨.s, d.toNat, 1⟩
  | .fma d _ _ _ _ => some ⟨.v, d.toNat, 1⟩
  | .fmaU d _ _ _ _ => some ⟨.s, d.toNat, 1⟩
  | .min d _ _ _ _ => some ⟨.v, d.toNat, 1⟩
  | .minU d _ _ _ _ => some ⟨.s, d.toNat, 1⟩
  | .max d _ _ _ _ => some ⟨.v, d.toNat, 1⟩
  | .maxU d _ _ _ _ => some ⟨.s, d.toNat, 1⟩
  | .div d _ _ _ _ => some ⟨.v, d.toNat, 1⟩
  | .divU d _ _ _ _ => some ⟨.s, d.toNat, 1⟩
  | .rem d _ _ _ _ => some ⟨.v, d.toNat, 1⟩
  | .remU d _ _ _ _ => some ⟨.s, d.toNat, 1⟩
  | .neg d _ _ => some ⟨.v, d.toNat, 1⟩
  | .negU d _ _ => some ⟨.s, d.toNat, 1⟩
  | .abs d _ _ => some ⟨.v, d.toNat, 1⟩
  | .absU d _ _ => some ⟨.s, d.toNat, 1⟩
  | .sel d _ _ _ _ => some ⟨.v, d.toNat, 1⟩
  | .add64 d _ _ _ _ => some ⟨.v, d.toNat, 2⟩
  | .add64U d _ _ _ _ => some ⟨.s, d.toNat, 2⟩
  | .lea d _ _ _ _ => some ⟨.v, d.toNat, 2⟩
  | .leaU d _ _ _ _ => some ⟨.s, d.toNat, 2⟩
  | .cmp _ p _ _ _ _ => some ⟨.p, p.toNat, 1⟩
  | .classP p _ _ _ => some ⟨.p, p.toNat, 1⟩
  | .and d _ _ _ _ => some ⟨.v, d.toNat, 1⟩
  | .andU d _ _ _ _ => some ⟨.s, d.toNat, 1⟩
  | .or d _ _ _ _ => some ⟨.v, d.toNat, 1⟩
  | .orU d _ _ _ _ => some ⟨.s, d.toNat, 1⟩
  | .xor d _ _ _ _ => some ⟨.v, d.toNat, 1⟩
  | .xorU d _ _ _ _ => some ⟨.s, d.toNat, 1⟩
  | .not d _ _ => some ⟨.v, d.toNat, 1⟩
  | .notU d _ _ => some ⟨.s, d.toNat, 1⟩
  | .shl d _ _ _ _ => some ⟨.v, d.toNat, 1⟩
  | .shlU d _ _ _ _ => some ⟨.s, d.toNat, 1⟩
  | .shr d _ _ _ _ => some ⟨.v, d.toNat, 1⟩
  | .shrU d _ _ _ _ => some ⟨.s, d.toNat, 1⟩
  | .sar d _ _ _ _ => some ⟨.v, d.toNat, 1⟩
  | .sarU d _ _ _ _ => some ⟨.s, d.toNat, 1⟩
  | .rot d _ _ _ _ => some ⟨.v, d.toNat, 1⟩
  | .rotU d _ _ _ _ => some ⟨.s, d.toNat, 1⟩
  | .bfx d _ _ _ _ => some ⟨.v, d.toNat, 1⟩
  | .bfxU d _ _ _ _ => some ⟨.s, d.toNat, 1⟩
  | .bfi d _ _ _ _ => some ⟨.v, d.toNat, 1⟩
  | .bfiU d _ _ _ _ => some ⟨.s, d.toNat, 1⟩
  | .popc d _ _ => some ⟨.v, d.toNat, 1⟩
  | .popcU d _ _ => some ⟨.s, d.toNat, 1⟩
  | .clz d _ _ => some ⟨.v, d.toNat, 1⟩
  | .clzU d _ _ => some ⟨.s, d.toNat, 1⟩
  | .ctz d _ _ => some ⟨.v, d.toNat, 1⟩
  | .ctzU d _ _ => some ⟨.s, d.toNat, 1⟩
  | .brev d _ _ => some ⟨.v, d.toNat, 1⟩
  | .brevU d _ _ => some ⟨.s, d.toNat, 1⟩
  | .mov d _ _ => some ⟨.v, d.toNat, 1⟩
  | .movU d _ _ => some ⟨.s, d.toNat, 1⟩
  | .rcp d _ _ => some ⟨.v, d.toNat, 1⟩
  | .rcpU d _ _ => some ⟨.s, d.toNat, 1⟩
  | .rsq d _ _ => some ⟨.v, d.toNat, 1⟩
  | .rsqU d _ _ => some ⟨.s, d.toNat, 1⟩
  | .sqrt d _ _ => some ⟨.v, d.toNat, 1⟩
  | .sqrtU d _ _ => some ⟨.s, d.toNat, 1⟩
  | .exp2 d _ _ => some ⟨.v, d.toNat, 1⟩
  | .exp2U d _ _ => some ⟨.s, d.toNat, 1⟩
  | .log2 d _ _ => some ⟨.v, d.toNat, 1⟩
  | .log2U d _ _ => some ⟨.s, d.toNat, 1⟩
  | .sin d _ _ => some ⟨.v, d.toNat, 1⟩
  | .sinU d _ _ => some ⟨.s, d.toNat, 1⟩
  | .cos d _ _ => some ⟨.v, d.toNat, 1⟩
  | .cosU d _ _ => some ⟨.s, d.toNat, 1⟩
  | .cvt d _ _ _ => some ⟨.v, d.toNat, 1⟩
  | .cvtU d _ _ _ => some ⟨.s, d.toNat, 1⟩
  | .pack2 d _ _ _ _ => some ⟨.v, d.toNat, 1⟩
  | .pack2U d _ _ _ _ => some ⟨.s, d.toNat, 1⟩
  | .unpk2 d _ _ _ => some ⟨.v, d.toNat, 1⟩
  | .unpk2U d _ _ _ => some ⟨.s, d.toNat, 1⟩
  | .addi d _ _ _ => some ⟨.v, d.toNat, 1⟩
  | .addiU d _ _ _ => some ⟨.s, d.toNat, 1⟩
  | .andi d _ _ _ => some ⟨.v, d.toNat, 1⟩
  | .andiU d _ _ _ => some ⟨.s, d.toNat, 1⟩
  | .ori d _ _ _ => some ⟨.v, d.toNat, 1⟩
  | .oriU d _ _ _ => some ⟨.s, d.toNat, 1⟩
  | .xori d _ _ _ => some ⟨.v, d.toNat, 1⟩
  | .xoriU d _ _ _ => some ⟨.s, d.toNat, 1⟩
  | .shli d _ _ _ => some ⟨.v, d.toNat, 1⟩
  | .shliU d _ _ _ => some ⟨.s, d.toNat, 1⟩
  | .shri d _ _ _ => some ⟨.v, d.toNat, 1⟩
  | .shriU d _ _ _ => some ⟨.s, d.toNat, 1⟩
  | .cmpi _ p _ _ _ => some ⟨.p, p.toNat, 1⟩
  | .movw d _ => some ⟨.v, d.toNat, 1⟩
  | .movwU d _ => some ⟨.s, d.toNat, 1⟩
  | .movh d _ => some ⟨.v, d.toNat, 1⟩
  | .movhU d _ => some ⟨.s, d.toNat, 1⟩
  | .shflIdx d _ _ _ _ => some ⟨.v, d.toNat, 1⟩
  | .shflUp d _ _ _ => some ⟨.v, d.toNat, 1⟩
  | .shflDn d _ _ _ => some ⟨.v, d.toNat, 1⟩
  | .shflXor d _ _ _ => some ⟨.v, d.toNat, 1⟩
  | .bcast d _ _ _ => some ⟨.v, d.toNat, 1⟩
  | .vote d _ _ k => some (if k = 2 then ⟨.v, d.toNat, 1⟩ else ⟨.p, d.toNat % 8, 1⟩)
  | .qscan d _ _ _ => some ⟨.v, d.toNat, 1⟩
  | .reduce d _ _ _ => some ⟨.v, d.toNat, 1⟩
  | .pand d _ _ _ _ => some ⟨.p, d.toNat, 1⟩
  | .por d _ _ _ _ => some ⟨.p, d.toNat, 1⟩
  | .pxor d _ _ _ _ => some ⟨.p, d.toNat, 1⟩
  | .pnot d _ _ => some ⟨.p, d.toNat, 1⟩
  | .pmov d _ _ => some ⟨.p, d.toNat, 1⟩
  | .movx d _ _ _ => some ⟨.v, d.toNat, 1⟩
  | .smov d _ _ => some ⟨.v, d.toNat, 1⟩
  | .vset d _ _ => some ⟨.s, d.toNat, 1⟩
  | .ld d _ _ s _ => some ⟨.v, d.toNat, sizeRegs s⟩
  | .ldU d _ _ s _ => some ⟨.s, d.toNat, sizeRegs s⟩
  | .lds d _ _ s _ => some ⟨.v, d.toNat, sizeRegs s⟩
  | .ldsU d _ _ s _ => some ⟨.s, d.toNat, sizeRegs s⟩
  | .ldc d _ _ s _ => some ⟨.v, d.toNat, sizeRegs s⟩
  | .ldcU d _ _ s _ => some ⟨.s, d.toNat, sizeRegs s⟩
  | .aadd d _ _ r w _ => if r then some ⟨.v, d.toNat, if w then 2 else 1⟩ else none
  | .afadd d _ _ r _ => if r then some ⟨.v, d.toNat, 1⟩ else none
  | .amin d _ _ r w _ => if r then some ⟨.v, d.toNat, if w then 2 else 1⟩ else none
  | .amax d _ _ r w _ => if r then some ⟨.v, d.toNat, if w then 2 else 1⟩ else none
  | .aand d _ _ r w _ => if r then some ⟨.v, d.toNat, if w then 2 else 1⟩ else none
  | .aor d _ _ r w _ => if r then some ⟨.v, d.toNat, if w then 2 else 1⟩ else none
  | .axor d _ _ r w _ => if r then some ⟨.v, d.toNat, if w then 2 else 1⟩ else none
  | .axch d _ _ r w _ => if r then some ⟨.v, d.toNat, if w then 2 else 1⟩ else none
  | .acas d _ _ r w _ => if r then some ⟨.v, d.toNat, if w then 2 else 1⟩ else none
  | .ainc d _ _ r w _ => if r then some ⟨.v, d.toNat, if w then 2 else 1⟩ else none
  | .acq d _ _ _ => some ⟨.v, d.toNat, 2⟩
  | .acqU d _ _ _ => some ⟨.s, d.toNat, 2⟩
  | .qr d _ => some ⟨.s, d.toNat, 1⟩
  | .qstat d _ => some ⟨.s, d.toNat, 1⟩
  | .swgen d _ _ => some ⟨.s, d.toNat, 1⟩
  | .fread d _ _ _ => some ⟨.v, d.toNat, 2⟩
  | .freadU d _ _ _ => some ⟨.s, d.toNat, 2⟩
  | .wlpop d _ _ => some ⟨.v, d.toNat, 4⟩
  | .wlstat d _ => some ⟨.s, d.toNat, 1⟩
  | .wlcfg d _ _ _ => some ⟨.s, d.toNat, 1⟩
  | .gang d _ _ => some ⟨.s, d.toNat, 1⟩
  | .accrd d _ _ _ => some ⟨.v, d.toNat, 1⟩
  | .mprog d _ => some ⟨.s, d.toNat, 1⟩
  | .tdesc d _ _ => some ⟨.s, d.toNat, 1⟩
  | .pchk p _ _ _ => some ⟨.p, p.toNat, 1⟩
  | .pcause d _ _ => some ⟨.v, d.toNat, 1⟩
  | .pcauseU d _ _ => some ⟨.s, d.toNat, 1⟩
  | .porig d _ _ _ => some ⟨.v, d.toNat, 1⟩
  | .porigU d _ _ _ => some ⟨.s, d.toNat, 1⟩
  | .pclr d _ _ => some ⟨.v, d.toNat, 1⟩
  | .pclrU d _ _ => some ⟨.s, d.toNat, 1⟩
  | .pmake d _ _ => some ⟨.v, d.toNat, 1⟩
  | .pmakeU d _ _ => some ⟨.s, d.toNat, 1⟩
  | .await p _ _ _ _ => some ⟨.p, p.toNat, 1⟩
  | .getid d _ => some ⟨.v, d.toNat, 1⟩
  | .getidU d _ => some ⟨.s, d.toNat, 1⟩
  | .getsys d _ => some ⟨.v, d.toNat, 1⟩
  | .getsysU d _ => some ⟨.s, d.toNat, 1⟩
  | .sysr d _ => some ⟨.v, d.toNat, 1⟩
  | .sysrU d _ => some ⟨.s, d.toNat, 1⟩
  | .fetchwg d _ _ => some ⟨.s, d.toNat, 1⟩
  | .nop | .nopU | .bra _ _ _ | .brc _ _ _ | .call _ | .reconv _ | .span _ _ | .commit _ _ | .brx _ _ | .callx _ _
  | .ret | .join | .exit | .meld _ _ | .meldend | .rnset _ _ _ | .xset _ _ _ | .xadd _ _ _ | .movxw _ _ _ _ _
  | .st _ _ _ _ _ | .stU _ _ _ _ _ | .sts _ _ _ _ _ | .stsU _ _ _ _ _ | .pref _ _ _ | .prefU _ _ _ | .bind _ _ _ _ _
  | .bindU _ _ _ _ _ | .unbind _ _ | .unbindU _ _ | .rel _ _ _ _ | .relU _ _ _ _ | .fence _ | .pub _ _ _ _
  | .qw _ _ _ | .swset _ _ _ | .swadd _ _ _ | .ffill _ _ _ _ | .ffillU _ _ _ _ | .fwait _ _ _ | .fclr _ _ _
  | .fclrU _ _ _ | .wlpush _ _ | .wlpushU _ _ | .wlpushr _ _ | .wlpushrU _ _ | .wldone _ | .mma _ _ _ _
  | .mmas _ _ _ _ | .accz _ | .accld _ _ _ _ | .accst _ _ _ _ | .accwr _ _ _ _ _ | .tcvt _ _ _ _ | .mode _ | .modeg _
  | .stage _ | .rnclr | .barSync _ _ | .barArrive _ _ | .barWait _ | .monitor _ _ _ | .mwait | .yield | .pause _
  | .sysw _ _ _ | .brk _ | .mark _ | .regroup _ _ | .copy _ _ | .fill _ _ | .gather _ _ | .scatter _ _
  | .reduceInto _ _ | .engineArrival _ | .engineResult _ | .longLatencyComplete _ | .spanReplay _
  | .regroupRedistribute _ _ | .groupExitComplete _ | .groupStall _ | .groupDeadlock _ | .pauseEnd _ _
  | .workgroupPlace _ _ _ | .stealRequest _ _ _ | .occupancySummary _ _ _ | .fetchwgAnswer _ | .migration _ _ _
  | .floorAcknowledgement _ _ _ | .worklistOccupancySummary _ _ _ _ | .worklistStealRequest _ _ _ _
  | .futureFillWake _ _ _ | .terminationWave _ _ | .kstep _ _ | .matrixResume _ _ | .faultRecordPost _
  | .faultCompletion _ _ _ | .hostWrite _ _ _ | .hostRead _ _ | .launchRecordRead _ | .serialLaunchStart _
  | .launchComplete _ | .cxlSnoop _ _ | .cxlMemRead _ _ | .queueDescriptorWrite _ _ _ | .partitionMaskWrite _ _
  | .create _ _ _ | .destroy _ | .inval _ _ _ | .preempt _ | .preemptSave _ | .resume _ | .chordEnable _ _
  | .chordTrainingComplete _ _ _ | .dataFlitReceive _ _ | .idleFlitReceive _ _ | .replayRequestReceive _ _
  | .replayTimerExpiry _ | .read _ _ | .write _ _ | .atomic _ _ | .readResp _ _ | .writeAck _ _ | .atomicResp _ _
  | .message _ | .laneLoss _ _ | .reset | .functionReady _ | .stageImage _ | .firmwareCommit | .recover | .minsvn _
  | .opkey _ | .image _ | .attest _ | .ckpt _ | .checkpointPageCopy _ _ | .matrixWordWrite _ _ _ | .logHeadWrite _ _
  | .dumpDescriptorWrite _ _ _ | .dumpComplete _ | .debugBlockWrite _ _ _ | .halt _ | .go _ | .step _ _ _
  | .replay _ _ _ | .sample _ _ _ _ | .managementRegisterWrite _ _ | .unassignedCodePoint _ _ | .cxlLinkError _
  | .internalConsistencyCheck _ _ _ | .scrubbing _ _ => none

/-- R12: the uniform instructions. -/
def isUniform : Instr → Bool
  | .nopU | .addU _ _ _ _ _ | .subU _ _ _ _ _ | .mulU _ _ _ _ _ | .mulhiU _ _ _ _ _ | .fmaU _ _ _ _ _
  | .minU _ _ _ _ _ | .maxU _ _ _ _ _ | .divU _ _ _ _ _ | .remU _ _ _ _ _ | .negU _ _ _ | .absU _ _ _
  | .add64U _ _ _ _ _ | .leaU _ _ _ _ _ | .andU _ _ _ _ _ | .orU _ _ _ _ _ | .xorU _ _ _ _ _ | .notU _ _ _
  | .shlU _ _ _ _ _ | .shrU _ _ _ _ _ | .sarU _ _ _ _ _ | .rotU _ _ _ _ _ | .bfxU _ _ _ _ _ | .bfiU _ _ _ _ _
  | .popcU _ _ _ | .clzU _ _ _ | .ctzU _ _ _ | .brevU _ _ _ | .movU _ _ _ | .rcpU _ _ _ | .rsqU _ _ _ | .sqrtU _ _ _
  | .exp2U _ _ _ | .log2U _ _ _ | .sinU _ _ _ | .cosU _ _ _ | .cvtU _ _ _ _ | .pack2U _ _ _ _ _ | .unpk2U _ _ _ _
  | .addiU _ _ _ _ | .andiU _ _ _ _ | .oriU _ _ _ _ | .xoriU _ _ _ _ | .shliU _ _ _ _ | .shriU _ _ _ _ | .movwU _ _
  | .movhU _ _ | .ldU _ _ _ _ _ | .stU _ _ _ _ _ | .ldsU _ _ _ _ _ | .stsU _ _ _ _ _ | .ldcU _ _ _ _ _ | .prefU _ _ _
  | .bindU _ _ _ _ _ | .unbindU _ _ | .acqU _ _ _ _ | .relU _ _ _ _ | .qw _ _ _ | .qr _ _ | .qstat _ _ | .swset _ _ _
  | .swadd _ _ _ | .swgen _ _ _ | .freadU _ _ _ _ | .ffillU _ _ _ _ | .fclrU _ _ _ | .wlpushU _ _ | .wlpushrU _ _
  | .wlstat _ _ | .wlcfg _ _ _ _ | .gang _ _ _ | .mma _ _ _ _ | .mmas _ _ _ _ | .accz _ | .accld _ _ _ _
  | .accst _ _ _ _ | .mprog _ _ | .tdesc _ _ _ | .tcvt _ _ _ _ | .pcauseU _ _ _ | .porigU _ _ _ _ | .pclrU _ _ _
  | .pmakeU _ _ _ | .getidU _ _ | .getsysU _ _ | .sysrU _ _ | .sysw _ _ _ | .fetchwg _ _ _ => true
  | .nop | .bra _ _ _ | .brc _ _ _ | .call _ | .reconv _ | .span _ _ | .commit _ _ | .brx _ _ | .callx _ _ | .ret
  | .join | .exit | .meld _ _ | .meldend | .rnset _ _ _ | .add _ _ _ _ _ | .sub _ _ _ _ _ | .mul _ _ _ _ _
  | .mulhi _ _ _ _ _ | .fma _ _ _ _ _ | .min _ _ _ _ _ | .max _ _ _ _ _ | .div _ _ _ _ _ | .rem _ _ _ _ _
  | .neg _ _ _ | .abs _ _ _ | .sel _ _ _ _ _ | .add64 _ _ _ _ _ | .lea _ _ _ _ _ | .cmp _ _ _ _ _ _ | .classP _ _ _ _
  | .and _ _ _ _ _ | .or _ _ _ _ _ | .xor _ _ _ _ _ | .not _ _ _ | .shl _ _ _ _ _ | .shr _ _ _ _ _ | .sar _ _ _ _ _
  | .rot _ _ _ _ _ | .bfx _ _ _ _ _ | .bfi _ _ _ _ _ | .popc _ _ _ | .clz _ _ _ | .ctz _ _ _ | .brev _ _ _
  | .mov _ _ _ | .rcp _ _ _ | .rsq _ _ _ | .sqrt _ _ _ | .exp2 _ _ _ | .log2 _ _ _ | .sin _ _ _ | .cos _ _ _
  | .cvt _ _ _ _ | .pack2 _ _ _ _ _ | .unpk2 _ _ _ _ | .addi _ _ _ _ | .andi _ _ _ _ | .ori _ _ _ _ | .xori _ _ _ _
  | .shli _ _ _ _ | .shri _ _ _ _ | .cmpi _ _ _ _ _ | .movw _ _ | .movh _ _ | .shflIdx _ _ _ _ _ | .shflUp _ _ _ _
  | .shflDn _ _ _ _ | .shflXor _ _ _ _ | .bcast _ _ _ _ | .vote _ _ _ _ | .qscan _ _ _ _ | .reduce _ _ _ _
  | .pand _ _ _ _ _ | .por _ _ _ _ _ | .pxor _ _ _ _ _ | .pnot _ _ _ | .pmov _ _ _ | .xset _ _ _ | .xadd _ _ _
  | .movx _ _ _ _ | .movxw _ _ _ _ _ | .smov _ _ _ | .vset _ _ _ | .ld _ _ _ _ _ | .st _ _ _ _ _ | .lds _ _ _ _ _
  | .sts _ _ _ _ _ | .ldc _ _ _ _ _ | .pref _ _ _ | .aadd _ _ _ _ _ _ | .afadd _ _ _ _ _ | .amin _ _ _ _ _ _
  | .amax _ _ _ _ _ _ | .aand _ _ _ _ _ _ | .aor _ _ _ _ _ _ | .axor _ _ _ _ _ _ | .axch _ _ _ _ _ _
  | .acas _ _ _ _ _ _ | .ainc _ _ _ _ _ _ | .bind _ _ _ _ _ | .unbind _ _ | .acq _ _ _ _ | .rel _ _ _ _ | .fence _
  | .pub _ _ _ _ | .fread _ _ _ _ | .ffill _ _ _ _ | .fwait _ _ _ | .fclr _ _ _ | .wlpush _ _ | .wlpushr _ _
  | .wlpop _ _ _ | .wldone _ | .accrd _ _ _ _ | .accwr _ _ _ _ _ | .mode _ | .modeg _ | .stage _ | .rnclr
  | .pchk _ _ _ _ | .pcause _ _ _ | .porig _ _ _ _ | .pclr _ _ _ | .pmake _ _ _ | .barSync _ _ | .barArrive _ _
  | .barWait _ | .monitor _ _ _ | .mwait | .yield | .await _ _ _ _ _ | .pause _ | .getid _ _ | .getsys _ _
  | .sysr _ _ | .brk _ | .mark _ | .regroup _ _ | .copy _ _ | .fill _ _ | .gather _ _ | .scatter _ _
  | .reduceInto _ _ | .engineArrival _ | .engineResult _ | .longLatencyComplete _ | .spanReplay _
  | .regroupRedistribute _ _ | .groupExitComplete _ | .groupStall _ | .groupDeadlock _ | .pauseEnd _ _
  | .workgroupPlace _ _ _ | .stealRequest _ _ _ | .occupancySummary _ _ _ | .fetchwgAnswer _ | .migration _ _ _
  | .floorAcknowledgement _ _ _ | .worklistOccupancySummary _ _ _ _ | .worklistStealRequest _ _ _ _
  | .futureFillWake _ _ _ | .terminationWave _ _ | .kstep _ _ | .matrixResume _ _ | .faultRecordPost _
  | .faultCompletion _ _ _ | .hostWrite _ _ _ | .hostRead _ _ | .launchRecordRead _ | .serialLaunchStart _
  | .launchComplete _ | .cxlSnoop _ _ | .cxlMemRead _ _ | .queueDescriptorWrite _ _ _ | .partitionMaskWrite _ _
  | .create _ _ _ | .destroy _ | .inval _ _ _ | .preempt _ | .preemptSave _ | .resume _ | .chordEnable _ _
  | .chordTrainingComplete _ _ _ | .dataFlitReceive _ _ | .idleFlitReceive _ _ | .replayRequestReceive _ _
  | .replayTimerExpiry _ | .read _ _ | .write _ _ | .atomic _ _ | .readResp _ _ | .writeAck _ _ | .atomicResp _ _
  | .message _ | .laneLoss _ _ | .reset | .functionReady _ | .stageImage _ | .firmwareCommit | .recover | .minsvn _
  | .opkey _ | .image _ | .attest _ | .ckpt _ | .checkpointPageCopy _ _ | .matrixWordWrite _ _ _ | .logHeadWrite _ _
  | .dumpDescriptorWrite _ _ _ | .dumpComplete _ | .debugBlockWrite _ _ _ | .halt _ | .go _ | .step _ _ _
  | .replay _ _ _ | .sample _ _ _ _ | .managementRegisterWrite _ _ | .unassignedCodePoint _ _ | .cxlLinkError _
  | .internalConsistencyCheck _ _ _ | .scrubbing _ _ => false

/-- R105, R452 leaves 6 and 7: what an instruction waits for beyond registers: 1 a queue, 2 the order of memory: its own rule, a line in
flight, or the first access after migration. -/
def waitClass : Instr → Nat
  | .qw _ _ _ | .qr _ _ => 1
  | .st _ _ _ _ _ | .stU _ _ _ _ _ | .acq _ _ _ _ | .acqU _ _ _ _ | .rel _ _ _ _ | .relU _ _ _ _ | .fence _
  | .pub _ _ _ _ | .wlpush _ _ | .wlpushU _ _ | .wlpushr _ _ | .wlpushrU _ _ | .wlpop _ _ _ | .wldone _
  | .ld _ _ _ _ _ | .ldU _ _ _ _ _ | .ldc _ _ _ _ _ | .ldcU _ _ _ _ _ | .aadd _ _ _ _ _ _ | .afadd _ _ _ _ _
  | .amin _ _ _ _ _ _ | .amax _ _ _ _ _ _ | .aand _ _ _ _ _ _ | .aor _ _ _ _ _ _ | .axor _ _ _ _ _ _
  | .axch _ _ _ _ _ _ | .acas _ _ _ _ _ _ | .ainc _ _ _ _ _ _ | .bind _ _ _ _ _ | .bindU _ _ _ _ _ | .unbind _ _
  | .unbindU _ _ | .fread _ _ _ _ | .freadU _ _ _ _ | .ffill _ _ _ _ | .ffillU _ _ _ _ | .fclr _ _ _ | .fclrU _ _ _
  | .accld _ _ _ _ | .accst _ _ _ _ | .tcvt _ _ _ _ => 2
  | .nop | .nopU | .bra _ _ _ | .brc _ _ _ | .call _ | .reconv _ | .span _ _ | .commit _ _ | .brx _ _ | .callx _ _
  | .ret | .join | .exit | .meld _ _ | .meldend | .rnset _ _ _ | .add _ _ _ _ _ | .addU _ _ _ _ _ | .sub _ _ _ _ _
  | .subU _ _ _ _ _ | .mul _ _ _ _ _ | .mulU _ _ _ _ _ | .mulhi _ _ _ _ _ | .mulhiU _ _ _ _ _ | .fma _ _ _ _ _
  | .fmaU _ _ _ _ _ | .min _ _ _ _ _ | .minU _ _ _ _ _ | .max _ _ _ _ _ | .maxU _ _ _ _ _ | .div _ _ _ _ _
  | .divU _ _ _ _ _ | .rem _ _ _ _ _ | .remU _ _ _ _ _ | .neg _ _ _ | .negU _ _ _ | .abs _ _ _ | .absU _ _ _
  | .sel _ _ _ _ _ | .add64 _ _ _ _ _ | .add64U _ _ _ _ _ | .lea _ _ _ _ _ | .leaU _ _ _ _ _ | .cmp _ _ _ _ _ _
  | .classP _ _ _ _ | .and _ _ _ _ _ | .andU _ _ _ _ _ | .or _ _ _ _ _ | .orU _ _ _ _ _ | .xor _ _ _ _ _
  | .xorU _ _ _ _ _ | .not _ _ _ | .notU _ _ _ | .shl _ _ _ _ _ | .shlU _ _ _ _ _ | .shr _ _ _ _ _ | .shrU _ _ _ _ _
  | .sar _ _ _ _ _ | .sarU _ _ _ _ _ | .rot _ _ _ _ _ | .rotU _ _ _ _ _ | .bfx _ _ _ _ _ | .bfxU _ _ _ _ _
  | .bfi _ _ _ _ _ | .bfiU _ _ _ _ _ | .popc _ _ _ | .popcU _ _ _ | .clz _ _ _ | .clzU _ _ _ | .ctz _ _ _
  | .ctzU _ _ _ | .brev _ _ _ | .brevU _ _ _ | .mov _ _ _ | .movU _ _ _ | .rcp _ _ _ | .rcpU _ _ _ | .rsq _ _ _
  | .rsqU _ _ _ | .sqrt _ _ _ | .sqrtU _ _ _ | .exp2 _ _ _ | .exp2U _ _ _ | .log2 _ _ _ | .log2U _ _ _ | .sin _ _ _
  | .sinU _ _ _ | .cos _ _ _ | .cosU _ _ _ | .cvt _ _ _ _ | .cvtU _ _ _ _ | .pack2 _ _ _ _ _ | .pack2U _ _ _ _ _
  | .unpk2 _ _ _ _ | .unpk2U _ _ _ _ | .addi _ _ _ _ | .addiU _ _ _ _ | .andi _ _ _ _ | .andiU _ _ _ _
  | .ori _ _ _ _ | .oriU _ _ _ _ | .xori _ _ _ _ | .xoriU _ _ _ _ | .shli _ _ _ _ | .shliU _ _ _ _ | .shri _ _ _ _
  | .shriU _ _ _ _ | .cmpi _ _ _ _ _ | .movw _ _ | .movwU _ _ | .movh _ _ | .movhU _ _ | .shflIdx _ _ _ _ _
  | .shflUp _ _ _ _ | .shflDn _ _ _ _ | .shflXor _ _ _ _ | .bcast _ _ _ _ | .vote _ _ _ _ | .qscan _ _ _ _
  | .reduce _ _ _ _ | .pand _ _ _ _ _ | .por _ _ _ _ _ | .pxor _ _ _ _ _ | .pnot _ _ _ | .pmov _ _ _ | .xset _ _ _
  | .xadd _ _ _ | .movx _ _ _ _ | .movxw _ _ _ _ _ | .smov _ _ _ | .vset _ _ _ | .lds _ _ _ _ _ | .ldsU _ _ _ _ _
  | .sts _ _ _ _ _ | .stsU _ _ _ _ _ | .pref _ _ _ | .prefU _ _ _ | .qstat _ _ | .swset _ _ _ | .swadd _ _ _
  | .swgen _ _ _ | .fwait _ _ _ | .wlstat _ _ | .wlcfg _ _ _ _ | .gang _ _ _ | .mma _ _ _ _ | .mmas _ _ _ _
  | .accz _ | .accrd _ _ _ _ | .accwr _ _ _ _ _ | .mprog _ _ | .tdesc _ _ _ | .mode _ | .modeg _ | .stage _ | .rnclr
  | .pchk _ _ _ _ | .pcause _ _ _ | .pcauseU _ _ _ | .porig _ _ _ _ | .porigU _ _ _ _ | .pclr _ _ _ | .pclrU _ _ _
  | .pmake _ _ _ | .pmakeU _ _ _ | .barSync _ _ | .barArrive _ _ | .barWait _ | .monitor _ _ _ | .mwait | .yield
  | .await _ _ _ _ _ | .pause _ | .getid _ _ | .getidU _ _ | .getsys _ _ | .getsysU _ _ | .sysr _ _ | .sysrU _ _
  | .sysw _ _ _ | .brk _ | .mark _ | .regroup _ _ | .fetchwg _ _ _ | .copy _ _ | .fill _ _ | .gather _ _
  | .scatter _ _ | .reduceInto _ _ | .engineArrival _ | .engineResult _ | .longLatencyComplete _ | .spanReplay _
  | .regroupRedistribute _ _ | .groupExitComplete _ | .groupStall _ | .groupDeadlock _ | .pauseEnd _ _
  | .workgroupPlace _ _ _ | .stealRequest _ _ _ | .occupancySummary _ _ _ | .fetchwgAnswer _ | .migration _ _ _
  | .floorAcknowledgement _ _ _ | .worklistOccupancySummary _ _ _ _ | .worklistStealRequest _ _ _ _
  | .futureFillWake _ _ _ | .terminationWave _ _ | .kstep _ _ | .matrixResume _ _ | .faultRecordPost _
  | .faultCompletion _ _ _ | .hostWrite _ _ _ | .hostRead _ _ | .launchRecordRead _ | .serialLaunchStart _
  | .launchComplete _ | .cxlSnoop _ _ | .cxlMemRead _ _ | .queueDescriptorWrite _ _ _ | .partitionMaskWrite _ _
  | .create _ _ _ | .destroy _ | .inval _ _ _ | .preempt _ | .preemptSave _ | .resume _ | .chordEnable _ _
  | .chordTrainingComplete _ _ _ | .dataFlitReceive _ _ | .idleFlitReceive _ _ | .replayRequestReceive _ _
  | .replayTimerExpiry _ | .read _ _ | .write _ _ | .atomic _ _ | .readResp _ _ | .writeAck _ _ | .atomicResp _ _
  | .message _ | .laneLoss _ _ | .reset | .functionReady _ | .stageImage _ | .firmwareCommit | .recover | .minsvn _
  | .opkey _ | .image _ | .attest _ | .ckpt _ | .checkpointPageCopy _ _ | .matrixWordWrite _ _ _ | .logHeadWrite _ _
  | .dumpDescriptorWrite _ _ _ | .dumpComplete _ | .debugBlockWrite _ _ _ | .halt _ | .go _ | .step _ _ _
  | .replay _ _ _ | .sample _ _ _ _ | .managementRegisterWrite _ _ | .unassignedCodePoint _ _ | .cxlLinkError _
  | .internalConsistencyCheck _ _ _ | .scrubbing _ _ => 0

/-- R105: a word that accesses memory, which waits after a migration. -/
def memoryWord : Instr → Bool
  | .qw _ _ _ => true
  | .wlpush _ _ | .wlpushU _ _ | .wlpushr _ _ | .wlpushrU _ _ | .wlpop _ _ _ | .wldone _ => false
  | i => waitClass i = 2

/-- R452 leaf 1: every executing thread has a poisoned source or guard. -/
def deadPoison (h : Here) (i : Instr) : Bool :=
  let ths := execThreads (isUniform i) h.g h.p
  !ths.isEmpty && ths.all fun t => t.2.isSome || (sourcesOf i).any fun x => match readSrc h.g h.p x t.1 with
    | .poison _ => true
    | _ => false

/-- R452: the leaf of a slot in which a path issued: 2, 1, 0, the first that applies. -/
def issuedLeaf (h : Here) (i : Instr) : Nat :=
  if (threadsOf h.p.mask).any fun t => h.g.span.opened.getLsbD t && sget 0 h.g.span.replays t ≠ 0 then 2
  else if deadPoison h i then 1 else 0

/-- R160, R161: the accumulator tile that an instruction waits for. -/
def tileOperand : Instr → Option Nat
  | .accrd _ c _ _ => some c.toNat
  | .accwr c _ _ _ _ => some c.toNat
  | .accz c => some c.toNat
  | .accld c _ _ _ => some c.toNat
  | .accst c _ _ _ => some c.toNat
  | .pchk _ _ a k => if k = 3 then some (a.toNat % 8) else none
  | _ => none

/-- R161, R162, R251, R252, R286: the registers beyond those of the fields: what MOVX reads and MOVXW writes through an index
register, WLPOP's predicate, tiles. -/
def otherEmpty (h : Here) (ths : List (Nat × Option Token)) (i : Instr) : Bool :=
  ((tileOperand i).any fun c => c < h.w.ntiles && !(tileOf h c).full && !ths.isEmpty) ||
    match i with
    | .movx _ a eb b => ths.any fun t => t.2.isNone && !movxFull h a.toNat (vSrc b eb) t.1
    | .movxw d ea a _ _ => ths.any fun t => !movxFull h d.toNat (vSrc a ea) t.1
    | .wlpop _ p _ => ths.any fun t => !dstFull h.g h.p ⟨.p, p.toNat, 1⟩ t.1
    | _ => false

/-- R185, R187, R188, R192, R13: the sources of these words are read by every active thread, under no guard. -/
def readsActive : Instr → Bool
  | .bra _ _ _ | .brc _ _ _ | .brx _ _ | .callx _ _ | .meld _ _ | .regroup _ _ => true
  | _ => false

/-- R161, R256: write-type words, which read their sources under a poisoned guard too. -/
def readsPoisoned : Instr → Bool
  | .st _ _ _ _ _ | .stU _ _ _ _ _ | .sts _ _ _ _ _ | .stsU _ _ _ _ _ | .rel _ _ _ _ | .relU _ _ _ _ | .qw _ _ _ | .swset _ _ _
  | .swadd _ _ _ | .ffill _ _ _ _ | .ffillU _ _ _ _ | .fclr _ _ _ | .fclrU _ _ _ | .wlpush _ _ | .wlpushU _ _ | .wlpushr _ _
  | .wlpushrU _ _ | .accst _ _ _ _ | .tcvt _ _ _ _ | .aadd _ _ _ _ _ _ | .afadd _ _ _ _ _ | .amin _ _ _ _ _ _
  | .amax _ _ _ _ _ _ | .aand _ _ _ _ _ _ | .aor _ _ _ _ _ _ | .axor _ _ _ _ _ _ | .axch _ _ _ _ _ _ | .acas _ _ _ _ _ _
  | .ainc _ _ _ _ _ _ => true
  | _ => false

/-- R244, R245: the lanes that a word reads in other threads: source, index operand, and which thread. -/
def laneWord : Instr → Option (Src × Option Src × (Nat → Nat → Option Nat))
  | .shflIdx _ ea a eb b => some (vSrc a ea, some (vSrc b eb), idxLane)
  | .shflUp _ ea a i => some (vSrc a ea, none, upLane i.toNat)
  | .shflDn _ ea a i => some (vSrc a ea, none, dnLane i.toNat)
  | .shflXor _ ea a i => some (vSrc a ea, none, xorLane i.toNat)
  | .bcast _ ea a i => some (vSrc a ea, none, oneLane i.toNat)
  | _ => none

/-- R161, R235, R236: the threads for which a word reads its sources, with the token of a poisoned guard that keeps one from it. -/
def readers (h : Here) (i : Instr) : List (Nat × Option Token) :=
  let ths := execThreads (isUniform i) h.g h.p
  match i with
  | .sel _ _ _ _ _ => allThreads h.p
  | .vset _ _ _ => ths.take 1
  | i => if readsPoisoned i then ths.map fun t => (t.1, none) else ths

/-- R161, R162, R340: a word of a path waits for an empty register. -/
def waitsEmpty (h : Here) (i : Instr) : Bool :=
  if readsActive i then (sourcesOf i).any fun x => !srcReady h.g h.p x (threadsOf h.p.mask)
  else match laneWord i, targetOf i with
    | some (a, idx, pick), some d => !lanesReady h d a idx pick
    | _, _ => !operandsReady h (readers h i) (sourcesOf i) (targetOf i) || otherEmpty h (readers h i) i

/-- R461: a word that stands and waits, and whose context records an interval without room in its log. -/
def waitsForLog (s : State) (h : Here) (i : Instr) : Bool :=
  waitClass i = 2 && (s.ctx h.w.ctx).any (·.rep.interval) && !logRoom s h.w.ctx

/-- R452: a path that could issue if nothing kept its word: it runs, or stands at a word that waits for a queue or for the order of
memory; what else waits sleeps, and so does a word that waits for log room. The word is none while it has not come. -/
def wakeful (s : State) (gid : Nat) (kp : Nat × Path) : Option (Here × Option Instr) :=
  if kp.2.park ≠ .running && kp.2.park ≠ .waiting then none
  else (hereOf s gid kp.1).bind fun h =>
    let i := fetch s h
    if kp.2.park = .running || i.any fun i => waitClass i ≠ 0 && !waitsForLog s h i then some (h, i) else none

/-- R452: the leaf of a slot charged to a group that does not issue: 8, 3, 6, 7, 4, 5, the first that applies to its paths. Only a
word of another package keeps a path in leaf 3 (log entry 12). -/
def stalledLeaf (s : State) (g : Group) : Nat :=
  let hs := g.paths.filterMap (wakeful s g.id)
  let waits (k : Nat) : Bool := hs.any fun x => x.2.any fun i => waitClass i = k && !waitsEmpty x.1 i
  if hs.isEmpty || g.stop = .debug || g.stop = .context then 8
  else if hs.any (·.2.isNone) then 3
  else if waits 1 then 6
  else if waits 2 then 7
  else if hs.any fun x => x.2.any (waitsEmpty x.1 ·) then 4
  else 5

/-- R452: where the counters of a partition of a core lie. -/
def leafCounter (core part : Nat) : Nat := 0x40000 + 0x200 * core + 0x80 * part

/-- R452: an issue slot falls in a leaf, and the total rises. -/
def countSlot (s : State) (core part leaf : Nat) : State :=
  let a := leafCounter core part
  let s := s.setMgmt64 (a + 8 * leaf) (s.mgmt64 (a + 8 * leaf) + 1)
  s.setMgmt64 (a + 0x50) (s.mgmt64 (a + 0x50) + 1)

end Sys2Proof.Machine
end

