-- ==== Sys2Proof/Machine/Deadlock.lean ====
section
/-!
DEFINITION. Group deadlock (R38, R39): which paths are parked, and which waits can never complete.
-/

namespace Sys2Proof.Machine

/-- R38: a path parked at a JOIN, or at a barrier before its group has arrived. -/
def waitsForOther : Park → Bool
  | .join _ => true
  | .bar _ _ _ => true
  | _ => false

/-- R38: the barrier at which a path waits. -/
def barrierOf : Park → Option Nat
  | .bar b _ _ => some b
  | .barWait b => some b
  | _ => none

/-- R38: the wait of a path that stands at a word is over, but for room in the log (R461): its word would go on. -/
def waitOver (s : State) (h : Here) : Bool :=
  let s := (s.modCtx h.w.ctx fun c => { c with rep := { c.rep with interval := false } })
  let s := { s with ctl := { s.ctl with cur := some (h.g.id, h.pid), stalled := false } }
  let still (r : Result) : Bool := match r with
    | .next t => t.here.any fun x => x.p.park = .waiting && x.p.pc = h.p.pc
    | _ => false
  match fetch s h with
  | some .mwait => !still (execMwait s)
  | some (.await p ea a eb b) => !still (execAwait p ea a eb b s)
  | some (.fwait ea a k) => !still (execFwait ea a k s)
  | some (.qw q ea a) => !still (execQw q ea a s)
  | some (.acq d ea a sc) => !still (execAcq d ea a sc s)
  | some (.acqU d ea a sc) => !still (execAcqU d ea a sc s)
  | some (.wlcfg d ea a w) => !still (execWlcfg d ea a w s)
  | some (.accld c ea a sl) => !still (execAccld c ea a sl s)
  | some (.tcvt d ea a sl) => !still (execTcvt d ea a sl s)
  | _ => true

/-- R38, R205, R210: a path of a group is parked still: the wait of one at a barrier that its group arrived at ends with the phase. -/
def parkedStill (s : State) (g : Group) (w : WG) (kp : Nat × Path) : Bool :=
  match kp.2.park with
  | .running => false
  | .barWait b => stillWaits g w b
  | .waiting => (hereOf s g.id kp.1).any fun h => !waitOver s h
  | _ => true

/-- R38: the missing arrivals of a barrier exceed the groups that can still arrive. A barrier whose expected count is not set
has none missing (log entry 65). -/
def cannotComplete (s : State) (w : WG) (b : Nat) : Bool :=
  let x : Barrier := sget {} w.bars b
  let n := x.need.getD 0
  let arrived := ((List.range 16).filter (x.arrived.getLsbD ·)).length
  let left := (s.exe.groups.filter fun kg =>
    kg.2.wg = w.id && kg.2.exited ≠ BitVec.allOnes 128 && !x.arrived.getLsbD kg.2.pos).length
  n ≠ 0 && left < n - arrived

/-- R295, R38: no arrival of a workgroup can ever be consumed: every group that has not exited waits at the latch, and none of
them leads a rendezvous that may form later. -/
def gangStuck (s : State) (w : WG) : Bool :=
  (s.exe.groups.all fun kg => kg.2.wg ≠ w.id || kg.2.exited = BitVec.allOnes 128 || w.arrivals.any (·.gid = kg.1)) &&
    w.arrivals.all fun a => !((s.group a.gid).any fun g => (gathered s w g a).isSome)

/-- R294, R295, R38: the gang of a group lists a group that has exited, or its arrival can never be consumed. -/
def gangBroken (s : State) (w : WG) (g : Group) : Bool :=
  gangStuck s w || g.gang.getLsbD 22 && (List.range 16).any fun k => g.gang.getLsbD k &&
    !(s.exe.groups.any fun kg => kg.2.wg = w.id && kg.2.pos = k && kg.2.exited ≠ BitVec.allOnes 128)

/-- R38, R443: the condition under which a group is deadlocked: 1 JOIN, 2 barrier with its number in [11:8], 3 rendezvous. -/
def deadlockOf (s : State) (w : WG) (g : Group) : Option DWord :=
  let parks := g.paths.map (·.2.park)
  if parks.isEmpty || !(g.paths.all (parkedStill s g w)) then none
  else if parks.length = 2 && parks.all waitsForOther && parks[0]? ≠ parks[1]? then some 1
  else match (parks.filterMap barrierOf).find? (cannotComplete s w) with
    | some b => some (BitVec.ofNat 64 (2 + 256 * b))
    | none => if parks.contains .rendezvous && gangBroken s w g then some 3 else none

/-- R38, R39: group deadlock, raised once until a path of the group issues again. -/
def execGroupDeadlock (group : Nat) (s : State) : Result :=
  match s.group group with
  | none => .next s
  | some g =>
    match s.wg g.wg with
    | none => .next s
    | some w =>
      if g.deadlocked || !g.live then .next s
      else match deadlockOf s w g with
        | none => .next s
        | some c =>
          let info := [(pathPcs g).getD 0 0, c, (pathPcs g).getD 1 0]
          .next (raise (s.modGroup group fun g => { g with deadlocked := true }) (groupEvent s g 14 0 1 info))

end Sys2Proof.Machine
end

