-- ==== Sys2Proof/Machine/Debug.lean ====
section
/-!
DEFINITION. The debug block (R447 to R449), samples (R453), HALT, GO, STEP and REPLAY (R454, R455, R462), and how a step and a
replay end.
-/

namespace Sys2Proof.Machine

/-! ## The debug block -/

/-- R447 to R449, R456: the bits that a write changes in the word of a debug block at an offset. -/
def debugBits (off : Nat) : Word :=
  if off % 4 ≠ 0 || 0xA0 ≤ off then 0
  else if off = 0 then 0xFFFF001F
  else if 0x40 ≤ off && off < 0x60 then 0xFFFFFFFF
  else if 0x60 ≤ off then (if off % 16 = 12 then 3 else 0xFFFFFFFF)
  else if off = 0x08 || off = 0x18 || off = 0x28 then 0xFFFF00F1
  else if off = 0x14 || off = 0x24 || off = 0x34 then 0
  else if off = 0x38 then 0xFFFF0000
  else if off = 0x04 then 0
  else 0xFFFFFFFF

/-- R450: with trace newly on, each group's first record is a sync record. -/
def beginTrace (s : State) (tag : Nat) : State :=
  (s.groupsOf tag).foldl (fun s g => s.modGroup g.id fun g => { g with traceCount := 255 }) s

/-- R453: sampling counts from the enabling write. -/
def beginSamples (s : State) (tag : Nat) : State :=
  { s with host := { s.host with samples := s.host.samples.filter fun kn => kn.1 / 1280 ≠ tag } }

/-- R447: DEBUG_BLOCK_WRITE of a word of a live context's block; read-only bits keep their value. A change of record is seen
at the next start point (R458). -/
def execDebugBlockWrite (tag off : Nat) (value : Word) (s : State) : Result :=
  let w := debugBits off
  if !served s || (s.ctx tag).isNone || w = 0 then .next s
  else
    let a := debugBlock tag + off
    let old := s.mgmt a
    let new := (old &&& ~~~w) ||| (value &&& w)
    let s := s.setMgmt a new
    let s := if off = 0 && !old.getLsbD 0 && new.getLsbD 0 then beginTrace s tag else s
    .next (if off = 0 && !old.getLsbD 1 && new.getLsbD 1 then beginSamples s tag else s)

/-! ## Stops -/

/-- The path that a stop record of a group describes: the one that issued last, else the lowest. -/
def stopPath (g : Group) : Option (Nat × Path) :=
  (g.paths.find? (·.1 = g.lastPath)).or g.paths.head?

/-- R454, R455, R462: a group stops, and its stop record is written. -/
def stopHere (s : State) (gid why : Nat) : State :=
  match s.group gid with
  | none => s
  | some g =>
    match stopPath g with
    | some (_, p) => stopGroup s gid why 0 p.pc p.mask
    | none => stopGroup s gid why 0 0 0

/-- R454: the failures that HALT, GO, STEP and REPLAY share. -/
def debugFails (s : State) (tag : Nat) : List (Bool × Nat) :=
  [((s.ctx tag).isNone, 1), ((s.ctx tag).isSome && !debugBit s tag 2, 4)]

/-- R454: a saved group is stopped: it stays so when it is restored. Its stop record names the place from which it was saved. -/
def haltSaved (s : State) (w : WG) (g : Group) : State :=
  let s := noteGroupAny s g.id fun g => { g with stop := .debug }
  let p := (stopPath g).map (·.2)
  if debugBit s w.ctx 2 then tracePut s g w 4 4 (p.elim 0 (·.pc)) (p.elim 0 (·.mask)) else s

/-- R454: HALT: every group of the context stops, resident or saved; its waits are abandoned and later resumed, and a PAUSE ends
(R394). The groups of a killed context stand already. -/
def execHalt (tag : Nat) (s : State) : Result :=
  command1 s (debugFails s tag) fun s =>
    if (s.ctx tag).any (·.killed) then s else
    let s := ((s.groupsOf tag).filter (·.stop ≠ .debug)).foldl (fun s g => stopHere (s.modGroup g.id endPauses) g.id 4) s
    (s.host.images.filter (·.wg.ctx = tag)).foldl (fun s i =>
      (i.groups.filter (·.stop ≠ .debug)).foldl (fun s g => haltSaved s i.wg g) s) s

/-- R454: the groups that a debug stop holds, resident or saved. -/
def heldGroups (s : State) (tag : Nat) : List Group := (groupsAnywhere s tag).filter (·.stop = .debug)

/-- R454: a stopped group resumes at its saved pc. -/
def unstop (g : Group) : Group := if g.stop = .debug then { g with stop := .none } else g

/-- R454: GO. A replay that has ended is left (R447). -/
def execGo (tag : Nat) (s : State) : Result :=
  command1 s (debugFails s tag ++ [((heldGroups s tag).isEmpty, 4)]) fun s =>
    let s := (heldGroups s tag).foldl (fun s g => noteGroupAny s g.id unstop) s
    let s := (wgsAnywhere s tag).foldl (fun s w => noteWgAny s w.id fun w => { w with stepping := false }) s
    s.modCtx tag fun c => { c with rep := { c.rep with status := if c.rep.status = 1 then 1 else 0 } }

/-! ## Steps (R455) -/

/-- R455: the workgroups that a STEP names: those of launches with that ring index and of that number. -/
def namedWgs (s : State) (tag launch wgnum : Nat) : List WG :=
  (residentWgs s tag).filter fun w => w.num = wgnum && (s.launch w.launch).any (·.index.toNat = launch)

/-- The groups of a workgroup. -/
def groupsOfWg (s : State) (wg : Nat) : List Group := (s.exe.groups.map (·.2)).filter (·.wg = wg)

/-- R454, R455: STEP: the groups of a stopped workgroup run until their step ends. -/
def execStep (tag launch wgnum : Nat) (s : State) : Result :=
  let ws := namedWgs s tag launch wgnum
  let stopped := !ws.isEmpty && ws.all fun w => (groupsOfWg s w.id).all (·.stop = .debug)
  command1 s (debugFails s tag ++ [(!stopped, if ws.isEmpty then 1 else 4)]) fun s =>
    ws.foldl (fun s w =>
      let s := s.modWg w.id fun w => { w with stepping := true }
      (groupsOfWg s w.id).foldl (fun s g => s.modGroup g.id fun g => { g with stop := .stepping }) s) s

/-- R455, R215: the step of a group ends at a path: the group stops, or traps in architected-stack mode. With a full stack it
stops. -/
def endStep (s : State) (gid : Nat) : State :=
  match s.group gid with
  | none => s
  | some g =>
    if g.stop ≠ .stepping then s else
    match (s.wg g.wg).bind (trapTarget s), stopPath g with
    | some handler, some (pid, p) =>
      if g.stack.length < 32 then
        takeTrap (s.modGroup gid fun g => { g with stop := .none }) gid pid p.pc 1 0 handler
      else stopHere s gid 1
    | _, _ => stopHere s gid 1

/-- R455: an instruction of the barrier family. -/
def isBarrier : Instr → Bool
  | .barSync _ _ => true
  | .barArrive _ _ => true
  | .barWait _ => true
  | _ => false

/-- R455: after a word of a stepping group: its step ends when it has retired a barrier instruction or exited. `before` is its
retired-work count before the word. -/
def settleStep (s : State) (gid : Nat) (i : Instr) (before : Word) : State :=
  match s.group gid with
  | none => s
  | some g =>
    if g.stop ≠ .stepping then s
    else if g.paths.isEmpty then trace s gid 4 1 0 0
    else if isBarrier i && g.retired ≠ before then endStep s gid
    else s

/-! ## Replay (R462) -/

/-- R462: the snapshot images that the slots of the save area hold, by slot. -/
def copiedImages (s : State) (c : Context) : List (Nat × Image) :=
  let n := ((s.mgmt (0x4000 + 32 * c.tag + 8)).extractLsb' 0 16).toNat
  (List.range n).filterMap fun k =>
    let base := slotBase s c.tag k
    if memWord s.mem base = 0x57474931 then
      (c.rep.snaps.find? fun i => (memWord s.mem (base + 44)).toNat = i.serial).map fun i => (k, i)
    else none

/-- R77, R462: what was in flight at the start point takes the place of what is in flight now, and with it the lines in flight. -/
def rewindFlight (s : State) (c : Context) : State :=
  let gids := (groupsAnywhere s c.tag).map (·.id) ++ c.rep.snaps.flatMap fun i => i.groups.map (·.id)
  let pend := s.exe.pendings.filter fun kp => !gids.contains kp.2.gid
  let (gone, ops) := s.exe.engOps.partition fun ko => ko.2.ctx = c.tag
  let s := { s with
    exe := { s.exe with
      pendings := c.rep.pendings.foldl (fun m p => sins m p.id p) pend
      engOps := c.rep.ops.foldl (fun m o => sins m o.id o) ops }
    mem := { s.mem with flight := s.mem.flight.filter fun f => !gone.any (·.1 = f.2) } }
  c.rep.ops.foldl markFlight s

/-- R461, R462: the context resumes from the snapshot with rstat 01, or, where the interval's checkpoint was aborted, with rstat
11 at once. None: an image finds no core. -/
def startReplay (s : State) (c : Context) (id n : Nat) : Option State :=
  let s := rewindFlight s c
  let s := { s with host := { s.host with images := s.host.images.filter (·.wg.ctx ≠ c.tag) } }
  ((copiedImages s c).foldl (fun (acc : Option State) x => acc.bind fun s =>
    (coreFor s x.2.wg x.2.groups x.2.records.length).map fun q => restoreWg s c x.2 x.1 q.1 q.2.1 q.2.2) (some s)).map fun s =>
    s.modCtx c.tag fun c => { c with
      images := [], preempted := false
      rep := { c.rep with interval := false, status := if c.rep.broken then 3 else 1, target := id, limit := n, used := [], late := [], waited := false, failPc := 0
                          nextId := (c.rep.snaps.map (·.groups.length)).sum } }

/-- R454, R462: REPLAY of a pre-empted context. It completes once every image finds a core; until then nothing happens. -/
def execReplay (tag id n : Nat) (s : State) : Result :=
  if !served s then .next s else
  let fails := debugFails s tag ++
    [((s.ctx tag).any fun c => !c.rep.recorded, 4), ((s.ctx tag).any fun c => !c.preempted, 4)]
  match s.ctx tag with
  | none => command1 s fails id'
  | some c =>
    if fails.any (·.1) then command1 s fails id'
    else match startReplay s c id n with
      | none => .next s
      | some s => .next (reply s 1 0 0)
where
  id' (s : State) : State := s

/-- R462: a replayed group has reached the precise point: it stops before its next word. -/
def atTarget (c : Context) (g : Group) : Bool :=
  c.rep.status = 1 && g.recordId.toNat = c.rep.target && c.rep.limit ≤ g.retired.toNat

/-- R462: the replay of a context ends now: the named group has reached its point, or the log did not hold what a receiver needed. -/
def replayEnds (s : State) (c : Context) : Bool :=
  (c.rep.status = 1 && (s.groupsOf c.tag).any (atTarget c)) ||
    (c.rep.status = 3 && (s.groupsOf c.tag).any fun g => g.stop = .none || g.stop = .stepping)

/-- R462: every group of the context stops; the group named `first` writes its record before the others. -/
def stopAll (s : State) (tag : Nat) (first : Group → Bool) (pc : Option DWord) : State :=
  let gs := (s.groupsOf tag).filter fun g => g.stop = .none || g.stop = .stepping
  let s := (gs.filter first).foldl (fun s g => match pc, stopPath g with
    | some x, some (_, p) => stopGroup s g.id 3 0 x p.mask
    | _, _ => stopHere s g.id 3) s
  (gs.filter fun g => !first g).foldl (fun s g => stopHere s g.id 3) s

/-- R462: ends the replay of a context that has reached its point, or whose log did not hold what a receiver needed. -/
def settleReplay (s : State) (tag : Nat) : State :=
  match s.ctx tag with
  | none => s
  | some c =>
    if !replayEnds s c then s
    else if c.rep.status = 1 then
      (stopAll s tag (atTarget c) none).modCtx tag fun c => { c with rep := { c.rep with status := 2 } }
    else stopAll s tag (fun g => g.recordId.toNat = c.rep.target) (if c.rep.broken then none else some c.rep.failPc)

/-! ## Samples (R453) -/

/-- R453: the record of a sample of a group, in the last issue slot of its partition. -/
def sampleWords (s : State) (g : Group) (w : WG) (m : Nat) : List Word :=
  let x : Slot := sget {} s.ctl.slots (4 * w.coreNo + g.part)
  let path := g.paths.head?
  let now : Seen := { gid := g.id, leaf := stalledLeaf s g, pc := path.elim 0 (·.2.pc), mask := path.elim 0 (·.2.mask) }
  let (outcome, y) : Nat × Seen :=
    if x.winner.any (·.1 = g.id) then (0, { gid := g.id, leaf := x.leaf, pc := x.pc, mask := x.mask })
    else (if x.cands.contains g.id then 1 else 2, (x.others.find? (·.gid = g.id)).getD now)
  traceWords 0xF outcome y.leaf (groupSlot g) (location w g.part) (BitVec.ofNat 32 m) y.pc y.mask

/-- R453: SAMPLE: the period of a context expires on a partition of a core: the next of its resident groups is sampled, in
the partition's last issue slot. When the period expires is timing (log entry 12). -/
def execSample (quadrant core part tag : Nat) (s : State) : Result :=
  let at' := 80 * quadrant + core
  let gs := sortBy (fun a b => a.age ≤ b.age) ((s.groupsOf tag).filter fun g => g.part = part && (s.wg g.wg).any (·.coreNo = at'))
  if !debugBit s tag 1 || 80 ≤ core then .next s
  else
    let key := 1280 * tag + 4 * at' + part
    let m := sget 0 s.host.samples key
    match gs[m % max gs.length 1]? with
    | none => .next s
    | some g =>
      match s.wg g.wg with
      | none => .next s
      | some w =>
        let s' := { s with host := { s.host with samples := sins s.host.samples key (m + 1) } }
        .next (if ringRoom s tag 0x18 then ringPut s' tag 0x18 (sampleWords s g w m) else s'.count tag 0x48 1)

end Sys2Proof.Machine
end

