-- ==== Sys2Proof/Machine/Dispatch.lean ====
section
/-!
DEFINITION. The meaning of every instruction and event: one arm for each constructor.
-/

namespace Sys2Proof.Machine

/-- The effect of an instruction word on the path that issues it, or of an event on the machine. -/
def exec (i : Instr) (s : State) : Host.Outcome State Fault Refusal :=
  match i with
  | .bra p sz o => Sys2Proof.Machine.execBra p sz o s
  | .brc p sz o => Sys2Proof.Machine.execBrc p sz o s
  | .call o => Sys2Proof.Machine.execCall o s
  | .reconv o => Sys2Proof.Machine.execReconv o s
  | .span c o => Sys2Proof.Machine.execSpan c o s
  | .commit c o => Sys2Proof.Machine.execCommit c o s
  | .brx ea a => Sys2Proof.Machine.execBrx ea a s
  | .callx ea a => Sys2Proof.Machine.execCallx ea a s
  | .meld ea p => Sys2Proof.Machine.execMeld ea p s
  | .rnset n a b => Sys2Proof.Machine.execRnset n a b s
  | .add d ea a eb b => Sys2Proof.Machine.execAdd d ea a eb b s
  | .addU d ea a eb b => Sys2Proof.Machine.execAddU d ea a eb b s
  | .sub d ea a eb b => Sys2Proof.Machine.execSub d ea a eb b s
  | .subU d ea a eb b => Sys2Proof.Machine.execSubU d ea a eb b s
  | .mul d ea a eb b => Sys2Proof.Machine.execMul d ea a eb b s
  | .mulU d ea a eb b => Sys2Proof.Machine.execMulU d ea a eb b s
  | .mulhi d ea a eb b => Sys2Proof.Machine.execMulhi d ea a eb b s
  | .mulhiU d ea a eb b => Sys2Proof.Machine.execMulhiU d ea a eb b s
  | .fma d ea a eb b => Sys2Proof.Machine.execFma d ea a eb b s
  | .fmaU d ea a eb b => Sys2Proof.Machine.execFmaU d ea a eb b s
  | .min d ea a eb b => Sys2Proof.Machine.execMin d ea a eb b s
  | .minU d ea a eb b => Sys2Proof.Machine.execMinU d ea a eb b s
  | .max d ea a eb b => Sys2Proof.Machine.execMax d ea a eb b s
  | .maxU d ea a eb b => Sys2Proof.Machine.execMaxU d ea a eb b s
  | .div d ea a eb b => Sys2Proof.Machine.execDiv d ea a eb b s
  | .divU d ea a eb b => Sys2Proof.Machine.execDivU d ea a eb b s
  | .rem d ea a eb b => Sys2Proof.Machine.execRem d ea a eb b s
  | .remU d ea a eb b => Sys2Proof.Machine.execRemU d ea a eb b s
  | .neg d ea a => Sys2Proof.Machine.execNeg d ea a s
  | .negU d ea a => Sys2Proof.Machine.execNegU d ea a s
  | .abs d ea a => Sys2Proof.Machine.execAbs d ea a s
  | .absU d ea a => Sys2Proof.Machine.execAbsU d ea a s
  | .sel d ea a eb b => Sys2Proof.Machine.execSel d ea a eb b s
  | .add64 d ea a eb b => Sys2Proof.Machine.execAdd64 d ea a eb b s
  | .add64U d ea a eb b => Sys2Proof.Machine.execAdd64U d ea a eb b s
  | .lea d ea a eb b => Sys2Proof.Machine.execLea d ea a eb b s
  | .leaU d ea a eb b => Sys2Proof.Machine.execLeaU d ea a eb b s
  | .cmp c p ea a eb b => Sys2Proof.Machine.execCmp c p ea a eb b s
  | .classP p ea a m => Sys2Proof.Machine.execClassP p ea a m s
  | .and d ea a eb b => Sys2Proof.Machine.execAnd d ea a eb b s
  | .andU d ea a eb b => Sys2Proof.Machine.execAndU d ea a eb b s
  | .or d ea a eb b => Sys2Proof.Machine.execOr d ea a eb b s
  | .orU d ea a eb b => Sys2Proof.Machine.execOrU d ea a eb b s
  | .xor d ea a eb b => Sys2Proof.Machine.execXor d ea a eb b s
  | .xorU d ea a eb b => Sys2Proof.Machine.execXorU d ea a eb b s
  | .not d ea a => Sys2Proof.Machine.execNot d ea a s
  | .notU d ea a => Sys2Proof.Machine.execNotU d ea a s
  | .shl d ea a eb b => Sys2Proof.Machine.execShl d ea a eb b s
  | .shlU d ea a eb b => Sys2Proof.Machine.execShlU d ea a eb b s
  | .shr d ea a eb b => Sys2Proof.Machine.execShr d ea a eb b s
  | .shrU d ea a eb b => Sys2Proof.Machine.execShrU d ea a eb b s
  | .sar d ea a eb b => Sys2Proof.Machine.execSar d ea a eb b s
  | .sarU d ea a eb b => Sys2Proof.Machine.execSarU d ea a eb b s
  | .rot d ea a eb b => Sys2Proof.Machine.execRot d ea a eb b s
  | .rotU d ea a eb b => Sys2Proof.Machine.execRotU d ea a eb b s
  | .bfx d ea a eb b => Sys2Proof.Machine.execBfx d ea a eb b s
  | .bfxU d ea a eb b => Sys2Proof.Machine.execBfxU d ea a eb b s
  | .bfi d ea a eb b => Sys2Proof.Machine.execBfi d ea a eb b s
  | .bfiU d ea a eb b => Sys2Proof.Machine.execBfiU d ea a eb b s
  | .popc d ea a => Sys2Proof.Machine.execPopc d ea a s
  | .popcU d ea a => Sys2Proof.Machine.execPopcU d ea a s
  | .clz d ea a => Sys2Proof.Machine.execClz d ea a s
  | .clzU d ea a => Sys2Proof.Machine.execClzU d ea a s
  | .ctz d ea a => Sys2Proof.Machine.execCtz d ea a s
  | .ctzU d ea a => Sys2Proof.Machine.execCtzU d ea a s
  | .brev d ea a => Sys2Proof.Machine.execBrev d ea a s
  | .brevU d ea a => Sys2Proof.Machine.execBrevU d ea a s
  | .mov d ea a => Sys2Proof.Machine.execMov d ea a s
  | .movU d ea a => Sys2Proof.Machine.execMovU d ea a s
  | .rcp d ea a => Sys2Proof.Machine.execRcp d ea a s
  | .rcpU d ea a => Sys2Proof.Machine.execRcpU d ea a s
  | .rsq d ea a => Sys2Proof.Machine.execRsq d ea a s
  | .rsqU d ea a => Sys2Proof.Machine.execRsqU d ea a s
  | .sqrt d ea a => Sys2Proof.Machine.execSqrt d ea a s
  | .sqrtU d ea a => Sys2Proof.Machine.execSqrtU d ea a s
  | .exp2 d ea a => Sys2Proof.Machine.execExp2 d ea a s
  | .exp2U d ea a => Sys2Proof.Machine.execExp2U d ea a s
  | .log2 d ea a => Sys2Proof.Machine.execLog2 d ea a s
  | .log2U d ea a => Sys2Proof.Machine.execLog2U d ea a s
  | .sin d ea a => Sys2Proof.Machine.execSin d ea a s
  | .sinU d ea a => Sys2Proof.Machine.execSinU d ea a s
  | .cos d ea a => Sys2Proof.Machine.execCos d ea a s
  | .cosU d ea a => Sys2Proof.Machine.execCosU d ea a s
  | .cvt d ea a k => Sys2Proof.Machine.execCvt d ea a k s
  | .cvtU d ea a k => Sys2Proof.Machine.execCvtU d ea a k s
  | .pack2 d ea a eb b => Sys2Proof.Machine.execPack2 d ea a eb b s
  | .pack2U d ea a eb b => Sys2Proof.Machine.execPack2U d ea a eb b s
  | .unpk2 d ea a n => Sys2Proof.Machine.execUnpk2 d ea a n s
  | .unpk2U d ea a n => Sys2Proof.Machine.execUnpk2U d ea a n s
  | .addi d ea a k => Sys2Proof.Machine.execAddi d ea a k s
  | .addiU d ea a k => Sys2Proof.Machine.execAddiU d ea a k s
  | .andi d ea a k => Sys2Proof.Machine.execAndi d ea a k s
  | .andiU d ea a k => Sys2Proof.Machine.execAndiU d ea a k s
  | .ori d ea a k => Sys2Proof.Machine.execOri d ea a k s
  | .oriU d ea a k => Sys2Proof.Machine.execOriU d ea a k s
  | .xori d ea a k => Sys2Proof.Machine.execXori d ea a k s
  | .xoriU d ea a k => Sys2Proof.Machine.execXoriU d ea a k s
  | .shli d ea a k => Sys2Proof.Machine.execShli d ea a k s
  | .shliU d ea a k => Sys2Proof.Machine.execShliU d ea a k s
  | .shri d ea a k => Sys2Proof.Machine.execShri d ea a k s
  | .shriU d ea a k => Sys2Proof.Machine.execShriU d ea a k s
  | .cmpi c p ea a k => Sys2Proof.Machine.execCmpi c p ea a k s
  | .movw d k => Sys2Proof.Machine.execMovw d k s
  | .movwU d k => Sys2Proof.Machine.execMovwU d k s
  | .movh d k => Sys2Proof.Machine.execMovh d k s
  | .movhU d k => Sys2Proof.Machine.execMovhU d k s
  | .shflIdx d ea a eb b => Sys2Proof.Machine.execShflIdx d ea a eb b s
  | .shflUp d ea a k => Sys2Proof.Machine.execShflUp d ea a k s
  | .shflDn d ea a k => Sys2Proof.Machine.execShflDn d ea a k s
  | .shflXor d ea a k => Sys2Proof.Machine.execShflXor d ea a k s
  | .bcast d ea a k => Sys2Proof.Machine.execBcast d ea a k s
  | .vote d ea p k => Sys2Proof.Machine.execVote d ea p k s
  | .qscan d ea a k => Sys2Proof.Machine.execQscan d ea a k s
  | .reduce d ea a k => Sys2Proof.Machine.execReduce d ea a k s
  | .pand d ea a eb b => Sys2Proof.Machine.execPand d ea a eb b s
  | .por d ea a eb b => Sys2Proof.Machine.execPor d ea a eb b s
  | .pxor d ea a eb b => Sys2Proof.Machine.execPxor d ea a eb b s
  | .pnot d ea a => Sys2Proof.Machine.execPnot d ea a s
  | .pmov d ea a => Sys2Proof.Machine.execPmov d ea a s
  | .xset d ea a => Sys2Proof.Machine.execXset d ea a s
  | .xadd d a k => Sys2Proof.Machine.execXadd d a k s
  | .movx d a eb b => Sys2Proof.Machine.execMovx d a eb b s
  | .movxw d ea a eb b => Sys2Proof.Machine.execMovxw d ea a eb b s
  | .smov d ea a => Sys2Proof.Machine.execSmov d ea a s
  | .vset d ea a => Sys2Proof.Machine.execVset d ea a s
  | .ld d ea a sz k => Sys2Proof.Machine.execLd d ea a sz k s
  | .ldU d ea a sz k => Sys2Proof.Machine.execLdU d ea a sz k s
  | .st d ea a sz k => Sys2Proof.Machine.execSt d ea a sz k s
  | .stU d ea a sz k => Sys2Proof.Machine.execStU d ea a sz k s
  | .lds d ea a sz k => Sys2Proof.Machine.execLds d ea a sz k s
  | .ldsU d ea a sz k => Sys2Proof.Machine.execLdsU d ea a sz k s
  | .sts d ea a sz k => Sys2Proof.Machine.execSts d ea a sz k s
  | .stsU d ea a sz k => Sys2Proof.Machine.execStsU d ea a sz k s
  | .ldc d ea a sz k => Sys2Proof.Machine.execLdc d ea a sz k s
  | .ldcU d ea a sz k => Sys2Proof.Machine.execLdcU d ea a sz k s
  | .pref ea a k => Sys2Proof.Machine.execPref ea a k s
  | .prefU ea a k => Sys2Proof.Machine.execPrefU ea a k s
  | .aadd d ea a r w k => Sys2Proof.Machine.execAadd d ea a r w k s
  | .afadd d ea a r k => Sys2Proof.Machine.execAfadd d ea a r k s
  | .amin d ea a r w k => Sys2Proof.Machine.execAmin d ea a r w k s
  | .amax d ea a r w k => Sys2Proof.Machine.execAmax d ea a r w k s
  | .aand d ea a r w k => Sys2Proof.Machine.execAand d ea a r w k s
  | .aor d ea a r w k => Sys2Proof.Machine.execAor d ea a r w k s
  | .axor d ea a r w k => Sys2Proof.Machine.execAxor d ea a r w k s
  | .axch d ea a r w k => Sys2Proof.Machine.execAxch d ea a r w k s
  | .acas d ea a r w k => Sys2Proof.Machine.execAcas d ea a r w k s
  | .ainc d ea a r w k => Sys2Proof.Machine.execAinc d ea a r w k s
  | .bind d ea a eb b => Sys2Proof.Machine.execBind d ea a eb b s
  | .bindU d ea a eb b => Sys2Proof.Machine.execBindU d ea a eb b s
  | .unbind ea a => Sys2Proof.Machine.execUnbind ea a s
  | .unbindU ea a => Sys2Proof.Machine.execUnbindU ea a s
  | .acq d ea a sz => Sys2Proof.Machine.execAcq d ea a sz s
  | .acqU d ea a sz => Sys2Proof.Machine.execAcqU d ea a sz s
  | .rel d ea a sz => Sys2Proof.Machine.execRel d ea a sz s
  | .relU d ea a sz => Sys2Proof.Machine.execRelU d ea a sz s
  | .fence sz => Sys2Proof.Machine.execFence sz s
  | .pub d ea a sz => Sys2Proof.Machine.execPub d ea a sz s
  | .qw q ea a => Sys2Proof.Machine.execQw q ea a s
  | .qr d q => Sys2Proof.Machine.execQr d q s
  | .qstat d q => Sys2Proof.Machine.execQstat d q s
  | .swset d ea a => Sys2Proof.Machine.execSwset d ea a s
  | .swadd d ea a => Sys2Proof.Machine.execSwadd d ea a s
  | .swgen d ea a => Sys2Proof.Machine.execSwgen d ea a s
  | .fread d ea a k => Sys2Proof.Machine.execFread d ea a k s
  | .freadU d ea a k => Sys2Proof.Machine.execFreadU d ea a k s
  | .ffill d ea a k => Sys2Proof.Machine.execFfill d ea a k s
  | .ffillU d ea a k => Sys2Proof.Machine.execFfillU d ea a k s
  | .fwait ea a k => Sys2Proof.Machine.execFwait ea a k s
  | .fclr ea a k => Sys2Proof.Machine.execFclr ea a k s
  | .fclrU ea a k => Sys2Proof.Machine.execFclrU ea a k s
  | .wlpush d w => Sys2Proof.Machine.execWlpush d w s
  | .wlpushU d w => Sys2Proof.Machine.execWlpushU d w s
  | .wlpushr d w => Sys2Proof.Machine.execWlpushr d w s
  | .wlpushrU d w => Sys2Proof.Machine.execWlpushrU d w s
  | .wlpop d p w => Sys2Proof.Machine.execWlpop d p w s
  | .wldone w => Sys2Proof.Machine.execWldone w s
  | .wlstat d w => Sys2Proof.Machine.execWlstat d w s
  | .wlcfg d ea a w => Sys2Proof.Machine.execWlcfg d ea a w s
  | .gang d ea a => Sys2Proof.Machine.execGang d ea a s
  | .mma c ea a sz => Sys2Proof.Machine.execMma c ea a sz s
  | .mmas c ea a sz => Sys2Proof.Machine.execMmas c ea a sz s
  | .accz c => Sys2Proof.Machine.execAccz c s
  | .accld c ea a sz => Sys2Proof.Machine.execAccld c ea a sz s
  | .accst c ea a sz => Sys2Proof.Machine.execAccst c ea a sz s
  | .accrd d c eb b => Sys2Proof.Machine.execAccrd d c eb b s
  | .accwr c ea a eb b => Sys2Proof.Machine.execAccwr c ea a eb b s
  | .mprog d c => Sys2Proof.Machine.execMprog d c s
  | .tdesc d ea a => Sys2Proof.Machine.execTdesc d ea a s
  | .tcvt d ea a sz => Sys2Proof.Machine.execTcvt d ea a sz s
  | .mode k => Sys2Proof.Machine.execMode k s
  | .modeg k => Sys2Proof.Machine.execModeg k s
  | .stage k => Sys2Proof.Machine.execStage k s
  | .pchk p ea a k => Sys2Proof.Machine.execPchk p ea a k s
  | .pcause d ea a => Sys2Proof.Machine.execPcause d ea a s
  | .pcauseU d ea a => Sys2Proof.Machine.execPcauseU d ea a s
  | .porig d ea a b => Sys2Proof.Machine.execPorig d ea a b s
  | .porigU d ea a b => Sys2Proof.Machine.execPorigU d ea a b s
  | .pclr d ea a => Sys2Proof.Machine.execPclr d ea a s
  | .pclrU d ea a => Sys2Proof.Machine.execPclrU d ea a s
  | .pmake d ea a => Sys2Proof.Machine.execPmake d ea a s
  | .pmakeU d ea a => Sys2Proof.Machine.execPmakeU d ea a s
  | .barSync c b => Sys2Proof.Machine.execBarSync c b s
  | .barArrive c b => Sys2Proof.Machine.execBarArrive c b s
  | .barWait b => Sys2Proof.Machine.execBarWait b s
  | .monitor ea a m => Sys2Proof.Machine.execMonitor ea a m s
  | .await p ea a eb b => Sys2Proof.Machine.execAwait p ea a eb b s
  | .pause k => Sys2Proof.Machine.execPause k s
  | .getid d k => Sys2Proof.Machine.execGetid d k s
  | .getidU d k => Sys2Proof.Machine.execGetidU d k s
  | .getsys d k => Sys2Proof.Machine.execGetsys d k s
  | .getsysU d k => Sys2Proof.Machine.execGetsysU d k s
  | .sysr d k => Sys2Proof.Machine.execSysr d k s
  | .sysrU d k => Sys2Proof.Machine.execSysrU d k s
  | .sysw ea a k => Sys2Proof.Machine.execSysw ea a k s
  | .brk k => Sys2Proof.Machine.execBrk k s
  | .mark k => Sys2Proof.Machine.execMark k s
  | .regroup ea p => Sys2Proof.Machine.execRegroup ea p s
  | .fetchwg d ea a => Sys2Proof.Machine.execFetchwg d ea a s
  | .unassignedCodePoint w reason => Sys2Proof.Machine.execUnassignedCodePoint w reason s
  | .copy op words => Sys2Proof.Machine.execCopy op words s
  | .fill op words => Sys2Proof.Machine.execFill op words s
  | .gather op words => Sys2Proof.Machine.execGather op words s
  | .scatter op words => Sys2Proof.Machine.execScatter op words s
  | .reduceInto op words => Sys2Proof.Machine.execReduceInto op words s
  | .engineArrival op => Sys2Proof.Machine.execEngineArrival op s
  | .engineResult op => Sys2Proof.Machine.execEngineResult op s
  | .longLatencyComplete pending => Sys2Proof.Machine.execLongLatencyComplete pending s
  | .spanReplay group => Sys2Proof.Machine.execSpanReplay group s
  | .regroupRedistribute workgroup role => Sys2Proof.Machine.execRegroupRedistribute workgroup role s
  | .groupExitComplete group => Sys2Proof.Machine.execGroupExitComplete group s
  | .groupStall group => Sys2Proof.Machine.execGroupStall group s
  | .groupDeadlock group => Sys2Proof.Machine.execGroupDeadlock group s
  | .pauseEnd group path => Sys2Proof.Machine.execPauseEnd group path s
  | .workgroupPlace launch quadrant core => Sys2Proof.Machine.execWorkgroupPlace launch quadrant core s
  | .stealRequest launch thief victim => Sys2Proof.Machine.execStealRequest launch thief victim s
  | .occupancySummary launch source target => Sys2Proof.Machine.execOccupancySummary launch source target s
  | .fetchwgAnswer group => Sys2Proof.Machine.execFetchwgAnswer group s
  | .floorAcknowledgement ctx list unit => Sys2Proof.Machine.execFloorAcknowledgement ctx list unit s
  | .worklistOccupancySummary ctx list source target => Sys2Proof.Machine.execWorklistOccupancySummary ctx list source target s
  | .worklistStealRequest ctx list thief victim => Sys2Proof.Machine.execWorklistStealRequest ctx list thief victim s
  | .futureFillWake ctx list unit => Sys2Proof.Machine.execFutureFillWake ctx list unit s
  | .terminationWave ctx list => Sys2Proof.Machine.execTerminationWave ctx list s
  | .kstep workgroup tile => Sys2Proof.Machine.execKstep workgroup tile s
  | .matrixResume workgroup tile => Sys2Proof.Machine.execMatrixResume workgroup tile s
  | .faultRecordPost fault => Sys2Proof.Machine.execFaultRecordPost fault s
  | .launchRecordRead queue => Sys2Proof.Machine.execLaunchRecordRead queue s
  | .serialLaunchStart launch => Sys2Proof.Machine.execSerialLaunchStart launch s
  | .launchComplete launch => Sys2Proof.Machine.execLaunchComplete launch s
  | .preemptSave workgroup => Sys2Proof.Machine.execPreemptSave workgroup s
  | .checkpointPageCopy partition quadrant => Sys2Proof.Machine.execCheckpointPageCopy partition quadrant s
  | .dumpComplete partition => Sys2Proof.Machine.execDumpComplete partition s
  | .migration workgroup quadrant core => Sys2Proof.Machine.execMigration workgroup quadrant core s
  | .faultCompletion partition id status => Sys2Proof.Machine.execFaultCompletion partition id status s
  | .hostWrite port pa data => Sys2Proof.Machine.execHostWrite port pa data s
  | .hostRead place len => Sys2Proof.Machine.execHostRead place len s
  | .cxlSnoop pa upper => Sys2Proof.Machine.execCxlSnoop pa upper s
  | .cxlMemRead place len => Sys2Proof.Machine.execCxlMemRead place len s
  | .queueDescriptorWrite queue second value => Sys2Proof.Machine.execQueueDescriptorWrite queue second value s
  | .partitionMaskWrite partition value => Sys2Proof.Machine.execPartitionMaskWrite partition value s
  | .create tag partition root => Sys2Proof.Machine.execCreate tag partition root s
  | .destroy tag => Sys2Proof.Machine.execDestroy tag s
  | .inval tag va npages => Sys2Proof.Machine.execInval tag va npages s
  | .preempt tag => Sys2Proof.Machine.execPreempt tag s
  | .resume tag => Sys2Proof.Machine.execResume tag s
  | .chordEnable chord value => Sys2Proof.Machine.execChordEnable chord value s
  | .chordTrainingComplete chord ok peer => Sys2Proof.Machine.execChordTrainingComplete chord ok peer s
  | .dataFlitReceive chord flit => Sys2Proof.Machine.execDataFlitReceive chord flit s
  | .idleFlitReceive chord flit => Sys2Proof.Machine.execIdleFlitReceive chord flit s
  | .replayRequestReceive chord flit => Sys2Proof.Machine.execReplayRequestReceive chord flit s
  | .replayTimerExpiry chord => Sys2Proof.Machine.execReplayTimerExpiry chord s
  | .read chord pkt => Sys2Proof.Machine.execRead chord pkt s
  | .write chord pkt => Sys2Proof.Machine.execWrite chord pkt s
  | .atomic chord pkt => Sys2Proof.Machine.execAtomic chord pkt s
  | .readResp chord pkt => Sys2Proof.Machine.execReadResp chord pkt s
  | .writeAck chord pkt => Sys2Proof.Machine.execWriteAck chord pkt s
  | .atomicResp chord pkt => Sys2Proof.Machine.execAtomicResp chord pkt s
  | .message msg => Sys2Proof.Machine.execMessage msg s
  | .laneLoss chord lane => Sys2Proof.Machine.execLaneLoss chord lane s
  | .functionReady bit => Sys2Proof.Machine.execFunctionReady bit s
  | .stageImage image => Sys2Proof.Machine.execStageImage image s
  | .minsvn n => Sys2Proof.Machine.execMinsvn n s
  | .opkey hash => Sys2Proof.Machine.execOpkey hash s
  | .image image => Sys2Proof.Machine.execImage image s
  | .attest nonce => Sys2Proof.Machine.execAttest nonce s
  | .ckpt partition => Sys2Proof.Machine.execCkpt partition s
  | .matrixWordWrite partition cls value => Sys2Proof.Machine.execMatrixWordWrite partition cls value s
  | .logHeadWrite partition value => Sys2Proof.Machine.execLogHeadWrite partition value s
  | .dumpDescriptorWrite partition sizeWord value => Sys2Proof.Machine.execDumpDescriptorWrite partition sizeWord value s
  | .debugBlockWrite tag off value => Sys2Proof.Machine.execDebugBlockWrite tag off value s
  | .halt tag => Sys2Proof.Machine.execHalt tag s
  | .go tag => Sys2Proof.Machine.execGo tag s
  | .step tag launch wgnum => Sys2Proof.Machine.execStep tag launch wgnum s
  | .replay tag id n => Sys2Proof.Machine.execReplay tag id n s
  | .sample quadrant core part tag => Sys2Proof.Machine.execSample quadrant core part tag s
  | .managementRegisterWrite off value => Sys2Proof.Machine.execManagementRegisterWrite off value s
  | .cxlLinkError info => Sys2Proof.Machine.execCxlLinkError info s
  | .internalConsistencyCheck quadrant source info => Sys2Proof.Machine.execInternalConsistencyCheck quadrant source info s
  | .scrubbing pa uncorrected => Sys2Proof.Machine.execScrubbing pa uncorrected s
  | .nop => Sys2Proof.Machine.execNop s
  | .nopU => Sys2Proof.Machine.execNopU s
  | .ret => Sys2Proof.Machine.execRet s
  | .join => Sys2Proof.Machine.execJoin s
  | .exit => Sys2Proof.Machine.execExit s
  | .meldend => Sys2Proof.Machine.execMeldend s
  | .rnclr => Sys2Proof.Machine.execRnclr s
  | .mwait => Sys2Proof.Machine.execMwait s
  | .yield => Sys2Proof.Machine.execYield s
  | .reset => Sys2Proof.Machine.execReset s
  | .firmwareCommit => Sys2Proof.Machine.execFirmwareCommit s
  | .recover => Sys2Proof.Machine.execRecover s

end Sys2Proof.Machine
end

