-- ==== Sys2Proof/Machine/Arbiter.lean ====
section
/-!
DEFINITION. Who acts next (log entry 1): the arbitration round of a partition (R33), the issue of a word, and the steps that
engines, distributors, units and results take by themselves.
-/

namespace Sys2Proof.Machine

/-! ## Issuing a word -/

/-- R33, R36, R39: a path issues its word: it is the last that did, the watchdog counts, and a deadlock may be raised again. A
word that waits was counted when it was first issued. -/
def noteIssue (s : State) (h : Here) : State :=
  let s := { s with ctl := { s.ctl with cur := some (h.g.id, h.pid), stalled := false, rejected := false } }
  s.modGroup h.g.id fun g =>
    let g := { g with lastPath := h.pid }
    if h.p.park = .running then { g with wdog := g.wdog + 1, deadlocked := false, badImage := false } else g

/-- R172, R457: the instruction that a path issues, and the state in which it does. A group whose image held a reserved kind of
stack entry fails check 7 with its first word. None while the word has not come. -/
def prepare (s : State) (h : Here) : Option (Instr × State) :=
  let (f, s) := fetchWord s h
  let w : Word := match f with
    | .word w => w
    | _ => 0
  (instrOf f).map fun i => (if h.g.badImage then .unassignedCodePoint w 7 else i, noteIssue s h)

/-- A word that a path could issue now. -/
structure Ready where
  h : Here
  i : Instr
  r : Result

/-- R47: the registers that an instruction of a path reads, its guard among them. -/
def registersRead (h : Here) (i : Instr) : List RegName :=
  let names (x : Src) (t : Nat) : List RegName :=
    let base := if x.file = .v then resolve h.g h.p x.reg t else x.reg
    (List.range x.n).map fun k => ⟨x.file.no, base + k, if x.file = .s then 0 else t⟩
  let guard : List RegName :=
    if mGuard h.p.mode = 0 then [] else (enabledThreads h.p).map fun t => ⟨2, mGuard h.p.mode, t⟩
  guard ++ (execThreads (isUniform i) h.g h.p).flatMap fun t =>
    if t.2.isSome then [] else (sourcesOf i).flatMap fun x => names x t.1

/-- R40: a register becomes poison, if it is full. -/
def poisonRegister (g : Group) (x : RegName) (k : Token) : Group :=
  let r : Reg := { val := k.setWidth 32, poi := true }
  match x.file with
  | 0 => if (vGet g x.reg x.t).full then vSet g x.reg x.t r else g
  | 1 => if (sGet g x.reg).full then sSet g x.reg r else g
  | 2 => if (pGet g x.reg x.t).full then pSet g x.reg x.t { poi := true, tok := k } else g
  | _ => xSet g x.reg x.t { poi := true, tok := k }

/-- R4, R434: the register files: vrf, srf, prf. The last two names are the model's (log entry 17). -/
def registerUnit (file : Nat) : List Byte := [[0x76, 0x72, 0x66], [0x73, 0x72, 0x66], [0x70, 0x72, 0x66]].getD file []

/-- R47, R434: the word of a path reads registers that hold an uncorrectable error: they become poison with a record of cause
ECC_UNCORRECTABLE, and each counts as an event of the register files. -/
def detectRegisters (s : State) (h : Here) (i : Instr) : State :=
  if s.ctl.upsets.isEmpty then s else
  let bad := ((registersRead h i).filter fun x => s.ctl.upsets.contains (h.g.id, x)).eraseDups
  if bad.isEmpty then s
  else
    let s := { s with ctl := { s.ctl with upsets := s.ctl.upsets.filter fun u => !(u.1 = h.g.id && bad.contains u.2) } }
    let (toks, s) := newRecords s h.g.id h.p.pc (h.g.span.opened.getLsbD ·) (bad.map fun x => { t := x.t, cause := causeEcc })
    let s := s.modGroup h.g.id fun g => (bad.zip toks).foldl (fun g x => poisonRegister g x.1 x.2.2) g
    raise s { groupEvent s h.g 1 0 bad.length [(bad.head?).elim 0 fun x => BitVec.ofNat 64 (regKey x.reg x.t)] with
              name := registerUnit ((bad.head?).elim 0 (·.file)) }

/-- R178: a word that waits or that failed a check has read no register. -/
def unread : Result → Bool
  | .next t => t.ctl.stalled || t.ctl.rejected
  | _ => true

/-- R47, R178: the errors of the registers that a word reads are detected once it passes its checks and waits for nothing. -/
def noteErrors (s : State) (h : Here) (i : Instr) : State :=
  if s.ctl.upsets.isEmpty || unread (exec i s) then s else detectRegisters s h i

/-- R437: the path is there and its context has not been killed. -/
def mayIssue (s : State) : Bool := s.here.any fun h => h.g.stop ≠ .context

/-- The word of a path issued. An uncorrectable error in the word itself (R54) may end its context or reset its partition; then
nothing issues. A word that has not come waits, and so does one that accesses memory after a migration (R105). -/
def tryIssue (s : State) (h : Here) : Ready :=
  match prepare s h with
  | none => ⟨h, .nop, .next (stall s)⟩
  | some (i, t) =>
    if h.w.moved && memoryWord i then ⟨h, i, .next (stall s)⟩
    else
      let t := noteErrors t h i
      ⟨h, i, if mayIssue t then exec i t else .next t⟩

/-- R33: a word that waits is no candidate. -/
def Ready.goes (x : Ready) : Bool :=
  match x.r with
  | .next s => !s.ctl.stalled
  | _ => true

/-! ## The round (R33) -/

/-- R33, R36, R454, R462: a group takes part in arbitration. No group of a context does whose replay ends. -/
def arbitrates (s : State) (g : Group) : Bool :=
  (g.stop = .none || g.stop = .stepping) && !stalledOut s g &&
    !((s.wg g.wg).bind fun w => s.ctx w.ctx).any fun c => replayEnds s c

/-- R9: a path may be tried: it is not parked, or stands at a word that waits. -/
def Path.tries (p : Path) : Bool :=
  p.mask ≠ 0 && match p.park with
    | .running => true
    | .waiting => true
    | .bar _ _ _ => true
    | .barWait _ => true
    | _ => false

/-- R33: the words that a group could issue now. -/
def groupReady (s : State) (g : Group) : List Ready :=
  if !arbitrates s g then []
  else ((g.paths.filter (·.2.tries)).filterMap fun kp => (hereOf s g.id kp.1).map (tryIssue s)).filter (·.goes)

/-- R33: the groups of a partition of a core, oldest first. -/
def residents (s : State) (core part : Nat) : List Group :=
  sortBy (fun a b => a.age ≤ b.age) ((s.exe.groups.map (·.2)).filter fun g => g.part = part && (s.wg g.wg).any (·.coreNo = core))

/-- R33: the candidates of a round, oldest group first. -/
def roundReady (s : State) (core part : Nat) : List (Group × List Ready) :=
  ((residents s core part).map fun g => (g, groupReady s g)).filter fun x => !x.2.isEmpty

/-- R33: the group that wins: the oldest that has lost 7 rounds, else the oldest. -/
def winner (cs : List (Group × List Ready)) : Option (Group × List Ready) :=
  (cs.find? fun x => 7 ≤ x.1.loss).or cs.head?

/-- R33: the path that a winning group chooses: of two, the one that did not issue last. -/
def choose (g : Group) (rs : List Ready) : Option Ready :=
  (rs.find? fun r => 1 < rs.length && r.h.pid ≠ g.lastPath).or rs.head?

/-- R453: what a sample of a slot says of a group that did not issue in it. A candidate that was not selected counts in leaf 5, for which
the rule names none: the model's choice (log entry 68). -/
def seenGroup (s : State) (cands : List Nat) (g : Group) : Seen :=
  let p := g.paths.head?
  { gid := g.id, leaf := if cands.contains g.id then 5 else stalledLeaf s g, pc := p.elim 0 (·.2.pc), mask := p.elim 0 (·.2.mask) }

/-- R447, R453: the groups of a partition whose contexts are sampled. -/
def sampled (s : State) (core part : Nat) : List Group :=
  (residents s core part).filter fun g => (s.wg g.wg).any fun w => debugBit s w.ctx 1

/-- R33, R452, R453: what a round leaves beside the issue: loss counts, the slot, its counters. `before` is the machine before the
issue. -/
def closeRound (before : State) (core part leaf : Nat) (won : Option Here) (cands : List Nat) (s : State) : State :=
  let s := cands.foldl (fun s gid => s.modGroup gid fun g =>
    { g with loss := if won.any (·.g.id = gid) then 0 else g.loss + 1 }) s
  let s := countSlot s core part leaf
  let others := ((sampled before core part).filter fun g => !won.any (·.g.id = g.id)).map (seenGroup before cands)
  let slot : Slot := { winner := won.map fun h => (h.g.id, h.pid), pc := won.elim 0 (·.p.pc), mask := won.elim 0 (·.p.mask)
                       cands := cands, leaf := leaf, others := others }
  { s with ctl := { s.ctl with slots := sput {} s.ctl.slots (4 * core + part) slot } }

/-- R452: the leaf of a slot with no issue, charged to the oldest resident group. -/
def idleLeaf (s : State) (core part : Nat) : Nat :=
  match residents s core part with
  | [] => 9
  | g :: _ => stalledLeaf s g

/-! ## Steps of the debugger (R455) -/

/-- R455: what is outstanding for a group that comes without another group: accesses, engine and matrix operations, pushes, the answer
of a FETCHWG. A pop, a look at a future cell and a result that no operation brings may need one. -/
def comesByItself (s : State) (w : WG) (g : Group) : Bool :=
  g.fetch.isSome || (s.exe.engOps.any fun ko => ko.2.gid = g.id) || (w.tiles.any fun kt => kt.2.ops.any (·.gid = g.id)) ||
    pushesWaiting s w g.id (List.range 128) none || s.exe.pendings.any fun kp => kp.2.gid = g.id && match kp.2.what with
      | .pop _ _ _ => false
      | .result _ _ _ => false
      | .remote .poll _ _ _ _ => false
      | _ => true

/-- R455: a path goes on by itself: its word issues, its PAUSE ends, or a page that it waits for is serviced. -/
def pathGoes (s : State) (g : Group) (kp : Nat × Path) : Bool :=
  match kp.2.park with
  | .pause _ => true
  | .commit => (sfind g.span.serving kp.1).any fun x => x.services.any fun y => match y.2 with | .page _ _ => true | .cellPage _ => true | _ => false
  | _ => kp.2.tries && ((hereOf s g.id kp.1).map (tryIssue s)).any (·.goes)

/-- R455: a group goes on by itself. -/
def groupGoes (s : State) (w : WG) (g : Group) : Bool := comesByItself s w g || g.paths.any (pathGoes s g)

/-- R455: the groups that go on can end the wait of a path of a group: one of them arrives at its barrier, at its REGROUP or at its
rendezvous, or does what another wait looks for. A JOIN waits for a path of its own group. -/
def waitMet (s : State) (w : WG) (go : List Group) (g : Group) (p : Path) : Bool :=
  let others := go.filter (·.id ≠ g.id)
  let bar (b : Nat) : Bool :=
    let x : Barrier := sget {} w.bars b
    let missing := (x.need.getD 0) - ((List.range 16).filter (x.arrived.getLsbD ·)).length
    missing ≤ (others.filter fun o => !x.arrived.getLsbD o.pos).length && !others.isEmpty
  match p.park with
  | .join _ => false
  | .bar b _ _ => bar b
  | .barWait b => !stillWaits g w b || bar b
  | .regroup _ => ((participants s w.id g.role).filter fun o => (regroupMask o).isNone).all fun o => go.any (·.id = o.id)
  | .rendezvous =>
    !gangBroken s w g && (gangMembers g.gang).all fun k => w.arrivals.any (·.pos = k) || go.any (·.pos = k)
  | _ => !others.isEmpty

/-- R455: the groups of a stepping workgroup that go on, or whose waits those can end, as far as `n` turns show. -/
def goingGroups (s : State) (w : WG) (gs : List Group) : Nat → List Group
  | 0 => gs.filter (groupGoes s w)
  | n + 1 =>
    let go := goingGroups s w gs n
    go ++ gs.filter fun g => !go.any (·.id = g.id) && g.paths.any fun kp => waitMet s w go g kp.2

/-- R455: the groups of a stepping workgroup that are parked on waits that no running group of it can satisfy. -/
def stuckGroups (s : State) (w : WG) : List Nat :=
  if !w.stepping then [] else
  let gs := (groupsOfWg s w.id).filter fun g => g.stop = .stepping && !g.paths.isEmpty
  let go := goingGroups s w gs gs.length
  (gs.filter fun g => !go.any (·.id = g.id)).map (·.id)

/-- R455: the steps of stuck groups end. -/
def endStuck (s : State) (wg : Nat) : State :=
  match s.wg wg with
  | none => s
  | some w => (stuckGroups s w).foldl endStep s

/-- R455: a stepping workgroup with stuck groups. -/
def stuckStep (s : State) : Option Nat := ((s.exe.wgs.map (·.2)).find? fun w => !(stuckGroups s w).isEmpty).map (·.id)

/-- R33, R455, R462: the end of an issue: the round is closed, and a step or a replay that ends here ends. -/
def closeIssue (before : State) (core part : Nat) (cands : List Nat) (x : Ready) (s : State) : State :=
  let s := closeRound before core part (issuedLeaf x.h x.i) (some x.h) cands (forgetCode s x.h)
  settleReplay (endStuck (settleStep s x.h.g.id x.i x.h.g.retired) x.h.w.id) x.h.w.ctx

/-- The word that a round issues, and the groups that had candidates. -/
def pick (s : State) (core part : Nat) : Option (Ready × List Nat) :=
  let cs := roundReady s core part
  (winner cs).bind fun x => (choose x.1 x.2).map fun r => (r, cs.map (·.1.id))

/-- R33: an arbitration round of a partition of a core. -/
def round (s : State) (core part : Nat) : Result :=
  match pick s core part with
  | none => .next (closeRound s core part (idleLeaf s core part) none [] s)
  | some (x, cands) =>
    match x.r with
    | .next t => .next (closeIssue s core part cands x t)
    | r => r

/-! ## Replays of the debugger (R462) -/

/-- R462: a context whose replay ends now. -/
def endingReplay (s : State) : Option Nat := (s.host.ctxs.find? fun kc => replayEnds s kc.2).map (·.1)

/-! ## What the machine does by itself -/

/-- A list turned so that it begins at another place. -/
def rotate {α : Type} (n : Nat) (l : List α) : List α :=
  let k := n % max l.length 1
  l.drop k ++ l.take k

/-- The acts of engines and of results in flight. -/
def flightActs (s : State) : List (State → Result) :=
  (s.host.ctxs.map fun kc => fun s => .next (flushLate kc.1 kc.2.rep.late.length s)) ++
    (skeys s.exe.pendings).map (fun n => execLongLatencyComplete n) ++
    (skeys s.exe.engOps).flatMap fun n =>
      [execCopy n 32, execFill n 32, execGather n 32, execScatter n 32, execReduceInto n 32, execEngineArrival n, execEngineResult n]

/-- R210: a path pauses, and its turn has come. -/
def pauseOver (s : State) (p : Path) : Bool :=
  match p.park with
  | .pause n => n ≤ s.ctl.turn
  | _ => false

/-- The ends of every PAUSE. -/
def pauseActs (s : State) : List (State → Result) :=
  s.exe.groups.flatMap fun kg => (skeys kg.2.paths).map fun p => execPauseEnd kg.1 p

/-- R172, R258: a path asks for its word. -/
def askActs (s : State) : List (State → Result) :=
  s.exe.groups.flatMap fun kg => (if arbitrates s kg.2 then kg.2.paths.filter (·.2.tries) else []).map fun kp =>
    fun s => .next (((hereOf s kg.1 kp.1).map fun h => { askCode s h with ctl := s.ctl }).getD s)

/-- The acts of groups and workgroups. -/
def groupActs (s : State) : List (State → Result) :=
  (s.exe.groups.flatMap fun kg =>
    [fun s => .next (finishTasks s kg.1 kg.2.exited), execSpanReplay kg.1, execGroupExitComplete kg.1, execGroupDeadlock kg.1, execFetchwgAnswer kg.1] ++
      (kg.2.paths.filter fun kp => pauseOver s kp.2).map fun kp => execPauseEnd kg.1 kp.1) ++
  s.exe.wgs.flatMap fun kw =>
    (fun s => .next (flushAcknowledged s kw.1)) :: (List.range 4).map (fun r => execRegroupRedistribute kw.1 r) ++
      (List.range kw.2.ntiles).flatMap (fun t => [execKstep kw.1 t, execMatrixResume kw.1 t]) ++ [execPreemptSave kw.1]

/-- The acts of the distributors. -/
def launchActs (s : State) : List (State → Result) :=
  (List.range 64).map (fun q => execLaunchRecordRead q) ++
    s.host.launches.flatMap fun kl =>
      if kl.2.state = 3 then [] else
        [execSerialLaunchStart kl.1, execLaunchComplete kl.1] ++
        (if kl.2.state = 1 then
          ((List.range 4).flatMap fun q => (List.range 80).map fun c => execWorkgroupPlace kl.1 q c) ++
            (List.range 4).flatMap fun q => (distributors s kl.2).flatMap fun r => [execStealRequest kl.1 q r, execOccupancySummary kl.1 q r]
        else [])

/-- The acts of the worklist units. -/
def worklistActs (s : State) : List (State → Result) :=
  (s.host.watches.filter (·.filled)).map (fun x => execFutureFillWake x.ctx x.list x.unit) ++ s.host.ctxs.flatMap fun kc => kc.2.lists.flatMap fun kl =>
    execTerminationWave kc.1 kl.1 :: (skeys kl.2.units).flatMap fun u =>
      [execFloorAcknowledgement kc.1 kl.1 u, execFutureFillWake kc.1 kl.1 u] ++
        (skeys kl.2.units).flatMap fun v => [execWorklistOccupancySummary kc.1 kl.1 u v, execWorklistStealRequest kc.1 kl.1 u v]

/-- R404, R461: a packet that waits is performed. -/
def packetAct (c : Nat) (p : Packet) : State → Result :=
  match p.op.toNat with
  | 1 => execRead c p
  | 2 => execWrite c p
  | 3 => execAtomic c p
  | 4 => execReadResp c p
  | 5 => execWriteAck c p
  | _ => execAtomicResp c p

/-- The acts of firmware, walkers, checkpoint engines and chords. -/
def systemActs (s : State) : List (State → Result) :=
  (List.range s.host.faults.length).map (fun n => execFaultRecordPost n) ++
    (List.range 4).flatMap (fun p => execDumpComplete p :: (List.range 4).map fun q => execCheckpointPageCopy p q) ++
    s.host.chords.flatMap fun kc => kc.2.inq.map (packetAct kc.1)

/-- Everything that the machine may do by itself. -/
def acts (s : State) : List (State → Result) :=
  flightActs s ++ askActs s ++ groupActs s ++ launchActs s ++ worklistActs s ++ systemActs s

/-- The first act of a list that changes the machine. -/
def firstAct (s : State) : List (State → Result) → Option Result
  | [] => none
  | f :: fs =>
    match f s with
    | .next t => if t.mem = s.mem ∧ t.exe = s.exe ∧ t.host = s.host then firstAct s fs else some (.next t)
    | r => some r

/-- The partitions of cores that hold groups. -/
def busyPartitions (s : State) : List (Nat × Nat) :=
  (s.exe.groups.filterMap fun kg => (s.wg kg.2.wg).map fun w => (w.coreNo, kg.2.part)).eraseDups

/-- The first partition of a list in which a word can issue. -/
def firstRound (s : State) : List (Nat × Nat) → Option Result
  | [] => none
  | (c, p) :: l => if (pick s c p).isSome then some (round s c p) else firstRound s l

/-- The machine goes on by itself: partitions and other agents take turns; where none goes on, a PAUSE ends. -/
def goOn (s : State) : Result :=
  let n := s.ctl.turn
  let s := { s with ctl := { s.ctl with turn := n + 1, cur := none } }
  let issue : Option Result := firstRound s (rotate (n / 2) (busyPartitions s))
  let act : Option Result := firstAct s (rotate (n / 2) (acts s))
  (((if n % 2 = 0 then issue.or act else act.or issue)).or (firstAct s (pauseActs s))).getD (.next s)

/-- What the machine does when its agenda names nothing: a replay or a step that ends, a group whose watchdog expired
(R36), then the next turn. -/
def auto (s : State) : Result :=
  match endingReplay s with
  | some tag => .next (settleReplay s tag)
  | none =>
    match stuckStep s with
    | some wg => .next (endStuck s wg)
    | none =>
      match s.exe.groups.find? fun kg => stalledOut s kg.2 && kg.2.live with
      | some kg => execGroupStall kg.1 s
      | none => goOn s

/-- R438, R432: an upset: the word at an address now holds an uncorrectable error; the next shadow check of a thread
disagrees. -/
def upsetWord (s : State) (pa unit : Nat) : State := s.withMem { s.mem with ecc := sins s.mem.ecc (pa / 4 * 4) unit }

/-- R434, R435: whether errors of a class can come from a source. -/
def flawPossible (cls src : Nat) : Bool :=
  match cls with
  | 0 => src = 0
  | 2 | 3 => src ≤ 2 || src = 7
  | 4 | 5 => src = 0 || src = 5 || src = 7
  | 6 => src = 3 || src = 4
  | _ => false

/-- R434, R435, R438, R443: an error that a unit corrects, or that it cannot correct and that no read of a register or of memory
meets, is an event and no more: for the group whose access met it, else for the partition of its quadrant (log entry 11). -/
def unitFlaw (s : State) (cls src quad : Nat) (gid : Option Nat) (addr : DWord) : State :=
  if !flawPossible cls src then s
  else match gid.bind s.group with
    | some g => raise s (groupEvent s g cls src 1 [addr])
    | none => raise s { cls := cls, src := src, part := quadPart s quad, loc := quadLoc quad, info := [addr] }
/-- R47: the next read of a register of a group meets an uncorrectable error. -/
def upsetRegister (s : State) (gid : Nat) (x : RegName) : State :=
  { s with ctl := { s.ctl with upsets := (gid, x) :: s.ctl.upsets } }
/-- R432: the next shadow check of a thread disagrees. -/
def upsetShadow (s : State) (t : Nat) : State := { s with ctl := { s.ctl with shadow := t :: s.ctl.shadow } }

/-- The act that an agenda names. -/
def turn (s : State) : Turn → Result
  | .round core part => round s core part
  | .event i => exec i { s with ctl := { s.ctl with cur := none } }
  | .shadow t => .next (upsetShadow s t)
  | .ecc pa unit => .next (upsetWord s pa unit)
  | .flaw cls src quad gid addr => .next (unitFlaw s cls src quad gid addr)
  | .register gid x => .next (upsetRegister s gid x)

end Sys2Proof.Machine
end

