-- ==== Sys2Proof/Machine/Step.lean ====
section
/-!
DEFINITION. The step of the machine, and the load of one instruction.
-/

namespace Sys2Proof.Machine

/-- One step: the first act of the agenda, or what the machine does by itself (log entry 1). -/
def step (s : State) : Host.Outcome State Fault Refusal :=
  match s.ctl.agenda with
  | [] => auto s
  | t :: rest => turn { s with ctl := { s.ctl with agenda := rest } } t

/-- A word of memory as a load leaves it: clean, with one value to read. -/
def placeWord (m : MemSys) (a : Nat) (w : Word) : MemSys :=
  setPoi (setWord { m with writes := m.writes.filter (·.loc ≠ a), ecc := sdel m.ecc a } a w) a false 0

/-- Two words. -/
def placeDWord (m : MemSys) (a : Nat) (x : DWord) : MemSys := placeWord (placeWord m a x.halves.1) (a + 4) x.halves.2

/-- The launch of the loaded workgroup: one group of one thread, with every register, 4 tiles and 4 KiB of scratchpad. -/
def loadLaunch : Launch :=
  { id := 1, queue := 0, index := 0, ctx := 1, state := 1, code := 0, detail := 0, prio := 0, serial := false, priv := true
    arch := false, regroup := false, notify := false, acc := 4, scratch := 4096, argp := 0, cplt := 0, kentry := 0, stackb := 0
    stackOff := 0
    levels := [{ extent := 1, scope := 0, domain := 0 }, { extent := 1, scope := 1, domain := 1 },
      { extent := 1, scope := 2, domain := 2 }]
    roles := [{ pc := 0, blocks := 16, groups := 1 }], slots := List.replicate 8 0, flo := 0, fhi := 0, names := [2] }

/-- The loaded workgroup, on the first core. -/
def loadWg : WG :=
  { id := 1, ctx := 1, launch := 1, unit := 0, num := 0, quad := 0, core := 0, ngroups := 1, scratch := 4096, ntiles := 4 }

/-- The loaded group: thread 0 at address 0, in the mode of a group that starts (R164). -/
def loadGroup : Group :=
  { id := 2, wg := 1, pos := 0, role := 0, budget := 16, part := 0, slot := 0, age := 2, exited := ~~~1#128
    paths := [(0, { pc := 0, mask := 1, mode := 0x0018 })] }

/-- R383: the tables of the loaded context: three levels at 0x1_0000 to 0x3_0000, and one page at 0x4_0000 that a user program
may execute. -/
def loadTables (m : MemSys) : MemSys :=
  placeDWord (placeDWord (placeDWord m 0x10000 0x8000000000020000) 0x20000 0x8000000000030000) 0x30000 0xD840000000040001

/-- The state with an instruction loaded (log entry 9): quadrant 0 in partition 0, context 1 with one page, one workgroup of
one group of one thread at the page's first word, and a round of its partition next. Words have 32 bits, so that nothing of
one lies above `nbits`. -/
def State.withFetchWord (s : State) (_nbits w : Nat) : State :=
  let s := s.setMgmt 0x100 1
  { s with
    ctl := { s.ctl with agenda := [.round 0 0] }
    mem := { placeWord (loadTables s.mem) 0x40000 (BitVec.ofNat 32 w) with tlb := [] }
    exe := { s.exe with groups := [(2, loadGroup)], wgs := [(1, loadWg)], nextId := max 3 s.exe.nextId }
    host := { s.host with ctxs := sins s.host.ctxs 1 { tag := 1, part := 0, root := 0x10000 }
                          launches := sins s.host.launches 1 loadLaunch } }

end Sys2Proof.Machine
end

