-- ==== Sys2Proof/Safety.lean ====
section
/-!
DEFINITION. What counts as a safe run: the invariants of a state, and that a state goes on; and the words that statements about
steps are made of: what a word of a path leaves as it was, and which threads get which result.
-/

namespace Sys2Proof.Machine

open Sys2Proof

/-- Memory has its canonical form: addresses strictly rising, and no byte that an unlisted address reads as. -/
def State.memoryCanonical (s : State) : Prop := Memory.wf s.mem = true

/-- R422, R424, R425: what no step undoes: the recovery image and the fused Verjor hash stay, a fused operator key hash stays, the fused
minimum and the count of used leaves never go down. -/
def State.fusesKept (s t : State) : Prop :=
  t.host.fw.recovery = s.host.fw.recovery ∧ t.host.fw.verjorHash = s.host.fw.verjorHash ∧
    (s.host.fw.opHash.isSome = true → t.host.fw.opHash = s.host.fw.opHash) ∧ s.host.fw.minsvn ≤ t.host.fw.minsvn ∧
    s.host.fw.leaf ≤ t.host.fw.leaf

/-- A step goes on: it neither faults nor is refused. -/
def goesOn (s : State) : Prop := ∃ t, step s = .next t

/-- A run of some steps in which every step goes on. -/
def safeRun : Nat → State → Prop
  | 0, _ => True
  | n + 1, s => ∃ t, step s = .next t ∧ safeRun n t

/-! ## What a word changes -/

/-- Only one group is not what it was: every other group, every byte of memory and everything else of the machine is. -/
def OnlyGroup (s t : State) (g' : Group) : Prop :=
  t = s.setGroup g' ∧ (∀ a, memByte t.mem a = memByte s.mem a) ∧ (∀ k, k ≠ g'.id → t.group k = s.group k) ∧ t.host = s.host

/-- R446, R9: the word of a path retired: its group counted it, the path goes on at `pc` with its mask, mode, return stack and
join point as they were, and no other path of the group changed. -/
def WentOn (h : Here) (g' : Group) (pc : DWord) : Prop :=
  g'.retired = h.g.retired + 1 ∧ sfind g'.paths h.pid = some { h.p with pc := pc, park := .running } ∧
    ∀ q, q ≠ h.pid → sfind g'.paths q = sfind h.g.paths q

/-- Of a group only register files, the retired-work count and the paths may differ. -/
def OnlyRegisters (g g' : Group) : Prop :=
  g' = { g with v := g'.v, sr := g'.sr, p := g'.p, x := g'.x, retired := g'.retired, paths := g'.paths }

/-- A word of a path that writes registers only and goes on at the next word. -/
def RegisterStep (i : Instr) (s : State) (h : Here) (g' : Group) : Prop :=
  ∃ t, exec i s = .next t ∧ OnlyGroup s t g' ∧ WentOn h g' (nextPc h.p.pc) ∧ OnlyRegisters h.g g'

/-! ## Results -/

/-- The value of a result: words for v- or s-registers, a truth value for a predicate, base and bound for an index register. -/
inductive Val where
  | words (ws : List Word)
  | bool (b : Bool)
  | idx (base bound : BitVec 8)
  deriving DecidableEq, Repr

/-- R40: a register that holds a clean word. -/
def cleanReg (w : Word) : Reg := { val := w }
/-- R40, R41: a register that holds poison: its low 10 bits are the token. -/
def poisonReg (k : Token) : Reg := { val := k.setWidth 32, poi := true }

/-- Register j of a result. -/
def Val.reg (j : Nat) : Token ⊕ Val → Reg
  | .inl k => poisonReg k
  | .inr (.words ws) => cleanReg (ws.getD j 0)
  | .inr _ => {}

/-- A predicate that holds a result. -/
def Val.pred : Token ⊕ Val → Pred
  | .inl k => { poi := true, tok := k }
  | .inr (.bool b) => { val := b }
  | .inr _ => {}

/-- An index register that holds a result. -/
def Val.idxReg : Token ⊕ Val → Idx
  | .inl k => { poi := true, tok := k }
  | .inr (.idx b e) => { base := b, bound := e }
  | .inr _ => {}

/-- R40, R41, R157, R162, R193: the threads `who` hold the results `res` in the destination `d`, under the name that a melded
path gives it; a uniform destination holds the one result; p0 takes none; every other register of every thread is as it was. -/
def Wrote (h : Here) (g' : Group) (d : Dst) (who : List Nat) (res : Nat → Token ⊕ Val) : Prop :=
  (∀ n t, t < 128 → vGet g' n t =
    if d.file = .v ∧ t ∈ who ∧ resolve h.g h.p d.reg t ≤ n ∧ n < resolve h.g h.p d.reg t + d.n
    then Val.reg (n - resolve h.g h.p d.reg t) (res t) else vGet h.g n t) ∧
  (∀ n, sGet g' n =
    match who with
    | [] => sGet h.g n
    | t :: _ => if d.file = .s ∧ d.reg ≤ n ∧ n < d.reg + d.n then Val.reg (n - d.reg) (res t) else sGet h.g n) ∧
  (∀ n t, t < 128 → pGet g' n t =
    if d.file = .p ∧ n = d.reg ∧ n ≠ 0 ∧ t ∈ who then Val.pred (res t) else pGet h.g n t) ∧
  (∀ n t, t < 128 → xGet g' n t = if d.file = .x ∧ n = d.reg ∧ t ∈ who then Val.idxReg (res t) else xGet h.g n t)

/-! ## Instructions that compute registers from registers -/

/-- What the specification gives such an instruction: uniform or not, sources in operand order, destination, whether the
type is accepted, whether the result passes the shadow unit, and the value of the result from those of the sources (none:
there is none, and the result is new poison). -/
structure Shape where
  unif : Bool
  srcs : List Src
  dst : Dst
  ok : Bool := true
  float : Bool := false
  value : List (List Word) → Option Val

/-- R48: the sources of a thread in operand order: the token of the first that is poisoned, or all values. None when a source
is empty. -/
def operands (h : Here) (t : Nat) : List Src → Option (Token ⊕ List (List Word))
  | [] => some (.inr [])
  | x :: xs =>
    match readSrc h.g h.p x t with
    | .poison k => if xs.all fun y => readSrc h.g h.p y t ≠ .empty then some (.inl k) else none
    | .empty => none
    | .words ws =>
      match operands h t xs with
      | none => none
      | some (.inl k) => some (.inl k)
      | some (.inr vs) => some (.inr (ws :: vs))

/-- R48, R49: the result of a thread with its guard's token, if the guard is poisoned: that token; else the token of the first
poisoned source; else the value. None for new poison. -/
def Shape.result (x : Shape) (h : Here) (t : Nat × Option Token) : Option (Token ⊕ Val) :=
  match t.2 with
  | some k => some (.inl k)
  | none =>
    match operands h t.1 x.srcs with
    | none => none
    | some (.inl k) => some (.inl k)
    | some (.inr vs) => (x.value vs).map .inr

/-- The threads for which it executes. -/
def Shape.threads (x : Shape) (h : Here) : List (Nat × Option Token) := execThreads x.unif h.g h.p

/-- R177: its checks 5 to 7 pass; R161, R162: the guard, the destination and the sources that are read as full are full; no
shadow check disagrees. -/
def Shape.ready (x : Shape) (s : State) (h : Here) : Prop :=
  operandCheck h x.srcs (some x.dst) x.ok = none ∧ operandsReady h (x.threads h) x.srcs (some x.dst) = true ∧
    (x.float = true → ∀ t ∈ x.threads h, s.ctl.shadow.contains t.1 = false)

/-- Every instruction of a table, in every state in which a path issues it with its operands ready, completes: every
executing thread holds the result in the destination, and nothing else changes. -/
def Results (table : Instr → BitVec 16 → Option Shape) : Prop :=
  ∀ (i : Instr) (s : State) (h : Here) (x : Shape) (res : Nat → Token ⊕ Val),
    s.here = some h → table i h.p.mode = some x → x.ready s h → (∀ t ∈ x.threads h, x.result h t = some (res t.1)) →
    ∃ g', RegisterStep i s h g' ∧ Wrote h g' x.dst ((x.threads h).map (·.1)) res

end Sys2Proof.Machine
end

