-- ==== Sys2Proof/Certificates/Slice0/Obligations.lean ====
section
/-!
DEFINITION. The statements for the provers, with the tables of what the specification gives the instructions of one shape.
-/

namespace Sys2Proof.Machine

open Sys2Proof

/-! ## Instructions that compute registers from registers -/

/-- R219: two register sources of one file. -/
def twoRegs (unif : Bool) (d : BitVec 7) (ea : Bool) (a : BitVec 7) (eb : Bool) (b : BitVec 7) (ok float : Bool)
    (f : Word → Word → Option Word) : Shape :=
  { unif := unif, srcs := [rSrc unif a ea, rSrc unif b eb], dst := rDst unif d, ok := ok, float := float
    value := fun
      | [[x], [y]] => (f x y).map fun w => .words [w]
      | _ => none }

/-- R219: one register source. -/
def oneReg (unif : Bool) (d : BitVec 7) (ea : Bool) (a : BitVec 7) (ok float : Bool) (f : Word → Word) : Shape :=
  { unif := unif, srcs := [rSrc unif a ea], dst := rDst unif d, ok := ok, float := float
    value := fun
      | [[x]] => some (.words [f x])
      | _ => none }

/-- R219: two register sources and the destination as the third. -/
def threeRegs (unif : Bool) (d : BitVec 7) (ea : Bool) (a : BitVec 7) (eb : Bool) (b : BitVec 7) (ok float : Bool)
    (f : Word → Word → Word → Word) : Shape :=
  { unif := unif, srcs := [rSrc unif a ea, rSrc unif b eb, rSrc unif d false], dst := rDst unif d, ok := ok, float := float
    value := fun
      | [[x], [y], [z]] => some (.words [f x y z])
      | _ => none }

/-- R227: a pair and a second source of one or two registers, into a pair. -/
def pairRegs (unif : Bool) (d : BitVec 7) (ea : Bool) (a : BitVec 7) (eb : Bool) (b : BitVec 7) (nb : Nat) (ok : Bool)
    (f : DWord → List Word → DWord) : Shape :=
  { unif := unif, srcs := [rSrc unif a ea 2, rSrc unif b eb nb], dst := rDst unif d 2, ok := ok
    value := fun
      | [[x, y], ws] => let r := f (DWord.ofHalves x y) ws; some (.words [r.halves.1, r.halves.2])
      | _ => none }

/-- R219, R248: a predicate from sources. -/
def toPred (d : BitVec 3) (srcs : List Src) (ok : Bool) (f : List (List Word) → Option Bool) : Shape :=
  { unif := false, srcs := srcs, dst := ⟨.p, d.toNat, 1⟩, ok := ok, value := fun vs => (f vs).map .bool }

/-- R234: a constant. -/
def constant (unif : Bool) (d : BitVec 7) (w : Word) : Shape :=
  { unif := unif, srcs := [], dst := rDst unif d, value := fun _ => some (.words [w]) }

/-- R220, R223, R224, R226: the operations of two registers under the type of the mode. -/
def typedTable (i : Instr) (m : BitVec 16) : Option Shape :=
  match i with
  | .add d ea a eb b => some (twoRegs false d ea a eb b (allTypes (mType m)) (!isInt (mType m)) (binTyped .add (mType m) (rndOf m)))
  | .addU d ea a eb b => some (twoRegs true d ea a eb b (allTypes (mType m)) (!isInt (mType m)) (binTyped .add (mType m) (rndOf m)))
  | .sub d ea a eb b => some (twoRegs false d ea a eb b (allTypes (mType m)) (!isInt (mType m)) (binTyped .sub (mType m) (rndOf m)))
  | .subU d ea a eb b => some (twoRegs true d ea a eb b (allTypes (mType m)) (!isInt (mType m)) (binTyped .sub (mType m) (rndOf m)))
  | .mul d ea a eb b => some (twoRegs false d ea a eb b (allTypes (mType m)) (!isInt (mType m)) (binTyped .mul (mType m) (rndOf m)))
  | .mulU d ea a eb b => some (twoRegs true d ea a eb b (allTypes (mType m)) (!isInt (mType m)) (binTyped .mul (mType m) (rndOf m)))
  | .min d ea a eb b => some (twoRegs false d ea a eb b (allTypes (mType m)) (!isInt (mType m)) (binTyped .min (mType m) (rndOf m)))
  | .minU d ea a eb b => some (twoRegs true d ea a eb b (allTypes (mType m)) (!isInt (mType m)) (binTyped .min (mType m) (rndOf m)))
  | .max d ea a eb b => some (twoRegs false d ea a eb b (allTypes (mType m)) (!isInt (mType m)) (binTyped .max (mType m) (rndOf m)))
  | .maxU d ea a eb b => some (twoRegs true d ea a eb b (allTypes (mType m)) (!isInt (mType m)) (binTyped .max (mType m) (rndOf m)))
  | .div d ea a eb b => some (twoRegs false d ea a eb b (allTypes (mType m)) (!isInt (mType m)) (binTyped .div (mType m) (rndOf m)))
  | .divU d ea a eb b => some (twoRegs true d ea a eb b (allTypes (mType m)) (!isInt (mType m)) (binTyped .div (mType m) (rndOf m)))
  | .mulhi d ea a eb b => some (twoRegs false d ea a eb b (intTypes (mType m)) (!isInt (mType m)) (binTyped .mulhi (mType m) (rndOf m)))
  | .mulhiU d ea a eb b => some (twoRegs true d ea a eb b (intTypes (mType m)) (!isInt (mType m)) (binTyped .mulhi (mType m) (rndOf m)))
  | .rem d ea a eb b => some (twoRegs false d ea a eb b (intTypes (mType m)) (!isInt (mType m)) (binTyped .rem (mType m) (rndOf m)))
  | .remU d ea a eb b => some (twoRegs true d ea a eb b (intTypes (mType m)) (!isInt (mType m)) (binTyped .rem (mType m) (rndOf m)))
  | .addi d ea a k => some (oneReg false d ea a (intTypes (mType m)) false fun x => (binTyped .add (mType m) (rndOf m) x (immWord (mType m) k)).getD 0)
  | .addiU d ea a k => some (oneReg true d ea a (intTypes (mType m)) false fun x => (binTyped .add (mType m) (rndOf m) x (immWord (mType m) k)).getD 0)
  | _ => none

/-- R223, R225, R228: fused multiply-add, negation, absolute value and the special functions. -/
def unaryTable (i : Instr) (m : BitVec 16) : Option Shape :=
  match i with
  | .fma d ea a eb b => some (threeRegs false d ea a eb b (allTypes (mType m)) (!isInt (mType m)) (fmaTyped (mType m) (rndOf m)))
  | .fmaU d ea a eb b => some (threeRegs true d ea a eb b (allTypes (mType m)) (!isInt (mType m)) (fmaTyped (mType m) (rndOf m)))
  | .neg d ea a => some (oneReg false d ea a (allTypes (mType m)) (!isInt (mType m)) (negAbsTyped true (mType m) (mSat m)))
  | .negU d ea a => some (oneReg true d ea a (allTypes (mType m)) (!isInt (mType m)) (negAbsTyped true (mType m) (mSat m)))
  | .abs d ea a => some (oneReg false d ea a (allTypes (mType m)) (!isInt (mType m)) (negAbsTyped false (mType m) (mSat m)))
  | .absU d ea a => some (oneReg true d ea a (allTypes (mType m)) (!isInt (mType m)) (negAbsTyped false (mType m) (mSat m)))
  | .rcp d ea a => some (oneReg false d ea a (floatTypes (mType m)) true (sfTyped .rcp (mType m) (rndOf m)))
  | .rcpU d ea a => some (oneReg true d ea a (floatTypes (mType m)) true (sfTyped .rcp (mType m) (rndOf m)))
  | .rsq d ea a => some (oneReg false d ea a (floatTypes (mType m)) true (sfTyped .rsq (mType m) (rndOf m)))
  | .rsqU d ea a => some (oneReg true d ea a (floatTypes (mType m)) true (sfTyped .rsq (mType m) (rndOf m)))
  | .sqrt d ea a => some (oneReg false d ea a (floatTypes (mType m)) true (sfTyped .sqrt (mType m) (rndOf m)))
  | .sqrtU d ea a => some (oneReg true d ea a (floatTypes (mType m)) true (sfTyped .sqrt (mType m) (rndOf m)))
  | .exp2 d ea a => some (oneReg false d ea a (floatTypes (mType m)) true (sfTyped .exp2 (mType m) (rndOf m)))
  | .exp2U d ea a => some (oneReg true d ea a (floatTypes (mType m)) true (sfTyped .exp2 (mType m) (rndOf m)))
  | .log2 d ea a => some (oneReg false d ea a (floatTypes (mType m)) true (sfTyped .log2 (mType m) (rndOf m)))
  | .log2U d ea a => some (oneReg true d ea a (floatTypes (mType m)) true (sfTyped .log2 (mType m) (rndOf m)))
  | .sin d ea a => some (oneReg false d ea a (floatTypes (mType m)) true (sfTyped .sin (mType m) (rndOf m)))
  | .sinU d ea a => some (oneReg true d ea a (floatTypes (mType m)) true (sfTyped .sin (mType m) (rndOf m)))
  | .cos d ea a => some (oneReg false d ea a (floatTypes (mType m)) true (sfTyped .cos (mType m) (rndOf m)))
  | .cosU d ea a => some (oneReg true d ea a (floatTypes (mType m)) true (sfTyped .cos (mType m) (rndOf m)))
  | _ => none

/-- R230 to R234: operations on 32 bits, whatever the type. -/
def bitTable (i : Instr) (_ : BitVec 16) : Option Shape :=
  match i with
  | .and d ea a eb b => some (twoRegs false d ea a eb b true false fun x y => some (x &&& y))
  | .andU d ea a eb b => some (twoRegs true d ea a eb b true false fun x y => some (x &&& y))
  | .or d ea a eb b => some (twoRegs false d ea a eb b true false fun x y => some (x ||| y))
  | .orU d ea a eb b => some (twoRegs true d ea a eb b true false fun x y => some (x ||| y))
  | .xor d ea a eb b => some (twoRegs false d ea a eb b true false fun x y => some (x ^^^ y))
  | .xorU d ea a eb b => some (twoRegs true d ea a eb b true false fun x y => some (x ^^^ y))
  | .shl d ea a eb b => some (twoRegs false d ea a eb b true false fun x y => some (shiftWord .shl x y.toNat))
  | .shlU d ea a eb b => some (twoRegs true d ea a eb b true false fun x y => some (shiftWord .shl x y.toNat))
  | .shr d ea a eb b => some (twoRegs false d ea a eb b true false fun x y => some (shiftWord .shr x y.toNat))
  | .shrU d ea a eb b => some (twoRegs true d ea a eb b true false fun x y => some (shiftWord .shr x y.toNat))
  | .sar d ea a eb b => some (twoRegs false d ea a eb b true false fun x y => some (shiftWord .sar x y.toNat))
  | .sarU d ea a eb b => some (twoRegs true d ea a eb b true false fun x y => some (shiftWord .sar x y.toNat))
  | .rot d ea a eb b => some (twoRegs false d ea a eb b true false fun x y => some (shiftWord .rot x y.toNat))
  | .rotU d ea a eb b => some (twoRegs true d ea a eb b true false fun x y => some (shiftWord .rot x y.toNat))
  | .bfx d ea a eb b => some (twoRegs false d ea a eb b true false fun x y => some (bfxWord x y))
  | .bfxU d ea a eb b => some (twoRegs true d ea a eb b true false fun x y => some (bfxWord x y))
  | .bfi d ea a eb b => some (threeRegs false d ea a eb b true false bfiWord)
  | .bfiU d ea a eb b => some (threeRegs true d ea a eb b true false bfiWord)
  | .not d ea a => some (oneReg false d ea a true false fun x => ~~~x)
  | .notU d ea a => some (oneReg true d ea a true false fun x => ~~~x)
  | .popc d ea a => some (oneReg false d ea a true false fun x => BitVec.ofNat 32 (popWord x))
  | .popcU d ea a => some (oneReg true d ea a true false fun x => BitVec.ofNat 32 (popWord x))
  | .clz d ea a => some (oneReg false d ea a true false fun x => BitVec.ofNat 32 (clzWord x))
  | .clzU d ea a => some (oneReg true d ea a true false fun x => BitVec.ofNat 32 (clzWord x))
  | .ctz d ea a => some (oneReg false d ea a true false fun x => BitVec.ofNat 32 (ctzWord x))
  | .ctzU d ea a => some (oneReg true d ea a true false fun x => BitVec.ofNat 32 (ctzWord x))
  | .brev d ea a => some (oneReg false d ea a true false fun x => x.reverse)
  | .brevU d ea a => some (oneReg true d ea a true false fun x => x.reverse)
  | .mov d ea a => some (oneReg false d ea a true false fun x => x)
  | .movU d ea a => some (oneReg true d ea a true false fun x => x)
  | .andi d ea a k => some (oneReg false d ea a true false fun x => x &&& k.setWidth 32)
  | .andiU d ea a k => some (oneReg true d ea a true false fun x => x &&& k.setWidth 32)
  | .ori d ea a k => some (oneReg false d ea a true false fun x => x ||| k.setWidth 32)
  | .oriU d ea a k => some (oneReg true d ea a true false fun x => x ||| k.setWidth 32)
  | .xori d ea a k => some (oneReg false d ea a true false fun x => x ^^^ k.setWidth 32)
  | .xoriU d ea a k => some (oneReg true d ea a true false fun x => x ^^^ k.setWidth 32)
  | .shli d ea a k => some (oneReg false d ea a true false fun x => shiftWord .shl x k.toNat)
  | .shliU d ea a k => some (oneReg true d ea a true false fun x => shiftWord .shl x k.toNat)
  | .shri d ea a k => some (oneReg false d ea a true false fun x => shiftWord .shr x k.toNat)
  | .shriU d ea a k => some (oneReg true d ea a true false fun x => shiftWord .shr x k.toNat)
  | _ => none

/-- R227, R234, R236, R241 to R243: pairs, conversions, packing, constants and the copy of an s-register. -/
def moveTable (i : Instr) (m : BitVec 16) : Option Shape :=
  match i with
  | .cvt d ea a k => some { unif := false, srcs := [rSrc false a ea], dst := rDst false d, float := k.toNat % 16 = 2 || k.toNat % 16 = 3, value := fun vs => match vs with | [[x]] => (convert (mRound m) (mSat m) (mFtz m) (k.toNat / 16) (k.toNat % 16) x).map fun w => .words [w] | _ => none }
  | .cvtU d ea a k => some { unif := true, srcs := [rSrc true a ea], dst := rDst true d, float := k.toNat % 16 = 2 || k.toNat % 16 = 3, value := fun vs => match vs with | [[x]] => (convert (mRound m) (mSat m) (mFtz m) (k.toNat / 16) (k.toNat % 16) x).map fun w => .words [w] | _ => none }
  | .pack2 d ea a eb b => some (twoRegs false d ea a eb b (packedTypes (mType m)) (mType m = 3) fun x y => some (packTyped (mType m) (rndOf m) x y))
  | .pack2U d ea a eb b => some (twoRegs true d ea a eb b (packedTypes (mType m)) (mType m = 3) fun x y => some (packTyped (mType m) (rndOf m) x y))
  | .unpk2 d ea a e => some (oneReg false d ea a (packedTypes (mType m)) (!isInt (mType m)) fun x => unpackTyped (mType m) (mFtz m) x e)
  | .unpk2U d ea a e => some (oneReg true d ea a (packedTypes (mType m)) (!isInt (mType m)) fun x => unpackTyped (mType m) (mFtz m) x e)
  | .add64 d ea a eb b => some (pairRegs false d ea a eb b 2 true fun x ws => x + DWord.ofHalves (ws.getD 0 0) (ws.getD 1 0))
  | .add64U d ea a eb b => some (pairRegs true d ea a eb b 2 true fun x ws => x + DWord.ofHalves (ws.getD 0 0) (ws.getD 1 0))
  | .lea d ea a eb b => some (pairRegs false d ea a eb b 1 (mType m = 0 || mType m = 1) fun x ws => x + if mType m = 0 then (ws.getD 0 0).signExtend 64 else (ws.getD 0 0).setWidth 64)
  | .leaU d ea a eb b => some (pairRegs true d ea a eb b 1 (mType m = 0 || mType m = 1) fun x ws => x + if mType m = 0 then (ws.getD 0 0).signExtend 64 else (ws.getD 0 0).setWidth 64)
  | .movw d k => some (constant false d (k.setWidth 32))
  | .movwU d k => some (constant true d (k.setWidth 32))
  | .movh d k => some (oneReg false d false d true false fun x => k ++ x.setWidth 16)
  | .movhU d k => some (oneReg true d false d true false fun x => k ++ x.setWidth 16)
  | .smov d ea a => some { unif := false, srcs := [⟨.s, a.toNat, ea, 1⟩], dst := ⟨.v, d.toNat, 1⟩, value := fun vs => match vs with | [[x]] => some (.words [x]) | _ => none }
  | _ => none

/-- R237 to R239, R248, R250: compares and classes, predicate logic, and the index registers. -/
def predTable (i : Instr) (m : BitVec 16) : Option Shape :=
  match i with
  | .cmp c d ea a eb b => some (toPred d [vSrc a ea, vSrc b eb] (allTypes (mType m)) fun vs => match vs with | [[x], [y]] => some (compareTyped c.toNat (mType m) (mFtz m) x y) | _ => none)
  | .cmpi c d ea a k => some (toPred d [vSrc a ea] (allTypes (mType m)) fun vs => match vs with | [[x]] => some (compareTyped c.toNat (mType m) (mFtz m) x (immWord (mType m) k)) | _ => none)
  | .classP d ea a k => some (toPred d [vSrc a ea] (allTypes (mType m)) fun vs => match vs with | [[x]] => some (classTyped (mType m) (mFtz m) k x) | _ => none)
  | .pand d ea a eb b => some (toPred d [pSrc a ea, pSrc b eb] true fun vs => match vs with | [[x], [y]] => some (x != 0 && y != 0) | _ => none)
  | .por d ea a eb b => some (toPred d [pSrc a ea, pSrc b eb] true fun vs => match vs with | [[x], [y]] => some (x != 0 || y != 0) | _ => none)
  | .pxor d ea a eb b => some (toPred d [pSrc a ea, pSrc b eb] true fun vs => match vs with | [[x], [y]] => some ((x != 0) != (y != 0)) | _ => none)
  | .pnot d ea a => some (toPred d [pSrc a ea] true fun vs => match vs with | [[x]] => some (x == 0) | _ => none)
  | .pmov d ea a => some (toPred d [pSrc a ea] true fun vs => match vs with | [[x]] => some (x != 0) | _ => none)
  | .xset d ea a => some { unif := false, srcs := [vSrc a ea], dst := ⟨.x, d.toNat, 1⟩, value := fun vs => match vs with | [[x]] => some (.idx (x.extractLsb' 0 8) (x.extractLsb' 8 8)) | _ => none }
  | .xadd d a k => some { unif := false, srcs := [⟨.x, a.toNat, false, 1⟩], dst := ⟨.x, d.toNat, 1⟩, value := fun vs => match vs with | [[x]] => if 0 ≤ ((x.extractLsb' 0 8).toNat : Int) + k.toInt ∧ ((x.extractLsb' 0 8).toNat : Int) + k.toInt ≤ 255 then some (.idx (x.extractLsb' 0 8 + k) (x.extractLsb' 8 8)) else none | _ => none }
  | _ => none
/-! ## Instructions that select or combine (R235, R236, R244 to R252) -/

/-- What a register source gives a thread that copies it: its token or its words; none where it is empty. -/
def copied (h : Here) (x : Src) (t : Nat) : Option (Token ⊕ Val) :=
  match readSrc h.g h.p x t with
  | .poison k => some (.inl k)
  | .words ws => some (.inr (.words ws))
  | .empty => none

/-- R235: what SEL gives a thread: the token of a poisoned guard, else a where the guard selects it and b where not. None where one
of the two, which are both read, is empty. -/
def selected (h : Here) (a b : Src) (t : Nat) : Option (Token ⊕ Val) :=
  let q := pGet h.g (mGuard h.p.mode) t
  (copied h a t).bind fun x => (copied h b t).map fun y => if q.poi then .inl q.tok else if q.val != mSense h.p.mode then x else y

/-- R245: destination, E bit and source of a lane instruction, its index operand, and the thread that thread t reads, where the
index operand holds k (none: there is none). -/
def laneTable : Instr → Option (BitVec 7 × Bool × BitVec 7 × Option Src × (Nat → Nat → Option Nat))
  | .shflIdx d ea a eb b => some (d, ea, a, some (vSrc b eb), fun _ k => some (k % 128))
  | .shflUp d ea a n => some (d, ea, a, none, fun t _ => if n.toNat ≤ t then some (t - n.toNat) else none)
  | .shflDn d ea a n => some (d, ea, a, none, fun t _ => if t + n.toNat ≤ 127 then some (t + n.toNat) else none)
  | .shflXor d ea a n => some (d, ea, a, none, fun t _ => some (t ^^^ n.toNat))
  | .bcast d ea a n => some (d, ea, a, none, fun _ _ => some n.toNat)
  | _ => none

/-- R245: the value that a lane instruction gives a thread: the token of its guard or of its index operand, else a of the source
thread where that is active on the path, else its own a. -/
def laneResult (h : Here) (a : Src) (idx : Option Src) (pick : Nat → Nat → Option Nat) (t : Nat × Option Token) : Option (Token ⊕ Val) :=
  let from' (k : Nat) : Option (Token ⊕ Val) :=
    match pick t.1 k with
    | some u => if h.p.mask.getLsbD u then copied h a u else copied h a t.1
    | none => copied h a t.1
  match t.2, idx with
  | some k, _ => some (.inl k)
  | none, none => from' 0
  | none, some x =>
    match readSrc h.g h.p x t.1 with
    | .poison k => some (.inl k)
    | .words ws => from' (ws.getD 0 0).toNat
    | .empty => none

/-- R244: the contributors: the executing threads, those with a poisoned guard left out. -/
def contributors (h : Here) : List Nat := ((vecThreads h.g h.p).filter (·.2.isNone)).map (·.1)

/-- The token of the lowest of some threads whose source is poisoned. -/
def lowestPoison (h : Here) (x : Src) (ts : List Nat) : Option Token :=
  ts.findSome? fun t => match readSrc h.g h.p x t with | .poison k => some k | _ => none

/-- R246: the predicate reads true in a thread. -/
def truth (h : Here) (x : Src) (t : Nat) : Bool := readSrc h.g h.p x t = .words [1]

/-- R246: the value that VOTE gives a contributor: all, any, or the word of the ballot that it receives. -/
def voteValue (h : Here) (x : Src) (k : BitVec 2) (t : Nat) : Token ⊕ Val :=
  if k = 2 then
    let mine := (contributors h).filter fun u => u / 32 = t % 4
    match lowestPoison h x mine with
    | some tok => .inl tok
    | none => .inr (.words [mine.foldl (fun w u => if truth h x u then w ||| (1#32 <<< (u % 32)) else w) 0])
  else match lowestPoison h x (contributors h) with
    | some tok => .inl tok
    | none => .inr (.bool (if k = 0 then (contributors h).all (truth h x) else (contributors h).any (truth h x)))

/-- R247: the combination of a register over threads in order, the first taken unchanged; the lowest poison among them wins. -/
def combined (h : Here) (x : Src) (op : Nat) (ts : List Nat) : Option (Token ⊕ Word) :=
  ts.foldl (fun acc t =>
    match acc, readSrc h.g h.p x t with
    | some (.inl k), _ => some (.inl k)
    | _, .poison k => some (.inl k)
    | none, .words ws => some (.inr (ws.getD 0 0))
    | some (.inr w), .words ws => some (.inr (combine op h.p.mode w (ws.getD 0 0)))
    | acc, .empty => acc) none

/-- R247: the value of a thread after its combination; `e` where nothing was combined. -/
def combinedOr (e : Word) : Option (Token ⊕ Word) → Token ⊕ Val
  | none => .inr (.words [e])
  | some (.inl k) => .inl k
  | some (.inr w) => .inr (.words [w])

/-- R247: what QSCAN gives a contributor: the combination of the contributors up to it, or before it when exclusive. -/
def scanValue (h : Here) (x : Src) (op : Nat) (excl : Bool) (t : Nat) : Token ⊕ Val :=
  combinedOr (identity op (mType h.p.mode))
    (combined h x op ((contributors h).filter fun u => if excl then u < t else u ≤ t))

/-- R247: what REDUCE gives every contributor: the combination of all. -/
def reduceValue (h : Here) (x : Src) (op : Nat) : Token ⊕ Val := combinedOr 0 (combined h x op (contributors h))

/-- The token of a poisoned guard before a result. -/
def guarded (t : Nat × Option Token) (r : Token ⊕ Val) : Token ⊕ Val := match t.2 with | some k => .inl k | none => r

/-- R251: the register that an index register and an offset name, where it lies in the window and below the budget. -/
def indexed (h : Here) (x : Nat) (off : Word) (t : Nat) : Option Nat :=
  let q := xGet h.g x t
  let n := q.base.toNat + off.toNat
  if n < q.bound.toNat ∧ n < 8 * h.g.budget then some n else none

/-- R251: what MOVX gives a thread; none for an empty register or new poison. -/
def movxResult (h : Here) (x : Nat) (b : Src) (t : Nat × Option Token) : Option (Token ⊕ Val) :=
  match t.2 with
  | some k => some (.inl k)
  | none =>
    let q := xGet h.g x t.1
    match readSrc h.g h.p b t.1 with
      | .empty => none
      | .poison k => some (.inl (if q.poi then q.tok else k))
      | .words ws => if q.poi then some (.inl q.tok) else (indexed h x (ws.getD 0 0) t.1).bind fun n =>
          let r := vGet h.g n t.1
          if !r.full then none else if r.poi then some (.inl (r.val.setWidth 10)) else some (.inr (.words [r.val]))

/-- R252: what MOVXW does in a thread: the index register keeps a token or takes that of a, or a register takes b, with the
guard's token in its place where that is poisoned. None for new poison and where a or, under a clean guard, b is empty. -/
def movxwResult (h : Here) (x : Nat) (a b : Src) (t : Nat × Option Token) : Option (Token ⊕ (Nat × (Token ⊕ Val))) :=
  let q := xGet h.g x t.1
  if t.2.isNone ∧ readSrc h.g h.p b t.1 = .empty then none
  else match readSrc h.g h.p a t.1 with
    | .empty => none
    | .poison k => some (.inl (if q.poi then q.tok else k))
    | .words ws => if q.poi then some (.inl q.tok) else (indexed h x (ws.getD 0 0) t.1).bind fun n =>
        match t.2 with
        | some k => some (.inr (n, .inl k))
        | none => (copied h b t.1).map fun r => .inr (n, r)

/-! ## Control flow (R180 to R197) -/

/-- A word of a path changes only its own group, into `g'`. -/
def GroupStep (i : Instr) (s : State) (g' : Group) : Prop := ∃ t, exec i s = .next t ∧ OnlyGroup s t g'

/-- A word of a path changes only its own group, into `g'`, and then leaves a flow record (R450) of a kind with the target and
the threads that went there; without trace there is no record. -/
def FlowStep (i : Instr) (s : State) (h : Here) (g' : Group) (what : Nat) (target : DWord) (m : Mask) : Prop :=
  ∃ t, OnlyGroup s t g' ∧ exec i s = .next (traceFlow t h.g.id what target m) ∧
    (debugBit s h.w.ctx 0 = false → exec i s = .next t)

/-- R180 to R184, R192 to R194: what the words that only set the state of their path or group leave in it: the path, the rename
table and the staged blocks. -/
def settingTable (h : Here) : Instr → Option (Path × SMap Rename × List Nat)
  | .nop => some (h.p, h.g.ren, h.g.staged)
  | .nopU => some (h.p, h.g.ren, h.g.staged)
  | .meldend => some ({ h.p with meld := none }, if h.p.meld.isSome then [] else h.g.ren, h.g.staged)
  | .rnclr => some (h.p, [], h.g.staged)
  | .mode k => some ({ h.p with mode := k }, h.g.ren, h.g.staged)
  | .modeg k =>
    some ({ h.p with mode := k.extractLsb' 12 4 ++ h.p.mode.extractLsb' 5 7 ++ k.extractLsb' 3 2 ++ h.p.mode.extractLsb' 0 3 },
      h.g.ren, h.g.staged)
  | .stage k =>
    if (stagedBlocks k).all (· < h.g.budget) then some (h.p, h.g.ren, stagedBlocks k) else none
  | .reconv o =>
    if h.p.meld.isSome then none
    else some ({ h.p with pend := some { pc := branchTarget h.p.pc o, mode := h.p.mode, rstack := h.p.rstack } }, h.g.ren, h.g.staged)
  | .rnset n a b =>
    if a.toNat < 8 * h.g.budget ∧ b.toNat < 8 * h.g.budget then some (h.p, sins h.g.ren n.toNat { src := a, dst := b }, h.g.staged)
    else none
  | _ => none

/-- R185, R188: the predicate of a branch is full and clean in every active thread. -/
def cleanPredicate (h : Here) (p : BitVec 3) : Prop :=
  ∀ t ∈ threadsOf h.p.mask, (pGet h.g p.toNat t).full = true ∧ (pGet h.g p.toNat t).poi = false

/-- R185: the active threads whose predicate, turned by the sense, is true. -/
def takenBy (h : Here) (p : BitVec 3) (sen : Bool) : Mask :=
  maskOf fun t => h.p.mask.getLsbD t && ((pGet h.g p.toNat t).val != sen)

/-- R185, R186, R188: what a divergent word leaves when the threads `taken` of its path go to `target` with return stack
`rstack` and the others to `fpc`, where the join point is pending again when `again` is set: no thread or every thread taken
leaves one path; else a top split makes two paths, and a nested split pushes the others (under a merge entry, where a join
point is pending). That the taken side of a top split is the path with the other number, and the fall side keeps its own, is the
model's choice: the rules number no path (log entry 23). -/
def SplitTo (h : Here) (g' : Group) (taken : Mask) (target fpc : DWord) (again : Bool) (rstack : List DWord) : Prop :=
  let fall := h.p.mask &&& ~~~taken
  let go : Path := { h.p with pc := target, mask := taken, pend := none, park := .running, rstack := rstack }
  let rest : Path := { h.p with pc := fpc, mask := fall, pend := if again then h.p.pend else none, park := .running }
  g' = { h.g with retired := h.g.retired + 1, paths := g'.paths, stack := g'.stack, topJoin := g'.topJoin } ∧
  if taken = 0 then
    sfind g'.paths h.pid = some { h.p with pc := fpc, pend := none, park := .running } ∧
      (∀ q, q ≠ h.pid → sfind g'.paths q = sfind h.g.paths q) ∧ g'.stack = h.g.stack ∧ g'.topJoin = h.g.topJoin
  else if taken = h.p.mask then
    sfind g'.paths h.pid = some go ∧ (∀ q, q ≠ h.pid → sfind g'.paths q = sfind h.g.paths q) ∧
      g'.stack = h.g.stack ∧ g'.topJoin = h.g.topJoin
  else if h.g.topSplit h.pid then
    sfind g'.paths (1 - h.pid) = some go ∧ (1 - h.pid ≠ h.pid → sfind g'.paths h.pid = some rest) ∧
      g'.stack = h.g.stack ∧ g'.topJoin = h.p.pend
  else
    sfind g'.paths h.pid = some go ∧ (∀ q, q ≠ h.pid → sfind g'.paths q = sfind h.g.paths q) ∧ g'.topJoin = h.g.topJoin ∧
      g'.stack = h.g.stack ++
        (match h.p.pend with
          | some j => [{ kind := .merge, owner := h.pid, pc := 0, mask := h.p.mask, mode := j.mode, rstack := j.rstack, join := some j }]
          | none => []) ++
        [{ kind := .deferred, owner := h.pid, pc := fpc, mask := fall, mode := h.p.mode, rstack := h.p.rstack, join := h.p.pend,
           repend := again }]

/-- R188: the target of a thread, bits [1:0] ignored, where its pair is clean. -/
def pairTarget (h : Here) (a : BitVec 7) (ea : Bool) (t : Nat) : Option DWord :=
  match readSrc h.g h.p { file := .v, reg := a.toNat, e := ea, n := 2 } t with
  | .words ws => some (DWord.ofHalves (ws.getD 0 0) (ws.getD 1 0) &&& ~~~3#64)
  | _ => none

/-- R188: the threads whose target is that of the lowest active thread. -/
def sameTarget (h : Here) (a : BitVec 7) (ea : Bool) (target : DWord) : Mask :=
  maskOf fun t => h.p.mask.getLsbD t && (pairTarget h a ea t == some target)

/-- R178: what a word that fails a check leaves: its event is raised; where the action lets the group resume the word retires as
NOP, and else the group stands. -/
def Illegal (i : Instr) (s : State) (h : Here) (word : Word) (reason : Nat) : Prop :=
  let e := illegalEvent s h word reason
  let t := raise s e
  let t := { t with ctl := { t.ctl with rejected := true } }
  exec i s = .next (if actionOf s e < 3 then retire t h else t.modGroup h.g.id fun g => { g with stop := .context })

/-- R195: words that fail check 7 inside a melded region whatever their operands are; BRX, CALLX and REGROUP stand apart. -/
def notMelded : Instr → Bool
  | .ret | .join | .bra _ _ _ | .brc _ _ _ | .call _ | .reconv _ | .span _ _ | .commit _ _ | .meld _ _ => true
  | _ => false

/-- R190: the path goes on at an address with its mask and all else. -/
def PathAt (g' : Group) (pid : Nat) (p : Path) : Prop := sfind g'.paths pid = some p

/-! ## Spans and poison (R42 to R66, R195 to R201) -/

/-- R199: the word that PCAUSE writes for a token: bit 31, the token, and the cause of the record that it names. -/
def causeWord (s : State) (h : Here) (k : Token) : Word :=
  (1#1 : BitVec 1) ++ (0#5 : BitVec 5) ++ k ++ (0#10 : BitVec 10) ++
    ((recordAt s h.w.coreNo k).elim (0 : Cause) (·.cause) : BitVec 6)

/-- R45, R200: word n of the record that a token names, or of the overflow record. -/
def originWord (s : State) (h : Here) (n : Nat) (k : Token) : Word :=
  if k = 0x3FF then
    let side : Side := sget {} s.exe.sides h.w.coreNo
    [side.lost.setWidth 32, (side.lost >>> 32).setWidth 32, side.lostMask.setWidth 32, (side.lostMask >>> 32).setWidth 32].getD n 0
  else ((recordAt s h.w.coreNo k).elim [] recordWords).getD n 0

/-- R198 to R201: uniform or not, destination, source, and the word written for a token or for a clean word, of the instructions
that read poison as data. -/
def inspectTable (s : State) (h : Here) : Instr → Option (Bool × BitVec 7 × Bool × BitVec 7 × (Token ⊕ Word → Word))
  | .pcause d ea a => some (false, d, ea, a, fun | .inl k => causeWord s h k | .inr _ => 0)
  | .pcauseU d ea a => some (true, d, ea, a, fun | .inl k => causeWord s h k | .inr _ => 0)
  | .pclr d ea a => some (false, d, ea, a, fun | .inl _ => 0 | .inr w => w)
  | .pclrU d ea a => some (true, d, ea, a, fun | .inl _ => 0 | .inr w => w)
  | .porig d ea a n =>
    if n.getLsbD 3 then none else some (false, d, ea, a, fun | .inl k => originWord s h n.toNat k | .inr _ => 0)
  | .porigU d ea a n =>
    if n.getLsbD 3 then none else some (true, d, ea, a, fun | .inl k => originWord s h n.toNat k | .inr _ => 0)
  | _ => none

/-- R48, R49: what an inspecting instruction reads in a thread; none where the source is empty. -/
def inspected (h : Here) (x : Src) (f : Token ⊕ Word → Word) (t : Nat × Option Token) : Option (Token ⊕ Val) :=
  match t.2 with
  | some k => some (.inl k)
  | none =>
    match readSrc h.g h.p x t.1 with
    | .poison k => some (.inr (.words [f (.inl k)]))
    | .words ws => some (.inr (.words [f (.inr (ws.getD 0 0))]))
    | .empty => none

/-- R47, R201, R226, R241, R250: the instructions and operands that make new poison in a thread of clean sources, with its cause
and the address that its record names. -/
def newPoison (i : Instr) (m : BitVec 16) (vs : List (List Word)) : Option (Cause × Option DWord) :=
  match i with
  | .div _ _ _ _ _ => if (typedTable i m).any (fun x => x.ok && (x.value vs).isNone) then some (causeDivZero, none) else none
  | .divU _ _ _ _ _ => if (typedTable i m).any (fun x => x.ok && (x.value vs).isNone) then some (causeDivZero, none) else none
  | .rem _ _ _ _ _ => if (typedTable i m).any (fun x => x.ok && (x.value vs).isNone) then some (causeDivZero, none) else none
  | .remU _ _ _ _ _ => if (typedTable i m).any (fun x => x.ok && (x.value vs).isNone) then some (causeDivZero, none) else none
  | .cvt _ _ _ _ => if (moveTable i m).any (fun x => (x.value vs).isNone) then some (causeRange, none) else none
  | .cvtU _ _ _ _ => if (moveTable i m).any (fun x => (x.value vs).isNone) then some (causeRange, none) else none
  | .xadd _ _ _ => if (predTable i m).any (fun x => (x.value vs).isNone) then some (causeBounds, none) else none
  | .pmake _ _ _ => some (causeProgram, some (((vs.getD 0 []).getD 0 0).setWidth 64))
  | .pmakeU _ _ _ => some (causeProgram, some (((vs.getD 0 []).getD 0 0).setWidth 64))
  | _ => none

/-- The shape of an instruction that may make new poison. -/
def poisonTable (i : Instr) (m : BitVec 16) : Option Shape :=
  match i with
  | .pmake d ea a => some { unif := false, srcs := [rSrc false a ea], dst := rDst false d, value := fun _ => none }
  | .pmakeU d ea a => some { unif := true, srcs := [rSrc true a ea], dst := rDst true d, value := fun _ => none }
  | i => ((typedTable i m).or (moveTable i m)).or (predTable i m)

/-! ## Barriers, waits, identity and system words (R202 to R216, R13 to R16, R29 to R32) -/

/-- R55: no thread of the path has its span open. -/
def closedSpan (h : Here) : Prop := h.p.mask &&& h.g.span.opened = 0

/-- A word that retires, goes on at the next word and changes of its group only what `f` changes, and nothing else. -/
def Sets (i : Instr) (s : State) (h : Here) (f : Group → Group) : Prop :=
  ∃ g', GroupStep i s g' ∧ WentOn h g' (nextPc h.p.pc) ∧ g' = { f h.g with retired := g'.retired, paths := g'.paths }

/-- R9: a word that parks its path and changes nothing else. -/
def Parks (i : Instr) (s : State) (h : Here) (k : Park) : Prop :=
  ∃ g', GroupStep i s g' ∧ g' = { h.g with paths := g'.paths } ∧ PathAt g' h.pid { h.p with park := k } ∧
    ∀ q, q ≠ h.pid → sfind g'.paths q = sfind h.g.paths q

/-- A word that retires and goes on at the next word with its group in `g'`; every byte of memory and everything outside the
cores is as it was. -/
def Done (i : Instr) (s : State) (h : Here) (t : State) (g' : Group) : Prop :=
  exec i s = .next t ∧ (∀ a, memByte t.mem a = memByte s.mem a) ∧ t.host = s.host ∧ t.group h.g.id = some g' ∧
    WentOn h g' (nextPc h.p.pc)

/-- R211 to R213: uniform or not, destination, and the word that a thread reads, of the words that read identity and system
values. Reading cyc_lo (number 3), which also latches, stands apart. -/
def readTable (s : State) (h : Here) : Instr → Option (Bool × BitVec 7 × (Nat → Word))
  | .getid d k => some (false, d, fun t => BitVec.ofNat 32 (sget 0 h.g.coord (128 * k.toNat + t)))
  | .getidU d k => some (true, d, fun _ => BitVec.ofNat 32 (sget 0 h.g.coord (128 * k.toNat + firstActive h)))
  | .getsys d n => some (false, d, fun _ => sysItem s h n.toNat)
  | .getsysU d n => some (true, d, fun _ => sysItem s h n.toNat)
  | .sysr d n => if n = 3 then none else some (false, d, fun t => sysReg s h t n.toNat)
  | .sysrU d n => if n = 3 then none else some (true, d, fun _ => sysReg s h (firstActive h) n.toNat)
  | _ => none

/-- R204: the groups whose bits are in an arrival mask complete the phase of a barrier of a workgroup. -/
def phaseDue (s : State) (w : WG) (arrived : BitVec 16) (count : Nat) : Bool :=
  if count = 0 then
    s.exe.groups.all fun kg => kg.2.wg ≠ w.id || kg.2.exited = BitVec.allOnes 128 || arrived.getLsbD kg.2.pos
  else count ≤ ((List.range 16).filter (arrived.getLsbD ·)).length

/-- R204: a barrier after the group of the path has arrived. -/
def arrivedAt (s : State) (h : Here) (b c : Nat) : Barrier :=
  let bar : Barrier := sget {} h.w.bars b
  let arrived := bar.arrived ||| (1#16 <<< h.g.pos)
  if phaseDue s h.w arrived c then { gen := bar.gen + 1, arrived := 0, need := none }
  else { gen := bar.gen, arrived := arrived, need := some c }

/-- R102, R204: a group may arrive at a barrier now: one path with threads, closed span, no access of its threads waiting, not
arrived in this phase, and no other count in this phase. -/
def mayArrive (s : State) (h : Here) (b c : Nat) : Prop :=
  closedSpan h ∧ otherPath h = none ∧ accessesWaiting s h.g.id (threadsOf h.p.mask) false = false ∧
    (sget ({} : Barrier) h.w.bars b).arrived.getLsbD h.g.pos = false ∧
    ((sget ({} : Barrier) h.w.bars b).need = none ∨ (sget ({} : Barrier) h.w.bars b).need = some c)

/-! ## Memory (R253 to R285) -/

/-- The register that a long-latency destination names. -/
def regAt (g : Group) (x : Dest) : Reg := if x.file = 0 then vGet g x.reg x.t else sGet g x.reg

/-- R160: a result of a thread is in flight for the word of the path. -/
def InFlight (t : State) (h : Here) (th : Nat) (what : Delivery) : Prop :=
  ∃ n p, sfind t.exe.pendings n = some p ∧ p.gid = h.g.id ∧ p.t = th ∧ p.pc = h.p.pc ∧ p.what = what

/-- R160, R49: the destination registers of the executing threads are empty, those of a thread with a poisoned guard hold its
token, and every other register is as it was. -/
def AwaitsResults (h : Here) (g' : Group) (d : Dst) (ths : List (Nat × Option Token)) : Prop :=
  (∀ t ∈ ths, ∀ x ∈ destsOf h.g h.p d t.1,
    match t.2 with
    | none => (regAt g' x).full = false
    | some k => regAt g' x = poisonReg k) ∧
  (∀ n t, t < 128 → (∀ u ∈ ths, (⟨0, n, t⟩ : Dest) ∉ destsOf h.g h.p d u.1) → vGet g' n t = vGet h.g n t) ∧
  (∀ n, (∀ u ∈ ths, (⟨1, n, 0⟩ : Dest) ∉ destsOf h.g h.p d u.1) → sGet g' n = sGet h.g n) ∧ g'.p = h.g.p ∧ g'.x = h.g.x

/-- R87, R88: a word of memory that some agents find at once with one value: no error, no poison, not homed on the host, and of its
coherence order no write but the latest may be returned to them (to a reader of the constant path: there is at most one). -/
def settledWord (s : State) (ags : List Nat) (a : Nat) : Prop :=
  eccBad s a = false ∧ wordPoi s.mem a = false ∧ regionOf a ≠ .host ∧
    (readable s.mem (ags.foldl (fun n g => max n (sget 0 (floorsOf s.mem g) a)) 0) a).length ≤ 1

/-- R456: the context has no watchpoint on. -/
def unwatched (s : State) (h : Here) : Prop := debugBit s h.w.ctx 4 = false

/-- R260, R261: the form of a load in the mode of its path; none where the type is not listed for its size. -/
def loadForm (unif scratch const : Bool) (d : BitVec 7) (ea : Bool) (a : BitVec 7) (sz : BitVec 2) (k : BitVec 6) (m : BitVec 16) :
    Option LoadForm :=
  (loadConvOf sz (mType m)).map fun c =>
    { unif := unif, scratch := scratch, const := const, size := unitSize sz, conv := c, src := rSrc unif a ea (if scratch then 1 else 2)
      off := memOffset (unitSize sz) k, dst := rDst unif d (if sz = 1 then 2 else 1) }

/-- R260: the loads. -/
def loadTable (i : Instr) (m : BitVec 16) : Option LoadForm :=
  match i with
  | .ld d ea a sz k => loadForm false false false d ea a sz k m
  | .ldU d ea a sz k => loadForm true false false d ea a sz k m
  | .lds d ea a sz k => loadForm false true false d ea a sz k m
  | .ldsU d ea a sz k => loadForm true true false d ea a sz k m
  | .ldc d ea a sz k => loadForm false false true d ea a sz k m
  | .ldcU d ea a sz k => loadForm true false true d ea a sz k m
  | _ => none

/-- R261, R262: the bytes that a store writes; none where a conversion of I8 finds its source out of range. -/
def storedBytes (conv : Option (Word → Option Byte)) (ws : List Word) : Option (List Byte) :=
  match conv with
  | none => some (ws.flatMap bytesOfWord)
  | some c => (c (ws.headD 0)).map fun b => [b]

/-- What a word that writes memory leaves of its group: its monitor may have taken the flag of R82. -/
def OnlyMonitor (h : Here) (g' : Group) : Prop := g' = { h.g with mon := g'.mon, retired := g'.retired, paths := g'.paths }

/-- R265: op (its value less 0x70), data and destination register, address register, r, w and offset of the atomics. -/
def atomicTable : Instr → Option (Nat × BitVec 7 × Bool × BitVec 7 × Bool × Bool × BitVec 6)
  | .aadd d ea a r w k => some (0, d, ea, a, r, w, k)
  | .afadd d ea a r k => some (1, d, ea, a, r, false, k)
  | .amin d ea a r w k => some (2, d, ea, a, r, w, k)
  | .amax d ea a r w k => some (3, d, ea, a, r, w, k)
  | .aand d ea a r w k => some (4, d, ea, a, r, w, k)
  | .aor d ea a r w k => some (5, d, ea, a, r, w, k)
  | .axor d ea a r w k => some (6, d, ea, a, r, w, k)
  | .axch d ea a r w k => some (7, d, ea, a, r, w, k)
  | .acas d ea a r w k => some (8, d, ea, a, r, w, k)
  | .ainc d ea a r w k => some (9, d, ea, a, r, w, k)
  | _ => none

/-- R265: the integer atomics on values of one width: m is the old value, x and y the operands. -/
def atomicInt (op : Nat) (signed : Bool) {w : Nat} (m x y : BitVec w) : BitVec w :=
  let less (u v : BitVec w) : Bool := if signed then u.slt v else u.ult v
  match op with
  | 0 => m + x
  | 2 => if less x m then x else m
  | 3 => if less m x then x else m
  | 4 => m &&& x
  | 5 => m ||| x
  | 6 => m ^^^ x
  | 7 => x
  | 8 => if m = x then y else m
  | _ => if x ≤ m then 0 else m + 1

/-- R265: the bytes that an atomic leaves: from the old words and its data words. -/
def atomicBytes (op : Nat) (wide signed : Bool) (old ws : List Word) : List Byte :=
  if wide then
    let new := atomicInt op signed (DWord.ofHalves (old.getD 0 0) (old.getD 1 0)) (DWord.ofHalves (ws.getD 0 0) (ws.getD 1 0))
      (DWord.ofHalves (ws.getD 2 0) (ws.getD 3 0))
    bytesOfWord (DWord.halves new).1 ++ bytesOfWord (DWord.halves new).2
  else if op = 1 then bytesOfWord ((binTyped .add 2 ⟨0, false, false⟩ (old.getD 0 0) (ws.getD 0 0)).getD 0)
  else bytesOfWord (atomicInt op signed (old.getD 0 0) (ws.getD 0 0) (ws.getD 1 0))

/-- The words at rising addresses. -/
def wordsAt (m : MemSys) (a n : Nat) : List Word := (List.range n).map fun k => memWord m (a + 4 * k)

/-- R285: uniform or not, data register, worklist, and whether it pushes a range, of the pushes. -/
def pushTable : Instr → Option (Bool × BitVec 7 × BitVec 4 × Bool)
  | .wlpush d w => some (false, d, w, false)
  | .wlpushU d w => some (true, d, w, false)
  | .wlpushr d w => some (false, d, w, true)
  | .wlpushrU d w => some (true, d, w, true)
  | _ => none

/-- R129, R285: the entry that a push makes of its four registers. -/
def pushedEntry (range : Bool) (ws : List Word) : Entry :=
  ⟨ws.getD 0 0, if range then (1#4 : BitVec 4) ++ (ws.getD 1 0).extractLsb' 0 28 else ws.getD 1 0, ws.getD 2 0, ws.getD 3 0⟩

/-- What a push of one thread leaves of its group: the word retired, and the watchdog counter is zero. -/
def Pushed (i : Instr) (s : State) (h : Here) (t : State) : Prop :=
  exec i s = .next t ∧ t.mem = s.mem ∧ ∃ g', t.group h.g.id = some g' ∧ WentOn h g' (nextPc h.p.pc) ∧
    g' = { h.g with wdog := 0, retired := g'.retired, paths := g'.paths }

/-! ## Queues, worklists and matrices read from a group (R274 to R309) -/

/-- R275, R301, R308: sources, destination and the word of the uniform words that read a status: of a queue pair, of a tile's
progress, of a tile descriptor. -/
def statusTable (s : State) (h : Here) : Instr → Option (List Src × BitVec 7 × (List (List Word) → Word))
  | .qstat d q => some ([], d, fun _ => queueStatus s h.g q.toNat)
  | .mprog d c => if c.toNat < h.w.ntiles then some ([], d, fun _ => progressWord (sget {} h.w.tiles c.toNat)) else none
  | .tdesc d ea a => some ([rSrc true a ea 4], d, fun vs =>
      let t := TDesc.of (vs.getD 0 [])
      if t.base.extractLsb' 55 9 ≠ 0 then 1
      else if t.base.toNat % 16 ≠ 0 ∨ t.stride.toNat % 16 ≠ 0 then 2
      else if t.nk = 0 ∨ 4096 < t.nk then 3
      else if t.w3.extractLsb' 13 16 ≠ 0 then 4
      else 0)
  | _ => none

/-- R139, R286: what a word that acts on a worklist leaves of its group besides registers and tasks. -/
def OnlyWork (h : Here) (g' : Group) : Prop :=
  g' = { h.g with v := g'.v, p := g'.p, held := g'.held, wdog := 0, retired := g'.retired, paths := g'.paths }

/-- R126: a worklist after a descriptor with enable set was applied. -/
def Configured (l : Worklist) (ws : List Word) : Prop :=
  l.state = 1 ∧ l.bound = ((ws.getD 0 0).extractLsb' 0 10).toNat ∧ l.shift = ((ws.getD 0 0).extractLsb' 21 5).toNat ∧
    l.fabric = (ws.getD 0 0).getLsbD 29 ∧ l.armed = (ws.getD 0 0).getLsbD 30 ∧ l.spsize = (ws.getD 4 0).toNat ∧
    ∀ k, (l.unit k).queued = [] ∧ (l.unit k).parked = []

/-- R295: whether MMAS. -/
def mmaWord (scaled : Bool) (c : BitVec 3) (ea : Bool) (a : BitVec 7) (sl : BitVec 3) : Instr :=
  if scaled then .mmas c ea a sl else .mma c ea a sl

/-- R295, R297: the block of an arrival with clean registers. -/
def blockWords (h : Here) (a : BitVec 7) (scaled : Bool) : List Word :=
  (List.range (if scaled then 16 else 8)).map fun k => (sGet h.g (a.toNat + k)).val

/-- R307: the token or the value of an element of a tile. -/
def tileElement (x : Tile) (b : Word) : Token ⊕ Val :=
  if sget false x.poi (b.toNat % 4096) then .inl (x.tok.getD 0x3FF) else .inr (.words [sget 0 x.elems (b.toNat % 4096)])


/-! ## What no path issues: engines, arrivals, the distributors, the host and the fabric (they answer a next state in every state) -/

/-- A group but for its monitor, which a write to memory may set (R82). -/
def quiet (g : Group) : Group := { g with mon := {} }

/-- Every group is what it was but for its monitor. -/
def SameGroups (s t : State) : Prop := ∀ k, (t.group k).map quiet = (s.group k).map quiet

/-- Every byte of memory is what it was. -/
def SameBytes (s t : State) : Prop := ∀ b, memByte t.mem b = memByte s.mem b

/-- R434: where a partition counts the events of a class and source. -/
def eventCounter (part cls src : Nat) : Nat := 0x16000 + 0x400 * part + 32 * cls + 4 * src

/-- R276 to R279: an operation of a queue and command that has a word to move. -/
def MayMove (s : State) (n : Nat) (o : EngOp) (q cmd : Nat) : Prop :=
  getOp s n = some o ∧ o.id = n ∧ o.q = q ∧ ((cw o.words 0).extractLsb' 28 4).toNat = cmd ∧ o.killed = false ∧ o.started = true ∧
    4 * o.pos < o.total

/-- R279: where a destination word of an operation lies in this package, and the state in which the device has noted the write. -/
def LandsAt (s1 : State) (n : Nat) (scratch : Bool) (unit : Nat) (lead va : DWord) (pa : Nat) (s2 : State) : Prop :=
  ∃ o1, getOp s1 n = some o1 ∧ engLook s1 o1 scratch { write := true } unit lead va = (.loc pa, s1) ∧
    engBlocked s1 o1 scratch pa = false ∧ (scratch = true → (findWg s1 o1.wg).any (·.reserves va.toNat) = false) ∧
    (if scratch then some s1 else noteWrite s1 o1.ctx none va pa) = some s2

/-- R279: an event of an engine moved the next word of an operation: `w` was written at `pa`. -/
def WordMoved (i : Instr) (s s2 : State) (o : EngOp) (pa : Nat) (w : Word) : Prop :=
  ∃ t o', exec i s = .next t ∧ getOp t o.id = some o' ∧ o'.pos = o.pos + 1 ∧ o'.moved = o.moved + 4 ∧ o'.failed = o.failed ∧
    o'.words = o.words ∧ (∀ b, memByte t.mem b = memByte (setBytes s2.mem pa (bytesOfWord w)) b) ∧ SameGroups s2 t

/-- R278: the update of REDUCE_INTO, by the operation and type of its header: m is the old word, x the source word. -/
def reducedWord (h m x : Word) : Word :=
  let op := (h.extractLsb' 14 3).toNat
  let ty := (h.extractLsb' 12 2).toNat
  let less (u v : Word) : Bool := if ty = 0 then u.slt v else u.ult v
  if ty = 2 then (binTyped (if op = 0 then .add else if op = 1 then .min else .max) 2 ⟨0, false, false⟩ m x).getD 0
  else if op = 0 then m + x
  else if op = 1 then if less x m then x else m
  else if less m x then x else m

/-- R274: an access in flight reads a result queue. -/
def readsQueue (w : Delivery) (q : Nat) : Bool :=
  match w with
  | .result q' _ _ => q' / 2 = q / 2
  | _ => false


/-- What an event leaves of the group with a name. -/
def GroupEvent (i : Instr) (s : State) (gid : Nat) (P : State → Group → Prop) : Prop :=
  ∃ t g', exec i s = .next t ∧ t.group gid = some g' ∧ P t g'


/-- A unit of a worklist of a context. -/
def unitAt (s : State) (ctx list u : Nat) : WLUnit := (getList s ctx list).unit u

/-- The entries queued at a unit, in their order. -/
def queuedEntries (x : WLUnit) : List Entry := x.queued.map (·.entry)

/-- An event of a worklist changes nothing but what the host's side of the machine holds. -/
def ListEvent (i : Instr) (s : State) (P : State → Prop) : Prop := ∃ t, exec i s = .next t ∧ t.mem = s.mem ∧ t.exe = s.exe ∧ P t


/-- R159, R164, R360: what a group holds at its start. -/
def StartsAs (g : Group) (l : Launch) (wg pos role : Nat) (r : Role) (unit num : Nat) : Prop :=
  g.wg = wg ∧ g.pos = pos ∧ g.role = role ∧ g.budget = r.blocks ∧ g.exited = ~~~(maskOf (· < threadsPerGroup l)) ∧
    g.paths = [(0, { pc := r.pc, mask := maskOf (· < threadsPerGroup l), mode := 0x0018 })] ∧
    sGet g 0 = cleanReg l.argp.halves.1 ∧ sGet g 1 = cleanReg l.argp.halves.2 ∧ sGet g 60 = cleanReg l.stackb ∧
    sGet g 61 = cleanReg l.stackOff ∧ g.v = [] ∧ g.p = [] ∧ g.x = [] ∧ g.stack = [] ∧
    ∀ k t, 0 < k → k < l.levels.length → t < threadsPerGroup l → sget 0 g.coord (128 * k + t) = threadCoord l unit num pos t k

/-- R30, R31: the words that the distributor leaves in a mailbox: status, coordinates from the level above the workgroup, number. -/
def mailboxWord (l : Launch) (seq : BitVec 16) (granted : Option (Nat × Nat)) (n : Nat) : Word :=
  if n = 0 then seq ++ 0#13 ++ (if granted.isSome then 0#2 else 1#2) ++ 1#1
  else match granted with
    | none => 0
    | some (u, k) =>
      if n = 7 then BitVec.ofNat 32 k
      else if levelWith l 2 < n + 1 ∧ n + 1 < l.levels.length then BitVec.ofNat 32 (wgCoord l u k (n + 1)) else 0


/-- R379: a command of channel 1 answers with a code and a detail and changes nothing else. -/
def Answers (i : Instr) (s : State) (channel code detail : Nat) : Prop :=
  exec i s = .next (s.send (.reply channel (BitVec.ofNat 32 (256 * detail + code))))

/-- The management words but for those in a list are what they were. -/
def OnlyWords (s t : State) (offs : List Nat) : Prop := ∀ o, o ∉ offs → t.mgmt o = s.mgmt o


/-- R405: a packet of a response that is taken at once: it answers the request `r` on the chord `d`. -/
def Responds (s : State) (c : Nat) (p : Packet) (d : Nat) (r : Request) : Prop :=
  p.vc ≠ 3 ∧ (∀ x ∈ (getChord s c).inq, x.vc ≠ p.vc) ∧ requestFor s c p = some (d, r)

/-- R403, R412: a packet of a request that is admitted and taken at once. -/
def Admitted (s : State) (c : Nat) (p : Packet) (n : Nat) : Prop :=
  p.vc ≠ 3 ∧ (∀ x ∈ (getChord s c).inq, x.vc ≠ p.vc) ∧ inboundStatus s p n = 0 ∧ requestBlocked s p n = false

/-- R401: a flit of a type that has arrived undamaged on a chord that is up. -/
def GoodFlit (s : State) (c : Nat) (l : List Byte) (type : BitVec 2) : Prop :=
  (getChord s c).state = 2 ∧ flitGood l = true ∧ (flitHead l).type = type

/-- R417, R424: a command of channel 2 that needs the firmware: nothing answers while VOCL is down, and the ROM answers that it is not
ready. -/
def NeedsFirmware (i : Instr) (s : State) : Prop :=
  (ready s 4 = false → exec i s = .next s) ∧ (ready s 4 = true → served s = false → Answers i s 2 5 0)

/-- R424: a command of channel 2 succeeds: it changes the firmware store alone, and answers. -/
def StoreBecomes (i : Instr) (s : State) (f : Firmware) : Prop :=
  exec i s = .next ({ s with host := { s.host with fw := f } }.send (.reply 2 0))

/-- R427, R428: what makes a checkpoint start fail: a bad field, and an engine that is not ready. -/
def ckWrong (s : State) (p : Nat) : Bool := 4 ≤ p || !ckFieldsOk s p

/-- R430: the words at rising addresses of memory. -/
def WordsAt (s : State) (a : Nat) (ws : List Word) : Prop := ∀ k, k < ws.length → memWord s.mem (a + 4 * k) = ws.getD k 0

/-- Two ranges of addresses have no address in common. -/
def apart (a n b m : Nat) : Prop := a + n ≤ b ∨ b + m ≤ a

/-- Every group stands under its own name, and once. -/
def namedGroups (s : State) : Prop := (∀ kg ∈ s.exe.groups, kg.2.id = kg.1) ∧ (skeys s.exe.groups).Nodup

/-- The state in which the first act of an agenda is performed. -/
def State.taken (s : State) (rest : List Turn) : State := { s with ctl := { s.ctl with agenda := rest } }

/-- An access of the host, which faults at an address that the host does not reach. -/
def hostAccess : Instr → Bool
  | .hostWrite _ _ _ | .hostRead _ _ | .cxlMemRead _ _ => true
  | _ => false

end Sys2Proof.Machine

/-! ## The statements -/

section

open Sys2Proof Sys2Proof.Machine

/-- R12, R40, R48, R161, R177, R219, R220, R222 to R226. -/
def Claim.TypedOperationResults : Prop := Results typedTable

/-- R223, R225, R228. -/
def Claim.UnaryAndSpecialFunctionResults : Prop := Results unaryTable

/-- R12, R40, R48, R161, R177, R219, R220, R222 to R226, R228. -/
def Obligations.ArithmeticResults : Prop :=
  Claim.TypedOperationResults ∧ Claim.UnaryAndSpecialFunctionResults

/-- R230 to R234. -/
def Claim.BitOperationResults : Prop := Results bitTable

/-- R227, R234, R236, R241 to R243. That UNPK2 of a BF16 NaN under bf16 gives the default NaN of fp32 is the model's choice (log
entry 34). -/
def Claim.MoveAndConversionResults : Prop := Results moveTable

/-- R227, R230 to R234, R236, R241 to R243; the model's choice of log entry 34 (the NaN of UNPK2). -/
def Obligations.BitAndMoveResults : Prop :=
  Claim.BitOperationResults ∧ Claim.MoveAndConversionResults

/-- R237 to R239, R248, R250. -/
def Obligations.PredicateAndIndexResults : Prop := Results predTable

/-- R235: SEL executes for every active thread that the path field enables, and gives each the selected source. -/
def Claim.SelectResult : Prop :=
  ∀ (s : State) (h : Here) (d a b : BitVec 7) (ea eb : Bool) (res : Nat → Token ⊕ Val),
    s.here = some h → operandCheck h [vSrc a ea, vSrc b eb] (some (rDst false d)) true = none →
    operandsReady h (allThreads h.p) [vSrc a ea, vSrc b eb] (some (rDst false d)) = true →
    (∀ t ∈ enabledThreads h.p, selected h (vSrc a ea) (vSrc b eb) t = some (res t)) →
    ∃ g', RegisterStep (.sel d ea a eb b) s h g' ∧ Wrote h g' (rDst false d) (enabledThreads h.p) res

/-- R236: VSET writes the value of the lowest executing thread into an s-register; with no executing thread it changes none. -/
def Claim.VsetResult : Prop :=
  ∀ (s : State) (h : Here) (d a : BitVec 7) (ea : Bool) (res : Nat → Token ⊕ Val),
    s.here = some h → operandCheck h [vSrc a ea] none true = none →
    operandsReady h ((vecThreads h.g h.p).take 1) [vSrc a ea] (some (rDst true d)) = true →
    (∀ t ∈ (vecThreads h.g h.p).take 1, (match t.2 with | some k => some (.inl k) | none => copied h (vSrc a ea) t.1) = some (res t.1)) →
    ∃ g', RegisterStep (.vset d ea a) s h g' ∧ Wrote h g' (rDst true d) (((vecThreads h.g h.p).take 1).map (·.1)) res

/-- R244, R245: SHFL and BCAST give every executing thread the value of its source thread. -/
def Claim.LaneResults : Prop :=
  ∀ (i : Instr) (s : State) (h : Here) (d a : BitVec 7) (ea : Bool) (idx : Option Src) (pick : Nat → Nat → Option Nat)
    (res : Nat → Token ⊕ Val),
    s.here = some h → laneTable i = some (d, ea, a, idx, pick) →
    operandCheck h (vSrc a ea :: idx.toList) (some (rDst false d)) true = none →
    guardFull h.g h.p = true → (∀ t ∈ vecThreads h.g h.p, dstFull h.g h.p (rDst false d) t.1 = true) →
    (∀ t ∈ vecThreads h.g h.p, laneResult h (vSrc a ea) idx pick t = some (res t.1)) →
    ∃ g', RegisterStep i s h g' ∧ Wrote h g' (rDst false d) ((vecThreads h.g h.p).map (·.1)) res

/-- R246, R49: VOTE gives every contributor the vote, and a thread with a poisoned guard its token. -/
def Claim.VoteResult : Prop :=
  ∀ (s : State) (h : Here) (d : BitVec 7) (e : Bool) (p : BitVec 3) (k : BitVec 2) (dst : Dst),
    s.here = some h → dst = (if k = 2 then rDst false d else ⟨.p, d.toNat % 8, 1⟩) →
    operandCheck h [pSrc p e] (some dst) true = none →
    operandsReady h (vecThreads h.g h.p) [pSrc p e] (some dst) = true →
    (∀ t ∈ contributors h, readSrc h.g h.p (pSrc p e) t ≠ .empty) →
    ∃ g', RegisterStep (.vote d e p k) s h g' ∧
      ∀ res : Nat → Token ⊕ Val, (∀ t ∈ vecThreads h.g h.p, res t.1 = guarded t (voteValue h (pSrc p e) k t.1)) →
        Wrote h g' dst ((vecThreads h.g h.p).map (·.1)) res

/-- R247, R49: QSCAN gives every contributor the combination of the contributors up to it (or before it), REDUCE that of all. -/
def Claim.ScanAndReduceResults : Prop :=
  ∀ (s : State) (h : Here) (d a : BitVec 7) (e : Bool) (k : BitVec 4) (scan : Bool),
    s.here = some h → operandCheck h [vSrc a e] (some (rDst false d)) (allTypes (mType h.p.mode)) = none →
    operandsReady h (vecThreads h.g h.p) [vSrc a e] (some (rDst false d)) = true →
    (∀ t ∈ contributors h, readSrc h.g h.p (vSrc a e) t ≠ .empty) → s.ctl.shadow = [] →
    ∃ g', RegisterStep (if scan then .qscan d e a k else .reduce d e a k) s h g' ∧
      ∀ res : Nat → Token ⊕ Val, (∀ t ∈ vecThreads h.g h.p, res t.1 = guarded t
          (if scan then scanValue h (vSrc a e) (k.toNat % 8) (k.getLsbD 3) t.1 else reduceValue h (vSrc a e) (k.toNat % 8))) →
        Wrote h g' (rDst false d) ((vecThreads h.g h.p).map (·.1)) res

/-- R49, R244 to R247. -/
def Obligations.CrossThreadResults : Prop :=
  Claim.LaneResults ∧ Claim.VoteResult ∧ Claim.ScanAndReduceResults

/-- R251: MOVX copies the register that the index register and the offset name. -/
def Claim.IndexedReadResult : Prop :=
  ∀ (s : State) (h : Here) (d : BitVec 7) (x : BitVec 2) (eb : Bool) (b : BitVec 7) (res : Nat → Token ⊕ Val),
    s.here = some h → operandCheck h [vSrc b eb] (some (rDst false d)) true = none →
    operandsReady h (vecThreads h.g h.p) [vSrc b eb] (some (rDst false d)) = true →
    (∀ t ∈ vecThreads h.g h.p, movxResult h x.toNat (vSrc b eb) t = some (res t.1)) →
    ∃ g', RegisterStep (.movx d x eb b) s h g' ∧ Wrote h g' (rDst false d) ((vecThreads h.g h.p).map (·.1)) res

/-- R252: MOVXW writes the register that the index register and the offset name; where a is poisoned the index register takes
its token and no register changes. -/
def Claim.IndexedWriteResult : Prop :=
  ∀ (s : State) (h : Here) (x : BitVec 2) (ea eb : Bool) (a b : BitVec 7) (res : Nat → Token ⊕ (Nat × (Token ⊕ Val))),
    s.here = some h → operandCheck h [vSrc a ea, vSrc b eb] none true = none → guardFull h.g h.p = true →
    srcReady h.g h.p (vSrc a ea) ((vecThreads h.g h.p).map (·.1)) = true →
    srcReady h.g h.p (vSrc b eb) (contributors h) = true →
    (∀ t ∈ vecThreads h.g h.p, movxwResult h x.toNat (vSrc a ea) (vSrc b eb) t = some (res t.1)) →
    (∀ t ∈ vecThreads h.g h.p, ∀ n r, res t.1 = .inr (n, r) → (vGet h.g n t.1).full = true) →
    ∃ g', RegisterStep (.movxw x ea a eb b) s h g' ∧
      (∀ n t, t < 128 → vGet g' n t =
        if t ∈ (vecThreads h.g h.p).map (·.1) then (match res t with
          | .inr (k, r) => if n = k then Val.reg 0 r else vGet h.g n t
          | .inl _ => vGet h.g n t) else vGet h.g n t) ∧
      (∀ n t, t < 128 → xGet g' n t =
        if t ∈ (vecThreads h.g h.p).map (·.1) ∧ n = x.toNat then (match res t with
          | .inl k => { poi := true, tok := k }
          | .inr _ => xGet h.g n t) else xGet h.g n t) ∧
      (∀ n, sGet g' n = sGet h.g n) ∧ ∀ n t, pGet g' n t = pGet h.g n t

/-- R235, R236, R251, R252. -/
def Obligations.SelectionAndIndexRegisters : Prop :=
  Claim.SelectResult ∧ Claim.VsetResult ∧ Claim.IndexedReadResult ∧ Claim.IndexedWriteResult

/-- R182: NOP; R180: MODE, MODEG; R181: STAGE; R184: RECONV; R192, R194: MELDEND, RNSET, RNCLR. -/
def Obligations.PathSettingWords : Prop :=
  ∀ (i : Instr) (s : State) (h : Here) (p : Path) (ren : SMap Rename) (staged : List Nat),
    s.here = some h → settingTable h i = some (p, ren, staged) →
    ∃ g', GroupStep i s g' ∧ g' = { h.g with ren := ren, staged := staged, retired := h.g.retired + 1, paths := g'.paths } ∧
      PathAt g' h.pid { p with pc := nextPc h.p.pc, park := .running } ∧
      ∀ q, q ≠ h.pid → sfind g'.paths q = sfind h.g.paths q

/-- R187: BRA sends the whole path; R189: CALL pushes the next word and branches, RET pops. -/
def Obligations.UnsplitBranches : Prop :=
  ∀ (s : State) (h : Here), s.here = some h → h.p.meld = none →
    (∀ (p : BitVec 3) (sen : Bool) (o : BitVec 19), cleanPredicate h p →
      ∃ g', OnlyRegisters h.g g' ∧
        if takenBy h p sen ≠ 0 then
          FlowStep (.bra p sen o) s h g' 0 (branchTarget h.p.pc o) h.p.mask ∧ WentOn h g' (branchTarget h.p.pc o)
        else GroupStep (.bra p sen o) s g' ∧ WentOn h g' (nextPc h.p.pc)) ∧
    (∀ o : BitVec 19, h.p.rstack.length < 16 →
      ∃ g', FlowStep (.call o) s h g' 0 (branchTarget h.p.pc o) h.p.mask ∧ OnlyRegisters h.g g' ∧ g'.retired = h.g.retired + 1 ∧
        PathAt g' h.pid { h.p with pc := branchTarget h.p.pc o, rstack := nextPc h.p.pc :: h.p.rstack, park := .running } ∧
        ∀ q, q ≠ h.pid → sfind g'.paths q = sfind h.g.paths q) ∧
    (∀ (a : DWord) (r : List DWord), h.p.rstack = a :: r → (h.g.top h.pid).any (·.kind = .trap) = false →
      ∃ g', FlowStep .ret s h g' 0 a h.p.mask ∧ OnlyRegisters h.g g' ∧ g'.retired = h.g.retired + 1 ∧
        PathAt g' h.pid { h.p with pc := a, rstack := r, park := .running } ∧
        ∀ q, q ≠ h.pid → sfind g'.paths q = sfind h.g.paths q)

/-- R185: BRC, by the threads whose predicate is true. -/
def Claim.ConditionalBranchSplits : Prop :=
  ∀ (s : State) (h : Here) (p : BitVec 3) (sen : Bool) (o : BitVec 19),
    s.here = some h → h.p.meld = none → cleanPredicate h p →
    (takenBy h p sen = 0 ∨ takenBy h p sen = h.p.mask ∨ h.g.canSplit h.pid = true) →
    ∃ g', SplitTo h g' (takenBy h p sen) (branchTarget h.p.pc o) (nextPc h.p.pc) false h.p.rstack ∧
      if takenBy h p sen = 0 then GroupStep (.brc p sen o) s g'
      else FlowStep (.brc p sen o) s h g' (if takenBy h p sen = h.p.mask then 0 else 1) (branchTarget h.p.pc o) (takenBy h p sen)

/-- R188, R189: BRX and CALLX with clean targets: the threads with the lowest thread's target go there, CALLX with the next word
on their return stack; the others stay at the word. -/
def Claim.IndirectBranchSplits : Prop :=
  ∀ (s : State) (h : Here) (a : BitVec 7) (ea call : Bool) (t0 : Nat) (target : DWord),
    s.here = some h → h.p.meld = none →
    operandCheck h [{ file := .v, reg := a.toNat, e := ea, n := 2 }] none true = none →
    (threadsOf h.p.mask).head? = some t0 → pairTarget h a ea t0 = some target →
    (∀ t ∈ threadsOf h.p.mask, (pairTarget h a ea t).isSome = true) →
    (call = true → h.p.rstack.length < 16) →
    (sameTarget h a ea target = h.p.mask ∨ h.g.canSplit h.pid = true) →
    ∃ g', SplitTo h g' (sameTarget h a ea target) target h.p.pc true (if call then nextPc h.p.pc :: h.p.rstack else h.p.rstack) ∧
      FlowStep (if call then .callx ea a else .brx ea a) s h g' (if sameTarget h a ea target = h.p.mask then 0 else 1) target
        (sameTarget h a ea target)

/-- R185, R186, R188, R189; which of the two top paths takes the taken side is the model's choice (log entry 23). -/
def Obligations.SplittingBranches : Prop :=
  Claim.ConditionalBranchSplits ∧ Claim.IndirectBranchSplits

/-- R190: the cases of JOIN at an address A for a path with active threads outside a melded region: a deferred side resumes; a
merge entry gives back its threads, mode and return stack after A; the two top paths become one after A, or the first of them
parks; else JOIN is a NOP. -/
def Obligations.JoinCases : Prop :=
  ∀ (s : State) (h : Here), s.here = some h → h.p.meld = none → h.p.mask ≠ 0 →
    (∀ e : StackEntry, h.g.top h.pid = some e → e.join.map (·.pc) = some h.p.pc → e.mask &&& ~~~h.g.exited ≠ 0 →
      (e.kind = .deferred → e.hold = none →
        ∃ g', GroupStep .join s g' ∧ g'.stack.length + 1 = h.g.stack.length ∧ g'.retired = h.g.retired + 1 ∧
          PathAt g' h.pid { h.p with mask := e.mask &&& ~~~h.g.exited, mode := e.mode, rstack := e.rstack, pc := e.pc
                                     pend := if e.repend then e.join else none, park := .running }) ∧
      (e.kind = .merge → (∀ k, h.g.innermost h.pid = some k →
          ∀ x ∈ h.g.stack.eraseIdx k, x.owner = h.pid → x.join.map (·.pc) ≠ some h.p.pc) →
        ∃ t g', exec .join s = .next t ∧ t.group h.g.id = some g' ∧ g'.stack.length + 1 = h.g.stack.length ∧
          g'.retired = h.g.retired + 1 ∧
          PathAt g' h.pid { h.p with mask := e.mask &&& ~~~h.g.exited, mode := e.mode, rstack := e.rstack
                                     pc := nextPc h.p.pc, park := .running })) ∧
    (∀ o : Path, h.g.top h.pid = none → h.g.topJoin.map (·.pc) = some h.p.pc → h.g.paths.length = 2 →
      sfind h.g.paths (1 - h.pid) = some o → o.mask ≠ 0 →
      (o.park = .join h.p.pc →
        ∃ t g', exec .join s = .next t ∧ t.group h.g.id = some g' ∧ sfind g'.paths (1 - h.pid) = none ∧ g'.topJoin = none ∧
          g'.retired = h.g.retired + 2 ∧
          PathAt g' h.pid { h.p with mask := h.p.mask ||| o.mask, pc := nextPc h.p.pc, park := .running
                                     mode := h.g.topJoin.elim h.p.mode (·.mode), rstack := h.g.topJoin.elim h.p.rstack (·.rstack) }) ∧
      (o.park ≠ .join h.p.pc →
        ∃ g', GroupStep .join s g' ∧ g' = { h.g with paths := g'.paths } ∧ PathAt g' h.pid { h.p with park := .join h.p.pc } ∧
          ∀ q, q ≠ h.pid → sfind g'.paths q = sfind h.g.paths q)) ∧
    ((∃ e, h.g.top h.pid = some e ∧ e.join.map (·.pc) ≠ some h.p.pc) ∨
        (h.g.top h.pid = none ∧ h.g.topJoin.map (·.pc) ≠ some h.p.pc) →
      ∃ g', GroupStep .join s g' ∧ WentOn h g' (nextPc h.p.pc) ∧ g'.stack = h.g.stack)

/-- R192: MELD enters a melded region: path 1 is the threads whose predicate is true. -/
def Claim.MeldEntersRegion : Prop :=
  ∀ (s : State) (h : Here) (p : BitVec 3) (ea : Bool), s.here = some h → h.p.meld = none → cleanPredicate h p →
    ∃ g', GroupStep (.meld ea p) s g' ∧ OnlyRegisters h.g g' ∧ g'.retired = h.g.retired + 1 ∧
      PathAt g' h.pid { h.p with meld := some (takenBy h p false), pc := nextPc h.p.pc, park := .running } ∧
      ∀ q, q ≠ h.pid → sfind g'.paths q = sfind h.g.paths q

/-- R177, R195: control flow and spans inside a melded region fail check 7; BRX and CALLX, whose operands have checks before it, do so
where those pass. -/
def Claim.MeldedRegionRefusesControlFlow : Prop :=
  ∀ (s : State) (h : Here), s.here = some h → h.p.meld.isSome = true →
    (∀ i : Instr, notMelded i = true → Illegal i s h (encode i) 7) ∧
    ∀ (ea : Bool) (a : BitVec 7), operandCheck h [{ file := .v, reg := a.toNat, e := ea, n := 2 }] none true = none →
      ∀ i ∈ [Instr.brx ea a, .callx ea a], Illegal i s h (encode i) 7

/-- R177, R192, R195. -/
def Obligations.MeldedRegions : Prop :=
  Claim.MeldEntersRegion ∧ Claim.MeldedRegionRefusesControlFlow

/-- R177, R178: an instruction of the tables whose operand checks fail is an illegal instruction with the reason of the check:
5 for a register at or above the budget, 7 for a type that it does not accept or a renamed pair. -/
def Claim.FailingOperandChecks : Prop :=
  ∀ (i : Instr) (s : State) (h : Here) (x : Shape) (r : Nat), s.here = some h →
    (typedTable i h.p.mode = some x ∨ unaryTable i h.p.mode = some x ∨ bitTable i h.p.mode = some x ∨
      moveTable i h.p.mode = some x ∨ predTable i h.p.mode = some x) →
    operandCheck h x.srcs (some x.dst) x.ok = some r → Illegal i s h (encode i) r ∧ (r = 5 ∨ r = 7)

/-- R161, R162: an instruction of the tables whose guard, destination or E=0 source is empty waits: nothing changes. -/
def Claim.EmptyOperandsWait : Prop :=
  ∀ (i : Instr) (s : State) (h : Here) (x : Shape), s.here = some h →
    (typedTable i h.p.mode = some x ∨ unaryTable i h.p.mode = some x ∨ bitTable i h.p.mode = some x ∨
      moveTable i h.p.mode = some x ∨ predTable i h.p.mode = some x) →
    operandCheck h x.srcs (some x.dst) x.ok = none → operandsReady h (x.threads h) x.srcs (some x.dst) = false →
    ∃ t, exec i s = .next t ∧ t.ctl.stalled = true ∧ t.mem = s.mem ∧ t.exe = s.exe ∧ t.host = s.host

/-- R161, R162, R177, R178. -/
def Obligations.OperandChecksAndWaits : Prop :=
  Claim.FailingOperandChecks ∧ Claim.EmptyOperandsWait

/-- R55: the span of a group after SPAN: action, recovery target and start, open and clean for the threads of the path. -/
def OpensSpan (h : Here) (sp : Span) (c : BitVec 2) (o : BitVec 19) : Prop :=
  sp.action = c ∧ sp.recover = branchTarget h.p.pc o ∧ sp.start = nextPc h.p.pc ∧ sp.opened = h.p.mask ∧
    sp.live = h.g.span.live &&& ~~~h.p.mask ∧ sp.unserv = h.g.span.unserv &&& ~~~h.p.mask ∧
    ∀ t ∈ threadsOf h.p.mask, sget 0 sp.replays t = 0

/-- R55, R64, R196: SPAN opens the span of its path's threads with the action, the recovery target and the start of the span. Threads
of the path that have one open close it first, here with no thread live and nothing held; with a thread of another path open it is an
illegal instruction. -/
def Claim.SpanOpens : Prop :=
  ∀ (s : State) (h : Here) (c : BitVec 2) (o : BitVec 19), s.here = some h → h.p.meld = none →
    (h.g.span.opened = 0 →
      ∃ g', GroupStep (.span c o) s g' ∧ WentOn h g' (nextPc h.p.pc) ∧
        g' = { h.g with span := g'.span, retired := g'.retired, paths := g'.paths } ∧ OpensSpan h g'.span c o) ∧
    (h.g.span.opened &&& ~~~h.p.mask ≠ 0 → Illegal (.span c o) s h (encode (.span c o)) 7) ∧
    (h.g.span.opened ≠ 0 → h.g.span.opened &&& ~~~h.p.mask = 0 → h.p.mask &&& h.g.span.opened &&& h.g.span.live = 0 →
      h.g.quar = [] → h.g.span.holds = [] → s.ctl.stalled = false → h.p.park = .running →
      ∃ t g', exec (.span c o) s = .next t ∧ t.mem = s.mem ∧ t.host = s.host ∧ t.group h.g.id = some g' ∧
        WentOn h g' (nextPc h.p.pc) ∧
        g' = { h.g with span := g'.span, wdog := g'.wdog, retired := g'.retired, paths := g'.paths } ∧ OpensSpan h g'.span c o)

/-- R58, R61: the effects that a group holds for some of its threads, in the order of their entries. -/
def heldFor (h : Here) (m : Mask) : List Eff := (h.g.quar.flatMap (·.effs)).filter fun e => e.owners &&& m ≠ 0

/-- R57: a held store to the scratchpad with clean address, data and guard, to words that are no sync words. -/
def heldClean (h : Here) (e : Eff) : Prop :=
  e.kind = .store ∧ e.scratch = true ∧ e.chord = none ∧ e.gid = h.g.id ∧ e.apoi = none ∧ e.dpoi = none ∧ e.gpoi = none ∧ e.data ≠ [] ∧
    (e.size = 1 ∨ 4 ≤ e.size) ∧
    ∀ k, k < e.data.length → h.w.syncs.contains ((e.pa + 4 * k - h.w.scratchBase) / 16 * 16) = false

/-- R262: the bytes that a held store writes. -/
def heldBytes (e : Eff) : List Byte := if e.size = 1 then (bytesOfWord (e.data.headD 0)).take 1 else e.data.flatMap bytesOfWord

/-- R63: memory after held stores were performed in their order. -/
def afterHeld (m : MemSys) (es : List Eff) : MemSys := es.foldl (fun m e => setBytes m e.pa (heldBytes e)) m

/-- R61, R63: COMMIT of a path whose threads all go on: under .DROP and .KEEP, and under .BR and .RPL where none is live. What its threads
held, here clean stores to the scratchpad, is performed in order; the span closes and the path goes on. -/
def Claim.CommitReleases : Prop :=
  ∀ (s : State) (h : Here) (c : BitVec 2) (o : BitVec 19), s.here = some h → h.p.meld = none → h.p.mask ≠ 0 →
    pushesWaiting s h.w h.g.id (threadsOf h.p.mask) none = false → h.g.span.holds = [] →
    let ev := h.p.mask &&& h.g.span.opened
    let es := heldFor h ev
    ev ≠ 0 → (c = 2 ∨ c = 3 ∨ ev &&& h.g.span.live = 0) → (∀ e ∈ es, heldClean h e) →
    ∃ t g', exec (.commit c o) s = .next t ∧ t.host = s.host ∧ t.group h.g.id = some g' ∧ WentOn h g' (nextPc h.p.pc) ∧
      g'.span.opened = h.g.span.opened &&& ~~~h.p.mask ∧ g'.wdog = 0 ∧ (∀ q ∈ g'.quar, ∀ e ∈ q.effs, e.owners &&& ev = 0) ∧
      g'.v = h.g.v ∧ g'.sr = h.g.sr ∧ g'.p = h.g.p ∧ g'.x = h.g.x ∧ ∀ b, memByte t.mem b = memByte (afterHeld s.mem es) b

/-- R61, R185: COMMIT.BR of a path of live and clean threads: what the clean ones held, here clean stores to the scratchpad, is performed,
what the live ones held is discarded, and the path splits: the live threads go to the target, the others on to the next word. -/
def Claim.CommitSplits : Prop :=
  ∀ (s : State) (h : Here) (o : BitVec 19), s.here = some h → h.p.meld = none →
    pushesWaiting s h.w h.g.id (threadsOf h.p.mask) none = false → h.g.span.holds = [] → h.g.canSplit h.pid = true →
    let ev := h.p.mask &&& h.g.span.opened
    let live := ev &&& h.g.span.live
    let es := heldFor h (ev &&& ~~~live)
    let target := if o = 0 then h.g.span.recover else branchTarget h.p.pc o
    live ≠ 0 → live ≠ h.p.mask → (∀ e ∈ es, heldClean h e) →
    ∃ t g', exec (.commit 0 o) s = .next (traceFlow t h.g.id 1 target live) ∧ t.host = s.host ∧ t.group h.g.id = some g' ∧
      SplitTo h { g' with wdog := h.g.wdog, mon := h.g.mon, quar := h.g.quar, span := h.g.span } live target (nextPc h.p.pc) false
        h.p.rstack ∧
      g'.span.opened = h.g.span.opened &&& ~~~h.p.mask ∧ g'.wdog = 0 ∧ (∀ q ∈ g'.quar, ∀ e ∈ q.effs, e.owners &&& ev = 0) ∧
      ∀ b, memByte t.mem b = memByte (afterHeld s.mem es) b

/-- R61, R62: COMMIT.RPL of a path with live threads that can all be served: what the clean ones held, here clean stores to the scratchpad,
is performed, and the path waits at the COMMIT for its services: a page that was not present, the registers that were read empty. -/
def Claim.CommitServes : Prop :=
  ∀ (s : State) (h : Here) (o : BitVec 19), s.here = some h → h.p.meld = none →
    pushesWaiting s h.w h.g.id (threadsOf h.p.mask) none = false → h.g.span.holds = [] →
    let ev := h.p.mask &&& h.g.span.opened
    let live := ev &&& h.g.span.live
    let es := heldFor h (ev &&& ~~~live)
    live ≠ 0 → live = h.p.mask ∨ h.g.canSplit h.pid = true → (∀ e ∈ es, heldClean h e) →
    (∀ t ∈ threadsOf live, h.g.span.unserv.getLsbD t = false ∧ sget 0 h.g.span.replays t < 4) →
    (∀ y ∈ h.g.span.poisons, live.getLsbD y.t = true → y.cause ≠ causeFutureEmpty) →
    ∃ t g' x, exec (.commit 1 o) s = .next t ∧ t.group h.g.id = some g' ∧ PathAt g' h.pid { h.p with park := .commit } ∧
      (∀ q, q ≠ h.pid → sfind g'.paths q = sfind h.g.paths q) ∧ g'.span.opened = h.g.span.opened ∧ g'.span.live = h.g.span.live ∧
      sfind g'.span.serving h.pid = some x ∧ x.pc = h.p.pc ∧ x.replaying = live ∧ x.failed = 0 ∧ x.waiting = h.p.mask &&& ~~~live ∧
      x.recover = 0 ∧ x.explicit = true ∧ x.same = none ∧
      (∀ y ∈ h.g.span.poisons, live.getLsbD y.t = true →
        (y.cause = causeNotPresent → (y.t, .page y.addr y.write) ∈ x.services) ∧
        (y.cause = causeEmptyRead → ∀ r ∈ y.regs, (y.t, .reg r) ∈ x.services)) ∧
      ∀ b, memByte t.mem b = memByte (afterHeld s.mem es) b

/-- R66: COMMIT.DROP and COMMIT.KEEP of a path that holds one poisoned store to the scratchpad: with a poisoned address it is dropped, and
so it is under .DROP with poisoned data, and counted; under .KEEP poisoned data are written as poison, and counted. -/
def Claim.CommitDropsAndKeeps : Prop :=
  ∀ (s : State) (h : Here) (k : Context) (c : BitVec 2) (o : BitVec 19) (e : Eff), s.here = some h → h.p.meld = none → h.p.mask ≠ 0 →
    s.ctx h.w.ctx = some k → s.wg h.g.wg = some h.w →
    pushesWaiting s h.w h.g.id (threadsOf h.p.mask) none = false → h.g.span.holds = [] → c = 2 ∨ c = 3 →
    h.p.mask &&& h.g.span.opened ≠ 0 → heldFor h (h.p.mask &&& h.g.span.opened) = [e] →
    heldClean h { e with apoi := none, dpoi := none } → e.size = 4 → e.pa % 4 = 0 →
    (∀ cls ∈ [18, 19], actionOf s (groupEvent s h.g cls 0 1 []) = 0) →
    let counted (t : State) (cls : Nat) : Prop :=
      t.mgmt (eventCounter k.part cls 0) = satAdd (s.mgmt (eventCounter k.part cls 0)) 1
    (e.apoi.isSome = true ∨ (e.apoi = none ∧ e.dpoi.isSome = true ∧ c = 2) →
      ∃ t g', exec (.commit c o) s = .next t ∧ t.group h.g.id = some g' ∧ WentOn h g' (nextPc h.p.pc) ∧ SameBytes s t ∧ counted t 18) ∧
    (e.apoi = none → e.dpoi.isSome = true → c = 3 →
      ∃ t g', exec (.commit c o) s = .next t ∧ t.group h.g.id = some g' ∧ WentOn h g' (nextPc h.p.pc) ∧ wordPoi t.mem e.pa = true ∧
        counted t 19)

/-- R61, R65, R197: COMMIT without an open thread is a NOP that resets the watchdog; with open threads of which none is live and
with nothing held, it closes the span and the path goes on; with every thread of the path live it sends the path to recovery
under .BR, and what the threads held is discarded. -/
def Claim.CommitCloses : Prop :=
  ∀ (s : State) (h : Here) (c : BitVec 2) (o : BitVec 19), s.here = some h → h.p.meld = none → h.p.mask ≠ 0 →
    pushesWaiting s h.w h.g.id (threadsOf h.p.mask) none = false →
    (h.p.mask &&& h.g.span.opened = 0 →
      ∃ g', GroupStep (.commit c o) s g' ∧ WentOn h g' (nextPc h.p.pc) ∧ g'.wdog = 0 ∧ g'.span = h.g.span) ∧
    (h.p.mask &&& h.g.span.opened ≠ 0 → h.g.quar = [] → h.g.span.holds = [] → h.p.mask &&& h.g.span.opened &&& h.g.span.live = 0 →
      ∃ t g', exec (.commit c o) s = .next t ∧ t.mem = s.mem ∧ t.host = s.host ∧ t.group h.g.id = some g' ∧
        WentOn h g' (nextPc h.p.pc) ∧ g'.span.opened = h.g.span.opened &&& ~~~h.p.mask ∧ g'.wdog = 0 ∧
        g'.v = h.g.v ∧ g'.sr = h.g.sr ∧ g'.p = h.g.p ∧ g'.x = h.g.x) ∧
    (c = 0 → h.g.span.holds = [] → h.p.mask &&& h.g.span.opened &&& h.g.span.live = h.p.mask →
      ∃ t g', exec (.commit c o) s = .next t ∧ t.mem = s.mem ∧ t.host = s.host ∧ t.group h.g.id = some g' ∧
        WentOn h g' (if o = 0 then h.g.span.recover else branchTarget h.p.pc o) ∧
        g'.span.opened = h.g.span.opened &&& ~~~h.p.mask ∧ (∀ q ∈ g'.quar, ∀ e ∈ q.effs, e.owners &&& h.p.mask = 0) ∧
        g'.v = h.g.v ∧ g'.sr = h.g.sr ∧ g'.p = h.g.p ∧ g'.x = h.g.x)

/-- R55, R61 to R66, R196, R197. -/
def Obligations.SpansOpenAndClose : Prop :=
  Claim.SpanOpens ∧ Claim.CommitCloses ∧ Claim.CommitReleases ∧ Claim.CommitSplits ∧ Claim.CommitServes ∧ Claim.CommitDropsAndKeeps

/-- R191: EXIT ends the executing threads of its path; the others go on at the next word. -/
def Obligations.ExitEndsThreads : Prop :=
  ∀ (s : State) (h : Here), s.here = some h → h.p.mask &&& h.g.span.opened = 0 → guardFull h.g h.p = true →
    (∀ t ∈ vecThreads h.g h.p, t.2 = none) →
    ∃ t g', exec .exit s = .next t ∧ t.group h.g.id = some g' ∧
      g'.exited = h.g.exited ||| maskOf (fun t => (t, none) ∈ vecThreads h.g h.p) ∧
      (g'.exited = BitVec.allOnes 128 → g'.paths = [] ∧ g'.stack = []) ∧
      (h.p.mask &&& ~~~maskOf (fun t => (t, none) ∈ vecThreads h.g h.p) ≠ 0 → g'.exited ≠ BitVec.allOnes 128 →
        PathAt g' h.pid { h.p with mask := h.p.mask &&& ~~~maskOf (fun t => (t, none) ∈ vecThreads h.g h.p)
                                   pc := nextPc h.p.pc, park := .running })

/-- R199 to R201: PCAUSE, PORIG and PCLR read poison as data: their results are clean words. -/
def Claim.PoisonReadAsData : Prop :=
  ∀ (i : Instr) (s : State) (h : Here) (unif : Bool) (d : BitVec 7) (ea : Bool) (a : BitVec 7) (f : Token ⊕ Word → Word)
    (res : Nat → Token ⊕ Val), s.here = some h → inspectTable s h i = some (unif, d, ea, a, f) →
    operandCheck h [rSrc unif a ea] (some (rDst unif d)) true = none →
    operandsReady h (execThreads unif h.g h.p) [rSrc unif a ea] (some (rDst unif d)) = true →
    (∀ t ∈ execThreads unif h.g h.p, inspected h (rSrc unif a ea) f t = some (res t.1)) →
    ∃ g', RegisterStep i s h g' ∧ Wrote h g' (rDst unif d) ((execThreads unif h.g h.p).map (·.1)) res

/-- R61, R200: PORIG.SPAN reads a word of the first-live record of the last commit, in both forms. -/
def Claim.SpanRecordRead : Prop :=
  ∀ (s : State) (h : Here) (d a : BitVec 7) (ea unif : Bool) (n : BitVec 4) (res : Nat → Token ⊕ Val), s.here = some h →
    n.getLsbD 3 = true → operandCheck h [] (some (rDst unif d)) true = none →
    operandsReady h (execThreads unif h.g h.p) [] (some (rDst unif d)) = true →
    (∀ t ∈ execThreads unif h.g h.p, res t.1 = guarded t (.inr (.words [h.g.span.record.getD (n.toNat % 8) 0]))) →
    ∃ g', RegisterStep (if unif then .porigU d ea a n else .porig d ea a n) s h g' ∧
      Wrote h g' (rDst unif d) ((execThreads unif h.g h.p).map (·.1)) res

/-- R198: PCHK writes whether a v-register, a predicate or an index register is poisoned (k = 0, 1, 2), or whether a tile has a
poisoned element (k = 3), and no poison of its source. -/
def Claim.PoisonCheck : Prop :=
  ∀ (s : State) (h : Here) (p : BitVec 3) (ea : Bool) (a : BitVec 7) (k : BitVec 2) (res : Nat → Token ⊕ Val), s.here = some h →
    operandCheck h (pchkSrc k ea a) (some ⟨.p, p.toNat, 1⟩) true = none →
    operandsReady h (vecThreads h.g h.p) (pchkSrc k ea a) (some ⟨.p, p.toNat, 1⟩) = true →
    (k ≠ 3 → ∀ x ∈ pchkSrc k ea a, ∀ t ∈ vecThreads h.g h.p,
      (t.2 = none → readSrc h.g h.p x t.1 ≠ .empty) ∧
      res t.1 = guarded t (.inr (.bool (match readSrc h.g h.p x t.1 with | .poison _ => true | _ => false)))) →
    (k = 3 → a.toNat % 8 < h.w.ntiles ∧ (sget ({} : Tile) h.w.tiles (a.toNat % 8)).full = true ∧
      ∀ t ∈ vecThreads h.g h.p, res t.1 = guarded t (.inr (.bool (!(sget ({} : Tile) h.w.tiles (a.toNat % 8)).poi.isEmpty)))) →
    ∃ t g', exec (.pchk p ea a k) s = .next t ∧ t.group h.g.id = some g' ∧ (∀ b, memByte t.mem b = memByte s.mem b) ∧
      t.host = s.host ∧ WentOn h g' (nextPc h.p.pc) ∧ OnlyRegisters h.g g' ∧
      Wrote h g' ⟨.p, p.toNat, 1⟩ ((vecThreads h.g h.p).map (·.1)) res

/-- R61, R198 to R201. -/
def Obligations.PoisonInspection : Prop :=
  Claim.PoisonReadAsData ∧ Claim.SpanRecordRead ∧ Claim.PoisonCheck

/-- R43, R44, R47, R48: new poison of one thread takes a free side-table entry: the destination holds its token, and the record
names the cause, the thread, the group slot, the place, the pc, and the address where there is one. -/
def Obligations.NewPoisonRecord : Prop :=
  ∀ (i : Instr) (s : State) (h : Here) (x : Shape) (t e : Nat) (vs : List (List Word)) (cause : Cause) (addr : Option DWord),
    s.here = some h → poisonTable i h.p.mode = some x → x.ready s h → x.threads h = [(t, none)] →
    operands h t x.srcs = some (.inr vs) → newPoison i h.p.mode vs = some (cause, addr) →
    (∀ kr ∈ (sget ({} : Side) s.exe.sides h.w.coreNo).recs, kr.2.1 ≠ h.g.id) →
    freeEntry (sget ({} : Side) s.exe.sides h.w.coreNo).recs s.ctl.tick = some e →
    ∃ u g' r, exec i s = .next u ∧ u.mem = s.mem ∧ u.host = s.host ∧ u.group h.g.id = some g' ∧
      WentOn h g' (nextPc h.p.pc) ∧ OnlyRegisters h.g g' ∧ Wrote h g' x.dst [t] (fun _ => .inl (BitVec.ofNat 10 e)) ∧
      recordAt u h.w.coreNo (BitVec.ofNat 10 e) = some r ∧ r.cause = cause ∧ r.thread = BitVec.ofNat 7 t ∧ r.count = 1 ∧
      r.inspan = h.g.span.opened.getLsbD t ∧ r.slot = groupSlot h.g ∧ r.quad = BitVec.ofNat 2 h.w.quad ∧
      r.core = BitVec.ofNat 7 h.w.core ∧ r.pc = h.p.pc.setWidth 55 ∧ r.avalid = addr.isSome ∧ r.addr = (addr.getD 0).setWidth 55

/-- R211, R212, R213: GETID, GETSYS and SYSR write the coordinate, the system value or the system register that they name. -/
def Claim.IdentityAndSystemReads : Prop :=
  ∀ (i : Instr) (s : State) (h : Here) (unif : Bool) (d : BitVec 7) (f : Nat → Word) (res : Nat → Token ⊕ Val),
    s.here = some h → readTable s h i = some (unif, d, f) → logging s h.w.ctx = false →
    operandCheck h [] (some (rDst unif d)) true = none →
    operandsReady h (execThreads unif h.g h.p) [] (some (rDst unif d)) = true →
    (∀ t ∈ execThreads unif h.g h.p, res t.1 = guarded t (.inr (.words [f t.1]))) →
    ∃ g', RegisterStep i s h g' ∧ Wrote h g' (rDst unif d) ((execThreads unif h.g h.p).map (·.1)) res

/-- R213: SYSR of cyc_lo writes the lower half of the cycle count and latches its upper half for the group, in both forms. -/
def Claim.CycleCountLatches : Prop :=
  ∀ (s : State) (h : Here) (unif : Bool) (d : BitVec 7) (res : Nat → Token ⊕ Val),
    s.here = some h → logging s h.w.ctx = false → operandCheck h [] (some (rDst unif d)) true = none →
    operandsReady h (execThreads unif h.g h.p) [] (some (rDst unif d)) = true →
    (∀ t ∈ execThreads unif h.g h.p, res t.1 = guarded t (.inr (.words [(Config.cycles s.ctl.tick).extractLsb' 0 32]))) →
    (execThreads unif h.g h.p).any (·.2.isNone) = true →
    ∃ t g', Done (if unif then .sysrU d 3 else .sysr d 3) s h t g' ∧
      OnlyRegisters { h.g with cycHi := (Config.cycles s.ctl.tick).extractLsb' 32 32 } g' ∧
      Wrote h g' (rDst unif d) ((execThreads unif h.g h.p).map (·.1)) res

/-- R213, R37: SYSW writes wdog_ctl or trap_pc of the context in a privileged launch and is an illegal instruction with reason
6 in another; it writes the group's scratch registers in any. -/
def Claim.SystemRegisterWrite : Prop :=
  ∀ (s : State) (h : Here) (a : BitVec 7) (ea : Bool) (n : BitVec 8) (t0 : Nat) (x : Word),
    s.here = some h → uniThreads h.g h.p = [(t0, none)] → operandsReady h (uniThreads h.g h.p) [⟨.s, a.toNat, ea, 1⟩] none = true →
    readSrc h.g h.p ⟨.s, a.toNat, ea, 1⟩ t0 = .words [x] → closedSpan h →
    ((n = 0 ∨ n = 9) → privileged s h.w = false → Illegal (.sysw ea a n) s h (encode (.sysw ea a n)) 6) ∧
    ((n = 0 ∨ n = 9) → privileged s h.w = true →
      ∃ t g', exec (.sysw ea a n) s = .next t ∧ t.mem = s.mem ∧ t.group h.g.id = some g' ∧ WentOn h g' (nextPc h.p.pc) ∧
        g' = { h.g with retired := g'.retired, paths := g'.paths } ∧
        ∀ k, t.ctx k = if k = h.w.ctx then (s.ctx k).map (fun c => if n = 0 then { c with wdogCtl := x &&& 0xBF#32 }
          else { c with trapPc := x.setWidth 24 }) else s.ctx k) ∧
    (0x10 ≤ n.toNat → n.toNat < 0x14 →
      Sets (.sysw ea a n) s h fun g => { g with scr := sput 0 g.scr (n.toNat - 0x10) x })

/-- R37, R211 to R213. -/
def Obligations.SystemReadsAndWrites : Prop :=
  Claim.IdentityAndSystemReads ∧ Claim.CycleCountLatches ∧ Claim.SystemRegisterWrite

/-- R206, R207: MONITOR arms the group's monitor on a line of the scratchpad or of memory, and disarms it for an address that it
cannot use; MWAIT waits while an armed monitor has no flag, and goes on otherwise. -/
def Claim.MonitorAndWait : Prop :=
  ∀ (s : State) (h : Here), s.here = some h →
    (h.g.mon.armed = true → h.g.mon.flag = false → h.p.park ≠ .waiting → Parks .mwait s h .waiting) ∧
    (h.g.mon.armed = false ∨ h.g.mon.flag = true → Sets .mwait s h id) ∧
    (∀ (ea : Bool) (a : BitVec 7) (t0 : Nat) (x : Word), guardFull h.g h.p = true → (vecThreads h.g h.p).head? = some (t0, none) →
      operandCheck h [⟨.v, a.toNat, ea, 1⟩] none true = none → readSrc h.g h.p ⟨.v, a.toNat, ea, 1⟩ t0 = .words [x] →
      Sets (.monitor ea a true) s h fun g => { g with mon :=
        if x.toNat < h.w.scratch then { armed := true, scratch := true, line := (h.w.scratchBase + x.toNat) / 128 } else {} }) ∧
    (∀ (ea : Bool) (a : BitVec 7) (t0 : Nat) (x y : Word) (c : Checked) (s1 : State), guardFull h.g h.p = true →
      (vecThreads h.g h.p).head? = some (t0, none) → operandCheck h [⟨.v, a.toNat, ea, 2⟩] none true = none →
      readSrc h.g h.p ⟨.v, a.toNat, ea, 2⟩ t0 = .words [x, y] →
      checkFlat s h.w.ctx (some h.w.coreNo) (privileged s h.w) {} (DWord.ofHalves x y) = (c, s1) →
      s1.group h.g.id = some h.g →
      ∃ t g', exec (.monitor ea a false) s = .next t ∧ t.mem = s1.mem ∧ t.host = s1.host ∧ t.group h.g.id = some g' ∧
        WentOn h g' (nextPc h.p.pc) ∧ g' = { h.g with mon := g'.mon, retired := g'.retired, paths := g'.paths } ∧
        (∀ pa, c = .loc pa false → g'.mon = { armed := true, line := pa / 128 }) ∧ (∀ k o, c = .fail k o → g'.mon = {}) ∧
        (∀ ch n pa, c = .remote ch n pa false → g'.mon.armed = true ∧ g'.mon.flag = false))

/-- R208, R81: AWAIT at named sync words: true once every executing thread's generation has reached its operand, and a wait
until then. -/
def Claim.AwaitGeneration : Prop :=
  ∀ (s : State) (h : Here) (p : BitVec 3) (ea eb : Bool) (a b : BitVec 7) (x y : Nat → Word),
    s.here = some h → operandCheck h [vSrc a ea, vSrc b eb] (some ⟨.p, p.toNat, 1⟩) true = none →
    operandsReady h (vecThreads h.g h.p) [vSrc a ea, vSrc b eb] (some ⟨.p, p.toNat, 1⟩) = true → logging s h.w.ctx = false →
    (∀ t ∈ vecThreads h.g h.p, t.2 = none →
      readSrc h.g h.p (vSrc a ea) t.1 = .words [x t.1] ∧ readSrc h.g h.p (vSrc b eb) t.1 = .words [y t.1] ∧
      (x t.1).toNat % 16 = 0 ∧ (x t.1).toNat + 16 ≤ h.w.scratch ∧ h.w.syncs.contains (x t.1).toNat = true ∧
      wordPoi s.mem (h.w.scratchBase + (x t.1).toNat + 8) = false) →
    ((∀ t ∈ vecThreads h.g h.p, t.2 = none →
        (memWord s.mem (h.w.scratchBase + (x t.1).toNat + 8) - y t.1).toNat < 2 ^ 31) →
      ∃ t' g', Done (.await p ea a eb b) s h t' g' ∧ OnlyRegisters h.g g' ∧
        ∀ res : Nat → Token ⊕ Val, (∀ t ∈ vecThreads h.g h.p, res t.1 = guarded t (.inr (.bool true))) →
          Wrote h g' ⟨.p, p.toNat, 1⟩ ((vecThreads h.g h.p).map (·.1)) res) ∧
    ((∃ t ∈ vecThreads h.g h.p, t.2 = none ∧
        2 ^ 31 ≤ (memWord s.mem (h.w.scratchBase + (x t.1).toNat + 8) - y t.1).toNat) → h.p.park ≠ .waiting →
      Parks (.await p ea a eb b) s h .waiting)

/-- R209, R210: YIELD makes its group the newest of the issue order; PAUSE 0 only retires, and another PAUSE parks its path at the
next word. -/
def Claim.YieldAndPause : Prop :=
  ∀ (s : State) (h : Here), s.here = some h →
    (∃ t g', Done .yield s h t g' ∧ g' = { h.g with age := s.exe.nextId, loss := 0, retired := g'.retired, paths := g'.paths } ∧
      ∀ k, k ≠ h.g.id → t.group k = s.group k) ∧
    Sets (.pause 0) s h id ∧
    (∀ i : BitVec 16, i ≠ 0 → ∃ g', GroupStep (.pause i) s g' ∧ g' = { h.g with retired := h.g.retired + 1, paths := g'.paths } ∧
      PathAt g' h.pid { h.p with pc := nextPc h.p.pc, park := .pause (s.ctl.turn + i.toNat) } ∧
      ∀ q, q ≠ h.pid → sfind g'.paths q = sfind h.g.paths q)

/-- R81, R206 to R210. -/
def Obligations.WaitsAndPauses : Prop :=
  Claim.MonitorAndWait ∧ Claim.AwaitGeneration ∧ Claim.YieldAndPause

/-- R203 to R205: BAR.ARRIVE enters the group into the phase and goes on, BAR.SYNC enters it and waits; the last arrival
completes the phase. BAR.WAIT, unless the other path of the group waits at another kind of BAR of the barrier, and BAR.SYNC after its
arrival, wait while the phase of the group's arrival lasts and go on otherwise. -/
def Obligations.BarrierPhases : Prop :=
  ∀ (s : State) (h : Here) (c : BitVec 5) (b : BitVec 4), s.here = some h →
    (mayArrive s h b.toNat c.toNat →
      ∃ t g' w', Done (.barArrive c b) s h t g' ∧ t.wg h.w.id = some w' ∧
        sget {} w'.bars b.toNat = arrivedAt s h b.toNat c.toNat ∧ (∀ k, k ≠ b.toNat → sget {} w'.bars k = sget {} h.w.bars k) ∧
        sget {} g'.bars b.toNat = { pending := true, wgen := (sget ({} : Barrier) h.w.bars b.toNat).gen } ∧ g'.wdog = 0 ∧
        g' = { h.g with bars := g'.bars, wdog := g'.wdog, retired := g'.retired, paths := g'.paths }) ∧
    (mayArrive s h b.toNat c.toNat → h.p.park ≠ .barWait b.toNat →
      ∃ t g' w', exec (.barSync c b) s = .next t ∧ t.mem = s.mem ∧ t.host = s.host ∧ t.group h.g.id = some g' ∧
        t.wg h.w.id = some w' ∧ sget {} w'.bars b.toNat = arrivedAt s h b.toNat c.toNat ∧
        sget {} g'.bars b.toNat = { pending := true, wgen := (sget ({} : Barrier) h.w.bars b.toNat).gen } ∧
        g' = { h.g with bars := g'.bars, paths := g'.paths } ∧ PathAt g' h.pid { h.p with park := .barWait b.toNat }) ∧
    (∀ i : Instr, (i = .barWait b ∧ barMismatch h b.toNat 0 .wait = false) ∨ (i = .barSync c b ∧ h.p.park = .barWait b.toNat) →
      closedSpan h →
      let gb : GroupBar := sget {} h.g.bars b.toNat
      (gb.pending = false ∨ (sget ({} : Barrier) h.w.bars b.toNat).gen ≠ gb.wgen →
        ∃ t g', Done i s h t g' ∧ (sget ({} : GroupBar) g'.bars b.toNat).pending = false ∧ g'.wdog = 0 ∧
          g' = { h.g with bars := g'.bars, wdog := g'.wdog, retired := g'.retired, paths := g'.paths }) ∧
      (gb.pending = true → (sget ({} : Barrier) h.w.bars b.toNat).gen = gb.wgen → h.p.park ≠ .barWait b.toNat →
        Parks i s h (.barWait b.toNat)))

/-- R215, R216: BRK takes the trap of a launch in architected-stack mode with a handler, stops the group where the debugger asks
for it, and is a NOP otherwise; MARK retires and leaves a trace record. -/
def Obligations.BreakpointsAndMarks : Prop :=
  ∀ (s : State) (h : Here) (i : BitVec 16), s.here = some h →
    (∀ handler, trapTarget s h.w = some handler → h.g.stack.length < 32 →
      ∃ g', GroupStep (.brk i) s g' ∧
        g' = { h.g with stack := h.g.stack ++ [{ kind := .trap, owner := h.pid, pc := nextPc h.p.pc, mask := h.p.mask, mode := h.p.mode
                                                 rstack := [], join := none }]
                        retired := h.g.retired + 1, paths := g'.paths } ∧
        PathAt g' h.pid { h.p with pc := handler, park := .running, trapInfo := i ++ 0#16 } ∧
        ∀ q, q ≠ h.pid → sfind g'.paths q = sfind h.g.paths q) ∧
    (∀ handler, trapTarget s h.w = some handler → 32 ≤ h.g.stack.length → Illegal (.brk i) s h (encode (.brk i)) 7) ∧
    (trapTarget s h.w = none → debugBit s h.w.ctx 2 = false → Sets (.brk i) s h id) ∧
    (trapTarget s h.w = none → debugBit s h.w.ctx 2 = true →
      ∃ t g', exec (.brk i) s = .next t ∧ t.group h.g.id = some g' ∧ WentOn h g' (nextPc h.p.pc) ∧ g'.stop = .debug) ∧
    (∃ t g', OnlyGroup s t g' ∧ WentOn h g' (nextPc h.p.pc) ∧ g' = { h.g with retired := g'.retired, paths := g'.paths } ∧
      exec (.mark i) s = .next (trace t h.g.id 2 (i.setWidth 32) h.p.pc h.p.mask) ∧
      (debugBit s h.w.ctx 0 = false → exec (.mark i) s = .next t))

/-- R13, R14, R16: REGROUP in a launch that does not allow it counts the denial and goes on; where it is allowed the path parks
with the threads whose predicate reads true; in a diverged group or a melded region it is an illegal instruction. -/
def Claim.RegroupParks : Prop :=
  ∀ (s : State) (h : Here) (ea : Bool) (p : BitVec 3), s.here = some h →
    (diverged h.g = true ∨ h.p.meld.isSome = true → Illegal (.regroup ea p) s h (encode (.regroup ea p)) 7) ∧
    (diverged h.g = false → h.p.meld = none → closedSpan h → (∀ m, h.p.park ≠ .regroup m) →
      ((s.launch h.w.launch).any (·.regroup) = false → (∀ t ∈ threadsOf h.p.mask, (pGet h.g p.toNat t).full = true) →
        ∃ t g', exec (.regroup ea p) s = .next t ∧ t.mem = s.mem ∧ t.group h.g.id = some g' ∧ WentOn h g' (nextPc h.p.pc) ∧
          g' = { h.g with retired := g'.retired, paths := g'.paths } ∧
          ∀ k, t.ctx k = if k = h.w.ctx then (s.ctx k).map fun c => { c with rgDeny := satAdd c.rgDeny 1 } else s.ctx k) ∧
      ((s.launch h.w.launch).any (·.regroup) = true → (∀ t ∈ threadsOf h.p.mask, (pGet h.g p.toNat t).full = true) →
        Parks (.regroup ea p) s h (.regroup (maskOf fun t => h.p.mask.getLsbD t && (pGet h.g p.toNat t).val &&
          !(pGet h.g p.toNat t).poi))))

/-- R29, R32: FETCHWG clears the mailbox word, empties its destination and enters its request, and the group goes on. -/
def Claim.FetchWorkgroupRequest : Prop :=
  ∀ (s : State) (h : Here) (d a : BitVec 7) (ea : Bool) (t0 : Nat) (x : Word),
    s.here = some h → uniThreads h.g h.p = [(t0, none)] → h.g.fetch = none → closedSpan h →
    operandsReady h (uniThreads h.g h.p) [⟨.s, a.toNat, ea, 1⟩] (some ⟨.s, d.toNat, 1⟩) = true →
    readSrc h.g h.p ⟨.s, a.toNat, ea, 1⟩ t0 = .words [x] → x.toNat % 32 = 0 → x.toNat + 32 ≤ h.w.scratch →
    ∃ t g', exec (.fetchwg d ea a) s = .next t ∧ t.host = s.host ∧ t.group h.g.id = some g' ∧ WentOn h g' (nextPc h.p.pc) ∧
      g'.fetch = some { mailbox := x.toNat, order := s.exe.nextId, dst := d.toNat, t := t0, count := h.g.retired } ∧ (sGet g' d.toNat).full = false ∧
      (∀ n, n ≠ d.toNat → sGet g' n = sGet h.g n) ∧ g'.v = h.g.v ∧ g'.p = h.g.p ∧ g'.x = h.g.x ∧
      memWord t.mem (h.w.scratchBase + x.toNat) = 0 ∧
      ∀ k, k < h.w.scratchBase + x.toNat ∨ h.w.scratchBase + x.toNat + 4 ≤ k → memByte t.mem k = memByte s.mem k

/-- R13, R14, R16, R29, R32. -/
def Obligations.RegroupAndFetchRequests : Prop :=
  Claim.RegroupParks ∧ Claim.FetchWorkgroupRequest

/-- R255, R260, R261, R160: LD, LDS and LDC at words that have settled: the word retires at once with its destinations empty, and
the bytes at the address, converted by the type, are in flight for every executing thread. -/
def Claim.LoadsBringMemory : Prop :=
  ∀ (i : Instr) (s : State) (h : Here) (f : LoadForm) (va : Nat → DWord) (pa : Nat → Nat),
    s.here = some h → loadTable i h.p.mode = some f → operandCheck h [f.src] (some f.dst) true = none →
    operandsReady h (execThreads f.unif h.g h.p) [f.src] (some f.dst) = true → logging s h.w.ctx = false → unwatched s h →
    h.g.quar = [] →
    (∀ t ∈ execThreads f.unif h.g h.p, t.2 = none →
      addrOf h f.src f.scratch f.off t.1 = .inr (va t.1) ∧
      checkAccess s h t.1 f.scratch {} f.size f.size (va t.1) = (.loc (pa t.1), s) ∧
      (f.scratch = false → lineBlocked s h.g.id (va t.1) (pa t.1) s.exe.nextId = false) ∧
      ∀ k, k < f.size → settledWord s (if f.const then [] else execAgents h f.unif t.1) ((pa t.1 + k) / 4 * 4)) →
    ∃ t g', Done i s h t g' ∧ OnlyRegisters h.g g' ∧ AwaitsResults h g' f.dst (execThreads f.unif h.g h.p) ∧
      ∀ x ∈ execThreads f.unif h.g h.p, x.2 = none →
        InFlight t h x.1 (.ready (valueRegs (destsOf h.g h.p f.dst x.1) (loadValue f.conv (memBytes s.mem (pa x.1) f.size))))

/-- R264: PREF retires and changes no register and, where its translations are held by the core, nothing else. -/
def Claim.PrefetchChangesNothing : Prop :=
  ∀ (s : State) (h : Here) (unif ea : Bool) (a : BitVec 7) (k : BitVec 6),
    s.here = some h → operandCheck h [rSrc unif a ea 2] none true = none →
    operandsReady h (execThreads unif h.g h.p) [rSrc unif a ea 2] none = true →
    (∀ t ∈ execThreads unif h.g h.p, ∀ va, t.2 = none → addrOf h (rSrc unif a ea 2) false (memOffset 4 k) t.1 = .inr va →
      (checkAccess s h t.1 false { anyPage := true } 4 4 va).2 = s) →
    Sets (if unif then .prefU ea a k else .pref ea a k) s h id

/-- R160, R255, R260, R261, R264. -/
def Obligations.LoadsAndPrefetches : Prop :=
  Claim.LoadsBringMemory ∧ Claim.PrefetchChangesNothing

/-- R254, R262: STS with clean operands stores the bytes of every executing thread, in ascending order of threads, and changes no
other byte. -/
def Claim.ScratchpadStores : Prop :=
  ∀ (s : State) (h : Here) (unif : Bool) (d : BitVec 7) (ea : Bool) (a : BitVec 7) (sz : BitVec 2) (k : BitVec 6)
    (conv : Option (Word → Option Byte)) (va : Nat → DWord) (bytes : Nat → List Byte),
    s.here = some h → closedSpan h → storeConvOf sz h.p.mode = some conv → guardFull h.g h.p = true →
    operandCheck h [rSrc unif a ea, rSrc unif d false (if sz = 1 then 2 else 1)] none true = none →
    (∀ t ∈ execThreads unif h.g h.p, t.2 = none ∧
      addrOf h (rSrc unif a ea) true (memOffset (unitSize sz) k) t.1 = .inr (va t.1) ∧ (va t.1).toNat % unitSize sz = 0 ∧
      (va t.1).toNat + unitSize sz ≤ h.w.scratch ∧ h.w.syncs.contains ((va t.1).toNat / 16 * 16) = false ∧
      ∃ ws, readSrc h.g h.p (rSrc unif d false (if sz = 1 then 2 else 1)) t.1 = .words ws ∧ storedBytes conv ws = some (bytes t.1)) →
    ∃ t g', exec (if unif then .stsU d ea a sz k else .sts d ea a sz k) s = .next t ∧ t.host = s.host ∧
      t.group h.g.id = some g' ∧ WentOn h g' (nextPc h.p.pc) ∧ OnlyMonitor h g' ∧
      ∀ b, memByte t.mem b = memByte ((execThreads unif h.g h.p).foldl
        (fun m x => setBytes m (h.w.scratchBase + (va x.1).toNat) (bytes x.1)) s.mem) b

/-- R254, R255, R262: ST of one thread with clean operands to a local page stores its bytes at the physical address of the page, and
changes no other byte but those in which the device notes the write (R389, R390). -/
def Claim.FlatStores : Prop :=
  ∀ (s s2 : State) (h : Here) (unif : Bool) (d : BitVec 7) (ea : Bool) (a : BitVec 7) (sz : BitVec 2) (k : BitVec 6)
    (conv : Option (Word → Option Byte)) (t0 : Nat) (va : DWord) (pa : Nat) (ws : List Word) (bytes : List Byte),
    s.here = some h → closedSpan h → unwatched s h → storeConvOf sz h.p.mode = some conv → guardFull h.g h.p = true →
    operandCheck h [rSrc unif a ea 2, rSrc unif d false (if sz = 1 then 2 else 1)] none true = none →
    execThreads unif h.g h.p = [(t0, none)] →
    addrOf h (rSrc unif a ea 2) false (memOffset (unitSize sz) k) t0 = .inr va →
    readSrc h.g h.p (rSrc unif d false (if sz = 1 then 2 else 1)) t0 = .words ws → storedBytes conv ws = some bytes →
    checkAccess s h t0 false { write := true } (unitSize sz) (unitSize sz) va = (.loc pa, s) →
    lineBlocked s h.g.id va pa s.exe.nextId = false → noteWrite s h.w.ctx (some h.w.coreNo) va pa = some s2 →
    ∃ t g', exec (if unif then .stU d ea a sz k else .st d ea a sz k) s = .next t ∧ t.group h.g.id = some g' ∧
      WentOn h g' (nextPc h.p.pc) ∧ OnlyMonitor h g' ∧ (∀ b, memByte t.mem b = memByte (setBytes s2.mem pa bytes) b) ∧
      ((∀ j, j < 8 → regionOf (pa / 4 * 4 + j) ≠ .host) → t.host = s2.host)

/-- R254, R255, R262, R389, R390. -/
def Obligations.Stores : Prop :=
  Claim.ScratchpadStores ∧ Claim.FlatStores

/-- R83, R253, R265: an atomic of one thread with clean operands at a local address leaves the new value there; one that returns
has the old value in flight and its destination empty. -/
def Obligations.AtomicUpdates : Prop :=
  ∀ (i : Instr) (s s2 : State) (h : Here) (op : Nat) (d : BitVec 7) (ea : Bool) (a : BitVec 7) (ret wide : Bool) (k : BitVec 6)
    (t0 : Nat) (va : DWord) (pa : Nat) (ws : List Word),
    let size := if wide then 8 else 4
    let n := if wide then 2 else 1
    let data : Src := { file := .v, reg := d.toNat, n := if op = 8 then 2 * n else n }
    let dst : Dst := { file := .v, reg := d.toNat, n := n }
    let addr : Src := { file := .v, reg := a.toNat, e := ea, n := 2 }
    s.here = some h → atomicTable i = some (op, d, ea, a, ret, wide, k) → closedSpan h → unwatched s h →
    (op = 2 ∨ op = 3 → mType h.p.mode = 0 ∨ mType h.p.mode = 1) → vecThreads h.g h.p = [(t0, none)] → guardFull h.g h.p = true →
    operandCheck h [addr, data] (if ret then some dst else none) true = none → logging s h.w.ctx = false → s.ctl.shadow = [] →
    (ret = true → dstFull h.g h.p dst t0 = true) → addrOf h addr false (memOffset size k) t0 = .inr va →
    readSrc h.g h.p data t0 = .words ws → checkAccess s h t0 false { write := true } size size va = (.loc pa, s) →
    lineBlocked s h.g.id va pa s.exe.nextId = false → noteWrite s h.w.ctx (some h.w.coreNo) va pa = some s2 →
    (∀ j, j < n → eccBad s2 (pa + 4 * j) = false ∧ wordPoi s2.mem (pa + 4 * j) = false ∧ regionOf (pa + 4 * j) ≠ .host) →
    ∃ t g', exec i s = .next t ∧ t.host = s2.host ∧ t.group h.g.id = some g' ∧ WentOn h g' (nextPc h.p.pc) ∧
      (∀ b, memByte t.mem b = memByte (setBytes s2.mem pa
        (atomicBytes op wide ((op = 2 || op = 3) && mType h.p.mode = 0) (wordsAt s2.mem pa n) ws)) b) ∧
      (ret = false → OnlyMonitor h g') ∧
      (ret = true → AwaitsResults h g' dst [(t0, none)] ∧
        InFlight t h t0 (.ready (valueRegs (destsOf h.g h.p dst t0) (wordsAt s2.mem pa n))))

/-- R80, R280: SWSET writes the target of a sync word and clears its count; SWADD adds to its count, and where the count reaches the
target the generation advances; SWGEN has the generation in flight. -/
def Obligations.SyncWordOperations : Prop :=
  ∀ (s : State) (h : Here) (d a : BitVec 7) (ea : Bool) (t0 : Nat) (off x : Word),
    s.here = some h → uniThreads h.g h.p = [(t0, none)] → guardFull h.g h.p = true →
    readSrc h.g h.p (rSrc true a ea) t0 = .words [off] → off.toNat % 16 = 0 → off.toNat + 16 ≤ h.w.scratch →
    h.w.syncs.contains off.toNat = true →
    let base := h.w.scratchBase + off.toNat
    (closedSpan h → readSrc h.g h.p (rSrc true d false) t0 = .words [x] →
      (∃ t g', exec (.swset d ea a) s = .next t ∧ t.host = s.host ∧ t.group h.g.id = some g' ∧ WentOn h g' (nextPc h.p.pc) ∧
        OnlyMonitor h g' ∧ memWord t.mem base = x ∧ memWord t.mem (base + 4) = 0 ∧
        ∀ b, b < base ∨ base + 8 ≤ b → memByte t.mem b = memByte s.mem b) ∧
      (∃ t g', exec (.swadd d ea a) s = .next t ∧ t.host = s.host ∧ t.group h.g.id = some g' ∧ WentOn h g' (nextPc h.p.pc) ∧
        OnlyMonitor h g' ∧ (∀ b, b < base + 4 ∨ base + 12 ≤ b → memByte t.mem b = memByte s.mem b) ∧
        (let target := memWord s.mem base
         let count := memWord s.mem (base + 4) + x
         if target ≠ 0 ∧ target ≤ count then
           memWord t.mem (base + 4) = count % target ∧ memWord t.mem (base + 8) = memWord s.mem (base + 8) + count / target
         else memWord t.mem (base + 4) = count ∧ memWord t.mem (base + 8) = memWord s.mem (base + 8)))) ∧
    (operandsReady h [(t0, none)] [rSrc true a ea] (some (rDst true d)) = true → logging s h.w.ctx = false → h.g.quar = [] →
      settledWord s (execAgents h true t0) (base + 8) →
      ∃ t g', Done (.swgen d ea a) s h t g' ∧ OnlyRegisters h.g g' ∧ AwaitsResults h g' (rDst true d) [(t0, none)] ∧
        InFlight t h t0 (.ready (valueRegs (destsOf h.g h.p (rDst true d) t0) [memWord s.mem (base + 8)])))

/-- R67, R282, R284: FFILL of one thread fills an empty cell and leaves a full one as it is, counting the fill; FCLR makes the cell
empty and keeps its bytes. -/
def Claim.FutureFillsAndClears : Prop :=
  ∀ (s s2 : State) (h : Here) (unif : Bool) (d a : BitVec 7) (ea : Bool) (k : BitVec 6) (t0 : Nat) (va : DWord) (pa : Nat) (x y : Word),
    s.here = some h → closedSpan h → unwatched s h → execThreads unif h.g h.p = [(t0, none)] → guardFull h.g h.p = true →
    addrOf h (rSrc unif a ea 2) false (memOffset 8 k) t0 = .inr va →
    checkAccess s h t0 false { write := true, future := true } 8 8 va = (.loc pa, s) →
    lineBlocked s h.g.id va pa s.exe.nextId = false → noteWrite s h.w.ctx (some h.w.coreNo) va pa = some s2 →
    (operandCheck h [rSrc unif a ea 2, rSrc unif d false 2] none true = none →
      readSrc h.g h.p (rSrc unif d false 2) t0 = .words [x, y] →
      ∃ t g', exec (if unif then .ffillU d ea a k else .ffill d ea a k) s = .next t ∧ t.group h.g.id = some g' ∧
        WentOn h g' (nextPc h.p.pc) ∧ OnlyMonitor h g' ∧
        if fullBit s2.mem pa then
          t.mem = s2.mem ∧ t.mgmt (0x18000 + 0x100 * h.w.ctx + 0x54) = satAdd (s2.mgmt (0x18000 + 0x100 * h.w.ctx + 0x54)) 1
        else
          fullBit t.mem pa = true ∧ fullBit t.mem (pa + 4) = true ∧
            ∀ b, memByte t.mem b = memByte (setBytes s2.mem pa (bytesOfWord x ++ bytesOfWord y)) b) ∧
    (operandCheck h [rSrc unif a ea 2] none true = none →
      ∃ t g', exec (if unif then .fclrU ea a k else .fclr ea a k) s = .next t ∧ t.group h.g.id = some g' ∧
        WentOn h g' (nextPc h.p.pc) ∧ OnlyMonitor h g' ∧ fullBit t.mem pa = false ∧ fullBit t.mem (pa + 4) = false ∧
        ∀ b, memByte t.mem b = memByte s2.mem b)

/-- R281, R283: FREAD of full cells has their values in flight; FWAIT goes on when every executing thread's cell is full, and parks
its path while one is not. -/
def Claim.FutureReads : Prop :=
  ∀ (s : State) (h : Here) (unif : Bool) (d a : BitVec 7) (ea : Bool) (k : BitVec 6) (va : Nat → DWord) (pa : Nat → Nat),
    s.here = some h → h.g.quar = [] →
    (∀ t ∈ execThreads unif h.g h.p, t.2 = none → addrOf h (rSrc unif a ea 2) false (memOffset 8 k) t.1 = .inr (va t.1) ∧
      checkAccess s h t.1 false { future := true } 8 8 (va t.1) = (.loc (pa t.1), s)) →
    (operandCheck h [rSrc unif a ea 2] (some (rDst unif d 2)) true = none → logging s h.w.ctx = false → unwatched s h →
      operandsReady h (execThreads unif h.g h.p) [rSrc unif a ea 2] (some (rDst unif d 2)) = true →
      (∀ t ∈ execThreads unif h.g h.p, t.2 = none → lineBlocked s h.g.id (va t.1) (pa t.1) s.exe.nextId = false ∧
        fullBit s.mem (pa t.1) = true ∧ settledWord s (execAgents h unif t.1) (pa t.1) ∧ settledWord s (execAgents h unif t.1) (pa t.1 + 4)) →
      ∃ t g', Done (if unif then .freadU d ea a k else .fread d ea a k) s h t g' ∧ OnlyRegisters h.g g' ∧
        AwaitsResults h g' (rDst unif d 2) (execThreads unif h.g h.p) ∧
        ∀ x ∈ execThreads unif h.g h.p, x.2 = none →
          InFlight t h x.1 (.ready (valueRegs (destsOf h.g h.p (rDst unif d 2) x.1) (wordsAt s.mem (pa x.1) 2)))) ∧
    (unif = false → operandCheck h [rSrc false a ea 2] none true = none →
      operandsReady h (vecThreads h.g h.p) [rSrc false a ea 2] none = true →
      ((∀ t ∈ vecThreads h.g h.p, t.2 = none → fullBit s.mem (pa t.1) = true) →
        ∃ t g', Done (.fwait ea a k) s h t g' ∧ g' = { h.g with cells := g'.cells, retired := g'.retired, paths := g'.paths }) ∧
      ((∃ t ∈ vecThreads h.g h.p, t.2 = none ∧ fullBit s.mem (pa t.1) = false) → h.p.park ≠ .waiting →
        Parks (.fwait ea a k) s h .waiting))

/-- R67, R281 to R284. -/
def Obligations.Futures : Prop :=
  Claim.FutureFillsAndClears ∧ Claim.FutureReads

/-- R78, R103, R135, R136, R273, R285: nothing that comes before an effect of a kind that a thread of the path makes now still waits. -/
def inTurn (s : State) (h : Here) (t0 : Nat) (kind : EffKind) (size : Nat) : Prop :=
  ∀ e : Eff, e.kind = kind → e.size = size → e.gid = h.g.id → e.t = t0 → e.inst = h.g.retired → e.ctx = h.w.ctx → e.ags = execAgents h true t0 →
    e.blocked s s.exe.nextId = false

/-- R125, R129, R131, R142, R149, R151, R285: what a push of one thread that is not urgent does at the unit of its quadrant: a push
to a worklist that takes none, or of a malformed entry, is counted as rejected; an entry is queued where there is room, an empty range
only counted, and a future-fill entry of an empty cell parked. -/
def Claim.WorklistPushes : Prop :=
  ∀ (i : Instr) (s : State) (h : Here) (unif range : Bool) (d : BitVec 7) (w : BitVec 4) (t0 : Nat) (ws : List Word),
    let e := pushedEntry range ws
    let l := getList s h.w.ctx w.toNat
    let u := unitOf s h.w.quad
    let x := l.unit u
    let after (t : State) : WLUnit := (getList t h.w.ctx w.toNat).unit u
    s.here = some h → pushTable i = some (unif, d, w, range) → closedSpan h → execThreads unif h.g h.p = [(t0, none)] →
    guardFull h.g h.p = true → operandCheck h [rSrc unif d false 4] none true = none →
    readSrc h.g h.p (rSrc unif d false 4) t0 = .words ws → pushesWaiting s h.w h.g.id [t0] none = false → inTurn s h t0 (.push w.toNat) 16 → (s.ctx h.w.ctx).isSome = true →
    ((l.state ≠ 1 ∨ entryMalformed e = true) →
      ∃ t, Pushed i s h t ∧ (after t).rejected = min (x.rejected + 1) 127 ∧ (after t).queued = x.queued) ∧
    (l.state = 1 → entryMalformed e = false → entryKind e = 1 → e.hi ≤ e.lo →
      ∃ t, Pushed i s h t ∧ (after t).pushes = x.pushes + 1 ∧ (after t).dones = x.dones + 1 ∧ (after t).queued = x.queued) ∧
    (l.state = 1 → entryMalformed e = false → entryKind e = 0 ∨ (entryKind e = 1 ∧ e.lo < e.hi) → l.urgent u (l.bucket e) = false →
      ∀ y, l.place x (othersAt s l u)
        { age := l.age, bin := binOf (entryPayload e), entry := e, spilled := false } = some y →
      ∃ t, Pushed i s h t ∧ (after t).queued = y.queued ∧ (after t).pushes = y.pushes + 1 ∧
        (getList t h.w.ctx w.toNat).age = l.age + 1) ∧
    (l.state = 1 → entryMalformed e = false → entryKind e = 2 → l.urgent u (l.bucket e) = false → ∀ pa poa,
      checkFlat (resetWatchdog s h.g.id) h.w.ctx none (privileged s h.w) { future := true } (entryPayload e) =
        (.loc pa poa, resetWatchdog s h.g.id) →
      fullBit s.mem pa = false → x.spillUsed < l.share →
      ∃ t, Pushed i s h t ∧ (after t).parked = x.parked ++ [{ cell := pa, entry := e, woken := false }] ∧
        (after t).pushes = x.pushes + 1 ∧ (after t).queued = x.queued)

/-- R272, R273, R279: QW appends its word to the command of its queue; the word that completes a command forks the operation, or posts
one failed result where the command is malformed; QW to q6 or q7 is dropped and counted. -/
def Claim.QueueWords : Prop :=
  ∀ (s : State) (h : Here) (q : BitVec 3) (ea : Bool) (a : BitVec 7) (t0 : Nat) (x : Word),
    s.here = some h → closedSpan h → uniThreads h.g h.p = [(t0, none)] → guardFull h.g h.p = true →
    readSrc h.g h.p (rSrc true a ea) t0 = .words [x] →
    (6 ≤ q.toNat → ∃ t g', exec (.qw q ea a) s = .next t ∧ t.mem = s.mem ∧ t.group h.g.id = some g' ∧ WentOn h g' (nextPc h.p.pc) ∧
      g' = { h.g with retired := g'.retired, paths := g'.paths } ∧
      t.mgmt (0x18000 + 0x100 * h.w.ctx + 0x58) = satAdd (s.mgmt (0x18000 + 0x100 * h.w.ctx + 0x58)) 1) ∧
    (q = 0 ∨ q = 2 ∨ q = 4 → bufferFull s h.g q.toNat = true → h.p.park ≠ .waiting → Parks (.qw q ea a) s h .waiting) ∧
    (q = 0 ∨ q = 2 ∨ q = 4 → bufferFull s h.g q.toNat = false →
      accessesWaiting s h.g.id ((vecThreads h.g h.p).map (·.1)) false = false → inTurn s h t0 .qw q.toNat →
      let ws := (h.g.queue q.toNat).partWords ++ [x]
      ∃ t g', exec (.qw q ea a) s = .next t ∧ (∀ b, ws.length < commandLength q.toNat → memByte t.mem b = memByte s.mem b) ∧
        t.group h.g.id = some g' ∧ WentOn h g' (nextPc h.p.pc) ∧
        g' = { h.g with queues := g'.queues, mon := g'.mon, retired := g'.retired, paths := g'.paths } ∧
        (g'.queue q.toNat).partWords = (if ws.length < commandLength q.toNat then ws else []) ∧
        (commandLength q.toNat ≤ ws.length → commandBad h.w.scratch q.toNat ws = true → (h.g.queue q.toNat).results.length < 8 →
          (h.g.queue q.toNat).held = [] →
          (g'.queue q.toNat).results = (h.g.queue q.toNat).results ++ [{ tag := 0, failed := true, pc := h.p.pc }]) ∧
        (commandLength q.toNat ≤ ws.length → commandBad h.w.scratch q.toNat ws = false →
          ∃ o, sfind t.exe.engOps s.exe.nextId = some o ∧ o.gid = h.g.id ∧ o.q = q.toNat ∧ o.words = ws ∧ o.pc = h.p.pc ∧ o.pos = 0))

/-- R98, R100, R271: FENCE is, for every executing thread in turn, a publishing point of what it sees and an observing point, at its
scope; scope 0 publishes nothing. -/
def Claim.FencePublishesAndObserves : Prop :=
  ∀ (s : State) (h : Here) (sc : BitVec 3), s.here = some h → closedSpan h → guardFull h.g h.p = true →
    (∀ t ∈ vecThreads h.g h.p, t.2 = none) → orderedReady s h (5 ≤ sc.toNat) = true → popsDone s h = true →
    ∃ t g', exec (.fence sc) s = .next t ∧ t.host = s.host ∧ t.group h.g.id = some g' ∧ WentOn h g' (nextPc h.p.pc) ∧
      OnlyMonitor h g' ∧ t.mem.bytes = s.mem.bytes ∧ t.mem.marks = s.mem.marks ∧
      t.mem = (vecThreads h.g h.p).foldl (fun m x =>
        let ag := agentOf h.g.id x.1
        let place := placeOf h.g h.w x.1
        observe (if sc = 0 then m else publish m place sc.toNat (floorsOf m ag)) ag place sc.toNat) s.mem

/-- R99, R271: PUB publishes, for every executing thread with clean operands, what it sees of the range; scope 0 and an empty range
publish nothing. -/
def Claim.PublishRange : Prop :=
  ∀ (s : State) (h : Here) (d a : BitVec 7) (ea : Bool) (sc : BitVec 3) (base : Nat → DWord) (len : Nat → Word),
    s.here = some h → closedSpan h → operandCheck h [rSrc false a ea 2, rSrc false d false] none true = none →
    operandsReady h (vecThreads h.g h.p) [rSrc false a ea 2, rSrc false d false] none = true → orderedReady s h true = true →
    (∀ t ∈ vecThreads h.g h.p, t.2 = none ∧
      readSrc h.g h.p (rSrc false a ea 2) t.1 = .words [(DWord.halves (base t.1)).1, (DWord.halves (base t.1)).2] ∧
      readSrc h.g h.p (rSrc false d false) t.1 = .words [len t.1]) →
    ∃ t g', Done (.pub d ea a sc) s h t g' ∧ g' = { h.g with retired := g'.retired, paths := g'.paths } ∧
      t.mem = (vecThreads h.g h.p).foldl (fun m x =>
        if len x.1 = 0 ∨ sc = 0 then m
        else publish m (placeOf h.g h.w x.1) sc.toNat
          (rangeFloor m (floorsOf m (agentOf h.g.id x.1)) (base x.1).toNat (len x.1).toNat)) s.mem

/-- R98 to R100, R271. -/
def Obligations.FencesAndPublication : Prop :=
  Claim.FencePublishesAndObserves ∧ Claim.PublishRange

/-- R94, R95, R269: ACQ of a local object with settled words gives every executing thread the object's 8 bytes, and lets it see what
every earlier release of the object released. -/
def Claim.AcquireReadsAndSees : Prop :=
  ∀ (s : State) (h : Here) (unif : Bool) (d a : BitVec 7) (ea : Bool) (sc : BitVec 3) (va : Nat → DWord) (pa : Nat → Nat),
    s.here = some h → closedSpan h → operandCheck h [rSrc unif a ea 2] (some (rDst unif d 2)) true = none →
    operandsReady h (execThreads unif h.g h.p) [rSrc unif a ea 2] (some (rDst unif d 2)) = true → orderedReady s h true = true →
    popsDone s h = true → unwatched s h → logging s h.w.ctx = false →
    (∀ t ∈ execThreads unif h.g h.p, t.2 = none ∧ addrOf h (rSrc unif a ea 2) false 0 t.1 = .inr (va t.1) ∧
      checkAccess s h t.1 false {} 8 8 (va t.1) = (.loc (pa t.1), s) ∧ lineBlocked s h.g.id (va t.1) (pa t.1) s.exe.nextId = false ∧
      settledWord s (execAgents h unif t.1) (pa t.1) ∧ settledWord s (execAgents h unif t.1) (pa t.1 + 4)) →
    ∃ t g', Done (if unif then .acqU d ea a sc else .acq d ea a sc) s h t g' ∧ OnlyRegisters { h.g with mon := g'.mon, gotten := g'.gotten } g' ∧
      Wrote h g' (rDst unif d 2) ((execThreads unif h.g h.p).map (·.1)) (fun x => .inr (.words (wordsAt s.mem (pa x) 2))) ∧
      t.mem.rels = s.mem.rels ∧
      ∀ x ∈ execThreads unif h.g h.p, ∀ ag ∈ execAgents h unif x.1, ∀ r ∈ s.mem.rels, r.obj = pa x.1 →
        ∀ b, sget 0 r.floor b ≤ sget 0 (floorsOf t.mem ag) b

/-- R93, R270: REL of one thread at a local object stores its 8 bytes there and releases the object. -/
def Claim.ReleaseStoresAndReleases : Prop :=
  ∀ (s s2 : State) (h : Here) (unif : Bool) (d a : BitVec 7) (ea : Bool) (sc : BitVec 3) (t0 : Nat) (va : DWord) (pa : Nat) (x y : Word),
    s.here = some h → closedSpan h → unwatched s h → guardFull h.g h.p = true → execThreads unif h.g h.p = [(t0, none)] →
    operandCheck h [rSrc unif a ea 2, rSrc unif d false 2] none true = none → orderedReady s h true = true →
    addrOf h (rSrc unif a ea 2) false 0 t0 = .inr va → readSrc h.g h.p (rSrc unif d false 2) t0 = .words [x, y] →
    checkAccess s h t0 false { write := true } 8 8 va = (.loc pa, s) → lineBlocked s h.g.id va pa s.exe.nextId = false →
    noteWrite s h.w.ctx (some h.w.coreNo) va pa = some s2 →
    ∃ t g', exec (if unif then .relU d ea a sc else .rel d ea a sc) s = .next t ∧ t.group h.g.id = some g' ∧
      WentOn h g' (nextPc h.p.pc) ∧ OnlyMonitor h g' ∧
      (∀ b, memByte t.mem b = memByte (setBytes s2.mem pa (bytesOfWord x ++ bytesOfWord y)) b) ∧
      ∃ rs, t.mem.rels = s2.mem.rels ++ rs ∧ rs.length = (execAgents h unif t0).length ∧ ∀ r ∈ rs, r.obj = pa

/-- R93 to R95, R269, R270. -/
def Obligations.AcquiresAndReleases : Prop :=
  Claim.AcquireReadsAndSees ∧ Claim.ReleaseStoresAndReleases

/-- R90, R267, R268: BIND of one thread binds the lines of its region to its object, but for the object's own line; UNBIND leaves the
object without a region. No byte of memory changes. -/
def Obligations.BindingRegions : Prop :=
  ∀ (s : State) (h : Here) (unif : Bool) (d a b : BitVec 7) (ea eb : Bool) (t0 : Nat) (o base : DWord) (n : Word) (pa : Nat)
    (ls : List (Nat × Nat)),
    s.here = some h → execThreads unif h.g h.p = [(t0, none)] → orderedReady s h false = true →
    readSrc h.g h.p (rSrc unif a ea 2) t0 = .words [(DWord.halves o).1, (DWord.halves o).2] →
    checkAccess s h t0 false {} 8 8 o = (.loc pa, s) →
    (operandCheck h [rSrc unif a ea 2, rSrc unif b eb 2, rSrc unif d false] none true = none →
      operandsReady h (execThreads unif h.g h.p) [rSrc unif a ea 2, rSrc unif b eb 2, rSrc unif d false] none = true →
      readSrc h.g h.p (rSrc unif b eb 2) t0 = .words [(DWord.halves base).1, (DWord.halves base).2] →
      readSrc h.g h.p (rSrc unif d false) t0 = .words [n] → n ≠ 0 → n.toNat ≤ 1048576 → base.extractLsb' 55 9 = 0 →
      regionLines s h.w (n.toNat / 512 + 2) (base.toNat / 128) n.toNat = (some ls, s) →
      ∃ t g' e, exec (if unif then .bindU d ea a eb b else .bind d ea a eb b) s = .next t ∧ t.group h.g.id = some g' ∧
        WentOn h g' (nextPc h.p.pc) ∧ g' = { h.g with retired := g'.retired, paths := g'.paths } ∧
        (∀ k, memByte t.mem k = memByte s.mem k) ∧
        sfind t.mem.binds pa = some { lines := withoutLine ls (pa / 128), eager := e, ctx := h.w.ctx }) ∧
    (operandCheck h [rSrc unif a ea 2] none true = none →
      operandsReady h (execThreads unif h.g h.p) [rSrc unif a ea 2] none = true →
      ∃ t g', exec (if unif then .unbindU ea a else .unbind ea a) s = .next t ∧ t.host = s.host ∧ t.group h.g.id = some g' ∧
        WentOn h g' (nextPc h.p.pc) ∧ g' = { h.g with retired := g'.retired, paths := g'.paths } ∧
        (∀ k, memByte t.mem k = memByte s.mem k) ∧ sfind t.mem.binds pa = none)

/-- R274, R272: QR of a result queue empties its destination and waits for the queue's oldest entry; QR of q6 or q7 gives new
ENGINE_FAULT poison at once. -/
def Claim.QueueReads : Prop :=
  ∀ (s : State) (h : Here) (d : BitVec 7) (q : BitVec 3) (t0 : Nat),
    s.here = some h → closedSpan h → uniThreads h.g h.p = [(t0, none)] →
    operandsReady h [(t0, none)] [] (some (rDst true d)) = true →
    (q.toNat < 6 → ∃ t g', Done (.qr d q) s h t g' ∧ OnlyRegisters h.g g' ∧ AwaitsResults h g' (rDst true d) [(t0, none)] ∧
      InFlight t h t0 (.result q.toNat ⟨1, d.toNat, 0⟩ (execAgents h true t0))) ∧
    (6 ≤ q.toNat → (∀ kr ∈ (sget ({} : Side) s.exe.sides h.w.coreNo).recs, kr.2.1 ≠ h.g.id) → ∀ e,
      freeEntry (sget ({} : Side) s.exe.sides h.w.coreNo).recs s.ctl.tick = some e →
      ∃ t g' r, Done (.qr d q) s h t g' ∧ OnlyRegisters h.g g' ∧ Wrote h g' (rDst true d) [t0] (fun _ => .inl (BitVec.ofNat 10 e)) ∧
        recordAt t h.w.coreNo (BitVec.ofNat 10 e) = some r ∧ r.cause = causeEngine)

/-- R272 to R274, R279. -/
def Obligations.EngineQueueWords : Prop :=
  Claim.QueueWords ∧ Claim.QueueReads

/-- R275, R301, R308: QSTAT, MPROG and TDESC write the status of a queue pair, of a tile's progress, of a tile descriptor. That
QSTAT does not count a result that a QR in flight will take is the model's choice (log entry 47). -/
def Obligations.StatusWords : Prop :=
  ∀ (i : Instr) (s : State) (h : Here) (srcs : List Src) (d : BitVec 7) (f : List (List Word) → Word) (t0 : Nat) (vs : List (List Word)),
    s.here = some h → statusTable s h i = some (srcs, d, f) → logging s h.w.ctx = false → uniThreads h.g h.p = [(t0, none)] →
    operandsReady h [(t0, none)] srcs (some (rDst true d)) = true → operands h t0 srcs = some (.inr vs) →
    ∃ g', RegisterStep i s h g' ∧ Wrote h g' (rDst true d) [t0] (fun _ => .inr (.words [f vs]))

/-- R139, R147, R152, R286, R287: WLPOP of a worklist that is open sends the pops of its threads to their unit; of another it has four
zeros and false in flight. WLDONE counts the tasks that its threads hold. WLSTAT writes the status of the unit. -/
def Claim.WorklistTasks : Prop :=
  ∀ (s : State) (h : Here) (w : BitVec 4),
    let l := getList s h.w.ctx w.toNat
    let u := unitOf s h.w.quad
    s.here = some h → closedSpan h → (s.ctx h.w.ctx).isSome = true → logging s h.w.ctx = false →
    (∀ (d : BitVec 7) (p : BitVec 3), operandCheck h [] (some ⟨.v, d.toNat, 4⟩) true = none →
      operandsReady h (vecThreads h.g h.p) [] (some ⟨.v, d.toNat, 4⟩) = true →
      (∀ t ∈ vecThreads h.g h.p, t.2 = none ∧ dstFull h.g h.p ⟨.p, p.toNat, 1⟩ t.1 = true ∧ sfind h.g.held (taskKey w.toNat t.1) = none) →
      pushesWaiting s h.w h.g.id ((vecThreads h.g h.p).map (·.1)) (some w.toNat) = false →
      ∃ t g', exec (.wlpop d p w) s = .next t ∧ t.mem = s.mem ∧ t.group h.g.id = some g' ∧ WentOn h g' (nextPc h.p.pc) ∧ OnlyWork h g' ∧
        (∀ x ∈ vecThreads h.g h.p, ∀ j, j < 4 → (vGet g' (resolve h.g h.p d.toNat x.1 + j) x.1).full = false) ∧
        (∀ x ∈ vecThreads h.g h.p, p ≠ 0 → (pGet g' p.toNat x.1).full = false) ∧
        (l.state = 1 → (∀ x ∈ vecThreads h.g h.p,
            InFlight t h x.1 (.pop w.toNat (destsOf h.g h.p ⟨.v, d.toNat, 4⟩ x.1) ⟨2, p.toNat, x.1⟩)) ∧
          ((getList t h.w.ctx w.toNat).unit u).sleeping.length = (l.unit u).sleeping.length + (vecThreads h.g h.p).length) ∧
        (l.state ≠ 1 → ∀ x ∈ vecThreads h.g h.p,
          InFlight t h x.1 (.ready (popRegs (destsOf h.g h.p ⟨.v, d.toNat, 4⟩ x.1) ⟨2, p.toNat, x.1⟩ ([0, 0, 0, 0], false))))) ∧
    (guardFull h.g h.p = true → (∀ t ∈ vecThreads h.g h.p, t.2 = none) →
      pushesWaiting s h.w h.g.id ((vecThreads h.g h.p).map (·.1)) (some w.toNat) = false →
      ∃ t g', exec (.wldone w) s = .next t ∧ t.mem = s.mem ∧ t.group h.g.id = some g' ∧ WentOn h g' (nextPc h.p.pc) ∧ OnlyWork h g' ∧
        (∀ x ∈ vecThreads h.g h.p, sfind g'.held (taskKey w.toNat x.1) = none) ∧ g'.v = h.g.v ∧ g'.p = h.g.p ∧
        (∀ t0, vecThreads h.g h.p = [(t0, none)] → sfind h.g.held (taskKey w.toNat t0) = some l.config → l.state ≠ 0 →
          ((getList t h.w.ctx w.toNat).unit u).dones = (l.unit u).dones + 1)) ∧
    (∀ (d : BitVec 7) (t0 : Nat), uniThreads h.g h.p = [(t0, none)] → operandsReady h [(t0, none)] [] (some (rDst true d)) = true →
      s.ctl.stalled = false →
      ∃ t g', Done (.wlstat d w) s h t g' ∧ OnlyRegisters { h.g with wdog := 0 } g' ∧
        Wrote h g' (rDst true d) [t0] (fun _ => .inr (.words [worklistStatus l (l.unit u)])))

/-- R125, R129, R131, R139, R142, R147, R149, R151, R152, R285 to R287. -/
def Obligations.WorklistPushesAndTasks : Prop :=
  Claim.WorklistPushes ∧ Claim.WorklistTasks

/-- R143, R145: no push and no stolen entry waits at any unit. -/
def nothingWaits (s : State) : Prop :=
  ∀ kc ∈ s.host.ctxs, ∀ kl ∈ kc.2.lists, ∀ ku ∈ kl.2.units, ku.2.waiting = [] ∧ ku.2.arriving = []

/-- R126, R128, R255, R287: WLCFG is an illegal instruction with reason 6 in a launch that is not privileged. In a privileged one it
applies the descriptor that it reads and writes 0, or disables the worklist and writes 1 for an invalid descriptor, or writes 2, with
a record of the failing read, where it cannot read one; here for a descriptor and for domains, before and after, in this package. -/
def Obligations.WorklistConfiguration : Prop :=
  ∀ (s s1 : State) (h : Here) (d a : BitVec 7) (ea : Bool) (w : BitVec 4) (t0 : Nat) (x y : Word) (r : ConfigRead), s.here = some h →
    (privileged s h.w = false → Illegal (.wlcfg d ea a w) s h (encode (.wlcfg d ea a w)) 6) ∧
    (privileged s h.w = true → unwatched s h → uniThreads h.g h.p = [(t0, none)] → h.p.park ≠ .waiting → t0 < 128 →
      (∀ kp ∈ s.exe.pendings, kp.2.gid ≠ h.g.id) → h.g.gotten = [] →
      operandsReady h [(t0, none)] [rSrc true a ea 2] (some (rDst true d)) = true →
      readSrc h.g h.p (rSrc true a ea 2) t0 = .words [x, y] → readDescriptor h t0 (DWord.ofHalves x y) 8 s = (r, s1) →
      s1.group h.g.id = some h.g → (s1.ctx h.w.ctx).isSome = true →
      (∀ f : Fresh, r = .failed f → f.cause ≠ causeInvalid → f.cause ≠ causeDenied →
        (∀ kr ∈ (sget ({} : Side) s1.exe.sides h.w.coreNo).recs, kr.2.1 ≠ h.g.id) → ∀ e,
        s1.wg h.w.id = some h.w → freeEntry (sget ({} : Side) s1.exe.sides h.w.coreNo).recs s1.ctl.tick = some e →
        ∃ t g' q, exec (.wlcfg d ea a w) s = .next t ∧ t.mem = s1.mem ∧ t.host = s1.host ∧ t.group h.g.id = some g' ∧
          WentOn h g' (nextPc h.p.pc) ∧ Wrote h g' (rDst true d) [t0] (fun _ => .inr (.words [2])) ∧
          recordAt t h.w.coreNo (BitVec.ofNat 10 e) = some q ∧ q.cause = f.cause) ∧
      (∀ ws, r = .words ws → nothingWaits s1 → (∀ u ∈ skeys (getList s1 h.w.ctx w.toNat).units, u / 4 = nodeNo s1) →
        let off := (ws.getD 0 0).getLsbD 31 = false
        let ok := descriptorOk s1 h.w.ctx ws = true
        (∀ u ∈ domainUnits s1 h.w.ctx ((ws.getD 0 0).getLsbD 29), u / 4 = nodeNo s1) →
        ∃ t g', exec (.wlcfg d ea a w) s = .next t ∧ t.mem = s1.mem ∧ t.group h.g.id = some g' ∧ WentOn h g' (nextPc h.p.pc) ∧
          Wrote h g' (rDst true d) [t0] (fun _ => .inr (.words [if off ∨ ok then 0 else 1])) ∧
          (off ∨ ¬ok → (getList t h.w.ctx w.toNat).state = 0) ∧
          (¬off → ok → Configured (getList t h.w.ctx w.toNat) ws)))

/-- R293, R294: GANG writes the old gang register, and names the gang of its operand where that is valid for the group. -/
def Claim.GangNaming : Prop :=
  ∀ (s : State) (h : Here) (d a : BitVec 7) (ea : Bool) (t0 : Nat) (x : Word),
    s.here = some h → uniThreads h.g h.p = [(t0, none)] →
    operandsReady h [(t0, none)] [rSrc true a ea] (some (rDst true d)) = true → readSrc h.g h.p (rSrc true a ea) t0 = .words [x] →
    let ms := (List.range 16).filter (x.getLsbD ·)
    let valid := x.extractLsb' 24 8 = 0 ∧ x.extractLsb' 20 3 = 0 ∧ 2 ≤ ms.length ∧ ms.length ≤ 6 ∧ (∀ m ∈ ms, m < h.w.ngroups) ∧
      h.g.pos ∈ ms ∧ (x.extractLsb' 16 4).toNat ∈ ms
    ∃ g', GroupStep (.gang d ea a) s g' ∧ WentOn h g' (nextPc h.p.pc) ∧
      OnlyRegisters { h.g with gang := if valid then x ||| 0x00400000#32 else 0x00200000#32 } g' ∧
      Wrote h g' (rDst true d) [t0] (fun _ => .inr (.words [h.g.gang]))

/-- R295, R297: an MMA or MMAS of a group that names no gang, with clean and valid operands, enters its operation into the queue of its
tile, which becomes empty, and goes on; that of a member of a gang of which another member has not arrived waits at the latch; in a
diverged group, and for a tile that the workgroup does not have, they are illegal instructions. -/
def Claim.MatrixArrivals : Prop :=
  ∀ (s : State) (h : Here) (scaled : Bool) (c : BitVec 3) (ea : Bool) (a : BitVec 7) (sl : BitVec 3), s.here = some h →
    let fmt := slotOf s h.w sl
    let x := sget ({} : Tile) h.w.tiles c.toNat
    let i := mmaWord scaled c ea a sl
    (diverged h.g = true ∨ h.w.ntiles ≤ c.toNat → Illegal i s h (encode i) 7) ∧
    (diverged h.g = false → c.toNat < h.w.ntiles → closedSpan h → h.p.park ≠ .rendezvous → h.w.arrivals = [] →
      accessesWaiting s h.g.id (threadsOf h.p.mask) false = false → (∀ k, k < 16 → (sGet h.g (a.toNat + k)).full = true ∧ (sGet h.g (a.toNat + k)).poi = false) →
      (h.g.gang.getLsbD 22 = false → h.g.gang.getLsbD 21 = false → queueHeld h.w c.toNat = false → (∀ o ∈ x.ops, o.fail = none) →
        blockCause scaled fmt (blockWords h a scaled) = none →
        ∃ t g' w' o, exec i s = .next t ∧ t.host = s.host ∧ (∀ b, memByte t.mem b = memByte s.mem b) ∧ t.group h.g.id = some g' ∧
          WentOn h g' (nextPc h.p.pc) ∧ g' = { h.g with gang := g'.gang, retired := g'.retired, paths := g'.paths } ∧
          t.wg h.w.id = some w' ∧ w'.arrivals = [] ∧ (sget ({} : Tile) w'.tiles c.toNat).full = false ∧
          (sget ({} : Tile) w'.tiles c.toNat).ops = x.ops ++ [o] ∧ (sget ({} : Tile) w'.tiles c.toNat).elems = x.elems ∧
          o.gid = h.g.id ∧ o.pc = h.p.pc ∧ o.fmt = fmt ∧ o.scaled = scaled ∧ o.block = blockWords h a scaled ∧ o.fail = none ∧
          o.nk = (TDesc.of (blockWords h a scaled)).nk ∧ o.started = false) ∧
      (h.g.gang.getLsbD 22 = true → (∃ m, m < 16 ∧ h.g.gang.getLsbD m = true ∧ m ≠ h.g.pos) →
        ∃ t g' w' y, exec i s = .next t ∧ t.mem = s.mem ∧ t.host = s.host ∧ t.group h.g.id = some g' ∧
          PathAt g' h.pid { h.p with park := .rendezvous } ∧ g' = { h.g with paths := g'.paths } ∧
          t.wg h.w.id = some w' ∧ w'.arrivals = [y] ∧ y.pos = h.g.pos ∧ y.scaled = scaled ∧ y.acc = c.toNat ∧ y.slot = sl.toNat))

/-- R293 to R295, R297. -/
def Obligations.GangsAndMatrixArrivals : Prop :=
  Claim.GangNaming ∧ Claim.MatrixArrivals

/-- R305, R307: ACCZ clears a full tile; ACCRD gives every executing thread the element that its operand names; ACCWR writes the
elements of its threads in ascending order. -/
def Obligations.AccumulatorElements : Prop :=
  ∀ (s : State) (h : Here) (c : BitVec 3), s.here = some h → c.toNat < h.w.ntiles →
    let x := sget ({} : Tile) h.w.tiles c.toNat
    x.full = true →
    (∀ t0, uniThreads h.g h.p = [(t0, none)] → guardFull h.g h.p = true →
      ∃ t g' w', Done (.accz c) s h t g' ∧ g' = { h.g with retired := g'.retired, paths := g'.paths } ∧ t.wg h.w.id = some w' ∧
        sget ({} : Tile) w'.tiles c.toNat = { x with elems := [], poi := [], tok := none }) ∧
    (∀ (d b : BitVec 7) (eb : Bool) (f : Nat → Word), operandCheck h [vSrc b eb] (some (rDst false d)) true = none →
      operandsReady h (vecThreads h.g h.p) [vSrc b eb] (some (rDst false d)) = true →
      (∀ t ∈ vecThreads h.g h.p, t.2 = none → readSrc h.g h.p (vSrc b eb) t.1 = .words [f t.1]) →
      ∃ t g', Done (.accrd d c eb b) s h t g' ∧ OnlyRegisters h.g g' ∧ ∀ res : Nat → Token ⊕ Val,
        (∀ t ∈ vecThreads h.g h.p, res t.1 = guarded t (tileElement x (f t.1))) →
          Wrote h g' (rDst false d) ((vecThreads h.g h.p).map (·.1)) res) ∧
    (∀ (a b : BitVec 7) (ea eb : Bool) (f v : Nat → Word), operandCheck h [vSrc a ea, vSrc b eb] none true = none →
      vecThreads h.g h.p ≠ [] → guardFull h.g h.p = true →
      (∀ t ∈ vecThreads h.g h.p, t.2 = none ∧ readSrc h.g h.p (vSrc a ea) t.1 = .words [v t.1] ∧
        readSrc h.g h.p (vSrc b eb) t.1 = .words [f t.1]) →
      ∃ t g' w', Done (.accwr c ea a eb b) s h t g' ∧ g' = { h.g with retired := g'.retired, paths := g'.paths } ∧
        t.wg h.w.id = some w' ∧ ∀ e, sget 0 (sget ({} : Tile) w'.tiles c.toNat).elems e =
          (vecThreads h.g h.p).foldl (fun old u => if (f u.1).toNat % 4096 = e then v u.1 else old) (sget 0 x.elems e))

/-- R290, R291, R306: ACCLD of a valid descriptor whose words have settled loads element (i, j) of the tile from the place that the
descriptor gives it, in the format of the slot. That a BF16 NaN is loaded as the default NaN of fp32 is the model's choice (log
entry 34). -/
def Claim.AccumulatorLoad : Prop :=
  ∀ (s : State) (h : Here) (c : BitVec 3) (ea : Bool) (a : BitVec 7) (sl : BitVec 3) (t0 : Nat) (ws : List Word) (pa : DWord → Nat),
    s.here = some h → c.toNat < h.w.ntiles → closedSpan h → (sget ({} : Tile) h.w.tiles c.toNat).full = true →
    uniThreads h.g h.p = [(t0, none)] → operandsReady h [(t0, none)] [rSrc true a ea 4] none = true → logging s h.w.ctx = false →
    unwatched s h → readSrc h.g h.p (rSrc true a ea 4) t0 = .words ws → (TDesc.of ws).status = 0 → (TDesc.of ws).nk = 4 →
    let fmt := slotOf s h.w sl
    let es := elemSize (slotElem fmt)
    let at' (i j : Nat) : DWord := (TDesc.of ws).addr es i j
    (∀ i j, i < 64 → j < 64 → checkAccess s h t0 false {} 4 4 (wordAddr (at' i j)) = (.loc (pa (wordAddr (at' i j))), s) ∧
      lineBlocked s h.g.id (wordAddr (at' i j)) (pa (wordAddr (at' i j))) s.exe.nextId = false ∧ settledWord s (execAgents h true t0) (pa (wordAddr (at' i j)))) →
    ∃ t g' w', Done (.accld c ea a sl) s h t g' ∧ t.wg h.w.id = some w' ∧ (sget ({} : Tile) w'.tiles c.toNat).poi = [] ∧
      ∀ i j, i < 64 → j < 64 → sget 0 (sget ({} : Tile) w'.tiles c.toNat).elems (64 * i + j) =
        loadElem fmt (elemBits (memWord s.mem (pa (wordAddr (at' i j)))) (at' i j) es)

/-- R306, R309: with clean operands and valid descriptors, ACCST stores the 4,096 elements of a full tile, converted to the format of the
slot, and TCVT the elements that it reads, converted, one after the other as stores of the group at the places that the descriptor
gives them, and the word retires. -/
def Claim.TileStores : Prop :=
  ∀ (s : State) (h : Here) (ea : Bool) (a : BitVec 7) (sl : BitVec 3) (t0 : Nat) (ws : List Word),
    s.here = some h → closedSpan h → unwatched s h → uniThreads h.g h.p = [(t0, none)] → guardFull h.g h.p = true →
    readSrc h.g h.p (rSrc true a ea 4) t0 = .words ws →
    let fmt := slotOf s h.w sl
    let ed := elemSize (slotElem fmt)
    (TDesc.of ws).status = 0 →
    (∀ c : BitVec 3, c.toNat < h.w.ntiles →
      let x := sget ({} : Tile) h.w.tiles c.toNat
      x.full = true → x.poi = [] → x.last = [] → (TDesc.of ws).nk = 4 →
      (∀ e, e < 4096 → (storeElem fmt (sget 0 x.elems e)).isSome = true) →
      exec (.accst c ea a sl) s = .next (retire (storeTile s h t0 none ed
        ((List.range 64).flatMap fun i => (List.range 64).map fun j =>
          { va := (TDesc.of ws).addr ed i j, bits := (storeElem fmt (sget 0 x.elems (64 * i + j))).getD 0, poi := none })) h)) ∧
    (∀ (d : BitVec 7) (vs : List Word) (es : Nat) (at' : Nat → Nat → DWord) (pa : DWord → Nat),
      readSrc h.g h.p (rSrc true d false 4) t0 = .words vs → (TDesc.of vs).status = 0 → (TDesc.of ws).nk = (TDesc.of vs).nk →
      pairListed (TDesc.of ws).efmt (slotElem fmt) = true → logging s h.w.ctx = false → es = elemSize (TDesc.of ws).efmt →
      at' = (fun i k => (TDesc.of ws).addr es i k) →
      (∀ i k, i < 64 → k < 16 * (TDesc.of ws).nk →
        checkAccess s h t0 false {} 4 4 (wordAddr (at' i k)) = (.loc (pa (wordAddr (at' i k))), s) ∧
        lineBlocked s h.g.id (wordAddr (at' i k)) (pa (wordAddr (at' i k))) s.exe.nextId = false ∧ settledWord s (execAgents h true t0) (pa (wordAddr (at' i k))) ∧
        (convertElem fmt (TDesc.of ws).efmt (elemBits (memWord s.mem (pa (wordAddr (at' i k)))) (at' i k) es)).isSome = true) →
      ∃ s1, (∀ b, memByte s1.mem b = memByte s.mem b) ∧ s1.host = s.host ∧ s1.group h.g.id = some { h.g with tileAsk := [], tileGot := [] } ∧
        exec (.tcvt d ea a sl) s = .next (retire (storeTile s1 h t0 none ed
          ((List.range 64).flatMap fun i => (List.range (16 * (TDesc.of ws).nk)).map fun k =>
            { va := (TDesc.of vs).addr ed i k
              bits := (convertElem fmt (TDesc.of ws).efmt (elemBits (memWord s.mem (pa (wordAddr (at' i k)))) (at' i k) es)).getD 0
              poi := none })) h))

/-- R386, R389: a state of the same contexts, registers and translations, whose leaves are what they were. -/
def sameLeaves (s s1 : State) : Prop :=
  s1.host = s.host ∧ s1.mem.tlb = s.mem.tlb ∧ ∀ x ∈ s.mem.tlb, ∀ k ∈ [0, 4], memWord s1.mem (x.entryAddr + k) = memWord s.mem (x.entryAddr + k) ∧
    wordPoi s1.mem (x.entryAddr + k) = wordPoi s.mem (x.entryAddr + k) ∧ eccBad s1 (x.entryAddr + k) = eccBad s (x.entryAddr + k)

/-- R389, R390: a write of the group to a page that changes nothing but its bytes, whatever memory holds beside the leaves: its own leaf is
dirty in the core's TLB, and the context has no dirty map and no checkpoint. -/
def quietPage (s : State) (h : Here) (va : DWord) (pa : Nat) : Prop :=
  (∀ s1 : State, sameLeaves s s1 → noteWrite s1 h.w.ctx (some h.w.coreNo) va pa = some s1) ∧
    ∀ x ∈ s.mem.tlb, pa + 8 ≤ x.entryAddr ∨ x.entryAddr + 12 ≤ pa

/-- R290, R291: memory after the elements of a tile of 64 rows and n columns were stored in row order, each in its bytes at the physical
address `pa` of the address that the descriptor gives it. -/
def tileBytes (d : TDesc) (ed n : Nat) (pa : DWord → Nat) (bits : Nat → Nat → Word) (m : MemSys) : MemSys :=
  ((List.range 64).flatMap fun i => (List.range n).map fun j => (i, j)).foldl
    (fun m ij => setBytes m (pa (d.addr ed ij.1 ij.2)) ((bytesOfWord (bits ij.1 ij.2)).take ed)) m

/-- A state in which agents may have seen other writes, and groups may have changed, and nothing else. -/
def onlySeen (s s1 : State) : Prop :=
  s1 = { s with mem := { s.mem with views := s1.mem.views }, exe := { s.exe with groups := s1.exe.groups } }

/-- R255, R290, R291, R306, R309: the bytes that ACCST and TCVT leave: those of the elements at the addresses that the descriptor gives
them, and no other byte, where the pages are in this package and quiet, and no line of them is in flight. -/
def Claim.TileBytes : Prop :=
  ∀ (s : State) (h : Here) (ea : Bool) (a : BitVec 7) (sl : BitVec 3) (t0 : Nat) (ws : List Word) (pa : DWord → Nat),
    s.here = some h → closedSpan h → unwatched s h → uniThreads h.g h.p = [(t0, none)] → guardFull h.g h.p = true →
    readSrc h.g h.p (rSrc true a ea 4) t0 = .words ws →
    let fmt := slotOf s h.w sl
    let ed := elemSize (slotElem fmt)
    let stores (s1 : State) (va : DWord) : Prop := checkAccess s1 h t0 false { write := true } ed ed va = (.loc (pa va), s1) ∧
      lineBlocked s h.g.id va (pa va) s.exe.nextId = false ∧ quietPage s h va (pa va)
    (TDesc.of ws).status = 0 →
    (∀ c : BitVec 3, c.toNat < h.w.ntiles →
      let x := sget ({} : Tile) h.w.tiles c.toNat
      x.full = true → x.poi = [] → x.last = [] → (TDesc.of ws).nk = 4 →
      (∀ e, e < 4096 → (storeElem fmt (sget 0 x.elems e)).isSome = true) →
      (∀ i j, i < 64 → j < 64 → stores s ((TDesc.of ws).addr ed i j)) →
      ∃ t, exec (.accst c ea a sl) s = .next t ∧ ∀ b, memByte t.mem b = memByte
        (tileBytes (TDesc.of ws) ed 64 pa (fun i j => (storeElem fmt (sget 0 x.elems (64 * i + j))).getD 0) s.mem) b) ∧
    (∀ (d : BitVec 7) (vs : List Word) (es : Nat) (at' : Nat → Nat → DWord) (src : DWord → Nat),
      readSrc h.g h.p (rSrc true d false 4) t0 = .words vs → (TDesc.of vs).status = 0 → (TDesc.of ws).nk = (TDesc.of vs).nk →
      pairListed (TDesc.of ws).efmt (slotElem fmt) = true → logging s h.w.ctx = false → es = elemSize (TDesc.of ws).efmt →
      at' = (fun i k => (TDesc.of ws).addr es i k) →
      (∀ i k, i < 64 → k < 16 * (TDesc.of ws).nk →
        checkAccess s h t0 false {} 4 4 (wordAddr (at' i k)) = (.loc (src (wordAddr (at' i k))), s) ∧
        lineBlocked s h.g.id (wordAddr (at' i k)) (src (wordAddr (at' i k))) s.exe.nextId = false ∧
        settledWord s (execAgents h true t0) (src (wordAddr (at' i k))) ∧
        (convertElem fmt (TDesc.of ws).efmt (elemBits (memWord s.mem (src (wordAddr (at' i k)))) (at' i k) es)).isSome = true ∧
        ∀ s1, onlySeen s s1 → stores s1 ((TDesc.of vs).addr ed i k)) →
      ∃ t, exec (.tcvt d ea a sl) s = .next t ∧ ∀ b, memByte t.mem b = memByte
        (tileBytes (TDesc.of vs) ed (16 * (TDesc.of ws).nk) pa
          (fun i k => (convertElem fmt (TDesc.of ws).efmt (elemBits (memWord s.mem (src (wordAddr (at' i k)))) (at' i k) es)).getD 0)
          s.mem) b)

/-- R290, R291, R306, R309; the model's choice of log entry 34 (a BF16 NaN that ACCLD loads). -/
def Obligations.AccumulatorTransfers : Prop :=
  Claim.AccumulatorLoad ∧ Claim.TileStores ∧ Claim.TileBytes


/-- R87, R88, R255: the word of memory in which an element of a tile lies is in this package, on no line in flight, and has settled. -/
def elementReads (s : State) (h : Here) (t0 : Nat) (va : DWord) : Prop :=
  ∃ pa, checkAccess s h t0 false {} 4 4 (wordAddr va) = (.loc pa, s) ∧
    lineBlocked s h.g.id (wordAddr va) pa s.exe.nextId = false ∧ settledWord s (execAgents h true t0) pa

/-- R255: an element of a tile may be stored at an address of this package. -/
def elementStores (s : State) (h : Here) (t0 size : Nat) (va : DWord) : Prop :=
  ∃ pa, checkAccess s h t0 false { write := true } size size va = (.loc pa, s)

/-- R306: ACCLD of a full tile, with a closed span, a valid descriptor with nk 4 and elements that can be read, retires; the tile
stays full. -/
def Claim.AccldCompletes : Prop :=
  ∀ (s : State) (h : Here) (c : BitVec 3) (ea : Bool) (a : BitVec 7) (sl : BitVec 3) (t0 : Nat) (ws : List Word), s.here = some h →
    c.toNat < h.w.ntiles → closedSpan h → (sget ({} : Tile) h.w.tiles c.toNat).full = true →
    uniThreads h.g h.p = [(t0, none)] → operandsReady h [(t0, none)] [rSrc true a ea 4] none = true → logging s h.w.ctx = false →
    unwatched s h → readSrc h.g h.p (rSrc true a ea 4) t0 = .words ws → (TDesc.of ws).status = 0 → (TDesc.of ws).nk = 4 →
    (∀ i j, i < 64 → j < 64 → elementReads s h t0 ((TDesc.of ws).addr (elemSize (slotElem (slotOf s h.w sl))) i j)) →
    ∃ t g' w', exec (.accld c ea a sl) s = .next t ∧ t.group h.g.id = some g' ∧ WentOn h g' (nextPc h.p.pc) ∧
      g' = { h.g with tileAsk := [], tileGot := [], retired := g'.retired, paths := g'.paths } ∧ t.wg h.w.id = some w' ∧
      (sget ({} : Tile) w'.tiles c.toNat).full = true

/-- R306: ACCST of a full tile of clean elements that convert, with a closed span and a valid descriptor with nk 4 whose elements may be
stored, retires; of its group only the monitor, which its stores may flag, is changed. -/
def Claim.AccstCompletes : Prop :=
  ∀ (s : State) (h : Here) (c : BitVec 3) (ea : Bool) (a : BitVec 7) (sl : BitVec 3) (t0 : Nat) (ws : List Word), s.here = some h →
    let fmt := slotOf s h.w sl
    let x := sget ({} : Tile) h.w.tiles c.toNat
    c.toNat < h.w.ntiles → closedSpan h → unwatched s h → x.full = true → x.poi = [] → x.last = [] →
    uniThreads h.g h.p = [(t0, none)] → guardFull h.g h.p = true →
    readSrc h.g h.p (rSrc true a ea 4) t0 = .words ws → (TDesc.of ws).status = 0 → (TDesc.of ws).nk = 4 →
    (∀ e, e < 4096 → (storeElem fmt (sget 0 x.elems e)).isSome = true) →
    (∀ i j, i < 64 → j < 64 → elementStores s h t0 (elemSize (slotElem fmt)) ((TDesc.of ws).addr (elemSize (slotElem fmt)) i j)) →
    ∃ t g', exec (.accst c ea a sl) s = .next t ∧ t.group h.g.id = some g' ∧ WentOn h g' (nextPc h.p.pc) ∧ OnlyMonitor h g'

/-- R309: TCVT with a closed span and two valid descriptors of the same nk, of formats that R118 lists, whose source elements can be read
and convert and whose destination elements may be stored, retires; of its group only the monitor and the words that it had asked for
are changed. -/
def Claim.TcvtCompletes : Prop :=
  ∀ (s : State) (h : Here) (d : BitVec 7) (ea : Bool) (a : BitVec 7) (sl : BitVec 3) (t0 : Nat) (ws vs : List Word), s.here = some h →
    let fmt := slotOf s h.w sl
    let es := elemSize (TDesc.of ws).efmt
    let ed := elemSize (slotElem fmt)
    closedSpan h → unwatched s h → uniThreads h.g h.p = [(t0, none)] → guardFull h.g h.p = true → logging s h.w.ctx = false →
    readSrc h.g h.p (rSrc true a ea 4) t0 = .words ws → readSrc h.g h.p (rSrc true d false 4) t0 = .words vs →
    (TDesc.of ws).status = 0 → (TDesc.of vs).status = 0 → (TDesc.of ws).nk = (TDesc.of vs).nk →
    pairListed (TDesc.of ws).efmt (slotElem fmt) = true →
    (∀ i k, i < 64 → k < 16 * (TDesc.of ws).nk → elementReads s h t0 ((TDesc.of ws).addr es i k) ∧
      (∀ s1, onlySeen s s1 → elementStores s1 h t0 ed ((TDesc.of vs).addr ed i k)) ∧
      ∀ pa, checkAccess s h t0 false {} 4 4 (wordAddr ((TDesc.of ws).addr es i k)) = (.loc pa, s) →
        (convertElem fmt (TDesc.of ws).efmt (elemBits (memWord s.mem pa) ((TDesc.of ws).addr es i k) es)).isSome = true) →
    ∃ t g', exec (.tcvt d ea a sl) s = .next t ∧ t.group h.g.id = some g' ∧ WentOn h g' (nextPc h.p.pc) ∧
      g' = { h.g with tileAsk := [], tileGot := [], mon := g'.mon, retired := g'.retired, paths := g'.paths }

/-- R306, R309. -/
def Obligations.TileTransfersComplete : Prop :=
  Claim.AccldCompletes ∧ Claim.AccstCompletes ∧ Claim.TcvtCompletes

/-- R279: an engine finds a source word of this package that has settled, keeps it for the word that it moves, and changes
nothing else. -/
def Claim.EngineSource : Prop :=
  ∀ (s : State) (n : Nat) (o : EngOp) (scratch : Bool) (unit : Nat) (lead va : DWord) (pa : Nat),
    getOp s n = some o → o.id = n → sfind o.fetched (fetchKey scratch va) = none → engLook s o scratch {} unit lead va = (.loc pa, s) →
    engBlocked s o scratch pa = false → settledWord s [agentOf n 0] pa → logging s o.ctx = false →
    ∃ s1, engRead s n scratch unit lead va = (some (memWord s.mem pa, none), s1) ∧ SameBytes s s1 ∧ s1.host = s.host ∧
      s1.exe.groups = s.exe.groups ∧
      getOp s1 n = some { o with reads := o.reads + 1, fetched := sins o.fetched (fetchKey scratch va) ⟨memWord s.mem pa, none⟩ }

/-- R276: COPY writes the source word at the same place of the destination, FILL its fill word. -/
def Claim.CopyAndFill : Prop :=
  ∀ (s s1 s2 : State) (n : Nat) (o : EngOp) (pa : Nat) (w : Word),
    let h := cw o.words 0
    let off : DWord := BitVec.ofNat 64 (4 * o.pos)
    let src := DWord.ofHalves (cw o.words 1) (cw o.words 2)
    let dst := DWord.ofHalves (cw o.words 3) (cw o.words 4)
    LandsAt s1 n (h.getLsbD 18) 4 dst (dst + off) pa s2 →
    (MayMove s n o 0 1 → engRead s n (h.getLsbD 17) 4 src (src + off) = (some (w, none), s1) → WordMoved (.copy n 1) s s2 o pa w) ∧
    (MayMove s n o 0 2 → w = cw o.words 1 → s1 = s → WordMoved (.fill n 1) s s2 o pa w)

/-- R277: GATHER brings the word of the element that the index names to its packed place, SCATTER the word of the packed element to
the element that the index names. -/
def Claim.GatherAndScatter : Prop :=
  ∀ (s s1 s2 s3 : State) (n : Nat) (o : EngOp) (pa : Nat) (iv w : Word),
    let h := cw o.words 0
    let unit := if h.getLsbD 15 then 8 else 4
    let k := o.pos / (unit / 4)
    let part : DWord := BitVec.ofNat 64 (4 * (o.pos % (unit / 4)))
    let index := DWord.ofHalves (cw o.words 3) (cw o.words 4)
    let el := DWord.ofHalves (cw o.words 1) (cw o.words 2) + BitVec.ofNat 64 (iv.toNat * unit)
    let pk := DWord.ofHalves (cw o.words 5) (cw o.words 6) + BitVec.ofNat 64 (unit * k)
    engRead s n (h.getLsbD 17) 4 index (index + BitVec.ofNat 64 (4 * k)) = (some (iv, none), s1) →
    (MayMove s n o 2 1 → engRead s1 n false unit el (el + part) = (some (w, none), s2) →
      LandsAt s2 n (h.getLsbD 18) unit pk (pk + part) pa s3 → WordMoved (.gather n 1) s s3 o pa w) ∧
    (MayMove s n o 2 2 → engRead s1 n (h.getLsbD 18) unit pk (pk + part) = (some (w, none), s2) →
      LandsAt s2 n false unit el (el + part) pa s3 → WordMoved (.scatter n 1) s s3 o pa w)

/-- R278: REDUCE_INTO leaves in its destination word the reduction of the old word and the source word. -/
def Claim.ReduceInto : Prop :=
  ∀ (s s1 s2 : State) (n : Nat) (o : EngOp) (pa : Nat) (x : Word),
    let h := cw o.words 0
    let off : DWord := BitVec.ofNat 64 (4 * o.pos)
    let src := DWord.ofHalves (cw o.words 1) (cw o.words 2)
    let dst := DWord.ofHalves (cw o.words 3) (cw o.words 4)
    MayMove s n o 4 1 → (h.extractLsb' 14 3).toNat < 3 → (h.extractLsb' 12 2).toNat < 3 → s.ctl.shadow = [] →
    engRead s n (h.getLsbD 18) 4 src (src + off) = (some (x, none), s1) → engLook s1 o false { write := true } 4 dst (dst + off) = (.loc pa, s1) →
    engBlocked s1 o false pa = false → noteWrite s1 o.ctx none (dst + off) pa = some s2 →
    eccBad s2 pa = false → wordPoi s2.mem pa = false → regionOf pa ≠ .host →
    WordMoved (.reduceInto n 1) s s2 o pa (reducedWord h (memWord s2.mem pa) x)

/-- R276 to R279. -/
def Claim.EnginesMoveWords : Prop := Claim.EngineSource ∧ Claim.CopyAndFill ∧ Claim.GatherAndScatter ∧ Claim.ReduceInto

/-- R80: the bytes of an operation that have arrived are added to its sync word, whose generation advances when the count reaches
the target. -/
def Claim.EngineArrivals : Prop :=
  ∀ (s : State) (n : Nat) (o : EngOp) (off : Nat) (w : WG),
    getOp s n = some o → o.id = n → commandSync o.q o.words = some off → o.killed = false → o.moved ≠ o.arrived →
    s.wg o.wg = some w → off % 16 = 0 →
    let base := w.scratchBase + off
    ∃ t, exec (.engineArrival n) s = .next t ∧ getOp t n = some { o with arrived := o.moved } ∧ SameGroups s t ∧
      (∀ b, b < base + 4 ∨ base + 12 ≤ b → memByte t.mem b = memByte s.mem b) ∧
      (let target := memWord s.mem base
       let count := memWord s.mem (base + 4) + BitVec.ofNat 32 (o.moved - o.arrived)
       if target ≠ 0 ∧ target ≤ count then
         memWord t.mem (base + 4) = count % target ∧ memWord t.mem (base + 8) = memWord s.mem (base + 8) + count / target
       else memWord t.mem (base + 4) = count ∧ memWord t.mem (base + 8) = memWord s.mem (base + 8))

/-- R272, R274, R279, R437: a killed operation leaves without a result; one that has finished leaves, and where its header asks for a
result and there is room the result enters the queue, failed where the operation failed. -/
def Claim.EngineResults : Prop :=
  ∀ (s : State) (n : Nat) (o : EngOp), getOp s n = some o →
    (o.killed = true → ∃ t, exec (.engineResult n) s = .next t ∧ getOp t n = none ∧
      (o.drops = 0 → t.exe.groups = s.exe.groups ∧ SameBytes s t ∧ t.host = s.host)) ∧
    (∀ g : Group, o.killed = false → o.finished = true → s.group o.gid = some g →
      (o.res = true → (g.queue o.q).results.length < 8 ∧ (g.queue o.q).held = []) →
      (o.drops ≠ 0 → actionOf (removeOp s n) (droppedElements o) < 3) →
      (o.failed = true → actionOf (endDrops (removeOp s n) o)
        { cls := 21, src := 7, ctx := some o.ctx, part := some o.part, loc := quadLoc o.quad, info := [o.pc, o.failAddr.setWidth 64] } < 3) →
      ∃ t g', exec (.engineResult n) s = .next t ∧ getOp t n = none ∧ t.group o.gid = some g' ∧ g' = { g with mon := g'.mon, queues := g'.queues } ∧
        (g'.queue o.q).results = (g.queue o.q).results ++ (if o.res then
          [{ tag := (cw o.words 0).extractLsb' 20 8, failed := o.failed, pc := o.pc, avalid := o.failed, addr := o.failAddr, op := some n }] else []) ∧
        (o.failed = false → o.drops = 0 → SameBytes s t) ∧
        (o.failed = true → t.mgmt (eventCounter o.part 21 7) = satAdd (s.mgmt (eventCounter o.part 21 7)) 1))

/-- R160, R274: a result in flight whose value is known arrives in its registers, which become full; the oldest read of a result queue
takes the oldest result, and a held result takes its place. -/
def Claim.ResultsArrive : Prop :=
  ∀ (s : State) (n : Nat) (p : Pending) (g : Group), getPending s n = some p → p.id = n → s.group p.gid = some g →
    (∀ rs : List (Dest × Reg), p.what = .ready rs → (rs.map (·.1)).Nodup →
      (∀ x ∈ rs, (x.1.file = 0 ∧ x.1.t < 128) ∨ (x.1.file = 1 ∧ x.1.t = 0)) →
      ∃ t g', exec (.longLatencyComplete n) s = .next t ∧ getPending t n = none ∧ t.mem = s.mem ∧ t.host = s.host ∧
        t.group p.gid = some g' ∧ g' = { g with v := g'.v, sr := g'.sr } ∧ (∀ x ∈ rs, regAt g' x.1 = { x.2 with full := true }) ∧
        (∀ k u, u < 128 → (∀ x ∈ rs, x.1 ≠ ⟨0, k, u⟩) → vGet g' k u = vGet g k u) ∧
        (∀ k, (∀ x ∈ rs, x.1 ≠ ⟨1, k, 0⟩) → sGet g' k = sGet g k)) ∧
    (∀ (q : Nat) (dst : Dest) (ags : List Nat) (r : EngResult) (rest : List EngResult), p.what = .result q dst ags →
      (s.exe.pendings.find? fun kp => kp.2.gid = p.gid && readsQueue kp.2.what q) = some (n, p) → (g.queue q).results = r :: rest →
      r.failed = false → dst.file = 1 → ctxOf s p.gid ≠ none → (∀ k, ctxOf s p.gid = some k → logging s k = false) →
      ∃ t g', exec (.longLatencyComplete n) s = .next t ∧ getPending t n = none ∧ SameBytes s t ∧ t.group p.gid = some g' ∧
        sGet g' dst.reg = cleanReg (r.tag.setWidth 32 <<< 24) ∧ (∀ k, k ≠ dst.reg → sGet g' k = sGet g k) ∧ g'.v = g.v ∧
        (g'.queue q).results = rest ++ (g.queue q).held.take 1 ∧ (g'.queue q).held = (g.queue q).held.drop 1)

/-- R80, R160, R272, R274, R279. -/
def Claim.ArrivalsAndResults : Prop := Claim.EngineArrivals ∧ Claim.EngineResults ∧ Claim.ResultsArrive

/-- R80, R160, R272, R274, R276 to R279. -/
def Obligations.EngineEvents : Prop :=
  Claim.EnginesMoveWords ∧ Claim.ArrivalsAndResults


/-- R62: when every service of a path's replay is over and none failed, and no thread of it waits or recovers, its threads discard what
they held, are live no longer, and run again from the start of their span. -/
def Claim.ReplayBegins : Prop :=
  ∀ (s : State) (gid pid : Nat) (g : Group) (x : Serving) (p : Path), s.group gid = some g → g.live = true →
    (g.span.serving.find? fun y => y.2.services.all fun z => serviceDone s g z.2) = some (pid, x) → sfind g.paths pid = some p →
    x.failed = 0 → farFailed g x = 0 → x.waiting = 0 → x.recover = 0 → x.same = none → x.replaying ≠ 0 →
    ∃ t g', exec (.spanReplay gid) s = .next (traceFlow t gid 3 g.span.start x.replaying) ∧ SameBytes s t ∧ t.host = s.host ∧
      t.group gid = some g' ∧ g' = { g with quar := g'.quar, cells := g'.cells, span := g'.span, paths := g'.paths } ∧
      PathAt g' pid { p with pc := g.span.start, park := .running } ∧ (∀ q, q ≠ pid → sfind g'.paths q = sfind g.paths q) ∧
      (∀ q ∈ g'.quar, ∀ e ∈ q.effs, e.owners &&& x.replaying = 0) ∧ g'.span.live = g.span.live &&& ~~~x.replaying ∧
      g'.span.opened = g.span.opened ∧ g'.span.holds = g.span.holds ∧ sfind g'.span.serving pid = none ∧
      ∀ k ∈ threadsOf x.replaying, sget 0 g'.span.replays k = sget 0 g.span.replays k + 1

/-- R191: a group whose threads have all exited, that holds no task and that waits for nothing leaves, with its records; with the last group of its
workgroup the workgroup leaves. Memory below the scratchpads stays. -/
def Claim.GroupLeaves : Prop :=
  ∀ (s : State) (gid : Nat) (g : Group) (w : WG), s.group gid = some g → s.wg g.wg = some w → g.exited = BitVec.allOnes 128 →
    producerWaiting s g = false → g.held = [] →
    ∃ t, exec (.groupExitComplete gid) s = .next t ∧ t.group gid = none ∧ (∀ k, k ≠ gid → t.group k = s.group k) ∧ t.host = s.host ∧
      (∀ core, ∀ kr ∈ (sget ({} : Side) t.exe.sides core).recs, kr.2.1 ≠ gid) ∧
      ((∀ kg ∈ s.exe.groups, kg.1 ≠ gid → kg.2.wg ≠ g.wg) → t.wg g.wg = none) ∧
      ((∃ kg ∈ s.exe.groups, kg.1 ≠ gid ∧ kg.2.wg = g.wg) → (t.wg g.wg).isSome = true) ∧
      ∀ a, a < 0x10000000000000 → memByte t.mem a = memByte s.mem a

/-- R210: the end of a PAUSE lets its path go on. -/
def Claim.PauseEnds : Prop :=
  ∀ (s : State) (gid pid turn : Nat) (g : Group) (p : Path), s.group gid = some g → sfind g.paths pid = some p → p.park = .pause turn →
    GroupEvent (.pauseEnd gid pid) s gid fun t g' => t.mem = s.mem ∧ t.host = s.host ∧ g' = { g with paths := g'.paths } ∧
      PathAt g' pid { p with park := .running } ∧ ∀ q, q ≠ pid → sfind g'.paths q = sfind g.paths q

/-- R36: the watchdog of a group that has reached the threshold raises a group-stall event, which is counted; where the action lets the
group go on its counter restarts from zero. -/
def Claim.GroupStalls : Prop :=
  ∀ (s : State) (gid : Nat) (g : Group) (w : WG) (c : Context), s.group gid = some g → s.wg g.wg = some w → s.ctx w.ctx = some c →
    g.live = true → stalledOut s g = true →
    actionOf s (groupEvent s g 13 0 1 [(pathPcs g).getD 0 0, g.wdog.setWidth 64, (pathPcs g).getD 1 0]) < 3 →
    GroupEvent (.groupStall gid) s gid fun t g' => g' = { g with mon := g'.mon, wdog := 0 } ∧ (∀ k, k ≠ gid → (t.group k).map quiet = (s.group k).map quiet) ∧
      t.mgmt (eventCounter c.part 13 0) = satAdd (s.mgmt (eventCounter c.part 13 0)) 1

/-- R38, R39: a group all of whose paths are parked on waits that cannot end raises one group-deadlock event, which is counted. -/
def Claim.GroupDeadlocks : Prop :=
  ∀ (s : State) (gid : Nat) (g : Group) (w : WG) (c : Context) (why : DWord), s.group gid = some g → s.wg g.wg = some w →
    s.ctx w.ctx = some c → g.live = true → deadlockOf s w g = some why →
    (g.deadlocked = true → exec (.groupDeadlock gid) s = .next s) ∧
    (g.deadlocked = false → actionOf s (groupEvent s g 14 0 1 [(pathPcs g).getD 0 0, why, (pathPcs g).getD 1 0]) < 3 →
      GroupEvent (.groupDeadlock gid) s gid fun t g' => g' = { g with mon := g'.mon, deadlocked := true } ∧ (∀ k, k ≠ gid → (t.group k).map quiet = (s.group k).map quiet) ∧
        t.mgmt (eventCounter c.part 14 0) = satAdd (s.mgmt (eventCounter c.part 14 0)) 1)

/-- R14, R15: when every participant of a REGROUP has arrived and none has an empty register, each thread with its registers moves to
the slot that the order of R15 gives it, and the participants go on at the word after the REGROUP; one participant alone keeps its
threads. -/
def Claim.RegroupMoves : Prop :=
  ∀ (s : State) (wg role : Nat) (gs : List Group), participants s wg role = gs → regroupReady s gs = true → (∀ g ∈ gs, g.live = true) →
    (∀ g ∈ gs, s.group g.id = some g) → (gs.map (·.id)).Nodup →
    (∀ g, gs = [g] → GroupEvent (.regroupRedistribute wg role) s g.id fun t g' => t.mem = s.mem ∧ t.host = s.host ∧
      g' = { g with retired := g.retired + 1, paths := smapAll g.paths fun p => { p with pc := nextPc p.pc, park := .running } }) ∧
    (2 ≤ gs.length → ∃ t, exec (.regroupRedistribute wg role) s = .next t ∧
      (∀ k, k ∉ gs.map (·.id) → (t.group k).map quiet = (s.group k).map quiet) ∧
      ∀ g ∈ gs, ∃ g', t.group g.id = some g' ∧ g'.retired = g.retired + 1 ∧
        g'.exited = ~~~(maskOf fun u => (moves gs).any fun m => m.1 = (g.id, u)) ∧
        ∀ m ∈ moves gs, m.1.1 = g.id →
          (∀ n, vGet g' n m.1.2 = vGet m.2.1 n m.2.2) ∧ (∀ n, pGet g' n m.1.2 = pGet m.2.1 n m.2.2) ∧
          (∀ n, xGet g' n m.1.2 = xGet m.2.1 n m.2.2) ∧ g'.span.opened.getLsbD m.1.2 = m.2.1.span.opened.getLsbD m.2.2 ∧
          g'.exited.getLsbD m.1.2 = false)

/-- R36, R38, R39, R62, R191, R210. -/
def Claim.GroupEvents : Prop :=
  Claim.ReplayBegins ∧ Claim.GroupLeaves ∧ Claim.PauseEnds ∧ Claim.GroupStalls ∧ Claim.GroupDeadlocks

/-- R14, R15. -/
def Claim.RegroupMovesThreads : Prop := Claim.RegroupMoves

/-- R14, R15, R36, R38, R39, R62, R191, R210. -/
def Obligations.GroupAndRegroupEvents : Prop :=
  Claim.GroupEvents ∧ Claim.RegroupMovesThreads


/-- R144: a summary is due after the last one that another unit had: the lowest bucket has changed, or the count of its entries has
crossed a multiple of 64; a first summary is due once something is queued. -/
def due (last : Option (Option Nat × Nat)) (x : Option Nat × Nat) : Prop :=
  (last = none ∧ x.1 ≠ none) ∨ ∃ y, last = some y ∧ (y.1 ≠ x.1 ∨ y.2 / 64 ≠ x.2 / 64)

/-- R142, R143: nothing waits for room at a unit. -/
def noneWaits (s : State) (u : Nat) : Prop :=
  ∀ kc ∈ s.host.ctxs, ∀ kl ∈ kc.2.lists, ((kl.2.unit u).waiting.all fun y => decide (y.why ≠ 0)) = true ∧ (kl.2.unit u).arriving = []

/-- R136, R144, R145: a unit's summary, its lowest bucket and that bucket's count, is known to another unit of the package once it is due
and arrives there, with the floor that the unit asks for, and that unit may ask every unit again; one that is not due is not sent. -/
def Claim.SummaryArrives : Prop :=
  ∀ (s : State) (ctx list a b : Nat),
    let l := getList s ctx list
    l.state = 1 → a ≠ b → (sfind l.units a).isSome = true → (sfind l.units b).isSome = true → localUnit s a = true → localUnit s b = true →
    (¬due (sfind (l.unit b).seen a) (l.summary (l.unit a)) → sfind (l.unit b).lowered a = l.asks a →
      exec (.worklistOccupancySummary ctx list a b) s = .next s) ∧
    (due (sfind (l.unit b).seen a) (l.summary (l.unit a)) ∨ sfind (l.unit b).lowered a ≠ l.asks a →
      ListEvent (.worklistOccupancySummary ctx list a b) s fun t =>
        (∃ x, unitAt t ctx list b = { l.unit b with seen := sins (l.unit b).seen a (l.summary (l.unit a)), lowered := x, asked := [] } ∧
          sfind x a = l.asks a) ∧
        ∀ k, k ≠ b → unitAt t ctx list k = unitAt s ctx list k)

/-- R145: a unit with nothing to hand over answers a steal request empty, and is not asked again until a summary arrives; a unit that
hands over one entry loses it, and it is queued at the thief, where there is room. -/
def Claim.StealAnswered : Prop :=
  ∀ (s : State) (ctx list a v : Nat),
    let l := getList s ctx list
    l.state = 1 → localUnit s a = true → localUnit s v = true → (l.unit a).sleeping ≠ [] → l.canTake (l.unit a) = false →
    nextVictim (l.unit a) a = some v → (l.unit a).stealing = none → (l.unit a).arriving = [] →
    (stealFrom l (l.unit v) = [] → ListEvent (.worklistStealRequest ctx list a v) s fun t =>
      unitAt t ctx list a = { l.unit a with asked := v :: (l.unit a).asked } ∧ ∀ k, k ≠ a → unitAt t ctx list k = unitAt s ctx list k) ∧
    (∀ q : QueuedEntry, stealFrom l (l.unit v) = [q] → noneWaits s v →
      (l.place (l.unit a) (othersAt s l a) { q with spilled := false }).isSome = true →
      ListEvent (.worklistStealRequest ctx list a v) s fun t =>
        queuedEntries (unitAt t ctx list a) = queuedEntries (l.unit a) ++ [q.entry] ∧ (unitAt t ctx list a).asked = [] ∧
          queuedEntries (unitAt t ctx list v) = ((l.unit v).queued.erase q).map (·.entry) ∧
          ∀ k, k ≠ a → k ≠ v → unitAt t ctx list k = unitAt s ctx list k)

/-- R136: a unit that acknowledges the floor of another unit's urgent push knows it from then on; the push waits while a unit is left. -/
def Claim.FloorAcknowledged : Prop :=
  ∀ (s : State) (ctx list u v : Nat) (w : WaitingPush),
    let l := getList s ctx list
    localUnit s u = true → localUnit s v = true → u ≠ v → (sfind l.units u).isSome = true → (sfind l.units v).isSome = true →
    (l.unit u).taken = [] → (l.unit v).asking = some w → w.acked.contains u = false →
    (∀ k ∈ skeys l.units, k ≠ v → (l.unit k).asking = none) →
    l.urgent v (l.bucket w.entry) = true → (∃ k ∈ skeys l.units, k ≠ u ∧ w.acked.contains k = false) →
    ListEvent (.floorAcknowledgement ctx list u) s fun t =>
      sfind (unitAt t ctx list u).lowered v = some (l.bucket w.entry) ∧
        (unitAt t ctx list v).asking = some { w with acked := u :: w.acked } ∧
        queuedEntries (unitAt t ctx list v) = queuedEntries (l.unit v)

/-- R131: a parked entry whose cell was filled is queued at its unit and is no longer parked; it was counted when it was pushed. -/
def Claim.FillWakes : Prop :=
  ∀ (s s2 : State) (ctx list u : Nat) (e : ParkedEntry),
    let l := getList s ctx list
    localUnit s u = true → (l.unit u).parked.filter (·.woken) = [e] → noneWaits s u →
    enqueue (modList s ctx list fun l => l.modUnit u fun x => { x with parked := x.parked.erase e }) ctx list u e.entry = some s2 →
    ListEvent (.futureFillWake ctx list u) s fun t =>
      (unitAt t ctx list u).parked = (l.unit u).parked.erase e ∧
        queuedEntries (unitAt t ctx list u) = queuedEntries (l.unit u) ++ [e.entry] ∧
        (unitAt t ctx list u).pushes = (l.unit u).pushes ∧ ∀ k, k ≠ u → unitAt t ctx list k = unitAt s ctx list k

/-- R149 to R151: a wave over an armed worklist of this package ends it when its sums equal those of the wave before and as many tasks
are done as were pushed: pushes that still wait, and entries taken since the wave, are rejected as late. Else it keeps its sums. -/
def Claim.WaveEnds : Prop :=
  ∀ (s : State) (ctx list : Nat),
    let l := getList s ctx list
    let sums := localSums s l
    l.state = 1 → l.armed = true → l.leader.any (localUnit s ·) = true → otherNodes s l = [] → l.remoteSums = [] →
    ListEvent (.terminationWave ctx list) s fun t =>
      getList t ctx list = if l.wave = some sums ∧ sums.1 = sums.2 then
          { l with state := 2, wave := none, waveAsked := [], units := smapAll l.units fun x =>
              let n := x.queued.length + x.parked.length
              { x with waiting := [], queued := [], parked := [], pushes := x.pushes - BitVec.ofNat 64 n
                       rejected := min (x.rejected + (x.waiting.length + n)) 127, late := x.late || x.waiting.length + n ≠ 0 } }
        else { l with wave := some sums, waveAsked := [] }

/-- R131, R136, R144, R145, R149, R150. -/
def Obligations.WorklistEvents : Prop :=
  Claim.SummaryArrives ∧ Claim.StealAnswered ∧ Claim.FloorAcknowledged ∧ Claim.FillWakes ∧ Claim.WaveEnds

/-- R298, R301, R302: the matrix engine performs the next k-step of the operation at the head of a tile from words that have settled, and
counts it; with the last the operation leaves the tile. A paused operation whose pages are serviced takes its turn again. -/
def Obligations.MatrixEngineSteps : Prop :=
  ∀ (s : State) (wg tile : Nat) (w : WG) (o : MatOp) (rest : List MatOp), s.wg wg = some w →
    let x := sget ({} : Tile) w.tiles tile
    x.ops = o :: rest →
    (o.paused = true → o.waits = [] →
      ∃ t w', exec (.matrixResume wg tile) s = .next t ∧ t.mem = s.mem ∧ t.host = s.host ∧ t.exe.groups = s.exe.groups ∧
        t.wg wg = some w' ∧ sget {} w'.tiles tile = { x with ops := { o with paused := false, passed := false, turn := s.exe.nextId } :: rest }) ∧
    (∀ pa : DWord → Nat, engineFree s w tile o = true → w.arrivals = [] → (∀ p ∈ rest, p.fail = none ∧ p.paused = false) → logging s w.ctx = false → s.ctl.shadow = [] →
      let o1 : MatOp := if o.started then o else { o with started := true, turn := s.exe.nextId }
      let ks := if o.started then x.done else 0
      let s1 := modTile { s with exe := { s.exe with nextId := s.exe.nextId + 1 } } wg tile fun y =>
        { y with ops := o1 :: y.ops.drop 1, done := if o.started then y.done else 0, total := o.nk }
      (∀ va ∈ kstepWords o ks, matLook s1 w o va = (.loc (pa va), s1) ∧ inFlight s.mem (pa va) = false ∧ settledWord s [agentOf o.agent 0] (pa va)) →
      ∃ t w', exec (.kstep wg tile) s = .next t ∧ SameBytes s t ∧ t.host = s.host ∧ t.exe.groups = s.exe.groups ∧ t.wg wg = some w' ∧
        let y := sget {} w'.tiles tile
        let z := kstepTile o1 ks ((kstepWords o ks).map fun va => (va, (memWord s.mem (pa va), none))) none x
        y.elems = z.elems ∧ y.poi = z.poi ∧ y.done = ks + 1 ∧ y.total = o.nk ∧
          (ks + 1 < o.nk → y.ops.length = rest.length + 1 ∧ y.full = x.full ∧ y.last = x.last) ∧
          (o.nk ≤ ks + 1 → y.ops = rest ∧ y.last = o.agent :: x.last ∧ (rest = [] → y.full = true)))


/-- R370, R372, R376: the record at head of a ring with an accepted tail, in memory of the device without an error, becomes a launch of its own: rejected with the number of the
first check that fails; waiting, where it is serial and an earlier launch of its ring has not ended; else running. The head word of
the ring advances, and nothing else in memory changes. -/
def Claim.RecordRead : Prop :=
  ∀ (s : State) (queue : Nat) (tail : Word) (floor : SMap Nat) (later : List (Word × SMap Nat)),
    let tag := ((s.mgmt (0x1000 + 16 * queue + 8)).extractLsb' 0 8).toNat
    let base := (ringOf s queue).1
    let head := memWord s.mem (base + 0x40)
    let at' := base + 0x200 + 512 * (head.toNat % (ringOf s queue).2)
    let rec' := readRecord s tag at'
    let id := s.exe.nextId
    let l0 := launchOf rec'.1.1 id queue head floor
    let detail := recordCheck s rec'.1.1 l0 tag ((s.mgmt (0x1000 + 16 * queue)).getLsbD 3) rec'.1.2
    sget [] s.host.tails queue = (tail, floor) :: later → (s.ctx tag).any (fun c => !c.killed) = true →
    (∀ kl ∈ s.host.launches, kl.2.queue = queue → kl.2.state ≠ 0) → regionOf at' ≠ .host → (∀ k, k < 128 → eccBad s (at' + 4 * k) = false) →
    ∃ t l, exec (.launchRecordRead queue) s = .next t ∧ t.launch id = some l ∧ (∀ k, k ≠ id → t.launch k = s.launch k) ∧
      memWord t.mem (base + 0x40) = head + 1 ∧
      (∀ b, b < base + 0x40 ∨ base + 0x44 ≤ b → memByte t.mem b = memByte s.mem b) ∧ SameGroups s t ∧
      sget [] t.host.tails queue = (if head + 1 = tail then later else (tail, floor) :: later) ∧
      (detail ≠ 0 → l = { l0 with ctx := tag, state := 2, code := 1, detail := detail }) ∧
      (detail = 0 → l = { l0 with state := l.state, shares := l.shares } ∧
        l.state = if l0.serial = true ∧ earlierDone s queue id = false then 0 else 1)

/-- R372: a serial launch starts once every earlier launch of its ring has ended, and not before. -/
def Claim.SerialStart : Prop :=
  ∀ (s : State) (id : Nat) (l : Launch), s.launch id = some l → l.state = 0 →
    (earlierDone s l.queue id = false → exec (.serialLaunchStart id) s = .next s) ∧
    (earlierDone s l.queue id = true → ∃ t l', exec (.serialLaunchStart id) s = .next t ∧ t.mem = s.mem ∧ t.exe = s.exe ∧
      t.launch id = some l' ∧ l' = { l with state := 1, shares := l'.shares } ∧ ∀ k, k ≠ id → t.launch k = s.launch k)

/-- R375: a launch that was rejected or killed, or that runs and has nothing left, ends: its completion value is in memory at the
address of its record, where that translates, and it notifies the host where its record asks for it. -/
def Claim.LaunchEnds : Prop :=
  ∀ (s : State) (id : Nat) (l : Launch), s.launch id = some l → l.id = id → l.state = 2 ∨ (l.state = 1 ∧ launchDrained s l = true) →
    (l.cplt = 0 → ∃ t, exec (.launchComplete id) s = .next t ∧ t.launch id = some { l with state := 3 } ∧ t.mem = s.mem ∧ t.exe = s.exe ∧
      t.host.out = s.host.out ++ (if l.notify then [.launchDone (completionValue l)] else [])) ∧
    (∀ (k : Cause) (o : Word), l.cplt ≠ 0 → checkFlat s l.ctx none l.priv { write := true } l.cplt = (.fail k o, s) →
      ∃ t, exec (.launchComplete id) s = .next t ∧ t.launch id = some { l with state := 3 } ∧ t.mem = s.mem) ∧
    (∀ (pa : Nat) (s1 : State), l.cplt ≠ 0 → checkFlat s l.ctx none l.priv { write := true } l.cplt = (.loc pa false, s) →
      noteWrite s l.ctx none l.cplt pa = some s1 → pa % 8 = 0 →
      ∃ t, exec (.launchComplete id) s = .next t ∧ t.launch id = some { l with state := 3 } ∧ memDWord t.mem pa = completionValue l ∧
        (∀ b, b < pa ∨ pa + 8 ≤ b → memByte t.mem b = memByte s1.mem b) ∧ (l.notify = true → .launchDone (completionValue l) ∈ t.host.out))

/-- R26, R27: a distributor that is told how many unplaced units another holds notes it, and a thief whose victim has none notes that;
else the thief gets the upper half of the victim's unplaced units and the victim keeps the lower. -/
def Claim.UnitsStolen : Prop :=
  ∀ (s : State) (id a v : Nat) (l : Launch), s.launch id = some l →
    let qs := partQuads s ((s.ctx l.ctx).elim 0 (·.part))
    let n := (l.share v).count
    (∀ last, l.state = 1 → v ≠ a → v ∈ qs → a ∈ qs → sget 0 (sget [] l.seen a) v = last → last ≠ n → n = 0 ∨ last + 64 ≤ n ∨ n + 64 ≤ last →
      ∃ t l', exec (.occupancySummary id v a) s = .next t ∧ t.mem = s.mem ∧ t.exe = s.exe ∧ t.launch id = some l' ∧
        sget 0 (sget [] l'.seen a) v = n ∧ (l'.share a).asked = [] ∧ (∀ k, (l'.share k).ranges = (l.share k).ranges) ∧
        l' = { l with seen := l'.seen, shares := l'.shares }) ∧
    (placing s l = true → a ∈ qs → (l.share a).count = 0 → (l.share a).waiting = none → victimOf l (distributors s l) a = some v → v < 4 →
      wantsWork s l a = true →
      ∃ t l', exec (.stealRequest id a v) s = .next t ∧ t.mem = s.mem ∧ t.exe = s.exe ∧ t.launch id = some l' ∧ l' = { l with shares := l'.shares } ∧
        (n = 0 → (l'.share a).asked = v :: (l.share a).asked ∧ ∀ k, (l'.share k).ranges = (l.share k).ranges) ∧
        (n ≠ 0 → (l.share v).nextWg = 0 → (l'.share a).asked = [] ∧
          (l'.share a).ranges = (l.share a).ranges ++ (topUnits ((n + 1) / 2) (l.share v).ranges).1 ∧
          (l'.share v).ranges = (topUnits ((n + 1) / 2) (l.share v).ranges).2 ∧
          ∀ k, k ≠ a → k ≠ v → l'.share k = l.share k))

/-- R370, R372, R375, R376. -/
def Obligations.LaunchesReadStartedEnded : Prop := Claim.RecordRead ∧ Claim.SerialStart ∧ Claim.LaunchEnds

/-- R21, R23, R26, R159, R360: a workgroup that a distributor places is resident on the core with one group for every position of the
gang, each at its entry PC with the start values of its registers; the share loses it. -/
def Claim.WorkgroupPlaced : Prop :=
  ∀ (s : State) (id quad core unit num : Nat) (l : Launch) (c : Context) (share : Share) (ps : List (Nat × Nat)),
    s.launch id = some l → l.id = id → s.ctx l.ctx = some c → c.rep.status ≠ 1 → c.rep.interval = false →
    (∀ kl ∈ s.host.launches, kl.2.before l = true → placeable s kl.2 quad core = none) →
    placeable s l quad core = some ((unit, num), share, ps) → ps.length = l.gang.length → threadsPerGroup l ≤ 128 →
    ∃ t w l', exec (.workgroupPlace id quad core) s = .next t ∧ SameBytes s t ∧ t.wg s.exe.nextId = some w ∧
      w = { id := s.exe.nextId, ctx := l.ctx, launch := id, unit := unitNumber l unit, num := num, quad := quad, core := core
            ngroups := l.gang.length, scratch := l.scratch, ntiles := l.acc } ∧
      t.launch id = some l' ∧ l'.share quad = share ∧ (∀ k, k ≠ quad → l'.share k = l.share k) ∧
      (∀ k, k < s.exe.nextId → t.group k = s.group k) ∧
      ∀ pos (x : Nat × Role) (pl : Nat × Nat), l.gang[pos]? = some x → ps[pos]? = some pl →
        ∃ g, t.group (s.exe.nextId + 1 + pos) = some g ∧ g.part = pl.1 ∧ g.slot = pl.2 ∧
          StartsAs g l s.exe.nextId pos x.1 x.2 (unitNumber l unit) num

/-- R29 to R32: a FETCHWG that no earlier request for its mailbox stands before is granted the next workgroup of the share of its quadrant, or told that the launch is exhausted: its mailbox
holds the words of the answer, its destination register the status, and the group has no request outstanding. -/
def Claim.FetchAnswered : Prop :=
  ∀ (s : State) (gid : Nat) (g : Group) (w : WG) (l : Launch) (c : Context) (f : FetchReq) (granted : Option (Nat × Nat)) (share : Share),
    s.group gid = some g → g.id = gid → g.fetch = some f → s.wg g.wg = some w → s.launch w.launch = some l → s.ctx w.ctx = some c →
    l.id = w.launch → placing s l = true → c.rep.status ≠ 1 → c.rep.interval = false → f.mailbox % 32 = 0 →
    fetchBehind s g f = false → (∀ n, n < 8 → w.reserves (f.mailbox + 4 * n) = false) →
    ((∃ u k, (l.share w.quad).take (wgsPerUnit l) = some ((u, k), share) ∧ granted = some (unitNumber l u, k)) ∨
      ((l.share w.quad).take (wgsPerUnit l) = none ∧ exhaustedFor s l w.quad = true ∧ granted = none ∧ share = l.share w.quad)) →
    ∃ t g' l', exec (.fetchwgAnswer gid) s = .next t ∧ t.group gid = some g' ∧
      g' = { g with fetch := none, fetchSeq := g.fetchSeq + 1, sr := g'.sr, mon := g'.mon } ∧
      sGet g' f.dst = cleanReg (mailboxWord l (g.fetchSeq + 1) granted 0) ∧ (∀ n, n ≠ f.dst → sGet g' n = sGet g n) ∧
      (∀ n, n < 8 → memWord t.mem (w.scratchBase + f.mailbox + 4 * n) = mailboxWord l (g.fetchSeq + 1) granted n) ∧
      (∀ b, b < w.scratchBase + f.mailbox ∨ w.scratchBase + f.mailbox + 32 ≤ b → memByte t.mem b = memByte s.mem b) ∧
      t.launch w.launch = some l' ∧ l'.share w.quad = share

/-- R21, R23, R26, R27, R29 to R31, R159, R360. -/
def Obligations.WorkgroupsDealtAndPlaced : Prop := Claim.WorkgroupPlaced ∧ Claim.FetchAnswered ∧ Claim.UnitsStolen


/-- R78, R363 to R367, R380: a write of a host agent whose port is up stores its bytes and no others once no line of it is in flight, and
faults at an address that the agent does not reach; while a line is in flight it waits. -/
def Claim.HostWrites : Prop :=
  ∀ (s : State) (port pa : Nat) (data : List Byte), portReady s port = true → data ≠ [] →
    (hostWaits s pa data.length = true → exec (.hostWrite port pa data) s = .next s) ∧
    (hostWaits s pa data.length = false →
      ((∃ k, k < data.length ∧ hostReaches s port (pa + k) = false) → exec (.hostWrite port pa data) s = .fault .reservedAddress) ∧
      ((∀ k, k < data.length → hostReaches s port (pa + k) = true) →
        ∃ t, exec (.hostWrite port pa data) s = .next t ∧ SameGroups s t ∧ ∀ b, memByte t.mem b = memByte (setBytes s.mem pa data) b))

/-- R363, R364, R368, R417, R418, R445: a host read of words that have settled sends their bytes over channel 0, and over channel 2 those
of a dump or of the self-test log; over channel 1 it sends the management word; a CXL.mem read of far memory sends its halves to its
requester without the poison indication. None changes a byte of memory. -/
def Claim.HostReads : Prop :=
  ∀ (s : State) (pa len : Nat),
    (exec (.hostRead ⟨1, pa⟩ len) s = .next (if served s then s.send (.register pa (managementRead s pa)) else s)) ∧
    (0 < len → hostWaits s pa len = false → portReady s 0 = true →
      (2 ^ 52 ≤ pa → exec (.hostRead ⟨2, pa⟩ len) s = .next (s.send (.firmwareData ((s.host.fw.tests.flatten.drop (pa - 2 ^ 52)).take len)))) ∧
      ((∃ k, k < len ∧ hostReaches s 0 (pa + k) = false) → exec (.hostRead ⟨0, pa⟩ len) s = .fault .reservedAddress) ∧
      ((∀ k, k < len → hostReaches s 0 (pa + k) = true ∧ settledWord s [voclAgent] ((pa + k) / 4 * 4)) →
        (∃ t, exec (.hostRead ⟨0, pa⟩ len) s = .next t ∧ SameBytes s t ∧ t.exe = s.exe ∧
          t.host.out = s.host.out ++ [.data (memBytes s.mem pa len)]) ∧
        (pa < 2 ^ 52 → served s = true → inDump s pa len = true → ∃ t, exec (.hostRead ⟨2, pa⟩ len) s = .next t ∧ SameBytes s t ∧
          t.exe = s.exe ∧ t.host.out = s.host.out ++ [.firmwareData (memBytes s.mem pa len)]))) ∧
    (∀ requester : Nat, 0 < len → hostWaits s pa len = false → portReady s 1 = true → (∀ k, k < len → hostReaches s 1 (pa + k) = true) →
      let halves := (List.range ((pa + len - 1) / 64 - pa / 64 + 1)).map fun k => pa / 64 + k
      (∀ g ∈ halves, ∀ k, k < 16 → settledWord s [cxlAgent requester] (64 * g + 4 * k)) →
      ∃ t, exec (.cxlMemRead ⟨requester, pa⟩ len) s = .next t ∧ SameBytes s t ∧ t.exe = s.exe ∧
        t.host.out = s.host.out ++ halves.map fun g => .cxlHalf requester (64 * g) false (memBytes s.mem (64 * g) 64))

/-- R367, R368: a snoop takes a half of a host-homed line from the device with the poison marks of its words; the device answers whether
it held the half; no byte of memory and nothing else changes. -/
def Claim.SnoopTakesHalf : Prop :=
  ∀ (s : State) (pa : Nat) (upper : Bool), regionOf pa = .host →
    let a := pa / 128 * 128 + if upper then 64 else 0
    let held (m : MemSys) (j : Nat) : Bool := (sget (0 : BitVec 2) m.bridge (lineOf pa)).getLsbD j
    ∃ t, exec (.cxlSnoop pa upper) s = .next t ∧ t.exe = s.exe ∧ SameBytes s t ∧
      t.host = { s.host with out := s.host.out ++ [.cxlSnooped a (held s.mem (if upper then 1 else 0))] } ∧
      (∀ k, k ≠ lineOf pa → sget 0 t.mem.bridge k = sget (0 : BitVec 2) s.mem.bridge k) ∧
      (∀ j, j < 2 → held t.mem j = (held s.mem j && (j == 1) != upper)) ∧
      ∀ x, wordPoi t.mem x = (wordPoi s.mem x && !(x / 64 == a / 64))

/-- R78, R363 to R365, R367, R368, R380. -/
def Obligations.HostAccesses : Prop := Claim.HostWrites ∧ Claim.HostReads ∧ Claim.SnoopTakesHalf

/-- R369: a write of a queue descriptor's first word leaves the enabled ring's fields, and refuses enable for an invalid descriptor; the
context is written only while the ring is disabled. That an enabled ring keeps its fields even in the write that clears enable is the
model's choice (log entry 48). -/
def Claim.QueueDescriptors : Prop :=
  ∀ (s : State) (q : Nat) (x : DWord), served s = true → q < 64 →
    let off := 0x1000 + 16 * q
    let on := (s.mgmt off).getLsbD 0
    (∃ t, exec (.queueDescriptorWrite q true x) s = .next t ∧ t.mem = s.mem ∧ t.exe = s.exe ∧ OnlyWords s t [off + 8] ∧
      t.mgmt (off + 8) = if on then s.mgmt (off + 8) else (x.extractLsb' 0 8).setWidth 32) ∧
    (∀ n : DWord, n = (if on then (s.mgmt64 off &&& ~~~5#64) ||| (if x.getLsbD 2 then 0 else s.mgmt64 off &&& 4) ||| (x &&& 1)
        else (x &&& 0x000FFFFFFFFF00F8#64) ||| (if x.getLsbD 2 then 0 else s.mgmt64 off &&& 4) |||
          (if descriptorValid s q x then x &&& 1 else 0)) →
      (on = true ∨ n.getLsbD 0 = false ∨ (sget [] s.host.tails q = [] ∧
        (let base := (n.extractLsb' 16 36).toNat * 65536
         (memWord s.mem base - memWord s.mem (base + 0x40)).toNat ≤ 2 ^ (n.extractLsb' 4 4).toNat))) →
      ∃ t, exec (.queueDescriptorWrite q false x) s = .next t ∧ t.mem = s.mem ∧ t.exe = s.exe ∧ OnlyWords s t [off, off + 4] ∧ t.mgmt64 off = n)

/-- R377: a partition takes a mask whose quadrants are ready and in no other partition, while no context of the partition is live; else
the write is ignored. -/
def Claim.PartitionMasks : Prop :=
  ∀ (s : State) (p : Nat) (x : Word), served s = true → p < 4 →
    (maskAllowed s p (x.setWidth 4) = false → exec (.partitionMaskWrite p x) s = .next s) ∧
    (maskAllowed s p (x.setWidth 4) = true → ∃ t, exec (.partitionMaskWrite p x) s = .next t ∧ t.mem = s.mem ∧ t.exe = s.exe ∧
      OnlyWords s t [0x100 + 4 * p] ∧ partMask t p = x.setWidth 4)

/-- R388: a fault that waits is posted as the record at the tail of its partition's enabled ring, where there is room; the tail
advances, and the driver is told when the ring was empty. That a ring whose size is out of range holds as many records as its field
says is the model's choice (log entry 54). -/
def Claim.FaultsPosted : Prop :=
  ∀ (s : State) (k : Nat) (f : FaultRec),
    let b := 0x200 + 32 * f.part
    let d := s.mgmt64 b
    let n := 2 ^ (d.extractLsb' 4 4).toNat
    let tail := s.mgmt (b + 12)
    let at' := (d.extractLsb' 16 48).toNat * 65536 + 32 * (tail.toNat % n)
    s.host.faults[k]? = some f → f.id = none → d.getLsbD 0 = true → (tail - s.mgmt (b + 8)).toNat < n →
    (∀ g ∈ s.host.faults, g.part = f.part → g.id ≠ some tail) →
    ∃ t, exec (.faultRecordPost k) s = .next t ∧ t.host.faults = s.host.faults.set k { f with id := some tail } ∧
      OnlyWords s t [b + 12] ∧ t.mgmt (b + 12) = tail + 1 ∧ (∀ j, j < 8 → memWord t.mem (at' + 4 * j) = (faultWords f tail).getD j 0) ∧
      (∀ c, c < at' ∨ at' + 32 ≤ c → memByte t.mem c = memByte s.mem c) ∧ (tail = s.mgmt (b + 8) → .faultQueue f.part ∈ t.host.out)

/-- R388: the completion of a record frees it: where its page was serviced the operations that waited for the page go on, where it
failed they know the page as failed, and one memory-fault event is counted. A status of neither kind is ignored. -/
def Claim.FaultsCompleted : Prop :=
  ∀ (s : State) (part : Nat) (id : Word) (f : FaultRec), served s = true →
    s.host.faults.find? (fun g => g.part = part && g.id = some id) = some f →
    (∀ st : BitVec 2, st ≠ 1 → st ≠ 2 → exec (.faultCompletion part id st) s = .next s) ∧
    ((∀ g ∈ groupsAnywhere s f.ctx, g.span.serving = []) → ((s.ctx f.ctx).map (pagePushes · f.page)).getD [] = [] →
      (∀ ko ∈ s.exe.engOps, ko.2.id = ko.1) → (skeys s.exe.engOps).Nodup →
      (∃ t, exec (.faultCompletion part id 1) s = .next t ∧ t.host.faults = s.host.faults.erase f ∧ SameBytes s t ∧
        ∀ n o, getOp s n = some o → o.ctx = f.ctx → o.waits.contains f.page = true → getOp t n = some { o with waits := o.waits.erase f.page }) ∧
      (let src := if f.agent = 1 then 7 else 0
       actionOf s { cls := 12, src := src, ctx := some f.ctx, part := some f.part, info := [0, causeNotPresent.setWidth 64 <<< 16] } < 3 →
       ∃ t, exec (.faultCompletion part id 2) s = .next t ∧ t.host.faults = s.host.faults.erase f ∧
        t.mgmt (eventCounter f.part 12 src) = satAdd (s.mgmt (eventCounter f.part 12 src)) 1 ∧
        ∀ n o, getOp s n = some o → o.ctx = f.ctx → o.waits.contains f.page = true →
          getOp t n = some { o with waits := o.waits.erase f.page, failedPages := f.page :: o.failedPages }))

/-- R369, R377, R388; the model's choices of log entries 48 and 54. -/
def Obligations.DescriptorsMasksAndFaults : Prop :=
  Claim.QueueDescriptors ∧ Claim.PartitionMasks ∧ Claim.FaultsPosted ∧ Claim.FaultsCompleted

/-- R378, R379, R417: CREATE with a free tag in a ready partition makes the context live with its root and cleared counters; CREATE of a
tag that is live or out of range, or in a partition that has no quadrant, answers so and changes nothing else. -/
def Claim.ContextCreated : Prop :=
  ∀ (s : State) (tag p : Nat) (root : DWord), served s = true → s.host.replies = [] →
    (4 ≤ p → Answers (.create tag p root) s 1 1 3) ∧
    (p < 4 → partMask s p ≠ 0 → s.host.ctxs.length < 64 → s.ctx tag = none → tag = 0 ∨ 255 < tag →
      Answers (.create tag p root) s 1 3 1) ∧
    (0 < tag → tag ≤ 255 → p < 4 → partMask s p ≠ 0 → partitionReady s p = true → s.host.ctxs.length < 64 →
      ((s.ctx tag).isSome = true → Answers (.create tag p root) s 1 4 1) ∧
      (s.ctx tag = none → ∃ t, exec (.create tag p root) s = .next t ∧ t.mem = s.mem ∧ t.exe = s.exe ∧
        t.ctx tag = some { tag := tag, part := p, root := root &&& ~~~0xFFFF#64 } ∧ (∀ k, k ≠ tag → t.ctx k = s.ctx k) ∧
        t.mgmt64 (0x4000 + 32 * tag) = root &&& ~~~0xFFFF#64 ∧ (∀ k, k < 8 → t.mgmt (0x18000 + 0x100 * tag + 0x40 + 4 * k) = 0) ∧
        t.host.out = s.host.out ++ [.reply 1 0]))

/-- R77, R378: DESTROY of a context that is not live answers so; of one that is live it ends, with its workgroups, engine operations, the
lines that these held in flight, and bindings, and other contexts and memory stay where no launch of it is unfinished. -/
def Claim.ContextDestroyed : Prop :=
  ∀ (s : State) (tag : Nat), served s = true → s.host.replies = [] →
    (s.ctx tag = none → Answers (.destroy tag) s 1 1 1) ∧
    ((s.ctx tag).isSome = true → ∃ t, exec (.destroy tag) s = .next t ∧ t.ctx tag = none ∧ (∀ kw ∈ t.exe.wgs, kw.2.ctx ≠ tag) ∧
      (∀ ko ∈ t.exe.engOps, ko.2.ctx ≠ tag) ∧ (∀ f ∈ t.mem.flight, ∀ o, getOp s f.2 = some o → o.ctx ≠ tag) ∧
      (∀ kb ∈ t.mem.binds, kb.2.ctx ≠ tag) ∧ (∀ x ∈ t.mem.tlb, x.ctx ≠ tag) ∧
      (∀ i ∈ t.host.images, i.wg.ctx ≠ tag) ∧ t.host.out.getLast? = some (.reply 1 0) ∧
      ((∀ kl ∈ s.host.launches, kl.2.ctx = tag → kl.2.state = 0 ∨ kl.2.state = 3) → SameBytes s t ∧ ∀ k, k ≠ tag → t.ctx k = s.ctx k))

/-- R392: INVAL waits while an access that used a translation of the range is to be performed; then no core and no facet holds a
translation of the context that covers a page of the range, every other translation stays, and with no effect held nothing else
changes. -/
def Claim.TranslationsInvalidated : Prop :=
  ∀ (s : State) (tag : Nat) (va : DWord) (n : Nat), served s = true → s.host.replies = [] →
    (s.ctx tag = none → Answers (.inval tag va n) s 1 1 1) ∧
    ((s.ctx tag).isSome = true →
      (accessWaits s tag va.toNat n = true → exec (.inval tag va n) s = .next s) ∧
      (accessWaits s tag va.toNat n = false → (∀ g ∈ groupsAnywhere s tag, g.quar = []) →
        let kept := s.mem.tlb.filter fun x => !(x.ctx = tag && x.meets va.toNat n)
        exec (.inval tag va n) s = .next ((s.withMem { s.mem with tlb := kept }).send (.reply 1 0))))

/-- R378, R379, R392, R417. -/
def Obligations.ContextCommands : Prop := Claim.ContextCreated ∧ Claim.ContextDestroyed ∧ Claim.TranslationsInvalidated

/-- R379, R394: PREEMPT of a context with a slot for each resident workgroup stops its groups, and its reply, which those of later
commands wait behind, follows the last save; without a resident workgroup it is complete at once. -/
def Claim.PreemptStops : Prop :=
  ∀ (s : State) (tag : Nat) (c : Context), served s = true → s.ctx tag = some c → s.host.replies = [] →
    (freeSlots s c < (residentWgs s tag).length → Answers (.preempt tag) s 1 2 2) ∧
    ((residentWgs s tag).length ≤ freeSlots s c → c.killed = false →
      ∃ t, exec (.preempt tag) s = .next t ∧ t.mem = s.mem ∧
        (∀ gid g, s.group gid = some g → g.id = gid → (s.wg g.wg).any (·.ctx = tag) = true →
          t.group gid = some { endPauses g with stop := if g.stop = .debug then .debug else .context }) ∧
        (residentWgs s tag ≠ [] → t.ctx tag = some { c with stopping := true } ∧ t.host.out = s.host.out ∧ t.host.replies = [(tag, none)]) ∧
        (residentWgs s tag = [] → t.ctx tag = some { c with stopping := false, preempted := true } ∧ t.host.replies = [] ∧
          t.host.out = s.host.out ++ [.reply 1 0]))

/-- R379, R394, R395: a workgroup of a stopping context whose accesses are drained is saved to the lowest free slot and leaves its core;
with the last one PREEMPT is complete, and it and the commands behind it answer. -/
def Claim.WorkgroupSaved : Prop :=
  ∀ (s : State) (id slot : Nat) (w : WG) (c : Context), s.wg id = some w → w.id = id → s.ctx w.ctx = some c → c.stopping = true → c.killed = false →
    drained s (((s.exe.groups.map (·.2)).filter (·.wg = id)).map (·.id)) = true → freeSlot s c = some slot →
    ∃ t i, exec (.preemptSave id) s = .next t ∧ t.wg id = none ∧ (∀ kg ∈ t.exe.groups, kg.2.wg ≠ id) ∧
      (∀ k g, s.group k = some g → g.wg ≠ id → (t.group k).map quiet = some (quiet g)) ∧
      t.host.images = s.host.images ++ [i] ∧ i.serial = s.exe.nextId ∧ i.wg = w ∧ i.origin = w.coreNo ∧
      (∀ g, g ∈ i.groups ↔ ∃ k, (k, g) ∈ s.exe.groups ∧ g.wg = id) ∧
      ((∃ kw ∈ s.exe.wgs, kw.1 ≠ id ∧ kw.2.ctx = w.ctx) →
        t.ctx w.ctx = some { c with images := c.images ++ [(slot, i.serial)] } ∧ t.host.replies = s.host.replies) ∧
      ((∀ kw ∈ s.exe.wgs, kw.1 ≠ id → kw.2.ctx ≠ w.ctx) →
        t.ctx w.ctx = some { c with images := c.images ++ [(slot, i.serial)], stopping := false, preempted := true } ∧
          (∀ word, s.host.replies = [(w.ctx, none), (0, some word)] → t.host.replies = [] ∧
            ∃ before, t.host.out = before ++ [.reply 1 0, .reply 1 word]))

/-- R105: a workgroup that moves, all its accesses performed, stands on the other core: its groups take their places there with their clean registers and paths as
they were, and no byte of memory changes. -/
def Claim.WorkgroupMoves : Prop :=
  ∀ (s : State) (id quad core : Nat) (w : WG) (c : Context) (ps : List (Nat × Nat)), s.wg id = some w → w.id = id → s.ctx w.ctx = some c →
    c.killed = false → c.stopping = false → (partQuads s c.part).contains quad = true → (quad ≠ w.quad ∨ core ≠ w.core) →
    drained s ((sortBy (fun a b => a.pos ≤ b.pos) ((s.exe.groups.map (·.2)).filter (·.wg = id))).map (·.id)) = true →
    let gs := sortBy (fun a b => a.pos ≤ b.pos) ((s.exe.groups.map (·.2)).filter (·.wg = id))
    let recs := (sget ({} : Side) s.exe.sides w.coreNo).recs.filter fun kr => (gs.map (·.id)).contains kr.2.1
    takesWg s w gs recs.length quad core = some ps → (gs.map (·.id)).Nodup → (∀ g ∈ gs, s.group g.id = some g) →
    ∃ t w', exec (.migration id quad core) s = .next t ∧ SameBytes s t ∧ t.host = s.host ∧ t.wg id = some w' ∧ w'.quad = quad ∧ w'.core = core ∧
      w'.bars = w.bars ∧ ∀ (k : Nat) (g : Group) (pl : Nat × Nat), gs[k]? = some g → ps[k]? = some pl →
        ∃ g', t.group g.id = some g' ∧ g'.part = pl.1 ∧ g'.slot = pl.2 ∧ g'.paths = g.paths ∧
          (g.mon.armed = true → g'.mon.flag = true) ∧ (∀ n u, (vGet g n u).poi = false → vGet g' n u = vGet g n u) ∧
          (∀ n, (sGet g n).poi = false → sGet g' n = sGet g n)

/-- R105, R395, R397: a saved workgroup as its slot at `base` holds it when it is restored on a core: a workgroup that moves performs its
fence before. -/
def slotImage (s : State) (base : Nat) (i : Image) (quad core : Nat) : Image :=
  readSlot (if quad ≠ i.wg.quad || core ≠ i.wg.core then s.withMem (moveFence s.mem i.wg i.groups quad core) else s) base i

/-- R397: a group stands where it was restored, with its paths and the threads that had exited as its slot holds them. -/
def StandsAgain (t : State) (i : Image) (ps : List (Nat × Nat)) : Prop :=
  ∀ (k : Nat) (g : Group) (pl : Nat × Nat), i.groups[k]? = some g → ps[k]? = some pl →
    ∃ g', t.group g.id = some g' ∧ g'.part = pl.1 ∧ g'.slot = pl.2 ∧ g'.paths = g.paths ∧ g'.exited = g.exited

/-- R397: RESUME of a context without a saved workgroup answers so; of one with one saved workgroup that a core takes, the workgroup is
resident there again as its slot holds it, and the context is pre-empted no longer. What of the slot is homed in host memory is fetched
from there (R367). -/
def Claim.ContextResumes : Prop :=
  ∀ (s : State) (tag : Nat) (c : Context), served s = true → s.host.replies = [] → s.ctx tag = some c → c.tag = tag →
    (c.images = [] → Answers (.resume tag) s 1 4 1) ∧
    (∀ (slot quad core : Nat) (i : Image) (ps : List (Nat × Nat)), c.images = [(slot, i.serial)] →
      s.host.images.find? (·.serial = i.serial) = some i → coreFor s i.wg i.groups i.records.length = some (quad, core, ps) →
      (i.groups.map (·.id)).Nodup →
      let base := slotBase s tag slot
      let s1 := fetchSlot s base i
      s1.ctx tag = some c →
      ∃ t w', exec (.resume tag) s = .next t ∧ t.ctx tag = some { c with images := [], preempted := false } ∧
        t.host.out = s1.host.out ++ [.reply 1 0] ∧ (∀ j ∈ t.host.images, j.serial ≠ i.serial) ∧
        t.wg i.wg.id = some w' ∧ w'.quad = quad ∧ w'.core = core ∧ w'.ctx = i.wg.ctx ∧ w'.launch = i.wg.launch ∧
        StandsAgain t (slotImage s1 base i quad core) ps)

/-- R105, R394, R395, R397. -/
def Obligations.WorkgroupsSavedMovedRestored : Prop :=
  Claim.PreemptStops ∧ Claim.WorkgroupSaved ∧ Claim.WorkgroupMoves ∧ Claim.ContextResumes


/-- R400, R407, R408: an enabled chord whose ports may train trains; it comes up on the widest bonding of the ports that lost no lane,
with its lanes and its peer, counts a failure, or goes down with the third, or where no whole port is left; a lane that is lost makes it
retrain on the ports that survive, and one of a port that it does not use is not used later; a chord that goes down keeps the count of
its trainings and the packets of flits that it has accepted. -/
def Claim.ChordsTrain : Prop :=
  ∀ (s : State) (c : Nat), served s = true → c < 64 →
    let ch := getChord s c
    (∀ v : Word, v.getLsbD 31 = true → ch.state = 0 → mayTrain s c = true →
      ∃ t, exec (.chordEnable c v) s = .next t ∧ t.mem = s.mem ∧ t.exe = s.exe ∧ OnlyWords s t [0x10000 + 32 * c] ∧
        t.mgmt (0x10000 + 32 * c) = 0x80000000 ∧ getChord t c = { state := 1, requests := ch.requests, inq := ch.inq }) ∧
    (∀ v : Word, v.getLsbD 31 = false → ch.requests = [] →
      ∃ t, exec (.chordEnable c v) s = .next t ∧ t.mgmt (0x10000 + 32 * c) = 0 ∧ (getChord t c).state = 0 ∧
        (ch.state = 0 → t.mem = s.mem ∧ t.exe = s.exe ∧ OnlyWords s t [0x10000 + 32 * c])) ∧
    (ch.state = 1 → ∀ peer : BitVec 12,
      let up := survivors ((portCount s c).getD 0) ch.bad
      let down : Chord := { retrains := min 63 (ch.retrains + 1), inq := endRuns ch.inq }
      (up ≠ 0 → ∃ t, exec (.chordTrainingComplete c true peer) s = .next t ∧ t.mem = s.mem ∧ t.exe = s.exe ∧
        let x := getChord t c
        x.state = 2 ∧ x.peer = peer ∧ x.failed = 0 ∧ x.retrains = min 63 (ch.retrains + 1) ∧ x.live = up ∧
          x.lanes = 4 * ((List.range 4).filter (up.getLsbD ·)).length) ∧
      (up = 0 → ch.requests = [] → ∃ t, exec (.chordTrainingComplete c true peer) s = .next t ∧ getChord t c = down) ∧
      (ch.failed < 2 → ∃ t, exec (.chordTrainingComplete c false peer) s = .next t ∧ t.mem = s.mem ∧ t.exe = s.exe ∧
        getChord t c = { ch with retrains := min 63 (ch.retrains + 1), failed := ch.failed + 1 }) ∧
      (2 ≤ ch.failed → ch.requests = [] → ∃ t, exec (.chordTrainingComplete c false peer) s = .next t ∧ getChord t c = down)) ∧
    (∀ lane : Nat, ch.state ≠ 0 →
      let bad := ch.bad ||| (1#4 <<< (lane / 4))
      let live := survivors ((portCount s c).getD 0) bad
      let count := eventCounter ((quadPart s (chordQuad s c)).getD 0) 10 5
      (ch.live.getLsbD (lane / 4) = false →
        ∃ t, exec (.laneLoss c lane) s = .next t ∧ t.mem = s.mem ∧ t.exe = s.exe ∧ t.mgmt = s.mgmt ∧ getChord t c = { ch with bad := bad }) ∧
      (ch.live.getLsbD (lane / 4) = true → live ≠ 0 →
        ∃ t, exec (.laneLoss c lane) s = .next t ∧ t.mgmt count = satAdd (s.mgmt count) 1 ∧
          getChord t c = { ch with state := 1, live := live, lanes := 4 * ((List.range 4).filter (live.getLsbD ·)).length, bad := bad }))

/-- R401, R404, R406: an undamaged data flit with the expected number that carries no packet, and finds room in the receive buffer of its
channel, is accepted and acknowledged; one with another number is not, and the missing flit is asked for once; one that finds no room
is asked for again; a damaged flit is counted and asked for again. -/
def Claim.DataFlits : Prop :=
  ∀ (s : State) (c : Nat) (l : List Byte),
    let ch := getChord s c
    (GoodFlit s c l 0 → (flitHead l).seq = ch.expected →
      (ch.filled (flitChannel ch l) < 256 → ch.rx = [] → (wordAt l 12).extractLsb' 28 4 = 0 →
        ∃ t, exec (.dataFlitReceive c l) s = .next t ∧ t.mem = s.mem ∧ t.exe = s.exe ∧ (getChord t c).expected = ch.expected + 1 ∧
          (getChord t c).asked = false ∧ t.host.out.getLast? =
            some (.flit c (flitBytes { type := 1, go := goBits t c, av := true, ackseq := ch.expected, seq := 0, pmask := 0 } [0]))) ∧
      (256 ≤ ch.filled (flitChannel ch l) → ∃ t, exec (.dataFlitReceive c l) s = .next t ∧ t.mem = s.mem ∧ t.exe = s.exe ∧
        (getChord t c).expected = ch.expected ∧ (getChord t c).inq = ch.inq ∧ (getChord t c).asked = true)) ∧
    (GoodFlit s c l 0 → (flitHead l).seq ≠ ch.expected →
      ∃ t, exec (.dataFlitReceive c l) s = .next t ∧ t.mem = s.mem ∧ t.exe = s.exe ∧ (getChord t c).expected = ch.expected ∧
        ((flitHead l).seq - ch.expected < 2048 → (getChord t c).asked = true)) ∧
    (ch.state = 2 → flitGood l = false → ∃ t, exec (.dataFlitReceive c l) s = .next t ∧ t.mem = s.mem ∧ t.exe = s.exe ∧
      (getChord t c).expected = ch.expected ∧ (getChord t c).asked = true ∧ OnlyWords s t [0x10000 + 32 * c + 0x10] ∧
      t.mgmt (0x10000 + 32 * c + 0x10) = satAdd (s.mgmt (0x10000 + 32 * c + 0x10)) 1)

/-- R401, R406: a flit as it is sent again: its own number, payload and packets under the go bits and the acknowledgement of now. -/
def sentAgain (s : State) (c : Nat) (l : List Byte) : List Byte :=
  let ch := getChord s c
  flitBytes { flitHead l with go := goBits s c, av := ch.accepted, ackseq := ch.expected - 1 } ((flitWords l).map (·.1))

/-- R401, R404, R406: an idle flit frees the flits that it acknowledges and sets the go bits; a replay request makes the chord send its
buffer again from the flit that it names, and the replay timer from its start; each is counted as a replay. A flit that was accepted
before is acknowledged again. -/
def Claim.AcknowledgementsAndReplays : Prop :=
  ∀ (s : State) (c : Nat) (l : List Byte),
    let ch := getChord s c
    let acked : Chord := { takeAck ch (flitHead l) with go := (flitHead l).go }
    let replays := 0x10000 + 32 * c + 8
    (GoodFlit s c l 1 → ch.tx = [] → ∃ t, exec (.idleFlitReceive c l) s = .next t ∧ t.mem = s.mem ∧ t.exe = s.exe ∧ getChord t c = acked) ∧
    (GoodFlit s c l 2 → ch.tx = [] → ∃ t, exec (.replayRequestReceive c l) s = .next t ∧ getChord t c = acked ∧
      t.mgmt replays = satAdd (s.mgmt replays) 1 ∧
      ∀ x ∈ acked.unacked.dropWhile (·.1 ≠ (wordAt l 12).setWidth 12), .flit c (sentAgain s c x.2) ∈ t.host.out) ∧
    (GoodFlit s c l 0 → ch.tx = [] → 2048 ≤ (flitHead l).seq - ch.expected → ∃ t, exec (.dataFlitReceive c l) s = .next t ∧
      t.mem = s.mem ∧ t.exe = s.exe ∧ getChord t c = acked ∧ t.host.out = s.host.out ++ [.flit c (flitBytes
        { type := 1, go := goBits s c, av := ch.accepted, ackseq := ch.expected - 1, seq := 0, pmask := 0 } [0])]) ∧
    (ch.state = 2 → ch.asked = false → ch.unacked ≠ [] → ∃ t, exec (.replayTimerExpiry c) s = .next t ∧ getChord t c = ch ∧
      t.mgmt replays = satAdd (s.mgmt replays) 1 ∧ ∀ x ∈ ch.unacked, .flit c (sentAgain s c x.2) ∈ t.host.out) ∧
    (ch.state = 2 → ch.asked = true → ch.unacked = [] → ∃ t, exec (.replayTimerExpiry c) s = .next t ∧ t.mem = s.mem ∧ t.exe = s.exe ∧
      getChord t c = ch ∧ t.host.out = s.host.out ++ [.flit c (flitBytes
        { type := 2, go := goBits s c, av := ch.accepted, ackseq := ch.expected - 1, seq := 0, pmask := 0 } [ch.expected.setWidth 32])])

/-- R400, R401, R404, R406 to R408. -/
def Obligations.ChordsAndFlits : Prop := Claim.ChordsTrain ∧ Claim.DataFlits ∧ Claim.AcknowledgementsAndReplays

/-- R83, R265: what the lanes of an atomic on one word give in turn: the old words of each, and the words that the last leaves. -/
def lanesDone (op : Nat) (wide signed : Bool) (old : List Word) : List (List Word) → List Word × List Word
  | [] => ([], old)
  | ws :: rest =>
    let r := lanesDone op wide signed (wordsOfBytes (atomicBytes op wide signed old ws)) rest
    (old ++ r.1, r.2)

/-- R83, R257, R403, R409, R410, R412: a request that the package does not admit is answered with its status and changes no memory; a READ is
answered with the words of memory, a WRITE stores its bytes, an ATOMIC performs its lanes in turn, leaves the new value and answers with
the old ones. A WRITE or an ATOMIC after which more lanes of its instruction follow for its word (log entry 22) waits for them. -/
def Claim.RequestsPerformed : Prop :=
  ∀ (s : State) (c : Nat) (p : Packet),
    let a := p.pa.toNat
    let n := p.len.toNat
    (p.vc ≠ 3 → (∀ x ∈ (getChord s c).inq, x.vc ≠ p.vc) → inboundStatus s p n ≠ 0 →
      (p.op = 1 → exec (.read c p) s = .next (sendResponse s c p 4 (inboundStatus s p n) 0 [] 0)) ∧
      (p.op = 2 → moreFollow p = false → exec (.write c p) s = .next (sendResponse s c p 5 (inboundStatus s p n) 0 [] 0))) ∧
    (Admitted s c p n → p.op = 1 →
      let k := (a % 4 + n + 3) / 4
      (∀ j, j < k → settledWord s [remoteAgent] (a / 4 * 4 + 4 * j)) →
      ∃ s1, exec (.read c p) s = .next (sendResponse s1 c p 4 0 0 ((wordsAt s.mem (a / 4 * 4) k).map (·, none)) n) ∧ SameBytes s s1 ∧
        s1.host = s.host ∧ s1.exe = s.exe) ∧
    (Admitted s c p n → p.op = 2 → moreFollow p = false → p.data.length = n →
      ∃ s1, exec (.write c p) s = .next (sendResponse s1 c p 5 0 0 [] 0) ∧ SameGroups s s1 ∧
        ∀ b, memByte s1.mem b = memByte (setBytes s.mem a p.data) b) ∧
    (∀ op wide, wide = p.aflags.getLsbD 0 → Admitted s c p (if wide then 8 else 4) → p.op = 3 → op < 10 → p.aop.toNat = 0x70 + op →
      (wide = true → op ≠ 1) → moreFollow p = false → (p.status.getLsbD 0 = true → op = 2 ∨ op = 3) →
      (∀ m ∈ p.marks, m = false) → a % 4 = 0 → s.ctl.shadow = [] →
      (∀ j, j < (if wide then 2 else 1) → eccBad s (a + 4 * j) = false ∧ wordPoi s.mem (a + 4 * j) = false ∧ regionOf (a + 4 * j) ≠ .host) →
      let width := (if wide then 2 else 1) * (if op = 8 then 2 else 1)
      let lanes := (packetLanes p width).map (·.1)
      let done := lanesDone op wide (p.status.getLsbD 0) (wordsAt s.mem a (if wide then 2 else 1)) lanes
      ∃ s1, exec (.atomic c p) s = .next (sendAtomicResponse s1 c p (done.1.map (·, none))) ∧ SameGroups s s1 ∧
        ∀ b, memByte s1.mem b = memByte (setBytes s.mem a (done.2.flatMap bytesOfWord)) b)

/-- R82, R172, R259, R405, R279: a clean READ_RESP delivers its bytes, converted by the type, to the registers of the load that asked; a clean
ATOMIC_RESP the old words to those of the atomic; a WRITE_ACK ends a store's wait, and counts the bytes of an engine's write. Words that
an ACQ or an FWAIT asked for, and of the line that a fetch asked for the word at its address, are kept for the group that waits.
Monitors armed on the line of a write take the flag. -/
def Claim.ResponsesDelivered : Prop :=
  ∀ (s : State) (c d m : Nat) (p : Packet) (r : Request), Responds s c p d r →
    (∀ (q : Pending) (g : Group), r.engine = none → r.pendings = [m] → getPending s m = some q → q.id = m → s.group q.gid = some g → g.id = q.gid →
      (ctxOf s q.gid).any (fun k => !logging s k) = true → p.status = 0 → (∀ x ∈ p.marks, x = false) →
      (∀ conv const ags va ch tag ds, p.op = 4 → q.what = .remote (.load conv const ags []) va ch tag ds →
        p.data.length = (if conv = .raw then 4 * ds.length else 4) → (conv ≠ .raw → p.pa.toNat % 4 = 0) →
        let bytes := if conv = .raw then p.data else [p.data.getD (va.toNat % 4) 0]
        ds.length = (loadValue conv bytes).length → 1 ≤ ds.length → ds.length ≤ 2 →
        ∃ t, exec (.readResp c p) s = .next t ∧ getPending t m = none ∧ t.mem = s.mem ∧
          t.group q.gid = some ((valueRegs ds (loadValue conv bytes)).foldl deliverReg g)) ∧
      (∀ e va ch tag ds, p.op = 6 → q.what = .remote (.atomicRet e) va ch tag ds →
        ds.length = (match e.kind with | .atomic _ true _ => 2 | _ => 1) →
        ∃ t, exec (.atomicResp c p) s = .next t ∧ getPending t m = none ∧ t.mem = s.mem ∧
          (t.group q.gid).map quiet = some (quiet ((valueRegs ds ((packetData p ds.length).map (·.1))).foldl deliverReg g))) ∧
      (∀ e va ch tag ds, p.op = 5 → q.what = .remote (.eff e) va ch tag ds →
        ∃ t, exec (.writeAck c p) s = .next t ∧ getPending t m = none ∧ t.mem = s.mem ∧ SameGroups s t) ∧
      (∀ ags va ch tag ds, p.op = 4 → q.what = .remote (.acquire ags) va ch tag ds →
        ∃ t, exec (.readResp c p) s = .next t ∧ getPending t m = none ∧ t.mem = s.mem ∧
          t.group q.gid = some { g with gotten := sins g.gotten q.t ((packetData p 2).map (·.1), none) }) ∧
      (∀ va ch tag ds, p.op = 6 → q.what = .remote .poll va ch tag ds → p.aflags.getLsbD 0 = false →
        ∃ t, exec (.atomicResp c p) s = .next t ∧ getPending t m = none ∧ t.mem = s.mem ∧
          t.group q.gid = some { g with cells := (va, true) :: g.cells }) ∧
      (∀ va ch tag ds, p.op = 4 → q.what = .remote .code va ch tag ds →
        p.data.length = 128 → p.pa.toNat % 128 = 0 →
        ∃ t, exec (.readResp c p) s = .next t ∧ getPending t m = none ∧ t.mem = s.mem ∧
          t.group q.gid = some { g with code := (va, some (((packetData p 32).map (·.1)).getD (va.toNat % 128 / 4) 0)) :: g.code })) ∧
    (∀ o : EngOp, r.engine = some m → getOp s m = some o → o.id = m → r.op ≠ 1 → p.op = 5 → p.status = 0 →
      ∃ t, exec (.writeAck c p) s = .next t ∧ t.mem = s.mem ∧ SameGroups s t ∧
        getOp t m = some { o with acks := o.acks - 1, moved := o.moved + r.len
                                  arrived := if (commandSync o.q o.words).isNone then o.moved + r.len else o.arrived })

/-- R128, R136, R144, R150, R403: messages of a worklist in its present configuration: the sums of another package are kept, an end is
known, and a summary is learned by every unit of this package. A message of an earlier configuration does nothing, one of a later
configuration is kept for it. -/
def Claim.MessagesTaken : Prop :=
  ∀ (s : State) (ctx list u : Nat), (s.ctx ctx).isSome = true →
    let l := getList s ctx list
    (∀ x y : DWord, ListEvent (.message (.list ctx list l.config (.waveReply u x y))) s fun t =>
      getList t ctx list = { l with remoteSums := sins l.remoteSums (u / 4) (x, y) }) ∧
    ListEvent (.message (.list ctx list l.config .terminated)) s (fun t =>
      getList t ctx list = if l.state = 1 then l.terminate else l) ∧
    (∀ (low : Option Nat) (n : Nat) (asks : Option Nat), ListEvent (.message (.list ctx list l.config (.summary u low n asks))) s fun t =>
      ∀ k, (sfind l.units k).isSome = true → localUnit s k = true →
        unitAt t ctx list k = { l.unit k with seen := sins (l.unit k).seen u (low, n), asked := [] }.lower u asks) ∧
    (∀ m : ListMessage, (∀ n ws, m ≠ .configure n ws) → (∀ v g pa, m ≠ .cellLook v g pa) →
      (∀ old, old < l.config → exec (.message (.list ctx list old m)) s = .next s) ∧
      ∀ new, l.config < new → ListEvent (.message (.list ctx list new m)) s fun t =>
        getList t ctx list = { l with early := l.early ++ [(new, m)] })

/-- R144, R150, R259, R279, R403, R405, R409, R410, R412. -/
def Obligations.PacketsPerformed : Prop := Claim.RequestsPerformed ∧ Claim.ResponsesDelivered ∧ Claim.MessagesTaken


/-- R417, R422, R423, R437: RESET leaves no context and no group, keeps far and host memory and zeroes the rest, puts every management
word but the boot word and the signature count to its reset value, keeps the firmware store, and boots the active image, else recovery;
if both fail VOCL alone comes up and the ROM waits. -/
def Claim.PackageReset : Prop :=
  ∀ (s : State),
    let f := s.host.fw
    let first := !f.recoverNext && imageFail f f.active = 0
    let second := imageFail f f.recovery = 0
    ∃ t, exec .reset s = .next t ∧ t.exe = { nextId := s.exe.nextId } ∧ (∀ k, t.ctx k = none) ∧
      (∀ b, memByte t.mem b = if keptAddress b then memByte s.mem b else 0) ∧
      (∀ o, o ≠ 0 → o ≠ 0x10 → o ≠ 0x18 → t.mgmt o = mgmtReset o) ∧ t.mgmt 0x18 = BitVec.ofNat 32 (1048576 - f.leaf) ∧
      t.host.fw.active = f.active ∧ t.host.fw.staging = f.staging ∧ t.host.fw.recovery = f.recovery ∧
      t.host.fw.verjorHash = f.verjorHash ∧ t.host.fw.opHash = f.opHash ∧ t.host.fw.minsvn = f.minsvn ∧ t.host.fw.leaf = f.leaf ∧
      t.host.fw.recoverNext = false ∧
      (t.mgmt 0x10).extractLsb' 8 8 = BitVec.ofNat 8 f.minsvn ∧
      (t.mgmt 0x10).extractLsb' 24 4 = (if f.recoverNext then 0 else BitVec.ofNat 4 (imageFail f f.active)) ∧
      (first = true → t.host.fw.running = f.active ∧ t.mgmt 0 = 0 ∧ (t.mgmt 0x10).extractLsb' 0 2 = 1 ∧
        (t.mgmt 0x10).extractLsb' 4 2 = imageKey f.active ∧ (t.mgmt 0x10).extractLsb' 16 8 = imageSvn f.active) ∧
      (first = false → second → t.host.fw.running = f.recovery ∧ t.mgmt 0 = 0 ∧ (t.mgmt 0x10).extractLsb' 0 2 = 2 ∧
        (t.mgmt 0x10).extractLsb' 4 2 = imageKey f.recovery ∧ (t.mgmt 0x10).extractLsb' 16 8 = imageSvn f.recovery) ∧
      (first = false → ¬second → t.host.fw.running = [] ∧ t.host.fw.romWaiting = true ∧ t.mgmt 0 = 0x10 ∧
        (t.mgmt 0x10).extractLsb' 0 2 = 0)

/-- R418, R419: the records of the tests of a core: a unit after one that fails is not tested. -/
def coreRecords (run quad c : Nat) : List (List Byte) :=
  ((coreUnits quad c).zipIdx).map fun u =>
    unitRecord run quad (((coreUnits quad c).take u.2).any fun x => Config.selfTest run x.id ≠ 0) u.1

/-- R4, R417 to R419: a function that is due is tested, once, and the records of its units are logged; its ready bit is set if it passes;
with a quadrant its 320 core partitions, its 48 L2 slices and its other units are tested, and each core with a failing unit is marked
disabled. -/
def Claim.FunctionsBecomeReady : Prop :=
  ∀ (s : State) (bit : Nat), functionDue s bit = true →
    let run := runOf s bit
    let quad := bit % 4
    let mask (k : Nat) := 0x40 + 16 * quad + 4 * k
    let own := (functionUnits bit).map (unitRecord run (if 8 ≤ bit then quad else 0) false)
    ∃ t, exec (.functionReady bit) s = .next t ∧ t.mem = s.mem ∧ t.exe = s.exe ∧ t.host.fw.tested = bit :: s.host.fw.tested ∧
      t.mgmt 0 = (if functionPasses run bit then s.mgmt 0 ||| (1#32 <<< bit) else s.mgmt 0) ∧
      (¬(8 ≤ bit ∧ bit < 12) → OnlyWords s t [0] ∧ t.host.fw.tests = s.host.fw.tests ++ own) ∧
      (8 ≤ bit ∧ bit < 12 → OnlyWords s t [0, mask 0, mask 1, mask 2] ∧
        t.host.fw.tests = s.host.fw.tests ++ (List.range 80).flatMap (coreRecords run quad) ++ own ∧
        t.host.fw.tests.length = s.host.fw.tests.length + 3915 ∧
        ∀ c, c < 80 → (t.mgmt (mask (c / 32))).getLsbD (c % 32) = (coreUnits quad c).any fun u => Config.selfTest run u.id ≠ 0)

/-- R424: the commands that manage firmware, with their failures. -/
def Claim.FirmwareCommands : Prop :=
  ∀ (s : State),
    let f := s.host.fw
    let fail := imageFail f f.staging
    (∀ (img hash nonce : List Byte) (n p : Nat), ∀ i ∈ [Instr.stageImage img, .firmwareCommit, .recover, .minsvn n, .opkey hash,
      .attest nonce, .ckpt p], NeedsFirmware i s) ∧
    (ready s 4 = true → served s = true →
      (∀ img : List Byte, (0x01000800 < img.length → Answers (.stageImage img) s 2 3 1) ∧
        (img.length ≤ 0x01000800 → StoreBecomes (.stageImage img) s { f with staging := img })) ∧
      (fail ≠ 0 → Answers .firmwareCommit s 2 3 fail) ∧
      (fail = 0 → StoreBecomes .firmwareCommit s { f with active := f.staging }) ∧
      StoreBecomes .recover s { f with recoverNext := true } ∧
      (∀ n, (n < f.minsvn ∨ (imageSvn f.running).toNat < n → Answers (.minsvn n) s 2 3 1) ∧
        (f.minsvn ≤ n → n ≤ (imageSvn f.running).toNat → ∃ t, exec (.minsvn n) s = .next t ∧ t.host.fw = { f with minsvn := n } ∧
          t.mem = s.mem ∧ t.exe = s.exe ∧ OnlyWords s t [0x10] ∧
          t.mgmt 0x10 = (s.mgmt 0x10).extractLsb' 16 16 ++ BitVec.ofNat 8 n ++ (s.mgmt 0x10).extractLsb' 0 8 ∧
          t.host.out = s.host.out ++ [.reply 2 0])) ∧
      (∀ hash : List Byte, (f.opHash.isSome = true → Answers (.opkey hash) s 2 2 1) ∧
        (f.opHash = none → hash.length = 32 → StoreBecomes (.opkey hash) s { f with opHash := some hash })))

/-- R422, R424: IMAGE is accepted only from the ROM that waits, and boots the image once if it verifies. -/
def Claim.ImageFromRam : Prop :=
  ∀ (s : State) (img : List Byte),
    let f := s.host.fw
    (ready s 4 = false → exec (.image img) s = .next s) ∧
    (ready s 4 = true → f.romWaiting = false → Answers (.image img) s 2 4 1) ∧
    (ready s 4 = true → f.romWaiting = true → imageFail f img ≠ 0 → Answers (.image img) s 2 3 (imageFail f img)) ∧
    (ready s 4 = true → f.romWaiting = true → imageFail f img = 0 → ∃ t, exec (.image img) s = .next t ∧ t.mem = s.mem ∧ t.exe = s.exe ∧
      t.host.fw = { f with running := img, romWaiting := false } ∧ OnlyWords s t [0x10] ∧ (t.mgmt 0x10).extractLsb' 0 2 = 3 ∧
      (t.mgmt 0x10).extractLsb' 4 2 = imageKey img ∧ (t.mgmt 0x10).extractLsb' 16 8 = imageSvn img ∧
      (t.mgmt 0x10).extractLsb' 24 4 = (s.mgmt 0x10).extractLsb' 24 4 ∧ t.host.out = s.host.out ++ [.reply 2 0])

/-- R425: ATTEST sends a report that holds the nonce, the boot word, the ready word, the fused hashes, the digest of the running body
and the leaf index, signed, and uses the leaf up; with no signature left it fails. -/
def Claim.Attestation : Prop :=
  ∀ (s : State) (nonce : List Byte), ready s 4 = true → served s = true →
    let f := s.host.fw
    let left : BitVec 21 := (s.mgmt 0x18).extractLsb' 0 21
    let body := padTo 32 nonce ++ bytesOfWord (s.mgmt 0x10) ++ bytesOfWord (s.mgmt 0) ++ padTo 32 f.verjorHash ++
      padTo 32 (f.opHash.getD []) ++ sha256 (imageBody f.running) ++ bytesOfWord (BitVec.ofNat 32 f.leaf)
    (left = 0 → Answers (.attest nonce) s 2 2 1) ∧
    (left ≠ 0 → ∃ t, exec (.attest nonce) s = .next t ∧ t.mem = s.mem ∧ t.exe = s.exe ∧ t.host.fw = { f with leaf := f.leaf + 1 } ∧
      OnlyWords s t [0x18] ∧ t.mgmt 0x18 = s.mgmt 0x18 - 1 ∧
      t.host.out = s.host.out ++ [.report (body ++ Config.attestSignature body f.leaf), .reply 2 0])

/-- R417 to R419, R422 to R425, R437. -/
def Obligations.ResetFirmwareAndAttestation : Prop :=
  Claim.PackageReset ∧ Claim.FunctionsBecomeReady ∧ Claim.FirmwareCommands ∧ Claim.ImageFromRam ∧ Claim.Attestation

/-- R427, R428: CKPT fails as its block, its context or its engines say; else, outside record mode, the generation flips, the checkpoint
runs, the dirty map is copied to the snapshot map and cleared. -/
def Claim.CheckpointStarts : Prop :=
  ∀ (s : State) (p : Nat), ready s 4 = true → served s = true →
    let tag := ckTag s p
    let running := ckStatus s p = 1
    let b := 0x14000 + 64 * p
    let snap := ckmapBase s p
    (s.ctx tag = none → Answers (.ckpt p) s 2 1 3) ∧
    ((s.ctx tag).isSome = true → ckWrong s p = true → Answers (.ckpt p) s 2 3 2) ∧
    ((s.ctx tag).isSome = true → ckWrong s p = false → running → Answers (.ckpt p) s 2 4 1) ∧
    ((s.ctx tag).isSome = true → ckWrong s p = false → ¬running → ckReady s p = false → Answers (.ckpt p) s 2 5 4) ∧
    (∀ (c : Context) (dmap : Nat), s.ctx tag = some c → ckWrong s p = false → ¬running → ckReady s p = true → debugBit s tag 3 = false →
      c.rep.late = [] → (∀ x ∈ s.mem.ecc, x.1 % 4 = 0 ∧ (x.1 < dmap ∨ dmap + mapBytes ≤ x.1)) →
      dirtyMap s tag = some dmap → apart dmap mapBytes snap mapBytes →
      ∃ t, exec (.ckpt p) s = .next t ∧ t.ctx tag = some { c with ckact := true, gen := !c.gen, rep := { c.rep with interval := false } } ∧
        (∀ k, k ≠ tag → t.ctx k = s.ctx k) ∧ ckStatus t p = 1 ∧ t.mgmt (b + 0x18) = 0 ∧ OnlyWords s t [b + 0x18, b + 0x1C] ∧
        SameGroups s t ∧
        (∀ o, o < mapBytes → memByte t.mem (snap + o) = memByte s.mem (dmap + o) ∧ memByte t.mem (dmap + o) = 0) ∧
        ∀ a, (a < dmap ∨ dmap + mapBytes ≤ a) → (a < snap ∨ snap + mapBytes ≤ a) → memByte t.mem a = memByte s.mem a)

/-- R428 to R431: the engine of a quadrant writes the record of its next marked page to the stream ring and clears its mark; it waits for
room; with no page marked the engine of the lowest quadrant writes the end record, and the checkpoint is done. -/
def Claim.CheckpointPages : Prop :=
  ∀ (s : State) (p q : Nat) (c : Context),
    let tag := ckTag s p
    let b := 0x14000 + 64 * p
    let snap := ckmapBase s p
    let slot := ckSlot s p
    let tail := s.mgmt (b + 0xC)
    s.ctx tag = some c → p < 4 → ckStatus s p = 1 → c.ckact = true → (partQuads s p).contains q = true →
    (ckmapFails s.mem snap = true ∨ ckmapOk s p = false →
      ∃ t, exec (.checkpointPageCopy p q) s = .next t ∧ t.mem = s.mem ∧ ckStatus t p = 3 ∧ t.host.out = s.host.out ++ [.checkpoint p]) ∧
    (ckmapFails s.mem snap = false → ckmapOk s p = true → streamOk slot = true →
      (ckRoom s p = false → exec (.checkpointPageCopy p q) s = .next s) ∧
      (∀ page, ckRoom s p = true → nextPage s p q tag = some page → (∀ x ∈ s.mem.ecc, x.1 < page ∨ page + 65536 ≤ x.1) →
        apart slot 81920 page 65536 → apart slot 81920 snap mapBytes →
        ∃ t, exec (.checkpointPageCopy p q) s = .next t ∧ SameGroups s t ∧ OnlyWords s t [b + 0xC, b + 0x18] ∧
          t.mgmt (b + 0xC) = tail + 1 ∧ t.mgmt (b + 0x18) = s.mgmt (b + 0x18) + 1 ∧
          WordsAt t slot (recordHead false (pageMeta s.mem page) tail 0 page tag c.gen) ∧
          WordsAt t (slot + 0x80) ((List.range 512).flatMap (lineMeta s.mem page)) ∧
          (∀ k, k < 16384 → memWord t.mem (slot + 0x4000 + 4 * k) = memWord s.mem (page + 4 * k)) ∧
          (∀ a, a < mapBytes → ∀ j, j < 8 → (memByte t.mem (snap + a)).getLsbD j =
            ((memByte s.mem (snap + a)).getLsbD j && !(8 * a + j == page / 65536)))) ∧
      (ckRoom s p = true → markedPages s.mem snap = [] → (partQuads s p).head? = some q →
        ∃ t, exec (.checkpointPageCopy p q) s = .next t ∧ SameGroups s t ∧ ckStatus t p = 2 ∧ t.mgmt (b + 0xC) = tail + 1 ∧
          t.ctx tag = some { c with ckact := false } ∧ .checkpoint p ∈ t.host.out ∧
          WordsAt t slot (recordHead true false tail (s.mgmt (b + 0x18)) 0 tag c.gen)))

/-- R427 to R431. -/
def Obligations.CheckpointStream : Prop := Claim.CheckpointStarts ∧ Claim.CheckpointPages

/-- R436, R439, R441, R444, R445: words of the severity matrix, the log's head, the dump descriptor and the end of a dump; a reset of the
partition that waits for a dump is done when the dump ends, or when a write of the size ends its wait. -/
def Claim.ReliabilityRegisters : Prop :=
  ∀ (s : State) (p : Nat), p < 4 →
    let b := 0x15000 + 0x100 * p
    (served s = true → ∀ (cls : Nat) (v : Word), cls < 24 →
      ((∀ k, k < 8 → (v.extractLsb' (3 * k) 3).toNat ≤ 4) → ∃ t, exec (.matrixWordWrite p cls v) s = .next t ∧ t.mem = s.mem ∧
        t.exe = s.exe ∧ OnlyWords s t [b + 4 * cls] ∧ t.mgmt (b + 4 * cls) = 0#8 ++ v.setWidth 24) ∧
      ((∃ k, k < 8 ∧ 4 < (v.extractLsb' (3 * k) 3).toNat) → exec (.matrixWordWrite p cls v) s = .next s)) ∧
    (served s = true → ∀ v : Word, ∃ t, exec (.logHeadWrite p v) s = .next t ∧ t.mem = s.mem ∧ t.exe = s.exe ∧
      OnlyWords s t [b + 0x88, b + 0x90] ∧ t.mgmt (b + 0x88) = v ∧ t.mgmt (b + 0x90) = 0) ∧
    (served s = true → ∀ x : DWord,
      let sized := (s.setMgmt (b + 0xA8) (x.setWidth 32)).setMgmt (b + 0xB0) ((s.mgmt (b + 0xB0)).extractLsb' 2 30 ++ 0#2)
      (sfind s.host.resetWaits p = none → exec (.dumpDescriptorWrite p true x) s = .next sized) ∧
      (∀ trigger, sfind s.host.resetWaits p = some trigger → exec (.dumpDescriptorWrite p true x) s =
        .next (resetPartition { sized with host := { sized.host with resetWaits := sdel s.host.resetWaits p } } p trigger))) ∧
    (served s = true → ∀ x : DWord, ∃ t, exec (.dumpDescriptorWrite p false x) s = .next t ∧ t.mem = s.mem ∧ t.exe = s.exe ∧
      OnlyWords s t [b + 0xA0, b + 0xA4] ∧ t.mgmt64 (b + 0xA0) = x.extractLsb' 16 48 ++ 0#15 ++ x.extractLsb' 0 1) ∧
    ((s.mgmt (b + 0xB0)).extractLsb' 0 2 = 1#2 →
      let done := (s.setMgmt (b + 0xB0) ((s.mgmt (b + 0xB0)).extractLsb' 2 30 ++ 2#2)).send (.dump p)
      (sfind s.host.resetWaits p = none → exec (.dumpComplete p) s = .next done) ∧
      (∀ trigger, sfind s.host.resetWaits p = some trigger → exec (.dumpComplete p) s =
        .next (resetPartition { done with host := { done.host with resetWaits := sdel s.host.resetWaits p } } p trigger)))

/-- R54, R434, R438: the events that hardware detects by itself are counted for their partition, class and source; a word in which
scrubbing finds an error that cannot be corrected is poisoned. -/
def Claim.HardwareEvents : Prop :=
  ∀ (s : State),
    (∀ info : DWord, ∃ t, exec (.cxlLinkError info) s = .next t ∧
      t.mgmt (eventCounter 0 22 6) = satAdd (s.mgmt (eventCounter 0 22 6)) 1) ∧
    (∀ (q src n : Nat) (info : DWord), src < 8 → n < 48 → (src ≠ 1 → n = 0) → ∃ t, exec (.internalConsistencyCheck q (8 * n + src) info) s = .next t ∧
      let k := eventCounter ((quadPart s q).getD 0) 23 src
      t.mgmt k = satAdd (s.mgmt k) 1) ∧
    (∀ (pa src : Nat) (bad : Bool), (src = 3 ∧ ∃ q, regionOf (pa / 4 * 4) = .near q) ∨ (src = 4 ∧ ∃ r, regionOf (pa / 4 * 4) = .far r) →
      let a := pa / 4 * 4
      let cls := if bad then 7 else 6
      let k := eventCounter ((ownerOf s a).getD 0) cls src
      ∃ t, exec (.scrubbing pa bad) s = .next t ∧ t.mgmt k = satAdd (s.mgmt k) 1 ∧
        (actionOf s { cls := cls, src := src, part := ownerOf s a } = 0 → SameBytes s t ∧ t.exe = s.exe ∧
          (bad = false → t.mem = s.mem) ∧
          (bad = true → eccBad t a = false ∧ ∀ x, wordPoi t.mem x = (wordPoi s.mem x || (x / 4 == a / 4)))))

/-- R381, R391, R400, R410 to R412, R427, R441, R447: a write of a management word, or of a word of a live context's debug block, changes
its writable bits and no other word. -/
def Claim.ManagementWrites : Prop :=
  ∀ (s : State) (off : Nat) (v : Word), served s = true →
    (let w := writableBits s off
     ∃ t, exec (.managementRegisterWrite off v) s = .next t ∧ t.mem = s.mem ∧ t.exe = s.exe ∧ OnlyWords s t [off] ∧
      ∀ j, j < 32 → (t.mgmt off).getLsbD j = if w.getLsbD j then v.getLsbD j else (s.mgmt off).getLsbD j) ∧
    (∀ tag, (s.ctx tag).isSome = true →
      let a := 0x18000 + 0x100 * tag + off
      ∃ t, exec (.debugBlockWrite tag off v) s = .next t ∧ t.mem = s.mem ∧ OnlyWords s t [a] ∧ (off ≠ 0 → t.exe = s.exe) ∧
        (∀ j, j < 32 → (t.mgmt a).getLsbD j = if (debugBits off).getLsbD j then v.getLsbD j else (s.mgmt a).getLsbD j) ∧
        (off = 0 → debugBit s tag 0 = false → v.getLsbD 0 = true → ∀ k g, s.group k = some g → g.id = k →
          (s.wg g.wg).any (·.ctx = tag) = true → t.group k = some { g with traceCount := 255 }))

/-- R54, R381, R391, R400, R410 to R412, R427, R434, R436, R438, R441, R444, R445, R447. -/
def Obligations.ReliabilityAndRegisters : Prop := Claim.ReliabilityRegisters ∧ Claim.HardwareEvents ∧ Claim.ManagementWrites

/-- R454: HALT, GO, STEP and REPLAY fail for a context that is not live or whose debug bit is clear. -/
def Claim.DebugFailures : Prop :=
  ∀ (s : State) (tag launch num id n : Nat), served s = true → s.host.replies = [] →
    (∀ i ∈ [Instr.halt tag, .go tag, .step tag launch num, .replay tag id n], s.ctx tag = none → Answers i s 1 1 1) ∧
    (∀ i ∈ [Instr.halt tag, .go tag, .replay tag id n], (s.ctx tag).isSome = true → debugBit s tag 2 = false → Answers i s 1 4 2)

/-- R447, R454: HALT stops every group of a context in debug, resident or saved; GO sends the stopped groups on, and fails where there is none. -/
def Claim.HaltAndGo : Prop :=
  ∀ (s : State) (tag : Nat) (c : Context), served s = true → s.host.replies = [] → s.ctx tag = some c → c.tag = tag →
    debugBit s tag 2 = true →
      (c.killed = false → ∃ t, exec (.halt tag) s = .next t ∧ t.host.out.getLast? = some (.reply 1 0) ∧
        (∀ k g, s.group k = some g → g.id = k → (s.wg g.wg).any (·.ctx = tag) = true → g.stop = .none ∨ g.stop = .stepping →
          ∃ g', t.group k = some g' ∧ g'.stop = .debug ∧ g'.paths = (endPauses g).paths ∧ g'.stack = g.stack ∧ g'.v = g.v ∧ g'.sr = g.sr) ∧
        (∀ i ∈ t.host.images, i.wg.ctx = tag → ∀ g ∈ i.groups, g.stop = .debug) ∧ ∀ k, t.ctx k = s.ctx k) ∧
      (heldGroups s tag = [] → Answers (.go tag) s 1 4 3) ∧
      (heldGroups s tag ≠ [] → ∃ t, exec (.go tag) s = .next t ∧ t.mem = s.mem ∧ t.host.out = s.host.out ++ [.reply 1 0] ∧
        (∀ k g, s.group k = some g → g.id = k → (s.wg g.wg).any (·.ctx = tag) = true → g.stop = .debug →
          t.group k = some { g with stop := .none }) ∧
        t.ctx tag = some { c with rep := { c.rep with status := if c.rep.status = 1 then 1 else 0 } })

/-- R454, R455: STEP of a stopped workgroup lets its groups run until their step ends; of one that runs, or is not there, it fails. -/
def Claim.WorkgroupSteps : Prop :=
  ∀ (s : State) (tag launch num : Nat), served s = true → s.host.replies = [] → (s.ctx tag).isSome = true → debugBit s tag 2 = true →
    (∀ kg ∈ s.exe.groups, kg.2.id = kg.1) → (skeys s.exe.groups).Nodup →
    (namedWgs s tag launch num = [] → Answers (.step tag launch num) s 1 1 3) ∧
    (∀ w : WG, namedWgs s tag launch num = [w] → s.wg w.id = some w →
      ((∃ g ∈ groupsOfWg s w.id, g.stop ≠ .debug) → Answers (.step tag launch num) s 1 4 3) ∧
      ((∀ g ∈ groupsOfWg s w.id, g.stop = .debug) → ∃ t, exec (.step tag launch num) s = .next t ∧ t.mem = s.mem ∧
        t.host.out = s.host.out ++ [.reply 1 0] ∧ t.wg w.id = some { w with stepping := true } ∧
        ∀ k g, s.group k = some g → g.id = k → t.group k = some (if g.wg = w.id then { g with stop := .stepping } else g)))

/-- R454, R461, R462: REPLAY needs a recorded snapshot and a pre-empted context; then the context goes on from its snapshot in replay
mode up to the point named, here with a save area that does not lie in host memory. After an interval whose checkpoint was aborted the replay has failed at once. -/
def Claim.ReplayStarts : Prop :=
  ∀ (s : State) (tag id n : Nat) (c : Context), served s = true → s.host.replies = [] → s.ctx tag = some c → c.tag = tag → debugBit s tag 2 = true →
    (c.rep.recorded = false → Answers (.replay tag id n) s 1 4 3) ∧
    (c.rep.recorded = true → c.preempted = false → Answers (.replay tag id n) s 1 4 4) ∧
    (c.rep.recorded = true → c.preempted = true →
      (startReplay s c id n = none → exec (.replay tag id n) s = .next s) ∧
      (let s0 : State := rewindFlight s c
       let s0 : State := { s0 with host := { s0.host with images := s0.host.images.filter (·.wg.ctx ≠ tag) } }
       (startReplay s c id n).isSome = true → (∀ x ∈ copiedImages s0 c, regionOf (slotBase s0 tag x.1) ≠ .host) →
       ∃ t c', exec (.replay tag id n) s = .next t ∧ t.ctx tag = some c' ∧ c'.images = [] ∧
        c'.preempted = false ∧ c'.root = c.root ∧ c'.part = c.part ∧ c'.rep.status = (if c.rep.broken then 3 else 1) ∧ c'.rep.target = id ∧ c'.rep.limit = n ∧ c'.rep.interval = false ∧
        c'.rep.used = [] ∧ c'.rep.late = [] ∧ c'.rep.waited = false ∧
        t.host.out = s.host.out ++ [.reply 1 0] ∧ (∀ i ∈ t.host.images, i.wg.ctx ≠ tag) ∧
        ∀ (slot quad core : Nat) (i : Image) (ps : List (Nat × Nat)), copiedImages s0 c = [(slot, i)] →
          coreFor s0 i.wg i.groups i.records.length = some (quad, core, ps) → (i.groups.map (·.id)).Nodup →
          ∃ w', t.wg i.wg.id = some w' ∧ w'.quad = quad ∧ w'.core = core ∧
            StandsAgain t (slotImage s0 (slotBase s0 tag slot) i quad core) ps))

/-- R449, R453: a sample of a partition of a core takes the next of the context's groups there; its record goes to the sample ring, or is
counted as dropped. -/
def Claim.SamplesTaken : Prop :=
  ∀ (s : State) (quad core part tag : Nat) (g : Group) (w : WG),
    let at' := 80 * quad + core
    let gs := sortBy (fun a b => a.age ≤ b.age) ((s.groupsOf tag).filter fun g => g.part = part && (s.wg g.wg).any (·.coreNo = at'))
    let key := 1280 * tag + 4 * at' + part
    let m := sget 0 s.host.samples key
    let b := 0x18000 + 0x100 * tag + 0x18
    let d := s.mgmt64 b
    let tail := s.mgmt (b + 12)
    let a := (d.extractLsb' 16 48).toNat * 65536 + 32 * (tail.toNat % 2 ^ (d.extractLsb' 4 4).toNat)
    debugBit s tag 1 = true → core < 80 → gs[m % gs.length]? = some g → s.wg g.wg = some w →
    ∃ t, exec (.sample quad core part tag) s = .next t ∧ SameGroups s t ∧ sget 0 t.host.samples key = m + 1 ∧
      (ringRoom s tag 0x18 = true → t.mgmt (b + 12) = tail + 1 ∧ OnlyWords s t [b + 12] ∧ WordsAt t a (sampleWords s g w m) ∧
        ∀ x, x < a ∨ a + 32 ≤ x → memByte t.mem x = memByte s.mem x) ∧
      (ringRoom s tag 0x18 = false → t.mem = s.mem ∧ OnlyWords s t [b + 0x30] ∧ t.mgmt (b + 0x30) = satAdd (s.mgmt (b + 0x30)) 1)

/-- R175, R177, R178: a word that is no instruction is an illegal instruction, and retires as a NOP where the action lets the group go on;
where it could not be fetched the threads of its path exit, here with no span open (with one open, log entry 68 names the model's
choices). -/
def Claim.UnassignedWords : Prop :=
  ∀ (s : State) (h : Here) (w : Word), s.here = some h →
    let e := illegalEvent s h w 1
    (∀ reason, reason ≠ 1 → Illegal (.unassignedCodePoint w reason) s h w reason) ∧
    (3 ≤ actionOf s e →
      exec (.unassignedCodePoint w 1) s = .next ((raise s e).modGroup h.g.id fun g => { g with stop := .context })) ∧
    (actionOf s e < 3 → h.p.mask &&& h.g.span.opened = 0 → ∃ t g', exec (.unassignedCodePoint w 1) s = .next t ∧
      t.group h.g.id = some g' ∧ g'.exited = h.g.exited ||| h.p.mask ∧ (g'.exited = BitVec.allOnes 128 → g'.paths = [] ∧ g'.stack = []))

/-- R175, R177, R178, R447, R449, R453 to R455, R462. -/
def Obligations.DebugCommandsAndUnassignedWords : Prop :=
  Claim.DebugFailures ∧ Claim.HaltAndGo ∧ Claim.WorkgroupSteps ∧ Claim.ReplayStarts ∧ Claim.SamplesTaken ∧ Claim.UnassignedWords

/-! ## The machine as a whole -/

/-- R172, R177, R457: the instruction that a group issues for what its fetch gave: what the word decodes to; the unassigned code point,
with its reason, for a word that is none or that could not be fetched, and for any word of a group whose image was bad. -/
def issuedInstr (h : Here) (f : FetchOut) : Instr :=
  match f with
  | .word w => if h.g.badImage then .unassignedCodePoint w 7 else match decode w with
    | .ok i => i
    | .error r => .unassignedCodePoint w r.reason
  | _ => .unassignedCodePoint 0 (if h.g.badImage then 7 else 1)

/-- R33, R47, R105, R172, R177, R457: a round of a partition whose choice is a path fetches the word at its pc, decodes it, and is the meaning
of that instruction for the path that issues, in the state in which the issue is noted and the errors of the registers that it reads are
detected, followed by the round's own counts, but for a word that accesses memory first after a migration, which waits; a word that is no instruction, or that cannot be fetched, is the unassigned code point with
its reason, and so is any word of a group whose image was bad; an event of the agenda is its meaning with no path issuing. -/
def Obligations.StepRunsTheDecodedInstruction : Prop :=
  (∀ (s : State) (core part : Nat) (rest : List Turn) (h : Here) (cands : List Nat) (f : FetchOut) (s1 : State),
    s.ctl.agenda = .round core part :: rest → pick (s.taken rest) core part = some (tryIssue (s.taken rest) h, cands) →
    fetchWord (s.taken rest) h = (f, s1) → (∀ c n a, f ≠ .away c n a) →
    let i := issuedInstr h f
    let s2 := noteErrors (noteIssue s1 h) h i
    (h.w.moved && memoryWord i) = false → mayIssue s2 = true →
    step s = match exec i s2 with
      | .next t => .next (closeIssue (s.taken rest) core part cands (tryIssue (s.taken rest) h) t)
      | r => r) ∧
  (∀ (s : State) (h : Here) (f : FetchOut) (s1 : State), fetchWord s h = (f, s1) → (∀ c n a, f ≠ .away c n a) → h.w.moved = true →
    memoryWord (issuedInstr h f) = true → (tryIssue s h).r = .next (stall s)) ∧
  (∀ (s : State) (core part : Nat) (rest : List Turn), s.ctl.agenda = .round core part :: rest → pick (s.taken rest) core part = none →
    step s = .next (closeRound (s.taken rest) core part (idleLeaf (s.taken rest) core part) none [] (s.taken rest))) ∧
  ∀ (s : State) (i : Instr) (rest : List Turn), s.ctl.agenda = .event i :: rest →
    step s = exec i { s with ctl := { s.ctl with agenda := rest, cur := none } }

/-- R33: the group whose word a round issues has lost seven rounds, and is the oldest of those that have, or no candidate has and it is
the oldest of all; of two paths that could issue, the one that did not issue last does; a win resets the count of lost rounds, a loss
adds to it. -/
def Obligations.ArbitrationRounds : Prop :=
  ∀ (s : State) (core part : Nat) (x : Ready) (cands : List Nat), namedGroups s → pick s core part = some (x, cands) →
    (∃ rs, (x.h.g, rs) ∈ roundReady s core part ∧ x ∈ rs ∧ ∀ y ∈ rs, y.h.pid ≠ x.h.pid → x.h.pid ≠ x.h.g.lastPath) ∧
    (∀ c ∈ roundReady s core part, (7 ≤ c.1.loss → 7 ≤ x.h.g.loss ∧ x.h.g.age ≤ c.1.age) ∧ (x.h.g.loss < 7 → x.h.g.age ≤ c.1.age)) ∧
    (∀ n, n ∈ cands ↔ ∃ c ∈ roundReady s core part, c.1.id = n) ∧
    ∀ (leaf : Nat) (before t : State) (n : Nat) (g : Group), cands.Nodup → n ∈ cands → t.group n = some g →
      (closeRound before core part leaf (some x.h) cands t).group n =
        some { g with loss := if n = x.h.g.id then 0 else g.loss + 1 }

/-- R153 to R158, R174 to R176: words of the encoding's formats V, I, W and B, written out bit by bit, and what they decode to. -/
def Obligations.DecodedWords : Prop :=
  decode 0b0_0000_0001_011_1_1111111111111111110#32 = .ok (.bra 3 true 0x7FFFE) ∧
  decode 0b0_0000_0101_0_10_0_0000000000000000101#32 = .ok (.span 2 5) ∧
  decode 0b0_0001_0000_0000101_1_0000011_0_0000100#32 = .ok (.add 5 true 3 false 4) ∧
  decode 0b1_0001_0000_0000101_0_0000011_1_0000100#32 = .ok (.addU 5 false 3 true 4) ∧
  decode 0b0_0001_1110_0010_101_1_0000011_0_0000100#32 = .ok (.cmp 2 5 true 3 false 4) ∧
  decode 0b0_0011_0111_0000101_0_0000011_00100000#32 = .ok (.cvt 5 false 3 0x20) ∧
  decode 0b0_0100_0000_0000101_0_0000011_11111111#32 = .ok (.addi 5 false 3 0xFF) ∧
  decode 0b0_0100_1000_0000101_0001001000110100#32 = .ok (.movw 5 0x1234) ∧
  decode 0b0_0101_0101_0000101_1_0000_110_000000_10#32 = .ok (.vote 5 true 6 2) ∧
  decode 0b0_0101_1000_0000_100_0_0000_101_1_0000_110#32 = .ok (.pand 4 false 5 true 6) ∧
  decode 0b0_0101_1110_00000_10_000000_01_11111110#32 = .ok (.xadd 2 1 0xFE) ∧
  decode 0b0_0110_1000_0000110_0_0001000_01_111111#32 = .ok (.ld 6 false 8 1 0x3F) ∧
  decode 0b0_0111_0000_0000101_0_0001000_1_0_000010#32 = .ok (.aadd 5 false 8 true false 2) ∧
  decode 0b0_1000_0010_0000110_0_0001000_00000_110#32 = .ok (.acq 6 false 8 6) ∧
  decode 0b0_1000_0100_0000000_00000000_00000_111#32 = .ok (.fence 7) ∧
  decode 0b1_1000_0110_0000_010_0_0000100_00000000#32 = .ok (.qw 2 false 4) ∧
  decode 0b0_1001_0010_0000100_00000_010_0000_1001#32 = .ok (.wlpop 4 2 9) ∧
  decode 0b1_1010_0001_0000_001_0_0001000_00000_010#32 = .ok (.mma 1 false 8 2) ∧
  decode 0b0_1011_0000_0000000_0000000000011000#32 = .ok (.mode 0x0018) ∧
  decode 0b0_1011_1001_00_00011_00000000_01_00_0111#32 = .ok (.barArrive 3 7) ∧
  decode 0b1_1100_0010_0000000_0_0000010_00001001#32 = .ok (.sysw false 2 9) ∧
  decode 0b1_1100_0110_0001000_0_0000100_00000000#32 = .ok (.fetchwg 8 false 4) ∧
  decode 0b0_0000_0111_00000000000000000000000#32 = .error .unassigned ∧
  decode 0b0_0000_0011_0001_0000000000000000001#32 = .error .field

/-- R153, R174 to R177: every well-formed instruction is read back from its word with every field; a word that is read is the word of
the instruction that it is read as, so that no bit of it is dropped; a field or a pair that is not allowed is refused by its check. -/
def Obligations.DecodeAndEncodeAgree : Prop :=
  (∀ i : Instr, i.isWord = true → i.wellFormed = true → decode (encode i) = .ok i) ∧
  (∀ (w : Word) (i : Instr), decode w = .ok i → encode i = w ∧ i.isWord = true ∧ i.wellFormed = true) ∧
  (∀ i : Instr, i.isWord = true → WellFormed.fieldOk i = false → decode (encode i) = .error .field) ∧
  (∀ i : Instr, i.isWord = true → WellFormed.fieldOk i = true → WellFormed.pairOk i = false → decode (encode i) = .error .pair) ∧
  ∀ (w : Word) (rest : List Byte) (i : Instr), decodeBytes (bytesOfWord w ++ rest) = .ok (i, rest) ↔ decode w = .ok i

/-- R378, R391, R400, R417, R425, R436: what reset leaves: no context, no group and no launch; every function not ready; the counters,
queues, partitions and chords at their reset values; memory in its canonical form. -/
def Obligations.ResetState : Prop :=
  let s := State.reset
  (∀ k, s.ctx k = none) ∧ (∀ k, s.group k = none) ∧ (∀ k, s.wg k = none) ∧ (∀ k, s.launch k = none) ∧ s.mgmt 0 = 0 ∧ s.mgmt 0x10 = 0 ∧
    s.mgmt 0x18 = 1048576 ∧ (∀ p, p < 4 → partMask s p = 0) ∧ (∀ q, q < 64 → (s.mgmt (0x1000 + 16 * q)).getLsbD 0 = false) ∧
    (∀ c, c < 64 → (getChord s c).state = 0 ∧ (s.mgmt (0x10000 + 32 * c + 12)).extractLsb' 16 16 = 96 ∧
      (s.mgmt (0x10000 + 32 * c + 12)).extractLsb' 0 16 = 8192) ∧
    (∀ p cls, p < 4 → cls < 24 → s.mgmt (0x15000 + 0x100 * p + 4 * cls) = matrixReset cls) ∧ s.memoryCanonical ∧ s.mem.tlb = [] ∧
    s.mem.flight = []

/-- The model's own invariant (log entry 2): every step keeps the canonical form of memory. -/
def Obligations.EveryStepKeepsMemoryCanonical : Prop :=
  ∀ s t : State, s.memoryCanonical → step s = .next t → t.memoryCanonical

/-- R422, R424, R425: no step changes the recovery image or the Verjor hash, undoes a fuse, or makes a used leaf free again. -/
def Obligations.NoStepUndoesAFuse : Prop := ∀ s t : State, step s = .next t → s.fusesKept t

/-- No step is refused. A step whose agenda names no event, or an event that no path issues and that is no access of the host, goes on;
so does every run that the machine makes by itself. -/
def Obligations.EveryStepGoesOn : Prop :=
  (∀ (s : State) (r : Refusal), step s ≠ .refused r) ∧
  (∀ s : State, (∀ i rest, s.ctl.agenda = .event i :: rest → i.isWord = false ∧ hostAccess i = false ∧
    ∀ w r, i ≠ .unassignedCodePoint w r) → goesOn s) ∧
  ∀ (n : Nat) (s : State), s.ctl.agenda = [] → safeRun n s
end
end

