-- ==== Sys2Proof/Laws/Decode.lean ====
section
/-!
SUPPORT. The fields of an encoded word (R153): what each extraction of the decoder reads from each format.
-/

namespace Sys2Proof.Laws

open Sys2Proof

/-! ## Extraction from an appended vector -/

/-- Bits that lie in the lower part of an appended vector. -/
theorem extract_append_lo {v w n k m : Nat} (x : BitVec v) (y : BitVec w) (z : BitVec n)
    (hz : ∀ i, z.getLsbD i = (x ++ y).getLsbD i) (h : k + m ≤ w) : z.extractLsb' k m = y.extractLsb' k m := by
  apply BitVec.eq_of_getLsbD_eq
  intro i hi
  rw [BitVec.getLsbD_extractLsb', BitVec.getLsbD_extractLsb', hz, BitVec.getLsbD_append]
  simp only [hi, decide_true, Bool.true_and]
  rw [if_pos (by omega)]

/-- Bits that lie in the upper part of an appended vector. -/
theorem extract_append_hi {v w n k m : Nat} (x : BitVec v) (y : BitVec w) (z : BitVec n)
    (hz : ∀ i, z.getLsbD i = (x ++ y).getLsbD i) (h : w ≤ k) : z.extractLsb' k m = x.extractLsb' (k - w) m := by
  apply BitVec.eq_of_getLsbD_eq
  intro i hi
  rw [BitVec.getLsbD_extractLsb', BitVec.getLsbD_extractLsb', hz, BitVec.getLsbD_append]
  simp only [hi, decide_true, Bool.true_and]
  rw [if_neg (by omega), show k + i - w = k - w + i by omega]

/-- A bit of the lower part of an appended vector. -/
theorem bit_append_lo {v w n k : Nat} (x : BitVec v) (y : BitVec w) (z : BitVec n)
    (hz : ∀ i, z.getLsbD i = (x ++ y).getLsbD i) (h : k < w) : z.getLsbD k = y.getLsbD k := by
  rw [hz, BitVec.getLsbD_append, if_pos h]

/-- A bit of the upper part of an appended vector. -/
theorem bit_append_hi {v w n k : Nat} (x : BitVec v) (y : BitVec w) (z : BitVec n)
    (hz : ∀ i, z.getLsbD i = (x ++ y).getLsbD i) (h : w ≤ k) : z.getLsbD k = x.getLsbD (k - w) := by
  rw [hz, BitVec.getLsbD_append, if_neg (by omega)]

/-! ## The formats -/

/-- Bits of field b of fmtV. -/
theorem fmtV_b_extract (cp : BitVec 9) (d : BitVec 7) (ea : Bool) (a : BitVec 7) (eb : Bool) (b : BitVec 7) (k m : Nat) (h' : k + m ≤ 7) :
    (fmtV cp d ea a eb b).extractLsb' k m = (b).extractLsb' k m := by
  exact extract_append_lo _ _ _ (fun _ => rfl) (by omega)
/-- Bits of field b of fmtV. -/
theorem fmtV_b_bit (cp : BitVec 9) (d : BitVec 7) (ea : Bool) (a : BitVec 7) (eb : Bool) (b : BitVec 7) (k : Nat) (h' : k < 7) :
    (fmtV cp d ea a eb b).getLsbD k = (b).getLsbD k := by
  exact bit_append_lo _ _ _ (fun _ => rfl) (by omega)
/-- Bits of field eb of fmtV. -/
theorem fmtV_eb_extract (cp : BitVec 9) (d : BitVec 7) (ea : Bool) (a : BitVec 7) (eb : Bool) (b : BitVec 7) (k m : Nat) (h : 7 ≤ k) (h' : k + m ≤ 8) :
    (fmtV cp d ea a eb b).extractLsb' k m = (BitVec.ofBool eb).extractLsb' (k - 7) m := by
  exact ((extract_append_hi _ _ _ (fun _ => rfl) (by omega)).trans (extract_append_lo _ _ _ (fun _ => rfl) (by omega)))
/-- Bits of field eb of fmtV. -/
theorem fmtV_eb_bit (cp : BitVec 9) (d : BitVec 7) (ea : Bool) (a : BitVec 7) (eb : Bool) (b : BitVec 7) (k : Nat) (h : 7 ≤ k) (h' : k < 8) :
    (fmtV cp d ea a eb b).getLsbD k = (BitVec.ofBool eb).getLsbD (k - 7) := by
  exact ((bit_append_hi _ _ _ (fun _ => rfl) (by omega)).trans (bit_append_lo _ _ _ (fun _ => rfl) (by omega)))
/-- Bits of field a of fmtV. -/
theorem fmtV_a_extract (cp : BitVec 9) (d : BitVec 7) (ea : Bool) (a : BitVec 7) (eb : Bool) (b : BitVec 7) (k m : Nat) (h : 8 ≤ k) (h' : k + m ≤ 15) :
    (fmtV cp d ea a eb b).extractLsb' k m = (a).extractLsb' (k - 8) m := by
  have e : (k - 7) - 1 = k - 8 := by omega
  exact e ▸ (((extract_append_hi _ _ _ (fun _ => rfl) (by omega)).trans (extract_append_hi _ _ _ (fun _ => rfl) (by omega))).trans (extract_append_lo _ _ _ (fun _ => rfl) (by omega)))
/-- Bits of field a of fmtV. -/
theorem fmtV_a_bit (cp : BitVec 9) (d : BitVec 7) (ea : Bool) (a : BitVec 7) (eb : Bool) (b : BitVec 7) (k : Nat) (h : 8 ≤ k) (h' : k < 15) :
    (fmtV cp d ea a eb b).getLsbD k = (a).getLsbD (k - 8) := by
  have e : (k - 7) - 1 = k - 8 := by omega
  exact e ▸ (((bit_append_hi _ _ _ (fun _ => rfl) (by omega)).trans (bit_append_hi _ _ _ (fun _ => rfl) (by omega))).trans (bit_append_lo _ _ _ (fun _ => rfl) (by omega)))
/-- Bits of field ea of fmtV. -/
theorem fmtV_ea_extract (cp : BitVec 9) (d : BitVec 7) (ea : Bool) (a : BitVec 7) (eb : Bool) (b : BitVec 7) (k m : Nat) (h : 15 ≤ k) (h' : k + m ≤ 16) :
    (fmtV cp d ea a eb b).extractLsb' k m = (BitVec.ofBool ea).extractLsb' (k - 15) m := by
  have e : ((k - 7) - 1) - 7 = k - 15 := by omega
  exact e ▸ ((((extract_append_hi _ _ _ (fun _ => rfl) (by omega)).trans (extract_append_hi _ _ _ (fun _ => rfl) (by omega))).trans (extract_append_hi _ _ _ (fun _ => rfl) (by omega))).trans (extract_append_lo _ _ _ (fun _ => rfl) (by omega)))
/-- Bits of field ea of fmtV. -/
theorem fmtV_ea_bit (cp : BitVec 9) (d : BitVec 7) (ea : Bool) (a : BitVec 7) (eb : Bool) (b : BitVec 7) (k : Nat) (h : 15 ≤ k) (h' : k < 16) :
    (fmtV cp d ea a eb b).getLsbD k = (BitVec.ofBool ea).getLsbD (k - 15) := by
  have e : ((k - 7) - 1) - 7 = k - 15 := by omega
  exact e ▸ ((((bit_append_hi _ _ _ (fun _ => rfl) (by omega)).trans (bit_append_hi _ _ _ (fun _ => rfl) (by omega))).trans (bit_append_hi _ _ _ (fun _ => rfl) (by omega))).trans (bit_append_lo _ _ _ (fun _ => rfl) (by omega)))
/-- Bits of field d of fmtV. -/
theorem fmtV_d_extract (cp : BitVec 9) (d : BitVec 7) (ea : Bool) (a : BitVec 7) (eb : Bool) (b : BitVec 7) (k m : Nat) (h : 16 ≤ k) (h' : k + m ≤ 23) :
    (fmtV cp d ea a eb b).extractLsb' k m = (d).extractLsb' (k - 16) m := by
  have e : (((k - 7) - 1) - 7) - 1 = k - 16 := by omega
  exact e ▸ (((((extract_append_hi _ _ _ (fun _ => rfl) (by omega)).trans (extract_append_hi _ _ _ (fun _ => rfl) (by omega))).trans (extract_append_hi _ _ _ (fun _ => rfl) (by omega))).trans (extract_append_hi _ _ _ (fun _ => rfl) (by omega))).trans (extract_append_lo _ _ _ (fun _ => rfl) (by omega)))
/-- Bits of field d of fmtV. -/
theorem fmtV_d_bit (cp : BitVec 9) (d : BitVec 7) (ea : Bool) (a : BitVec 7) (eb : Bool) (b : BitVec 7) (k : Nat) (h : 16 ≤ k) (h' : k < 23) :
    (fmtV cp d ea a eb b).getLsbD k = (d).getLsbD (k - 16) := by
  have e : (((k - 7) - 1) - 7) - 1 = k - 16 := by omega
  exact e ▸ (((((bit_append_hi _ _ _ (fun _ => rfl) (by omega)).trans (bit_append_hi _ _ _ (fun _ => rfl) (by omega))).trans (bit_append_hi _ _ _ (fun _ => rfl) (by omega))).trans (bit_append_hi _ _ _ (fun _ => rfl) (by omega))).trans (bit_append_lo _ _ _ (fun _ => rfl) (by omega)))
/-- Bits of field cp of fmtV. -/
theorem fmtV_cp_extract (cp : BitVec 9) (d : BitVec 7) (ea : Bool) (a : BitVec 7) (eb : Bool) (b : BitVec 7) (k m : Nat) (h : 23 ≤ k) :
    (fmtV cp d ea a eb b).extractLsb' k m = (cp).extractLsb' (k - 23) m := by
  have e : ((((k - 7) - 1) - 7) - 1) - 7 = k - 23 := by omega
  exact e ▸ (((((extract_append_hi _ _ _ (fun _ => rfl) (by omega)).trans (extract_append_hi _ _ _ (fun _ => rfl) (by omega))).trans (extract_append_hi _ _ _ (fun _ => rfl) (by omega))).trans (extract_append_hi _ _ _ (fun _ => rfl) (by omega))).trans (extract_append_hi _ _ _ (fun _ => rfl) (by omega)))
/-- Bits of field cp of fmtV. -/
theorem fmtV_cp_bit (cp : BitVec 9) (d : BitVec 7) (ea : Bool) (a : BitVec 7) (eb : Bool) (b : BitVec 7) (k : Nat) (h : 23 ≤ k) :
    (fmtV cp d ea a eb b).getLsbD k = (cp).getLsbD (k - 23) := by
  have e : ((((k - 7) - 1) - 7) - 1) - 7 = k - 23 := by omega
  exact e ▸ (((((bit_append_hi _ _ _ (fun _ => rfl) (by omega)).trans (bit_append_hi _ _ _ (fun _ => rfl) (by omega))).trans (bit_append_hi _ _ _ (fun _ => rfl) (by omega))).trans (bit_append_hi _ _ _ (fun _ => rfl) (by omega))).trans (bit_append_hi _ _ _ (fun _ => rfl) (by omega)))
/-- Bits of field i of fmtI. -/
theorem fmtI_i_extract (cp : BitVec 9) (d : BitVec 7) (ea : Bool) (a : BitVec 7) (i : BitVec 8) (k m : Nat) (h' : k + m ≤ 8) :
    (fmtI cp d ea a i).extractLsb' k m = (i).extractLsb' k m := by
  exact extract_append_lo _ _ _ (fun _ => rfl) (by omega)
/-- Bits of field i of fmtI. -/
theorem fmtI_i_bit (cp : BitVec 9) (d : BitVec 7) (ea : Bool) (a : BitVec 7) (i : BitVec 8) (k : Nat) (h' : k < 8) :
    (fmtI cp d ea a i).getLsbD k = (i).getLsbD k := by
  exact bit_append_lo _ _ _ (fun _ => rfl) (by omega)
/-- Bits of field a of fmtI. -/
theorem fmtI_a_extract (cp : BitVec 9) (d : BitVec 7) (ea : Bool) (a : BitVec 7) (i : BitVec 8) (k m : Nat) (h : 8 ≤ k) (h' : k + m ≤ 15) :
    (fmtI cp d ea a i).extractLsb' k m = (a).extractLsb' (k - 8) m := by
  exact ((extract_append_hi _ _ _ (fun _ => rfl) (by omega)).trans (extract_append_lo _ _ _ (fun _ => rfl) (by omega)))
/-- Bits of field a of fmtI. -/
theorem fmtI_a_bit (cp : BitVec 9) (d : BitVec 7) (ea : Bool) (a : BitVec 7) (i : BitVec 8) (k : Nat) (h : 8 ≤ k) (h' : k < 15) :
    (fmtI cp d ea a i).getLsbD k = (a).getLsbD (k - 8) := by
  exact ((bit_append_hi _ _ _ (fun _ => rfl) (by omega)).trans (bit_append_lo _ _ _ (fun _ => rfl) (by omega)))
/-- Bits of field ea of fmtI. -/
theorem fmtI_ea_extract (cp : BitVec 9) (d : BitVec 7) (ea : Bool) (a : BitVec 7) (i : BitVec 8) (k m : Nat) (h : 15 ≤ k) (h' : k + m ≤ 16) :
    (fmtI cp d ea a i).extractLsb' k m = (BitVec.ofBool ea).extractLsb' (k - 15) m := by
  have e : (k - 8) - 7 = k - 15 := by omega
  exact e ▸ (((extract_append_hi _ _ _ (fun _ => rfl) (by omega)).trans (extract_append_hi _ _ _ (fun _ => rfl) (by omega))).trans (extract_append_lo _ _ _ (fun _ => rfl) (by omega)))
/-- Bits of field ea of fmtI. -/
theorem fmtI_ea_bit (cp : BitVec 9) (d : BitVec 7) (ea : Bool) (a : BitVec 7) (i : BitVec 8) (k : Nat) (h : 15 ≤ k) (h' : k < 16) :
    (fmtI cp d ea a i).getLsbD k = (BitVec.ofBool ea).getLsbD (k - 15) := by
  have e : (k - 8) - 7 = k - 15 := by omega
  exact e ▸ (((bit_append_hi _ _ _ (fun _ => rfl) (by omega)).trans (bit_append_hi _ _ _ (fun _ => rfl) (by omega))).trans (bit_append_lo _ _ _ (fun _ => rfl) (by omega)))
/-- Bits of field d of fmtI. -/
theorem fmtI_d_extract (cp : BitVec 9) (d : BitVec 7) (ea : Bool) (a : BitVec 7) (i : BitVec 8) (k m : Nat) (h : 16 ≤ k) (h' : k + m ≤ 23) :
    (fmtI cp d ea a i).extractLsb' k m = (d).extractLsb' (k - 16) m := by
  have e : ((k - 8) - 7) - 1 = k - 16 := by omega
  exact e ▸ ((((extract_append_hi _ _ _ (fun _ => rfl) (by omega)).trans (extract_append_hi _ _ _ (fun _ => rfl) (by omega))).trans (extract_append_hi _ _ _ (fun _ => rfl) (by omega))).trans (extract_append_lo _ _ _ (fun _ => rfl) (by omega)))
/-- Bits of field d of fmtI. -/
theorem fmtI_d_bit (cp : BitVec 9) (d : BitVec 7) (ea : Bool) (a : BitVec 7) (i : BitVec 8) (k : Nat) (h : 16 ≤ k) (h' : k < 23) :
    (fmtI cp d ea a i).getLsbD k = (d).getLsbD (k - 16) := by
  have e : ((k - 8) - 7) - 1 = k - 16 := by omega
  exact e ▸ ((((bit_append_hi _ _ _ (fun _ => rfl) (by omega)).trans (bit_append_hi _ _ _ (fun _ => rfl) (by omega))).trans (bit_append_hi _ _ _ (fun _ => rfl) (by omega))).trans (bit_append_lo _ _ _ (fun _ => rfl) (by omega)))
/-- Bits of field cp of fmtI. -/
theorem fmtI_cp_extract (cp : BitVec 9) (d : BitVec 7) (ea : Bool) (a : BitVec 7) (i : BitVec 8) (k m : Nat) (h : 23 ≤ k) :
    (fmtI cp d ea a i).extractLsb' k m = (cp).extractLsb' (k - 23) m := by
  have e : (((k - 8) - 7) - 1) - 7 = k - 23 := by omega
  exact e ▸ ((((extract_append_hi _ _ _ (fun _ => rfl) (by omega)).trans (extract_append_hi _ _ _ (fun _ => rfl) (by omega))).trans (extract_append_hi _ _ _ (fun _ => rfl) (by omega))).trans (extract_append_hi _ _ _ (fun _ => rfl) (by omega)))
/-- Bits of field cp of fmtI. -/
theorem fmtI_cp_bit (cp : BitVec 9) (d : BitVec 7) (ea : Bool) (a : BitVec 7) (i : BitVec 8) (k : Nat) (h : 23 ≤ k) :
    (fmtI cp d ea a i).getLsbD k = (cp).getLsbD (k - 23) := by
  have e : (((k - 8) - 7) - 1) - 7 = k - 23 := by omega
  exact e ▸ ((((bit_append_hi _ _ _ (fun _ => rfl) (by omega)).trans (bit_append_hi _ _ _ (fun _ => rfl) (by omega))).trans (bit_append_hi _ _ _ (fun _ => rfl) (by omega))).trans (bit_append_hi _ _ _ (fun _ => rfl) (by omega)))
/-- Bits of field i of fmtW. -/
theorem fmtW_i_extract (cp : BitVec 9) (d : BitVec 7) (i : BitVec 16) (k m : Nat) (h' : k + m ≤ 16) :
    (fmtW cp d i).extractLsb' k m = (i).extractLsb' k m := by
  exact extract_append_lo _ _ _ (fun _ => rfl) (by omega)
/-- Bits of field i of fmtW. -/
theorem fmtW_i_bit (cp : BitVec 9) (d : BitVec 7) (i : BitVec 16) (k : Nat) (h' : k < 16) :
    (fmtW cp d i).getLsbD k = (i).getLsbD k := by
  exact bit_append_lo _ _ _ (fun _ => rfl) (by omega)
/-- Bits of field d of fmtW. -/
theorem fmtW_d_extract (cp : BitVec 9) (d : BitVec 7) (i : BitVec 16) (k m : Nat) (h : 16 ≤ k) (h' : k + m ≤ 23) :
    (fmtW cp d i).extractLsb' k m = (d).extractLsb' (k - 16) m := by
  exact ((extract_append_hi _ _ _ (fun _ => rfl) (by omega)).trans (extract_append_lo _ _ _ (fun _ => rfl) (by omega)))
/-- Bits of field d of fmtW. -/
theorem fmtW_d_bit (cp : BitVec 9) (d : BitVec 7) (i : BitVec 16) (k : Nat) (h : 16 ≤ k) (h' : k < 23) :
    (fmtW cp d i).getLsbD k = (d).getLsbD (k - 16) := by
  exact ((bit_append_hi _ _ _ (fun _ => rfl) (by omega)).trans (bit_append_lo _ _ _ (fun _ => rfl) (by omega)))
/-- Bits of field cp of fmtW. -/
theorem fmtW_cp_extract (cp : BitVec 9) (d : BitVec 7) (i : BitVec 16) (k m : Nat) (h : 23 ≤ k) :
    (fmtW cp d i).extractLsb' k m = (cp).extractLsb' (k - 23) m := by
  have e : (k - 16) - 7 = k - 23 := by omega
  exact e ▸ ((extract_append_hi _ _ _ (fun _ => rfl) (by omega)).trans (extract_append_hi _ _ _ (fun _ => rfl) (by omega)))
/-- Bits of field cp of fmtW. -/
theorem fmtW_cp_bit (cp : BitVec 9) (d : BitVec 7) (i : BitVec 16) (k : Nat) (h : 23 ≤ k) :
    (fmtW cp d i).getLsbD k = (cp).getLsbD (k - 23) := by
  have e : (k - 16) - 7 = k - 23 := by omega
  exact e ▸ ((bit_append_hi _ _ _ (fun _ => rfl) (by omega)).trans (bit_append_hi _ _ _ (fun _ => rfl) (by omega)))
/-- Bits of field o of fmtB. -/
theorem fmtB_o_extract (cp : BitVec 9) (t : BitVec 4) (o : BitVec 19) (k m : Nat) (h' : k + m ≤ 19) :
    (fmtB cp t o).extractLsb' k m = (o).extractLsb' k m := by
  exact extract_append_lo _ _ _ (fun _ => rfl) (by omega)
/-- Bits of field o of fmtB. -/
theorem fmtB_o_bit (cp : BitVec 9) (t : BitVec 4) (o : BitVec 19) (k : Nat) (h' : k < 19) :
    (fmtB cp t o).getLsbD k = (o).getLsbD k := by
  exact bit_append_lo _ _ _ (fun _ => rfl) (by omega)
/-- Bits of field t of fmtB. -/
theorem fmtB_t_extract (cp : BitVec 9) (t : BitVec 4) (o : BitVec 19) (k m : Nat) (h : 19 ≤ k) (h' : k + m ≤ 23) :
    (fmtB cp t o).extractLsb' k m = (t).extractLsb' (k - 19) m := by
  exact ((extract_append_hi _ _ _ (fun _ => rfl) (by omega)).trans (extract_append_lo _ _ _ (fun _ => rfl) (by omega)))
/-- Bits of field t of fmtB. -/
theorem fmtB_t_bit (cp : BitVec 9) (t : BitVec 4) (o : BitVec 19) (k : Nat) (h : 19 ≤ k) (h' : k < 23) :
    (fmtB cp t o).getLsbD k = (t).getLsbD (k - 19) := by
  exact ((bit_append_hi _ _ _ (fun _ => rfl) (by omega)).trans (bit_append_lo _ _ _ (fun _ => rfl) (by omega)))
/-- Bits of field cp of fmtB. -/
theorem fmtB_cp_extract (cp : BitVec 9) (t : BitVec 4) (o : BitVec 19) (k m : Nat) (h : 23 ≤ k) :
    (fmtB cp t o).extractLsb' k m = (cp).extractLsb' (k - 23) m := by
  have e : (k - 19) - 4 = k - 23 := by omega
  exact e ▸ ((extract_append_hi _ _ _ (fun _ => rfl) (by omega)).trans (extract_append_hi _ _ _ (fun _ => rfl) (by omega)))
/-- Bits of field cp of fmtB. -/
theorem fmtB_cp_bit (cp : BitVec 9) (t : BitVec 4) (o : BitVec 19) (k : Nat) (h : 23 ≤ k) :
    (fmtB cp t o).getLsbD k = (cp).getLsbD (k - 23) := by
  have e : (k - 19) - 4 = k - 23 := by omega
  exact e ▸ ((bit_append_hi _ _ _ (fun _ => rfl) (by omega)).trans (bit_append_hi _ _ _ (fun _ => rfl) (by omega)))

/-! ## Fields made of parts -/

/-- The lower part of a field of 4 and 3 bits. -/
theorem parts_4_3_lo_extract (x : BitVec 4) (y : BitVec 3) (k m : Nat) (h : k + m ≤ 3) : (x ++ y : BitVec 7).extractLsb' k m = y.extractLsb' k m :=
  extract_append_lo _ _ _ (fun _ => rfl) h
/-- The upper part of a field of 4 and 3 bits. -/
theorem parts_4_3_hi_extract (x : BitVec 4) (y : BitVec 3) (k m : Nat) (h : 3 ≤ k) : (x ++ y : BitVec 7).extractLsb' k m = x.extractLsb' (k - 3) m :=
  extract_append_hi _ _ _ (fun _ => rfl) h
/-- The lower part of a field of 4 and 3 bits. -/
theorem parts_4_3_lo_bit (x : BitVec 4) (y : BitVec 3) (k : Nat) (h : k < 3) : (x ++ y : BitVec 7).getLsbD k = y.getLsbD k :=
  bit_append_lo _ _ _ (fun _ => rfl) h
/-- The upper part of a field of 4 and 3 bits. -/
theorem parts_4_3_hi_bit (x : BitVec 4) (y : BitVec 3) (k : Nat) (h : 3 ≤ k) : (x ++ y : BitVec 7).getLsbD k = x.getLsbD (k - 3) :=
  bit_append_hi _ _ _ (fun _ => rfl) h
/-- The lower part of a field of 5 and 2 bits. -/
theorem parts_5_2_lo_extract (x : BitVec 5) (y : BitVec 2) (k m : Nat) (h : k + m ≤ 2) : (x ++ y : BitVec 7).extractLsb' k m = y.extractLsb' k m :=
  extract_append_lo _ _ _ (fun _ => rfl) h
/-- The upper part of a field of 5 and 2 bits. -/
theorem parts_5_2_hi_extract (x : BitVec 5) (y : BitVec 2) (k m : Nat) (h : 2 ≤ k) : (x ++ y : BitVec 7).extractLsb' k m = x.extractLsb' (k - 2) m :=
  extract_append_hi _ _ _ (fun _ => rfl) h
/-- The lower part of a field of 5 and 2 bits. -/
theorem parts_5_2_lo_bit (x : BitVec 5) (y : BitVec 2) (k : Nat) (h : k < 2) : (x ++ y : BitVec 7).getLsbD k = y.getLsbD k :=
  bit_append_lo _ _ _ (fun _ => rfl) h
/-- The upper part of a field of 5 and 2 bits. -/
theorem parts_5_2_hi_bit (x : BitVec 5) (y : BitVec 2) (k : Nat) (h : 2 ≤ k) : (x ++ y : BitVec 7).getLsbD k = x.getLsbD (k - 2) :=
  bit_append_hi _ _ _ (fun _ => rfl) h
/-- The lower part of a field of 3 and 4 bits. -/
theorem parts_3_4_lo_extract (x : BitVec 3) (y : BitVec 4) (k m : Nat) (h : k + m ≤ 4) : (x ++ y : BitVec 7).extractLsb' k m = y.extractLsb' k m :=
  extract_append_lo _ _ _ (fun _ => rfl) h
/-- The upper part of a field of 3 and 4 bits. -/
theorem parts_3_4_hi_extract (x : BitVec 3) (y : BitVec 4) (k m : Nat) (h : 4 ≤ k) : (x ++ y : BitVec 7).extractLsb' k m = x.extractLsb' (k - 4) m :=
  extract_append_hi _ _ _ (fun _ => rfl) h
/-- The lower part of a field of 3 and 4 bits. -/
theorem parts_3_4_lo_bit (x : BitVec 3) (y : BitVec 4) (k : Nat) (h : k < 4) : (x ++ y : BitVec 7).getLsbD k = y.getLsbD k :=
  bit_append_lo _ _ _ (fun _ => rfl) h
/-- The upper part of a field of 3 and 4 bits. -/
theorem parts_3_4_hi_bit (x : BitVec 3) (y : BitVec 4) (k : Nat) (h : 4 ≤ k) : (x ++ y : BitVec 7).getLsbD k = x.getLsbD (k - 4) :=
  bit_append_hi _ _ _ (fun _ => rfl) h
/-- The lower part of a field of 1 and 6 bits. -/
theorem parts_1_6_lo_extract (x : BitVec 1) (y : BitVec 6) (k m : Nat) (h : k + m ≤ 6) : (x ++ y : BitVec 7).extractLsb' k m = y.extractLsb' k m :=
  extract_append_lo _ _ _ (fun _ => rfl) h
/-- The upper part of a field of 1 and 6 bits. -/
theorem parts_1_6_hi_extract (x : BitVec 1) (y : BitVec 6) (k m : Nat) (h : 6 ≤ k) : (x ++ y : BitVec 7).extractLsb' k m = x.extractLsb' (k - 6) m :=
  extract_append_hi _ _ _ (fun _ => rfl) h
/-- The lower part of a field of 1 and 6 bits. -/
theorem parts_1_6_lo_bit (x : BitVec 1) (y : BitVec 6) (k : Nat) (h : k < 6) : (x ++ y : BitVec 7).getLsbD k = y.getLsbD k :=
  bit_append_lo _ _ _ (fun _ => rfl) h
/-- The upper part of a field of 1 and 6 bits. -/
theorem parts_1_6_hi_bit (x : BitVec 1) (y : BitVec 6) (k : Nat) (h : 6 ≤ k) : (x ++ y : BitVec 7).getLsbD k = x.getLsbD (k - 6) :=
  bit_append_hi _ _ _ (fun _ => rfl) h
/-- The lower part of a field of 2 and 5 bits. -/
theorem parts_2_5_lo_extract (x : BitVec 2) (y : BitVec 5) (k m : Nat) (h : k + m ≤ 5) : (x ++ y : BitVec 7).extractLsb' k m = y.extractLsb' k m :=
  extract_append_lo _ _ _ (fun _ => rfl) h
/-- The upper part of a field of 2 and 5 bits. -/
theorem parts_2_5_hi_extract (x : BitVec 2) (y : BitVec 5) (k m : Nat) (h : 5 ≤ k) : (x ++ y : BitVec 7).extractLsb' k m = x.extractLsb' (k - 5) m :=
  extract_append_hi _ _ _ (fun _ => rfl) h
/-- The lower part of a field of 2 and 5 bits. -/
theorem parts_2_5_lo_bit (x : BitVec 2) (y : BitVec 5) (k : Nat) (h : k < 5) : (x ++ y : BitVec 7).getLsbD k = y.getLsbD k :=
  bit_append_lo _ _ _ (fun _ => rfl) h
/-- The upper part of a field of 2 and 5 bits. -/
theorem parts_2_5_hi_bit (x : BitVec 2) (y : BitVec 5) (k : Nat) (h : 5 ≤ k) : (x ++ y : BitVec 7).getLsbD k = x.getLsbD (k - 5) :=
  bit_append_hi _ _ _ (fun _ => rfl) h
/-- The lower part of a field of 7 and 1 bits. -/
theorem parts_7_1_lo_extract (x : BitVec 7) (y : BitVec 1) (k m : Nat) (h : k + m ≤ 1) : (x ++ y : BitVec 8).extractLsb' k m = y.extractLsb' k m :=
  extract_append_lo _ _ _ (fun _ => rfl) h
/-- The upper part of a field of 7 and 1 bits. -/
theorem parts_7_1_hi_extract (x : BitVec 7) (y : BitVec 1) (k m : Nat) (h : 1 ≤ k) : (x ++ y : BitVec 8).extractLsb' k m = x.extractLsb' (k - 1) m :=
  extract_append_hi _ _ _ (fun _ => rfl) h
/-- The lower part of a field of 7 and 1 bits. -/
theorem parts_7_1_lo_bit (x : BitVec 7) (y : BitVec 1) (k : Nat) (h : k < 1) : (x ++ y : BitVec 8).getLsbD k = y.getLsbD k :=
  bit_append_lo _ _ _ (fun _ => rfl) h
/-- The upper part of a field of 7 and 1 bits. -/
theorem parts_7_1_hi_bit (x : BitVec 7) (y : BitVec 1) (k : Nat) (h : 1 ≤ k) : (x ++ y : BitVec 8).getLsbD k = x.getLsbD (k - 1) :=
  bit_append_hi _ _ _ (fun _ => rfl) h
/-- The lower part of a field of 3 and 5 bits. -/
theorem parts_3_5_lo_extract (x : BitVec 3) (y : BitVec 5) (k m : Nat) (h : k + m ≤ 5) : (x ++ y : BitVec 8).extractLsb' k m = y.extractLsb' k m :=
  extract_append_lo _ _ _ (fun _ => rfl) h
/-- The upper part of a field of 3 and 5 bits. -/
theorem parts_3_5_hi_extract (x : BitVec 3) (y : BitVec 5) (k m : Nat) (h : 5 ≤ k) : (x ++ y : BitVec 8).extractLsb' k m = x.extractLsb' (k - 5) m :=
  extract_append_hi _ _ _ (fun _ => rfl) h
/-- The lower part of a field of 3 and 5 bits. -/
theorem parts_3_5_lo_bit (x : BitVec 3) (y : BitVec 5) (k : Nat) (h : k < 5) : (x ++ y : BitVec 8).getLsbD k = y.getLsbD k :=
  bit_append_lo _ _ _ (fun _ => rfl) h
/-- The upper part of a field of 3 and 5 bits. -/
theorem parts_3_5_hi_bit (x : BitVec 3) (y : BitVec 5) (k : Nat) (h : 5 ≤ k) : (x ++ y : BitVec 8).getLsbD k = x.getLsbD (k - 5) :=
  bit_append_hi _ _ _ (fun _ => rfl) h
/-- The lower part of a field of 1 and 7 bits. -/
theorem parts_1_7_lo_extract (x : BitVec 1) (y : BitVec 7) (k m : Nat) (h : k + m ≤ 7) : (x ++ y : BitVec 8).extractLsb' k m = y.extractLsb' k m :=
  extract_append_lo _ _ _ (fun _ => rfl) h
/-- The upper part of a field of 1 and 7 bits. -/
theorem parts_1_7_hi_extract (x : BitVec 1) (y : BitVec 7) (k m : Nat) (h : 7 ≤ k) : (x ++ y : BitVec 8).extractLsb' k m = x.extractLsb' (k - 7) m :=
  extract_append_hi _ _ _ (fun _ => rfl) h
/-- The lower part of a field of 1 and 7 bits. -/
theorem parts_1_7_lo_bit (x : BitVec 1) (y : BitVec 7) (k : Nat) (h : k < 7) : (x ++ y : BitVec 8).getLsbD k = y.getLsbD k :=
  bit_append_lo _ _ _ (fun _ => rfl) h
/-- The upper part of a field of 1 and 7 bits. -/
theorem parts_1_7_hi_bit (x : BitVec 1) (y : BitVec 7) (k : Nat) (h : 7 ≤ k) : (x ++ y : BitVec 8).getLsbD k = x.getLsbD (k - 7) :=
  bit_append_hi _ _ _ (fun _ => rfl) h
/-- The lower part of a field of 6 and 2 bits. -/
theorem parts_6_2_lo_extract (x : BitVec 6) (y : BitVec 2) (k m : Nat) (h : k + m ≤ 2) : (x ++ y : BitVec 8).extractLsb' k m = y.extractLsb' k m :=
  extract_append_lo _ _ _ (fun _ => rfl) h
/-- The upper part of a field of 6 and 2 bits. -/
theorem parts_6_2_hi_extract (x : BitVec 6) (y : BitVec 2) (k m : Nat) (h : 2 ≤ k) : (x ++ y : BitVec 8).extractLsb' k m = x.extractLsb' (k - 2) m :=
  extract_append_hi _ _ _ (fun _ => rfl) h
/-- The lower part of a field of 6 and 2 bits. -/
theorem parts_6_2_lo_bit (x : BitVec 6) (y : BitVec 2) (k : Nat) (h : k < 2) : (x ++ y : BitVec 8).getLsbD k = y.getLsbD k :=
  bit_append_lo _ _ _ (fun _ => rfl) h
/-- The upper part of a field of 6 and 2 bits. -/
theorem parts_6_2_hi_bit (x : BitVec 6) (y : BitVec 2) (k : Nat) (h : 2 ≤ k) : (x ++ y : BitVec 8).getLsbD k = x.getLsbD (k - 2) :=
  bit_append_hi _ _ _ (fun _ => rfl) h
/-- The lower part of a field of 4 and 4 bits. -/
theorem parts_4_4_lo_extract (x : BitVec 4) (y : BitVec 4) (k m : Nat) (h : k + m ≤ 4) : (x ++ y : BitVec 8).extractLsb' k m = y.extractLsb' k m :=
  extract_append_lo _ _ _ (fun _ => rfl) h
/-- The upper part of a field of 4 and 4 bits. -/
theorem parts_4_4_hi_extract (x : BitVec 4) (y : BitVec 4) (k m : Nat) (h : 4 ≤ k) : (x ++ y : BitVec 8).extractLsb' k m = x.extractLsb' (k - 4) m :=
  extract_append_hi _ _ _ (fun _ => rfl) h
/-- The lower part of a field of 4 and 4 bits. -/
theorem parts_4_4_lo_bit (x : BitVec 4) (y : BitVec 4) (k : Nat) (h : k < 4) : (x ++ y : BitVec 8).getLsbD k = y.getLsbD k :=
  bit_append_lo _ _ _ (fun _ => rfl) h
/-- The upper part of a field of 4 and 4 bits. -/
theorem parts_4_4_hi_bit (x : BitVec 4) (y : BitVec 4) (k : Nat) (h : 4 ≤ k) : (x ++ y : BitVec 8).getLsbD k = x.getLsbD (k - 4) :=
  bit_append_hi _ _ _ (fun _ => rfl) h
/-- The lower part of a field of 2 and 6 bits. -/
theorem parts_2_6_lo_extract (x : BitVec 2) (y : BitVec 6) (k m : Nat) (h : k + m ≤ 6) : (x ++ y : BitVec 8).extractLsb' k m = y.extractLsb' k m :=
  extract_append_lo _ _ _ (fun _ => rfl) h
/-- The upper part of a field of 2 and 6 bits. -/
theorem parts_2_6_hi_extract (x : BitVec 2) (y : BitVec 6) (k m : Nat) (h : 6 ≤ k) : (x ++ y : BitVec 8).extractLsb' k m = x.extractLsb' (k - 6) m :=
  extract_append_hi _ _ _ (fun _ => rfl) h
/-- The lower part of a field of 2 and 6 bits. -/
theorem parts_2_6_lo_bit (x : BitVec 2) (y : BitVec 6) (k : Nat) (h : k < 6) : (x ++ y : BitVec 8).getLsbD k = y.getLsbD k :=
  bit_append_lo _ _ _ (fun _ => rfl) h
/-- The upper part of a field of 2 and 6 bits. -/
theorem parts_2_6_hi_bit (x : BitVec 2) (y : BitVec 6) (k : Nat) (h : 6 ≤ k) : (x ++ y : BitVec 8).getLsbD k = x.getLsbD (k - 6) :=
  bit_append_hi _ _ _ (fun _ => rfl) h
/-- The lower part of a field of 5 and 3 bits. -/
theorem parts_5_3_lo_extract (x : BitVec 5) (y : BitVec 3) (k m : Nat) (h : k + m ≤ 3) : (x ++ y : BitVec 8).extractLsb' k m = y.extractLsb' k m :=
  extract_append_lo _ _ _ (fun _ => rfl) h
/-- The upper part of a field of 5 and 3 bits. -/
theorem parts_5_3_hi_extract (x : BitVec 5) (y : BitVec 3) (k m : Nat) (h : 3 ≤ k) : (x ++ y : BitVec 8).extractLsb' k m = x.extractLsb' (k - 3) m :=
  extract_append_hi _ _ _ (fun _ => rfl) h
/-- The lower part of a field of 5 and 3 bits. -/
theorem parts_5_3_lo_bit (x : BitVec 5) (y : BitVec 3) (k : Nat) (h : k < 3) : (x ++ y : BitVec 8).getLsbD k = y.getLsbD k :=
  bit_append_lo _ _ _ (fun _ => rfl) h
/-- The upper part of a field of 5 and 3 bits. -/
theorem parts_5_3_hi_bit (x : BitVec 5) (y : BitVec 3) (k : Nat) (h : 3 ≤ k) : (x ++ y : BitVec 8).getLsbD k = x.getLsbD (k - 3) :=
  bit_append_hi _ _ _ (fun _ => rfl) h
/-- The lower part of a field of 3 and 1 bits. -/
theorem parts_3_1_lo_extract (x : BitVec 3) (y : BitVec 1) (k m : Nat) (h : k + m ≤ 1) : (x ++ y : BitVec 4).extractLsb' k m = y.extractLsb' k m :=
  extract_append_lo _ _ _ (fun _ => rfl) h
/-- The upper part of a field of 3 and 1 bits. -/
theorem parts_3_1_hi_extract (x : BitVec 3) (y : BitVec 1) (k m : Nat) (h : 1 ≤ k) : (x ++ y : BitVec 4).extractLsb' k m = x.extractLsb' (k - 1) m :=
  extract_append_hi _ _ _ (fun _ => rfl) h
/-- The lower part of a field of 3 and 1 bits. -/
theorem parts_3_1_lo_bit (x : BitVec 3) (y : BitVec 1) (k : Nat) (h : k < 1) : (x ++ y : BitVec 4).getLsbD k = y.getLsbD k :=
  bit_append_lo _ _ _ (fun _ => rfl) h
/-- The upper part of a field of 3 and 1 bits. -/
theorem parts_3_1_hi_bit (x : BitVec 3) (y : BitVec 1) (k : Nat) (h : 1 ≤ k) : (x ++ y : BitVec 4).getLsbD k = x.getLsbD (k - 1) :=
  bit_append_hi _ _ _ (fun _ => rfl) h
/-- A part of a field of 1, 1 and 6 bits. -/
theorem parts_1_1_6_lo_extract (x : BitVec 1) (y : BitVec 1) (z : BitVec 6) (k m : Nat) (h : k + m ≤ 6) :
    (x ++ y ++ z : BitVec 8).extractLsb' k m = z.extractLsb' k m :=
  extract_append_lo _ _ _ (fun _ => rfl) (by omega)
/-- A part of a field of 1, 1 and 6 bits. -/
theorem parts_1_1_6_mid_extract (x : BitVec 1) (y : BitVec 1) (z : BitVec 6) (k m : Nat) (h : 6 ≤ k) (h' : k + m ≤ 7) :
    (x ++ y ++ z : BitVec 8).extractLsb' k m = y.extractLsb' (k - 6) m :=
  (extract_append_hi _ _ _ (fun _ => rfl) h).trans (extract_append_lo _ _ _ (fun _ => rfl) (by omega))
/-- A part of a field of 1, 1 and 6 bits. -/
theorem parts_1_1_6_hi_extract (x : BitVec 1) (y : BitVec 1) (z : BitVec 6) (k m : Nat) (h : 7 ≤ k) :
    (x ++ y ++ z : BitVec 8).extractLsb' k m = x.extractLsb' (k - 7) m :=
  (show k - 6 - 1 = k - 7 by omega) ▸
    (extract_append_hi _ _ _ (fun _ => rfl) (by omega)).trans (extract_append_hi _ _ _ (fun _ => rfl) (by omega))
/-- A part of a field of 1, 1 and 6 bits. -/
theorem parts_1_1_6_lo_bit (x : BitVec 1) (y : BitVec 1) (z : BitVec 6) (k : Nat) (h : k + 1 ≤ 6) :
    (x ++ y ++ z : BitVec 8).getLsbD k = z.getLsbD k :=
  bit_append_lo _ _ _ (fun _ => rfl) (by omega)
/-- A part of a field of 1, 1 and 6 bits. -/
theorem parts_1_1_6_mid_bit (x : BitVec 1) (y : BitVec 1) (z : BitVec 6) (k : Nat) (h : 6 ≤ k) (h' : k + 1 ≤ 7) :
    (x ++ y ++ z : BitVec 8).getLsbD k = y.getLsbD (k - 6) :=
  (bit_append_hi _ _ _ (fun _ => rfl) h).trans (bit_append_lo _ _ _ (fun _ => rfl) (by omega))
/-- A part of a field of 1, 1 and 6 bits. -/
theorem parts_1_1_6_hi_bit (x : BitVec 1) (y : BitVec 1) (z : BitVec 6) (k : Nat) (h : 7 ≤ k) :
    (x ++ y ++ z : BitVec 8).getLsbD k = x.getLsbD (k - 7) :=
  (show k - 6 - 1 = k - 7 by omega) ▸
    (bit_append_hi _ _ _ (fun _ => rfl) (by omega)).trans (bit_append_hi _ _ _ (fun _ => rfl) (by omega))
/-- A part of a field of 1, 2 and 1 bits. -/
theorem parts_1_2_1_lo_extract (x : BitVec 1) (y : BitVec 2) (z : BitVec 1) (k m : Nat) (h : k + m ≤ 1) :
    (x ++ y ++ z : BitVec 4).extractLsb' k m = z.extractLsb' k m :=
  extract_append_lo _ _ _ (fun _ => rfl) (by omega)
/-- A part of a field of 1, 2 and 1 bits. -/
theorem parts_1_2_1_mid_extract (x : BitVec 1) (y : BitVec 2) (z : BitVec 1) (k m : Nat) (h : 1 ≤ k) (h' : k + m ≤ 3) :
    (x ++ y ++ z : BitVec 4).extractLsb' k m = y.extractLsb' (k - 1) m :=
  (extract_append_hi _ _ _ (fun _ => rfl) h).trans (extract_append_lo _ _ _ (fun _ => rfl) (by omega))
/-- A part of a field of 1, 2 and 1 bits. -/
theorem parts_1_2_1_hi_extract (x : BitVec 1) (y : BitVec 2) (z : BitVec 1) (k m : Nat) (h : 3 ≤ k) :
    (x ++ y ++ z : BitVec 4).extractLsb' k m = x.extractLsb' (k - 3) m :=
  (show k - 1 - 2 = k - 3 by omega) ▸
    (extract_append_hi _ _ _ (fun _ => rfl) (by omega)).trans (extract_append_hi _ _ _ (fun _ => rfl) (by omega))
/-- A part of a field of 1, 2 and 1 bits. -/
theorem parts_1_2_1_lo_bit (x : BitVec 1) (y : BitVec 2) (z : BitVec 1) (k : Nat) (h : k + 1 ≤ 1) :
    (x ++ y ++ z : BitVec 4).getLsbD k = z.getLsbD k :=
  bit_append_lo _ _ _ (fun _ => rfl) (by omega)
/-- A part of a field of 1, 2 and 1 bits. -/
theorem parts_1_2_1_mid_bit (x : BitVec 1) (y : BitVec 2) (z : BitVec 1) (k : Nat) (h : 1 ≤ k) (h' : k + 1 ≤ 3) :
    (x ++ y ++ z : BitVec 4).getLsbD k = y.getLsbD (k - 1) :=
  (bit_append_hi _ _ _ (fun _ => rfl) h).trans (bit_append_lo _ _ _ (fun _ => rfl) (by omega))
/-- A part of a field of 1, 2 and 1 bits. -/
theorem parts_1_2_1_hi_bit (x : BitVec 1) (y : BitVec 2) (z : BitVec 1) (k : Nat) (h : 3 ≤ k) :
    (x ++ y ++ z : BitVec 4).getLsbD k = x.getLsbD (k - 3) :=
  (show k - 1 - 2 = k - 3 by omega) ▸
    (bit_append_hi _ _ _ (fun _ => rfl) (by omega)).trans (bit_append_hi _ _ _ (fun _ => rfl) (by omega))

/-! ## Unused bits -/

/-- Unused bits are 0 exactly if each of them is. -/
theorem zeroAt_iff (w : Word) (lo n : Nat) : zeroAt w lo n = true ↔ ∀ i, i < n → w.getLsbD (lo + i) = false := by
  simp only [zeroAt, beq_iff_eq]
  constructor
  · intro h i hi
    have := congrArg (·.getLsbD i) h
    simpa [BitVec.getLsbD_extractLsb', hi] using this
  · intro h
    apply BitVec.eq_of_getLsbD_eq
    intro i hi
    rw [BitVec.getLsbD_extractLsb', h i hi]
    simp

/-- Unused bits in two runs. -/
theorem zeroAt_add (w : Word) (lo n m : Nat) : zeroAt w lo (n + m) = (zeroAt w lo n && zeroAt w (lo + n) m) := by
  rw [Bool.eq_iff_iff, Bool.and_eq_true, zeroAt_iff, zeroAt_iff, zeroAt_iff]
  constructor
  · intro h
    refine ⟨fun i hi => h i (by omega), fun i hi => ?_⟩
    rw [show lo + n + i = lo + (n + i) by omega]
    exact h _ (by omega)
  · rintro ⟨h1, h2⟩ i hi
    by_cases c : i < n
    · exact h1 i c
    · rw [show lo + i = lo + n + (i - n) by omega]
      exact h2 _ (by omega)

/-- Unused bits of several fields. -/
theorem zeroAt_0_16 (w : Word) : zeroAt w 0 16 = (zeroAt w 0 8 && zeroAt w 8 8) := zeroAt_add w 0 8 8
/-- Unused bits of several fields. -/
theorem zeroAt_0_23 (w : Word) : zeroAt w 0 23 = (zeroAt w 0 8 && zeroAt w 8 15) := zeroAt_add w 0 8 15
/-- Unused bits of several fields. -/
theorem zeroAt_3_13 (w : Word) : zeroAt w 3 13 = (zeroAt w 3 5 && zeroAt w 8 8) := zeroAt_add w 3 5 8
/-- Unused bits of several fields. -/
theorem zeroAt_3_20 (w : Word) : zeroAt w 3 20 = (zeroAt w 3 5 && zeroAt w 8 15) := zeroAt_add w 3 5 15
/-- Unused bits of several fields. -/
theorem zeroAt_4_12 (w : Word) : zeroAt w 4 12 = (zeroAt w 4 4 && zeroAt w 8 8) := zeroAt_add w 4 4 8
/-- Unused bits of several fields. -/
theorem zeroAt_4_19 (w : Word) : zeroAt w 4 19 = (zeroAt w 4 4 && zeroAt w 8 15) := zeroAt_add w 4 4 15
/-- Unused bits of several fields. -/
theorem zeroAt_8_15 (w : Word) : zeroAt w 8 15 = (zeroAt w 8 7 && zeroAt w 15 8) := zeroAt_add w 8 7 8
/-- Unused bits of several fields. -/
theorem zeroAt_8_8 (w : Word) : zeroAt w 8 8 = (zeroAt w 8 7 && zeroAt w 15 1) := zeroAt_add w 8 7 1
/-- Unused bits of several fields. -/
theorem zeroAt_15_8 (w : Word) : zeroAt w 15 8 = (zeroAt w 15 1 && zeroAt w 16 7) := zeroAt_add w 15 1 7
/-- Unused bits of several fields. -/
theorem zeroAt_11_5 (w : Word) : zeroAt w 11 5 = (zeroAt w 11 4 && zeroAt w 15 1) := zeroAt_add w 11 4 1
/-- Unused bits of several fields. -/
theorem zeroAt_10_6 (w : Word) : zeroAt w 10 6 = (zeroAt w 10 5 && zeroAt w 15 1) := zeroAt_add w 10 5 1

end Sys2Proof.Laws
end

