-- ==== Sys2Proof/Laws/SMap.lean ====
section
/-!
SUPPORT. Reading a sparse map after a change, and the canonical form kept by every change.
-/

namespace Sys2Proof.Machine

variable {α : Type}

@[simp] theorem sfind_nil (i : Nat) : sfind ([] : SMap α) i = none := rfl

theorem sfind_sins (m : SMap α) (i j : Nat) (y : α) : sfind (sins m i y) j = if j = i then some y else sfind m j := by
  induction m with
  | nil => simp [sins, sfind]
  | cons kx m ih => grind [sins, sfind]

theorem sfind_sdel (m : SMap α) (i j : Nat) : sfind (sdel m i) j = if j = i then none else sfind m j := by
  induction m with
  | nil => simp [sdel, sfind]
  | cons kx m ih => grind [sdel, sfind]

theorem sfind_smod (m : SMap α) (i j : Nat) (f : α → α) :
    sfind (smod m i f) j = if j = i then (sfind m i).map f else sfind m j := by
  unfold smod
  cases h : sfind m i <;> grind [sfind_sins]

@[simp] theorem sget_nil (d : α) (i : Nat) : sget d [] i = d := rfl

theorem sget_sput [DecidableEq α] (d : α) (m : SMap α) (i j : Nat) (y : α) :
    sget d (sput d m i y) j = if j = i then y else sget d m j := by
  unfold sput sget
  grind [sfind_sins, sfind_sdel]

@[simp] theorem sget_sput_same [DecidableEq α] (d : α) (m : SMap α) (i : Nat) (y : α) : sget d (sput d m i y) i = y := by
  simp [sget_sput]

theorem sget_sput_other [DecidableEq α] (d : α) (m : SMap α) (i j : Nat) (y : α) (h : j ≠ i) :
    sget d (sput d m i y) j = sget d m j := by
  simp [sget_sput, h]

@[simp] theorem sfind_sins_same (m : SMap α) (i : Nat) (y : α) : sfind (sins m i y) i = some y := by simp [sfind_sins]

theorem sfind_sins_other (m : SMap α) (i j : Nat) (y : α) (h : j ≠ i) : sfind (sins m i y) j = sfind m j := by
  simp [sfind_sins, h]

theorem sfind_smod_other (m : SMap α) (i j : Nat) (f : α → α) (h : j ≠ i) : sfind (smod m i f) j = sfind m j := by
  simp [sfind_smod, h]

@[simp] theorem sfind_smod_same (m : SMap α) (i : Nat) (f : α → α) : sfind (smod m i f) i = (sfind m i).map f := by
  simp [sfind_smod]

/-! ## The canonical form -/

theorem sortedFrom_mono (m : SMap α) (a b : Nat) (h : a ≤ b) (hb : sortedFrom b m = true) : sortedFrom a m = true := by
  cases m with
  | nil => rfl
  | cons kx m => grind [sortedFrom]

theorem sortedFrom_sins (m : SMap α) (lo i : Nat) (y : α) (hi : lo ≤ i) (h : sortedFrom lo m = true) :
    sortedFrom lo (sins m i y) = true := by
  induction m generalizing lo with
  | nil => simp [sins, sortedFrom, hi]
  | cons kx m ih => grind [sins, sortedFrom, sortedFrom_mono]

theorem sortedFrom_filter (m : SMap α) (lo : Nat) (q : Nat × α → Bool) (h : sortedFrom lo m = true) :
    sortedFrom lo (m.filter q) = true := by
  induction m generalizing lo with
  | nil => rfl
  | cons kx m ih =>
    have h' : lo ≤ kx.1 ∧ sortedFrom (kx.1 + 1) m = true := by simpa [sortedFrom] using h
    have := ih _ h'.2
    rw [List.filter_cons]
    split
    · simp [sortedFrom, h'.1, this]
    · exact sortedFrom_mono _ _ _ (by omega) this

theorem sdel_eq_filter (m : SMap α) (i : Nat) : sdel m i = m.filter (fun kx => !(i = kx.1)) := by
  induction m with
  | nil => rfl
  | cons kx m ih => grind [sdel]

theorem all_sins (m : SMap α) (i : Nat) (y : α) (q : Nat × α → Bool) (hy : q (i, y) = true) (h : m.all q = true) :
    (sins m i y).all q = true := by
  induction m with
  | nil => simp [sins, hy]
  | cons kx m ih => grind [sins]

/-- A write keeps the canonical form. -/
theorem canonical_sput [DecidableEq α] (d : α) (m : SMap α) (i : Nat) (y : α) (h : canonical d m = true) :
    canonical d (sput d m i y) = true := by
  simp only [canonical, Bool.and_eq_true] at h ⊢
  unfold sput
  split
  · rw [sdel_eq_filter]
    exact ⟨sortedFrom_filter _ _ _ h.1, by simp only [List.all_eq_true] at h ⊢; intro x hx; exact h.2 x ((List.mem_filter.mp hx).1)⟩
  · rename_i hy
    exact ⟨sortedFrom_sins _ _ _ _ (Nat.zero_le _) h.1, all_sins _ _ _ _ (by simpa using hy) h.2⟩

/-- A filter keeps the canonical form. -/
theorem canonical_filter [DecidableEq α] (d : α) (m : SMap α) (q : Nat × α → Bool) (h : canonical d m = true) :
    canonical d (m.filter q) = true := by
  simp only [canonical, Bool.and_eq_true, List.all_eq_true] at h ⊢
  exact ⟨sortedFrom_filter _ _ _ h.1, fun x hx => h.2 x ((List.mem_filter.mp hx).1)⟩

end Sys2Proof.Machine
end

