-- ==== Sys2Proof/Laws/Memory.lean ====
section
/-!
SUPPORT. What the operations of memory do: reading a byte or a word after a write, which operations touch no byte at all, and that
every operation keeps the canonical form.
-/

namespace Sys2Proof.Machine

/-! ## Bytes -/

theorem memByte_setByte (m : MemSys) (a c : Nat) (b : Byte) : memByte (setByte m a b) c = if c = a then b else memByte m c := by
  simp [memByte, setByte, sget_sput]

/-- A store of bytes gives each its place and leaves every other address alone. -/
theorem memByte_setBytes (m : MemSys) (a c : Nat) (l : List Byte) :
    memByte (setBytes m a l) c = if a ≤ c ∧ c < a + l.length then l.getD (c - a) 0 else memByte m c := by
  induction l generalizing m a with
  | nil =>
    have h : ¬(a ≤ c ∧ c < a + ([] : List Byte).length) := by simp
    rw [if_neg h]; rfl
  | cons b l ih =>
    rw [setBytes, ih, memByte_setByte]
    simp only [List.length_cons]
    by_cases h : c = a
    · subst h
      have h1 : ¬(c + 1 ≤ c ∧ c < c + 1 + l.length) := by omega
      have h2 : c ≤ c ∧ c < c + (l.length + 1) := by omega
      rw [if_neg h1, if_pos h2]
      simp
    · by_cases h1 : a + 1 ≤ c ∧ c < a + 1 + l.length
      · have h2 : a ≤ c ∧ c < a + (l.length + 1) := by omega
        have h3 : c - a = (c - (a + 1)) + 1 := by omega
        rw [if_pos h1, if_pos h2, h3]
        simp
      · have h2 : ¬(a ≤ c ∧ c < a + (l.length + 1)) := by omega
        rw [if_neg h1, if_neg h2, if_neg h]

theorem memByte_setBytes_outside (m : MemSys) (a c : Nat) (l : List Byte) (h : c < a ∨ a + l.length ≤ c) :
    memByte (setBytes m a l) c = memByte m c := by
  rw [memByte_setBytes, if_neg (by omega)]

@[simp] theorem length_bytesOfWord (w : Word) : (bytesOfWord w).length = 4 := rfl

theorem memByte_setWord_outside (m : MemSys) (a c : Nat) (w : Word) (h : c < a ∨ a + 4 ≤ c) :
    memByte (setWord m a w) c = memByte m c := memByte_setBytes_outside m a c _ (by simpa using h)

theorem wordOfBytes_bytesOfWord (w : Word) :
    wordOfBytes ((bytesOfWord w).getD 0 0) ((bytesOfWord w).getD 1 0) ((bytesOfWord w).getD 2 0) ((bytesOfWord w).getD 3 0) = w := by
  apply BitVec.eq_of_getLsbD_eq
  intro i hi
  simp only [wordOfBytes, bytesOfWord, List.getD_cons_zero, List.getD_cons_succ, BitVec.getLsbD_append, BitVec.getLsbD_extractLsb']
  by_cases h0 : i < 8
  · simp [h0]
  · by_cases h1 : i < 16
    · have e : 8 + (i - 8) = i := by omega
      have : i - 8 < 8 := by omega
      simp [h0, e, this]
    · by_cases h2 : i < 24
      · have a : ¬(i - 8 < 8) := by omega
        have b : i - 8 - 8 < 8 := by omega
        have e : 16 + (i - 8 - 8) = i := by omega
        simp [h0, a, b, e]
      · have a : ¬(i - 8 < 8) := by omega
        have b : ¬(i - 8 - 8 < 8) := by omega
        have d : i - 8 - 8 - 8 < 8 := by omega
        have e : 24 + (i - 8 - 8 - 8) = i := by omega
        simp [h0, a, b, d, e]

/-- A word that was stored is read back. -/
@[simp] theorem memWord_setWord_same (m : MemSys) (a : Nat) (w : Word) : memWord (setWord m a w) a = w := by
  have h (k : Nat) (hk : k < 4) : memByte (setWord m a w) (a + k) = (bytesOfWord w).getD k 0 := by
    have e : a ≤ a + k ∧ a + k < a + (bytesOfWord w).length := by simp; omega
    have d : a + k - a = k := by omega
    rw [setWord, memByte_setBytes, if_pos e, d]
  have h0 := h 0 (by omega)
  rw [Nat.add_zero] at h0
  rw [memWord, h0, h 1 (by omega), h 2 (by omega), h 3 (by omega), wordOfBytes_bytesOfWord]

/-- A store leaves the words that it does not reach alone. -/
theorem memWord_setWord_other (m : MemSys) (a c : Nat) (w : Word) (h : c + 4 ≤ a ∨ a + 4 ≤ c) :
    memWord (setWord m a w) c = memWord m c := by
  simp only [memWord]
  rw [memByte_setWord_outside _ _ _ _ (by omega), memByte_setWord_outside _ _ _ _ (by omega),
    memByte_setWord_outside _ _ _ _ (by omega), memByte_setWord_outside _ _ _ _ (by omega)]

/-! ## Operations that touch no byte -/

@[simp] theorem setPoi_bytes (m : MemSys) (a : Nat) (p : Bool) (o : Word) : (setPoi m a p o).bytes = m.bytes := rfl
@[simp] theorem setFull_bytes (m : MemSys) (a : Nat) (b : Bool) : (setFull m a b).bytes = m.bytes := rfl
@[simp] theorem raiseFloors_bytes (m : MemSys) (g : Nat) (f : SMap Nat) : (raiseFloors m g f).bytes = m.bytes := rfl
@[simp] theorem pushWrite_bytes (m : MemSys) (g a : Nat) (v : Word) (p : Bool) (o : Word) (va : DWord) :
    (pushWrite m g a v p o va).bytes = m.bytes := rfl
@[simp] theorem releaseTo_bytes (m : MemSys) (g o : Nat) : (releaseTo m g o).bytes = m.bytes := rfl

@[simp] theorem publish_bytes (m : MemSys) (p : Place) (sc : Nat) (f : SMap Nat) : (publish m p sc f).bytes = m.bytes := by
  unfold publish
  split <;> rfl

/-- A fold of steps that touch no byte touches none. -/
theorem foldl_bytes {β : Type} (f : MemSys → β → MemSys) (h : ∀ m x, (f m x).bytes = m.bytes) (l : List β) (m : MemSys) :
    (l.foldl f m).bytes = m.bytes := by
  induction l generalizing m with
  | nil => rfl
  | cons x l ih => rw [List.foldl_cons, ih, h]

@[simp] theorem observe_bytes (m : MemSys) (g : Nat) (p : Place) (sc : Nat) : (observe m g p sc).bytes = m.bytes := by
  unfold observe
  exact foldl_bytes _ (fun _ _ => raiseFloors_bytes ..) _ _

@[simp] theorem acquireFrom_bytes (m : MemSys) (g o : Nat) : (acquireFrom m g o).bytes = m.bytes := by
  unfold acquireFrom
  exact foldl_bytes _ (fun _ _ => raiseFloors_bytes ..) _ _

@[simp] theorem peekWord_bytes (m : MemSys) (tick g a : Nat) : (peekWord m tick g a).2.bytes = m.bytes := by
  unfold peekWord
  simp only
  split <;> rfl

@[simp] theorem markGranule_bytes (m : MemSys) (g : Nat) (p : Bool) (o : Word) : (markGranule m g p o).bytes = m.bytes := by
  unfold markGranule
  exact foldl_bytes _ (fun _ _ => setPoi_bytes ..) _ _

/-- Memories with the same bytes read the same. -/
theorem memByte_of_bytes {m n : MemSys} (h : m.bytes = n.bytes) (a : Nat) : memByte m a = memByte n a := by simp [memByte, h]

theorem memWord_of_bytes {m n : MemSys} (h : m.bytes = n.bytes) (a : Nat) : memWord m a = memWord n a := by
  simp [memWord, memByte_of_bytes h]

/-! ## Writes of agents -/

/-- What a write of a word leaves in memory. -/
theorem memByte_pokeWord (m : MemSys) (g a c : Nat) (v : Word) (p : Bool) (o : Word) (va : DWord) :
    memByte (pokeWord m g a v p o va) c = memByte (setWord m a v) c := by
  rw [pokeWord]
  simp only [memByte, setPoi_bytes, setWord]
  exact memByte_of_bytes (m := setBytes (pushWrite m g a v p o va) a (bytesOfWord v)) (n := setBytes m a (bytesOfWord v)) (by
    have key (l : List Byte) (m n : MemSys) (a : Nat) (h : m.bytes = n.bytes) : (setBytes m a l).bytes = (setBytes n a l).bytes := by
      induction l generalizing m n a with
      | nil => exact h
      | cons b l ih => exact ih _ _ _ (by simp [setByte, h])
    exact key _ _ _ _ (pushWrite_bytes ..)) c

@[simp] theorem memWord_pokeWord_same (m : MemSys) (g a : Nat) (v : Word) (p : Bool) (o : Word) (va : DWord) :
    memWord (pokeWord m g a v p o va) a = v := by
  simp only [memWord, memByte_pokeWord]
  exact memWord_setWord_same m a v

theorem memWord_pokeWord_other (m : MemSys) (g a c : Nat) (v : Word) (p : Bool) (o : Word) (va : DWord) (h : c + 4 ≤ a ∨ a + 4 ≤ c) :
    memWord (pokeWord m g a v p o va) c = memWord m c := by
  simp only [memWord, memByte_pokeWord]
  exact memWord_setWord_other m a c v h

/-- R53: the poison mark of a word after a word was marked. -/
theorem wordPoi_setPoi_same (m : MemSys) (a : Nat) (p : Bool) (o : Word) : wordPoi (setPoi m a p o) a = p := by
  have hk : a % 128 / 4 < 32 := by omega
  have key : ∀ (x : Word), (if p then x ||| 1#32 <<< (a % 128 / 4) else x &&& ~~~(1#32 <<< (a % 128 / 4))).getLsbD (a % 128 / 4) = p := by
    intro x
    cases p <;> simp [hk]
  have cut : ∀ x z : Word, (if x = 0 then ({} : Mark) else { mask := x, origin := z }).mask = x := by
    intro x z
    split
    · rename_i h
      exact h.symm
    · rfl
  simp only [wordPoi, setPoi, sget_sput_same]
  rw [cut]
  exact key _

/-! ## The canonical form -/

theorem wf_of_bytes {m n : MemSys} (h : m.bytes = n.bytes) (hn : Memory.wf n = true) : Memory.wf m = true := by
  rw [Memory.wf, h]
  exact hn

/-- A store of a byte keeps the canonical form. -/
theorem wf_setByte (m : MemSys) (a : Nat) (b : Byte) (h : Memory.wf m = true) : Memory.wf (setByte m a b) = true :=
  canonical_sput unlistedByte m.bytes a b h

theorem wf_setBytes (m : MemSys) (a : Nat) (l : List Byte) (h : Memory.wf m = true) : Memory.wf (setBytes m a l) = true := by
  induction l generalizing m a with
  | nil => exact h
  | cons b l ih => exact ih _ _ (wf_setByte m a b h)

theorem wf_setWord (m : MemSys) (a : Nat) (w : Word) (h : Memory.wf m = true) : Memory.wf (setWord m a w) = true :=
  wf_setBytes m a _ h

/-- A write of an agent keeps the canonical form. -/
theorem wf_pokeWord (m : MemSys) (g a : Nat) (v : Word) (p : Bool) (o : Word) (va : DWord) (h : Memory.wf m = true) :
    Memory.wf (pokeWord m g a v p o va) = true := by
  unfold pokeWord
  exact wf_of_bytes (setPoi_bytes ..) (wf_setWord _ _ _ (wf_of_bytes (pushWrite_bytes ..) h))

theorem wf_pokePart (m : MemSys) (g a : Nat) (v : Word) (be : BitVec 4) (p : Bool) (o : Word) (va : DWord) (h : Memory.wf m = true) :
    Memory.wf (pokePart m g a v be p o va) = true := wf_pokeWord _ _ _ _ _ _ _ h

theorem wf_setPoi (m : MemSys) (a : Nat) (p : Bool) (o : Word) (h : Memory.wf m = true) : Memory.wf (setPoi m a p o) = true :=
  wf_of_bytes (setPoi_bytes ..) h

theorem wf_setFull (m : MemSys) (a : Nat) (b : Bool) (h : Memory.wf m = true) : Memory.wf (setFull m a b) = true :=
  wf_of_bytes (setFull_bytes ..) h

theorem wf_raiseFloors (m : MemSys) (g : Nat) (f : SMap Nat) (h : Memory.wf m = true) : Memory.wf (raiseFloors m g f) = true :=
  wf_of_bytes (raiseFloors_bytes ..) h

theorem wf_peekWord (m : MemSys) (tick g a : Nat) (h : Memory.wf m = true) : Memory.wf (peekWord m tick g a).2 = true :=
  wf_of_bytes (peekWord_bytes ..) h

theorem wf_publish (m : MemSys) (p : Place) (sc : Nat) (f : SMap Nat) (h : Memory.wf m = true) : Memory.wf (publish m p sc f) = true :=
  wf_of_bytes (publish_bytes ..) h

theorem wf_observe (m : MemSys) (g : Nat) (p : Place) (sc : Nat) (h : Memory.wf m = true) : Memory.wf (observe m g p sc) = true :=
  wf_of_bytes (observe_bytes ..) h

theorem wf_acquireFrom (m : MemSys) (g o : Nat) (h : Memory.wf m = true) : Memory.wf (acquireFrom m g o) = true :=
  wf_of_bytes (acquireFrom_bytes ..) h

theorem wf_releaseTo (m : MemSys) (g o : Nat) (h : Memory.wf m = true) : Memory.wf (releaseTo m g o) = true :=
  wf_of_bytes (releaseTo_bytes ..) h

theorem wf_markGranule (m : MemSys) (g : Nat) (p : Bool) (o : Word) (h : Memory.wf m = true) : Memory.wf (markGranule m g p o) = true :=
  wf_of_bytes (markGranule_bytes ..) h

theorem wf_freeScratch (m : MemSys) (w : WG) (h : Memory.wf m = true) : Memory.wf (freeScratch m w) = true :=
  canonical_filter _ _ _ h

theorem wf_resetMem (m : MemSys) (h : Memory.wf m = true) : Memory.wf (resetMem m) = true := canonical_filter _ _ _ h

theorem wf_placeWord (m : MemSys) (a : Nat) (w : Word) (h : Memory.wf m = true) : Memory.wf (placeWord m a w) = true :=
  wf_setPoi _ _ _ _ (wf_setWord _ _ _ h)

/-- A half that goes to the host leaves memory as it is. -/
theorem wf_writeHalf (s : State) (a : Nat) (be : BitVec 4) (h : Memory.wf s.mem = true) : Memory.wf (writeHalf s a be).mem = true := by
  unfold writeHalf
  split <;> exact h

/-- A write of the device itself keeps the canonical form. -/
theorem wf_devicePoke (s : State) (a : Nat) (w : Word) (p : Bool) (o : Word) (h : Memory.wf s.mem = true) :
    Memory.wf (devicePoke s a w p o).mem = true :=
  wf_writeHalf _ _ _ (wf_pokeWord _ _ _ _ _ _ _ h)

theorem wf_deviceWord (s : State) (a : Nat) (w : Word) (h : Memory.wf s.mem = true) : Memory.wf (deviceWord s a w).mem = true :=
  wf_devicePoke _ _ _ _ _ h

theorem wf_deviceWords (s : State) (a : Nat) (l : List Word) (h : Memory.wf s.mem = true) :
    Memory.wf (deviceWords s a l).mem = true := by
  induction l generalizing s a with
  | nil => exact h
  | cons w l ih => exact ih _ _ (wf_deviceWord _ _ _ h)

theorem wf_writeImage (s : State) (base : Nat) (l : List (Nat × Word)) (h : Memory.wf s.mem = true) :
    Memory.wf (writeImage s base l).mem = true := by
  induction l generalizing s with
  | nil => exact h
  | cons x l ih => exact ih _ (wf_deviceWord _ _ _ h)

theorem wf_copyWords (s : State) (src dst n : Nat) (h : Memory.wf s.mem = true) : Memory.wf (copyWords s src dst n).mem = true := by
  induction n generalizing s src dst with
  | zero => exact h
  | succ n ih => exact ih _ _ _ (wf_devicePoke _ _ _ _ _ h)

theorem wf_writeOne (s : State) (ags : List Nat) (a : Nat) (v : Word) (be : BitVec 4) (p : Bool) (o : Word) (va : DWord)
    (h : Memory.wf s.mem = true) : Memory.wf (writeOne s ags a v be p o va).mem = true := by
  unfold writeOne
  apply wf_writeHalf
  have h1 := wf_pokePart s.mem (ags.headD deviceAgent) a v be p o va h
  have h2 := wf_of_bytes (foldl_bytes (fun m g => raiseFloors m g [(a, m.seq)]) (fun _ _ => raiseFloors_bytes ..) ags.tail
    (pokePart s.mem (ags.headD deviceAgent) a v be p o va)) h1
  show Memory.wf (if be = 0xF then _ else _) = true
  split
  · exact wf_of_bytes rfl h2
  · exact h2

theorem wf_writeWords (s : State) (ags : List Nat) (a : Nat) (p : Bool) (o : Word) (va : DWord) (l : List Word)
    (h : Memory.wf s.mem = true) : Memory.wf (writeWords s ags a p o va l).mem = true := by
  induction l generalizing s a va with
  | nil => exact h
  | cons w l ih => exact ih _ _ _ (wf_writeOne _ _ _ _ _ _ _ _ h)

/-- The memory of the machine right after reset has the canonical form. -/
theorem wf_reset : Memory.wf State.reset.mem = true := rfl

end Sys2Proof.Machine
end

