-- ==== Sys2Proof/Laws/State.lean ====
section
/-!
SUPPORT. What each named update of the state leaves as it was and what it changes: one lemma for each field.
-/

namespace Sys2Proof.Machine

open Sys2Proof


@[simp] theorem withGroups_ctl (s : State) (m : SMap Group) : (s.withGroups m).ctl = s.ctl := rfl
@[simp] theorem withGroups_mem (s : State) (m : SMap Group) : (s.withGroups m).mem = s.mem := rfl
@[simp] theorem withGroups_host (s : State) (m : SMap Group) : (s.withGroups m).host = s.host := rfl
@[simp] theorem withGroups_wgs (s : State) (m : SMap Group) : (s.withGroups m).exe.wgs = s.exe.wgs := rfl
@[simp] theorem withGroups_sides (s : State) (m : SMap Group) : (s.withGroups m).exe.sides = s.exe.sides := rfl
@[simp] theorem withGroups_pendings (s : State) (m : SMap Group) : (s.withGroups m).exe.pendings = s.exe.pendings := rfl
@[simp] theorem withGroups_engOps (s : State) (m : SMap Group) : (s.withGroups m).exe.engOps = s.exe.engOps := rfl
@[simp] theorem withGroups_traceBufs (s : State) (m : SMap Group) : (s.withGroups m).exe.traceBufs = s.exe.traceBufs := rfl
@[simp] theorem withGroups_nextId (s : State) (m : SMap Group) : (s.withGroups m).exe.nextId = s.exe.nextId := rfl
@[simp] theorem withGroups_wg (s : State) (m : SMap Group) (k : Nat) : (s.withGroups m).wg k = s.wg k := rfl
@[simp] theorem withGroups_ctx (s : State) (m : SMap Group) (k : Nat) : (s.withGroups m).ctx k = s.ctx k := rfl
@[simp] theorem withGroups_launch (s : State) (m : SMap Group) (k : Nat) : (s.withGroups m).launch k = s.launch k := rfl
@[simp] theorem withGroups_mgmtAt (s : State) (m : SMap Group) (k : Nat) : (s.withGroups m).mgmt k = s.mgmt k := rfl
@[simp] theorem setGroup_ctl (s : State) (g : Group) : (s.setGroup g).ctl = s.ctl := rfl
@[simp] theorem setGroup_mem (s : State) (g : Group) : (s.setGroup g).mem = s.mem := rfl
@[simp] theorem setGroup_host (s : State) (g : Group) : (s.setGroup g).host = s.host := rfl
@[simp] theorem setGroup_wgs (s : State) (g : Group) : (s.setGroup g).exe.wgs = s.exe.wgs := rfl
@[simp] theorem setGroup_sides (s : State) (g : Group) : (s.setGroup g).exe.sides = s.exe.sides := rfl
@[simp] theorem setGroup_pendings (s : State) (g : Group) : (s.setGroup g).exe.pendings = s.exe.pendings := rfl
@[simp] theorem setGroup_engOps (s : State) (g : Group) : (s.setGroup g).exe.engOps = s.exe.engOps := rfl
@[simp] theorem setGroup_traceBufs (s : State) (g : Group) : (s.setGroup g).exe.traceBufs = s.exe.traceBufs := rfl
@[simp] theorem setGroup_nextId (s : State) (g : Group) : (s.setGroup g).exe.nextId = s.exe.nextId := rfl
@[simp] theorem setGroup_wg (s : State) (g : Group) (k : Nat) : (s.setGroup g).wg k = s.wg k := rfl
@[simp] theorem setGroup_ctx (s : State) (g : Group) (k : Nat) : (s.setGroup g).ctx k = s.ctx k := rfl
@[simp] theorem setGroup_launch (s : State) (g : Group) (k : Nat) : (s.setGroup g).launch k = s.launch k := rfl
@[simp] theorem setGroup_mgmtAt (s : State) (g : Group) (k : Nat) : (s.setGroup g).mgmt k = s.mgmt k := rfl
@[simp] theorem modGroup_ctl (s : State) (gid : Nat) (f : Group → Group) : (s.modGroup gid f).ctl = s.ctl := rfl
@[simp] theorem modGroup_mem (s : State) (gid : Nat) (f : Group → Group) : (s.modGroup gid f).mem = s.mem := rfl
@[simp] theorem modGroup_host (s : State) (gid : Nat) (f : Group → Group) : (s.modGroup gid f).host = s.host := rfl
@[simp] theorem modGroup_wgs (s : State) (gid : Nat) (f : Group → Group) : (s.modGroup gid f).exe.wgs = s.exe.wgs := rfl
@[simp] theorem modGroup_sides (s : State) (gid : Nat) (f : Group → Group) : (s.modGroup gid f).exe.sides = s.exe.sides := rfl
@[simp] theorem modGroup_pendings (s : State) (gid : Nat) (f : Group → Group) : (s.modGroup gid f).exe.pendings = s.exe.pendings := rfl
@[simp] theorem modGroup_engOps (s : State) (gid : Nat) (f : Group → Group) : (s.modGroup gid f).exe.engOps = s.exe.engOps := rfl
@[simp] theorem modGroup_traceBufs (s : State) (gid : Nat) (f : Group → Group) : (s.modGroup gid f).exe.traceBufs = s.exe.traceBufs := rfl
@[simp] theorem modGroup_nextId (s : State) (gid : Nat) (f : Group → Group) : (s.modGroup gid f).exe.nextId = s.exe.nextId := rfl
@[simp] theorem modGroup_wg (s : State) (gid : Nat) (f : Group → Group) (k : Nat) : (s.modGroup gid f).wg k = s.wg k := rfl
@[simp] theorem modGroup_ctx (s : State) (gid : Nat) (f : Group → Group) (k : Nat) : (s.modGroup gid f).ctx k = s.ctx k := rfl
@[simp] theorem modGroup_launch (s : State) (gid : Nat) (f : Group → Group) (k : Nat) : (s.modGroup gid f).launch k = s.launch k := rfl
@[simp] theorem modGroup_mgmtAt (s : State) (gid : Nat) (f : Group → Group) (k : Nat) : (s.modGroup gid f).mgmt k = s.mgmt k := rfl
@[simp] theorem mapGroups_ctl (s : State) (f : Group → Group) : (s.mapGroups f).ctl = s.ctl := rfl
@[simp] theorem mapGroups_mem (s : State) (f : Group → Group) : (s.mapGroups f).mem = s.mem := rfl
@[simp] theorem mapGroups_host (s : State) (f : Group → Group) : (s.mapGroups f).host = s.host := rfl
@[simp] theorem mapGroups_wgs (s : State) (f : Group → Group) : (s.mapGroups f).exe.wgs = s.exe.wgs := rfl
@[simp] theorem mapGroups_sides (s : State) (f : Group → Group) : (s.mapGroups f).exe.sides = s.exe.sides := rfl
@[simp] theorem mapGroups_pendings (s : State) (f : Group → Group) : (s.mapGroups f).exe.pendings = s.exe.pendings := rfl
@[simp] theorem mapGroups_engOps (s : State) (f : Group → Group) : (s.mapGroups f).exe.engOps = s.exe.engOps := rfl
@[simp] theorem mapGroups_traceBufs (s : State) (f : Group → Group) : (s.mapGroups f).exe.traceBufs = s.exe.traceBufs := rfl
@[simp] theorem mapGroups_nextId (s : State) (f : Group → Group) : (s.mapGroups f).exe.nextId = s.exe.nextId := rfl
@[simp] theorem mapGroups_wg (s : State) (f : Group → Group) (k : Nat) : (s.mapGroups f).wg k = s.wg k := rfl
@[simp] theorem mapGroups_ctx (s : State) (f : Group → Group) (k : Nat) : (s.mapGroups f).ctx k = s.ctx k := rfl
@[simp] theorem mapGroups_launch (s : State) (f : Group → Group) (k : Nat) : (s.mapGroups f).launch k = s.launch k := rfl
@[simp] theorem mapGroups_mgmtAt (s : State) (f : Group → Group) (k : Nat) : (s.mapGroups f).mgmt k = s.mgmt k := rfl
@[simp] theorem modWg_ctl (s : State) (i : Nat) (f : WG → WG) : (s.modWg i f).ctl = s.ctl := rfl
@[simp] theorem modWg_mem (s : State) (i : Nat) (f : WG → WG) : (s.modWg i f).mem = s.mem := rfl
@[simp] theorem modWg_host (s : State) (i : Nat) (f : WG → WG) : (s.modWg i f).host = s.host := rfl
@[simp] theorem modWg_groups (s : State) (i : Nat) (f : WG → WG) : (s.modWg i f).exe.groups = s.exe.groups := rfl
@[simp] theorem modWg_sides (s : State) (i : Nat) (f : WG → WG) : (s.modWg i f).exe.sides = s.exe.sides := rfl
@[simp] theorem modWg_pendings (s : State) (i : Nat) (f : WG → WG) : (s.modWg i f).exe.pendings = s.exe.pendings := rfl
@[simp] theorem modWg_engOps (s : State) (i : Nat) (f : WG → WG) : (s.modWg i f).exe.engOps = s.exe.engOps := rfl
@[simp] theorem modWg_traceBufs (s : State) (i : Nat) (f : WG → WG) : (s.modWg i f).exe.traceBufs = s.exe.traceBufs := rfl
@[simp] theorem modWg_nextId (s : State) (i : Nat) (f : WG → WG) : (s.modWg i f).exe.nextId = s.exe.nextId := rfl
@[simp] theorem modWg_group (s : State) (i : Nat) (f : WG → WG) (k : Nat) : (s.modWg i f).group k = s.group k := rfl
@[simp] theorem modWg_ctx (s : State) (i : Nat) (f : WG → WG) (k : Nat) : (s.modWg i f).ctx k = s.ctx k := rfl
@[simp] theorem modWg_launch (s : State) (i : Nat) (f : WG → WG) (k : Nat) : (s.modWg i f).launch k = s.launch k := rfl
@[simp] theorem modWg_mgmtAt (s : State) (i : Nat) (f : WG → WG) (k : Nat) : (s.modWg i f).mgmt k = s.mgmt k := rfl
@[simp] theorem modPath_ctl (s : State) (h : Here) (f : Path → Path) : (s.modPath h f).ctl = s.ctl := rfl
@[simp] theorem modPath_mem (s : State) (h : Here) (f : Path → Path) : (s.modPath h f).mem = s.mem := rfl
@[simp] theorem modPath_host (s : State) (h : Here) (f : Path → Path) : (s.modPath h f).host = s.host := rfl
@[simp] theorem modPath_wgs (s : State) (h : Here) (f : Path → Path) : (s.modPath h f).exe.wgs = s.exe.wgs := rfl
@[simp] theorem modPath_sides (s : State) (h : Here) (f : Path → Path) : (s.modPath h f).exe.sides = s.exe.sides := rfl
@[simp] theorem modPath_pendings (s : State) (h : Here) (f : Path → Path) : (s.modPath h f).exe.pendings = s.exe.pendings := rfl
@[simp] theorem modPath_engOps (s : State) (h : Here) (f : Path → Path) : (s.modPath h f).exe.engOps = s.exe.engOps := rfl
@[simp] theorem modPath_traceBufs (s : State) (h : Here) (f : Path → Path) : (s.modPath h f).exe.traceBufs = s.exe.traceBufs := rfl
@[simp] theorem modPath_nextId (s : State) (h : Here) (f : Path → Path) : (s.modPath h f).exe.nextId = s.exe.nextId := rfl
@[simp] theorem modPath_wg (s : State) (h : Here) (f : Path → Path) (k : Nat) : (s.modPath h f).wg k = s.wg k := rfl
@[simp] theorem modPath_ctx (s : State) (h : Here) (f : Path → Path) (k : Nat) : (s.modPath h f).ctx k = s.ctx k := rfl
@[simp] theorem modPath_launch (s : State) (h : Here) (f : Path → Path) (k : Nat) : (s.modPath h f).launch k = s.launch k := rfl
@[simp] theorem modPath_mgmtAt (s : State) (h : Here) (f : Path → Path) (k : Nat) : (s.modPath h f).mgmt k = s.mgmt k := rfl
@[simp] theorem modCtx_ctl (s : State) (tag : Nat) (f : Context → Context) : (s.modCtx tag f).ctl = s.ctl := rfl
@[simp] theorem modCtx_mem (s : State) (tag : Nat) (f : Context → Context) : (s.modCtx tag f).mem = s.mem := rfl
@[simp] theorem modCtx_exe (s : State) (tag : Nat) (f : Context → Context) : (s.modCtx tag f).exe = s.exe := rfl
@[simp] theorem modCtx_launches (s : State) (tag : Nat) (f : Context → Context) : (s.modCtx tag f).host.launches = s.host.launches := rfl
@[simp] theorem modCtx_mgmt (s : State) (tag : Nat) (f : Context → Context) : (s.modCtx tag f).host.mgmt = s.host.mgmt := rfl
@[simp] theorem modCtx_faults (s : State) (tag : Nat) (f : Context → Context) : (s.modCtx tag f).host.faults = s.host.faults := rfl
@[simp] theorem modCtx_chords (s : State) (tag : Nat) (f : Context → Context) : (s.modCtx tag f).host.chords = s.host.chords := rfl
@[simp] theorem modCtx_fw (s : State) (tag : Nat) (f : Context → Context) : (s.modCtx tag f).host.fw = s.host.fw := rfl
@[simp] theorem modCtx_images (s : State) (tag : Nat) (f : Context → Context) : (s.modCtx tag f).host.images = s.host.images := rfl
@[simp] theorem modCtx_resetting (s : State) (tag : Nat) (f : Context → Context) : (s.modCtx tag f).host.resetting = s.host.resetting := rfl
@[simp] theorem modCtx_resetWaits (s : State) (tag : Nat) (f : Context → Context) : (s.modCtx tag f).host.resetWaits = s.host.resetWaits := rfl
@[simp] theorem modCtx_samples (s : State) (tag : Nat) (f : Context → Context) : (s.modCtx tag f).host.samples = s.host.samples := rfl
@[simp] theorem modCtx_tails (s : State) (tag : Nat) (f : Context → Context) : (s.modCtx tag f).host.tails = s.host.tails := rfl
@[simp] theorem modCtx_unconfirmed (s : State) (tag : Nat) (f : Context → Context) : (s.modCtx tag f).host.unconfirmed = s.host.unconfirmed := rfl
@[simp] theorem modCtx_heard (s : State) (tag : Nat) (f : Context → Context) : (s.modCtx tag f).host.heard = s.host.heard := rfl
@[simp] theorem modCtx_watches (s : State) (tag : Nat) (f : Context → Context) : (s.modCtx tag f).host.watches = s.host.watches := rfl
@[simp] theorem modCtx_replies (s : State) (tag : Nat) (f : Context → Context) : (s.modCtx tag f).host.replies = s.host.replies := rfl
@[simp] theorem modCtx_out (s : State) (tag : Nat) (f : Context → Context) : (s.modCtx tag f).host.out = s.host.out := rfl
@[simp] theorem modCtx_group (s : State) (tag : Nat) (f : Context → Context) (k : Nat) : (s.modCtx tag f).group k = s.group k := rfl
@[simp] theorem modCtx_wg (s : State) (tag : Nat) (f : Context → Context) (k : Nat) : (s.modCtx tag f).wg k = s.wg k := rfl
@[simp] theorem modCtx_launch (s : State) (tag : Nat) (f : Context → Context) (k : Nat) : (s.modCtx tag f).launch k = s.launch k := rfl
@[simp] theorem modCtx_mgmtAt (s : State) (tag : Nat) (f : Context → Context) (k : Nat) : (s.modCtx tag f).mgmt k = s.mgmt k := rfl
@[simp] theorem modLaunch_ctl (s : State) (i : Nat) (f : Launch → Launch) : (s.modLaunch i f).ctl = s.ctl := rfl
@[simp] theorem modLaunch_mem (s : State) (i : Nat) (f : Launch → Launch) : (s.modLaunch i f).mem = s.mem := rfl
@[simp] theorem modLaunch_exe (s : State) (i : Nat) (f : Launch → Launch) : (s.modLaunch i f).exe = s.exe := rfl
@[simp] theorem modLaunch_ctxs (s : State) (i : Nat) (f : Launch → Launch) : (s.modLaunch i f).host.ctxs = s.host.ctxs := rfl
@[simp] theorem modLaunch_mgmt (s : State) (i : Nat) (f : Launch → Launch) : (s.modLaunch i f).host.mgmt = s.host.mgmt := rfl
@[simp] theorem modLaunch_faults (s : State) (i : Nat) (f : Launch → Launch) : (s.modLaunch i f).host.faults = s.host.faults := rfl
@[simp] theorem modLaunch_chords (s : State) (i : Nat) (f : Launch → Launch) : (s.modLaunch i f).host.chords = s.host.chords := rfl
@[simp] theorem modLaunch_fw (s : State) (i : Nat) (f : Launch → Launch) : (s.modLaunch i f).host.fw = s.host.fw := rfl
@[simp] theorem modLaunch_images (s : State) (i : Nat) (f : Launch → Launch) : (s.modLaunch i f).host.images = s.host.images := rfl
@[simp] theorem modLaunch_resetting (s : State) (i : Nat) (f : Launch → Launch) : (s.modLaunch i f).host.resetting = s.host.resetting := rfl
@[simp] theorem modLaunch_resetWaits (s : State) (i : Nat) (f : Launch → Launch) : (s.modLaunch i f).host.resetWaits = s.host.resetWaits := rfl
@[simp] theorem modLaunch_samples (s : State) (i : Nat) (f : Launch → Launch) : (s.modLaunch i f).host.samples = s.host.samples := rfl
@[simp] theorem modLaunch_tails (s : State) (i : Nat) (f : Launch → Launch) : (s.modLaunch i f).host.tails = s.host.tails := rfl
@[simp] theorem modLaunch_unconfirmed (s : State) (i : Nat) (f : Launch → Launch) : (s.modLaunch i f).host.unconfirmed = s.host.unconfirmed := rfl
@[simp] theorem modLaunch_heard (s : State) (i : Nat) (f : Launch → Launch) : (s.modLaunch i f).host.heard = s.host.heard := rfl
@[simp] theorem modLaunch_watches (s : State) (i : Nat) (f : Launch → Launch) : (s.modLaunch i f).host.watches = s.host.watches := rfl
@[simp] theorem modLaunch_replies (s : State) (i : Nat) (f : Launch → Launch) : (s.modLaunch i f).host.replies = s.host.replies := rfl
@[simp] theorem modLaunch_out (s : State) (i : Nat) (f : Launch → Launch) : (s.modLaunch i f).host.out = s.host.out := rfl
@[simp] theorem modLaunch_group (s : State) (i : Nat) (f : Launch → Launch) (k : Nat) : (s.modLaunch i f).group k = s.group k := rfl
@[simp] theorem modLaunch_wg (s : State) (i : Nat) (f : Launch → Launch) (k : Nat) : (s.modLaunch i f).wg k = s.wg k := rfl
@[simp] theorem modLaunch_ctx (s : State) (i : Nat) (f : Launch → Launch) (k : Nat) : (s.modLaunch i f).ctx k = s.ctx k := rfl
@[simp] theorem modLaunch_mgmtAt (s : State) (i : Nat) (f : Launch → Launch) (k : Nat) : (s.modLaunch i f).mgmt k = s.mgmt k := rfl
@[simp] theorem send_ctl (s : State) (o : Out) : (s.send o).ctl = s.ctl := rfl
@[simp] theorem send_mem (s : State) (o : Out) : (s.send o).mem = s.mem := rfl
@[simp] theorem send_exe (s : State) (o : Out) : (s.send o).exe = s.exe := rfl
@[simp] theorem send_ctxs (s : State) (o : Out) : (s.send o).host.ctxs = s.host.ctxs := rfl
@[simp] theorem send_launches (s : State) (o : Out) : (s.send o).host.launches = s.host.launches := rfl
@[simp] theorem send_mgmt (s : State) (o : Out) : (s.send o).host.mgmt = s.host.mgmt := rfl
@[simp] theorem send_faults (s : State) (o : Out) : (s.send o).host.faults = s.host.faults := rfl
@[simp] theorem send_chords (s : State) (o : Out) : (s.send o).host.chords = s.host.chords := rfl
@[simp] theorem send_fw (s : State) (o : Out) : (s.send o).host.fw = s.host.fw := rfl
@[simp] theorem send_images (s : State) (o : Out) : (s.send o).host.images = s.host.images := rfl
@[simp] theorem send_resetting (s : State) (o : Out) : (s.send o).host.resetting = s.host.resetting := rfl
@[simp] theorem send_resetWaits (s : State) (o : Out) : (s.send o).host.resetWaits = s.host.resetWaits := rfl
@[simp] theorem send_samples (s : State) (o : Out) : (s.send o).host.samples = s.host.samples := rfl
@[simp] theorem send_tails (s : State) (o : Out) : (s.send o).host.tails = s.host.tails := rfl
@[simp] theorem send_unconfirmed (s : State) (o : Out) : (s.send o).host.unconfirmed = s.host.unconfirmed := rfl
@[simp] theorem send_heard (s : State) (o : Out) : (s.send o).host.heard = s.host.heard := rfl
@[simp] theorem send_watches (s : State) (o : Out) : (s.send o).host.watches = s.host.watches := rfl
@[simp] theorem send_replies (s : State) (o : Out) : (s.send o).host.replies = s.host.replies := rfl
@[simp] theorem send_group (s : State) (o : Out) (k : Nat) : (s.send o).group k = s.group k := rfl
@[simp] theorem send_wg (s : State) (o : Out) (k : Nat) : (s.send o).wg k = s.wg k := rfl
@[simp] theorem send_ctx (s : State) (o : Out) (k : Nat) : (s.send o).ctx k = s.ctx k := rfl
@[simp] theorem send_launch (s : State) (o : Out) (k : Nat) : (s.send o).launch k = s.launch k := rfl
@[simp] theorem send_mgmtAt (s : State) (o : Out) (k : Nat) : (s.send o).mgmt k = s.mgmt k := rfl
@[simp] theorem setMgmt_ctl (s : State) (off : Nat) (w : Word) : (s.setMgmt off w).ctl = s.ctl := rfl
@[simp] theorem setMgmt_mem (s : State) (off : Nat) (w : Word) : (s.setMgmt off w).mem = s.mem := rfl
@[simp] theorem setMgmt_exe (s : State) (off : Nat) (w : Word) : (s.setMgmt off w).exe = s.exe := rfl
@[simp] theorem setMgmt_ctxs (s : State) (off : Nat) (w : Word) : (s.setMgmt off w).host.ctxs = s.host.ctxs := rfl
@[simp] theorem setMgmt_launches (s : State) (off : Nat) (w : Word) : (s.setMgmt off w).host.launches = s.host.launches := rfl
@[simp] theorem setMgmt_faults (s : State) (off : Nat) (w : Word) : (s.setMgmt off w).host.faults = s.host.faults := rfl
@[simp] theorem setMgmt_chords (s : State) (off : Nat) (w : Word) : (s.setMgmt off w).host.chords = s.host.chords := rfl
@[simp] theorem setMgmt_fw (s : State) (off : Nat) (w : Word) : (s.setMgmt off w).host.fw = s.host.fw := rfl
@[simp] theorem setMgmt_images (s : State) (off : Nat) (w : Word) : (s.setMgmt off w).host.images = s.host.images := rfl
@[simp] theorem setMgmt_resetting (s : State) (off : Nat) (w : Word) : (s.setMgmt off w).host.resetting = s.host.resetting := rfl
@[simp] theorem setMgmt_resetWaits (s : State) (off : Nat) (w : Word) : (s.setMgmt off w).host.resetWaits = s.host.resetWaits := rfl
@[simp] theorem setMgmt_samples (s : State) (off : Nat) (w : Word) : (s.setMgmt off w).host.samples = s.host.samples := rfl
@[simp] theorem setMgmt_tails (s : State) (off : Nat) (w : Word) : (s.setMgmt off w).host.tails = s.host.tails := rfl
@[simp] theorem setMgmt_unconfirmed (s : State) (off : Nat) (w : Word) : (s.setMgmt off w).host.unconfirmed = s.host.unconfirmed := rfl
@[simp] theorem setMgmt_heard (s : State) (off : Nat) (w : Word) : (s.setMgmt off w).host.heard = s.host.heard := rfl
@[simp] theorem setMgmt_watches (s : State) (off : Nat) (w : Word) : (s.setMgmt off w).host.watches = s.host.watches := rfl
@[simp] theorem setMgmt_replies (s : State) (off : Nat) (w : Word) : (s.setMgmt off w).host.replies = s.host.replies := rfl
@[simp] theorem setMgmt_out (s : State) (off : Nat) (w : Word) : (s.setMgmt off w).host.out = s.host.out := rfl
@[simp] theorem setMgmt_group (s : State) (off : Nat) (w : Word) (k : Nat) : (s.setMgmt off w).group k = s.group k := rfl
@[simp] theorem setMgmt_wg (s : State) (off : Nat) (w : Word) (k : Nat) : (s.setMgmt off w).wg k = s.wg k := rfl
@[simp] theorem setMgmt_ctx (s : State) (off : Nat) (w : Word) (k : Nat) : (s.setMgmt off w).ctx k = s.ctx k := rfl
@[simp] theorem setMgmt_launch (s : State) (off : Nat) (w : Word) (k : Nat) : (s.setMgmt off w).launch k = s.launch k := rfl
@[simp] theorem setMgmt64_ctl (s : State) (off : Nat) (x : DWord) : (s.setMgmt64 off x).ctl = s.ctl := rfl
@[simp] theorem setMgmt64_mem (s : State) (off : Nat) (x : DWord) : (s.setMgmt64 off x).mem = s.mem := rfl
@[simp] theorem setMgmt64_exe (s : State) (off : Nat) (x : DWord) : (s.setMgmt64 off x).exe = s.exe := rfl
@[simp] theorem setMgmt64_ctxs (s : State) (off : Nat) (x : DWord) : (s.setMgmt64 off x).host.ctxs = s.host.ctxs := rfl
@[simp] theorem setMgmt64_launches (s : State) (off : Nat) (x : DWord) : (s.setMgmt64 off x).host.launches = s.host.launches := rfl
@[simp] theorem setMgmt64_faults (s : State) (off : Nat) (x : DWord) : (s.setMgmt64 off x).host.faults = s.host.faults := rfl
@[simp] theorem setMgmt64_chords (s : State) (off : Nat) (x : DWord) : (s.setMgmt64 off x).host.chords = s.host.chords := rfl
@[simp] theorem setMgmt64_fw (s : State) (off : Nat) (x : DWord) : (s.setMgmt64 off x).host.fw = s.host.fw := rfl
@[simp] theorem setMgmt64_images (s : State) (off : Nat) (x : DWord) : (s.setMgmt64 off x).host.images = s.host.images := rfl
@[simp] theorem setMgmt64_resetting (s : State) (off : Nat) (x : DWord) : (s.setMgmt64 off x).host.resetting = s.host.resetting := rfl
@[simp] theorem setMgmt64_resetWaits (s : State) (off : Nat) (x : DWord) : (s.setMgmt64 off x).host.resetWaits = s.host.resetWaits := rfl
@[simp] theorem setMgmt64_samples (s : State) (off : Nat) (x : DWord) : (s.setMgmt64 off x).host.samples = s.host.samples := rfl
@[simp] theorem setMgmt64_tails (s : State) (off : Nat) (x : DWord) : (s.setMgmt64 off x).host.tails = s.host.tails := rfl
@[simp] theorem setMgmt64_unconfirmed (s : State) (off : Nat) (x : DWord) : (s.setMgmt64 off x).host.unconfirmed = s.host.unconfirmed := rfl
@[simp] theorem setMgmt64_heard (s : State) (off : Nat) (x : DWord) : (s.setMgmt64 off x).host.heard = s.host.heard := rfl
@[simp] theorem setMgmt64_watches (s : State) (off : Nat) (x : DWord) : (s.setMgmt64 off x).host.watches = s.host.watches := rfl
@[simp] theorem setMgmt64_replies (s : State) (off : Nat) (x : DWord) : (s.setMgmt64 off x).host.replies = s.host.replies := rfl
@[simp] theorem setMgmt64_out (s : State) (off : Nat) (x : DWord) : (s.setMgmt64 off x).host.out = s.host.out := rfl
@[simp] theorem setMgmt64_group (s : State) (off : Nat) (x : DWord) (k : Nat) : (s.setMgmt64 off x).group k = s.group k := rfl
@[simp] theorem setMgmt64_wg (s : State) (off : Nat) (x : DWord) (k : Nat) : (s.setMgmt64 off x).wg k = s.wg k := rfl
@[simp] theorem setMgmt64_ctx (s : State) (off : Nat) (x : DWord) (k : Nat) : (s.setMgmt64 off x).ctx k = s.ctx k := rfl
@[simp] theorem setMgmt64_launch (s : State) (off : Nat) (x : DWord) (k : Nat) : (s.setMgmt64 off x).launch k = s.launch k := rfl
@[simp] theorem withMem_ctl (s : State) (m : MemSys) : (s.withMem m).ctl = s.ctl := rfl
@[simp] theorem withMem_exe (s : State) (m : MemSys) : (s.withMem m).exe = s.exe := rfl
@[simp] theorem withMem_host (s : State) (m : MemSys) : (s.withMem m).host = s.host := rfl
@[simp] theorem withMem_group (s : State) (m : MemSys) (k : Nat) : (s.withMem m).group k = s.group k := rfl
@[simp] theorem withMem_wg (s : State) (m : MemSys) (k : Nat) : (s.withMem m).wg k = s.wg k := rfl
@[simp] theorem withMem_ctx (s : State) (m : MemSys) (k : Nat) : (s.withMem m).ctx k = s.ctx k := rfl
@[simp] theorem withMem_launch (s : State) (m : MemSys) (k : Nat) : (s.withMem m).launch k = s.launch k := rfl
@[simp] theorem withMem_mgmtAt (s : State) (m : MemSys) (k : Nat) : (s.withMem m).mgmt k = s.mgmt k := rfl
@[simp] theorem bump_mem (s : State) : (s.bump).mem = s.mem := rfl
@[simp] theorem bump_exe (s : State) : (s.bump).exe = s.exe := rfl
@[simp] theorem bump_host (s : State) : (s.bump).host = s.host := rfl
@[simp] theorem bump_group (s : State) (k : Nat) : (s.bump).group k = s.group k := rfl
@[simp] theorem bump_wg (s : State) (k : Nat) : (s.bump).wg k = s.wg k := rfl
@[simp] theorem bump_ctx (s : State) (k : Nat) : (s.bump).ctx k = s.ctx k := rfl
@[simp] theorem bump_launch (s : State) (k : Nat) : (s.bump).launch k = s.launch k := rfl
@[simp] theorem bump_mgmtAt (s : State) (k : Nat) : (s.bump).mgmt k = s.mgmt k := rfl
@[simp] theorem countRetire_ctl (s : State) (gid : Nat) : (countRetire s gid).ctl = s.ctl := rfl
@[simp] theorem countRetire_mem (s : State) (gid : Nat) : (countRetire s gid).mem = s.mem := rfl
@[simp] theorem countRetire_host (s : State) (gid : Nat) : (countRetire s gid).host = s.host := rfl
@[simp] theorem countRetire_wgs (s : State) (gid : Nat) : (countRetire s gid).exe.wgs = s.exe.wgs := rfl
@[simp] theorem countRetire_sides (s : State) (gid : Nat) : (countRetire s gid).exe.sides = s.exe.sides := rfl
@[simp] theorem countRetire_pendings (s : State) (gid : Nat) : (countRetire s gid).exe.pendings = s.exe.pendings := rfl
@[simp] theorem countRetire_engOps (s : State) (gid : Nat) : (countRetire s gid).exe.engOps = s.exe.engOps := rfl
@[simp] theorem countRetire_traceBufs (s : State) (gid : Nat) : (countRetire s gid).exe.traceBufs = s.exe.traceBufs := rfl
@[simp] theorem countRetire_nextId (s : State) (gid : Nat) : (countRetire s gid).exe.nextId = s.exe.nextId := rfl
@[simp] theorem countRetire_wg (s : State) (gid : Nat) (k : Nat) : (countRetire s gid).wg k = s.wg k := rfl
@[simp] theorem countRetire_ctx (s : State) (gid : Nat) (k : Nat) : (countRetire s gid).ctx k = s.ctx k := rfl
@[simp] theorem countRetire_launch (s : State) (gid : Nat) (k : Nat) : (countRetire s gid).launch k = s.launch k := rfl
@[simp] theorem countRetire_mgmtAt (s : State) (gid : Nat) (k : Nat) : (countRetire s gid).mgmt k = s.mgmt k := rfl
@[simp] theorem retireAt_ctl (s : State) (h : Here) (pc : DWord) : (retireAt s h pc).ctl = s.ctl := rfl
@[simp] theorem retireAt_mem (s : State) (h : Here) (pc : DWord) : (retireAt s h pc).mem = s.mem := rfl
@[simp] theorem retireAt_host (s : State) (h : Here) (pc : DWord) : (retireAt s h pc).host = s.host := rfl
@[simp] theorem retireAt_wgs (s : State) (h : Here) (pc : DWord) : (retireAt s h pc).exe.wgs = s.exe.wgs := rfl
@[simp] theorem retireAt_sides (s : State) (h : Here) (pc : DWord) : (retireAt s h pc).exe.sides = s.exe.sides := rfl
@[simp] theorem retireAt_pendings (s : State) (h : Here) (pc : DWord) : (retireAt s h pc).exe.pendings = s.exe.pendings := rfl
@[simp] theorem retireAt_engOps (s : State) (h : Here) (pc : DWord) : (retireAt s h pc).exe.engOps = s.exe.engOps := rfl
@[simp] theorem retireAt_traceBufs (s : State) (h : Here) (pc : DWord) : (retireAt s h pc).exe.traceBufs = s.exe.traceBufs := rfl
@[simp] theorem retireAt_nextId (s : State) (h : Here) (pc : DWord) : (retireAt s h pc).exe.nextId = s.exe.nextId := rfl
@[simp] theorem retireAt_wg (s : State) (h : Here) (pc : DWord) (k : Nat) : (retireAt s h pc).wg k = s.wg k := rfl
@[simp] theorem retireAt_ctx (s : State) (h : Here) (pc : DWord) (k : Nat) : (retireAt s h pc).ctx k = s.ctx k := rfl
@[simp] theorem retireAt_launch (s : State) (h : Here) (pc : DWord) (k : Nat) : (retireAt s h pc).launch k = s.launch k := rfl
@[simp] theorem retireAt_mgmtAt (s : State) (h : Here) (pc : DWord) (k : Nat) : (retireAt s h pc).mgmt k = s.mgmt k := rfl
@[simp] theorem retire_ctl (s : State) (h : Here) : (retire s h).ctl = s.ctl := rfl
@[simp] theorem retire_mem (s : State) (h : Here) : (retire s h).mem = s.mem := rfl
@[simp] theorem retire_host (s : State) (h : Here) : (retire s h).host = s.host := rfl
@[simp] theorem retire_wgs (s : State) (h : Here) : (retire s h).exe.wgs = s.exe.wgs := rfl
@[simp] theorem retire_sides (s : State) (h : Here) : (retire s h).exe.sides = s.exe.sides := rfl
@[simp] theorem retire_pendings (s : State) (h : Here) : (retire s h).exe.pendings = s.exe.pendings := rfl
@[simp] theorem retire_engOps (s : State) (h : Here) : (retire s h).exe.engOps = s.exe.engOps := rfl
@[simp] theorem retire_traceBufs (s : State) (h : Here) : (retire s h).exe.traceBufs = s.exe.traceBufs := rfl
@[simp] theorem retire_nextId (s : State) (h : Here) : (retire s h).exe.nextId = s.exe.nextId := rfl
@[simp] theorem retire_wg (s : State) (h : Here) (k : Nat) : (retire s h).wg k = s.wg k := rfl
@[simp] theorem retire_ctx (s : State) (h : Here) (k : Nat) : (retire s h).ctx k = s.ctx k := rfl
@[simp] theorem retire_launch (s : State) (h : Here) (k : Nat) : (retire s h).launch k = s.launch k := rfl
@[simp] theorem retire_mgmtAt (s : State) (h : Here) (k : Nat) : (retire s h).mgmt k = s.mgmt k := rfl
@[simp] theorem resetWatchdog_ctl (s : State) (gid : Nat) : (resetWatchdog s gid).ctl = s.ctl := rfl
@[simp] theorem resetWatchdog_mem (s : State) (gid : Nat) : (resetWatchdog s gid).mem = s.mem := rfl
@[simp] theorem resetWatchdog_host (s : State) (gid : Nat) : (resetWatchdog s gid).host = s.host := rfl
@[simp] theorem resetWatchdog_wgs (s : State) (gid : Nat) : (resetWatchdog s gid).exe.wgs = s.exe.wgs := rfl
@[simp] theorem resetWatchdog_sides (s : State) (gid : Nat) : (resetWatchdog s gid).exe.sides = s.exe.sides := rfl
@[simp] theorem resetWatchdog_pendings (s : State) (gid : Nat) : (resetWatchdog s gid).exe.pendings = s.exe.pendings := rfl
@[simp] theorem resetWatchdog_engOps (s : State) (gid : Nat) : (resetWatchdog s gid).exe.engOps = s.exe.engOps := rfl
@[simp] theorem resetWatchdog_traceBufs (s : State) (gid : Nat) : (resetWatchdog s gid).exe.traceBufs = s.exe.traceBufs := rfl
@[simp] theorem resetWatchdog_nextId (s : State) (gid : Nat) : (resetWatchdog s gid).exe.nextId = s.exe.nextId := rfl
@[simp] theorem resetWatchdog_wg (s : State) (gid : Nat) (k : Nat) : (resetWatchdog s gid).wg k = s.wg k := rfl
@[simp] theorem resetWatchdog_ctx (s : State) (gid : Nat) (k : Nat) : (resetWatchdog s gid).ctx k = s.ctx k := rfl
@[simp] theorem resetWatchdog_launch (s : State) (gid : Nat) (k : Nat) : (resetWatchdog s gid).launch k = s.launch k := rfl
@[simp] theorem resetWatchdog_mgmtAt (s : State) (gid : Nat) (k : Nat) : (resetWatchdog s gid).mgmt k = s.mgmt k := rfl
@[simp] theorem stall_mem (s : State) : (stall s).mem = s.mem := rfl
@[simp] theorem stall_exe (s : State) : (stall s).exe = s.exe := rfl
@[simp] theorem stall_host (s : State) : (stall s).host = s.host := rfl
@[simp] theorem stall_stalled (s : State) : (stall s).ctl.stalled = true := rfl
@[simp] theorem withMem_mem (s : State) (m : MemSys) : (s.withMem m).mem = m := rfl
@[simp] theorem send_out (s : State) (o : Out) : (s.send o).host.out = s.host.out ++ [o] := rfl
@[simp] theorem withGroups_groups (s : State) (m : SMap Group) : (s.withGroups m).exe.groups = m := rfl
@[simp] theorem bump_tick (s : State) : s.bump.ctl.tick = s.ctl.tick + 1 := rfl
@[simp] theorem fresh_fst (s : State) : s.fresh.1 = s.exe.nextId := rfl

/-! ## Reading back what an update changed -/

theorem group_setGroup (s : State) (g : Group) (k : Nat) : (s.setGroup g).group k = if k = g.id then some g else s.group k :=
  sfind_sins _ _ _ _

theorem group_modGroup (s : State) (gid k : Nat) (f : Group → Group) :
    (s.modGroup gid f).group k = if k = gid then (s.group gid).map f else s.group k := sfind_smod _ _ _ _

theorem wg_modWg (s : State) (i k : Nat) (f : WG → WG) : (s.modWg i f).wg k = if k = i then (s.wg i).map f else s.wg k :=
  sfind_smod _ _ _ _

theorem ctx_modCtx (s : State) (tag k : Nat) (f : Context → Context) :
    (s.modCtx tag f).ctx k = if k = tag then (s.ctx tag).map f else s.ctx k := sfind_smod _ _ _ _

theorem launch_modLaunch (s : State) (i k : Nat) (f : Launch → Launch) :
    (s.modLaunch i f).launch k = if k = i then (s.launch i).map f else s.launch k := sfind_smod _ _ _ _

theorem mgmt_setMgmt (s : State) (off k : Nat) (w : Word) : (s.setMgmt off w).mgmt k = if k = off then w else s.mgmt k := by
  unfold State.mgmt
  by_cases h : k = off
  · subst h
    simp [State.setMgmt]
  · simp only [State.setMgmt, h, sget, sput, if_false]
    split <;> simp [sfind_sdel, sfind_sins, h]

@[simp] theorem group_modGroup_same (s : State) (gid : Nat) (f : Group → Group) :
    (s.modGroup gid f).group gid = (s.group gid).map f := by simp [group_modGroup]

theorem group_modGroup_other (s : State) (gid k : Nat) (f : Group → Group) (h : k ≠ gid) :
    (s.modGroup gid f).group k = s.group k := by simp [group_modGroup, h]

/-- The path that issues: its group, workgroup and path, each under its own name. -/
theorem here_eq (s : State) (h : Here) (hh : s.here = some h) :
    s.ctl.cur = some (h.g.id, h.pid) ∧ s.group h.g.id = some h.g ∧ s.wg h.g.wg = some h.w ∧ h.w.id = h.g.wg ∧
      sfind h.g.paths h.pid = some h.p := by
  unfold State.here at hh
  split at hh
  · cases hh
  · split at hh
    · cases hh
    · split at hh
      · split at hh
        · grind
        · cases hh
      · cases hh

theorem issuing_eq (s : State) (h : Here) (k : Here → Result) (hh : s.here = some h) : issuing s k = k h := by
  simp [issuing, hh]

theorem smod_of_sfind {α : Type} (m : SMap α) (i : Nat) (f : α → α) (x : α) (h : sfind m i = some x) : smod m i f = sins m i (f x) := by
  simp [smod, h]

theorem modGroup_of_group (s : State) (gid : Nat) (f : Group → Group) (g : Group) (h : s.group gid = some g) :
    s.modGroup gid f = s.withGroups (sins s.exe.groups gid (f g)) := by
  simp [State.modGroup, smod_of_sfind _ _ _ _ h]

theorem sins_sins {α : Type} (m : SMap α) (i : Nat) (x y : α) : sins (sins m i x) i y = sins m i y := by
  induction m with
  | nil => simp [sins]
  | cons kx m ih => grind [sins]

/-- The group of a word that retires: it has gone on and has counted the word. -/
def Group.goneOn (g : Group) (pid : Nat) (pc : DWord) : Group :=
  { g with retired := g.retired + 1, paths := smod g.paths pid fun p => { p with pc := pc, park := .running } }

/-- A word that retires after changing its own group only. -/
theorem retireAt_modGroup (s : State) (h : Here) (hh : s.here = some h) (f : Group → Group) (hid : (f h.g).id = h.g.id) (pc : DWord) :
    retireAt (s.modGroup h.g.id f) h pc = s.setGroup ((f h.g).goneOn h.pid pc) := by
  have hg := (here_eq s h hh).2.1
  rw [modGroup_of_group _ _ _ _ hg]
  simp [retireAt, countRetire, State.modPath, State.modGroup, State.withGroups, smod, sins_sins, State.setGroup, Group.goneOn, Group.modPath, hid]

theorem retireAt_eq (s : State) (h : Here) (hh : s.here = some h) (pc : DWord) :
    retireAt s h pc = s.setGroup (h.g.goneOn h.pid pc) := by
  have hg := (here_eq s h hh).2.1
  simp only [State.group] at hg
  simp [retireAt, countRetire, State.modPath, State.modGroup, State.withGroups, smod, hg, sins_sins, State.setGroup, Group.goneOn, Group.modPath]

end Sys2Proof.Machine
end

