-- ==== Sys2Proof/Laws/Operands.lean ====
section
/-!
SUPPORT. What the shared pipeline of Operands.lean does: which threads execute, and what each register holds after the results
are written.
-/

namespace Sys2Proof.Machine

open Sys2Proof

/-! ## Threads -/

theorem threadsOf_lt (m : Mask) (t : Nat) (h : t ∈ threadsOf m) : t < 128 := by
  unfold threadsOf at h
  split at h
  · cases h
  · simpa using (List.mem_filter.mp h).1

theorem threadsOf_nodup (m : Mask) : (threadsOf m).Nodup := by
  unfold threadsOf
  split
  · exact List.nodup_nil
  · exact (List.nodup_range).filter _

theorem enabledThreads_lt (p : Path) (t : Nat) (h : t ∈ enabledThreads p) : t < 128 :=
  threadsOf_lt _ _ (List.mem_filter.mp h).1

theorem enabledThreads_nodup (p : Path) : (enabledThreads p).Nodup := (threadsOf_nodup _).filter _

theorem vecThreads_fst (g : Group) (p : Path) : ((vecThreads g p).map (·.1)).Sublist (enabledThreads p) := by
  unfold vecThreads
  generalize enabledThreads p = l
  induction l with
  | nil => simp
  | cons t l ih =>
    by_cases h1 : (pGet g (mGuard p.mode) t).poi = true
    · simp only [List.filterMap_cons, h1, if_true, List.map_cons]
      exact ih.cons_cons t
    · by_cases h2 : ((pGet g (mGuard p.mode) t).val != mSense p.mode) = true
      · simp only [List.filterMap_cons, h1, h2, if_true]
        exact ih.cons_cons t
      · simp only [List.filterMap_cons, h1, h2]
        exact ih.cons t

theorem vecThreads_nodup (g : Group) (p : Path) : ((vecThreads g p).map (·.1)).Nodup :=
  (vecThreads_fst g p).nodup (enabledThreads_nodup p)

theorem vecThreads_lt (g : Group) (p : Path) (t : Nat × Option Token) (h : t ∈ vecThreads g p) : t.1 < 128 :=
  enabledThreads_lt p _ ((vecThreads_fst g p).subset (List.mem_map_of_mem h))

/-- R12: a uniform instruction executes at most once. -/
theorem uniThreads_length (g : Group) (p : Path) : (uniThreads g p).length ≤ 1 := by
  unfold uniThreads
  split
  · exact Nat.le_refl 1
  · exact List.length_take_le 1 _

theorem uniThreads_subset (g : Group) (p : Path) (t : Nat × Option Token) (h : t ∈ uniThreads g p) : t ∈ vecThreads g p := by
  unfold uniThreads at h
  split at h
  · rename_i x hx
    simp only [List.mem_singleton] at h
    exact h ▸ List.mem_of_find?_eq_some hx
  · exact List.mem_of_mem_take h

theorem execThreads_nodup (u : Bool) (g : Group) (p : Path) : ((execThreads u g p).map (·.1)).Nodup := by
  unfold execThreads
  split
  · have := uniThreads_length g p
    match h : uniThreads g p with
    | [] => simp
    | [x] => simp
    | x :: y :: l => rw [h] at this; simp at this
  · exact vecThreads_nodup g p

theorem execThreads_lt (u : Bool) (g : Group) (p : Path) (t : Nat × Option Token) (h : t ∈ execThreads u g p) : t.1 < 128 := by
  unfold execThreads at h
  split at h
  · exact vecThreads_lt g p t (uniThreads_subset g p t h)
  · exact vecThreads_lt g p t h

/-! ## Registers -/

theorem regKey_inj (n t n' t' : Nat) (h : t < 128) (h' : t' < 128) : regKey n t = regKey n' t' ↔ n = n' ∧ t = t' := by
  unfold regKey
  omega

theorem vGet_vSet (g : Group) (n t n' t' : Nat) (r : Reg) (h : t < 128) (h' : t' < 128) :
    vGet (vSet g n t r) n' t' = if n' = n ∧ t' = t then r else vGet g n' t' := by
  simp [vGet, vSet, sget_sput, regKey_inj _ _ _ _ h' h]

theorem sGet_sSet (g : Group) (n n' : Nat) (r : Reg) : sGet (sSet g n r) n' = if n' = n then r else sGet g n' := by
  simp [sGet, sSet, sget_sput]

/-- R159, R162: p0 keeps reading true whatever is written. -/
theorem pGet_pSet (g : Group) (n t n' t' : Nat) (r : Pred) (h : t < 128) (h' : t' < 128) :
    pGet (pSet g n t r) n' t' = if n' = n ∧ n ≠ 0 ∧ t' = t then r else pGet g n' t' := by
  unfold pGet pSet
  by_cases h0 : n = 0
  · grind
  · by_cases h1 : n' = 0
    · grind
    · simp [h0, h1, sget_sput, regKey_inj _ _ _ _ h' h]

theorem xGet_xSet (g : Group) (n t n' t' : Nat) (r : Idx) (h : t < 128) (h' : t' < 128) :
    xGet (xSet g n t r) n' t' = if n' = n ∧ t' = t then r else xGet g n' t' := by
  simp [xGet, xSet, sget_sput, regKey_inj _ _ _ _ h' h]

/-- A group that differs from another in its register files only. -/
def Group.sameButRegs (g g' : Group) : Prop := g' = { g with v := g'.v, sr := g'.sr, p := g'.p, x := g'.x }

theorem Group.sameButRegs_refl (g : Group) : g.sameButRegs g := rfl

theorem Group.sameButRegs_trans (a b c : Group) (h : a.sameButRegs b) (h' : b.sameButRegs c) : a.sameButRegs c := by
  unfold Group.sameButRegs at *
  rw [h] at h'
  exact h'

theorem sameButRegs_vSet (g : Group) (n t : Nat) (r : Reg) : g.sameButRegs (vSet g n t r) := rfl
theorem sameButRegs_sSet (g : Group) (n : Nat) (r : Reg) : g.sameButRegs (sSet g n r) := rfl
theorem sameButRegs_xSet (g : Group) (n t : Nat) (r : Idx) : g.sameButRegs (xSet g n t r) := rfl
theorem sameButRegs_pSet (g : Group) (n t : Nat) (r : Pred) : g.sameButRegs (pSet g n t r) := by
  unfold pSet
  split <;> rfl

theorem sameButRegs_foldl {β : Type} (l : List β) (f : Group → β → Group) (hf : ∀ (g : Group) (b : β), g.sameButRegs (f g b)) (g : Group) :
    g.sameButRegs (l.foldl f g) := by
  induction l generalizing g with
  | nil => rfl
  | cons b l ih => exact Group.sameButRegs_trans _ _ _ (hf g b) (ih _)

theorem sameButRegs_writeOut (p : Path) (d : Dst) (g : Group) (t : Nat) (o : ThreadOut) : g.sameButRegs (writeOut p d g t o) := by
  unfold writeOut
  split
  · exact sameButRegs_foldl _ _ (fun g b => by split <;> rfl) _
  · exact sameButRegs_pSet ..
  · rfl
  · split
    · exact sameButRegs_pSet ..
    · rfl
    · exact sameButRegs_foldl _ _ (fun g b => sameButRegs_vSet ..) _
    · exact sameButRegs_foldl _ _ (fun g b => sameButRegs_sSet ..) _
  · rfl

theorem sameButRegs_writes (p : Path) (d : Dst) (outs : List (Nat × ThreadOut)) (g : Group) :
    g.sameButRegs (outs.foldl (fun g o => writeOut p d g o.1 o.2) g) :=
  sameButRegs_foldl outs (fun g o => writeOut p d g o.1 o.2) (fun g b => sameButRegs_writeOut p d g b.1 b.2) g

/-- R193: writing registers does not change what a name means. -/
theorem resolve_sameButRegs (g g' : Group) (h : g.sameButRegs g') (p : Path) (n t : Nat) : resolve g' p n t = resolve g p n t := by
  unfold Group.sameButRegs at h
  unfold resolve
  rw [h]

/-! ## What a result leaves in each register -/

/-- The registers that a result holds. -/
def outRegs (n : Nat) : ThreadOut → Option (List Reg)
  | .words ws => some (ws.map fun w => { val := w })
  | .tok k => some (List.replicate n { val := k.setWidth 32, poi := true })
  | _ => none

/-- What a v-register of a thread holds after a result of that thread is written from register `base` up. -/
def regAfter (old : Reg) (base n width : Nat) (o : ThreadOut) : Reg :=
  match outRegs width o with
  | some rs => if base ≤ n ∧ n < base + rs.length then rs.getD (n - base) {} else old
  | none => old


/-- A predicate after a result is written to it. -/
def predAfter (old : Pred) : ThreadOut → Pred
  | .bool b => { val := b }
  | .tok k => { poi := true, tok := k }
  | _ => old

/-- An index register after a result is written to it. -/
def idxAfter (old : Idx) : ThreadOut → Idx
  | .idx b e => { base := b, bound := e }
  | .tok k => { poi := true, tok := k }
  | _ => old

theorem vGet_fold_words (ws : List Word) (b s t n t' : Nat) (g : Group) (h : t < 128) (h' : t' < 128) :
    vGet ((ws.zip (List.range' s ws.length)).foldl (fun g wk => vSet g (b + wk.2) t { val := wk.1 }) g) n t' =
      if t' = t ∧ b + s ≤ n ∧ n < b + s + ws.length then { val := ws.getD (n - b - s) 0 } else vGet g n t' := by
  induction ws generalizing s g with
  | nil => exact (if_neg fun h => by have := h.2.1; have := h.2.2; simp only [List.length_nil] at this; omega).symm
  | cons w ws ih =>
    simp only [List.length_cons, List.range'_succ, List.zip_cons_cons, List.foldl_cons, ih, vGet_vSet _ _ _ _ _ _ h h']
    by_cases ht : t' = t
    · subst ht
      by_cases h1 : n = b + s
      · subst h1
        rw [if_neg (by omega), if_pos ⟨rfl, rfl⟩, if_pos ⟨rfl, by omega, by omega⟩]
        simp
      · by_cases h2 : b + (s + 1) ≤ n ∧ n < b + (s + 1) + ws.length
        · rw [if_pos ⟨rfl, h2⟩, if_pos ⟨rfl, by omega, by omega⟩]
          have : n - b - s = (n - b - (s + 1)) + 1 := by omega
          simp [this]
        · rw [if_neg (by simp; omega), if_neg (by simp; omega), if_neg (by simp; omega)]
    · simp [ht]

theorem vGet_fold_tok (k : Reg) (m b s t n t' : Nat) (g : Group) (h : t < 128) (h' : t' < 128) :
    vGet ((List.range' s m).foldl (fun g j => vSet g (b + j) t k) g) n t' =
      if t' = t ∧ b + s ≤ n ∧ n < b + s + m then k else vGet g n t' := by
  induction m generalizing s g with
  | zero => exact (if_neg fun h => by have := h.2.1; have := h.2.2; omega).symm
  | succ m ih =>
    simp only [List.range'_succ, List.foldl_cons, ih, vGet_vSet _ _ _ _ _ _ h h']
    by_cases ht : t' = t
    · subst ht
      by_cases h1 : n = b + s
      · subst h1
        simp
      · by_cases h2 : b + (s + 1) ≤ n ∧ n < b + (s + 1) + m
        · rw [if_pos ⟨rfl, h2⟩, if_pos ⟨rfl, by omega, by omega⟩]
        · rw [if_neg (by simp; omega), if_neg (by simp; omega), if_neg (by simp; omega)]
    · simp [ht]

theorem sGet_fold_words (ws : List Word) (b s n : Nat) (g : Group) :
    sGet ((ws.zip (List.range' s ws.length)).foldl (fun g wk => sSet g (b + wk.2) { val := wk.1 }) g) n =
      if b + s ≤ n ∧ n < b + s + ws.length then { val := ws.getD (n - b - s) 0 } else sGet g n := by
  induction ws generalizing s g with
  | nil => exact (if_neg fun h => by have := h.1; have := h.2; simp only [List.length_nil] at this; omega).symm
  | cons w ws ih =>
    simp only [List.length_cons, List.range'_succ, List.zip_cons_cons, List.foldl_cons, ih, sGet_sSet]
    by_cases h1 : n = b + s
    · subst h1
      rw [if_neg (by omega), if_pos rfl, if_pos ⟨by omega, by omega⟩]
      simp
    · by_cases h2 : b + (s + 1) ≤ n ∧ n < b + (s + 1) + ws.length
      · rw [if_pos h2, if_pos ⟨by omega, by omega⟩]
        have : n - b - s = (n - b - (s + 1)) + 1 := by omega
        simp [this]
      · rw [if_neg h2, if_neg h1, if_neg (by omega)]

theorem sGet_fold_tok (k : Reg) (m b s n : Nat) (g : Group) :
    sGet ((List.range' s m).foldl (fun g j => sSet g (b + j) k) g) n =
      if b + s ≤ n ∧ n < b + s + m then k else sGet g n := by
  induction m generalizing s g with
  | zero => exact (if_neg fun h => by have := h.1; have := h.2; omega).symm
  | succ m ih =>
    simp only [List.range'_succ, List.foldl_cons, ih, sGet_sSet]
    by_cases h1 : n = b + s
    · subst h1
      simp
    · by_cases h2 : b + (s + 1) ≤ n ∧ n < b + (s + 1) + m
      · rw [if_pos h2, if_pos ⟨by omega, by omega⟩]
      · rw [if_neg h2, if_neg h1, if_neg (by omega)]

/-- R40, R41: a result written to a v destination: what every v-register holds then. -/
theorem vGet_writeOut (p : Path) (d : Dst) (g : Group) (t n t' : Nat) (o : ThreadOut) (hd : d.file = .v) (h : t < 128) (h' : t' < 128) :
    vGet (writeOut p d g t o) n t' = if t' = t then regAfter (vGet g n t') (resolve g p d.reg t) n d.n o else vGet g n t' := by
  unfold writeOut regAfter
  cases o with
  | words ws =>
    simp only [hd, outRegs, if_true, List.length_map, List.range_eq_range', vGet_fold_words _ _ _ _ _ _ _ h h']
    by_cases ht : t' = t <;> simp [ht]
  | tok k =>
    simp only [hd, outRegs, List.length_replicate, List.range_eq_range', vGet_fold_tok _ _ _ _ _ _ _ _ h h']
    by_cases ht : t' = t <;> simp [ht]
    split <;> rename_i hx
    · rw [List.getElem?_replicate, if_pos (by omega)]; rfl
    · rfl
  | bool b => simp [outRegs, pSet, vGet]; split <;> rfl
  | idx b e => simp [outRegs, xSet, vGet]
  | keep => simp [outRegs]
  | fresh f => simp [outRegs]

/-- R40, R41: a result written to an s destination: what every s-register holds then. -/
theorem sGet_writeOut (p : Path) (d : Dst) (g : Group) (t n : Nat) (o : ThreadOut) (hd : d.file = .s) :
    sGet (writeOut p d g t o) n = regAfter (sGet g n) d.reg n d.n o := by
  unfold writeOut regAfter
  cases o with
  | words ws =>
    simp only [hd, outRegs, List.length_map, List.range_eq_range', sGet_fold_words]
    simp
  | tok k =>
    simp only [hd, outRegs, List.length_replicate, List.range_eq_range', sGet_fold_tok]
    simp
    split <;> rename_i hx
    · rw [List.getElem?_replicate, if_pos (by omega)]; rfl
    · rfl
  | bool b => simp [outRegs, pSet, sGet]; split <;> rfl
  | idx b e => simp [outRegs, xSet, sGet]
  | keep => simp [outRegs]
  | fresh f => simp [outRegs]

/-- R40, R162: a result written to a predicate. -/
theorem pGet_writeOut (p : Path) (d : Dst) (g : Group) (t n t' : Nat) (o : ThreadOut) (hd : d.file = .p) (h : t < 128) (h' : t' < 128) :
    pGet (writeOut p d g t o) n t' =
      if n = d.reg ∧ n ≠ 0 ∧ t' = t then predAfter (pGet g n t') o else pGet g n t' := by
  unfold writeOut predAfter
  cases o with
  | words ws =>
    simp only [hd]
    have : ∀ (l : List (Word × Nat)) (g : Group), pGet (l.foldl (fun g wk => sSet g (d.reg + wk.2) { val := wk.1 }) g) n t' = pGet g n t' := by
      intro l
      induction l with
      | nil => intro g; rfl
      | cons w l ih => intro g; rw [List.foldl_cons, ih]; rfl
    simp only [reduceCtorEq, if_false]
    rw [this]
    simp
  | tok k => simp only [hd, pGet_pSet _ _ _ _ _ _ h h']; grind
  | bool b => simp only [pGet_pSet _ _ _ _ _ _ h h']; grind
  | idx b e => simp [pGet, xSet]
  | keep => simp
  | fresh f => simp

/-! ## All the results of an instruction -/

/-- The result that a list holds for a thread. -/
def outOf (outs : List (Nat × ThreadOut)) (t : Nat) : ThreadOut := ((outs.find? (·.1 = t)).map (·.2)).getD .keep

theorem outOf_map {β : Type} (l : List β) (k : β → Nat) (f : β → ThreadOut) (hn : (l.map k).Nodup) (x : β) (hx : x ∈ l) :
    outOf (l.map fun y => (k y, f y)) (k x) = f x := by
  induction l with
  | nil => cases hx
  | cons y l ih =>
    simp only [List.map_cons, List.nodup_cons] at hn
    unfold outOf at *
    rw [List.map_cons, List.find?_cons]
    by_cases h : k y = k x
    · rcases List.mem_cons.mp hx with h' | h'
      · simp [h, h']
      · exact absurd (h ▸ List.mem_map_of_mem h') hn.1
    · simp only [h, decide_false]
      exact ih hn.2 ((List.mem_cons.mp hx).resolve_left fun e => h (e ▸ rfl))

theorem outOf_absent (outs : List (Nat × ThreadOut)) (t : Nat) (h : t ∉ outs.map (·.1)) : outOf outs t = .keep := by
  have : outs.find? (·.1 = t) = none := by
    rw [List.find?_eq_none]
    intro o ho e
    exact h (List.mem_map.mpr ⟨o, ho, by simpa using e⟩)
  simp [outOf, this]

theorem outOf_cons (o : Nat × ThreadOut) (outs : List (Nat × ThreadOut)) (t : Nat) :
    outOf (o :: outs) t = if o.1 = t then o.2 else outOf outs t := by
  unfold outOf
  rw [List.find?_cons]
  by_cases h : o.1 = t <;> simp [h]

theorem regAfter_keep (old : Reg) (b n w : Nat) : regAfter old b n w .keep = old := rfl

/-- Every v-register after the results of an instruction with a v destination are written. -/
theorem vGet_writes (p : Path) (d : Dst) (outs : List (Nat × ThreadOut)) (g : Group) (n t : Nat) (hd : d.file = .v)
    (hn : (outs.map (·.1)).Nodup) (hlt : ∀ o ∈ outs, o.1 < 128) (ht : t < 128) :
    vGet (outs.foldl (fun g o => writeOut p d g o.1 o.2) g) n t = regAfter (vGet g n t) (resolve g p d.reg t) n d.n (outOf outs t) := by
  induction outs generalizing g with
  | nil => rfl
  | cons o outs ih =>
    simp only [List.map_cons, List.nodup_cons] at hn
    have h0 := hlt o (List.mem_cons_self ..)
    rw [List.foldl_cons, ih _ hn.2 fun o ho => hlt o (List.mem_cons_of_mem _ ho), vGet_writeOut _ _ _ _ _ _ _ hd h0 ht,
      resolve_sameButRegs _ _ (sameButRegs_writeOut ..), outOf_cons]
    by_cases h : o.1 = t
    · subst h
      simp [outOf_absent _ _ hn.1, regAfter_keep]
    · simp [h, Ne.symm h]

/-- Every s-register after the one result of an instruction with an s destination is written. -/
theorem sGet_writes (p : Path) (d : Dst) (o : Nat × ThreadOut) (g : Group) (n : Nat) (hd : d.file = .s) :
    sGet ([o].foldl (fun g o => writeOut p d g o.1 o.2) g) n = regAfter (sGet g n) d.reg n d.n o.2 :=
  sGet_writeOut p d g o.1 n o.2 hd

/-- Every predicate after the results of an instruction with a predicate destination are written. -/
theorem pGet_writes (p : Path) (d : Dst) (outs : List (Nat × ThreadOut)) (g : Group) (n t : Nat) (hd : d.file = .p)
    (hn : (outs.map (·.1)).Nodup) (hlt : ∀ o ∈ outs, o.1 < 128) (ht : t < 128) :
    pGet (outs.foldl (fun g o => writeOut p d g o.1 o.2) g) n t =
      if n = d.reg ∧ n ≠ 0 then predAfter (pGet g n t) (outOf outs t) else pGet g n t := by
  induction outs generalizing g with
  | nil => simp [outOf, predAfter]
  | cons o outs ih =>
    simp only [List.map_cons, List.nodup_cons] at hn
    have h0 := hlt o (List.mem_cons_self ..)
    rw [List.foldl_cons, ih _ hn.2 fun o ho => hlt o (List.mem_cons_of_mem _ ho), pGet_writeOut _ _ _ _ _ _ _ hd h0 ht, outOf_cons]
    by_cases h : o.1 = t
    · subst h
      rw [outOf_absent _ _ hn.1]
      simp only [predAfter, and_true, if_true]
      cases o.2 <;> grind
    · simp [h, Ne.symm h]

theorem xGet_writeOut (p : Path) (d : Dst) (g : Group) (t n t' : Nat) (o : ThreadOut) (hd : d.file = .x) (h : t < 128) (h' : t' < 128) :
    xGet (writeOut p d g t o) n t' = if n = d.reg ∧ t' = t then idxAfter (xGet g n t') o else xGet g n t' := by
  unfold writeOut idxAfter
  cases o with
  | words ws =>
    have : ∀ (l : List (Word × Nat)) (g : Group), xGet (l.foldl (fun g wk => sSet g (d.reg + wk.2) { val := wk.1 }) g) n t' = xGet g n t' := by
      intro l
      induction l with
      | nil => intro g; rfl
      | cons w l ih => intro g; rw [List.foldl_cons, ih]; rfl
    simp only [hd, reduceCtorEq, if_false]
    rw [this]
    simp
  | tok k => simp only [hd, xGet_xSet _ _ _ _ _ _ h h']
  | bool b => simp [pSet, xGet]; split <;> rfl
  | idx b e => simp only [xGet_xSet _ _ _ _ _ _ h h']
  | keep => simp
  | fresh f => simp

/-- Every index register after the results of an instruction with an index destination are written. -/
theorem xGet_writes (p : Path) (d : Dst) (outs : List (Nat × ThreadOut)) (g : Group) (n t : Nat) (hd : d.file = .x)
    (hn : (outs.map (·.1)).Nodup) (hlt : ∀ o ∈ outs, o.1 < 128) (ht : t < 128) :
    xGet (outs.foldl (fun g o => writeOut p d g o.1 o.2) g) n t =
      if n = d.reg then idxAfter (xGet g n t) (outOf outs t) else xGet g n t := by
  induction outs generalizing g with
  | nil => simp [outOf, idxAfter]
  | cons o outs ih =>
    simp only [List.map_cons, List.nodup_cons] at hn
    have h0 := hlt o (List.mem_cons_self ..)
    rw [List.foldl_cons, ih _ hn.2 fun o ho => hlt o (List.mem_cons_of_mem _ ho), xGet_writeOut _ _ _ _ _ _ _ hd h0 ht, outOf_cons]
    by_cases h : o.1 = t
    · subst h
      rw [outOf_absent _ _ hn.1]
      simp only [idxAfter, and_true, if_true]
      cases o.2 <;> grind
    · simp [h, Ne.symm h]

/-! ## Files that a destination leaves alone -/

theorem writes_keep {β : Type} (p : Path) (d : Dst) (outs : List (Nat × ThreadOut)) (view : Group → β)
    (hw : ∀ g t o, view (writeOut p d g t o) = view g) (g : Group) :
    view (outs.foldl (fun g o => writeOut p d g o.1 o.2) g) = view g := by
  induction outs generalizing g with
  | nil => rfl
  | cons o outs ih => rw [List.foldl_cons, ih, hw]

/-- The kinds of result that a destination of a file takes. -/
def ThreadOut.fits (f : File) : ThreadOut → Bool
  | .words _ => f = .v || f = .s
  | .bool _ => f = .p
  | .idx _ _ => f = .x
  | _ => true

theorem writeOut_v (p : Path) (d : Dst) (g : Group) (t : Nat) (o : ThreadOut) (hd : d.file ≠ .v) : (writeOut p d g t o).v = g.v := by
  have hs : ∀ (l : List (Word × Nat)) (b : Nat) (g : Group), (l.foldl (fun g wk => sSet g (b + wk.2) { val := wk.1 }) g).v = g.v := by
    intro l b
    induction l with
    | nil => intro g; rfl
    | cons w l ih => intro g; rw [List.foldl_cons, ih]; rfl
  have hs' : ∀ (l : List Nat) (b : Nat) (r : Reg) (g : Group), (l.foldl (fun g j => sSet g (b + j) r) g).v = g.v := by
    intro l b r
    induction l with
    | nil => intro g; rfl
    | cons w l ih => intro g; rw [List.foldl_cons, ih]; rfl
  unfold writeOut pSet xSet
  rcases d with ⟨f, r, n⟩
  cases f <;> cases o <;> simp_all <;> (try split) <;> rfl

theorem writeOut_sr (p : Path) (d : Dst) (g : Group) (t : Nat) (o : ThreadOut) (hd : d.file ≠ .s) (ho : o.fits d.file = true) :
    (writeOut p d g t o).sr = g.sr := by
  have hs : ∀ (l : List (Word × Nat)) (b t : Nat) (g : Group), (l.foldl (fun g wk => vSet g (b + wk.2) t { val := wk.1 }) g).sr = g.sr := by
    intro l b t
    induction l with
    | nil => intro g; rfl
    | cons w l ih => intro g; rw [List.foldl_cons, ih]; rfl
  have hs' : ∀ (l : List Nat) (b t : Nat) (r : Reg) (g : Group), (l.foldl (fun g j => vSet g (b + j) t r) g).sr = g.sr := by
    intro l b t r
    induction l with
    | nil => intro g; rfl
    | cons w l ih => intro g; rw [List.foldl_cons, ih]; rfl
  unfold writeOut pSet xSet
  rcases d with ⟨f, r, n⟩
  cases f <;> cases o <;> simp_all [ThreadOut.fits] <;> (try split) <;> rfl

theorem writeOut_p (p : Path) (d : Dst) (g : Group) (t : Nat) (o : ThreadOut) (hd : d.file ≠ .p) (ho : o.fits d.file = true) :
    (writeOut p d g t o).p = g.p := by
  have hs : ∀ (l : List (Word × Nat)) (b t : Nat) (g : Group), (l.foldl (fun g wk => vSet g (b + wk.2) t { val := wk.1 }) g).p = g.p := by
    intro l b t
    induction l with
    | nil => intro g; rfl
    | cons w l ih => intro g; rw [List.foldl_cons, ih]; rfl
  have hs' : ∀ (l : List Nat) (b t : Nat) (r : Reg) (g : Group), (l.foldl (fun g j => vSet g (b + j) t r) g).p = g.p := by
    intro l b t r
    induction l with
    | nil => intro g; rfl
    | cons w l ih => intro g; rw [List.foldl_cons, ih]; rfl
  have hr : ∀ (l : List (Word × Nat)) (b : Nat) (g : Group), (l.foldl (fun g wk => sSet g (b + wk.2) { val := wk.1 }) g).p = g.p := by
    intro l b
    induction l with
    | nil => intro g; rfl
    | cons w l ih => intro g; rw [List.foldl_cons, ih]; rfl
  have hr' : ∀ (l : List Nat) (b : Nat) (r : Reg) (g : Group), (l.foldl (fun g j => sSet g (b + j) r) g).p = g.p := by
    intro l b r
    induction l with
    | nil => intro g; rfl
    | cons w l ih => intro g; rw [List.foldl_cons, ih]; rfl
  unfold writeOut xSet
  rcases d with ⟨f, r, n⟩
  cases f <;> cases o <;> first | rfl | simp_all [ThreadOut.fits]

theorem writeOut_x (p : Path) (d : Dst) (g : Group) (t : Nat) (o : ThreadOut) (hd : d.file ≠ .x) (ho : o.fits d.file = true) :
    (writeOut p d g t o).x = g.x := by
  have hs : ∀ (l : List (Word × Nat)) (b t : Nat) (g : Group), (l.foldl (fun g wk => vSet g (b + wk.2) t { val := wk.1 }) g).x = g.x := by
    intro l b t
    induction l with
    | nil => intro g; rfl
    | cons w l ih => intro g; rw [List.foldl_cons, ih]; rfl
  have hs' : ∀ (l : List Nat) (b t : Nat) (r : Reg) (g : Group), (l.foldl (fun g j => vSet g (b + j) t r) g).x = g.x := by
    intro l b t r
    induction l with
    | nil => intro g; rfl
    | cons w l ih => intro g; rw [List.foldl_cons, ih]; rfl
  have hr : ∀ (l : List (Word × Nat)) (b : Nat) (g : Group), (l.foldl (fun g wk => sSet g (b + wk.2) { val := wk.1 }) g).x = g.x := by
    intro l b
    induction l with
    | nil => intro g; rfl
    | cons w l ih => intro g; rw [List.foldl_cons, ih]; rfl
  have hr' : ∀ (l : List Nat) (b : Nat) (r : Reg) (g : Group), (l.foldl (fun g j => sSet g (b + j) r) g).x = g.x := by
    intro l b r
    induction l with
    | nil => intro g; rfl
    | cons w l ih => intro g; rw [List.foldl_cons, ih]; rfl
  unfold writeOut pSet
  rcases d with ⟨f, r, n⟩
  cases f <;> cases o <;> simp_all [ThreadOut.fits] <;> (try split) <;> rfl

/-! ## The pipeline -/

/-- No result is new poison. -/
def noFresh (outs : List (Nat × ThreadOut)) : Prop := ∀ o ∈ outs, ∀ f, o.2 ≠ .fresh f

/-- Results without new poison need no record. -/
theorem settle_noFresh (s : State) (h : Here) (outs : List (Nat × ThreadOut)) (hf : noFresh outs) : settle s h outs = (outs, s) := by
  unfold settle
  simp only
  rw [if_pos]
  rw [List.isEmpty_iff, List.append_nil, List.filterMap_eq_nil_iff]
  intro o ho
  have := hf o ho
  split <;> simp_all

/-- No result is a shadow mismatch where none is new poison. -/
theorem mismatches_noFresh (outs : List (Nat × ThreadOut)) (hf : noFresh outs) : mismatches outs = [] := by
  rw [mismatches, List.filterMap_eq_nil_iff]
  intro o ho
  have := hf o ho
  split <;> simp_all

/-- Results without new poison leave nothing to count. -/
theorem countShadow_noFresh (s : State) (h : Here) (outs made : List (Nat × ThreadOut)) (hf : noFresh outs) :
    countShadow s h outs made = s := by
  simp [countShadow, mismatches_noFresh outs hf]

theorem shadowed_none (s : State) (float : Bool) (t : Nat) (o : ThreadOut) (hs : float = true → s.ctl.shadow.contains t = false) :
    shadowed s float t o = o := by
  cases float <;> cases o <;> simp_all [shadowed]

/-- An instruction that writes results into registers and retires: only its group changes. -/
theorem retire_writeAll (s : State) (h : Here) (hh : s.here = some h) (d : Dst) (outs : List (Nat × ThreadOut)) :
    retire (writeAll s h d outs) h =
      s.setGroup ((outs.foldl (fun g o => writeOut h.p d g o.1 o.2) h.g).goneOn h.pid (nextPc h.p.pc)) := by
  have := sameButRegs_writes h.p d outs h.g
  exact retireAt_modGroup s h hh _ (by rw [this]) _

/-- R219: the mould with its checks passed and its operands ready, where no result is new poison and no empty source is left
behind. -/
theorem alu_next (i : Instr) (s : State) (h : Here) (hh : s.here = some h) (op : AluOp)
    (hc : operandCheck h op.srcs (some op.dst) op.typeOk = none)
    (hr : operandsReady h (aluThreads h op) op.srcs (some op.dst) = true)
    (hf : noFresh ((aluThreads h op).map fun t => (t.1, aluOut s h op t.1 t.2))) (hl : aluLate h op (aluThreads h op) = []) :
    alu i s h op = .next (s.setGroup
      ((((aluThreads h op).map fun t => (t.1, aluOut s h op t.1 t.2)).foldl (fun g o => writeOut h.p op.dst g o.1 o.2) h.g).goneOn
        h.pid (nextPc h.p.pc))) := by
  unfold alu
  simp only [hc, hr, if_true, aluEffect, hl]
  rw [settle_noFresh _ _ _ hf]
  simp only [countShadow_noFresh _ _ _ _ hf, retire_writeAll s h hh]

/-- R177: the mould with a failing check is the illegal-instruction event of its word. -/
theorem alu_reject (i : Instr) (s : State) (h : Here) (op : AluOp) (r : Nat)
    (hc : operandCheck h op.srcs (some op.dst) op.typeOk = some r) : alu i s h op = reject s h i r := by
  simp [alu, hc]

/-- R161: the mould with an operand not ready waits. -/
theorem alu_wait (i : Instr) (s : State) (h : Here) (op : AluOp)
    (hc : operandCheck h op.srcs (some op.dst) op.typeOk = none)
    (hr : operandsReady h (aluThreads h op) op.srcs (some op.dst) = false) : alu i s h op = .next (stall s) := by
  simp [alu, hc, hr]

end Sys2Proof.Machine
end

