-- ==== Sys2Proof/Laws/PerInstr.lean ====
section
/-!
SUPPORT. Statements about each instruction as a word, one lemma for each constructor. The family Format: the word that the
encoder gives an instruction is assigned, has its unused bits clear and reads back as the instruction with every field.
-/

namespace Sys2Proof.Laws

open Sys2Proof

set_option Elab.async false
set_option linter.unusedSimpArgs false
set_option linter.unnecessarySeqFocus false

/-- R153, R174: an instruction word reads back as its instruction, whatever its fields hold. -/
def Format.Statement (i : Instr) : Prop := i.isWord = true → decodeRaw (encode i) = .ok i


/-- R176: a variant of BAR. -/
theorem decodeBar_0 (w : Word) (h : w.extractLsb' 6 2 = 0#2) : decodeBar w =
    need (zeroAt w 4 2 && zeroAt w 8 8 && zeroAt w 21 2) (.barSync (w.extractLsb' 16 5) (w.extractLsb' 0 4)) := by
  rw [decodeBar, h]
  rfl

/-- R176: a variant of BAR. -/
theorem decodeBar_1 (w : Word) (h : w.extractLsb' 6 2 = 1#2) : decodeBar w =
    need (zeroAt w 4 2 && zeroAt w 8 8 && zeroAt w 21 2) (.barArrive (w.extractLsb' 16 5) (w.extractLsb' 0 4)) := by
  rw [decodeBar, h]
  rfl

/-- R176: a variant of BAR. -/
theorem decodeBar_2 (w : Word) (h : w.extractLsb' 6 2 = 2#2) : decodeBar w =
    need (zeroAt w 4 2 && zeroAt w 8 15) (.barWait (w.extractLsb' 0 4)) := by
  rw [decodeBar, h]
  rfl

/-- A word is decoded by the row and the column of its code point. -/
theorem decodeRaw_row (w : Word) (u : Bool) (r c : Nat) (hu : w.getLsbD 31 = u) (hc : (w.extractLsb' 23 4).toNat = c)
    (hr : (w.extractLsb' 27 4).toNat = r) : decodeRaw w = decodeRow u w c r := by
  rw [decodeRaw, hu, hc, hr]

/-- The code point of a word of format V picks its row and its column. -/
theorem decodeRaw_fmtV (cp : BitVec 9) (d : BitVec 7) (ea : Bool) (a : BitVec 7) (eb : Bool) (b : BitVec 7) : decodeRaw (fmtV cp d ea a eb b) =
    decodeRow (cp.getLsbD 8) (fmtV cp d ea a eb b) (cp.extractLsb' 0 4).toNat (cp.extractLsb' 4 4).toNat := by
  simp (disch := omega) only [decodeRaw, fmtV_cp_extract, fmtV_cp_bit, Nat.reduceSub]

/-- The code point of a word of format I picks its row and its column. -/
theorem decodeRaw_fmtI (cp : BitVec 9) (d : BitVec 7) (ea : Bool) (a : BitVec 7) (i : BitVec 8) : decodeRaw (fmtI cp d ea a i) =
    decodeRow (cp.getLsbD 8) (fmtI cp d ea a i) (cp.extractLsb' 0 4).toNat (cp.extractLsb' 4 4).toNat := by
  simp (disch := omega) only [decodeRaw, fmtI_cp_extract, fmtI_cp_bit, Nat.reduceSub]

/-- The code point of a word of format W picks its row and its column. -/
theorem decodeRaw_fmtW (cp : BitVec 9) (d : BitVec 7) (i : BitVec 16) : decodeRaw (fmtW cp d i) =
    decodeRow (cp.getLsbD 8) (fmtW cp d i) (cp.extractLsb' 0 4).toNat (cp.extractLsb' 4 4).toNat := by
  simp (disch := omega) only [decodeRaw, fmtW_cp_extract, fmtW_cp_bit, Nat.reduceSub]

/-- The code point of a word of format B picks its row and its column. -/
theorem decodeRaw_fmtB (cp : BitVec 9) (t : BitVec 4) (o : BitVec 19) : decodeRaw (fmtB cp t o) =
    decodeRow (cp.getLsbD 8) (fmtB cp t o) (cp.extractLsb' 0 4).toNat (cp.extractLsb' 4 4).toNat := by
  simp (disch := omega) only [decodeRaw, fmtB_cp_extract, fmtB_cp_bit, Nat.reduceSub]

theorem Format.bra p s o : Format.Statement (.bra p s o) := by
  intro _
  refine (decodeRaw_fmtB 1#9 (p ++ BitVec.ofBool s) o).trans ?_
  change Except.ok (Instr.bra (BitVec.extractLsb' 20 3 _) (BitVec.getLsbD _ 19) (wo _)) = _
  simp (disch := decide) only [need, wd, we, wa, wf, wb, wi, wh, wo, zeroAt, fmtB_o_extract, fmtB_o_bit, fmtB_t_extract, fmtB_t_bit, parts_3_1_lo_extract, parts_3_1_hi_extract, parts_3_1_lo_bit, parts_3_1_hi_bit, BitVec.extractLsb'_eq_self, BitVec.getLsbD_ofBool] <;> simp
theorem Format.brc p s o : Format.Statement (.brc p s o) := by
  intro _
  refine (decodeRaw_fmtB 2#9 (p ++ BitVec.ofBool s) o).trans ?_
  change Except.ok (Instr.brc (BitVec.extractLsb' 20 3 _) (BitVec.getLsbD _ 19) (wo _)) = _
  simp (disch := decide) only [need, wd, we, wa, wf, wb, wi, wh, wo, zeroAt, fmtB_o_extract, fmtB_o_bit, fmtB_t_extract, fmtB_t_bit, parts_3_1_lo_extract, parts_3_1_hi_extract, parts_3_1_lo_bit, parts_3_1_hi_bit, BitVec.extractLsb'_eq_self, BitVec.getLsbD_ofBool] <;> simp
theorem Format.call o : Format.Statement (.call o) := by
  intro _
  refine (decodeRaw_fmtB 3#9 0#4 o).trans ?_
  change need (zeroAt _ 19 4) (Instr.call (wo _)) = _
  simp (disch := decide) only [need, wd, we, wa, wf, wb, wi, wh, wo, zeroAt, fmtB_o_extract, fmtB_o_bit, fmtB_t_extract, fmtB_t_bit, BitVec.extractLsb'_eq_self, BitVec.getLsbD_ofBool] <;> simp
theorem Format.reconv o : Format.Statement (.reconv o) := by
  intro _
  refine (decodeRaw_fmtB 4#9 0#4 o).trans ?_
  change need (zeroAt _ 19 4) (Instr.reconv (wo _)) = _
  simp (disch := decide) only [need, wd, we, wa, wf, wb, wi, wh, wo, zeroAt, fmtB_o_extract, fmtB_o_bit, fmtB_t_extract, fmtB_t_bit, BitVec.extractLsb'_eq_self, BitVec.getLsbD_ofBool] <;> simp
theorem Format.span c o : Format.Statement (.span c o) := by
  intro _
  refine (decodeRaw_fmtB 5#9 (0#1 ++ c ++ 0#1) o).trans ?_
  change need (zeroAt _ 19 1 && zeroAt _ 22 1) (Instr.span (BitVec.extractLsb' 20 2 _) (wo _)) = _
  simp (disch := decide) only [need, wd, we, wa, wf, wb, wi, wh, wo, zeroAt, fmtB_o_extract, fmtB_o_bit, fmtB_t_extract, fmtB_t_bit, parts_1_2_1_lo_extract, parts_1_2_1_mid_extract, parts_1_2_1_hi_extract, parts_1_2_1_lo_bit, parts_1_2_1_mid_bit, parts_1_2_1_hi_bit, BitVec.extractLsb'_eq_self, BitVec.getLsbD_ofBool] <;> simp
theorem Format.commit c o : Format.Statement (.commit c o) := by
  intro _
  refine (decodeRaw_fmtB 6#9 (0#1 ++ c ++ 0#1) o).trans ?_
  change need (zeroAt _ 19 1 && zeroAt _ 22 1) (Instr.commit (BitVec.extractLsb' 20 2 _) (wo _)) = _
  simp (disch := decide) only [need, wd, we, wa, wf, wb, wi, wh, wo, zeroAt, fmtB_o_extract, fmtB_o_bit, fmtB_t_extract, fmtB_t_bit, parts_1_2_1_lo_extract, parts_1_2_1_mid_extract, parts_1_2_1_hi_extract, parts_1_2_1_lo_bit, parts_1_2_1_mid_bit, parts_1_2_1_hi_bit, BitVec.extractLsb'_eq_self, BitVec.getLsbD_ofBool] <;> simp
theorem Format.brx ea a : Format.Statement (.brx ea a) := by
  intro _
  refine (decodeRaw_fmtI 8#9 0#7 ea a 0#8).trans ?_
  change need (zeroAt _ 0 8 && zeroAt _ 16 7) (Instr.brx (we _) (wa _)) = _
  simp (disch := decide) only [need, wd, we, wa, wf, wb, wi, wh, wo, zeroAt, fmtI_i_extract, fmtI_i_bit, fmtI_a_extract, fmtI_a_bit, fmtI_ea_extract, fmtI_ea_bit, fmtI_d_extract, fmtI_d_bit, BitVec.extractLsb'_eq_self, BitVec.getLsbD_ofBool] <;> simp
theorem Format.callx ea a : Format.Statement (.callx ea a) := by
  intro _
  refine (decodeRaw_fmtI 9#9 0#7 ea a 0#8).trans ?_
  change need (zeroAt _ 0 8 && zeroAt _ 16 7) (Instr.callx (we _) (wa _)) = _
  simp (disch := decide) only [need, wd, we, wa, wf, wb, wi, wh, wo, zeroAt, fmtI_i_extract, fmtI_i_bit, fmtI_a_extract, fmtI_a_bit, fmtI_ea_extract, fmtI_ea_bit, fmtI_d_extract, fmtI_d_bit, BitVec.extractLsb'_eq_self, BitVec.getLsbD_ofBool] <;> simp
theorem Format.meld ea p : Format.Statement (.meld ea p) := by
  intro _
  refine (decodeRaw_fmtI 13#9 0#7 ea (0#4 ++ p) 0#8).trans ?_
  change need (zeroAt _ 0 8 && zeroAt _ 11 4 && zeroAt _ 16 7) (Instr.meld (we _) (BitVec.extractLsb' 8 3 _)) = _
  simp (disch := decide) only [need, wd, we, wa, wf, wb, wi, wh, wo, zeroAt, fmtI_i_extract, fmtI_i_bit, fmtI_a_extract, fmtI_a_bit, fmtI_ea_extract, fmtI_ea_bit, fmtI_d_extract, fmtI_d_bit, parts_4_3_lo_extract, parts_4_3_hi_extract, parts_4_3_lo_bit, parts_4_3_hi_bit, BitVec.extractLsb'_eq_self, BitVec.getLsbD_ofBool] <;> simp
theorem Format.rnset n a b : Format.Statement (.rnset n a b) := by
  intro _
  refine (decodeRaw_fmtI 15#9 (0#3 ++ n) false a (0#1 ++ b)).trans ?_
  change need (zeroAt _ 7 1 && zeroAt _ 15 1 && zeroAt _ 20 3) (Instr.rnset (BitVec.extractLsb' 16 4 _) (wa _) (wb _)) = _
  simp (disch := decide) only [need, wd, we, wa, wf, wb, wi, wh, wo, zeroAt, fmtI_i_extract, fmtI_i_bit, fmtI_a_extract, fmtI_a_bit, fmtI_ea_extract, fmtI_ea_bit, fmtI_d_extract, fmtI_d_bit, parts_1_7_lo_extract, parts_1_7_hi_extract, parts_1_7_lo_bit, parts_1_7_hi_bit, parts_3_4_lo_extract, parts_3_4_hi_extract, parts_3_4_lo_bit, parts_3_4_hi_bit, BitVec.extractLsb'_eq_self, BitVec.getLsbD_ofBool] <;> simp
theorem Format.add d ea a eb b : Format.Statement (.add d ea a eb b) := by
  intro _
  refine (decodeRaw_fmtV 16#9 d ea a eb b).trans ?_
  change Except.ok (Instr.add (wd _) (we _) (wa _) (wf _) (wb _)) = _
  simp (disch := decide) only [need, wd, we, wa, wf, wb, wi, wh, wo, zeroAt, fmtV_b_extract, fmtV_b_bit, fmtV_eb_extract, fmtV_eb_bit, fmtV_a_extract, fmtV_a_bit, fmtV_ea_extract, fmtV_ea_bit, fmtV_d_extract, fmtV_d_bit, BitVec.extractLsb'_eq_self, BitVec.getLsbD_ofBool] <;> simp
theorem Format.addU d ea a eb b : Format.Statement (.addU d ea a eb b) := by
  intro _
  refine (decodeRaw_fmtV 272#9 d ea a eb b).trans ?_
  change Except.ok (Instr.addU (wd _) (we _) (wa _) (wf _) (wb _)) = _
  simp (disch := decide) only [need, wd, we, wa, wf, wb, wi, wh, wo, zeroAt, fmtV_b_extract, fmtV_b_bit, fmtV_eb_extract, fmtV_eb_bit, fmtV_a_extract, fmtV_a_bit, fmtV_ea_extract, fmtV_ea_bit, fmtV_d_extract, fmtV_d_bit, BitVec.extractLsb'_eq_self, BitVec.getLsbD_ofBool] <;> simp
theorem Format.sub d ea a eb b : Format.Statement (.sub d ea a eb b) := by
  intro _
  refine (decodeRaw_fmtV 17#9 d ea a eb b).trans ?_
  change Except.ok (Instr.sub (wd _) (we _) (wa _) (wf _) (wb _)) = _
  simp (disch := decide) only [need, wd, we, wa, wf, wb, wi, wh, wo, zeroAt, fmtV_b_extract, fmtV_b_bit, fmtV_eb_extract, fmtV_eb_bit, fmtV_a_extract, fmtV_a_bit, fmtV_ea_extract, fmtV_ea_bit, fmtV_d_extract, fmtV_d_bit, BitVec.extractLsb'_eq_self, BitVec.getLsbD_ofBool] <;> simp
theorem Format.subU d ea a eb b : Format.Statement (.subU d ea a eb b) := by
  intro _
  refine (decodeRaw_fmtV 273#9 d ea a eb b).trans ?_
  change Except.ok (Instr.subU (wd _) (we _) (wa _) (wf _) (wb _)) = _
  simp (disch := decide) only [need, wd, we, wa, wf, wb, wi, wh, wo, zeroAt, fmtV_b_extract, fmtV_b_bit, fmtV_eb_extract, fmtV_eb_bit, fmtV_a_extract, fmtV_a_bit, fmtV_ea_extract, fmtV_ea_bit, fmtV_d_extract, fmtV_d_bit, BitVec.extractLsb'_eq_self, BitVec.getLsbD_ofBool] <;> simp
theorem Format.mul d ea a eb b : Format.Statement (.mul d ea a eb b) := by
  intro _
  refine (decodeRaw_fmtV 18#9 d ea a eb b).trans ?_
  change Except.ok (Instr.mul (wd _) (we _) (wa _) (wf _) (wb _)) = _
  simp (disch := decide) only [need, wd, we, wa, wf, wb, wi, wh, wo, zeroAt, fmtV_b_extract, fmtV_b_bit, fmtV_eb_extract, fmtV_eb_bit, fmtV_a_extract, fmtV_a_bit, fmtV_ea_extract, fmtV_ea_bit, fmtV_d_extract, fmtV_d_bit, BitVec.extractLsb'_eq_self, BitVec.getLsbD_ofBool] <;> simp
theorem Format.mulU d ea a eb b : Format.Statement (.mulU d ea a eb b) := by
  intro _
  refine (decodeRaw_fmtV 274#9 d ea a eb b).trans ?_
  change Except.ok (Instr.mulU (wd _) (we _) (wa _) (wf _) (wb _)) = _
  simp (disch := decide) only [need, wd, we, wa, wf, wb, wi, wh, wo, zeroAt, fmtV_b_extract, fmtV_b_bit, fmtV_eb_extract, fmtV_eb_bit, fmtV_a_extract, fmtV_a_bit, fmtV_ea_extract, fmtV_ea_bit, fmtV_d_extract, fmtV_d_bit, BitVec.extractLsb'_eq_self, BitVec.getLsbD_ofBool] <;> simp
theorem Format.mulhi d ea a eb b : Format.Statement (.mulhi d ea a eb b) := by
  intro _
  refine (decodeRaw_fmtV 19#9 d ea a eb b).trans ?_
  change Except.ok (Instr.mulhi (wd _) (we _) (wa _) (wf _) (wb _)) = _
  simp (disch := decide) only [need, wd, we, wa, wf, wb, wi, wh, wo, zeroAt, fmtV_b_extract, fmtV_b_bit, fmtV_eb_extract, fmtV_eb_bit, fmtV_a_extract, fmtV_a_bit, fmtV_ea_extract, fmtV_ea_bit, fmtV_d_extract, fmtV_d_bit, BitVec.extractLsb'_eq_self, BitVec.getLsbD_ofBool] <;> simp
theorem Format.mulhiU d ea a eb b : Format.Statement (.mulhiU d ea a eb b) := by
  intro _
  refine (decodeRaw_fmtV 275#9 d ea a eb b).trans ?_
  change Except.ok (Instr.mulhiU (wd _) (we _) (wa _) (wf _) (wb _)) = _
  simp (disch := decide) only [need, wd, we, wa, wf, wb, wi, wh, wo, zeroAt, fmtV_b_extract, fmtV_b_bit, fmtV_eb_extract, fmtV_eb_bit, fmtV_a_extract, fmtV_a_bit, fmtV_ea_extract, fmtV_ea_bit, fmtV_d_extract, fmtV_d_bit, BitVec.extractLsb'_eq_self, BitVec.getLsbD_ofBool] <;> simp
theorem Format.fma d ea a eb b : Format.Statement (.fma d ea a eb b) := by
  intro _
  refine (decodeRaw_fmtV 20#9 d ea a eb b).trans ?_
  change Except.ok (Instr.fma (wd _) (we _) (wa _) (wf _) (wb _)) = _
  simp (disch := decide) only [need, wd, we, wa, wf, wb, wi, wh, wo, zeroAt, fmtV_b_extract, fmtV_b_bit, fmtV_eb_extract, fmtV_eb_bit, fmtV_a_extract, fmtV_a_bit, fmtV_ea_extract, fmtV_ea_bit, fmtV_d_extract, fmtV_d_bit, BitVec.extractLsb'_eq_self, BitVec.getLsbD_ofBool] <;> simp
theorem Format.fmaU d ea a eb b : Format.Statement (.fmaU d ea a eb b) := by
  intro _
  refine (decodeRaw_fmtV 276#9 d ea a eb b).trans ?_
  change Except.ok (Instr.fmaU (wd _) (we _) (wa _) (wf _) (wb _)) = _
  simp (disch := decide) only [need, wd, we, wa, wf, wb, wi, wh, wo, zeroAt, fmtV_b_extract, fmtV_b_bit, fmtV_eb_extract, fmtV_eb_bit, fmtV_a_extract, fmtV_a_bit, fmtV_ea_extract, fmtV_ea_bit, fmtV_d_extract, fmtV_d_bit, BitVec.extractLsb'_eq_self, BitVec.getLsbD_ofBool] <;> simp
theorem Format.min d ea a eb b : Format.Statement (.min d ea a eb b) := by
  intro _
  refine (decodeRaw_fmtV 21#9 d ea a eb b).trans ?_
  change Except.ok (Instr.min (wd _) (we _) (wa _) (wf _) (wb _)) = _
  simp (disch := decide) only [need, wd, we, wa, wf, wb, wi, wh, wo, zeroAt, fmtV_b_extract, fmtV_b_bit, fmtV_eb_extract, fmtV_eb_bit, fmtV_a_extract, fmtV_a_bit, fmtV_ea_extract, fmtV_ea_bit, fmtV_d_extract, fmtV_d_bit, BitVec.extractLsb'_eq_self, BitVec.getLsbD_ofBool] <;> simp
theorem Format.minU d ea a eb b : Format.Statement (.minU d ea a eb b) := by
  intro _
  refine (decodeRaw_fmtV 277#9 d ea a eb b).trans ?_
  change Except.ok (Instr.minU (wd _) (we _) (wa _) (wf _) (wb _)) = _
  simp (disch := decide) only [need, wd, we, wa, wf, wb, wi, wh, wo, zeroAt, fmtV_b_extract, fmtV_b_bit, fmtV_eb_extract, fmtV_eb_bit, fmtV_a_extract, fmtV_a_bit, fmtV_ea_extract, fmtV_ea_bit, fmtV_d_extract, fmtV_d_bit, BitVec.extractLsb'_eq_self, BitVec.getLsbD_ofBool] <;> simp
theorem Format.max d ea a eb b : Format.Statement (.max d ea a eb b) := by
  intro _
  refine (decodeRaw_fmtV 22#9 d ea a eb b).trans ?_
  change Except.ok (Instr.max (wd _) (we _) (wa _) (wf _) (wb _)) = _
  simp (disch := decide) only [need, wd, we, wa, wf, wb, wi, wh, wo, zeroAt, fmtV_b_extract, fmtV_b_bit, fmtV_eb_extract, fmtV_eb_bit, fmtV_a_extract, fmtV_a_bit, fmtV_ea_extract, fmtV_ea_bit, fmtV_d_extract, fmtV_d_bit, BitVec.extractLsb'_eq_self, BitVec.getLsbD_ofBool] <;> simp
theorem Format.maxU d ea a eb b : Format.Statement (.maxU d ea a eb b) := by
  intro _
  refine (decodeRaw_fmtV 278#9 d ea a eb b).trans ?_
  change Except.ok (Instr.maxU (wd _) (we _) (wa _) (wf _) (wb _)) = _
  simp (disch := decide) only [need, wd, we, wa, wf, wb, wi, wh, wo, zeroAt, fmtV_b_extract, fmtV_b_bit, fmtV_eb_extract, fmtV_eb_bit, fmtV_a_extract, fmtV_a_bit, fmtV_ea_extract, fmtV_ea_bit, fmtV_d_extract, fmtV_d_bit, BitVec.extractLsb'_eq_self, BitVec.getLsbD_ofBool] <;> simp
theorem Format.div d ea a eb b : Format.Statement (.div d ea a eb b) := by
  intro _
  refine (decodeRaw_fmtV 23#9 d ea a eb b).trans ?_
  change Except.ok (Instr.div (wd _) (we _) (wa _) (wf _) (wb _)) = _
  simp (disch := decide) only [need, wd, we, wa, wf, wb, wi, wh, wo, zeroAt, fmtV_b_extract, fmtV_b_bit, fmtV_eb_extract, fmtV_eb_bit, fmtV_a_extract, fmtV_a_bit, fmtV_ea_extract, fmtV_ea_bit, fmtV_d_extract, fmtV_d_bit, BitVec.extractLsb'_eq_self, BitVec.getLsbD_ofBool] <;> simp
theorem Format.divU d ea a eb b : Format.Statement (.divU d ea a eb b) := by
  intro _
  refine (decodeRaw_fmtV 279#9 d ea a eb b).trans ?_
  change Except.ok (Instr.divU (wd _) (we _) (wa _) (wf _) (wb _)) = _
  simp (disch := decide) only [need, wd, we, wa, wf, wb, wi, wh, wo, zeroAt, fmtV_b_extract, fmtV_b_bit, fmtV_eb_extract, fmtV_eb_bit, fmtV_a_extract, fmtV_a_bit, fmtV_ea_extract, fmtV_ea_bit, fmtV_d_extract, fmtV_d_bit, BitVec.extractLsb'_eq_self, BitVec.getLsbD_ofBool] <;> simp
theorem Format.rem d ea a eb b : Format.Statement (.rem d ea a eb b) := by
  intro _
  refine (decodeRaw_fmtV 24#9 d ea a eb b).trans ?_
  change Except.ok (Instr.rem (wd _) (we _) (wa _) (wf _) (wb _)) = _
  simp (disch := decide) only [need, wd, we, wa, wf, wb, wi, wh, wo, zeroAt, fmtV_b_extract, fmtV_b_bit, fmtV_eb_extract, fmtV_eb_bit, fmtV_a_extract, fmtV_a_bit, fmtV_ea_extract, fmtV_ea_bit, fmtV_d_extract, fmtV_d_bit, BitVec.extractLsb'_eq_self, BitVec.getLsbD_ofBool] <;> simp
theorem Format.remU d ea a eb b : Format.Statement (.remU d ea a eb b) := by
  intro _
  refine (decodeRaw_fmtV 280#9 d ea a eb b).trans ?_
  change Except.ok (Instr.remU (wd _) (we _) (wa _) (wf _) (wb _)) = _
  simp (disch := decide) only [need, wd, we, wa, wf, wb, wi, wh, wo, zeroAt, fmtV_b_extract, fmtV_b_bit, fmtV_eb_extract, fmtV_eb_bit, fmtV_a_extract, fmtV_a_bit, fmtV_ea_extract, fmtV_ea_bit, fmtV_d_extract, fmtV_d_bit, BitVec.extractLsb'_eq_self, BitVec.getLsbD_ofBool] <;> simp
theorem Format.neg d ea a : Format.Statement (.neg d ea a) := by
  intro _
  refine (decodeRaw_fmtI 25#9 d ea a 0#8).trans ?_
  change need (zeroAt _ 0 8) (Instr.neg (wd _) (we _) (wa _)) = _
  simp (disch := decide) only [need, wd, we, wa, wf, wb, wi, wh, wo, zeroAt, fmtI_i_extract, fmtI_i_bit, fmtI_a_extract, fmtI_a_bit, fmtI_ea_extract, fmtI_ea_bit, fmtI_d_extract, fmtI_d_bit, BitVec.extractLsb'_eq_self, BitVec.getLsbD_ofBool] <;> simp
theorem Format.negU d ea a : Format.Statement (.negU d ea a) := by
  intro _
  refine (decodeRaw_fmtI 281#9 d ea a 0#8).trans ?_
  change need (zeroAt _ 0 8) (Instr.negU (wd _) (we _) (wa _)) = _
  simp (disch := decide) only [need, wd, we, wa, wf, wb, wi, wh, wo, zeroAt, fmtI_i_extract, fmtI_i_bit, fmtI_a_extract, fmtI_a_bit, fmtI_ea_extract, fmtI_ea_bit, fmtI_d_extract, fmtI_d_bit, BitVec.extractLsb'_eq_self, BitVec.getLsbD_ofBool] <;> simp
theorem Format.abs d ea a : Format.Statement (.abs d ea a) := by
  intro _
  refine (decodeRaw_fmtI 26#9 d ea a 0#8).trans ?_
  change need (zeroAt _ 0 8) (Instr.abs (wd _) (we _) (wa _)) = _
  simp (disch := decide) only [need, wd, we, wa, wf, wb, wi, wh, wo, zeroAt, fmtI_i_extract, fmtI_i_bit, fmtI_a_extract, fmtI_a_bit, fmtI_ea_extract, fmtI_ea_bit, fmtI_d_extract, fmtI_d_bit, BitVec.extractLsb'_eq_self, BitVec.getLsbD_ofBool] <;> simp
theorem Format.absU d ea a : Format.Statement (.absU d ea a) := by
  intro _
  refine (decodeRaw_fmtI 282#9 d ea a 0#8).trans ?_
  change need (zeroAt _ 0 8) (Instr.absU (wd _) (we _) (wa _)) = _
  simp (disch := decide) only [need, wd, we, wa, wf, wb, wi, wh, wo, zeroAt, fmtI_i_extract, fmtI_i_bit, fmtI_a_extract, fmtI_a_bit, fmtI_ea_extract, fmtI_ea_bit, fmtI_d_extract, fmtI_d_bit, BitVec.extractLsb'_eq_self, BitVec.getLsbD_ofBool] <;> simp
theorem Format.sel d ea a eb b : Format.Statement (.sel d ea a eb b) := by
  intro _
  refine (decodeRaw_fmtV 27#9 d ea a eb b).trans ?_
  change Except.ok (Instr.sel (wd _) (we _) (wa _) (wf _) (wb _)) = _
  simp (disch := decide) only [need, wd, we, wa, wf, wb, wi, wh, wo, zeroAt, fmtV_b_extract, fmtV_b_bit, fmtV_eb_extract, fmtV_eb_bit, fmtV_a_extract, fmtV_a_bit, fmtV_ea_extract, fmtV_ea_bit, fmtV_d_extract, fmtV_d_bit, BitVec.extractLsb'_eq_self, BitVec.getLsbD_ofBool] <;> simp
theorem Format.add64 d ea a eb b : Format.Statement (.add64 d ea a eb b) := by
  intro _
  refine (decodeRaw_fmtV 28#9 d ea a eb b).trans ?_
  change Except.ok (Instr.add64 (wd _) (we _) (wa _) (wf _) (wb _)) = _
  simp (disch := decide) only [need, wd, we, wa, wf, wb, wi, wh, wo, zeroAt, fmtV_b_extract, fmtV_b_bit, fmtV_eb_extract, fmtV_eb_bit, fmtV_a_extract, fmtV_a_bit, fmtV_ea_extract, fmtV_ea_bit, fmtV_d_extract, fmtV_d_bit, BitVec.extractLsb'_eq_self, BitVec.getLsbD_ofBool] <;> simp
theorem Format.add64U d ea a eb b : Format.Statement (.add64U d ea a eb b) := by
  intro _
  refine (decodeRaw_fmtV 284#9 d ea a eb b).trans ?_
  change Except.ok (Instr.add64U (wd _) (we _) (wa _) (wf _) (wb _)) = _
  simp (disch := decide) only [need, wd, we, wa, wf, wb, wi, wh, wo, zeroAt, fmtV_b_extract, fmtV_b_bit, fmtV_eb_extract, fmtV_eb_bit, fmtV_a_extract, fmtV_a_bit, fmtV_ea_extract, fmtV_ea_bit, fmtV_d_extract, fmtV_d_bit, BitVec.extractLsb'_eq_self, BitVec.getLsbD_ofBool] <;> simp
theorem Format.lea d ea a eb b : Format.Statement (.lea d ea a eb b) := by
  intro _
  refine (decodeRaw_fmtV 29#9 d ea a eb b).trans ?_
  change Except.ok (Instr.lea (wd _) (we _) (wa _) (wf _) (wb _)) = _
  simp (disch := decide) only [need, wd, we, wa, wf, wb, wi, wh, wo, zeroAt, fmtV_b_extract, fmtV_b_bit, fmtV_eb_extract, fmtV_eb_bit, fmtV_a_extract, fmtV_a_bit, fmtV_ea_extract, fmtV_ea_bit, fmtV_d_extract, fmtV_d_bit, BitVec.extractLsb'_eq_self, BitVec.getLsbD_ofBool] <;> simp
theorem Format.leaU d ea a eb b : Format.Statement (.leaU d ea a eb b) := by
  intro _
  refine (decodeRaw_fmtV 285#9 d ea a eb b).trans ?_
  change Except.ok (Instr.leaU (wd _) (we _) (wa _) (wf _) (wb _)) = _
  simp (disch := decide) only [need, wd, we, wa, wf, wb, wi, wh, wo, zeroAt, fmtV_b_extract, fmtV_b_bit, fmtV_eb_extract, fmtV_eb_bit, fmtV_a_extract, fmtV_a_bit, fmtV_ea_extract, fmtV_ea_bit, fmtV_d_extract, fmtV_d_bit, BitVec.extractLsb'_eq_self, BitVec.getLsbD_ofBool] <;> simp
theorem Format.cmp c p ea a eb b : Format.Statement (.cmp c p ea a eb b) := by
  intro _
  refine (decodeRaw_fmtV 30#9 (c ++ p) ea a eb b).trans ?_
  change Except.ok (Instr.cmp (BitVec.extractLsb' 19 4 _) (BitVec.extractLsb' 16 3 _) (we _) (wa _) (wf _) (wb _)) = _
  simp (disch := decide) only [need, wd, we, wa, wf, wb, wi, wh, wo, zeroAt, fmtV_b_extract, fmtV_b_bit, fmtV_eb_extract, fmtV_eb_bit, fmtV_a_extract, fmtV_a_bit, fmtV_ea_extract, fmtV_ea_bit, fmtV_d_extract, fmtV_d_bit, parts_4_3_lo_extract, parts_4_3_hi_extract, parts_4_3_lo_bit, parts_4_3_hi_bit, BitVec.extractLsb'_eq_self, BitVec.getLsbD_ofBool] <;> simp
theorem Format.classP p ea a m : Format.Statement (.classP p ea a m) := by
  intro _
  refine (decodeRaw_fmtI 31#9 (0#4 ++ p) ea a m).trans ?_
  change need (zeroAt _ 19 4) (Instr.classP (BitVec.extractLsb' 16 3 _) (we _) (wa _) (wi _)) = _
  simp (disch := decide) only [need, wd, we, wa, wf, wb, wi, wh, wo, zeroAt, fmtI_i_extract, fmtI_i_bit, fmtI_a_extract, fmtI_a_bit, fmtI_ea_extract, fmtI_ea_bit, fmtI_d_extract, fmtI_d_bit, parts_4_3_lo_extract, parts_4_3_hi_extract, parts_4_3_lo_bit, parts_4_3_hi_bit, BitVec.extractLsb'_eq_self, BitVec.getLsbD_ofBool] <;> simp
theorem Format.and d ea a eb b : Format.Statement (.and d ea a eb b) := by
  intro _
  refine (decodeRaw_fmtV 32#9 d ea a eb b).trans ?_
  change Except.ok (Instr.and (wd _) (we _) (wa _) (wf _) (wb _)) = _
  simp (disch := decide) only [need, wd, we, wa, wf, wb, wi, wh, wo, zeroAt, fmtV_b_extract, fmtV_b_bit, fmtV_eb_extract, fmtV_eb_bit, fmtV_a_extract, fmtV_a_bit, fmtV_ea_extract, fmtV_ea_bit, fmtV_d_extract, fmtV_d_bit, BitVec.extractLsb'_eq_self, BitVec.getLsbD_ofBool] <;> simp
theorem Format.andU d ea a eb b : Format.Statement (.andU d ea a eb b) := by
  intro _
  refine (decodeRaw_fmtV 288#9 d ea a eb b).trans ?_
  change Except.ok (Instr.andU (wd _) (we _) (wa _) (wf _) (wb _)) = _
  simp (disch := decide) only [need, wd, we, wa, wf, wb, wi, wh, wo, zeroAt, fmtV_b_extract, fmtV_b_bit, fmtV_eb_extract, fmtV_eb_bit, fmtV_a_extract, fmtV_a_bit, fmtV_ea_extract, fmtV_ea_bit, fmtV_d_extract, fmtV_d_bit, BitVec.extractLsb'_eq_self, BitVec.getLsbD_ofBool] <;> simp
theorem Format.or d ea a eb b : Format.Statement (.or d ea a eb b) := by
  intro _
  refine (decodeRaw_fmtV 33#9 d ea a eb b).trans ?_
  change Except.ok (Instr.or (wd _) (we _) (wa _) (wf _) (wb _)) = _
  simp (disch := decide) only [need, wd, we, wa, wf, wb, wi, wh, wo, zeroAt, fmtV_b_extract, fmtV_b_bit, fmtV_eb_extract, fmtV_eb_bit, fmtV_a_extract, fmtV_a_bit, fmtV_ea_extract, fmtV_ea_bit, fmtV_d_extract, fmtV_d_bit, BitVec.extractLsb'_eq_self, BitVec.getLsbD_ofBool] <;> simp
theorem Format.orU d ea a eb b : Format.Statement (.orU d ea a eb b) := by
  intro _
  refine (decodeRaw_fmtV 289#9 d ea a eb b).trans ?_
  change Except.ok (Instr.orU (wd _) (we _) (wa _) (wf _) (wb _)) = _
  simp (disch := decide) only [need, wd, we, wa, wf, wb, wi, wh, wo, zeroAt, fmtV_b_extract, fmtV_b_bit, fmtV_eb_extract, fmtV_eb_bit, fmtV_a_extract, fmtV_a_bit, fmtV_ea_extract, fmtV_ea_bit, fmtV_d_extract, fmtV_d_bit, BitVec.extractLsb'_eq_self, BitVec.getLsbD_ofBool] <;> simp
theorem Format.xor d ea a eb b : Format.Statement (.xor d ea a eb b) := by
  intro _
  refine (decodeRaw_fmtV 34#9 d ea a eb b).trans ?_
  change Except.ok (Instr.xor (wd _) (we _) (wa _) (wf _) (wb _)) = _
  simp (disch := decide) only [need, wd, we, wa, wf, wb, wi, wh, wo, zeroAt, fmtV_b_extract, fmtV_b_bit, fmtV_eb_extract, fmtV_eb_bit, fmtV_a_extract, fmtV_a_bit, fmtV_ea_extract, fmtV_ea_bit, fmtV_d_extract, fmtV_d_bit, BitVec.extractLsb'_eq_self, BitVec.getLsbD_ofBool] <;> simp
theorem Format.xorU d ea a eb b : Format.Statement (.xorU d ea a eb b) := by
  intro _
  refine (decodeRaw_fmtV 290#9 d ea a eb b).trans ?_
  change Except.ok (Instr.xorU (wd _) (we _) (wa _) (wf _) (wb _)) = _
  simp (disch := decide) only [need, wd, we, wa, wf, wb, wi, wh, wo, zeroAt, fmtV_b_extract, fmtV_b_bit, fmtV_eb_extract, fmtV_eb_bit, fmtV_a_extract, fmtV_a_bit, fmtV_ea_extract, fmtV_ea_bit, fmtV_d_extract, fmtV_d_bit, BitVec.extractLsb'_eq_self, BitVec.getLsbD_ofBool] <;> simp
theorem Format.not d ea a : Format.Statement (.not d ea a) := by
  intro _
  refine (decodeRaw_fmtI 35#9 d ea a 0#8).trans ?_
  change need (zeroAt _ 0 8) (Instr.not (wd _) (we _) (wa _)) = _
  simp (disch := decide) only [need, wd, we, wa, wf, wb, wi, wh, wo, zeroAt, fmtI_i_extract, fmtI_i_bit, fmtI_a_extract, fmtI_a_bit, fmtI_ea_extract, fmtI_ea_bit, fmtI_d_extract, fmtI_d_bit, BitVec.extractLsb'_eq_self, BitVec.getLsbD_ofBool] <;> simp
theorem Format.notU d ea a : Format.Statement (.notU d ea a) := by
  intro _
  refine (decodeRaw_fmtI 291#9 d ea a 0#8).trans ?_
  change need (zeroAt _ 0 8) (Instr.notU (wd _) (we _) (wa _)) = _
  simp (disch := decide) only [need, wd, we, wa, wf, wb, wi, wh, wo, zeroAt, fmtI_i_extract, fmtI_i_bit, fmtI_a_extract, fmtI_a_bit, fmtI_ea_extract, fmtI_ea_bit, fmtI_d_extract, fmtI_d_bit, BitVec.extractLsb'_eq_self, BitVec.getLsbD_ofBool] <;> simp
theorem Format.shl d ea a eb b : Format.Statement (.shl d ea a eb b) := by
  intro _
  refine (decodeRaw_fmtV 36#9 d ea a eb b).trans ?_
  change Except.ok (Instr.shl (wd _) (we _) (wa _) (wf _) (wb _)) = _
  simp (disch := decide) only [need, wd, we, wa, wf, wb, wi, wh, wo, zeroAt, fmtV_b_extract, fmtV_b_bit, fmtV_eb_extract, fmtV_eb_bit, fmtV_a_extract, fmtV_a_bit, fmtV_ea_extract, fmtV_ea_bit, fmtV_d_extract, fmtV_d_bit, BitVec.extractLsb'_eq_self, BitVec.getLsbD_ofBool] <;> simp
theorem Format.shlU d ea a eb b : Format.Statement (.shlU d ea a eb b) := by
  intro _
  refine (decodeRaw_fmtV 292#9 d ea a eb b).trans ?_
  change Except.ok (Instr.shlU (wd _) (we _) (wa _) (wf _) (wb _)) = _
  simp (disch := decide) only [need, wd, we, wa, wf, wb, wi, wh, wo, zeroAt, fmtV_b_extract, fmtV_b_bit, fmtV_eb_extract, fmtV_eb_bit, fmtV_a_extract, fmtV_a_bit, fmtV_ea_extract, fmtV_ea_bit, fmtV_d_extract, fmtV_d_bit, BitVec.extractLsb'_eq_self, BitVec.getLsbD_ofBool] <;> simp
theorem Format.shr d ea a eb b : Format.Statement (.shr d ea a eb b) := by
  intro _
  refine (decodeRaw_fmtV 37#9 d ea a eb b).trans ?_
  change Except.ok (Instr.shr (wd _) (we _) (wa _) (wf _) (wb _)) = _
  simp (disch := decide) only [need, wd, we, wa, wf, wb, wi, wh, wo, zeroAt, fmtV_b_extract, fmtV_b_bit, fmtV_eb_extract, fmtV_eb_bit, fmtV_a_extract, fmtV_a_bit, fmtV_ea_extract, fmtV_ea_bit, fmtV_d_extract, fmtV_d_bit, BitVec.extractLsb'_eq_self, BitVec.getLsbD_ofBool] <;> simp
theorem Format.shrU d ea a eb b : Format.Statement (.shrU d ea a eb b) := by
  intro _
  refine (decodeRaw_fmtV 293#9 d ea a eb b).trans ?_
  change Except.ok (Instr.shrU (wd _) (we _) (wa _) (wf _) (wb _)) = _
  simp (disch := decide) only [need, wd, we, wa, wf, wb, wi, wh, wo, zeroAt, fmtV_b_extract, fmtV_b_bit, fmtV_eb_extract, fmtV_eb_bit, fmtV_a_extract, fmtV_a_bit, fmtV_ea_extract, fmtV_ea_bit, fmtV_d_extract, fmtV_d_bit, BitVec.extractLsb'_eq_self, BitVec.getLsbD_ofBool] <;> simp
theorem Format.sar d ea a eb b : Format.Statement (.sar d ea a eb b) := by
  intro _
  refine (decodeRaw_fmtV 38#9 d ea a eb b).trans ?_
  change Except.ok (Instr.sar (wd _) (we _) (wa _) (wf _) (wb _)) = _
  simp (disch := decide) only [need, wd, we, wa, wf, wb, wi, wh, wo, zeroAt, fmtV_b_extract, fmtV_b_bit, fmtV_eb_extract, fmtV_eb_bit, fmtV_a_extract, fmtV_a_bit, fmtV_ea_extract, fmtV_ea_bit, fmtV_d_extract, fmtV_d_bit, BitVec.extractLsb'_eq_self, BitVec.getLsbD_ofBool] <;> simp
theorem Format.sarU d ea a eb b : Format.Statement (.sarU d ea a eb b) := by
  intro _
  refine (decodeRaw_fmtV 294#9 d ea a eb b).trans ?_
  change Except.ok (Instr.sarU (wd _) (we _) (wa _) (wf _) (wb _)) = _
  simp (disch := decide) only [need, wd, we, wa, wf, wb, wi, wh, wo, zeroAt, fmtV_b_extract, fmtV_b_bit, fmtV_eb_extract, fmtV_eb_bit, fmtV_a_extract, fmtV_a_bit, fmtV_ea_extract, fmtV_ea_bit, fmtV_d_extract, fmtV_d_bit, BitVec.extractLsb'_eq_self, BitVec.getLsbD_ofBool] <;> simp
theorem Format.rot d ea a eb b : Format.Statement (.rot d ea a eb b) := by
  intro _
  refine (decodeRaw_fmtV 39#9 d ea a eb b).trans ?_
  change Except.ok (Instr.rot (wd _) (we _) (wa _) (wf _) (wb _)) = _
  simp (disch := decide) only [need, wd, we, wa, wf, wb, wi, wh, wo, zeroAt, fmtV_b_extract, fmtV_b_bit, fmtV_eb_extract, fmtV_eb_bit, fmtV_a_extract, fmtV_a_bit, fmtV_ea_extract, fmtV_ea_bit, fmtV_d_extract, fmtV_d_bit, BitVec.extractLsb'_eq_self, BitVec.getLsbD_ofBool] <;> simp
theorem Format.rotU d ea a eb b : Format.Statement (.rotU d ea a eb b) := by
  intro _
  refine (decodeRaw_fmtV 295#9 d ea a eb b).trans ?_
  change Except.ok (Instr.rotU (wd _) (we _) (wa _) (wf _) (wb _)) = _
  simp (disch := decide) only [need, wd, we, wa, wf, wb, wi, wh, wo, zeroAt, fmtV_b_extract, fmtV_b_bit, fmtV_eb_extract, fmtV_eb_bit, fmtV_a_extract, fmtV_a_bit, fmtV_ea_extract, fmtV_ea_bit, fmtV_d_extract, fmtV_d_bit, BitVec.extractLsb'_eq_self, BitVec.getLsbD_ofBool] <;> simp
theorem Format.bfx d ea a eb b : Format.Statement (.bfx d ea a eb b) := by
  intro _
  refine (decodeRaw_fmtV 40#9 d ea a eb b).trans ?_
  change Except.ok (Instr.bfx (wd _) (we _) (wa _) (wf _) (wb _)) = _
  simp (disch := decide) only [need, wd, we, wa, wf, wb, wi, wh, wo, zeroAt, fmtV_b_extract, fmtV_b_bit, fmtV_eb_extract, fmtV_eb_bit, fmtV_a_extract, fmtV_a_bit, fmtV_ea_extract, fmtV_ea_bit, fmtV_d_extract, fmtV_d_bit, BitVec.extractLsb'_eq_self, BitVec.getLsbD_ofBool] <;> simp
theorem Format.bfxU d ea a eb b : Format.Statement (.bfxU d ea a eb b) := by
  intro _
  refine (decodeRaw_fmtV 296#9 d ea a eb b).trans ?_
  change Except.ok (Instr.bfxU (wd _) (we _) (wa _) (wf _) (wb _)) = _
  simp (disch := decide) only [need, wd, we, wa, wf, wb, wi, wh, wo, zeroAt, fmtV_b_extract, fmtV_b_bit, fmtV_eb_extract, fmtV_eb_bit, fmtV_a_extract, fmtV_a_bit, fmtV_ea_extract, fmtV_ea_bit, fmtV_d_extract, fmtV_d_bit, BitVec.extractLsb'_eq_self, BitVec.getLsbD_ofBool] <;> simp
theorem Format.bfi d ea a eb b : Format.Statement (.bfi d ea a eb b) := by
  intro _
  refine (decodeRaw_fmtV 41#9 d ea a eb b).trans ?_
  change Except.ok (Instr.bfi (wd _) (we _) (wa _) (wf _) (wb _)) = _
  simp (disch := decide) only [need, wd, we, wa, wf, wb, wi, wh, wo, zeroAt, fmtV_b_extract, fmtV_b_bit, fmtV_eb_extract, fmtV_eb_bit, fmtV_a_extract, fmtV_a_bit, fmtV_ea_extract, fmtV_ea_bit, fmtV_d_extract, fmtV_d_bit, BitVec.extractLsb'_eq_self, BitVec.getLsbD_ofBool] <;> simp
theorem Format.bfiU d ea a eb b : Format.Statement (.bfiU d ea a eb b) := by
  intro _
  refine (decodeRaw_fmtV 297#9 d ea a eb b).trans ?_
  change Except.ok (Instr.bfiU (wd _) (we _) (wa _) (wf _) (wb _)) = _
  simp (disch := decide) only [need, wd, we, wa, wf, wb, wi, wh, wo, zeroAt, fmtV_b_extract, fmtV_b_bit, fmtV_eb_extract, fmtV_eb_bit, fmtV_a_extract, fmtV_a_bit, fmtV_ea_extract, fmtV_ea_bit, fmtV_d_extract, fmtV_d_bit, BitVec.extractLsb'_eq_self, BitVec.getLsbD_ofBool] <;> simp
theorem Format.popc d ea a : Format.Statement (.popc d ea a) := by
  intro _
  refine (decodeRaw_fmtI 42#9 d ea a 0#8).trans ?_
  change need (zeroAt _ 0 8) (Instr.popc (wd _) (we _) (wa _)) = _
  simp (disch := decide) only [need, wd, we, wa, wf, wb, wi, wh, wo, zeroAt, fmtI_i_extract, fmtI_i_bit, fmtI_a_extract, fmtI_a_bit, fmtI_ea_extract, fmtI_ea_bit, fmtI_d_extract, fmtI_d_bit, BitVec.extractLsb'_eq_self, BitVec.getLsbD_ofBool] <;> simp
theorem Format.popcU d ea a : Format.Statement (.popcU d ea a) := by
  intro _
  refine (decodeRaw_fmtI 298#9 d ea a 0#8).trans ?_
  change need (zeroAt _ 0 8) (Instr.popcU (wd _) (we _) (wa _)) = _
  simp (disch := decide) only [need, wd, we, wa, wf, wb, wi, wh, wo, zeroAt, fmtI_i_extract, fmtI_i_bit, fmtI_a_extract, fmtI_a_bit, fmtI_ea_extract, fmtI_ea_bit, fmtI_d_extract, fmtI_d_bit, BitVec.extractLsb'_eq_self, BitVec.getLsbD_ofBool] <;> simp
theorem Format.clz d ea a : Format.Statement (.clz d ea a) := by
  intro _
  refine (decodeRaw_fmtI 43#9 d ea a 0#8).trans ?_
  change need (zeroAt _ 0 8) (Instr.clz (wd _) (we _) (wa _)) = _
  simp (disch := decide) only [need, wd, we, wa, wf, wb, wi, wh, wo, zeroAt, fmtI_i_extract, fmtI_i_bit, fmtI_a_extract, fmtI_a_bit, fmtI_ea_extract, fmtI_ea_bit, fmtI_d_extract, fmtI_d_bit, BitVec.extractLsb'_eq_self, BitVec.getLsbD_ofBool] <;> simp
theorem Format.clzU d ea a : Format.Statement (.clzU d ea a) := by
  intro _
  refine (decodeRaw_fmtI 299#9 d ea a 0#8).trans ?_
  change need (zeroAt _ 0 8) (Instr.clzU (wd _) (we _) (wa _)) = _
  simp (disch := decide) only [need, wd, we, wa, wf, wb, wi, wh, wo, zeroAt, fmtI_i_extract, fmtI_i_bit, fmtI_a_extract, fmtI_a_bit, fmtI_ea_extract, fmtI_ea_bit, fmtI_d_extract, fmtI_d_bit, BitVec.extractLsb'_eq_self, BitVec.getLsbD_ofBool] <;> simp
theorem Format.ctz d ea a : Format.Statement (.ctz d ea a) := by
  intro _
  refine (decodeRaw_fmtI 44#9 d ea a 0#8).trans ?_
  change need (zeroAt _ 0 8) (Instr.ctz (wd _) (we _) (wa _)) = _
  simp (disch := decide) only [need, wd, we, wa, wf, wb, wi, wh, wo, zeroAt, fmtI_i_extract, fmtI_i_bit, fmtI_a_extract, fmtI_a_bit, fmtI_ea_extract, fmtI_ea_bit, fmtI_d_extract, fmtI_d_bit, BitVec.extractLsb'_eq_self, BitVec.getLsbD_ofBool] <;> simp
theorem Format.ctzU d ea a : Format.Statement (.ctzU d ea a) := by
  intro _
  refine (decodeRaw_fmtI 300#9 d ea a 0#8).trans ?_
  change need (zeroAt _ 0 8) (Instr.ctzU (wd _) (we _) (wa _)) = _
  simp (disch := decide) only [need, wd, we, wa, wf, wb, wi, wh, wo, zeroAt, fmtI_i_extract, fmtI_i_bit, fmtI_a_extract, fmtI_a_bit, fmtI_ea_extract, fmtI_ea_bit, fmtI_d_extract, fmtI_d_bit, BitVec.extractLsb'_eq_self, BitVec.getLsbD_ofBool] <;> simp
theorem Format.brev d ea a : Format.Statement (.brev d ea a) := by
  intro _
  refine (decodeRaw_fmtI 45#9 d ea a 0#8).trans ?_
  change need (zeroAt _ 0 8) (Instr.brev (wd _) (we _) (wa _)) = _
  simp (disch := decide) only [need, wd, we, wa, wf, wb, wi, wh, wo, zeroAt, fmtI_i_extract, fmtI_i_bit, fmtI_a_extract, fmtI_a_bit, fmtI_ea_extract, fmtI_ea_bit, fmtI_d_extract, fmtI_d_bit, BitVec.extractLsb'_eq_self, BitVec.getLsbD_ofBool] <;> simp
theorem Format.brevU d ea a : Format.Statement (.brevU d ea a) := by
  intro _
  refine (decodeRaw_fmtI 301#9 d ea a 0#8).trans ?_
  change need (zeroAt _ 0 8) (Instr.brevU (wd _) (we _) (wa _)) = _
  simp (disch := decide) only [need, wd, we, wa, wf, wb, wi, wh, wo, zeroAt, fmtI_i_extract, fmtI_i_bit, fmtI_a_extract, fmtI_a_bit, fmtI_ea_extract, fmtI_ea_bit, fmtI_d_extract, fmtI_d_bit, BitVec.extractLsb'_eq_self, BitVec.getLsbD_ofBool] <;> simp
theorem Format.mov d ea a : Format.Statement (.mov d ea a) := by
  intro _
  refine (decodeRaw_fmtI 46#9 d ea a 0#8).trans ?_
  change need (zeroAt _ 0 8) (Instr.mov (wd _) (we _) (wa _)) = _
  simp (disch := decide) only [need, wd, we, wa, wf, wb, wi, wh, wo, zeroAt, fmtI_i_extract, fmtI_i_bit, fmtI_a_extract, fmtI_a_bit, fmtI_ea_extract, fmtI_ea_bit, fmtI_d_extract, fmtI_d_bit, BitVec.extractLsb'_eq_self, BitVec.getLsbD_ofBool] <;> simp
theorem Format.movU d ea a : Format.Statement (.movU d ea a) := by
  intro _
  refine (decodeRaw_fmtI 302#9 d ea a 0#8).trans ?_
  change need (zeroAt _ 0 8) (Instr.movU (wd _) (we _) (wa _)) = _
  simp (disch := decide) only [need, wd, we, wa, wf, wb, wi, wh, wo, zeroAt, fmtI_i_extract, fmtI_i_bit, fmtI_a_extract, fmtI_a_bit, fmtI_ea_extract, fmtI_ea_bit, fmtI_d_extract, fmtI_d_bit, BitVec.extractLsb'_eq_self, BitVec.getLsbD_ofBool] <;> simp
theorem Format.rcp d ea a : Format.Statement (.rcp d ea a) := by
  intro _
  refine (decodeRaw_fmtI 48#9 d ea a 0#8).trans ?_
  change need (zeroAt _ 0 8) (Instr.rcp (wd _) (we _) (wa _)) = _
  simp (disch := decide) only [need, wd, we, wa, wf, wb, wi, wh, wo, zeroAt, fmtI_i_extract, fmtI_i_bit, fmtI_a_extract, fmtI_a_bit, fmtI_ea_extract, fmtI_ea_bit, fmtI_d_extract, fmtI_d_bit, BitVec.extractLsb'_eq_self, BitVec.getLsbD_ofBool] <;> simp
theorem Format.rcpU d ea a : Format.Statement (.rcpU d ea a) := by
  intro _
  refine (decodeRaw_fmtI 304#9 d ea a 0#8).trans ?_
  change need (zeroAt _ 0 8) (Instr.rcpU (wd _) (we _) (wa _)) = _
  simp (disch := decide) only [need, wd, we, wa, wf, wb, wi, wh, wo, zeroAt, fmtI_i_extract, fmtI_i_bit, fmtI_a_extract, fmtI_a_bit, fmtI_ea_extract, fmtI_ea_bit, fmtI_d_extract, fmtI_d_bit, BitVec.extractLsb'_eq_self, BitVec.getLsbD_ofBool] <;> simp
theorem Format.rsq d ea a : Format.Statement (.rsq d ea a) := by
  intro _
  refine (decodeRaw_fmtI 49#9 d ea a 0#8).trans ?_
  change need (zeroAt _ 0 8) (Instr.rsq (wd _) (we _) (wa _)) = _
  simp (disch := decide) only [need, wd, we, wa, wf, wb, wi, wh, wo, zeroAt, fmtI_i_extract, fmtI_i_bit, fmtI_a_extract, fmtI_a_bit, fmtI_ea_extract, fmtI_ea_bit, fmtI_d_extract, fmtI_d_bit, BitVec.extractLsb'_eq_self, BitVec.getLsbD_ofBool] <;> simp
theorem Format.rsqU d ea a : Format.Statement (.rsqU d ea a) := by
  intro _
  refine (decodeRaw_fmtI 305#9 d ea a 0#8).trans ?_
  change need (zeroAt _ 0 8) (Instr.rsqU (wd _) (we _) (wa _)) = _
  simp (disch := decide) only [need, wd, we, wa, wf, wb, wi, wh, wo, zeroAt, fmtI_i_extract, fmtI_i_bit, fmtI_a_extract, fmtI_a_bit, fmtI_ea_extract, fmtI_ea_bit, fmtI_d_extract, fmtI_d_bit, BitVec.extractLsb'_eq_self, BitVec.getLsbD_ofBool] <;> simp
theorem Format.sqrt d ea a : Format.Statement (.sqrt d ea a) := by
  intro _
  refine (decodeRaw_fmtI 50#9 d ea a 0#8).trans ?_
  change need (zeroAt _ 0 8) (Instr.sqrt (wd _) (we _) (wa _)) = _
  simp (disch := decide) only [need, wd, we, wa, wf, wb, wi, wh, wo, zeroAt, fmtI_i_extract, fmtI_i_bit, fmtI_a_extract, fmtI_a_bit, fmtI_ea_extract, fmtI_ea_bit, fmtI_d_extract, fmtI_d_bit, BitVec.extractLsb'_eq_self, BitVec.getLsbD_ofBool] <;> simp
theorem Format.sqrtU d ea a : Format.Statement (.sqrtU d ea a) := by
  intro _
  refine (decodeRaw_fmtI 306#9 d ea a 0#8).trans ?_
  change need (zeroAt _ 0 8) (Instr.sqrtU (wd _) (we _) (wa _)) = _
  simp (disch := decide) only [need, wd, we, wa, wf, wb, wi, wh, wo, zeroAt, fmtI_i_extract, fmtI_i_bit, fmtI_a_extract, fmtI_a_bit, fmtI_ea_extract, fmtI_ea_bit, fmtI_d_extract, fmtI_d_bit, BitVec.extractLsb'_eq_self, BitVec.getLsbD_ofBool] <;> simp
theorem Format.exp2 d ea a : Format.Statement (.exp2 d ea a) := by
  intro _
  refine (decodeRaw_fmtI 51#9 d ea a 0#8).trans ?_
  change need (zeroAt _ 0 8) (Instr.exp2 (wd _) (we _) (wa _)) = _
  simp (disch := decide) only [need, wd, we, wa, wf, wb, wi, wh, wo, zeroAt, fmtI_i_extract, fmtI_i_bit, fmtI_a_extract, fmtI_a_bit, fmtI_ea_extract, fmtI_ea_bit, fmtI_d_extract, fmtI_d_bit, BitVec.extractLsb'_eq_self, BitVec.getLsbD_ofBool] <;> simp
theorem Format.exp2U d ea a : Format.Statement (.exp2U d ea a) := by
  intro _
  refine (decodeRaw_fmtI 307#9 d ea a 0#8).trans ?_
  change need (zeroAt _ 0 8) (Instr.exp2U (wd _) (we _) (wa _)) = _
  simp (disch := decide) only [need, wd, we, wa, wf, wb, wi, wh, wo, zeroAt, fmtI_i_extract, fmtI_i_bit, fmtI_a_extract, fmtI_a_bit, fmtI_ea_extract, fmtI_ea_bit, fmtI_d_extract, fmtI_d_bit, BitVec.extractLsb'_eq_self, BitVec.getLsbD_ofBool] <;> simp
theorem Format.log2 d ea a : Format.Statement (.log2 d ea a) := by
  intro _
  refine (decodeRaw_fmtI 52#9 d ea a 0#8).trans ?_
  change need (zeroAt _ 0 8) (Instr.log2 (wd _) (we _) (wa _)) = _
  simp (disch := decide) only [need, wd, we, wa, wf, wb, wi, wh, wo, zeroAt, fmtI_i_extract, fmtI_i_bit, fmtI_a_extract, fmtI_a_bit, fmtI_ea_extract, fmtI_ea_bit, fmtI_d_extract, fmtI_d_bit, BitVec.extractLsb'_eq_self, BitVec.getLsbD_ofBool] <;> simp
theorem Format.log2U d ea a : Format.Statement (.log2U d ea a) := by
  intro _
  refine (decodeRaw_fmtI 308#9 d ea a 0#8).trans ?_
  change need (zeroAt _ 0 8) (Instr.log2U (wd _) (we _) (wa _)) = _
  simp (disch := decide) only [need, wd, we, wa, wf, wb, wi, wh, wo, zeroAt, fmtI_i_extract, fmtI_i_bit, fmtI_a_extract, fmtI_a_bit, fmtI_ea_extract, fmtI_ea_bit, fmtI_d_extract, fmtI_d_bit, BitVec.extractLsb'_eq_self, BitVec.getLsbD_ofBool] <;> simp
theorem Format.sin d ea a : Format.Statement (.sin d ea a) := by
  intro _
  refine (decodeRaw_fmtI 53#9 d ea a 0#8).trans ?_
  change need (zeroAt _ 0 8) (Instr.sin (wd _) (we _) (wa _)) = _
  simp (disch := decide) only [need, wd, we, wa, wf, wb, wi, wh, wo, zeroAt, fmtI_i_extract, fmtI_i_bit, fmtI_a_extract, fmtI_a_bit, fmtI_ea_extract, fmtI_ea_bit, fmtI_d_extract, fmtI_d_bit, BitVec.extractLsb'_eq_self, BitVec.getLsbD_ofBool] <;> simp
theorem Format.sinU d ea a : Format.Statement (.sinU d ea a) := by
  intro _
  refine (decodeRaw_fmtI 309#9 d ea a 0#8).trans ?_
  change need (zeroAt _ 0 8) (Instr.sinU (wd _) (we _) (wa _)) = _
  simp (disch := decide) only [need, wd, we, wa, wf, wb, wi, wh, wo, zeroAt, fmtI_i_extract, fmtI_i_bit, fmtI_a_extract, fmtI_a_bit, fmtI_ea_extract, fmtI_ea_bit, fmtI_d_extract, fmtI_d_bit, BitVec.extractLsb'_eq_self, BitVec.getLsbD_ofBool] <;> simp
theorem Format.cos d ea a : Format.Statement (.cos d ea a) := by
  intro _
  refine (decodeRaw_fmtI 54#9 d ea a 0#8).trans ?_
  change need (zeroAt _ 0 8) (Instr.cos (wd _) (we _) (wa _)) = _
  simp (disch := decide) only [need, wd, we, wa, wf, wb, wi, wh, wo, zeroAt, fmtI_i_extract, fmtI_i_bit, fmtI_a_extract, fmtI_a_bit, fmtI_ea_extract, fmtI_ea_bit, fmtI_d_extract, fmtI_d_bit, BitVec.extractLsb'_eq_self, BitVec.getLsbD_ofBool] <;> simp
theorem Format.cosU d ea a : Format.Statement (.cosU d ea a) := by
  intro _
  refine (decodeRaw_fmtI 310#9 d ea a 0#8).trans ?_
  change need (zeroAt _ 0 8) (Instr.cosU (wd _) (we _) (wa _)) = _
  simp (disch := decide) only [need, wd, we, wa, wf, wb, wi, wh, wo, zeroAt, fmtI_i_extract, fmtI_i_bit, fmtI_a_extract, fmtI_a_bit, fmtI_ea_extract, fmtI_ea_bit, fmtI_d_extract, fmtI_d_bit, BitVec.extractLsb'_eq_self, BitVec.getLsbD_ofBool] <;> simp
theorem Format.cvt d ea a i : Format.Statement (.cvt d ea a i) := by
  intro _
  refine (decodeRaw_fmtI 55#9 d ea a i).trans ?_
  change Except.ok (Instr.cvt (wd _) (we _) (wa _) (wi _)) = _
  simp (disch := decide) only [need, wd, we, wa, wf, wb, wi, wh, wo, zeroAt, fmtI_i_extract, fmtI_i_bit, fmtI_a_extract, fmtI_a_bit, fmtI_ea_extract, fmtI_ea_bit, fmtI_d_extract, fmtI_d_bit, BitVec.extractLsb'_eq_self, BitVec.getLsbD_ofBool] <;> simp
theorem Format.cvtU d ea a i : Format.Statement (.cvtU d ea a i) := by
  intro _
  refine (decodeRaw_fmtI 311#9 d ea a i).trans ?_
  change Except.ok (Instr.cvtU (wd _) (we _) (wa _) (wi _)) = _
  simp (disch := decide) only [need, wd, we, wa, wf, wb, wi, wh, wo, zeroAt, fmtI_i_extract, fmtI_i_bit, fmtI_a_extract, fmtI_a_bit, fmtI_ea_extract, fmtI_ea_bit, fmtI_d_extract, fmtI_d_bit, BitVec.extractLsb'_eq_self, BitVec.getLsbD_ofBool] <;> simp
theorem Format.pack2 d ea a eb b : Format.Statement (.pack2 d ea a eb b) := by
  intro _
  refine (decodeRaw_fmtV 56#9 d ea a eb b).trans ?_
  change Except.ok (Instr.pack2 (wd _) (we _) (wa _) (wf _) (wb _)) = _
  simp (disch := decide) only [need, wd, we, wa, wf, wb, wi, wh, wo, zeroAt, fmtV_b_extract, fmtV_b_bit, fmtV_eb_extract, fmtV_eb_bit, fmtV_a_extract, fmtV_a_bit, fmtV_ea_extract, fmtV_ea_bit, fmtV_d_extract, fmtV_d_bit, BitVec.extractLsb'_eq_self, BitVec.getLsbD_ofBool] <;> simp
theorem Format.pack2U d ea a eb b : Format.Statement (.pack2U d ea a eb b) := by
  intro _
  refine (decodeRaw_fmtV 312#9 d ea a eb b).trans ?_
  change Except.ok (Instr.pack2U (wd _) (we _) (wa _) (wf _) (wb _)) = _
  simp (disch := decide) only [need, wd, we, wa, wf, wb, wi, wh, wo, zeroAt, fmtV_b_extract, fmtV_b_bit, fmtV_eb_extract, fmtV_eb_bit, fmtV_a_extract, fmtV_a_bit, fmtV_ea_extract, fmtV_ea_bit, fmtV_d_extract, fmtV_d_bit, BitVec.extractLsb'_eq_self, BitVec.getLsbD_ofBool] <;> simp
theorem Format.unpk2 d ea a n : Format.Statement (.unpk2 d ea a n) := by
  intro _
  refine (decodeRaw_fmtI 57#9 d ea a (0#7 ++ BitVec.ofBool n)).trans ?_
  change need (zeroAt _ 1 7) (Instr.unpk2 (wd _) (we _) (wa _) (BitVec.getLsbD _ 0)) = _
  simp (disch := decide) only [need, wd, we, wa, wf, wb, wi, wh, wo, zeroAt, fmtI_i_extract, fmtI_i_bit, fmtI_a_extract, fmtI_a_bit, fmtI_ea_extract, fmtI_ea_bit, fmtI_d_extract, fmtI_d_bit, parts_7_1_lo_extract, parts_7_1_hi_extract, parts_7_1_lo_bit, parts_7_1_hi_bit, BitVec.extractLsb'_eq_self, BitVec.getLsbD_ofBool] <;> simp
theorem Format.unpk2U d ea a n : Format.Statement (.unpk2U d ea a n) := by
  intro _
  refine (decodeRaw_fmtI 313#9 d ea a (0#7 ++ BitVec.ofBool n)).trans ?_
  change need (zeroAt _ 1 7) (Instr.unpk2U (wd _) (we _) (wa _) (BitVec.getLsbD _ 0)) = _
  simp (disch := decide) only [need, wd, we, wa, wf, wb, wi, wh, wo, zeroAt, fmtI_i_extract, fmtI_i_bit, fmtI_a_extract, fmtI_a_bit, fmtI_ea_extract, fmtI_ea_bit, fmtI_d_extract, fmtI_d_bit, parts_7_1_lo_extract, parts_7_1_hi_extract, parts_7_1_lo_bit, parts_7_1_hi_bit, BitVec.extractLsb'_eq_self, BitVec.getLsbD_ofBool] <;> simp
theorem Format.addi d ea a i : Format.Statement (.addi d ea a i) := by
  intro _
  refine (decodeRaw_fmtI 64#9 d ea a i).trans ?_
  change Except.ok (Instr.addi (wd _) (we _) (wa _) (wi _)) = _
  simp (disch := decide) only [need, wd, we, wa, wf, wb, wi, wh, wo, zeroAt, fmtI_i_extract, fmtI_i_bit, fmtI_a_extract, fmtI_a_bit, fmtI_ea_extract, fmtI_ea_bit, fmtI_d_extract, fmtI_d_bit, BitVec.extractLsb'_eq_self, BitVec.getLsbD_ofBool] <;> simp
theorem Format.addiU d ea a i : Format.Statement (.addiU d ea a i) := by
  intro _
  refine (decodeRaw_fmtI 320#9 d ea a i).trans ?_
  change Except.ok (Instr.addiU (wd _) (we _) (wa _) (wi _)) = _
  simp (disch := decide) only [need, wd, we, wa, wf, wb, wi, wh, wo, zeroAt, fmtI_i_extract, fmtI_i_bit, fmtI_a_extract, fmtI_a_bit, fmtI_ea_extract, fmtI_ea_bit, fmtI_d_extract, fmtI_d_bit, BitVec.extractLsb'_eq_self, BitVec.getLsbD_ofBool] <;> simp
theorem Format.andi d ea a i : Format.Statement (.andi d ea a i) := by
  intro _
  refine (decodeRaw_fmtI 65#9 d ea a i).trans ?_
  change Except.ok (Instr.andi (wd _) (we _) (wa _) (wi _)) = _
  simp (disch := decide) only [need, wd, we, wa, wf, wb, wi, wh, wo, zeroAt, fmtI_i_extract, fmtI_i_bit, fmtI_a_extract, fmtI_a_bit, fmtI_ea_extract, fmtI_ea_bit, fmtI_d_extract, fmtI_d_bit, BitVec.extractLsb'_eq_self, BitVec.getLsbD_ofBool] <;> simp
theorem Format.andiU d ea a i : Format.Statement (.andiU d ea a i) := by
  intro _
  refine (decodeRaw_fmtI 321#9 d ea a i).trans ?_
  change Except.ok (Instr.andiU (wd _) (we _) (wa _) (wi _)) = _
  simp (disch := decide) only [need, wd, we, wa, wf, wb, wi, wh, wo, zeroAt, fmtI_i_extract, fmtI_i_bit, fmtI_a_extract, fmtI_a_bit, fmtI_ea_extract, fmtI_ea_bit, fmtI_d_extract, fmtI_d_bit, BitVec.extractLsb'_eq_self, BitVec.getLsbD_ofBool] <;> simp
theorem Format.ori d ea a i : Format.Statement (.ori d ea a i) := by
  intro _
  refine (decodeRaw_fmtI 66#9 d ea a i).trans ?_
  change Except.ok (Instr.ori (wd _) (we _) (wa _) (wi _)) = _
  simp (disch := decide) only [need, wd, we, wa, wf, wb, wi, wh, wo, zeroAt, fmtI_i_extract, fmtI_i_bit, fmtI_a_extract, fmtI_a_bit, fmtI_ea_extract, fmtI_ea_bit, fmtI_d_extract, fmtI_d_bit, BitVec.extractLsb'_eq_self, BitVec.getLsbD_ofBool] <;> simp
theorem Format.oriU d ea a i : Format.Statement (.oriU d ea a i) := by
  intro _
  refine (decodeRaw_fmtI 322#9 d ea a i).trans ?_
  change Except.ok (Instr.oriU (wd _) (we _) (wa _) (wi _)) = _
  simp (disch := decide) only [need, wd, we, wa, wf, wb, wi, wh, wo, zeroAt, fmtI_i_extract, fmtI_i_bit, fmtI_a_extract, fmtI_a_bit, fmtI_ea_extract, fmtI_ea_bit, fmtI_d_extract, fmtI_d_bit, BitVec.extractLsb'_eq_self, BitVec.getLsbD_ofBool] <;> simp
theorem Format.xori d ea a i : Format.Statement (.xori d ea a i) := by
  intro _
  refine (decodeRaw_fmtI 67#9 d ea a i).trans ?_
  change Except.ok (Instr.xori (wd _) (we _) (wa _) (wi _)) = _
  simp (disch := decide) only [need, wd, we, wa, wf, wb, wi, wh, wo, zeroAt, fmtI_i_extract, fmtI_i_bit, fmtI_a_extract, fmtI_a_bit, fmtI_ea_extract, fmtI_ea_bit, fmtI_d_extract, fmtI_d_bit, BitVec.extractLsb'_eq_self, BitVec.getLsbD_ofBool] <;> simp
theorem Format.xoriU d ea a i : Format.Statement (.xoriU d ea a i) := by
  intro _
  refine (decodeRaw_fmtI 323#9 d ea a i).trans ?_
  change Except.ok (Instr.xoriU (wd _) (we _) (wa _) (wi _)) = _
  simp (disch := decide) only [need, wd, we, wa, wf, wb, wi, wh, wo, zeroAt, fmtI_i_extract, fmtI_i_bit, fmtI_a_extract, fmtI_a_bit, fmtI_ea_extract, fmtI_ea_bit, fmtI_d_extract, fmtI_d_bit, BitVec.extractLsb'_eq_self, BitVec.getLsbD_ofBool] <;> simp
theorem Format.shli d ea a i : Format.Statement (.shli d ea a i) := by
  intro _
  refine (decodeRaw_fmtI 68#9 d ea a (0#3 ++ i)).trans ?_
  change need (zeroAt _ 5 3) (Instr.shli (wd _) (we _) (wa _) (BitVec.extractLsb' 0 5 _)) = _
  simp (disch := decide) only [need, wd, we, wa, wf, wb, wi, wh, wo, zeroAt, fmtI_i_extract, fmtI_i_bit, fmtI_a_extract, fmtI_a_bit, fmtI_ea_extract, fmtI_ea_bit, fmtI_d_extract, fmtI_d_bit, parts_3_5_lo_extract, parts_3_5_hi_extract, parts_3_5_lo_bit, parts_3_5_hi_bit, BitVec.extractLsb'_eq_self, BitVec.getLsbD_ofBool] <;> simp
theorem Format.shliU d ea a i : Format.Statement (.shliU d ea a i) := by
  intro _
  refine (decodeRaw_fmtI 324#9 d ea a (0#3 ++ i)).trans ?_
  change need (zeroAt _ 5 3) (Instr.shliU (wd _) (we _) (wa _) (BitVec.extractLsb' 0 5 _)) = _
  simp (disch := decide) only [need, wd, we, wa, wf, wb, wi, wh, wo, zeroAt, fmtI_i_extract, fmtI_i_bit, fmtI_a_extract, fmtI_a_bit, fmtI_ea_extract, fmtI_ea_bit, fmtI_d_extract, fmtI_d_bit, parts_3_5_lo_extract, parts_3_5_hi_extract, parts_3_5_lo_bit, parts_3_5_hi_bit, BitVec.extractLsb'_eq_self, BitVec.getLsbD_ofBool] <;> simp
theorem Format.shri d ea a i : Format.Statement (.shri d ea a i) := by
  intro _
  refine (decodeRaw_fmtI 69#9 d ea a (0#3 ++ i)).trans ?_
  change need (zeroAt _ 5 3) (Instr.shri (wd _) (we _) (wa _) (BitVec.extractLsb' 0 5 _)) = _
  simp (disch := decide) only [need, wd, we, wa, wf, wb, wi, wh, wo, zeroAt, fmtI_i_extract, fmtI_i_bit, fmtI_a_extract, fmtI_a_bit, fmtI_ea_extract, fmtI_ea_bit, fmtI_d_extract, fmtI_d_bit, parts_3_5_lo_extract, parts_3_5_hi_extract, parts_3_5_lo_bit, parts_3_5_hi_bit, BitVec.extractLsb'_eq_self, BitVec.getLsbD_ofBool] <;> simp
theorem Format.shriU d ea a i : Format.Statement (.shriU d ea a i) := by
  intro _
  refine (decodeRaw_fmtI 325#9 d ea a (0#3 ++ i)).trans ?_
  change need (zeroAt _ 5 3) (Instr.shriU (wd _) (we _) (wa _) (BitVec.extractLsb' 0 5 _)) = _
  simp (disch := decide) only [need, wd, we, wa, wf, wb, wi, wh, wo, zeroAt, fmtI_i_extract, fmtI_i_bit, fmtI_a_extract, fmtI_a_bit, fmtI_ea_extract, fmtI_ea_bit, fmtI_d_extract, fmtI_d_bit, parts_3_5_lo_extract, parts_3_5_hi_extract, parts_3_5_lo_bit, parts_3_5_hi_bit, BitVec.extractLsb'_eq_self, BitVec.getLsbD_ofBool] <;> simp
theorem Format.cmpi c p ea a i : Format.Statement (.cmpi c p ea a i) := by
  intro _
  refine (decodeRaw_fmtI 70#9 (c ++ p) ea a i).trans ?_
  change Except.ok (Instr.cmpi (BitVec.extractLsb' 19 4 _) (BitVec.extractLsb' 16 3 _) (we _) (wa _) (wi _)) = _
  simp (disch := decide) only [need, wd, we, wa, wf, wb, wi, wh, wo, zeroAt, fmtI_i_extract, fmtI_i_bit, fmtI_a_extract, fmtI_a_bit, fmtI_ea_extract, fmtI_ea_bit, fmtI_d_extract, fmtI_d_bit, parts_4_3_lo_extract, parts_4_3_hi_extract, parts_4_3_lo_bit, parts_4_3_hi_bit, BitVec.extractLsb'_eq_self, BitVec.getLsbD_ofBool] <;> simp
theorem Format.movw d i : Format.Statement (.movw d i) := by
  intro _
  refine (decodeRaw_fmtW 72#9 d i).trans ?_
  change Except.ok (Instr.movw (wd _) (wh _)) = _
  simp (disch := decide) only [need, wd, we, wa, wf, wb, wi, wh, wo, zeroAt, fmtW_i_extract, fmtW_i_bit, fmtW_d_extract, fmtW_d_bit, BitVec.extractLsb'_eq_self, BitVec.getLsbD_ofBool] <;> simp
theorem Format.movwU d i : Format.Statement (.movwU d i) := by
  intro _
  refine (decodeRaw_fmtW 328#9 d i).trans ?_
  change Except.ok (Instr.movwU (wd _) (wh _)) = _
  simp (disch := decide) only [need, wd, we, wa, wf, wb, wi, wh, wo, zeroAt, fmtW_i_extract, fmtW_i_bit, fmtW_d_extract, fmtW_d_bit, BitVec.extractLsb'_eq_self, BitVec.getLsbD_ofBool] <;> simp
theorem Format.movh d i : Format.Statement (.movh d i) := by
  intro _
  refine (decodeRaw_fmtW 73#9 d i).trans ?_
  change Except.ok (Instr.movh (wd _) (wh _)) = _
  simp (disch := decide) only [need, wd, we, wa, wf, wb, wi, wh, wo, zeroAt, fmtW_i_extract, fmtW_i_bit, fmtW_d_extract, fmtW_d_bit, BitVec.extractLsb'_eq_self, BitVec.getLsbD_ofBool] <;> simp
theorem Format.movhU d i : Format.Statement (.movhU d i) := by
  intro _
  refine (decodeRaw_fmtW 329#9 d i).trans ?_
  change Except.ok (Instr.movhU (wd _) (wh _)) = _
  simp (disch := decide) only [need, wd, we, wa, wf, wb, wi, wh, wo, zeroAt, fmtW_i_extract, fmtW_i_bit, fmtW_d_extract, fmtW_d_bit, BitVec.extractLsb'_eq_self, BitVec.getLsbD_ofBool] <;> simp
theorem Format.shflIdx d ea a eb b : Format.Statement (.shflIdx d ea a eb b) := by
  intro _
  refine (decodeRaw_fmtV 80#9 d ea a eb b).trans ?_
  change Except.ok (Instr.shflIdx (wd _) (we _) (wa _) (wf _) (wb _)) = _
  simp (disch := decide) only [need, wd, we, wa, wf, wb, wi, wh, wo, zeroAt, fmtV_b_extract, fmtV_b_bit, fmtV_eb_extract, fmtV_eb_bit, fmtV_a_extract, fmtV_a_bit, fmtV_ea_extract, fmtV_ea_bit, fmtV_d_extract, fmtV_d_bit, BitVec.extractLsb'_eq_self, BitVec.getLsbD_ofBool] <;> simp
theorem Format.shflUp d ea a i : Format.Statement (.shflUp d ea a i) := by
  intro _
  refine (decodeRaw_fmtI 81#9 d ea a (0#1 ++ i)).trans ?_
  change need (zeroAt _ 7 1) (Instr.shflUp (wd _) (we _) (wa _) (wb _)) = _
  simp (disch := decide) only [need, wd, we, wa, wf, wb, wi, wh, wo, zeroAt, fmtI_i_extract, fmtI_i_bit, fmtI_a_extract, fmtI_a_bit, fmtI_ea_extract, fmtI_ea_bit, fmtI_d_extract, fmtI_d_bit, parts_1_7_lo_extract, parts_1_7_hi_extract, parts_1_7_lo_bit, parts_1_7_hi_bit, BitVec.extractLsb'_eq_self, BitVec.getLsbD_ofBool] <;> simp
theorem Format.shflDn d ea a i : Format.Statement (.shflDn d ea a i) := by
  intro _
  refine (decodeRaw_fmtI 82#9 d ea a (0#1 ++ i)).trans ?_
  change need (zeroAt _ 7 1) (Instr.shflDn (wd _) (we _) (wa _) (wb _)) = _
  simp (disch := decide) only [need, wd, we, wa, wf, wb, wi, wh, wo, zeroAt, fmtI_i_extract, fmtI_i_bit, fmtI_a_extract, fmtI_a_bit, fmtI_ea_extract, fmtI_ea_bit, fmtI_d_extract, fmtI_d_bit, parts_1_7_lo_extract, parts_1_7_hi_extract, parts_1_7_lo_bit, parts_1_7_hi_bit, BitVec.extractLsb'_eq_self, BitVec.getLsbD_ofBool] <;> simp
theorem Format.shflXor d ea a i : Format.Statement (.shflXor d ea a i) := by
  intro _
  refine (decodeRaw_fmtI 83#9 d ea a (0#1 ++ i)).trans ?_
  change need (zeroAt _ 7 1) (Instr.shflXor (wd _) (we _) (wa _) (wb _)) = _
  simp (disch := decide) only [need, wd, we, wa, wf, wb, wi, wh, wo, zeroAt, fmtI_i_extract, fmtI_i_bit, fmtI_a_extract, fmtI_a_bit, fmtI_ea_extract, fmtI_ea_bit, fmtI_d_extract, fmtI_d_bit, parts_1_7_lo_extract, parts_1_7_hi_extract, parts_1_7_lo_bit, parts_1_7_hi_bit, BitVec.extractLsb'_eq_self, BitVec.getLsbD_ofBool] <;> simp
theorem Format.bcast d ea a i : Format.Statement (.bcast d ea a i) := by
  intro _
  refine (decodeRaw_fmtI 84#9 d ea a (0#1 ++ i)).trans ?_
  change need (zeroAt _ 7 1) (Instr.bcast (wd _) (we _) (wa _) (wb _)) = _
  simp (disch := decide) only [need, wd, we, wa, wf, wb, wi, wh, wo, zeroAt, fmtI_i_extract, fmtI_i_bit, fmtI_a_extract, fmtI_a_bit, fmtI_ea_extract, fmtI_ea_bit, fmtI_d_extract, fmtI_d_bit, parts_1_7_lo_extract, parts_1_7_hi_extract, parts_1_7_lo_bit, parts_1_7_hi_bit, BitVec.extractLsb'_eq_self, BitVec.getLsbD_ofBool] <;> simp
theorem Format.vote d ea p k : Format.Statement (.vote d ea p k) := by
  intro _
  refine (decodeRaw_fmtI 85#9 d ea (0#4 ++ p) (0#6 ++ k)).trans ?_
  change need (zeroAt _ 2 6 && zeroAt _ 11 4) (Instr.vote (wd _) (we _) (BitVec.extractLsb' 8 3 _) (BitVec.extractLsb' 0 2 _)) = _
  simp (disch := decide) only [need, wd, we, wa, wf, wb, wi, wh, wo, zeroAt, fmtI_i_extract, fmtI_i_bit, fmtI_a_extract, fmtI_a_bit, fmtI_ea_extract, fmtI_ea_bit, fmtI_d_extract, fmtI_d_bit, parts_4_3_lo_extract, parts_4_3_hi_extract, parts_4_3_lo_bit, parts_4_3_hi_bit, parts_6_2_lo_extract, parts_6_2_hi_extract, parts_6_2_lo_bit, parts_6_2_hi_bit, BitVec.extractLsb'_eq_self, BitVec.getLsbD_ofBool] <;> simp
theorem Format.qscan d ea a i : Format.Statement (.qscan d ea a i) := by
  intro _
  refine (decodeRaw_fmtI 86#9 d ea a (0#4 ++ i)).trans ?_
  change need (zeroAt _ 4 4) (Instr.qscan (wd _) (we _) (wa _) (BitVec.extractLsb' 0 4 _)) = _
  simp (disch := decide) only [need, wd, we, wa, wf, wb, wi, wh, wo, zeroAt, fmtI_i_extract, fmtI_i_bit, fmtI_a_extract, fmtI_a_bit, fmtI_ea_extract, fmtI_ea_bit, fmtI_d_extract, fmtI_d_bit, parts_4_4_lo_extract, parts_4_4_hi_extract, parts_4_4_lo_bit, parts_4_4_hi_bit, BitVec.extractLsb'_eq_self, BitVec.getLsbD_ofBool] <;> simp
theorem Format.reduce d ea a i : Format.Statement (.reduce d ea a i) := by
  intro _
  refine (decodeRaw_fmtI 87#9 d ea a (0#4 ++ i)).trans ?_
  change need (zeroAt _ 4 4) (Instr.reduce (wd _) (we _) (wa _) (BitVec.extractLsb' 0 4 _)) = _
  simp (disch := decide) only [need, wd, we, wa, wf, wb, wi, wh, wo, zeroAt, fmtI_i_extract, fmtI_i_bit, fmtI_a_extract, fmtI_a_bit, fmtI_ea_extract, fmtI_ea_bit, fmtI_d_extract, fmtI_d_bit, parts_4_4_lo_extract, parts_4_4_hi_extract, parts_4_4_lo_bit, parts_4_4_hi_bit, BitVec.extractLsb'_eq_self, BitVec.getLsbD_ofBool] <;> simp
theorem Format.pand d ea a eb b : Format.Statement (.pand d ea a eb b) := by
  intro _
  refine (decodeRaw_fmtV 88#9 (0#4 ++ d) ea (0#4 ++ a) eb (0#4 ++ b)).trans ?_
  change need (zeroAt _ 3 4 && zeroAt _ 11 4 && zeroAt _ 19 4) (Instr.pand (BitVec.extractLsb' 16 3 _) (we _) (BitVec.extractLsb' 8 3 _) (wf _) (BitVec.extractLsb' 0 3 _)) = _
  simp (disch := decide) only [need, wd, we, wa, wf, wb, wi, wh, wo, zeroAt, fmtV_b_extract, fmtV_b_bit, fmtV_eb_extract, fmtV_eb_bit, fmtV_a_extract, fmtV_a_bit, fmtV_ea_extract, fmtV_ea_bit, fmtV_d_extract, fmtV_d_bit, parts_4_3_lo_extract, parts_4_3_hi_extract, parts_4_3_lo_bit, parts_4_3_hi_bit, BitVec.extractLsb'_eq_self, BitVec.getLsbD_ofBool] <;> simp
theorem Format.por d ea a eb b : Format.Statement (.por d ea a eb b) := by
  intro _
  refine (decodeRaw_fmtV 89#9 (0#4 ++ d) ea (0#4 ++ a) eb (0#4 ++ b)).trans ?_
  change need (zeroAt _ 3 4 && zeroAt _ 11 4 && zeroAt _ 19 4) (Instr.por (BitVec.extractLsb' 16 3 _) (we _) (BitVec.extractLsb' 8 3 _) (wf _) (BitVec.extractLsb' 0 3 _)) = _
  simp (disch := decide) only [need, wd, we, wa, wf, wb, wi, wh, wo, zeroAt, fmtV_b_extract, fmtV_b_bit, fmtV_eb_extract, fmtV_eb_bit, fmtV_a_extract, fmtV_a_bit, fmtV_ea_extract, fmtV_ea_bit, fmtV_d_extract, fmtV_d_bit, parts_4_3_lo_extract, parts_4_3_hi_extract, parts_4_3_lo_bit, parts_4_3_hi_bit, BitVec.extractLsb'_eq_self, BitVec.getLsbD_ofBool] <;> simp
theorem Format.pxor d ea a eb b : Format.Statement (.pxor d ea a eb b) := by
  intro _
  refine (decodeRaw_fmtV 90#9 (0#4 ++ d) ea (0#4 ++ a) eb (0#4 ++ b)).trans ?_
  change need (zeroAt _ 3 4 && zeroAt _ 11 4 && zeroAt _ 19 4) (Instr.pxor (BitVec.extractLsb' 16 3 _) (we _) (BitVec.extractLsb' 8 3 _) (wf _) (BitVec.extractLsb' 0 3 _)) = _
  simp (disch := decide) only [need, wd, we, wa, wf, wb, wi, wh, wo, zeroAt, fmtV_b_extract, fmtV_b_bit, fmtV_eb_extract, fmtV_eb_bit, fmtV_a_extract, fmtV_a_bit, fmtV_ea_extract, fmtV_ea_bit, fmtV_d_extract, fmtV_d_bit, parts_4_3_lo_extract, parts_4_3_hi_extract, parts_4_3_lo_bit, parts_4_3_hi_bit, BitVec.extractLsb'_eq_self, BitVec.getLsbD_ofBool] <;> simp
theorem Format.pnot d ea a : Format.Statement (.pnot d ea a) := by
  intro _
  refine (decodeRaw_fmtI 91#9 (0#4 ++ d) ea (0#4 ++ a) 0#8).trans ?_
  change need (zeroAt _ 0 8 && zeroAt _ 11 4 && zeroAt _ 19 4) (Instr.pnot (BitVec.extractLsb' 16 3 _) (we _) (BitVec.extractLsb' 8 3 _)) = _
  simp (disch := decide) only [need, wd, we, wa, wf, wb, wi, wh, wo, zeroAt, fmtI_i_extract, fmtI_i_bit, fmtI_a_extract, fmtI_a_bit, fmtI_ea_extract, fmtI_ea_bit, fmtI_d_extract, fmtI_d_bit, parts_4_3_lo_extract, parts_4_3_hi_extract, parts_4_3_lo_bit, parts_4_3_hi_bit, BitVec.extractLsb'_eq_self, BitVec.getLsbD_ofBool] <;> simp
theorem Format.pmov d ea a : Format.Statement (.pmov d ea a) := by
  intro _
  refine (decodeRaw_fmtI 92#9 (0#4 ++ d) ea (0#4 ++ a) 0#8).trans ?_
  change need (zeroAt _ 0 8 && zeroAt _ 11 4 && zeroAt _ 19 4) (Instr.pmov (BitVec.extractLsb' 16 3 _) (we _) (BitVec.extractLsb' 8 3 _)) = _
  simp (disch := decide) only [need, wd, we, wa, wf, wb, wi, wh, wo, zeroAt, fmtI_i_extract, fmtI_i_bit, fmtI_a_extract, fmtI_a_bit, fmtI_ea_extract, fmtI_ea_bit, fmtI_d_extract, fmtI_d_bit, parts_4_3_lo_extract, parts_4_3_hi_extract, parts_4_3_lo_bit, parts_4_3_hi_bit, BitVec.extractLsb'_eq_self, BitVec.getLsbD_ofBool] <;> simp
theorem Format.xset d ea a : Format.Statement (.xset d ea a) := by
  intro _
  refine (decodeRaw_fmtI 93#9 (0#5 ++ d) ea a 0#8).trans ?_
  change need (zeroAt _ 0 8 && zeroAt _ 18 5) (Instr.xset (BitVec.extractLsb' 16 2 _) (we _) (wa _)) = _
  simp (disch := decide) only [need, wd, we, wa, wf, wb, wi, wh, wo, zeroAt, fmtI_i_extract, fmtI_i_bit, fmtI_a_extract, fmtI_a_bit, fmtI_ea_extract, fmtI_ea_bit, fmtI_d_extract, fmtI_d_bit, parts_5_2_lo_extract, parts_5_2_hi_extract, parts_5_2_lo_bit, parts_5_2_hi_bit, BitVec.extractLsb'_eq_self, BitVec.getLsbD_ofBool] <;> simp
theorem Format.xadd d a i : Format.Statement (.xadd d a i) := by
  intro _
  refine (decodeRaw_fmtI 94#9 (0#5 ++ d) false (0#5 ++ a) i).trans ?_
  change need (zeroAt _ 10 6 && zeroAt _ 18 5) (Instr.xadd (BitVec.extractLsb' 16 2 _) (BitVec.extractLsb' 8 2 _) (wi _)) = _
  simp only [zeroAt_10_6]
  simp (disch := decide) only [need, wd, we, wa, wf, wb, wi, wh, wo, zeroAt, fmtI_i_extract, fmtI_i_bit, fmtI_a_extract, fmtI_a_bit, fmtI_ea_extract, fmtI_ea_bit, fmtI_d_extract, fmtI_d_bit, parts_5_2_lo_extract, parts_5_2_hi_extract, parts_5_2_lo_bit, parts_5_2_hi_bit, BitVec.extractLsb'_eq_self, BitVec.getLsbD_ofBool] <;> simp
theorem Format.movx d a eb b : Format.Statement (.movx d a eb b) := by
  intro _
  refine (decodeRaw_fmtV 95#9 d false (0#5 ++ a) eb b).trans ?_
  change need (zeroAt _ 10 6) (Instr.movx (wd _) (BitVec.extractLsb' 8 2 _) (wf _) (wb _)) = _
  simp only [zeroAt_10_6]
  simp (disch := decide) only [need, wd, we, wa, wf, wb, wi, wh, wo, zeroAt, fmtV_b_extract, fmtV_b_bit, fmtV_eb_extract, fmtV_eb_bit, fmtV_a_extract, fmtV_a_bit, fmtV_ea_extract, fmtV_ea_bit, fmtV_d_extract, fmtV_d_bit, parts_5_2_lo_extract, parts_5_2_hi_extract, parts_5_2_lo_bit, parts_5_2_hi_bit, BitVec.extractLsb'_eq_self, BitVec.getLsbD_ofBool] <;> simp
theorem Format.movxw d ea a eb b : Format.Statement (.movxw d ea a eb b) := by
  intro _
  refine (decodeRaw_fmtV 96#9 (0#5 ++ d) ea a eb b).trans ?_
  change need (zeroAt _ 18 5) (Instr.movxw (BitVec.extractLsb' 16 2 _) (we _) (wa _) (wf _) (wb _)) = _
  simp (disch := decide) only [need, wd, we, wa, wf, wb, wi, wh, wo, zeroAt, fmtV_b_extract, fmtV_b_bit, fmtV_eb_extract, fmtV_eb_bit, fmtV_a_extract, fmtV_a_bit, fmtV_ea_extract, fmtV_ea_bit, fmtV_d_extract, fmtV_d_bit, parts_5_2_lo_extract, parts_5_2_hi_extract, parts_5_2_lo_bit, parts_5_2_hi_bit, BitVec.extractLsb'_eq_self, BitVec.getLsbD_ofBool] <;> simp
theorem Format.smov d ea a : Format.Statement (.smov d ea a) := by
  intro _
  refine (decodeRaw_fmtI 97#9 d ea a 0#8).trans ?_
  change need (zeroAt _ 0 8) (Instr.smov (wd _) (we _) (wa _)) = _
  simp (disch := decide) only [need, wd, we, wa, wf, wb, wi, wh, wo, zeroAt, fmtI_i_extract, fmtI_i_bit, fmtI_a_extract, fmtI_a_bit, fmtI_ea_extract, fmtI_ea_bit, fmtI_d_extract, fmtI_d_bit, BitVec.extractLsb'_eq_self, BitVec.getLsbD_ofBool] <;> simp
theorem Format.vset d ea a : Format.Statement (.vset d ea a) := by
  intro _
  refine (decodeRaw_fmtI 98#9 d ea a 0#8).trans ?_
  change need (zeroAt _ 0 8) (Instr.vset (wd _) (we _) (wa _)) = _
  simp (disch := decide) only [need, wd, we, wa, wf, wb, wi, wh, wo, zeroAt, fmtI_i_extract, fmtI_i_bit, fmtI_a_extract, fmtI_a_bit, fmtI_ea_extract, fmtI_ea_bit, fmtI_d_extract, fmtI_d_bit, BitVec.extractLsb'_eq_self, BitVec.getLsbD_ofBool] <;> simp
theorem Format.ld d ea a s k : Format.Statement (.ld d ea a s k) := by
  intro _
  refine (decodeRaw_fmtI 104#9 d ea a (s ++ k)).trans ?_
  change Except.ok (Instr.ld (wd _) (we _) (wa _) (BitVec.extractLsb' 6 2 _) (BitVec.extractLsb' 0 6 _)) = _
  simp (disch := decide) only [need, wd, we, wa, wf, wb, wi, wh, wo, zeroAt, fmtI_i_extract, fmtI_i_bit, fmtI_a_extract, fmtI_a_bit, fmtI_ea_extract, fmtI_ea_bit, fmtI_d_extract, fmtI_d_bit, parts_2_6_lo_extract, parts_2_6_hi_extract, parts_2_6_lo_bit, parts_2_6_hi_bit, BitVec.extractLsb'_eq_self, BitVec.getLsbD_ofBool] <;> simp
theorem Format.ldU d ea a s k : Format.Statement (.ldU d ea a s k) := by
  intro _
  refine (decodeRaw_fmtI 360#9 d ea a (s ++ k)).trans ?_
  change Except.ok (Instr.ldU (wd _) (we _) (wa _) (BitVec.extractLsb' 6 2 _) (BitVec.extractLsb' 0 6 _)) = _
  simp (disch := decide) only [need, wd, we, wa, wf, wb, wi, wh, wo, zeroAt, fmtI_i_extract, fmtI_i_bit, fmtI_a_extract, fmtI_a_bit, fmtI_ea_extract, fmtI_ea_bit, fmtI_d_extract, fmtI_d_bit, parts_2_6_lo_extract, parts_2_6_hi_extract, parts_2_6_lo_bit, parts_2_6_hi_bit, BitVec.extractLsb'_eq_self, BitVec.getLsbD_ofBool] <;> simp
theorem Format.st d ea a s k : Format.Statement (.st d ea a s k) := by
  intro _
  refine (decodeRaw_fmtI 105#9 d ea a (s ++ k)).trans ?_
  change Except.ok (Instr.st (wd _) (we _) (wa _) (BitVec.extractLsb' 6 2 _) (BitVec.extractLsb' 0 6 _)) = _
  simp (disch := decide) only [need, wd, we, wa, wf, wb, wi, wh, wo, zeroAt, fmtI_i_extract, fmtI_i_bit, fmtI_a_extract, fmtI_a_bit, fmtI_ea_extract, fmtI_ea_bit, fmtI_d_extract, fmtI_d_bit, parts_2_6_lo_extract, parts_2_6_hi_extract, parts_2_6_lo_bit, parts_2_6_hi_bit, BitVec.extractLsb'_eq_self, BitVec.getLsbD_ofBool] <;> simp
theorem Format.stU d ea a s k : Format.Statement (.stU d ea a s k) := by
  intro _
  refine (decodeRaw_fmtI 361#9 d ea a (s ++ k)).trans ?_
  change Except.ok (Instr.stU (wd _) (we _) (wa _) (BitVec.extractLsb' 6 2 _) (BitVec.extractLsb' 0 6 _)) = _
  simp (disch := decide) only [need, wd, we, wa, wf, wb, wi, wh, wo, zeroAt, fmtI_i_extract, fmtI_i_bit, fmtI_a_extract, fmtI_a_bit, fmtI_ea_extract, fmtI_ea_bit, fmtI_d_extract, fmtI_d_bit, parts_2_6_lo_extract, parts_2_6_hi_extract, parts_2_6_lo_bit, parts_2_6_hi_bit, BitVec.extractLsb'_eq_self, BitVec.getLsbD_ofBool] <;> simp
theorem Format.lds d ea a s k : Format.Statement (.lds d ea a s k) := by
  intro _
  refine (decodeRaw_fmtI 106#9 d ea a (s ++ k)).trans ?_
  change Except.ok (Instr.lds (wd _) (we _) (wa _) (BitVec.extractLsb' 6 2 _) (BitVec.extractLsb' 0 6 _)) = _
  simp (disch := decide) only [need, wd, we, wa, wf, wb, wi, wh, wo, zeroAt, fmtI_i_extract, fmtI_i_bit, fmtI_a_extract, fmtI_a_bit, fmtI_ea_extract, fmtI_ea_bit, fmtI_d_extract, fmtI_d_bit, parts_2_6_lo_extract, parts_2_6_hi_extract, parts_2_6_lo_bit, parts_2_6_hi_bit, BitVec.extractLsb'_eq_self, BitVec.getLsbD_ofBool] <;> simp
theorem Format.ldsU d ea a s k : Format.Statement (.ldsU d ea a s k) := by
  intro _
  refine (decodeRaw_fmtI 362#9 d ea a (s ++ k)).trans ?_
  change Except.ok (Instr.ldsU (wd _) (we _) (wa _) (BitVec.extractLsb' 6 2 _) (BitVec.extractLsb' 0 6 _)) = _
  simp (disch := decide) only [need, wd, we, wa, wf, wb, wi, wh, wo, zeroAt, fmtI_i_extract, fmtI_i_bit, fmtI_a_extract, fmtI_a_bit, fmtI_ea_extract, fmtI_ea_bit, fmtI_d_extract, fmtI_d_bit, parts_2_6_lo_extract, parts_2_6_hi_extract, parts_2_6_lo_bit, parts_2_6_hi_bit, BitVec.extractLsb'_eq_self, BitVec.getLsbD_ofBool] <;> simp
theorem Format.sts d ea a s k : Format.Statement (.sts d ea a s k) := by
  intro _
  refine (decodeRaw_fmtI 107#9 d ea a (s ++ k)).trans ?_
  change Except.ok (Instr.sts (wd _) (we _) (wa _) (BitVec.extractLsb' 6 2 _) (BitVec.extractLsb' 0 6 _)) = _
  simp (disch := decide) only [need, wd, we, wa, wf, wb, wi, wh, wo, zeroAt, fmtI_i_extract, fmtI_i_bit, fmtI_a_extract, fmtI_a_bit, fmtI_ea_extract, fmtI_ea_bit, fmtI_d_extract, fmtI_d_bit, parts_2_6_lo_extract, parts_2_6_hi_extract, parts_2_6_lo_bit, parts_2_6_hi_bit, BitVec.extractLsb'_eq_self, BitVec.getLsbD_ofBool] <;> simp
theorem Format.stsU d ea a s k : Format.Statement (.stsU d ea a s k) := by
  intro _
  refine (decodeRaw_fmtI 363#9 d ea a (s ++ k)).trans ?_
  change Except.ok (Instr.stsU (wd _) (we _) (wa _) (BitVec.extractLsb' 6 2 _) (BitVec.extractLsb' 0 6 _)) = _
  simp (disch := decide) only [need, wd, we, wa, wf, wb, wi, wh, wo, zeroAt, fmtI_i_extract, fmtI_i_bit, fmtI_a_extract, fmtI_a_bit, fmtI_ea_extract, fmtI_ea_bit, fmtI_d_extract, fmtI_d_bit, parts_2_6_lo_extract, parts_2_6_hi_extract, parts_2_6_lo_bit, parts_2_6_hi_bit, BitVec.extractLsb'_eq_self, BitVec.getLsbD_ofBool] <;> simp
theorem Format.ldc d ea a s k : Format.Statement (.ldc d ea a s k) := by
  intro _
  refine (decodeRaw_fmtI 108#9 d ea a (s ++ k)).trans ?_
  change Except.ok (Instr.ldc (wd _) (we _) (wa _) (BitVec.extractLsb' 6 2 _) (BitVec.extractLsb' 0 6 _)) = _
  simp (disch := decide) only [need, wd, we, wa, wf, wb, wi, wh, wo, zeroAt, fmtI_i_extract, fmtI_i_bit, fmtI_a_extract, fmtI_a_bit, fmtI_ea_extract, fmtI_ea_bit, fmtI_d_extract, fmtI_d_bit, parts_2_6_lo_extract, parts_2_6_hi_extract, parts_2_6_lo_bit, parts_2_6_hi_bit, BitVec.extractLsb'_eq_self, BitVec.getLsbD_ofBool] <;> simp
theorem Format.ldcU d ea a s k : Format.Statement (.ldcU d ea a s k) := by
  intro _
  refine (decodeRaw_fmtI 364#9 d ea a (s ++ k)).trans ?_
  change Except.ok (Instr.ldcU (wd _) (we _) (wa _) (BitVec.extractLsb' 6 2 _) (BitVec.extractLsb' 0 6 _)) = _
  simp (disch := decide) only [need, wd, we, wa, wf, wb, wi, wh, wo, zeroAt, fmtI_i_extract, fmtI_i_bit, fmtI_a_extract, fmtI_a_bit, fmtI_ea_extract, fmtI_ea_bit, fmtI_d_extract, fmtI_d_bit, parts_2_6_lo_extract, parts_2_6_hi_extract, parts_2_6_lo_bit, parts_2_6_hi_bit, BitVec.extractLsb'_eq_self, BitVec.getLsbD_ofBool] <;> simp
theorem Format.pref ea a k : Format.Statement (.pref ea a k) := by
  intro _
  refine (decodeRaw_fmtI 109#9 0#7 ea a (0#2 ++ k)).trans ?_
  change need (zeroAt _ 6 2 && zeroAt _ 16 7) (Instr.pref (we _) (wa _) (BitVec.extractLsb' 0 6 _)) = _
  simp (disch := decide) only [need, wd, we, wa, wf, wb, wi, wh, wo, zeroAt, fmtI_i_extract, fmtI_i_bit, fmtI_a_extract, fmtI_a_bit, fmtI_ea_extract, fmtI_ea_bit, fmtI_d_extract, fmtI_d_bit, parts_2_6_lo_extract, parts_2_6_hi_extract, parts_2_6_lo_bit, parts_2_6_hi_bit, BitVec.extractLsb'_eq_self, BitVec.getLsbD_ofBool] <;> simp
theorem Format.prefU ea a k : Format.Statement (.prefU ea a k) := by
  intro _
  refine (decodeRaw_fmtI 365#9 0#7 ea a (0#2 ++ k)).trans ?_
  change need (zeroAt _ 6 2 && zeroAt _ 16 7) (Instr.prefU (we _) (wa _) (BitVec.extractLsb' 0 6 _)) = _
  simp (disch := decide) only [need, wd, we, wa, wf, wb, wi, wh, wo, zeroAt, fmtI_i_extract, fmtI_i_bit, fmtI_a_extract, fmtI_a_bit, fmtI_ea_extract, fmtI_ea_bit, fmtI_d_extract, fmtI_d_bit, parts_2_6_lo_extract, parts_2_6_hi_extract, parts_2_6_lo_bit, parts_2_6_hi_bit, BitVec.extractLsb'_eq_self, BitVec.getLsbD_ofBool] <;> simp
theorem Format.aadd d ea a r w k : Format.Statement (.aadd d ea a r w k) := by
  intro _
  refine (decodeRaw_fmtI 112#9 d ea a (BitVec.ofBool r ++ BitVec.ofBool w ++ k)).trans ?_
  change Except.ok (Instr.aadd (wd _) (we _) (wa _) (wf _) (BitVec.getLsbD _ 6) (BitVec.extractLsb' 0 6 _)) = _
  simp (disch := decide) only [need, wd, we, wa, wf, wb, wi, wh, wo, zeroAt, fmtI_i_extract, fmtI_i_bit, fmtI_a_extract, fmtI_a_bit, fmtI_ea_extract, fmtI_ea_bit, fmtI_d_extract, fmtI_d_bit, parts_1_1_6_lo_extract, parts_1_1_6_mid_extract, parts_1_1_6_hi_extract, parts_1_1_6_lo_bit, parts_1_1_6_mid_bit, parts_1_1_6_hi_bit, BitVec.extractLsb'_eq_self, BitVec.getLsbD_ofBool] <;> simp
theorem Format.afadd d ea a r k : Format.Statement (.afadd d ea a r k) := by
  intro _
  refine (decodeRaw_fmtI 113#9 d ea a (BitVec.ofBool r ++ 0#1 ++ k)).trans ?_
  change need (zeroAt _ 6 1) (Instr.afadd (wd _) (we _) (wa _) (wf _) (BitVec.extractLsb' 0 6 _)) = _
  simp (disch := decide) only [need, wd, we, wa, wf, wb, wi, wh, wo, zeroAt, fmtI_i_extract, fmtI_i_bit, fmtI_a_extract, fmtI_a_bit, fmtI_ea_extract, fmtI_ea_bit, fmtI_d_extract, fmtI_d_bit, parts_1_1_6_lo_extract, parts_1_1_6_mid_extract, parts_1_1_6_hi_extract, parts_1_1_6_lo_bit, parts_1_1_6_mid_bit, parts_1_1_6_hi_bit, BitVec.extractLsb'_eq_self, BitVec.getLsbD_ofBool] <;> simp
theorem Format.amin d ea a r w k : Format.Statement (.amin d ea a r w k) := by
  intro _
  refine (decodeRaw_fmtI 114#9 d ea a (BitVec.ofBool r ++ BitVec.ofBool w ++ k)).trans ?_
  change Except.ok (Instr.amin (wd _) (we _) (wa _) (wf _) (BitVec.getLsbD _ 6) (BitVec.extractLsb' 0 6 _)) = _
  simp (disch := decide) only [need, wd, we, wa, wf, wb, wi, wh, wo, zeroAt, fmtI_i_extract, fmtI_i_bit, fmtI_a_extract, fmtI_a_bit, fmtI_ea_extract, fmtI_ea_bit, fmtI_d_extract, fmtI_d_bit, parts_1_1_6_lo_extract, parts_1_1_6_mid_extract, parts_1_1_6_hi_extract, parts_1_1_6_lo_bit, parts_1_1_6_mid_bit, parts_1_1_6_hi_bit, BitVec.extractLsb'_eq_self, BitVec.getLsbD_ofBool] <;> simp
theorem Format.amax d ea a r w k : Format.Statement (.amax d ea a r w k) := by
  intro _
  refine (decodeRaw_fmtI 115#9 d ea a (BitVec.ofBool r ++ BitVec.ofBool w ++ k)).trans ?_
  change Except.ok (Instr.amax (wd _) (we _) (wa _) (wf _) (BitVec.getLsbD _ 6) (BitVec.extractLsb' 0 6 _)) = _
  simp (disch := decide) only [need, wd, we, wa, wf, wb, wi, wh, wo, zeroAt, fmtI_i_extract, fmtI_i_bit, fmtI_a_extract, fmtI_a_bit, fmtI_ea_extract, fmtI_ea_bit, fmtI_d_extract, fmtI_d_bit, parts_1_1_6_lo_extract, parts_1_1_6_mid_extract, parts_1_1_6_hi_extract, parts_1_1_6_lo_bit, parts_1_1_6_mid_bit, parts_1_1_6_hi_bit, BitVec.extractLsb'_eq_self, BitVec.getLsbD_ofBool] <;> simp
theorem Format.aand d ea a r w k : Format.Statement (.aand d ea a r w k) := by
  intro _
  refine (decodeRaw_fmtI 116#9 d ea a (BitVec.ofBool r ++ BitVec.ofBool w ++ k)).trans ?_
  change Except.ok (Instr.aand (wd _) (we _) (wa _) (wf _) (BitVec.getLsbD _ 6) (BitVec.extractLsb' 0 6 _)) = _
  simp (disch := decide) only [need, wd, we, wa, wf, wb, wi, wh, wo, zeroAt, fmtI_i_extract, fmtI_i_bit, fmtI_a_extract, fmtI_a_bit, fmtI_ea_extract, fmtI_ea_bit, fmtI_d_extract, fmtI_d_bit, parts_1_1_6_lo_extract, parts_1_1_6_mid_extract, parts_1_1_6_hi_extract, parts_1_1_6_lo_bit, parts_1_1_6_mid_bit, parts_1_1_6_hi_bit, BitVec.extractLsb'_eq_self, BitVec.getLsbD_ofBool] <;> simp
theorem Format.aor d ea a r w k : Format.Statement (.aor d ea a r w k) := by
  intro _
  refine (decodeRaw_fmtI 117#9 d ea a (BitVec.ofBool r ++ BitVec.ofBool w ++ k)).trans ?_
  change Except.ok (Instr.aor (wd _) (we _) (wa _) (wf _) (BitVec.getLsbD _ 6) (BitVec.extractLsb' 0 6 _)) = _
  simp (disch := decide) only [need, wd, we, wa, wf, wb, wi, wh, wo, zeroAt, fmtI_i_extract, fmtI_i_bit, fmtI_a_extract, fmtI_a_bit, fmtI_ea_extract, fmtI_ea_bit, fmtI_d_extract, fmtI_d_bit, parts_1_1_6_lo_extract, parts_1_1_6_mid_extract, parts_1_1_6_hi_extract, parts_1_1_6_lo_bit, parts_1_1_6_mid_bit, parts_1_1_6_hi_bit, BitVec.extractLsb'_eq_self, BitVec.getLsbD_ofBool] <;> simp
theorem Format.axor d ea a r w k : Format.Statement (.axor d ea a r w k) := by
  intro _
  refine (decodeRaw_fmtI 118#9 d ea a (BitVec.ofBool r ++ BitVec.ofBool w ++ k)).trans ?_
  change Except.ok (Instr.axor (wd _) (we _) (wa _) (wf _) (BitVec.getLsbD _ 6) (BitVec.extractLsb' 0 6 _)) = _
  simp (disch := decide) only [need, wd, we, wa, wf, wb, wi, wh, wo, zeroAt, fmtI_i_extract, fmtI_i_bit, fmtI_a_extract, fmtI_a_bit, fmtI_ea_extract, fmtI_ea_bit, fmtI_d_extract, fmtI_d_bit, parts_1_1_6_lo_extract, parts_1_1_6_mid_extract, parts_1_1_6_hi_extract, parts_1_1_6_lo_bit, parts_1_1_6_mid_bit, parts_1_1_6_hi_bit, BitVec.extractLsb'_eq_self, BitVec.getLsbD_ofBool] <;> simp
theorem Format.axch d ea a r w k : Format.Statement (.axch d ea a r w k) := by
  intro _
  refine (decodeRaw_fmtI 119#9 d ea a (BitVec.ofBool r ++ BitVec.ofBool w ++ k)).trans ?_
  change Except.ok (Instr.axch (wd _) (we _) (wa _) (wf _) (BitVec.getLsbD _ 6) (BitVec.extractLsb' 0 6 _)) = _
  simp (disch := decide) only [need, wd, we, wa, wf, wb, wi, wh, wo, zeroAt, fmtI_i_extract, fmtI_i_bit, fmtI_a_extract, fmtI_a_bit, fmtI_ea_extract, fmtI_ea_bit, fmtI_d_extract, fmtI_d_bit, parts_1_1_6_lo_extract, parts_1_1_6_mid_extract, parts_1_1_6_hi_extract, parts_1_1_6_lo_bit, parts_1_1_6_mid_bit, parts_1_1_6_hi_bit, BitVec.extractLsb'_eq_self, BitVec.getLsbD_ofBool] <;> simp
theorem Format.acas d ea a r w k : Format.Statement (.acas d ea a r w k) := by
  intro _
  refine (decodeRaw_fmtI 120#9 d ea a (BitVec.ofBool r ++ BitVec.ofBool w ++ k)).trans ?_
  change Except.ok (Instr.acas (wd _) (we _) (wa _) (wf _) (BitVec.getLsbD _ 6) (BitVec.extractLsb' 0 6 _)) = _
  simp (disch := decide) only [need, wd, we, wa, wf, wb, wi, wh, wo, zeroAt, fmtI_i_extract, fmtI_i_bit, fmtI_a_extract, fmtI_a_bit, fmtI_ea_extract, fmtI_ea_bit, fmtI_d_extract, fmtI_d_bit, parts_1_1_6_lo_extract, parts_1_1_6_mid_extract, parts_1_1_6_hi_extract, parts_1_1_6_lo_bit, parts_1_1_6_mid_bit, parts_1_1_6_hi_bit, BitVec.extractLsb'_eq_self, BitVec.getLsbD_ofBool] <;> simp
theorem Format.ainc d ea a r w k : Format.Statement (.ainc d ea a r w k) := by
  intro _
  refine (decodeRaw_fmtI 121#9 d ea a (BitVec.ofBool r ++ BitVec.ofBool w ++ k)).trans ?_
  change Except.ok (Instr.ainc (wd _) (we _) (wa _) (wf _) (BitVec.getLsbD _ 6) (BitVec.extractLsb' 0 6 _)) = _
  simp (disch := decide) only [need, wd, we, wa, wf, wb, wi, wh, wo, zeroAt, fmtI_i_extract, fmtI_i_bit, fmtI_a_extract, fmtI_a_bit, fmtI_ea_extract, fmtI_ea_bit, fmtI_d_extract, fmtI_d_bit, parts_1_1_6_lo_extract, parts_1_1_6_mid_extract, parts_1_1_6_hi_extract, parts_1_1_6_lo_bit, parts_1_1_6_mid_bit, parts_1_1_6_hi_bit, BitVec.extractLsb'_eq_self, BitVec.getLsbD_ofBool] <;> simp
theorem Format.bind d ea a eb b : Format.Statement (.bind d ea a eb b) := by
  intro _
  refine (decodeRaw_fmtV 128#9 d ea a eb b).trans ?_
  change Except.ok (Instr.bind (wd _) (we _) (wa _) (wf _) (wb _)) = _
  simp (disch := decide) only [need, wd, we, wa, wf, wb, wi, wh, wo, zeroAt, fmtV_b_extract, fmtV_b_bit, fmtV_eb_extract, fmtV_eb_bit, fmtV_a_extract, fmtV_a_bit, fmtV_ea_extract, fmtV_ea_bit, fmtV_d_extract, fmtV_d_bit, BitVec.extractLsb'_eq_self, BitVec.getLsbD_ofBool] <;> simp
theorem Format.bindU d ea a eb b : Format.Statement (.bindU d ea a eb b) := by
  intro _
  refine (decodeRaw_fmtV 384#9 d ea a eb b).trans ?_
  change Except.ok (Instr.bindU (wd _) (we _) (wa _) (wf _) (wb _)) = _
  simp (disch := decide) only [need, wd, we, wa, wf, wb, wi, wh, wo, zeroAt, fmtV_b_extract, fmtV_b_bit, fmtV_eb_extract, fmtV_eb_bit, fmtV_a_extract, fmtV_a_bit, fmtV_ea_extract, fmtV_ea_bit, fmtV_d_extract, fmtV_d_bit, BitVec.extractLsb'_eq_self, BitVec.getLsbD_ofBool] <;> simp
theorem Format.unbind ea a : Format.Statement (.unbind ea a) := by
  intro _
  refine (decodeRaw_fmtI 129#9 0#7 ea a 0#8).trans ?_
  change need (zeroAt _ 0 8 && zeroAt _ 16 7) (Instr.unbind (we _) (wa _)) = _
  simp (disch := decide) only [need, wd, we, wa, wf, wb, wi, wh, wo, zeroAt, fmtI_i_extract, fmtI_i_bit, fmtI_a_extract, fmtI_a_bit, fmtI_ea_extract, fmtI_ea_bit, fmtI_d_extract, fmtI_d_bit, BitVec.extractLsb'_eq_self, BitVec.getLsbD_ofBool] <;> simp
theorem Format.unbindU ea a : Format.Statement (.unbindU ea a) := by
  intro _
  refine (decodeRaw_fmtI 385#9 0#7 ea a 0#8).trans ?_
  change need (zeroAt _ 0 8 && zeroAt _ 16 7) (Instr.unbindU (we _) (wa _)) = _
  simp (disch := decide) only [need, wd, we, wa, wf, wb, wi, wh, wo, zeroAt, fmtI_i_extract, fmtI_i_bit, fmtI_a_extract, fmtI_a_bit, fmtI_ea_extract, fmtI_ea_bit, fmtI_d_extract, fmtI_d_bit, BitVec.extractLsb'_eq_self, BitVec.getLsbD_ofBool] <;> simp
theorem Format.acq d ea a s : Format.Statement (.acq d ea a s) := by
  intro _
  refine (decodeRaw_fmtI 130#9 d ea a (0#5 ++ s)).trans ?_
  change need (zeroAt _ 3 5) (Instr.acq (wd _) (we _) (wa _) (BitVec.extractLsb' 0 3 _)) = _
  simp (disch := decide) only [need, wd, we, wa, wf, wb, wi, wh, wo, zeroAt, fmtI_i_extract, fmtI_i_bit, fmtI_a_extract, fmtI_a_bit, fmtI_ea_extract, fmtI_ea_bit, fmtI_d_extract, fmtI_d_bit, parts_5_3_lo_extract, parts_5_3_hi_extract, parts_5_3_lo_bit, parts_5_3_hi_bit, BitVec.extractLsb'_eq_self, BitVec.getLsbD_ofBool] <;> simp
theorem Format.acqU d ea a s : Format.Statement (.acqU d ea a s) := by
  intro _
  refine (decodeRaw_fmtI 386#9 d ea a (0#5 ++ s)).trans ?_
  change need (zeroAt _ 3 5) (Instr.acqU (wd _) (we _) (wa _) (BitVec.extractLsb' 0 3 _)) = _
  simp (disch := decide) only [need, wd, we, wa, wf, wb, wi, wh, wo, zeroAt, fmtI_i_extract, fmtI_i_bit, fmtI_a_extract, fmtI_a_bit, fmtI_ea_extract, fmtI_ea_bit, fmtI_d_extract, fmtI_d_bit, parts_5_3_lo_extract, parts_5_3_hi_extract, parts_5_3_lo_bit, parts_5_3_hi_bit, BitVec.extractLsb'_eq_self, BitVec.getLsbD_ofBool] <;> simp
theorem Format.rel d ea a s : Format.Statement (.rel d ea a s) := by
  intro _
  refine (decodeRaw_fmtI 131#9 d ea a (0#5 ++ s)).trans ?_
  change need (zeroAt _ 3 5) (Instr.rel (wd _) (we _) (wa _) (BitVec.extractLsb' 0 3 _)) = _
  simp (disch := decide) only [need, wd, we, wa, wf, wb, wi, wh, wo, zeroAt, fmtI_i_extract, fmtI_i_bit, fmtI_a_extract, fmtI_a_bit, fmtI_ea_extract, fmtI_ea_bit, fmtI_d_extract, fmtI_d_bit, parts_5_3_lo_extract, parts_5_3_hi_extract, parts_5_3_lo_bit, parts_5_3_hi_bit, BitVec.extractLsb'_eq_self, BitVec.getLsbD_ofBool] <;> simp
theorem Format.relU d ea a s : Format.Statement (.relU d ea a s) := by
  intro _
  refine (decodeRaw_fmtI 387#9 d ea a (0#5 ++ s)).trans ?_
  change need (zeroAt _ 3 5) (Instr.relU (wd _) (we _) (wa _) (BitVec.extractLsb' 0 3 _)) = _
  simp (disch := decide) only [need, wd, we, wa, wf, wb, wi, wh, wo, zeroAt, fmtI_i_extract, fmtI_i_bit, fmtI_a_extract, fmtI_a_bit, fmtI_ea_extract, fmtI_ea_bit, fmtI_d_extract, fmtI_d_bit, parts_5_3_lo_extract, parts_5_3_hi_extract, parts_5_3_lo_bit, parts_5_3_hi_bit, BitVec.extractLsb'_eq_self, BitVec.getLsbD_ofBool] <;> simp
theorem Format.fence s : Format.Statement (.fence s) := by
  intro _
  refine (decodeRaw_fmtI 132#9 0#7 false 0#7 (0#5 ++ s)).trans ?_
  change need (zeroAt _ 3 20) (Instr.fence (BitVec.extractLsb' 0 3 _)) = _
  simp only [zeroAt_3_20, zeroAt_8_15, zeroAt_15_8]
  simp (disch := decide) only [need, wd, we, wa, wf, wb, wi, wh, wo, zeroAt, fmtI_i_extract, fmtI_i_bit, fmtI_a_extract, fmtI_a_bit, fmtI_ea_extract, fmtI_ea_bit, fmtI_d_extract, fmtI_d_bit, parts_5_3_lo_extract, parts_5_3_hi_extract, parts_5_3_lo_bit, parts_5_3_hi_bit, BitVec.extractLsb'_eq_self, BitVec.getLsbD_ofBool] <;> simp
theorem Format.pub d ea a s : Format.Statement (.pub d ea a s) := by
  intro _
  refine (decodeRaw_fmtI 133#9 d ea a (0#5 ++ s)).trans ?_
  change need (zeroAt _ 3 5) (Instr.pub (wd _) (we _) (wa _) (BitVec.extractLsb' 0 3 _)) = _
  simp (disch := decide) only [need, wd, we, wa, wf, wb, wi, wh, wo, zeroAt, fmtI_i_extract, fmtI_i_bit, fmtI_a_extract, fmtI_a_bit, fmtI_ea_extract, fmtI_ea_bit, fmtI_d_extract, fmtI_d_bit, parts_5_3_lo_extract, parts_5_3_hi_extract, parts_5_3_lo_bit, parts_5_3_hi_bit, BitVec.extractLsb'_eq_self, BitVec.getLsbD_ofBool] <;> simp
theorem Format.qw q ea a : Format.Statement (.qw q ea a) := by
  intro _
  refine (decodeRaw_fmtI 390#9 (0#4 ++ q) ea a 0#8).trans ?_
  change need (zeroAt _ 0 8 && zeroAt _ 19 4) (Instr.qw (BitVec.extractLsb' 16 3 _) (we _) (wa _)) = _
  simp (disch := decide) only [need, wd, we, wa, wf, wb, wi, wh, wo, zeroAt, fmtI_i_extract, fmtI_i_bit, fmtI_a_extract, fmtI_a_bit, fmtI_ea_extract, fmtI_ea_bit, fmtI_d_extract, fmtI_d_bit, parts_4_3_lo_extract, parts_4_3_hi_extract, parts_4_3_lo_bit, parts_4_3_hi_bit, BitVec.extractLsb'_eq_self, BitVec.getLsbD_ofBool] <;> simp
theorem Format.qr d q : Format.Statement (.qr d q) := by
  intro _
  refine (decodeRaw_fmtI 391#9 d false (0#4 ++ q) 0#8).trans ?_
  change need (zeroAt _ 0 8 && zeroAt _ 11 5) (Instr.qr (wd _) (BitVec.extractLsb' 8 3 _)) = _
  simp only [zeroAt_11_5]
  simp (disch := decide) only [need, wd, we, wa, wf, wb, wi, wh, wo, zeroAt, fmtI_i_extract, fmtI_i_bit, fmtI_a_extract, fmtI_a_bit, fmtI_ea_extract, fmtI_ea_bit, fmtI_d_extract, fmtI_d_bit, parts_4_3_lo_extract, parts_4_3_hi_extract, parts_4_3_lo_bit, parts_4_3_hi_bit, BitVec.extractLsb'_eq_self, BitVec.getLsbD_ofBool] <;> simp
theorem Format.qstat d q : Format.Statement (.qstat d q) := by
  intro _
  refine (decodeRaw_fmtI 392#9 d false (0#4 ++ q) 0#8).trans ?_
  change need (zeroAt _ 0 8 && zeroAt _ 11 5) (Instr.qstat (wd _) (BitVec.extractLsb' 8 3 _)) = _
  simp only [zeroAt_11_5]
  simp (disch := decide) only [need, wd, we, wa, wf, wb, wi, wh, wo, zeroAt, fmtI_i_extract, fmtI_i_bit, fmtI_a_extract, fmtI_a_bit, fmtI_ea_extract, fmtI_ea_bit, fmtI_d_extract, fmtI_d_bit, parts_4_3_lo_extract, parts_4_3_hi_extract, parts_4_3_lo_bit, parts_4_3_hi_bit, BitVec.extractLsb'_eq_self, BitVec.getLsbD_ofBool] <;> simp
theorem Format.swset d ea a : Format.Statement (.swset d ea a) := by
  intro _
  refine (decodeRaw_fmtI 393#9 d ea a 0#8).trans ?_
  change need (zeroAt _ 0 8) (Instr.swset (wd _) (we _) (wa _)) = _
  simp (disch := decide) only [need, wd, we, wa, wf, wb, wi, wh, wo, zeroAt, fmtI_i_extract, fmtI_i_bit, fmtI_a_extract, fmtI_a_bit, fmtI_ea_extract, fmtI_ea_bit, fmtI_d_extract, fmtI_d_bit, BitVec.extractLsb'_eq_self, BitVec.getLsbD_ofBool] <;> simp
theorem Format.swadd d ea a : Format.Statement (.swadd d ea a) := by
  intro _
  refine (decodeRaw_fmtI 394#9 d ea a 0#8).trans ?_
  change need (zeroAt _ 0 8) (Instr.swadd (wd _) (we _) (wa _)) = _
  simp (disch := decide) only [need, wd, we, wa, wf, wb, wi, wh, wo, zeroAt, fmtI_i_extract, fmtI_i_bit, fmtI_a_extract, fmtI_a_bit, fmtI_ea_extract, fmtI_ea_bit, fmtI_d_extract, fmtI_d_bit, BitVec.extractLsb'_eq_self, BitVec.getLsbD_ofBool] <;> simp
theorem Format.swgen d ea a : Format.Statement (.swgen d ea a) := by
  intro _
  refine (decodeRaw_fmtI 395#9 d ea a 0#8).trans ?_
  change need (zeroAt _ 0 8) (Instr.swgen (wd _) (we _) (wa _)) = _
  simp (disch := decide) only [need, wd, we, wa, wf, wb, wi, wh, wo, zeroAt, fmtI_i_extract, fmtI_i_bit, fmtI_a_extract, fmtI_a_bit, fmtI_ea_extract, fmtI_ea_bit, fmtI_d_extract, fmtI_d_bit, BitVec.extractLsb'_eq_self, BitVec.getLsbD_ofBool] <;> simp
theorem Format.fread d ea a k : Format.Statement (.fread d ea a k) := by
  intro _
  refine (decodeRaw_fmtI 140#9 d ea a (0#2 ++ k)).trans ?_
  change need (zeroAt _ 6 2) (Instr.fread (wd _) (we _) (wa _) (BitVec.extractLsb' 0 6 _)) = _
  simp (disch := decide) only [need, wd, we, wa, wf, wb, wi, wh, wo, zeroAt, fmtI_i_extract, fmtI_i_bit, fmtI_a_extract, fmtI_a_bit, fmtI_ea_extract, fmtI_ea_bit, fmtI_d_extract, fmtI_d_bit, parts_2_6_lo_extract, parts_2_6_hi_extract, parts_2_6_lo_bit, parts_2_6_hi_bit, BitVec.extractLsb'_eq_self, BitVec.getLsbD_ofBool] <;> simp
theorem Format.freadU d ea a k : Format.Statement (.freadU d ea a k) := by
  intro _
  refine (decodeRaw_fmtI 396#9 d ea a (0#2 ++ k)).trans ?_
  change need (zeroAt _ 6 2) (Instr.freadU (wd _) (we _) (wa _) (BitVec.extractLsb' 0 6 _)) = _
  simp (disch := decide) only [need, wd, we, wa, wf, wb, wi, wh, wo, zeroAt, fmtI_i_extract, fmtI_i_bit, fmtI_a_extract, fmtI_a_bit, fmtI_ea_extract, fmtI_ea_bit, fmtI_d_extract, fmtI_d_bit, parts_2_6_lo_extract, parts_2_6_hi_extract, parts_2_6_lo_bit, parts_2_6_hi_bit, BitVec.extractLsb'_eq_self, BitVec.getLsbD_ofBool] <;> simp
theorem Format.ffill d ea a k : Format.Statement (.ffill d ea a k) := by
  intro _
  refine (decodeRaw_fmtI 141#9 d ea a (0#2 ++ k)).trans ?_
  change need (zeroAt _ 6 2) (Instr.ffill (wd _) (we _) (wa _) (BitVec.extractLsb' 0 6 _)) = _
  simp (disch := decide) only [need, wd, we, wa, wf, wb, wi, wh, wo, zeroAt, fmtI_i_extract, fmtI_i_bit, fmtI_a_extract, fmtI_a_bit, fmtI_ea_extract, fmtI_ea_bit, fmtI_d_extract, fmtI_d_bit, parts_2_6_lo_extract, parts_2_6_hi_extract, parts_2_6_lo_bit, parts_2_6_hi_bit, BitVec.extractLsb'_eq_self, BitVec.getLsbD_ofBool] <;> simp
theorem Format.ffillU d ea a k : Format.Statement (.ffillU d ea a k) := by
  intro _
  refine (decodeRaw_fmtI 397#9 d ea a (0#2 ++ k)).trans ?_
  change need (zeroAt _ 6 2) (Instr.ffillU (wd _) (we _) (wa _) (BitVec.extractLsb' 0 6 _)) = _
  simp (disch := decide) only [need, wd, we, wa, wf, wb, wi, wh, wo, zeroAt, fmtI_i_extract, fmtI_i_bit, fmtI_a_extract, fmtI_a_bit, fmtI_ea_extract, fmtI_ea_bit, fmtI_d_extract, fmtI_d_bit, parts_2_6_lo_extract, parts_2_6_hi_extract, parts_2_6_lo_bit, parts_2_6_hi_bit, BitVec.extractLsb'_eq_self, BitVec.getLsbD_ofBool] <;> simp
theorem Format.fwait ea a k : Format.Statement (.fwait ea a k) := by
  intro _
  refine (decodeRaw_fmtI 142#9 0#7 ea a (0#2 ++ k)).trans ?_
  change need (zeroAt _ 6 2 && zeroAt _ 16 7) (Instr.fwait (we _) (wa _) (BitVec.extractLsb' 0 6 _)) = _
  simp (disch := decide) only [need, wd, we, wa, wf, wb, wi, wh, wo, zeroAt, fmtI_i_extract, fmtI_i_bit, fmtI_a_extract, fmtI_a_bit, fmtI_ea_extract, fmtI_ea_bit, fmtI_d_extract, fmtI_d_bit, parts_2_6_lo_extract, parts_2_6_hi_extract, parts_2_6_lo_bit, parts_2_6_hi_bit, BitVec.extractLsb'_eq_self, BitVec.getLsbD_ofBool] <;> simp
theorem Format.fclr ea a k : Format.Statement (.fclr ea a k) := by
  intro _
  refine (decodeRaw_fmtI 143#9 0#7 ea a (0#2 ++ k)).trans ?_
  change need (zeroAt _ 6 2 && zeroAt _ 16 7) (Instr.fclr (we _) (wa _) (BitVec.extractLsb' 0 6 _)) = _
  simp (disch := decide) only [need, wd, we, wa, wf, wb, wi, wh, wo, zeroAt, fmtI_i_extract, fmtI_i_bit, fmtI_a_extract, fmtI_a_bit, fmtI_ea_extract, fmtI_ea_bit, fmtI_d_extract, fmtI_d_bit, parts_2_6_lo_extract, parts_2_6_hi_extract, parts_2_6_lo_bit, parts_2_6_hi_bit, BitVec.extractLsb'_eq_self, BitVec.getLsbD_ofBool] <;> simp
theorem Format.fclrU ea a k : Format.Statement (.fclrU ea a k) := by
  intro _
  refine (decodeRaw_fmtI 399#9 0#7 ea a (0#2 ++ k)).trans ?_
  change need (zeroAt _ 6 2 && zeroAt _ 16 7) (Instr.fclrU (we _) (wa _) (BitVec.extractLsb' 0 6 _)) = _
  simp (disch := decide) only [need, wd, we, wa, wf, wb, wi, wh, wo, zeroAt, fmtI_i_extract, fmtI_i_bit, fmtI_a_extract, fmtI_a_bit, fmtI_ea_extract, fmtI_ea_bit, fmtI_d_extract, fmtI_d_bit, parts_2_6_lo_extract, parts_2_6_hi_extract, parts_2_6_lo_bit, parts_2_6_hi_bit, BitVec.extractLsb'_eq_self, BitVec.getLsbD_ofBool] <;> simp
theorem Format.wlpush d w : Format.Statement (.wlpush d w) := by
  intro _
  refine (decodeRaw_fmtI 144#9 d false 0#7 (0#4 ++ w)).trans ?_
  change need (zeroAt _ 4 12) (Instr.wlpush (wd _) (BitVec.extractLsb' 0 4 _)) = _
  simp only [zeroAt_4_12, zeroAt_8_8]
  simp (disch := decide) only [need, wd, we, wa, wf, wb, wi, wh, wo, zeroAt, fmtI_i_extract, fmtI_i_bit, fmtI_a_extract, fmtI_a_bit, fmtI_ea_extract, fmtI_ea_bit, fmtI_d_extract, fmtI_d_bit, parts_4_4_lo_extract, parts_4_4_hi_extract, parts_4_4_lo_bit, parts_4_4_hi_bit, BitVec.extractLsb'_eq_self, BitVec.getLsbD_ofBool] <;> simp
theorem Format.wlpushU d w : Format.Statement (.wlpushU d w) := by
  intro _
  refine (decodeRaw_fmtI 400#9 d false 0#7 (0#4 ++ w)).trans ?_
  change need (zeroAt _ 4 12) (Instr.wlpushU (wd _) (BitVec.extractLsb' 0 4 _)) = _
  simp only [zeroAt_4_12, zeroAt_8_8]
  simp (disch := decide) only [need, wd, we, wa, wf, wb, wi, wh, wo, zeroAt, fmtI_i_extract, fmtI_i_bit, fmtI_a_extract, fmtI_a_bit, fmtI_ea_extract, fmtI_ea_bit, fmtI_d_extract, fmtI_d_bit, parts_4_4_lo_extract, parts_4_4_hi_extract, parts_4_4_lo_bit, parts_4_4_hi_bit, BitVec.extractLsb'_eq_self, BitVec.getLsbD_ofBool] <;> simp
theorem Format.wlpushr d w : Format.Statement (.wlpushr d w) := by
  intro _
  refine (decodeRaw_fmtI 145#9 d false 0#7 (0#4 ++ w)).trans ?_
  change need (zeroAt _ 4 12) (Instr.wlpushr (wd _) (BitVec.extractLsb' 0 4 _)) = _
  simp only [zeroAt_4_12, zeroAt_8_8]
  simp (disch := decide) only [need, wd, we, wa, wf, wb, wi, wh, wo, zeroAt, fmtI_i_extract, fmtI_i_bit, fmtI_a_extract, fmtI_a_bit, fmtI_ea_extract, fmtI_ea_bit, fmtI_d_extract, fmtI_d_bit, parts_4_4_lo_extract, parts_4_4_hi_extract, parts_4_4_lo_bit, parts_4_4_hi_bit, BitVec.extractLsb'_eq_self, BitVec.getLsbD_ofBool] <;> simp
theorem Format.wlpushrU d w : Format.Statement (.wlpushrU d w) := by
  intro _
  refine (decodeRaw_fmtI 401#9 d false 0#7 (0#4 ++ w)).trans ?_
  change need (zeroAt _ 4 12) (Instr.wlpushrU (wd _) (BitVec.extractLsb' 0 4 _)) = _
  simp only [zeroAt_4_12, zeroAt_8_8]
  simp (disch := decide) only [need, wd, we, wa, wf, wb, wi, wh, wo, zeroAt, fmtI_i_extract, fmtI_i_bit, fmtI_a_extract, fmtI_a_bit, fmtI_ea_extract, fmtI_ea_bit, fmtI_d_extract, fmtI_d_bit, parts_4_4_lo_extract, parts_4_4_hi_extract, parts_4_4_lo_bit, parts_4_4_hi_bit, BitVec.extractLsb'_eq_self, BitVec.getLsbD_ofBool] <;> simp
theorem Format.wlpop d p w : Format.Statement (.wlpop d p w) := by
  intro _
  refine (decodeRaw_fmtI 146#9 d false (0#4 ++ p) (0#4 ++ w)).trans ?_
  change need (zeroAt _ 4 4 && zeroAt _ 11 5) (Instr.wlpop (wd _) (BitVec.extractLsb' 8 3 _) (BitVec.extractLsb' 0 4 _)) = _
  simp only [zeroAt_11_5]
  simp (disch := decide) only [need, wd, we, wa, wf, wb, wi, wh, wo, zeroAt, fmtI_i_extract, fmtI_i_bit, fmtI_a_extract, fmtI_a_bit, fmtI_ea_extract, fmtI_ea_bit, fmtI_d_extract, fmtI_d_bit, parts_4_3_lo_extract, parts_4_3_hi_extract, parts_4_3_lo_bit, parts_4_3_hi_bit, parts_4_4_lo_extract, parts_4_4_hi_extract, parts_4_4_lo_bit, parts_4_4_hi_bit, BitVec.extractLsb'_eq_self, BitVec.getLsbD_ofBool] <;> simp
theorem Format.wldone w : Format.Statement (.wldone w) := by
  intro _
  refine (decodeRaw_fmtI 147#9 0#7 false 0#7 (0#4 ++ w)).trans ?_
  change need (zeroAt _ 4 19) (Instr.wldone (BitVec.extractLsb' 0 4 _)) = _
  simp only [zeroAt_4_19, zeroAt_8_15, zeroAt_15_8]
  simp (disch := decide) only [need, wd, we, wa, wf, wb, wi, wh, wo, zeroAt, fmtI_i_extract, fmtI_i_bit, fmtI_a_extract, fmtI_a_bit, fmtI_ea_extract, fmtI_ea_bit, fmtI_d_extract, fmtI_d_bit, parts_4_4_lo_extract, parts_4_4_hi_extract, parts_4_4_lo_bit, parts_4_4_hi_bit, BitVec.extractLsb'_eq_self, BitVec.getLsbD_ofBool] <;> simp
theorem Format.wlstat d w : Format.Statement (.wlstat d w) := by
  intro _
  refine (decodeRaw_fmtI 404#9 d false 0#7 (0#4 ++ w)).trans ?_
  change need (zeroAt _ 4 12) (Instr.wlstat (wd _) (BitVec.extractLsb' 0 4 _)) = _
  simp only [zeroAt_4_12, zeroAt_8_8]
  simp (disch := decide) only [need, wd, we, wa, wf, wb, wi, wh, wo, zeroAt, fmtI_i_extract, fmtI_i_bit, fmtI_a_extract, fmtI_a_bit, fmtI_ea_extract, fmtI_ea_bit, fmtI_d_extract, fmtI_d_bit, parts_4_4_lo_extract, parts_4_4_hi_extract, parts_4_4_lo_bit, parts_4_4_hi_bit, BitVec.extractLsb'_eq_self, BitVec.getLsbD_ofBool] <;> simp
theorem Format.wlcfg d ea a w : Format.Statement (.wlcfg d ea a w) := by
  intro _
  refine (decodeRaw_fmtI 405#9 d ea a (0#4 ++ w)).trans ?_
  change need (zeroAt _ 4 4) (Instr.wlcfg (wd _) (we _) (wa _) (BitVec.extractLsb' 0 4 _)) = _
  simp (disch := decide) only [need, wd, we, wa, wf, wb, wi, wh, wo, zeroAt, fmtI_i_extract, fmtI_i_bit, fmtI_a_extract, fmtI_a_bit, fmtI_ea_extract, fmtI_ea_bit, fmtI_d_extract, fmtI_d_bit, parts_4_4_lo_extract, parts_4_4_hi_extract, parts_4_4_lo_bit, parts_4_4_hi_bit, BitVec.extractLsb'_eq_self, BitVec.getLsbD_ofBool] <;> simp
theorem Format.gang d ea a : Format.Statement (.gang d ea a) := by
  intro _
  refine (decodeRaw_fmtI 416#9 d ea a 0#8).trans ?_
  change need (zeroAt _ 0 8) (Instr.gang (wd _) (we _) (wa _)) = _
  simp (disch := decide) only [need, wd, we, wa, wf, wb, wi, wh, wo, zeroAt, fmtI_i_extract, fmtI_i_bit, fmtI_a_extract, fmtI_a_bit, fmtI_ea_extract, fmtI_ea_bit, fmtI_d_extract, fmtI_d_bit, BitVec.extractLsb'_eq_self, BitVec.getLsbD_ofBool] <;> simp
theorem Format.mma c ea a s : Format.Statement (.mma c ea a s) := by
  intro _
  refine (decodeRaw_fmtI 417#9 (0#4 ++ c) ea a (0#5 ++ s)).trans ?_
  change need (zeroAt _ 3 5 && zeroAt _ 19 4) (Instr.mma (BitVec.extractLsb' 16 3 _) (we _) (wa _) (BitVec.extractLsb' 0 3 _)) = _
  simp (disch := decide) only [need, wd, we, wa, wf, wb, wi, wh, wo, zeroAt, fmtI_i_extract, fmtI_i_bit, fmtI_a_extract, fmtI_a_bit, fmtI_ea_extract, fmtI_ea_bit, fmtI_d_extract, fmtI_d_bit, parts_4_3_lo_extract, parts_4_3_hi_extract, parts_4_3_lo_bit, parts_4_3_hi_bit, parts_5_3_lo_extract, parts_5_3_hi_extract, parts_5_3_lo_bit, parts_5_3_hi_bit, BitVec.extractLsb'_eq_self, BitVec.getLsbD_ofBool] <;> simp
theorem Format.mmas c ea a s : Format.Statement (.mmas c ea a s) := by
  intro _
  refine (decodeRaw_fmtI 418#9 (0#4 ++ c) ea a (0#5 ++ s)).trans ?_
  change need (zeroAt _ 3 5 && zeroAt _ 19 4) (Instr.mmas (BitVec.extractLsb' 16 3 _) (we _) (wa _) (BitVec.extractLsb' 0 3 _)) = _
  simp (disch := decide) only [need, wd, we, wa, wf, wb, wi, wh, wo, zeroAt, fmtI_i_extract, fmtI_i_bit, fmtI_a_extract, fmtI_a_bit, fmtI_ea_extract, fmtI_ea_bit, fmtI_d_extract, fmtI_d_bit, parts_4_3_lo_extract, parts_4_3_hi_extract, parts_4_3_lo_bit, parts_4_3_hi_bit, parts_5_3_lo_extract, parts_5_3_hi_extract, parts_5_3_lo_bit, parts_5_3_hi_bit, BitVec.extractLsb'_eq_self, BitVec.getLsbD_ofBool] <;> simp
theorem Format.accz c : Format.Statement (.accz c) := by
  intro _
  refine (decodeRaw_fmtI 419#9 (0#4 ++ c) false 0#7 0#8).trans ?_
  change need (zeroAt _ 0 16 && zeroAt _ 19 4) (Instr.accz (BitVec.extractLsb' 16 3 _)) = _
  simp only [zeroAt_0_16, zeroAt_8_8]
  simp (disch := decide) only [need, wd, we, wa, wf, wb, wi, wh, wo, zeroAt, fmtI_i_extract, fmtI_i_bit, fmtI_a_extract, fmtI_a_bit, fmtI_ea_extract, fmtI_ea_bit, fmtI_d_extract, fmtI_d_bit, parts_4_3_lo_extract, parts_4_3_hi_extract, parts_4_3_lo_bit, parts_4_3_hi_bit, BitVec.extractLsb'_eq_self, BitVec.getLsbD_ofBool] <;> simp
theorem Format.accld c ea a s : Format.Statement (.accld c ea a s) := by
  intro _
  refine (decodeRaw_fmtI 420#9 (0#4 ++ c) ea a (0#5 ++ s)).trans ?_
  change need (zeroAt _ 3 5 && zeroAt _ 19 4) (Instr.accld (BitVec.extractLsb' 16 3 _) (we _) (wa _) (BitVec.extractLsb' 0 3 _)) = _
  simp (disch := decide) only [need, wd, we, wa, wf, wb, wi, wh, wo, zeroAt, fmtI_i_extract, fmtI_i_bit, fmtI_a_extract, fmtI_a_bit, fmtI_ea_extract, fmtI_ea_bit, fmtI_d_extract, fmtI_d_bit, parts_4_3_lo_extract, parts_4_3_hi_extract, parts_4_3_lo_bit, parts_4_3_hi_bit, parts_5_3_lo_extract, parts_5_3_hi_extract, parts_5_3_lo_bit, parts_5_3_hi_bit, BitVec.extractLsb'_eq_self, BitVec.getLsbD_ofBool] <;> simp
theorem Format.accst c ea a s : Format.Statement (.accst c ea a s) := by
  intro _
  refine (decodeRaw_fmtI 421#9 (0#4 ++ c) ea a (0#5 ++ s)).trans ?_
  change need (zeroAt _ 3 5 && zeroAt _ 19 4) (Instr.accst (BitVec.extractLsb' 16 3 _) (we _) (wa _) (BitVec.extractLsb' 0 3 _)) = _
  simp (disch := decide) only [need, wd, we, wa, wf, wb, wi, wh, wo, zeroAt, fmtI_i_extract, fmtI_i_bit, fmtI_a_extract, fmtI_a_bit, fmtI_ea_extract, fmtI_ea_bit, fmtI_d_extract, fmtI_d_bit, parts_4_3_lo_extract, parts_4_3_hi_extract, parts_4_3_lo_bit, parts_4_3_hi_bit, parts_5_3_lo_extract, parts_5_3_hi_extract, parts_5_3_lo_bit, parts_5_3_hi_bit, BitVec.extractLsb'_eq_self, BitVec.getLsbD_ofBool] <;> simp
theorem Format.accrd d c eb b : Format.Statement (.accrd d c eb b) := by
  intro _
  refine (decodeRaw_fmtV 166#9 d false (0#4 ++ c) eb b).trans ?_
  change need (zeroAt _ 11 5) (Instr.accrd (wd _) (BitVec.extractLsb' 8 3 _) (wf _) (wb _)) = _
  simp only [zeroAt_11_5]
  simp (disch := decide) only [need, wd, we, wa, wf, wb, wi, wh, wo, zeroAt, fmtV_b_extract, fmtV_b_bit, fmtV_eb_extract, fmtV_eb_bit, fmtV_a_extract, fmtV_a_bit, fmtV_ea_extract, fmtV_ea_bit, fmtV_d_extract, fmtV_d_bit, parts_4_3_lo_extract, parts_4_3_hi_extract, parts_4_3_lo_bit, parts_4_3_hi_bit, BitVec.extractLsb'_eq_self, BitVec.getLsbD_ofBool] <;> simp
theorem Format.accwr c ea a eb b : Format.Statement (.accwr c ea a eb b) := by
  intro _
  refine (decodeRaw_fmtV 167#9 (0#4 ++ c) ea a eb b).trans ?_
  change need (zeroAt _ 19 4) (Instr.accwr (BitVec.extractLsb' 16 3 _) (we _) (wa _) (wf _) (wb _)) = _
  simp (disch := decide) only [need, wd, we, wa, wf, wb, wi, wh, wo, zeroAt, fmtV_b_extract, fmtV_b_bit, fmtV_eb_extract, fmtV_eb_bit, fmtV_a_extract, fmtV_a_bit, fmtV_ea_extract, fmtV_ea_bit, fmtV_d_extract, fmtV_d_bit, parts_4_3_lo_extract, parts_4_3_hi_extract, parts_4_3_lo_bit, parts_4_3_hi_bit, BitVec.extractLsb'_eq_self, BitVec.getLsbD_ofBool] <;> simp
theorem Format.mprog d c : Format.Statement (.mprog d c) := by
  intro _
  refine (decodeRaw_fmtI 424#9 d false (0#4 ++ c) 0#8).trans ?_
  change need (zeroAt _ 0 8 && zeroAt _ 11 5) (Instr.mprog (wd _) (BitVec.extractLsb' 8 3 _)) = _
  simp only [zeroAt_11_5]
  simp (disch := decide) only [need, wd, we, wa, wf, wb, wi, wh, wo, zeroAt, fmtI_i_extract, fmtI_i_bit, fmtI_a_extract, fmtI_a_bit, fmtI_ea_extract, fmtI_ea_bit, fmtI_d_extract, fmtI_d_bit, parts_4_3_lo_extract, parts_4_3_hi_extract, parts_4_3_lo_bit, parts_4_3_hi_bit, BitVec.extractLsb'_eq_self, BitVec.getLsbD_ofBool] <;> simp
theorem Format.tdesc d ea a : Format.Statement (.tdesc d ea a) := by
  intro _
  refine (decodeRaw_fmtI 425#9 d ea a 0#8).trans ?_
  change need (zeroAt _ 0 8) (Instr.tdesc (wd _) (we _) (wa _)) = _
  simp (disch := decide) only [need, wd, we, wa, wf, wb, wi, wh, wo, zeroAt, fmtI_i_extract, fmtI_i_bit, fmtI_a_extract, fmtI_a_bit, fmtI_ea_extract, fmtI_ea_bit, fmtI_d_extract, fmtI_d_bit, BitVec.extractLsb'_eq_self, BitVec.getLsbD_ofBool] <;> simp
theorem Format.tcvt d ea a s : Format.Statement (.tcvt d ea a s) := by
  intro _
  refine (decodeRaw_fmtI 426#9 d ea a (0#5 ++ s)).trans ?_
  change need (zeroAt _ 3 5) (Instr.tcvt (wd _) (we _) (wa _) (BitVec.extractLsb' 0 3 _)) = _
  simp (disch := decide) only [need, wd, we, wa, wf, wb, wi, wh, wo, zeroAt, fmtI_i_extract, fmtI_i_bit, fmtI_a_extract, fmtI_a_bit, fmtI_ea_extract, fmtI_ea_bit, fmtI_d_extract, fmtI_d_bit, parts_5_3_lo_extract, parts_5_3_hi_extract, parts_5_3_lo_bit, parts_5_3_hi_bit, BitVec.extractLsb'_eq_self, BitVec.getLsbD_ofBool] <;> simp
theorem Format.mode i : Format.Statement (.mode i) := by
  intro _
  refine (decodeRaw_fmtW 176#9 0#7 i).trans ?_
  change need (zeroAt _ 16 7) (Instr.mode (wh _)) = _
  simp (disch := decide) only [need, wd, we, wa, wf, wb, wi, wh, wo, zeroAt, fmtW_i_extract, fmtW_i_bit, fmtW_d_extract, fmtW_d_bit, BitVec.extractLsb'_eq_self, BitVec.getLsbD_ofBool] <;> simp
theorem Format.modeg i : Format.Statement (.modeg i) := by
  intro _
  refine (decodeRaw_fmtW 177#9 0#7 i).trans ?_
  change need (zeroAt _ 16 7) (Instr.modeg (wh _)) = _
  simp (disch := decide) only [need, wd, we, wa, wf, wb, wi, wh, wo, zeroAt, fmtW_i_extract, fmtW_i_bit, fmtW_d_extract, fmtW_d_bit, BitVec.extractLsb'_eq_self, BitVec.getLsbD_ofBool] <;> simp
theorem Format.stage i : Format.Statement (.stage i) := by
  intro _
  refine (decodeRaw_fmtW 178#9 0#7 i).trans ?_
  change need (zeroAt _ 16 7) (Instr.stage (wh _)) = _
  simp (disch := decide) only [need, wd, we, wa, wf, wb, wi, wh, wo, zeroAt, fmtW_i_extract, fmtW_i_bit, fmtW_d_extract, fmtW_d_bit, BitVec.extractLsb'_eq_self, BitVec.getLsbD_ofBool] <;> simp
theorem Format.pchk p ea a k : Format.Statement (.pchk p ea a k) := by
  intro _
  refine (decodeRaw_fmtI 180#9 (0#4 ++ p) ea a (0#6 ++ k)).trans ?_
  change need (zeroAt _ 2 6 && zeroAt _ 19 4) (Instr.pchk (BitVec.extractLsb' 16 3 _) (we _) (wa _) (BitVec.extractLsb' 0 2 _)) = _
  simp (disch := decide) only [need, wd, we, wa, wf, wb, wi, wh, wo, zeroAt, fmtI_i_extract, fmtI_i_bit, fmtI_a_extract, fmtI_a_bit, fmtI_ea_extract, fmtI_ea_bit, fmtI_d_extract, fmtI_d_bit, parts_4_3_lo_extract, parts_4_3_hi_extract, parts_4_3_lo_bit, parts_4_3_hi_bit, parts_6_2_lo_extract, parts_6_2_hi_extract, parts_6_2_lo_bit, parts_6_2_hi_bit, BitVec.extractLsb'_eq_self, BitVec.getLsbD_ofBool] <;> simp
theorem Format.pcause d ea a : Format.Statement (.pcause d ea a) := by
  intro _
  refine (decodeRaw_fmtI 181#9 d ea a 0#8).trans ?_
  change need (zeroAt _ 0 8) (Instr.pcause (wd _) (we _) (wa _)) = _
  simp (disch := decide) only [need, wd, we, wa, wf, wb, wi, wh, wo, zeroAt, fmtI_i_extract, fmtI_i_bit, fmtI_a_extract, fmtI_a_bit, fmtI_ea_extract, fmtI_ea_bit, fmtI_d_extract, fmtI_d_bit, BitVec.extractLsb'_eq_self, BitVec.getLsbD_ofBool] <;> simp
theorem Format.pcauseU d ea a : Format.Statement (.pcauseU d ea a) := by
  intro _
  refine (decodeRaw_fmtI 437#9 d ea a 0#8).trans ?_
  change need (zeroAt _ 0 8) (Instr.pcauseU (wd _) (we _) (wa _)) = _
  simp (disch := decide) only [need, wd, we, wa, wf, wb, wi, wh, wo, zeroAt, fmtI_i_extract, fmtI_i_bit, fmtI_a_extract, fmtI_a_bit, fmtI_ea_extract, fmtI_ea_bit, fmtI_d_extract, fmtI_d_bit, BitVec.extractLsb'_eq_self, BitVec.getLsbD_ofBool] <;> simp
theorem Format.porig d ea a b : Format.Statement (.porig d ea a b) := by
  intro _
  refine (decodeRaw_fmtI 182#9 d ea a (0#4 ++ b)).trans ?_
  change need (zeroAt _ 4 4) (Instr.porig (wd _) (we _) (wa _) (BitVec.extractLsb' 0 4 _)) = _
  simp (disch := decide) only [need, wd, we, wa, wf, wb, wi, wh, wo, zeroAt, fmtI_i_extract, fmtI_i_bit, fmtI_a_extract, fmtI_a_bit, fmtI_ea_extract, fmtI_ea_bit, fmtI_d_extract, fmtI_d_bit, parts_4_4_lo_extract, parts_4_4_hi_extract, parts_4_4_lo_bit, parts_4_4_hi_bit, BitVec.extractLsb'_eq_self, BitVec.getLsbD_ofBool] <;> simp
theorem Format.porigU d ea a b : Format.Statement (.porigU d ea a b) := by
  intro _
  refine (decodeRaw_fmtI 438#9 d ea a (0#4 ++ b)).trans ?_
  change need (zeroAt _ 4 4) (Instr.porigU (wd _) (we _) (wa _) (BitVec.extractLsb' 0 4 _)) = _
  simp (disch := decide) only [need, wd, we, wa, wf, wb, wi, wh, wo, zeroAt, fmtI_i_extract, fmtI_i_bit, fmtI_a_extract, fmtI_a_bit, fmtI_ea_extract, fmtI_ea_bit, fmtI_d_extract, fmtI_d_bit, parts_4_4_lo_extract, parts_4_4_hi_extract, parts_4_4_lo_bit, parts_4_4_hi_bit, BitVec.extractLsb'_eq_self, BitVec.getLsbD_ofBool] <;> simp
theorem Format.pclr d ea a : Format.Statement (.pclr d ea a) := by
  intro _
  refine (decodeRaw_fmtI 183#9 d ea a 0#8).trans ?_
  change need (zeroAt _ 0 8) (Instr.pclr (wd _) (we _) (wa _)) = _
  simp (disch := decide) only [need, wd, we, wa, wf, wb, wi, wh, wo, zeroAt, fmtI_i_extract, fmtI_i_bit, fmtI_a_extract, fmtI_a_bit, fmtI_ea_extract, fmtI_ea_bit, fmtI_d_extract, fmtI_d_bit, BitVec.extractLsb'_eq_self, BitVec.getLsbD_ofBool] <;> simp
theorem Format.pclrU d ea a : Format.Statement (.pclrU d ea a) := by
  intro _
  refine (decodeRaw_fmtI 439#9 d ea a 0#8).trans ?_
  change need (zeroAt _ 0 8) (Instr.pclrU (wd _) (we _) (wa _)) = _
  simp (disch := decide) only [need, wd, we, wa, wf, wb, wi, wh, wo, zeroAt, fmtI_i_extract, fmtI_i_bit, fmtI_a_extract, fmtI_a_bit, fmtI_ea_extract, fmtI_ea_bit, fmtI_d_extract, fmtI_d_bit, BitVec.extractLsb'_eq_self, BitVec.getLsbD_ofBool] <;> simp
theorem Format.pmake d ea a : Format.Statement (.pmake d ea a) := by
  intro _
  refine (decodeRaw_fmtI 184#9 d ea a 0#8).trans ?_
  change need (zeroAt _ 0 8) (Instr.pmake (wd _) (we _) (wa _)) = _
  simp (disch := decide) only [need, wd, we, wa, wf, wb, wi, wh, wo, zeroAt, fmtI_i_extract, fmtI_i_bit, fmtI_a_extract, fmtI_a_bit, fmtI_ea_extract, fmtI_ea_bit, fmtI_d_extract, fmtI_d_bit, BitVec.extractLsb'_eq_self, BitVec.getLsbD_ofBool] <;> simp
theorem Format.pmakeU d ea a : Format.Statement (.pmakeU d ea a) := by
  intro _
  refine (decodeRaw_fmtI 440#9 d ea a 0#8).trans ?_
  change need (zeroAt _ 0 8) (Instr.pmakeU (wd _) (we _) (wa _)) = _
  simp (disch := decide) only [need, wd, we, wa, wf, wb, wi, wh, wo, zeroAt, fmtI_i_extract, fmtI_i_bit, fmtI_a_extract, fmtI_a_bit, fmtI_ea_extract, fmtI_ea_bit, fmtI_d_extract, fmtI_d_bit, BitVec.extractLsb'_eq_self, BitVec.getLsbD_ofBool] <;> simp
theorem Format.barSync c b : Format.Statement (.barSync c b) := by
  intro _
  refine (decodeRaw_fmtI 185#9 (0#2 ++ c) false 0#7 (0#4 ++ b)).trans ?_
  change decodeBar _ = _
  rw [decodeBar_0 _ (by simp (disch := decide) only [fmtI_i_extract, parts_4_4_hi_extract]; rfl)]
  simp only [zeroAt_8_8]
  simp (disch := decide) only [need, wd, we, wa, wf, wb, wi, wh, wo, zeroAt, fmtI_i_extract, fmtI_i_bit, fmtI_a_extract, fmtI_a_bit, fmtI_ea_extract, fmtI_ea_bit, fmtI_d_extract, fmtI_d_bit, parts_2_5_lo_extract, parts_2_5_hi_extract, parts_2_5_lo_bit, parts_2_5_hi_bit, parts_4_4_lo_extract, parts_4_4_hi_extract, parts_4_4_lo_bit, parts_4_4_hi_bit, BitVec.extractLsb'_eq_self, BitVec.getLsbD_ofBool] <;> simp
theorem Format.barArrive c b : Format.Statement (.barArrive c b) := by
  intro _
  refine (decodeRaw_fmtI 185#9 (0#2 ++ c) false 0#7 (4#4 ++ b)).trans ?_
  change decodeBar _ = _
  rw [decodeBar_1 _ (by simp (disch := decide) only [fmtI_i_extract, parts_4_4_hi_extract]; rfl)]
  simp only [zeroAt_8_8]
  simp (disch := decide) only [need, wd, we, wa, wf, wb, wi, wh, wo, zeroAt, fmtI_i_extract, fmtI_i_bit, fmtI_a_extract, fmtI_a_bit, fmtI_ea_extract, fmtI_ea_bit, fmtI_d_extract, fmtI_d_bit, parts_2_5_lo_extract, parts_2_5_hi_extract, parts_2_5_lo_bit, parts_2_5_hi_bit, parts_4_4_lo_extract, parts_4_4_hi_extract, parts_4_4_lo_bit, parts_4_4_hi_bit, BitVec.extractLsb'_eq_self, BitVec.getLsbD_ofBool] <;> simp
theorem Format.barWait b : Format.Statement (.barWait b) := by
  intro _
  refine (decodeRaw_fmtI 185#9 0#7 false 0#7 (8#4 ++ b)).trans ?_
  change decodeBar _ = _
  rw [decodeBar_2 _ (by simp (disch := decide) only [fmtI_i_extract, parts_4_4_hi_extract]; rfl)]
  simp only [zeroAt_8_15, zeroAt_15_8]
  simp (disch := decide) only [need, wd, we, wa, wf, wb, wi, wh, wo, zeroAt, fmtI_i_extract, fmtI_i_bit, fmtI_a_extract, fmtI_a_bit, fmtI_ea_extract, fmtI_ea_bit, fmtI_d_extract, fmtI_d_bit, parts_4_4_lo_extract, parts_4_4_hi_extract, parts_4_4_lo_bit, parts_4_4_hi_bit, BitVec.extractLsb'_eq_self, BitVec.getLsbD_ofBool] <;> simp
theorem Format.monitor ea a m : Format.Statement (.monitor ea a m) := by
  intro _
  refine (decodeRaw_fmtI 186#9 0#7 ea a (0#7 ++ BitVec.ofBool m)).trans ?_
  change need (zeroAt _ 1 7 && zeroAt _ 16 7) (Instr.monitor (we _) (wa _) (BitVec.getLsbD _ 0)) = _
  simp (disch := decide) only [need, wd, we, wa, wf, wb, wi, wh, wo, zeroAt, fmtI_i_extract, fmtI_i_bit, fmtI_a_extract, fmtI_a_bit, fmtI_ea_extract, fmtI_ea_bit, fmtI_d_extract, fmtI_d_bit, parts_7_1_lo_extract, parts_7_1_hi_extract, parts_7_1_lo_bit, parts_7_1_hi_bit, BitVec.extractLsb'_eq_self, BitVec.getLsbD_ofBool] <;> simp
theorem Format.await p ea a eb b : Format.Statement (.await p ea a eb b) := by
  intro _
  refine (decodeRaw_fmtV 189#9 (0#4 ++ p) ea a eb b).trans ?_
  change need (zeroAt _ 19 4) (Instr.await (BitVec.extractLsb' 16 3 _) (we _) (wa _) (wf _) (wb _)) = _
  simp (disch := decide) only [need, wd, we, wa, wf, wb, wi, wh, wo, zeroAt, fmtV_b_extract, fmtV_b_bit, fmtV_eb_extract, fmtV_eb_bit, fmtV_a_extract, fmtV_a_bit, fmtV_ea_extract, fmtV_ea_bit, fmtV_d_extract, fmtV_d_bit, parts_4_3_lo_extract, parts_4_3_hi_extract, parts_4_3_lo_bit, parts_4_3_hi_bit, BitVec.extractLsb'_eq_self, BitVec.getLsbD_ofBool] <;> simp
theorem Format.pause i : Format.Statement (.pause i) := by
  intro _
  refine (decodeRaw_fmtW 190#9 0#7 i).trans ?_
  change need (zeroAt _ 16 7) (Instr.pause (wh _)) = _
  simp (disch := decide) only [need, wd, we, wa, wf, wb, wi, wh, wo, zeroAt, fmtW_i_extract, fmtW_i_bit, fmtW_d_extract, fmtW_d_bit, BitVec.extractLsb'_eq_self, BitVec.getLsbD_ofBool] <;> simp
theorem Format.getid d k : Format.Statement (.getid d k) := by
  intro _
  refine (decodeRaw_fmtI 191#9 d false 0#7 (0#5 ++ k)).trans ?_
  change need (zeroAt _ 3 13) (Instr.getid (wd _) (BitVec.extractLsb' 0 3 _)) = _
  simp only [zeroAt_3_13, zeroAt_8_8]
  simp (disch := decide) only [need, wd, we, wa, wf, wb, wi, wh, wo, zeroAt, fmtI_i_extract, fmtI_i_bit, fmtI_a_extract, fmtI_a_bit, fmtI_ea_extract, fmtI_ea_bit, fmtI_d_extract, fmtI_d_bit, parts_5_3_lo_extract, parts_5_3_hi_extract, parts_5_3_lo_bit, parts_5_3_hi_bit, BitVec.extractLsb'_eq_self, BitVec.getLsbD_ofBool] <;> simp
theorem Format.getidU d k : Format.Statement (.getidU d k) := by
  intro _
  refine (decodeRaw_fmtI 447#9 d false 0#7 (0#5 ++ k)).trans ?_
  change need (zeroAt _ 3 13) (Instr.getidU (wd _) (BitVec.extractLsb' 0 3 _)) = _
  simp only [zeroAt_3_13, zeroAt_8_8]
  simp (disch := decide) only [need, wd, we, wa, wf, wb, wi, wh, wo, zeroAt, fmtI_i_extract, fmtI_i_bit, fmtI_a_extract, fmtI_a_bit, fmtI_ea_extract, fmtI_ea_bit, fmtI_d_extract, fmtI_d_bit, parts_5_3_lo_extract, parts_5_3_hi_extract, parts_5_3_lo_bit, parts_5_3_hi_bit, BitVec.extractLsb'_eq_self, BitVec.getLsbD_ofBool] <;> simp
theorem Format.getsys d i : Format.Statement (.getsys d i) := by
  intro _
  refine (decodeRaw_fmtI 192#9 d false 0#7 (0#4 ++ i)).trans ?_
  change need (zeroAt _ 4 12) (Instr.getsys (wd _) (BitVec.extractLsb' 0 4 _)) = _
  simp only [zeroAt_4_12, zeroAt_8_8]
  simp (disch := decide) only [need, wd, we, wa, wf, wb, wi, wh, wo, zeroAt, fmtI_i_extract, fmtI_i_bit, fmtI_a_extract, fmtI_a_bit, fmtI_ea_extract, fmtI_ea_bit, fmtI_d_extract, fmtI_d_bit, parts_4_4_lo_extract, parts_4_4_hi_extract, parts_4_4_lo_bit, parts_4_4_hi_bit, BitVec.extractLsb'_eq_self, BitVec.getLsbD_ofBool] <;> simp
theorem Format.getsysU d i : Format.Statement (.getsysU d i) := by
  intro _
  refine (decodeRaw_fmtI 448#9 d false 0#7 (0#4 ++ i)).trans ?_
  change need (zeroAt _ 4 12) (Instr.getsysU (wd _) (BitVec.extractLsb' 0 4 _)) = _
  simp only [zeroAt_4_12, zeroAt_8_8]
  simp (disch := decide) only [need, wd, we, wa, wf, wb, wi, wh, wo, zeroAt, fmtI_i_extract, fmtI_i_bit, fmtI_a_extract, fmtI_a_bit, fmtI_ea_extract, fmtI_ea_bit, fmtI_d_extract, fmtI_d_bit, parts_4_4_lo_extract, parts_4_4_hi_extract, parts_4_4_lo_bit, parts_4_4_hi_bit, BitVec.extractLsb'_eq_self, BitVec.getLsbD_ofBool] <;> simp
theorem Format.sysr d i : Format.Statement (.sysr d i) := by
  intro _
  refine (decodeRaw_fmtI 193#9 d false 0#7 i).trans ?_
  change need (zeroAt _ 8 8) (Instr.sysr (wd _) (wi _)) = _
  simp only [zeroAt_8_8]
  simp (disch := decide) only [need, wd, we, wa, wf, wb, wi, wh, wo, zeroAt, fmtI_i_extract, fmtI_i_bit, fmtI_a_extract, fmtI_a_bit, fmtI_ea_extract, fmtI_ea_bit, fmtI_d_extract, fmtI_d_bit, BitVec.extractLsb'_eq_self, BitVec.getLsbD_ofBool] <;> simp
theorem Format.sysrU d i : Format.Statement (.sysrU d i) := by
  intro _
  refine (decodeRaw_fmtI 449#9 d false 0#7 i).trans ?_
  change need (zeroAt _ 8 8) (Instr.sysrU (wd _) (wi _)) = _
  simp only [zeroAt_8_8]
  simp (disch := decide) only [need, wd, we, wa, wf, wb, wi, wh, wo, zeroAt, fmtI_i_extract, fmtI_i_bit, fmtI_a_extract, fmtI_a_bit, fmtI_ea_extract, fmtI_ea_bit, fmtI_d_extract, fmtI_d_bit, BitVec.extractLsb'_eq_self, BitVec.getLsbD_ofBool] <;> simp
theorem Format.sysw ea a i : Format.Statement (.sysw ea a i) := by
  intro _
  refine (decodeRaw_fmtI 450#9 0#7 ea a i).trans ?_
  change need (zeroAt _ 16 7) (Instr.sysw (we _) (wa _) (wi _)) = _
  simp (disch := decide) only [need, wd, we, wa, wf, wb, wi, wh, wo, zeroAt, fmtI_i_extract, fmtI_i_bit, fmtI_a_extract, fmtI_a_bit, fmtI_ea_extract, fmtI_ea_bit, fmtI_d_extract, fmtI_d_bit, BitVec.extractLsb'_eq_self, BitVec.getLsbD_ofBool] <;> simp
theorem Format.brk i : Format.Statement (.brk i) := by
  intro _
  refine (decodeRaw_fmtW 195#9 0#7 i).trans ?_
  change need (zeroAt _ 16 7) (Instr.brk (wh _)) = _
  simp (disch := decide) only [need, wd, we, wa, wf, wb, wi, wh, wo, zeroAt, fmtW_i_extract, fmtW_i_bit, fmtW_d_extract, fmtW_d_bit, BitVec.extractLsb'_eq_self, BitVec.getLsbD_ofBool] <;> simp
theorem Format.mark i : Format.Statement (.mark i) := by
  intro _
  refine (decodeRaw_fmtW 196#9 0#7 i).trans ?_
  change need (zeroAt _ 16 7) (Instr.mark (wh _)) = _
  simp (disch := decide) only [need, wd, we, wa, wf, wb, wi, wh, wo, zeroAt, fmtW_i_extract, fmtW_i_bit, fmtW_d_extract, fmtW_d_bit, BitVec.extractLsb'_eq_self, BitVec.getLsbD_ofBool] <;> simp
theorem Format.regroup ea p : Format.Statement (.regroup ea p) := by
  intro _
  refine (decodeRaw_fmtI 197#9 0#7 ea (0#4 ++ p) 0#8).trans ?_
  change need (zeroAt _ 0 8 && zeroAt _ 11 4 && zeroAt _ 16 7) (Instr.regroup (we _) (BitVec.extractLsb' 8 3 _)) = _
  simp (disch := decide) only [need, wd, we, wa, wf, wb, wi, wh, wo, zeroAt, fmtI_i_extract, fmtI_i_bit, fmtI_a_extract, fmtI_a_bit, fmtI_ea_extract, fmtI_ea_bit, fmtI_d_extract, fmtI_d_bit, parts_4_3_lo_extract, parts_4_3_hi_extract, parts_4_3_lo_bit, parts_4_3_hi_bit, BitVec.extractLsb'_eq_self, BitVec.getLsbD_ofBool] <;> simp
theorem Format.fetchwg d ea a : Format.Statement (.fetchwg d ea a) := by
  intro _
  refine (decodeRaw_fmtI 454#9 d ea a 0#8).trans ?_
  change need (zeroAt _ 0 8) (Instr.fetchwg (wd _) (we _) (wa _)) = _
  simp (disch := decide) only [need, wd, we, wa, wf, wb, wi, wh, wo, zeroAt, fmtI_i_extract, fmtI_i_bit, fmtI_a_extract, fmtI_a_bit, fmtI_ea_extract, fmtI_ea_bit, fmtI_d_extract, fmtI_d_bit, BitVec.extractLsb'_eq_self, BitVec.getLsbD_ofBool] <;> simp
theorem Format.unassignedCodePoint w reason : Format.Statement (.unassignedCodePoint w reason) := nofun
theorem Format.copy op words : Format.Statement (.copy op words) := nofun
theorem Format.fill op words : Format.Statement (.fill op words) := nofun
theorem Format.gather op words : Format.Statement (.gather op words) := nofun
theorem Format.scatter op words : Format.Statement (.scatter op words) := nofun
theorem Format.reduceInto op words : Format.Statement (.reduceInto op words) := nofun
theorem Format.engineArrival op : Format.Statement (.engineArrival op) := nofun
theorem Format.engineResult op : Format.Statement (.engineResult op) := nofun
theorem Format.longLatencyComplete pending : Format.Statement (.longLatencyComplete pending) := nofun
theorem Format.spanReplay group : Format.Statement (.spanReplay group) := nofun
theorem Format.regroupRedistribute workgroup role : Format.Statement (.regroupRedistribute workgroup role) := nofun
theorem Format.groupExitComplete group : Format.Statement (.groupExitComplete group) := nofun
theorem Format.groupStall group : Format.Statement (.groupStall group) := nofun
theorem Format.groupDeadlock group : Format.Statement (.groupDeadlock group) := nofun
theorem Format.pauseEnd group path : Format.Statement (.pauseEnd group path) := nofun
theorem Format.workgroupPlace launch quadrant core : Format.Statement (.workgroupPlace launch quadrant core) := nofun
theorem Format.stealRequest launch thief victim : Format.Statement (.stealRequest launch thief victim) := nofun
theorem Format.occupancySummary launch source target : Format.Statement (.occupancySummary launch source target) := nofun
theorem Format.fetchwgAnswer group : Format.Statement (.fetchwgAnswer group) := nofun
theorem Format.floorAcknowledgement ctx list unit : Format.Statement (.floorAcknowledgement ctx list unit) := nofun
theorem Format.worklistOccupancySummary ctx list source target : Format.Statement (.worklistOccupancySummary ctx list source target) := nofun
theorem Format.worklistStealRequest ctx list thief victim : Format.Statement (.worklistStealRequest ctx list thief victim) := nofun
theorem Format.futureFillWake ctx list unit : Format.Statement (.futureFillWake ctx list unit) := nofun
theorem Format.terminationWave ctx list : Format.Statement (.terminationWave ctx list) := nofun
theorem Format.kstep workgroup tile : Format.Statement (.kstep workgroup tile) := nofun
theorem Format.matrixResume workgroup tile : Format.Statement (.matrixResume workgroup tile) := nofun
theorem Format.faultRecordPost fault : Format.Statement (.faultRecordPost fault) := nofun
theorem Format.launchRecordRead queue : Format.Statement (.launchRecordRead queue) := nofun
theorem Format.serialLaunchStart launch : Format.Statement (.serialLaunchStart launch) := nofun
theorem Format.launchComplete launch : Format.Statement (.launchComplete launch) := nofun
theorem Format.preemptSave workgroup : Format.Statement (.preemptSave workgroup) := nofun
theorem Format.checkpointPageCopy partition quadrant : Format.Statement (.checkpointPageCopy partition quadrant) := nofun
theorem Format.dumpComplete partition : Format.Statement (.dumpComplete partition) := nofun
theorem Format.migration workgroup quadrant core : Format.Statement (.migration workgroup quadrant core) := nofun
theorem Format.faultCompletion partition id status : Format.Statement (.faultCompletion partition id status) := nofun
theorem Format.hostWrite port pa data : Format.Statement (.hostWrite port pa data) := nofun
theorem Format.hostRead place len : Format.Statement (.hostRead place len) := nofun
theorem Format.cxlSnoop pa upper : Format.Statement (.cxlSnoop pa upper) := nofun
theorem Format.cxlMemRead place len : Format.Statement (.cxlMemRead place len) := nofun
theorem Format.queueDescriptorWrite queue second value : Format.Statement (.queueDescriptorWrite queue second value) := nofun
theorem Format.partitionMaskWrite partition value : Format.Statement (.partitionMaskWrite partition value) := nofun
theorem Format.create tag partition root : Format.Statement (.create tag partition root) := nofun
theorem Format.destroy tag : Format.Statement (.destroy tag) := nofun
theorem Format.inval tag va npages : Format.Statement (.inval tag va npages) := nofun
theorem Format.preempt tag : Format.Statement (.preempt tag) := nofun
theorem Format.resume tag : Format.Statement (.resume tag) := nofun
theorem Format.chordEnable chord value : Format.Statement (.chordEnable chord value) := nofun
theorem Format.chordTrainingComplete chord ok peer : Format.Statement (.chordTrainingComplete chord ok peer) := nofun
theorem Format.dataFlitReceive chord flit : Format.Statement (.dataFlitReceive chord flit) := nofun
theorem Format.idleFlitReceive chord flit : Format.Statement (.idleFlitReceive chord flit) := nofun
theorem Format.replayRequestReceive chord flit : Format.Statement (.replayRequestReceive chord flit) := nofun
theorem Format.replayTimerExpiry chord : Format.Statement (.replayTimerExpiry chord) := nofun
theorem Format.read chord pkt : Format.Statement (.read chord pkt) := nofun
theorem Format.write chord pkt : Format.Statement (.write chord pkt) := nofun
theorem Format.atomic chord pkt : Format.Statement (.atomic chord pkt) := nofun
theorem Format.readResp chord pkt : Format.Statement (.readResp chord pkt) := nofun
theorem Format.writeAck chord pkt : Format.Statement (.writeAck chord pkt) := nofun
theorem Format.atomicResp chord pkt : Format.Statement (.atomicResp chord pkt) := nofun
theorem Format.message msg : Format.Statement (.message msg) := nofun
theorem Format.laneLoss chord lane : Format.Statement (.laneLoss chord lane) := nofun
theorem Format.functionReady bit : Format.Statement (.functionReady bit) := nofun
theorem Format.stageImage image : Format.Statement (.stageImage image) := nofun
theorem Format.minsvn n : Format.Statement (.minsvn n) := nofun
theorem Format.opkey hash : Format.Statement (.opkey hash) := nofun
theorem Format.image image : Format.Statement (.image image) := nofun
theorem Format.attest nonce : Format.Statement (.attest nonce) := nofun
theorem Format.ckpt partition : Format.Statement (.ckpt partition) := nofun
theorem Format.matrixWordWrite partition cls value : Format.Statement (.matrixWordWrite partition cls value) := nofun
theorem Format.logHeadWrite partition value : Format.Statement (.logHeadWrite partition value) := nofun
theorem Format.dumpDescriptorWrite partition sizeWord value : Format.Statement (.dumpDescriptorWrite partition sizeWord value) := nofun
theorem Format.debugBlockWrite tag off value : Format.Statement (.debugBlockWrite tag off value) := nofun
theorem Format.halt tag : Format.Statement (.halt tag) := nofun
theorem Format.go tag : Format.Statement (.go tag) := nofun
theorem Format.step tag launch wgnum : Format.Statement (.step tag launch wgnum) := nofun
theorem Format.replay tag id n : Format.Statement (.replay tag id n) := nofun
theorem Format.sample quadrant core part tag : Format.Statement (.sample quadrant core part tag) := nofun
theorem Format.managementRegisterWrite off value : Format.Statement (.managementRegisterWrite off value) := nofun
theorem Format.cxlLinkError info : Format.Statement (.cxlLinkError info) := nofun
theorem Format.internalConsistencyCheck quadrant source info : Format.Statement (.internalConsistencyCheck quadrant source info) := nofun
theorem Format.scrubbing pa uncorrected : Format.Statement (.scrubbing pa uncorrected) := nofun
theorem Format.nop : Format.Statement .nop := by
  intro _
  rfl
theorem Format.nopU : Format.Statement .nopU := by
  intro _
  rfl
theorem Format.ret : Format.Statement .ret := by
  intro _
  rfl
theorem Format.join : Format.Statement .join := by
  intro _
  rfl
theorem Format.exit : Format.Statement .exit := by
  intro _
  rfl
theorem Format.meldend : Format.Statement .meldend := by
  intro _
  rfl
theorem Format.rnclr : Format.Statement .rnclr := by
  intro _
  rfl
theorem Format.mwait : Format.Statement .mwait := by
  intro _
  rfl
theorem Format.yield : Format.Statement .yield := by
  intro _
  rfl
theorem Format.reset : Format.Statement (.reset) := nofun
theorem Format.firmwareCommit : Format.Statement (.firmwareCommit) := nofun
theorem Format.recover : Format.Statement (.recover) := nofun

end Sys2Proof.Laws
end

