-- ==== Sys2Proof/Laws/Results.lean ====
section
/-!
SUPPORT. Instructions of the common mould have the results that a row of a table gives.
-/

namespace Sys2Proof.Machine

open Sys2Proof

/-- A result as the pipeline carries it. -/
def toOut : Token ⊕ Val → ThreadOut
  | .inl k => .tok k
  | .inr (.words ws) => .words ws
  | .inr (.bool b) => .bool b
  | .inr (.idx b e) => .idx b e

/-- R48: the pipeline reads the sources as `operands` does. -/
theorem gather_operands (h : Here) (t : Nat) (l : List Src) :
    (∀ k, operands h t l = some (.inl k) → gather h.g h.p t l = .inl (.tok k)) ∧
    (∀ vs, operands h t l = some (.inr vs) → gather h.g h.p t l = .inr vs) := by
  induction l with
  | nil => simp [operands, gather]
  | cons x l ih =>
    simp only [operands, gather]
    cases readSrc h.g h.p x t with
    | poison k => simp
    | empty => simp
    | words ws =>
      simp only
      cases ho : operands h t l with
      | none => simp
      | some y =>
        cases y with
        | inl k => simp [ih.1 k ho]
        | inr vs => simp [ih.2 vs ho]

/-- R339: sources of which none is empty leave no empty read behind. -/
theorem lateReads_operands (h : Here) (t : Nat) (l : List Src) (y : Token ⊕ List (List Word)) (ho : operands h t l = some y) :
    lateReads h.g h.p t l = [] := by
  induction l generalizing y with
  | nil => rfl
  | cons x l ih =>
    simp only [operands] at ho
    simp only [lateReads]
    cases hx : readSrc h.g h.p x t with
    | poison k =>
      simp only [hx] at ho
      split at ho
      · rename_i hall
        rw [List.all_eq_true] at hall
        simp only [List.map_eq_nil_iff, List.filter_eq_nil_iff]
        intro a ha
        have := hall a ha
        simpa using this
      · cases ho
    | empty => simp [hx] at ho
    | words ws =>
      simp only [hx] at ho
      cases hl : operands h t l with
      | none => simp [hl] at ho
      | some z => exact ih z hl

/-- The values that a destination takes. -/
def Fits (d : Dst) : Val → Prop
  | .words ws => (d.file = .v ∨ d.file = .s) ∧ ws.length = d.n
  | .bool _ => d.file = .p
  | .idx _ _ => d.file = .x

/-- A result that fits its destination does so as the pipeline carries it. -/
theorem toOut_fits (d : Dst) (r : Token ⊕ Val) (h : ∀ v, r = .inr v → Fits d v) : (toOut r).fits d.file = true := by
  cases r with
  | inl k => rfl
  | inr v =>
    have := h v rfl
    cases v <;> simp_all [toOut, ThreadOut.fits, Fits]

/-- The register of a file of words after a result that fits. -/
theorem regAfter_toOut (d : Dst) (r : Token ⊕ Val) (old : Reg) (b n : Nat) (h : ∀ v, r = .inr v → Fits d v)
    (hd : d.file = .v ∨ d.file = .s) :
    regAfter old b n d.n (toOut r) = if b ≤ n ∧ n < b + d.n then Val.reg (n - b) r else old := by
  cases r with
  | inl k =>
    simp only [toOut, regAfter, outRegs, List.length_replicate, Val.reg, poisonReg]
    split
    · rw [List.getD, List.getElem?_replicate, if_pos (by omega)]; rfl
    · rfl
  | inr v =>
    have := h v rfl
    cases v with
    | words ws =>
      simp only [Fits] at this
      simp only [toOut, regAfter, outRegs, List.length_map, this.2, Val.reg, cleanReg]
      split
      · rw [List.getD, List.getElem?_map]
        rcases hy : ws[n - b]? with _ | w
        · have := List.getElem?_eq_none_iff.mp hy; omega
        · simp only [Option.map_some, Option.getD_some, List.getD, hy]
      · rfl
    | bool b => simp only [Fits] at this; rcases hd with h | h <;> rw [this] at h <;> cases h
    | idx b e => simp only [Fits] at this; rcases hd with h | h <;> rw [this] at h <;> cases h

/-- A predicate after a result that fits. -/
theorem predAfter_toOut (d : Dst) (r : Token ⊕ Val) (old : Pred) (h : ∀ v, r = .inr v → Fits d v) (hd : d.file = .p) :
    predAfter old (toOut r) = Val.pred r := by
  cases r with
  | inl k => rfl
  | inr v =>
    have := h v rfl
    cases v with
    | words ws => simp only [Fits] at this; rcases this.1 with h | h <;> rw [hd] at h <;> cases h
    | bool b => rfl
    | idx b e => simp only [Fits] at this; rw [hd] at this; cases this

/-- An index register after a result that fits. -/
theorem idxAfter_toOut (d : Dst) (r : Token ⊕ Val) (old : Idx) (h : ∀ v, r = .inr v → Fits d v) (hd : d.file = .x) :
    idxAfter old (toOut r) = Val.idxReg r := by
  cases r with
  | inl k => rfl
  | inr v =>
    have := h v rfl
    cases v with
    | words ws => simp only [Fits] at this; rcases this.1 with h | h <;> rw [hd] at h <;> cases h
    | bool b => simp only [Fits] at this; rw [hd] at this; cases this
    | idx b e => rfl

/-- A part of a group that each write of a result leaves is left by all of them. -/
theorem writes_leave {β : Type} (view : Group → β) (p : Path) (d : Dst) (outs : List (Nat × ThreadOut))
    (hw : ∀ g, ∀ o ∈ outs, view (writeOut p d g o.1 o.2) = view g) (g : Group) :
    view (outs.foldl (fun g o => writeOut p d g o.1 o.2) g) = view g := by
  induction outs generalizing g with
  | nil => rfl
  | cons o l ih =>
    rw [List.foldl_cons, ih (fun g x hx => hw g x (List.mem_cons_of_mem _ hx)), hw _ _ (List.mem_cons_self ..)]

/-- The result of a thread among the results that the pipeline carries. -/
theorem outOf_result (outs : List (Nat × ThreadOut)) (res : Nat → Token ⊕ Val) (hn : (outs.map (·.1)).Nodup)
    (hres : ∀ o ∈ outs, o.2 = toOut (res o.1)) (t : Nat) (ht : t ∈ outs.map (·.1)) : outOf outs t = toOut (res t) := by
  obtain ⟨o, ho, rfl⟩ := List.mem_map.mp ht
  have := outOf_map outs (·.1) (·.2) hn o ho
  have e : (outs.map fun y => (y.1, y.2)) = outs := List.map_id _
  rw [e] at this
  rw [this, hres o ho]

/-! Groups with the same register file read the same. -/

theorem vGet_congr {g g' : Group} (h : g'.v = g.v) (n t : Nat) : vGet g' n t = vGet g n t := by unfold vGet; rw [h]
theorem sGet_congr {g g' : Group} (h : g'.sr = g.sr) (n : Nat) : sGet g' n = sGet g n := by unfold sGet; rw [h]
theorem pGet_congr {g g' : Group} (h : g'.p = g.p) (n t : Nat) : pGet g' n t = pGet g n t := by unfold pGet; rw [h]
theorem xGet_congr {g g' : Group} (h : g'.x = g.x) (n t : Nat) : xGet g' n t = xGet g n t := by unfold xGet; rw [h]

/-- Results written one by one leave the registers as `Wrote` says. -/
theorem wrote_of (h : Here) (d : Dst) (outs : List (Nat × ThreadOut)) (res : Nat → Token ⊕ Val)
    (hn : (outs.map (·.1)).Nodup) (hlt : ∀ o ∈ outs, o.1 < 128)
    (hs : d.file = .s → outs.length ≤ 1)
    (hres : ∀ o ∈ outs, o.2 = toOut (res o.1)) (hfit : ∀ o ∈ outs, ∀ v, res o.1 = .inr v → Fits d v)
    (g' : Group) (hg : g'.v = (outs.foldl (fun g o => writeOut h.p d g o.1 o.2) h.g).v ∧ g'.sr = (outs.foldl (fun g o => writeOut h.p d g o.1 o.2) h.g).sr
      ∧ g'.p = (outs.foldl (fun g o => writeOut h.p d g o.1 o.2) h.g).p ∧ g'.x = (outs.foldl (fun g o => writeOut h.p d g o.1 o.2) h.g).x) :
    Wrote h g' d (outs.map (·.1)) res := by
  have fits : ∀ o ∈ outs, o.2.fits d.file = true := fun o ho => hres o ho ▸ toOut_fits d _ (hfit o ho)
  have fit : ∀ t, t ∈ outs.map (·.1) → ∀ v, res t = .inr v → Fits d v := by
    intro t ht
    obtain ⟨o, ho, rfl⟩ := List.mem_map.mp ht
    exact hfit o ho
  have mem_of := outOf_result outs res hn hres
  obtain ⟨hv, hsr, hp, hx⟩ := hg
  refine ⟨?_, ?_, ?_, ?_⟩
  · intro n t ht
    rw [vGet_congr hv]
    by_cases hd : d.file = .v
    · rw [vGet_writes _ _ _ _ _ _ hd hn hlt ht]
      by_cases hm : t ∈ outs.map (·.1)
      · rw [mem_of t hm, regAfter_toOut d _ _ _ _ (fit t hm) (.inl hd)]
        simp only [hd, hm, true_and]
      · rw [outOf_absent _ _ hm, regAfter_keep, if_neg fun c => hm c.2.1]
    · rw [if_neg fun c => hd c.1]
      exact vGet_congr (writes_leave (·.v) h.p d outs (fun g o _ => writeOut_v _ _ _ _ _ hd) _) n t
  · intro n
    rw [sGet_congr hsr]
    by_cases hd : d.file = .s
    · match houts : outs, hs hd with
      | [], _ => rfl
      | [o], _ =>
        subst houts
        have ho := List.mem_singleton.mpr (rfl : o = o)
        rw [sGet_writes _ _ _ _ _ hd, hres o ho, regAfter_toOut d _ _ _ _ (hfit o ho) (.inr hd)]
        simp only [List.map_cons, List.map_nil, hd, true_and]
    · rw [sGet_congr (writes_leave (·.sr) h.p d outs (fun g o ho => writeOut_sr _ _ _ _ _ hd (fits o ho)) _)]
      split
      · rfl
      · rw [if_neg fun c => hd c.1]
  · intro n t ht
    rw [pGet_congr hp]
    by_cases hd : d.file = .p
    · rw [pGet_writes _ _ _ _ _ _ hd hn hlt ht]
      by_cases hm : t ∈ outs.map (·.1)
      · rw [mem_of t hm, predAfter_toOut d _ _ (fit t hm) hd]
        simp only [hd, hm, true_and, and_true]
      · rw [outOf_absent _ _ hm, if_neg (c := d.file = .p ∧ _) fun c => hm c.2.2.2]
        exact ite_self _
    · rw [if_neg fun c => hd c.1]
      exact pGet_congr (writes_leave (·.p) h.p d outs (fun g o ho => writeOut_p _ _ _ _ _ hd (fits o ho)) _) n t
  · intro n t ht
    rw [xGet_congr hx]
    by_cases hd : d.file = .x
    · rw [xGet_writes _ _ _ _ _ _ hd hn hlt ht]
      by_cases hm : t ∈ outs.map (·.1)
      · rw [mem_of t hm, idxAfter_toOut d _ _ (fit t hm) hd]
        simp only [hd, hm, true_and, and_true]
      · rw [outOf_absent _ _ hm, if_neg (c := d.file = .x ∧ _) fun c => hm c.2.2]
        exact ite_self _
    · rw [if_neg fun c => hd c.1]
      exact xGet_congr (writes_leave (·.x) h.p d outs (fun g o ho => writeOut_x _ _ _ _ _ hd (fits o ho)) _) n t

/-- A word whose outcome is its results written into its group is a `RegisterStep`. -/
theorem outs_step (i : Instr) (s : State) (h : Here) (hh : s.here = some h) (d : Dst) (outs : List (Nat × ThreadOut))
    (he : exec i s = .next (s.setGroup ((outs.foldl (fun g o => writeOut h.p d g o.1 o.2) h.g).goneOn h.pid (nextPc h.p.pc)))) :
    RegisterStep i s h ((outs.foldl (fun g o => writeOut h.p d g o.1 o.2) h.g).goneOn h.pid (nextPc h.p.pc)) := by
  have hw := sameButRegs_writes h.p d outs h.g
  have he4 := (here_eq s h hh).2.2.2.2
  refine ⟨_, he, ⟨rfl, fun _ => rfl, fun k hk => ?_, rfl⟩, ⟨?_, ?_, ?_⟩, ?_⟩
  · rw [group_setGroup, if_neg hk]
  · rw [hw]; rfl
  · rw [hw]; simp [Group.goneOn, he4]
  · intro q hq
    rw [hw]; simp [Group.goneOn, sfind_smod, hq]
  · unfold OnlyRegisters
    rw [hw]; rfl

/-- A word whose outcome is the results of its executing threads, written into its group. -/
theorem outs_row (i : Instr) (s : State) (h : Here) (hh : s.here = some h) (d : Dst) (ths : List (Nat × Option Token))
    (out : Nat × Option Token → ThreadOut) (res : Nat → Token ⊕ Val)
    (he : exec i s = .next (retire (writeAll s h d (ths.map fun t => (t.1, out t))) h))
    (hn : (ths.map (·.1)).Nodup) (hlt : ∀ t ∈ ths, t.1 < 128) (hs : d.file = .s → ths.length ≤ 1)
    (hres : ∀ t ∈ ths, out t = toOut (res t.1)) (hfit : ∀ t ∈ ths, ∀ v, res t.1 = .inr v → Fits d v) :
    ∃ g', RegisterStep i s h g' ∧ Wrote h g' d (ths.map (·.1)) res := by
  rw [retire_writeAll s h hh] at he
  refine ⟨_, outs_step i s h hh d _ he, ?_⟩
  have := wrote_of h d (ths.map fun t => (t.1, out t)) res (by rw [List.map_map]; exact hn)
    (by intro o ho; obtain ⟨t, ht, rfl⟩ := List.mem_map.mp ho; exact hlt t ht) (by rw [List.length_map]; exact hs)
    (by intro o ho; obtain ⟨t, ht, rfl⟩ := List.mem_map.mp ho; exact hres t ht)
    (by intro o ho; obtain ⟨t, ht, rfl⟩ := List.mem_map.mp ho; exact hfit t ht)
    (((ths.map fun t => (t.1, out t)).foldl (fun g o => writeOut h.p d g o.1 o.2) h.g).goneOn h.pid (nextPc h.p.pc))
    ⟨rfl, rfl, rfl, rfl⟩
  rw [List.map_map] at this
  exact this

/-- Results that `toOut` gives need no record. -/
theorem settle_toOut {β : Type} (s : State) (h : Here) (l : List β) (k : β → Nat) (out : β → ThreadOut)
    (hout : ∀ t ∈ l, ∃ r, out t = toOut r) : settle s h (l.map fun t => (k t, out t)) = (l.map fun t => (k t, out t), s) := by
  apply settle_noFresh
  intro o ho f
  obtain ⟨t, ht, rfl⟩ := List.mem_map.mp ho
  obtain ⟨r, hr⟩ := hout t ht
  simp only [hr]
  cases r with
  | inl k => simp [toOut]
  | inr v => cases v <;> simp [toOut]

/-- A v or s source that reads clean gives one word for each register. -/
theorem readSrc_length (g : Group) (p : Path) (x : Src) (t : Nat) (ws : List Word) (h : readSrc g p x t = .words ws)
    (hf : x.file = .v ∨ x.file = .s) : ws.length = x.n := by
  unfold readSrc at h
  simp only at h
  split at h
  · split at h
    · cases h
    · cases h
      rcases hf with e | e <;> simp [regsOf, e]
  · cases h

/-- An instruction of the mould that agrees with its row of a table has the results of the row. -/
theorem results_row (i : Instr) (s : State) (h : Here) (hh : s.here = some h) (x : Shape) (op : AluOp) (res : Nat → Token ⊕ Val)
    (he : exec i s = alu i s h op) (h1 : op.unif = x.unif) (h2 : op.sel = false) (h3 : op.srcs = x.srcs) (h4 : op.dst = x.dst)
    (h5 : op.typeOk = x.ok) (h6 : op.float = true → x.float = true)
    (hfile : x.dst.file = .s → x.unif = true)
    (hf : ∀ t vs v, x.value vs = some v → op.f t vs = toOut (.inr v) ∧ Fits x.dst v)
    (hr : x.ready s h) (hres : ∀ t ∈ x.threads h, x.result h t = some (res t.1)) :
    ∃ g', RegisterStep i s h g' ∧ Wrote h g' x.dst ((x.threads h).map (·.1)) res := by
  have hth : aluThreads h op = x.threads h := by simp [aluThreads, h2, Shape.threads, h1]
  have hout : ∀ t ∈ x.threads h, aluOut s h op t.1 t.2 = toOut (res t.1) ∧ ∀ v, res t.1 = .inr v → Fits x.dst v := by
    intro t ht
    have hr1 := hres t ht
    unfold Shape.result at hr1
    unfold aluOut
    cases h2' : t.2 with
    | some k => simp only [h2'] at hr1; simp at hr1; simp [← hr1, toOut]
    | none =>
      simp only [h2'] at hr1
      simp only
      cases ho : operands h t.1 x.srcs with
      | none => simp [ho] at hr1
      | some y =>
        cases y with
        | inl k =>
          simp [ho] at hr1
          rw [h3, (gather_operands h t.1 x.srcs).1 k ho]
          simp [← hr1, toOut]
        | inr vs =>
          simp only [ho, Option.map_eq_some_iff] at hr1
          obtain ⟨v, hv, hv2⟩ := hr1
          rw [h3, (gather_operands h t.1 x.srcs).2 vs ho]
          have := hf t.1 vs v hv
          show shadowed s op.float t.1 (op.f t.1 vs) = _ ∧ _
          rw [shadowed_none _ _ _ _ fun e => hr.2.2 (h6 e) t ht, this.1, ← hv2]
          exact ⟨rfl, fun w hw => by cases hw; exact this.2⟩
  have hnf : noFresh ((aluThreads h op).map fun t => (t.1, aluOut s h op t.1 t.2)) := by
    intro o ho f
    obtain ⟨t, ht, rfl⟩ := List.mem_map.mp ho
    rw [hth] at ht
    rw [(hout t ht).1]
    cases hrr : res t.1 with
    | inl k => simp [toOut]
    | inr v => cases v <;> simp [toOut]
  have hlate : aluLate h op (aluThreads h op) = [] := by
    unfold aluLate
    rw [hth, List.flatMap_eq_nil_iff]
    intro t ht
    have h2' := (List.mem_filter.mp ht).2
    have hr1 := hres t (List.mem_filter.mp ht).1
    unfold Shape.result at hr1
    cases hk : t.2 with
    | some k => simp [hk] at h2'
    | none =>
      simp only [hk] at hr1
      cases ho : operands h t.1 x.srcs with
      | none => simp [ho] at hr1
      | some y => rw [h3]; exact lateReads_operands h t.1 x.srcs y ho
  have hnext := alu_next i s h hh op (by rw [h3, h4, h5]; exact hr.1) (by rw [hth, h3, h4]; exact hr.2.1) hnf hlate
  rw [← he] at hnext
  refine ⟨_, outs_step i s h hh _ _ hnext, ?_⟩
  rw [hth, h4]
  have := wrote_of h x.dst ((x.threads h).map fun t => (t.1, aluOut s h op t.1 t.2)) res
    (by rw [List.map_map]; exact execThreads_nodup ..)
    (by intro o ho; obtain ⟨t, ht, rfl⟩ := List.mem_map.mp ho; exact execThreads_lt _ _ _ _ ht)
    (by
      intro hd
      rw [List.length_map]
      simp only [Shape.threads, hfile hd, execThreads, if_true]
      exact uniThreads_length ..)
    (by intro o ho; obtain ⟨t, ht, rfl⟩ := List.mem_map.mp ho; exact (hout t ht).1)
    (by intro o ho; obtain ⟨t, ht, rfl⟩ := List.mem_map.mp ho; exact (hout t ht).2)
    ((((x.threads h).map fun t => (t.1, aluOut s h op t.1 t.2)).foldl (fun g o => writeOut h.p x.dst g o.1 o.2) h.g).goneOn h.pid (nextPc h.p.pc))
    ⟨rfl, rfl, rfl, rfl⟩
  rw [List.map_map] at this
  exact this

end Sys2Proof.Machine
end

