-- ==== Sys2Proof/Laws/Word.lean ====
section
/-!
SUPPORT. The halves of a 64-bit value.
-/

namespace Sys2Proof

theorem DWord.ofHalves_bit (a b : Word) (i : Nat) :
    (DWord.ofHalves a b).getLsbD i = if i < 32 then a.getLsbD i else b.getLsbD (i - 32) := by
  have h : (DWord.ofHalves a b).getLsbD i = (b ++ a : BitVec (32 + 32)).getLsbD i := rfl
  rw [h, BitVec.getLsbD_append]

@[simp] theorem DWord.halves_ofHalves (a b : Word) : (DWord.ofHalves a b).halves = (a, b) := by
  simp only [DWord.halves, Prod.mk.injEq]
  constructor
  · apply BitVec.eq_of_getLsbD_eq
    intro i hi
    simp [DWord.ofHalves_bit, hi]
  · apply BitVec.eq_of_getLsbD_eq
    intro i hi
    simp [DWord.ofHalves_bit, hi]

@[simp] theorem DWord.ofHalves_halves (x : DWord) : DWord.ofHalves x.halves.1 x.halves.2 = x := by
  apply BitVec.eq_of_getLsbD_eq
  intro i hi
  rw [DWord.ofHalves_bit]
  simp only [DWord.halves, BitVec.getLsbD_extractLsb']
  split
  · simp [*]
  · have e : 32 + (i - 32) = i := by omega
    simp [e]
    omega

end Sys2Proof
end

