-- ==== Sys2Proof/Tests/Slice0.lean ====
section
/-!
SUPPORT. Tests of the model: ill-formed terms that the checks refuse, words written out from the encoding, single steps with results
worked out by hand from the rules, and for every statement a state and operands that meet its hypotheses.
-/

namespace Sys2Proof.Tests

set_option Elab.async false

open Sys2Proof Sys2Proof.Machine

/-! ## Ill-formed terms (R177 checks 3 and 4) -/

/-- R156: an s-register number has bit 6 zero. -/
theorem test_illFormed_sRegister : Instr.wellFormed (.addU 64 false 0 false 0) = false := by decide
/-- R241: format 2 to format 2 is not listed. -/
theorem test_illFormed_conversion : Instr.wellFormed (.cvt 0 false 0 0x22) = false := by decide
/-- R213: there is no system register 0x0B. -/
theorem test_illFormed_systemRead : Instr.wellFormed (.sysr 0 0x0B) = false := by decide
/-- R213: register 0x0A is not writable. -/
theorem test_illFormed_systemWrite : Instr.wellFormed (.sysw false 0 0x0A) = false := by decide
/-- R198, R158: a tile has no E bit; there is no predicate 8, no index register 4. -/
theorem test_illFormed_poisonCheck : Instr.wellFormed (.pchk 1 true 0 3) = false ∧ Instr.wellFormed (.pchk 1 false 8 1) = false ∧
    Instr.wellFormed (.pchk 1 false 4 2) = false := by decide
/-- R164: type 110, path 00 and a set reserved bit. -/
theorem test_illFormed_mode : Instr.wellFormed (.mode 0x0C18) = false ∧ Instr.wellFormed (.mode 0x0000) = false ∧
    Instr.wellFormed (.mode 0x0019) = false := by decide
/-- R180: MODEG writes no type. -/
theorem test_illFormed_modeg : Instr.wellFormed (.modeg 0x0218) = false := by decide
/-- R181: block 32 does not exist; bits [10:8] are reserved. -/
theorem test_illFormed_stage : Instr.wellFormed (.stage 0xF802) = false ∧ Instr.wellFormed (.stage 0x0100) = false := by decide
/-- R197: an offset only under action 0. -/
theorem test_illFormed_commit : Instr.wellFormed (.commit 1 5) = false := by decide
/-- R237, R238: comparison 8 is reserved. -/
theorem test_illFormed_compare : Instr.wellFormed (.cmp 8 1 false 0 false 0) = false ∧ Instr.wellFormed (.cmpi 8 1 false 0 0) = false := by decide
/-- R246: kind 3 is reserved; a predicate destination is below 8. -/
theorem test_illFormed_vote : Instr.wellFormed (.vote 0 false 0 3) = false ∧ Instr.wellFormed (.vote 8 false 0 0) = false := by decide
/-- R247: operations 6 and 7 are reserved. -/
theorem test_illFormed_scan : Instr.wellFormed (.qscan 0 false 0 6) = false ∧ Instr.wellFormed (.reduce 0 false 0 8) = false := by decide
/-- R272: the odd queues below 6 are read, the even ones written. -/
theorem test_illFormed_queue : Instr.wellFormed (.qw 1 false 0) = false ∧ Instr.wellFormed (.qr 0 2) = false := by decide
/-- R200: PORIG.SPAN has no source. -/
theorem test_illFormed_spanRecord : Instr.wellFormed (.porig 0 false 1 8) = false := by decide
/-- R204: a count is at most 16. -/
theorem test_illFormed_barrier : Instr.wellFormed (.barSync 17 0) = false := by decide
/-- R157, R288: pairs, groups of four and groups of eight start at a multiple of their size, a scaled block below s49. -/
theorem test_illFormed_pair : Instr.wellFormed (.ld 0 false 1 0 0) = false ∧ Instr.wellFormed (.acas 2 false 0 true true 0) = false ∧
    Instr.wellFormed (.wlpush 2 0) = false ∧ Instr.wellFormed (.mma 0 false 4 0) = false ∧ Instr.wellFormed (.mmas 0 false 56 0) = false := by decide
/-- The same terms are refused by the decoder, under the name of their check. -/
theorem test_illFormed_words : decode (encode (.barSync 17 0)) = .error .field ∧ decode (encode (.ld 0 false 1 0 0)) = .error .pair :=
  ⟨rfl, rfl⟩

/-! ## Words (R153 to R158, R174 to R176, opcode map) -/

/-- Row 00 of the opcode map: control flow. -/
theorem test_decode_row0 :
    decode 0b0_0000_0000_00000000000000000000000#32 = .ok .nop ∧
    decode 0b1_0000_0000_00000000000000000000000#32 = .ok .nopU ∧
    decode 0b0_0000_0001_101_1_1000001001000110101#32 = .ok (.bra 5 true 0x41235) ∧
    decode 0b0_0000_0010_101_1_1000001001000110101#32 = .ok (.brc 5 true 0x41235) ∧
    decode 0b0_0000_0011_0000_1000001001000110101#32 = .ok (.call 0x41235) ∧
    decode 0b0_0000_0100_0000_1000001001000110101#32 = .ok (.reconv 0x41235) ∧
    decode 0b0_0000_0101_0_10_0_1000001001000110101#32 = .ok (.span 2 0x41235) ∧
    decode 0b0_0000_0110_0_00_0_1000001001000110101#32 = .ok (.commit 0 0x41235) ∧
    decode 0b0_0000_1000_0000000_1_0010000_00000000#32 = .ok (.brx true 16) ∧
    decode 0b0_0000_1001_0000000_0_0010000_00000000#32 = .ok (.callx false 16) ∧
    decode 0b0_0000_1010_00000000000000000000000#32 = .ok .ret ∧
    decode 0b0_0000_1011_00000000000000000000000#32 = .ok .join ∧
    decode 0b0_0000_1100_00000000000000000000000#32 = .ok .exit ∧
    decode 0b0_0000_1101_0000000_0_0000_101_00000000#32 = .ok (.meld false 5) ∧
    decode 0b0_0000_1110_00000000000000000000000#32 = .ok .meldend ∧
    decode 0b0_0000_1111_000_1010_0_0010000_0_0011000#32 = .ok (.rnset 10 16 24) :=
  ⟨rfl, rfl, rfl, rfl, rfl, rfl, rfl, rfl, rfl, rfl, rfl, rfl, rfl, rfl, rfl, rfl⟩

/-- Row 10 of the opcode map: arithmetic. -/
theorem test_decode_row1 :
    decode 0b0_0001_0000_0101000_1_0010000_0_0011000#32 = .ok (.add 40 true 16 false 24) ∧
    decode 0b1_0001_0000_0101000_0_0010000_1_0011000#32 = .ok (.addU 40 false 16 true 24) ∧
    decode 0b0_0001_0001_0101000_1_0010000_0_0011000#32 = .ok (.sub 40 true 16 false 24) ∧
    decode 0b1_0001_0001_0101000_0_0010000_1_0011000#32 = .ok (.subU 40 false 16 true 24) ∧
    decode 0b0_0001_0010_0101000_1_0010000_0_0011000#32 = .ok (.mul 40 true 16 false 24) ∧
    decode 0b1_0001_0010_0101000_0_0010000_1_0011000#32 = .ok (.mulU 40 false 16 true 24) ∧
    decode 0b0_0001_0011_0101000_1_0010000_0_0011000#32 = .ok (.mulhi 40 true 16 false 24) ∧
    decode 0b1_0001_0011_0101000_0_0010000_1_0011000#32 = .ok (.mulhiU 40 false 16 true 24) ∧
    decode 0b0_0001_0100_0101000_1_0010000_0_0011000#32 = .ok (.fma 40 true 16 false 24) ∧
    decode 0b1_0001_0100_0101000_0_0010000_1_0011000#32 = .ok (.fmaU 40 false 16 true 24) ∧
    decode 0b0_0001_0101_0101000_1_0010000_0_0011000#32 = .ok (.min 40 true 16 false 24) ∧
    decode 0b1_0001_0101_0101000_0_0010000_1_0011000#32 = .ok (.minU 40 false 16 true 24) ∧
    decode 0b0_0001_0110_0101000_1_0010000_0_0011000#32 = .ok (.max 40 true 16 false 24) ∧
    decode 0b1_0001_0110_0101000_0_0010000_1_0011000#32 = .ok (.maxU 40 false 16 true 24) ∧
    decode 0b0_0001_0111_0101000_1_0010000_0_0011000#32 = .ok (.div 40 true 16 false 24) ∧
    decode 0b1_0001_0111_0101000_0_0010000_1_0011000#32 = .ok (.divU 40 false 16 true 24) ∧
    decode 0b0_0001_1000_0101000_1_0010000_0_0011000#32 = .ok (.rem 40 true 16 false 24) ∧
    decode 0b1_0001_1000_0101000_0_0010000_1_0011000#32 = .ok (.remU 40 false 16 true 24) ∧
    decode 0b0_0001_1001_0101000_1_0010000_00000000#32 = .ok (.neg 40 true 16) ∧
    decode 0b1_0001_1001_0101000_0_0010000_00000000#32 = .ok (.negU 40 false 16) ∧
    decode 0b0_0001_1010_0101000_1_0010000_00000000#32 = .ok (.abs 40 true 16) ∧
    decode 0b1_0001_1010_0101000_0_0010000_00000000#32 = .ok (.absU 40 false 16) ∧
    decode 0b0_0001_1011_0101000_1_0010000_0_0011000#32 = .ok (.sel 40 true 16 false 24) ∧
    decode 0b0_0001_1100_0101000_0_0010000_1_0011000#32 = .ok (.add64 40 false 16 true 24) ∧
    decode 0b1_0001_1100_0101000_1_0010000_0_0011000#32 = .ok (.add64U 40 true 16 false 24) ∧
    decode 0b0_0001_1101_0101000_0_0010000_1_0011000#32 = .ok (.lea 40 false 16 true 24) ∧
    decode 0b1_0001_1101_0101000_1_0010000_0_0011000#32 = .ok (.leaU 40 true 16 false 24) ∧
    decode 0b0_0001_1110_0110_101_0_0010000_1_0011000#32 = .ok (.cmp 6 5 false 16 true 24) ∧
    decode 0b0_0001_1111_0000_101_1_0010000_10100101#32 = .ok (.classP 5 true 16 0xA5) :=
  ⟨rfl, rfl, rfl, rfl, rfl, rfl, rfl, rfl, rfl, rfl, rfl, rfl, rfl, rfl, rfl, rfl, rfl, rfl, rfl, rfl, rfl, rfl, rfl, rfl, rfl, rfl, rfl, rfl, rfl⟩

/-- Row 20 of the opcode map: bits and moves. -/
theorem test_decode_row2 :
    decode 0b0_0010_0000_0101000_0_0010000_1_0011000#32 = .ok (.and 40 false 16 true 24) ∧
    decode 0b1_0010_0000_0101000_1_0010000_0_0011000#32 = .ok (.andU 40 true 16 false 24) ∧
    decode 0b0_0010_0001_0101000_0_0010000_1_0011000#32 = .ok (.or 40 false 16 true 24) ∧
    decode 0b1_0010_0001_0101000_1_0010000_0_0011000#32 = .ok (.orU 40 true 16 false 24) ∧
    decode 0b0_0010_0010_0101000_0_0010000_1_0011000#32 = .ok (.xor 40 false 16 true 24) ∧
    decode 0b1_0010_0010_0101000_1_0010000_0_0011000#32 = .ok (.xorU 40 true 16 false 24) ∧
    decode 0b0_0010_0011_0101000_0_0010000_00000000#32 = .ok (.not 40 false 16) ∧
    decode 0b1_0010_0011_0101000_1_0010000_00000000#32 = .ok (.notU 40 true 16) ∧
    decode 0b0_0010_0100_0101000_0_0010000_1_0011000#32 = .ok (.shl 40 false 16 true 24) ∧
    decode 0b1_0010_0100_0101000_1_0010000_0_0011000#32 = .ok (.shlU 40 true 16 false 24) ∧
    decode 0b0_0010_0101_0101000_0_0010000_1_0011000#32 = .ok (.shr 40 false 16 true 24) ∧
    decode 0b1_0010_0101_0101000_1_0010000_0_0011000#32 = .ok (.shrU 40 true 16 false 24) ∧
    decode 0b0_0010_0110_0101000_0_0010000_1_0011000#32 = .ok (.sar 40 false 16 true 24) ∧
    decode 0b1_0010_0110_0101000_1_0010000_0_0011000#32 = .ok (.sarU 40 true 16 false 24) ∧
    decode 0b0_0010_0111_0101000_0_0010000_1_0011000#32 = .ok (.rot 40 false 16 true 24) ∧
    decode 0b1_0010_0111_0101000_1_0010000_0_0011000#32 = .ok (.rotU 40 true 16 false 24) ∧
    decode 0b0_0010_1000_0101000_0_0010000_1_0011000#32 = .ok (.bfx 40 false 16 true 24) ∧
    decode 0b1_0010_1000_0101000_1_0010000_0_0011000#32 = .ok (.bfxU 40 true 16 false 24) ∧
    decode 0b0_0010_1001_0101000_0_0010000_1_0011000#32 = .ok (.bfi 40 false 16 true 24) ∧
    decode 0b1_0010_1001_0101000_1_0010000_0_0011000#32 = .ok (.bfiU 40 true 16 false 24) ∧
    decode 0b0_0010_1010_0101000_0_0010000_00000000#32 = .ok (.popc 40 false 16) ∧
    decode 0b1_0010_1010_0101000_1_0010000_00000000#32 = .ok (.popcU 40 true 16) ∧
    decode 0b0_0010_1011_0101000_0_0010000_00000000#32 = .ok (.clz 40 false 16) ∧
    decode 0b1_0010_1011_0101000_1_0010000_00000000#32 = .ok (.clzU 40 true 16) ∧
    decode 0b0_0010_1100_0101000_0_0010000_00000000#32 = .ok (.ctz 40 false 16) ∧
    decode 0b1_0010_1100_0101000_1_0010000_00000000#32 = .ok (.ctzU 40 true 16) ∧
    decode 0b0_0010_1101_0101000_0_0010000_00000000#32 = .ok (.brev 40 false 16) ∧
    decode 0b1_0010_1101_0101000_1_0010000_00000000#32 = .ok (.brevU 40 true 16) ∧
    decode 0b0_0010_1110_0101000_0_0010000_00000000#32 = .ok (.mov 40 false 16) ∧
    decode 0b1_0010_1110_0101000_1_0010000_00000000#32 = .ok (.movU 40 true 16) :=
  ⟨rfl, rfl, rfl, rfl, rfl, rfl, rfl, rfl, rfl, rfl, rfl, rfl, rfl, rfl, rfl, rfl, rfl, rfl, rfl, rfl, rfl, rfl, rfl, rfl, rfl, rfl, rfl, rfl, rfl, rfl⟩

/-- Row 30 of the opcode map: special functions and conversions. -/
theorem test_decode_row3 :
    decode 0b0_0011_0000_0101000_0_0010000_00000000#32 = .ok (.rcp 40 false 16) ∧
    decode 0b1_0011_0000_0101000_1_0010000_00000000#32 = .ok (.rcpU 40 true 16) ∧
    decode 0b0_0011_0001_0101000_0_0010000_00000000#32 = .ok (.rsq 40 false 16) ∧
    decode 0b1_0011_0001_0101000_1_0010000_00000000#32 = .ok (.rsqU 40 true 16) ∧
    decode 0b0_0011_0010_0101000_0_0010000_00000000#32 = .ok (.sqrt 40 false 16) ∧
    decode 0b1_0011_0010_0101000_1_0010000_00000000#32 = .ok (.sqrtU 40 true 16) ∧
    decode 0b0_0011_0011_0101000_0_0010000_00000000#32 = .ok (.exp2 40 false 16) ∧
    decode 0b1_0011_0011_0101000_1_0010000_00000000#32 = .ok (.exp2U 40 true 16) ∧
    decode 0b0_0011_0100_0101000_0_0010000_00000000#32 = .ok (.log2 40 false 16) ∧
    decode 0b1_0011_0100_0101000_1_0010000_00000000#32 = .ok (.log2U 40 true 16) ∧
    decode 0b0_0011_0101_0101000_0_0010000_00000000#32 = .ok (.sin 40 false 16) ∧
    decode 0b1_0011_0101_0101000_1_0010000_00000000#32 = .ok (.sinU 40 true 16) ∧
    decode 0b0_0011_0110_0101000_0_0010000_00000000#32 = .ok (.cos 40 false 16) ∧
    decode 0b1_0011_0110_0101000_1_0010000_00000000#32 = .ok (.cosU 40 true 16) ∧
    decode 0b0_0011_0111_0101000_0_0010000_00100011#32 = .ok (.cvt 40 false 16 0x23) ∧
    decode 0b1_0011_0111_0101000_1_0010000_00100011#32 = .ok (.cvtU 40 true 16 0x23) ∧
    decode 0b0_0011_1000_0101000_0_0010000_1_0011000#32 = .ok (.pack2 40 false 16 true 24) ∧
    decode 0b1_0011_1000_0101000_1_0010000_0_0011000#32 = .ok (.pack2U 40 true 16 false 24) ∧
    decode 0b0_0011_1001_0101000_0_0010000_0000000_1#32 = .ok (.unpk2 40 false 16 true) ∧
    decode 0b1_0011_1001_0101000_1_0010000_0000000_1#32 = .ok (.unpk2U 40 true 16 true) :=
  ⟨rfl, rfl, rfl, rfl, rfl, rfl, rfl, rfl, rfl, rfl, rfl, rfl, rfl, rfl, rfl, rfl, rfl, rfl, rfl, rfl⟩

/-- Row 40 of the opcode map: immediates. -/
theorem test_decode_row4 :
    decode 0b0_0100_0000_0101000_0_0010000_10100101#32 = .ok (.addi 40 false 16 0xA5) ∧
    decode 0b1_0100_0000_0101000_1_0010000_10100101#32 = .ok (.addiU 40 true 16 0xA5) ∧
    decode 0b0_0100_0001_0101000_0_0010000_10100101#32 = .ok (.andi 40 false 16 0xA5) ∧
    decode 0b1_0100_0001_0101000_1_0010000_10100101#32 = .ok (.andiU 40 true 16 0xA5) ∧
    decode 0b0_0100_0010_0101000_0_0010000_10100101#32 = .ok (.ori 40 false 16 0xA5) ∧
    decode 0b1_0100_0010_0101000_1_0010000_10100101#32 = .ok (.oriU 40 true 16 0xA5) ∧
    decode 0b0_0100_0011_0101000_0_0010000_10100101#32 = .ok (.xori 40 false 16 0xA5) ∧
    decode 0b1_0100_0011_0101000_1_0010000_10100101#32 = .ok (.xoriU 40 true 16 0xA5) ∧
    decode 0b0_0100_0100_0101000_0_0010000_000_10101#32 = .ok (.shli 40 false 16 21) ∧
    decode 0b1_0100_0100_0101000_1_0010000_000_10101#32 = .ok (.shliU 40 true 16 21) ∧
    decode 0b0_0100_0101_0101000_0_0010000_000_10101#32 = .ok (.shri 40 false 16 21) ∧
    decode 0b1_0100_0101_0101000_1_0010000_000_10101#32 = .ok (.shriU 40 true 16 21) ∧
    decode 0b0_0100_0110_0110_101_0_0010000_10100101#32 = .ok (.cmpi 6 5 false 16 0xA5) ∧
    decode 0b0_0100_1000_0101000_0001001000110100#32 = .ok (.movw 40 0x1234) ∧
    decode 0b1_0100_1000_0101000_0001001000110100#32 = .ok (.movwU 40 0x1234) ∧
    decode 0b0_0100_1001_0101000_0001001000110100#32 = .ok (.movh 40 0x1234) ∧
    decode 0b1_0100_1001_0101000_0001001000110100#32 = .ok (.movhU 40 0x1234) :=
  ⟨rfl, rfl, rfl, rfl, rfl, rfl, rfl, rfl, rfl, rfl, rfl, rfl, rfl, rfl, rfl, rfl, rfl⟩

/-- Row 50 of the opcode map: threads, predicates and index registers. -/
theorem test_decode_row5 :
    decode 0b0_0101_0000_0101000_1_0010000_0_0011000#32 = .ok (.shflIdx 40 true 16 false 24) ∧
    decode 0b0_0101_0001_0101000_0_0010000_0_1010101#32 = .ok (.shflUp 40 false 16 85) ∧
    decode 0b0_0101_0010_0101000_1_0010000_0_1010101#32 = .ok (.shflDn 40 true 16 85) ∧
    decode 0b0_0101_0011_0101000_0_0010000_0_1010101#32 = .ok (.shflXor 40 false 16 85) ∧
    decode 0b0_0101_0100_0101000_1_0010000_0_1010101#32 = .ok (.bcast 40 true 16 85) ∧
    decode 0b0_0101_0101_0101000_0_0000_101_000000_10#32 = .ok (.vote 40 false 5 2) ∧
    decode 0b0_0101_0110_0101000_1_0010000_0000_1010#32 = .ok (.qscan 40 true 16 10) ∧
    decode 0b0_0101_0111_0101000_0_0010000_0000_0101#32 = .ok (.reduce 40 false 16 5) ∧
    decode 0b0_0101_1000_0000_101_1_0000_110_0_0000_011#32 = .ok (.pand 5 true 6 false 3) ∧
    decode 0b0_0101_1001_0000_101_0_0000_110_1_0000_011#32 = .ok (.por 5 false 6 true 3) ∧
    decode 0b0_0101_1010_0000_101_1_0000_110_0_0000_011#32 = .ok (.pxor 5 true 6 false 3) ∧
    decode 0b0_0101_1011_0000_101_0_0000_110_00000000#32 = .ok (.pnot 5 false 6) ∧
    decode 0b0_0101_1100_0000_101_1_0000_110_00000000#32 = .ok (.pmov 5 true 6) ∧
    decode 0b0_0101_1101_00000_10_0_0010000_00000000#32 = .ok (.xset 2 false 16) ∧
    decode 0b0_0101_1110_00000_10_000000_01_10100101#32 = .ok (.xadd 2 1 0xA5) ∧
    decode 0b0_0101_1111_0101000_000000_01_1_0011000#32 = .ok (.movx 40 1 true 24) :=
  ⟨rfl, rfl, rfl, rfl, rfl, rfl, rfl, rfl, rfl, rfl, rfl, rfl, rfl, rfl, rfl, rfl⟩

/-- Row 60 of the opcode map: loads and stores. -/
theorem test_decode_row6 :
    decode 0b0_0110_0000_00000_10_1_0010000_0_0011000#32 = .ok (.movxw 2 true 16 false 24) ∧
    decode 0b0_0110_0001_0101000_0_0010000_00000000#32 = .ok (.smov 40 false 16) ∧
    decode 0b0_0110_0010_0101000_1_0010000_00000000#32 = .ok (.vset 40 true 16) ∧
    decode 0b0_0110_1000_0101000_0_0010000_01_101010#32 = .ok (.ld 40 false 16 1 42) ∧
    decode 0b1_0110_1000_0101000_1_0010000_01_101010#32 = .ok (.ldU 40 true 16 1 42) ∧
    decode 0b0_0110_1001_0101000_0_0010000_01_101010#32 = .ok (.st 40 false 16 1 42) ∧
    decode 0b1_0110_1001_0101000_1_0010000_01_101010#32 = .ok (.stU 40 true 16 1 42) ∧
    decode 0b0_0110_1010_0101000_0_0010000_01_101010#32 = .ok (.lds 40 false 16 1 42) ∧
    decode 0b1_0110_1010_0101000_1_0010000_01_101010#32 = .ok (.ldsU 40 true 16 1 42) ∧
    decode 0b0_0110_1011_0101000_0_0010000_01_101010#32 = .ok (.sts 40 false 16 1 42) ∧
    decode 0b1_0110_1011_0101000_1_0010000_01_101010#32 = .ok (.stsU 40 true 16 1 42) ∧
    decode 0b0_0110_1100_0101000_0_0010000_01_101010#32 = .ok (.ldc 40 false 16 1 42) ∧
    decode 0b1_0110_1100_0101000_1_0010000_01_101010#32 = .ok (.ldcU 40 true 16 1 42) ∧
    decode 0b0_0110_1101_0000000_0_0010000_00_101010#32 = .ok (.pref false 16 42) ∧
    decode 0b1_0110_1101_0000000_1_0010000_00_101010#32 = .ok (.prefU true 16 42) :=
  ⟨rfl, rfl, rfl, rfl, rfl, rfl, rfl, rfl, rfl, rfl, rfl, rfl, rfl, rfl, rfl⟩

/-- Row 70 of the opcode map: atomics. -/
theorem test_decode_row7 :
    decode 0b0_0111_0000_0101000_0_0010000_1_1_101010#32 = .ok (.aadd 40 false 16 true true 42) ∧
    decode 0b0_0111_0001_0101000_1_0010000_1_0_101010#32 = .ok (.afadd 40 true 16 true 42) ∧
    decode 0b0_0111_0010_0101000_0_0010000_1_1_101010#32 = .ok (.amin 40 false 16 true true 42) ∧
    decode 0b0_0111_0011_0101000_1_0010000_1_1_101010#32 = .ok (.amax 40 true 16 true true 42) ∧
    decode 0b0_0111_0100_0101000_0_0010000_1_1_101010#32 = .ok (.aand 40 false 16 true true 42) ∧
    decode 0b0_0111_0101_0101000_1_0010000_1_1_101010#32 = .ok (.aor 40 true 16 true true 42) ∧
    decode 0b0_0111_0110_0101000_0_0010000_1_1_101010#32 = .ok (.axor 40 false 16 true true 42) ∧
    decode 0b0_0111_0111_0101000_1_0010000_1_1_101010#32 = .ok (.axch 40 true 16 true true 42) ∧
    decode 0b0_0111_1000_0101000_0_0010000_1_1_101010#32 = .ok (.acas 40 false 16 true true 42) ∧
    decode 0b0_0111_1001_0101000_1_0010000_1_1_101010#32 = .ok (.ainc 40 true 16 true true 42) :=
  ⟨rfl, rfl, rfl, rfl, rfl, rfl, rfl, rfl, rfl, rfl⟩

/-- Row 80 of the opcode map: synchronisation and engines. -/
theorem test_decode_row8 :
    decode 0b0_1000_0000_0101000_0_0010000_1_0011000#32 = .ok (.bind 40 false 16 true 24) ∧
    decode 0b1_1000_0000_0101000_1_0010000_0_0011000#32 = .ok (.bindU 40 true 16 false 24) ∧
    decode 0b0_1000_0001_0000000_0_0010000_00000000#32 = .ok (.unbind false 16) ∧
    decode 0b1_1000_0001_0000000_1_0010000_00000000#32 = .ok (.unbindU true 16) ∧
    decode 0b0_1000_0010_0101000_0_0010000_00000_110#32 = .ok (.acq 40 false 16 6) ∧
    decode 0b1_1000_0010_0101000_1_0010000_00000_110#32 = .ok (.acqU 40 true 16 6) ∧
    decode 0b0_1000_0011_0101000_0_0010000_00000_110#32 = .ok (.rel 40 false 16 6) ∧
    decode 0b1_1000_0011_0101000_1_0010000_00000_110#32 = .ok (.relU 40 true 16 6) ∧
    decode 0b0_1000_0100_00000000000000000000_110#32 = .ok (.fence 6) ∧
    decode 0b0_1000_0101_0101000_1_0010000_00000_110#32 = .ok (.pub 40 true 16 6) ∧
    decode 0b1_1000_0110_0000_010_0_0010000_00000000#32 = .ok (.qw 2 false 16) ∧
    decode 0b1_1000_0111_0101000_00000_101_00000000#32 = .ok (.qr 40 5) ∧
    decode 0b1_1000_1000_0101000_00000_100_00000000#32 = .ok (.qstat 40 4) ∧
    decode 0b1_1000_1001_0101000_1_0010000_00000000#32 = .ok (.swset 40 true 16) ∧
    decode 0b1_1000_1010_0101000_0_0010000_00000000#32 = .ok (.swadd 40 false 16) ∧
    decode 0b1_1000_1011_0101000_1_0010000_00000000#32 = .ok (.swgen 40 true 16) ∧
    decode 0b0_1000_1100_0101000_0_0010000_00_101010#32 = .ok (.fread 40 false 16 42) ∧
    decode 0b1_1000_1100_0101000_1_0010000_00_101010#32 = .ok (.freadU 40 true 16 42) ∧
    decode 0b0_1000_1101_0101000_0_0010000_00_101010#32 = .ok (.ffill 40 false 16 42) ∧
    decode 0b1_1000_1101_0101000_1_0010000_00_101010#32 = .ok (.ffillU 40 true 16 42) ∧
    decode 0b0_1000_1110_0000000_0_0010000_00_101010#32 = .ok (.fwait false 16 42) ∧
    decode 0b0_1000_1111_0000000_1_0010000_00_101010#32 = .ok (.fclr true 16 42) ∧
    decode 0b1_1000_1111_0000000_0_0010000_00_101010#32 = .ok (.fclrU false 16 42) :=
  ⟨rfl, rfl, rfl, rfl, rfl, rfl, rfl, rfl, rfl, rfl, rfl, rfl, rfl, rfl, rfl, rfl, rfl, rfl, rfl, rfl, rfl, rfl, rfl⟩

/-- Row 90 of the opcode map: worklists. -/
theorem test_decode_row9 :
    decode 0b0_1001_0000_0101000_000000000000_1001#32 = .ok (.wlpush 40 9) ∧
    decode 0b1_1001_0000_0101000_000000000000_1001#32 = .ok (.wlpushU 40 9) ∧
    decode 0b0_1001_0001_0101000_000000000000_1001#32 = .ok (.wlpushr 40 9) ∧
    decode 0b1_1001_0001_0101000_000000000000_1001#32 = .ok (.wlpushrU 40 9) ∧
    decode 0b0_1001_0010_0101000_00000_101_0000_1001#32 = .ok (.wlpop 40 5 9) ∧
    decode 0b0_1001_0011_0000000000000000000_1001#32 = .ok (.wldone 9) ∧
    decode 0b1_1001_0100_0101000_000000000000_1001#32 = .ok (.wlstat 40 9) ∧
    decode 0b1_1001_0101_0101000_0_0010000_0000_1001#32 = .ok (.wlcfg 40 false 16 9) :=
  ⟨rfl, rfl, rfl, rfl, rfl, rfl, rfl, rfl⟩

/-- Row A0 of the opcode map: matrices. -/
theorem test_decode_rowA :
    decode 0b1_1010_0000_0101000_1_0010000_00000000#32 = .ok (.gang 40 true 16) ∧
    decode 0b1_1010_0001_0000_101_0_0010000_00000_110#32 = .ok (.mma 5 false 16 6) ∧
    decode 0b1_1010_0010_0000_101_1_0010000_00000_110#32 = .ok (.mmas 5 true 16 6) ∧
    decode 0b1_1010_0011_0000_101_0000000000000000#32 = .ok (.accz 5) ∧
    decode 0b1_1010_0100_0000_101_1_0010000_00000_110#32 = .ok (.accld 5 true 16 6) ∧
    decode 0b1_1010_0101_0000_101_0_0010000_00000_110#32 = .ok (.accst 5 false 16 6) ∧
    decode 0b0_1010_0110_0101000_00000_101_0_0011000#32 = .ok (.accrd 40 5 false 24) ∧
    decode 0b0_1010_0111_0000_101_0_0010000_1_0011000#32 = .ok (.accwr 5 false 16 true 24) ∧
    decode 0b1_1010_1000_0101000_00000_101_00000000#32 = .ok (.mprog 40 5) ∧
    decode 0b1_1010_1001_0101000_0_0010000_00000000#32 = .ok (.tdesc 40 false 16) ∧
    decode 0b1_1010_1010_0101000_1_0010000_00000_110#32 = .ok (.tcvt 40 true 16 6) :=
  ⟨rfl, rfl, rfl, rfl, rfl, rfl, rfl, rfl, rfl, rfl, rfl⟩

/-- Row B0 of the opcode map: the path, poison and waits. -/
theorem test_decode_rowB :
    decode 0b0_1011_0000_0000000_0010010000011000#32 = .ok (.mode 0x2418) ∧
    decode 0b0_1011_0001_0000000_0011000000011000#32 = .ok (.modeg 0x3018) ∧
    decode 0b0_1011_0010_0000000_0001000000000101#32 = .ok (.stage 0x1005) ∧
    decode 0b0_1011_0011_00000000000000000000000#32 = .ok .rnclr ∧
    decode 0b0_1011_0100_0000_101_0_0000011_000000_10#32 = .ok (.pchk 5 false 3 2) ∧
    decode 0b0_1011_0101_0101000_1_0010000_00000000#32 = .ok (.pcause 40 true 16) ∧
    decode 0b1_1011_0101_0101000_0_0010000_00000000#32 = .ok (.pcauseU 40 false 16) ∧
    decode 0b0_1011_0110_0101000_1_0010000_0000_0101#32 = .ok (.porig 40 true 16 5) ∧
    decode 0b1_1011_0110_0101000_0_0010000_0000_0101#32 = .ok (.porigU 40 false 16 5) ∧
    decode 0b0_1011_0111_0101000_1_0010000_00000000#32 = .ok (.pclr 40 true 16) ∧
    decode 0b1_1011_0111_0101000_0_0010000_00000000#32 = .ok (.pclrU 40 false 16) ∧
    decode 0b0_1011_1000_0101000_1_0010000_00000000#32 = .ok (.pmake 40 true 16) ∧
    decode 0b1_1011_1000_0101000_0_0010000_00000000#32 = .ok (.pmakeU 40 false 16) ∧
    decode 0b0_1011_1001_00_01101_000000000000_1001#32 = .ok (.barSync 13 9) ∧
    decode 0b0_1011_1001_00_01101_000000000100_1001#32 = .ok (.barArrive 13 9) ∧
    decode 0b0_1011_1001_0000000000000001000_1001#32 = .ok (.barWait 9) ∧
    decode 0b0_1011_1010_0000000_0_0010000_0000000_1#32 = .ok (.monitor false 16 true) ∧
    decode 0b0_1011_1011_00000000000000000000000#32 = .ok .mwait ∧
    decode 0b0_1011_1100_00000000000000000000000#32 = .ok .yield ∧
    decode 0b0_1011_1101_0000_101_1_0010000_0_0011000#32 = .ok (.await 5 true 16 false 24) ∧
    decode 0b0_1011_1110_0000000_0001001000110100#32 = .ok (.pause 0x1234) ∧
    decode 0b0_1011_1111_0101000_0000000000000_101#32 = .ok (.getid 40 5) ∧
    decode 0b1_1011_1111_0101000_0000000000000_101#32 = .ok (.getidU 40 5) :=
  ⟨rfl, rfl, rfl, rfl, rfl, rfl, rfl, rfl, rfl, rfl, rfl, rfl, rfl, rfl, rfl, rfl, rfl, rfl, rfl, rfl, rfl, rfl, rfl⟩

/-- Row C0 of the opcode map: system. -/
theorem test_decode_rowC :
    decode 0b0_1100_0000_0101000_000000000000_1011#32 = .ok (.getsys 40 11) ∧
    decode 0b1_1100_0000_0101000_000000000000_1011#32 = .ok (.getsysU 40 11) ∧
    decode 0b0_1100_0001_0101000_00000000_00010010#32 = .ok (.sysr 40 0x12) ∧
    decode 0b1_1100_0001_0101000_00000000_00010010#32 = .ok (.sysrU 40 0x12) ∧
    decode 0b1_1100_0010_0000000_1_0010000_00010001#32 = .ok (.sysw true 16 0x11) ∧
    decode 0b0_1100_0011_0000000_0001001000110100#32 = .ok (.brk 0x1234) ∧
    decode 0b0_1100_0100_0000000_0001001000110100#32 = .ok (.mark 0x1234) ∧
    decode 0b0_1100_0101_0000000_0_0000_101_00000000#32 = .ok (.regroup false 5) ∧
    decode 0b1_1100_0110_0101000_1_0010000_00000000#32 = .ok (.fetchwg 40 true 16) :=
  ⟨rfl, rfl, rfl, rfl, rfl, rfl, rfl, rfl, rfl⟩

/-- The decoding examples of the opcode map. -/
theorem test_decode_examples :
    decode 0x00000000 = .ok .nop ∧ decode 0x08030102 = .ok (.add 3 false 1 false 2) ∧ decode 0x88050182 = .ok (.addU 5 false 1 true 2) ∧
    decode 0x34030410 = .ok (.ld 3 false 4 0 16) ∧ decode 0xA8030102 = .error .unassigned ∧ decode 0x22020128 = .error .field ∧
    decode 0xFFFFFFFF = .error .unassigned :=
  ⟨rfl, rfl, rfl, rfl, rfl, rfl, rfl⟩

/-! ## Small states -/

/-- Thread 0 of the loaded group is about to run an instruction; the group is first changed by `f`. -/
def load (i : Instr) (f : Group → Group := id) : State :=
  State.modGroup { State.reset.withFetchWord 32 (encode i).toNat with ctl := { cur := some (2, 0) } } 2 f

/-- The group, workgroup and path that issue. -/
def cur (s : State) : Here := s.here.getD ⟨loadGroup, loadWg, 9, { pc := 0, mask := 0, mode := 0 }⟩

/-- v-registers of thread 0. -/
def vs (l : List (Nat × Word)) (g : Group) : Group := l.foldl (fun g x => vSet g x.1 0 { val := x.2 }) g
/-- s-registers. -/
def ss (l : List (Nat × Word)) (g : Group) : Group := l.foldl (fun g x => sSet g x.1 { val := x.2 }) g
/-- Predicates of thread 0. -/
def ps (l : List (Nat × Bool)) (g : Group) : Group := l.foldl (fun g x => pSet g x.1 0 { val := x.2 }) g
/-- Changes the issuing path. -/
def path (f : Path → Path) (g : Group) : Group := { g with paths := g.paths.map fun kp => (kp.1, f kp.2) }
/-- The mode of the issuing path: guard p0, both melded paths, with a type, rounding, saturation and flushing. -/
def mode (m : BitVec 16) : Group → Group := path fun p => { p with mode := m }
/-- n threads are active. -/
def threads (n : Nat) (g : Group) : Group := path (fun p => { p with mask := maskOf (· < n) }) { g with exited := ~~~maskOf (· < n) }

/-- The state after an instruction. -/
def ran (i : Instr) (s : State) : State := match exec i s with | .next t => t | _ => State.reset
/-- The loaded group. -/
def grp (s : State) : Group := (s.group 2).getD { loadGroup with budget := 0 }
/-- A v-register of thread 0 after an instruction runs. -/
def vAfter (i : Instr) (f : Group → Group) (n : Nat) : Reg := vGet (grp (ran i (load i f))) n 0
/-- An s-register after an instruction runs. -/
def sAfter (i : Instr) (f : Group → Group) (n : Nat) : Reg := sGet (grp (ran i (load i f))) n
/-- A predicate of thread 0 after an instruction runs. -/
def pAfter (i : Instr) (f : Group → Group) (n : Nat) : Pred := pGet (grp (ran i (load i f))) n 0

/-! ## Single steps -/

/-- R223: i32 addition wraps (mode 0x0018 is i32). -/
theorem test_add_wraps : vAfter (.add 3 false 1 false 2) (vs [(1, 0x7FFFFFFF), (2, 1)]) 3 = { val := 0x80000000 } := by decide +kernel
/-- R223, R164: with sat set, i32 addition saturates. -/
theorem test_add_saturates : vAfter (.add 3 false 1 false 2) (mode 0x0058 ∘ vs [(1, 0x7FFFFFFF), (2, 1)]) 3 = { val := 0x7FFFFFFF } := by decide +kernel
/-- R12: the uniform form reads and writes s-registers. -/
theorem test_sub_uniform : sAfter (.subU 3 false 1 false 2) (ss [(1, 5), (2, 7)]) 3 = { val := 0xFFFFFFFE } := by decide +kernel
/-- R224: the upper half of (-1) * 2 is all ones. -/
theorem test_mulhi_signed : vAfter (.mulhi 3 false 1 false 2) (vs [(1, 0xFFFFFFFF), (2, 2)]) 3 = { val := 0xFFFFFFFF } := by decide +kernel
/-- R226: division truncates toward zero. -/
theorem test_div_truncates : vAfter (.div 3 false 1 false 2) (vs [(1, 0xFFFFFFF9), (2, 2)]) 3 = { val := 0xFFFFFFFD } := by decide +kernel
/-- R226: the remainder has the sign of the dividend. -/
theorem test_rem_sign : vAfter (.rem 3 false 1 false 2) (vs [(1, 0xFFFFFFF9), (2, 2)]) 3 = { val := 0xFFFFFFFF } := by decide +kernel
/-- R223: 1.5 * 2 + 0.25 = 3.25 under f32, with d as the addend. -/
theorem test_fma_f32 : vAfter (.fma 3 false 1 false 2) (mode 0x0418 ∘ vs [(1, 0x3FC00000), (2, 0x40000000), (3, 0x3E800000)]) 3 =
    { val := 0x40500000 } := by decide +kernel
/-- R228: the reciprocal of 4 is 0.25. -/
theorem test_rcp_f32 : vAfter (.rcp 3 false 1) (mode 0x0418 ∘ vs [(1, 0x40800000)]) 3 = { val := 0x3E800000 } := by decide +kernel
/-- R228: the square root of 9 is 3. -/
theorem test_sqrt_f32 : vAfter (.sqrt 3 false 1) (mode 0x0418 ∘ vs [(1, 0x41100000)]) 3 = { val := 0x40400000 } := by decide +kernel
/-- R227: the carry goes from the lower register of a pair to the upper. -/
theorem test_add64_carries : vAfter (.add64 4 false 0 false 2) (vs [(0, 0xFFFFFFFF), (2, 1)]) 5 = { val := 1 } := by decide +kernel
/-- R231: a logical shift by 32 gives 0, an arithmetic one the sign. -/
theorem test_shift_by_width : vAfter (.shr 3 false 1 false 2) (vs [(1, 0x80000000), (2, 32)]) 3 = { val := 0 } ∧
    vAfter (.sar 3 false 1 false 2) (vs [(1, 0x80000000), (2, 32)]) 3 = { val := 0xFFFFFFFF } := by decide +kernel
/-- R231: a rotation takes its amount modulo 32. -/
theorem test_rot_modulo : vAfter (.rot 3 false 1 false 2) (vs [(1, 0x80000001), (2, 33)]) 3 = { val := 3 } := by decide +kernel
/-- R233: counts of leading and trailing zeros are 32 for 0. -/
theorem test_count_zeros : vAfter (.clz 3 false 1) id 3 = { val := 32 } ∧ vAfter (.ctz 3 false 1) (vs [(1, 8)]) 3 = { val := 3 } := by decide +kernel
/-- R233: the bit order is reversed. -/
theorem test_brev : vAfter (.brev 3 false 1) (vs [(1, 1)]) 3 = { val := 0x80000000 } := by decide +kernel
/-- R234: MOVH keeps the lower half. -/
theorem test_movh_keeps : vAfter (.movh 3 0x1234) (vs [(3, 0xAAAA5555)]) 3 = { val := 0x12345555 } := by decide +kernel
/-- R241: f32 2.5 to i32 rounds to the even 2. -/
theorem test_cvt_rounds_even : vAfter (.cvt 3 false 1 0x20) (vs [(1, 0x40200000)]) 3 = { val := 2 } := by decide +kernel
/-- R242: two words packed as i16x2, the first in the low half. -/
theorem test_pack2 : vAfter (.pack2 3 false 1 false 2) (mode 0x0818 ∘ vs [(1, 3), (2, 5)]) 3 = { val := 0x00050003 } := by decide +kernel
/-- R223, R238: an 8-bit immediate is sign-extended under i32. -/
theorem test_addi_extends : vAfter (.addi 3 false 1 0xFF) (vs [(1, 5)]) 3 = { val := 4 } := by decide +kernel
/-- R238: and zero-extended under n32 (mode 0x0218), where 5 < 255. -/
theorem test_cmpi_extends : pAfter (.cmpi 2 1 false 1 0xFF) (mode 0x0218 ∘ vs [(1, 5)]) 1 = { val := true } := by decide +kernel
/-- R237: -1 < 0 under i32. -/
theorem test_cmp_signed : pAfter (.cmp 2 1 false 1 false 2) (vs [(1, 0xFFFFFFFF)]) 1 = { val := true } := by decide +kernel
/-- R48: the token of a before that of b. -/
theorem test_poison_order : vAfter (.add 3 false 1 false 2) (fun g => vSet (vSet g 1 0 (poisonReg 5)) 2 0 (poisonReg 6)) 3 = poisonReg 5 := by decide +kernel
/-- R49: a poisoned guard poisons the destination with its token. -/
theorem test_guard_poison : vAfter (.mov 3 false 1) (fun g => mode 0x2018 (pSet g 1 0 { poi := true, tok := 9 })) 3 = poisonReg 9 := by decide +kernel
/-- R235: SEL takes b where the guard does not hold. -/
theorem test_sel_takes_b : vAfter (.sel 3 false 1 false 2) (mode 0x2018 ∘ vs [(1, 11), (2, 22)]) 3 = { val := 22 } := by decide +kernel
/-- R245: SHFL.XOR 1 swaps neighbours. -/
theorem test_shfl_xor : vAfter (.shflXor 3 false 1 1) (fun g => threads 2 (vSet (vs [(1, 5)] g) 1 1 { val := 7 })) 3 = { val := 7 } := by decide +kernel
/-- R246: the ballot of two threads of which one holds the predicate. -/
theorem test_vote_ballot : vAfter (.vote 3 false 1 2) (fun g => threads 2 (pSet g 1 1 { val := true })) 3 = { val := 2 } := by decide +kernel
/-- R247: an exclusive scan starts with the identity, a reduction takes all. -/
theorem test_scan_and_reduce : vAfter (.qscan 3 false 1 8) (threads 2 ∘ vs [(1, 5)]) 3 = { val := 0 } ∧
    vAfter (.reduce 3 false 1 0) (fun g => threads 2 (vSet (vs [(1, 5)] g) 1 1 { val := 7 })) 3 = { val := 12 } := by decide +kernel
/-- R250, R251: a register read through an index register. -/
theorem test_movx : vAfter (.movx 3 1 false 2) (fun g => xSet (vs [(2, 1), (9, 77)] g) 1 0 { base := 8, bound := 16 }) 3 = { val := 77 } := by decide +kernel
/-- R172: the pc goes on by one word, and the retired-work count by one (R446). -/
theorem test_nop_retires : (grp (ran .nop (load .nop))).paths = [(0, { pc := 4, mask := 1, mode := 0x0018 })] ∧ (grp (ran .nop (load .nop))).retired = 1 := by decide +kernel
/-- R154: a branch target is the pc of the branch word plus four times the signed offset. -/
theorem test_bra_target : ((grp (ran (.bra 0 false 0x7FFFE) (load (.bra 0 false 0x7FFFE) (path fun p => { p with pc := 0x100 })))).paths.map
    (·.2.pc)) = [0xF8] := by decide +kernel
/-- R189: CALL pushes the next word. -/
theorem test_call_pushes : ((grp (ran (.call 5) (load (.call 5)))).paths.map (·.2.rstack)) = [[4]] := by decide +kernel
/-- R191: the group ends with its last thread. -/
theorem test_exit_ends : (grp (ran .exit (load .exit))).paths = [] := by decide +kernel
/-- R254, R262: STS stores at the scratchpad of the workgroup, in the low byte first. -/
theorem test_sts_bytes : let t := ran (.sts 2 false 1 0 0) (load (.sts 2 false 1 0 0) (vs [(1, 8), (2, 0x11223344)]))
    memByte t.mem (loadWg.scratchBase + 8) = 0x44 ∧ memByte t.mem (loadWg.scratchBase + 11) = 0x11 := by decide +kernel
/-- R260, R160: LD leaves its destination empty until the word arrives; here the word of the instruction itself. -/
theorem test_ld_arrives : let t := ran (.ld 4 false 2 0 0) (load (.ld 4 false 2 0 0))
    (vGet (grp t) 4 0).full = false ∧
      vGet (grp (ran (.longLatencyComplete (t.exe.nextId - 1)) t)) 4 0 = { val := encode (.ld 4 false 2 0 0) } := by decide +kernel
/-- R80, R280: SWADD of the target's worth advances the generation and leaves the rest. -/
theorem test_swadd_advances : let f : Group → Group := ss [(2, 5), (1, 16)]
    let s := { load (.swadd 2 false 1) f with mem := setWord (setWord {} (loadWg.scratchBase + 16) 4) (loadWg.scratchBase + 20) 1 }
    let t := ran (.swadd 2 false 1) (s.modWg 1 fun w => { w with syncs := [16] })
    memWord t.mem (loadWg.scratchBase + 20) = 2 ∧ memWord t.mem (loadWg.scratchBase + 24) = 1 := by decide +kernel
/-- R178: an illegal instruction of the loaded context is an event that ends it, or a NOP. -/
theorem test_illegal_counts : let s := load (.add 120 false 127 false 0) (fun g => { g with budget := 1 })
    (ran (.add 120 false 127 false 0) s).mgmt (eventCounter 0 15 0) = 1 := by decide +kernel
/-- R212: GETSYS 0x0F is the size of the scratchpad. -/
theorem test_getsys_scratchpad : vAfter (.getsys 3 15) id 3 = { val := 4096 } := by decide +kernel
/-- R391, R417: RESET sets every management word but the boot word to its reset value. -/
theorem test_reset_words : (ran .reset (load .nop)).mgmt 0x100 = 0 ∧ (ran .reset (load .nop)).mgmt 0x18 = 1048576 := by decide +kernel
/-- FIPS 180-4: the digest of the empty message begins with E3 B0 C4 42. -/
theorem test_sha256 : (sha256 []).take 4 = [0xE3, 0xB0, 0xC4, 0x42] := by decide +kernel

/-! ## Witnesses: states and operands that meet the hypotheses of each statement -/

/-- The hypotheses of a statement about a table of instructions that compute registers, with one result for every thread. -/
def Met (table : Instr → BitVec 16 → Option Shape) : Prop :=
  ∃ (i : Instr) (s : State) (h : Here) (x : Shape) (res : Nat → Token ⊕ Val), s.here = some h ∧ table i h.p.mode = some x ∧ x.ready s h ∧
    ∀ t ∈ x.threads h, x.result h t = some (res t.1)

/-- A state and operands that meet them. -/
theorem met (table : Instr → BitVec 16 → Option Shape) (i : Instr) (s : State) (h : Here) (x : Shape) (r : Token ⊕ Val)
    (hx : table i h.p.mode = some x) (h1 : s.here = some h)
    (h2 : operandCheck h x.srcs (some x.dst) x.ok = none ∧ operandsReady h (x.threads h) x.srcs (some x.dst) = true)
    (h3 : s.ctl.shadow = []) (h4 : ∀ t ∈ x.threads h, x.result h t = some r) : Met table :=
  ⟨i, s, h, x, fun _ => r, h1, hx, ⟨h2.1, h2.2, fun _ t _ => by rw [h3]; rfl⟩, h4⟩

/-- The loaded thread with values in its first registers. -/
def one (i : Instr) : State := load i (ss [(0, 7), (1, 2), (2, 0)] ∘ vs [(0, 7), (1, 2)])

theorem witness_TypedOperationResults : Met typedTable := met typedTable (.add 2 false 0 false 1) (one .nop) (cur (one .nop)) _ (.inr (.words [9])) rfl
  (by decide +kernel) (by decide +kernel) rfl (by decide +kernel)
theorem witness_UnaryAndSpecialFunctionResults : Met unaryTable := met unaryTable (.negU 2 false 1) (one .nop) (cur (one .nop)) _ (.inr (.words [0xFFFFFFFE])) rfl
  (by decide +kernel) (by decide +kernel) rfl (by decide +kernel)
theorem witness_BitOperationResults : Met bitTable := met bitTable (.shl 2 false 0 false 1) (one .nop) (cur (one .nop)) _ (.inr (.words [28])) rfl
  (by decide +kernel) (by decide +kernel) rfl (by decide +kernel)
theorem witness_MoveAndConversionResults : Met moveTable := met moveTable (.add64 2 false 0 false 0) (one .nop) (cur (one .nop)) _ (.inr (.words [14, 4])) rfl
  (by decide +kernel) (by decide +kernel) rfl (by decide +kernel)
theorem witness_PredicateAndIndexResults : Met predTable := met predTable (.cmp 2 1 false 1 false 0) (one .nop) (cur (one .nop)) _ (.inr (.bool true)) rfl
  (by decide +kernel) (by decide +kernel) rfl (by decide +kernel)

theorem witness_SelectResult : let h := cur (one .nop)
    (one .nop).here = some h ∧ operandCheck h [vSrc 0 false, vSrc 1 false] (some (rDst false 2)) true = none ∧
      operandsReady h (allThreads h.p) [vSrc 0 false, vSrc 1 false] (some (rDst false 2)) = true ∧
      ∀ t ∈ enabledThreads h.p, selected h (vSrc 0 false) (vSrc 1 false) t = some (.inr (.words [7])) := by decide +kernel
theorem witness_VsetResult : let h := cur (one .nop)
    (one .nop).here = some h ∧ operandCheck h [vSrc 0 false] none true = none ∧
      operandsReady h ((vecThreads h.g h.p).take 1) [vSrc 0 false] (some (rDst true 2)) = true ∧
      ∀ t ∈ (vecThreads h.g h.p).take 1, (match t.2 with | some k => some (.inl k) | none => copied h (vSrc 0 false) t.1) =
        some (.inr (.words [7])) := by decide +kernel
theorem witness_LaneResults : let h := cur (one .nop)
    (one .nop).here = some h ∧ operandCheck h [vSrc 0 false, vSrc 1 false] (some (rDst false 2)) true = none ∧ guardFull h.g h.p = true ∧
      (∀ t ∈ vecThreads h.g h.p, dstFull h.g h.p (rDst false 2) t.1 = true) ∧
      ∀ t ∈ vecThreads h.g h.p, laneResult h (vSrc 0 false) (some (vSrc 1 false)) (fun _ k => some (k % 128)) t =
        some (.inr (.words [7])) := by decide +kernel
theorem witness_VoteResult : let h := cur (one .nop)
    (one .nop).here = some h ∧ ∀ k : BitVec 2, let dst : Dst := if k = 2 then rDst false 1 else ⟨.p, 1, 1⟩
      operandCheck h [pSrc 1 false] (some dst) true = none ∧ operandsReady h (vecThreads h.g h.p) [pSrc 1 false] (some dst) = true ∧
      ∀ t ∈ contributors h, readSrc h.g h.p (pSrc 1 false) t ≠ .empty := by decide +kernel
theorem witness_ScanAndReduceResults : let h := cur (one .nop)
    (one .nop).here = some h ∧ operandCheck h [vSrc 0 false] (some (rDst false 2)) (allTypes (mType h.p.mode)) = none ∧
      operandsReady h (vecThreads h.g h.p) [vSrc 0 false] (some (rDst false 2)) = true ∧
      (∀ t ∈ contributors h, readSrc h.g h.p (vSrc 0 false) t ≠ .empty) ∧ (one .nop).ctl.shadow = [] := by decide +kernel
/-- An index register with its base at 0 and its bound at 3; the offsets 2 and 7 are the last inside and one outside. -/
def windowed : State := load .nop fun g => xSet (vs [(0, 7), (1, 2), (2, 5)] g) 1 0 { base := 0, bound := 3 }
theorem witness_IndexedReadResult : let h := cur windowed
    windowed.here = some h ∧ operandCheck h [vSrc 1 false] (some (rDst false 3)) true = none ∧
      operandsReady h (vecThreads h.g h.p) [vSrc 1 false] (some (rDst false 3)) = true ∧
      ∀ t ∈ vecThreads h.g h.p, movxResult h 1 (vSrc 1 false) t = some (.inr (.words [5])) := by decide +kernel
theorem witness_IndexedWriteResult : let h := cur windowed
    windowed.here = some h ∧ operandCheck h [vSrc 1 false, vSrc 0 false] none true = none ∧ guardFull h.g h.p = true ∧
      srcReady h.g h.p (vSrc 1 false) ((vecThreads h.g h.p).map (·.1)) = true ∧ srcReady h.g h.p (vSrc 0 false) (contributors h) = true ∧
      ∀ t ∈ vecThreads h.g h.p, movxwResult h 1 (vSrc 1 false) (vSrc 0 false) t = some (.inr (2, .inr (.words [7]))) ∧
        (vGet h.g 2 t.1).full = true := by decide +kernel

theorem witness_PathSettingWords : let h := cur (one .nop)
    (one .nop).here = some h ∧ (settingTable h .nop).isSome = true ∧ (settingTable h .meldend).isSome = true ∧
      (settingTable h (.stage 0x7801)).isSome = true ∧ (settingTable h (.reconv 1)).isSome = true ∧
      (settingTable h (.rnset 15 127 127)).isSome = true := by decide +kernel
/-- Two threads; p1 holds in the second; two addresses are on the return stack. -/
def pair : State := load .nop fun g => threads 2 (path (fun p => { p with rstack := [64, 96] }) (pSet (pSet g 1 1 { val := true }) 2 0 { val := true }))
theorem witness_UnsplitBranches : let h := cur pair
    pair.here = some h ∧ h.p.meld = none ∧ cleanPredicate h 1 ∧ takenBy h 1 false ≠ 0 ∧ takenBy h 3 false = 0 ∧ cleanPredicate h 3 ∧
      h.p.rstack.length < 16 ∧ h.p.rstack = [64, 96] ∧ (h.g.top h.pid).any (·.kind = .trap) = false := by
  unfold cleanPredicate; decide +kernel
theorem witness_ConditionalBranchSplits : let h := cur pair
    pair.here = some h ∧ h.p.meld = none ∧ cleanPredicate h 1 ∧ takenBy h 3 false = 0 ∧ takenBy h 0 false = h.p.mask ∧
      takenBy h 1 false ≠ 0 ∧ takenBy h 1 false ≠ h.p.mask ∧ h.g.canSplit h.pid = true := by unfold cleanPredicate; decide +kernel
/-- A path that is not alone: a further split is a nested one. -/
def nested : State := pair.modGroup 2 fun g => { g with paths := g.paths ++ [(1, { pc := 64, mask := 4, mode := 0x0018 })] }
theorem witness_nestedSplit : let h := cur nested
    nested.here = some h ∧ cleanPredicate h 1 ∧ h.g.canSplit h.pid = true ∧ h.g.topSplit h.pid = false := by unfold cleanPredicate; decide +kernel
/-- Two threads with clean targets 64 and 128 in v2 and v3. -/
def targets : State := load .nop fun g => threads 2 (vSet (vSet g 2 0 { val := 64 }) 2 1 { val := 128 })
theorem witness_IndirectBranchSplits : let h := cur targets
    targets.here = some h ∧ h.p.meld = none ∧ operandCheck h [{ file := .v, reg := 2, e := false, n := 2 }] none true = none ∧
      (threadsOf h.p.mask).head? = some 0 ∧ pairTarget h 2 false 0 = some 64 ∧ (∀ t ∈ threadsOf h.p.mask, (pairTarget h 2 false t).isSome = true) ∧
      h.p.rstack.length < 16 ∧ sameTarget h 2 false 64 = 1 ∧ h.g.canSplit h.pid = true ∧
      pairTarget h 4 false 0 = some 0 ∧ sameTarget h 4 false 0 = h.p.mask := by decide +kernel

/-- A join point at an address. -/
def joinAt (a : DWord) : JoinPoint := { pc := a, mode := 0x0018, rstack := [] }
/-- A stack entry of path 0 for thread 1, with its join point at an address. -/
def entry (k : EntryKind) (a : DWord) : StackEntry :=
  { kind := k, owner := 0, pc := 32, mask := 2, mode := 0x0018, rstack := [], join := some (joinAt a) }
/-- Path 0 at address 0 with a stack. -/
def stacked (l : List StackEntry) : State := load .join fun g => { threads 1 g with exited := ~~~3#128, stack := l }
theorem witness_JoinCases_deferred : let s := stacked [entry .deferred 0]; let h := cur s; let e := entry .deferred 0
    s.here = some h ∧ h.p.meld = none ∧ h.p.mask ≠ 0 ∧ h.g.top h.pid = some e ∧ e.join.map (·.pc) = some h.p.pc ∧
      e.mask &&& ~~~h.g.exited ≠ 0 ∧ e.kind = .deferred ∧ e.hold = none := by decide +kernel
theorem witness_JoinCases_merge : let s := stacked [entry .merge 0]; let h := cur s; let e := entry .merge 0
    s.here = some h ∧ h.g.top h.pid = some e ∧ e.join.map (·.pc) = some h.p.pc ∧ e.mask &&& ~~~h.g.exited ≠ 0 ∧ e.kind = .merge ∧
      h.g.innermost h.pid = some 0 ∧ ∀ x ∈ h.g.stack.eraseIdx 0, x.owner = h.pid → x.join.map (·.pc) ≠ some h.p.pc := by decide +kernel
/-- Two top paths with their join point at address 0, the other parked there or not. -/
def topPaths (p : Park) : State := load .join fun g =>
  { g with exited := ~~~3#128, topJoin := some (joinAt 0), paths := g.paths ++ [(1, { pc := 0, mask := 2, mode := 0x0018, park := p })] }
theorem witness_JoinCases_top : ∀ p ∈ [Park.join 0, .running], let s := topPaths p; let h := cur s
    s.here = some h ∧ h.p.meld = none ∧ h.p.mask ≠ 0 ∧ h.g.top h.pid = none ∧ h.g.topJoin.map (·.pc) = some h.p.pc ∧ h.g.paths.length = 2 ∧
      (sfind h.g.paths (1 - h.pid)).any (fun o => o.mask ≠ 0 ∧ o.park = p) = true := by decide +kernel
theorem witness_JoinCases_nop : (∀ s ∈ [stacked [entry .deferred 8]], let h := cur s
      s.here = some h ∧ h.g.top h.pid = some (entry .deferred 8) ∧ (entry .deferred 8).join.map (·.pc) ≠ some h.p.pc) ∧
    let h := cur (one .join); (one .join).here = some h ∧ h.g.top h.pid = none ∧ h.g.topJoin.map (·.pc) ≠ some h.p.pc := by decide +kernel
theorem witness_MeldEntersRegion : let h := cur pair
    pair.here = some h ∧ h.p.meld = none ∧ cleanPredicate h 1 := by unfold cleanPredicate; decide +kernel
theorem witness_MeldedRegionRefusesControlFlow : let s := load .ret (path fun p => { p with meld := some 1 }); let h := cur s
    s.here = some h ∧ h.p.meld.isSome = true ∧ notMelded .ret = true ∧ notMelded (.commit 0 0) = true ∧
      operandCheck h [{ file := .v, reg := 2, e := false, n := 2 }] none true = none := by decide +kernel

/-- The hypotheses of the statement about failing checks, for the reason `r`. -/
def MetCheck (r : Nat) : Prop :=
  ∃ (i : Instr) (s : State) (h : Here) (x : Shape), s.here = some h ∧ typedTable i h.p.mode = some x ∧
    operandCheck h x.srcs (some x.dst) x.ok = some r

/-- A state and operands that meet them. -/
theorem met_check (i : Instr) (s : State) (h : Here) (x : Shape) (r : Nat) (hx : typedTable i h.p.mode = some x) (h1 : s.here = some h)
    (h2 : operandCheck h x.srcs (some x.dst) x.ok = some r) : MetCheck r :=
  ⟨i, s, h, x, h1, hx, h2⟩
theorem witness_FailingOperandChecks_budget : MetCheck 5 := met_check (.add 127 false 0 false 1) (load .nop fun g => { g with budget := 15 })
  (cur (load .nop fun g => { g with budget := 15 })) _ 5 rfl (by decide +kernel) (by decide +kernel)
theorem witness_FailingOperandChecks_type : MetCheck 7 := met_check (.rem 2 false 0 false 1) (load .nop (mode 0x0418)) (cur (load .nop (mode 0x0418))) _ 7 rfl
  (by decide +kernel) (by decide +kernel)
theorem witness_EmptyOperandsWait : let s := load .nop (fun g => vSet g 1 0 { full := false }); ∃ (h : Here) (x : Shape), s.here = some h ∧
    bitTable (.mov 2 false 1) h.p.mode = some x ∧ operandCheck h x.srcs (some x.dst) x.ok = none ∧
      operandsReady h (x.threads h) x.srcs (some x.dst) = false :=
  ⟨cur (load .nop (fun g => vSet g 1 0 { full := false })), _, by decide +kernel, rfl, by decide +kernel, by decide +kernel⟩

/-! ### Spans, poison, the system -/

/-- The span of the thread is open, and it is live or not. -/
def spanned (live : Mask) : State := load .nop fun g => { g with span := { opened := 1, live := live, recover := 64 } }
theorem witness_SpanOpens : (let h := cur (one .nop); (one .nop).here = some h ∧ h.p.meld = none ∧ h.g.span.opened = 0) ∧
    (let s := load .nop fun g => { g with span := { opened := 2 } }; let h := cur s
      s.here = some h ∧ h.p.meld = none ∧ h.g.span.opened &&& ~~~h.p.mask ≠ 0) ∧
    let s := spanned 0; let h := cur s
    s.here = some h ∧ h.p.meld = none ∧ h.g.span.opened ≠ 0 ∧ h.g.span.opened &&& ~~~h.p.mask = 0 ∧
      h.p.mask &&& h.g.span.opened &&& h.g.span.live = 0 ∧ h.g.quar = [] ∧ h.g.span.holds = [] ∧ s.ctl.stalled = false ∧
      h.p.park = .running := by decide +kernel
theorem witness_CommitCloses : ∀ s ∈ [one .nop, spanned 0, spanned 1], let h := cur s
    s.here = some h ∧ h.p.meld = none ∧ h.p.mask ≠ 0 ∧ pushesWaiting s h.w h.g.id (threadsOf h.p.mask) none = false ∧ h.g.quar = [] ∧
      h.g.span.holds = [] ∧ (h.p.mask &&& h.g.span.opened = 0 ∨ h.p.mask &&& h.g.span.opened &&& h.g.span.live = 0 ∨
        h.p.mask &&& h.g.span.opened &&& h.g.span.live = h.p.mask) := by decide +kernel
theorem witness_CommitCloses_each : (let h := cur (one .nop); h.p.mask &&& h.g.span.opened = 0) ∧
    (let h := cur (spanned 0); h.p.mask &&& h.g.span.opened ≠ 0 ∧ h.p.mask &&& h.g.span.opened &&& h.g.span.live = 0) ∧
    let h := cur (spanned 1); h.p.mask &&& h.g.span.opened &&& h.g.span.live = h.p.mask := by decide +kernel
/-- A held store of a word to the scratchpad. -/
def heldStore : Eff :=
  { kind := .store, t := 0, gid := 2, ctx := 1, part := 0, core := 0, ags := [], pc := 0, scratch := true, pa := loadWg.scratchBase + 64
    data := [9], owners := 1 }
/-- n threads with an open span, some of them live with a poison each, of which one holds a store. Dropped and stored poison is counted
alone. -/
def holding (n : Nat) (live : Mask) (l : List LivePoison) (e : Eff) : State :=
  ((load .nop fun g => threads n { g with span := { opened := maskOf (· < n), live := live, recover := 64, poisons := l }
                                          quar := [{ line := none, effs := [e] }] }).setMgmt 0x15048 0).setMgmt 0x1504C 0
theorem witness_CommitReleases : ∀ b : Bool, let live : Mask := if b then 1 else 0; let s := holding 1 live [] heldStore; let h := cur s; let ev := h.p.mask &&& h.g.span.opened
    s.here = some h ∧ h.p.meld = none ∧ h.p.mask ≠ 0 ∧ pushesWaiting s h.w h.g.id (threadsOf h.p.mask) none = false ∧ h.g.span.holds = [] ∧
      ev ≠ 0 ∧ (ev &&& h.g.span.live = 0 ↔ live = 0) ∧ heldFor h ev = [heldStore] ∧ heldClean h heldStore := by
  unfold heldClean; decide +kernel
theorem witness_CommitSplits : let e := { heldStore with owners := 2, t := 1 }; let s := holding 2 1 [] e; let h := cur s
    let ev := h.p.mask &&& h.g.span.opened; let live := ev &&& h.g.span.live
    s.here = some h ∧ h.p.meld = none ∧ pushesWaiting s h.w h.g.id (threadsOf h.p.mask) none = false ∧ h.g.span.holds = [] ∧
      h.g.canSplit h.pid = true ∧ live ≠ 0 ∧ live ≠ h.p.mask ∧ heldFor h (ev &&& ~~~live) = [e] ∧ heldClean h e := by
  unfold heldClean; decide +kernel
/-- A page that was not present, and a register that was read empty. -/
def livePoisons : List LivePoison :=
  [{ t := 0, cause := causeNotPresent, addr := 0x10000 }, { t := 0, cause := causeEmptyRead, regs := [⟨0, 3, 0⟩] }]
theorem witness_CommitServes : ∀ n ∈ [1, 2], let e := { heldStore with owners := 2, t := 1 }; let s := holding n 1 livePoisons e; let h := cur s
    let ev := h.p.mask &&& h.g.span.opened; let live := ev &&& h.g.span.live
    s.here = some h ∧ h.p.meld = none ∧ pushesWaiting s h.w h.g.id (threadsOf h.p.mask) none = false ∧ h.g.span.holds = [] ∧ live ≠ 0 ∧
      (live = h.p.mask ↔ n = 1) ∧ h.g.canSplit h.pid = true ∧ heldFor h (ev &&& ~~~live) = (if n = 1 then [] else [e]) ∧ heldClean h e ∧
      (∀ t ∈ threadsOf live, h.g.span.unserv.getLsbD t = false ∧ sget 0 h.g.span.replays t < 4) ∧
      h.g.span.poisons = livePoisons ∧ ∀ y ∈ livePoisons, live.getLsbD y.t = true ∧ y.cause ≠ causeFutureEmpty := by
  unfold heldClean; decide +kernel
theorem witness_CommitDropsAndKeeps : ∀ addr : Bool, let e := if addr then { heldStore with apoi := some 5 } else { heldStore with dpoi := some 5 }
    let s := holding 1 1 [] e; let h := cur s
    s.here = some h ∧ h.p.meld = none ∧ h.p.mask ≠ 0 ∧ (s.ctx h.w.ctx).isSome = true ∧ s.wg h.g.wg = some h.w ∧
      pushesWaiting s h.w h.g.id (threadsOf h.p.mask) none = false ∧ h.g.span.holds = [] ∧ h.p.mask &&& h.g.span.opened ≠ 0 ∧
      heldFor h (h.p.mask &&& h.g.span.opened) = [e] ∧ heldClean h { e with apoi := none, dpoi := none } ∧ e.size = 4 ∧ e.pa % 4 = 0 ∧
      (∀ cls ∈ [18, 19], actionOf s (groupEvent s h.g cls 0 1 []) = 0) ∧ (e.apoi.isSome = addr) ∧ (e.dpoi.isSome = !addr) := by
  unfold heldClean; decide +kernel
theorem witness_ExitEndsThreads : ∀ s ∈ [one .nop, pair], let h := cur s
    s.here = some h ∧ h.p.mask &&& h.g.span.opened = 0 ∧ guardFull h.g h.p = true ∧ ∀ t ∈ vecThreads h.g h.p, t.2 = none := by decide +kernel
/-- v1 of the thread holds the token 5, and v1 is a source of it. -/
def poisoned : State := load .nop fun g => vSet g 1 0 (poisonReg 5)
theorem witness_PoisonReadAsData : let s := poisoned; let h := cur s; ∃ f, inspectTable s h (.pclr 2 false 1) = some (false, 2, false, 1, f) ∧
    s.here = some h ∧ operandCheck h [rSrc false 1 false] (some (rDst false 2)) true = none ∧
      operandsReady h (execThreads false h.g h.p) [rSrc false 1 false] (some (rDst false 2)) = true ∧
      ∀ t ∈ execThreads false h.g h.p, inspected h (rSrc false 1 false) f t = some (.inr (.words [0])) :=
  ⟨_, rfl, by decide +kernel, by decide +kernel, by decide +kernel, by decide +kernel⟩
theorem witness_SpanRecordRead : ∀ unif : Bool, let s := poisoned; let h := cur s
    s.here = some h ∧ (15#4).getLsbD 3 = true ∧ operandCheck h [] (some (rDst unif 2)) true = none ∧
      operandsReady h (execThreads unif h.g h.p) [] (some (rDst unif 2)) = true ∧ execThreads unif h.g h.p = [(0, none)] := by decide +kernel
theorem witness_PoisonCheck : let s := poisoned; let h := cur s
    s.here = some h ∧ (∀ k : BitVec 2, operandCheck h (pchkSrc k false 3) (some ⟨.p, 1, 1⟩) true = none ∧
      operandsReady h (vecThreads h.g h.p) (pchkSrc k false 3) (some ⟨.p, 1, 1⟩) = true ∧
      ∀ x ∈ pchkSrc k false 3, ∀ t ∈ vecThreads h.g h.p, readSrc h.g h.p x t.1 ≠ .empty) ∧
      (3#7).toNat % 8 < h.w.ntiles ∧ (sget ({} : Tile) h.w.tiles 3).full = true := by decide +kernel
/-- An empty side table has a free entry, whichever is chosen. -/
theorem freeEntry_nil (n : Nat) : ∃ e, freeEntry [] n = some e := by
  simp only [freeEntry, List.length_nil, show ¬(0 ≥ 1023) by omega, if_false]
  refine Option.isSome_iff_exists.mp (List.find?_isSome.mpr ⟨(Config.entryChoice n % 1023 + 0) % 1023, ?_, rfl⟩)
  exact List.mem_map.mpr ⟨0, List.mem_range.mpr (by omega), rfl⟩
theorem witness_NewPoisonRecord : ∃ (i : Instr) (s : State) (h : Here) (x : Shape) (t : Nat) (v : List (List Word)) (cause : Cause)
    (addr : Option DWord), s.here = some h ∧ poisonTable i h.p.mode = some x ∧ x.ready s h ∧ x.threads h = [(t, none)] ∧
      operands h t x.srcs = some (.inr v) ∧ newPoison i h.p.mode v = some (cause, addr) ∧
      (∀ kr ∈ (sget ({} : Side) s.exe.sides h.w.coreNo).recs, kr.2.1 ≠ h.g.id) ∧
      ∃ e, freeEntry (sget ({} : Side) s.exe.sides h.w.coreNo).recs s.ctl.tick = some e :=
  ⟨.pmake 2 false 1, one .nop, cur (one .nop), _, 0, [[2]], causeProgram, some 2, by decide +kernel, rfl,
    ⟨by decide +kernel, by decide +kernel, fun h => by cases h⟩, by decide +kernel, by decide +kernel, by decide +kernel, by decide +kernel,
    freeEntry_nil 0⟩

theorem witness_IdentityAndSystemReads : let s := one .nop; let h := cur s
    s.here = some h ∧ (readTable s h (.getid 2 7)).isSome = true ∧ (readTable s h (.sysrU 2 4)).isSome = true ∧ logging s h.w.ctx = false ∧
      ∀ unif : Bool, operandCheck h [] (some (rDst unif 2)) true = none ∧
        operandsReady h (execThreads unif h.g h.p) [] (some (rDst unif 2)) = true ∧
        (execThreads unif h.g h.p).any (·.2.isNone) = true := by decide +kernel
theorem witness_SystemRegisterWrite : ∀ priv : Bool, let s := (one .nop).modLaunch 1 fun l => { l with priv := priv }; let h := cur s
    s.here = some h ∧ uniThreads h.g h.p = [(0, none)] ∧ operandsReady h (uniThreads h.g h.p) [⟨.s, 1, false, 1⟩] none = true ∧
      readSrc h.g h.p ⟨.s, 1, false, 1⟩ 0 = .words [2] ∧ h.p.mask &&& h.g.span.opened = 0 ∧ privileged s h.w = priv := by decide +kernel
/-- The page at address 0 with a leaf entry that the core holds. -/
def paged (e : DWord) (f : Group → Group) : State :=
  let s := load .nop f
  { s with mem := { placeDWord s.mem 0x30000 e with tlb :=
      [{ core := 0, ctx := 1, level := 0, vpage := 0, entryAddr := 0x30000, entry := e, dirty := e.getLsbD 55 }] } }
/-- A page that may be read, written and executed, with accessed and dirty set; and one of future cells. -/
def plainPage : DWord := 0xF8C0000000040001
/-- A page of future cells. -/
def futurePage : DWord := 0xFCC0000000040001
theorem witness_MonitorAndWait : (∀ m ∈ [({ armed := true } : Monitor), {}, { armed := true, flag := true }], let s := load .nop fun g => { g with mon := m }
      let h := cur s; s.here = some h ∧ h.p.park ≠ .waiting ∧ h.g.mon = m) ∧
    let s := paged plainPage (vs [(1, 4095), (2, 4096), (4, 128)]); let h := cur s
    s.here = some h ∧ guardFull h.g h.p = true ∧ (vecThreads h.g h.p).head? = some (0, none) ∧
      operandCheck h [⟨.v, 1, false, 1⟩] none true = none ∧ readSrc h.g h.p ⟨.v, 1, false, 1⟩ 0 = .words [4095] ∧
      readSrc h.g h.p ⟨.v, 2, false, 1⟩ 0 = .words [4096] ∧ h.w.scratch = 4096 ∧
      operandCheck h [⟨.v, 4, false, 2⟩] none true = none ∧ readSrc h.g h.p ⟨.v, 4, false, 2⟩ 0 = .words [128, 0] ∧
      checkFlat s h.w.ctx (some h.w.coreNo) (privileged s h.w) {} (DWord.ofHalves 128 0) = (.loc 0x40080 false, s) ∧
      s.group h.g.id = some h.g := by decide +kernel
/-- A sync word at offset 4080, the last of the scratchpad, with a generation. -/
def sync (gen : Word) : State :=
  let s := load .nop (vs [(1, 4080), (2, 3)] ∘ ss [(1, 4080), (2, 3)])
  State.modWg { s with mem := setWord (setWord s.mem (loadWg.scratchBase + 4080) 8) (loadWg.scratchBase + 4088) gen } 1 fun w => { w with syncs := [4080] }
theorem witness_AwaitGeneration : ∀ b : Bool, let s := sync (if b then 3 else 2); let h := cur s
    s.here = some h ∧ operandCheck h [vSrc 1 false, vSrc 2 false] (some ⟨.p, 1, 1⟩) true = none ∧
      operandsReady h (vecThreads h.g h.p) [vSrc 1 false, vSrc 2 false] (some ⟨.p, 1, 1⟩) = true ∧ logging s h.w.ctx = false ∧
      h.p.park ≠ .waiting ∧ ∀ t ∈ vecThreads h.g h.p, t.2 = none ∧ readSrc h.g h.p (vSrc 1 false) t.1 = .words [4080] ∧
        readSrc h.g h.p (vSrc 2 false) t.1 = .words [3] ∧ 4080 % 16 = 0 ∧ 4080 + 16 ≤ h.w.scratch ∧ h.w.syncs.contains 4080 = true ∧
        wordPoi s.mem (h.w.scratchBase + 4080 + 8) = false ∧
        ((memWord s.mem (h.w.scratchBase + 4080 + 8) - 3#32).toNat < 2 ^ 31 ↔ b = true) := by decide +kernel
theorem witness_BarrierPhases : (let s := one .nop; let h := cur s
      s.here = some h ∧ mayArrive s h 15 1 ∧ h.p.park ≠ .barWait 15 ∧ h.p.mask &&& h.g.span.opened = 0 ∧
        (sget ({} : GroupBar) h.g.bars 15).pending = false ∧ barMismatch h 15 0 .wait = false) ∧
    let s := load .nop fun g => { g with bars := [(15, { pending := true })] }; let h := cur s
    s.here = some h ∧ (sget ({} : GroupBar) h.g.bars 15).pending = true ∧ barMismatch h 15 0 .wait = false ∧ closedSpan h ∧
      h.p.park ≠ .barWait 15 ∧ (sget ({} : Barrier) h.w.bars 15).gen = (sget ({} : GroupBar) h.g.bars 15).wgen := by
  unfold mayArrive closedSpan; decide +kernel
/-- The loaded launch in architected-stack mode with a trap handler. -/
def trapping (n : Nat) : State :=
  ((load .nop fun g => { g with stack := List.replicate n (entry .merge 0) }).modLaunch 1 fun l => { l with arch := true }).modCtx 1
    fun c => { c with trapPc := 1 }
theorem witness_BreakpointsAndMarks : (∀ n ∈ [31, 32], let s := trapping n; let h := cur s
      s.here = some h ∧ (trapTarget s h.w).isSome = true ∧ h.g.stack.length = n) ∧
    (let s := one .nop; let h := cur s; s.here = some h ∧ trapTarget s h.w = none ∧ debugBit s h.w.ctx 2 = false) ∧
    let s := (one .nop).setMgmt 0x18100 4; let h := cur s; s.here = some h ∧ trapTarget s h.w = none ∧ debugBit s h.w.ctx 2 = true := by decide +kernel
theorem witness_RegroupParks : (∀ r : Bool, let s := (one .nop).modLaunch 1 fun l => { l with regroup := r }; let h := cur s
      s.here = some h ∧ diverged h.g = false ∧ h.p.meld = none ∧ h.p.mask &&& h.g.span.opened = 0 ∧ h.p.park = .running ∧
        (s.launch h.w.launch).any (·.regroup) = r ∧ ∀ t ∈ threadsOf h.p.mask, (pGet h.g 1 t).full = true) ∧
    let h := cur nested; nested.here = some h ∧ diverged h.g = true := by decide +kernel
theorem witness_FetchWorkgroupRequest : let s := load .nop (ss [(1, 4064)]); let h := cur s
    s.here = some h ∧ uniThreads h.g h.p = [(0, none)] ∧ h.g.fetch = none ∧ h.p.mask &&& h.g.span.opened = 0 ∧
      operandsReady h (uniThreads h.g h.p) [⟨.s, 1, false, 1⟩] (some ⟨.s, 2, 1⟩) = true ∧
      readSrc h.g h.p ⟨.s, 1, false, 1⟩ 0 = .words [4064] ∧ (4064#32).toNat % 32 = 0 ∧ (4064#32).toNat + 32 ≤ h.w.scratch := by decide +kernel

/-! ### Memory -/

/-- v2 and v3 hold the address 128 of the page, v4 and v5 the address 136, the other registers small values; s-registers the same. -/
def addressed (e : DWord) : State := paged e (vs [(0, 8), (2, 128), (4, 136), (7, 9)] ∘ ss [(0, 8), (2, 128), (4, 136), (7, 9)])
theorem witness_LoadsBringMemory : ∃ (i : Instr) (f : LoadForm), let s := addressed plainPage; let h := cur s
    s.here = some h ∧ loadTable i h.p.mode = some f ∧ operandCheck h [f.src] (some f.dst) true = none ∧
      operandsReady h (execThreads f.unif h.g h.p) [f.src] (some f.dst) = true ∧ logging s h.w.ctx = false ∧ unwatched s h ∧ h.g.quar = [] ∧
      ∀ t ∈ execThreads f.unif h.g h.p, t.2 = none → addrOf h f.src f.scratch f.off t.1 = .inr 128 ∧
        checkAccess s h t.1 f.scratch {} f.size f.size 128 = (.loc 0x40080, s) ∧ lineBlocked s h.g.id 128 0x40080 s.exe.nextId = false ∧
        ∀ k, k < f.size → settledWord s (if f.const then [] else execAgents h f.unif t.1) ((0x40080 + k) / 4 * 4) := by
  refine ⟨.ld 8 false 2 1 0, _, by decide +kernel, rfl, ?_⟩
  unfold settledWord unwatched; decide +kernel
theorem witness_PrefetchChangesNothing : ∀ unif : Bool, let s := addressed plainPage; let h := cur s
    s.here = some h ∧ operandCheck h [rSrc unif 2 false 2] none true = none ∧
      operandsReady h (execThreads unif h.g h.p) [rSrc unif 2 false 2] none = true ∧
      ∀ t ∈ execThreads unif h.g h.p, addrOf h (rSrc unif 2 false 2) false (memOffset 4 31) t.1 = .inr 252 ∧
        (checkAccess s h t.1 false { anyPage := true } 4 4 252).2 = s := by decide +kernel
theorem witness_ScratchpadStores : ∀ unif : Bool, let s := load .nop (vs [(1, 4088)] ∘ ss [(1, 4088)]); let h := cur s
    s.here = some h ∧ h.p.mask &&& h.g.span.opened = 0 ∧ (storeConvOf 1 h.p.mode).any (·.isNone) = true ∧ guardFull h.g h.p = true ∧
      operandCheck h [rSrc unif 1 false, rSrc unif 2 false 2] none true = none ∧
      ∀ t ∈ execThreads unif h.g h.p, t.2 = none ∧ addrOf h (rSrc unif 1 false) true (memOffset (unitSize 1) 0) t.1 = .inr 4088 ∧
        4088 % unitSize 1 = 0 ∧ 4088 + unitSize 1 ≤ h.w.scratch ∧ h.w.syncs.contains (4088 / 16 * 16) = false ∧
        readSrc h.g h.p (rSrc unif 2 false 2) t.1 = .words [0, 0] ∧ storedBytes none [0, 0] = some [0, 0, 0, 0, 0, 0, 0, 0] := by decide +kernel
theorem witness_FlatStores : ∀ unif : Bool, let s := addressed plainPage; let h := cur s
    s.here = some h ∧ h.p.mask &&& h.g.span.opened = 0 ∧ debugBit s h.w.ctx 4 = false ∧ (storeConvOf 0 h.p.mode).any (·.isNone) = true ∧
      guardFull h.g h.p = true ∧ operandCheck h [rSrc unif 2 false 2, rSrc unif 7 false] none true = none ∧
      execThreads unif h.g h.p = [(0, none)] ∧ addrOf h (rSrc unif 2 false 2) false (memOffset (unitSize 0) 32) 0 = .inr 0 ∧
      readSrc h.g h.p (rSrc unif 7 false) 0 = .words [9] ∧ storedBytes none [9] = some [9, 0, 0, 0] ∧
      checkAccess s h 0 false { write := true } (unitSize 0) (unitSize 0) 0 = (.loc 0x40000, s) ∧
      lineBlocked s h.g.id 0 0x40000 s.exe.nextId = false ∧ (noteWrite s h.w.ctx (some h.w.coreNo) 0 0x40000).isSome = true := by decide +kernel
theorem witness_AtomicUpdates : atomicTable (.acas 8 false 2 true true 1) = some (8, 8, false, 2, true, true, 1) ∧
    let s := addressed plainPage; let h := cur s
    (s.here = some h ∧ h.p.mask &&& h.g.span.opened = 0 ∧
      debugBit s h.w.ctx 4 = false ∧ vecThreads h.g h.p = [(0, none)] ∧ guardFull h.g h.p = true ∧
      operandCheck h [⟨.v, 2, false, 2⟩, ⟨.v, 8, false, 4⟩] (some ⟨.v, 8, 2⟩) true = none ∧ logging s h.w.ctx = false ∧ s.ctl.shadow = [] ∧
      dstFull h.g h.p ⟨.v, 8, 2⟩ 0 = true) ∧
    (addrOf h ⟨.v, 2, false, 2⟩ false (memOffset 8 1) 0 = .inr 136 ∧ readSrc h.g h.p ⟨.v, 8, false, 4⟩ 0 = .words [0, 0, 0, 0] ∧
      checkAccess s h 0 false { write := true } 8 8 136 = (.loc 0x40088, s) ∧ lineBlocked s h.g.id 136 0x40088 s.exe.nextId = false) ∧
    (noteWrite s h.w.ctx (some h.w.coreNo) 136 0x40088).any (fun s2 => (List.range 2).all fun j =>
      !eccBad s2 (0x40088 + 4 * j) && !wordPoi s2.mem (0x40088 + 4 * j) && decide (regionOf (0x40088 + 4 * j) ≠ .host)) = true :=
  ⟨rfl, by decide +kernel⟩
theorem witness_SyncWordOperations : let s := sync 5; let h := cur s
    s.here = some h ∧ uniThreads h.g h.p = [(0, none)] ∧ guardFull h.g h.p = true ∧ readSrc h.g h.p (rSrc true 1 false) 0 = .words [4080] ∧
      (4080#32).toNat % 16 = 0 ∧ (4080#32).toNat + 16 ≤ h.w.scratch ∧ h.w.syncs.contains (4080#32).toNat = true ∧
      h.p.mask &&& h.g.span.opened = 0 ∧ readSrc h.g h.p (rSrc true 2 false) 0 = .words [3] ∧
      operandsReady h [(0, none)] [rSrc true 1 false] (some (rDst true 2)) = true ∧ logging s h.w.ctx = false ∧ h.g.quar = [] ∧
      settledWord s (execAgents h true 0) (h.w.scratchBase + 4080 + 8) := by unfold settledWord; decide +kernel
/-- The cell at physical address 0x40080 is full or empty. -/
def cells (full : Bool) : State :=
  let s := addressed futurePage
  { s with mem := setFull s.mem 0x40080 full }
theorem witness_FutureFillsAndClears : ∀ unif full : Bool, let s := cells full; let h := cur s
    s.here = some h ∧ h.p.mask &&& h.g.span.opened = 0 ∧ debugBit s h.w.ctx 4 = false ∧ execThreads unif h.g h.p = [(0, none)] ∧
      guardFull h.g h.p = true ∧ addrOf h (rSrc unif 2 false 2) false (memOffset 8 0) 0 = .inr 128 ∧
      checkAccess s h 0 false { write := true, future := true } 8 8 128 = (.loc 0x40080, s) ∧
      lineBlocked s h.g.id 128 0x40080 s.exe.nextId = false ∧ (noteWrite s h.w.ctx (some h.w.coreNo) 128 0x40080).any (fun s2 => fullBit s2.mem 0x40080 = full) = true ∧
      operandCheck h [rSrc unif 2 false 2, rSrc unif 6 false 2] none true = none ∧ readSrc h.g h.p (rSrc unif 6 false 2) 0 = .words [0, 9] ∧
      operandCheck h [rSrc unif 2 false 2] none true = none := by decide +kernel
theorem witness_FutureReads : ∀ unif full : Bool, let s := cells full; let h := cur s
    s.here = some h ∧ h.g.quar = [] ∧
      (∀ t ∈ execThreads unif h.g h.p, t.2 = none ∧ addrOf h (rSrc unif 2 false 2) false (memOffset 8 0) t.1 = .inr 128 ∧
        checkAccess s h t.1 false { future := true } 8 8 128 = (.loc 0x40080, s) ∧ lineBlocked s h.g.id 128 0x40080 s.exe.nextId = false ∧
        fullBit s.mem 0x40080 = full ∧ settledWord s (execAgents h unif t.1) 0x40080 ∧ settledWord s (execAgents h unif t.1) 0x40084) ∧
      operandCheck h [rSrc unif 2 false 2] (some (rDst unif 8 2)) true = none ∧ logging s h.w.ctx = false ∧ unwatched s h ∧
      operandsReady h (execThreads unif h.g h.p) [rSrc unif 2 false 2] (some (rDst unif 8 2)) = true ∧
      operandsReady h (vecThreads h.g h.p) [rSrc false 2 false 2] none = true ∧ h.p.park ≠ .waiting := by
  unfold settledWord unwatched; decide +kernel
theorem witness_FencePublishesAndObserves : ∀ sc : BitVec 3, let s := one .nop; let h := cur s
    s.here = some h ∧ h.p.mask &&& h.g.span.opened = 0 ∧ guardFull h.g h.p = true ∧ (∀ t ∈ vecThreads h.g h.p, t.2 = none) ∧
      orderedReady s h (5 ≤ sc.toNat) = true ∧ popsDone s h = true := by decide +kernel
theorem witness_PublishRange : let s := addressed plainPage; let h := cur s
    s.here = some h ∧ h.p.mask &&& h.g.span.opened = 0 ∧ operandCheck h [rSrc false 2 false 2, rSrc false 7 false] none true = none ∧
      operandsReady h (vecThreads h.g h.p) [rSrc false 2 false 2, rSrc false 7 false] none = true ∧ orderedReady s h true = true ∧ popsDone s h = true ∧
      ∀ t ∈ vecThreads h.g h.p, t.2 = none ∧ readSrc h.g h.p (rSrc false 2 false 2) t.1 = .words [(DWord.halves 128).1, (DWord.halves 128).2] ∧
        readSrc h.g h.p (rSrc false 7 false) t.1 = .words [9] := by decide +kernel
theorem witness_AcquireReadsAndSees : ∀ unif : Bool, let s := addressed plainPage; let h := cur s
    s.here = some h ∧ h.p.mask &&& h.g.span.opened = 0 ∧ operandCheck h [rSrc unif 2 false 2] (some (rDst unif 8 2)) true = none ∧
      operandsReady h (execThreads unif h.g h.p) [rSrc unif 2 false 2] (some (rDst unif 8 2)) = true ∧ orderedReady s h true = true ∧
      popsDone s h = true ∧ unwatched s h ∧ logging s h.w.ctx = false ∧ ∀ t ∈ execThreads unif h.g h.p, t.2 = none ∧ addrOf h (rSrc unif 2 false 2) false 0 t.1 = .inr 128 ∧
        checkAccess s h t.1 false {} 8 8 128 = (.loc 0x40080, s) ∧ lineBlocked s h.g.id 128 0x40080 s.exe.nextId = false ∧
        settledWord s (execAgents h unif t.1) 0x40080 ∧ settledWord s (execAgents h unif t.1) 0x40084 := by unfold settledWord unwatched; decide +kernel
theorem witness_ReleaseStoresAndReleases : ∀ unif : Bool, let s := addressed plainPage; let h := cur s
    s.here = some h ∧ h.p.mask &&& h.g.span.opened = 0 ∧ guardFull h.g h.p = true ∧ execThreads unif h.g h.p = [(0, none)] ∧
      operandCheck h [rSrc unif 2 false 2, rSrc unif 6 false 2] none true = none ∧ orderedReady s h true = true ∧ unwatched s h ∧
      addrOf h (rSrc unif 2 false 2) false 0 0 = .inr 128 ∧ readSrc h.g h.p (rSrc unif 6 false 2) 0 = .words [0, 9] ∧
      checkAccess s h 0 false { write := true } 8 8 128 = (.loc 0x40080, s) ∧ lineBlocked s h.g.id 128 0x40080 s.exe.nextId = false ∧
      (noteWrite s h.w.ctx (some h.w.coreNo) 128 0x40080).isSome = true := by unfold unwatched; decide +kernel
theorem witness_BindingRegions : ∀ unif : Bool, let s := addressed plainPage; let h := cur s
    s.here = some h ∧ execThreads unif h.g h.p = [(0, none)] ∧ orderedReady s h false = true ∧
      readSrc h.g h.p (rSrc unif 2 false 2) 0 = .words [(DWord.halves 128).1, (DWord.halves 128).2] ∧
      checkAccess s h 0 false {} 8 8 128 = (.loc 0x40080, s) ∧
      operandCheck h [rSrc unif 2 false 2, rSrc unif 4 false 2, rSrc unif 7 false] none true = none ∧
      operandsReady h (execThreads unif h.g h.p) [rSrc unif 2 false 2, rSrc unif 4 false 2, rSrc unif 7 false] none = true ∧
      readSrc h.g h.p (rSrc unif 4 false 2) 0 = .words [(DWord.halves 136).1, (DWord.halves 136).2] ∧
      readSrc h.g h.p (rSrc unif 7 false) 0 = .words [9] ∧ (136 : DWord).extractLsb' 55 9 = 0 ∧
      regionLines s h.w ((9#32).toNat / 512 + 2) ((136 : DWord).toNat / 128) (9#32).toNat = (some [(0x40080 / 128, 0x40080 / 128 + 9)], s) ∧
      operandCheck h [rSrc unif 2 false 2] none true = none := by decide +kernel

/-- A FILL of four bytes of the scratchpad at offset 128 with 7, lacking its last word; the last word is in s0. -/
def filling (bad : Bool) : State :=
  load .nop fun g => { g with queues := [(0, { partWords := [if bad then 0x20040001 else 0x20040000, 7, 0, 128, 0, 4] })] }
theorem witness_QueueWords : (let s := one .nop; let h := cur s
      s.here = some h ∧ h.p.mask &&& h.g.span.opened = 0 ∧ uniThreads h.g h.p = [(0, none)] ∧ guardFull h.g h.p = true ∧
        readSrc h.g h.p (rSrc true 1 false) 0 = .words [2] ∧ bufferFull s h.g 0 = false ∧
        accessesWaiting s h.g.id ((vecThreads h.g h.p).map (·.1)) false = false ∧ ((h.g.queue 0).partWords ++ [2]).length < commandLength 0) ∧
    ∀ bad : Bool, let s := filling bad; let h := cur s
      s.here = some h ∧ readSrc h.g h.p (rSrc true 0 false) 0 = .words [0] ∧ bufferFull s h.g 0 = false ∧
        accessesWaiting s h.g.id ((vecThreads h.g h.p).map (·.1)) false = false ∧ commandLength 0 ≤ ((h.g.queue 0).partWords ++ [0]).length ∧ commandBad h.w.scratch 0 ((h.g.queue 0).partWords ++ [0]) = bad ∧
        (h.g.queue 0).results.length < 8 ∧ (h.g.queue 0).held = [] := by decide +kernel
/-- What is found under a key is listed under it. -/
theorem sfind_mem {α : Type} {m : SMap α} {k : Nat} {x : α} (h : sfind m k = some x) : (k, x) ∈ m := by
  induction m with
  | nil => cases h
  | cons y m ih =>
    obtain ⟨j, y⟩ := y
    simp only [sfind] at h
    split at h
    · next e => cases h; subst e; exact List.mem_cons_self
    · exact List.mem_cons_of_mem _ (ih h)
/-- Where nothing waits and no queue has a word, everything is in turn. -/
theorem inTurn_of_idle (s : State) (h : Here) (t0 : Nat) (kind : EffKind) (size : Nat) (hk : kind = .qw ∨ ∃ w, kind = .push w)
    (hp : s.exe.pendings = []) (hq : (s.group h.g.id).any (bufferFull s · size) = false)
    (hw : (s.host.ctxs.all fun kc => kc.2.lists.all fun kl => kl.2.units.all fun ku => ku.2.waiting.isEmpty) = true) : inTurn s h t0 kind size := by
  intro e k z g t i c a
  unfold Eff.blocked
  rcases hk with rfl | ⟨w, rfl⟩
  · simp only [k, z, g, hp, hq, List.any_nil, Bool.or_false]
  · simp only [k, hp, List.any_nil, Bool.or_false]
    cases hc : s.ctx e.ctx with
    | none => rfl
    | some x =>
      have hx := List.all_eq_true.mp hw _ (sfind_mem hc)
      simp only [Option.any_some, Bool.eq_false_iff, ne_eq, List.any_eq_true, not_exists, not_and]
      intro kl hl ku hu p hpm
      have := List.all_eq_true.mp (List.all_eq_true.mp hx kl hl) ku hu
      rw [List.isEmpty_iff.mp this] at hpm
      cases hpm
theorem witness_QueueWords_inTurn : inTurn (one .nop) (cur (one .nop)) 0 .qw (0 : BitVec 3).toNat ∧
    ∀ bad : Bool, inTurn (filling bad) (cur (filling bad)) 0 .qw (0 : BitVec 3).toNat :=
  ⟨inTurn_of_idle _ _ _ _ _ (.inl rfl) rfl (by decide +kernel) (by decide +kernel),
    fun b => inTurn_of_idle _ _ _ _ _ (.inl rfl) rfl (by revert b; decide +kernel) (by revert b; decide +kernel)⟩
theorem witness_QueueWords_full : let s := load .nop fun g => { g with queues := [(4, { partWords := List.replicate 16 0 })] }; let h := cur s
    s.here = some h ∧ bufferFull s h.g 4 = true ∧ h.p.park ≠ .waiting := by decide +kernel
theorem witness_QueueReads : let s := one .nop; let h := cur s
    s.here = some h ∧ h.p.mask &&& h.g.span.opened = 0 ∧ uniThreads h.g h.p = [(0, none)] ∧
      operandsReady h [(0, none)] [] (some (rDst true 2)) = true ∧ (∀ kr ∈ (sget ({} : Side) s.exe.sides h.w.coreNo).recs, kr.2.1 ≠ h.g.id) ∧
      ∃ e, freeEntry (sget ({} : Side) s.exe.sides h.w.coreNo).recs s.ctl.tick = some e :=
  ⟨by decide +kernel, by decide +kernel, by decide +kernel, by decide +kernel, by decide +kernel, freeEntry_nil 0⟩
theorem witness_StatusWords : ∃ f, let s := one .nop; let h := cur s
    s.here = some h ∧ statusTable s h (.mprog 2 3) = some ([], 2, f) ∧ logging s h.w.ctx = false ∧ uniThreads h.g h.p = [(0, none)] ∧
      operandsReady h [(0, none)] [] (some (rDst true 2)) = true ∧ operands h 0 [] = some (.inr []) ∧
      (statusTable s h (.tdesc 2 false 4)).isSome = true ∧ operands h 0 [rSrc true 4 false 4] = some (.inr [[0, 0, 0, 0]]) :=
  ⟨_, by decide +kernel, rfl, by decide +kernel⟩

/-- Worklist 1 of the context is open, with a spill share and one unit. -/
def worklist (state : Nat) : State :=
  (paged futurePage (vs [(4, 5), (6, 128)])).modCtx 1 fun c =>
    { c with lists := [(1, { state := state, spsize := 1, bound := 100, units := [(0, {})] })] }
theorem witness_WorklistPushes_rejected : let s := worklist 0; let h := cur s
    s.here = some h ∧ pushTable (.wlpush 4 1) = some (false, 4, 1, false) ∧ h.p.mask &&& h.g.span.opened = 0 ∧
      execThreads false h.g h.p = [(0, none)] ∧ guardFull h.g h.p = true ∧ operandCheck h [rSrc false 4 false 4] none true = none ∧
      readSrc h.g h.p (rSrc false 4 false 4) 0 = .words [5, 0, 128, 0] ∧ pushesWaiting s h.w h.g.id [0] none = false ∧
      (s.ctx h.w.ctx).isSome = true ∧ (getList s h.w.ctx 1).state ≠ 1 := by decide +kernel
theorem witness_WorklistPushes_inTurn : ∀ n ∈ [0, 1], inTurn (worklist n) (cur (worklist n)) 0 (.push (1 : BitVec 4).toNat) 16 := fun n hn =>
  inTurn_of_idle _ _ _ _ _ (.inr ⟨_, rfl⟩) rfl (by revert n; decide +kernel) (by revert n; decide +kernel)
theorem witness_WorklistPushes_queued : let s := worklist 1; let h := cur s; let l := getList s h.w.ctx 1; let u := unitOf s h.w.quad
    s.here = some h ∧ l.state = 1 ∧ (let e := pushedEntry false [5, 0, 128, 0]; entryMalformed e = false ∧ entryKind e = 0 ∧
        l.urgent u (l.bucket e) = false ∧ (l.place (l.unit u) (othersAt s l u)
          { age := l.age, bin := binOf (entryPayload e), entry := e, spilled := false }).isSome = true) ∧
      (let e := pushedEntry true [5, 0, 128, 128]; entryMalformed e = false ∧ entryKind e = 1 ∧ e.hi ≤ e.lo) ∧
      let e := pushedEntry false [5, 0x20000000, 128, 0]
      entryMalformed e = false ∧ entryKind e = 2 ∧ l.urgent u (l.bucket e) = false ∧
        checkFlat (resetWatchdog s h.g.id) h.w.ctx none (privileged s h.w) { future := true } (entryPayload e) =
          (.loc 0x40080 false, resetWatchdog s h.g.id) ∧ fullBit s.mem 0x40080 = false ∧
        (l.unit u).spillUsed < l.share := by decide +kernel
theorem witness_WorklistTasks : ∀ open' : Bool, let s := worklist (if open' then 1 else 2); let h := cur s
    s.here = some h ∧ h.p.mask &&& h.g.span.opened = 0 ∧ (s.ctx h.w.ctx).isSome = true ∧ logging s h.w.ctx = false ∧
      operandCheck h [] (some ⟨.v, 8, 4⟩) true = none ∧ operandsReady h (vecThreads h.g h.p) [] (some ⟨.v, 8, 4⟩) = true ∧
      (∀ t ∈ vecThreads h.g h.p, t.2 = none ∧ dstFull h.g h.p ⟨.p, 1, 1⟩ t.1 = true ∧ sfind h.g.held (taskKey 1 t.1) = none) ∧
      ((getList s h.w.ctx 1).state = 1 ↔ open' = true) ∧ guardFull h.g h.p = true ∧
      pushesWaiting s h.w h.g.id ((vecThreads h.g h.p).map (·.1)) (some 1) = false ∧
      pushesWaiting s h.w h.g.id ((vecThreads h.g h.p).map (·.1)) (some (1 : BitVec 4).toNat) = false ∧ uniThreads h.g h.p = [(0, none)] ∧
      operandsReady h [(0, none)] [] (some (rDst true 2)) = true ∧ s.ctl.stalled = false := by decide +kernel
theorem witness_WorklistTasks_done : let s := (worklist 1).modGroup 2 fun g => { g with held := [(taskKey 1 0, 0)] }; let h := cur s
    s.here = some h ∧ vecThreads h.g h.p = [(0, none)] ∧ sfind h.g.held (taskKey 1 0) = some (getList s h.w.ctx 1).config ∧
      (getList s h.w.ctx 1).state ≠ 0 := by decide +kernel
theorem witness_WorklistConfiguration : ∀ priv : Bool, let s := (addressed plainPage).modLaunch 1 fun l => { l with priv := priv }; let h := cur s
    s.here = some h ∧ privileged s h.w = priv ∧ unwatched s h ∧ uniThreads h.g h.p = [(0, none)] ∧ h.p.park ≠ .waiting ∧ s.exe.pendings = [] ∧ h.g.gotten = [] ∧
      operandsReady h [(0, none)] [rSrc true 2 false 2] (some (rDst true 8)) = true ∧ readSrc h.g h.p (rSrc true 2 false 2) 0 = .words [128, 0] ∧
      (readDescriptor h 0 (DWord.ofHalves 128 0) 8 s).1 = .words [0, 0, 0, 0, 0, 0, 0, 0] ∧
      (readDescriptor h 0 (DWord.ofHalves 128 0) 8 s).2.group h.g.id = some h.g ∧
      ((readDescriptor h 0 (DWord.ofHalves 128 0) 8 s).2.ctx h.w.ctx).isSome = true := by unfold unwatched; decide +kernel
theorem witness_WorklistConfiguration_failed : let s := (addressed plainPage).modLaunch 1 fun l => { l with priv := true }; let h := cur s
    let r := readDescriptor h 0 2 8 s
    ∃ f e, r.1 = .failed f ∧ f.cause ≠ causeInvalid ∧ f.cause ≠ causeDenied ∧ r.2.group h.g.id = some h.g ∧ r.2.wg h.w.id = some h.w ∧
      (r.2.ctx h.w.ctx).isSome = true ∧ (∀ kr ∈ (sget ({} : Side) r.2.exe.sides h.w.coreNo).recs, kr.2.1 ≠ h.g.id) ∧
      freeEntry (sget ({} : Side) r.2.exe.sides h.w.coreNo).recs r.2.ctl.tick = some e := by
  obtain ⟨e, he⟩ := freeEntry_nil 0
  exact ⟨{ t := 0, cause := causeMisaligned, addr := some 2 }, e, by decide +kernel, by decide, by decide, by decide +kernel, by decide +kernel,
    by decide +kernel, by decide +kernel, he⟩
/-- A descriptor with enable set, of 64 buckets and a spill share of 4 KiB. -/
def described : State :=
  let s := addressed plainPage
  { s with mem := placeWord (placeWord s.mem 0x40080 0x80000040) 0x40090 16 }
theorem witness_WorklistConfiguration_enabled : let s := described; let h := cur s
    let ws : List Word := [0x80000040, 0, 0, 0, 16, 0, 0, 0]
    s.here = some h ∧ (readDescriptor h 0 128 8 s).1 = .words ws ∧ (ws.getD 0 0).getLsbD 31 = true ∧ descriptorOk (readDescriptor h 0 128 8 s).2 h.w.ctx ws = true ∧
      let s1 := (readDescriptor h 0 128 8 s).2
      nothingWaits s1 ∧ (∀ u ∈ skeys (getList s1 h.w.ctx 1).units, u / 4 = nodeNo s1) ∧
        ∀ u ∈ domainUnits s1 h.w.ctx ((ws.getD 0 0).getLsbD 29), u / 4 = nodeNo s1 := by
  unfold nothingWaits; decide +kernel

/-! ### Matrices -/

theorem witness_GangNaming : let s := load .nop (ss [(1, 0x00000003)]); let s := s.modWg 1 fun w => { w with ngroups := 2 }; let h := cur s
    s.here = some h ∧ uniThreads h.g h.p = [(0, none)] ∧ operandsReady h [(0, none)] [rSrc true 1 false] (some (rDst true 2)) = true ∧
      readSrc h.g h.p (rSrc true 1 false) 0 = .words [3] := by decide +kernel
theorem witness_MatrixArrivals : (let s := load .nop (ss [(11, 1), (15, 1)] ); let h := cur s
      s.here = some h ∧ diverged h.g = false ∧ (3#3).toNat < h.w.ntiles ∧ h.p.mask &&& h.g.span.opened = 0 ∧ h.p.park ≠ .rendezvous ∧
        h.w.arrivals = [] ∧ accessesWaiting s h.g.id (threadsOf h.p.mask) false = false ∧ (∀ k, k < 16 → (sGet h.g (8 + k)).full = true ∧ (sGet h.g (8 + k)).poi = false) ∧ h.g.gang.getLsbD 22 = false ∧
        h.g.gang.getLsbD 21 = false ∧ queueHeld h.w 3 = false ∧ (∀ o ∈ (sget ({} : Tile) h.w.tiles 3).ops, o.fail = none) ∧
        blockCause false (slotOf s h.w 0) (blockWords h 8 false) = none) ∧
    (let s := load .nop fun g => { g with gang := 0x00400003 }; let h := cur s
      s.here = some h ∧ h.g.gang.getLsbD 22 = true ∧ h.g.gang.getLsbD 1 = true ∧ 1 ≠ h.g.pos) ∧
    (let h := cur nested; nested.here = some h ∧ diverged h.g = true) ∧ let h := cur (one .nop); h.w.ntiles ≤ (4#3).toNat := by decide +kernel
theorem witness_AccumulatorElements : let s := one .nop; let h := cur s
    s.here = some h ∧ (3#3).toNat < h.w.ntiles ∧ (sget ({} : Tile) h.w.tiles 3).full = true ∧ uniThreads h.g h.p = [(0, none)] ∧
      guardFull h.g h.p = true ∧ operandCheck h [vSrc 1 false] (some (rDst false 2)) true = none ∧
      operandsReady h (vecThreads h.g h.p) [vSrc 1 false] (some (rDst false 2)) = true ∧
      operandCheck h [vSrc 0 false, vSrc 1 false] none true = none ∧ vecThreads h.g h.p ≠ [] ∧
      ∀ t ∈ vecThreads h.g h.p, t.2 = none ∧ readSrc h.g h.p (vSrc 1 false) t.1 = .words [2] ∧
        readSrc h.g h.p (vSrc 0 false) t.1 = .words [7] := by decide +kernel

/-- A descriptor at address 128 whose rows lie on one another. -/
def flatTile (nk : Word) : List Word := [128, 0, 0, nk]
/-- Its element (i, j) does not depend on i. -/
theorem flatTile_addr (nk : Word) (h : nk.getLsbD 31 = false) (es i j : Nat) :
    (TDesc.of (flatTile nk)).addr es i j = (TDesc.of (flatTile nk)).addr es 0 j := by
  simp only [TDesc.addr, show (TDesc.of (flatTile nk)).trans = false from h, show (TDesc.of (flatTile nk)).stride.toNat = 0 from rfl,
    Bool.false_eq_true, if_false, Nat.mul_zero]
/-- Descriptors in s4 to s7 and s8 to s11. -/
def tiled (nk : Word) : State := paged plainPage (ss [(4, 128), (7, nk), (8, 128), (11, nk)])
/-- What AccumulatorLoad and TileStores ask of a source word. -/
def readsWell (s : State) (va : DWord) : Prop :=
  let h := cur s
  checkAccess s h 0 false {} 4 4 (wordAddr va) = (.loc (0x40000 + (wordAddr va).toNat), s) ∧
    lineBlocked s h.g.id (wordAddr va) (0x40000 + (wordAddr va).toNat) s.exe.nextId = false ∧
    settledWord s (execAgents h true 0) (0x40000 + (wordAddr va).toNat)
theorem witness_AccumulatorLoad : (let s := tiled 4; let h := cur s
      s.here = some h ∧ (3#3).toNat < h.w.ntiles ∧ h.p.mask &&& h.g.span.opened = 0 ∧ (sget ({} : Tile) h.w.tiles 3).full = true ∧
        uniThreads h.g h.p = [(0, none)] ∧ operandsReady h [(0, none)] [rSrc true 4 false 4] none = true ∧ logging s h.w.ctx = false ∧
        readSrc h.g h.p (rSrc true 4 false 4) 0 = .words (flatTile 4) ∧ (TDesc.of (flatTile 4)).status = 0 ∧ (TDesc.of (flatTile 4)).nk = 4 ∧
        unwatched s h ∧ elemSize (slotElem (slotOf s h.w 0)) = 4) ∧
    ∀ i j, i < 64 → j < 64 → readsWell (tiled 4) ((TDesc.of (flatTile 4)).addr 4 i j) := by
  refine ⟨by unfold unwatched; decide +kernel, fun i j _ hj => ?_⟩
  rw [flatTile_addr 4 (by decide)]
  revert j
  unfold readsWell settledWord
  decide +kernel
theorem witness_TileStores : (let s := tiled 4; let h := cur s
      s.here = some h ∧ (3#3).toNat < h.w.ntiles ∧ h.p.mask &&& h.g.span.opened = 0 ∧ uniThreads h.g h.p = [(0, none)] ∧
        guardFull h.g h.p = true ∧ readSrc h.g h.p (rSrc true 4 false 4) 0 = .words (flatTile 4) ∧ (TDesc.of (flatTile 4)).status = 0 ∧
        (TDesc.of (flatTile 4)).nk = 4 ∧ unwatched s h ∧ let x := sget ({} : Tile) h.w.tiles 3; x.full = true ∧ x.poi = [] ∧ x.last = []) ∧
    (∀ e, e < 4096 → (storeElem (slotOf (tiled 4) (cur (tiled 4)).w 0) (sget 0 (sget ({} : Tile) (cur (tiled 4)).w.tiles 3).elems e)).isSome = true) :=
  ⟨by unfold unwatched; decide +kernel, fun _ _ => rfl⟩
theorem witness_TileStores_convert : (let s := tiled 1; let h := cur s
      s.here = some h ∧ readSrc h.g h.p (rSrc true 4 false 4) 0 = .words (flatTile 1) ∧ readSrc h.g h.p (rSrc true 8 false 4) 0 = .words (flatTile 1) ∧
        (TDesc.of (flatTile 1)).status = 0 ∧ unwatched s h ∧ pairListed (TDesc.of (flatTile 1)).efmt (slotElem (slotOf s h.w 0)) = true ∧
        logging s h.w.ctx = false ∧ elemSize (TDesc.of (flatTile 1)).efmt = 4) ∧
    ∀ i k, i < 64 → k < 16 * (TDesc.of (flatTile 1)).nk → let va := (TDesc.of (flatTile 1)).addr 4 i k
      readsWell (tiled 1) va ∧ (convertElem (slotOf (tiled 1) (cur (tiled 1)).w 0) 0 (elemBits (memWord (tiled 1).mem (0x40000 + (wordAddr va).toNat)) va 4)).isSome = true := by
  refine ⟨by unfold unwatched; decide +kernel, fun i k _ hk => ?_⟩
  rw [flatTile_addr 1 (by decide)]
  revert k
  unfold readsWell settledWord
  decide +kernel

theorem witness_AccldCompletes : ∀ i j, i < 64 → j < 64 →
    elementReads (tiled 4) (cur (tiled 4)) 0 ((TDesc.of (flatTile 4)).addr (elemSize (slotElem (slotOf (tiled 4) (cur (tiled 4)).w 0))) i j) :=
  fun i j hi hj => ⟨_, witness_AccumulatorLoad.2 i j hi hj⟩
theorem witness_AccstCompletes : ∀ i j, i < 64 → j < 64 →
    elementStores (tiled 4) (cur (tiled 4)) 0 4 ((TDesc.of (flatTile 4)).addr 4 i j) := by
  have all : ∀ j, j < 64 → let s := tiled 4; let va := (TDesc.of (flatTile 4)).addr 4 0 j
      checkAccess s (cur s) 0 false { write := true } 4 4 va = (.loc (0x40000 + va.toNat), s) := by decide +kernel
  intro i j _ hj
  rw [flatTile_addr 4 (by decide)]
  exact ⟨_, all j hj⟩
/-- What a state that agents have seen shares with the one before. -/
theorem onlySeen_same {s s1 : State} (h : onlySeen s s1) : s1.mem.tlb = s.mem.tlb ∧ s1.mem.bytes = s.mem.bytes ∧ s1.host = s.host := by
  rw [h]; exact ⟨rfl, rfl, rfl⟩
theorem onlySeen_ctx {s s1 : State} (h : onlySeen s s1) (c : Nat) : s1.ctx c = s.ctx c := by
  rw [State.ctx, State.ctx, (onlySeen_same h).2.2]
theorem onlySeen_privileged {s s1 : State} (h : onlySeen s s1) (w : WG) : privileged s1 w = privileged s w := by
  rw [privileged, privileged, State.launch, State.launch, (onlySeen_same h).2.2]
theorem onlySeen_tlbFind {s s1 : State} (h : onlySeen s s1) (c x v : Nat) : tlbFind s1.mem c x v = tlbFind s.mem c x v := by
  rw [tlbFind, tlbFind, (onlySeen_same h).1]
theorem onlySeen_memDWord {s s1 : State} (h : onlySeen s s1) (a : Nat) : memDWord s1.mem a = memDWord s.mem a := by
  simp only [memDWord, memWord, memByte, (onlySeen_same h).2.1]
theorem onlySeen_mayAccess {s s1 : State} (h : onlySeen s s1) (p a : Nat) : mayAccess s1 p a = mayAccess s p a := by
  simp only [mayAccess, partMask, farEntry, State.mgmt, (onlySeen_same h).2.2]; rfl
/-- What agents have seen, and groups, have no part in the check of a store of the package's own page. -/
theorem tiled_stores_at (s1 : State) (h1 : onlySeen (tiled 1) s1) (k : Nat) (hk : k < 16) :
    checkAccess s1 (cur (tiled 1)) 0 false { write := true } 4 4 ((TDesc.of (flatTile 1)).addr 4 0 k) =
      (.loc (entryPa plainPage + ((TDesc.of (flatTile 1)).addr 4 0 k).toNat % 2 ^ levelShift 0), s1) := by
  have e1 := onlySeen_tlbFind h1
  have e2 := onlySeen_memDWord h1
  have e3 := onlySeen_ctx h1
  have e4 := onlySeen_privileged h1
  have e5 := onlySeen_mayAccess h1
  have all : ∀ k, k < 16 → let s := tiled 1; let va := (TDesc.of (flatTile 1)).addr 4 0 k; let h := cur s
      va.extractLsb' 55 9 = 0 ∧ va.toNat % 4 = 0 ∧ s.ctx h.w.ctx = some { tag := 1, part := 0, root := 0x10000 } ∧
        tlbFind s.mem h.w.coreNo h.w.ctx va.toNat =
          some { core := 0, ctx := 1, level := 0, vpage := 0, entryAddr := 0x30000, entry := plainPage, dirty := true } ∧
        memDWord s.mem 0x30000 = plainPage ∧ regionOf (entryPa plainPage + va.toNat % 2 ^ levelShift 0) = .near 0 ∧
        (permitted (privileged s h.w) { write := true } plainPage && mayAccess s 0 (entryPa plainPage + va.toNat % 2 ^ levelShift 0)) = true := by
    decide +kernel
  obtain ⟨a1, a2, a3, a4, a5, a6, a7⟩ := all k hk
  have serve : tlbServe s1 (cur (tiled 1)).w.coreNo (cur (tiled 1)).w.ctx ((TDesc.of (flatTile 1)).addr 4 0 k).toNat =
      (some { core := 0, ctx := 1, level := 0, vpage := 0, entryAddr := 0x30000, entry := plainPage, dirty := true }, s1) := by
    unfold tlbServe
    rw [e1, a4]
    simp only [e2, a5]
    rfl
  have flat : checkFlat s1 (cur (tiled 1)).w.ctx (some (cur (tiled 1)).w.coreNo) (privileged s1 (cur (tiled 1)).w) { write := true }
      ((TDesc.of (flatTile 1)).addr 4 0 k) = (.loc (entryPa plainPage + ((TDesc.of (flatTile 1)).addr 4 0 k).toNat % 2 ^ levelShift 0) false, s1) := by
    unfold checkFlat leafFor checkLeaf
    rw [if_neg (by rw [a1]; decide), e3, a3, e4]
    simp only [serve, a6, e5, a7, if_true]
    rfl
  unfold checkAccess
  simp only [Bool.false_eq_true, if_false, a1, a2, ne_eq, not_true_eq_false, flat]
theorem tiled_stores (s1 : State) (h1 : onlySeen (tiled 1) s1) (k : Nat) (hk : k < 16) :
    elementStores s1 (cur (tiled 1)) 0 4 ((TDesc.of (flatTile 1)).addr 4 0 k) := ⟨_, tiled_stores_at s1 h1 k hk⟩
theorem witness_TcvtCompletes : ∀ i k, i < 64 → k < 16 * (TDesc.of (flatTile 1)).nk → let s := tiled 1; let h := cur s
    let va := (TDesc.of (flatTile 1)).addr 4 i k
    elementReads s h 0 va ∧ (∀ s1, onlySeen s s1 → elementStores s1 h 0 4 va) ∧
      ∀ pa, checkAccess s h 0 false {} 4 4 (wordAddr va) = (.loc pa, s) →
        (convertElem (slotOf s h.w 0) 0 (elemBits (memWord s.mem pa) va 4)).isSome = true := by
  intro i k hi hk
  have w := witness_TileStores_convert.2 i k hi hk
  refine ⟨⟨_, w.1⟩, fun s1 h1 => ?_, fun pa hpa => ?_⟩
  · rw [flatTile_addr 1 (by decide)]
    exact tiled_stores s1 h1 k hk
  · cases (Prod.ext_iff.mp (w.1.1.symm.trans hpa)).1
    exact w.2

/-- A write to the page of a tile changes nothing but its bytes. -/
theorem tiled_quiet (nk : Word) (va : DWord) (pa : Nat) (hv : va.toNat / 65536 = 0) (hp : 0x40000 ≤ pa) (hn : nk = 1 ∨ nk = 4) :
    quietPage (tiled nk) (cur (tiled nk)) va pa := by
  have e0 : let s := tiled nk; (cur s).w.ctx = 1 ∧ (cur s).w.coreNo = 0 ∧ s.ctx 1 = some { tag := 1, part := 0, root := 0x10000 } ∧
      s.mem.tlb = [{ core := 0, ctx := 1, level := 0, vpage := 0, entryAddr := 0x30000, entry := plainPage, dirty := true }] ∧
      memDWord s.mem 0x30000 = plainPage ∧ wordPoi s.mem 0x30000 = false ∧ wordPoi s.mem 0x30004 = false ∧ eccBad s 0x30000 = false ∧
      eccBad s 0x30004 = false ∧ (s.mgmt64 0x4030).getLsbD 0 = false := by rcases hn with rfl | rfl <;> decide +kernel
  have c11 : regionOf 0x30000 = .near 0 := by decide +kernel
  have c12 : writtenLeaf { tag := 1, part := 0, root := 0x10000 } true plainPage = plainPage := by decide +kernel
  obtain ⟨c1, c2, c3, c4, c5, c6, c7, c8, c9, c10⟩ := e0
  refine ⟨fun s1 ⟨h1, h2, h3⟩ => ?_, fun x hx => ?_⟩
  · have h3' := h3 _ (by rw [c4]; exact List.mem_singleton.mpr rfl)
    have k0 := h3' 0 (by simp)
    have k4 := h3' 4 (by simp)
    simp only [Nat.add_zero, Nat.reduceAdd] at k0 k4
    have d1 : memDWord s1.mem 0x30000 = plainPage := by rw [← c5]; simp only [memDWord, Nat.reduceAdd, k0.1, k4.1]
    have find : tlbFind s1.mem 0 1 va.toNat = some { core := 0, ctx := 1, level := 0, vpage := 0, entryAddr := 0x30000, entry := plainPage, dirty := true } := by
      simp only [tlbFind, h2, c4, List.find?_cons, show levelShift 0 = 16 from rfl, show (2 : Nat) ^ 16 = 65536 from rfl, hv, decide_true, Bool.and_self]
    have upd : updateEntry s1 1 0 0x30000 (writtenLeaf { tag := 1, part := 0, root := 0x10000 } true) = s1 := by
      simp only [updateEntry, fetchHalf, c11, List.find?_cons, List.find?_nil, k0.2.2, k4.2.2, c8, c9, d1, c12, k0.2.1, k4.2.1, Nat.reduceAdd]
      simp
    have dirt : noteDirty s1 1 pa = s1 := by
      have e : s1.mgmt64 (0x4000 + 32 * 1 + 0x10) = (tiled nk).mgmt64 0x4030 := by simp only [State.mgmt64, State.mgmt, h1]
      simp only [noteDirty, e, c10, Bool.false_and, Bool.false_eq_true, if_false]
    rw [c1, c2]
    have ctx : s1.ctx 1 = some { tag := 1, part := 0, root := 0x10000 } := by rw [← c3]; simp only [State.ctx, h1]
    simp only [noteWrite, ctx, Option.bind_some, find, d1, checkpointHolds, Bool.false_and, Bool.false_eq_true, if_false, Option.any_some, upd]
    rw [show (s1.withMem { s1.mem with tlb := s1.mem.tlb.map _ }) = s1 from ?_, dirt]
    rw [h2, c4]
    simp [State.withMem]
    rw [← c4, ← h2]
  · rw [c4] at hx
    rw [List.mem_singleton.mp hx]
    exact .inr (by show 0x30000 + 12 ≤ pa; omega)
/-- The words of a tile of which the addresses, and the sizes, are what TileBytes asks for. -/
theorem witness_TileBytes : ∀ i j, i < 64 → j < 64 → let s := tiled 4; let va := (TDesc.of (flatTile 4)).addr 4 i j
    (TDesc.of (flatTile 4)).status = 0 ∧ unwatched s (cur s) ∧
      checkAccess s (cur s) 0 false { write := true } 4 4 va = (.loc (0x40000 + va.toNat), s) ∧
      lineBlocked s (cur s).g.id va (0x40000 + va.toNat) s.exe.nextId = false ∧ quietPage s (cur s) va (0x40000 + va.toNat) := by
  intro i j _ hj
  rw [flatTile_addr 4 (by decide)]
  have all : ∀ j, j < 64 → let s := tiled 4; let va := (TDesc.of (flatTile 4)).addr 4 0 j
      (TDesc.of (flatTile 4)).status = 0 ∧ debugBit s (cur s).w.ctx 4 = false ∧
      checkAccess s (cur s) 0 false { write := true } 4 4 va = (.loc (0x40000 + va.toNat), s) ∧
      lineBlocked s (cur s).g.id va (0x40000 + va.toNat) s.exe.nextId = false ∧ va.toNat / 65536 = 0 := by decide +kernel
  obtain ⟨a, b, c, d, e⟩ := all j hj
  exact ⟨a, b, c, d, tiled_quiet 4 _ _ e (by omega) (.inr rfl)⟩
theorem witness_TileBytes_convert : ∀ i k, i < 64 → k < 16 → let s := tiled 1; let h := cur s; let va := (TDesc.of (flatTile 1)).addr 4 i k
    readsWell s va ∧ ∀ s1, onlySeen s s1 → checkAccess s1 h 0 false { write := true } 4 4 va = (.loc (0x40000 + va.toNat), s1) ∧
      quietPage s h va (0x40000 + va.toNat) := by
  intro i k hi hk
  refine ⟨(witness_TileStores_convert.2 i k hi hk).1, ?_⟩
  rw [flatTile_addr 1 (by decide)]
  have all : ∀ k, k < 16 → let va := (TDesc.of (flatTile 1)).addr 4 0 k
      va.toNat / 65536 = 0 ∧ entryPa plainPage + va.toNat % 2 ^ levelShift 0 = 0x40000 + va.toNat := by decide +kernel
  obtain ⟨a, b⟩ := all k hk
  exact fun s1 h1 => ⟨b ▸ tiled_stores_at s1 h1 k hk, tiled_quiet 1 _ _ a (by omega) (.inl rfl)⟩

/-! ### Engines and results in flight -/

/-- An operation of the loaded group. -/
def op (q : Nat) (ws : List Word) : EngOp :=
  { id := 5, gid := 2, wg := 1, ctx := 1, launch := 1, q := q, words := ws, pc := 0, base := loadWg.scratchBase, scratch := 4096, quad := 0
    core := 0, part := 0, priv := true, rid := 0, count := 0 }
/-- The loaded machine with an operation forked. -/
def forked (o : EngOp) : State :=
  let s := addressed plainPage
  { s with exe := { s.exe with engOps := [(5, o)], nextId := 6 } }
/-- COPY and FILL of 8 bytes within the scratchpad, from offset 64 to offset 4088. -/
def copyOp : EngOp := op 0 [0x10060000, 64, 0, 4088, 0, 8, 0]
/-- FILL with the word 7. -/
def fillOp : EngOp := op 0 [0x20040000, 7, 0, 4088, 0, 8, 0]
theorem witness_EngineSource : let o := op 0 [0x10040000, 128, 0, 4088, 0, 8, 0]; let s := forked o
    getOp s 5 = some o ∧ o.id = 5 ∧ sfind o.fetched (fetchKey false 128) = none ∧ engLook s o false {} 4 128 128 = (.loc 0x40080, s) ∧
      engBlocked s o false 0x40080 = false ∧ settledWord s [agentOf 5 0] 0x40080 ∧ logging s o.ctx = false := by
  unfold settledWord; decide +kernel
/-- A scratchpad word of an operation that an engine will write: no page is noted. -/
def landsInScratch (s : State) (lead va : DWord) (pa : Nat) : Bool :=
  (getOp s 5).any fun o => decide (engLook s o true { write := true } 4 lead va = (.loc pa, s)) && !engBlocked s o true pa && !(s.wg o.wg).any (syncReserved · pa)
theorem witness_CopyAndFill : (let s := forked copyOp; MayMove s 5 copyOp 0 1 ∧ (engRead s 5 true 4 64 64).1 = some (0, none) ∧
      landsInScratch (engRead s 5 true 4 64 64).2 4088 4088 (loadWg.scratchBase + 4088) = true) ∧
    let s := forked fillOp; MayMove s 5 fillOp 0 2 ∧ landsInScratch s 4088 4088 (loadWg.scratchBase + 4088) = true := by
  unfold MayMove; decide +kernel
/-- GATHER and SCATTER of one element: table at address 128, index and packed array in the scratchpad. -/
def gatherOp (cmd : Word) : EngOp := op 2 [cmd <<< 28 ||| 0x00060000#32, 128, 0, 64, 0, 4088, 0, 1, 0]
theorem witness_GatherAndScatter : (let s := forked (gatherOp 1); let s1 := (engRead s 5 true 4 64 64).2
      MayMove s 5 (gatherOp 1) 2 1 ∧ (engRead s 5 true 4 64 64).1 = some (0, none) ∧ (engRead s1 5 false 4 128 128).1 = some (0, none) ∧
        landsInScratch (engRead s1 5 false 4 128 128).2 4088 4088 (loadWg.scratchBase + 4088) = true) ∧
    let s := forked (gatherOp 2); let s1 := (engRead s 5 true 4 64 64).2; let s2 := (engRead s1 5 true 4 4088 4088).2
    MayMove s 5 (gatherOp 2) 2 2 ∧ (engRead s1 5 true 4 4088 4088).1 = some (0, none) ∧
      (getOp s2 5).any (fun o => decide (engLook s2 o false { write := true } 4 128 128 = (.loc 0x40080, s2)) && !engBlocked s2 o false 0x40080 &&
        (noteWrite s2 o.ctx none 128 0x40080).isSome) = true := by unfold MayMove; decide +kernel
/-- REDUCE_INTO: the sum of i32 words of the scratchpad into memory. -/
def reduceOp : EngOp := op 4 [0x10040000, 64, 0, 128, 0, 4, 0]
theorem witness_ReduceInto : let s := forked reduceOp; let s1 := (engRead s 5 true 4 64 64).2
    MayMove s 5 reduceOp 4 1 ∧ ((cw reduceOp.words 0).extractLsb' 14 3).toNat < 3 ∧ ((cw reduceOp.words 0).extractLsb' 12 2).toNat < 3 ∧
      s.ctl.shadow = [] ∧ (engRead s 5 true 4 64 64).1 = some (0, none) ∧
      (getOp s1 5).any (fun o => decide (o.q = 4)) = true ∧ engLook s1 reduceOp false { write := true } 4 128 128 = (.loc 0x40080, s1) ∧
      engBlocked s1 reduceOp false 0x40080 = false ∧
      (noteWrite s1 reduceOp.ctx none 128 0x40080).any (fun s2 => !eccBad s2 0x40080 && !wordPoi s2.mem 0x40080) = true ∧
      regionOf 0x40080 ≠ .host := by unfold MayMove; decide +kernel
/-- A COPY that counts its bytes in the sync word at offset 4080, and one that asks for a result. -/
def countedOp : EngOp := { op 0 [0x10070000, 64, 0, 4088, 0, 8, 4080] with pos := 1, moved := 4 }
theorem witness_EngineArrivals : let o := countedOp; let s := forked o
    getOp s 5 = some o ∧ o.id = 5 ∧ commandSync o.q o.words = some 4080 ∧ o.killed = false ∧ o.moved ≠ o.arrived ∧ (s.wg o.wg).isSome = true ∧
      4080 % 16 = 0 := by decide +kernel
/-- A COPY that has finished, and asks for a result, or failed. -/
def endedOp (failed : Bool) : EngOp :=
  { op 0 [0x10060000 ||| 0x00080000#32, 64, 0, 4088, 0, 8, 0] with pos := 2, moved := 8, arrived := 8, failed := failed }
theorem witness_EngineResults : (let s := forked { copyOp with killed := true }; (getOp s 5).any (·.killed) = true) ∧
    (let o := endedOp false; let s := forked o; getOp s 5 = some o ∧ o.killed = false ∧ o.finished = true ∧ o.res = true ∧ (s.group o.gid).any (fun g => decide
      ((g.queue o.q).results.length < 8 ∧ (g.queue o.q).held = [])) = true) ∧
    let o := { endedOp true with drops := 1 }; let s := (forked o).setMgmt 0x15048 0; getOp s 5 = some o ∧ o.failed = true ∧ copyOp.drops = 0 ∧
      actionOf (removeOp s 5) (droppedElements o) < 3 ∧ actionOf (endDrops (removeOp s 5) o) { cls := 21, src := 7, ctx := some o.ctx, part := some o.part, loc := quadLoc o.quad, info := [o.pc, o.failAddr.setWidth 64] } < 3 := by
  decide +kernel
/-- A word in flight for v6 of thread 127, and a read of a result queue that holds one result. -/
def flying (what : Delivery) : State :=
  let s := load .nop fun g => { g with queues := [(0, { results := [{ tag := 0xAB, failed := false }], held := [{ tag := 1, failed := false }] })] }
  { s with exe := { s.exe with pendings := [(5, { id := 5, gid := 2, t := 127, pc := 0, count := 0, what := what })] } }
theorem witness_ResultsArrive : (let s := flying (.ready [(⟨0, 6, 127⟩, { val := 9 })])
      (getPending s 5).any (fun p => p.id = 5 && (s.group p.gid).isSome && decide (p.what = .ready [(⟨0, 6, 127⟩, { val := 9 })])) = true ∧
        [(⟨0, 6, 127⟩ : Dest)].Nodup ∧ (127 < 128)) ∧
    let s := flying (.result 1 ⟨1, 6, 0⟩ [])
    (s.exe.pendings.find? fun kp => kp.2.gid = 2 && readsQueue kp.2.what 1).map (·.1) = some 5 ∧
      (s.group 2).any (fun g => decide ((g.queue 1).results = [{ tag := 0xAB, failed := false }])) = true ∧ ctxOf s 2 = some 1 ∧
      logging s 1 = false := by decide +kernel

/-! ### Groups -/

/-- Path 0 waits for a replay of its thread, with every service over. -/
def replaying : State := load .nop fun g =>
  { path (fun p => { p with park := .commit }) g with span := { opened := 1, live := 1, start := 4, serving := [(0, { pc := 0, replaying := 1, waiting := 0, recover := 0, target := 0, explicit := false, same := none, services := [] })] } }
theorem witness_ReplayBegins : let s := replaying; ∃ x p, (s.group 2).any (·.live) = true ∧
    ((grp s).span.serving.find? fun y => y.2.services.all fun z => serviceDone s (grp s) z.2) = some (0, x) ∧
      sfind (grp s).paths 0 = some p ∧ x.failed = 0 ∧ farFailed (grp s) x = 0 ∧ x.waiting = 0 ∧ x.recover = 0 ∧ x.same = none ∧ x.replaying ≠ 0 :=
  ⟨{ pc := 0, replaying := 1, waiting := 0, recover := 0, target := 0, explicit := false, same := none, services := [] },
    { pc := 0, mask := 1, mode := 0x0018, park := .commit }, by decide +kernel⟩
theorem witness_GroupLeaves : let s := load .nop fun g => { g with exited := BitVec.allOnes 128, paths := [] }
    s.group 2 = some (grp s) ∧ (s.wg (grp s).wg).isSome = true ∧ (grp s).exited = BitVec.allOnes 128 ∧ producerWaiting s (grp s) = false ∧ (grp s).held = [] := by
  decide +kernel
theorem witness_PauseEnds : let s := load .nop (path fun p => { p with park := .pause 7 })
    s.group 2 = some (grp s) ∧ (sfind (grp s).paths 0).any (fun p => decide (p.park = .pause 7)) = true := by decide +kernel
/-- A threshold of 256 issues that the counter of the group has reached; a lone path at a JOIN for which no other path is left. -/
def stalledGroup : State := ((load .nop fun g => { g with wdog := 0x10000000000 }).setMgmt 0x15034 0).modCtx 1 fun c => { c with wdogCtl := 0x80 }
theorem witness_GroupStalls : let s := stalledGroup; let g := grp s
    s.group 2 = some g ∧ (s.wg g.wg).isSome = true ∧ (s.ctx 1).isSome = true ∧ g.live = true ∧ stalledOut s g = true ∧
      actionOf s (groupEvent s g 13 0 1 [(pathPcs g).getD 0 0, g.wdog.setWidth 64, (pathPcs g).getD 1 0]) < 3 := by decide +kernel
/-- The group waits for a phase of a barrier at which no other group is left to arrive. -/
def deadlocked (d : Bool) : State := ((load .nop fun g =>
  { path (fun p => { p with park := .barWait 3 }) g with bars := [(3, { pending := true })], deadlocked := d }).setMgmt 0x15038 0).modWg 1
    fun w => { w with bars := [(3, { need := some 2, arrived := 1 })] }
theorem witness_GroupDeadlocks : ∀ d : Bool, let s := deadlocked d; let g := grp s
    s.group 2 = some g ∧ (s.wg g.wg).isSome = true ∧ (s.ctx 1).isSome = true ∧ g.live = true ∧
      (s.wg g.wg).any (fun w => (deadlockOf s w g).any fun why => decide (g.deadlocked = d ∧
        actionOf s (groupEvent s g 14 0 1 [(pathPcs g).getD 0 0, why, (pathPcs g).getD 1 0]) < 3)) = true := by decide +kernel
/-- One group of a role, or two, at a REGROUP. -/
def regrouping (two : Bool) : State :=
  let s := load .nop (path fun p => { p with park := .regroup 1 })
  let g := grp s
  let s := s.modWg 1 fun w => { w with ngroups := if two then 2 else 1 }
  { s with exe := { s.exe with groups := if two then [(2, g), (3, { g with id := 3, pos := 1 })] else [(2, g)] } }
theorem witness_RegroupMoves : ∀ two : Bool, let s := regrouping two; let gs := participants s 1 0
    gs.length = (if two then 2 else 1) ∧ regroupReady s gs = true ∧ (∀ g ∈ gs, g.live = true) ∧ (∀ g ∈ gs, s.group g.id = some g) ∧
      (gs.map (·.id)).Nodup := by decide +kernel

/-! ### Worklists -/

/-- Worklist 0 of context 1 with its units, in a package whose quadrants 0 and 1 form partition 0. -/
def units (l : Worklist) : State := ((one .nop).setMgmt 0x100 3).modCtx 1 fun c => { c with lists := [(0, l)] }
/-- A worklist that is open, with an empty unit in which a thread sleeps, and a unit with some entries. -/
def openList (l : List QueuedEntry) : Worklist :=
  { state := 1, bound := 64, spsize := 2, units := [(0, { sleeping := [5] }), (1, { queued := l })] }
/-- An entry in bucket 3. -/
def queuedEntry : QueuedEntry := { age := 0, bin := 0, entry := ⟨3, 0, 8, 0⟩, spilled := false }
theorem witness_SummaryArrives : let s := units (openList [queuedEntry]); let l := getList s 1 0
    l.state = 1 ∧ (sfind l.units 1).isSome = true ∧ (sfind l.units 0).isSome = true ∧ localUnit s 1 = true ∧ localUnit s 0 = true ∧
      due (sfind (l.unit 0).seen 1) (l.summary (l.unit 1)) := ⟨rfl, rfl, rfl, rfl, rfl, .inl ⟨rfl, by decide +kernel⟩⟩
/-- The empty unit knows the summary of the other, as it is or as it was. -/
def knowing (b : Option Nat) (n : Nat) (l : List QueuedEntry) : State :=
  units { openList l with units := [(0, { sleeping := [5], seen := [(1, (b, n))] }), (1, { queued := l })] }
/-- The last summary is like the present one; or its bucket was another; or its count was over the multiple of 64. -/
theorem witness_SummaryArrives_last : (let s := knowing (some 3) 63 [queuedEntry]; let l := getList s 1 0
      ¬due (sfind (l.unit 0).seen 1) (l.summary (l.unit 1)) ∧ sfind (l.unit 0).lowered 1 = l.asks 1) ∧
    (let s := knowing (some 2) 1 [queuedEntry]; let l := getList s 1 0; due (sfind (l.unit 0).seen 1) (l.summary (l.unit 1))) ∧
    let s := knowing (some 3) 64 [queuedEntry]; let l := getList s 1 0; due (sfind (l.unit 0).seen 1) (l.summary (l.unit 1)) := by
  refine ⟨⟨?_, by decide +kernel⟩, .inr ⟨_, rfl, .inl (by decide +kernel)⟩, .inr ⟨_, rfl, .inr (by decide +kernel)⟩⟩
  rintro (⟨h, -⟩ | ⟨y, h, hy⟩)
  · cases h
  · cases h
    revert hy
    decide +kernel
theorem witness_StealAnswered : ∀ l ∈ [[], [queuedEntry]], let s := knowing (some 3) 1 l; let w := getList s 1 0
    w.state = 1 ∧ localUnit s 0 = true ∧ localUnit s 1 = true ∧ (w.unit 0).sleeping ≠ [] ∧ w.canTake (w.unit 0) = false ∧
      nextVictim (w.unit 0) 0 = some 1 ∧ (w.unit 0).stealing = none ∧ (w.unit 0).arriving = [] ∧ stealFrom w (w.unit 1) = l ∧ noneWaits s 1 ∧
      ∀ q ∈ l, (w.place (w.unit 0) (othersAt s w 0) { q with spilled := false }).isSome = true := by unfold noneWaits; decide +kernel
/-- A push that waits for acknowledgements. -/
def urgentPush : WaitingPush :=
  { gid := 2, t := 0, inst := 0, entry := ⟨3, 0, 8, 0⟩, why := 1, acked := [], page := 0, cell := 0, priv := false }
/-- Unit 1 asks units 0 and 2 about an entry in a bucket below its floor. -/
def asking : State :=
  ((one .nop).setMgmt 0x100 7).modCtx 1 fun c => { c with lists := [(0, { state := 1, bound := 64, spsize := 3, units :=
    [(0, {}), (1, { queued := [{ queuedEntry with entry := ⟨900, 0, 8, 0⟩ }], waiting := [urgentPush] }), (2, {})] })] }
theorem witness_FloorAcknowledged : let s := asking; let l := getList s 1 0; let w := urgentPush
    (l.unit 1).asking = some w ∧ localUnit s 0 = true ∧ localUnit s 1 = true ∧ (sfind l.units 0).isSome = true ∧ (sfind l.units 1).isSome = true ∧
      (l.unit 0).taken = [] ∧ w.acked.contains 0 = false ∧ (∀ k ∈ skeys l.units, k ≠ 1 → (l.unit k).asking = none) ∧
      l.urgent 1 (l.bucket w.entry) = true ∧ ∃ k ∈ skeys l.units, k ≠ 0 ∧ w.acked.contains k = false := by decide +kernel
/-- An entry that waits at unit 1 for its cell, which was filled. -/
def woken : ParkedEntry := { cell := 0x40080, entry := ⟨900, 0x20000000, 128, 0⟩, woken := true }
theorem witness_FillWakes : let s := units { openList [queuedEntry] with units := [(0, {}), (1, { parked := [woken] })] }; let l := getList s 1 0
    localUnit s 1 = true ∧ (l.unit 1).parked.filter (·.woken) = [woken] ∧ noneWaits s 1 ∧
      (enqueue (modList s 1 0 fun l => l.modUnit 1 fun x => { x with parked := x.parked.erase woken }) 1 0 1 woken.entry).isSome = true := by
  unfold noneWaits; decide +kernel
theorem witness_WaveEnds : ∀ b : Bool, let w := if b then none else some (0, 0); let s := units { openList [] with armed := true, wave := w }; let l := getList s 1 0
    l.state = 1 ∧ l.armed = true ∧ l.leader.any (localUnit s ·) = true ∧ otherNodes s l = [] ∧ l.remoteSums = [] ∧
      (w = some (localSums s l) ∨ w = none) ∧ (localSums s l).1 = (localSums s l).2 := by decide +kernel

/-! ### Matrix engines and the distributors -/

/-- An operation of one k-step whose operands lie at address 128 with stride 0. -/
def matOp (p : Bool) (ws : List (BitVec 55)) : MatOp :=
  { gid := 2, pc := 0, fmt := 0, scaled := false, block := flatTile 1 ++ flatTile 1, nk := 1, agent := 7, gang := 0, t := 0, started := p, paused := p
    waits := ws }
/-- The operation stands at the head of tile 3. -/
def multiplying (o : MatOp) : State :=
  (addressed plainPage).modWg 1 fun w => { w with tiles := [(3, { full := false, ops := [o] })] }
theorem witness_MatrixEngineSteps : (let s := multiplying (matOp true [])
      ((s.wg 1).any fun w => decide ((sget ({} : Tile) w.tiles 3).ops = [matOp true []])) = true ∧ (matOp true []).paused = true ∧ (matOp true []).waits = []) ∧
    let o := matOp false []; let s := multiplying o
    (s.wg 1).any (fun w => decide ((sget ({} : Tile) w.tiles 3).ops = [o] ∧ w.arrivals = []) && engineFree s w 3 o && !logging s w.ctx) = true ∧ s.ctl.shadow = [] := by
  decide +kernel
/-- Every word of the operation is one of the 64 from address 128 on. -/
theorem matOp_words (va : DWord) (h : va ∈ kstepWords (matOp false []) 0) : ∃ k, k < 64 ∧ va = wordAddr ((TDesc.of (flatTile 1)).addr 4 0 k) := by
  unfold kstepWords kstepElems at h
  rw [List.mem_eraseDups] at h
  have e : ∀ i j, (TDesc.of (matOp false []).block).addr (elemSize (slotElem (matOp false []).fmt)) i j = (TDesc.of (flatTile 1)).addr 4 0 j :=
    fun i j => flatTile_addr 1 (by decide) 4 i j
  have e' : ∀ i j, (TDesc.of ((matOp false []).block.drop 4)).addr (elemSize (slotElem (matOp false []).fmt)) i j = (TDesc.of (flatTile 1)).addr 4 0 j :=
    fun i j => flatTile_addr 1 (by decide) 4 i j
  simp only [e, e', show scaleBases (matOp false []).scaled (matOp false []).fmt (matOp false []).block = [none, none, none, none] from rfl] at h
  obtain ⟨x, hx, rfl⟩ := List.mem_map.mp h
  rcases List.mem_append.mp (List.append_nil _ ▸ List.append_nil _ ▸ List.append_nil _ ▸ List.append_nil _ ▸ hx) with hx | hx <;>
    obtain ⟨a, -, hx⟩ := List.mem_flatMap.mp hx <;> obtain ⟨k, hk, rfl⟩ := List.mem_map.mp hx
  · exact ⟨k, Nat.lt_trans (List.mem_range.mp hk) (by decide), by rw [Nat.mul_zero, Nat.zero_add]⟩
  · exact ⟨k, List.mem_range.mp hk, rfl⟩
/-- The machine in which the operation has started. -/
def started : State :=
  let o := matOp false []; let s := multiplying o
  modTile { s with exe := { s.exe with nextId := s.exe.nextId + 1 } } 1 3 fun y =>
    { y with ops := { o with started := true, turn := s.exe.nextId } :: y.ops.drop 1, done := 0, total := o.nk }
theorem witness_MatrixEngineSteps_words : let o := matOp false []; let s := multiplying o; ∃ w, s.wg 1 = some w ∧
    ∀ va ∈ kstepWords o 0, matLook started w o va = (.loc (0x40000 + va.toNat), started) ∧ inFlight s.mem (0x40000 + va.toNat) = false ∧
      settledWord s [agentOf o.agent 0] (0x40000 + va.toNat) := by
  have all : ∀ k, k < 64 → let o := matOp false []; let s := multiplying o; let va := wordAddr ((TDesc.of (flatTile 1)).addr 4 0 k)
      matLook started { loadWg with tiles := [(3, { full := false, ops := [o] })] } o va = (.loc (0x40000 + va.toNat), started) ∧
        inFlight s.mem (0x40000 + va.toNat) = false ∧ settledWord s [agentOf o.agent 0] (0x40000 + va.toNat) := by
    unfold settledWord; decide +kernel
  refine ⟨{ loadWg with tiles := [(3, { full := false, ops := [matOp false []] })] }, by decide +kernel, fun va h => ?_⟩
  obtain ⟨k, hk, rfl⟩ := matOp_words va h
  exact all k hk

/-- The ring of queue 0 holds a record of one workgroup, or a record of zeros. -/
def ringed (good serial : Bool) : State :=
  let s := (one .nop).setMgmt 0x1008 1
  let at' (off : Nat) (w : Word) (m : MemSys) : MemSys := placeWord m (0x200 + off) w
  let m := at' 0x88 0x101 (at' 0x54 0x22 (at' 0x50 1 (at' 0x4C 0x11 (at' 0x48 1 (at' 0x40 1 (at' 8 1
    (at' 4 (if serial then 0x10 else 0) (at' 0 0x4C520103 s.mem))))))))
  { s with mem := if good then m else s.mem, host := { s.host with tails := [(0, [(1, [])])] } }
theorem witness_RecordRead : ∀ good serial : Bool, let s := ringed good serial
    let at' := 0 + 0x200 + 512 * ((memWord s.mem 0x40).toNat % 1); let rec' := (readRecord s 1 at').1
    regionOf at' ≠ .host ∧ (∀ k, k < 128 → eccBad s (at' + 4 * k) = false) ∧
    ringOf s 0 = (0, 1) ∧ sget [] s.host.tails 0 = [((1 : Word), [])] ∧ (s.ctx 1).any (fun c => !c.killed) = true ∧
      (∀ kl ∈ s.host.launches, kl.2.queue = 0 → kl.2.state ≠ 0) ∧
      recordCheck s rec'.1 (launchOf rec'.1 s.exe.nextId 0 0 []) 1 false rec'.2 = (if good then 0 else 1) ∧
      (good = true → (launchOf rec'.1 s.exe.nextId 0 0 []).serial = serial) ∧ earlierDone s 0 s.exe.nextId = false := by decide +kernel
/-- A second launch that waits for the first, which has ended or has not. -/
def waitingLaunch (done : Bool) : State :=
  let s := one .nop
  { s with host := { s.host with launches := [(1, { loadLaunch with state := if done then 3 else 1 }), (2, { loadLaunch with id := 2, state := 0 })] } }
theorem witness_SerialStart : ∀ done : Bool, let s := waitingLaunch done
    s.launch 2 = some { loadLaunch with id := 2, state := 0 } ∧ earlierDone s 0 2 = done := by decide +kernel
/-- A launch that was rejected, or that runs and has nothing left, with its completion at an address. -/
def ending (drained : Bool) (a : DWord) : State :=
  let s := paged plainPage id
  { s with exe := { s.exe with wgs := [], groups := [] }
           host := { s.host with launches := [(1, { loadLaunch with state := if drained then 1 else 2, cplt := a })] } }
theorem witness_LaunchEnds : ∀ b : Bool, (let s := ending b 0; (s.launch 1).any (fun l => decide (l.cplt = 0 ∧ l.id = 1) &&
      (decide (l.state = 2) || (decide (l.state = 1) && launchDrained s l))) = true) ∧
    let s := ending b 0xFFF8; (s.launch 1).any (fun l => decide (l.cplt ≠ 0 ∧ l.id = 1 ∧
        checkFlat s l.ctx none l.priv { write := true } l.cplt = (.loc 0x4FFF8 false, s)) &&
      (decide (l.state = 2) || (decide (l.state = 1) && launchDrained s l)) && (noteWrite s l.ctx none l.cplt 0x4FFF8).isSome) = true := by
  decide +kernel

/-- The completion of a launch lies in a page that may not be written. -/
theorem witness_LaunchEnds_fails : let s := ending true 8
    let s := s.withMem (placeDWord s.mem 0x30000 0xD8C0000000040001)
    (s.launch 1).any (fun l => decide (l.cplt ≠ 0 ∧ l.id = 1 ∧
      checkFlat s l.ctx none l.priv { write := true } l.cplt = (.fail causeDenied 0, s)) && (decide (l.state = 1) && launchDrained s l)) = true := by
  decide +kernel

/-- The loaded launch with shares of its units. -/
def sharing (l : SMap Share) : State := (one .nop).modLaunch 1 fun x => { x with shares := l }
theorem witness_WorkgroupPlaced : let s := sharing [(0, { ranges := [(0, 1)] })]; ∃ l c, s.launch 1 = some l ∧ l.id = 1 ∧ s.ctx l.ctx = some c ∧
    c.rep.status ≠ 1 ∧ c.rep.interval = false ∧ (∀ kl ∈ s.host.launches, kl.2.before l = true → placeable s kl.2 0 79 = none) ∧
      placeable s l 0 79 = some ((0, 0), {}, [(0, 0)]) ∧ l.gang.length = 1 ∧ threadsPerGroup l ≤ 128 :=
  ⟨{ loadLaunch with shares := [(0, { ranges := [(0, 1)] })] }, { tag := 1, part := 0, root := 0x10000 }, by decide +kernel⟩
/-- The loaded group asks for the next workgroup. -/
def fetching (l : SMap Share) : State :=
  (sharing l).modGroup 2 fun g => { g with fetch := some { mailbox := 4064, order := 8, dst := 2, t := 0, count := 0 } }
theorem witness_FetchAnswered : ∀ b : Bool, let s := fetching (if b then [(0, { ranges := [(0, 1)] })] else []); ∃ l c, s.launch 1 = some l ∧
    (s.group 2).any (fun g => decide (g.id = 2 ∧ g.fetch = some { mailbox := 4064, order := 8, dst := 2, t := 0, count := 0 } ∧ g.wg = 1)) = true ∧
      (s.wg 1).any (fun w => decide (w.launch = 1 ∧ w.ctx = 1 ∧ w.quad = 0)) = true ∧ s.ctx 1 = some c ∧ l.id = 1 ∧ placing s l = true ∧ c.rep.status ≠ 1 ∧
      c.rep.interval = false ∧ 4064 % 32 = 0 ∧
      fetchBehind s (grp s) { mailbox := 4064, order := 8, dst := 2, t := 0, count := 0 } = false ∧
      (s.wg 1).any (fun w => (List.range 8).all fun n => !w.reserves (4064 + 4 * n)) = true ∧ (l.share 0).take (wgsPerUnit l) = (if b then some ((0, 0), {}) else none) ∧ exhausted l = (!b) ∧
      exhaustedFor s l 0 = !b :=
  fun b => ⟨{ loadLaunch with shares := if b then [(0, { ranges := [(0, 1)] })] else [] }, { tag := 1, part := 0, root := 0x10000 },
    by revert b; decide +kernel⟩
/-- Quadrants 0 and 1 in partition 0, with units of the launch in quadrant 1 only. -/
def lopsided (n : Nat) (seen : Nat) : State :=
  ((sharing [(1, { ranges := if n = 0 then [] else [(0, n)] })]).setMgmt 0x100 3).modLaunch 1 fun l => { l with seen := [(0, [(1, seen)])] }
theorem witness_UnitsStolen : (∀ b : Bool, let s := lopsided (if b then 64 else 0) (if b then 0 else 1)
      (s.launch 1).any (fun l => decide (l.state = 1 ∧ (1 ∈ partQuads s 0 ∧ 0 ∈ partQuads s 0) ∧
        sget 0 (sget [] l.seen 0) 1 = (if b then 0 else 1) ∧ (l.share 1).count = if b then 64 else 0)) = true) ∧
    ∀ b : Bool, let s := lopsided (if b then 3 else 0) 3
      (s.launch 1).any (fun l => placing s l && decide (0 ∈ partQuads s 0) && decide ((l.share 0).count = 0 ∧ (l.share 0).waiting = none ∧ victimOf l (distributors s l) 0 = some 1) &&
        wantsWork s l 0 && decide ((l.share 1).count = (if b then 3 else 0) ∧ (l.share 1).nextWg = 0)) = true := by decide +kernel

/-! ### The host -/

/-- Bits of the status word of the package are set. -/
def statusBits (w : Word) (s : State) : State := s.setMgmt 0 w
/-- A line of near memory is in flight. -/
def flightAt (pa : Nat) (s : State) : State := { s with mem := { s.mem with flight := [(lineOf pa, 0)] } }
/-- The ports are up, the host is served, far region 0 belongs to partition 0, whose dump region is the page at 0x40000. -/
def attached : State := (((statusBits 0x70 (one .nop)).setMgmt 0x800 1).setMgmt64 0x150A0 0x40001).setMgmt 0x150A8 1
theorem witness_HostWrites : ∀ port ∈ [0, 1], let s := attached; portReady s port = true ∧
    hostWaits (flightAt 0x20000000000 s) 0x20000000000 2 = true ∧ portReady (flightAt 0x20000000000 s) port = true ∧
      hostWaits s 0x20000000000 2 = false ∧ (∀ k, k < 2 → hostReaches s port (0x20000000000 + k) = true) ∧
      hostReaches s port (0x1FFFFFFFFFF + 0) = false ∧ hostWaits s 0x1FFFFFFFFFF 2 = false := by decide +kernel
theorem witness_HostReads : let s := attached; (∀ k, k < 4 → hostReaches s 0 (0x40000 + k) = true ∧
      settledWord s [voclAgent] ((0x40000 + k) / 4 * 4)) ∧ hostWaits s 0x40000 4 = false ∧ portReady s 0 = true ∧ portReady s 1 = true ∧
    served s = true ∧ inDump s 0x40000 4 = true ∧ hostWaits s (2 ^ 52) 512 = false ∧
    hostReaches s 0 (0x11FFFFFFFF + 1) = false ∧ hostWaits s 0x11FFFFFFFF 2 = false ∧ hostWaits s 0x2000000003F 2 = false ∧
    (∀ k, k < 2 → hostReaches s 1 (0x2000000003F + k) = true) ∧
      ∀ g ∈ (List.range ((0x2000000003F + 2 - 1) / 64 - 0x2000000003F / 64 + 1)).map (fun k => 0x2000000003F / 64 + k), ∀ k, k < 16 →
        settledWord s [cxlAgent 3] (64 * g + 4 * k) := by unfold settledWord; decide +kernel
theorem witness_SnoopTakesHalf : regionOf 0x1000000000040 = .host := by decide +kernel
/-- The firmware serves the host. -/
def serving (s : State) : State := statusBits 0x0030 s
theorem witness_QueueDescriptors : ∀ on : Bool, let s := (serving (one .nop)).setMgmt 0x1008 1; let s := if on then s.setMgmt 0x1000 0x41 else s
    served s = true ∧ (s.mgmt 0x1000).getLsbD 0 = on ∧ descriptorValid s 0 0x41 = true ∧ sget [] s.host.tails 0 = [] ∧
      (memWord s.mem 0 - memWord s.mem 0x40).toNat ≤ 2 ^ 4 := by decide +kernel
theorem witness_PartitionMasks : let s := serving (one .nop); served s = true ∧ maskAllowed s 1 ((1 : Word).setWidth 4) = false ∧
    let s := statusBits 0xFF30 (one .nop); served s = true ∧ maskAllowed s 3 ((14 : Word).setWidth 4) = true := by decide +kernel
/-- A fault that waits for its record, or for its completion; the ring of partition 0 has one place at 0x50000. -/
def faulting (id : Option Word) (o : EngOp) : State :=
  let s := forked o
  let s := ((serving s).setMgmt 0x200 0x50001)
  { s with host := { s.host with faults := [{ id := id, ctx := 1, part := 0, page := 0x10000, agent := 1, write := true, loc := 0 }] } }
theorem witness_FaultsPosted : let s := faulting none copyOp; let d := s.mgmt64 0x200
    s.host.faults[0]? = some { id := none, ctx := 1, part := 0, page := 0x10000, agent := 1, write := true, loc := 0 } ∧ d.getLsbD 0 = true ∧
      (s.mgmt 0x20C - s.mgmt 0x208).toNat < 2 ^ (d.extractLsb' 4 4).toNat ∧ ∀ g ∈ s.host.faults, g.part = 0 → g.id ≠ some (s.mgmt 0x20C) := by
  decide +kernel
theorem witness_FaultsCompleted : let o := { copyOp with waits := [0x10000] }; let s := faulting (some 0) o
    served s = true ∧ (s.host.faults.find? fun g => g.part = 0 && g.id = some 0).isSome = true ∧ (∀ g ∈ groupsAnywhere s 1, g.span.serving = []) ∧
      ((s.ctx 1).map (pagePushes · 0x10000)).getD [] = [] ∧ (∀ ko ∈ s.exe.engOps, ko.2.id = ko.1) ∧ (skeys s.exe.engOps).Nodup ∧
      actionOf s { cls := 12, src := 7, ctx := some 1, part := some 0, info := [0, causeNotPresent.setWidth 64 <<< 16] } < 3 ∧
      (getOp s 5).any (fun o => decide (o.ctx = 1) && o.waits.contains 0x10000) = true := by decide +kernel

/-! ### A firmware image that verifies -/

theorem shaRound_length (v : List Word) (x : Word × Word) (h : v.length = 8) : (shaRound v x).length = 8 := by
  unfold shaRound; split
  · rfl
  · exact h
theorem shaRounds_length (l : List (Word × Word)) (v : List Word) (h : v.length = 8) : (l.foldl shaRound v).length = 8 := by
  induction l generalizing v with
  | nil => exact h
  | cons x l ih => exact ih _ (shaRound_length v x h)
theorem shaBlocks_length (n : Nat) (v : List Word) (l : List Byte) (h : v.length = 8) : (shaBlocks n v l).length = 8 := by
  induction n generalizing v l with
  | zero => exact h
  | succ n ih => exact ih _ _ (by simp only [shaBlock, List.length_map, List.length_zip, h, shaRounds_length _ v h, Nat.min_self])
/-- A digest has 32 bytes. -/
theorem sha256_length (l : List Byte) : (sha256 l).length = 32 := by
  have all : ∀ w : List Word, w.length = 8 → (w.flatMap fun w => beBytes 4 w.toNat).length = 32
    | [_, _, _, _, _, _, _, _], _ => rfl
  exact all _ (shaBlocks_length _ _ _ rfl)
/-- A chain goes on from where an earlier part of it ended. -/
theorem otsChain_append (id : List Byte) (q i m n j : Nat) (x : List Byte) :
    otsChain id q i (j + m) n (otsChain id q i j m x) = otsChain id q i j (m + n) x := by
  induction m generalizing j x with
  | zero => simp [otsChain]
  | succ m ih => rw [otsChain, show m + 1 + n = (m + n) + 1 by omega, otsChain, ← ih]; congr 1; omega
theorem otsChain_length (id : List Byte) (q i j n : Nat) (x : List Byte) (h : x.length = 32) : (otsChain id q i j n x).length = 32 := by
  induction n generalizing j x with
  | zero => exact h
  | succ n ih => exact ih _ _ (sha256_length _)
/-- The k-th of joined blocks of 32 bytes. -/
theorem block_of_flatMap (f : Nat → List Byte) (hf : ∀ i, (f i).length = 32) (n m k : Nat) (h : k < n) :
    (((List.range' m n).flatMap f).drop (32 * k)).take 32 = f (m + k) := by
  induction n generalizing m k with
  | zero => omega
  | succ n ih =>
    rw [List.range'_succ, List.flatMap_cons]
    cases k with
    | zero => rw [Nat.mul_zero, List.drop_zero, List.take_left' (hf m)]; rfl
    | succ k =>
      rw [show 32 * (k + 1) = (f m).length + 32 * k by rw [hf]; omega, List.drop_append, List.drop_of_length_le (by rw [hf]; omega), List.nil_append,
        show (f m).length + 32 * k - (f m).length = 32 * k by omega, ih (m + 1) k (by omega)]
      congr 1; omega

/-- n zero bytes. -/
def zeros (n : Nat) : List Byte := List.replicate n 0
/-- A key pair of which every secret is zero: the ends of its chains, and the public key. -/
def chainEnds : List Byte := (List.range 34).flatMap fun i => otsChain (zeros 16) 0 i 0 255 (zeros 32)
/-- Its root over a path of zeros. -/
def rootKey : List Byte := lmsRoot (zeros 16) 10 1024
  (sha256 (zeros 16 ++ beBytes 4 1024 ++ [0x82, 0x82] ++ sha256 (zeros 16 ++ beBytes 4 0 ++ [0x80, 0x80] ++ chainEnds))) (zeros 320)
/-- The public key of 56 bytes. -/
def publicKey : List Byte := [0, 0, 0, 6, 0, 0, 0, 4] ++ (zeros 16 ++ rootKey)
/-- The digits that a signature of a message stands for. -/
def digitsOf (msg : List Byte) : List Byte :=
  let h := sha256 (zeros 16 ++ beBytes 4 0 ++ [0x81, 0x81] ++ zeros 32 ++ msg)
  h ++ beBytes 2 (h.foldl (fun n b => n + (255 - b.toNat)) 0)
/-- The chain values of the signature of a message. -/
def chainsOf (msg : List Byte) : List Byte :=
  (List.range 34).flatMap fun i => otsChain (zeros 16) 0 i 0 ((digitsOf msg).getD i 0).toNat (zeros 32)
/-- The signature of a message with leaf 0. -/
def signature (msg : List Byte) : List Byte := [0, 0, 0, 0, 0, 0, 0, 4] ++ (zeros 32 ++ (chainsOf msg ++ ([0, 0, 0, 6] ++ zeros 320)))
theorem flatMap_length (f : Nat → List Byte) (hf : ∀ i, (f i).length = 32) (l : List Nat) : (l.flatMap f).length = 32 * l.length := by
  induction l with
  | nil => rfl
  | cons x l ih => rw [List.flatMap_cons, List.length_append, hf, ih, List.length_cons]; omega
theorem chainsOf_length (msg : List Byte) : (chainsOf msg).length = 1088 :=
  flatMap_length _ (fun _ => otsChain_length _ _ _ _ _ _ rfl) _
/-- The signature gives the one-time public key of the pair. -/
theorem otsKey_signature (msg : List Byte) : otsKey (zeros 16) 0 (zeros 32) (chainsOf msg) msg =
    sha256 (zeros 16 ++ beBytes 4 0 ++ [0x80, 0x80] ++ chainEnds) := by
  refine congrArg (fun e => sha256 (zeros 16 ++ beBytes 4 0 ++ [0x80, 0x80] ++ e)) ?_
  show (List.range 34).flatMap (fun i => otsChain (zeros 16) 0 i ((digitsOf msg).getD i 0).toNat (255 - ((digitsOf msg).getD i 0).toNat)
    (((chainsOf msg).drop (32 * i)).take 32)) = _
  rw [chainEnds, List.flatMap_def, List.flatMap_def]
  refine congrArg List.flatten (List.map_congr_left fun i hi => ?_)
  have hi : i < 34 := List.mem_range.mp hi
  rw [chainsOf, List.range_eq_range', block_of_flatMap _ (fun i => otsChain_length _ _ _ _ _ _ rfl) 34 0 i hi, Nat.zero_add]
  have h := otsChain_append (zeros 16) 0 i ((digitsOf msg).getD i 0).toNat (255 - ((digitsOf msg).getD i 0).toNat) 0 (zeros 32)
  rw [Nat.zero_add] at h
  rw [h]
  congr 1
  have := ((digitsOf msg).getD i 0).isLt
  omega
theorem drop_key (r : List Byte) : (([0, 0, 0, 6, 0, 0, 0, 4] ++ (zeros 16 ++ r)).drop 8).take 16 = zeros 16 ∧
    ([0, 0, 0, 6, 0, 0, 0, 4] ++ (zeros 16 ++ r)).drop 24 = r ∧ ([0, 0, 0, 6, 0, 0, 0, 4] ++ (zeros 16 ++ r)).take 8 = [0, 0, 0, 6, 0, 0, 0, 4] :=
  ⟨rfl, rfl, rfl⟩
theorem drop_signature (c : List Byte) : let l := [0, 0, 0, 0, 0, 0, 0, 4] ++ (zeros 32 ++ c)
    beNat (l.take 4) = 0 ∧ (l.drop 4).take 4 = [0, 0, 0, 4] ∧ (l.drop 8).take 32 = zeros 32 ∧ l.drop 40 = c := ⟨rfl, rfl, rfl, rfl⟩
/-- The signature verifies. -/
theorem lmsVerify_signature (msg : List Byte) : lmsVerify publicKey msg (signature msg) = true := by
  obtain ⟨k1, k2, k3⟩ := drop_key rootKey
  obtain ⟨s1, s2, s3, h40⟩ := drop_signature (chainsOf msg ++ ([0, 0, 0, 6] ++ zeros 320))
  rw [show [0, 0, 0, 6, 0, 0, 0, 4] ++ (zeros 16 ++ rootKey) = publicKey from rfl] at k1 k2 k3
  rw [show [0, 0, 0, 0, 0, 0, 0, 4] ++ (zeros 32 ++ (chainsOf msg ++ ([0, 0, 0, 6] ++ zeros 320))) = signature msg from rfl] at s1 s2 s3 h40
  have hc : ((signature msg).drop 40).take 1088 = chainsOf msg := by rw [h40, List.take_left' (chainsOf_length msg)]
  have hd : (signature msg).drop 1128 = [0, 0, 0, 6] ++ zeros 320 := by
    rw [show 1128 = 40 + 1088 from rfl, ← List.drop_drop, h40, List.drop_left' (chainsOf_length msg)]
  have he : (signature msg).drop 1132 = zeros 320 := by
    rw [show 1132 = 1128 + 4 from rfl, ← List.drop_drop, hd]; rfl
  unfold lmsVerify
  simp only [hc, hd, he, k1, k2, k3, s1, s2, s3, otsKey_signature]
  exact (Bool.and_eq_true _ _).mpr ⟨rfl, decide_eq_true rfl⟩
theorem lmsRoot_length (id : List Byte) (n node : Nat) (x path : List Byte) (h : x.length = 32) : (lmsRoot id n node x path).length = 32 := by
  induction n generalizing node x path with
  | zero => exact h
  | succ n ih => exact ih _ _ _ (sha256_length _)
/-- The bytes of a part of an image. -/
theorem imageBytes_part (a b c : List Byte) (off n : Nat) (ha : a.length = off) (hb : b.length = n) : imageBytes (a ++ (b ++ c)) off n = b := by
  rw [imageBytes, padTo, List.drop_left' ha, List.append_assoc, List.take_left' hb]
/-- The header of an image with security version 0 under the hash of the maker, and the image; its body is the byte 1. -/
def header : List Byte := [0x31, 0x57, 0x46, 0x56, 1, 0, 0, 0, 0, 1, 0, 0] ++ (publicKey ++ (sha256 [1] ++ zeros 156))
/-- The image. -/
def goodImage : List Byte := header ++ (signature header ++ (zeros 340 ++ [1]))
theorem publicKey_length : publicKey.length = 56 := by
  rw [publicKey, List.length_append, List.length_append, rootKey, lmsRoot_length _ _ _ _ _ (sha256_length _)]; rfl
theorem header_length : header.length = 256 := by
  rw [header, List.length_append, List.length_append, List.length_append, publicKey_length, sha256_length]; simp only [zeros, List.length_replicate, List.length_cons, List.length_nil]
theorem signature_length (msg : List Byte) : (signature msg).length = 1452 := by
  rw [signature, List.length_append, List.length_append, List.length_append, chainsOf_length]; simp only [zeros, List.length_append, List.length_replicate, List.length_cons, List.length_nil]
/-- The image verifies. -/
theorem imageFail_good (f : Firmware) (h : f.verjorHash = sha256 publicKey) (h0 : f.minsvn = 0) : imageFail f goodImage = 0 := by
  have e : goodImage = [0x31, 0x57, 0x46, 0x56, 1, 0, 0, 0, 0, 1, 0, 0] ++ (publicKey ++ (sha256 [1] ++ (zeros 156 ++
      (signature header ++ (zeros 340 ++ [1]))))) := by simp only [goodImage, header, List.append_assoc]
  have w0 : wordAt goodImage 0 = 0x56465731 := by rw [e]; rfl
  have w4 : wordAt goodImage 4 = 1 := by rw [e]; rfl
  have w8 : wordAt goodImage 8 = 0x100 := by rw [e]; rfl
  have key : imageBytes goodImage 0x0C 56 = publicKey := by rw [e]; exact imageBytes_part _ _ _ _ _ rfl publicKey_length
  have dig : imageBytes goodImage 0x44 32 = sha256 [1] := by
    rw [e, ← List.append_assoc]
    exact imageBytes_part _ _ _ _ _ (by rw [List.length_append, publicKey_length]; rfl) (sha256_length _)
  have rest : imageBytes goodImage 0x64 156 = zeros 156 := by
    rw [e, ← List.append_assoc, ← List.append_assoc]
    exact imageBytes_part _ _ _ _ _ (by rw [List.length_append, List.length_append, publicKey_length, sha256_length]; rfl) rfl
  have head : imageBytes goodImage 0 256 = header := imageBytes_part [] _ _ _ _ rfl header_length
  have sig : imageBytes goodImage 0x100 1452 = signature header := imageBytes_part _ _ _ _ _ header_length (signature_length _)
  have body : imageBody goodImage = [1] := by
    rw [imageBody, w4, goodImage, ← List.append_assoc, ← List.append_assoc]
    rw [← List.append_nil [1]]
    exact imageBytes_part _ [1] [] _ _ (by rw [List.length_append, List.length_append, header_length, signature_length]; simp only [zeros, List.length_replicate]) rfl
  have len : goodImage.length = 0x801 := by
    rw [goodImage, List.length_append, List.length_append, List.length_append, header_length, signature_length]; simp only [zeros, List.length_replicate, List.length_cons, List.length_nil]
  have hd : imageHeadOk goodImage = true := by
    simp only [imageHeadOk, w0, w4, rest, imageKey, w8]; decide
  have fh : fusedHash f goodImage = some (sha256 publicKey) := by
    simp only [fusedHash, imageKey, w8, h]; rfl
  simp only [imageFail, hd, key, fh, head, sig, lmsVerify_signature, body, dig, h0, len, w4, ne_eq, not_true_eq_false, if_false, Bool.not_true,
    Bool.false_eq_true, Nat.not_lt_zero]
  rfl

theorem imageSvn_good : (imageSvn goodImage).toNat = 0 := by
  have e : wordAt goodImage 8 = 0x100 := by simp only [goodImage, header, List.append_assoc]; rfl
  rw [imageSvn, e]; rfl
/-- The firmware store of a package whose maker's hash is that of the key, with the image in a place. -/
def fused (f : Firmware) : Firmware := { f with verjorHash := sha256 publicKey }
theorem fused_hash (f : Firmware) : (fused f).verjorHash = sha256 publicKey := by rw [fused]
/-- The package serves channel 2. -/
def channelTwo (f : Firmware) : State := { statusBits 0x30 (one .nop) with host := { (statusBits 0x30 (one .nop)).host with fw := f } }
theorem witness_PackageReset : imageFail (fused { active := goodImage }) (fused { active := goodImage }).active = 0 ∧
    imageFail (fused { recovery := goodImage }) (fused { recovery := goodImage }).recovery = 0 ∧
      imageFail (fused { recovery := goodImage }) [] = 1 := ⟨imageFail_good _ (fused_hash _) rfl, imageFail_good _ (fused_hash _) rfl, by decide +kernel⟩
theorem witness_FirmwareCommands : let f := fused { staging := goodImage, running := goodImage }; let s := channelTwo f
    ready s 4 = true ∧ served s = true ∧ imageFail s.host.fw s.host.fw.staging = 0 ∧ (imageSvn s.host.fw.running).toNat = 0 ∧
      s.host.fw.minsvn = 0 ∧ s.host.fw.opHash = none ∧ (∀ n : Nat, n = 0 → s.host.fw.minsvn ≤ n ∧ n ≤ (imageSvn s.host.fw.running).toNat) :=
  ⟨by decide +kernel, by decide +kernel, imageFail_good (fused { staging := goodImage, running := goodImage }) (fused_hash _) rfl, imageSvn_good, rfl, rfl,
    fun n h => ⟨Nat.zero_le _, by omega⟩⟩
theorem witness_FirmwareCommands_failures : imageFail { minsvn := 5 } [] ≠ 0 ∧
    (let s := channelTwo { opHash := some [] }; ready s 4 = true ∧ served s = true ∧ s.host.fw.opHash.isSome = true) ∧
    (let s := one .nop; ready s 4 = false) ∧ let s := statusBits 0x10 (one .nop); ready s 4 = true ∧ served s = false := by decide +kernel
theorem witness_ImageFromRam : let s := channelTwo (fused { romWaiting := true }); ready s 4 = true ∧ s.host.fw.romWaiting = true ∧
    imageFail s.host.fw goodImage = 0 := ⟨by decide +kernel, rfl, imageFail_good (fused { romWaiting := true }) (fused_hash _) rfl⟩
theorem witness_ImageFromRam_failures : (let s := channelTwo {}; ready s 4 = true ∧ s.host.fw.romWaiting = false) ∧
    let s := channelTwo { romWaiting := true }; ready s 4 = true ∧ s.host.fw.romWaiting = true ∧ imageFail s.host.fw [1] ≠ 0 := by decide +kernel
theorem witness_Attestation : ∀ b : Bool, let s := (channelTwo {}).setMgmt 0x18 (if b then 1 else 0)
    ready s 4 = true ∧ served s = true ∧ ((s.mgmt 0x18).extractLsb' 0 21 = 0 ↔ b = false) := by decide +kernel

/-! ### Contexts -/

theorem witness_ContextCreated : let s := statusBits 0xFF30 (one .nop); served s = true ∧ s.host.replies = [] ∧ partMask s 0 ≠ 0 ∧ partitionReady s 0 = true ∧ s.host.ctxs.length < 64 ∧
    s.ctx 255 = none ∧ (s.ctx 1).isSome = true := by decide +kernel
theorem witness_ContextDestroyed : let s := serving (one .nop); served s = true ∧ s.host.replies = [] ∧ s.ctx 2 = none ∧ (s.ctx 1).isSome = true ∧
    let s := s.modLaunch 1 fun l => { l with state := 3 }
    served s = true ∧ (s.ctx 1).isSome = true ∧ ∀ kl ∈ s.host.launches, kl.2.ctx = 1 → kl.2.state = 0 ∨ kl.2.state = 3 := by decide +kernel
/-- A load from address 65535 is in flight. -/
def loading : State := let s := serving (one .nop)
  { s with exe := { s.exe with pendings := [(5, { id := 5, gid := 2, t := 0, pc := 0, count := 0, what := .access (.load .raw false [] []) 65535 0x4FFFF 1 [] })] } }
theorem witness_TranslationsInvalidated : let s := loading; served s = true ∧ s.host.replies = [] ∧ (s.ctx 1).isSome = true ∧ accessWaits s 1 0 1 = true ∧
    accessWaits s 1 65536 1 = false ∧ s.ctx 2 = none ∧ ∀ g ∈ groupsAnywhere s 1, g.quar = [] := by decide +kernel
/-- A save area of n slots at 0x60000. -/
def slots (n : Word) (s : State) : State := (serving s).setMgmt 0x4028 (0x60000 ||| n)
theorem witness_PreemptStops : (let s := slots 0 (one .nop); served s = true ∧ s.host.replies = [] ∧ (s.ctx 1).isSome = true ∧
      (s.ctx 1).all (fun c => decide (freeSlots s c < (residentWgs s 1).length)) = true) ∧
    (let s := slots 1 (one .nop); served s = true ∧ s.host.replies = [] ∧ (s.ctx 1).any (fun c => decide ((residentWgs s 1).length ≤ freeSlots s c ∧ c.killed = false)) = true ∧
      (s.group 2).any (fun g => decide (g.id = 2) && (s.wg g.wg).any (·.ctx = 1)) = true ∧ residentWgs s 1 ≠ []) ∧
    let s := slots 0 { one .nop with exe := {} }; served s = true ∧ s.host.replies = [] ∧ residentWgs s 1 = [] ∧ (s.ctx 1).any (fun c => decide (freeSlots s c = 0 ∧ c.killed = false)) = true := by
  decide +kernel
/-- The context stops for a pre-emption, whose reply and that of a later command wait; the workgroup is its only one, or there is a
second. -/
def saving (two : Bool) : State :=
  let s := (slots 2 (one .nop)).modCtx 1 fun c => { c with stopping := true }
  { s with exe := { s.exe with wgs := if two then [(1, loadWg), (3, { loadWg with id := 3 })] else [(1, loadWg)] }
           host := { s.host with replies := [(1, none), (0, some 1)] } }
theorem witness_WorkgroupSaved : ∀ two : Bool, let s := saving two; s.wg 1 = some loadWg ∧ s.host.replies = [(loadWg.ctx, none), (0, some 1)] ∧
    (s.ctx loadWg.ctx).any (fun c => decide (c.stopping = true ∧ c.killed = false ∧ freeSlot s c = some 0)) = true ∧
      drained s (((s.exe.groups.map (·.2)).filter (·.wg = 1)).map (·.id)) = true ∧
      (if two then ∃ kw ∈ s.exe.wgs, kw.1 ≠ 1 ∧ kw.2.ctx = loadWg.ctx else ∀ kw ∈ s.exe.wgs, kw.1 ≠ 1 → kw.2.ctx ≠ loadWg.ctx) := by decide +kernel
theorem witness_WorkgroupMoves : let s := load .nop fun g => { g with mon := { armed := true } }; let w := loadWg
    let gs := sortBy (fun a b => a.pos ≤ b.pos) ((s.exe.groups.map (·.2)).filter (·.wg = 1))
    let recs := (sget ({} : Side) s.exe.sides w.coreNo).recs.filter fun kr => (gs.map (·.id)).contains kr.2.1
    s.wg 1 = some w ∧ (s.ctx w.ctx).any (fun c => decide (c.killed = false ∧ c.stopping = false) && (partQuads s c.part).contains 0) = true ∧ drained s (gs.map (·.id)) = true ∧
      takesWg s w gs recs.length 0 79 = some [(0, 0)] ∧ (gs.map (·.id)).Nodup ∧ ∀ g ∈ gs, s.group g.id = some g := by decide +kernel
/-- The image of the loaded workgroup, with accumulator tiles. -/
def saved (tiles : Nat) : Image := { serial := 7, wg := { loadWg with ntiles := tiles }, groups := [loadGroup], records := [], origin := 0 }
/-- The context has one saved workgroup, or none, and nothing resident. -/
def away (imgs : List (Nat × Nat)) (i : Image) : State :=
  let s := (slots 1 { one .nop with exe := { nextId := 9 } }).modCtx 1 fun c => { c with images := imgs, preempted := true }
  { s with host := { s.host with images := [i] } }
theorem witness_ContextResumes : (let s := away [] (saved 8); served s = true ∧ s.host.replies = [] ∧ (s.ctx 1).any (fun c => decide (c.tag = 1 ∧ c.images = [])) = true) ∧
    let s := away [(0, 7)] (saved 8); let i := saved 8
    served s = true ∧ s.host.replies = [] ∧ (s.ctx 1).any (fun c => decide (c.tag = 1 ∧ c.images = [(0, i.serial)])) = true ∧
      s.host.images.find? (·.serial = i.serial) = some i ∧ coreFor s i.wg i.groups i.records.length = some (0, 0, [(0, 0)]) ∧ (i.groups.map (·.id)).Nodup ∧
      slotBase s 1 0 = 0x60000 ∧ (fetchSlot s (slotBase s 1 0) i).ctx 1 = s.ctx 1 := by
  decide +kernel

/-! ### Chords -/

/-- Chord 63 of two ports, whose ports may train. -/
def chord (ch : Chord) : State :=
  let s := ((statusBits 0x10030 (one .nop)).setMgmt 0x107E4 0x40000040)
  { s with host := { s.host with chords := [(63, ch)] } }
theorem witness_ChordsTrain : (let s := chord {}; served s = true ∧ (getChord s 63).state = 0 ∧ mayTrain s 63 = true ∧ (getChord s 63).requests = [] ∧
      (0x80000000 : Word).getLsbD 31 = true ∧ (0 : Word).getLsbD 31 = false) ∧
    (∀ n ∈ [1, 2], ∀ bad ∈ [(1 : BitVec 4), 3], let s := chord { state := 1, failed := n, bad := bad }
      served s = true ∧ (getChord s 63).state = 1 ∧ (getChord s 63).failed = n ∧ (getChord s 63).requests = [] ∧
        (survivors ((portCount s 63).getD 0) (getChord s 63).bad = 0 ↔ bad = 3)) ∧
    (let s := chord { state := 2, live := 2, lanes := 4 }; served s = true ∧ (getChord s 63).state ≠ 0 ∧ (getChord s 63).live.getLsbD (3 / 4) = false) ∧
    ∀ n ∈ [1, 2], let s := chord { state := n, live := 3, lanes := 8 }; served s = true ∧ (getChord s 63).state ≠ 0 ∧ (getChord s 63).live.getLsbD (7 / 4) = true ∧
      survivors ((portCount s 63).getD 0) ((getChord s 63).bad ||| (1#4 <<< (7 / 4))) ≠ 0 := by decide +kernel
/-- A flit of a type with a number that carries no packet. -/
def flit (type : BitVec 2) (n : BitVec 12) : List Byte := flitBytes { type := type, go := 0xF, av := true, ackseq := 3, seq := n, pmask := 0 } [0]
theorem wordAt_last (l : List Byte) (w : Word) (n : Nat) (h : l.length = n) : wordAt (l ++ bytesOfWord w) n = w := by
  subst h
  have e : bytesOfWord w = [w.extractLsb' 0 8, w.extractLsb' 8 8, w.extractLsb' 16 8, w.extractLsb' 24 8] := rfl
  simp only [wordAt, List.getD_eq_getElem?_getD, List.getElem?_append_right (Nat.le_refl _), List.getElem?_append_right (Nat.le_add_right _ _), Nat.sub_self, Nat.add_sub_cancel_left, e]
  exact wordOfBytes_bytesOfWord w
theorem flitGood_flitBytes (h : FlitHead) (p : List Word) (t : (flitHead (flitBytes h p)).type ≠ 3) : flitGood (flitBytes h p) = true := by
  have hl : (headBytes h ++ padTo 240 (p.flatMap bytesOfWord)).length = 252 := by
    rw [List.length_append, padTo, List.length_take, List.length_append, List.length_replicate, show (headBytes h).length = 12 from rfl]; omega
  unfold flitGood
  rw [decide_eq_true t]
  unfold flitBytes
  simp only [List.take_left' hl, wordAt_last _ _ _ hl, List.length_append, hl]
  rfl
theorem flit_good (type : BitVec 2) (n : BitVec 12) (s : State) (h2 : (getChord s 63).state = 2) (h3 : type ≠ 3) (ht : (flitHead (flit type n)).type = type) :
    GoodFlit s 63 (flit type n) type := ⟨h2, flitGood_flitBytes _ _ (by rw [show flitBytes _ _ = flit type n from rfl, ht]; exact h3), ht⟩
theorem witness_DataFlits : let s := chord { state := 2, expected := 4095 }
    GoodFlit s 63 (flit 0 4095) 0 ∧ (flitHead (flit 0 4095)).seq = (getChord s 63).expected ∧
      (getChord s 63).filled (flitChannel (getChord s 63) (flit 0 4095)) < 256 ∧ (getChord s 63).rx = [] ∧
      (wordAt (flit 0 4095) 12).extractLsb' 28 4 = 0 ∧ GoodFlit s 63 (flit 0 0) 0 ∧ (flitHead (flit 0 0)).seq ≠ (getChord s 63).expected ∧
      (flitHead (flit 0 0)).seq - (getChord s 63).expected < 2048 ∧ flitGood [0] = false :=
  ⟨flit_good _ _ _ (by decide +kernel) (by decide) (by decide +kernel), by decide +kernel, by decide +kernel, by decide +kernel, by decide +kernel,
    flit_good _ _ _ (by decide +kernel) (by decide) (by decide +kernel), by decide +kernel, by decide +kernel, by decide +kernel⟩
/-- The receive buffer of the flit's channel is full. -/
theorem witness_DataFlits_full : let s := chord { state := 2, expected := 4095, held := List.replicate 256 ⟨0, [], false⟩ }
    GoodFlit s 63 (flit 0 4095) 0 ∧ (flitHead (flit 0 4095)).seq = (getChord s 63).expected ∧
      256 ≤ (getChord s 63).filled (flitChannel (getChord s 63) (flit 0 4095)) :=
  ⟨flit_good _ _ _ (by decide +kernel) (by decide) (by decide +kernel), by decide +kernel, by decide +kernel⟩
theorem witness_AcknowledgementsAndReplays : let s := chord { state := 2, expected := 5, unacked := [(3, [1]), (4, [2])] }
    (GoodFlit s 63 (flit 0 4) 0 ∧ 2048 ≤ (flitHead (flit 0 4)).seq - (getChord s 63).expected) ∧ GoodFlit s 63 (flit 1 0) 1 ∧ (getChord s 63).tx = [] ∧ GoodFlit s 63 (flit 2 0) 2 ∧ (getChord s 63).state = 2 ∧ (getChord s 63).asked = false ∧
      (getChord s 63).unacked ≠ [] ∧ let s := chord { state := 2, asked := true }
      (getChord s 63).state = 2 ∧ (getChord s 63).asked = true ∧ (getChord s 63).unacked = [] :=
  ⟨⟨flit_good _ _ _ (by decide +kernel) (by decide) (by decide +kernel), by decide +kernel⟩, flit_good _ _ _ (by decide +kernel) (by decide) (by decide +kernel), by decide +kernel,
    flit_good _ _ _ (by decide +kernel) (by decide) (by decide +kernel), by decide +kernel⟩
/-- A packet of an operation about the 8 bytes at 0x40080, for an atomic with its two data words. -/
def packet (op : BitVec 4) (pa : BitVec 52) : Packet :=
  { op := op, vc := if op.toNat < 4 then 0 else 1, pext := false, status := 0, len := 8, tag := 0, src := 5, dst := 0, ctxtag := 1, aop := if op = 3 then 0x79 else 0
    aflags := if op = 3 then 1 else 0, pa := pa, org0 := 0, org1 := 0, data := List.replicate 8 0, marks := [false, false] }
/-- The first inbound entry admits node 5 to 0x40000 to 0x4FFFF. -/
def inbound : State := ((one .nop).setMgmt 0x13000 0x41005).setMgmt 0x13008 0x50000
theorem witness_RequestsPerformed_refused : let s := inbound; (∀ op ∈ [1, 2], let p := packet op 0x3FFFF
      p.vc ≠ 3 ∧ (∀ x ∈ (getChord s 0).inq, x.vc ≠ p.vc) ∧ inboundStatus s p p.len.toNat ≠ 0 ∧ p.op = op ∧ moreFollow p = false) := by decide +kernel
theorem witness_RequestsPerformed : let s := inbound; (∀ op ∈ [1, 2, 3], let p := packet op 0x4FFF8
      Admitted s 0 p 8 ∧ p.op = op ∧ moreFollow p = false ∧ p.data.length = 8 ∧ (∀ m ∈ p.marks, m = false)) ∧ s.ctl.shadow = [] ∧
    (∀ j, j < 2 → settledWord s [remoteAgent] (0x4FFF8 / 4 * 4 + 4 * j)) ∧ (let p := packet 3 0x4FFF8
      p.aflags.getLsbD 0 = true ∧ p.aop.toNat = 0x70 + 9 ∧ p.status.getLsbD 0 = false) ∧
    ∀ j, j < 2 → eccBad s (0x4FFF8 + 4 * j) = false ∧ wordPoi s.mem (0x4FFF8 + 4 * j) = false ∧ regionOf (0x4FFF8 + 4 * j) ≠ .host := by
  unfold Admitted settledWord; decide +kernel
/-- A request of an operation is outstanding on chord 63 for a result in flight, or for an engine operation. -/
def requested (op : BitVec 4) (what : Delivery) (engine : Bool) : State :=
  let s := chord { state := 2, requests := [{ tag := 0, op := op, pendings := if engine then [] else [5], engine := if engine then some 5 else none, lo := 0, len := 8, place := 0x40080 }] }
  { s with exe := { s.exe with pendings := if engine then [] else [(5, { id := 5, gid := 2, t := 0, pc := 0, count := 0, what := what })]
                               engOps := if engine then [(5, countedOp)] else [] } }
/-- An effect of a kind. -/
def effOf (kind : EffKind) : Eff := { kind := kind, t := 0, gid := 2, ctx := 1, part := 0, core := 0, ags := [], pc := 0 }
/-- Requests and responses of a load, of a load of one byte, an acquire, a fetch, an atomic, a look at a cell and a store. -/
def answers : List (BitVec 4 × BitVec 4 × Delivery) :=
  [(1, 4, .remote (.load .raw false [] []) 128 63 0 [⟨0, 6, 0⟩, ⟨0, 7, 0⟩]), (1, 4, .remote (.load .i8int false [] []) 131 63 0 [⟨0, 6, 0⟩]),
    (1, 4, .remote (.acquire []) 128 63 0 []), (1, 4, .remote .code 128 63 0 []),
    (3, 6, .remote (.atomicRet (effOf (.atomic 0 true false))) 128 63 0 [⟨0, 6, 0⟩, ⟨0, 7, 0⟩]), (3, 6, .remote .poll 128 63 0 []),
    (2, 5, .remote (.eff (effOf .store)) 128 63 0 [])]
/-- The response to one of them: the data of a byte come in their word, those of a fetch in their line. -/
def answer (x : BitVec 4 × BitVec 4 × Delivery) : Packet :=
  let p := packet x.2.1 0x40080
  match x.2.2 with
  | .remote (.load .i8int _ _ _) _ _ _ _ => { p with data := List.replicate 4 0 }
  | .remote .code _ _ _ _ => { p with data := List.replicate 128 0 }
  | _ => p
theorem witness_ResponsesDelivered : answers.all (fun x => let s := requested x.1 x.2.2 false; let p := answer x
      decide (p.vc ≠ 3) && (getChord s 63).inq.isEmpty &&
        (requestFor s 63 p).any (fun r => decide (r.1 = 63 ∧ r.2.engine = none ∧ r.2.pendings = [5])) &&
        (getPending s 5).any (fun q => decide (q.id = 5 ∧ q.what = x.2.2) && (s.group q.gid).any (fun g => decide (g.id = q.gid)) &&
          (ctxOf s q.gid).any (fun k => !logging s k)) && decide (p.status = 0) && p.marks.all (!·) && decide (p.op = x.2.1) &&
        decide (p.pa.toNat % 4 = 0) && !p.aflags.getLsbD 0) = true ∧
    (answer (1, 4, .remote .code 128 63 0 [])).data.length = 128 ∧ (answer (1, 4, .remote .code 128 63 0 [])).pa.toNat % 128 = 0 ∧
    (loadValue .raw (List.replicate 8 0)).length = 2 ∧ (loadValue .i8int [0]).length = 1 ∧
    let s := requested 2 (.result 0 ⟨0, 0, 0⟩ []) true; let p := packet 5 0x40080
      (p.vc ≠ 3 ∧ (requestFor s 63 p).any (fun r => decide (r.2.pendings = [] ∧ r.2.engine = some 5 ∧ r.2.op ≠ 1)) = true) ∧
        (getOp s 5).any (·.id = 5) = true ∧ p.op = 5 ∧ p.status = 0 := by decide +kernel
theorem witness_MessagesTaken : ∀ n ∈ [1, 2], let s := units { openList [] with state := n, config := 4 }; (s.ctx 1).isSome = true ∧
    (getList s 1 0).state = n ∧ (sfind (getList s 1 0).units 0).isSome = true ∧ localUnit s 0 = true ∧ 3 < (getList s 1 0).config ∧
      (getList s 1 0).config < 5 := by decide +kernel

/-! ### Firmware, checkpoints, reliability, debugging -/

theorem witness_FunctionsBecomeReady : (let s := channelTwo {}; functionDue s 8 = true ∧ functionDue s 23 = true) ∧
    let s : State := { one .nop with host := { (one .nop).host with fw := { running := [1] } } }; functionDue s 4 = true ∧ functionDue s 5 = true := by
  decide +kernel
/-- Partition 0 checkpoints context 1 to a stream of one slot in host memory, with its snapshot map at 0x10000000, its dirty map at
0x20000000, and a status. -/
def checkpointing (status tail : Word) : State :=
  let s := statusBits 0x100030 (one .nop)
  let s := ((s.setMgmt64 0x14000 0x1000000000001).setMgmt64 0x14010 0x10000000).setMgmt64 0x4030 0x20000001
  ((s.setMgmt 0x1401C (0x00010000 ||| (status <<< 6))).setMgmt 0x1400C tail).modCtx 1 fun c => { c with ckact := status = 1 }
theorem witness_CheckpointStarts_failures : let s := checkpointing 0 0; ready s 4 = true ∧ served s = true ∧
    (let s := { s with host := { s.host with ctxs := [] } }; s.ctx (ckTag s 0) = none) ∧
    (let s := s.setMgmt 0x14000 0; (s.ctx (ckTag s 0)).isSome = true ∧ ckWrong s 0 = true) ∧ ckWrong s 4 = true ∧
    (let s := checkpointing 1 0; (s.ctx (ckTag s 0)).isSome = true ∧ ckWrong s 0 = false ∧ ckStatus s 0 = 1) ∧
    let s := s.setMgmt 0 0x30; (s.ctx (ckTag s 0)).isSome = true ∧ ckWrong s 0 = false ∧ ckStatus s 0 ≠ 1 ∧ ckReady s 0 = false := by decide +kernel
theorem witness_CheckpointStarts : let s := checkpointing 0 0; ready s 4 = true ∧ served s = true ∧ (s.ctx (ckTag s 0)).isSome = true ∧ ckWrong s 0 = false ∧
    ckStatus s 0 ≠ 1 ∧ ckReady s 0 = true ∧ debugBit s (ckTag s 0) 3 = false ∧ dirtyMap s (ckTag s 0) = some 0x20000000 ∧
      (s.ctx (ckTag s 0)).any (fun c => c.rep.late.isEmpty) = true ∧ (∀ x ∈ s.mem.ecc, x.1 % 4 = 0 ∧ (x.1 < 0x20000000 ∨ 0x20000000 + mapBytes ≤ x.1)) ∧
      apart 0x20000000 mapBytes (ckmapBase s 0) mapBytes := by unfold apart; decide +kernel
/-- The page at 0x40000 is marked. -/
def marked : State := { checkpointing 1 0 with mem := setByte (checkpointing 1 0).mem 0x10000000 0x10 }
theorem witness_CheckpointPages_fails : let s : State := { marked with mem := { marked.mem with ecc := [(0x10000000, 1)] } }
    (s.ctx (ckTag s 0)).any (·.ckact) = true ∧ ckStatus s 0 = 1 ∧ (partQuads s 0).contains 0 = true ∧ ckmapFails s.mem (ckmapBase s 0) = true := by decide +kernel
theorem witness_CheckpointPages : let s := marked
    (s.ctx (ckTag s 0)).any (·.ckact) = true ∧ ckStatus s 0 = 1 ∧ (partQuads s 0).contains 0 = true ∧ ckmapFails s.mem (ckmapBase s 0) = false ∧
      ckmapOk s 0 = true ∧ streamOk (ckSlot s 0) = true ∧ ckRoom s 0 = true ∧ nextPage s 0 0 (ckTag s 0) = some 0x40000 ∧
      (∀ x ∈ s.mem.ecc, x.1 < 0x40000 ∨ 0x40000 + 65536 ≤ x.1) ∧ apart (ckSlot s 0) 81920 0x40000 65536 ∧
      apart (ckSlot s 0) 81920 (ckmapBase s 0) mapBytes := by unfold apart; decide +kernel
theorem witness_CheckpointPages_end : ∀ full : Bool, let s := checkpointing 1 (if full then 1 else 0)
    (s.ctx (ckTag s 0)).any (·.ckact) = true ∧ ckStatus s 0 = 1 ∧ (partQuads s 0).head? = some 0 ∧ ckmapFails s.mem (ckmapBase s 0) = false ∧
      ckmapOk s 0 = true ∧ streamOk (ckSlot s 0) = true ∧ ckRoom s 0 = (!full) ∧ markedPages s.mem (ckmapBase s 0) = [] := by
  decide +kernel
theorem witness_ReliabilityRegisters : let s := (serving (one .nop)).setMgmt 0x153B0 1; served s = true ∧
    (∀ k, k < 8 → ((0x924924 : Word).extractLsb' (3 * k) 3).toNat ≤ 4) ∧ (∃ k, k < 8 ∧ 4 < ((0xA00000 : Word).extractLsb' (3 * k) 3).toNat) ∧
      (s.mgmt (0x15000 + 0x100 * 3 + 0xB0)).extractLsb' 0 2 = 1#2 ∧ sfind s.host.resetWaits 3 = none ∧
      let s : State := { s with host := { s.host with resetWaits := [(3, [])] } }
      served s = true ∧ (s.mgmt (0x15000 + 0x100 * 3 + 0xB0)).extractLsb' 0 2 = 1#2 ∧ sfind s.host.resetWaits 3 = some [] := by decide +kernel
theorem witness_HardwareEvents : let s := (one .nop).setMgmt 0x1501C 0; (∃ q, regionOf (0x11FFFFFFFF / 4 * 4) = .near q) ∧
    (∃ r, regionOf (0x3FFFFFFFFFF / 4 * 4) = .far r) ∧ ∀ bad : Bool, actionOf s { cls := if bad then 7 else 6, src := 3, part := ownerOf s 0x11FFFFFFFC } = 0 :=
  ⟨⟨0, by decide +kernel⟩, ⟨4095, by decide +kernel⟩, by decide +kernel⟩
theorem witness_ManagementWrites : let s := serving (one .nop); served s = true ∧ (s.ctx 1).isSome = true ∧ debugBit s 1 0 = false ∧
    (s.group 2).any (fun g => decide (g.id = 2) && (s.wg g.wg).any (·.ctx = 1)) = true := by decide +kernel
/-- The context may be debugged; its group is stopped or not. -/
def debugged (f : Group → Group) : State := (serving (load .nop f)).setMgmt 0x18100 4
theorem witness_DebugFailures : let s := serving (one .nop); served s = true ∧ s.host.replies = [] ∧ s.ctx 2 = none ∧ (s.ctx 1).isSome = true ∧ debugBit s 1 2 = false := by decide +kernel
theorem witness_HaltAndGo : ∀ b : Bool, let s := debugged fun g => { g with stop := if b then .debug else .none }
    served s = true ∧ s.host.replies = [] ∧ (s.ctx 1).any (fun c => decide (c.tag = 1 ∧ c.killed = false)) = true ∧ debugBit s 1 2 = true ∧ (heldGroups s 1 = [] ↔ b = false) ∧
      (s.group 2).any (fun g => decide (g.id = 2) && (s.wg g.wg).any (·.ctx = 1) && decide (g.stop = if b then .debug else .none)) = true := by decide +kernel
theorem witness_WorkgroupSteps : ∀ b : Bool, let s := debugged fun g => { g with stop := if b then .debug else .none }
    served s = true ∧ s.host.replies = [] ∧ (s.ctx 1).isSome = true ∧ debugBit s 1 2 = true ∧ (∀ kg ∈ s.exe.groups, kg.2.id = kg.1) ∧ (skeys s.exe.groups).Nodup ∧
      namedWgs s 1 0 1 = [] ∧ namedWgs s 1 0 0 = [loadWg] ∧ s.wg 1 = some loadWg ∧
      (if b then ∀ g ∈ groupsOfWg s 1, g.stop = .debug else ∃ g ∈ groupsOfWg s 1, g.stop ≠ .debug) := by decide +kernel
/-- A context whose interval was recorded from an image, which lies in slot 0 of its save area. -/
def recorded (i : Image) (pre : Bool) : State :=
  let s := (away [(0, 7)] i).setMgmt 0x18100 4
  let s := s.modCtx 1 fun c => { c with preempted := pre, rep := { c.rep with recorded := true, snaps := [i] } }
  { s with mem := placeWord (placeWord s.mem 0x60000 0x57474931) (0x60000 + 44) 7 }
theorem witness_ReplayStarts : (let s := debugged id; served s = true ∧ s.host.replies = [] ∧ debugBit s 1 2 = true ∧ (s.ctx 1).any (fun c => decide (c.tag = 1 ∧ c.rep.recorded = false)) = true) ∧
    (∀ pre : Bool, let s := recorded (saved 8) pre; served s = true ∧ s.host.replies = [] ∧ debugBit s 1 2 = true ∧
      (s.ctx 1).any (fun c => decide (c.tag = 1 ∧ c.rep.recorded = true ∧ c.preempted = pre)) = true) ∧
    ((recorded (saved 8) true).ctx 1).any (fun c => (startReplay (recorded (saved 8) true) c 0 0).isSome &&
      let s := rewindFlight (recorded (saved 8) true) c
      let s : State := { s with host := { s.host with images := s.host.images.filter (·.wg.ctx ≠ 1) } }
      decide (copiedImages s c = [(0, saved 8)] ∧ regionOf (slotBase s 1 0) ≠ .host ∧
        coreFor s (saved 8).wg (saved 8).groups (saved 8).records.length = some (0, 0, [(0, 0)]))) = true ∧ ((saved 8).groups.map (·.id)).Nodup ∧
    ((recorded (saved 9) true).ctx 1).any (fun c => (startReplay (recorded (saved 9) true) c 0 0).isNone) = true := by decide +kernel
theorem witness_SamplesTaken : ∀ room : Bool, let s := (one .nop).setMgmt 0x18100 2; let s := if room then s.setMgmt64 0x18118 0x70001 else s
    debugBit s 1 1 = true ∧ ((sortBy (fun a b => a.age ≤ b.age) ((s.groupsOf 1).filter fun g => g.part = 0 &&
        (s.wg g.wg).any (·.coreNo = 80 * 0 + 0)))[(sget 0 s.host.samples 1280) % 1]?).any (fun g => (s.wg g.wg).isSome) = true ∧
      ringRoom s 1 0x18 = room := by decide +kernel
theorem witness_UnassignedWords : ∀ b : Bool, let s := if b then (one .nop).setMgmt 0x1503C 0 else one .nop; let h := cur s
    s.here = some h ∧ (actionOf s (illegalEvent s h 0xFFFFFFFF 1) < 3 ↔ b = true) ∧ h.p.mask &&& h.g.span.opened = 0 := by decide +kernel

/-! ### The machine as a whole -/

/-- The loaded machine, its turn taken. -/
def loaded : State := (State.reset.withFetchWord 32 0).taken []
/-- The path that issues. -/
def loadedPath : Here := ⟨loadGroup, loadWg, 0, { pc := 0, mask := 1, mode := 0x0018 }⟩
theorem witness_StepRunsTheDecodedInstruction : (State.reset.withFetchWord 32 0).ctl.agenda = [.round 0 0] ∧
    pick loaded 0 0 = some (tryIssue loaded loadedPath, [2]) ∧ (fetchWord loaded loadedPath).1 = .word 0 ∧
      loadedPath.g.badImage = false ∧
      (loadedPath.w.moved && memoryWord .nop) = false ∧
      mayIssue (noteErrors (noteIssue (fetchWord loaded loadedPath).2 loadedPath) loadedPath .nop) = true := by
  have r : residents loaded 0 0 = [loadGroup] := by decide +kernel
  have g : groupReady loaded loadGroup = [tryIssue loaded loadedPath] := by
    have b : (tryIssue loaded loadedPath).goes = true := by decide +kernel
    have a : arbitrates loaded loadGroup = true := by decide +kernel
    have p : loadGroup.paths.filter (·.2.tries) = [(0, { pc := 0, mask := 1, mode := 0x0018 })] := by decide +kernel
    have o : hereOf loaded loadGroup.id 0 = some loadedPath := by decide +kernel
    rw [groupReady, a, p, List.filterMap_cons, o, Option.map_some, List.filterMap_nil, List.filter_cons, b]
    rfl
  refine ⟨by decide +kernel, ?_, by decide +kernel, by decide +kernel, by decide +kernel, by decide +kernel⟩
  rw [pick, roundReady, r, List.map_singleton, g]
  rfl
theorem witness_StepRunsTheDecodedInstruction_moved : let s := load (.ld 8 false 2 1 0) id; let h := { cur s with w := { loadWg with moved := true } }
    ∃ w, (fetchWord s h).1 = .word w ∧ h.w.moved = true ∧ memoryWord (issuedInstr h (.word w)) = true :=
  ⟨encode (.ld 8 false 2 1 0), by decide +kernel, rfl, by decide +kernel⟩
theorem witness_StepRunsTheDecodedInstruction_idle : let s := State.reset; pick s 0 0 = none ∧ s.ctl.agenda = [] := by decide +kernel
theorem witness_ArbitrationRounds : let s := (State.reset.withFetchWord 32 0).taken []; namedGroups s ∧ (pick s 0 0).isSome = true ∧ [2].Nodup ∧
    (s.group 2).isSome = true := by unfold namedGroups; decide +kernel
theorem witness_DecodeAndEncodeAgree : (Instr.wlpop 0x7C 7 15).isWord = true ∧ (Instr.wlpop 0x7C 7 15).wellFormed = true ∧
    decode 0x08030102 = .ok (.add 3 false 1 false 2) ∧ (Instr.vote 0 false 0 3).isWord = true ∧ WellFormed.fieldOk (.vote 0 false 0 3) = false ∧
      (Instr.add64 1 false 0 false 0).isWord = true ∧ WellFormed.fieldOk (.add64 1 false 0 false 0) = true ∧ WellFormed.pairOk (.add64 1 false 0 false 0) = false :=
  ⟨rfl, rfl, rfl, rfl, rfl, rfl, rfl, rfl⟩
/-- The reset state meets the invariants, and the machine takes a step from it. -/
theorem witness_invariants : State.reset.memoryCanonical ∧ ∃ t, step State.reset = .next t := by
  refine ⟨by unfold State.memoryCanonical; decide +kernel, ?_⟩
  exact ⟨_, rfl⟩
/-- The machine takes a step from the loaded state, whose memory is canonical too, and its agenda names no event. -/
theorem witness_EveryStepGoesOn : (State.reset.withFetchWord 32 0).memoryCanonical ∧
    ∀ i rest, (State.reset.withFetchWord 32 0).ctl.agenda = .event i :: rest → i.isWord = false :=
  ⟨by unfold State.memoryCanonical; decide +kernel, fun i rest h => by cases h⟩

end Sys2Proof.Tests
end

section
/-!
SUPPORT. What the firmware side of the machine does: answers of channel 2 (R379, R424), fields of the boot word (R423), memory and
firmware after a package reset (R417, R422), and the records and masks of the self-test (R418, R419).
-/

namespace Sys2Proof.Machine

open Sys2Proof Sys2Proof.Laws

/-! ## Dispatch -/

theorem exec_stageImage (img : List Byte) (s : State) : exec (.stageImage img) s =
    command2 s [(0x01000800 < img.length, 3)] fun s => s.modFw fun f => { f with staging := img } := rfl

theorem exec_firmwareCommit (s : State) : exec .firmwareCommit s =
    if ready s 4 && served s && imageFail s.host.fw s.host.fw.staging ≠ 0 then .next (reply s 2 3 (imageFail s.host.fw s.host.fw.staging))
    else command2 s [] fun s => s.modFw fun f => { f with active := f.staging } := rfl

theorem exec_recover (s : State) : exec .recover s = command2 s [] fun s => s.modFw fun f => { f with recoverNext := true } := rfl

theorem exec_minsvn (n : Nat) (s : State) : exec (.minsvn n) s =
    command2 s [(n < s.host.fw.minsvn || (imageSvn s.host.fw.running).toNat < n, 3)] fun s =>
      (s.modFw fun f => { f with minsvn := n }).setMgmt 0x10 ((s.mgmt 0x10 &&& ~~~0xFF00#32) ||| (BitVec.ofNat 32 (n % 256) <<< 8)) := rfl

theorem exec_opkey (hash : List Byte) (s : State) : exec (.opkey hash) s =
    command2 s [(s.host.fw.opHash.isSome, 2)] fun s => s.modFw fun f => { f with opHash := some (padTo 32 hash) } := rfl

theorem exec_attest (nonce : List Byte) (s : State) : exec (.attest nonce) s =
    command2 s [((s.mgmt 0x18).extractLsb' 0 21 = 0, 2)] fun s =>
      ((s.send (.report (reportBody s nonce ++ Config.attestSignature (reportBody s nonce) s.host.fw.leaf))).modFw fun f =>
        { f with leaf := f.leaf + 1 }).setMgmt 0x18 (s.mgmt 0x18 - 1) := rfl

theorem exec_ckpt (p : Nat) (s : State) : exec (.ckpt p) s =
    command2 s [(ckStatus s p = 1, 4), (4 ≤ p || !ckFieldsOk s p, 3), ((s.ctx (ckTag s p)).isNone, 1), (!ckReady s p, 5)]
      fun t => startPoint t p (ckTag s p) := rfl

/-- R422, R424: IMAGE is taken by the ROM, not by the firmware. -/
theorem exec_image (img : List Byte) (s : State) : exec (.image img) s =
    if !ready s 4 then .next s
    else if !s.host.fw.romWaiting then .next (reply s 2 4 1)
    else if imageFail s.host.fw img ≠ 0 then .next (reply s 2 3 (imageFail s.host.fw img))
    else .next (reply ((s.modFw fun f => { f with running := img, romWaiting := false }).setMgmt 0x10 (bootWord
      ((s.mgmt 0x10).extractLsb' 24 4).toNat { s.host.fw with running := img, romWaiting := false } 3)) 2 0 0) := rfl

/-! ## The firmware store and the management words -/

@[simp] theorem modFw_mem (s : State) (f : Firmware → Firmware) : (s.modFw f).mem = s.mem := rfl
@[simp] theorem modFw_exe (s : State) (f : Firmware → Firmware) : (s.modFw f).exe = s.exe := rfl
@[simp] theorem modFw_fw (s : State) (f : Firmware → Firmware) : (s.modFw f).host.fw = f s.host.fw := rfl
@[simp] theorem modFw_out (s : State) (f : Firmware → Firmware) : (s.modFw f).host.out = s.host.out := rfl
@[simp] theorem modFw_mgmtAt (s : State) (f : Firmware → Firmware) (k : Nat) : (s.modFw f).mgmt k = s.mgmt k := rfl

@[simp] theorem mgmt_setMgmt_same (s : State) (off : Nat) (w : Word) : (s.setMgmt off w).mgmt off = w := by simp [mgmt_setMgmt]

/-- A state whose management words are those of a state with one word written differs from it in that word alone. -/
theorem onlyWords_of_setMgmt {s t : State} {off : Nat} {w : Word} (h : ∀ k, t.mgmt k = (s.setMgmt off w).mgmt k) : OnlyWords s t [off] := by
  intro o ho
  have hne : o ≠ off := by simpa using ho
  rw [h, mgmt_setMgmt, if_neg hne]

/-! ## Channel 2 (R379, R417, R424) -/

/-- R379: a reply on channel 2 leaves at once: only those of channel 1 keep an order with each other. -/
theorem reply_channel2 (s : State) (code detail : Nat) : reply s 2 code detail = s.send (.reply 2 (BitVec.ofNat 32 (256 * detail + code))) := by
  simp [reply, replyWord]

section

variable (s : State) (fails : List (Bool × Nat)) (k : State → State)

theorem command2_down (h : ready s 4 = false) : command2 s fails k = .next s := by
  simp [command2, h]

theorem command2_unserved (h : ready s 4 = true) (hs : served s = false) : command2 s fails k = .next (s.send (.reply 2 5)) := by
  simp [command2, h, hs, reply_channel2]

variable (h : ready s 4 = true) (hs : served s = true)
include h hs

theorem command2_unconditional : command2 s [] k = .next ((k s).send (.reply 2 0)) := by
  simp [command2, h, hs, reply_channel2]

/-- R424: a command whose one failing condition is met answers its code and changes nothing. -/
theorem command2_fails {bad : Bool} {code : Nat} (hb : bad = true) :
    command2 s [(bad, code)] k = .next (s.send (.reply 2 (BitVec.ofNat 32 (256 * 1 + code)))) := by
  simp [command2, h, hs, hb, reply_channel2]

/-- R424: a command whose one failing condition is not met is carried out and answers 0. -/
theorem command2_succeeds {bad : Bool} {code : Nat} (hb : bad = false) :
    command2 s [(bad, code)] k = .next ((k s).send (.reply 2 0)) := by
  simp [command2, h, hs, hb, reply_channel2]

end

/-- R417, R424: a command that is carried out through channel 2 needs the firmware. -/
theorem needsFirmware_of_command2 {i : Instr} {s : State} {fails : List (Bool × Nat)} {k : State → State}
    (hi : exec i s = command2 s fails k) : NeedsFirmware i s :=
  ⟨fun h => hi.trans (command2_down s fails k h), fun h hs => hi.trans (command2_unserved s fails k h hs)⟩

/-! ## The boot word (R423) -/

section

variable (afail : Nat) (f : Firmware) (src : BitVec 2)

theorem bootWord_source : (bootWord afail f src).extractLsb' 0 2 = src :=
  (extract_append_lo _ _ _ (fun _ => rfl) (by omega)).trans BitVec.extractLsb'_eq_self

theorem bootWord_key : (bootWord afail f src).extractLsb' 4 2 = if src ≠ 0 then imageKey f.running else 0 :=
  (extract_append_hi _ _ _ (fun _ => rfl) (by omega)).trans <| (extract_append_hi _ _ _ (fun _ => rfl) (by omega)).trans <|
    (extract_append_lo _ _ _ (fun _ => rfl) (by omega)).trans BitVec.extractLsb'_eq_self

/-- The fields from bit 8 up. -/
theorem bootWord_upper (k m : Nat) (h : 8 ≤ k) : (bootWord afail f src).extractLsb' k m =
    (0#4 ++ BitVec.ofNat 4 afail ++ (if src ≠ 0 then imageSvn f.running else 0) ++ BitVec.ofNat 8 f.minsvn).extractLsb' (k - 8) m := by
  have e : k - 2 - 2 - 2 - 2 = k - 8 := by omega
  exact e ▸ (extract_append_hi _ _ _ (fun _ => rfl) (by omega)).trans ((extract_append_hi _ _ _ (fun _ => rfl) (by omega)).trans
    ((extract_append_hi _ _ _ (fun _ => rfl) (by omega)).trans (extract_append_hi _ _ _ (fun _ => rfl) (by omega))))

theorem bootWord_minimum : (bootWord afail f src).extractLsb' 8 8 = BitVec.ofNat 8 f.minsvn :=
  (bootWord_upper afail f src 8 8 (by omega)).trans <| (extract_append_lo _ _ _ (fun _ => rfl) (by omega)).trans BitVec.extractLsb'_eq_self

theorem bootWord_version : (bootWord afail f src).extractLsb' 16 8 = if src ≠ 0 then imageSvn f.running else 0 :=
  (bootWord_upper afail f src 16 8 (by omega)).trans <| (extract_append_hi _ _ _ (fun _ => rfl) (by omega)).trans <|
    (extract_append_lo _ _ _ (fun _ => rfl) (by omega)).trans BitVec.extractLsb'_eq_self

theorem bootWord_failCode : (bootWord afail f src).extractLsb' 24 4 = BitVec.ofNat 4 afail :=
  (bootWord_upper afail f src 24 4 (by omega)).trans <| (extract_append_hi _ _ _ (fun _ => rfl) (by omega)).trans <|
    (extract_append_hi _ _ _ (fun _ => rfl) (by omega)).trans <|
      (extract_append_lo _ _ _ (fun _ => rfl) (by omega)).trans BitVec.extractLsb'_eq_self

end

/-- R424: the boot word with another fused minimum. -/
theorem bootWord_withMinimum (w : Word) (n : Nat) : (w &&& ~~~0xFF00#32) ||| (BitVec.ofNat 32 (n % 256) <<< 8) =
    w.extractLsb' 16 16 ++ BitVec.ofNat 8 n ++ w.extractLsb' 0 8 := by
  have field : ∀ i, i < 32 → (0xFF00#32).getLsbD i = decide (8 ≤ i ∧ i < 16) := by decide
  have cut : ∀ i, (BitVec.ofNat 32 (n % 256)).getLsbD i = (BitVec.ofNat 8 n).getLsbD i := by
    intro i
    rw [BitVec.getLsbD_ofNat, BitVec.getLsbD_ofNat, show (256 : Nat) = 2 ^ 8 from rfl, Nat.testBit_mod_two_pow]
    by_cases h : i < 8
    · simp [h, show i < 32 by omega]
    · simp [h]
  apply BitVec.eq_of_getLsbD_eq
  intro i hi
  simp only [BitVec.getLsbD_or, BitVec.getLsbD_and, BitVec.getLsbD_not, BitVec.getLsbD_shiftLeft, BitVec.getLsbD_append,
    BitVec.getLsbD_extractLsb', field i hi, cut, hi]
  by_cases h8 : i < 8
  · simp [h8, show ¬ 8 ≤ i by omega]
  · by_cases h16 : i < 16
    · simp [h8, h16, show 8 ≤ i by omega, show i - 8 < 8 by omega]
    · have e : 16 + (i - 8 - 8) = i := by omega
      have high : (BitVec.ofNat 8 n).getLsbD (i - 8) = false := BitVec.getLsbD_of_ge _ _ (by omega)
      simp [h8, h16, e, high, show ¬ i - 8 < 8 by omega, show i - 8 - 8 < 16 by omega]

/-! ## Package reset (R417, R422) -/

theorem sfind_filter_key {α : Type} (m : SMap α) (q : Nat → Bool) (i : Nat) :
    sfind (m.filter fun kx => q kx.1) i = if q i then sfind m i else none := by
  induction m with
  | nil => simp
  | cons kx m ih =>
    obtain ⟨k, x⟩ := kx
    by_cases hk : i = k
    · subst hk
      cases hq : q i <;> simp [hq, ih, sfind]
    · cases hq : q k <;> simp [hq, ih, sfind, hk]

theorem memByte_resetMem (m : MemSys) (b : Nat) : memByte (resetMem m) b = if keptAddress b then memByte m b else 0 := by
  simp only [memByte, resetMem, sget, sfind_filter_key]
  cases keptAddress b <;> rfl

/-- R417, R422: the firmware after a reset, before the ROM has found an image to run. -/
def Firmware.restarted (f : Firmware) : Firmware :=
  { f with recoverNext := false, romWaiting := false, running := [], tests := [], tested := [], resets := f.resets + 1
           runs := (List.range 5).map fun q => (q, f.resets + 1) }

/-- R423: the fail code of active that the boot word reports: none where RECOVER skips it. -/
def Firmware.activeFail (f : Firmware) : Nat := if f.recoverNext then 0 else imageFail f f.active

theorem activeFail_field (f : Firmware) :
    BitVec.ofNat 4 f.activeFail = if f.recoverNext then 0 else BitVec.ofNat 4 (imageFail f f.active) :=
  apply_ite (BitVec.ofNat 4) ..

/-- R422: the ROM boots active, unless RECOVER skips it; else it boots recovery; else it waits for an image. -/
theorem romBoot_cases (f : Firmware) :
    ((!f.recoverNext && imageFail f f.active = 0) = true ∧ romBoot f = (f.activeFail, { f.restarted with running := f.active }, 1)) ∨
    ((!f.recoverNext && imageFail f f.active = 0) = false ∧ imageFail f f.recovery = 0 ∧
      romBoot f = (f.activeFail, { f.restarted with running := f.recovery }, 2)) ∨
    ((!f.recoverNext && imageFail f f.active = 0) = false ∧ imageFail f f.recovery ≠ 0 ∧
      romBoot f = (f.activeFail, { f.restarted with romWaiting := true }, 0)) := by
  unfold romBoot Firmware.restarted Firmware.activeFail
  cases hn : f.recoverNext
  · by_cases ha : imageFail f f.active = 0
    · exact .inl (by simp [ha])
    · by_cases hr : imageFail f f.recovery = 0
      · exact .inr (.inl (by simp [ha, hr]))
      · exact .inr (.inr (by simp [ha, hr]))
  · by_cases hr : imageFail f f.recovery = 0
    · exact .inr (.inl (by simp [hr]))
    · exact .inr (.inr (by simp [hr]))

/-- R417, R422, R423: the package after a reset whose ROM leaves the firmware `f`, an active image that failed with `afail`, and a
running image that came from `src`. -/
def booted (s : State) (afail : Nat) (f : Firmware) (src : BitVec 2) : State :=
  let t : State :=
    { ctl := { agenda := s.ctl.agenda, tick := s.ctl.tick }, mem := resetMem s.mem, exe := { nextId := s.exe.nextId }
      host := { fw := f, out := s.host.out } }
  let t := (t.setMgmt 0x10 (bootWord afail f src)).setMgmt 0x18 (BitVec.ofNat 32 (1048576 - f.leaf))
  if f.romWaiting then t.setMgmt 0 0x10 else t

theorem exec_reset (s : State) (afail : Nat) (f : Firmware) (src : BitVec 2) (h : romBoot s.host.fw = (afail, f, src)) :
    exec .reset s = .next (booted s afail f src) := by
  change execReset s = _
  rw [execReset, h]
  rfl

section

variable (s : State) (afail : Nat) (f : Firmware) (src : BitVec 2)

@[simp] theorem booted_mem : (booted s afail f src).mem = resetMem s.mem := by
  unfold booted
  split <;> rfl

@[simp] theorem booted_exe : (booted s afail f src).exe = { nextId := s.exe.nextId } := by
  unfold booted
  split <;> rfl

@[simp] theorem booted_ctx (k : Nat) : (booted s afail f src).ctx k = none := by
  unfold booted
  split <;> rfl

@[simp] theorem booted_fw : (booted s afail f src).host.fw = f := by
  unfold booted
  split <;> rfl

theorem booted_ready : (booted s afail f src).mgmt 0 = if f.romWaiting then 0x10 else 0 := by
  unfold booted
  cases f.romWaiting <;> simp [mgmt_setMgmt]
  rfl

theorem booted_bootWord : (booted s afail f src).mgmt 0x10 = bootWord afail f src := by
  unfold booted
  cases f.romWaiting <;> simp [mgmt_setMgmt]

theorem booted_signatures : (booted s afail f src).mgmt 0x18 = BitVec.ofNat 32 (1048576 - f.leaf) := by
  unfold booted
  cases f.romWaiting <;> simp [mgmt_setMgmt]

theorem booted_mgmt_other (o : Nat) (h0 : o ≠ 0) (hb : o ≠ 0x10) (hs : o ≠ 0x18) : (booted s afail f src).mgmt o = mgmtReset o := by
  unfold booted
  cases f.romWaiting <;> simp [mgmt_setMgmt, h0, hb, hs]
  all_goals rfl

end

/-- R417, R422, R423, R437. -/
theorem packageReset : Claim.PackageReset := by
  intro s
  obtain ⟨first, hb⟩ | ⟨first, second, hb⟩ | ⟨first, second, hb⟩ := romBoot_cases s.host.fw
  all_goals
    refine ⟨_, exec_reset s _ _ _ hb, booted_exe .., booted_ctx s _ _ _, by simp [memByte_resetMem], booted_mgmt_other s _ _ _, ?_⟩
    simp only [booted_fw, booted_ready, booted_bootWord, booted_signatures, bootWord_source, bootWord_key, bootWord_minimum,
      bootWord_version, bootWord_failCode, activeFail_field]
    simp [Firmware.restarted, *]

/-! ## Self-test (R417 to R419) -/

/-- R418: the records of units tested one after the other, the first of them untested if `bad`: a unit after one that fails is not
tested. -/
theorem foldl_unitRecord (run quad : Nat) (l : List TestUnit) (rs : List (List Byte)) (bad : Bool) :
    l.foldl (fun acc u => (acc.1 ++ [unitRecord run quad acc.2 u], acc.2 || !unitPasses run u)) (rs, bad) =
      (rs ++ l.zipIdx.map (fun u => unitRecord run quad (bad || (l.take u.2).any fun x => Config.selfTest run x.id ≠ 0) u.1),
        bad || l.any fun x => Config.selfTest run x.id ≠ 0) := by
  induction l generalizing rs bad with
  | nil => simp
  | cons u l ih =>
    rw [List.foldl_cons, ih]
    simp [List.zipIdx_succ, Function.comp_def, unitPasses, Bool.or_assoc]

theorem testCore_eq (run quad c : Nat) :
    testCore run quad c = (coreRecords run quad c, (coreUnits quad c).any fun u => Config.selfTest run u.id ≠ 0) := by
  simp [testCore, foldl_unitRecord, coreRecords]

theorem length_coreRecords (run quad c : Nat) : (coreRecords run quad c).length = 48 := by
  rw [coreRecords, List.length_map, List.length_zipIdx]
  rfl

/-- R419: a mask gathered number by number has the bits of the numbers that are marked. -/
theorem getLsbD_foldl_mark {n : Nat} (p : Nat → Bool) (l : List Nat) (m : BitVec n) (k : Nat) (hk : k < n) :
    (l.foldl (fun m c => if p c then m ||| (1#n <<< c) else m) m).getLsbD k = (m.getLsbD k || (l.contains k && p k)) := by
  induction l generalizing m with
  | nil => simp
  | cons c l ih =>
    have bit : (1#n <<< c).getLsbD k = decide (k = c) := by
      rw [← BitVec.twoPow_eq, BitVec.getLsbD_twoPow]
      grind
    rw [List.foldl_cons, ih, List.contains_cons]
    by_cases h : k = c
    · subst h
      cases hp : p k
      · simp
      · rw [if_pos rfl, BitVec.getLsbD_or, bit]
        simp
    · have other : (if p c then m ||| (1#n <<< c) else m).getLsbD k = m.getLsbD k := by
        split
        · rw [BitVec.getLsbD_or, bit, decide_eq_false h, Bool.or_false]
        · rfl
      rw [other, beq_false_of_ne h, Bool.false_or]

/-- R419: the cores of a quadrant with a failing unit. -/
def disabledCores (run quad : Nat) : BitVec 80 :=
  (List.range 80).foldl (fun m c => if (coreUnits quad c).any fun u => Config.selfTest run u.id ≠ 0 then m ||| (1#80 <<< c) else m) 0

theorem getLsbD_disabledCores (run quad c : Nat) (hc : c < 80) :
    (disabledCores run quad).getLsbD c = (coreUnits quad c).any fun u => Config.selfTest run u.id ≠ 0 := by
  rw [disabledCores, getLsbD_foldl_mark _ _ _ _ hc]
  simp [hc]

/-- R418, R419: the test of the cores of a quadrant logs the records of the 80 cores and writes the three words of the mask. -/
theorem testCores_eq (s : State) (quad : Nat) : testCores s quad =
    (((logTests s ((List.range 80).flatMap (coreRecords (runOf s (8 + quad)) quad))).setMgmt (0x40 + 16 * quad)
      ((disabledCores (runOf s (8 + quad)) quad).setWidth 32)).setMgmt (0x40 + 16 * quad + 4)
      ((disabledCores (runOf s (8 + quad)) quad >>> 32).setWidth 32)).setMgmt (0x40 + 16 * quad + 8)
      ((disabledCores (runOf s (8 + quad)) quad >>> 64).setWidth 32) := by
  have gathered : ∀ (l : List Nat) (g : Nat → List (List Byte) × Bool) (m : BitVec 80),
      ((l.map g).zip l).foldl (fun m x => if x.1.2 then m ||| (1#80 <<< x.2) else m) m =
        l.foldl (fun m c => if (g c).2 then m ||| (1#80 <<< c) else m) m := by
    intro l g m
    induction l generalizing m with
    | nil => rfl
    | cons c l ih => exact ih _
  simp only [testCores, gathered, testCore_eq, List.flatMap_map, show List.range 3 = [0, 1, 2] from rfl, List.foldl_cons, List.foldl_nil,
    disabledCores, Nat.mul_zero, Nat.mul_one, Nat.add_zero, Nat.reduceMul, BitVec.ushiftRight_zero]

section

variable (s : State) (quad : Nat)

@[simp] theorem testCores_mem : (testCores s quad).mem = s.mem := by
  rw [testCores_eq]
  rfl

@[simp] theorem testCores_exe : (testCores s quad).exe = s.exe := by
  rw [testCores_eq]
  rfl

theorem testCores_fw : (testCores s quad).host.fw =
    { s.host.fw with tests := s.host.fw.tests ++ (List.range 80).flatMap (coreRecords (runOf s (8 + quad)) quad) } := by
  rw [testCores_eq]
  rfl

theorem testCores_mask (k : Nat) (hk : k < 3) :
    (testCores s quad).mgmt (0x40 + 16 * quad + 4 * k) = (disabledCores (runOf s (8 + quad)) quad >>> (32 * k)).setWidth 32 := by
  rw [testCores_eq]
  obtain rfl | rfl | rfl : k = 0 ∨ k = 1 ∨ k = 2 := by omega
  all_goals simp [mgmt_setMgmt]

theorem testCores_mgmt_other (o : Nat) (h : ∀ k, k < 3 → o ≠ 0x40 + 16 * quad + 4 * k) : (testCores s quad).mgmt o = s.mgmt o := by
  rw [testCores_eq, mgmt_setMgmt, if_neg (h 2 (by omega)), mgmt_setMgmt, if_neg (h 1 (by omega)), mgmt_setMgmt,
    if_neg (by simpa using h 0 (by omega))]
  rfl

/-- R419: the bit of a core in the mask words of its quadrant. -/
theorem testCores_mask_bit (c : Nat) (hc : c < 80) : ((testCores s quad).mgmt (0x40 + 16 * quad + 4 * (c / 32))).getLsbD (c % 32) =
    (coreUnits quad c).any fun u => Config.selfTest (runOf s (8 + quad)) u.id ≠ 0 := by
  have place : 32 * (c / 32) + c % 32 = c := by omega
  rw [testCores_mask s quad _ (by omega), BitVec.getLsbD_setWidth, BitVec.getLsbD_ushiftRight, place, getLsbD_disabledCores _ _ _ hc]
  simp [show c % 32 < 32 by omega]

end

/-- R418: the records of the units of a function outside the cores. -/
def ownRecords (s : State) (bit : Nat) : List (List Byte) :=
  (functionUnits bit).map (unitRecord (runOf s bit) (if 8 ≤ bit then bit % 4 else 0) false)

/-- R417, R418: the machine after the tests of a function, before the ready word tells of it. -/
def functionTested (s : State) (bit : Nat) : State :=
  (if 8 ≤ bit && bit < 12 then testCores s (bit % 4) else s).modFw fun f =>
    { f with tests := f.tests ++ ownRecords s bit, tested := bit :: f.tested }

/-- R419: the ready bit of a function is set where it passes. -/
def madeReady (s : State) (bit : Nat) (passes : Bool) : State :=
  if passes then endPartitionResets (s.setMgmt 0 (s.mgmt 0 ||| (1#32 <<< bit))) else s

theorem exec_functionReady (s : State) (bit : Nat) (due : functionDue s bit = true) :
    exec (.functionReady bit) s = .next (madeReady (functionTested s bit) bit (functionPasses (runOf s bit) bit)) := by
  change execFunctionReady bit s = _
  rw [execFunctionReady, due]
  by_cases hq : (8 ≤ bit && bit < 12) = true
  · have quad : (if 8 ≤ bit then bit % 4 else 0) = bit % 4 := if_pos (by simp at hq; exact hq.1)
    simp only [functionTested, ownRecords, hq, quad, if_true]
    rfl
  · simp only [functionTested, ownRecords, hq, Bool.false_eq_true, if_false]
    rfl

section

variable (s : State) (bit : Nat) (passes : Bool)

@[simp] theorem madeReady_mem : (madeReady s bit passes).mem = s.mem := by cases passes <;> rfl
@[simp] theorem madeReady_exe : (madeReady s bit passes).exe = s.exe := by cases passes <;> rfl
@[simp] theorem madeReady_fw : (madeReady s bit passes).host.fw = s.host.fw := by cases passes <;> rfl

theorem madeReady_ready : (madeReady s bit passes).mgmt 0 = if passes then s.mgmt 0 ||| (1#32 <<< bit) else s.mgmt 0 := by
  cases passes
  · rfl
  · exact mgmt_setMgmt_same ..

theorem madeReady_mgmt_other (o : Nat) (h : o ≠ 0) : (madeReady s bit passes).mgmt o = s.mgmt o := by
  cases passes
  · rfl
  · exact (mgmt_setMgmt ..).trans (if_neg h)

end

/-- R4, R417, R418: a quadrant has 75 units outside its cores. -/
theorem length_functionUnits_quad (bit : Nat) (h : 8 ≤ bit) (h' : bit < 12) : (functionUnits bit).length = 75 := by
  obtain rfl | rfl | rfl | rfl : bit = 8 ∨ bit = 9 ∨ bit = 10 ∨ bit = 11 := by omega
  all_goals rfl

theorem functionTested_of_quad (s : State) (bit : Nat) (h : 8 ≤ bit) (h' : bit < 12) : functionTested s bit =
    (testCores s (bit % 4)).modFw fun f => { f with tests := f.tests ++ ownRecords s bit, tested := bit :: f.tested } := by
  simp [functionTested, h, h']

theorem functionTested_of_other (s : State) (bit : Nat) (h : ¬(8 ≤ bit ∧ bit < 12)) : functionTested s bit =
    s.modFw fun f => { f with tests := f.tests ++ ownRecords s bit, tested := bit :: f.tested } := by
  simp [functionTested, h]

/-- R417, R419: the test of a quadrant writes the ready word and the quadrant's mask. -/
theorem onlyWords_quadTested (s : State) (bit : Nat) (passes : Bool) (h : 8 ≤ bit) (h' : bit < 12) :
    OnlyWords s (madeReady (functionTested s bit) bit passes)
      [0, 0x40 + 16 * (bit % 4) + 4 * 0, 0x40 + 16 * (bit % 4) + 4 * 1, 0x40 + 16 * (bit % 4) + 4 * 2] := by
  intro o ho
  simp only [List.mem_cons, List.not_mem_nil, or_false, not_or] at ho
  obtain ⟨h0, m0, m1, m2⟩ := ho
  rw [madeReady_mgmt_other _ _ _ _ h0, functionTested_of_quad s bit h h', modFw_mgmtAt]
  refine testCores_mgmt_other s _ o fun k hk => ?_
  obtain rfl | rfl | rfl : k = 0 ∨ k = 1 ∨ k = 2 := by omega
  exacts [m0, m1, m2]

/-- R4, R417 to R419. -/
theorem functionsBecomeReady : Claim.FunctionsBecomeReady := by
  intro s bit due
  refine ⟨_, exec_functionReady s bit due, ?_⟩
  by_cases hq : 8 ≤ bit ∧ bit < 12
  · obtain ⟨h, h'⟩ := hq
    have run : 8 + bit % 4 = bit := by omega
    have frame := onlyWords_quadTested s bit (functionPasses (runOf s bit) bit) h h'
    have untouched : (testCores s (bit % 4)).mgmt 0 = s.mgmt 0 := testCores_mgmt_other s _ 0 (by omega)
    rw [functionTested_of_quad s bit h h'] at frame ⊢
    simp only [madeReady_mem, madeReady_exe, madeReady_fw, madeReady_ready, modFw_mem, modFw_exe, modFw_fw, modFw_mgmtAt, testCores_mem,
      testCores_exe, testCores_fw, untouched, run]
    refine ⟨trivial, trivial, trivial, trivial, fun no => absurd ⟨h, h'⟩ no, fun _ => ⟨frame, rfl, ?_, fun c hc => ?_⟩⟩
    · simp [length_coreRecords, ownRecords, length_functionUnits_quad bit h h', List.length_flatMap]
    · rw [madeReady_mgmt_other _ _ _ _ (by omega), modFw_mgmtAt, testCores_mask_bit s _ c hc, run]
  · rw [functionTested_of_other s bit hq]
    simp only [madeReady_mem, madeReady_exe, madeReady_fw, madeReady_ready, modFw_mem, modFw_exe, modFw_fw, modFw_mgmtAt]
    refine ⟨trivial, trivial, trivial, trivial, fun _ => ⟨fun o ho => ?_, rfl⟩, fun yes => absurd yes hq⟩
    exact madeReady_mgmt_other _ _ _ _ (by simpa using ho)

/-! ## Firmware commands (R424) and attestation (R425) -/

/-- R424: COMMIT replies its own way only where the firmware runs and staging does not verify. -/
theorem needsFirmware_firmwareCommit (s : State) : NeedsFirmware .firmwareCommit s := by
  refine ⟨fun h => ?_, fun h hs => ?_⟩
  · rw [exec_firmwareCommit, if_neg (by simp [h]), command2_down _ _ _ h]
  · rw [Answers, exec_firmwareCommit, if_neg (by simp [hs]), command2_unserved _ _ _ h hs]
    rfl

theorem padTo_of_length (n : Nat) (l : List Byte) (h : l.length = n) : padTo n l = l := List.take_left' h

theorem needsFirmware_commands (s : State) (img hash nonce : List Byte) (n p : Nat) : ∀ i ∈ [Instr.stageImage img, .firmwareCommit, .recover,
    .minsvn n, .opkey hash, .attest nonce, .ckpt p], NeedsFirmware i s := by
  simp only [List.forall_mem_cons, List.not_mem_nil, false_imp_iff, implies_true, and_true]
  exact ⟨needsFirmware_of_command2 (exec_stageImage img s), needsFirmware_firmwareCommit s, needsFirmware_of_command2 (exec_recover s),
    needsFirmware_of_command2 (exec_minsvn n s), needsFirmware_of_command2 (exec_opkey hash s),
    needsFirmware_of_command2 (exec_attest nonce s), needsFirmware_of_command2 (exec_ckpt p s)⟩

section

variable (s : State) (h : ready s 4 = true) (hs : served s = true)
include h hs

theorem stageImage_answers (img : List Byte) (long : 0x01000800 < img.length) : Answers (.stageImage img) s 2 3 1 :=
  (exec_stageImage img s).trans (command2_fails s _ h hs (decide_eq_true long))

theorem stageImage_stores (img : List Byte) (short : img.length ≤ 0x01000800) :
    StoreBecomes (.stageImage img) s { s.host.fw with staging := img } :=
  (exec_stageImage img s).trans (command2_succeeds s _ h hs (decide_eq_false (Nat.not_lt.mpr short)))

theorem firmwareCommit_answers (bad : imageFail s.host.fw s.host.fw.staging ≠ 0) :
    Answers .firmwareCommit s 2 3 (imageFail s.host.fw s.host.fw.staging) := by
  rw [Answers, exec_firmwareCommit, if_pos (by simp [h, hs, bad]), reply_channel2]

theorem firmwareCommit_stores (good : imageFail s.host.fw s.host.fw.staging = 0) :
    StoreBecomes .firmwareCommit s { s.host.fw with active := s.host.fw.staging } := by
  rw [StoreBecomes, exec_firmwareCommit, if_neg (by simp [good]), command2_unconditional s _ h hs]
  rfl

theorem recover_stores : StoreBecomes .recover s { s.host.fw with recoverNext := true } :=
  (exec_recover s).trans (command2_unconditional s _ h hs)

theorem minsvn_answers (n : Nat) (bad : n < s.host.fw.minsvn ∨ (imageSvn s.host.fw.running).toNat < n) : Answers (.minsvn n) s 2 3 1 :=
  (exec_minsvn n s).trans (command2_fails s _ h hs (by simpa using bad))

theorem minsvn_raises (n : Nat) (low : s.host.fw.minsvn ≤ n) (high : n ≤ (imageSvn s.host.fw.running).toNat) :
    ∃ t, exec (.minsvn n) s = .next t ∧ t.host.fw = { s.host.fw with minsvn := n } ∧ t.mem = s.mem ∧ t.exe = s.exe ∧ OnlyWords s t [0x10] ∧
      t.mgmt 0x10 = (s.mgmt 0x10).extractLsb' 16 16 ++ BitVec.ofNat 8 n ++ (s.mgmt 0x10).extractLsb' 0 8 ∧
      t.host.out = s.host.out ++ [.reply 2 0] := by
  have allowed : (n < s.host.fw.minsvn || (imageSvn s.host.fw.running).toNat < n : Bool) = false := by simp [low, high]
  exact ⟨_, (exec_minsvn n s).trans (command2_succeeds s _ h hs allowed), rfl, rfl, rfl, onlyWords_of_setMgmt fun _ => rfl,
    (mgmt_setMgmt_same ..).trans (bootWord_withMinimum ..), rfl⟩

theorem opkey_answers (hash : List Byte) (fused : s.host.fw.opHash.isSome = true) : Answers (.opkey hash) s 2 2 1 :=
  (exec_opkey hash s).trans (command2_fails s _ h hs fused)

theorem opkey_stores (hash : List Byte) (free : s.host.fw.opHash = none) (len : hash.length = 32) :
    StoreBecomes (.opkey hash) s { s.host.fw with opHash := some hash } := by
  rw [StoreBecomes, exec_opkey, command2_succeeds s _ h hs (by simp [free]), padTo_of_length 32 hash len]
  rfl

end

/-- R424. -/
theorem firmwareCommands : Claim.FirmwareCommands := by
  intro s
  refine ⟨needsFirmware_commands s, fun h hs => ⟨fun img => ⟨stageImage_answers s h hs img, stageImage_stores s h hs img⟩,
    firmwareCommit_answers s h hs, firmwareCommit_stores s h hs, recover_stores s h hs,
    fun n => ⟨minsvn_answers s h hs n, minsvn_raises s h hs n⟩, fun hash => ⟨opkey_answers s h hs hash, opkey_stores s h hs hash⟩⟩⟩

/-- R422, R424. -/
theorem imageFromRam : Claim.ImageFromRam := by
  intro s img
  refine ⟨fun h => ?_, fun h hw => ?_, fun h hw bad => ?_, fun h hw good => ?_⟩
  · rw [exec_image, h]
    rfl
  · rw [Answers, exec_image, h, hw, reply_channel2]
    rfl
  · rw [Answers, exec_image, h, hw, if_pos bad, reply_channel2]
    rfl
  · refine ⟨((s.modFw fun f => { f with running := img, romWaiting := false }).setMgmt 0x10 (bootWord
      ((s.mgmt 0x10).extractLsb' 24 4).toNat { s.host.fw with running := img, romWaiting := false } 3)).send (.reply 2 0), ?_, rfl, rfl, rfl,
      onlyWords_of_setMgmt fun _ => rfl, ?_⟩
    · simp [exec_image, h, hw, good, reply_channel2]
    · simp [bootWord_source, bootWord_key, bootWord_version, bootWord_failCode, -BitVec.extractLsb'_toNat]

/-- R425. -/
theorem attestation : Claim.Attestation := by
  intro s nonce h hs
  refine ⟨fun none => ?_, fun some => ?_⟩
  · exact (exec_attest nonce s).trans (command2_fails s _ h hs (decide_eq_true none))
  · exact ⟨_, (exec_attest nonce s).trans (command2_succeeds s _ h hs (decide_eq_false some)), rfl, rfl, rfl,
      onlyWords_of_setMgmt fun _ => rfl, mgmt_setMgmt_same .., List.append_assoc ..⟩

/-- Settles O49: a reset by the three ways in which the ROM can boot, a function's tests by whether it is a quadrant, and each command
by its failing condition. -/
theorem resetFirmwareAndAttestation : Obligations.ResetFirmwareAndAttestation :=
  ⟨packageReset, functionsBecomeReady, firmwareCommands, imageFromRam, attestation⟩

end Sys2Proof.Machine
end

section
/-!
SUPPORT. The arithmetic words by the rows of the tables: a mould of Arith.lean gives the results of its shape (R219 to R228).
-/

namespace Sys2Proof.Machine

open Sys2Proof Sys2Proof.Laws

theorem value_twoRegs {unif : Bool} {d : BitVec 7} {ea : Bool} {a : BitVec 7} {eb : Bool} {b : BitVec 7} {ok float : Bool}
    {f : Word → Word → Option Word} {vs : List (List Word)} {v : Val} (hv : (twoRegs unif d ea a eb b ok float f).value vs = some v) :
    ∃ w, f (arg vs 0) (arg vs 1) = some w ∧ v = .words [w] := by
  simp only [twoRegs] at hv
  split at hv
  · obtain ⟨w, hw, rfl⟩ := Option.map_eq_some_iff.mp hv
    exact ⟨w, hw, rfl⟩
  · cases hv

theorem value_threeRegs {unif : Bool} {d : BitVec 7} {ea : Bool} {a : BitVec 7} {eb : Bool} {b : BitVec 7} {ok float : Bool}
    {f : Word → Word → Word → Word} {vs : List (List Word)} {v : Val} (hv : (threeRegs unif d ea a eb b ok float f).value vs = some v) :
    v = .words [f (arg vs 0) (arg vs 1) (arg vs 2)] := by
  simp only [threeRegs] at hv
  split at hv <;> cases hv
  rfl

theorem value_oneReg {unif : Bool} {d : BitVec 7} {ea : Bool} {a : BitVec 7} {ok float : Bool} {f : Word → Word}
    {vs : List (List Word)} {v : Val} (hv : (oneReg unif d ea a ok float f).value vs = some v) : v = .words [f (arg vs 0)] := by
  simp only [oneReg] at hv
  split at hv <;> cases hv
  rfl

/-- A destination of the register form takes a list of as many words as it has registers. -/
theorem fits_rDst (unif : Bool) (d : BitVec 7) (n : Nat) (ws : List Word) (h : ws.length = n) : Fits (rDst unif d n) (.words ws) := by
  cases unif
  · exact ⟨.inl rfl, h⟩
  · exact ⟨.inr rfl, h⟩

/-- R12, R219: the destination is an s-register only in the uniform form. -/
theorem unif_of_rDst (unif : Bool) (d : BitVec 7) (n : Nat) (h : (rDst unif d n).file = .s) : unif = true := by
  cases unif
  · cases h
  · rfl

/-- What a row of a table says of a word: it completes, and every executing thread holds the result of the row. -/
def RowResults (i : Instr) (s : State) (h : Here) (x : Shape) : Prop :=
  ∀ res : Nat → Token ⊕ Val, x.ready s h → (∀ t ∈ x.threads h, x.result h t = some (res t.1)) →
    ∃ g', RegisterStep i s h g' ∧ Wrote h g' x.dst ((x.threads h).map (·.1)) res

section

variable {i : Instr} {s : State} {h : Here} {unif : Bool} {d : BitVec 7} {ea : Bool} {a : BitVec 7} {eb : Bool} {b : BitVec 7}
  {tyOk float : Nat → Bool} (hh : s.here = some h)
include hh

/-- R220, R223, R224, R226. -/
theorem typed2_row {op : BinOp} (tyOk : Nat → Bool) (he : exec i s = typed2 i unif d ea a eb b tyOk (binOut op) s) :
    RowResults i s h (twoRegs unif d ea a eb b (tyOk (mType h.p.mode)) (!isInt (mType h.p.mode))
      (binTyped op (mType h.p.mode) (rndOf h.p.mode))) := by
  intro res hr hres
  refine results_row i s h hh _ _ res (he.trans (issuing_eq s h _ hh)) rfl rfl rfl rfl rfl id (unif_of_rDst unif d 1) ?_ hr hres
  intro t vs v hv
  obtain ⟨w, hw, rfl⟩ := value_twoRegs hv
  exact ⟨by simp only [binOut, hw, toOut], fits_rDst unif d 1 _ rfl⟩

/-- R223. -/
theorem typed3_row (he : exec i s = typed3 i unif d ea a eb b s) :
    RowResults i s h (threeRegs unif d ea a eb b (allTypes (mType h.p.mode)) (!isInt (mType h.p.mode))
      (fmaTyped (mType h.p.mode) (rndOf h.p.mode))) := by
  intro res hr hres
  refine results_row i s h hh _ _ res (he.trans (issuing_eq s h _ hh)) rfl rfl rfl rfl rfl id (unif_of_rDst unif d 1) ?_ hr hres
  intro t vs v hv
  cases value_threeRegs hv
  exact ⟨rfl, fits_rDst unif d 1 _ rfl⟩

/-- R220. -/
theorem typed1_row {f : BitVec 16 → Word → Word} (he : exec i s = typed1 i unif d ea a tyOk float f s) :
    RowResults i s h (oneReg unif d ea a (tyOk (mType h.p.mode)) (float (mType h.p.mode)) (f h.p.mode)) := by
  intro res hr hres
  refine results_row i s h hh _ _ res (he.trans (issuing_eq s h _ hh)) rfl rfl rfl rfl rfl id (unif_of_rDst unif d 1) ?_ hr hres
  intro t vs v hv
  cases value_oneReg hv
  exact ⟨rfl, fits_rDst unif d 1 _ rfl⟩

/-- R223: ADDI. -/
theorem addImmediate_row {k : BitVec 8} (he : exec i s = typed1 i unif d ea a intTypes (fun _ => false)
      (fun m x => (binTyped .add (mType m) (rndOf m) x (immWord (mType m) k)).getD 0) s) :
    RowResults i s h (oneReg unif d ea a (intTypes (mType h.p.mode)) false
      fun x => (binTyped .add (mType h.p.mode) (rndOf h.p.mode) x (immWord (mType h.p.mode) k)).getD 0) := typed1_row hh he

/-- R225: NEG and ABS. -/
theorem sign_row {neg : Bool} (he : exec i s = typed1 i unif d ea a allTypes (!isInt ·) (fun m x => negAbsTyped neg (mType m) (mSat m) x) s) :
    RowResults i s h (oneReg unif d ea a (allTypes (mType h.p.mode)) (!isInt (mType h.p.mode))
      (negAbsTyped neg (mType h.p.mode) (mSat h.p.mode))) := typed1_row hh he

/-- R228. -/
theorem special_row {fn : SfFn} (he : exec i s = typed1 i unif d ea a floatTypes (fun _ => true)
      (fun m x => sfTyped fn (mType m) (rndOf m) x) s) :
    RowResults i s h (oneReg unif d ea a (floatTypes (mType h.p.mode)) true (sfTyped fn (mType h.p.mode) (rndOf h.p.mode))) :=
  typed1_row hh he

end

/-- R220, R223, R224, R226: sixteen words of two sources, and ADDI, which is a word of one. -/
theorem typedOperationResults : Claim.TypedOperationResults := by
  intro i s h x res hh hx
  unfold typedTable at hx
  split at hx <;> cases hx
  iterate 12 exact typed2_row hh allTypes rfl res
  iterate 4 exact typed2_row hh intTypes rfl res
  iterate 2 exact addImmediate_row hh rfl res

/-- R223, R225, R228: FMA, the sign operations, and the special functions. -/
theorem unaryAndSpecialFunctionResults : Claim.UnaryAndSpecialFunctionResults := by
  intro i s h x res hh hx
  unfold unaryTable at hx
  split at hx <;> cases hx
  iterate 2 exact typed3_row hh rfl res
  iterate 4 exact sign_row hh rfl res
  iterate 14 exact special_row hh rfl res

/-- Settles O1: each word by the row of its mould. -/
theorem arithmeticResults : Obligations.ArithmeticResults := ⟨typedOperationResults, unaryAndSpecialFunctionResults⟩

end Sys2Proof.Machine
end

section
/-!
SUPPORT. Words that read and write system values (R211 to R213), and what a word leaves of its group when it retires.
-/

namespace Sys2Proof.Machine

open Sys2Proof Sys2Proof.Laws

/-! ## Record mode (R459) -/

/-- R459: outside an interval and a replay a received value passes as it is. -/
theorem receive_unlogged {s : State} {tag : Nat} (hl : logging s tag = false) (kind : Nat) (id : BitVec 16) (gid order : Nat)
    (count index : Word) (foreign : Bool) (v : Logged) : receive s tag kind id gid order count index foreign v = some (v, s) := by
  unfold receive
  unfold logging at hl
  cases hc : s.ctx tag with
  | none => rfl
  | some c =>
    obtain ⟨hi, hs⟩ : c.rep.interval = false ∧ c.rep.status ≠ 1 := by simpa [hc] using hl
    simp [hi, hs]

/-- A result of one word, or of none. -/
def OneWord (o : ThreadOut) : Prop := ∀ ws, o = .words ws → ws.length = 1

theorem logOuts_unlogged {s : State} {h : Here} (hl : logging s h.w.ctx = false) (outs : List (Nat × ThreadOut)) (ho : ∀ o ∈ outs, OneWord o.2) :
    logOuts s h outs = some (outs, s) := by
  induction outs with
  | nil => rfl
  | cons o l ih =>
    have ihl := ih fun o h => ho o (List.mem_cons_of_mem _ h)
    obtain ⟨t, r⟩ := o
    have hr : OneWord r := ho _ (List.mem_cons_self ..)
    cases r with
    | words ws =>
      obtain ⟨w, rfl⟩ := List.length_eq_one_iff.mp (hr ws rfl)
      simp [logOuts, logged, receive_unlogged hl, ihl]
    | _ => simp [logOuts, ihl]

/-! ## Instructions of the mould without sources -/

/-- What a thread gets from an instruction without sources: the token of a poisoned guard, or its value. -/
def readOut (f : Nat → Word) (t : Nat × Option Token) : Token ⊕ Val := guarded t (.inr (.words [f t.1]))

/-- The mould of an instruction that reads a value of the machine into a register. -/
def readOp (unif : Bool) (d : BitVec 7) (f : Nat → Word) : AluOp :=
  { unif := unif, srcs := [], dst := rDst unif d, f := fun t _ => .words [f t] }

section

variable (s : State) (h : Here) (unif : Bool) (d : BitVec 7) (f : Nat → Word)

theorem aluOut_readOp (t : Nat × Option Token) : aluOut s h (readOp unif d f) t.1 t.2 = toOut (readOut f t) := by
  obtain ⟨t, _ | k⟩ := t <;> rfl

theorem oneWord_readOut (t : Nat × Option Token) : OneWord (toOut (readOut f t)) := by
  intro ws hw
  obtain ⟨t, _ | k⟩ := t
  · cases hw
    rfl
  · cases hw

/-- The results of an instruction that reads a value of the machine. -/
def readOuts : List (Nat × ThreadOut) := (execThreads unif h.g h.p).map fun t => (t.1, toOut (readOut f t))

variable (hc : operandCheck h [] (some (rDst unif d)) true = none)
  (hr : operandsReady h (execThreads unif h.g h.p) [] (some (rDst unif d)) = true)
include hc hr

/-- R211, R212: a read that record mode does not log. -/
theorem alu_readOp (i : Instr) : alu i s h (readOp unif d f) = .next (retire (writeAll s h (rDst unif d) (readOuts h unif f)) h) := by
  have hset : settle s h (readOuts h unif f) = (readOuts h unif f, s) :=
    settle_toOut s h (execThreads unif h.g h.p) (·.1) _ fun t _ => ⟨_, rfl⟩
  have hnone : noFresh (readOuts h unif f) := by
    intro o ho
    obtain ⟨⟨t, _ | k⟩, -, rfl⟩ := List.mem_map.mp ho <;> exact nofun
  have houts : ((aluThreads h (readOp unif d f)).map fun t => (t.1, aluOut s h (readOp unif d f) t.1 t.2)) = readOuts h unif f :=
    List.map_congr_left fun t _ => by rw [aluOut_readOp]
  have hlate : aluLate h (readOp unif d f) (aluThreads h (readOp unif d f)) = [] := by simp [aluLate, readOp, lateReads]
  have hready : operandsReady h (aluThreads h (readOp unif d f)) (readOp unif d f).srcs (some (readOp unif d f).dst) = true := hr
  unfold alu aluEffect
  simp only [houts, hlate, hset, countShadow_noFresh s h _ _ hnone, hready, if_true]
  simp only [readOp, hc]

/-- R212, R213, R459: a read that record mode logs, while it is off. -/
theorem aluLogged_readOp (i : Instr) (after : State → State) (hl : logging s h.w.ctx = false) :
    aluLogged i s h (readOp unif d f) after = .next (retire (writeAll
      (if (execThreads unif h.g h.p).any (·.2.isNone) then after s else s) h (rDst unif d) (readOuts h unif f)) h) := by
  have houts : ((aluThreads h (readOp unif d f)).map fun t => (t.1, aluOut s h (readOp unif d f) t.1 t.2)) = readOuts h unif f :=
    List.map_congr_left fun t _ => by rw [aluOut_readOp]
  have hlog : logOuts s h (readOuts h unif f) = some (readOuts h unif f, s) := logOuts_unlogged hl _ fun o ho => by
    obtain ⟨t, -, rfl⟩ := List.mem_map.mp ho
    exact oneWord_readOut f t
  have hready : operandsReady h (aluThreads h (readOp unif d f)) (readOp unif d f).srcs (some (readOp unif d f).dst) = true := hr
  unfold aluLogged
  simp only [houts, hlog, hready]
  simp only [readOp, hc]
  rfl

variable (hh : s.here = some h) (i : Instr)
include hh

omit f in
/-- R211. -/
theorem getid_reads (k : BitVec 3) : getid i unif d k s = .next (retire (writeAll s h (rDst unif d)
    (readOuts h unif fun t => coordinate h.g k.toNat (if unif then firstActive h else t))) h) :=
  (issuing_eq s h _ hh).trans (alu_readOp s h unif d _ hc hr i)

variable (hl : logging s h.w.ctx = false)
include hl

omit f in
/-- R212. -/
theorem getsys_reads (n : BitVec 4) : getsys i unif d n s =
    .next (retire (writeAll s h (rDst unif d) (readOuts h unif fun _ => sysItem s h n.toNat)) h) := by
  refine (issuing_eq s h _ hh).trans ?_
  by_cases hn : n = 13
  · refine (if_pos hn).trans ((aluLogged_readOp s h unif d _ hc hr i id hl).trans ?_)
    rw [id, ite_self]
  · exact (if_neg hn).trans (alu_readOp s h unif d _ hc hr i)

omit f in
/-- R213. -/
theorem sysr_reads (n : BitVec 8) (hn : n ≠ 3) : sysr i unif d n s = .next (retire (writeAll s h (rDst unif d)
    (readOuts h unif fun t => sysReg s h (if unif then firstActive h else t) n.toNat)) h) := by
  refine (issuing_eq s h _ hh).trans ((aluLogged_readOp s h unif d _ hc hr i _ hl).trans ?_)
  rw [if_neg hn, ite_self]

omit f in
/-- R213: reading cyc_lo latches the upper half of the cycle count. -/
theorem sysr_latches (hany : (execThreads unif h.g h.p).any (·.2.isNone) = true) : sysr i unif d 3 s = .next (retire (writeAll
    (s.modGroup h.g.id fun g => { g with cycHi := (Config.cycles s.ctl.tick).extractLsb' 32 32 }).bump h (rDst unif d)
    (readOuts h unif fun _ => (Config.cycles s.ctl.tick).extractLsb' 0 32)) h) := by
  refine (issuing_eq s h _ hh).trans ((aluLogged_readOp s h unif d _ hc hr i _ hl).trans ?_)
  rw [if_pos rfl, hany]
  rfl

end

/-- R211 to R213: each word of the table reads its value, with record mode off. -/
theorem exec_readTable {i : Instr} {s : State} {h : Here} {unif : Bool} {d : BitVec 7} {f : Nat → Word} (hh : s.here = some h)
    (ht : readTable s h i = some (unif, d, f)) (hl : logging s h.w.ctx = false) (hc : operandCheck h [] (some (rDst unif d)) true = none)
    (hr : operandsReady h (execThreads unif h.g h.p) [] (some (rDst unif d)) = true) :
    exec i s = .next (retire (writeAll s h (rDst unif d) (readOuts h unif f)) h) := by
  unfold readTable at ht
  split at ht
  · cases ht
    exact getid_reads s h false d hc hr hh _ _
  · cases ht
    exact getid_reads s h true d hc hr hh _ _
  · cases ht
    exact getsys_reads s h false d hc hr hh _ hl _
  · cases ht
    exact getsys_reads s h true d hc hr hh _ hl _
  · split at ht <;> cases ht
    rename_i hn
    exact sysr_reads s h false d hc hr hh _ hl _ hn
  · split at ht <;> cases ht
    rename_i hn
    exact sysr_reads s h true d hc hr hh _ hl _ hn
  · cases ht

/-! ## Words that retire -/

/-- R446: a group that went on at the next word after its own changes. -/
theorem wentOn_goneOn {h : Here} (hp : sfind h.g.paths h.pid = some h.p) {g : Group} (hg : g.paths = h.g.paths) (hr : g.retired = h.g.retired)
    (pc : DWord) : WentOn h (g.goneOn h.pid pc) pc := by
  refine ⟨by simp [Group.goneOn, hr], by simp [Group.goneOn, hg, hp], fun q hq => ?_⟩
  simp only [Group.goneOn, hg, sfind_smod_other _ _ _ _ hq]

theorem group_retire {s : State} {h : Here} {g : Group} (hg : s.group h.g.id = some g) :
    (retire s h).group h.g.id = some (g.goneOn h.pid (nextPc h.p.pc)) := by
  simp [retire, retireAt, countRetire, State.modPath, hg, Group.goneOn, Group.modPath]

theorem group_writeAll {s : State} {h : Here} {g : Group} (hg : s.group h.g.id = some g) (d : Dst) (outs : List (Nat × ThreadOut)) :
    (writeAll s h d outs).group h.g.id = some (outs.foldl (fun g o => writeOut h.p d g o.1 o.2) g) := by
  simp [writeAll, hg]

/-- R178: a word that a check rejects. -/
theorem illegal_of_reject {i : Instr} {s : State} {h : Here} {r : Nat} (he : exec i s = reject s h i r) : Illegal i s h (encode i) r := by
  rw [Illegal, he, reject, illegal, resumes]
  simp only [decide_eq_true_eq]
  rfl

/-- R64: outside a span nothing is committed before a word issues. -/
theorem withCommit_closed {h : Here} (hc : closedSpan h) (i : Instr) (s : State) (overflow : Bool) (k : State → Here → Result) :
    withCommit i s h overflow k = k s h := by
  have : spanOpen h = false := by simpa [spanOpen, closedSpan] using hc
  simp [withCommit, this]

/-! ## Reading (R211 to R213) -/

theorem fits_readOut (unif : Bool) (d : BitVec 7) (f : Nat → Word) (t : Nat × Option Token) (v : Val) (hv : readOut f t = .inr v) :
    Fits (rDst unif d) v := by
  obtain ⟨t, _ | k⟩ := t <;> cases hv
  exact fits_rDst unif d 1 _ rfl

/-- R12: a destination of the register form is written by one thread where it is uniform. -/
theorem execThreads_rDst (unif : Bool) (d : BitVec 7) (g : Group) (p : Path) (hd : (rDst unif d).file = .s) :
    (execThreads unif g p).length ≤ 1 := by
  cases unif_of_rDst unif d 1 hd
  exact uniThreads_length g p

/-- Reads written one by one leave the registers as `Wrote` says. -/
theorem wrote_readOuts {h : Here} {unif : Bool} {d : BitVec 7} {f : Nat → Word} {res : Nat → Token ⊕ Val}
    (hres : ∀ t ∈ execThreads unif h.g h.p, res t.1 = readOut f t) {g' : Group}
    (hg : g'.v = ((readOuts h unif f).foldl (fun g o => writeOut h.p (rDst unif d) g o.1 o.2) h.g).v ∧
      g'.sr = ((readOuts h unif f).foldl (fun g o => writeOut h.p (rDst unif d) g o.1 o.2) h.g).sr ∧
      g'.p = ((readOuts h unif f).foldl (fun g o => writeOut h.p (rDst unif d) g o.1 o.2) h.g).p ∧
      g'.x = ((readOuts h unif f).foldl (fun g o => writeOut h.p (rDst unif d) g o.1 o.2) h.g).x) :
    Wrote h g' (rDst unif d) ((execThreads unif h.g h.p).map (·.1)) res := by
  have threads : (readOuts h unif f).map (·.1) = (execThreads unif h.g h.p).map (·.1) := List.map_map
  have each (q : Nat × ThreadOut → Prop) (hq : ∀ t ∈ execThreads unif h.g h.p, q (t.1, toOut (readOut f t))) :
      ∀ o ∈ readOuts h unif f, q o := by
    intro o ho
    obtain ⟨t, ht, rfl⟩ := List.mem_map.mp ho
    exact hq t ht
  rw [← threads]
  refine wrote_of h (rDst unif d) (readOuts h unif f) res (threads ▸ execThreads_nodup ..) (each _ (execThreads_lt _ _ _)) (fun hd => ?_)
    (each _ fun t ht => by rw [hres t ht]) (each _ fun t ht v hv => fits_readOut unif d f t v (by rw [← hv, hres t ht])) g' hg
  rw [readOuts, List.length_map]
  exact execThreads_rDst unif d _ _ hd

/-- R211 to R213. -/
theorem identityAndSystemReads : Claim.IdentityAndSystemReads := by
  intro i s h unif d f res hh ht hl hc hr hres
  exact outs_row i s h hh (rDst unif d) (execThreads unif h.g h.p) (fun t => toOut (readOut f t)) res (exec_readTable hh ht hl hc hr)
    (execThreads_nodup ..) (execThreads_lt _ _ _) (execThreads_rDst unif d _ _) (fun t h => by rw [hres t h]; rfl)
    (fun t h v hv => fits_readOut unif d f t v (by rw [← hv, hres t h]; rfl))

/-- R213. -/
theorem cycleCountLatches : Claim.CycleCountLatches := by
  intro s h unif d res hh hl hc hr hres hany
  obtain ⟨-, hg, -, -, hp⟩ := here_eq s h hh
  let h' : Here := { h with g := { h.g with cycHi := (Config.cycles s.ctl.tick).extractLsb' 32 32 } }
  let lo : Nat → Word := fun _ => (Config.cycles s.ctl.tick).extractLsb' 0 32
  let outs := readOuts h unif lo
  have hw := sameButRegs_writes h.p (rDst unif d) outs h'.g
  have he : exec (if unif then .sysrU d 3 else .sysr d 3) s = sysr (if unif then .sysrU d 3 else .sysr d 3) unif d 3 s := by
    cases unif <;> rfl
  refine ⟨_, (outs.foldl (fun g o => writeOut h.p (rDst unif d) g o.1 o.2) h'.g).goneOn h.pid (nextPc h.p.pc),
    ⟨he.trans (sysr_latches s h unif d hc hr hh _ hl hany), fun _ => rfl, rfl, ?_, ?_⟩, ?_, ?_⟩
  · exact group_retire (group_writeAll (by simp [hg]; rfl) _ _)
  · exact wentOn_goneOn hp (by rw [hw]) (by rw [hw]) _
  · unfold OnlyRegisters
    rw [hw]
    rfl
  · exact wrote_readOuts (h := h') (f := lo) hres ⟨rfl, rfl, rfl, rfl⟩

/-! ## Writing (R213) -/

/-- R213: SYSW with a clean source in a closed span. -/
theorem exec_sysw {s : State} {h : Here} {a : BitVec 7} {ea : Bool} {n : BitVec 8} {t0 : Nat} {x : Word} (hh : s.here = some h)
    (hu : uniThreads h.g h.p = [(t0, none)]) (hr : operandsReady h (uniThreads h.g h.p) [⟨.s, a.toNat, ea, 1⟩] none = true)
    (hx : readSrc h.g h.p ⟨.s, a.toNat, ea, 1⟩ t0 = .words [x]) (hc : closedSpan h)
    (may : n = 0 ∨ n = 9 → privileged s h.w = true) : exec (.sysw ea a n) s = .next (retire (sysWrite s h n.toNat x) h) := by
  refine (issuing_eq s h _ hh).trans ?_
  have allowed : ((n = 0 || n = 9) && !(s.launch h.w.launch).any (·.priv) : Bool) = false := by
    rw [Bool.and_eq_false_iff]
    by_cases hn : n = 0 ∨ n = 9
    · exact .inr (Bool.not_eq_false' .. |>.mpr (may hn))
    · exact .inl (by simpa using hn)
  rw [hu] at hr
  simp only [allowed, hr, Bool.not_true, Bool.false_eq_true, if_false, withCommit_closed hc, hu, hx, List.headD_cons]

theorem group_sysWrite_ctx {s : State} {h : Here} {n : Nat} (hn : n = 0 ∨ n = 9) (x : Word) (k : Nat) : (sysWrite s h n x).group k = s.group k := by
  rcases hn with rfl | rfl <;> rfl

theorem ctx_sysWrite {s : State} {h : Here} {n : BitVec 8} (hn : n = 0 ∨ n = 9) (x : Word) (k : Nat) :
    (sysWrite s h n.toNat x).ctx k = if k = h.w.ctx then (s.ctx k).map (fun c => if n = 0 then { c with wdogCtl := x &&& 0xBF#32 }
      else { c with trapPc := x.setWidth 24 }) else s.ctx k := by
  rcases hn with rfl | rfl
  · exact (ctx_modCtx ..).trans (by split <;> simp_all)
  · exact (ctx_modCtx ..).trans (by split <;> simp_all)

/-- R37, R213. -/
theorem systemRegisterWrite : Claim.SystemRegisterWrite := by
  intro s h a ea n t0 x hh hu hr hx hc
  obtain ⟨-, hg, -, -, hp⟩ := here_eq s h hh
  refine ⟨fun hn hpriv => illegal_of_reject ?_, fun hn hpriv => ?_, fun lo hi => ?_⟩
  · refine (issuing_eq s h _ hh).trans (if_pos ?_)
    have : (s.launch h.w.launch).any (·.priv) = false := hpriv
    simpa [this] using hn
  · have hn' : n.toNat = 0 ∨ n.toNat = 9 := by
      rcases hn with rfl | rfl
      · exact .inl rfl
      · exact .inr rfl
    refine ⟨_, h.g.goneOn h.pid (nextPc h.p.pc), exec_sysw hh hu hr hx hc fun _ => hpriv, ?_,
      group_retire ((group_sysWrite_ctx hn' x _).trans hg), wentOn_goneOn hp rfl rfl _, rfl, ctx_sysWrite hn x⟩
    rcases hn with rfl | rfl <;> rfl
  · have h0 : n ≠ 0 := by rintro rfl; simp at lo
    have h9 : n ≠ 9 := by rintro rfl; simp at lo
    have hw : sysWrite s h n.toNat x = s.modGroup h.g.id fun g => { g with scr := sput 0 g.scr (n.toNat - 0x10) x } := by
      rw [sysWrite, if_neg (by omega), if_neg (by omega)]
    refine ⟨({ h.g with scr := sput 0 h.g.scr (n.toNat - 0x10) x } : Group).goneOn h.pid (nextPc h.p.pc),
      ⟨_, ?_, rfl, fun _ => rfl, fun k hk => ?_, rfl⟩, wentOn_goneOn hp rfl rfl _, rfl⟩
    · rw [exec_sysw hh hu hr hx hc fun e => (e.elim h0 h9).elim, hw]
      exact congrArg _ (retireAt_modGroup s h hh _ rfl _)
    · rw [group_setGroup, if_neg hk]

/-- Settles O16: reads by the row of each word, the latch of cyc_lo, and SYSW by the register that it names. -/
theorem systemReadsAndWrites : Obligations.SystemReadsAndWrites := ⟨identityAndSystemReads, cycleCountLatches, systemRegisterWrite⟩

end Sys2Proof.Machine
end

section
/-!
SUPPORT. Masks of threads; what a write in a scratchpad and what waking a monitor leave (R53, R70, R82); groups that differ in their
monitor only.
-/

namespace Sys2Proof.Machine

open Sys2Proof Sys2Proof.Laws

/-! ## Masks -/

theorem getLsbD_oneAt (t i : Nat) (hi : i < 128) : (1#128 <<< t).getLsbD i = decide (i = t) := by
  rw [BitVec.getLsbD_shiftLeft, BitVec.getLsbD_one]
  by_cases h : i = t
  · simp [h, show t < 128 from h ▸ hi]
  · rw [decide_eq_false h]
    by_cases hlt : i < t
    · simp [hlt]
    · simp [show ¬ i - t = 0 by omega]

/-- A mask made of a test holds the threads that pass it. -/
theorem getLsbD_maskOf (f : Nat → Bool) (i : Nat) (hi : i < 128) : (maskOf f).getLsbD i = f i := by
  have fold : ∀ (l : List Nat) (m : Mask), (l.foldl (fun m t => if f t then m ||| (1#128 <<< t) else m) m).getLsbD i =
      (m.getLsbD i || (decide (i ∈ l) && f i)) := by
    intro l
    induction l with
    | nil => simp
    | cons t l ih =>
      intro m
      rw [List.foldl_cons, ih]
      by_cases ht : i = t
      · subst ht
        cases hf : f i <;> simp [getLsbD_oneAt _ _ hi]
      · cases hf : f t <;> simp [getLsbD_oneAt _ _ hi, ht]
  rw [maskOf, fold]
  simp [hi]

theorem maskOf_congr {f f' : Nat → Bool} (h : ∀ t, t < 128 → f t = f' t) : maskOf f = maskOf f' :=
  BitVec.eq_of_getLsbD_eq fun i hi => by rw [getLsbD_maskOf f i hi, getLsbD_maskOf f' i hi, h i hi]

theorem mem_threadsOf {m : Mask} {t : Nat} : t ∈ threadsOf m ↔ t < 128 ∧ m.getLsbD t = true := by
  unfold threadsOf
  split
  · rename_i h
    simp [h]
  · simp

/-! ## Groups but for their monitors (R82) -/

theorem quiet_eq {g g' : Group} (h : quiet g' = quiet g) : g' = { g with mon := g'.mon } := by
  cases g
  cases g'
  simp only [quiet, Group.mk.injEq] at h ⊢
  simp only [h, and_self]

theorem sfind_map {α β : Type} (m : SMap α) (f : α → β) (k : Nat) : sfind (m.map fun kx => (kx.1, f kx.2)) k = (sfind m k).map f := by
  induction m with
  | nil => rfl
  | cons kx m ih =>
    obtain ⟨k', x⟩ := kx
    by_cases h : k = k' <;> simp [sfind, h, ih]

theorem group_mapGroups (s : State) (f : Group → Group) (k : Nat) : (s.mapGroups f).group k = (s.group k).map f := sfind_map _ f k

theorem SameGroups.trans {s t u : State} (h : SameGroups s t) (h' : SameGroups t u) : SameGroups s u := fun k => (h' k).trans (h k)

theorem SameGroups.group {s t : State} (h : SameGroups s t) {k : Nat} {g : Group} (hg : s.group k = some g) :
    ∃ m, t.group k = some { g with mon := m } := by
  have := h k
  rw [hg] at this
  obtain ⟨g', hg', hq⟩ := Option.map_eq_some_iff.mp this
  exact ⟨g'.mon, hg'.trans (congrArg some (quiet_eq hq))⟩

theorem sameGroups_wakeMonitors (s : State) (a : Nat) : SameGroups s (wakeMonitors s a) := by
  intro k
  rw [wakeMonitors, group_mapGroups, Option.map_map]
  congr 1
  funext g
  simp only [Function.comp]
  split <;> rfl

theorem sameGroups_writeHalf (s : State) (a : Nat) (be : BitVec 4) : SameGroups s (writeHalf s a be) := by
  intro k
  unfold writeHalf
  split <;> rfl

/-! ## Whole words (R53, R87) -/

theorem mergeBytes_all (old new : Word) : mergeBytes old new 0xF = new := wordOfBytes_bytesOfWord new

theorem memByte_pokePart_all (m : MemSys) (g a c : Nat) (v : Word) (p : Bool) (o : Word) (va : DWord) :
    memByte (pokePart m g a v 0xF p o va) c = memByte (setWord m a v) c := by
  rw [pokePart, mergeBytes_all]
  exact memByte_pokeWord ..

/-! ## Words of a scratchpad (R70) -/

/-- Above every physical address no half goes to the host. -/
theorem writeHalf_scratch (s : State) {a : Nat} (ha : 0x10000000000000 ≤ a) (be : BitVec 4) : writeHalf s a be = s := by
  have : regionOf a = .reserved := by rw [regionOf, if_pos ha]
  rw [writeHalf, this]

theorem scratchBase_ge (w : WG) : 0x10000000000000 ≤ w.scratchBase := Nat.le_add_right _ _

theorem scratch_ge (w : WG) (off : Nat) : 0x10000000000000 ≤ w.scratchBase + off := Nat.le_add_right_of_le (scratchBase_ge w)

section

variable (s : State) (ags : List Nat) {a : Nat} (ha : 0x10000000000000 ≤ a) (v : Word) (p : Bool) (o : Word) (va : DWord)

theorem memByte_writeHalf (be : BitVec 4) (c : Nat) : memByte (writeHalf s a be).mem c = memByte s.mem c := by
  unfold writeHalf
  split <;> rfl

/-- R53, R82, R87: what a write of a whole word leaves in memory. -/
theorem memByte_writeOne (c : Nat) : memByte (writeOne s ags a v 0xF p o va).mem c = memByte (setWord s.mem a v) c := by
  unfold writeOne
  rw [memByte_writeHalf]
  refine (memByte_of_bytes ?_ c).trans (memByte_pokePart_all s.mem (ags.headD deviceAgent) a c v p o va)
  exact foldl_bytes (fun m g => raiseFloors m g [(a, m.seq)]) (fun _ _ => raiseFloors_bytes ..) ags.tail _

theorem sameGroups_writeOne (be : BitVec 4) : SameGroups s (writeOne s ags a v be p o va) := by
  unfold writeOne
  exact (sameGroups_wakeMonitors (s.withMem _) a).trans (sameGroups_writeHalf _ a be)

include ha

theorem writeOne_scratch_host (be : BitVec 4) : (writeOne s ags a v be p o va).host = s.host := by
  rw [writeOne, writeHalf_scratch _ ha]
  rfl

theorem writeOne_scratch_nextId (be : BitVec 4) : (writeOne s ags a v be p o va).exe.nextId = s.exe.nextId := by
  rw [writeOne, writeHalf_scratch _ ha]
  rfl

end

end Sys2Proof.Machine
end

section
/-!
SUPPORT. REGROUP until its path parks (R13, R14, R16), and the request that FETCHWG enters (R29, R32).
-/

namespace Sys2Proof.Machine

open Sys2Proof Sys2Proof.Laws

/-! ## REGROUP -/

/-- A word that changes its own group only, without retiring. -/
theorem modGroup_setGroup {s : State} {gid : Nat} {g : Group} (hg : s.group gid = some g) (f : Group → Group) (hid : (f g).id = gid) :
    s.modGroup gid f = s.setGroup (f g) := by
  rw [modGroup_of_group _ _ _ _ hg, State.setGroup, hid]

theorem onlyGroup_setGroup (s : State) (g' : Group) : OnlyGroup s (s.setGroup g') g' :=
  ⟨rfl, fun _ => rfl, fun k hk => by rw [group_setGroup, if_neg hk], rfl⟩

/-- R9: a word that parks its path and leaves all else. -/
theorem parks_of_parkAs {i : Instr} {s : State} {h : Here} {k : Park} (hh : s.here = some h) (hk : h.p.park ≠ k)
    (he : exec i s = .next (parkAs s h k)) : Parks i s h k := by
  obtain ⟨-, hg, -, -, hp⟩ := here_eq s h hh
  refine ⟨h.g.modPath h.pid fun p => { p with park := k }, ⟨_, ?_, onlyGroup_setGroup _ _⟩, rfl, ?_, fun q hq => ?_⟩
  · rw [he, parkAs, if_neg hk, State.modPath, modGroup_setGroup hg _ rfl]
  · simp [PathAt, Group.modPath, hp]
  · exact sfind_smod_other _ _ _ _ hq

section

variable {s : State} {h : Here} {p : BitVec 3}

/-- R161: a predicate source is full where the predicate is. -/
theorem srcReady_pSrc {ea : Bool} {ts : List Nat} (hf : ∀ t ∈ ts, (pGet h.g p.toNat t).full = true) : srcReady h.g h.p (pSrc p ea) ts = true := by
  rw [srcReady, Bool.or_eq_true, List.all_eq_true]
  exact .inr fun t ht => by simpa [srcFull, regsOf, pSrc] using hf t ht

/-- R41, R161: a full predicate reads as its token or as one word. -/
theorem readSrc_pSrc {ea : Bool} {t : Nat} (hf : (pGet h.g p.toNat t).full = true) : readSrc h.g h.p (pSrc p ea) t =
    if (pGet h.g p.toNat t).poi then .poison (((pGet h.g p.toNat t).tok.setWidth 32).setWidth 10) else .words [bitW (pGet h.g p.toNat t).val] := by
  cases hp : (pGet h.g p.toNat t).poi <;> simp [readSrc, regsOf, pSrc, hf, hp]

theorem readSrc_pSrc_true {ea : Bool} {t : Nat} (hf : (pGet h.g p.toNat t).full = true) :
    decide (readSrc h.g h.p (pSrc p ea) t = .words [1]) = ((pGet h.g p.toNat t).val && !(pGet h.g p.toNat t).poi) := by
  rw [readSrc_pSrc hf]
  cases (pGet h.g p.toNat t).poi <;> cases (pGet h.g p.toNat t).val <;> simp [bitW]

/-- R14: the threads of the path whose predicate reads true. -/
theorem regroup_threads {ea : Bool} (hf : ∀ t ∈ threadsOf h.p.mask, (pGet h.g p.toNat t).full = true) :
    (maskOf fun t => (threadsOf h.p.mask).contains t && decide (readSrc h.g h.p (pSrc p ea) t = .words [1])) =
      maskOf fun t => h.p.mask.getLsbD t && (pGet h.g p.toNat t).val && !(pGet h.g p.toNat t).poi := by
  refine maskOf_congr fun t ht => ?_
  by_cases hm : t ∈ threadsOf h.p.mask
  · rw [List.contains_iff_mem.mpr hm, (mem_threadsOf.mp hm).2, readSrc_pSrc_true (hf t hm), Bool.and_assoc]
  · have hc : (threadsOf h.p.mask).contains t = false := by simpa using hm
    have hb : h.p.mask.getLsbD t = false := by simpa [mem_threadsOf, ht] using hm
    rw [hc, hb]
    rfl

variable {ea : Bool} (hh : s.here = some h) (hd : diverged h.g = false) (hm : h.p.meld = none) (hc : closedSpan h)
  (hp : ∀ m, h.p.park ≠ .regroup m) (hf : ∀ t ∈ threadsOf h.p.mask, (pGet h.g p.toNat t).full = true)
include hh hd hm hc hp hf

/-- R14: the words of REGROUP that pass its checks and wait for nothing. -/
theorem exec_regroup : exec (.regroup ea p) s =
    if !(s.launch h.w.launch).any (·.regroup) then
      .next (retire (s.modCtx h.w.ctx fun c => { c with rgDeny := satAdd c.rgDeny 1 }) h)
    else .next (parkAs s h (.regroup (maskOf fun t => h.p.mask.getLsbD t && (pGet h.g p.toNat t).val && !(pGet h.g p.toNat t).poi))) := by
  refine (issuing_eq s h _ hh).trans ?_
  have parked : (match h.p.park with | .regroup _ => true | _ => false) = false := by
    split
    · rename_i m hk
      exact absurd hk (hp m)
    · rfl
  have full : ((threadsOf h.p.mask).filter fun t => readSrc h.g h.p (pSrc p ea) t = .empty) = [] := by
    rw [List.filter_eq_nil_iff]
    intro t ht
    rw [readSrc_pSrc (hf t ht)]
    split <;> simp
  rw [← regroup_threads hf (ea := ea)]
  simp only [hd, hm, Option.isSome_none, Bool.or_self, Bool.false_eq_true, if_false, srcReady_pSrc hf, Bool.not_true,
    withCommit_closed hc, full, List.map_nil, newRecords, List.foldl_nil]

/-- R13: a REGROUP that the launch does not allow. -/
theorem exec_regroup_denied (deny : (s.launch h.w.launch).any (·.regroup) = false) : exec (.regroup ea p) s =
    .next (retire (s.modCtx h.w.ctx fun c => { c with rgDeny := satAdd c.rgDeny 1 }) h) := by
  rw [exec_regroup hh hd hm hc hp hf, deny]
  exact if_pos rfl

/-- R14: a REGROUP that the launch allows. -/
theorem exec_regroup_allowed (allow : (s.launch h.w.launch).any (·.regroup) = true) : exec (.regroup ea p) s =
    .next (parkAs s h (.regroup (maskOf fun t => h.p.mask.getLsbD t && (pGet h.g p.toNat t).val && !(pGet h.g p.toNat t).poi))) := by
  rw [exec_regroup hh hd hm hc hp hf, allow]
  exact if_neg Bool.false_ne_true

end

theorem ctx_modCtx_eq (s : State) (tag k : Nat) (f : Context → Context) :
    (s.modCtx tag f).ctx k = if k = tag then (s.ctx k).map f else s.ctx k := by
  rw [ctx_modCtx]
  by_cases h : k = tag <;> simp [h]

/-- R13, R14, R16. -/
theorem regroupParks : Claim.RegroupParks := by
  intro s h ea p hh
  obtain ⟨-, hg, -, -, hp⟩ := here_eq s h hh
  refine ⟨fun bad => illegal_of_reject ((issuing_eq s h _ hh).trans (if_pos (by simpa using bad))), fun hd hm hc hk =>
    ⟨fun deny hf => ⟨_, h.g.goneOn h.pid (nextPc h.p.pc), exec_regroup_denied hh hd hm hc hk hf deny, rfl, group_retire hg,
      wentOn_goneOn hp rfl rfl _, rfl, fun k => ctx_modCtx_eq s _ k _⟩,
    fun allow hf => parks_of_parkAs hh (hk _) (exec_regroup_allowed hh hd hm hc hk hf allow)⟩⟩

/-! ## FETCHWG -/

/-- R29: what FETCHWG does once it has cleared its mailbox: it empties its destination, enters its request and retires. -/
def enterFetch (s : State) (h : Here) (d : BitVec 7) (t off : Nat) : State :=
  let s := markEmpty s h.g.id [{ file := 1, reg := d.toNat, t := 0 }]
  let (n, s) := s.fresh
  retire (s.modGroup h.g.id fun g => { g with fetch := some { mailbox := off, order := n, dst := d.toNat, t := t, count := h.g.retired } }) h

/-- R29: the group after FETCHWG. -/
def enteredFetch (g : Group) (h : Here) (d : BitVec 7) (t off order : Nat) : Group :=
  ({ sSet g d.toNat { val := 0, full := false } with
    fetch := some { mailbox := off, order := order, dst := d.toNat, t := t, count := h.g.retired } } : Group).goneOn h.pid (nextPc h.p.pc)

section

variable (s : State) (h : Here) (d : BitVec 7) (t off : Nat)

@[simp] theorem enterFetch_mem : (enterFetch s h d t off).mem = s.mem := rfl
@[simp] theorem enterFetch_host : (enterFetch s h d t off).host = s.host := rfl

theorem group_enterFetch {g : Group} (hg : s.group h.g.id = some g) :
    (enterFetch s h d t off).group h.g.id = some (enteredFetch g h d t off s.exe.nextId) := by
  refine group_retire ?_
  rw [group_modGroup_same]
  exact congrArg (Option.map _) ((group_modGroup_same ..).trans (congrArg (Option.map _) hg))

theorem sGet_enteredFetch (g : Group) (order n : Nat) :
    sGet (enteredFetch g h d t off order) n = if n = d.toNat then { val := 0, full := false } else sGet g n :=
  sGet_sSet g d.toNat n { val := 0, full := false }

end

/-- R29, R32: FETCHWG with a clean mailbox inside the scratchpad, in a closed span. -/
theorem exec_fetchwg {s : State} {h : Here} {d a : BitVec 7} {ea : Bool} {t0 off : Nat} {ws : List Word} (hh : s.here = some h)
    (hu : uniThreads h.g h.p = [(t0, none)]) (hfetch : h.g.fetch = none) (hc : closedSpan h)
    (hr : operandsReady h (uniThreads h.g h.p) [⟨.s, a.toNat, ea, 1⟩] (some ⟨.s, d.toNat, 1⟩) = true)
    (hx : readSrc h.g h.p ⟨.s, a.toNat, ea, 1⟩ t0 = .words ws) (hoff : (ws.headD 0).toNat = off) (halign : off % 32 = 0)
    (hfit : off + 32 ≤ h.w.scratch) : ∃ ags, exec (.fetchwg d ea a) s =
      .next (enterFetch (writeOne s ags (h.w.scratchBase + off) 0 0xF false 0 (BitVec.ofNat 64 off)) h d t0 off) := by
  refine ⟨agentsOf h.g.id (((vecThreads h.g h.p).filter (·.2.isNone)).map (·.1)), (issuing_eq s h _ hh).trans ?_⟩
  refine (if_neg (by rw [hr, hfetch]; decide)).trans ((withCommit_closed hc ..).trans ?_)
  rw [hu]
  show (match readSrc h.g h.p ⟨.s, a.toNat, ea, 1⟩ t0 with | .poison _ => _ | .empty => _ | .words _ => _) = _
  rw [hx]
  subst hoff
  exact (if_neg (not_not.mpr halign)).trans (if_neg (Nat.not_lt.mpr hfit))

/-- R29, R32. -/
theorem fetchWorkgroupRequest : Claim.FetchWorkgroupRequest := by
  intro s h d a ea t0 x hh hu hfetch hc hr hx halign hfit
  obtain ⟨-, hg, -, -, hp⟩ := here_eq s h hh
  obtain ⟨ags, he⟩ := exec_fetchwg (off := x.toNat) hh hu hfetch hc hr hx rfl halign hfit
  have host := writeOne_scratch_host s ags (scratch_ge h.w x.toNat) 0 false 0 (BitVec.ofNat 64 x.toNat) 0xF
  have order := writeOne_scratch_nextId s ags (scratch_ge h.w x.toNat) 0 false 0 (BitVec.ofNat 64 x.toNat) 0xF
  have byte := memByte_writeOne s ags (a := h.w.scratchBase + x.toNat) 0 false 0 (BitVec.ofNat 64 x.toNat)
  obtain ⟨m, hm⟩ := (sameGroups_writeOne s ags (a := h.w.scratchBase + x.toNat) 0 false 0 (BitVec.ofNat 64 x.toNat) 0xF).group hg
  generalize h.w.scratchBase + x.toNat = base at he host order byte hm ⊢
  generalize writeOne s ags base 0 0xF false 0 (BitVec.ofNat 64 x.toNat) = s1 at he host order byte hm
  refine ⟨_, _, he, (enterFetch_host ..).trans host, group_enterFetch s1 h d t0 x.toNat hm, wentOn_goneOn hp rfl rfl _, ?_, ?_,
    fun n hn => ?_, rfl, rfl, rfl, ?_, fun k hk => ?_⟩
  · rw [order]
    rfl
  · rw [sGet_enteredFetch, if_pos rfl]
  · rw [sGet_enteredFetch, if_neg hn]
    rfl
  · rw [enterFetch_mem, memWord, byte, byte, byte, byte]
    exact memWord_setWord_same s.mem _ 0
  · rw [enterFetch_mem]
    exact (byte k).trans (memByte_setWord_outside _ _ _ _ hk)

/-- Settles O20: REGROUP by its denial and its park, FETCHWG by the state that its request leaves. -/
theorem regroupAndFetchRequests : Obligations.RegroupAndFetchRequests := ⟨regroupParks, fetchWorkgroupRequest⟩

end Sys2Proof.Machine
end

section
/-!
SUPPORT. What counting and logging an event leaves (R434 to R441); the ends of pauses, group stalls and group deadlocks (R36, R38,
R39, R210).
-/

namespace Sys2Proof.Machine

open Sys2Proof Sys2Proof.Laws

/-! ## Events whose action lets the device go on (R434 to R441) -/

/-- What writes of the device itself keep: the groups but for their monitors, and a management word. -/
def Aside (c : Nat) (s t : State) : Prop := SameGroups s t ∧ t.mgmt c = s.mgmt c

theorem Aside.trans {c : Nat} {s t u : State} (h : Aside c s t) (h' : Aside c t u) : Aside c s u :=
  ⟨h.1.trans h'.1, h'.2.trans h.2⟩

theorem aside_devicePoke (c : Nat) (s : State) (a : Nat) (w : Word) (p : Bool) (o : Word) : Aside c s (devicePoke s a w p o) := by
  refine ⟨(sameGroups_wakeMonitors (s.withMem _) a).trans (sameGroups_writeHalf _ a _), ?_⟩
  unfold devicePoke writeHalf
  split <;> rfl

theorem aside_deviceWords (c : Nat) (s : State) (a : Nat) (ws : List Word) : Aside c s (deviceWords s a ws) := by
  induction ws generalizing s a with
  | nil => exact ⟨fun _ => rfl, rfl⟩
  | cons w ws ih => exact (aside_devicePoke c s a w false 0).trans (ih _ _)

theorem aside_setMgmt {c off : Nat} (s : State) (w : Word) (h : c ≠ off) : Aside c s (s.setMgmt off w) :=
  ⟨fun _ => rfl, by rw [mgmt_setMgmt, if_neg h]⟩

theorem aside_logLost (c : Nat) (s : State) (m : SMap Bool) : Aside c s { s with host := { s.host with logLost := m } } :=
  ⟨fun _ => rfl, rfl⟩

/-- R441: a record written or dropped leaves the counters of events. -/
theorem aside_writeLog {c part : Nat} (s : State) (bytes : List Byte) (h : 0x15000 + 0x100 * part + 0x90 < c) :
    Aside c s (writeLog s part bytes) := by
  unfold writeLog
  dsimp only
  split
  · exact ((aside_deviceWords c s _ _).trans (aside_setMgmt _ _ (by omega))).trans (aside_logLost ..)
  · exact (aside_setMgmt _ _ (by omega)).trans (aside_logLost ..)

/-- R434, R440: the counter of an event lies above the matrix and the log of its partition. -/
theorem counter_above (part cls src : Nat) (hcls : cls < 32) : 0x15000 + 0x100 * part + 4 * cls < eventCounter part cls src ∧
    0x15000 + 0x100 * part + 0x90 < eventCounter part cls src := by
  unfold eventCounter
  omega

section

variable {s : State} {e : Ev} (ha : actionOf s e < 3)

theorem actionOf_countEvent (hcls : e.cls < 32) : actionOf (countEvent s e) e = actionOf s e := by
  have := (counter_above (e.part.getD 0) e.cls e.src hcls).1
  have hm : (countEvent s e).mgmt (0x15000 + 0x100 * e.part.getD 0 + 4 * e.cls) = s.mgmt (0x15000 + 0x100 * e.part.getD 0 + 4 * e.cls) := by
    refine (mgmt_setMgmt ..).trans (if_neg ?_)
    unfold eventCounter at this
    omega
  unfold actionOf
  dsimp only
  rw [hm]
  rfl

include ha

/-- R434: an action below killing writes the log and tells the host. -/
theorem aside_actOn (hcls : e.cls < 32) : Aside (eventCounter (e.part.getD 0) e.cls e.src) s (actOn s e) := by
  have log := (counter_above (e.part.getD 0) e.cls e.src hcls).2
  have h3 : ¬ actionOf s e = 3 := by omega
  have h4 : ¬ actionOf s e = 4 := by omega
  have written : Aside (eventCounter (e.part.getD 0) e.cls e.src) s
      (if actionOf s e ≥ 1 then writeLog s (e.part.getD 0) (recordOf s (e.part.getD 0) e (actionOf s e)) else s) := by
    split
    · exact aside_writeLog s _ log
    · exact ⟨fun _ => rfl, rfl⟩
  unfold actOn
  simp only [h3, h4, decide_false, Bool.false_and, Bool.false_eq_true, if_false]
  split
  · exact written.trans ⟨fun _ => rfl, rfl⟩
  · exact written

/-- R440: the event is counted once. -/
theorem raise_aside (hcls : e.cls < 32) (hc : e.count ≠ 0) : SameGroups s (raise s e) ∧
    (raise s e).mgmt (eventCounter (e.part.getD 0) e.cls e.src) =
      satAdd (s.mgmt (eventCounter (e.part.getD 0) e.cls e.src)) e.count := by
  obtain ⟨groups, counter⟩ := aside_actOn (s := countEvent s e) (by rw [actionOf_countEvent hcls]; exact ha) hcls
  rw [raise, if_neg hc]
  refine ⟨groups, counter.trans ?_⟩
  exact (mgmt_setMgmt ..).trans (if_pos rfl)

end

/-! ## Events of a group (R36, R38, R39, R210) -/

/-- R210. -/
theorem pauseEnds : Claim.PauseEnds := by
  intro s gid pid turn g p hg hp hk
  refine ⟨_, _, rfl, (group_modGroup_same ..).trans (congrArg (Option.map _) hg), rfl, rfl, rfl, ?_, fun q hq => sfind_smod_other _ _ _ _ hq⟩
  show sfind (smod g.paths pid _) pid = _
  rw [sfind_smod_same, hp, Option.map_some, hk]

/-- R438: the event of a resident group is its partition's. -/
theorem groupEvent_part {s : State} {g : Group} {w : WG} {c : Context} (hw : s.wg g.wg = some w) (hc : s.ctx w.ctx = some c)
    (cls src count : Nat) (info : List DWord) : (groupEvent s g cls src count info).part = some c.part ∧
      (groupEvent s g cls src count info).cls = cls ∧ (groupEvent s g cls src count info).src = src ∧
      (groupEvent s g cls src count info).count = count := by
  have : findWg s g.wg = some w := by
    unfold findWg
    rw [show sfind s.exe.wgs g.wg = some w from hw, Option.some_or]
  unfold groupEvent
  rw [this]
  exact ⟨congrArg (Option.map _) hc, rfl, rfl, rfl⟩

/-- R434, R440: what raising an event of a resident group leaves. -/
theorem raise_groupEvent {s s' : State} {g : Group} {w : WG} {c : Context} {cls src count : Nat} {info : List DWord}
    (hw : s.wg g.wg = some w) (hc : s.ctx w.ctx = some c) (hcls : cls < 32) (hn : count ≠ 0)
    (ha : actionOf s' (groupEvent s g cls src count info) < 3) :
    SameGroups s' (raise s' (groupEvent s g cls src count info)) ∧
      (raise s' (groupEvent s g cls src count info)).mgmt (eventCounter c.part cls src) = satAdd (s'.mgmt (eventCounter c.part cls src)) count := by
  obtain ⟨epart, ecls, esrc, ecount⟩ := groupEvent_part hw hc cls src count info
  have := raise_aside ha (by rw [ecls]; exact hcls) (by rw [ecount]; exact hn)
  rwa [epart, ecls, esrc, ecount] at this

/-- R36. -/
theorem groupStalls : Claim.GroupStalls := by
  intro s gid g w c hg hw hc live out ha
  obtain ⟨same, counter⟩ := raise_groupEvent hw hc (by decide) (by decide) ha
  have he : exec (.groupStall gid) s = .next (resetWatchdog
      (raise s (groupEvent s g 13 0 1 [(pathPcs g).getD 0 0, g.wdog.setWidth 64, (pathPcs g).getD 1 0])) gid) := by
    show execGroupStall gid s = _
    simp only [execGroupStall, hg, out, live, Bool.not_true, Bool.or_self, Bool.false_eq_true, if_false]
  obtain ⟨m, hm⟩ := same.group hg
  refine ⟨_, _, he, (group_modGroup_same ..).trans (congrArg (Option.map _) hm), rfl, fun k hk => ?_, counter⟩
  rw [resetWatchdog, group_modGroup_other _ _ _ _ hk]
  exact same k

/-- R38, R39. -/
theorem groupDeadlocks : Claim.GroupDeadlocks := by
  intro s gid g w c why hg hw hc live dead
  refine ⟨fun known => ?_, fun fresh ha => ?_⟩
  · show execGroupDeadlock gid s = _
    simp only [execGroupDeadlock, hg, hw, known, Bool.true_or, if_true]
  · let s' := s.modGroup gid fun g => { g with deadlocked := true }
    obtain ⟨same, counter⟩ := raise_groupEvent (s' := s') hw hc (by decide) (by decide) ha
    have he : exec (.groupDeadlock gid) s = .next (raise s' (groupEvent s g 14 0 1 [(pathPcs g).getD 0 0, why, (pathPcs g).getD 1 0])) := by
      show execGroupDeadlock gid s = _
      simp only [execGroupDeadlock, hg, hw, dead, fresh, live, Bool.not_true, Bool.or_self, Bool.false_eq_true, if_false, s']
    obtain ⟨m, hm⟩ := same.group ((group_modGroup_same ..).trans (congrArg (Option.map _) hg))
    refine ⟨_, _, he, hm, rfl, fun k hk => (same k).trans ?_, counter⟩
    rw [group_modGroup_other _ _ _ _ hk]

end Sys2Proof.Machine
end

section
/-!
SUPPORT. What the end of a group leaves (R191, R204).
-/

namespace Sys2Proof.Machine

open Sys2Proof Sys2Proof.Laws

/-! ## Barriers change workgroups only (R204) -/

/-- Nothing but the contents of workgroups differs. -/
def WgsOnly (s t : State) : Prop := ∃ m, t = { s with exe := { s.exe with wgs := m } } ∧ ∀ k, (sfind m k).isSome = (s.wg k).isSome

theorem WgsOnly.refl (s : State) : WgsOnly s s := ⟨s.exe.wgs, rfl, fun _ => rfl⟩

theorem WgsOnly.trans {s t u : State} (h : WgsOnly s t) (h' : WgsOnly t u) : WgsOnly s u := by
  obtain ⟨m, rfl, hm⟩ := h
  obtain ⟨m', rfl, hm'⟩ := h'
  exact ⟨m', rfl, fun k => (hm' k).trans (hm k)⟩

theorem wgsOnly_modWg (s : State) (i : Nat) (f : WG → WG) : WgsOnly s (s.modWg i f) := by
  refine ⟨_, rfl, fun k => ?_⟩
  rw [sfind_smod]
  by_cases h : k = i
  · rw [if_pos h, h, Option.isSome_map]
    rfl
  · rw [if_neg h]
    rfl

theorem wgsOnly_completeIfDue (s : State) (wg b : Nat) : WgsOnly s (completeIfDue s wg b) := by
  unfold completeIfDue
  split
  · exact .refl s
  · split
    · exact wgsOnly_modWg s wg _
    · exact .refl s

/-- R15, R204. -/
theorem wgsOnly_completeAll (s : State) (wg : Nat) : WgsOnly s (completeAll s wg) := by
  have fold : ∀ (l : List Nat) (s : State), WgsOnly s (l.foldl (fun s b => completeIfDue s wg b) s) := by
    intro l
    induction l with
    | nil => exact .refl
    | cons b l ih => exact fun s => (wgsOnly_completeIfDue s wg b).trans (ih _)
  exact fold _ s

/-! ## The end of a group (R191) -/

/-- R52: a core's records but for those of a group. -/
def withoutRecords (gid : Nat) (x : Side) : Side := { x with recs := x.recs.filter fun kr => !([gid].contains kr.2.1) }

/-- R191: a group has left, with its records; the workgroups hold what `wgs` says. -/
def groupGone (s : State) (gid : Nat) (wgs : SMap WG) : State :=
  { freeRecords s [gid] with exe := { (freeRecords s [gid]).exe with wgs := wgs, groups := sdel s.exe.groups gid } }

/-- R191: a workgroup has left, with its scratchpad. -/
def wgGone (s : State) (id : Nat) (w : WG) : State := { s with exe := { s.exe with wgs := sdel s.exe.wgs id }, mem := freeScratch s.mem w }

section

variable (s : State) (gid : Nat) (wgs : SMap WG)

theorem group_groupGone (k : Nat) : (groupGone s gid wgs).group k = if k = gid then none else s.group k := sfind_sdel ..

/-- R52: no record of the group stays. -/
theorem recs_groupGone (core : Nat) : ∀ kr ∈ (sget ({} : Side) (groupGone s gid wgs).exe.sides core).recs, kr.2.1 ≠ gid := by
  intro kr hkr heq
  have hs : sget ({} : Side) (groupGone s gid wgs).exe.sides core = ((sfind s.exe.sides core).map (withoutRecords gid)).getD {} :=
    congrArg (fun x : Option Side => x.getD {}) (sfind_map s.exe.sides (withoutRecords gid) core)
  rw [hs] at hkr
  cases hx : sfind s.exe.sides core with
  | none =>
    rw [hx] at hkr
    cases hkr
  | some x =>
    rw [hx] at hkr
    have := (List.mem_filter.mp hkr).2
    simp [heq] at this

/-- R191: bytes below the scratchpads stay when a scratchpad is free. -/
theorem memByte_freeScratch (m : MemSys) (w : WG) {a : Nat} (ha : a < 0x10000000000000) : memByte (freeScratch m w) a = memByte m a := by
  have below : ¬ w.scratchBase ≤ a := Nat.not_le.mpr (Nat.lt_of_lt_of_le ha (scratchBase_ge w))
  unfold memByte freeScratch sget
  rw [sfind_filter_key m.bytes (fun a => !(decide (w.scratchBase ≤ a) && decide (a < w.scratchBase + 0x100000))) a]
  rw [decide_eq_false below]
  rfl

/-- R191: some group of the workgroup is left. -/
theorem any_groupGone (wg : Nat) : (groupGone s gid wgs).exe.groups.any (·.2.wg = wg) = true ↔
    ∃ kg ∈ s.exe.groups, kg.1 ≠ gid ∧ kg.2.wg = wg := by
  have : (groupGone s gid wgs).exe.groups = s.exe.groups.filter fun kx => !(gid = kx.1) := sdel_eq_filter ..
  rw [this, List.any_eq_true]
  constructor
  · rintro ⟨kg, hkg, hwg⟩
    obtain ⟨hin, hne⟩ := List.mem_filter.mp hkg
    exact ⟨kg, hin, fun h => by simp [h] at hne, by simpa using hwg⟩
  · rintro ⟨kg, hin, hne, hwg⟩
    exact ⟨kg, List.mem_filter.mpr ⟨hin, by simpa using fun h => hne h.symm⟩, by simpa using hwg⟩

end

/-- R191: a group that may leave does; the last one takes its workgroup along. -/
theorem exec_groupExitComplete {s : State} {gid : Nat} {g : Group} {w : WG} (hg : s.group gid = some g) (hw : s.wg g.wg = some w)
    (hx : g.exited = BitVec.allOnes 128) (hp : producerWaiting s g = false) (hh : g.held = []) : ∃ wgs w', sfind wgs g.wg = some w' ∧
      exec (.groupExitComplete gid) s = .next (if (groupGone s gid wgs).exe.groups.any (·.2.wg = g.wg) then groupGone s gid wgs
        else wgGone (groupGone s gid wgs) g.wg w') := by
  obtain ⟨wgs, hs, hsome⟩ := (wgsOnly_completeAll (freeRecords s [gid]) g.wg).trans
    (wgsOnly_modWg _ g.wg fun w => { w with arrivals := w.arrivals.filter (·.gid ≠ gid) })
  obtain ⟨w', hw'⟩ := Option.isSome_iff_exists.mp ((hsome g.wg).trans (Option.isSome_iff_exists.mpr ⟨w, hw⟩))
  refine ⟨wgs, w', hw', ?_⟩
  have hlook : (groupGone s gid wgs).wg g.wg = some w' := hw'
  have : execGroupExitComplete gid s = if (groupGone s gid wgs).exe.groups.any (·.2.wg = g.wg) then .next (groupGone s gid wgs)
      else match (groupGone s gid wgs).wg g.wg with
        | none => .next (groupGone s gid wgs)
        | some w => .next (wgGone (groupGone s gid wgs) g.wg w) := by
    simp only [execGroupExitComplete, hg, hx, hp, hh, hs]
    rfl
  refine Eq.trans this ?_
  rw [hlook]
  split <;> rfl

/-- R191. -/
theorem groupLeaves : Claim.GroupLeaves := by
  intro s gid g w hg hw hx hp hh
  obtain ⟨wgs, w', hw', he⟩ := exec_groupExitComplete hg hw hx hp hh
  have any := any_groupGone s gid wgs g.wg
  by_cases left : (groupGone s gid wgs).exe.groups.any (·.2.wg = g.wg) = true
  · refine ⟨groupGone s gid wgs, he.trans (by rw [if_pos left]), (group_groupGone ..).trans (if_pos rfl),
      fun k hk => (group_groupGone ..).trans (if_neg hk), rfl, recs_groupGone s gid wgs, fun none => ?_, fun _ => ?_, fun a _ => rfl⟩
    · obtain ⟨kg, hin, hne, hwg⟩ := any.mp left
      exact absurd hwg (none kg hin hne)
    · exact Option.isSome_iff_exists.mpr ⟨w', hw'⟩
  · refine ⟨wgGone (groupGone s gid wgs) g.wg w', he.trans (by rw [if_neg left]), (group_groupGone ..).trans (if_pos rfl),
      fun k hk => (group_groupGone ..).trans (if_neg hk), rfl, recs_groupGone s gid wgs, fun _ => (sfind_sdel ..).trans (if_pos rfl), fun some => absurd (any.mpr some) left,
      fun a ha => memByte_freeScratch s.mem w' ha⟩

end Sys2Proof.Machine
end

section
/-!
SUPPORT. What a trace record leaves of the groups (R448 to R450); the start of a replay (R62).
-/

namespace Sys2Proof.Machine

open Sys2Proof Sys2Proof.Laws

/-! ## Trace records (R448 to R450) -/

section

variable {β : Type} {f : Group → β} (hmon : ∀ (g : Group) (m : Monitor), f { g with mon := m } = f g)
include hmon

/-- What does not read the monitor does not tell groups apart that differ in it only. -/
theorem view_sameGroups {s t : State} (h : SameGroups s t) (k : Nat) : (t.group k).map f = (s.group k).map f := by
  have hq : f ∘ quiet = f := funext fun g => hmon g {}
  have := congrArg (Option.map f) (h k)
  rwa [Option.map_map, Option.map_map, hq] at this

omit hmon in
theorem view_modGroup {F : Group → Group} {gid k : Nat} (s : State) (hF : k = gid → ∀ g, f (F g) = f g) :
    ((s.modGroup gid F).group k).map f = (s.group k).map f := by
  rw [group_modGroup]
  split
  · next hk =>
    rw [hk, Option.map_map, show f ∘ F = f from funext (hF hk)]
  · rfl

theorem view_ringPut (s : State) (tag off : Nat) (ws : List Word) (k : Nat) : ((ringPut s tag off ws).group k).map f = (s.group k).map f :=
  view_sameGroups hmon (aside_deviceWords 0 s _ ws).1 k

omit hmon in
theorem group_traceRoom {s s' : State} {core : Nat} (h : traceRoom s core = some s') (k : Nat) : s'.group k = s.group k := by
  unfold traceRoom at h
  dsimp only at h
  split at h
  · cases h
  · cases h
    rfl

theorem view_tracePut {g : Group} {k : Nat} (hcount : k = g.id → ∀ (g : Group) n, f { g with traceCount := n } = f g) (s : State) (w : WG)
    (kind : Nat) (info : Word) (pc : DWord) (mask : Mask) : ((tracePut s g w kind info pc mask).group k).map f = (s.group k).map f := by
  unfold tracePut
  split
  · next s' hs' =>
    split at hs'
    · refine (view_ringPut hmon s' _ _ _ k).trans ?_
      rw [group_traceRoom hs' k]
    · cases hs'
  · exact view_modGroup _ fun hk g => hcount hk g 255

/-- R450: a trace record changes monitors, and the count of records of its group. -/
theorem view_trace {gid k : Nat} (s : State) (hcount : (k = gid ∨ ∃ g, s.group gid = some g ∧ k = g.id) →
    ∀ (g : Group) n, f { g with traceCount := n } = f g) (kind : Nat) (info : Word) (pc : DWord) (mask : Mask) :
    ((trace s gid kind info pc mask).group k).map f = (s.group k).map f := by
  unfold trace
  split
  · rfl
  · next g hg =>
    have put : k = g.id → ∀ (g : Group) n, f { g with traceCount := n } = f g := fun hk => hcount (.inr ⟨g, hg, hk⟩)
    split
    · rfl
    · split
      · rfl
      · refine (view_tracePut hmon put _ _ _ _ _ _).trans ((view_modGroup _ fun hk g => hcount (.inl hk) g _).trans ?_)
        split
        · exact (view_modGroup _ fun hk g => hcount (.inl hk) g _).trans (view_tracePut hmon put _ _ _ _ _ _)
        · rfl

end

/-! ## A replay (R62) -/

/-- R62: what is left of a held effect when threads discard it. -/
theorem owners_discardHeld {g : Group} {m : Mask} {q : QEntry} (hq : q ∈ (discardHeld g m).quar) : ∀ e ∈ q.effs, e.owners &&& m = 0 := by
  intro e he
  obtain ⟨q', -, rfl⟩ := List.mem_map.mp (List.mem_filter.mp hq).1
  obtain ⟨e', -, he'⟩ := List.mem_filterMap.mp he
  split at he'
  · cases he'
  · cases he'
    show e'.owners &&& ~~~m &&& m = 0
    rw [BitVec.and_assoc, BitVec.and_comm (~~~m) m, BitVec.and_not_self]
    exact BitVec.and_zero

/-- R62: the replays of threads are counted. -/
def countReplays (ts : List Nat) (m : SMap Nat) : SMap Nat := ts.foldl (fun m t => sins m t (sget 0 m t + 1)) m

theorem sget_countReplays_other {k : Nat} (ts : List Nat) (m : SMap Nat) (hk : k ∉ ts) : sget 0 (countReplays ts m) k = sget 0 m k := by
  induction ts generalizing m with
  | nil => rfl
  | cons t ts ih =>
    obtain ⟨hne, hts⟩ := not_or.mp (mt List.mem_cons.mpr hk)
    refine (ih _ hts).trans ?_
    rw [sget, sfind_sins_other _ _ _ _ hne]
    rfl

theorem sget_countReplays {k : Nat} (ts : List Nat) (hts : ts.Nodup) (m : SMap Nat) (hk : k ∈ ts) :
    sget 0 (countReplays ts m) k = sget 0 m k + 1 := by
  induction ts generalizing m with
  | nil => cases hk
  | cons t ts ih =>
    obtain ⟨hnot, hts⟩ := List.nodup_cons.mp hts
    by_cases hkt : k = t
    · subst hkt
      refine (sget_countReplays_other ts _ hnot).trans ?_
      rw [sget, sfind_sins_same]
      rfl
    · refine (ih hts _ ((List.mem_cons.mp hk).resolve_left hkt)).trans ?_
      rw [sget, sfind_sins_other _ _ _ _ hkt]
      rfl

theorem nodup_threadsOf (m : Mask) : (threadsOf m).Nodup := by
  unfold threadsOf
  split
  · exact List.nodup_nil
  · exact List.nodup_range.filter _

/-- R62: a group whose path has been served and none of whose services failed: its threads that replay have discarded what they
held and are live no longer. -/
def servedBy (pid : Nat) (x : Serving) (g : Group) : Group :=
  let go := x.replaying
  let g := discardHeld g x.replaying
  let sp := g.span
  { g with span := { sp with
      serving := sdel sp.serving pid
      live := sp.live &&& ~~~go
      unserv := (sp.unserv ||| (x.replaying &&& x.failed)) &&& ~~~go
      poisons := sp.poisons.filter fun y => !go.getLsbD y.t
      first := sp.first.filter fun kt => !go.getLsbD kt.1
      replays := countReplays (threadsOf go) sp.replays } }

/-- R62: the path of threads that replay stands at the start of their span. -/
def atStart (pid : Nat) (g : Group) : Group := g.modPath pid fun p => { p with pc := g.span.start, park := .running }

/-- R62: the cells that a path's services looked at are looked at no longer. -/
def withoutCells (x : Serving) (g : Group) : Group :=
  { g with cells := g.cells.filter fun z => !(x.services.any fun y => match y.2 with | .farCell a _ _ _ => a = z.1 | _ => false) }

theorem clear_none (m : Mask) : m &&& ~~~(0 : Mask) = m :=
  (congrArg (m &&& ·) (show ~~~(0 : Mask) = BitVec.allOnes 128 from rfl)).trans BitVec.and_allOnes

/-- R62: a replay of a path none of whose services failed. -/
theorem replay_eq {s : State} {gid pid : Nat} {x : Serving} {g : Group} (hg : s.group gid = some g) (hf : x.failed = 0) (hw : x.waiting = 0)
    (hr : x.recover = 0) (hs : x.same = none) (hn : x.replaying ≠ 0) :
    ∃ t, replay s gid pid x = traceFlow t gid 3 g.span.start x.replaying ∧ t.mem = s.mem ∧ t.host = s.host ∧
      t.group gid = some (atStart pid (servedBy pid x g)) := by
  have hgo : x.replaying &&& ~~~x.failed = x.replaying := by rw [hf, clear_none]
  have hrec : x.waiting ||| (x.recover ||| (x.replaying &&& x.failed)) = 0 := by simp [hf, hw, hr]
  have hone : (s.modGroup gid (servedBy pid x)).group gid = some (servedBy pid x g) := (group_modGroup_same ..).trans (congrArg (Option.map _) hg)
  refine ⟨(s.modGroup gid (servedBy pid x)).fresh.2.modGroup gid fun g' =>
    g'.modPath pid fun p => { p with pc := g.span.start, park := .running }, ?_, rfl, rfl, ?_⟩
  · have start : ((s.modGroup gid (servedBy pid x)).group gid).elim 0 (·.span.start) = g.span.start := by
      rw [hone]
      rfl
    unfold replay
    simp only [hgo, if_neg hn, hs, Option.bind_none, hrec, if_true]
    rw [← start]
    rfl
  · exact (group_modGroup_same ..).trans (congrArg (Option.map _) hone)

/-- R62. -/
theorem replayBegins : Claim.ReplayBegins := by
  intro s gid pid g x p hg live hx hp hf hfar hw hr hs hn
  have hcells : (s.modGroup gid (withoutCells x)).group gid = some (withoutCells x g) :=
    (group_modGroup_same ..).trans (congrArg (Option.map _) hg)
  obtain ⟨t, ht, hmem, hhost, hgt⟩ := replay_eq (pid := pid) (x := { x with failed := x.failed ||| farFailed g x }) hcells
    (by simp [hf, hfar]) hw hr hs hn
  replace ht : replay (s.modGroup gid (withoutCells x)) gid pid { x with failed := x.failed ||| farFailed g x } =
    traceFlow t gid 3 g.span.start x.replaying := ht
  have fits : stackFits (s.modGroup gid (withoutCells x)) (traceFlow t gid 3 g.span.start x.replaying) gid = true := by
    obtain ⟨a, ha, hst⟩ := Option.map_eq_some_iff.mp ((view_trace (f := Group.stack) (k := gid) (fun _ _ => rfl) t (fun _ _ _ => rfl) 1
      (BitVec.ofNat 32 3) g.span.start x.replaying).trans (congrArg (Option.map Group.stack) hgt))
    unfold stackFits
    rw [hcells, show (traceFlow t gid 3 g.span.start x.replaying).group gid = some a from ha]
    simp only [hst]
    exact Bool.or_eq_true_iff.mpr (.inr (decide_eq_true (Nat.le_refl _)))
  have he : exec (.spanReplay gid) s = .next (traceFlow t gid 3 g.span.start x.replaying) := by
    show execSpanReplay gid s = _
    simp only [execSpanReplay, hg, live, hx, Bool.not_true, Bool.false_eq_true, if_false]
    rw [← ht] at fits ⊢
    exact if_pos fits
  refine ⟨t, _, he, fun _ => by rw [hmem]; rfl, hhost, hgt, rfl, ?_, fun q hq => sfind_smod_other _ _ _ _ hq,
    fun q hq => owners_discardHeld hq, rfl, rfl, rfl, (sfind_sdel ..).trans (if_pos rfl), fun k hk =>
    sget_countReplays _ (nodup_threadsOf _) _ hk⟩
  show sfind (smod g.paths pid _) pid = _
  rw [sfind_smod_same, hp]
  rfl

end Sys2Proof.Machine
end

section
/-!
SUPPORT. The redistribution of threads at a REGROUP (R14, R15).
-/

namespace Sys2Proof.Machine

open Sys2Proof Sys2Proof.Laws

/-! ## What a thread carries (R15) -/

/-- R15: the entries of a thread, under the keys of another. -/
def rekeyed {α : Type} (m : SMap α) (u t : Nat) : SMap α := (m.filter fun kr => kr.1 % 128 = u).map fun kr => (kr.1 / 128 * 128 + t, kr.2)

/-- Every entry of a second map listed in a first. -/
def merged {α : Type} (m x : SMap α) : SMap α := x.foldr (fun kr m => sins m kr.1 kr.2) m

theorem sfind_merged {α : Type} (m x : SMap α) (k : Nat) : sfind (merged m x) k = (sfind x k).or (sfind m k) := by
  induction x with
  | nil => rfl
  | cons kr x ih =>
    rw [merged, List.foldr_cons, sfind_sins, sfind]
    split
    · rfl
    · exact ih

theorem sfind_rekeyed {α : Type} (m : SMap α) {u t t' : Nat} (hu : u < 128) (ht : t < 128) (ht' : t' < 128) (n : Nat) :
    sfind (rekeyed m u t) (regKey n t') = if t' = t then sfind m (regKey n u) else none := by
  induction m with
  | nil => simp [rekeyed]
  | cons kr m ih =>
    obtain ⟨k, y⟩ := kr
    unfold rekeyed regKey at ih ⊢
    by_cases hk : k % 128 = u
    · have hkey : n * 128 + t' = k / 128 * 128 + t ↔ t' = t ∧ n * 128 + u = k := by omega
      rw [List.filter_cons_of_pos (by simpa using hk), List.map_cons, sfind, sfind, ih]
      simp only [hkey]
      by_cases ht : t' = t <;> simp [ht]
    · rw [List.filter_cons_of_neg (by simpa using hk), ih, sfind, if_neg (show ¬ n * 128 + u = k by omega)]

section

variable {α : Type} {sel : Group → SMap α} (hsel : ∀ g o u t, sel (carry g o u t) = merged (sel g) (rekeyed (sel o) u t))

/-- R15: threads of a group receive threads: each pair is a slot and the thread that it gets. -/
def receiveAll (mine : List (Nat × Group × Nat)) (g : Group) : Group := mine.foldl (fun g x => carry g x.2.1 x.2.2 x.1) g

include hsel

theorem sfind_receiveAll_other {mine : List (Nat × Group × Nat)} (hb : ∀ x ∈ mine, x.1 < 128 ∧ x.2.2 < 128) {t : Nat} (ht : t < 128)
    (hnot : t ∉ mine.map (·.1)) (g : Group) (n : Nat) : sfind (sel (receiveAll mine g)) (regKey n t) = sfind (sel g) (regKey n t) := by
  induction mine generalizing g with
  | nil => rfl
  | cons x mine ih =>
    obtain ⟨hx, hmine⟩ := List.forall_mem_cons.mp hb
    obtain ⟨hne, hrest⟩ := not_or.mp (mt List.mem_cons.mpr hnot)
    refine (ih hmine hrest _).trans ?_
    rw [hsel, sfind_merged, sfind_rekeyed _ hx.2 hx.1 ht, if_neg hne, Option.none_or]

/-- R15: a slot that had nothing holds what its thread brings. -/
theorem sfind_receiveAll {mine : List (Nat × Group × Nat)} (hb : ∀ x ∈ mine, x.1 < 128 ∧ x.2.2 < 128) (hn : (mine.map (·.1)).Nodup)
    {x : Nat × Group × Nat} (hx : x ∈ mine) (g : Group) (n : Nat) (hg : sfind (sel g) (regKey n x.1) = none) :
    sfind (sel (receiveAll mine g)) (regKey n x.1) = sfind (sel x.2.1) (regKey n x.2.2) := by
  induction mine generalizing g with
  | nil => cases hx
  | cons y mine ih =>
    obtain ⟨hy, hmine⟩ := List.forall_mem_cons.mp hb
    obtain ⟨hnot, hrest⟩ := List.nodup_cons.mp hn
    rcases List.mem_cons.mp hx with rfl | hx
    · refine (sfind_receiveAll_other hsel hmine hy.1 hnot _ n).trans ?_
      rw [hsel, sfind_merged, sfind_rekeyed _ hy.2 hy.1 hy.1, if_pos rfl, hg, Option.or_none]
    · have hne : x.1 ≠ y.1 := fun h => hnot (List.mem_map.mpr ⟨x, hx, h⟩)
      refine ih hmine hrest hx _ ?_
      rw [hsel, sfind_merged, sfind_rekeyed _ hy.2 hy.1 (hmine x hx).1, if_neg hne, Option.none_or, hg]

end

theorem getLsbD_bitFrom (old : Mask) (u t : Nat) {t' : Nat} (ht' : t' < 128) :
    (bitFrom old u t).getLsbD t' = (decide (t' = t) && old.getLsbD u) := by
  unfold bitFrom
  split
  · next h => rw [getLsbD_oneAt t t' ht', h, Bool.and_true]
  · next h => rw [Bool.not_eq_true] at h; rw [h, Bool.and_false]; exact BitVec.getLsbD_zero

theorem opened_receiveAll_other {mine : List (Nat × Group × Nat)} {t : Nat} (ht : t < 128) (hnot : t ∉ mine.map (·.1)) (g : Group) :
    (receiveAll mine g).span.opened.getLsbD t = g.span.opened.getLsbD t := by
  induction mine generalizing g with
  | nil => rfl
  | cons x mine ih =>
    obtain ⟨hne, hrest⟩ := not_or.mp (mt List.mem_cons.mpr hnot)
    refine (ih hrest _).trans ?_
    show (g.span.opened ||| bitFrom x.2.1.span.opened x.2.2 x.1).getLsbD t = _
    rw [BitVec.getLsbD_or, getLsbD_bitFrom _ _ _ ht, decide_eq_false hne, Bool.false_and, Bool.or_false]

theorem opened_receiveAll {mine : List (Nat × Group × Nat)} (hn : (mine.map (·.1)).Nodup) {x : Nat × Group × Nat} (hx : x ∈ mine)
    (ht : x.1 < 128) (g : Group) (hg : g.span.opened.getLsbD x.1 = false) :
    (receiveAll mine g).span.opened.getLsbD x.1 = x.2.1.span.opened.getLsbD x.2.2 := by
  induction mine generalizing g with
  | nil => cases hx
  | cons y mine ih =>
    obtain ⟨hnot, hrest⟩ := List.nodup_cons.mp hn
    rcases List.mem_cons.mp hx with rfl | hx
    · refine (opened_receiveAll_other ht hnot _).trans ?_
      show (g.span.opened ||| bitFrom x.2.1.span.opened x.2.2 x.1).getLsbD x.1 = _
      rw [BitVec.getLsbD_or, getLsbD_bitFrom _ _ _ ht, hg, decide_eq_true rfl, Bool.true_and, Bool.false_or]
    · have hne : x.1 ≠ y.1 := fun h => hnot (List.mem_map.mpr ⟨x, hx, h⟩)
      refine ih hrest hx _ ?_
      show (g.span.opened ||| bitFrom y.2.1.span.opened y.2.2 y.1).getLsbD x.1 = _
      rw [BitVec.getLsbD_or, getLsbD_bitFrom _ _ _ ht, hg, decide_eq_false hne, Bool.false_and, Bool.or_false]

/-! ## The slots of a redistribution (R15) -/

/-- R15: the slots of a home lane. -/
def laneSlots (gs : List Group) (l : Nat) : List (Nat × Nat) := gs.flatMap fun g => (List.range 4).map fun q => (g.id, 32 * q + l)

theorem mem_laneSlots {gs : List Group} {l : Nat} {x : Nat × Nat} (hx : x ∈ laneSlots gs l) (hl : l < 32) : x.2 < 128 ∧ x.2 % 32 = l := by
  obtain ⟨g, -, hx⟩ := List.mem_flatMap.mp hx
  obtain ⟨q, hq, rfl⟩ := List.mem_map.mp hx
  have := List.mem_range.mp hq
  dsimp only
  omega

theorem nodup_laneSlots {gs : List Group} (hn : (gs.map (·.id)).Nodup) (l : Nat) : (laneSlots gs l).Nodup := by
  refine List.nodup_flatMap.mpr ⟨fun g _ => List.nodup_range.map fun q q' h => ?_, (List.pairwise_map.mp hn).imp fun {g g'} hne => ?_⟩
  · have := (Prod.mk.inj h).2
    omega
  · rw [Function.onFun, List.disjoint_left]
    intro x hx hx'
    obtain ⟨q, -, rfl⟩ := List.mem_map.mp hx
    obtain ⟨q', -, h⟩ := List.mem_map.mp hx'
    exact hne (Prod.mk.inj h).1.symm

theorem fst_zip_sublist {α β : Type} (l : List α) (l' : List β) : ((l.zip l').map Prod.fst).Sublist l := by
  induction l generalizing l' with
  | nil => exact List.nil_sublist _
  | cons a l ih =>
    cases l' with
    | nil => exact List.nil_sublist _
    | cons b l' => exact (ih l').cons_cons a

/-- R15: each slot receives one thread at most. -/
theorem nodup_moves {gs : List Group} (hn : (gs.map (·.id)).Nodup) : ((moves gs).map (·.1)).Nodup := by
  have all : ((List.range 32).flatMap (laneSlots gs)).Nodup := by
    refine List.nodup_flatMap.mpr ⟨fun l _ => nodup_laneSlots hn l, List.nodup_range.imp_of_mem fun {l l'} hl hl' hne => ?_⟩
    rw [Function.onFun, List.disjoint_left]
    intro x hx hx'
    exact hne ((mem_laneSlots hx (List.mem_range.mp hl)).2.symm.trans (mem_laneSlots hx' (List.mem_range.mp hl')).2)
  refine List.Sublist.nodup ?_ all
  rw [moves, List.map_flatMap]
  exact List.Sublist.flatMap_right _ fun l _ => fst_zip_sublist _ _

theorem mem_moves {gs : List Group} {m : (Nat × Nat) × (Group × Nat)} (hm : m ∈ moves gs) : m.1.2 < 128 ∧ m.2.2 < 128 := by
  obtain ⟨l, hl, hz⟩ := List.mem_flatMap.mp hm
  obtain ⟨hslot, hlane⟩ := List.of_mem_zip (a := m.1) (b := m.2) hz
  have hl := List.mem_range.mp hl
  refine ⟨(mem_laneSlots hslot hl).1, ?_⟩
  have hin : m.2 ∈ gs.flatMap fun g => (List.range 4).map fun q => (g, 32 * q + l) :=
    (List.mem_append.mp hlane).elim (fun h => (List.mem_filter.mp (List.mem_filter.mp h).1).1)
      (fun h => (List.mem_filter.mp (List.mem_filter.mp h).1).1)
  obtain ⟨g, -, hin⟩ := List.mem_flatMap.mp hin
  obtain ⟨q, hq, hm⟩ := List.mem_map.mp hin
  have := List.mem_range.mp hq
  rw [← hm]
  dsimp only
  omega

/-- R15: the slots of a participant with the threads that they receive. -/
def movesTo (gs : List Group) (id : Nat) : List (Nat × Group × Nat) := ((moves gs).filter (·.1.1 = id)).map fun x => (x.1.2, x.2)

theorem mem_movesTo {gs : List Group} {m : (Nat × Nat) × (Group × Nat)} (hm : m ∈ moves gs) : (m.1.2, m.2) ∈ movesTo gs m.1.1 :=
  List.mem_map.mpr ⟨m, List.mem_filter.mpr ⟨hm, decide_eq_true rfl⟩, rfl⟩

theorem movesTo_bounds {gs : List Group} {id : Nat} : ∀ x ∈ movesTo gs id, x.1 < 128 ∧ x.2.2 < 128 := by
  intro x hx
  obtain ⟨m, hm, rfl⟩ := List.mem_map.mp hx
  exact mem_moves (List.mem_filter.mp hm).1

theorem nodup_movesTo {gs : List Group} (hn : (gs.map (·.id)).Nodup) (id : Nat) : ((movesTo gs id).map (·.1)).Nodup := by
  have slots : (((moves gs).filter (·.1.1 = id)).map (·.1)).Nodup := (List.filter_sublist.map _).nodup (nodup_moves hn)
  have : (movesTo gs id).map (·.1) = (((moves gs).filter (·.1.1 = id)).map (·.1)).map (·.2) := by simp [movesTo, Function.comp_def]
  rw [this]
  refine List.Nodup.map_on (fun x hx y hy hxy => Prod.ext ?_ hxy) slots
  have own : ∀ z ∈ ((moves gs).filter (·.1.1 = id)).map (·.1), z.1 = id := by
    intro z hz
    obtain ⟨m, hm, rfl⟩ := List.mem_map.mp hz
    simpa using (List.mem_filter.mp hm).2
  exact (own x hx).trans (own y hy).symm

/-- R15: the slots of a participant that receive a thread. -/
theorem any_movesTo (gs : List Group) (id t : Nat) : ((movesTo gs id).any (·.1 = t)) = (moves gs).any fun m => m.1 = (id, t) := by
  rw [movesTo, List.any_map, List.any_filter]
  congr 1
  funext m
  simp [Prod.ext_iff, Bool.decide_and]

end Sys2Proof.Machine
end

section
/-!
SUPPORT. The participants after a redistribution (R14, R15), and the events of groups together.
-/

namespace Sys2Proof.Machine

open Sys2Proof Sys2Proof.Laws

/-! ## A participant after the redistribution (R15) -/

/-- R15: a participant without the threads that it had. -/
def vacated (g : Group) : Group :=
  { g with v := [], p := [], x := [], coord := [], held := []
           span := { g.span with opened := 0, live := 0, unserv := 0, first := [], replays := [], poisons := [] } }

/-- R15: a participant once the threads have moved. -/
def movedInto (gs : List Group) (g : Group) : Group := regrouped g (movesTo gs g.id)

section

variable (gs : List Group) (g : Group)

theorem exited_movedInto : (movedInto gs g).exited = ~~~(maskOf fun u => (moves gs).any fun m => m.1 = (g.id, u)) :=
  congrArg (~~~ ·) (maskOf_congr fun t _ => any_movesTo gs g.id t)

theorem id_receiveAll (mine : List (Nat × Group × Nat)) (g : Group) : (receiveAll mine g).id = g.id := by
  induction mine generalizing g with
  | nil => rfl
  | cons x mine ih => exact (ih _).trans rfl

theorem id_movedInto : (movedInto gs g).id = g.id := id_receiveAll _ (vacated g)

variable {gs g} (hn : (gs.map (·.id)).Nodup) {m : (Nat × Nat) × (Group × Nat)} (hm : m ∈ moves gs) (hg : m.1.1 = g.id)
include hn hm hg

/-- R15: an entry of a moved thread. -/
theorem sfind_movedInto {α : Type} {sel : Group → SMap α} (hsel : ∀ g o u t, sel (carry g o u t) = merged (sel g) (rekeyed (sel o) u t))
    (hv : sel (vacated g) = []) (n : Nat) :
    sfind (sel (receiveAll (movesTo gs g.id) (vacated g))) (regKey n m.1.2) = sfind (sel m.2.1) (regKey n m.2.2) := by
  rw [← hg]
  exact sfind_receiveAll hsel movesTo_bounds (nodup_movesTo hn _) (mem_movesTo hm) (vacated g) n (by rw [hv]; rfl)

theorem vGet_movedInto (n : Nat) : vGet (movedInto gs g) n m.1.2 = vGet m.2.1 n m.2.2 :=
  congrArg (fun r : Option Reg => r.getD {}) (sfind_movedInto hn hm hg (sel := Group.v) (fun _ _ _ _ => rfl) rfl n)

theorem xGet_movedInto (n : Nat) : xGet (movedInto gs g) n m.1.2 = xGet m.2.1 n m.2.2 :=
  congrArg (fun r : Option Idx => r.getD {}) (sfind_movedInto hn hm hg (sel := Group.x) (fun _ _ _ _ => rfl) rfl n)

theorem pGet_movedInto (n : Nat) : pGet (movedInto gs g) n m.1.2 = pGet m.2.1 n m.2.2 := by
  have := congrArg (fun r : Option Pred => r.getD {}) (sfind_movedInto hn hm hg (sel := Group.p) (fun _ _ _ _ => rfl) rfl n)
  unfold pGet
  exact congrArg (fun r => if n = 0 then _ else r) this

theorem opened_movedInto : (movedInto gs g).span.opened.getLsbD m.1.2 = m.2.1.span.opened.getLsbD m.2.2 := by
  refine Eq.trans ?_ (opened_receiveAll (nodup_movesTo hn m.1.1) (mem_movesTo hm) (mem_moves hm).1 (vacated g) BitVec.getLsbD_zero)
  rw [hg]
  rfl

omit hn in
theorem exited_movedInto_moved : (movedInto gs g).exited.getLsbD m.1.2 = false := by
  have ht := (mem_moves hm).1
  have hany : ((moves gs).any fun m' => m'.1 = (g.id, m.1.2)) = true := List.any_eq_true.mpr ⟨m, hm, by simp [← hg]⟩
  rw [exited_movedInto, BitVec.getLsbD_not, getLsbD_maskOf _ _ ht, hany]
  simp

end

/-! ## The state after the redistribution (R14, R15) -/

/-- R15: each participant with the threads that it receives. -/
theorem group_setGroups {f : Group → Group} (hid : ∀ g, (f g).id = g.id) (k : Nat) {gs : List Group} (hk : k ∉ gs.map (·.id)) (s : State) :
    (gs.foldl (fun s g => s.setGroup (f g)) s).group k = s.group k := by
  induction gs generalizing s with
  | nil => rfl
  | cons g gs ih =>
    obtain ⟨hne, hrest⟩ := not_or.mp (mt List.mem_cons.mpr hk)
    refine (ih hrest _).trans ?_
    rw [group_setGroup, hid, if_neg hne]

theorem group_setGroups_mem {f : Group → Group} (hid : ∀ g, (f g).id = g.id) {gs : List Group} (hn : (gs.map (·.id)).Nodup) {g : Group}
    (hg : g ∈ gs) (s : State) : (gs.foldl (fun s g => s.setGroup (f g)) s).group g.id = some (f g) := by
  induction gs generalizing s with
  | nil => cases hg
  | cons g' gs ih =>
    obtain ⟨hnot, hrest⟩ := List.nodup_cons.mp hn
    rcases List.mem_cons.mp hg with rfl | hg
    · refine (group_setGroups hid _ hnot _).trans ?_
      rw [group_setGroup, hid, if_pos rfl]
    · exact ih hrest hg _

theorem group_redistribute (s : State) (gs : List Group) (k : Nat) :
    (redistribute s gs).group k = (gs.foldl (fun s g => s.setGroup (movedInto gs g)) s).group k := rfl

/-- R450: the record of a participant that is left without threads. -/
def traceEmptied (s : State) (g : Group) : State :=
  match s.group g.id with
  | some g' => if g'.paths.isEmpty then
      trace s g.id 3 g'.retired ((g.paths.head?).elim 0 (·.2.pc)) ((g.paths.head?).elim 0 (·.2.mask)) else s
  | none => s

section

variable {β : Type} {f : Group → β} (hmon : ∀ (g : Group) (m : Monitor), f { g with mon := m } = f g)
include hmon

theorem view_traceEmptied {k : Nat} (s : State) (g : Group) (hcount : (k = g.id ∨ ∃ g', s.group g.id = some g' ∧ k = g'.id) →
    ∀ (g : Group) n, f { g with traceCount := n } = f g) : ((traceEmptied s g).group k).map f = (s.group k).map f := by
  unfold traceEmptied
  split
  · split
    · exact view_trace hmon s hcount 3 _ _ _
    · rfl
  · rfl

theorem view_tracesEmptied (hcount : ∀ (g : Group) n, f { g with traceCount := n } = f g) (gs : List Group) (k : Nat) (s : State) :
    ((gs.foldl traceEmptied s).group k).map f = (s.group k).map f := by
  induction gs generalizing s with
  | nil => rfl
  | cons g gs ih => exact (ih _).trans (view_traceEmptied hmon s g fun _ => hcount)

end

/-- R450: the records of the participants leave the other groups. -/
theorem quiet_tracesEmptied {gs : List Group} {k : Nat} (hk : k ∉ gs.map (·.id)) (s : State)
    (hid : ∀ g ∈ gs, (s.group g.id).map Group.id = some g.id) : ((gs.foldl traceEmptied s).group k).map quiet = (s.group k).map quiet := by
  induction gs generalizing s with
  | nil => rfl
  | cons g gs ih =>
    obtain ⟨hne, hrest⟩ := not_or.mp (mt List.mem_cons.mpr hk)
    obtain ⟨hown, hids⟩ := List.forall_mem_cons.mp hid
    refine (ih hrest _ fun g' hg' => ?_).trans (view_traceEmptied (fun _ _ => rfl) s g ?_)
    · exact (view_traceEmptied (fun _ _ => rfl) s g fun _ _ _ => rfl).trans (hids g' hg')
    · rintro (rfl | ⟨g', hg', rfl⟩)
      · exact absurd rfl hne
      · rw [hg'] at hown
        exact absurd (Option.some.inj hown) hne

theorem group_completeAll (s : State) (wg k : Nat) : (completeAll s wg).group k = s.group k := by
  obtain ⟨m, h, -⟩ := wgsOnly_completeAll s wg
  rw [h]
  rfl

/-- A group but for its monitor and the count of its records. -/
def untraced (g : Group) : Group := { g with mon := {}, traceCount := 0 }

theorem regroup_one {s : State} {wg role : Nat} {g : Group} (hp : participants s wg role = [g]) (hr : regroupReady s [g] = true)
    (hl : g.live = true) : exec (.regroupRedistribute wg role) s = .next (s.modGroup g.id fun g =>
      { g with retired := g.retired + 1, paths := smapAll g.paths fun p => { p with pc := nextPc p.pc, park := .running } }) := by
  show execRegroupRedistribute wg role s = _
  simp only [execRegroupRedistribute, hp, hr, hl, List.all_cons, List.all_nil]
  rfl

theorem regroup_many {s : State} {wg role : Nat} {gs : List Group} (hp : participants s wg role = gs) (hr : regroupReady s gs = true)
    (hl : ∀ g ∈ gs, g.live = true) (h2 : 2 ≤ gs.length) : exec (.regroupRedistribute wg role) s =
      .next (completeAll (gs.foldl traceEmptied (redistribute s gs)) wg) := by
  have hne : gs.isEmpty = false := by
    cases gs
    · simp at h2
    · rfl
  have hall : (gs.all fun g => g.live) = true := List.all_eq_true.mpr hl
  show execRegroupRedistribute wg role s = _
  simp only [execRegroupRedistribute, hp, hr, hall, hne, Bool.not_true, Bool.or_self, Bool.false_eq_true, if_false,
    if_neg (show ¬ gs.length = 1 by omega)]
  rfl

/-- R14, R15. -/
theorem regroupMoves : Claim.RegroupMoves := by
  intro s wg role gs hp hr hl hown hn
  refine ⟨?_, fun h2 => ?_⟩
  · rintro g rfl
    have hg := hown g (List.mem_singleton_self g)
    exact ⟨_, _, regroup_one hp hr (hl g (List.mem_singleton_self g)), (group_modGroup_same ..).trans (congrArg (Option.map _) hg), rfl,
      rfl, rfl⟩
  · have after : ∀ g ∈ gs, (redistribute s gs).group g.id = some (movedInto gs g) := fun g hg =>
      group_setGroups_mem (f := movedInto gs) (id_movedInto gs) hn hg s
    refine ⟨_, regroup_many hp hr hl h2, fun k hk => ?_, fun g hg => ?_⟩
    · rw [group_completeAll, quiet_tracesEmptied hk, group_redistribute, group_setGroups (id_movedInto gs) k hk]
      intro g hg
      rw [after g hg, Option.map_some, id_movedInto]
    · obtain ⟨g', hg', hu⟩ := Option.map_eq_some_iff.mp ((view_tracesEmptied (f := untraced) (fun _ _ => rfl) (fun _ _ => rfl) gs g.id
        (redistribute s gs)).trans (congrArg (Option.map untraced) (after g hg)))
      have same {β : Type} (f : Group → β) (hf : ∀ g, f (untraced g) = f g) : f g' = f (movedInto gs g) :=
        (hf g').symm.trans ((congrArg f hu).trans (hf _))
      refine ⟨g', (group_completeAll ..).trans hg', same (·.retired) fun _ => rfl, (same (·.exited) fun _ => rfl).trans (exited_movedInto gs g),
        fun m hm hmg => ⟨fun n => ?_, fun n => ?_, fun n => ?_, ?_, ?_⟩⟩
      · exact (same (vGet · n m.1.2) fun _ => rfl).trans (vGet_movedInto hn hm hmg n)
      · exact (same (pGet · n m.1.2) fun _ => rfl).trans (pGet_movedInto hn hm hmg n)
      · exact (same (xGet · n m.1.2) fun _ => rfl).trans (xGet_movedInto hn hm hmg n)
      · exact (same (·.span.opened.getLsbD m.1.2) fun _ => rfl).trans (opened_movedInto hn hm hmg)
      · exact (same (·.exited.getLsbD m.1.2) fun _ => rfl).trans (exited_movedInto_moved hm hmg)

/-- Settles O38: the events of one group each by what its event changes, the redistribution by following each thread to its slot. -/
theorem groupAndRegroupEvents : Obligations.GroupAndRegroupEvents :=
  ⟨⟨replayBegins, groupLeaves, pauseEnds, groupStalls, groupDeadlocks⟩, regroupMoves⟩

end Sys2Proof.Machine
end

section
/-!
SUPPORT. Occupancy summaries and steals between the distributors of a package (R26, R27).
-/

namespace Sys2Proof.Machine

open Sys2Proof Sys2Proof.Laws

theorem share_setShare (l : Launch) (q k : Nat) (x : Share) : (l.setShare q x).share k = if k = q then x else l.share k := by
  unfold Launch.setShare Launch.share sget
  rw [sfind_sins]
  split <;> rfl

theorem mem_partQuads {s : State} {n q : Nat} (h : q ∈ partQuads s n) : q < 4 := List.mem_range.mp (List.mem_filter.mp h).1

/-! ## Summaries (R27) -/

theorem seen_learn (l : Launch) (source target n : Nat) : sget 0 (sget [] (l.learn source target n).seen target) source = n := by
  have : sget [] (sins l.seen target (sput 0 (sget [] l.seen target) source n)) target = sput 0 (sget [] l.seen target) source n := by
    rw [sget, sfind_sins_same]
    rfl
  exact (congrArg (sget 0 · source) this).trans (sget_sput_same ..)

theorem share_learn (l : Launch) (source target n k : Nat) :
    (l.learn source target n).share k = if k = target then { l.share target with asked := [] } else l.share k :=
  share_setShare { l with seen := _ } target k _

/-- R27: a summary that is due reaches a distributor of the package. -/
theorem exec_occupancySummary {s : State} {id a v : Nat} {l : Launch} (hl : s.launch id = some l) (run : l.state = 1) (hne : v ≠ a)
    (hv : v ∈ partQuads s ((s.ctx l.ctx).elim 0 (·.part))) (ha : a ∈ partQuads s ((s.ctx l.ctx).elim 0 (·.part)))
    (hlast : sget 0 (sget [] l.seen a) v ≠ (l.share v).count)
    (hdue : (l.share v).count = 0 ∨ sget 0 (sget [] l.seen a) v + 64 ≤ (l.share v).count ∨
      (l.share v).count + 64 ≤ sget 0 (sget [] l.seen a) v) :
    exec (.occupancySummary id v a) s = .next (s.modLaunch id (·.learn v a (l.share v).count)) := by
  have hdist : (distributors s l).contains a = true := List.contains_iff_mem.mpr (List.mem_append_left _ ha)
  have hdue' : (decide ((l.share v).count = 0) || decide (sget 0 (sget [] l.seen a) v + 64 ≤ (l.share v).count) ||
      decide ((l.share v).count + 64 ≤ sget 0 (sget [] l.seen a) v)) = true := by simpa [or_assoc] using hdue
  show execOccupancySummary id v a s = _
  simp only [execOccupancySummary, hl, run, hne, List.contains_iff_mem.mpr hv, hdist, hlast, hdue', mem_partQuads ha, ne_eq, not_true_eq_false,
    not_false_eq_true, decide_false, decide_true, Bool.not_true, Bool.and_true, Bool.or_self, Bool.false_eq_true, if_false, if_true]

/-! ## Steals (R27) -/

theorem launch_modLaunch_some {s : State} {id : Nat} {l : Launch} (hl : s.launch id = some l) (f : Launch → Launch) :
    (s.modLaunch id f).launch id = some (f l) := by
  rw [launch_modLaunch, if_pos rfl, hl]
  rfl

/-- R27: a distributor asks the next one of its package. -/
theorem exec_stealRequest {s : State} {id a v : Nat} {l : Launch} (hl : s.launch id = some l) (hs : steals s l a v = true) (hv : v < 4) :
    exec (.stealRequest id a v) s = if (l.share v).count = 0 then
        .next (s.modLaunch id (·.setShare a { l.share a with asked := v :: (l.share a).asked }))
      else .next (s.modLaunch id fun k =>
        (k.setShare a { l.share a with ranges := (l.share a).ranges ++ (l.share v).handOver.1, asked := [] }).setShare v (l.share v).handOver.2) := by
  show execStealRequest id a v s = _
  simp only [execStealRequest, hl, hs, Bool.not_true, Bool.false_eq_true, if_false, Nat.not_le.mpr hv]

/-- R27: a distributor that has begun no unit hands over the upper half of its units. -/
theorem handOver_fresh {x : Share} (h : x.nextWg = 0) :
    x.handOver = ((topUnits ((x.count + 1) / 2) x.ranges).1, { x with ranges := (topUnits ((x.count + 1) / 2) x.ranges).2 }) := by
  simp only [Share.handOver, h, if_true]

/-- R26, R27. -/
theorem unitsStolen : Claim.UnitsStolen := by
  intro s id a v l hl
  refine ⟨fun last run hne hv ha hlast hdiff hdue => ?_, fun place ha none idle victim hv wants => ?_⟩
  · subst hlast
    refine ⟨_, _, exec_occupancySummary hl run hne hv ha hdiff hdue, rfl, rfl, launch_modLaunch_some hl _, seen_learn .., ?_, fun k => ?_, rfl⟩
    · rw [share_learn, if_pos rfl]
    · rw [share_learn]
      split
      · next hk => rw [hk]
      · rfl
  · have hs : steals s l a v = true := by
      simp only [steals, place, List.contains_iff_mem.mpr ha, none, idle, victim, wants, Option.isNone_none, decide_true, Bool.and_self]
    have he := exec_stealRequest hl hs hv
    by_cases hn : (l.share v).count = 0
    · rw [if_pos hn] at he
      refine ⟨_, _, he, rfl, rfl, launch_modLaunch_some hl _, rfl, fun _ => ⟨?_, fun k => ?_⟩, fun h => absurd hn h⟩
      · rw [share_setShare, if_pos rfl]
      · rw [share_setShare]
        split
        · next hk => rw [hk]
        · rfl
    · have hva : a ≠ v := fun h => hn (h ▸ none)
      rw [if_neg hn] at he
      refine ⟨_, _, he, rfl, rfl, launch_modLaunch_some hl _, rfl, fun h => absurd h hn, fun _ begun => ?_⟩
      rw [handOver_fresh begun]
      refine ⟨?_, ?_, ?_, fun k hka hkv => ?_⟩
      · rw [share_setShare, if_neg hva, share_setShare, if_pos rfl]
      · rw [share_setShare, if_neg hva, share_setShare, if_pos rfl]
      · rw [share_setShare, if_pos rfl]
      · rw [share_setShare, if_neg hkv, share_setShare, if_neg hka]

end Sys2Proof.Machine
end

section
/-!
SUPPORT. The placement of a workgroup (R21, R23, R26, R159, R360).
-/

namespace Sys2Proof.Machine

open Sys2Proof Sys2Proof.Laws

/-! ## Lookups by key -/

theorem sfind_none {α : Type} {m : SMap α} {k : Nat} (h : ∀ kx ∈ m, kx.1 ≠ k) : sfind m k = none := by
  induction m with
  | nil => rfl
  | cons kx m ih =>
    obtain ⟨hne, hrest⟩ := List.forall_mem_cons.mp h
    rw [show sfind (kx :: m) k = if k = kx.1 then some kx.2 else sfind m k from rfl, if_neg (Ne.symm hne), ih hrest]

/-- A key whose entries all hold one value. -/
theorem sfind_unique {α : Type} {m : SMap α} {k : Nat} {v : α} (hm : (k, v) ∈ m) (h : ∀ kx ∈ m, kx.1 = k → kx.2 = v) :
    sfind m k = some v := by
  induction m with
  | nil => cases hm
  | cons kx m ih =>
    obtain ⟨hv, hrest⟩ := List.forall_mem_cons.mp h
    rw [show sfind (kx :: m) k = if k = kx.1 then some kx.2 else sfind m k from rfl]
    split
    · next hk => rw [hv hk.symm]
    · next hk =>
      refine ih ((List.mem_cons.mp hm).resolve_left fun he => hk ?_) hrest
      rw [← he]

/-! ## A group as it starts (R159, R164, R360) -/

/-- R20: the coordinates that a group's threads start with, but for those that are 0. -/
def startCoords (l : Launch) (unit wgnum pos : Nat) : SMap Nat :=
  (List.range l.levels.length).flatMap fun k =>
    if k = 0 then [] else (List.range (threadsPerGroup l)).filterMap fun t =>
      if threadCoord l unit wgnum pos t k = 0 then none else some (128 * k + t, threadCoord l unit wgnum pos t k)

theorem mem_startCoords {l : Launch} {unit wgnum pos : Nat} {kx : Nat × Nat} : kx ∈ startCoords l unit wgnum pos ↔
    ∃ k t, k < l.levels.length ∧ k ≠ 0 ∧ t < threadsPerGroup l ∧ threadCoord l unit wgnum pos t k ≠ 0 ∧
      kx = (128 * k + t, threadCoord l unit wgnum pos t k) := by
  unfold startCoords
  constructor
  · intro h
    obtain ⟨k, hk, h⟩ := List.mem_flatMap.mp h
    split at h
    · cases h
    · next h0 =>
      obtain ⟨t, ht, h⟩ := List.mem_filterMap.mp h
      split at h
      · cases h
      · next hc => exact ⟨k, t, List.mem_range.mp hk, h0, List.mem_range.mp ht, hc, (Option.some.inj h).symm⟩
  · rintro ⟨k, t, hk, h0, ht, hc, rfl⟩
    refine List.mem_flatMap.mpr ⟨k, List.mem_range.mpr hk, ?_⟩
    rw [if_neg h0]
    exact List.mem_filterMap.mpr ⟨t, List.mem_range.mpr ht, if_neg hc⟩

theorem sget_startCoords {l : Launch} (unit wgnum pos : Nat) (hn : threadsPerGroup l ≤ 128) {k t : Nat} (hk : k ≠ 0)
    (hlen : k < l.levels.length) (ht : t < threadsPerGroup l) :
    sget 0 (startCoords l unit wgnum pos) (128 * k + t) = threadCoord l unit wgnum pos t k := by
  have same : ∀ k' t', t' < threadsPerGroup l → 128 * k' + t' = 128 * k + t → k' = k ∧ t' = t := by
    intro k' t' ht' h
    omega
  by_cases hc : threadCoord l unit wgnum pos t k = 0
  · rw [sget, sfind_none, hc]
    · rfl
    · intro kx hkx heq
      obtain ⟨k', t', -, -, ht', hc', rfl⟩ := mem_startCoords.mp hkx
      obtain ⟨rfl, rfl⟩ := same k' t' ht' heq
      exact hc' hc
  · rw [sget, sfind_unique (mem_startCoords.mpr ⟨k, t, hlen, hk, ht, hc, rfl⟩)]
    · rfl
    · intro kx hkx heq
      obtain ⟨k', t', -, -, ht', -, rfl⟩ := mem_startCoords.mp hkx
      obtain ⟨rfl, rfl⟩ := same k' t' ht' heq
      rfl

/-- R159, R164, R360. -/
theorem startsAs_newGroup (l : Launch) (id wg pos role part slot unit num : Nat) (r : Role) (rid : BitVec 16)
    (hn : threadsPerGroup l ≤ 128) : StartsAs (newGroup l id wg pos role r.blocks part slot r.pc unit num rid) l wg pos role r unit num := by
  refine ⟨rfl, rfl, rfl, rfl, rfl, rfl, ?_, ?_, ?_, ?_, rfl, rfl, rfl, rfl, fun k t h0 hk ht =>
    sget_startCoords unit num pos hn (Nat.pos_iff_ne_zero.mp h0) hk ht⟩ <;> simp [newGroup, sGet_sSet, cleanReg]

/-! ## The groups of a workgroup (R23) -/

/-- R23: one group starts at its place. -/
def startGroup (l : Launch) (wg unit num : Nat) (s : State) (x : (Nat × Role) × (Nat × Nat) × Nat) : State :=
  let id := s.exe.nextId
  let s := s.fresh.2
  let g := newGroup l id wg x.2.2 x.1.1 x.1.2.blocks x.2.1.1 x.2.1.2 x.1.2.pc unit num 0
  let s := (s.setGroup g).modLaunch l.id fun l => { l with names := id :: l.names }
  s.withMem (startViews s.mem id (threadsPerGroup l) l.floor)

section

variable {l : Launch} {wg unit num number : Nat} {s : State}

theorem startRecorded_unlogged {c : Context} (hc : s.ctx l.ctx = some c) (hr : c.rep.status ≠ 1) (hi : c.rep.interval = false) (pos : Nat) :
    startRecorded s l number pos = some (0, s) := by
  simp [startRecorded, hc, hr, hi]

/-- R23: outside an interval of record mode every group of the workgroup starts. -/
theorem newGroups_eq {c : Context} (hr : c.rep.status ≠ 1) (hi : c.rep.interval = false) (xs : List ((Nat × Role) × (Nat × Nat) × Nat))
    (hc : s.ctx l.ctx = some c) : newGroups l wg unit num number xs s = some (xs.foldl (startGroup l wg unit num) s) := by
  induction xs generalizing s with
  | nil => rfl
  | cons x xs ih =>
    obtain ⟨⟨role, r⟩, ⟨part, slot⟩, pos⟩ := x
    rw [newGroups, startRecorded_unlogged hc hr hi]
    exact ih (s := startGroup l wg unit num s ((role, r), (part, slot), pos)) hc

theorem memByte_startViews (m : MemSys) (gid tpg : Nat) (floor : SMap Nat) (a : Nat) : memByte (startViews m gid tpg floor) a = memByte m a := by
  refine memByte_of_bytes ?_ a
  unfold startViews
  split
  · rfl
  · exact foldl_bytes _ (fun _ _ => raiseFloors_bytes ..) _ _

theorem group_startGroup (x : (Nat × Role) × (Nat × Nat) × Nat) (k : Nat) : (startGroup l wg unit num s x).group k =
    if k = s.exe.nextId then some (newGroup l k wg x.2.2 x.1.1 x.1.2.blocks x.2.1.1 x.2.1.2 x.1.2.pc unit num 0) else s.group k := by
  refine (group_setGroup s.fresh.2 _ k).trans ?_
  show (if k = s.exe.nextId then _ else s.group k) = _
  split
  · next h => rw [h]
  · rfl

theorem group_startGroups_below {k : Nat} (xs : List ((Nat × Role) × (Nat × Nat) × Nat)) (hk : k < s.exe.nextId) :
    (xs.foldl (startGroup l wg unit num) s).group k = s.group k := by
  induction xs generalizing s with
  | nil => rfl
  | cons x xs ih =>
    refine (ih (s := startGroup l wg unit num s x) (Nat.lt_succ_of_lt hk)).trans ?_
    rw [group_startGroup, if_neg (Nat.ne_of_lt hk)]

/-- R23: each group stands under the next name. -/
theorem group_startGroups {xs : List ((Nat × Role) × (Nat × Nat) × Nat)} {i : Nat} {x : (Nat × Role) × (Nat × Nat) × Nat}
    (hx : xs[i]? = some x) : (xs.foldl (startGroup l wg unit num) s).group (s.exe.nextId + i) =
      some (newGroup l (s.exe.nextId + i) wg x.2.2 x.1.1 x.1.2.blocks x.2.1.1 x.2.1.2 x.1.2.pc unit num 0) := by
  induction xs generalizing s i with
  | nil => cases hx
  | cons y xs ih =>
    cases i with
    | zero =>
      obtain rfl := Option.some.inj hx
      exact (group_startGroups_below xs (Nat.lt_succ_self _)).trans ((group_startGroup y _).trans (if_pos rfl))
    | succ i =>
      have := ih (s := startGroup l wg unit num s y) hx
      rwa [show (startGroup l wg unit num s y).exe.nextId + i = s.exe.nextId + (i + 1) from Nat.add_right_comm s.exe.nextId 1 i] at this

/-- R23: what the start of groups leaves. -/
theorem startGroups_frame (xs : List ((Nat × Role) × (Nat × Nat) × Nat)) : SameBytes s (xs.foldl (startGroup l wg unit num) s) ∧
    (xs.foldl (startGroup l wg unit num) s).exe.wgs = s.exe.wgs ∧
    ∀ k, ((xs.foldl (startGroup l wg unit num) s).launch k).map (·.shares) = (s.launch k).map (·.shares) := by
  induction xs generalizing s with
  | nil => exact ⟨fun _ => rfl, rfl, fun _ => rfl⟩
  | cons x xs ih =>
    obtain ⟨bytes, wgs, shares⟩ := ih (s := startGroup l wg unit num s x)
    refine ⟨fun a => (bytes a).trans (memByte_startViews ..), wgs, fun k => (shares k).trans ?_⟩
    refine (congrArg (Option.map _) (launch_modLaunch (s.fresh.2.setGroup _) l.id k _)).trans ?_
    split
    · next h =>
      rw [h, Option.map_map]
      rfl
    · rfl

end

/-! ## The placement (R21, R26) -/

/-- R21: a workgroup that is placed. -/
def placedWg (s : State) (l : Launch) (quad core unit num : Nat) : WG :=
  { id := s.exe.nextId, ctx := l.ctx, launch := l.id, unit := unitNumber l unit, num := num, quad := quad, core := core
    ngroups := l.gang.length, scratch := l.scratch, ntiles := l.acc }

/-- R26: the state once the workgroup is resident and its share has lost it, before its groups start. -/
def admitted (s : State) (l : Launch) (quad core unit num : Nat) (share : Share) : State :=
  let s1 := s.fresh.2
  { s1 with exe := { s1.exe with wgs := sins s1.exe.wgs s.exe.nextId (placedWg s l quad core unit num) } }.modLaunch l.id fun l' =>
    { l' with shares := sins l'.shares quad share
              facets := match facetUnit l' unit num with | some k => sins l'.facets k (core / 8) | none => l'.facets }

section

variable {s : State} {l : Launch} {quad core unit num : Nat} {share : Share}

theorem placeWg_eq {c : Context} (hc : s.ctx l.ctx = some c) (hr : c.rep.status ≠ 1) (hi : c.rep.interval = false)
    (ps : List (Nat × Nat)) : placeWg s l quad core unit num share ps =
      some ((l.gang.zip (ps.zip (List.range ps.length))).foldl (startGroup l s.exe.nextId (unitNumber l unit) num)
        (admitted s l quad core unit num share)) := by
  show newGroups l s.exe.nextId (unitNumber l unit) num (unit * wgsPerUnit l + num) _ (admitted s l quad core unit num share) = _
  exact newGroups_eq hr hi _ hc

/-- R26, R372: a distributor places where no launch that goes first could. -/
theorem exec_workgroupPlace {id : Nat} {c : Context} {ps : List (Nat × Nat)} (hl : s.launch id = some l) (hc : s.ctx l.ctx = some c)
    (hr : c.rep.status ≠ 1) (hi : c.rep.interval = false)
    (hfirst : ∀ kl ∈ s.host.launches, kl.2.before l = true → placeable s kl.2 quad core = none)
    (hp : placeable s l quad core = some ((unit, num), share, ps)) : exec (.workgroupPlace id quad core) s =
      .next ((l.gang.zip (ps.zip (List.range ps.length))).foldl (startGroup l s.exe.nextId (unitNumber l unit) num)
        (admitted s l quad core unit num share)) := by
  have first : (s.host.launches.any fun kl => kl.2.before l && (placeable s kl.2 quad core).isSome) = false := by
    rw [List.any_eq_false]
    intro kl hkl
    cases hb : kl.2.before l
    · simp
    · simp [hfirst kl hkl hb]
  show execWorkgroupPlace id quad core s = _
  simp only [execWorkgroupPlace, hl, hc, Option.any_some, hr, decide_false, Bool.false_eq_true, if_false, first, hp, placeWg_eq hc hr hi,
    Option.getD_some]

/-- R26: the share loses the workgroup. -/
theorem launch_admitted (hl : s.launch l.id = some l) : ((admitted s l quad core unit num share).launch l.id).map (·.shares) =
    some (sins l.shares quad share) := by
  rw [admitted, launch_modLaunch, if_pos rfl, Option.map_map]
  exact congrArg (Option.map _) hl

end

/-- R21, R23, R26, R159, R360. -/
theorem workgroupPlaced : Claim.WorkgroupPlaced := by
  rintro s id quad core unit num l c share ps hl rfl hc hr hi hfirst hp hlen hn
  obtain ⟨bytes, wgs, shares⟩ := startGroups_frame (l := l) (wg := s.exe.nextId) (unit := unitNumber l unit) (num := num)
    (s := admitted s l quad core unit num share) (l.gang.zip (ps.zip (List.range ps.length)))
  obtain ⟨l', hl', hs'⟩ := Option.map_eq_some_iff.mp ((shares l.id).trans (launch_admitted hl))
  refine ⟨_, _, l', exec_workgroupPlace hl hc hr hi hfirst hp, bytes, (congrArg (sfind · s.exe.nextId) wgs).trans (sfind_sins_same ..), rfl,
    hl', ?_, fun k hk => ?_, fun k hk => group_startGroups_below _ (Nat.lt_succ_of_lt hk), fun pos x pl hx hpl => ?_⟩
  · rw [Launch.share, hs', sget, sfind_sins_same]
    rfl
  · rw [Launch.share, hs', sget, sfind_sins_other _ _ _ _ hk]
    rfl
  · have hpos : pos < ps.length := (List.getElem?_eq_some_iff.mp hpl).1
    have hzip : (l.gang.zip (ps.zip (List.range ps.length)))[pos]? = some (x, pl, pos) :=
      List.getElem?_zip_eq_some.mpr ⟨hx, List.getElem?_zip_eq_some.mpr ⟨hpl, by rw [List.getElem?_range hpos]⟩⟩
    exact ⟨_, group_startGroups hzip, rfl, rfl, startsAs_newGroup l _ _ pos x.1 pl.1 pl.2 _ num x.2 0 hn⟩

end Sys2Proof.Machine
end

section
/-!
SUPPORT. The answer to a FETCHWG (R29 to R32).
-/

namespace Sys2Proof.Machine

open Sys2Proof Sys2Proof.Laws

/-! ## The words of a mailbox (R30, R31) -/

/-- R30: the device writes the words after the status of a mailbox at `base`: the first `n` of them. -/
def mailWords (s : State) (base : Nat) (val : Nat → Word) (n : Nat) : State :=
  (List.range n).foldl (fun s k => writeOne s [deviceAgent] (base + 4 * (k + 1)) (val (k + 1)) 0xF false 0 0) s

theorem mailWords_succ (s : State) (base : Nat) (val : Nat → Word) (n : Nat) : mailWords s base val (n + 1) =
    writeOne (mailWords s base val n) [deviceAgent] (base + 4 * (n + 1)) (val (n + 1)) 0xF false 0 0 := by
  rw [mailWords, List.range_succ, List.foldl_append]
  rfl

theorem memWord_of_memByte {m m' : MemSys} {a : Nat} (h : ∀ k < 4, memByte m (a + k) = memByte m' (a + k)) : memWord m a = memWord m' a := by
  unfold memWord
  rw [h 1 (by decide), h 2 (by decide), h 3 (by decide), show memByte m a = memByte m' a from h 0 (by decide)]

theorem memWord_writeOne (s : State) (ags : List Nat) (a : Nat) (v : Word) (p : Bool) (o : Word) (va : DWord) (b : Nat) :
    memWord (writeOne s ags a v 0xF p o va).mem b = memWord (setWord s.mem a v) b :=
  memWord_of_memByte fun _ _ => memByte_writeOne s ags v p o va _

section

variable (s : State) (base : Nat) (val : Nat → Word)

theorem sameGroups_mailWords (n : Nat) : SameGroups s (mailWords s base val n) := by
  induction n with
  | zero => exact fun _ => rfl
  | succ n ih =>
    rw [mailWords_succ]
    exact ih.trans (sameGroups_writeOne (mailWords s base val n) [deviceAgent] _ _ _ _ _)

theorem mailWords_host (hb : 0x10000000000000 ≤ base) (n : Nat) : (mailWords s base val n).host = s.host := by
  induction n with
  | zero => rfl
  | succ n ih =>
    rw [mailWords_succ, writeOne_scratch_host _ _ (Nat.le_add_right_of_le hb), ih]

theorem memByte_mailWords (n b : Nat) (h : b < base + 4 ∨ base + 4 * (n + 1) ≤ b) : memByte (mailWords s base val n).mem b = memByte s.mem b := by
  induction n with
  | zero => rfl
  | succ n ih =>
    rw [mailWords_succ, memByte_writeOne, memByte_setWord_outside _ _ _ _ (by omega)]
    exact ih (by omega)

theorem memWord_mailWords (n k : Nat) (h : k < n) : memWord (mailWords s base val n).mem (base + 4 * (k + 1)) = val (k + 1) := by
  induction n with
  | zero => exact absurd h (Nat.not_lt_zero k)
  | succ n ih =>
    rw [mailWords_succ, memWord_writeOne]
    by_cases hk : k = n
    · rw [hk, memWord_setWord_same]
    · rw [memWord_setWord_other _ _ _ _ (by omega)]
      exact ih (by omega)

end

/-- R30, R31: the coordinate words and the workgroup number as the model lists them. -/
theorem mailList_eq (l : Launch) (seq : BitVec 16) (granted : Option (Nat × Nat)) (base : Nat) :
    ((List.range 6).map fun k => (base + 4 + 4 * k, match granted with
      | some (u, n) => if levelWith l 2 < k + 2 && k + 2 < l.levels.length then BitVec.ofNat 32 (wgCoord l u n (k + 2)) else 0
      | none => (0 : Word))) ++ [(base + 0x1C, BitVec.ofNat 32 ((granted.map (·.2)).getD 0))] =
    (List.range 7).map fun k => (base + 4 * (k + 1), mailboxWord l seq granted (k + 1)) := by
  rw [show List.range 7 = List.range 6 ++ [6] from List.range_succ, List.map_append]
  congr 1
  · refine List.map_congr_left fun k hk => ?_
    have hk := List.mem_range.mp hk
    have h7 : ¬ k + 1 = 7 := by omega
    rw [show base + 4 + 4 * k = base + 4 * (k + 1) by omega]
    cases granted with
    | none => simp [mailboxWord]
    | some un => simp only [mailboxWord, Nat.add_one_ne_zero, if_false, if_neg h7, Bool.and_eq_true, decide_eq_true_eq, Nat.add_assoc]
  · cases granted with
    | none => rfl
    | some un => rfl

/-! ## The answer (R29, R32) -/

/-- R29, R32: the end of an answer: the group has no request outstanding, and the status arrives in its register. -/
def finishFetch (s : State) (g : Group) (f : FetchReq) (v : Word) : State :=
  deliver (s.modGroup g.id fun g' => { g' with fetch := none, fetchSeq := g.fetchSeq + 1 }) g.id
    [({ file := 1, reg := f.dst, t := 0 }, { val := v })]

/-- R29, R32: the group once its request is answered. -/
def fetched (g : Group) (f : FetchReq) (seq : BitVec 16) (v : Word) : Group :=
  sSet { g with fetch := none, fetchSeq := seq } f.dst { val := v, full := true }

section

variable (s : State) (g : Group) (f : FetchReq) (v : Word)

theorem finishFetch_host : (finishFetch s g f v).host = s.host := rfl

theorem finishFetch_mem : (finishFetch s g f v).mem = s.mem := rfl

theorem group_finishFetch {g1 : Group} (hg : s.group g.id = some g1) :
    (finishFetch s g f v).group g.id = some (fetched g1 f (g.fetchSeq + 1) v) := by
  refine (group_modGroup_same ..).trans ?_
  rw [group_modGroup_same, hg]
  rfl

theorem sGet_fetched (seq : BitVec 16) (n : Nat) : sGet (fetched g f seq v) n = if n = f.dst then { val := v, full := true } else sGet g n :=
  sGet_sSet { g with fetch := none, fetchSeq := seq } f.dst n _

end

theorem not_reserved {w : WG} {off : Nat} (h : w.reserves off = false) : syncReserved w (w.scratchBase + off) = false := by
  unfold syncReserved
  rw [Nat.add_sub_cancel_left, h, Bool.and_false]

theorem halves_status (x : Word) : (DWord.halves (x.setWidth 64)).1 = x := by
  refine BitVec.eq_of_getLsbD_eq fun i hi => ?_
  simp [DWord.halves, hi, show i < 64 by omega]

/-- R29 to R32: the rest of the answer once its words `words` and its status `v` are known. -/
def answerWith (s : State) (g : Group) (w : WG) (f : FetchReq) (words : List (Nat × Word)) (v : Word) : State :=
  let s := words.foldl (fun s x => if syncReserved w x.1 then s else writeOne s [deviceAgent] x.1 x.2 0xF false 0 0) s
  let seen := words.map fun x => (x.1, (((writesOf s.mem x.1).head?).map (·.seq)).getD 0)
  let gids := (s.exe.groups.filter fun kg => kg.2.wg = w.id).map (·.1)
  let s := s.withMem (gids.foldl (fun m gid => (List.range 128).foldl (fun m t => raiseFloors m (agentOf gid t) seen) m) s.mem)
  finishFetch (writeOne s [deviceAgent] (w.scratchBase + f.mailbox) v 0xF false 0 0) g f v

section

variable {s : State} {g : Group} {w : WG} {l : Launch} {f : FetchReq} {granted : Option (Nat × Nat)}

theorem foldl_mailList (hr : ∀ n, n < 8 → w.reserves (f.mailbox + 4 * n) = false) (val : Nat → Word) :
    ((List.range 7).map fun k => (w.scratchBase + f.mailbox + 4 * (k + 1), val (k + 1))).foldl
      (fun s x => if syncReserved w x.1 then s else writeOne s [deviceAgent] x.1 x.2 0xF false 0 0) s =
    mailWords s (w.scratchBase + f.mailbox) val 7 := by
  rw [List.foldl_map]
  refine List.foldl_ext _ _ _ fun s k hk => ?_
  have hk := List.mem_range.mp hk
  have : syncReserved w (w.scratchBase + f.mailbox + 4 * (k + 1)) = false := by
    rw [Nat.add_assoc]
    exact not_reserved (hr _ (by omega))
  rw [this]
  exact if_neg Bool.false_ne_true

/-- R29 to R31: outside an interval of record mode the mailbox takes its words, then its status, and the register the status. -/
theorem answerFetch_eq (hlog : logging s w.ctx = false) : answerFetch s g w l f granted = some (answerWith s g w f
    ((List.range 7).map fun k => (w.scratchBase + f.mailbox + 4 * (k + 1), mailboxWord l (g.fetchSeq + 1) granted (k + 1)))
    (mailboxWord l (g.fetchSeq + 1) granted 0)) := by
  rw [← mailList_eq, ← halves_status (mailboxWord l (g.fetchSeq + 1) granted 0)]
  unfold answerFetch
  dsimp only
  rw [receive_unlogged hlog]
  rfl

theorem memByte_setWord_congr {m m' : MemSys} (h : ∀ a, memByte m a = memByte m' a) (a : Nat) (v : Word) (b : Nat) :
    memByte (setWord m a v) b = memByte (setWord m' a v) b := by
  rw [setWord, memByte_setBytes, setWord, memByte_setBytes, h b]

theorem memByte_raiseAll (m : MemSys) (seen : SMap Nat) (gids : List Nat) (a : Nat) :
    memByte (gids.foldl (fun m gid => (List.range 128).foldl (fun m t => raiseFloors m (agentOf gid t) seen) m) m) a = memByte m a :=
  memByte_of_bytes (foldl_bytes _ (fun _ _ => foldl_bytes _ (fun _ _ => raiseFloors_bytes ..) _ _) _ _) a

/-- R30: once the words are there, what threads have seen changes no byte; the status follows. -/
theorem answerWith_eq {words : List (Nat × Word)} {s1 : State} (hs : words.foldl (fun s x =>
    if syncReserved w x.1 then s else writeOne s [deviceAgent] x.1 x.2 0xF false 0 0) s = s1) (v : Word) :
    ∃ m, (∀ a, memByte m a = memByte s1.mem a) ∧ answerWith s g w f words v =
      finishFetch (writeOne (s1.withMem m) [deviceAgent] (w.scratchBase + f.mailbox) v 0xF false 0 0) g f v := by
  unfold answerWith
  rw [hs]
  exact ⟨_, fun _ => memByte_raiseAll .., rfl⟩

end

/-! ## The request is granted, or the launch exhausted (R29) -/

section

variable {s : State} {gid : Nat} {g : Group} {w : WG} {l : Launch} {c : Context} {f : FetchReq} (hg : s.group gid = some g)
  (hf : g.fetch = some f) (hw : s.wg g.wg = some w) (hl : s.launch w.launch = some l) (hc : s.ctx w.ctx = some c) (place : placing s l = true)
  (hr : c.rep.status ≠ 1) (hb : fetchBehind s g f = false)
include hg hf hw hl hc place hr hb

theorem exec_fetchwgAnswer_granted {u k : Nat} {share : Share} {t : State} (take : (l.share w.quad).take (wgsPerUnit l) = some ((u, k), share))
    (ha : answerFetch (s.modLaunch l.id fun l => { l with shares := sins l.shares w.quad share }) g w l f (some (unitNumber l u, k)) = some t) :
    exec (.fetchwgAnswer gid) s = .next t := by
  show execFetchwgAnswer gid s = _
  simp only [execFetchwgAnswer, hg, hf, hw, hl, hc, place, hr, hb, take, ha, Bool.not_true, Bool.false_eq_true, if_false, Option.getD_some]

theorem exec_fetchwgAnswer_exhausted {t : State} (take : (l.share w.quad).take (wgsPerUnit l) = none) (hx : exhaustedFor s l w.quad = true)
    (ha : answerFetch s g w l f none = some t) : exec (.fetchwgAnswer gid) s = .next t := by
  show execFetchwgAnswer gid s = _
  simp only [execFetchwgAnswer, hg, hf, hw, hl, hc, place, hr, hb, take, hx, ha, Bool.not_true, Bool.false_eq_true, if_false, if_true,
    Option.getD_some]

end

/-- R29 to R32: what an answer leaves: the mailbox at `base` and the register hold the words of `val`, the group has no request
outstanding, and no other byte differs. -/
def HoldsAnswer (s t : State) (g : Group) (f : FetchReq) (base : Nat) (val : Nat → Word) : Prop :=
  t.host = s.host ∧ ∃ g', t.group g.id = some g' ∧
    g' = { g with fetch := none, fetchSeq := g.fetchSeq + 1, sr := g'.sr, mon := g'.mon } ∧
    sGet g' f.dst = cleanReg (val 0) ∧ (∀ n, n ≠ f.dst → sGet g' n = sGet g n) ∧
    (∀ n, n < 8 → memWord t.mem (base + 4 * n) = val n) ∧
    ∀ b, b < base ∨ base + 32 ≤ b → memByte t.mem b = memByte s.mem b

/-- R30: the status follows the words that stand in the mailbox. -/
theorem holdsAnswer_finish {s s1 : State} {g : Group} {base : Nat} {val : Nat → Word} {m : MemSys} (f : FetchReq)
    (hg : s.group g.id = some g) (hb : 0x10000000000000 ≤ base) (hm : ∀ a, memByte m a = memByte s1.mem a) (same : SameGroups s s1)
    (host : s1.host = s.host) (words : ∀ k, k < 7 → memWord s1.mem (base + 4 * (k + 1)) = val (k + 1))
    (rest : ∀ b, b < base + 4 ∨ base + 32 ≤ b → memByte s1.mem b = memByte s.mem b) :
    HoldsAnswer s (finishFetch (writeOne (s1.withMem m) [deviceAgent] base (val 0) 0xF false 0 0) g f (val 0)) g f base val := by
  have same' : SameGroups s (s1.withMem m) := same
  obtain ⟨mon, hmon⟩ := (same'.trans (sameGroups_writeOne (s1.withMem m) [deviceAgent] (a := base) (val 0) false 0 0 0xF)).group hg
  have host' : (s1.withMem m).host = s.host := host
  have bytes (b : Nat) : memByte (finishFetch (writeOne (s1.withMem m) [deviceAgent] base (val 0) 0xF false 0 0) g f (val 0)).mem b =
      memByte (setWord s1.mem base (val 0)) b := by
    rw [finishFetch_mem, memByte_writeOne]
    exact memByte_setWord_congr hm _ _ b
  refine ⟨?_, _, group_finishFetch _ g f _ hmon, rfl, ?_, fun n hn => ?_, fun n hn => ?_, fun b hb => ?_⟩
  · rw [finishFetch_host, writeOne_scratch_host _ _ hb, host']
  · rw [sGet_fetched, if_pos rfl]
    rfl
  · rw [sGet_fetched, if_neg hn]
    rfl
  · rw [memWord_of_memByte fun _ _ => bytes _]
    cases n with
    | zero => exact memWord_setWord_same ..
    | succ n => exact (memWord_setWord_other _ _ _ _ (by omega)).trans (words n (by omega))
  · rw [bytes, memByte_setWord_outside _ _ _ _ (by omega)]
    exact rest b (by omega)

/-- R29 to R32: outside an interval of record mode a request is answered. -/
theorem answered {s : State} {g : Group} {w : WG} (l : Launch) (f : FetchReq) (granted : Option (Nat × Nat)) (hg : s.group g.id = some g)
    (hlog : logging s w.ctx = false) (hr : ∀ n, n < 8 → w.reserves (f.mailbox + 4 * n) = false) :
    ∃ t, answerFetch s g w l f granted = some t ∧
      HoldsAnswer s t g f (w.scratchBase + f.mailbox) (mailboxWord l (g.fetchSeq + 1) granted) := by
  obtain ⟨m, hm, he⟩ := answerWith_eq (g := g) (f := f) (foldl_mailList (s := s) hr (mailboxWord l (g.fetchSeq + 1) granted))
    (mailboxWord l (g.fetchSeq + 1) granted 0)
  exact ⟨_, (answerFetch_eq hlog).trans (congrArg some he), holdsAnswer_finish f hg (scratch_ge w f.mailbox) hm (sameGroups_mailWords _ _ _ 7)
    (mailWords_host _ _ _ (scratch_ge w f.mailbox) 7) (memWord_mailWords _ _ _ 7) (memByte_mailWords _ _ _ 7)⟩

/-- R29 to R32. -/
theorem fetchAnswered : Claim.FetchAnswered := by
  rintro s gid g w l c f granted share hg rfl hf hw hl hc hid place hr hi - hb hres answer
  have hlog : logging s w.ctx = false := by simp [logging, hc, hr, hi]
  rcases answer with ⟨u, k, take, rfl⟩ | ⟨take, hx, rfl, rfl⟩
  · obtain ⟨t, ha, host, g', hg', form, status, regs, words, bytes⟩ := answered
      (s := s.modLaunch l.id fun l => { l with shares := sins l.shares w.quad share }) l f (some (unitNumber l u, k)) hg hlog hres
    refine ⟨t, g', { l with shares := sins l.shares w.quad share }, exec_fetchwgAnswer_granted hg hf hw hl hc place hr hb take ha, hg', form,
      status, regs, words, bytes, ?_, ?_⟩
    · rw [State.launch, host, ← hid]
      exact launch_modLaunch_some (by rw [hid]; exact hl) _
    · rw [Launch.share, sget, sfind_sins_same]
      rfl
  · obtain ⟨t, ha, host, g', hg', form, status, regs, words, bytes⟩ := answered l f none hg hlog hres
    refine ⟨t, g', l, exec_fetchwgAnswer_exhausted hg hf hw hl hc place hr hb take hx ha, hg', form, status, regs, words, bytes, ?_, rfl⟩
    rw [State.launch, host]
    exact hl

/-- Settles O42: the placement group by group, the answer word by word of its mailbox, the steal by the shares that it moves. -/
theorem workgroupsDealtAndPlaced : Obligations.WorkgroupsDealtAndPlaced := ⟨workgroupPlaced, fetchAnswered, unitsStolen⟩

end Sys2Proof.Machine
end

section
/-!
SUPPORT. The round of a partition: the word that it issues (R33, R47, R172), and whom it lets issue (R33).
-/

namespace Sys2Proof.Machine

open Sys2Proof Sys2Proof.Laws

/-! ## The word of a path -/

/-- R172, R177, R457: a fetch that has come gives the path its instruction. -/
theorem prepare_fetched {s s1 : State} {h : Here} {f : FetchOut} (hf : fetchWord s h = (f, s1)) (here : ∀ c n a, f ≠ .away c n a) :
    prepare s h = some (issuedInstr h f, noteIssue s1 h) := by
  unfold prepare issuedInstr
  rw [hf]
  cases f with
  | away c n a => exact absurd rfl (here c n a)
  | failed => cases h.g.badImage <;> rfl
  | word w =>
    cases hb : h.g.badImage <;> cases hd : decode w <;> simp [instrOf, hd]

/-- R105: a word that accesses memory first after a migration waits. -/
theorem tryIssue_moved {s s1 : State} {h : Here} {f : FetchOut} (hf : fetchWord s h = (f, s1)) (here : ∀ c n a, f ≠ .away c n a)
    (hm : (h.w.moved && memoryWord (issuedInstr h f)) = true) : (tryIssue s h).r = .next (stall s) := by
  simp only [tryIssue, prepare_fetched hf here, hm, if_true]

/-- R33, R47, R172: a path whose word has come and may issue is the meaning of its instruction. -/
theorem tryIssue_issues {s s1 : State} {h : Here} {f : FetchOut} (hf : fetchWord s h = (f, s1)) (here : ∀ c n a, f ≠ .away c n a)
    (hm : (h.w.moved && memoryWord (issuedInstr h f)) = false)
    (may : mayIssue (noteErrors (noteIssue s1 h) h (issuedInstr h f)) = true) :
    (tryIssue s h).r = exec (issuedInstr h f) (noteErrors (noteIssue s1 h) h (issuedInstr h f)) := by
  simp only [tryIssue, prepare_fetched hf here, hm, may, if_true, Bool.false_eq_true, if_false]

theorem step_round {s : State} {core part : Nat} {rest : List Turn} (ha : s.ctl.agenda = .round core part :: rest) :
    step s = round (s.taken rest) core part := by
  simp only [step, ha, turn, State.taken]

theorem step_event {s : State} {i : Instr} {rest : List Turn} (ha : s.ctl.agenda = .event i :: rest) :
    step s = exec i { s with ctl := { s.ctl with agenda := rest, cur := none } } := by
  simp only [step, ha, turn]

/-- Settles O53: a round by what its choice issues, an event by the turn that names it. -/
theorem stepRunsTheDecodedInstruction : Obligations.StepRunsTheDecodedInstruction := by
  refine ⟨?_, ?_, ?_, fun s i rest ha => step_event ha⟩
  · intro s core part rest h cands f s1 ha hp hf here i s2 hm may
    rw [step_round ha, round, hp]
    simp only
    rw [tryIssue_issues hf here hm may]
    rfl
  · intro s h f s1 hf here moved mem
    exact tryIssue_moved hf here (by rw [moved, mem]; rfl)
  · intro s core part rest ha hp
    rw [step_round ha, round, hp]

/-! ## Sorting -/

section

variable {α : Type} (key : α → Nat)

theorem mem_insertBy (le : α → α → Bool) (x y : α) (l : List α) : y ∈ insertBy le x l ↔ y = x ∨ y ∈ l := by
  induction l with
  | nil => simp [insertBy]
  | cons z l ih => unfold insertBy; split <;> simp [ih, or_left_comm]

/-- The elements of a list stand in it by rising keys. -/
def Rising (l : List α) : Prop := l.Pairwise fun a b => key a ≤ key b

theorem insertBy_rising (x : α) (l : List α) (hl : Rising key l) : Rising key (insertBy (fun a b => decide (key a ≤ key b)) x l) := by
  induction l with
  | nil => exact List.pairwise_singleton _ _
  | cons y l ih =>
    obtain ⟨hy, hl⟩ := List.pairwise_cons.mp hl
    unfold insertBy
    split
    · rename_i hle
      refine List.pairwise_cons.mpr ⟨fun z hz => ?_, ih hl⟩
      rcases (mem_insertBy _ x z l).mp hz with rfl | hz
      · exact of_decide_eq_true hle
      · exact hy z hz
    · rename_i hle
      have hxy : key x ≤ key y := by
        have : ¬ key y ≤ key x := by simpa using hle
        omega
      refine List.pairwise_cons.mpr ⟨fun z hz => ?_, List.pairwise_cons.mpr ⟨hy, hl⟩⟩
      rcases List.mem_cons.mp hz with rfl | hz
      · exact hxy
      · exact Nat.le_trans hxy (hy z hz)

theorem sortBy_rising (l : List α) : Rising key (sortBy (fun a b => decide (key a ≤ key b)) l) := by
  have fold : ∀ (l acc : List α), Rising key acc →
      Rising key (l.foldl (fun acc x => insertBy (fun a b => decide (key a ≤ key b)) x acc) acc) := by
    intro l
    induction l with
    | nil => exact fun _ h => h
    | cons x l ih => exact fun acc h => ih _ (insertBy_rising key x acc h)
  exact fold l [] List.Pairwise.nil

theorem mem_sortBy (le : α → α → Bool) (y : α) (l : List α) : y ∈ sortBy le l ↔ y ∈ l := by
  have fold : ∀ (l acc : List α), y ∈ l.foldl (fun acc x => insertBy le x acc) acc ↔ y ∈ l ∨ y ∈ acc := by
    intro l
    induction l with
    | nil => simp
    | cons x l ih => intro acc; rw [List.foldl_cons, ih, mem_insertBy, List.mem_cons, or_left_comm, or_assoc]
  exact (fold l []).trans (or_iff_left List.not_mem_nil)

/-- The first of a list with rising keys has the least. -/
theorem Rising.head_le {l : List α} (hl : Rising key l) {x : α} (hx : l.head? = some x) : ∀ y ∈ l, key x ≤ key y := by
  cases l with
  | nil => cases hx
  | cons z l =>
    cases hx
    intro y hy
    rcases List.mem_cons.mp hy with rfl | hy
    · exact Nat.le_refl _
    · exact (List.pairwise_cons.mp hl).1 y hy

/-- The first of a list with rising keys that meets a condition has the least key of those that meet it. -/
theorem Rising.find_le {l : List α} (hl : Rising key l) {q : α → Bool} {x : α} (hx : l.find? q = some x) :
    ∀ y ∈ l, q y = true → key x ≤ key y := fun y hy hq =>
  Rising.head_le key (hl.filter q) (List.head?_filter.trans hx) y (List.mem_filter.mpr ⟨hy, hq⟩)

end

/-! ## The round (R33) -/

/-- The residents of a partition, oldest first, with their words. -/
theorem roundReady_rising (s : State) (core part : Nat) : Rising (·.1.age) (roundReady s core part) :=
  List.Pairwise.filter _ (List.pairwise_map.mpr (sortBy_rising Group.age _))

theorem mem_roundReady {s : State} {core part : Nat} {c : Group × List Ready} (hc : c ∈ roundReady s core part) :
    c.2 = groupReady s c.1 ∧ ∃ k, (k, c.1) ∈ s.exe.groups := by
  obtain ⟨g, hg, rfl⟩ := List.mem_map.mp (List.mem_filter.mp hc).1
  obtain ⟨kg, hk, rfl⟩ := List.mem_map.mp (List.mem_filter.mp ((mem_sortBy _ g _).mp hg)).1
  exact ⟨rfl, kg.1, hk⟩

/-- R33: the group that wins has lost seven rounds and is the oldest that has, or none has and it is the oldest. -/
theorem winner_oldest {cs : List (Group × List Ready)} {w : Group × List Ready} (hr : Rising (·.1.age) cs) (hw : winner cs = some w) :
    w ∈ cs ∧ ∀ c ∈ cs, (7 ≤ c.1.loss → 7 ≤ w.1.loss ∧ w.1.age ≤ c.1.age) ∧ (w.1.loss < 7 → w.1.age ≤ c.1.age) := by
  unfold winner at hw
  rcases Option.or_eq_some_iff.mp hw with hf | ⟨hn, hh⟩
  · have hl : 7 ≤ w.1.loss := by simpa using List.find?_some hf
    exact ⟨List.mem_of_find?_eq_some hf, fun c hc =>
      ⟨fun h7 => ⟨hl, hr.find_le _ hf c hc (by simpa using h7)⟩, fun h => absurd hl (by omega)⟩⟩
  · refine ⟨List.mem_of_head? hh, fun c hc => ⟨fun h7 => ?_, fun _ => hr.head_le _ hh c hc⟩⟩
    exact absurd h7 (by simpa using List.find?_eq_none.mp hn c hc)

/-- R33: of two paths that could issue, the one that did not issue last does. -/
theorem choose_spec {g : Group} {rs : List Ready} {x : Ready} (hx : choose g rs = some x) :
    x ∈ rs ∧ ∀ y ∈ rs, y.h.pid ≠ x.h.pid → x.h.pid ≠ g.lastPath := by
  unfold choose at hx
  rcases Option.or_eq_some_iff.mp hx with hf | ⟨hn, hh⟩
  · have := List.find?_some hf
    simp only [Bool.and_eq_true, decide_eq_true_eq] at this
    exact ⟨List.mem_of_find?_eq_some hf, fun _ _ _ => this.2⟩
  · have hm := List.mem_of_head? hh
    refine ⟨hm, fun y hy hne hlast => ?_⟩
    have two : 1 < rs.length := by
      rcases rs with _ | ⟨a, _ | ⟨b, l⟩⟩
      · cases hm
      · rw [List.mem_singleton] at hm hy
        exact absurd (by rw [hy, hm]) hne
      · simp
    have := List.find?_eq_none.mp hn y hy
    simp only [two, decide_true, Bool.true_and, decide_eq_true_eq] at this
    exact this (hlast ▸ hne)

theorem sfind_of_mem {α : Type} {m : SMap α} {k : Nat} {x : α} (hn : (skeys m).Nodup) (hx : (k, x) ∈ m) : sfind m k = some x := by
  induction m with
  | nil => cases hx
  | cons kx m ih =>
    obtain ⟨k', x'⟩ := kx
    obtain ⟨hk, hn⟩ := List.nodup_cons.mp hn
    rcases List.mem_cons.mp hx with h | h
    · cases h
      simp [sfind]
    · have hne : k ≠ k' := fun e => hk (List.mem_map.mpr ⟨_, h, e⟩)
      simp [sfind, hne, ih hn h]

theorem group_of_namedGroups {s : State} (hn : namedGroups s) {k : Nat} {g : Group} (hg : (k, g) ∈ s.exe.groups) : s.group g.id = some g := by
  rw [hn.1 _ hg]
  exact sfind_of_mem hn.2 hg

theorem hereOf_group {s : State} {gid pid : Nat} {h : Here} (hh : hereOf s gid pid = some h) : s.group gid = some h.g ∧ h.g.id = gid := by
  obtain ⟨hc, hg, -⟩ := here_eq _ h hh
  cases hc
  exact ⟨hg, rfl⟩

/-- R33: the words of a group under its own name are words of that group. -/
theorem groupReady_group {s : State} {g : Group} (hg : s.group g.id = some g) {x : Ready} (hx : x ∈ groupReady s g) : x.h.g = g := by
  unfold groupReady at hx
  split at hx
  · cases hx
  · obtain ⟨kp, -, hk⟩ := List.mem_filterMap.mp (List.mem_filter.mp hx).1
    obtain ⟨h, hh, rfl⟩ := Option.map_eq_some_iff.mp hk
    have : (tryIssue s h).h = h := by
      unfold tryIssue
      split
      · rfl
      · split <;> rfl
    rw [this]
    exact Option.some.inj ((hereOf_group hh).1.symm.trans hg)

/-- What a round picks: a word that its winner chose. -/
theorem pick_eq {s : State} {core part : Nat} {x : Ready} {cands : List Nat} (hp : pick s core part = some (x, cands)) :
    ∃ w, winner (roundReady s core part) = some w ∧ choose w.1 w.2 = some x ∧ cands = (roundReady s core part).map (·.1.id) := by
  obtain ⟨w, hw, hc⟩ := Option.bind_eq_some_iff.mp hp
  obtain ⟨r, hr, he⟩ := Option.map_eq_some_iff.mp hc
  cases he
  exact ⟨w, hw, hr, rfl⟩

/-! ## Loss counts (R33) -/

/-- R33: what a round does to the loss count of a candidate. -/
def Group.counted (won : Bool) (g : Group) : Group := { g with loss := if won then 0 else g.loss + 1 }

theorem group_countLosses (won : Nat → Bool) (cands : List Nat) (hn : cands.Nodup) (s : State) (n : Nat) (g : Group) (hg : s.group n = some g) :
    (cands.foldl (fun s gid => s.modGroup gid (·.counted (won gid))) s).group n = some (if n ∈ cands then g.counted (won n) else g) := by
  induction cands generalizing s g with
  | nil => exact hg
  | cons c cs ih =>
    obtain ⟨hc, hcs⟩ := List.nodup_cons.mp hn
    rw [List.foldl_cons]
    by_cases he : n = c
    · subst he
      rw [ih hcs _ (g.counted (won n)) (by rw [group_modGroup_same, hg]; rfl)]
      simp [hc]
    · rw [ih hcs _ g (by rw [group_modGroup_other _ _ _ _ he, hg])]
      simp [he]

theorem group_closeRound (before : State) (core part leaf : Nat) (won : Option Here) (cands : List Nat) (t : State) (n : Nat) :
    (closeRound before core part leaf won cands t).group n =
      (cands.foldl (fun s gid => s.modGroup gid (·.counted (won.any (·.g.id = gid)))) t).group n := rfl

/-- Settles O54: the winner by the order of the candidates, its path by its choice, the counts by the fold over the candidates. -/
theorem arbitrationRounds : Obligations.ArbitrationRounds := by
  intro s core part x cands named hp
  obtain ⟨w, hw, hx, rfl⟩ := pick_eq hp
  obtain ⟨mem, oldest⟩ := winner_oldest (roundReady_rising s core part) hw
  obtain ⟨hwords, k, hk⟩ := mem_roundReady mem
  obtain ⟨hxm, hlast⟩ := choose_spec hx
  have hxg : x.h.g = w.1 := groupReady_group (group_of_namedGroups named hk) (hwords ▸ hxm)
  refine ⟨⟨w.2, by rw [hxg]; exact mem, hxm, by rw [hxg]; exact hlast⟩, by rw [hxg]; exact oldest, fun n => List.mem_map, ?_⟩
  intro leaf before t n g hn hmem hg
  rw [group_closeRound, group_countLosses _ _ hn t n g hg, if_pos hmem]
  simp [Group.counted, eq_comm]

end Sys2Proof.Machine
end

section
/-!
SUPPORT. Words that combine the threads of a path (R244 to R247): what a lane word copies, and what VOTE, QSCAN and REDUCE make of their
contributors.
-/

namespace Sys2Proof.Machine

open Sys2Proof Sys2Proof.Laws

/-! ## Sources that are not empty -/

/-- R161: a source that does not read empty is full. -/
theorem srcFull_of_read {g : Group} {p : Path} {x : Src} {t : Nat} (hne : readSrc g p x t ≠ .empty) : srcFull g p x t = true := by
  by_contra hf
  exact hne (by simp only [srcFull] at hf; simp [readSrc, hf])

/-- A v-register that is copied into a v-register: the pipeline carries it, and it fits. -/
theorem copyOut_copied {h : Here} {a : BitVec 7} {ea : Bool} {t : Nat} {r : Token ⊕ Val} (hr : copied h (vSrc a ea) t = some r) :
    copyOut h (vSrc a ea) t = toOut r ∧ ∀ d v, r = .inr v → Fits (rDst false d) v := by
  unfold copied at hr
  unfold copyOut
  split at hr <;> cases hr
  · next hx => exact ⟨by rw [hx]; rfl, nofun⟩
  · next ws hx =>
    refine ⟨by rw [hx]; rfl, fun d v hv => ?_⟩
    cases hv
    exact fits_rDst false d 1 _ (readSrc_length _ _ _ _ _ hx (.inl rfl))

theorem read_of_copied {h : Here} {x : Src} {t : Nat} {r : Token ⊕ Val} (hr : copied h x t = some r) : readSrc h.g h.p x t ≠ .empty := by
  intro he
  simp [copied, he] at hr

/-! ## Lanes (R244, R245) -/

/-- R245: each word of the table looks into the lane that the table names. -/
theorem exec_laneTable {i : Instr} {s : State} {d a : BitVec 7} {ea : Bool} {idx : Option Src} {pick : Nat → Nat → Option Nat}
    (ht : laneTable i = some (d, ea, a, idx, pick)) : exec i s = shuffle i d ea a idx pick s := by
  unfold laneTable at ht
  split at ht <;> cases ht
  case h_3 =>
    rename_i n
    have : dnLane n.toNat = fun t _ => if t + n.toNat ≤ 127 then some (t + n.toNat) else none := by
      funext t k
      exact if_congr Nat.lt_succ_iff rfl rfl
    rw [← this]
    rfl
  all_goals rfl

section

variable {h : Here} {a : BitVec 7} {ea : Bool} {idx : Option Src} {pick : Nat → Nat → Option Nat} {t : Nat × Option Token} {r : Token ⊕ Val}

/-- R245: the result of a thread is the token of its index operand, or a copy from the thread that it looks at. -/
theorem laneLook_of_result (hr : laneResult h (vSrc a ea) idx pick (t.1, none) = some r) :
    (∃ k, laneLook h idx pick t.1 = .inl (.tok k) ∧ r = .inl k) ∨
      ∃ u, laneLook h idx pick t.1 = .inr u ∧ copied h (vSrc a ea) u = some r := by
  have look (k : Nat) : (match pick t.1 k with
      | some u => if h.p.mask.getLsbD u then copied h (vSrc a ea) u else copied h (vSrc a ea) t.1
      | none => copied h (vSrc a ea) t.1) = copied h (vSrc a ea) (laneFrom h pick t.1 k) := by
    unfold laneFrom
    cases pick t.1 k with
    | none => rfl
    | some u => exact (apply_ite (copied h (vSrc a ea)) ..).symm
  unfold laneResult at hr
  unfold laneLook
  cases idx with
  | none => exact .inr ⟨_, rfl, (look 0).symm.trans hr⟩
  | some x =>
    simp only at hr ⊢
    cases hx : readSrc h.g h.p x t.1 with
    | poison k =>
      rw [hx] at hr
      cases hr
      exact .inl ⟨k, rfl, rfl⟩
    | empty =>
      rw [hx] at hr
      cases hr
    | words ws =>
      rw [hx] at hr
      exact .inr ⟨_, rfl, (look _).symm.trans hr⟩

/-- R49, R245: what a lane word gives a thread. -/
theorem laneOut_of_result (hr : laneResult h (vSrc a ea) idx pick t = some r) :
    guardedOut t (laneOut h (vSrc a ea) idx pick) = toOut r ∧ ∀ d v, r = .inr v → Fits (rDst false d) v := by
  obtain ⟨t, _ | k⟩ := t
  · change laneOut h (vSrc a ea) idx pick t = _ ∧ _
    unfold laneOut
    obtain ⟨k, hl, rfl⟩ | ⟨u, hl, hc⟩ := laneLook_of_result (t := (t, none)) hr
    · rw [hl]
      exact ⟨rfl, nofun⟩
    · rw [hl]
      obtain ⟨ho, hf⟩ := copyOut_copied hc
      refine ⟨?_, hf⟩
      simp only [ho]
      obtain k | v := r
      · rfl
      · cases v <;> rfl
  · unfold laneResult at hr
    cases hr
    exact ⟨rfl, nofun⟩

/-- R161, R244: what a thread reads to get its result is full. -/
theorem full_of_result (hr : laneResult h (vSrc a ea) idx pick (t.1, none) = some r) :
    laneFull h (vSrc a ea) idx pick t.1 = true ∧ ∀ x ∈ idx, srcFull h.g h.p x t.1 = true := by
  refine ⟨?_, fun x hx => srcFull_of_read fun he => ?_⟩
  · unfold laneFull
    obtain ⟨k, hl, -⟩ | ⟨u, hl, hc⟩ := laneLook_of_result hr
    · rw [hl]
    · rw [hl]
      exact srcFull_of_read (read_of_copied hc)
  · cases hx
    unfold laneResult at hr
    simp only [he] at hr
    cases hr

end

/-- R161: where every executing thread has a result, no lane word waits. -/
theorem lanesReady_of_results {h : Here} {d a : BitVec 7} {ea : Bool} {idx : Option Src} {pick : Nat → Nat → Option Nat}
    {res : Nat → Token ⊕ Val} (hg : guardFull h.g h.p = true) (hd : ∀ t ∈ vecThreads h.g h.p, dstFull h.g h.p (rDst false d) t.1 = true)
    (hres : ∀ t ∈ vecThreads h.g h.p, laneResult h (vSrc a ea) idx pick t = some (res t.1)) :
    lanesReady h (rDst false d) (vSrc a ea) idx pick = true := by
  have run : ∀ t ∈ ((vecThreads h.g h.p).filter (·.2.isNone)).map (·.1), laneResult h (vSrc a ea) idx pick (t, none) = some (res t) := by
    intro t ht
    obtain ⟨⟨t, _ | k⟩, hm, rfl⟩ := List.mem_map.mp ht
    · exact hres _ (List.mem_filter.mp hm).1
    · cases (List.mem_filter.mp hm).2
  simp only [lanesReady, Bool.and_eq_true, Bool.or_eq_true, List.all_eq_true, Option.all_eq_true, srcReady]
  exact ⟨⟨⟨hg, hd⟩, fun x hx => .inr fun t ht => (full_of_result (t := (t, none)) (run t ht)).2 x hx⟩,
    .inr fun t ht => (full_of_result (t := (t, none)) (run t ht)).1⟩

/-- R244, R245. -/
theorem laneResults : Claim.LaneResults := by
  intro i s h d a ea idx pick res hh ht hc hg hd hres
  have out : ∀ t ∈ vecThreads h.g h.p, _ := fun t ht => laneOut_of_result (hres t ht)
  refine outs_row i s h hh (rDst false d) (vecThreads h.g h.p) (fun t => guardedOut t (laneOut h (vSrc a ea) idx pick)) res ?_
    (vecThreads_nodup ..) (vecThreads_lt _ _) nofun (fun t ht => (out t ht).1) (fun t ht v hv => (out t ht).2 d v hv)
  refine (exec_laneTable ht).trans ((issuing_eq s h _ hh).trans ?_)
  simp only [hc, lanesReady_of_results hg hd hres, if_true]
  rw [settle_toOut s h _ (·.1) _ fun t ht => ⟨_, (out t ht).1⟩]

/-! ## Contributors (R244) -/

theorem contributions_eq (h : Here) (x : Src) :
    contributions h x (vecThreads h.g h.p) = (contributors h).map fun t => (t, readSrc h.g h.p x t) := by
  simp [contributions, contributors]

/-- R49: where no contributor reads empty, no record is made. -/
theorem tokenise_contributions {s : State} {h : Here} {x : Src} (hne : ∀ t ∈ contributors h, readSrc h.g h.p x t ≠ .empty) :
    tokenise s h x (contributions h x (vecThreads h.g h.p)) = ((contributors h).map fun t => (t, readSrc h.g h.p x t), s) := by
  rw [contributions_eq, tokenise]
  simp only
  rw [if_pos]
  rw [List.isEmpty_iff, List.filterMap_eq_nil_iff]
  intro c hc
  obtain ⟨t, ht, rfl⟩ := List.mem_map.mp hc
  exact if_neg (hne t ht)

theorem firstPoison_map (h : Here) (x : Src) (ts : List Nat) :
    firstPoison (ts.map fun t => (t, readSrc h.g h.p x t)) = lowestPoison h x ts := by
  rw [firstPoison, List.findSome?_map]
  rfl

/-- R244: contributors stand in ascending order. -/
theorem contributors_rising (h : Here) : (contributors h).Pairwise (· < ·) := by
  have all : (threadsOf h.p.mask).Pairwise (· < ·) := by
    unfold threadsOf
    split
    · exact .nil
    · exact List.pairwise_lt_range.filter _
  have part : ((vecThreads h.g h.p).map (·.1)).Pairwise (· < ·) := (all.filter _).sublist (vecThreads_fst h.g h.p)
  exact part.sublist (List.filter_sublist.map _)

theorem mem_contributors {h : Here} {t : Nat} (ht : (t, none) ∈ vecThreads h.g h.p) : t ∈ contributors h :=
  List.mem_map.mpr ⟨_, List.mem_filter.mpr ⟨ht, rfl⟩, rfl⟩

/-! ## VOTE (R246) -/

/-- R246: a predicate counts as true where its word is not zero. -/
theorem cleanWord_truth (h : Here) (p : BitVec 3) (e : Bool) (t : Nat) :
    decide (cleanWord (readSrc h.g h.p (pSrc p e) t) ≠ 0) = truth h (pSrc p e) t := by
  unfold truth
  cases hf : (pGet h.g p.toNat t).full with
  | false => simp [readSrc, regsOf, pSrc, hf, cleanWord]
  | true =>
    rw [readSrc_pSrc hf]
    cases (pGet h.g p.toNat t).poi <;> cases (pGet h.g p.toNat t).val <;> simp [cleanWord, bitW]

/-- R246, R49: the vote of the contributors. -/
theorem voteOut_eq (h : Here) (p : BitVec 3) (e : Bool) (k : BitVec 2) (t : Nat) :
    voteOut k ((contributors h).map fun t => (t, readSrc h.g h.p (pSrc p e) t)) t = toOut (voteValue h (pSrc p e) k t) := by
  unfold voteOut voteValue
  have cell (u : Nat) (w : Word) : (if cleanWord (readSrc h.g h.p (pSrc p e) u) ≠ 0 then w ||| (1#32 <<< (u % 32)) else w) =
      if truth h (pSrc p e) u then w ||| (1#32 <<< (u % 32)) else w := by
    rw [← cleanWord_truth]
    simp
  by_cases hk : k = 2
  · simp only [if_pos hk, List.filter_map, Function.comp_def, firstPoison_map, List.foldl_map, cell]
    cases lowestPoison h (pSrc p e) ((contributors h).filter fun u => u / 32 = t % 4) <;> rfl
  · simp only [if_neg hk, firstPoison_map, List.all_map, List.any_map, Function.comp_def, cleanWord_truth]
    cases lowestPoison h (pSrc p e) (contributors h) <;> rfl

/-- R246: the destination of VOTE takes its value. -/
theorem fits_vote {h : Here} {p : BitVec 3} {e : Bool} {k : BitVec 2} {d : BitVec 7} {t : Nat × Option Token} {v : Val}
    (hv : guarded t (voteValue h (pSrc p e) k t.1) = .inr v) :
    Fits (if k = 2 then rDst false d else ⟨.p, d.toNat % 8, 1⟩) v := by
  obtain ⟨t, _ | tok⟩ := t
  · unfold guarded voteValue at hv
    simp only at hv
    split at hv
    · next hk =>
      split at hv <;> cases hv
      rw [if_pos hk]
      exact fits_rDst false d 1 _ rfl
    · next hk =>
      split at hv <;> cases hv
      rw [if_neg hk]
      rfl
  · cases hv

theorem noFresh_toOut {β : Type} (l : List β) (k : β → Nat) (value : β → Token ⊕ Val) : noFresh (l.map fun t => (k t, toOut (value t))) := by
  intro o ho f
  obtain ⟨t, -, rfl⟩ := List.mem_map.mp ho
  obtain tok | v := value t
  · nofun
  · cases v <;> nofun

/-- Results of the executing threads, written into a group that then goes on. -/
theorem wrote_vec {h : Here} {d : Dst} {res : Nat → Token ⊕ Val} (hd : d.file ≠ .s)
    (hfit : ∀ t ∈ vecThreads h.g h.p, ∀ v, res t.1 = .inr v → Fits d v) (pc : DWord) :
    Wrote h ((((vecThreads h.g h.p).map fun t => (t.1, toOut (res t.1))).foldl (fun g o => writeOut h.p d g o.1 o.2) h.g).goneOn h.pid pc) d
      ((vecThreads h.g h.p).map (·.1)) res := by
  have each (q : Nat × ThreadOut → Prop) (hq : ∀ t ∈ vecThreads h.g h.p, q (t.1, toOut (res t.1))) :
      ∀ o ∈ (vecThreads h.g h.p).map fun t => (t.1, toOut (res t.1)), q o := by
    intro o ho
    obtain ⟨t, ht, rfl⟩ := List.mem_map.mp ho
    exact hq t ht
  have := wrote_of h d _ res (by rw [List.map_map]; exact vecThreads_nodup ..) (each (·.1 < 128) (vecThreads_lt _ _)) (fun hs => absurd hs hd)
    (each (fun o => o.2 = toOut (res o.1)) fun _ _ => rfl) (each (fun o => ∀ v, res o.1 = .inr v → Fits d v) hfit)
    ((((vecThreads h.g h.p).map fun t => (t.1, toOut (res t.1))).foldl (fun g o => writeOut h.p d g o.1 o.2) h.g).goneOn h.pid pc)
    ⟨rfl, rfl, rfl, rfl⟩
  rw [List.map_map] at this
  exact this

/-- A row of results that does not depend on what threads outside it get. -/
theorem outs_row_all (i : Instr) (s : State) (h : Here) (hh : s.here = some h) (d : Dst) (value : Nat × Option Token → Token ⊕ Val)
    (he : exec i s = .next (retire (writeAll s h d ((vecThreads h.g h.p).map fun t => (t.1, toOut (value t)))) h)) (hd : d.file ≠ .s)
    (hfit : ∀ t v, value t = .inr v → Fits d v) : ∃ g', RegisterStep i s h g' ∧
      ∀ res : Nat → Token ⊕ Val, (∀ t ∈ vecThreads h.g h.p, res t.1 = value t) → Wrote h g' d ((vecThreads h.g h.p).map (·.1)) res := by
  rw [retire_writeAll s h hh] at he
  refine ⟨_, outs_step i s h hh d _ he, fun res hres => ?_⟩
  have outs : ((vecThreads h.g h.p).map fun t => (t.1, toOut (value t))) = (vecThreads h.g h.p).map fun t => (t.1, toOut (res t.1)) :=
    List.map_congr_left fun t ht => by rw [hres t ht]
  rw [outs]
  exact wrote_vec hd (fun t ht v hv => hfit t v (by rw [← hres t ht, hv])) _

/-- R246, R49. -/
theorem voteResult : Claim.VoteResult := by
  intro s h d e p k dst hh hdst hc hr hne
  subst hdst
  refine outs_row_all _ s h hh _ (fun t => guarded t (voteValue h (pSrc p e) k t.1)) ?_ (by split <;> nofun) fun t v => fits_vote
  refine (issuing_eq s h _ hh).trans ?_
  simp only [hc, hr, if_true]
  rw [tokenise_contributions hne]
  refine congrArg (fun outs => Host.Outcome.next (retire (writeAll s h _ outs) h)) (List.map_congr_left fun t _ => ?_)
  obtain ⟨t, _ | tok⟩ := t
  · exact congrArg (Prod.mk t) (voteOut_eq h p e k t)
  · rfl

/-! ## QSCAN and REDUCE (R247) -/

/-- R247: one more thread is combined. -/
def combineNext (h : Here) (x : Src) (op : Nat) (acc : Option (Token ⊕ Word)) (t : Nat) : Option (Token ⊕ Word) :=
  match acc, readSrc h.g h.p x t with
  | some (.inl k), _ => some (.inl k)
  | _, .poison k => some (.inl k)
  | none, .words ws => some (.inr (ws.getD 0 0))
  | some (.inr w), .words ws => some (.inr (combine op h.p.mode w (ws.getD 0 0)))
  | acc, .empty => acc

theorem combined_eq (h : Here) (x : Src) (op : Nat) (ts : List Nat) : combined h x op ts = ts.foldl (combineNext h x op) none := rfl

/-- R247: a combination as a running value of the scan. -/
def running : Option (Token ⊕ Word) → Option SrcVal
  | none => none
  | some (.inl k) => some (.poison k)
  | some (.inr w) => some (.words [w])

/-- R247: a running value as a result is the combination, `e` before the first thread. -/
theorem runOut_running (e : Word) (o : Option (Token ⊕ Word)) : runOut ((running o).getD (.words [e])) = toOut (combinedOr e o) := by
  obtain _ | _ | w := o <;> rfl

section

variable {h : Here} {a : BitVec 7} {ea : Bool} (op : Nat)

/-- R247: the scan takes a contributor as the combination does. -/
theorem scanRun_cons (e : Word) (acc : Option (Token ⊕ Word)) {t : Nat} (ht : readSrc h.g h.p (vSrc a ea) t ≠ .empty)
    (cs : List (Nat × SrcVal)) : scanRun op h.p.mode (running acc) ((t, readSrc h.g h.p (vSrc a ea) t) :: cs) =
      (t, running acc, (running (combineNext h (vSrc a ea) op acc t)).getD (.words [e])) ::
        scanRun op h.p.mode (running (combineNext h (vSrc a ea) op acc t)) cs := by
  unfold combineNext
  cases hx : readSrc h.g h.p (vSrc a ea) t with
  | empty => exact absurd hx ht
  | poison k => obtain _ | k' | w := acc <;> rfl
  | words ws =>
    obtain ⟨w, rfl⟩ := List.length_eq_one_iff.mp (readSrc_length _ _ _ _ _ hx (.inl rfl))
    obtain _ | k' | w' := acc <;> rfl

/-- R247: the running values before and after a contributor. -/
theorem find_scanRun (e : Word) {ts : List Nat} (hts : ts.Pairwise (· < ·)) (hne : ∀ t ∈ ts, readSrc h.g h.p (vSrc a ea) t ≠ .empty)
    {t : Nat} (ht : t ∈ ts) (acc : Option (Token ⊕ Word)) :
    (scanRun op h.p.mode (running acc) (ts.map fun t => (t, readSrc h.g h.p (vSrc a ea) t))).find? (·.1 = t) =
      some (t, running ((ts.filter (· < t)).foldl (combineNext h (vSrc a ea) op) acc),
        (running ((ts.filter (· ≤ t)).foldl (combineNext h (vSrc a ea) op) acc)).getD (.words [e])) := by
  induction ts generalizing acc with
  | nil => cases ht
  | cons u ts ih =>
    obtain ⟨hu, hts⟩ := List.pairwise_cons.mp hts
    rw [List.map_cons, scanRun_cons op e acc (hne u (List.mem_cons_self ..))]
    by_cases hut : u = t
    · subst hut
      have lt : ts.filter (· < u) = [] := List.filter_eq_nil_iff.mpr fun v hv => by simpa using (hu v hv).le
      have le : ts.filter (· ≤ u) = [] := List.filter_eq_nil_iff.mpr fun v hv => by simpa using hu v hv
      simp [lt, le]
    · have mem : t ∈ ts := (List.mem_cons.mp ht).resolve_left (Ne.symm hut)
      have lt : u < t := hu t mem
      rw [List.find?_cons_of_neg (by simpa using hut), ih hts (fun v hv => hne v (List.mem_cons_of_mem _ hv)) mem]
      simp [lt, lt.le]

/-- R247: the last running value is the combination of all. -/
theorem getLast_scanRun (e : Word) {ts : List Nat} (hne : ∀ t ∈ ts, readSrc h.g h.p (vSrc a ea) t ≠ .empty) (hts : ts ≠ [])
    (acc : Option (Token ⊕ Word)) :
    ((scanRun op h.p.mode (running acc) (ts.map fun t => (t, readSrc h.g h.p (vSrc a ea) t))).getLast?).map (·.2.2) =
      some ((running (ts.foldl (combineNext h (vSrc a ea) op) acc)).getD (.words [e])) := by
  induction ts generalizing acc with
  | nil => exact absurd rfl hts
  | cons u ts ih =>
    rw [List.map_cons, scanRun_cons op e acc (hne u (List.mem_cons_self ..)), List.getLast?_cons]
    cases ts with
    | nil => rfl
    | cons v ts =>
      have last := ih (fun w hw => hne w (List.mem_cons_of_mem _ hw)) (List.cons_ne_nil _ _) (combineNext h (vSrc a ea) op acc u)
      obtain ⟨y, hy, hval⟩ := Option.map_eq_some_iff.mp last
      rw [hy]
      exact congrArg some hval

/-- R247: what QSCAN or REDUCE gives a contributor. -/
theorem scanOut_eq (hne : ∀ t ∈ contributors h, readSrc h.g h.p (vSrc a ea) t ≠ .empty) {t : Nat} (ht : t ∈ contributors h) (scan excl : Bool) :
    scanOut scan excl (identity op (mType h.p.mode))
        (scanRun op h.p.mode none ((contributors h).map fun t => (t, readSrc h.g h.p (vSrc a ea) t))) t =
      toOut (if scan then scanValue h (vSrc a ea) op excl t else reduceValue h (vSrc a ea) op) := by
  unfold scanOut
  cases scan with
  | true =>
    have found := find_scanRun op (identity op (mType h.p.mode)) (contributors_rising h) hne ht none
    simp only [running] at found
    simp only [if_true, found]
    cases excl
    · exact runOut_running ..
    · exact runOut_running ..
  | false =>
    obtain ⟨y, hy, hval⟩ := Option.map_eq_some_iff.mp (getLast_scanRun op 0 hne (List.ne_nil_of_mem ht) none)
    simp only [running] at hy
    simp only [Bool.false_eq_true, if_false, hy, hval]
    exact runOut_running ..

end

theorem fits_combinedOr (d : BitVec 7) (e : Word) (o : Option (Token ⊕ Word)) (v : Val) (hv : combinedOr e o = .inr v) : Fits (rDst false d) v := by
  obtain _ | _ | w := o <;> cases hv <;> exact fits_rDst false d 1 _ rfl

/-- R247: QSCAN and REDUCE by the operation that their immediate names. -/
theorem exec_scan (s : State) (d a : BitVec 7) (e : Bool) (k : BitVec 4) (scan : Bool) :
    exec (if scan then .qscan d e a k else .reduce d e a k) s =
      scanOp (if scan then .qscan d e a k else .reduce d e a k) d e a (k.toNat % 8) scan (scan && k.getLsbD 3) s := by
  have op : (k.extractLsb' 0 3).toNat = k.toNat % 8 := by simp
  rw [← op]
  cases scan <;> rfl

/-- R247, R49. -/
theorem scanAndReduceResults : Claim.ScanAndReduceResults := by
  intro s h d a e k scan hh hc hr hne hs
  refine outs_row_all _ s h hh (rDst false d) (fun t => guarded t
    (if scan then scanValue h (vSrc a e) (k.toNat % 8) (k.getLsbD 3) t.1 else reduceValue h (vSrc a e) (k.toNat % 8))) ?_ nofun ?_
  · refine (exec_scan ..).trans ((issuing_eq s h _ hh).trans ?_)
    simp only [hc, hr, if_true]
    rw [tokenise_contributions hne]
    have outs : ((vecThreads h.g h.p).map fun t => (t.1, guardedOut t fun t => shadowed s (k.toNat % 8 < 3 && !isInt (mType h.p.mode)) t
        (scanOut scan (scan && k.getLsbD 3) (identity (k.toNat % 8) (mType h.p.mode))
          (scanRun (k.toNat % 8) h.p.mode none ((contributors h).map fun t => (t, readSrc h.g h.p (vSrc a e) t))) t))) =
        (vecThreads h.g h.p).map fun t => (t.1, toOut (guarded t
          (if scan then scanValue h (vSrc a e) (k.toNat % 8) (k.getLsbD 3) t.1 else reduceValue h (vSrc a e) (k.toNat % 8)))) := by
      refine List.map_congr_left fun t ht => congrArg (Prod.mk t.1) ?_
      obtain ⟨t, _ | tok⟩ := t
      · refine (shadowed_none _ _ _ _ fun _ => by simp [hs]).trans ((scanOut_eq _ hne (mem_contributors ht) _ _).trans ?_)
        cases scan <;> rfl
      · rfl
    simp only [outs]
    rw [settle_noFresh s h _ (noFresh_toOut _ _ _), countShadow_noFresh s h _ _ (noFresh_toOut _ _ _)]
  · rintro ⟨t, _ | tok⟩ v hv
    · cases scan
      · exact fits_combinedOr d _ _ v hv
      · exact fits_combinedOr d _ _ v hv
    · cases hv

/-- Settles O4: the lane words by the thread that each looks at, VOTE and the scans by the list of their contributors. -/
theorem crossThreadResults : Obligations.CrossThreadResults := ⟨laneResults, voteResult, scanAndReduceResults⟩

end Sys2Proof.Machine
end

section
/-!
SUPPORT. Words that read poison as data (R198 to R201): PCAUSE, PORIG and PCLR, the record of the last commit, and PCHK.
-/

namespace Sys2Proof.Machine

open Sys2Proof Sys2Proof.Laws

/-! ## PCAUSE, PORIG, PCLR (R199 to R201) -/

/-- R200: the overflow record is read in four words, the same by their halves. -/
theorem porigWord_eq (s : State) (h : Here) (n : Nat) (k : Token) : porigWord n s h (some k) 0 = originWord s h n k := by
  have hi (x : DWord) : x.halves.2 = (x >>> 32).setWidth 32 := by
    apply BitVec.eq_of_getLsbD_eq
    intro i hi
    simp [DWord.halves, hi]
  have lo (x : DWord) : x.halves.1 = x.setWidth 32 := by
    apply BitVec.eq_of_getLsbD_eq
    intro i hi
    simp [DWord.halves, hi]
  unfold porigWord originWord
  simp only [hi, lo]
  cases recordAt s h.w.coreNo k <;> rfl

/-- R199 to R201: each word of the table inspects its source, with a word that agrees with the table for tokens and for clean words. -/
theorem exec_inspectTable {i : Instr} {s : State} {h : Here} {unif : Bool} {d a : BitVec 7} {ea : Bool} {f : Token ⊕ Word → Word}
    (ht : inspectTable s h i = some (unif, d, ea, a, f)) : ∃ word : State → Here → Option Token → Word → Word,
      exec i s = inspect i unif d ea a word s ∧ (∀ k, word s h (some k) 0 = f (.inl k)) ∧ ∀ w, word s h none w = f (.inr w) := by
  unfold inspectTable at ht
  split at ht
  case h_5 | h_6 =>
    split at ht <;> cases ht
    next hn => exact ⟨_, if_neg hn, porigWord_eq s h _, fun _ => rfl⟩
  all_goals cases ht
  all_goals exact ⟨_, rfl, fun _ => rfl, fun _ => rfl⟩

/-- R48, R49: what an inspecting word finds in a thread before it judges it. -/
def inspectRead (h : Here) (x : Src) (t : Nat × Option Token) : ThreadOut :=
  match t.2 with
  | some k => .tok k
  | none =>
    match readSrc h.g h.p x t.1 with
    | .words ws => .words ws
    | .poison k => .tok k
    | .empty => .fresh (emptyRead h.g h.p x t.1)

/-- R48, R49: what an inspecting word makes of what it found in a thread: where the thread executes, the word for it. -/
def inspectJudge (ths : List (Nat × Option Token)) (f : Option Token → Word → Word) (o : Nat × ThreadOut) : Nat × ThreadOut :=
  if ths.contains (o.1, none) then
    match o.2 with
    | .words ws => (o.1, .words [f none (ws.headD 0)])
    | .tok k => (o.1, .words [f (some k) 0])
    | x => (o.1, x)
  else o

section

variable {s : State} {h : Here} {x : Src} {f : Token ⊕ Word → Word} {t : Nat × Option Token} {r : Token ⊕ Val}
  {word : State → Here → Option Token → Word → Word} (hr : inspected h x f t = some r)
include hr

theorem inspectRead_notFresh (y : Fresh) : inspectRead h x t ≠ .fresh y := by
  unfold inspected at hr
  unfold inspectRead
  split
  · nofun
  · next hn =>
    rw [hn] at hr
    split
    · nofun
    · nofun
    · next he => simp [he] at hr

/-- R49: a poisoned guard gives its token. -/
theorem inspectRead_guarded {k : Token} (hg : t.2 = some k) : inspectRead h x t = toOut r := by
  unfold inspected at hr
  unfold inspectRead
  rw [hg] at hr ⊢
  cases hr
  rfl

/-- R48: an executing thread gets the word for what its source holds. -/
theorem inspectJudge_read (hk : ∀ k, word s h (some k) 0 = f (.inl k)) (hw : ∀ w, word s h none w = f (.inr w)) (hg : t.2 = none)
    {ths : List (Nat × Option Token)} (ht : (t.1, none) ∈ ths) :
    inspectJudge ths (word s h) (t.1, inspectRead h x t) = (t.1, toOut r) := by
  unfold inspected at hr
  unfold inspectRead inspectJudge
  rw [if_pos (List.contains_iff_mem.mpr ht)]
  rw [hg] at hr ⊢
  simp only at hr ⊢
  cases hx : readSrc h.g h.p x t.1 with
  | poison k =>
    rw [hx] at hr
    cases hr
    exact congrArg (fun w => (t.1, ThreadOut.words [w])) (hk k)
  | words ws =>
    rw [hx] at hr
    cases hr
    have head : ws.headD 0 = ws.getD 0 0 := by cases ws <;> rfl
    exact congrArg (fun w => (t.1, ThreadOut.words [w])) ((congrArg (word s h none) head).trans (hw _))
  | empty =>
    rw [hx] at hr
    cases hr

theorem fits_inspected (unif : Bool) (d : BitVec 7) (v : Val) (hv : r = .inr v) : Fits (rDst unif d) v := by
  subst hv
  unfold inspected at hr
  split at hr
  · cases hr
  · split at hr <;> cases hr
    · exact fits_rDst unif d 1 _ rfl
    · exact fits_rDst unif d 1 _ rfl

end

/-- R199 to R201: a word that inspects a source that is not empty writes its results and retires. -/
theorem inspect_writes {i : Instr} {s : State} {h : Here} {unif : Bool} {d a : BitVec 7} {ea : Bool} {f : Token ⊕ Word → Word}
    {res : Nat → Token ⊕ Val} {word : State → Here → Option Token → Word → Word} (hh : s.here = some h)
    (hk : ∀ k, word s h (some k) 0 = f (.inl k)) (hw : ∀ w, word s h none w = f (.inr w))
    (hc : operandCheck h [rSrc unif a ea] (some (rDst unif d)) true = none)
    (hr : operandsReady h (execThreads unif h.g h.p) [rSrc unif a ea] (some (rDst unif d)) = true)
    (hres : ∀ t ∈ execThreads unif h.g h.p, inspected h (rSrc unif a ea) f t = some (res t.1)) :
    inspect i unif d ea a word s =
      .next (retire (writeAll s h (rDst unif d) ((execThreads unif h.g h.p).map fun t => (t.1, toOut (res t.1)))) h) := by
  have reads : settle s h ((execThreads unif h.g h.p).map fun t => (t.1, inspectRead h (rSrc unif a ea) t)) =
      ((execThreads unif h.g h.p).map fun t => (t.1, inspectRead h (rSrc unif a ea) t), s) := by
    refine settle_noFresh s h _ fun o ho y => ?_
    obtain ⟨t, ht, rfl⟩ := List.mem_map.mp ho
    exact inspectRead_notFresh (hres t ht) y
  have judged : ∀ t ∈ execThreads unif h.g h.p, inspectJudge (execThreads unif h.g h.p) (word s h)
      (t.1, inspectRead h (rSrc unif a ea) t) = (t.1, toOut (res t.1)) := by
    intro t ht
    obtain ⟨n, _ | k⟩ := t
    · exact inspectJudge_read (hres _ ht) hk hw rfl ht
    · have alone : (n, none) ∉ execThreads unif h.g h.p := fun hn =>
        nomatch List.inj_on_of_nodup_map (execThreads_nodup unif h.g h.p) ht hn rfl
      rw [inspectJudge, if_neg (by simpa using alone), inspectRead_guarded (hres _ ht) rfl]
  refine (issuing_eq s h _ hh).trans ?_
  simp only [hc, hr, Bool.not_true, Bool.false_eq_true, if_false]
  change Host.Outcome.next (retire (writeAll (settle s h ((execThreads unif h.g h.p).map fun t => (t.1, inspectRead h (rSrc unif a ea) t))).2 h
    (rDst unif d) ((settle s h ((execThreads unif h.g h.p).map fun t => (t.1, inspectRead h (rSrc unif a ea) t))).1.map
      (inspectJudge (execThreads unif h.g h.p)
        (word (settle s h ((execThreads unif h.g h.p).map fun t => (t.1, inspectRead h (rSrc unif a ea) t))).2 h)))) h) = _
  rw [reads, List.map_map]
  exact congrArg (fun outs => Host.Outcome.next (retire (writeAll s h (rDst unif d) outs) h)) (List.map_congr_left judged)

/-- R199 to R201. -/
theorem poisonReadAsData : Claim.PoisonReadAsData := by
  intro i s h unif d ea a f res hh ht hc hr hres
  obtain ⟨word, he, hk, hw⟩ := exec_inspectTable ht
  exact outs_row i s h hh (rDst unif d) (execThreads unif h.g h.p) (fun t => toOut (res t.1)) res
    (he.trans (inspect_writes hh hk hw hc hr hres)) (execThreads_nodup ..) (execThreads_lt _ _ _) (execThreads_rDst unif d _ _) (fun _ _ => rfl)
    fun t ht v => fits_inspected (hres t ht) unif d v

/-- R61, R200. -/
theorem spanRecordRead : Claim.SpanRecordRead := by
  intro s h d a ea unif n res hh hn hc hr hres
  have he : exec (if unif then .porigU d ea a n else .porig d ea a n) s = _ :=
    (show exec (if unif then .porigU d ea a n else .porig d ea a n) s =
      porigSpan (if unif then .porigU d ea a n else .porig d ea a n) unif d (n.toNat % 8) s by cases unif <;> exact if_pos hn).trans
    ((issuing_eq s h _ hh).trans (alu_readOp s h unif d (fun _ => h.g.span.record.getD (n.toNat % 8) 0) hc hr _))
  exact outs_row _ s h hh (rDst unif d) (execThreads unif h.g h.p) _ res he (execThreads_nodup ..) (execThreads_lt _ _ _)
    (execThreads_rDst unif d _ _) (fun t ht => by rw [hres t ht]; rfl)
    fun t ht v hv => fits_readOut unif d (fun _ => h.g.span.record.getD (n.toNat % 8) 0) t v (by rw [← hv, hres t ht]; rfl)

/-! ## PCHK (R198) -/

/-- R299: joining the operations of a tile touches the views of memory alone. -/
theorem joinTile_eq (s : State) (ags : List Nat) (x : Tile) : ∃ m, joinTile s ags x = s.withMem m ∧ m.bytes = s.mem.bytes := by
  unfold joinTile
  generalize x.last = l
  induction l generalizing s with
  | nil => exact ⟨s.mem, rfl, rfl⟩
  | cons n l ih =>
    obtain ⟨m, hm, hb⟩ := ih (joinOp s ags n)
    exact ⟨m, hm, hb.trans (foldl_bytes (fun m a => raiseFloors m a (floorsOf m (agentOf n 0))) (fun _ _ => raiseFloors_bytes ..) ags s.mem)⟩

/-- R198: what PCHK finds: whether the source of a thread is poisoned, or whether the tile has a poisoned element. -/
def checked (h : Here) (k : BitVec 2) (ea : Bool) (a : BitVec 7) (t : Nat) : Bool :=
  match pchkSrc k ea a with
  | [] => !(sget ({} : Tile) h.w.tiles (a.toNat % 8)).poi.isEmpty
  | x :: _ => match readSrc h.g h.p x t with
    | .poison _ => true
    | _ => false

/-- R198: what PCHK finds in a thread, which is new poison where the source is empty. -/
def pchkLook (h : Here) (k : BitVec 2) (ea : Bool) (a : BitVec 7) (t : Nat) : ThreadOut :=
  match pchkSrc k ea a with
  | [] => .bool (!(sget ({} : Tile) h.w.tiles (a.toNat % 8)).poi.isEmpty)
  | x :: _ => match readSrc h.g h.p x t with
    | .words _ => .bool false
    | .poison _ => .bool true
    | .empty => .fresh (emptyRead h.g h.p x t)

theorem pchkLook_eq {h : Here} {k : BitVec 2} {ea : Bool} {a : BitVec 7} {t : Nat}
    (hne : ∀ x ∈ pchkSrc k ea a, readSrc h.g h.p x t ≠ .empty) : pchkLook h k ea a t = .bool (checked h k ea a t) := by
  unfold pchkLook checked
  split
  · rfl
  · next x l hx =>
    cases hread : readSrc h.g h.p x t with
    | empty => exact absurd hread (hne x (by simp [hx]))
    | poison tok => rfl
    | words ws => rfl

/-- R49, R198: what PCHK gives a thread: the token of its guard, or what was found in it. -/
def pchkOut (made : List (Nat × ThreadOut)) (t : Nat × Option Token) : Nat × ThreadOut :=
  (t.1, match t.2 with
    | some k => .tok k
    | none => match made.find? (·.1 = t.1) with
      | some (_, .bool b) => .bool b
      | _ => .bool true)

theorem pchkOut_eq {l : List Nat} {t : Nat} (f : Nat → Bool) (ht : t ∈ l) :
    pchkOut (l.map fun t => (t, toOut (.inr (.bool (f t))))) (t, none) = (t, .bool (f t)) := by
  have found : (l.map fun t => (t, toOut (.inr (.bool (f t))))).find? (·.1 = t) = some (t, .bool (f t)) := by
    induction l with
    | nil => cases ht
    | cons u l ih =>
      by_cases hu : u = t
      · subst hu
        simp [toOut]
      · rw [List.map_cons, List.find?_cons_of_neg (by simpa using hu), ih ((List.mem_cons.mp ht).resolve_left (Ne.symm hu))]
  unfold pchkOut
  simp only [found]

/-- R198: the file selector names one register source, or a tile. -/
theorem pchkSrc_cases (k : BitVec 2) (ea : Bool) (a : BitVec 7) : (k ≠ 3 ∧ ∃ x, pchkSrc k ea a = [x]) ∨ (k = 3 ∧ pchkSrc k ea a = []) := by
  obtain rfl | rfl | rfl | rfl : k = 0 ∨ k = 1 ∨ k = 2 ∨ k = 3 := by revert k; decide
  · exact .inl ⟨by decide, _, rfl⟩
  · exact .inl ⟨by decide, _, rfl⟩
  · exact .inl ⟨by decide, _, rfl⟩
  · exact .inr ⟨rfl, rfl⟩

section

variable {s : State} {h : Here} {p : BitVec 3} {ea : Bool} {a : BitVec 7} {k : BitVec 2} (hh : s.here = some h)
  (hc : operandCheck h (pchkSrc k ea a) (some ⟨.p, p.toNat, 1⟩) true = none)
  (hr : operandsReady h (vecThreads h.g h.p) (pchkSrc k ea a) (some ⟨.p, p.toNat, 1⟩) = true)
  (hne : ∀ x ∈ pchkSrc k ea a, ∀ t ∈ vecThreads h.g h.p, t.2 = none → readSrc h.g h.p x t.1 ≠ .empty)
  (htile : k = 3 → a.toNat % 8 < h.w.ntiles ∧ (sget ({} : Tile) h.w.tiles (a.toNat % 8)).full = true)
include hh hc hr hne htile

/-- R198: a PCHK that passes its checks and waits for nothing writes its results and retires. -/
theorem exec_pchk : ∃ m, m.bytes = s.mem.bytes ∧ exec (.pchk p ea a k) s = .next (retire (writeAll (s.withMem m) h ⟨.p, p.toNat, 1⟩
    ((vecThreads h.g h.p).map fun t => (t.1, toOut (guarded t (.inr (.bool (checked h k ea a t.1))))))) h) := by
  have tile : (k = 3 && decide (h.w.ntiles ≤ a.toNat % 8) : Bool) = false := by
    by_cases hk : k = 3
    · simp [hk, (htile hk).1]
    · rw [decide_eq_false hk, Bool.false_and]
  have full : (k = 3 && !(sget ({} : Tile) h.w.tiles (a.toNat % 8)).full && (vecThreads h.g h.p).any (·.2.isNone) : Bool) = false := by
    by_cases hk : k = 3
    · simp [hk, (htile hk).2]
    · rw [decide_eq_false hk, Bool.false_and, Bool.false_and]
  have looked : ((contributors h).map fun t => (t, pchkLook h k ea a t)) = (contributors h).map
      fun t => (t, toOut (.inr (.bool (checked h k ea a t)))) := List.map_congr_left fun t ht => congrArg (Prod.mk t) (by
    obtain ⟨⟨t, _ | tok⟩, hm, rfl⟩ := List.mem_map.mp ht
    · exact pchkLook_eq fun x hx => hne x hx _ (List.mem_filter.mp hm).1 rfl
    · cases (List.mem_filter.mp hm).2)
  obtain ⟨m, hm, hb⟩ : ∃ m, (if k = 3 && !(contributors h).isEmpty then
      joinTile s (agentsOf h.g.id (threadsOf (~~~h.g.exited))) (sget {} h.w.tiles (a.toNat % 8)) else s) = s.withMem m ∧
      m.bytes = s.mem.bytes := by
    split
    · exact joinTile_eq ..
    · exact ⟨s.mem, rfl, rfl⟩
  refine ⟨m, hb, (issuing_eq s h _ hh).trans ?_⟩
  simp only [hc, tile, hr, full, Bool.not_true, Bool.or_self, Bool.false_eq_true, if_false]
  let looks := (contributors h).map fun t => (t, pchkLook h k ea a t)
  change Host.Outcome.next (retire (writeAll (if k = 3 && !(contributors h).isEmpty then joinTile (settle s h looks).2
    (agentsOf h.g.id (threadsOf (~~~h.g.exited))) (sget {} h.w.tiles (a.toNat % 8)) else (settle s h looks).2) h ⟨.p, p.toNat, 1⟩
    ((vecThreads h.g h.p).map (pchkOut (settle s h looks).1))) h) = _
  rw [show looks = _ from looked, settle_noFresh s h _ (noFresh_toOut _ _ _), hm]
  refine congrArg (fun outs => Host.Outcome.next (retire (writeAll (s.withMem m) h ⟨.p, p.toNat, 1⟩ outs) h)) (List.map_congr_left ?_)
  rintro ⟨t, _ | tok⟩ ht
  · exact pchkOut_eq _ (mem_contributors ht)
  · rfl

end

/-- R198. -/
theorem poisonCheck : Claim.PoisonCheck := by
  intro s h p ea a k res hh hc hr hsrc htile
  obtain ⟨-, hg, -, -, hp⟩ := here_eq s h hh
  have hres : ∀ t ∈ vecThreads h.g h.p, res t.1 = guarded t (.inr (.bool (checked h k ea a t.1))) := by
    intro t ht
    unfold checked
    obtain ⟨hk, x, hx⟩ | ⟨hk, hx⟩ := pchkSrc_cases k ea a
    · rw [hx]
      exact (hsrc hk x (by simp [hx]) t ht).2
    · rw [hx]
      exact (htile hk).2.2 t ht
  have hne : ∀ x ∈ pchkSrc k ea a, ∀ t ∈ vecThreads h.g h.p, t.2 = none → readSrc h.g h.p x t.1 ≠ .empty := by
    intro x hx t ht
    obtain ⟨hk, -⟩ | ⟨-, hn⟩ := pchkSrc_cases k ea a
    · exact (hsrc hk x hx t ht).1
    · simp [hn] at hx
  obtain ⟨m, hm, he⟩ := exec_pchk hh hc hr hne fun hk => ⟨(htile hk).1, (htile hk).2.1⟩
  have outs : ((vecThreads h.g h.p).map fun t => (t.1, toOut (guarded t (.inr (.bool (checked h k ea a t.1)))))) =
      (vecThreads h.g h.p).map fun t => (t.1, toOut (res t.1)) := List.map_congr_left fun t ht => by rw [hres t ht]
  rw [outs] at he
  have hw := sameButRegs_writes h.p ⟨.p, p.toNat, 1⟩ ((vecThreads h.g h.p).map fun t => (t.1, toOut (res t.1))) h.g
  refine ⟨_, _, he, group_retire (group_writeAll hg _ _), fun b => memByte_of_bytes hm b, rfl, wentOn_goneOn hp ?_ ?_ _, ?_,
    wrote_vec (d := ⟨.p, p.toNat, 1⟩) (fun hd => nomatch hd) (fun t ht v hv => ?_) _⟩
  · rw [hw]
  · rw [hw]
  · unfold OnlyRegisters
    rw [hw]
    rfl
  · rw [hres t ht] at hv
    obtain ⟨n, _ | tok⟩ := t <;> cases hv
    rfl

/-- Settles O14: the words that read poison as data by the word each makes of a token or a value, PORIG.SPAN as a read without sources,
PCHK by its file selector. -/
theorem poisonInspection : Obligations.PoisonInspection := ⟨poisonReadAsData, spanRecordRead, poisonCheck⟩

end Sys2Proof.Machine
end

section
/-!
SUPPORT. New poison of one thread: the side-table entry that it takes (R43, R44), and the words that make it (R47, R201, R226, R241, R250).
-/

namespace Sys2Proof.Machine

open Sys2Proof Sys2Proof.Laws

/-! ## Side-table entries (R43) -/

/-- R43: the entries of a side table are numbered from 0x000 to 0x3FE. -/
theorem freeEntry_lt {recs : SMap (Nat × Record)} {tick e : Nat} (he : freeEntry recs tick = some e) : e < 1023 := by
  unfold freeEntry at he
  split at he
  · cases he
  · obtain ⟨j, -, rfl⟩ := List.mem_map.mp (List.mem_of_find?_eq_some he)
    exact Nat.mod_lt _ (by decide)

/-- R43: the state after a record was entered in a core's side table. -/
def entered (s : State) (core e : Nat) (owner : Nat) (r : Record) : State :=
  let side : Side := sget {} s.exe.sides core
  State.bump { s with exe := { s.exe with sides := sput {} s.exe.sides core { side with recs := sins side.recs e (owner, r) } } }

/-- R43: the token of an entry names the record that was entered there. -/
theorem recordAt_entered {s u : State} {core e owner : Nat} {r : Record} (he : e < 1023) (hu : u.exe.sides = (entered s core e owner r).exe.sides) :
    recordAt u core (BitVec.ofNat 10 e) = some r := by
  have num : (BitVec.ofNat 10 e).toNat = e := by simp; omega
  have valid : BitVec.ofNat 10 e ≠ 0x3FF := fun h => by
    have := congrArg BitVec.toNat h
    rw [num] at this
    simp at this
    omega
  rw [recordAt, if_neg valid, num, hu]
  simp [entered, State.bump]

section

variable {s : State} {h : Here} {f : Fresh} {e : Nat} (hh : s.here = some h)
  (howner : ∀ kr ∈ (sget ({} : Side) s.exe.sides h.w.coreNo).recs, kr.2.1 ≠ h.g.id)
  (hfree : freeEntry (sget ({} : Side) s.exe.sides h.w.coreNo).recs s.ctl.tick = some e)
  (hcause : f.cause ≠ causeInvalid ∧ f.cause ≠ causeDenied)
include hh howner hfree hcause

/-- R43, R44: where a group has no record yet, a new one takes a free entry. -/
theorem newRecord_free (pc : DWord) (inspan : Bool) (n : Nat) : newRecord s h.g.id pc inspan f n =
    (BitVec.ofNat 10 e, entered s h.w.coreNo e h.g.id (Record.first h.g h.w pc inspan f n)) := by
  obtain ⟨-, hg, hw, -, -⟩ := here_eq s h hh
  have fresh : (sget ({} : Side) s.exe.sides h.w.coreNo).recs.find? (mergesInto h.g pc inspan f) = none :=
    List.find?_eq_none.mpr fun kr hkr => by simp [mergesInto, howner kr hkr]
  have enter : enterRecord (sget ({} : Side) s.exe.sides h.w.coreNo).recs s.ctl.tick h.g h.w pc inspan f n =
      some (e, sins (sget ({} : Side) s.exe.sides h.w.coreNo).recs e (h.g.id, Record.first h.g h.w pc inspan f n)) := by
    simp only [enterRecord, fresh, hfree, Option.map_some]
  have quiet : (f.cause = causeInvalid || f.cause = causeDenied : Bool) = false := by simp [hcause]
  simp only [newRecord, findGroup, hg, recordsOf, hw, enter, quiet, Bool.false_eq_true, if_false]
  rfl

/-- R43, R44: the new poison of one thread gets a record of its own. -/
theorem settle_one (t : Nat) (hregs : f.regs = []) : settle s h [(t, .fresh f)] = ([(t, .tok (BitVec.ofNat 10 e))],
    entered s h.w.coreNo e h.g.id (Record.first h.g h.w h.p.pc (h.g.span.opened.getLsbD f.t) f 1)) := by
  have low : lowestOf f [f] = f := by
    simp [lowestOf, hregs]
    cases f
    simp_all
  have one : newRecords s h.g.id h.p.pc (h.g.span.opened.getLsbD ·) [f] = ([(f, BitVec.ofNat 10 e)],
      entered s h.w.coreNo e h.g.id (Record.first h.g h.w h.p.pc (h.g.span.opened.getLsbD f.t) f 1)) := by
    have made := newRecord_free hh howner hfree hcause h.p.pc (h.g.span.opened.getLsbD f.t) 1
    have single : [f.t].eraseDups.length = 1 := rfl
    simp [newRecords, low, single, made]
  simp [settle, one]

/-- R43, R44: a word of the mould that makes new poison in the one thread that executes it. -/
theorem alu_fresh {i : Instr} {op : AluOp} {t : Nat} (hc : operandCheck h op.srcs (some op.dst) op.typeOk = none)
    (hr : operandsReady h [(t, none)] op.srcs (some op.dst) = true) (hth : aluThreads h op = [(t, none)])
    (hout : aluOut s h op t none = .fresh f) (hlate : aluLate h op [(t, none)] = []) (hregs : f.regs = []) (hshadow : f.cause ≠ causeShadow) :
    alu i s h op = .next (retire (writeAll (entered s h.w.coreNo e h.g.id
      (Record.first h.g h.w h.p.pc (h.g.span.opened.getLsbD f.t) f 1)) h op.dst [(t, toOut (.inl (BitVec.ofNat 10 e)))]) h) := by
  have counted (s' : State) (made : List (Nat × ThreadOut)) : countShadow s' h [(t, .fresh f)] made = s' := by
    simp [countShadow, mismatches, hshadow]
  unfold alu aluEffect
  simp only [hc, hth, hr, if_true, List.map_cons, List.map_nil, hout, hlate, settle_one hh howner hfree hcause t hregs, counted]
  rfl

end

/-! ## Words that make new poison -/

theorem operands_one {h : Here} {t : Nat} {x : Src} {vs : List (List Word)} (ho : operands h t [x] = some (.inr vs)) :
    ∃ ws, vs = [ws] ∧ readSrc h.g h.p x t = .words ws := by
  simp only [operands] at ho
  cases hx : readSrc h.g h.p x t with
  | poison k => simp [hx] at ho
  | empty => simp [hx] at ho
  | words ws =>
    simp only [hx, Option.some.injEq, Sum.inr.injEq] at ho
    exact ⟨ws, ho.symm, rfl⟩

theorem operands_two {h : Here} {t : Nat} {x y : Src} {vs : List (List Word)} (ho : operands h t [x, y] = some (.inr vs)) :
    ∃ ws us, vs = [ws, us] ∧ readSrc h.g h.p x t = .words ws ∧ readSrc h.g h.p y t = .words us := by
  rw [operands] at ho
  cases hx : readSrc h.g h.p x t with
  | poison k => simp [hx] at ho
  | empty => simp [hx] at ho
  | words ws =>
    simp only [hx] at ho
    split at ho <;> cases ho
    next us hy =>
    obtain ⟨us', rfl, hu⟩ := operands_one hy
    exact ⟨ws, us', rfl, rfl, hu⟩

theorem words_of_readSrc {g : Group} {p : Path} {x : Src} {t : Nat} {ws : List Word} (hx : readSrc g p x t = .words ws) :
    ws = (regsOf g p x.file x.reg x.n t).map (·.val) := by
  unfold readSrc at hx
  simp only at hx
  split at hx
  · split at hx <;> cases hx
    rfl
  · cases hx

/-- A register source of one register reads as one word. -/
theorem rSrc_word {h : Here} {unif : Bool} {a : BitVec 7} {ea : Bool} {t : Nat} {ws : List Word}
    (hx : readSrc h.g h.p (rSrc unif a ea) t = .words ws) : ∃ w, ws = [w] :=
  List.length_eq_one_iff.mp (readSrc_length _ _ _ _ _ hx (by cases unif <;> simp [rSrc, fileOf]))

/-- What a row of a table says of a word that makes new poison: the pipeline carries out an operation of the row's shape, which gives
the thread that poison. -/
def PoisonRow (i : Instr) (s : State) (h : Here) (x : Shape) (t : Nat) (vs : List (List Word)) (cause : Cause) (addr : Option DWord) : Prop :=
  ∃ op : AluOp, exec i s = alu i s h op ∧ op.unif = x.unif ∧ op.sel = false ∧ op.srcs = x.srcs ∧ op.dst = x.dst ∧ op.typeOk = x.ok ∧
    op.f t vs = .fresh { t := t, cause := cause, addr := addr }

/-- R241: the row of a conversion. -/
def conversionShape (unif : Bool) (d : BitVec 7) (ea : Bool) (a : BitVec 7) (k : BitVec 8) (m : BitVec 16) : Shape :=
  { unif := unif, srcs := [rSrc unif a ea], dst := rDst unif d, float := k.toNat % 16 = 2 || k.toNat % 16 = 3
    value := fun
      | [[x]] => (convert (mRound m) (mSat m) (mFtz m) (k.toNat / 16) (k.toNat % 16) x).map fun w => .words [w]
      | _ => none }

section

variable {i : Instr} {s : State} {h : Here} {unif : Bool} {d : BitVec 7} {ea : Bool} {a : BitVec 7} {eb : Bool} {b : BitVec 7}
  {t : Nat} {vs : List (List Word)} (hh : s.here = some h)
include hh

/-- R226: an integer division by zero. -/
theorem division_poison {op : BinOp} {tyOk : Nat → Bool} (he : exec i s = typed2 i unif d ea a eb b tyOk (binOut op) s) {x : Shape}
    (hx : x = twoRegs unif d ea a eb b (tyOk (mType h.p.mode)) (!isInt (mType h.p.mode)) (binTyped op (mType h.p.mode) (rndOf h.p.mode)))
    (ho : operands h t x.srcs = some (.inr vs)) (hn : (x.ok && (x.value vs).isNone) = true) : PoisonRow i s h x t vs causeDivZero none := by
  subst hx
  obtain ⟨ws, us, rfl, hws, hus⟩ := operands_two ho
  obtain ⟨w, rfl⟩ := rSrc_word hws
  obtain ⟨u, rfl⟩ := rSrc_word hus
  have undefined : binTyped op (mType h.p.mode) (rndOf h.p.mode) w u = none := by simpa [twoRegs] using (Bool.and_eq_true_iff.mp hn).2
  refine ⟨_, he.trans (issuing_eq s h _ hh), rfl, rfl, rfl, rfl, rfl, ?_⟩
  show binOut op t h.p.mode w u = _
  rw [binOut, undefined]

/-- R241: a conversion out of range. -/
theorem conversion_poison {k : BitVec 8} (he : exec i s = convertOp i unif d ea a k s) {x : Shape}
    (hx : x = conversionShape unif d ea a k h.p.mode) (ho : operands h t x.srcs = some (.inr vs)) (hn : (x.value vs).isNone = true) : PoisonRow i s h x t vs causeRange none := by
  subst hx
  obtain ⟨ws, rfl, hws⟩ := operands_one ho
  obtain ⟨w, rfl⟩ := rSrc_word hws
  have src : (k.extractLsb' 4 4).toNat = k.toNat / 16 := by
    have := k.isLt
    simp [Nat.shiftRight_eq_div_pow]
    omega
  have dst : (k.extractLsb' 0 4).toNat = k.toNat % 16 := by simp
  have undefined : convert (mRound h.p.mode) (mSat h.p.mode) (mFtz h.p.mode) (k.toNat / 16) (k.toNat % 16) w = none := by
    simpa [conversionShape] using hn
  refine ⟨_, he.trans (issuing_eq s h _ hh), rfl, rfl, rfl, rfl, rfl, ?_⟩
  show (match convert (mRound h.p.mode) (mSat h.p.mode) (mFtz h.p.mode) (k.extractLsb' 4 4).toNat (k.extractLsb' 0 4).toNat w with
    | some w => ThreadOut.words [w]
    | none => .fresh { t := t, cause := causeRange }) = _
  rw [src, dst, undefined]

/-- R250: an index register that leaves its window. -/
theorem index_poison {d a : BitVec 2} {k : BitVec 8} {x : Shape} (hx : predTable (.xadd d a k) h.p.mode = some x)
    (ho : operands h t x.srcs = some (.inr vs)) (hn : (x.value vs).isNone = true) : PoisonRow (.xadd d a k) s h x t vs causeBounds none := by
  cases hx
  obtain ⟨ws, rfl, hws⟩ := operands_one ho
  obtain ⟨w, rfl⟩ : ∃ w, ws = [w] := by
    rw [words_of_readSrc hws]
    exact ⟨_, rfl⟩
  refine ⟨_, issuing_eq s h _ hh, rfl, rfl, rfl, rfl, rfl, if_neg fun inside => ?_⟩
  simp only [Option.isNone_iff_eq_none, ite_eq_right_iff, reduceCtorEq, imp_false] at hn
  exact hn (by simpa [arg] using inside)

/-- R201: poison that a program makes. -/
theorem program_poison (he : exec i s = pmake i unif d ea a s) : PoisonRow i s h
    { unif := unif, srcs := [rSrc unif a ea], dst := rDst unif d, value := fun _ => none } t vs causeProgram
    (some (((vs.getD 0 []).getD 0 0).setWidth 64)) :=
  ⟨_, he.trans (issuing_eq s h _ hh), rfl, rfl, rfl, rfl, rfl, rfl⟩

/-- R47: each word of the table that makes new poison does so by its row. -/
theorem poison_row {x : Shape} {cause : Cause} {addr : Option DWord} (hx : poisonTable i h.p.mode = some x)
    (ho : operands h t x.srcs = some (.inr vs)) (hp : newPoison i h.p.mode vs = some (cause, addr)) :
    PoisonRow i s h x t vs cause addr ∧ cause ∈ [causeDivZero, causeRange, causeBounds, causeProgram] := by
  unfold newPoison at hp
  split at hp
  iterate 4
    split at hp <;> cases hp
    cases hx
    next hn => exact ⟨division_poison hh rfl rfl ho hn, by decide⟩
  iterate 2
    split at hp <;> cases hp
    cases hx
    next hn => exact ⟨conversion_poison hh rfl rfl ho hn, by decide⟩
  · split at hp <;> cases hp
    next d a k hn =>
    have hx' : predTable (.xadd d a k) h.p.mode = some x := hx
    rw [hx'] at hn
    exact ⟨index_poison hh hx' ho hn, by decide⟩
  iterate 2
    cases hp
    cases hx
    exact ⟨program_poison hh rfl, by decide⟩
  · cases hp

end

/-- Settles O15: the word by its row of the table, its poison by the free entry that the record takes. -/
theorem newPoisonRecord : Obligations.NewPoisonRecord := by
  intro i s h x t e vs cause addr hh hx hready hth ho hp howner hfree
  obtain ⟨-, hg, -, -, hpath⟩ := here_eq s h hh
  obtain ⟨⟨op, he, hunif, hsel, hsrcs, hdst, hok, hf⟩, hcause⟩ := poison_row hh hx ho hp
  obtain ⟨hc, hr, -⟩ := hready
  have plain : cause ≠ causeInvalid ∧ cause ≠ causeDenied ∧ cause ≠ causeShadow := by
    revert hcause
    simp only [List.mem_cons, List.not_mem_nil, or_false]
    rintro (rfl | rfl | rfl | rfl) <;> decide
  obtain ⟨valid, allowed, checked⟩ := plain
  have threads : aluThreads h op = [(t, none)] := by rw [← hth]; simp [aluThreads, hsel, Shape.threads, hunif]
  rw [hth, ← hsrcs, ← hdst] at hr
  rw [← hsrcs, ← hdst, ← hok] at hc
  rw [← hsrcs] at ho
  have out : aluOut s h op t none = .fresh { t := t, cause := cause, addr := addr } := by
    simp only [aluOut, (gather_operands h t op.srcs).2 vs ho, hf]
    rfl
  have late : aluLate h op [(t, none)] = [] := by
    simpa [aluLate] using lateReads_operands h t op.srcs _ ho
  have run := alu_fresh (i := i) hh howner hfree ⟨valid, allowed⟩ hc hr threads out late rfl checked
  rw [hdst] at run
  have hw := sameButRegs_writes h.p x.dst [(t, toOut (.inl (BitVec.ofNat 10 e)))] h.g
  refine ⟨_, _, _, he.trans run, rfl, rfl, group_retire (group_writeAll hg _ _), wentOn_goneOn hpath (by rw [hw]) (by rw [hw]) _, ?_, ?_,
    recordAt_entered (freeEntry_lt hfree) rfl, rfl, rfl, rfl, rfl, rfl, rfl, rfl, rfl, rfl, rfl⟩
  · unfold OnlyRegisters
    rw [hw]
    rfl
  · exact wrote_of h x.dst [(t, toOut (.inl (BitVec.ofNat 10 e)))] (fun _ => .inl (BitVec.ofNat 10 e)) (List.nodup_singleton _)
      (by simpa using execThreads_lt x.unif h.g h.p (t, none) (by rw [show execThreads x.unif h.g h.p = [(t, none)] from hth]; exact List.mem_singleton.mpr rfl))
      (fun _ => Nat.le_refl 1) (by simp) (by simp) _ ⟨rfl, rfl, rfl, rfl⟩

end Sys2Proof.Machine
end

section
/-!
SUPPORT. Which management words an event, a reset of a partition and a management write change (R391, R434 to R447); the marks of
poisoned words (R52, R53).
-/

namespace Sys2Proof.Machine

open Sys2Proof Sys2Proof.Laws

/-! ## A word above the machine's own registers (R391, R440)

The device itself writes the ready word, queue descriptors, checkpoint blocks, and the matrix, log and dump words of a partition. They
lie below 0x16000, where the counters of events begin. -/

/-- A management word is what it was. -/
def KeepsWord (c : Nat) (s t : State) : Prop := t.mgmt c = s.mgmt c

theorem KeepsWord.refl (c : Nat) (s : State) : KeepsWord c s s := rfl

theorem KeepsWord.trans {c : Nat} {s t u : State} (h : KeepsWord c s t) (h' : KeepsWord c t u) : KeepsWord c s u := Eq.trans h' h

theorem keepsWord_withMem (c : Nat) (s : State) (m : MemSys) : KeepsWord c s (s.withMem m) := rfl

theorem keepsWord_foldl {β : Type} {c : Nat} {f : State → β → State} (hf : ∀ s x, KeepsWord c s (f s x)) (l : List β) (s : State) :
    KeepsWord c s (l.foldl f s) :=
  List.foldlRecOn l f (motive := KeepsWord c s) (.refl c s) fun t ht x _ => ht.trans (hf t x)

theorem keepsWord_setMgmt {c off : Nat} (s : State) (w : Word) (h : c ≠ off) : KeepsWord c s (s.setMgmt off w) := (aside_setMgmt s w h).2

/-! ### Writes of the device to memory -/

theorem keepsWord_devicePoke (c : Nat) (s : State) (a : Nat) (w : Word) (p : Bool) (o : Word) : KeepsWord c s (devicePoke s a w p o) :=
  (aside_devicePoke c s a w p o).2

theorem keepsWord_deviceWords (c : Nat) (s : State) (a : Nat) (ws : List Word) : KeepsWord c s (deviceWords s a ws) :=
  (aside_deviceWords c s a ws).2

theorem keepsWord_writeImage (c : Nat) (s : State) (base : Nat) (ws : List (Nat × Word)) : KeepsWord c s (writeImage s base ws) := by
  induction ws generalizing s with
  | nil => rfl
  | cons x ws ih => exact (keepsWord_devicePoke c s _ _ false 0).trans (ih _)

theorem keepsWord_copyWords (c : Nat) (s : State) (src dst n : Nat) : KeepsWord c s (copyWords s src dst n) := by
  induction n generalizing s src dst with
  | zero => rfl
  | succ n ih => exact (keepsWord_devicePoke ..).trans (ih _ _ _)

theorem keepsWord_writeSlot (c : Nat) (s : State) (base : Nat) (i : Image) : KeepsWord c s (writeSlot s base i) :=
  (keepsWord_writeImage ..).trans (keepsWord_copyWords ..)

theorem keepsWord_resetCompletions (c : Nat) (s : State) (tag : Nat) : KeepsWord c s (resetCompletions s tag) :=
  keepsWord_foldl (fun s l => by
    cases completionPlace s l with
    | none => rfl
    | some pa => exact (keepsWord_devicePoke ..).trans (keepsWord_devicePoke ..)) _ s

theorem keepsWord_writeBackBad (c : Nat) (s : State) (part : Nat) : KeepsWord c s (writeBackBad s part) :=
  List.foldlRecOn _ _ (motive := KeepsWord c s) (.refl c s) fun _ ht _ _ => ht

theorem keepsWord_sendReplies (c : Nat) (s : State) (rs : List (Nat × Option Word)) : KeepsWord c s (sendReplies s rs) := by
  induction rs generalizing s with
  | nil => rfl
  | cons r rs ih =>
    obtain ⟨tag, _ | w⟩ := r
    · rfl
    · exact ih _

section

variable {c : Nat} (hc : 0x16000 ≤ c)
include hc

/-! ### The end of a context (R378, R437) -/

theorem keepsWord_disableQueues (s : State) (tag : Nat) : KeepsWord c s (disableQueues s tag) := by
  refine List.foldlRecOn (List.range 64) _ (motive := KeepsWord c s) (.refl c s) fun t ht k hk => ht.trans ?_
  have := List.mem_range.mp hk
  split
  · exact keepsWord_setMgmt t _ (by omega)
  · rfl

theorem keepsWord_abortCheckpoint (s : State) {part : Nat} (hp : part < 4) (cause : Nat) : KeepsWord c s (abortCheckpoint s part cause) := by
  unfold abortCheckpoint
  dsimp only
  split
  · exact keepsWord_setMgmt s _ (by omega)
  · rfl

theorem keepsWord_abortCheckpoints (s : State) (tag : Nat) : KeepsWord c s (abortCheckpoints s tag) := by
  refine List.foldlRecOn (List.range 4) _ (motive := KeepsWord c s) (.refl c s) fun t ht p hp => ht.trans ?_
  split
  · exact keepsWord_abortCheckpoint hc t (List.mem_range.mp hp) 1
  · rfl

theorem keepsWord_haltContext (s : State) (tag : Nat) : KeepsWord c s (haltContext s tag) := by
  unfold haltContext
  split
  · rfl
  · split
    · rfl
    · refine KeepsWord.trans ?_ (keepsWord_abortCheckpoints hc _ tag)
      refine KeepsWord.trans ?_ (keepsWord_disableQueues hc _ tag)
      exact keepsWord_sendReplies c (s.modCtx tag _) _

theorem keepsWord_destroyContext (s : State) (tag : Nat) : KeepsWord c s (destroyContext s tag) := by
  have : KeepsWord c s (abortCheckpoints (endPreempts (disableQueues s tag) tag 1 1) tag) :=
    ((keepsWord_disableQueues hc s tag).trans (keepsWord_sendReplies c (disableQueues s tag) _)).trans (keepsWord_abortCheckpoints hc _ tag)
  exact this

/-! ### The reset of a partition (R437, R445) -/

theorem keepsWord_writeDump (s : State) {part : Nat} (hp : part < 4) (trigger : List Byte) (tags : List Nat) :
    KeepsWord c s (writeDump s part trigger tags) := by
  have put (s : State) (a n limit : Nat) (ws : List Word) : KeepsWord c s (if n ≤ limit then deviceWords s a ws else s) := by
    split
    · exact keepsWord_deviceWords c s a ws
    · rfl
  unfold writeDump
  dsimp only
  split
  · rfl
  · refine KeepsWord.trans ?_ (keepsWord_setMgmt _ _ (by omega))
    refine KeepsWord.trans ?_ (keepsWord_foldl (fun s wk => ?_) _ _)
    · refine KeepsWord.trans ?_ (keepsWord_foldl (fun s kc => keepsWord_foldl (fun s ow => put ..) _ s) _ _)
      refine KeepsWord.trans ?_ (keepsWord_foldl (fun s kw => put ..) _ _)
      refine KeepsWord.trans ?_ (put ..)
      refine KeepsWord.trans ?_ (put ..)
      refine KeepsWord.trans ?_ (put ..)
      exact keepsWord_withMem ..
    · split
      · exact keepsWord_writeSlot ..
      · rfl

theorem keepsWord_resetPartition (s : State) {part : Nat} (hp : part < 4) (trigger : List Byte) :
    KeepsWord c s (resetPartition s part trigger) := by
  unfold resetPartition
  dsimp only
  refine KeepsWord.trans ?_ (show KeepsWord c _ _ from keepsWord_setMgmt _ _ (by omega))
  refine KeepsWord.trans ?_ (show KeepsWord c _ _ from keepsWord_writeBackBad c _ part)
  exact (keepsWord_writeDump hc s hp trigger _).trans (keepsWord_foldl (fun s tag =>
    ((keepsWord_haltContext hc s tag).trans (keepsWord_resetCompletions c _ tag)).trans (keepsWord_destroyContext hc _ tag)) _ _)

/-- R437, R439: what the last actions of an event do once it is logged and sent (`t`) and its context is killed (`u`). -/
theorem keepsWord_reset (s : State) {t u : State} (a : Nat) {part : Nat} (hp : part < 4) (bytes : List Byte) (ht : KeepsWord c s t)
    (hu : KeepsWord c s u) : KeepsWord c s (if a = 4 && (t.mgmt (0x15000 + 0x100 * part + 0xB0)).extractLsb' 0 2 = 1#2 then
      { t with host := { t.host with resetWaits := sins t.host.resetWaits part bytes } }
    else if a = 4 then resetPartition u part bytes else u) := by
  split
  · exact ht
  · split
    · exact hu.trans (keepsWord_resetPartition hc u hp bytes)
    · exact hu

/-- R434 to R441: whatever the matrix selects for an event without a context, a counter of events stays. -/
theorem keepsWord_actOn (s : State) {e : Ev} (hp : e.part.getD 0 < 4) (hctx : e.ctx = none) : KeepsWord c s (actOn s e) := by
  have log : KeepsWord c s (if actionOf s e ≥ 1 then writeLog s (e.part.getD 0) (recordOf s (e.part.getD 0) e (actionOf s e)) else s) := by
    split
    · exact (aside_writeLog s _ (by omega)).2
    · exact .refl c s
  have sent (o : Out) : KeepsWord c s (if actionOf s e ≥ 2
      then (if actionOf s e ≥ 1 then writeLog s (e.part.getD 0) (recordOf s (e.part.getD 0) e (actionOf s e)) else s).send o
      else if actionOf s e ≥ 1 then writeLog s (e.part.getD 0) (recordOf s (e.part.getD 0) e (actionOf s e)) else s) := by
    split
    · exact log
    · exact log
  unfold actOn
  dsimp only
  refine keepsWord_reset hc s _ hp _ (sent _) ?_
  split
  · rw [hctx]
    exact sent _
  · exact sent _

end

/-! ## Events without a context (R434, R438, R440) -/

/-- R440: the event is counted once, whatever its action is. -/
theorem raise_counts (s : State) {e : Ev} (hp : e.part.getD 0 < 4) (hctx : e.ctx = none) (hn : e.count ≠ 0) :
    (raise s e).mgmt (eventCounter (e.part.getD 0) e.cls e.src) = satAdd (s.mgmt (eventCounter (e.part.getD 0) e.cls e.src)) e.count := by
  have above : 0x16000 ≤ eventCounter (e.part.getD 0) e.cls e.src := by
    unfold eventCounter
    omega
  rw [raise, if_neg hn]
  have kept : (actOn (countEvent s e) e).mgmt (eventCounter (e.part.getD 0) e.cls e.src) = _ := keepsWord_actOn above (countEvent s e) hp hctx
  exact kept.trans (mgmt_setMgmt_same s (eventCounter (e.part.getD 0) e.cls e.src) _)

/-- R436: an event that only counts changes its counter and nothing else. -/
theorem actOn_counted (s : State) {e : Ev} (ha : actionOf s e = 0) : actOn s e = s := by
  unfold actOn
  simp [ha]

theorem raise_counted (s : State) {e : Ev} (hcls : e.cls < 32) (hn : e.count ≠ 0) (ha : actionOf s e = 0) : raise s e = countEvent s e := by
  rw [raise, if_neg hn]
  exact actOn_counted _ ((actionOf_countEvent hcls).trans ha)

/-- R377: a quadrant's partition is one of the four. -/
theorem quadPart_lt (s : State) (q : Nat) : (quadPart s q).getD 0 < 4 := by
  unfold quadPart
  cases h : (List.range 4).find? fun n => (partMask s n).getLsbD q with
  | none => decide
  | some n => exact List.mem_range.mp (List.mem_of_find?_eq_some h)

theorem ownerOf_lt (s : State) (pa : Nat) : (ownerOf s pa).getD 0 < 4 := by
  unfold ownerOf
  split
  · exact quadPart_lt s _
  · rename_i r _
    cases h : (List.range 4).find? fun n => farEntry s r = 1#4 <<< n with
    | none => decide
    | some n => exact List.mem_range.mp (List.mem_of_find?_eq_some h)
  · decide

/-- R53: the poison marks of words after a word was marked poisoned. -/
theorem wordPoi_setPoi_true (m : MemSys) (a : Nat) (o : Word) (x : Nat) :
    wordPoi (setPoi m a true o) x = (wordPoi m x || (x / 4 == a / 4)) := by
  have hk : a % 128 / 4 < 32 := by omega
  have bit (w : Word) (i : Nat) : (w ||| 1#32 <<< (a % 128 / 4)).getLsbD i = (w.getLsbD i || (i == a % 128 / 4)) := by
    rcases Nat.lt_trichotomy i (a % 128 / 4) with h | h | h
    · simp [h.ne, h]
    · simp [h, hk]
    · have h1 : i - a % 128 / 4 ≠ 0 := by omega
      simp [h.ne', h1]
  have cut (w : Word) (z : Word) : (if w = 0 then ({} : Mark) else { mask := w, origin := z }).mask = w := by
    split
    · next h => exact h.symm
    · rfl
  unfold wordPoi setPoi
  dsimp only
  rw [sget_sput]
  by_cases hl : lineOf x = lineOf a
  · have here : (x / 4 == a / 4) = (x % 128 / 4 == a % 128 / 4) := by
      unfold lineOf at hl
      rw [Bool.eq_iff_iff, beq_iff_eq, beq_iff_eq]
      omega
    rw [if_pos hl, cut, if_pos rfl, bit, here, hl]
  · have away : (x / 4 == a / 4) = false := by
      unfold lineOf at hl
      rw [beq_eq_false_iff_ne]
      omega
    rw [if_neg hl, away, Bool.or_false]

/-- R4, R434: the event of an inconsistency that a unit of a quadrant found, an L2 slice by its number. -/
def inconsistency (s : State) (q src n : Nat) (info : DWord) : Ev :=
  { cls := 23, src := src, part := quadPart s q, info := [info], loc := quadLoc q, num := if src = 1 then some n else none }

theorem execInternalConsistencyCheck_eq (s : State) (q : Nat) {src n : Nat} (info : DWord) (hsrc : src < 8) (hn : n < 48)
    (hsole : src ≠ 1 → n = 0) : execInternalConsistencyCheck q (8 * n + src) info s = .next (raise s (inconsistency s q src n info)) := by
  have hk : (8 * n + src) % 8 = src := by omega
  have hd : (8 * n + src) / 8 = n := by omega
  have known : (48 ≤ n || (src ≠ 1 && 8 * n + src ≠ src)) = false := by
    have h1 : ¬ 48 ≤ n := by omega
    rw [decide_eq_false h1, Bool.false_or, Bool.and_eq_false_iff, decide_eq_false_iff_not, decide_eq_false_iff_not]
    omega
  simp only [execInternalConsistencyCheck, hk, hd, known, Bool.false_eq_true, if_false]
  rfl

/-- R54: the state after scrubbing has looked at the word at an address, before the event is raised. -/
def scrubbed (s : State) (a : Nat) (bad : Bool) : State :=
  if bad then s.withMem (setPoi { s.mem with ecc := sdel s.mem.ecc a } a true (originRaw s (homeQuad s 0 a) 0x7F causeEcc)) else s

/-- R434: the event of scrubbing. -/
def scrubEvent (s : State) (a src : Nat) (bad : Bool) : Ev :=
  { cls := if bad then 7 else 6, src := src, part := ownerOf s a, loc := memoryLoc a, info := [BitVec.ofNat 64 a] }

theorem execScrubbing_eq (s : State) (pa src : Nat) (bad : Bool)
    (h : (src = 3 ∧ ∃ q, regionOf (pa / 4 * 4) = .near q) ∨ (src = 4 ∧ ∃ r, regionOf (pa / 4 * 4) = .far r)) :
    execScrubbing pa bad s = .next (raise (scrubbed s (pa / 4 * 4) bad) (scrubEvent (scrubbed s (pa / 4 * 4) bad) (pa / 4 * 4) src bad)) := by
  unfold execScrubbing
  rcases h with ⟨rfl, q, h⟩ | ⟨rfl, r, h⟩
  · simp only [h]
    rfl
  · simp only [h]
    rfl

@[simp] theorem scrubbed_exe (s : State) (a : Nat) (bad : Bool) : (scrubbed s a bad).exe = s.exe := by cases bad <;> rfl
@[simp] theorem scrubbed_host (s : State) (a : Nat) (bad : Bool) : (scrubbed s a bad).host = s.host := by cases bad <;> rfl

theorem scrubbed_bytes (s : State) (a : Nat) (bad : Bool) : (scrubbed s a bad).mem.bytes = s.mem.bytes := by cases bad <;> rfl

theorem scrubEvent_scrubbed (s : State) (a src : Nat) (bad : Bool) : scrubEvent (scrubbed s a bad) a src bad = scrubEvent s a src bad := by
  cases bad <;> rfl

theorem scrubEvent_cls (s : State) (a src : Nat) (bad : Bool) : (scrubEvent s a src bad).cls < 32 := by
  show (if bad then 7 else 6) < 32
  split <;> decide

theorem actionOf_scrubbed (s : State) (a : Nat) (bad : Bool) (e : Ev) : actionOf (scrubbed s a bad) e = actionOf s e := by
  cases bad <;> rfl

/-- R54, R434, R438. -/
theorem scrubbing_counts (s : State) (a src : Nat) (bad : Bool) :
    let k := eventCounter ((ownerOf s a).getD 0) (if bad then 7 else 6) src
    (raise (scrubbed s a bad) (scrubEvent s a src bad)).mgmt k = satAdd (s.mgmt k) 1 := by
  have h := raise_counts (scrubbed s a bad) (e := scrubEvent s a src bad) (ownerOf_lt s a) rfl Nat.one_ne_zero
  exact h.trans (by cases bad <;> rfl)

/-- R54, R434, R438. -/
theorem hardwareEvents : Claim.HardwareEvents := by
  intro s
  refine ⟨fun info => ⟨_, rfl, raise_counts s ?_ rfl ?_⟩, ?_, ?_⟩
  · exact Nat.succ_pos 3
  · exact Nat.one_ne_zero
  · intro q src n info hsrc hn hsole
    exact ⟨_, execInternalConsistencyCheck_eq s q info hsrc hn hsole, raise_counts s (quadPart_lt s q) rfl Nat.one_ne_zero⟩
  · intro pa src bad hregion a cls k
    refine ⟨_, (execScrubbing_eq s pa src bad hregion).trans (by rw [scrubEvent_scrubbed]), scrubbing_counts s a src bad, fun ha => ?_⟩
    have counted : raise (scrubbed s a bad) (scrubEvent s a src bad) = countEvent (scrubbed s a bad) (scrubEvent s a src bad) :=
      raise_counted _ (scrubEvent_cls s a src bad) Nat.one_ne_zero ((actionOf_scrubbed s a bad _).trans ha)
    rw [counted]
    refine ⟨memByte_of_bytes (scrubbed_bytes s a bad), scrubbed_exe s a bad, ?_, ?_⟩
    · rintro rfl
      rfl
    · rintro rfl
      refine ⟨?_, fun x => (wordPoi_setPoi_true _ a _ x).trans ?_⟩
      · show (sfind (sdel s.mem.ecc a) a).isSome = false
        rw [sfind_sdel, if_pos rfl]
        rfl
      · show (wordPoi s.mem x || _) = _
        congr 2

/-! ## Words of a partition's blocks (R436, R439, R441, R444, R445) -/

/-- Two words written differ in those two alone. -/
theorem onlyWords_setMgmt_two (s : State) (a b : Nat) (v w : Word) : OnlyWords s ((s.setMgmt a v).setMgmt b w) [a, b] := by
  intro o ho
  obtain ⟨ha, hb⟩ : o ≠ a ∧ o ≠ b := by simpa using ho
  rw [mgmt_setMgmt, if_neg hb, mgmt_setMgmt, if_neg ha]

theorem mgmt64_setMgmt64 (s : State) (a : Nat) (x : DWord) : (s.setMgmt64 a x).mgmt64 a = x := by
  have lo : (s.setMgmt64 a x).mgmt a = x.halves.1 := by
    rw [State.setMgmt64, mgmt_setMgmt, if_neg (by omega), mgmt_setMgmt_same]
  have hi : (s.setMgmt64 a x).mgmt (a + 4) = x.halves.2 := mgmt_setMgmt_same ..
  rw [State.mgmt64, lo, hi, DWord.ofHalves_halves]

/-- R436: the 24 bits of a matrix word. -/
theorem low24_eq (v : Word) : v &&& 0x00FFFFFF#32 = 0#8 ++ v.setWidth 24 := by
  apply BitVec.eq_of_getLsbD_eq
  intro i hi
  have mask : ∀ i, i < 32 → (0x00FFFFFF#32).getLsbD i = decide (i < 24) := by decide
  rw [BitVec.getLsbD_and, mask i hi, BitVec.getLsbD_append]
  by_cases h : i < 24
  · simp [h]
  · simp [h]

/-- R444: status leaves a size word. -/
theorem clearStatus_eq (w : Word) : w &&& ~~~3#32 = w.extractLsb' 2 30 ++ 0#2 := by
  apply BitVec.eq_of_getLsbD_eq
  intro i hi
  have mask : ∀ i, i < 32 → (~~~3#32).getLsbD i = decide (2 ≤ i) := by decide
  rw [BitVec.getLsbD_and, mask i hi, BitVec.getLsbD_append]
  by_cases h : i < 2
  · simp [h]
  · have : 2 + (i - 2) = i := by omega
    have h' : i - 2 < 30 := by omega
    simp [h, this, h']
    omega

/-- R445: a dump's status becomes ready. -/
theorem readyStatus_eq (w : Word) : (w &&& ~~~3#32) ||| 2#32 = w.extractLsb' 2 30 ++ 2#2 := by
  rw [clearStatus_eq]
  apply BitVec.eq_of_getLsbD_eq
  intro i hi
  have mask : ∀ i, i < 32 → (2#32).getLsbD i = if i < 2 then (2#2).getLsbD i else false := by decide
  rw [BitVec.getLsbD_or, mask i hi, BitVec.getLsbD_append, BitVec.getLsbD_append]
  by_cases h : i < 2
  · simp [h]
  · simp [h]

/-- R444: the base of a dump and its onkill bit. -/
theorem dumpBase_eq (x : DWord) : x &&& ~~~0xFFFE#64 = x.extractLsb' 16 48 ++ 0#15 ++ x.extractLsb' 0 1 := by
  apply BitVec.eq_of_getLsbD_eq
  intro i hi
  have mask : ∀ i, i < 64 → (~~~0xFFFE#64).getLsbD i = (decide (16 ≤ i) || decide (i < 1)) := by decide
  rw [BitVec.getLsbD_and, mask i hi, BitVec.getLsbD_append, BitVec.getLsbD_append]
  rcases (by omega : i < 1 ∨ (1 ≤ i ∧ i < 16) ∨ 16 ≤ i) with h | ⟨h1, h2⟩ | h
  · simp [h]
  · have e1 : ¬ i < 1 := by omega
    have e2 : i - 1 < 15 := by omega
    have e3 : ¬ 16 ≤ i := by omega
    simp [e1, e2, e3]
  · have e1 : ¬ i < 1 := by omega
    have e2 : ¬ i - 1 < 15 := by omega
    have e3 : 16 + (i - 1 - 15) = i := by omega
    have e4 : i - 1 - 15 < 48 := by omega
    simp [h, e1, e2, e3, e4]

/-- R436: the check of a matrix word's eight fields. -/
theorem matrixFields (v : Word) : ((List.range 8).all fun k => decide ((v.extractLsb' (3 * k) 3).toNat ≤ 4)) = true ↔
    ∀ k, k < 8 → (v.extractLsb' (3 * k) 3).toNat ≤ 4 := by
  simp only [List.all_eq_true, List.mem_range, decide_eq_true_eq]

theorem resumeReset_none {s : State} {p : Nat} (h : sfind s.host.resetWaits p = none) : resumeReset s p = s := by
  rw [resumeReset, h]

theorem resumeReset_some {s : State} {p : Nat} {trigger : List Byte} (h : sfind s.host.resetWaits p = some trigger) :
    resumeReset s p = resetPartition { s with host := { s.host with resetWaits := sdel s.host.resetWaits p } } p trigger := by
  rw [resumeReset, h]

section

variable {s : State} {p : Nat} (hp : p < 4) (hs : served s = true)
include hp hs

theorem matrixWordWrite_listed {cls : Nat} {v : Word} (hcls : cls < 24) (hok : ∀ k, k < 8 → (v.extractLsb' (3 * k) 3).toNat ≤ 4) :
    exec (.matrixWordWrite p cls v) s = .next (s.setMgmt (0x15000 + 0x100 * p + 4 * cls) (v &&& 0x00FFFFFF)) := by
  show execMatrixWordWrite p cls v s = _
  unfold execMatrixWordWrite
  dsimp only
  rw [(matrixFields v).mpr hok, hs, decide_eq_false (Nat.not_le_of_lt hp), decide_eq_false (Nat.not_le_of_lt hcls)]
  rfl

omit hp hs in
theorem matrixWordWrite_reserved {cls : Nat} {v : Word} (hbad : ∃ k, k < 8 ∧ 4 < (v.extractLsb' (3 * k) 3).toNat) :
    exec (.matrixWordWrite p cls v) s = .next s := by
  obtain ⟨k, hk, hv⟩ := hbad
  have : ((List.range 8).all fun k => decide ((v.extractLsb' (3 * k) 3).toNat ≤ 4)) = false :=
    Bool.eq_false_iff.mpr fun h => Nat.not_le_of_lt hv ((matrixFields v).mp h k hk)
  show execMatrixWordWrite p cls v s = _
  unfold execMatrixWordWrite
  dsimp only
  rw [this, Bool.not_false, Bool.or_true, if_pos rfl]

theorem logHeadWrite_eq (v : Word) :
    exec (.logHeadWrite p v) s = .next ((s.setMgmt (0x15000 + 0x100 * p + 0x88) v).setMgmt (0x15000 + 0x100 * p + 0x90) 0) := by
  show execLogHeadWrite p v s = _
  unfold execLogHeadWrite
  dsimp only
  rw [hs, decide_eq_false (Nat.not_le_of_lt hp)]
  rfl

theorem dumpSizeWrite_eq (x : DWord) : exec (.dumpDescriptorWrite p true x) s =
    .next (resumeReset ((s.setMgmt (0x15000 + 0x100 * p + 0xA8) (x.setWidth 32)).setMgmt (0x15000 + 0x100 * p + 0xB0)
      ((s.mgmt (0x15000 + 0x100 * p + 0xB0)).extractLsb' 2 30 ++ 0#2)) p) := by
  have low : x.halves.1 = x.setWidth 32 := rfl
  show execDumpDescriptorWrite p true x s = _
  unfold execDumpDescriptorWrite
  dsimp only
  rw [hs, decide_eq_false (Nat.not_le_of_lt hp), clearStatus_eq, low]
  rfl

theorem dumpBaseWrite_eq (x : DWord) : exec (.dumpDescriptorWrite p false x) s =
    .next (s.setMgmt64 (0x15000 + 0x100 * p + 0xA0) (x.extractLsb' 16 48 ++ 0#15 ++ x.extractLsb' 0 1)) := by
  show execDumpDescriptorWrite p false x s = _
  unfold execDumpDescriptorWrite
  dsimp only
  rw [hs, decide_eq_false (Nat.not_le_of_lt hp), dumpBase_eq]
  rfl

omit hs in
theorem dumpComplete_eq (hst : (s.mgmt (0x15000 + 0x100 * p + 0xB0)).extractLsb' 0 2 = 1#2) : exec (.dumpComplete p) s =
    .next (resumeReset ((s.setMgmt (0x15000 + 0x100 * p + 0xB0)
      ((s.mgmt (0x15000 + 0x100 * p + 0xB0)).extractLsb' 2 30 ++ 2#2)).send (.dump p)) p) := by
  show execDumpComplete p s = _
  unfold execDumpComplete
  dsimp only
  rw [decide_eq_false (Nat.not_le_of_lt hp), Bool.false_or, decide_eq_false (fun h => h hst), ← readyStatus_eq]
  rfl

end

/-- R439: what a reset that waits makes of the end of a dump. -/
theorem resumed {i : Instr} {s t : State} {p : Nat} {waits : SMap (List Byte)} (h : exec i s = .next (resumeReset t p))
    (hw : t.host.resetWaits = waits) : (sfind waits p = none → exec i s = .next t) ∧ ∀ trigger, sfind waits p = some trigger →
      exec i s = .next (resetPartition { t with host := { t.host with resetWaits := sdel waits p } } p trigger) := by
  subst hw
  rw [h]
  exact ⟨fun h => congrArg _ (resumeReset_none h), fun _ h => congrArg _ (resumeReset_some h)⟩

/-- R436, R439, R441, R444, R445. -/
theorem reliabilityRegisters : Claim.ReliabilityRegisters := by
  intro s p hp b
  refine ⟨fun hs cls v hcls => ⟨fun hok => ?_, matrixWordWrite_reserved⟩, fun hs v => ?_, fun hs x => resumed (dumpSizeWrite_eq hp hs x) rfl,
    fun hs x => ?_, fun hst => resumed (dumpComplete_eq hp hst) rfl⟩
  · refine ⟨_, matrixWordWrite_listed hp hs hcls hok, rfl, rfl, onlyWords_of_setMgmt fun _ => rfl, ?_⟩
    exact (mgmt_setMgmt_same ..).trans (low24_eq v)
  · refine ⟨_, logHeadWrite_eq hp hs v, rfl, rfl, onlyWords_setMgmt_two _ _ _ _ _, ?_, mgmt_setMgmt_same ..⟩
    rw [mgmt_setMgmt, if_neg (by omega), mgmt_setMgmt_same]
  · exact ⟨_, dumpBaseWrite_eq hp hs x, rfl, rfl, onlyWords_setMgmt_two _ _ _ _ _, mgmt64_setMgmt64 ..⟩

/-! ## Writes of management words (R391, R447) -/

/-- R391: the bits of a word of which some may be written. -/
theorem getLsbD_masked (old v w : Word) (j : Nat) (hj : j < 32) :
    ((old &&& ~~~w) ||| (v &&& w)).getLsbD j = if w.getLsbD j then v.getLsbD j else old.getLsbD j := by
  rw [BitVec.getLsbD_or, BitVec.getLsbD_and, BitVec.getLsbD_and, BitVec.getLsbD_not, decide_eq_true hj]
  cases w.getLsbD j
  · simp
  · simp

/-- What sending to another package keeps: memory, the groups and the management words. -/
def Sends (s t : State) : Prop := t.mem = s.mem ∧ t.exe = s.exe ∧ t.host.mgmt = s.host.mgmt

theorem Sends.refl (s : State) : Sends s s := ⟨rfl, rfl, rfl⟩

theorem Sends.trans {s t u : State} (h : Sends s t) (h' : Sends t u) : Sends s u :=
  ⟨h'.1.trans h.1, h'.2.1.trans h.2.1, h'.2.2.trans h.2.2⟩

theorem sends_foldl {β : Type} {f : State → β → State} (hf : ∀ s x, Sends s (f s x)) (l : List β) (s : State) : Sends s (l.foldl f s) :=
  List.foldlRecOn l f (motive := Sends s) (.refl s) fun t ht x _ => ht.trans (hf t x)

theorem sends_sendData (s : State) (c : Nat) (ws : List (Word × Bool)) : Sends s (sendData s c ws) := ⟨rfl, rfl, rfl⟩

theorem sends_sendPacket (s : State) (c : Nat) (p : Packet) : Sends s (sendPacket s c p) := by
  unfold sendPacket flushChord
  dsimp only
  split
  · exact .refl s
  · exact Sends.trans ⟨rfl, rfl, rfl⟩ (sends_foldl (fun t ws => sends_sendData t c ws) _ _)

theorem sends_resendMessages (s : State) (node : Nat) : Sends s (resendMessages s node) :=
  sends_foldl (fun t x => by
    unfold postMessage
    split
    · exact .refl t
    · exact sends_sendPacket ..) _ s

/-- R450: the groups whose records begin are those in the list; each is otherwise as it was. -/
theorem group_traced (l : List Group) (s : State) (k : Nat) :
    (l.foldl (fun s g => s.modGroup g.id fun g => { g with traceCount := 255 }) s).group k =
      if k ∈ l.map (·.id) then (s.group k).map (fun g => { g with traceCount := 255 }) else s.group k := by
  induction l generalizing s with
  | nil => rfl
  | cons g l ih =>
    rw [List.foldl_cons, ih, List.map_cons]
    by_cases hk : k = g.id
    · have first : k ∈ g.id :: l.map (·.id) := hk ▸ List.mem_cons_self
      rw [if_pos first, hk, group_modGroup_same]
      split
      · rw [Option.map_map]
        rfl
      · rfl
    · rw [group_modGroup_other _ _ _ _ hk]
      simp only [List.mem_cons, hk, false_or]

/-- What a map holds under a key is among its entries. -/
theorem mem_of_sfind {α : Type} {m : SMap α} {k : Nat} {x : α} (h : sfind m k = some x) : (k, x) ∈ m := by
  induction m with
  | nil => cases h
  | cons y m ih =>
    unfold sfind at h
    split at h
    · next hk => exact List.mem_cons.mpr (.inl (Prod.ext hk (Option.some.inj h).symm))
    · exact List.mem_cons_of_mem y (ih h)

/-- R450: with trace newly on, each group of the context has a sync record first. -/
theorem group_beginTrace {s : State} {tag k : Nat} {g : Group} (hg : s.group k = some g) (hid : g.id = k)
    (hwg : (s.wg g.wg).any (·.ctx = tag) = true) : (beginTrace s tag).group k = some { g with traceCount := 255 } := by
  have mine : k ∈ (s.groupsOf tag).map (·.id) :=
    List.mem_map.mpr ⟨g, List.mem_filter.mpr ⟨List.mem_map.mpr ⟨(k, g), mem_of_sfind hg, rfl⟩, hwg⟩, hid⟩
  rw [beginTrace, group_traced, if_pos mine, hg]
  rfl

/-- R450: the first records leave memory and what lies outside the groups. -/
theorem beginTrace_rest (s : State) (tag : Nat) : (beginTrace s tag).mem = s.mem ∧ (beginTrace s tag).host = s.host :=
  List.foldlRecOn (s.groupsOf tag) _ (motive := fun t : State => t.mem = s.mem ∧ t.host = s.host) ⟨rfl, rfl⟩ fun _ ht _ _ => ht

/-- R391. -/
theorem managementWritten (s : State) (off : Nat) (v : Word) (hs : served s = true) :
    ∃ t, exec (.managementRegisterWrite off v) s = .next t ∧ t.mem = s.mem ∧ t.exe = s.exe ∧ OnlyWords s t [off] ∧
      ∀ j, j < 32 → (t.mgmt off).getLsbD j = if (writableBits s off).getLsbD j then v.getLsbD j else (s.mgmt off).getLsbD j := by
  show ∃ t, execManagementRegisterWrite off v s = .next t ∧ _
  simp only [execManagementRegisterWrite, hs, Bool.not_true, Bool.false_or, decide_eq_true_eq]
  by_cases hw : writableBits s off = 0
  · refine ⟨s, if_pos hw, rfl, rfl, fun _ _ => rfl, fun j _ => ?_⟩
    rw [hw, show (0 : Word).getLsbD j = false from BitVec.getLsbD_zero]
    rfl
  · rw [if_neg hw]
    have written (t : State) (h : Sends (s.setMgmt off ((s.mgmt off &&& ~~~writableBits s off) ||| (v &&& writableBits s off))) t) :
        t.mem = s.mem ∧ t.exe = s.exe ∧ OnlyWords s t [off] ∧
          ∀ j, j < 32 → (t.mgmt off).getLsbD j = if (writableBits s off).getLsbD j then v.getLsbD j else (s.mgmt off).getLsbD j := by
      obtain ⟨hmem, hexe, hmgmt⟩ := h
      have words (k : Nat) : t.mgmt k = _ := congrArg (sget (mgmtReset k) · k) hmgmt
      refine ⟨hmem, hexe, onlyWords_of_setMgmt words, fun j hj => ?_⟩
      rw [words]
      exact (congrArg (·.getLsbD j) (mgmt_setMgmt_same ..)).trans (getLsbD_masked _ _ _ j hj)
    refine ⟨_, rfl, written _ ?_⟩
    split
    · exact sends_resendMessages ..
    · exact .refl _

/-- R450, R453: what the control word of a debug block begins when trace or sample is newly set. -/
def begun (s : State) (tag : Nat) (trace sample : Bool) : State :=
  let t := if trace then beginTrace s tag else s
  if sample then beginSamples t tag else t

theorem begun_rest (s : State) (tag : Nat) (trace sample : Bool) :
    (begun s tag trace sample).mem = s.mem ∧ (begun s tag trace sample).host.mgmt = s.host.mgmt := by
  obtain ⟨hmem, hhost⟩ : (if trace then beginTrace s tag else s).mem = s.mem ∧ (if trace then beginTrace s tag else s).host = s.host := by
    cases trace
    · exact ⟨rfl, rfl⟩
    · exact beginTrace_rest s tag
  cases sample
  · exact ⟨hmem, congrArg (·.mgmt) hhost⟩
  · exact ⟨hmem, congrArg (·.mgmt) hhost⟩

theorem begun_mgmt (s : State) (tag : Nat) (trace sample : Bool) (k : Nat) : (begun s tag trace sample).mgmt k = s.mgmt k :=
  congrArg (sget (mgmtReset k) · k) (begun_rest s tag trace sample).2

theorem begun_exe (s : State) (tag : Nat) (trace sample : Bool) :
    (begun s tag trace sample).exe = if trace then (beginTrace s tag).exe else s.exe := by
  cases trace <;> cases sample <;> rfl

/-- R447: the new value of a word of a debug block. -/
def debugWord (s : State) (tag off : Nat) (v : Word) : Word :=
  (s.mgmt (debugBlock tag + off) &&& ~~~debugBits off) ||| (v &&& debugBits off)

theorem debugBlockWrite_none {s : State} {tag off : Nat} (v : Word) (hw : debugBits off = 0) : exec (.debugBlockWrite tag off v) s = .next s := by
  show execDebugBlockWrite tag off v s = _
  simp [execDebugBlockWrite, hw]

theorem debugBlockWrite_some {s : State} {tag off : Nat} (v : Word) (hs : served s = true) (hc : (s.ctx tag).isSome = true)
    (hw : debugBits off ≠ 0) : exec (.debugBlockWrite tag off v) s =
      .next (begun (s.setMgmt (debugBlock tag + off) (debugWord s tag off v)) tag
        (off = 0 && !(s.mgmt (debugBlock tag + off)).getLsbD 0 && (debugWord s tag off v).getLsbD 0)
        (off = 0 && !(s.mgmt (debugBlock tag + off)).getLsbD 1 && (debugWord s tag off v).getLsbD 1)) := by
  have live : (s.ctx tag).isNone = false := by
    rw [← Option.not_isSome, hc]
    rfl
  show execDebugBlockWrite tag off v s = _
  simp only [execDebugBlockWrite, hs, live, hw, Bool.not_true, Bool.or_self, decide_false, Bool.false_eq_true, if_false]
  rfl

/-- R447, R450. -/
theorem debugBlockWritten (s : State) (tag off : Nat) (v : Word) (hs : served s = true) (hc : (s.ctx tag).isSome = true) :
    ∃ t, exec (.debugBlockWrite tag off v) s = .next t ∧ t.mem = s.mem ∧ OnlyWords s t [debugBlock tag + off] ∧ (off ≠ 0 → t.exe = s.exe) ∧
      (∀ j, j < 32 → (t.mgmt (debugBlock tag + off)).getLsbD j =
        if (debugBits off).getLsbD j then v.getLsbD j else (s.mgmt (debugBlock tag + off)).getLsbD j) ∧
      (off = 0 → debugBit s tag 0 = false → v.getLsbD 0 = true → ∀ k g, s.group k = some g → g.id = k →
        (s.wg g.wg).any (·.ctx = tag) = true → t.group k = some { g with traceCount := 255 }) := by
  by_cases hw : debugBits off = 0
  · refine ⟨s, debugBlockWrite_none v hw, rfl, fun _ _ => rfl, fun _ => rfl, fun j _ => ?_, ?_⟩
    · rw [hw, show (0 : Word).getLsbD j = false from BitVec.getLsbD_zero]
      rfl
    · rintro rfl
      exact absurd hw (by decide)
  · refine ⟨_, debugBlockWrite_some v hs hc hw, (begun_rest ..).1, onlyWords_of_setMgmt (begun_mgmt _ _ _ _), fun hoff => ?_, fun j hj => ?_, ?_⟩
    · rw [begun_exe, decide_eq_false hoff]
      rfl
    · rw [begun_mgmt, mgmt_setMgmt_same]
      exact getLsbD_masked _ _ _ j hj
    · rintro rfl hclear hset k g hg hid hwg
      have old : (s.mgmt (debugBlock tag + 0)).getLsbD 0 = false := hclear
      have new : (debugWord s tag 0 v).getLsbD 0 = true := (getLsbD_masked _ _ _ 0 (by decide)).trans ((if_pos (by decide)).trans hset)
      rw [old, new]
      show sfind (begun _ tag true _).exe.groups k = _
      rw [begun_exe]
      exact group_beginTrace (s := s.setMgmt (debugBlock tag + 0) (debugWord s tag 0 v)) hg hid hwg

/-- R381, R391, R400, R410 to R412, R427, R441, R447. -/
theorem managementWrites : Claim.ManagementWrites := fun s off v hs =>
  ⟨managementWritten s off v hs, fun tag hctx => debugBlockWritten s tag off v hs hctx⟩

/-- Settles O51: the words of a partition's blocks, the counters of the events that hardware detects, and the writable bits. -/
theorem reliabilityAndRegisters : Obligations.ReliabilityAndRegisters := ⟨reliabilityRegisters, hardwareEvents, managementWrites⟩

end Sys2Proof.Machine
end

section
/-!
SUPPORT. A write to a page whose table entry holds an error that cannot be corrected, in a context that such an error kills (R54, R384,
R389, R437).
-/

namespace Sys2Proof.Machine

open Sys2Proof Sys2Proof.Laws

/-- R383: a page of future cells, present, that may be read and written, with accessed and dirty set. -/
def cellLeaf : DWord := 0xFCC0000000040001

/-- R54, R386, R436: the loaded group, on a core whose TLB serves the page of cells; the word of its entry in near memory has an error
that cannot be corrected since the TLB took it, and the matrix kills the context of such an event. -/
def upsetLeaf : State :=
  let s := (State.reset.withFetchWord 32 0).setMgmt (0x15000 + 4 * 7) 0x006DB6DB
  let m := placeDWord s.mem 0x30000 cellLeaf
  let t : TlbEntry := { core := 0, ctx := 1, level := 0, vpage := 0, entryAddr := 0x30000, entry := cellLeaf, dirty := true }
  upsetWord { s with ctl := { s.ctl with cur := some (2, 0) }, mem := { m with tlb := [t] } } 0x30000 3

/-- What issues there: the path of the loaded group. -/
def upsetHere : Here := upsetLeaf.here.getD ⟨loadGroup, loadWg, 0, { pc := 0, mask := 1, mode := 0x0018 }⟩

theorem upsetHere_issues : upsetLeaf.here = some upsetHere := by decide +kernel

/-- R254, R255: the address that thread 0 names is a cell, and its checks change nothing. -/
theorem upsetHere_address : addrOf upsetHere (rSrc false 2 false 2) false (memOffset 8 0) 0 = .inr 0 ∧
    checkAccess upsetLeaf upsetHere 0 false { write := true, future := true } 8 8 0 = (.loc 0x40000, upsetLeaf) := by decide +kernel

/-- R161: the one thread executes, its operands are full and nothing holds the write back. -/
theorem upsetHere_ready : closedSpan upsetHere ∧ unwatched upsetLeaf upsetHere ∧ execThreads false upsetHere.g upsetHere.p = [(0, none)] ∧
    guardFull upsetHere.g upsetHere.p = true ∧ lineBlocked upsetLeaf upsetHere.g.id 0 0x40000 upsetLeaf.exe.nextId = false ∧
    operandCheck upsetHere [rSrc false 2 false 2] none true = none := by
  unfold closedSpan unwatched
  decide +kernel

theorem upsetLeaf_written : (noteWrite upsetLeaf upsetHere.w.ctx (some upsetHere.w.coreNo) 0 0x40000).isSome = true := by decide +kernel

/-- The group of the path after an FCLR. -/
def afterClear : Option Group :=
  match exec (.fclr false 2 0) upsetLeaf with
  | .next t => t.group upsetHere.g.id
  | _ => none

/-- R437: the update of the leaf finds the error, and its event stops the group with its context. -/
theorem afterClear_stopped : afterClear.all (·.stop = .context) = true ∧ upsetHere.g.stop = .none := by decide +kernel

theorem onlyMonitor_stop {h : Here} {g' : Group} (kept : OnlyMonitor h g') : g'.stop = h.g.stop := by
  unfold OnlyMonitor at kept
  rw [kept]

/-- R284: the path does not merely go on past the FCLR: its group is stopped. -/
theorem not_futureFillsAndClears : ¬ Claim.FutureFillsAndClears := by
  intro claim
  obtain ⟨s2, written⟩ := Option.isSome_iff_exists.mp upsetLeaf_written
  obtain ⟨address, checked⟩ := upsetHere_address
  obtain ⟨closed, unseen, threads, guard, free, operands⟩ := upsetHere_ready
  obtain ⟨stopped, running⟩ := afterClear_stopped
  obtain ⟨-, clears⟩ := claim upsetLeaf s2 upsetHere false 0 2 false 0 0 0 0x40000 0 0 upsetHere_issues closed unseen threads guard address
    checked free written
  obtain ⟨t, g', done, found, -, kept, -⟩ := clears operands
  have after : afterClear = some g' := by
    rw [afterClear, show exec (.fclr false 2 0) upsetLeaf = .next t from done]
    exact found
  have stop : g'.stop = .context := by simpa [after] using stopped
  have same : g'.stop = upsetHere.g.stop := onlyMonitor_stop kept
  rw [stop, running] at same
  cases same

/-- Refutes O25: the write that an FCLR records sets bits of its page's leaf. Where the leaf's word has an error that cannot be
corrected and the severity matrix kills the context for it, the FCLR stops its group, of which the statement lets only the monitor
differ. -/
theorem not_futures : ¬ Obligations.Futures := fun ⟨fills, _⟩ => not_futureFillsAndClears fills

end Sys2Proof.Machine
end

section
/-!
SUPPORT. A held effect that calls itself a store to the scratchpad and names a place in host memory (R58, R63, R367).
-/

namespace Sys2Proof.Machine

open Sys2Proof Sys2Proof.Laws

/-- R57, R380: a held store of a clean word, marked as one to the scratchpad, at the first byte of host memory. -/
def strayStore : Eff :=
  { kind := .store, t := 0, gid := 2, ctx := 1, part := 0, core := 0, ags := [], pc := 0, scratch := true, pa := 0x1000000000000, data := [9]
    owners := 1 }

/-- The loaded group with its span open and the stray store held. -/
def strayHeld : State :=
  let s := State.reset.withFetchWord 32 0
  State.modGroup { s with ctl := { s.ctl with cur := some (2, 0) } } 2 fun g =>
    { g with span := { opened := 1 }, quar := [{ line := none, effs := [strayStore] }] }

/-- What issues there: the path of the loaded group. -/
def strayHere : Here := strayHeld.here.getD ⟨loadGroup, loadWg, 0, { pc := 0, mask := 1, mode := 0x0018 }⟩

theorem strayHere_issues : strayHeld.here = some strayHere ∧ strayHere.p.meld = none ∧ strayHere.p.mask ≠ 0 ∧
    pushesWaiting strayHeld strayHere.w strayHere.g.id (threadsOf strayHere.p.mask) none = false ∧ strayHere.g.span.holds = [] ∧
    strayHere.p.mask &&& strayHere.g.span.opened ≠ 0 := by decide +kernel

/-- R57: it is a clean store to no sync word, by all that the statement asks of it. -/
theorem strayHere_clean : ∀ e ∈ heldFor strayHere (strayHere.p.mask &&& strayHere.g.span.opened), heldClean strayHere e := by
  unfold heldClean
  decide +kernel

/-- What the machine has sent to the outside after COMMIT.DROP. -/
def sentByCommit : List Out :=
  match exec (.commit 2 0) strayHeld with
  | .next t => t.host.out
  | _ => []

/-- R367: the store is performed at its home, and its half goes to the host. -/
theorem sentByCommit_length : sentByCommit.length = 1 ∧ strayHeld.host.out = [] := by decide +kernel

/-- R61, R63: the COMMIT sends something to the outside, so that not only the group and memory change. -/
theorem not_commitReleases : ¬ Claim.CommitReleases := by
  intro claim
  obtain ⟨issues, unmelded, threads, pushed, unheld, opened⟩ := strayHere_issues
  obtain ⟨one, empty⟩ := sentByCommit_length
  obtain ⟨t, _, done, host, -⟩ := claim strayHeld strayHere 2 0 issues unmelded threads pushed unheld opened (.inl rfl) strayHere_clean
  have sent : sentByCommit = strayHeld.host.out := by
    rw [sentByCommit, show exec (.commit 2 0) strayHeld = .next t from done]
    exact congrArg (·.out) host
  rw [sent, empty] at one
  cases one

/-- Refutes O12: what the statement asks of a held store to the scratchpad leaves its place open. One whose place is in host memory is
performed there by COMMIT.DROP, and its half is written to the host, of which the statement says that nothing changes. -/
theorem not_spansOpenAndClose : ¬ Obligations.SpansOpenAndClose := fun ⟨_, _, releases, _⟩ => not_commitReleases releases

end Sys2Proof.Machine
end

section
/-!
SUPPORT. An atomic on a page whose table entry holds an error that cannot be corrected, in a context that such an error kills (R54,
R83, R384, R389, R437).
-/

namespace Sys2Proof.Machine

open Sys2Proof Sys2Proof.Laws

/-- R383: a page in near memory at 0x40000, present, that may be read and written, with accessed and dirty set. -/
def wordLeaf : DWord := 0xF8C0000000040001

/-- R54, R386, R436: the loaded group, on a core whose TLB serves the page; the word of its entry in near memory has an error that
cannot be corrected since the TLB took it, and the matrix kills the context of such an event. -/
def tornLeaf : State :=
  let s := (State.reset.withFetchWord 32 0).setMgmt (0x15000 + 4 * 7) 0x006DB6DB
  let m := placeDWord s.mem 0x30000 wordLeaf
  let t : TlbEntry := { core := 0, ctx := 1, level := 0, vpage := 0, entryAddr := 0x30000, entry := wordLeaf, dirty := true }
  upsetWord { s with ctl := { s.ctl with cur := some (2, 0) }, mem := { m with tlb := [t] } } 0x30000 3

/-- What issues there: the path of the loaded group. -/
def tornHere : Here := tornLeaf.here.getD ⟨loadGroup, loadWg, 0, { pc := 0, mask := 1, mode := 0x0018 }⟩

theorem tornHere_issues : tornLeaf.here = some tornHere := by decide +kernel

/-- R161: one thread executes, its guard and operands are full, and nothing watches or logs it or holds its write back. -/
theorem tornHere_ready : closedSpan tornHere ∧ unwatched tornLeaf tornHere ∧ vecThreads tornHere.g tornHere.p = [(0, none)] ∧
    guardFull tornHere.g tornHere.p = true ∧
    operandCheck tornHere [⟨.v, 2, false, 2⟩, ⟨.v, 8, false, 1⟩] none true = none ∧ logging tornLeaf tornHere.w.ctx = false ∧
    lineBlocked tornLeaf tornHere.g.id 0 0x40000 tornLeaf.exe.nextId = false := by
  unfold closedSpan unwatched
  decide +kernel

/-- R254, R255: the address that thread 0 names lies in the page, its data is clean, and the checks change nothing. -/
theorem tornHere_address : addrOf tornHere ⟨.v, 2, false, 2⟩ false (memOffset 4 0) 0 = .inr 0 ∧
    readSrc tornHere.g tornHere.p ⟨.v, 8, false, 1⟩ 0 = .words [0] ∧
    checkAccess tornLeaf tornHere 0 false { write := true } 4 4 0 = (.loc 0x40000, tornLeaf) := by decide +kernel

/-- R54, R389: the write is recorded, and its own word is near memory without an error or a mark. -/
theorem tornLeaf_written : (noteWrite tornLeaf tornHere.w.ctx (some tornHere.w.coreNo) 0 0x40000).any (fun s2 =>
    eccBad s2 0x40000 = false ∧ wordPoi s2.mem 0x40000 = false ∧ regionOf 0x40000 ≠ .host) = true := by decide +kernel

/-- The group of the path after an AADD that returns nothing. -/
def afterTornAdd : Option Group :=
  match exec (.aadd 8 false 2 false false 0) tornLeaf with
  | .next t => t.group tornHere.g.id
  | _ => none

/-- R437: the update of the leaf finds the error, and its event stops the group with its context. -/
theorem afterTornAdd_stopped : afterTornAdd.all (·.stop = .context) = true ∧ tornHere.g.stop = .none := by decide +kernel

/-- Refutes O23: the write that an atomic records sets bits of its page's leaf. Where the leaf's word has an error that cannot be
corrected and the severity matrix kills the context for it, an atomic that returns nothing stops its group, of which the statement lets
only the monitor differ. -/
theorem not_atomicUpdates : ¬ Obligations.AtomicUpdates := by
  intro claim
  obtain ⟨s2, written, clean⟩ := (Option.any_eq_true _ _).mp tornLeaf_written
  obtain ⟨sound, unmarked, near⟩ := of_decide_eq_true clean
  obtain ⟨address, data, checked⟩ := tornHere_address
  obtain ⟨closed, unseen, threads, guard, operands, unlogged, free⟩ := tornHere_ready
  obtain ⟨stopped, running⟩ := afterTornAdd_stopped
  obtain ⟨t, g', done, -, found, -, -, kept, -⟩ := claim (.aadd 8 false 2 false false 0) tornLeaf s2 tornHere 0 8 false 2 false false 0 0 0
    0x40000 [0] tornHere_issues rfl closed unseen (by simp) threads guard operands unlogged rfl (by simp) address data checked free written
    (fun j hj => by obtain rfl : j = 0 := by simpa using hj
                    exact ⟨sound, unmarked, near⟩)
  have after : afterTornAdd = some g' := by
    rw [afterTornAdd, show exec (.aadd 8 false 2 false false 0) tornLeaf = .next t from done]
    exact found
  have stop : g'.stop = .context := by simpa [after] using stopped
  have same : g'.stop = tornHere.g.stop := onlyMonitor_stop (kept rfl)
  rw [stop, running] at same
  cases same

end Sys2Proof.Machine
end

section
/-!
SUPPORT. An engine's write to a page of a context whose dirty map holds an error that cannot be corrected, on a partition that such an
error resets (R54, R276, R384, R391, R437).
-/

namespace Sys2Proof.Machine

open Sys2Proof Sys2Proof.Laws

/-- R276: a FILL of two words of memory, from address 128 on. -/
def flatFill : EngOp :=
  { id := 5, gid := 2, wg := 1, ctx := 1, launch := 1, q := 0, words := [0x20000000, 7, 0, 128, 0, 8, 0], pc := 0, base := loadWg.scratchBase
    scratch := 4096, quad := 0, core := 0, part := 0, priv := true, rid := 0, count := 0 }

/-- R391, R436: the loaded machine with the FILL forked. Its context keeps a dirty map at 0x60000 in near memory, the first word of
which has an error that cannot be corrected, and the matrix resets the partition for one. -/
def tornMap : State :=
  let s := Tests.addressed Tests.plainPage
  let s := (s.setMgmt (0x15000 + 4 * 7) 0x800).setMgmt64 (0x4000 + 32 * 1 + 0x10) 0x60001
  upsetWord { s with exe := { s.exe with engOps := [(5, flatFill)], nextId := 6 } } 0x60000 3

/-- The state in which the device has noted the write of the first word. -/
def tornMapNoted : State := (noteWrite tornMap 1 none 128 0x40080).getD tornMap

/-- R279: the FILL has a word to write, and a place for it. -/
theorem flatFill_ready : MayMove tornMap 5 flatFill 0 2 ∧ engLook tornMap flatFill false { write := true } 4 128 128 = (.loc 0x40080, tornMap) ∧
    engBlocked tornMap flatFill false 0x40080 = false ∧ noteWrite tornMap 1 none 128 0x40080 = some tornMapNoted := by
  unfold MayMove
  decide +kernel

/-- R437: the FILL, after the event that moves its first word. -/
def fillAfterMove : Option EngOp :=
  match exec (.fill 5 1) tornMap with
  | .next t => getOp t 5
  | _ => none

theorem fillAfterMove_gone : fillAfterMove = none := by decide +kernel

/-- R279: where the word lands. -/
theorem flatFill_lands : LandsAt tornMap 5 false 4 128 128 0x40080 tornMapNoted := by
  obtain ⟨⟨found, -⟩, looked, free, noted⟩ := flatFill_ready
  exact ⟨flatFill, found, looked, free, by simp, noted⟩

/-- R276, R437: the event that moves the word ends the FILL with its context. -/
theorem not_copyAndFill : ¬ Claim.CopyAndFill := by
  intro claim
  obtain ⟨moves, -⟩ := flatFill_ready
  obtain ⟨-, fills⟩ := claim tornMap tornMap tornMapNoted 5 flatFill 0x40080 7 flatFill_lands
  obtain ⟨t, o', done, found, -⟩ := fills moves rfl rfl
  have after : fillAfterMove = some o' := by
    rw [fillAfterMove, show exec (.fill 5 1) tornMap = .next t from done]
    exact found
  rw [fillAfterMove_gone] at after
  cases after

/-- Refutes O37: the device notes the write of an engine in the dirty map of the context. Where the map's word has an error that cannot
be corrected and the severity matrix resets the partition for it, the operation ends with its context, and no operation is left that
has moved a word. -/
theorem not_engineEvents : ¬ Obligations.EngineEvents := fun ⟨⟨_, copies, _⟩, _⟩ => not_copyAndFill copies

end Sys2Proof.Machine
end

section
/-!
SUPPORT. Words that wait and pauses: MONITOR and MWAIT (R206, R207), AWAIT at named sync words (R81, R208), YIELD and PAUSE (R209,
R210).
-/

namespace Sys2Proof.Machine

open Sys2Proof Sys2Proof.Laws

/-! ## Words that retire after a change of their group -/

/-- R446: a word that retires after a change of its own group. -/
theorem sets_of_retire {i : Instr} {s : State} {h : Here} (hh : s.here = some h) (f : Group → Group) (hid : (f h.g).id = h.g.id)
    (hp : (f h.g).paths = h.g.paths) (hr : (f h.g).retired = h.g.retired) (he : exec i s = .next (retire (s.modGroup h.g.id f) h)) :
    Sets i s h f := by
  obtain ⟨-, -, -, -, listed⟩ := here_eq s h hh
  exact ⟨_, ⟨_, by rw [he, retire, retireAt_modGroup s h hh f hid], onlyGroup_setGroup _ _⟩, wentOn_goneOn listed hp hr _, rfl⟩

/-- R446: a word that only retires. -/
theorem sets_of_retire_only {i : Instr} {s : State} {h : Here} (hh : s.here = some h) (he : exec i s = .next (retire s h)) :
    Sets i s h id := by
  obtain ⟨-, -, -, -, listed⟩ := here_eq s h hh
  exact ⟨_, ⟨_, by rw [he, retire, retireAt_eq s h hh], onlyGroup_setGroup _ _⟩, wentOn_goneOn listed rfl rfl _, rfl⟩

/-! ## MONITOR and MWAIT (R206, R207) -/

theorem exec_mwait {s : State} {h : Here} (hh : s.here = some h) :
    exec .mwait s = .next (if h.g.mon.armed && !h.g.mon.flag then stallParked s h else retire s h) := issuing_eq s h _ hh

/-- R161: a source that reads as words is full. -/
theorem srcReady_of_words {g : Group} {p : Path} {x : Src} {t : Nat} {ws : List Word} (hw : readSrc g p x t = .words ws) :
    srcReady g p x [t] = true := by
  have full : srcFull g p x t = true := by
    by_contra hn
    rw [readSrc, ← srcFull, if_neg hn] at hw
    cases hw
  simp [srcReady, full]

/-- R206: a MONITOR whose lowest executing thread names an address. -/
theorem exec_monitor {s : State} {h : Here} {ea m : Bool} {a : BitVec 7} {t0 : Nat} {ws : List Word} (hh : s.here = some h)
    (guard : guardFull h.g h.p = true) (lowest : (vecThreads h.g h.p).head? = some (t0, none))
    (checked : operandCheck h [⟨.v, a.toNat, ea, if m then 1 else 2⟩] none true = none)
    (read : readSrc h.g h.p ⟨.v, a.toNat, ea, if m then 1 else 2⟩ t0 = .words ws) :
    exec (.monitor ea a m) s =
      .next (retire ((monitorAt s h m ws).2.modGroup h.g.id fun g => { g with mon := (monitorAt s h m ws).1.getD {} }) h) := by
  refine (issuing_eq s h _ hh).trans ?_
  simp only [checked, guard, lowest, srcReady_of_words read, read, Bool.not_true, Bool.false_eq_true, if_false]

/-- R206: a scratchpad offset below the size of the scratchpad names a line, another disarms. -/
theorem monitorAt_scratch (s : State) (h : Here) (x : Word) : monitorAt s h true [x] =
    (if x.toNat < h.w.scratch then some { armed := true, scratch := true, line := (h.w.scratchBase + x.toNat) / 128 } else none, s) := by
  by_cases hx : x.toNat < h.w.scratch
  · simp [monitorAt, hx, lineOf]
  · simp [monitorAt, hx]

/-- R206: a MONITOR of a flat address leaves what the checks of the address leave. -/
theorem monitorAt_flat {s s1 : State} {h : Here} {x y : Word} {c : Checked}
    (checked : checkFlat s h.w.ctx (some h.w.coreNo) (privileged s h.w) {} (DWord.ofHalves x y) = (c, s1)) :
    (monitorAt s h false [x, y]).2 = s1 ∧ (∀ pa, c = .loc pa false → (monitorAt s h false [x, y]).1 = some { armed := true, line := pa / 128 }) ∧
      (∀ k o, c = .fail k o → (monitorAt s h false [x, y]).1 = none) ∧
      (∀ ch n pa, c = .remote ch n pa false → ∃ line, (monitorAt s h false [x, y]).1 = some { armed := true, line := line }) := by
  have found : checkFlat s h.w.ctx (some h.w.coreNo) ((s.launch h.w.launch).any (·.priv)) {} (pairOf [x, y]) = (c, s1) := checked
  simp only [monitorAt, Bool.false_eq_true, if_false, found]
  cases c with
  | loc pa poa => cases poa <;> simp [lineOf]
  | remote ch n pa poa => cases poa <;> simp
  | fail k o => simp

/-- R206, R207. -/
theorem monitorAndWait : Claim.MonitorAndWait := by
  intro s h hh
  refine ⟨fun armed unflagged unparked => parks_of_parkAs hh unparked ?_, fun ready => sets_of_retire_only hh ?_, ?_, ?_⟩
  · rw [exec_mwait hh, armed, unflagged]
    rfl
  · rw [exec_mwait hh, if_neg (by obtain unarmed | flagged := ready <;> simp [*])]
  · intro ea a t0 x guard lowest checked read
    refine sets_of_retire hh _ rfl rfl rfl ?_
    rw [exec_monitor hh guard lowest (m := true) checked read, monitorAt_scratch]
    by_cases hx : x.toNat < h.w.scratch <;> simp [hx]
  · intro ea a t0 x y c s1 guard lowest checked read found kept
    obtain ⟨-, -, -, -, listed⟩ := here_eq s h hh
    obtain ⟨after, near, failed, far⟩ := monitorAt_flat found
    refine ⟨_, _, exec_monitor hh guard lowest (m := false) checked read, ?_, ?_, group_retire (g := { h.g with mon := (monitorAt s h false [x, y]).1.getD {} }) (by rw [group_modGroup_same, after, kept]; rfl),
      wentOn_goneOn listed rfl rfl _, rfl, fun pa hc => ?_, fun k o hc => ?_, fun ch n pa hc => ?_⟩
    · rw [after]
      rfl
    · rw [after]
      rfl
    · simp [Group.goneOn, near pa hc]
    · simp [Group.goneOn, failed k o hc]
    · obtain ⟨line, armed⟩ := far ch n pa hc
      simp [Group.goneOn, armed]

/-! ## AWAIT (R81, R208) -/

/-- R87: of two states only what the agents have seen of memory differs. -/
def SeesMore (s t : State) : Prop := t = s.withMem { s.mem with views := t.mem.views }

theorem SeesMore.trans {s t u : State} (h : SeesMore s t) (k : SeesMore t u) : SeesMore s u := by
  unfold SeesMore at *
  rw [k, h]
  rfl

theorem seesMore_foldl {α : Type} {f : State → α → State} (l : List α) (hf : ∀ s, ∀ x ∈ l, SeesMore s (f s x)) (s : State) :
    SeesMore s (l.foldl f s) := by
  induction l generalizing s with
  | nil => rfl
  | cons x l ih => exact (hf s x List.mem_cons_self).trans (ih (fun s y hy => hf s y (List.mem_cons_of_mem _ hy)) _)

theorem views_raiseFloors (f : MemSys → Nat → SMap Nat) (l : List Nat) (m : MemSys) :
    l.foldl (fun m g => raiseFloors m g (f m g)) m = { m with views := (l.foldl (fun m g => raiseFloors m g (f m g)) m).views } := by
  induction l generalizing m with
  | nil => rfl
  | cons g l ih => rw [List.foldl_cons, ih]; rfl

theorem seesMore_joinSync (s : State) (w : WG) (ags : List Nat) (off : Nat) (lo hi : Word) : SeesMore s (joinSync s w ags off lo hi) :=
  seesMore_foldl _ (fun s c _ => congrArg s.withMem (views_raiseFloors (fun m _ => floorsOf m c.2.2.2) ags s.mem)) s

theorem seesMore_sawGen (s : State) (w : WG) (agent off : Nat) : SeesMore s (sawGen s w agent off) := by
  unfold sawGen
  dsimp only
  split
  · split <;> rfl
  · rfl

/-- R87: what agents have seen is no part of the groups, the workgroups or the path that issues. -/
theorem SeesMore.here {s t : State} {h : Here} (k : SeesMore s t) (hh : s.here = some h) : t.here = some h := by
  rw [SeesMore] at k
  rw [k]
  exact hh

/-- R80: an offset that is named already stays as it is. -/
theorem nameSync_named {s : State} {wg off : Nat} {w : WG} (hw : s.wg wg = some w) (named : w.syncs.contains off = true) :
    nameSync s wg off = s := by
  simp only [nameSync, hw, named, if_true]

theorem replayedValue_unlogged {s : State} {h : Here} {t : Nat} (hl : logging s h.w.ctx = false) : replayedValue s h t = none := by
  unfold replayedValue
  unfold logging at hl
  cases hc : s.ctx h.w.ctx with
  | none => rfl
  | some c =>
    obtain ⟨-, idle⟩ : c.rep.interval = false ∧ c.rep.status ≠ 1 := by simpa [hc] using hl
    simp [idle]

theorem throughLog_unlogged {s : State} {r : Receiver} (hl : logging s r.tag = false) (foreign : Bool) (n : Nat) (f : Fresh)
    (x : Sum Fresh (List Word)) : throughLog s r foreign n f x = some (x, s) := by
  simp [throughLog, receive_unlogged hl]

/-- R208: the generation of a sync word. -/
def genAt (s : State) (h : Here) (off : Word) : Word := memWord s.mem (h.w.scratchBase + off.toNat + 8)

/-- R208: a thread names a sync word of its workgroup, the gen of which reads clean. -/
def NamesSync (s : State) (h : Here) (off : Word) : Prop :=
  off.toNat % 16 = 0 ∧ off.toNat + 16 ≤ h.w.scratch ∧ h.w.syncs.contains off.toNat = true ∧
    wordPoi s.mem (h.w.scratchBase + off.toNat + 8) = false

/-- R208: what AWAIT finds for a thread that names such a word. -/
theorem awaitThread_named {s : State} {h : Here} {t : Nat} {a b : Word} (hl : logging s h.w.ctx = false) (hn : NamesSync s h a) :
    awaitThread s h t a b =
      if genReached (genAt s h a) b then .done (.bool true) (some (a.toNat, b, .inr (genAt s h a))) else .waits := by
  obtain ⟨aligned, inside, -, clean⟩ := hn
  simp only [awaitThread, aligned, ne_eq, not_true, if_false, Nat.not_lt.mpr inside, replayedValue_unlogged hl, latestWord, clean,
    Bool.false_eq_true]
  rfl

/-- R81: a generation has reached another when it is less than half of the numbers ahead of it. -/
theorem genReached_iff (gen b : Word) : genReached gen b = true ↔ (gen - b).toNat < 2 ^ 31 := by
  have low := (gen - b).isLt
  simp only [genReached, Bool.not_eq_true', BitVec.getLsbD, Nat.testBit_eq_decide_div_mod_eq, decide_eq_false_iff_not]
  omega

/-- R208: what AWAIT finds for a thread, by the offset and the generation that it names. -/
def awaitLook (s : State) (h : Here) (x y : Nat → Word) (t : Nat × Option Token) : Awaited :=
  match t.2 with
  | some k => .done (.tok k) none
  | none =>
    if genReached (genAt s h (x t.1)) (y t.1) then .done (.bool true) (some ((x t.1).toNat, y t.1, .inr (genAt s h (x t.1)))) else .waits

/-- R80, R208: an AWAIT names the sync words of its threads. -/
def awaitNaming (s : State) (h : Here) (srcs : List Src) : State :=
  (vecThreads h.g h.p).foldl (fun s t => match t.2, gather h.g h.p t.1 srcs with
    | none, .inr vs => if syncAt h.w (arg vs 0).toNat then nameSync s h.w.id (arg vs 0).toNat else s
    | _, _ => s) s

/-- R49, R208: what an AWAIT finds for a thread. -/
def awaitFinds (s : State) (h : Here) (srcs : List Src) (t : Nat × Option Token) : Awaited :=
  match t.2 with
  | some k => .done (.tok k) none
  | none => match gather h.g h.p t.1 srcs with
    | .inl o => .done o none
    | .inr vs => awaitThread s h t.1 (arg vs 0) (arg vs 1)

/-- R208: what a thread receives, that waits for nothing. -/
def Awaited.out : Awaited → ThreadOut
  | .done o _ => o
  | .waits => .keep

/-- R87, R208: the gen that a thread has read. -/
def Awaited.saw (t : Nat) : Awaited → Option (Nat × Nat × Word × Sum Fresh Word)
  | .done _ (some o) => some (t, o)
  | _ => none

/-- R459: what the threads have read passes through the log of record mode. -/
def awaitLogged (s : State) (h : Here) (seen : List (Nat × Nat × Word × Sum Fresh Word)) : Option State :=
  seen.foldl (fun (acc : Option State) x => acc.bind fun s =>
    (throughLog s (h.receives s 2 x.1) true 1 { t := x.1, cause := 0 } (x.2.2.2.map id fun v => [v])).map (·.2)) (some s)

/-- R81, R103: a thread joins the operations that contributed to what it has read. -/
def awaitJoin (h : Here) (s : State) (x : Nat × Nat × Word × Sum Fresh Word) : State :=
  match x.2.2.2 with
  | .inr v => joinSync s h.w [agentOf h.g.id x.1] x.2.1 x.2.2.1 v
  | .inl _ => s

/-- R81, R87: the threads have read what they have. -/
def awaitSeen (s : State) (h : Here) (seen : List (Nat × Nat × Word × Sum Fresh Word)) : State :=
  seen.foldl (fun s x => sawGen (awaitJoin h s x) h.w (agentOf h.g.id x.1) x.2.1) s

/-- R208: the end of an AWAIT that finds `all` for its threads. -/
def awaitEnd (s : State) (h : Here) (dst : Dst) (srcs : List Src) (all : List (Nat × Awaited)) : Result :=
  if all.any (·.2 = .waits) then .next (stallParked s h)
  else match awaitLogged s h (all.filterMap fun x => x.2.saw x.1) with
    | none => .next (waitForLog s h)
    | some u =>
      let (outs, u) := settle (awaitSeen u h (all.filterMap fun x => x.2.saw x.1)) h (all.map fun x => (x.1, x.2.out))
        (((vecThreads h.g h.p).filter (·.2.isNone)).flatMap fun t => lateReads h.g h.p t.1 srcs)
      .next (retire (writeAll u h dst outs) h)

theorem exec_await {s : State} {h : Here} {p : BitVec 3} {ea eb : Bool} {a b : BitVec 7} (hh : s.here = some h)
    (checked : operandCheck h [vSrc a ea, vSrc b eb] (some ⟨.p, p.toNat, 1⟩) true = none)
    (ready : operandsReady h (vecThreads h.g h.p) [vSrc a ea, vSrc b eb] (some ⟨.p, p.toNat, 1⟩) = true) :
    exec (.await p ea a eb b) s = awaitEnd (awaitNaming s h [vSrc a ea, vSrc b eb]) h ⟨.p, p.toNat, 1⟩ [vSrc a ea, vSrc b eb]
      ((vecThreads h.g h.p).map fun t => (t.1, awaitFinds (awaitNaming s h [vSrc a ea, vSrc b eb]) h [vSrc a ea, vSrc b eb] t)) := by
  refine (issuing_eq s h _ hh).trans ?_
  simp only [checked, ready, Bool.not_true, Bool.false_eq_true, if_false]
  rfl

/-- R459: outside record mode what the threads read passes as it is. -/
theorem awaitLogged_unlogged {s : State} {h : Here} (hl : logging s h.w.ctx = false) (seen : List (Nat × Nat × Word × Sum Fresh Word)) :
    awaitLogged s h seen = some s := by
  induction seen with
  | nil => rfl
  | cons x seen ih => rwa [awaitLogged, List.foldl_cons, Option.bind_some, throughLog_unlogged hl]

theorem seesMore_awaitSeen (s : State) (h : Here) (seen : List (Nat × Nat × Word × Sum Fresh Word)) : SeesMore s (awaitSeen s h seen) := by
  refine seesMore_foldl _ (fun u x _ => ?_) s
  have joined : SeesMore u (awaitJoin h u x) := by
    unfold awaitJoin
    split
    · exact seesMore_joinSync ..
    · rfl
  exact joined.trans (seesMore_sawGen ..)

section

variable {s : State} {h : Here} {p : BitVec 3} {ea eb : Bool} {a b : BitVec 7} {x y : Nat → Word} (hh : s.here = some h)
  (checked : operandCheck h [vSrc a ea, vSrc b eb] (some ⟨.p, p.toNat, 1⟩) true = none)
  (ready : operandsReady h (vecThreads h.g h.p) [vSrc a ea, vSrc b eb] (some ⟨.p, p.toNat, 1⟩) = true)
  (unlogged : logging s h.w.ctx = false)
  (reads : ∀ t ∈ vecThreads h.g h.p, t.2 = none →
    readSrc h.g h.p (vSrc a ea) t.1 = .words [x t.1] ∧ readSrc h.g h.p (vSrc b eb) t.1 = .words [y t.1])
  (names : ∀ t ∈ vecThreads h.g h.p, t.2 = none → NamesSync s h (x t.1))

include reads in
theorem gather_await (t : Nat × Option Token) (ht : t ∈ vecThreads h.g h.p) (hn : t.2 = none) :
    gather h.g h.p t.1 [vSrc a ea, vSrc b eb] = .inr [[x t.1], [y t.1]] := by
  obtain ⟨first, second⟩ := reads t ht hn
  simp [gather, first, second]

include hh reads names in
/-- R80: the words that the threads name are named already. -/
theorem awaitNaming_named : awaitNaming s h [vSrc a ea, vSrc b eb] = s := by
  obtain ⟨-, -, own, id, -⟩ := here_eq s h hh
  refine List.foldlRecOn _ _ (motive := fun u => u = s) rfl fun u hu t ht => ?_
  subst hu
  obtain ⟨t, _ | tok⟩ := t
  · obtain ⟨-, -, named, -⟩ := names _ ht rfl
    simp only [gather_await reads _ ht rfl]
    split
    · exact nameSync_named (id ▸ own) named
    · rfl
  · rfl

include unlogged reads names in
theorem awaitFinds_named (t : Nat × Option Token) (ht : t ∈ vecThreads h.g h.p) :
    awaitFinds s h [vSrc a ea, vSrc b eb] t = awaitLook s h x y t := by
  obtain ⟨t, _ | tok⟩ := t
  · simp only [awaitFinds, gather_await reads _ ht rfl]
    exact awaitThread_named unlogged (names _ ht rfl)
  · rfl

include hh checked ready unlogged reads names in
theorem exec_await_named : exec (.await p ea a eb b) s =
    awaitEnd s h ⟨.p, p.toNat, 1⟩ [vSrc a ea, vSrc b eb] ((vecThreads h.g h.p).map fun t => (t.1, awaitLook s h x y t)) := by
  rw [exec_await hh checked ready, awaitNaming_named hh reads names,
    List.map_congr_left fun t ht => congrArg (Prod.mk t.1) (awaitFinds_named unlogged reads names t ht)]

include hh checked ready unlogged reads names in
/-- R208: while a generation has not reached its operand, the AWAIT waits. -/
theorem exec_await_waits {t : Nat × Option Token} (ht : t ∈ vecThreads h.g h.p) (waits : awaitLook s h x y t = .waits) :
    exec (.await p ea a eb b) s = .next (stallParked s h) := by
  rw [exec_await_named hh checked ready unlogged reads names, awaitEnd, if_pos]
  exact List.any_eq_true.mpr ⟨_, List.mem_map.mpr ⟨t, ht, rfl⟩, by simp [waits]⟩

/-- R208: what AWAIT finds for a thread whose generation has reached its operand. -/
theorem awaitLook_reached {t : Nat × Option Token} (reached : t.2 = none → genReached (genAt s h (x t.1)) (y t.1) = true) :
    ∃ o, awaitLook s h x y t = .done (toOut (guarded t (.inr (.bool true)))) o := by
  obtain ⟨t, _ | tok⟩ := t
  · exact ⟨_, by rw [awaitLook, if_pos (reached rfl)]; rfl⟩
  · exact ⟨_, rfl⟩

include reads in
theorem lateReads_await : ((vecThreads h.g h.p).filter (·.2.isNone)).flatMap (fun t => lateReads h.g h.p t.1 [vSrc a ea, vSrc b eb]) = [] := by
  refine List.flatMap_eq_nil_iff.mpr fun t ht => ?_
  obtain ⟨ht, hn⟩ := List.mem_filter.mp ht
  obtain ⟨first, second⟩ := reads t ht (by simpa using hn)
  simp [lateReads, first, second]

include hh checked ready unlogged reads names in
/-- R208: an AWAIT that waits for nothing writes its results and retires. -/
theorem exec_await_done (reached : ∀ t ∈ vecThreads h.g h.p, t.2 = none → genReached (genAt s h (x t.1)) (y t.1) = true) :
    ∃ u, SeesMore s u ∧ exec (.await p ea a eb b) s = .next (retire (writeAll u h ⟨.p, p.toNat, 1⟩
      ((vecThreads h.g h.p).map fun t => (t.1, toOut (guarded t (.inr (.bool true)))))) h) := by
  have looks := fun t ht => awaitLook_reached (s := s) (h := h) (x := x) (y := y) (t := t) (reached t ht)
  have unwaiting : ¬ ((vecThreads h.g h.p).map fun t => (t.1, awaitLook s h x y t)).any (·.2 = .waits) = true := by
    simp only [List.any_eq_true, List.mem_map, decide_eq_true_eq, not_exists, not_and]
    rintro _ ⟨t, ht, rfl⟩
    obtain ⟨o, look⟩ := looks t ht
    simp [look]
  have outs : ((vecThreads h.g h.p).map fun t => (t.1, awaitLook s h x y t)).map (fun x => (x.1, x.2.out)) =
      (vecThreads h.g h.p).map fun t => (t.1, toOut (guarded t (.inr (.bool true)))) := by
    rw [List.map_map]
    refine List.map_congr_left fun t ht => congrArg (Prod.mk t.1) ?_
    obtain ⟨o, look⟩ := looks t ht
    simp only [look, Awaited.out]
  refine ⟨_, seesMore_awaitSeen s h (((vecThreads h.g h.p).map fun t => (t.1, awaitLook s h x y t)).filterMap fun x => x.2.saw x.1), ?_⟩
  rw [exec_await_named hh checked ready unlogged reads names, awaitEnd, if_neg unwaiting, awaitLogged_unlogged unlogged, outs,
    lateReads_await reads]
  dsimp only
  rw [settle_noFresh _ _ _ (noFresh_toOut _ Prod.fst fun t => guarded t (.inr (.bool true)))]

end

/-- R446: a word that writes registers and retires, after agents have seen more of memory. -/
theorem done_of_writeAll {i : Instr} {s u : State} {h : Here} {d : Dst} {outs : List (Nat × ThreadOut)} (hh : s.here = some h)
    (seen : SeesMore s u) (he : exec i s = .next (retire (writeAll u h d outs) h)) :
    ∃ t g', Done i s h t g' ∧ OnlyRegisters h.g g' ∧
      g' = (outs.foldl (fun g o => writeOut h.p d g o.1 o.2) h.g).goneOn h.pid (nextPc h.p.pc) := by
  obtain ⟨-, -, -, -, listed⟩ := here_eq s h hh
  have written := sameButRegs_writes h.p d outs h.g
  rw [retire_writeAll u h (seen.here hh)] at he
  rw [SeesMore] at seen
  refine ⟨_, _, ⟨he, fun b => ?_, ?_, ?_, wentOn_goneOn listed (by rw [written]) (by rw [written]) _⟩, ?_, rfl⟩
  · rw [seen]
    rfl
  · rw [seen]
    rfl
  · rw [group_setGroup, if_pos (by rw [written]; rfl)]
  · unfold OnlyRegisters
    rw [written]
    rfl

/-- R81, R208. -/
theorem awaitGeneration : Claim.AwaitGeneration := by
  intro s h p ea eb a b x y hh checked ready unlogged operands
  have reads := fun t ht hn => (show _ ∧ _ from ⟨(operands t ht hn).1, (operands t ht hn).2.1⟩)
  have names : ∀ t ∈ vecThreads h.g h.p, t.2 = none → NamesSync s h (x t.1) := fun t ht hn => (operands t ht hn).2.2
  refine ⟨fun reached => ?_, fun ⟨t, ht, hn, behind⟩ unparked => parks_of_parkAs hh unparked ?_⟩
  · obtain ⟨u, seen, done⟩ := exec_await_done hh checked ready unlogged reads names fun t ht hn => (genReached_iff _ _).mpr (reached t ht hn)
    obtain ⟨t', g', finished, registers, rfl⟩ := done_of_writeAll hh seen done
    refine ⟨t', _, finished, registers, fun res hres => ?_⟩
    rw [← List.map_congr_left fun t ht => congrArg (fun r => (t.1, toOut r)) (hres t ht)]
    refine wrote_vec (by simp) (fun t ht v hv => ?_) _
    rw [hres t ht] at hv
    obtain ⟨t, _ | tok⟩ := t
    · cases hv
      rfl
    · cases hv
  · refine exec_await_waits hh checked ready unlogged reads names ht ?_
    rw [awaitLook, hn]
    exact if_neg fun reached => absurd ((genReached_iff _ _).mp reached) (Nat.not_lt.mpr behind)

/-! ## YIELD and PAUSE (R209, R210) -/

/-- R209, R210. -/
theorem yieldAndPause : Claim.YieldAndPause := by
  intro s h hh
  obtain ⟨-, found, -, -, listed⟩ := here_eq s h hh
  refine ⟨⟨_, _, ⟨issuing_eq s h _ hh, fun _ => rfl, rfl, group_retire (g := { h.g with age := s.exe.nextId, loss := 0 }) ?_,
    wentOn_goneOn listed rfl rfl _⟩, rfl, fun k hk => ?_⟩, sets_of_retire_only hh (issuing_eq s h _ hh), fun i hi => ?_⟩
  · rw [group_modGroup_same]
    exact congrArg (Option.map _) found
  · simp only [retire, retireAt, State.modPath, countRetire, group_modGroup, if_neg hk]
    rfl
  · refine ⟨(h.g.goneOn h.pid (nextPc h.p.pc)).modPath h.pid fun p => { p with park := .pause (s.ctl.turn + i.toNat) },
      ⟨_, ?_, onlyGroup_setGroup _ _⟩, rfl, ?_, fun q hq => ?_⟩
    · refine (issuing_eq s h _ hh).trans ?_
      have own : (s.setGroup (h.g.goneOn h.pid (nextPc h.p.pc))).group h.g.id = some (h.g.goneOn h.pid (nextPc h.p.pc)) := by
        simp [group_setGroup, Group.goneOn]
      dsimp only
      rw [if_neg hi, retire, retireAt_eq s h hh, State.modPath, modGroup_setGroup own _ rfl]
      simp [State.setGroup, State.withGroups, sins_sins, Group.modPath, Group.goneOn]
    · simp [PathAt, Group.modPath, Group.goneOn, listed]
    · simp only [Group.modPath, Group.goneOn, sfind_smod_other _ _ _ _ hq]

/-- Settles O17: what MONITOR arms, what MWAIT and AWAIT wait for, and what YIELD and PAUSE leave of their group and path. -/
theorem waitsAndPauses : Obligations.WaitsAndPauses := ⟨monitorAndWait, awaitGeneration, yieldAndPause⟩

end Sys2Proof.Machine
end

section
/-!
SUPPORT. The host's reads, writes and snoops: the bytes that a host agent stores word by word (R364, R367), what it finds of words that
have settled (R87, R364, R368), and a half that is taken from the device (R367, R368).
-/

namespace Sys2Proof.Machine

open Sys2Proof Sys2Proof.Laws

/-! ## Bytes of a word -/

theorem bytesOfWord_wordOfBytes (b0 b1 b2 b3 : Byte) : bytesOfWord (wordOfBytes b0 b1 b2 b3) = [b0, b1, b2, b3] := by
  have bit (i k : Nat) (hk : k < 4) (hi : i < 8) : (wordOfBytes b0 b1 b2 b3).getLsbD (8 * k + i) = ([b0, b1, b2, b3].getD k 0).getLsbD i := by
    simp only [wordOfBytes, BitVec.getLsbD_append]
    match k, hk with
    | 0, _ => simp [hi]
    | 1, _ => simp [show ¬ 8 * 1 + i < 8 by omega, show 8 * 1 + i - 8 = i by omega, hi]
    | 2, _ => simp [show ¬ 8 * 2 + i < 8 by omega, show ¬ 8 * 2 + i - 8 < 8 by omega, show 8 * 2 + i - 8 - 8 = i by omega, hi]
    | 3, _ =>
      simp [show ¬ 8 * 3 + i < 8 by omega, show ¬ 8 * 3 + i - 8 < 8 by omega, show ¬ 8 * 3 + i - 8 - 8 < 8 by omega,
        show 8 * 3 + i - 8 - 8 - 8 = i by omega]
  have cut (k : Nat) (hk : k < 4) : (wordOfBytes b0 b1 b2 b3).extractLsb' (8 * k) 8 = [b0, b1, b2, b3].getD k 0 := by
    apply BitVec.eq_of_getLsbD_eq
    intro i hi
    rw [BitVec.getLsbD_extractLsb', bit i k hk hi]
    simp [hi]
  rw [bytesOfWord]
  exact congrArg₂ List.cons (cut 0 (by omega)) (congrArg₂ List.cons (cut 1 (by omega)) (congrArg₂ List.cons (cut 2 (by omega))
    (congrArg₂ List.cons (cut 3 (by omega)) rfl)))

theorem bytesOfWord_memWord (m : MemSys) (a : Nat) : bytesOfWord (memWord m a) = memBytes m a 4 := bytesOfWord_wordOfBytes ..

/-- R53: the bytes that a write of some bytes of a word leaves. -/
theorem bytesOfWord_mergeBytes (old new : Word) (be : BitVec 4) (j : Nat) (hj : j < 4) :
    (bytesOfWord (mergeBytes old new be)).getD j 0 = if be.getLsbD j then (bytesOfWord new).getD j 0 else (bytesOfWord old).getD j 0 := by
  rw [mergeBytes, bytesOfWord_wordOfBytes]
  match j, hj with
  | 0, _ => rfl
  | 1, _ => rfl
  | 2, _ => rfl
  | 3, _ => rfl

theorem length_memBytes (m : MemSys) (a n : Nat) : (memBytes m a n).length = n := by simp [memBytes]

theorem getD_memBytes (m : MemSys) (a n k : Nat) (hk : k < n) : (memBytes m a n).getD k 0 = memByte m (a + k) := by
  simp [memBytes, hk]

theorem memBytes_of_bytes {m m' : MemSys} (h : m.bytes = m'.bytes) (a n : Nat) : memBytes m a n = memBytes m' a n := by
  simp [memBytes, memByte_of_bytes h]

/-- Bytes from an address up, cut to those from a later one on. -/
theorem memBytes_cut (m : MemSys) (a n k len : Nat) (h : k + len ≤ n) : ((memBytes m a n).drop k).take len = memBytes m (a + k) len := by
  refine List.ext_getElem (by simp [memBytes]; omega) fun i _ _ => ?_
  simp [memBytes, Nat.add_assoc]

/-- Words at rising addresses, byte by byte. -/
theorem memBytes_words (m : MemSys) (a n : Nat) :
    ((List.range n).map fun k => ((memWord m (a + 4 * k), none) : Got)).flatMap (fun x => bytesOfWord x.1) = memBytes m a (4 * n) := by
  induction n with
  | zero => rfl
  | succ n ih =>
    rw [List.range_succ, List.map_append, List.flatMap_append, ih, List.map_singleton, List.flatMap_singleton, bytesOfWord_memWord]
    simp only [memBytes, show 4 * (n + 1) = 4 * n + 4 by omega, List.range_add, List.map_append, List.map_map]
    refine congrArg _ (List.map_congr_left fun k _ => congrArg (memByte m) ?_)
    show a + 4 * n + k = a + (4 * n + k)
    omega

/-! ## Writes (R364, R367) -/

/-- R53: what a write of some bytes of a word leaves in memory. -/
theorem memByte_pokePart (m : MemSys) (g a c : Nat) (v : Word) (be : BitVec 4) (p : Bool) (o : Word) (va : DWord) :
    memByte (pokePart m g a v be p o va) c =
      if a ≤ c ∧ c < a + 4 ∧ be.getLsbD (c - a) = true then (bytesOfWord v).getD (c - a) 0 else memByte m c := by
  rw [pokePart, memByte_pokeWord, setWord, memByte_setBytes, length_bytesOfWord]
  by_cases inside : a ≤ c ∧ c < a + 4
  · obtain ⟨low, high⟩ := inside
    rw [if_pos ⟨low, high⟩, bytesOfWord_mergeBytes _ _ _ _ (by omega), bytesOfWord_memWord, getD_memBytes _ _ _ _ (by omega),
      Nat.add_sub_cancel' low]
    simp [low, high]
  · rw [if_neg inside, if_neg fun x => inside ⟨x.1, x.2.1⟩]

theorem dropHalf_bytes (s : State) (a : Nat) : (dropHalf s a).mem.bytes = s.mem.bytes := by
  unfold dropHalf
  exact markGranule_bytes ..

theorem dropHalf_exe (s : State) (a : Nat) : (dropHalf s a).exe = s.exe := by simp only [dropHalf, State.withMem]

/-- Where the cores are as they were, so are the groups. -/
theorem sameGroups_of_exe {s t : State} (h : t.exe = s.exe) : SameGroups s t := fun _ => by
  rw [State.group, h]
  rfl

theorem sameGroups_hostWord (s : State) (g a : Nat) (v : Word) (be : BitVec 4) : SameGroups s (hostWord s g a v be) := by
  unfold hostWord
  split
  · refine (sameGroups_of_exe (dropHalf_exe s a)).trans ?_
    generalize dropHalf s a = d
    exact (sameGroups_of_exe rfl).trans (sameGroups_wakeMonitors (d.withMem _) a)
  · exact sameGroups_writeOne s [g] v false 0 0 be

/-- R364: what a host agent's write of some bytes of a word leaves in memory. -/
theorem memByte_hostWord (s : State) (g a c : Nat) (v : Word) (be : BitVec 4) : memByte (hostWord s g a v be).mem c =
    if a ≤ c ∧ c < a + 4 ∧ be.getLsbD (c - a) = true then (bytesOfWord v).getD (c - a) 0 else memByte s.mem c := by
  unfold hostWord
  split
  · have kept := dropHalf_bytes s a
    generalize dropHalf s a = d at kept ⊢
    rw [← memByte_of_bytes kept]
    exact memByte_pokePart d.mem g a c v be false 0 0
  · unfold writeOne
    rw [memByte_writeHalf]
    refine (memByte_of_bytes ?_ c).trans (memByte_pokePart s.mem g a c v be false 0 0)
    show (if be = 0xF then _ else _ : MemSys).bytes = _
    split <;> rfl

/-- R364: the byte that a write of `data` from `pa` up has for an address. -/
def writtenByte (pa : Nat) (data : List Byte) (c : Nat) : Option Byte := if c < pa then none else data[c - pa]?

theorem memByte_setBytes_written (m : MemSys) (pa c : Nat) (data : List Byte) :
    memByte (setBytes m pa data) c = (writtenByte pa data c).getD (memByte m c) := by
  rw [memByte_setBytes, writtenByte]
  by_cases low : c < pa
  · simp [low, Nat.not_le.mpr low]
  · by_cases high : c < pa + data.length
    · simp [low, Nat.not_lt.mp low, high, show c - pa < data.length by omega]
    · simp [low, high, show data.length ≤ c - pa by omega]

/-- R364: the write of the bytes that `data` has for one word. -/
def hostPart (g pa : Nat) (data : List Byte) (s : State) (k : Nat) : State :=
  let a := 4 * (pa / 4 + k)
  let b (j : Nat) : Option Byte := writtenByte pa data (a + j)
  hostWord s g a (wordOfBytes ((b 0).getD 0) ((b 1).getD 0) ((b 2).getD 0) ((b 3).getD 0))
    (BitVec.ofBool (b 3).isSome ++ BitVec.ofBool (b 2).isSome ++ BitVec.ofBool (b 1).isSome ++ BitVec.ofBool (b 0).isSome)

theorem hostBytes_eq (s : State) (g pa : Nat) (data : List Byte) :
    hostBytes s g pa data = (List.range ((pa + data.length + 3) / 4 - pa / 4)).foldl (hostPart g pa data) s := rfl

/-- Byte enables, one for each byte of a word. -/
theorem getLsbD_enables (b : Nat → Bool) (j : Nat) (hj : j < 4) :
    (BitVec.ofBool (b 3) ++ BitVec.ofBool (b 2) ++ BitVec.ofBool (b 1) ++ BitVec.ofBool (b 0)).getLsbD j = b j := by
  match j, hj with
  | 0, _ => simp only [BitVec.getLsbD_append]; simp
  | 1, _ => simp only [BitVec.getLsbD_append]; simp
  | 2, _ => simp only [BitVec.getLsbD_append]; simp
  | 3, _ => simp only [BitVec.getLsbD_append]; simp

/-- R364: the bytes of `data` in one word are stored, and no others. -/
theorem memByte_hostPart (g pa : Nat) (data : List Byte) (s : State) (k c : Nat) : memByte (hostPart g pa data s k).mem c =
    if 4 * (pa / 4 + k) ≤ c ∧ c < 4 * (pa / 4 + k) + 4 then (writtenByte pa data c).getD (memByte s.mem c) else memByte s.mem c := by
  simp only [hostPart, memByte_hostWord, bytesOfWord_wordOfBytes]
  generalize 4 * (pa / 4 + k) = a
  by_cases inside : a ≤ c ∧ c < a + 4
  · obtain ⟨low, high⟩ := inside
    obtain ⟨j, rfl⟩ := Nat.exists_eq_add_of_le low
    have hj : j < 4 := by omega
    rw [if_pos (c := a ≤ a + j ∧ a + j < a + 4) ⟨low, high⟩, Nat.add_sub_cancel_left,
      getLsbD_enables (fun j => (writtenByte pa data (a + j)).isSome) j hj]
    have byte : [(writtenByte pa data (a + 0)).getD 0, (writtenByte pa data (a + 1)).getD 0, (writtenByte pa data (a + 2)).getD 0,
        (writtenByte pa data (a + 3)).getD 0].getD j 0 = (writtenByte pa data (a + j)).getD 0 := by
      match j, hj with
      | 0, _ => rfl
      | 1, _ => rfl
      | 2, _ => rfl
      | 3, _ => rfl
    rw [byte]
    cases writtenByte pa data (a + j) <;> simp [hj]
  · rw [if_neg inside, if_neg fun x => inside ⟨x.1, x.2.1⟩]

theorem memByte_hostParts (g pa : Nat) (data : List Byte) (s : State) (n c : Nat) :
    memByte ((List.range n).foldl (hostPart g pa data) s).mem c =
      if 4 * (pa / 4) ≤ c ∧ c < 4 * (pa / 4 + n) then (writtenByte pa data c).getD (memByte s.mem c) else memByte s.mem c := by
  induction n with
  | zero => rw [List.range_zero, List.foldl_nil, if_neg (by omega)]
  | succ n ih =>
    rw [List.range_succ, List.foldl_append, List.foldl_cons, List.foldl_nil, memByte_hostPart, ih]
    by_cases last : 4 * (pa / 4 + n) ≤ c ∧ c < 4 * (pa / 4 + n) + 4
    · rw [if_pos last, if_neg (by omega), if_pos (by omega)]
    · rw [if_neg last]
      by_cases earlier : 4 * (pa / 4) ≤ c ∧ c < 4 * (pa / 4 + n)
      · rw [if_pos earlier, if_pos (by omega)]
      · rw [if_neg earlier, if_neg (by omega)]

/-- R364: a host agent's write stores its bytes and no others. -/
theorem memByte_hostBytes (s : State) (g pa : Nat) (data : List Byte) (c : Nat) :
    memByte (hostBytes s g pa data).mem c = memByte (setBytes s.mem pa data) c := by
  rw [hostBytes_eq, memByte_hostParts, memByte_setBytes_written]
  by_cases inside : 4 * (pa / 4) ≤ c ∧ c < 4 * (pa / 4 + ((pa + data.length + 3) / 4 - pa / 4))
  · rw [if_pos inside]
  · have none : writtenByte pa data c = none := by
      rw [writtenByte]
      split
      · rfl
      · exact List.getElem?_eq_none (by omega)
    rw [if_neg inside, none]
    rfl

theorem sameGroups_foldl {α : Type} {f : State → α → State} (hf : ∀ s x, SameGroups s (f s x)) (l : List α) (s : State) :
    SameGroups s (l.foldl f s) := by
  induction l generalizing s with
  | nil => exact fun _ => rfl
  | cons x l ih => exact (hf s x).trans (ih _)

theorem sameGroups_hostBytes (s : State) (g pa : Nat) (data : List Byte) : SameGroups s (hostBytes s g pa data) := by
  rw [hostBytes_eq]
  exact sameGroups_foldl (fun s k => sameGroups_hostWord s g _ _ _) _ _

/-- R371: the tail of a ring is no part of memory or of the cores. -/
theorem tailWritten_inside (s : State) (q : Nat) (f : SMap Nat) : (tailWritten s q f).mem = s.mem ∧ (tailWritten s q f).exe = s.exe := by
  unfold tailWritten
  dsimp only
  split
  · exact ⟨rfl, rfl⟩
  · split <;> exact ⟨rfl, rfl⟩

theorem tailsWritten_inside (s : State) (pa len : Nat) : (tailsWritten s pa len).mem = s.mem ∧ (tailsWritten s pa len).exe = s.exe := by
  refine List.foldlRecOn _ _ (motive := fun t : State => t.mem = s.mem ∧ t.exe = s.exe) ⟨rfl, rfl⟩ fun t ht k _ => ?_
  dsimp only
  split
  · obtain ⟨mem, exe⟩ := tailWritten_inside t k (hostFloor t.mem)
    obtain ⟨mem', exe'⟩ := ht
    exact ⟨mem.trans mem', exe.trans exe'⟩
  · exact ht

theorem exec_hostWrite (s : State) (port pa : Nat) (data : List Byte) : exec (.hostWrite port pa data) s =
    if !portReady s port || data.isEmpty then .next s
    else if hostWaits s pa data.length then .next s
    else if !((List.range data.length).all fun k => hostReaches s port (pa + k)) then .fault .reservedAddress
    else .next (tailsWritten (hostBytes s (hostAgent port) pa data) pa data.length) := rfl

/-- R78, R363 to R367, R380. -/
theorem hostWrites : Claim.HostWrites := by
  intro s port pa data up some
  have first : ¬ ((!portReady s port || data.isEmpty) = true) := by simpa [up] using some
  refine ⟨fun waits => ?_, fun free => ⟨fun ⟨k, hk, outside⟩ => ?_, fun reached => ?_⟩⟩
  · rw [exec_hostWrite, if_neg first, if_pos waits]
  · rw [exec_hostWrite, if_neg first, if_neg (by simp [free]), if_pos]
    simpa using ⟨k, hk, outside⟩
  · obtain ⟨mem, exe⟩ := tailsWritten_inside (hostBytes s (hostAgent port) pa data) pa data.length
    refine ⟨tailsWritten (hostBytes s (hostAgent port) pa data) pa data.length, ?_,
      (sameGroups_hostBytes s (hostAgent port) pa data).trans (sameGroups_of_exe exe), fun b => ?_⟩
    · rw [exec_hostWrite, if_neg first, if_neg (by simp [free]), if_neg]
      simpa using reached
    · rw [mem, memByte_hostBytes]

/-! ## Reads (R87, R364, R368) -/

theorem sget_sins_same (m : SMap Nat) (i y : Nat) : sget 0 (sins m i y) i = y := by simp [sget]

theorem sget_sins_other (m : SMap Nat) (i j y : Nat) (h : j ≠ i) : sget 0 (sins m i y) j = sget 0 m j := by simp [sget, sfind_sins, h]

theorem sget_sjoin (a b : SMap Nat) (k : Nat) : sget 0 a k ≤ sget 0 (sjoin a b) k := by
  refine List.foldlRecOn b _ (motive := fun m => sget 0 a k ≤ sget 0 m k) (Nat.le_refl _) fun m hm x _ => ?_
  split
  · next raised =>
    by_cases same : k = x.1
    · subst same
      rw [sget_sins_same]
      exact Nat.le_trans hm (Nat.le_of_lt raised)
    · rwa [sget_sins_other _ _ _ _ same]
  · exact hm

theorem floorsOf_raiseFloors (m : MemSys) (g : Nat) (f : SMap Nat) : floorsOf (raiseFloors m g f) g = sjoin (floorsOf m g) f := by
  simp [floorsOf, raiseFloors]

/-- R87: an agent has read: it has seen more of memory than before, and nothing else differs. -/
def HasRead (g : Nat) (s t : State) : Prop :=
  SeesMore s t ∧ ∀ a, sget 0 (floorsOf s.mem g) a ≤ sget 0 (floorsOf t.mem g) a

theorem HasRead.refl (g : Nat) (s : State) : HasRead g s s := ⟨rfl, fun _ => Nat.le_refl _⟩

theorem HasRead.trans {g : Nat} {s t u : State} (h : HasRead g s t) (k : HasRead g t u) : HasRead g s u := by
  obtain ⟨sees, rise⟩ := h
  obtain ⟨sees', rise'⟩ := k
  exact ⟨sees.trans sees', fun a => Nat.le_trans (rise a) (rise' a)⟩

theorem hasRead_raiseFloors (g : Nat) (s : State) (f : SMap Nat) : HasRead g s (s.withMem (raiseFloors s.mem g f)) := by
  refine ⟨rfl, fun a => ?_⟩
  show _ ≤ sget 0 (floorsOf (raiseFloors s.mem g f) g) a
  rw [floorsOf_raiseFloors]
  exact sget_sjoin ..

theorem hasRead_seeCompletion (g a : Nat) (s : State) : HasRead g s (s.withMem (seeCompletion s.mem g a)) := by
  unfold seeCompletion
  refine List.foldlRecOn _ _ (motive := fun m => HasRead g s (s.withMem m)) (HasRead.refl g s) fun m hm r _ => ?_
  exact hm.trans (hasRead_raiseFloors g (s.withMem m) r.floor)

/-- R87: the writes that a later view may still read are among those of an earlier one. -/
theorem readable_length_mono (m : MemSys) {f f' : Nat} (a : Nat) (h : f ≤ f') : (readable m f' a).length ≤ (readable m f a).length := by
  rw [readable, readable, ← List.countP_eq_length_filter, ← List.countP_eq_length_filter]
  exact List.countP_mono_left fun w _ hw => decide_eq_true (Nat.le_trans h (of_decide_eq_true hw))

/-- R87: a word that has settled for an agent stays so while the agent reads. -/
theorem settledWord_hasRead {g : Nat} {s t : State} (h : HasRead g s t) {a : Nat} (settled : settledWord s [g] a) : settledWord t [g] a := by
  obtain ⟨sees, rise⟩ := h
  obtain ⟨sound, clean, near, one⟩ := settled
  rw [SeesMore] at sees
  have writes (f : Nat) : readable t.mem f a = readable s.mem f a := by rw [sees]; rfl
  refine ⟨by rw [sees]; exact sound, by rw [sees]; exact clean, near, ?_⟩
  simp only [List.foldl_cons, List.foldl_nil, Nat.zero_max] at one ⊢
  exact writes _ ▸ Nat.le_trans (readable_length_mono _ a (rise a)) one

/-- R87: of a word that has settled an agent finds the latest write. -/
theorem readFrom_settled {m : MemSys} {tick f a : Nat} (one : (readable m f a).length ≤ 1) : (readFrom m tick f a).1 = latestWord m a := by
  unfold readFrom
  match h : readable m f a, one with
  | [], _ => rfl
  | [w], _ => rfl
  | _ :: _ :: _, one => exact absurd one (by simp)

/-- R87, R364: a host agent reads a word that has settled. -/
theorem hostReads_settled {g a : Nat} {s : State} (settled : settledWord s [g] a) :
    ∃ t, hostReads s g a = ((memWord s.mem a, none), t) ∧ HasRead g s t := by
  obtain ⟨sound, clean, near, one⟩ := settled
  have place : hostReads s g a = readOne s none 0 [g] a := by
    unfold hostReads
    split
    · next host => exact absurd host near
    · rfl
  have fetched : fetchHalf s none 0 a = s := by
    unfold fetchHalf
    split
    · next host => exact absurd host near
    · rfl
  have latest := readFrom_settled (tick := s.ctl.tick) one
  have unchosen : ¬ (readable s.mem ([g].foldl (fun n g => max n (sget 0 (floorsOf s.mem g) a)) 0) a).length > 1 := Nat.not_lt.mpr one
  rw [place]
  simp only [readOne, fetched, sound, Bool.false_eq_true, if_false, latest, latestWord, clean, unchosen]
  refine ⟨_, rfl, ?_⟩
  split
  · exact HasRead.refl g s
  · exact hasRead_raiseFloors g s _

theorem HasRead.bytes {g : Nat} {s t : State} (h : HasRead g s t) : t.mem.bytes = s.mem.bytes := by
  obtain ⟨sees, -⟩ := h
  rw [SeesMore] at sees
  rw [sees]
  rfl

theorem HasRead.exe {g : Nat} {s t : State} (h : HasRead g s t) : t.exe = s.exe := by
  obtain ⟨sees, -⟩ := h
  rw [SeesMore] at sees
  rw [sees]
  rfl

theorem HasRead.host {g : Nat} {s t : State} (h : HasRead g s t) : t.host = s.host := by
  obtain ⟨sees, -⟩ := h
  rw [SeesMore] at sees
  rw [sees]
  rfl

/-- R364: a host agent reads words that have settled. -/
theorem hostWords_settled {g : Nat} (n : Nat) {a : Nat} {s : State} (settled : ∀ k, k < n → settledWord s [g] (a + 4 * k)) :
    ∃ t, hostWords s g a n = ((List.range n).map fun k => (memWord s.mem (a + 4 * k), none), t) ∧ HasRead g s t := by
  induction n generalizing a s with
  | zero => exact ⟨s, rfl, HasRead.refl g s⟩
  | succ n ih =>
    obtain ⟨u, first, read⟩ := hostReads_settled (settled 0 (by omega))
    have saw := read.trans (hasRead_seeCompletion g a u)
    obtain ⟨t, rest, later⟩ := ih (a := a + 4) fun k hk => settledWord_hasRead saw
      (show a + 4 * (k + 1) = a + 4 + 4 * k by omega ▸ settled (k + 1) (by omega))
    refine ⟨t, ?_, saw.trans later⟩
    rw [Nat.add_zero] at first
    simp only [hostWords, first, rest, List.range_succ_eq_map, List.map_cons, List.map_map, Nat.mul_zero, Nat.add_zero]
    refine Prod.ext (congrArg (List.cons _) (List.map_congr_left fun k _ => ?_)) rfl
    rw [memWord_of_bytes saw.bytes, show a + 4 + 4 * k = a + 4 * (k + 1) by omega]
    rfl

/-- R364: what channel 0 reads of device memory that has settled. -/
theorem hostData_settled {s : State} {pa len : Nat} (some : 0 < len) (settled : ∀ k, k < len → settledWord s [voclAgent] ((pa + k) / 4 * 4)) :
    ∃ t, hostData s pa len = (memBytes s.mem pa len, t) ∧ HasRead voclAgent s t := by
  have each : ∀ k, k < (pa + len + 3) / 4 - pa / 4 → settledWord s [voclAgent] (4 * (pa / 4) + 4 * k) := by
    intro k hk
    by_cases first : k = 0
    · have word := settled 0 (by omega)
      rwa [show (pa + 0) / 4 * 4 = 4 * (pa / 4) + 4 * k by omega] at word
    · have word := settled (4 * (pa / 4) + 4 * k - pa) (by omega)
      rwa [show (pa + (4 * (pa / 4) + 4 * k - pa)) / 4 * 4 = 4 * (pa / 4) + 4 * k by omega] at word
  obtain ⟨t, words, read⟩ := hostWords_settled _ each
  refine ⟨t, ?_, read⟩
  simp only [hostData, words, memBytes_words]
  rw [memBytes_cut _ _ _ _ _ (by omega), show 4 * (pa / 4) + pa % 4 = pa by omega]

/-- R364: once it has read, a host agent sends what it has found. -/
theorem sends_of_hasRead {g : Nat} {s t : State} (read : HasRead g s t) (o : Out) :
    SameBytes s (t.send o) ∧ (t.send o).exe = s.exe ∧ (t.send o).host.out = s.host.out ++ [o] :=
  ⟨memByte_of_bytes read.bytes, read.exe, congrArg (fun x : HostSys => x.out ++ [o]) read.host⟩

/-- R364, R368: a requester reads a half that has settled, and it is sent. -/
def sendHalf (requester : Nat) (s : State) (g : Nat) : State :=
  let (ws, s) := hostWords s (cxlAgent requester) (64 * g) 16
  s.send (.cxlHalf requester (64 * g) (ws.any (·.2.isSome)) (ws.flatMap fun x => bytesOfWord x.1))

theorem sendHalf_settled {requester g : Nat} {s : State} (settled : ∀ k, k < 16 → settledWord s [cxlAgent requester] (64 * g + 4 * k)) :
    ∃ t, sendHalf requester s g = t.send (.cxlHalf requester (64 * g) false (memBytes s.mem (64 * g) 64)) ∧ HasRead (cxlAgent requester) s t := by
  obtain ⟨t, words, read⟩ := hostWords_settled 16 settled
  refine ⟨t, ?_, read⟩
  have unmarked : ((List.range 16).map fun k => ((memWord s.mem (64 * g + 4 * k), none) : Got)).any (·.2.isSome) = false := by
    simp
  rw [sendHalf, words]
  dsimp only
  rw [unmarked, memBytes_words]

/-- R87: what is sent to the outside is no part of what an agent finds. -/
theorem settledWord_send {s : State} {ags : List Nat} {a : Nat} {o : Out} (h : settledWord s ags a) : settledWord (s.send o) ags a := h

theorem sendHalves_settled {requester : Nat} (gs : List Nat) {s : State}
    (settled : ∀ g ∈ gs, ∀ k, k < 16 → settledWord s [cxlAgent requester] (64 * g + 4 * k)) :
    SameBytes s (gs.foldl (sendHalf requester) s) ∧ (gs.foldl (sendHalf requester) s).exe = s.exe ∧
      (gs.foldl (sendHalf requester) s).host.out = s.host.out ++ gs.map fun g => .cxlHalf requester (64 * g) false (memBytes s.mem (64 * g) 64) := by
  induction gs generalizing s with
  | nil => exact ⟨fun _ => rfl, rfl, (List.append_nil _).symm⟩
  | cons g gs ih =>
    obtain ⟨t, sent, read⟩ := sendHalf_settled (settled g List.mem_cons_self)
    obtain ⟨bytes, exe, out⟩ := sends_of_hasRead read (.cxlHalf requester (64 * g) false (memBytes s.mem (64 * g) 64))
    obtain ⟨bytes', exe', out'⟩ := ih (s := t.send (.cxlHalf requester (64 * g) false (memBytes s.mem (64 * g) 64)))
      fun g' hg k hk => settledWord_send (settledWord_hasRead read (settled g' (List.mem_cons_of_mem _ hg) k hk))
    rw [List.foldl_cons, sent]
    refine ⟨fun b => (bytes' b).trans (bytes b), exe'.trans exe, ?_⟩
    rw [out', out, List.append_assoc, List.map_cons, List.singleton_append]
    refine congrArg (s.host.out ++ _ :: ·) (List.map_congr_left fun g' _ => ?_)
    rw [memBytes_of_bytes (m := (t.send _).mem) (m' := s.mem) read.bytes]

theorem exec_hostRead_channel0 (s : State) (pa len : Nat) : exec (.hostRead ⟨0, pa⟩ len) s =
    if !portReady s 0 || hostWaits s pa len then .next s
    else if !((List.range len).all fun k => hostReaches s 0 (pa + k)) then .fault .reservedAddress
    else .next ((hostData s pa len).2.send (.data (hostData s pa len).1)) := rfl

theorem exec_hostRead_channel2 (s : State) (pa len : Nat) : exec (.hostRead ⟨2, pa⟩ len) s =
    if !portReady s 0 || hostWaits s pa len then .next s
    else if 2 ^ 52 ≤ pa then .next (s.send (.firmwareData ((s.host.fw.tests.flatten.drop (pa - 2 ^ 52)).take len)))
    else if !(served s && inDump s pa len && (List.range len).all fun k => hostReaches s 0 (pa + k)) then .next s
    else .next ((hostData s pa len).2.send (.firmwareData (hostData s pa len).1)) := rfl

theorem exec_cxlMemRead (s : State) (requester pa len : Nat) : exec (.cxlMemRead ⟨requester, pa⟩ len) s =
    if !portReady s 1 || hostWaits s pa len then .next s
    else if !((List.range len).all fun k => hostReaches s 1 (pa + k)) then .fault .reservedAddress
    else .next ((if len = 0 then [] else (List.range ((pa + len - 1) / 64 - pa / 64 + 1)).map fun k => pa / 64 + k).foldl
      (sendHalf requester) s) := by
  show execCxlMemRead ⟨requester, pa⟩ len s = _
  have each : sendHalf requester = fun s g => sendHalf requester s g := rfl
  rw [each]
  simp only [execCxlMemRead, sendHalf] <;> rfl

/-- R363, R364, R368, R417, R418, R445. -/
theorem hostReadsOf : Claim.HostReads := by
  intro s pa len
  refine ⟨rfl, fun some free up => ?_, fun requester some free up reached settled => ?_⟩
  · have first : ¬ ((!portReady s 0 || hostWaits s pa len) = true) := by simp [up, free]
    refine ⟨fun tests => ?_, fun ⟨k, hk, outside⟩ => ?_, fun reads => ?_⟩
    · rw [exec_hostRead_channel2, if_neg first, if_pos tests]
    · rw [exec_hostRead_channel0, if_neg first, if_pos]
      simpa using ⟨k, hk, outside⟩
    · have reached : ((List.range len).all fun k => hostReaches s 0 (pa + k)) = true := by simpa using fun k hk => (reads k hk).1
      obtain ⟨t, data, read⟩ := hostData_settled some fun k hk => (reads k hk).2
      refine ⟨⟨_, ?_, sends_of_hasRead read _⟩, fun below served dump => ⟨_, ?_, sends_of_hasRead read _⟩⟩
      · rw [exec_hostRead_channel0, if_neg first, if_neg (by simp [reached]), data]
      · rw [exec_hostRead_channel2, if_neg first, if_neg (Nat.not_le.mpr below), if_neg (by simp [reached, served, dump]), data]
  · refine ⟨_, ?_, sendHalves_settled _ settled⟩
    rw [exec_cxlMemRead, if_neg (by simp [up, free]), if_neg (by simpa using reached), if_neg (by omega)]

/-! ## Snoops (R367, R368) -/

theorem lineOf_lt (a j : Nat) (h : j < 128) : lineOf (a / 128 * 128 + j) = lineOf a := by
  simp only [lineOf]
  omega

/-- R53: the poison marks of words after a word was marked clean. -/
theorem wordPoi_setPoi_false (m : MemSys) (a : Nat) (o : Word) (x : Nat) :
    wordPoi (setPoi m a false o) x = (wordPoi m x && !(x / 4 == a / 4)) := by
  have bit (w : Word) (i : Nat) (hi : i < 32) : (w &&& ~~~(1#32 <<< (a % 128 / 4))).getLsbD i = (w.getLsbD i && !(i == a % 128 / 4)) := by
    rw [BitVec.getLsbD_and, BitVec.getLsbD_not, BitVec.getLsbD_shiftLeft]
    rcases Nat.lt_trichotomy i (a % 128 / 4) with h | h | h
    · simp [h.ne, h, hi]
    · simp [h, h ▸ hi]
    · have h1 : i - a % 128 / 4 ≠ 0 := by omega
      simp [h.ne', h1, hi]
  have cut (w : Word) (z : Word) : (if w = 0 then ({} : Mark) else { mask := w, origin := z }).mask = w := by
    split
    · next h => exact h.symm
    · rfl
  unfold wordPoi setPoi
  dsimp only
  rw [sget_sput]
  by_cases hl : lineOf x = lineOf a
  · have here : (x / 4 == a / 4) = (x % 128 / 4 == a % 128 / 4) := by
      unfold lineOf at hl
      rw [Bool.eq_iff_iff, beq_iff_eq, beq_iff_eq]
      omega
    rw [if_pos hl, if_neg Bool.false_ne_true, cut, bit _ _ (by omega), here, hl]
  · have apart : (x / 4 == a / 4) = false := by
      unfold lineOf at hl
      rw [beq_eq_false_iff_ne]
      omega
    rw [if_neg hl, apart, Bool.not_false, Bool.and_true]

/-- R367: the marks of a half that the device no longer holds are gone. -/
theorem wordPoi_markGranule_false (m : MemSys) (g x : Nat) : wordPoi (markGranule m g false 0) x = (wordPoi m x && !(x / 64 == g)) := by
  have marked (n : Nat) : wordPoi ((List.range n).foldl (fun m k => setPoi m (64 * g + 4 * k) false 0) m) x =
      (wordPoi m x && !(decide (16 * g ≤ x / 4 ∧ x / 4 < 16 * g + n))) := by
    induction n with
    | zero => simp [show ¬ (16 * g ≤ x / 4 ∧ x / 4 < 16 * g) by omega]
    | succ n ih =>
      rw [List.range_succ, List.foldl_append, List.foldl_cons, List.foldl_nil, wordPoi_setPoi_false, ih, Bool.and_assoc, ← Bool.not_or]
      refine congrArg (wordPoi m x && !·) ?_
      rw [Bool.eq_iff_iff, Bool.or_eq_true, decide_eq_true_eq, beq_iff_eq, decide_eq_true_eq]
      omega
  rw [markGranule, marked]
  refine congrArg (wordPoi m x && !·) ?_
  rw [Bool.eq_iff_iff, decide_eq_true_eq, beq_iff_eq]
  omega

/-- R367: the memory from which a half has been taken. -/
theorem dropHalf_mem (s : State) (a : Nat) : (dropHalf s a).mem = markGranule { s.mem with
    bridge := sput 0 s.mem.bridge (lineOf a) (sget (0 : BitVec 2) s.mem.bridge (lineOf a) &&& ~~~(1#2 <<< (a / 64 % 2))) } (a / 64) false 0 := by
  simp only [dropHalf, State.withMem]

theorem dropHalf_host (s : State) (a : Nat) : (dropHalf s a).host = s.host := by simp only [dropHalf, State.withMem]

theorem markGranule_bridge (m : MemSys) (g : Nat) (p : Bool) (o : Word) : (markGranule m g p o).bridge = m.bridge :=
  List.foldlRecOn _ _ (motive := fun m' : MemSys => m'.bridge = m.bridge) rfl fun _ h _ _ => h

theorem exec_cxlSnoop {s : State} {pa : Nat} (upper : Bool) (host : regionOf pa = .host) : exec (.cxlSnoop pa upper) s =
    .next ((dropHalf s (pa / 128 * 128 + if upper then 64 else 0)).send (.cxlSnooped (pa / 128 * 128 + if upper then 64 else 0)
      ((sget (0 : BitVec 2) s.mem.bridge (lineOf (pa / 128 * 128 + if upper then 64 else 0))).getLsbD
        ((pa / 128 * 128 + if upper then 64 else 0) / 64 % 2)))) := by
  show execCxlSnoop pa upper s = _
  rw [execCxlSnoop, host]

/-- R367: the halves of a line that the device holds once one is taken. -/
theorem getLsbD_taken (st : BitVec 2) (upper : Bool) (j : Nat) (hj : j < 2) :
    (st &&& ~~~(1#2 <<< (if upper then 1 else 0))).getLsbD j = (st.getLsbD j && (j == 1) != upper) := by
  match j, hj with
  | 0, _ => cases upper <;> simp
  | 1, _ => cases upper <;> simp

/-- R367, R368. -/
theorem snoopTakesHalf : Claim.SnoopTakesHalf := by
  intro s pa upper host
  have line : lineOf (pa / 128 * 128 + if upper then 64 else 0) = lineOf pa := lineOf_lt pa _ (by split <;> omega)
  have half : (pa / 128 * 128 + if upper then 64 else 0) / 64 % 2 = if upper then 1 else 0 := by split <;> omega
  dsimp only
  rw [exec_cxlSnoop upper host]
  have exe := dropHalf_exe s (pa / 128 * 128 + if upper then 64 else 0)
  have outside := dropHalf_host s (pa / 128 * 128 + if upper then 64 else 0)
  have bytes := dropHalf_bytes s (pa / 128 * 128 + if upper then 64 else 0)
  have bridge : (dropHalf s (pa / 128 * 128 + if upper then 64 else 0)).mem.bridge = sput 0 s.mem.bridge (lineOf pa)
      (sget (0 : BitVec 2) s.mem.bridge (lineOf pa) &&& ~~~(1#2 <<< (if upper then 1 else 0))) := by
    rw [dropHalf_mem, markGranule_bridge, line, half]
  have marks (x : Nat) : wordPoi (dropHalf s (pa / 128 * 128 + if upper then 64 else 0)).mem x =
      (wordPoi s.mem x && !(x / 64 == (pa / 128 * 128 + if upper then 64 else 0) / 64)) := by
    rw [dropHalf_mem, wordPoi_markGranule_false]
    rfl
  rw [line, half]
  generalize dropHalf s (pa / 128 * 128 + if upper then 64 else 0) = d at *
  refine ⟨_, rfl, exe, memByte_of_bytes bytes, ?_, fun k hk => ?_, fun j hj => ?_, marks⟩
  · rw [← outside]
    rfl
  · rw [send_mem, bridge]
    exact sget_sput_other _ _ _ _ _ hk
  · rw [send_mem, bridge, sget_sput_same]
    exact getLsbD_taken _ upper j hj

/-- Settles O43: the bytes that a host agent stores, what it finds of words that have settled, and the half that a snoop takes. -/
theorem hostAccesses : Obligations.HostAccesses := ⟨hostWrites, hostReadsOf, snoopTakesHalf⟩

end Sys2Proof.Machine
end

section
/-!
SUPPORT. Sync words (R80, R280): an update that is performed as it issues, outside a span, and the read of a generation.
-/

namespace Sys2Proof.Machine

open Sys2Proof Sys2Proof.Laws

/-! ## Operands -/

theorem rSrc_true (a : BitVec 7) (e : Bool) (n : Nat) : rSrc true a e n = ⟨.s, a.toNat, e, n⟩ := rfl

/-- R161: a source that reads as words is full, and none of its registers is poisoned. -/
theorem readSrc_words {g : Group} {p : Path} {x : Src} {t : Nat} {ws : List Word} (hw : readSrc g p x t = .words ws) :
    srcFull g p x t = true ∧ (regsOf g p x.file x.reg x.n t).find? (·.poi) = none ∧ (regsOf g p x.file x.reg x.n t).map (·.val) = ws := by
  unfold readSrc at hw
  dsimp only at hw
  split at hw
  · next full =>
    split at hw
    · cases hw
    · next clean => exact ⟨full, clean, SrcVal.words.inj hw⟩
  · cases hw

/-- R41, R262: the registers of a clean source are its words. -/
theorem rawData_words {g : Group} {p : Path} {x : Src} {t : Nat} {ws : List Word} (hw : readSrc g p x t = .words ws) :
    rawData g p x t = (ws, none, none) := by
  obtain ⟨full, clean, values⟩ := readSrc_words hw
  simp [rawData, full, clean, values]

/-- R177: s-registers pass the checks of a word's operands. -/
theorem operandCheck_uniform (h : Here) (a d : BitVec 7) (ea ed : Bool) :
    operandCheck h [rSrc true a ea, rSrc true d ed] none true = none := by
  have named (reg n : Nat) : renameOk h.g h.p .s reg n = true := by
    unfold renameOk
    split <;> rfl
  simp [operandCheck, rSrc, fileOf, inBudget, named]

/-- R254: a scratchpad address that a clean word names. -/
theorem addrOf_scratch {h : Here} {src : Src} {t : Nat} {off : Word} (hw : readSrc h.g h.p src t = .words [off]) :
    addrOf h src true 0 t = .inr (off.setWidth 64) := by
  simp [addrOf, hw, effAddr]

theorem toNat_setWidth_word (off : Word) : (off.setWidth 64).toNat = off.toNat := by
  rw [BitVec.toNat_setWidth, Nat.mod_eq_of_lt (by omega)]

/-- R254, R255: the access to a sync word in the scratchpad. -/
theorem checkAccess_sync {h : Here} {off : Word} (s : State) (t : Nat) (ac : Access) (aligned : off.toNat % 16 = 0)
    (inside : off.toNat + 16 ≤ h.w.scratch) : checkAccess s h t true ac 16 16 (off.setWidth 64) = (.loc (h.w.scratchBase + off.toNat), s) := by
  simp only [checkAccess, if_true, toNat_setWidth_word, aligned, ne_eq, not_true, if_false, Nat.not_lt.mpr inside]

/-! ## An effect that is performed as its word issues -/

theorem raiseGroup_none (s : State) (gid cls src : Nat) (info : List DWord) : raiseGroup s gid cls src 0 info = s := by
  unfold raiseGroup
  split
  · rfl
  · unfold groupEvent
    split <;> rfl

theorem kept_nil (s : State) (gid : Nat) (pc : DWord) : kept s gid pc [] = s := by
  unfold kept
  split
  · rfl
  · exact raiseGroup_none ..

theorem dropped_nil (s : State) (gid : Nat) (pc : DWord) : dropped s gid pc [] = s := by
  unfold dropped
  split
  · rfl
  · exact raiseGroup_none ..

/-- R66: one clean effect is performed. -/
theorem performAll_clean {e : Eff} (he : e.fate = .clean) (s : State) (gid : Nat) (pc : DWord) :
    performAll s gid pc [e] = submit [e] s e := by
  simp [performAll, he, kept_nil, dropped_nil, performOne]

/-- R78: an effect on no page is performed at once, but for pushes and queue writes. -/
theorem submit_unplaced {e : Eff} {effs : List Eff} {s : State} (near : e.chord = none) (scratch : e.scratch = true)
    (kind : e.kind ≠ .qw ∧ ∀ l, e.kind ≠ .push l) : submit effs s e = performLocal s e := by
  obtain ⟨single, many⟩ := kind
  have unflat : e.flat = false := by simp [Eff.flat, scratch]
  have free : e.blocked s s.exe.nextId = false := by
    unfold Eff.blocked
    split
    · next same => exact absurd same single
    · next same => exact absurd same (many _)
    · simp [unflat]
  simp [submit, near, free, unflat]

/-- R58: holding nothing leaves every group as it is. -/
theorem group_holdEffs_nil (s : State) (gid k : Nat) : (holdEffs s gid []).group k = s.group k := by
  unfold holdEffs
  rw [List.foldl_nil, group_modGroup]
  split
  · next same =>
    subst same
    cases s.group k <;> rfl
  · rfl

theorem holdEffs_nil_mem (s : State) (gid : Nat) : (holdEffs s gid []).mem = s.mem := rfl

/-- R57, R66: a write-type word whose one effect is no effect of an open span. -/
theorem writeOp_one {i : Instr} {s : State} {h : Here} {f : WriteForm} {e : Eff}
    (checked : operandCheck h (f.addr.toList ++ f.data.toList) none true = none)
    (ready : writeReady h f = true) (unseen : writeHit s h f = none) (made : effectsOf f s h = ([e], s)) (outside : e.owners = 0)
    (clean : e.fate = .clean) : writeOp i s h f true = .next (retire (submit [e] (holdEffs s h.g.id []) e) h) := by
  simp only [writeOp, checked, ready, Bool.not_true, Bool.false_eq_true, if_false, unseen, issueEffects, made]
  simp [outside, watchRetired, watchStop, performAll_clean clean]

/-- R12, R55: outside a span the threads of a uniform word have no span open. -/
theorem uniform_owners {h : Here} (closed : closedSpan h) : (maskOf fun t => (vecThreads h.g h.p).any (·.1 = t)) &&& h.g.span.opened = 0 := by
  apply BitVec.eq_of_getLsbD_eq
  intro i hi
  rw [BitVec.getLsbD_and, getLsbD_maskOf _ _ hi, show BitVec.getLsbD (0 : Mask) i = false from BitVec.getLsbD_zero, Bool.and_eq_false_iff, Classical.or_iff_not_imp_left,
    Bool.not_eq_false, List.any_eq_true]
  rintro ⟨x, hx, same⟩
  have active : i ∈ enabledThreads h.p := of_decide_eq_true same ▸ (vecThreads_fst h.g h.p).subset (List.mem_map_of_mem hx)
  obtain ⟨-, bit⟩ := mem_threadsOf.mp (List.mem_filter.mp active).1
  have none := congrArg (·.getLsbD i) closed
  simpa [bit] using none

/-! ## SWSET and SWADD (R80, R280) -/

/-- R280: the form of SWSET and SWADD. -/
def syncForm (h : Here) (kind : EffKind) (d : BitVec 7) (ea : Bool) (a : BitVec 7) : WriteForm :=
  let off : Option Nat := match uniThreads h.g h.p with
    | (t, none) :: _ => match addrOf h (rSrc true a ea) true 0 t with
      | .inr va => if syncAt h.w va.toNat then some va.toNat else none
      | .inl _ => none
    | _ => none
  { unif := true, scratch := true, addr := some (rSrc true a ea), data := some (rSrc true d false), align := 16, extent := 16
    size := if kind = .swset then 8 else 4, kind := kind
    shape := fun ws => if kind = .swset then ws ++ [0] else ws
    pre := fun s => match off with | some o => nameSync s h.w.id o | none => s }

/-- R57, R280: the effect of SWSET and SWADD of one thread. -/
def syncEffect (s : State) (h : Here) (kind : EffKind) (t0 : Nat) (off x : Word) : Eff :=
  { kind := kind, t := t0, gid := h.g.id, ctx := h.w.ctx, part := (s.ctx h.w.ctx).elim 0 (·.part), core := h.w.coreNo
    ags := execAgents h true t0, pc := h.p.pc, scratch := true, va := off.setWidth 64, pa := h.w.scratchBase + off.toNat, chord := none
    size := if kind = .swset then 8 else 4, data := if kind = .swset then [x, 0] else [x], apoi := none, dpoi := none, gpoi := none
    origin := 0, inst := h.g.retired, owners := 0, level := 0 }

section

variable {s : State} {h : Here} {d a : BitVec 7} {ea : Bool} {t0 : Nat} {off x : Word} {kind : EffKind} (hh : s.here = some h)
  (one : uniThreads h.g h.p = [(t0, none)]) (guard : guardFull h.g h.p = true) (named : readSrc h.g h.p (rSrc true a ea) t0 = .words [off])
  (aligned : off.toNat % 16 = 0) (inside : off.toNat + 16 ≤ h.w.scratch) (known : h.w.syncs.contains off.toNat = true)
  (closed : closedSpan h) (data : readSrc h.g h.p (rSrc true d false) t0 = .words [x])
  (sync : kind = .swset ∨ kind = .swadd)

include hh one named aligned inside known in
/-- R80: the sync word is named already. -/
theorem syncForm_pre : (syncForm h kind d ea a).pre s = s := by
  obtain ⟨-, -, own, id, -⟩ := here_eq s h hh
  have at' : syncAt h.w (off.setWidth 64 : DWord).toNat = true := by
    rw [syncAt, toNat_setWidth_word, Bool.and_eq_true, decide_eq_true_eq, decide_eq_true_eq]
    exact ⟨aligned, inside⟩
  simp only [syncForm, one, addrOf_scratch named, at', if_true]
  rw [toNat_setWidth_word]
  exact nameSync_named (id ▸ own) known

include hh one named aligned inside known closed data sync in
theorem effectsOf_sync : effectsOf (syncForm h kind d ea a) s h = ([syncEffect s h kind t0 off x], s) := by
  have outside := uniform_owners closed
  have drafted : draft h (syncForm h kind d ea a) s (t0, none) = ({
      t := t0, guard := none, va := off.setWidth 64, addr := .loc (h.w.scratchBase + off.toNat)
      data := if kind = .swset then [x, 0] else [x], dpoi := none, conv := none }, s) := by
    simp only [draft, syncForm, addrOf_scratch named, checkAccess_sync s t0 { write := true } aligned inside, rawData_words data]
    rfl
  have ths : execThreads (syncForm h kind d ea a).unif h.g h.p = [(t0, none)] := one
  simp only [effectsOf, syncForm_pre hh one named aligned inside known, ths, List.foldl_cons, List.foldl_nil, drafted, List.nil_append,
    List.flatMap_cons, List.flatMap_nil, newRecords, List.map_cons, List.map_nil]
  refine congrArg (fun e => ([e], s)) ?_
  simp only [effectOf, syncEffect, WriteForm.threads]
  obtain rfl | rfl := sync
  · simp [syncForm, outside]
  · simp [syncForm, outside]

include hh one guard named aligned inside known closed data sync in
/-- R57, R66, R280: an update of a sync word outside a span is performed as it issues. -/
theorem writeOp_sync (i : Instr) : writeOp i s h (syncForm h kind d ea a) true =
    .next (retire (performLocal (holdEffs s h.g.id []) (syncEffect s h kind t0 off x)) h) := by
  have ths : execThreads (syncForm h kind d ea a).unif h.g h.p = [(t0, none)] := one
  have ready : writeReady h (syncForm h kind d ea a) = true := by
    rw [writeReady, ths, guard]
    simp [syncForm, srcReady_of_words named, srcReady_of_words data]
  rw [writeOp_one (operandCheck_uniform h a d ea false) ready rfl (effectsOf_sync hh one named aligned inside known closed data sync) rfl rfl]
  have kinds : kind ≠ .qw ∧ ∀ l, kind ≠ .push l := by obtain rfl | rfl := sync <;> simp
  rw [submit_unplaced rfl rfl kinds]

end

/-! ## The rule of a sync word (R80) -/

/-- What a write of the scratchpad leaves: every group but for its monitor, and all outside the device. -/
def ScratchOnly (s t : State) : Prop := SameGroups s t ∧ t.host = s.host

theorem ScratchOnly.trans {s t u : State} (h : ScratchOnly s t) (k : ScratchOnly t u) : ScratchOnly s u :=
  ⟨h.1.trans k.1, k.2.trans h.2⟩

section

variable {s : State} {ags : List Nat} {a : Nat} (high : 0x10000000000000 ≤ a)

include high in
theorem scratchOnly_writeOne (v : Word) : ScratchOnly s (writeOne s ags a v 0xF false 0 0) :=
  ⟨sameGroups_writeOne s ags v false 0 0 0xF, writeOne_scratch_host s ags high v false 0 0 0xF⟩

/-- R80: the count has not reached the target. -/
theorem syncRule_short (short : ¬ (memWord s.mem a ≠ 0 ∧ memWord s.mem a ≤ memWord s.mem (a + 4))) : syncRule s ags a = s := by
  simp only [syncRule]
  rw [if_neg (by simpa using short)]

/-- R80: the count has reached the target. -/
theorem syncRule_reached (reached : memWord s.mem a ≠ 0 ∧ memWord s.mem a ≤ memWord s.mem (a + 4)) :
    memWord (syncRule s ags a).mem (a + 4) = memWord s.mem (a + 4) % memWord s.mem a ∧
      memWord (syncRule s ags a).mem (a + 8) = memWord s.mem (a + 8) + memWord s.mem (a + 4) / memWord s.mem a := by
  simp only [syncRule]
  rw [if_pos (by simpa using reached)]
  constructor
  · rw [memWord_writeOne, memWord_setWord_other _ _ _ _ (by omega), memWord_writeOne, memWord_setWord_same]
  · rw [memWord_writeOne, memWord_setWord_same, memWord_writeOne, memWord_setWord_other _ _ _ _ (by omega)]

/-- R80: count and generation after the rule. -/
theorem syncRule_updates : if memWord s.mem a ≠ 0 ∧ memWord s.mem a ≤ memWord s.mem (a + 4) then
      memWord (syncRule s ags a).mem (a + 4) = memWord s.mem (a + 4) % memWord s.mem a ∧
        memWord (syncRule s ags a).mem (a + 8) = memWord s.mem (a + 8) + memWord s.mem (a + 4) / memWord s.mem a
    else memWord (syncRule s ags a).mem (a + 4) = memWord s.mem (a + 4) ∧ memWord (syncRule s ags a).mem (a + 8) = memWord s.mem (a + 8) := by
  split
  · next reached => exact syncRule_reached reached
  · next short =>
    rw [syncRule_short short]
    exact ⟨rfl, rfl⟩

/-- R80: the rule writes count and generation and no other byte. -/
theorem memByte_syncRule {b : Nat} (hb : b < a + 4 ∨ a + 12 ≤ b) : memByte (syncRule s ags a).mem b = memByte s.mem b := by
  by_cases reached : memWord s.mem a ≠ 0 ∧ memWord s.mem a ≤ memWord s.mem (a + 4)
  · simp only [syncRule]
    rw [if_pos (by simpa using reached), memByte_writeOne, memByte_setWord_outside _ _ _ _ (by omega), memByte_writeOne,
      memByte_setWord_outside _ _ _ _ (by omega)]
  · rw [syncRule_short reached]

include high in
theorem scratchOnly_syncRule : ScratchOnly s (syncRule s ags a) := by
  by_cases reached : memWord s.mem a ≠ 0 ∧ memWord s.mem a ≤ memWord s.mem (a + 4)
  · simp only [syncRule]
    rw [if_pos (by simpa using reached)]
    exact (scratchOnly_writeOne (Nat.le_add_right_of_le high) _).trans (scratchOnly_writeOne (Nat.le_add_right_of_le high) _)
  · rw [syncRule_short reached]
    exact ⟨fun _ => rfl, rfl⟩

/-- R280: SWSET leaves its target and no count. -/
theorem syncSet_eq (x : Word) : syncSet s ags a x = writeOne (writeOne s ags a x 0xF false 0 0) ags (a + 4) 0 0xF false 0 0 := by
  refine syncRule_short fun ⟨target, reached⟩ => target ?_
  rw [memWord_writeOne _ _ _ _ _ _ _ (a + 4), memWord_setWord_same] at reached
  exact BitVec.le_zero_iff.mp reached

include high in
/-- R280: SWSET writes the target of a sync word and clears its count. -/
theorem syncSet_updates (x : Word) : ScratchOnly s (syncSet s ags a x) ∧ memWord (syncSet s ags a x).mem a = x ∧
    memWord (syncSet s ags a x).mem (a + 4) = 0 ∧ ∀ b, b < a ∨ a + 8 ≤ b → memByte (syncSet s ags a x).mem b = memByte s.mem b := by
  rw [syncSet_eq]
  refine ⟨(scratchOnly_writeOne high _).trans (scratchOnly_writeOne (Nat.le_add_right_of_le high) _), ?_, ?_, fun b hb => ?_⟩
  · rw [memWord_writeOne, memWord_setWord_other _ _ _ _ (by omega), memWord_writeOne, memWord_setWord_same]
  · rw [memWord_writeOne, memWord_setWord_same]
  · rw [memByte_writeOne, memByte_setWord_outside _ _ _ _ (by omega), memByte_writeOne, memByte_setWord_outside _ _ _ _ (by omega)]

include high in
/-- R80: bytes that arrive are added to the count, and where it reaches the target the generation advances. -/
theorem syncAdd_updates (x : Word) : ScratchOnly s (syncAdd s ags a x) ∧
    (∀ b, b < a + 4 ∨ a + 12 ≤ b → memByte (syncAdd s ags a x).mem b = memByte s.mem b) ∧
    (let target := memWord s.mem a
     let count := memWord s.mem (a + 4) + x
     if target ≠ 0 ∧ target ≤ count then memWord (syncAdd s ags a x).mem (a + 4) = count % target ∧
       memWord (syncAdd s ags a x).mem (a + 8) = memWord s.mem (a + 8) + count / target
     else memWord (syncAdd s ags a x).mem (a + 4) = count ∧ memWord (syncAdd s ags a x).mem (a + 8) = memWord s.mem (a + 8)) := by
  rw [syncAdd]
  have first := scratchOnly_writeOne (s := s) (ags := ags) (a := a + 4) (Nat.le_add_right_of_le high) (memWord s.mem (a + 4) + x)
  have target : memWord (writeOne s ags (a + 4) (memWord s.mem (a + 4) + x) 0xF false 0 0).mem a = memWord s.mem a := by
    rw [memWord_writeOne, memWord_setWord_other _ _ _ _ (by omega)]
  have count : memWord (writeOne s ags (a + 4) (memWord s.mem (a + 4) + x) 0xF false 0 0).mem (a + 4) = memWord s.mem (a + 4) + x := by
    rw [memWord_writeOne, memWord_setWord_same]
  have gen : memWord (writeOne s ags (a + 4) (memWord s.mem (a + 4) + x) 0xF false 0 0).mem (a + 8) = memWord s.mem (a + 8) := by
    rw [memWord_writeOne, memWord_setWord_other _ _ _ _ (by omega)]
  refine ⟨first.trans (scratchOnly_syncRule high), fun b hb => ?_, ?_⟩
  · rw [memByte_syncRule hb, memByte_writeOne, memByte_setWord_outside _ _ _ _ (by omega)]
  · have rule := syncRule_updates (ags := ags) (s := writeOne s ags (a + 4) (memWord s.mem (a + 4) + x) 0xF false 0 0) (a := a)
    rw [target, count, gen] at rule
    exact rule

end

/-- R446: a word that retires after a write of the scratchpad. -/
theorem retired_of_scratchOnly {s u : State} {h : Here} (hh : s.here = some h) (only : ScratchOnly (holdEffs s h.g.id []) u) :
    (retire u h).mem = u.mem ∧ (retire u h).host = s.host ∧ ∃ g', (retire u h).group h.g.id = some g' ∧ WentOn h g' (nextPc h.p.pc) ∧ OnlyMonitor h g' := by
  obtain ⟨same, outside⟩ := only
  obtain ⟨-, own, -, -, listed⟩ := here_eq s h hh
  obtain ⟨m, found⟩ := same.group ((group_holdEffs_nil s h.g.id h.g.id).trans own)
  exact ⟨rfl, outside, _, group_retire found, wentOn_goneOn listed rfl rfl _, rfl⟩

section

variable {s : State} {h : Here} {d a : BitVec 7} {ea : Bool} {t0 : Nat} {off x : Word} (hh : s.here = some h)
  (one : uniThreads h.g h.p = [(t0, none)]) (guard : guardFull h.g h.p = true) (named : readSrc h.g h.p (rSrc true a ea) t0 = .words [off])
  (aligned : off.toNat % 16 = 0) (inside : off.toNat + 16 ≤ h.w.scratch) (known : h.w.syncs.contains off.toNat = true)
  (closed : closedSpan h) (data : readSrc h.g h.p (rSrc true d false) t0 = .words [x])
include hh one guard named aligned inside known closed data

theorem exec_swset : exec (.swset d ea a) s =
    .next (retire (syncSet (holdEffs s h.g.id []) (execAgents h true t0) (h.w.scratchBase + off.toNat) x) h) :=
  (issuing_eq s h _ hh).trans (writeOp_sync hh one guard named aligned inside known closed data (.inl rfl) _)

theorem exec_swadd : exec (.swadd d ea a) s =
    .next (retire (syncAdd (holdEffs s h.g.id []) (execAgents h true t0) (h.w.scratchBase + off.toNat) x) h) :=
  (issuing_eq s h _ hh).trans (writeOp_sync hh one guard named aligned inside known closed data (.inr rfl) _)

/-- R80, R280: SWSET of one thread. -/
theorem swset_updates : ∃ t g', exec (.swset d ea a) s = .next t ∧ t.host = s.host ∧ t.group h.g.id = some g' ∧
    WentOn h g' (nextPc h.p.pc) ∧ OnlyMonitor h g' ∧ memWord t.mem (h.w.scratchBase + off.toNat) = x ∧
    memWord t.mem (h.w.scratchBase + off.toNat + 4) = 0 ∧
    ∀ b, b < h.w.scratchBase + off.toNat ∨ h.w.scratchBase + off.toNat + 8 ≤ b → memByte t.mem b = memByte s.mem b := by
  obtain ⟨only, target, count, bytes⟩ := syncSet_updates (s := holdEffs s h.g.id []) (ags := execAgents h true t0)
    (scratch_ge h.w off.toNat) x
  rw [holdEffs_nil_mem] at bytes
  obtain ⟨mem, outside, g', found, went, same⟩ := retired_of_scratchOnly hh only
  refine ⟨_, g', exec_swset hh one guard named aligned inside known closed data, outside, found, went, same, ?_⟩
  rw [mem]
  exact ⟨target, count, bytes⟩

/-- R80, R280: SWADD of one thread. -/
theorem swadd_updates : ∃ t g', exec (.swadd d ea a) s = .next t ∧ t.host = s.host ∧ t.group h.g.id = some g' ∧
    WentOn h g' (nextPc h.p.pc) ∧ OnlyMonitor h g' ∧
    (∀ b, b < h.w.scratchBase + off.toNat + 4 ∨ h.w.scratchBase + off.toNat + 12 ≤ b → memByte t.mem b = memByte s.mem b) ∧
    (let target := memWord s.mem (h.w.scratchBase + off.toNat)
     let count := memWord s.mem (h.w.scratchBase + off.toNat + 4) + x
     if target ≠ 0 ∧ target ≤ count then memWord t.mem (h.w.scratchBase + off.toNat + 4) = count % target ∧
       memWord t.mem (h.w.scratchBase + off.toNat + 8) = memWord s.mem (h.w.scratchBase + off.toNat + 8) + count / target
     else memWord t.mem (h.w.scratchBase + off.toNat + 4) = count ∧
       memWord t.mem (h.w.scratchBase + off.toNat + 8) = memWord s.mem (h.w.scratchBase + off.toNat + 8)) := by
  obtain ⟨only, bytes, words⟩ := syncAdd_updates (s := holdEffs s h.g.id []) (ags := execAgents h true t0) (scratch_ge h.w off.toNat) x
  rw [holdEffs_nil_mem] at bytes words
  obtain ⟨mem, outside, g', found, went, same⟩ := retired_of_scratchOnly hh only
  refine ⟨_, g', exec_swadd hh one guard named aligned inside known closed data, outside, found, went, same, ?_⟩
  rw [mem]
  exact ⟨bytes, words⟩

end

/-! ## SWGEN (R103, R280) -/

/-- R53, R87: agents read a word that has settled. -/
theorem readOne_settled {ags : List Nat} {a : Nat} {s : State} (ctx : Option Nat) (part : Nat) (settled : settledWord s ags a) :
    ∃ t, readOne s ctx part ags a = ((memWord s.mem a, none), t) ∧ SeesMore s t := by
  obtain ⟨sound, clean, near, one⟩ := settled
  have fetched : fetchHalf s ctx part a = s := by
    unfold fetchHalf
    split
    · next host => exact absurd host near
    · rfl
  have unchosen : ¬ (readable s.mem (ags.foldl (fun n g => max n (sget 0 (floorsOf s.mem g) a)) 0) a).length > 1 := Nat.not_lt.mpr one
  simp only [readOne, fetched, sound, Bool.false_eq_true, if_false, readFrom_settled one, latestWord, clean, unchosen]
  refine ⟨_, rfl, ?_⟩
  split
  · rfl
  · exact congrArg s.withMem (views_raiseFloors (fun _ _ => _) ags s.mem)

/-- R260: the word of a whole word's bytes. -/
theorem loadBytes_word {σ : Type} (rd : σ → Nat → Got × σ) (c c' : σ) (q : Nat) (w : Word) (read : rd c (4 * q) = ((w, none), c')) :
    loadBytes rd c (4 * q) 4 [] = (bytesOfWord w, none, c') := by
  have words : ((List.range 4).map fun k => (4 * q + k) / 4 * 4).eraseDups = [4 * q] := by
    rw [List.map_congr_left (g := fun _ => 4 * q) fun k hk => by have := List.mem_range.mp hk; omega]
    simp [List.range_succ, List.eraseDups_cons]
  have all : (List.range 4).filter (fun k => (4 * q + k) / 4 * 4 = 4 * q) = List.range 4 :=
    List.filter_eq_self.mpr fun k hk => by
      have := List.mem_range.mp hk
      simp only [decide_eq_true_eq]
      omega
  simp only [loadBytes, words, List.foldl_cons, List.foldl_nil, all, read]
  simp [sfind, List.range_succ, bytesOfWord]

theorem wordsOfBytes_bytesOfWord (w : Word) : wordsOfBytes (bytesOfWord w) = [w] := by
  rw [wordsOfBytes, length_bytesOfWord]
  exact congrArg (· :: []) (wordOfBytes_bytesOfWord w)

/-- R260: a load of one word that has settled. -/
theorem loadNow_settled {ags : List Nat} {s : State} {ctx part q : Nat} (settled : settledWord s ags (4 * q)) :
    ∃ c, loadNow ([], s) ctx part none (fun _ => ags) (4 * q) 4 .raw [] = (.inr [memWord s.mem (4 * q)], c) ∧ SeesMore s c.2 := by
  obtain ⟨t, read, seen⟩ := readOne_settled (some ctx) part settled
  have shared : readShared ctx part none (fun _ => ags) ([], s) (4 * q) =
      ((memWord s.mem (4 * q), none), ([(4 * q, (memWord s.mem (4 * q), none))], t)) := by
    simp [readShared, read]
  refine ⟨([(4 * q, (memWord s.mem (4 * q), none))], t), ?_, seen⟩
  simp only [loadNow, loadBytes_word _ _ _ _ _ shared, loadValue, wordsOfBytes_bytesOfWord]

theorem heldBytes_none {m : MemSys} {w : WG} {g : Group} (none : g.quar = []) (t place size : Nat) : heldBytes m w g t place size = [] := by
  simp [heldBytes, none]

theorem logRead_value {s : State} {h : Here} (hl : logging s h.w.ctx = false) (kind t : Nat) (foreign : Bool) (n : Nat) (va : Option DWord)
    (ws : List Word) : logRead s h kind t foreign n va (.value ws) = some (.value ws, s) := by
  simp only [logRead]
  rw [throughLog_unlogged (r := h.receives s kind t) hl]
  rfl

theorem SeesMore.logging {s t : State} (h : SeesMore s t) (tag : Nat) : logging t tag = logging s tag := by
  rw [SeesMore] at h
  rw [h]
  rfl

theorem loadPending_value (s : State) (h : Here) (f : LoadForm) (all : List (Nat × LoadOut)) (toks : List (Fresh × Token)) (t : Nat)
    (ws : List Word) : loadPending s h f all toks t (.value ws) =
      addPending s h.g.id t h.p.pc (.ready (valueRegs (destsOf h.g h.p f.dst t) ws)) := rfl

/-- R77: the sync word of an offset lies at a multiple of four. -/
theorem syncGen_aligned (w : WG) {off : Nat} (aligned : off % 16 = 0) : ∃ q, w.scratchBase + off + 8 = 4 * q := by
  refine ⟨(0x10000000000000 + w.id * 0x100000 + off + 8) / 4, ?_⟩
  rw [WG.scratchBase]
  omega

/-- R103, R280: what SWGEN makes of the word that its thread has read. -/
def swgenRead (h : Here) (t : Nat) (va : DWord) : Sum (Cause × Word) (List Word) × Reads → LoadOut × State
  | (.inr ws, c) => (.value ws, joinSync c.2 h.w (execAgents h true t) va.toNat (ws.headD 0) (ws.headD 0))
  | (.inl (k, o), c) => (.fresh { t := t, cause := k, addr := some va, gorigin := o }, c.2)

/-- R280: SWGEN reads the gen of the sync word at a place of the scratchpad. -/
def swgenAt (s : State) (h : Here) (t : Nat) (va : DWord) (pa : Nat) : LoadOut × State :=
  swgenRead h t va (loadNow ([], nameSync s h.w.id va.toNat) h.w.ctx (((nameSync s h.w.id va.toNat).ctx h.w.ctx).elim 0 (·.part)) none
    (fun _ => execAgents h true t) (pa + 8) 4 .raw (heldBytes s.mem h.w h.g t (pa + 8) 4))

/-- R255, R280: what SWGEN finds where the checks of its address lead. -/
def swgenChecked (h : Here) (t : Nat) (va : DWord) : AddrOut × State → LoadOut × State
  | (.loc pa, s) => swgenAt s h t va pa
  | (.fresh x, s) => (.fresh x, s)
  | (_, s) => (.tok 0, s)

/-- R280: what SWGEN finds for its thread. -/
def swgenLook (s : State) (h : Here) (t : Nat) : Sum AddrOut DWord → LoadOut × State
  | .inl (.tok k) => (.tok k, s)
  | .inl (.fresh x) => (.fresh x, s)
  | .inl _ => (.tok 0, s)
  | .inr va => swgenChecked h t va (checkAccess s h t true {} 16 16 va)

theorem swgenChecked_loc (s : State) (h : Here) (t : Nat) (va : DWord) (pa : Nat) : swgenChecked h t va (.loc pa, s) = swgenAt s h t va pa := rfl

theorem swgenLook_address (s : State) (h : Here) (t : Nat) (va : DWord) :
    swgenLook s h t (.inr va) = swgenChecked h t va (checkAccess s h t true {} 16 16 va) := rfl

theorem swgenRead_word (h : Here) (t : Nat) (va : DWord) (w : Word) (c : Reads) :
    swgenRead h t va (.inr [w], c) = (.value [w], joinSync c.2 h.w (execAgents h true t) va.toNat w w) := rfl

/-- R160, R459: the end of a SWGEN that has found `o`. -/
def swgenEnd (s s1 : State) (h : Here) (src : Src) (dst : Dst) (t : Nat) (o : LoadOut) : Result :=
  match logRead s1 h 2 t true 1 none o with
  | none => .next (waitForLog s h)
  | some (o, s) =>
    let (toks, s) := newRecords s h.g.id h.p.pc (h.g.span.opened.getLsbD ·) (match o with | .fresh x => [x] | _ => [])
    let form : LoadForm := { unif := true, scratch := true, const := false, size := 4, conv := .raw, src := src, off := 8, dst := dst }
    .next (retire (loadPending (markEmpty s h.g.id (destsOf h.g h.p dst t)) h form [(t, o)] toks t o) h)

theorem exec_swgen_one {s : State} {h : Here} {d a : BitVec 7} {ea : Bool} {t0 : Nat} (hh : s.here = some h)
    (one : uniThreads h.g h.p = [(t0, none)]) (ready : operandsReady h [(t0, none)] [rSrc true a ea] (some (rDst true d)) = true) :
    exec (.swgen d ea a) s = swgenEnd s (swgenLook s h t0 (addrOf h (rSrc true a ea) true 0 t0)).2 h (rSrc true a ea) (rDst true d) t0
      (swgenLook s h t0 (addrOf h (rSrc true a ea) true 0 t0)).1 := by
  refine (issuing_eq s h _ hh).trans ?_
  simp only [one, ready, Bool.not_true, Bool.false_eq_true, if_false]
  rfl

theorem swgenLook_named {s : State} {h : Here} {src : Src} {t0 q : Nat} {off : Word} (hh : s.here = some h)
    (named : readSrc h.g h.p src t0 = .words [off]) (aligned : off.toNat % 16 = 0) (inside : off.toNat + 16 ≤ h.w.scratch)
    (known : h.w.syncs.contains off.toNat = true) (unheld : h.g.quar = []) (place : h.w.scratchBase + off.toNat + 8 = 4 * q)
    (settled : settledWord s (execAgents h true t0) (4 * q)) :
    ∃ u, swgenLook s h t0 (addrOf h src true 0 t0) = (.value [memWord s.mem (4 * q)], u) ∧ SeesMore s u := by
  obtain ⟨-, -, own, id, -⟩ := here_eq s h hh
  obtain ⟨c, load, seen⟩ := loadNow_settled (ctx := h.w.ctx) (part := (s.ctx h.w.ctx).elim 0 (·.part)) settled
  refine ⟨_, ?_, seen.trans (seesMore_joinSync c.2 h.w (execAgents h true t0) (off.setWidth 64 : DWord).toNat
    (memWord s.mem (4 * q)) (memWord s.mem (4 * q)))⟩
  rw [addrOf_scratch named, swgenLook_address, checkAccess_sync s t0 {} aligned inside, swgenChecked_loc, swgenAt, place,
    heldBytes_none unheld, nameSync_named (id ▸ own) (by rwa [toNat_setWidth_word]), load, swgenRead_word]

/-- R160: the generation is in flight to the destination of a SWGEN, which is empty. -/
def swgenIssued (u : State) (h : Here) (d : BitVec 7) (t0 : Nat) (gen : Word) : State :=
  addPending (markEmpty u h.g.id (destsOf h.g h.p (rDst true d) t0)) h.g.id t0 h.p.pc
    (.ready (valueRegs (destsOf h.g h.p (rDst true d) t0) [gen]))

theorem swgenEnd_value {s u : State} {h : Here} (hl : logging u h.w.ctx = false) (src : Src) (d : BitVec 7) (t : Nat) (w : Word) :
    swgenEnd s u h src (rDst true d) t (.value [w]) = .next (retire (swgenIssued u h d t w) h) := by
  rw [swgenEnd, logRead_value hl]
  rfl

theorem destsOf_uniform (g : Group) (p : Path) (d : BitVec 7) (t : Nat) : destsOf g p (rDst true d) t = [⟨1, d.toNat, 0⟩] := rfl

/-- R160: the group of a SWGEN once its word has retired. -/
theorem group_swgenIssued {u : State} {h : Here} (own : u.group h.g.id = some h.g) (d : BitVec 7) (t : Nat) (w : Word) :
    (retire (swgenIssued u h d t w) h).group h.g.id =
      some ((sSet h.g d.toNat { val := 0, full := false }).goneOn h.pid (nextPc h.p.pc)) := by
  refine group_retire ?_
  show (markEmpty u h.g.id _).group h.g.id = _
  rw [markEmpty, group_modGroup_same, own, destsOf_uniform]
  rfl

/-- R160: the generation is in flight. -/
theorem inFlight_swgenIssued (u : State) (h : Here) (d : BitVec 7) (t : Nat) (w : Word) :
    InFlight (retire (swgenIssued u h d t w) h) h t (.ready (valueRegs (destsOf h.g h.p (rDst true d) t) [w])) :=
  ⟨u.exe.nextId, _, sfind_sins_same _ _ _, rfl, rfl, rfl, rfl⟩

theorem sGet_goneOn (g : Group) (pid : Nat) (pc : DWord) (n : Nat) : sGet (g.goneOn pid pc) n = sGet g n := rfl

/-- R49, R160: the destination of a SWGEN is empty, and every other register is as it was. -/
theorem awaitsResults_swgen (h : Here) (d : BitVec 7) (t : Nat) (pc : DWord) :
    AwaitsResults h ((sSet h.g d.toNat { val := 0, full := false }).goneOn h.pid pc) (rDst true d) [(t, none)] := by
  refine ⟨fun t' ht x hx => ?_, fun n u _ _ => rfl, fun n out => ?_, rfl, rfl⟩
  · obtain rfl := List.mem_singleton.mp ht
    rw [destsOf_uniform] at hx
    obtain rfl := List.mem_singleton.mp hx
    show (sGet ((sSet h.g d.toNat { val := 0, full := false }).goneOn h.pid pc) d.toNat).full = false
    rw [sGet_goneOn, sGet_sSet, if_pos rfl]
  · have other : n ≠ d.toNat := by
      rintro rfl
      exact out _ (List.mem_singleton_self _) (destsOf_uniform h.g h.p d t ▸ List.mem_singleton_self _)
    rw [sGet_goneOn, sGet_sSet, if_neg other]

/-- R80, R103, R280: SWGEN of one thread that names a sync word whose generation has settled. -/
theorem swgen_reads {s : State} {h : Here} {d a : BitVec 7} {ea : Bool} {t0 : Nat} {off : Word} (hh : s.here = some h)
    (one : uniThreads h.g h.p = [(t0, none)]) (named : readSrc h.g h.p (rSrc true a ea) t0 = .words [off])
    (aligned : off.toNat % 16 = 0) (inside : off.toNat + 16 ≤ h.w.scratch) (known : h.w.syncs.contains off.toNat = true)
    (ready : operandsReady h [(t0, none)] [rSrc true a ea] (some (rDst true d)) = true) (unlogged : logging s h.w.ctx = false)
    (unheld : h.g.quar = []) (settled : settledWord s (execAgents h true t0) (h.w.scratchBase + off.toNat + 8)) :
    ∃ t g', Done (.swgen d ea a) s h t g' ∧ OnlyRegisters h.g g' ∧ AwaitsResults h g' (rDst true d) [(t0, none)] ∧
      InFlight t h t0 (.ready (valueRegs (destsOf h.g h.p (rDst true d) t0) [memWord s.mem (h.w.scratchBase + off.toNat + 8)])) := by
  obtain ⟨-, own, -, -, listed⟩ := here_eq s h hh
  obtain ⟨q, place⟩ := syncGen_aligned h.w aligned
  rw [place] at settled ⊢
  obtain ⟨u, look, seen⟩ := swgenLook_named hh named aligned inside known unheld place settled
  have done := exec_swgen_one hh one ready
  rw [look, swgenEnd_value ((seen.logging _).trans unlogged)] at done
  have found : u.group h.g.id = some h.g := by
    rw [SeesMore] at seen
    rw [seen]
    exact own
  refine ⟨_, _, ⟨done, fun b => ?_, ?_, group_swgenIssued found d t0 _, wentOn_goneOn listed rfl rfl _⟩, rfl, awaitsResults_swgen h d t0 _,
    inFlight_swgenIssued u h d t0 _⟩
  · show memByte u.mem b = _
    rw [SeesMore] at seen
    rw [seen]
    rfl
  · show u.host = _
    rw [SeesMore] at seen
    rw [seen]
    rfl

/-- Settles O24: SWSET and SWADD by the rule of a sync word, SWGEN by the word that it reads. -/
theorem syncWordOperations : Obligations.SyncWordOperations := by
  intro s h d a ea t0 off x hh one guard named aligned inside known
  exact ⟨fun closed data => ⟨swset_updates hh one guard named aligned inside known closed data,
      swadd_updates hh one guard named aligned inside known closed data⟩,
    fun ready unlogged unheld settled => swgen_reads hh one named aligned inside known ready unlogged unheld settled⟩

end Sys2Proof.Machine
end

section
/-!
SUPPORT. Commands to contexts (R378, R379, R392): how a command is answered, what CREATE writes, what INVAL drops, and what the end of a
context keeps of the lines that engine operations hold in flight (R77).
-/

namespace Sys2Proof.Machine

open Sys2Proof Sys2Proof.Laws

/-! ## Replies (R379) -/

/-- R379: with no PREEMPT before it a reply leaves at once. -/
theorem reply_send {s : State} (hr : s.host.replies = []) (code detail : Nat) :
    reply s 1 code detail = s.send (.reply 1 (BitVec.ofNat 32 (256 * detail + code))) := by
  simp [reply, hr, replyWord]

/-- R379: a command with one failing condition. -/
theorem command1_one {s : State} (hs : served s = true) (bad : Bool) (k : State → State) :
    command1 s [(bad, 1)] k = if bad then .next (reply s 1 1 1) else .next (reply (k s) 1 0 0) := by
  unfold command1
  rw [hs]
  cases bad <;> rfl

/-- R378, R379: of the failing conditions of CREATE the one with the lowest code answers. -/
theorem command1_create {s : State} (hs : served s = true) (tag full part late : Bool) {n : Nat} (hn : n = 3 ∨ n = 4) (k : State → State) :
    command1 s [(tag, n), (full, 2), (part, 1), (late, 5)] k =
      if part then .next (reply s 1 1 3) else if full then .next (reply s 1 2 2) else if tag then .next (reply s 1 n 1)
      else if late then .next (reply s 1 5 4) else .next (reply (k s) 1 0 0) := by
  unfold command1
  rw [hs]
  obtain rfl | rfl := hn
  · cases tag <;> cases full <;> cases part <;> cases late <;> rfl
  · cases tag <;> cases full <;> cases part <;> cases late <;> rfl

/-! ## CREATE (R378) -/

/-- A management word that a run of writes of zero covers is zero, and another is what it was. -/
theorem mgmt_zeroed (s : State) (base n k : Nat) : ((List.range n).foldl (fun s k => s.setMgmt (base + 4 * k) 0) s).mgmt k =
    if ∃ j, j < n ∧ k = base + 4 * j then 0 else s.mgmt k := by
  induction n with
  | zero => simp
  | succ n ih =>
    rw [List.range_succ, List.foldl_append, List.foldl_cons, List.foldl_nil, mgmt_setMgmt, ih]
    by_cases h : k = base + 4 * n
    · rw [if_pos h, if_pos ⟨n, Nat.lt_succ_self n, h⟩]
    · rw [if_neg h]
      congr 1
      refine propext ⟨fun ⟨j, hj, e⟩ => ⟨j, by omega, e⟩, fun ⟨j, hj, e⟩ => ⟨j, ?_, e⟩⟩
      have : j ≠ n := fun hjn => h (hjn ▸ e)
      omega

/-- Writes of management words change those words alone. -/
theorem zeroed_else (s : State) (base n : Nat) : let t := (List.range n).foldl (fun s k => s.setMgmt (base + 4 * k) 0) s
    t.mem = s.mem ∧ t.exe = s.exe ∧ t.host = { s.host with mgmt := t.host.mgmt } := by
  refine List.foldlRecOn (List.range n) _ (motive := fun t : State => t.mem = s.mem ∧ t.exe = s.exe ∧
    t.host = { s.host with mgmt := t.host.mgmt }) ⟨rfl, rfl, rfl⟩ ?_
  rintro t ⟨hm, he, hh⟩ k -
  refine ⟨hm, he, ?_⟩
  rw [State.setMgmt, hh]

/-- R378: CREATE enters its context and changes management words, and nothing else. -/
theorem createContext_else (s : State) (tag p : Nat) (root : DWord) : let t := createContext s tag p root
    t.mem = s.mem ∧ t.exe = s.exe ∧ t.host = { s.host with
      mgmt := t.host.mgmt, ctxs := sins s.host.ctxs tag { tag := tag, part := p, root := root &&& ~~~0xFFFF#64 } } := by
  have := zeroed_else (s.setMgmt64 (0x4000 + 32 * tag) (root &&& ~~~0xFFFF#64)) (debugBlock tag + 0x40) 8
  unfold createContext
  dsimp only at this ⊢
  generalize (List.range 8).foldl _ _ = t at this
  obtain ⟨hm, he, hh⟩ := this
  refine ⟨hm, he, ?_⟩
  rw [hh]
  rfl

theorem mgmt_withContexts (s : State) (cs : SMap Context) (k : Nat) : State.mgmt { s with host := { s.host with ctxs := cs } } k = s.mgmt k := rfl

theorem createContext_mgmt (s : State) (tag p : Nat) (root : DWord) (k : Nat) : (createContext s tag p root).mgmt k =
    if ∃ j, j < 8 ∧ k = debugBlock tag + 0x40 + 4 * j then 0 else (s.setMgmt64 (0x4000 + 32 * tag) (root &&& ~~~0xFFFF#64)).mgmt k := by
  unfold createContext
  dsimp only
  rw [mgmt_withContexts, mgmt_zeroed]

theorem createContext_root (s : State) {tag : Nat} (ht : tag ≤ 255) (p : Nat) (root : DWord) :
    (createContext s tag p root).mgmt64 (0x4000 + 32 * tag) = root &&& ~~~0xFFFF#64 := by
  rw [← mgmt64_setMgmt64 s (0x4000 + 32 * tag) (root &&& ~~~0xFFFF#64), State.mgmt64, State.mgmt64, createContext_mgmt, createContext_mgmt,
    if_neg, if_neg]
  · rintro ⟨j, -, e⟩
    unfold debugBlock at e
    omega
  · rintro ⟨j, -, e⟩
    unfold debugBlock at e
    omega

theorem execCreate_eq (tag p : Nat) (root : DWord) (s : State) : exec (.create tag p root) s = command1 s
    [(tag = 0 || 255 < tag || (s.ctx tag).isSome, if (s.ctx tag).isSome then 4 else 3), (64 ≤ s.host.ctxs.length, 2),
     (4 ≤ p || partMask s p = 0, 1), (!partitionReady s p, 5)] fun s => createContext s tag p root := rfl

/-- R378, R379, R417. -/
theorem contextCreated : Claim.ContextCreated := by
  intro s tag p root hs hr
  have code : (if (s.ctx tag).isSome then 4 else 3) = 3 ∨ (if (s.ctx tag).isSome then 4 else 3) = 4 := by split <;> simp
  unfold Answers
  simp only [execCreate_eq, command1_create hs _ _ _ _ code, reply_send hr]
  refine ⟨fun hp => by simp [hp], fun hp hm hl hc ht => ?_, fun h0 h255 hp hm hready hl => ?_⟩
  · replace hp := Nat.not_le.mpr hp
    replace hl := Nat.not_le.mpr hl
    replace hm : ¬ partMask s p = 0#4 := hm
    have bad : (decide (tag = 0) || decide (255 < tag) || (s.ctx tag).isSome) = true := by
      simpa using Or.inl ht
    rw [bad, if_neg (by simp [hm, hp]), if_neg (by simp [hl]), if_pos rfl, hc]
    rfl
  · replace hp := Nat.not_le.mpr hp
    replace hl := Nat.not_le.mpr hl
    replace hm : ¬ partMask s p = 0#4 := hm
    rw [if_neg (by simp [hm, hp]), if_neg (by simp [hl])]
    refine ⟨fun hc => ?_, fun hc => ?_⟩
    · rw [if_pos (by simp [hc]), hc]
      rfl
    · rw [if_neg (by simp [hc]; omega), if_neg (by simp [hready])]
      have root' := createContext_root s h255 p root
      have zero (k : Nat) (hk : k < 8) : (createContext s tag p root).mgmt (0x18000 + 0x100 * tag + 0x40 + 4 * k) = 0 := by
        rw [createContext_mgmt, if_pos ⟨k, hk, rfl⟩]
      have same := createContext_else s tag p root
      dsimp only at same
      generalize createContext s tag p root = t at root' zero same
      obtain ⟨hm, he, hh⟩ := same
      refine ⟨_, rfl, ?_⟩
      rw [reply_send (by rw [hh]; exact hr)]
      refine ⟨hm, he, ?_, fun k hk => ?_, root', zero, ?_⟩
      · show sfind t.host.ctxs tag = _
        rw [hh]
        exact sfind_sins_same ..
      · show sfind t.host.ctxs k = _
        rw [hh]
        exact sfind_sins_other _ _ _ _ hk
      · show t.host.out ++ _ = _
        rw [hh]
        rfl

/-! ## INVAL (R392) -/

/-- R392: with no held effect nothing waits for a translation that goes. -/
theorem convertRange_none {s : State} {tag : Nat} (h : ∀ g ∈ groupsAnywhere s tag, g.quar = []) (va npages : Nat) :
    convertRange s tag va npages = s := by
  refine List.foldlRecOn _ _ (motive := fun t => t = s) rfl ?_
  rintro _ rfl g hg
  simp [h g hg]

theorem execInval_eq (tag : Nat) (va : DWord) (n : Nat) (s : State) : exec (.inval tag va n) s =
    if served s && (s.ctx tag).isSome && accessWaits s tag va.toNat n then .next s
    else command1 s [((s.ctx tag).isNone, 1)] fun s =>
      convertRange (s.withMem { s.mem with tlb := s.mem.tlb.filter fun t => !(t.ctx = tag && t.meets va.toNat n) }) tag va.toNat n := rfl

/-- R392. -/
theorem translationsInvalidated : Claim.TranslationsInvalidated := by
  intro s tag va n hs hr
  refine ⟨fun hc => ?_, fun hc => ⟨fun hw => ?_, fun hw hq => ?_⟩⟩
  · rw [Answers, execInval_eq, if_neg (by simp [hc]), command1_one hs, if_pos (by simp [hc]), reply_send hr]
  · rw [execInval_eq, if_pos (by simp [hs, hc, hw])]
  · have still (m : MemSys) : convertRange (s.withMem m) tag va.toNat n = s.withMem m := convertRange_none (s := s.withMem m) hq _ _
    rw [execInval_eq, if_neg (by simp [hw]), command1_one hs, if_neg (by simpa [Option.isSome_iff_ne_none] using hc)]
    dsimp only
    rw [still, reply_send]
    · rfl
    · exact hr

/-! ## What the end of a context keeps of engine operations (R77, R378, R437)

An engine operation leaves with the lines that it holds in flight, or stays under its context. Replies never wait where none waited. -/

/-- R77: an engine operation of a context is there under its name, or no line is in flight under that name. -/
def Tied (tag name : Nat) (s : State) : Prop :=
  (∃ ko ∈ s.exe.engOps, ko.1 = name ∧ ko.2.ctx = tag) ∨ ∀ f ∈ s.mem.flight, f.2 ≠ name

/-- What every part of the end of a context keeps. -/
def Drains (s t : State) : Prop := (s.host.replies = [] → t.host.replies = []) ∧ ∀ tag name, Tied tag name s → Tied tag name t

theorem Drains.refl (s : State) : Drains s s := ⟨id, fun _ _ => id⟩

theorem Drains.trans {s t u : State} (h : Drains s t) (h' : Drains t u) : Drains s u :=
  ⟨h'.1 ∘ h.1, fun tag name => h'.2 tag name ∘ h.2 tag name⟩

theorem drains_same {s t : State} (hr : t.host.replies = s.host.replies) (he : t.exe.engOps = s.exe.engOps)
    (hf : t.mem.flight = s.mem.flight) : Drains s t := by
  unfold Drains Tied
  rw [hr, he, hf]
  exact ⟨id, fun _ _ => id⟩

theorem drains_foldl {β : Type} {f : State → β → State} (hf : ∀ s x, Drains s (f s x)) (l : List β) (s : State) : Drains s (l.foldl f s) :=
  List.foldlRecOn l f (motive := Drains s) (.refl s) fun t ht x _ => ht.trans (hf t x)

/-! ### Writes of the device to memory -/

theorem drains_setMgmt (s : State) (off : Nat) (w : Word) : Drains s (s.setMgmt off w) := drains_same rfl rfl rfl

theorem drains_writeHalf (s : State) (a : Nat) (be : BitVec 4) : Drains s (writeHalf s a be) := by
  unfold writeHalf
  split
  · exact drains_same rfl rfl rfl
  · exact .refl s

theorem drains_devicePoke (s : State) (a : Nat) (w : Word) (p : Bool) (o : Word) : Drains s (devicePoke s a w p o) :=
  (drains_same (t := wakeMonitors (s.withMem (pokeWord s.mem deviceAgent a w p o 0)) a) rfl rfl rfl).trans (drains_writeHalf ..)

theorem drains_deviceDWord (s : State) (a : Nat) (x : DWord) : Drains s (deviceDWord s a x) :=
  (drains_devicePoke ..).trans (drains_devicePoke ..)

theorem drains_deviceWords (s : State) (a : Nat) (ws : List Word) : Drains s (deviceWords s a ws) := by
  induction ws generalizing s a with
  | nil => exact .refl s
  | cons w ws ih => exact (drains_devicePoke s a w false 0).trans (ih _ _)

theorem drains_writeImage (s : State) (base : Nat) (ws : List (Nat × Word)) : Drains s (writeImage s base ws) := by
  induction ws generalizing s with
  | nil => exact .refl s
  | cons x ws ih => exact (drains_devicePoke s _ _ false 0).trans (ih _)

theorem drains_copyWords (s : State) (src dst n : Nat) : Drains s (copyWords s src dst n) := by
  induction n generalizing s src dst with
  | zero => exact .refl s
  | succ n ih => exact (drains_devicePoke ..).trans (ih _ _ _)

theorem drains_writeSlot (s : State) (base : Nat) (i : Image) : Drains s (writeSlot s base i) :=
  (drains_writeImage ..).trans (drains_copyWords ..)

theorem drains_writeLog (s : State) (part : Nat) (bytes : List Byte) : Drains s (writeLog s part bytes) := by
  unfold writeLog
  dsimp only
  split
  · exact (drains_deviceWords ..).trans (drains_same rfl rfl rfl)
  · exact drains_same rfl rfl rfl

theorem drains_writeCompletion (s : State) (l : Launch) (pa : Nat) : Drains s (writeCompletion s l pa) :=
  (drains_deviceDWord s pa (completionValue l)).trans (drains_same rfl rfl rfl)

theorem drains_resetCompletions (s : State) (tag : Nat) : Drains s (resetCompletions s tag) :=
  drains_foldl (fun s l => by
    cases completionPlace s l with
    | none => exact .refl s
    | some pa => exact drains_writeCompletion s l pa) _ s

theorem drains_writeBackBad (s : State) (part : Nat) : Drains s (writeBackBad s part) :=
  List.foldlRecOn _ _ (motive := Drains s) (.refl s) fun _ ht _ _ => ht

/-! ### The end of a context -/

theorem drains_endPreempts (s : State) (tag code detail : Nat) : Drains s (endPreempts s tag code detail) := by
  refine ⟨fun h => ?_, ?_⟩
  · unfold endPreempts
    rw [h]
    rfl
  · suffices ∀ (rs : List (Nat × Option Word)) (s : State), (sendReplies s rs).exe.engOps = s.exe.engOps ∧ (sendReplies s rs).mem = s.mem by
      obtain ⟨he, hm⟩ := this (s.host.replies.map fun x => if x = (tag, none) then (tag, some (replyWord code detail)) else x) s
      intro tag name h
      unfold Tied endPreempts
      rw [he, hm]
      exact h
    intro rs
    induction rs with
    | nil => exact fun _ => ⟨rfl, rfl⟩
    | cons r rs ih =>
      obtain ⟨tag, _ | w⟩ := r
      · exact fun _ => ⟨rfl, rfl⟩
      · exact fun s => ih (s.send (.reply 1 w))

theorem drains_disableQueues (s : State) (tag : Nat) : Drains s (disableQueues s tag) :=
  drains_foldl (fun s k => by
    dsimp only
    split
    · exact drains_same rfl rfl rfl
    · exact .refl s) _ s

theorem drains_abortCheckpoint (s : State) (part cause : Nat) : Drains s (abortCheckpoint s part cause) := by
  unfold abortCheckpoint
  dsimp only
  split
  · exact drains_same rfl rfl rfl
  · exact .refl s

theorem drains_abortCheckpoints (s : State) (tag : Nat) : Drains s (abortCheckpoints s tag) :=
  drains_foldl (fun s p => by
    split
    · exact drains_abortCheckpoint s p 1
    · exact .refl s) _ s

/-- R437: a killed operation keeps its name and its context. -/
theorem tied_killed {tag name : Nat} {s t : State} (ended : Nat) (hf : t.mem.flight = s.mem.flight)
    (he : t.exe.engOps = smapAll s.exe.engOps fun o => if o.ctx = ended then { o with killed := true } else o)
    (h : Tied tag name s) : Tied tag name t := by
  unfold Tied
  rw [hf, he]
  refine h.imp_left fun ⟨ko, hko, hname, hctx⟩ => ⟨_, List.mem_map.mpr ⟨ko, hko, rfl⟩, hname, ?_⟩
  dsimp only
  split
  · exact hctx
  · exact hctx

theorem drains_haltContext (s : State) (tag : Nat) : Drains s (haltContext s tag) := by
  unfold haltContext
  split
  · exact .refl s
  · split
    · exact .refl s
    · dsimp only
      refine Drains.trans ?_ (drains_abortCheckpoints _ tag)
      refine Drains.trans ?_ (drains_disableQueues _ tag)
      exact (drains_endPreempts (s.modCtx tag _) tag 4 3).trans ⟨id, fun _ _ => tied_killed tag rfl rfl⟩

/-- R77, R378: the operations of a context leave with the lines that they held in flight. -/
theorem tied_gone {tag name ended : Nat} {s t : State} (he : t.exe.engOps = s.exe.engOps.filter fun ko => ko.2.ctx ≠ ended)
    (hf : t.mem.flight = s.mem.flight.filter fun f => !((s.exe.engOps.filter fun ko => ko.2.ctx = ended).map (·.1)).contains f.2)
    (h : Tied tag name s) : Tied tag name t := by
  unfold Tied
  rw [he, hf]
  obtain ⟨ko, hko, hname, hctx⟩ | h := h
  · by_cases hend : ko.2.ctx = ended
    · refine .inr fun f hmem hn => ?_
      have := (List.mem_filter.mp hmem).2
      simp only [Bool.not_eq_true', List.contains_eq_mem, decide_eq_false_iff_not] at this
      exact this (List.mem_map.mpr ⟨ko, List.mem_filter.mpr ⟨hko, by simpa using hend⟩, hname.trans hn.symm⟩)
    · exact .inl ⟨ko, List.mem_filter.mpr ⟨hko, by simpa using hend⟩, hname, hctx⟩
  · exact .inr fun f hmem => h f (List.mem_filter.mp hmem).1

/-- R378: what DESTROY has done before the objects of its context leave. -/
def unlinkContext (s : State) (tag : Nat) : State := abortCheckpoints (endPreempts (disableQueues s tag) tag 1 1) tag

theorem drains_unlinkContext (s : State) (tag : Nat) : Drains s (unlinkContext s tag) :=
  ((drains_disableQueues s tag).trans (drains_endPreempts _ tag 1 1)).trans (drains_abortCheckpoints _ tag)

theorem drains_destroyContext (s : State) (tag : Nat) : Drains s (destroyContext s tag) :=
  (drains_unlinkContext s tag).trans ⟨id, fun _ _ => tied_gone (ended := tag) rfl rfl⟩

/-! ### The reset of a partition and events -/

theorem drains_writeDump (s : State) (part : Nat) (trigger : List Byte) (tags : List Nat) : Drains s (writeDump s part trigger tags) := by
  have put (s : State) (a n limit : Nat) (ws : List Word) : Drains s (if n ≤ limit then deviceWords s a ws else s) := by
    split
    · exact drains_deviceWords s a ws
    · exact .refl s
  unfold writeDump
  dsimp only
  split
  · exact .refl s
  · refine Drains.trans ?_ (drains_setMgmt ..)
    refine Drains.trans ?_ (drains_foldl (fun s wk => ?_) _ _)
    · refine Drains.trans ?_ (drains_foldl (fun s kc => drains_foldl (fun s ow => put ..) _ s) _ _)
      refine Drains.trans ?_ (drains_foldl (fun s kw => put ..) _ _)
      refine Drains.trans ?_ (put ..)
      refine Drains.trans ?_ (put ..)
      refine Drains.trans ?_ (put ..)
      exact drains_same rfl rfl rfl
    · split
      · exact drains_writeSlot ..
      · exact .refl s

theorem drains_resetPartition (s : State) (part : Nat) (trigger : List Byte) : Drains s (resetPartition s part trigger) := by
  have ended (s : State) (tags : List Nat) : Drains s (tags.foldl (fun s t => destroyContext (resetCompletions (haltContext s t) t) t) s) :=
    drains_foldl (fun s t => ((drains_haltContext s t).trans (drains_resetCompletions _ t)).trans (drains_destroyContext _ t)) tags s
  unfold resetPartition
  dsimp only
  exact ((drains_writeDump s part trigger _).trans (ended _ _)).trans (drains_writeBackBad _ part)

theorem drains_killContext (s : State) (tag : Nat) (trigger : List Byte) : Drains s (killContext s tag trigger) := by
  unfold killContext
  split
  · exact .refl s
  · split
    · exact .refl s
    · refine Drains.trans ?_ (drains_haltContext _ tag)
      split
      · exact drains_writeDump ..
      · exact .refl s

/-- R434 to R441: whatever the matrix selects for an event. -/
theorem drains_actOn (s : State) (e : Ev) : Drains s (actOn s e) := by
  unfold actOn
  dsimp only
  generalize recordOf s (e.part.getD 0) e (actionOf s e) = bytes
  have log : Drains s (if actionOf s e ≥ 1 then writeLog s (e.part.getD 0) bytes else s) := by
    split
    · exact drains_writeLog ..
    · exact .refl s
  generalize (if actionOf s e ≥ 1 then writeLog s (e.part.getD 0) bytes else s) = logged at log ⊢
  have sent : Drains s (if actionOf s e ≥ 2 then logged.send (.event bytes) else logged) := by
    split
    · exact log.trans (drains_same rfl rfl rfl)
    · exact log
  generalize (if actionOf s e ≥ 2 then logged.send (.event bytes) else logged) = told at sent ⊢
  refine sent.trans ?_
  split
  · exact drains_same rfl rfl rfl
  have stopped : Drains told (if actionOf s e = 3 then (match e.ctx with | some t => killContext told t bytes | none => told) else told) := by
    split
    · split
      · exact drains_killContext ..
      · exact .refl told
    · exact .refl told
  generalize (if actionOf s e = 3 then (match e.ctx with | some t => killContext told t bytes | none => told) else told) = u at stopped ⊢
  split
  · exact stopped.trans (drains_resetPartition ..)
  · exact stopped

theorem drains_raise (s : State) (e : Ev) : Drains s (raise s e) := by
  unfold raise
  split
  · exact .refl s
  · exact (drains_setMgmt ..).trans (drains_actOn ..)

/-! ### The completion of a launch (R375, R384, R389) -/

theorem drains_withMem (s : State) {m : MemSys} (hm : m.flight = s.mem.flight) : Drains s (s.withMem m) := drains_same rfl rfl hm

theorem drains_detectEcc (s : State) (ctx : Option Nat) (part a : Nat) : Drains s (detectEcc s ctx part a) := by
  unfold detectEcc
  generalize eccEvent s ctx part a = r
  exact (drains_withMem s (by rfl)).trans (drains_raise ..)

theorem flight_markGranule (m : MemSys) (g : Nat) (poi : Bool) (origin : Word) : (markGranule m g poi origin).flight = m.flight :=
  List.foldlRecOn _ _ (motive := fun n : MemSys => n.flight = m.flight) rfl fun _ h _ _ => h

theorem drains_marked (s : State) {m : MemSys} (hm : m.flight = s.mem.flight) (g : Nat) (poi : Bool) (origin : Word) :
    Drains s (s.withMem (markGranule m g poi origin)) := drains_withMem s ((flight_markGranule ..).trans hm)

theorem drains_fetchHalf (s : State) (ctx : Option Nat) (part a : Nat) : Drains s (fetchHalf s ctx part a) := by
  unfold fetchHalf
  split
  · dsimp only
    split
    · exact .refl s
    · refine Drains.trans (t := s.send (.cxlFetch (64 * (a / 64)))) (drains_same rfl rfl rfl) ?_
      split
      · exact (drains_marked (s.send _) (by rfl) _ _ _).trans (drains_raise ..)
      · exact drains_marked (s.send _) (by rfl) _ _ _
  · exact .refl s

theorem drains_walkFrom (s : State) (ctx part va : Nat) (levels : List Nat) (table : Nat) :
    Drains s (walkFrom s ctx part va levels table).2 := by
  induction levels generalizing s table with
  | nil => exact .refl s
  | cons level rest ih =>
    unfold walkFrom
    dsimp only
    generalize table + 8 * (va / 2 ^ levelShift level % 8192) = a
    split
    · exact .refl s
    refine (drains_fetchHalf s (some ctx) part a).trans ?_
    generalize fetchHalf s (some ctx) part a = t
    split
    · exact drains_detectEcc ..
    split
    · exact .refl t
    split
    · exact .refl t
    split
    · split
      · exact ih ..
      · exact .refl t
    · split
      · exact .refl t
      · split
        · exact .refl t
        · exact .refl t
    · exact .refl t

theorem drains_updateEntry (s : State) (ctx part a : Nat) (f : DWord → DWord) : Drains s (updateEntry s ctx part a f) := by
  unfold updateEntry
  dsimp only
  refine (drains_fetchHalf s (some ctx) part a).trans ?_
  generalize fetchHalf s (some ctx) part a = t
  split
  · exact drains_detectEcc ..
  · split
    · exact .refl t
    · exact drains_deviceDWord ..

theorem drains_walk (s : State) (ctx va : Nat) : Drains s (walk s ctx va).2 := by
  unfold walk
  split
  · exact .refl s
  · exact drains_walkFrom ..

theorem drains_walkLeaf (s : State) (ctx va : Nat) : Drains s (walkLeaf s ctx va).2 := by
  have walked := drains_walk s ctx va
  unfold walkLeaf
  split
  · next l t h =>
    rw [h] at walked
    exact walked.trans (drains_updateEntry ..)
  · exact walked

/-- R375: the completion of a launch is no access of a core. -/
theorem drains_checkFlat (s : State) (ctx : Nat) (priv : Bool) (ac : Access) (va : DWord) : Drains s (checkFlat s ctx none priv ac va).2 := by
  have walked : Drains s (leafFor s ctx none va.toNat).2 := drains_walkLeaf ..
  unfold checkFlat
  split
  · exact .refl s
  · split
    · exact .refl s
    · generalize leafFor s ctx none va.toNat = r at walked ⊢
      obtain ⟨_ | _, t⟩ := r
      · exact walked
      · exact walked

theorem drains_mapSet (s : State) (ctx part base pa : Nat) (v : Bool) : Drains s (mapSet s ctx part base pa v) := by
  unfold mapSet
  dsimp only
  generalize (mapBit base pa).1 / 4 * 4 = a
  refine (drains_fetchHalf s (some ctx) part a).trans ?_
  generalize fetchHalf s (some ctx) part a = t
  split
  · exact drains_detectEcc ..
  · split
    · exact .refl t
    · exact drains_devicePoke ..

theorem drains_noteDirty (s : State) (ctx pa : Nat) : Drains s (noteDirty s ctx pa) := by
  unfold noteDirty
  dsimp only
  split
  · exact drains_mapSet ..
  · exact .refl s

theorem drains_noteWrite {s t : State} {ctx : Nat} {core : Option Nat} {va : DWord} {pa : Nat} (h : noteWrite s ctx core va pa = some t) :
    Drains s t := by
  unfold noteWrite at h
  split at h
  · obtain rfl := Option.some.inj h
    exact .refl s
  · dsimp only at h
    split at h
    · split at h
      · cases h
      · obtain rfl := Option.some.inj h
        exact drains_noteDirty ..
    · split at h
      · cases h
      · obtain rfl := Option.some.inj h
        refine Drains.trans ?_ (drains_noteDirty ..)
        exact (drains_updateEntry s ctx _ _ _).trans (drains_withMem _ (by rfl))

theorem drains_noteWindow (s : State) (ctx : Nat) (core : Option Nat) (va : DWord) : Drains s (noteWindow s ctx core va) := by
  unfold noteWindow
  cases h : noteWrite s ctx core va unmapped with
  | none => exact .refl s
  | some t => exact drains_noteWrite h

theorem drains_modChord (s : State) (c : Nat) (f : Chord → Chord) : Drains s (modChord s c f) := drains_same rfl rfl rfl

theorem drains_sendData (s : State) (c : Nat) (ws : List (Word × Bool)) : Drains s (sendData s c ws) := drains_same rfl rfl rfl

theorem drains_flushChord (s : State) (c : Nat) : Drains s (flushChord s c) := by
  unfold flushChord
  dsimp only
  split
  · exact .refl s
  · exact (drains_modChord ..).trans (drains_foldl (fun s ws => drains_sendData s c ws) _ _)

theorem drains_sendRequest (s : State) (c node ctx : Nat) (op : BitVec 4) (aop : BitVec 8) (aflags st : BitVec 2) (pa : Nat) (va : DWord)
    (len : Nat) (data : List Byte) (marks : List Bool) (origin : Word) (pendings : List Nat) :
    Drains s (sendRequest s c node ctx op aop aflags st pa va len data marks origin pendings) :=
  (drains_same rfl rfl rfl).trans (drains_flushChord (queueRequest s c node ctx op aop aflags st pa va len data marks (origin, 0) pendings none) c)

theorem drains_finishLaunch {s t : State} {l : Launch} (h : finishLaunch s l = some t) : Drains s t := by
  unfold finishLaunch at h
  dsimp only at h
  obtain ⟨u, hu, rfl⟩ := Option.map_eq_some_iff.mp h
  have written : Drains s u := by
    have checked := drains_checkFlat s l.ctx l.priv { write := true } l.cplt
    split at hu
    · obtain rfl := Option.some.inj hu
      exact .refl s
    · split at hu
      · next hc =>
        rw [hc] at checked
        obtain ⟨v, hv, rfl⟩ := Option.map_eq_some_iff.mp hu
        exact checked.trans ((drains_noteWrite hv).trans (drains_writeCompletion ..))
      · next hc =>
        rw [hc] at checked
        obtain rfl := Option.some.inj hu
        exact checked.trans ((drains_noteWindow ..).trans (drains_sendRequest ..))
      · next hc =>
        rw [hc] at checked
        obtain rfl := Option.some.inj hu
        exact checked
  refine written.trans ?_
  split
  · exact drains_same rfl rfl rfl
  · exact drains_same rfl rfl rfl

theorem drains_finishLaunches (s : State) (tag : Nat) : Drains s (finishLaunches s tag) :=
  drains_foldl (fun s l => by
    cases h : finishLaunch s l with
    | none => exact .refl s
    | some t => exact drains_finishLaunch h) _ s

/-! ## DESTROY (R77, R378) -/

/-- The end of a checkpoint and of queues changes no memory, no launch and no other context. -/
def OnlyContext (tag : Nat) (s t : State) : Prop := t.mem = s.mem ∧ t.host.launches = s.host.launches ∧ ∀ k, k ≠ tag → t.ctx k = s.ctx k

theorem OnlyContext.refl (tag : Nat) (s : State) : OnlyContext tag s s := ⟨rfl, rfl, fun _ _ => rfl⟩

theorem OnlyContext.trans {tag : Nat} {s t u : State} (h : OnlyContext tag s t) (h' : OnlyContext tag t u) : OnlyContext tag s u :=
  ⟨h'.1.trans h.1, h'.2.1.trans h.2.1, fun k hk => (h'.2.2 k hk).trans (h.2.2 k hk)⟩

theorem onlyContext_foldl {tag : Nat} {β : Type} {f : State → β → State} (hf : ∀ s x, OnlyContext tag s (f s x)) (l : List β) (s : State) :
    OnlyContext tag s (l.foldl f s) :=
  List.foldlRecOn l f (motive := OnlyContext tag s) (.refl tag s) fun t ht x _ => ht.trans (hf t x)

/-- R431: the checkpoint that a partition's block names is the context's. -/
theorem onlyContext_abortCheckpoint (s : State) (part cause : Nat) : OnlyContext (ckTag s part) s (abortCheckpoint s part cause) := by
  have here : ((s.mgmt (0x14000 + 64 * part + 0x18 + 4)).extractLsb' 16 8).toNat = ckTag s part := by
    rw [ckTag, Nat.add_assoc (0x14000 + 64 * part)]
  unfold abortCheckpoint
  dsimp only
  split
  · refine ⟨rfl, rfl, fun k hk => ?_⟩
    rw [here]
    exact sfind_smod_other _ _ _ _ hk
  · exact .refl _ s

theorem onlyContext_abortCheckpoints (s : State) (tag : Nat) : OnlyContext tag s (abortCheckpoints s tag) :=
  onlyContext_foldl (fun s p => by
    split
    · next h => exact h ▸ onlyContext_abortCheckpoint s p 1
    · exact .refl tag s) _ s

theorem onlyContext_disableQueues (s : State) (tag : Nat) : OnlyContext tag s (disableQueues s tag) :=
  onlyContext_foldl (fun s k => by
    dsimp only
    split
    · exact ⟨rfl, rfl, fun _ _ => rfl⟩
    · exact .refl tag s) _ s

theorem onlyContext_sendReplies (tag : Nat) (rs : List (Nat × Option Word)) (s : State) : OnlyContext tag s (sendReplies s rs) := by
  induction rs generalizing s with
  | nil => exact ⟨rfl, rfl, fun _ _ => rfl⟩
  | cons r rs ih =>
    obtain ⟨t, _ | w⟩ := r
    · exact ⟨rfl, rfl, fun _ _ => rfl⟩
    · exact ih (s.send (.reply 1 w))

theorem onlyContext_unlinkContext (s : State) (tag : Nat) : OnlyContext tag s (unlinkContext s tag) :=
  ((onlyContext_disableQueues s tag).trans (onlyContext_sendReplies tag _ _)).trans (onlyContext_abortCheckpoints _ tag)

/-- R378: the objects of a destroyed context are gone. -/
theorem destroyContext_gone (s : State) (tag : Nat) : let d := destroyContext s tag
    d.ctx tag = none ∧ (∀ kw ∈ d.exe.wgs, kw.2.ctx ≠ tag) ∧ (∀ ko ∈ d.exe.engOps, ko.2.ctx ≠ tag) ∧
      (∀ kb ∈ d.mem.binds, kb.2.ctx ≠ tag) ∧ (∀ x ∈ d.mem.tlb, x.ctx ≠ tag) ∧ ∀ i ∈ d.host.images, i.wg.ctx ≠ tag := by
  have left {α : Type} (p : α → Nat) (l : List α) : ∀ x ∈ l.filter fun x => p x ≠ tag, p x ≠ tag :=
    fun x hx => by simpa using (List.mem_filter.mp hx).2
  exact ⟨(sfind_sdel ..).trans (if_pos rfl), left (fun kw : Nat × WG => kw.2.ctx) _, left (fun ko : Nat × EngOp => ko.2.ctx) _,
    left (fun kb : Nat × Binding => kb.2.ctx) _, left TlbEntry.ctx _, left (fun i : Image => i.wg.ctx) _⟩

/-- R378: no byte and no other context goes with a destroyed context. -/
theorem destroyContext_else (s : State) (tag : Nat) : (destroyContext s tag).mem.bytes = s.mem.bytes ∧
    ∀ k, k ≠ tag → (destroyContext s tag).ctx k = s.ctx k := by
  obtain ⟨hm, -, hc⟩ := onlyContext_unlinkContext s tag
  refine ⟨congrArg (·.bytes) hm, fun k hk => ?_⟩
  exact ((sfind_sdel (unlinkContext s tag).host.ctxs tag k).trans (if_neg hk)).trans (hc k hk)

/-- R375, R378: launches of which none has started or ended leave nothing to complete. -/
theorem finishLaunches_none {s : State} {tag : Nat} (h : ∀ kl ∈ s.host.launches, kl.2.ctx = tag → kl.2.state ≠ 2) :
    finishLaunches s tag = s := by
  unfold finishLaunches
  rw [List.filter_eq_nil_iff.mpr]
  · rfl
  · intro l hl
    obtain ⟨kl, hkl, rfl⟩ := List.mem_map.mp hl
    simpa using h kl hkl

/-- R378: of the launches of a context only one that runs ends with a completion. -/
theorem endLaunches_none {s : State} {tag : Nat} (h : ∀ kl ∈ s.host.launches, kl.2.ctx = tag → kl.2.state = 0 ∨ kl.2.state = 3) :
    ∀ kl ∈ (endLaunches s tag).host.launches, kl.2.ctx = tag → kl.2.state ≠ 2 := by
  intro kl hkl hctx
  obtain ⟨kl, hmem, rfl⟩ := List.mem_map.mp hkl
  dsimp only at hctx ⊢
  by_cases hc : kl.2.ctx = tag
  · obtain h0 | h3 := h kl hmem hc
    · simp [hc, h0]
    · simp [hc, h3]
  · rw [if_pos hc] at hctx
    exact absurd hctx hc

/-- R378: the state in which DESTROY ends its context: the completions of its launches are written. -/
def completed (s : State) (tag : Nat) : State := finishLaunches (endLaunches (abortCheckpoints s tag) tag) tag

theorem drains_completed (s : State) (tag : Nat) : Drains s (completed s tag) := by
  refine Drains.trans (t := endLaunches (abortCheckpoints s tag) tag) ?_ (drains_finishLaunches ..)
  exact drains_abortCheckpoints s tag

theorem completed_none {s : State} {tag : Nat} (h : ∀ kl ∈ s.host.launches, kl.2.ctx = tag → kl.2.state = 0 ∨ kl.2.state = 3) :
    (completed s tag).mem = s.mem ∧ ∀ k, k ≠ tag → (completed s tag).ctx k = s.ctx k := by
  obtain ⟨hm, hl, hc⟩ := onlyContext_abortCheckpoints s tag
  rw [completed, finishLaunches_none (endLaunches_none (by rw [hl]; exact h))]
  exact ⟨hm, hc⟩

theorem execDestroy_eq (tag : Nat) (s : State) : exec (.destroy tag) s =
    command1 s [((s.ctx tag).isNone, 1)] fun s => destroyContext (completed s tag) tag := rfl

/-- R77: a line in flight is no more an operation's of the destroyed context. -/
theorem destroyed_flight {s : State} {tag : Nat} (f : Nat × Nat) (hf : f ∈ (destroyContext (completed s tag) tag).mem.flight) (o : EngOp)
    (ho : getOp s f.2 = some o) : o.ctx ≠ tag := by
  intro hctx
  have tied : Tied tag f.2 s := .inl ⟨(f.2, o), mem_of_sfind ho, rfl, hctx⟩
  have drained := ((drains_completed s tag).trans (drains_destroyContext _ tag)).2 tag f.2 tied
  obtain ⟨ko, hko, -, hctx⟩ | free := drained
  · obtain ⟨-, -, hops, -⟩ := destroyContext_gone (completed s tag) tag
    exact hops ko hko hctx
  · exact free f hf rfl

/-- R77, R378. -/
theorem contextDestroyed : Claim.ContextDestroyed := by
  intro s tag hs hr
  refine ⟨fun hc => ?_, fun hc => ?_⟩
  · rw [Answers, execDestroy_eq, command1_one hs, if_pos (by simp [hc]), reply_send hr]
  · rw [execDestroy_eq, command1_one hs, if_neg (by simpa [Option.isSome_iff_ne_none] using hc)]
    have ready := ((drains_completed s tag).trans (drains_destroyContext _ tag)).1 hr
    obtain ⟨hctx, hwgs, hops, hbinds, htlb, himages⟩ := destroyContext_gone (completed s tag) tag
    refine ⟨_, rfl, ?_⟩
    rw [reply_send ready]
    refine ⟨hctx, hwgs, hops, destroyed_flight, hbinds, htlb, himages, List.getLast?_concat .., fun hl => ?_⟩
    obtain ⟨hm, hk⟩ := completed_none hl
    obtain ⟨hm', hk'⟩ := destroyContext_else (completed s tag) tag
    refine ⟨fun b => memByte_of_bytes (hm'.trans (congrArg (·.bytes) hm)) b, fun k h => (hk' k h).trans (hk k h)⟩

/-- Settles O45: the failing conditions of a command decide its reply; the objects of a context are filtered out at its end, and whatever
the completions of its launches raise, an operation leaves only with the lines that it held in flight. -/
theorem contextCommands : Obligations.ContextCommands := ⟨contextCreated, contextDestroyed, translationsInvalidated⟩

end Sys2Proof.Machine
end

section
/-!
SUPPORT. Fences and publication (R98 to R100, R271), and the regions of BIND and UNBIND (R90, R91, R267, R268): what orders writes
changes no word of memory.
-/

namespace Sys2Proof.Machine

open Sys2Proof Sys2Proof.Laws

/-! ## Publishing and observing points -/

/-- R98 to R100: a step of the memory order alone: the words of memory, their marks and the regions of objects stay. -/
def OrderOnly (m m' : MemSys) : Prop := m'.bytes = m.bytes ∧ m'.marks = m.marks ∧ m'.binds = m.binds

theorem OrderOnly.refl (m : MemSys) : OrderOnly m m := ⟨rfl, rfl, rfl⟩

theorem OrderOnly.trans {m m' m'' : MemSys} (h : OrderOnly m m') (h' : OrderOnly m' m'') : OrderOnly m m'' :=
  ⟨h'.1.trans h.1, h'.2.1.trans h.2.1, h'.2.2.trans h.2.2⟩

theorem orderOnly_foldl {β : Type} {f : MemSys → β → MemSys} (hf : ∀ m x, OrderOnly m (f m x)) (l : List β) (m : MemSys) :
    OrderOnly m (l.foldl f m) := by
  induction l generalizing m with
  | nil => exact .refl m
  | cons x l ih => exact (hf m x).trans (ih _)

theorem orderOnly_publish (m : MemSys) (p : Place) (sc : Nat) (f : SMap Nat) : OrderOnly m (publish m p sc f) := by
  unfold publish
  split
  · exact .refl m
  · exact ⟨rfl, rfl, rfl⟩

theorem orderOnly_observe (m : MemSys) (a : Nat) (p : Place) (sc : Nat) : OrderOnly m (observe m a p sc) :=
  orderOnly_foldl (f := fun m (q : Publish) => raiseFloors m a q.floor) (fun _ _ => ⟨rfl, rfl, rfl⟩) _ m

theorem orderOnly_fenceOne (m : MemSys) (h : Here) (sc t : Nat) : OrderOnly m (fenceOne m h sc t) := by
  refine .trans ?_ (orderOnly_observe ..)
  split
  · exact .refl m
  · exact orderOnly_publish ..

/-! ## FENCE (R98, R100, R271) -/

theorem sameGroups_selfInvalidate (s : State) (core : Nat) : SameGroups s (selfInvalidate s core) := by
  intro k
  rw [selfInvalidate, group_mapGroups]
  cases s.group k with
  | none => rfl
  | some g =>
    simp only [Option.map_some]
    split <;> rfl

/-- R98, R100: the fences of the executing threads in turn. -/
def fenced (h : Here) (sc : BitVec 3) (m : MemSys) : MemSys :=
  ((vecThreads h.g h.p).map (·.1)).foldl (fun m t => fenceOne m h sc.toNat t) m

/-- R82, R98: what a FENCE leaves before it retires: from scope 3 on, the copies of its core self-invalidate. -/
def afterFence (s : State) (h : Here) (sc : BitVec 3) : State :=
  let u := s.withMem (fenced h sc s.mem)
  if 3 ≤ sc.toNat && !((vecThreads h.g h.p).map (·.1)).isEmpty then selfInvalidate u h.w.coreNo else u

theorem afterFence_frame (s : State) (h : Here) (sc : BitVec 3) : (afterFence s h sc).mem = fenced h sc s.mem ∧
    (afterFence s h sc).host = s.host ∧ SameGroups s (afterFence s h sc) := by
  unfold afterFence
  dsimp only
  split
  · exact ⟨rfl, rfl, sameGroups_selfInvalidate (s.withMem _) _⟩
  · exact ⟨rfl, rfl, fun _ => rfl⟩

theorem exec_fence {s : State} {h : Here} {sc : BitVec 3} (hh : s.here = some h) (closed : closedSpan h)
    (guard : guardFull h.g h.p = true) (clean : ∀ t ∈ vecThreads h.g h.p, t.2 = none)
    (ordered : orderedReady s h (5 ≤ sc.toNat) = true) (popped : popsDone s h = true) :
    exec (.fence sc) s = .next (retire (afterFence s h sc) h) := by
  refine (issuing_eq s h _ hh).trans ?_
  have all : (vecThreads h.g h.p).filter (·.2.isNone) = vecThreads h.g h.p :=
    List.filter_eq_self.mpr fun t ht => by rw [clean t ht]; rfl
  have none : (vecThreads h.g h.p).filterMap (·.2) = [] := List.filterMap_eq_nil_iff.mpr clean
  simp only [guard, withCommit_closed closed, ordered, popped, all, none, dropped_nil, Bool.not_true, Bool.or_self, Bool.false_eq_true,
    if_false]
  rfl

/-- R98, R100, R271. -/
theorem fencePublishesAndObserves : Claim.FencePublishesAndObserves := by
  intro s h sc hh closed guard clean ordered popped
  obtain ⟨-, own, -, -, listed⟩ := here_eq s h hh
  obtain ⟨mem, host, same⟩ := afterFence_frame s h sc
  obtain ⟨m, found⟩ := same.group own
  have order : OrderOnly s.mem (fenced h sc s.mem) := orderOnly_foldl (fun m t => orderOnly_fenceOne m h _ t) _ _
  obtain ⟨bytes, marks, -⟩ := order
  refine ⟨_, _, exec_fence hh closed guard clean ordered popped, host, group_retire found, wentOn_goneOn listed rfl rfl _, rfl,
    (congrArg (·.bytes) mem).trans bytes, (congrArg (·.marks) mem).trans marks, mem.trans ?_⟩
  rw [fenced, List.foldl_map]
  have scope : sc.toNat = 0 ↔ sc = 0 := by rw [← BitVec.toNat_inj]; rfl
  simp only [fenceOne, scope]

/-! ## PUB (R99, R271) -/

/-- Threads that each change memory alone, one after the other. -/
theorem foldl_threads {s : State} {f : List Token × State → Nat × Option Token → List Token × State}
    {F : MemSys → Nat × Option Token → MemSys} {l : List (Nat × Option Token)}
    (hf : ∀ x ∈ l, ∀ u : State, f ([], u) x = ([], u.withMem (F u.mem x))) :
    l.foldl f ([], s) = ([], s.withMem (l.foldl F s.mem)) := by
  induction l generalizing s with
  | nil => rfl
  | cons x l ih =>
    rw [List.foldl_cons, List.foldl_cons, hf x List.mem_cons_self, ih fun y hy => hf y (List.mem_cons_of_mem _ hy)]
    rfl

theorem pairOf_halves (x : DWord) : pairOf [x.halves.1, x.halves.2] = x := DWord.ofHalves_halves x

/-- R99: what a PUB publishes of a thread. -/
def published (h : Here) (sc : BitVec 3) (base : Nat → DWord) (len : Nat → Word) (m : MemSys) (x : Nat × Option Token) : MemSys :=
  if len x.1 = 0 ∨ sc = 0 then m
  else publish m (placeOf h.g h.w x.1) sc.toNat
    (rangeFloor m (floorsOf m (agentOf h.g.id x.1)) (base x.1).toNat (len x.1).toNat)

theorem orderOnly_published (h : Here) (sc : BitVec 3) (base : Nat → DWord) (len : Nat → Word) (m : MemSys) (x : Nat × Option Token) :
    OrderOnly m (published h sc base len m x) := by
  unfold published
  split
  · exact .refl m
  · exact orderOnly_publish ..

theorem exec_pub {s : State} {h : Here} {d a : BitVec 7} {ea : Bool} {sc : BitVec 3} {base : Nat → DWord} {len : Nat → Word}
    (hh : s.here = some h) (closed : closedSpan h) (checked : operandCheck h [rSrc false a ea 2, rSrc false d false] none true = none)
    (ready : operandsReady h (vecThreads h.g h.p) [rSrc false a ea 2, rSrc false d false] none = true)
    (ordered : orderedReady s h true = true)
    (reads : ∀ t ∈ vecThreads h.g h.p, t.2 = none ∧
      readSrc h.g h.p (rSrc false a ea 2) t.1 = .words [(DWord.halves (base t.1)).1, (DWord.halves (base t.1)).2] ∧
      readSrc h.g h.p (rSrc false d false) t.1 = .words [len t.1]) :
    exec (.pub d ea a sc) s = .next (retire (s.withMem ((vecThreads h.g h.p).foldl (published h sc base len) s.mem)) h) := by
  refine (issuing_eq s h _ hh).trans ?_
  simp only [checked, ready, withCommit_closed closed, ordered, Bool.not_true, Bool.false_eq_true, if_false]
  rw [foldl_threads (F := published h sc base len)]
  · simp only [dropped_nil]
  · rintro ⟨t, k⟩ ht u
    obtain ⟨rfl, at', size⟩ := reads _ ht
    simp only [at', size, pairOf_halves, published, Bool.or_eq_true, decide_eq_true_eq]
    rfl

/-- R99, R271. -/
theorem publishRange : Claim.PublishRange := by
  intro s h d a ea sc base len hh closed checked ready ordered reads
  obtain ⟨-, own, -, -, listed⟩ := here_eq s h hh
  have order := orderOnly_foldl (orderOnly_published h sc base len) (vecThreads h.g h.p) s.mem
  obtain ⟨bytes, -, -⟩ := order
  exact ⟨_, _, ⟨exec_pub hh closed checked ready ordered reads, memByte_of_bytes bytes, rfl, group_retire own,
    wentOn_goneOn listed rfl rfl _⟩, rfl, rfl⟩

/-- Settles O26: the threads of FENCE and PUB in turn, each of which changes the memory order alone. -/
theorem fencesAndPublication : Obligations.FencesAndPublication := ⟨fencePublishesAndObserves, publishRange⟩

/-! ## BIND and UNBIND (R90, R91, R267, R268) -/

section

variable {s : State} {h : Here} {x : Src} {t : Nat}

theorem touchSrc_words {ws : List Word} (hw : readSrc h.g h.p x t = .words ws) : touchSrc s h x t = s := by
  rw [touchSrc, hw]

/-- R90, R255: an address of this package that names an object. -/
theorem objectOf_words {o : DWord} {pa : Nat} (hw : readSrc h.g h.p x t = .words [o.halves.1, o.halves.2])
    (found : checkAccess s h t false {} 8 8 o = (.loc pa, s)) : objectOf s h x t = ((some pa, []), s) := by
  simp only [objectOf, hw, pairOf_halves, found, objectKey]

/-- R267, R268: a word of one thread that finds its object, and whose further sources are not empty. -/
theorem bindOp_one {i : Instr} {unif : Bool} {obj : Src} {rest : List Src} {one : State → Here → Nat → Nat → Bool × State} {o : DWord}
    {pa : Nat} {u : State} (hh : s.here = some h) (thread : execThreads unif h.g h.p = [(t, none)])
    (ordered : orderedReady s h false = true) (read : readSrc h.g h.p obj t = .words [o.halves.1, o.halves.2])
    (found : checkAccess s h t false {} 8 8 o = (.loc pa, s)) (checked : operandCheck h (obj :: rest) none true = none)
    (ready : operandsReady h (execThreads unif h.g h.p) (obj :: rest) none = true)
    (full : rest.foldl (fun u y => touchSrc u h y t) s = s) (done : one s h t pa = (true, u)) :
    bindOp i unif obj rest s one = .next (retire u h) := by
  refine (issuing_eq s h _ hh).trans ?_
  rw [thread] at ready
  simp only [checked, thread, ready, ordered, Bool.not_true, Bool.or_self, Bool.false_eq_true, if_false, List.foldl_cons, List.foldl_nil,
    full, objectOf_words read found, done, if_true, List.append_nil, dropped_nil]

end

/-- R91, R100: what leaves a region is published: the memory order alone changes. -/
theorem publishLeaving_frame (s : State) (place : Place) (obj : Nat) (gone : Nat → Bool) :
    ∃ m, publishLeaving s place obj gone = s.withMem m ∧ OrderOnly s.mem m := ⟨_, rfl, orderOnly_publish ..⟩

theorem publishLeaving_foldl {β : Type} (place : Place) (obj : β → Nat) (gone : β → Nat → Bool) (l : List β) (s : State) :
    ∃ m, l.foldl (fun s b => publishLeaving s place (obj b) (gone b)) s = s.withMem m ∧ OrderOnly s.mem m := by
  induction l generalizing s with
  | nil => exact ⟨s.mem, rfl, .refl _⟩
  | cons b l ih =>
    obtain ⟨m, hm, order⟩ := publishLeaving_frame s place (obj b) (gone b)
    obtain ⟨m', hm', order'⟩ := ih (s.withMem m)
    exact ⟨m', by rw [List.foldl_cons, hm, hm']; rfl, order.trans order'⟩

/-- R90, R91, R106: the object is bound to the lines but its own; no byte and no group changes. -/
theorem bindLines_frame (s : State) (h : Here) (t obj : Nat) (lines : List (Nat × Nat)) :
    (bindLines s h t obj lines).mem.bytes = s.mem.bytes ∧ (∀ k, (bindLines s h t obj lines).group k = s.group k) ∧
      ∃ e, sfind (bindLines s h t obj lines).mem.binds obj = some { lines := withoutLine lines (lineOf obj), eager := e, ctx := h.w.ctx } := by
  obtain ⟨m, published, bytes, -, -⟩ := publishLeaving_foldl (placeOf h.g h.w t) (fun b : Nat × Binding => b.1)
    (fun b l => inLines b.2.lines l && if b.1 = obj then !inLines (withoutLine lines (lineOf obj)) l
      else inLines (withoutLine lines (lineOf obj)) l) s.mem.binds s
  unfold bindLines
  simp only [published]
  split
  · exact ⟨bytes, fun _ => rfl, _, sfind_sins_same ..⟩
  · exact ⟨bytes, fun _ => rfl, _, sfind_sins_same ..⟩

/-- R268: the object has no region; no byte changes, and nothing outside memory. -/
theorem unbindObject_frame (s : State) (h : Here) (t obj : Nat) :
    (unbindObject s h t obj).mem.bytes = s.mem.bytes ∧ (unbindObject s h t obj).host = s.host ∧
      (∀ k, (unbindObject s h t obj).group k = s.group k) ∧ sfind (unbindObject s h t obj).mem.binds obj = none := by
  unfold unbindObject
  split
  · next unbound => exact ⟨rfl, rfl, fun _ => rfl, unbound⟩
  · next b _ =>
    obtain ⟨m, published, bytes, -, -⟩ := publishLeaving_frame s (placeOf h.g h.w t) obj (inLines b.lines)
    rw [published]
    exact ⟨bytes, rfl, fun _ => rfl, (sfind_sdel ..).trans (if_pos rfl)⟩

/-- R267: a region of valid pages is bound. -/
theorem bindOne_words {s : State} {h : Here} {base count : Src} {t obj : Nat} {b : DWord} {n : Word} {ls : List (Nat × Nat)}
    (size : readSrc h.g h.p count t = .words [n]) (at' : readSrc h.g h.p base t = .words [b.halves.1, b.halves.2]) (some' : n ≠ 0)
    (most : n.toNat ≤ 1048576) (inside : b.extractLsb' 55 9 = 0)
    (lines : regionLines s h.w (n.toNat / 512 + 2) (b.toNat / 128) n.toNat = (some ls, s)) :
    bindOne base count s h t obj = (true, bindLines s h t obj ls) := by
  have pos : n.toNat ≠ 0 := fun z => some' (BitVec.eq_of_toNat_eq z)
  simp [bindOne, size, at', pairOf_halves, pos, most, inside, lines]

/-- Settles O28: one thread that finds its object, whose region BIND sets and UNBIND removes. -/
theorem bindingRegions : Obligations.BindingRegions := by
  intro s h unif d a b ea eb t0 o base n pa ls hh thread ordered read found
  obtain ⟨-, own, -, -, listed⟩ := here_eq s h hh
  refine ⟨fun checked ready at' size some' most inside lines => ?_, fun checked ready => ?_⟩
  · obtain ⟨bytes, groups, e, bound⟩ := bindLines_frame s h t0 pa ls
    have full : [rSrc unif b eb 2, rSrc unif d false].foldl (fun u y => touchSrc u h y t0) s = s := by
      simp only [List.foldl_cons, List.foldl_nil, touchSrc_words at', touchSrc_words size]
    have run (i : Instr) := bindOp_one (i := i) hh thread ordered read found checked ready full
      (bindOne_words (obj := pa) size at' some' most inside lines)
    have done : exec (if unif then .bindU d ea a eb b else .bind d ea a eb b) s = .next (retire (bindLines s h t0 pa ls) h) := by
      cases unif
      · exact run _
      · exact run _
    exact ⟨_, _, e, done, group_retire ((groups _).trans own), wentOn_goneOn listed rfl rfl _, rfl, memByte_of_bytes bytes, bound⟩
  · obtain ⟨bytes, host, groups, unbound⟩ := unbindObject_frame s h t0 pa
    have run (i : Instr) := bindOp_one (i := i) (one := fun s h t o => (true, unbindObject s h t o)) hh thread ordered read found checked
      ready rfl rfl
    have done : exec (if unif then .unbindU ea a else .unbind ea a) s = .next (retire (unbindObject s h t0 pa) h) := by
      cases unif
      · exact run _
      · exact run _
    exact ⟨_, _, done, host, group_retire ((groups _).trans own), wentOn_goneOn listed rfl rfl _, rfl, memByte_of_bytes bytes, unbound⟩

end Sys2Proof.Machine
end

section
/-!
SUPPORT. The save of a workgroup of a context whose dirty map holds an error that cannot be corrected, and which such an error kills
(R54, R391, R394, R431, R437).
-/

namespace Sys2Proof.Machine

open Sys2Proof Sys2Proof.Laws

/-! ## Writes of the device -/

/-- What writes of the device leave: the errors of memory, and all that the host's side holds but for what is sent. -/
def DeviceWrote (s t : State) : Prop := t.mem.ecc = s.mem.ecc ∧ t.host = { s.host with out := t.host.out }

theorem DeviceWrote.refl (s : State) : DeviceWrote s s := ⟨rfl, rfl⟩

theorem DeviceWrote.trans {s t u : State} (h : DeviceWrote s t) (h' : DeviceWrote t u) : DeviceWrote s u := by
  obtain ⟨ecc, host⟩ := h
  obtain ⟨ecc', host'⟩ := h'
  exact ⟨ecc'.trans ecc, by rw [host', host]⟩

theorem DeviceWrote.mgmt {s t : State} (h : DeviceWrote s t) (k : Nat) : t.mgmt k = s.mgmt k := by
  rw [State.mgmt, h.2]
  rfl

theorem DeviceWrote.ctx {s t : State} (h : DeviceWrote s t) (k : Nat) : t.ctx k = s.ctx k := by
  rw [State.ctx, h.2]
  rfl

theorem ecc_setBytes (m : MemSys) (a : Nat) (l : List Byte) : (setBytes m a l).ecc = m.ecc := by
  induction l generalizing m a with
  | nil => rfl
  | cons b l ih => exact ih ..

theorem ecc_pokeWord (m : MemSys) (g a : Nat) (v : Word) (p : Bool) (o : Word) (va : DWord) : (pokeWord m g a v p o va).ecc = m.ecc :=
  ecc_setBytes ..

theorem deviceWrote_writeHalf (s : State) (a : Nat) (be : BitVec 4) : DeviceWrote s (writeHalf s a be) := by
  unfold writeHalf
  split
  · exact ⟨rfl, rfl⟩
  · exact .refl s

theorem deviceWrote_devicePoke (s : State) (a : Nat) (w : Word) (p : Bool) (o : Word) : DeviceWrote s (devicePoke s a w p o) := by
  have stored : DeviceWrote s (wakeMonitors (s.withMem (pokeWord s.mem deviceAgent a w p o 0)) a) :=
    ⟨ecc_pokeWord s.mem deviceAgent a w p o 0, rfl⟩
  exact stored.trans (deviceWrote_writeHalf ..)

theorem deviceWrote_deviceWords (s : State) (a : Nat) (ws : List Word) : DeviceWrote s (deviceWords s a ws) := by
  induction ws generalizing s a with
  | nil => exact .refl s
  | cons w ws ih => exact (deviceWrote_devicePoke ..).trans (ih ..)

theorem deviceWrote_writeImage (s : State) (base : Nat) (ws : List (Nat × Word)) : DeviceWrote s (writeImage s base ws) := by
  induction ws generalizing s with
  | nil => exact .refl s
  | cons w ws ih => exact (deviceWrote_devicePoke ..).trans (ih ..)

theorem deviceWrote_copyWords (s : State) (src dst n : Nat) : DeviceWrote s (copyWords s src dst n) := by
  induction n generalizing s src dst with
  | zero => exact .refl s
  | succ n ih => exact (deviceWrote_devicePoke ..).trans (ih ..)

theorem deviceWrote_writeSlot (s : State) (base : Nat) (i : Image) : DeviceWrote s (writeSlot s base i) :=
  (deviceWrote_writeImage ..).trans (deviceWrote_copyWords ..)

/-! ## The dirty map (R391) -/

/-- R391: the word of a context's dirty map that holds a page's bit. -/
def dirtyWord (s : State) (tag pa : Nat) : Nat :=
  (mapBit (((s.mgmt64 (0x4000 + 32 * tag + 0x10)).extractLsb' 16 48).toNat * 65536) pa).1 / 4 * 4

theorem fetchHalf_home {s : State} {a : Nat} (home : regionOf a ≠ .host) (ctx : Option Nat) (part : Nat) : fetchHalf s ctx part a = s := by
  unfold fetchHalf
  split
  · next host => exact absurd host home
  · rfl

theorem DeviceWrote.dirtyWord {s t : State} (h : DeviceWrote s t) (tag pa : Nat) : dirtyWord t tag pa = dirtyWord s tag pa := by
  simp only [Machine.dirtyWord, State.mgmt64, h.mgmt]

/-- R391: a page whose bit lies in a word without an error: its bit is a write of the device. -/
theorem deviceWrote_noteDirty {s : State} {tag pa : Nat} (home : regionOf (dirtyWord s tag pa) ≠ .host)
    (sound : eccBad s (dirtyWord s tag pa) = false) : DeviceWrote s (noteDirty s tag pa) := by
  unfold dirtyWord at home sound
  unfold noteDirty mapSet
  simp only [fetchHalf_home home, sound, Bool.false_eq_true, if_false]
  split
  · split
    · exact .refl s
    · exact deviceWrote_devicePoke ..
  · exact .refl s

/-- R54, R391: a page whose bit lies in a word with an error. -/
theorem noteDirty_torn {s : State} {tag pa : Nat} (on : (s.mgmt64 (0x4000 + 32 * tag + 0x10)).getLsbD 0 = true) (covered : mapped pa = true)
    (home : regionOf (dirtyWord s tag pa) ≠ .host) (torn : eccBad s (dirtyWord s tag pa) = true) :
    noteDirty s tag pa = detectEcc s (some tag) ((s.ctx tag).elim 0 (·.part)) (dirtyWord s tag pa) := by
  unfold dirtyWord at home torn ⊢
  unfold noteDirty mapSet
  simp only [on, covered, Bool.and_self, if_true, fetchHalf_home home, torn]

/-! ## A context that is killed (R437) -/

/-- A context is killed, or it is gone. -/
def Killed (tag : Nat) (s : State) : Prop := ∀ c, s.ctx tag = some c → c.killed = true

theorem killed_same {tag : Nat} {s t : State} (same : t.ctx tag = s.ctx tag) (killed : Killed tag s) : Killed tag t :=
  fun c hc => killed c (same.symm.trans hc)

theorem killed_modCtx {tag k : Nat} {s : State} {f : Context → Context} (keeps : ∀ c, c.killed = true → (f c).killed = true)
    (killed : Killed tag s) : Killed tag (s.modCtx k f) := by
  intro c hc
  rw [ctx_modCtx] at hc
  split at hc
  · next same =>
    obtain ⟨c', found, rfl⟩ := Option.map_eq_some_iff.mp hc
    exact keeps c' (killed c' (same ▸ found))
  · exact killed c hc

theorem killed_foldl {β : Type} {tag : Nat} {f : State → β → State} (hf : ∀ s x, Killed tag s → Killed tag (f s x)) (l : List β)
    {s : State} (killed : Killed tag s) : Killed tag (l.foldl f s) :=
  List.foldlRecOn l f (motive := Killed tag) killed fun t ht x _ => hf t x ht

/-- R379: replies change no context. -/
theorem ctx_endPreempts (s : State) (tag code detail k : Nat) : (endPreempts s tag code detail).ctx k = s.ctx k := by
  obtain ⟨-, -, ctx⟩ := onlyContext_sendReplies (k + 1) (s.host.replies.map fun x => if x = (tag, none) then (tag, some (replyWord code detail))
    else x) s
  exact ctx k (by omega)

theorem killed_disableQueues {k : Nat} {s : State} (tag : Nat) (killed : Killed k s) : Killed k (disableQueues s tag) :=
  killed_foldl (fun s _ h => by
    dsimp only
    split
    · exact killed_same rfl h
    · exact h) _ killed

theorem killed_abortCheckpoints {k : Nat} {s : State} (tag : Nat) (killed : Killed k s) : Killed k (abortCheckpoints s tag) :=
  killed_foldl (fun s p h => by
    split
    · unfold abortCheckpoint
      dsimp only
      split
      · exact killed_same rfl (killed_modCtx (s := s.setMgmt ..) (fun _ h => h) h)
      · exact h
    · exact h) _ killed

/-- R437: a context that is halted is killed. -/
theorem haltContext_kills (s : State) (tag : Nat) : Killed tag (haltContext s tag) := by
  unfold haltContext
  split
  · next gone => exact fun c hc => absurd (gone.symm.trans hc) nofun
  · next c found =>
    split
    · next already => exact fun c' hc => Option.some.inj (found.symm.trans hc) ▸ already
    · refine killed_abortCheckpoints tag (killed_disableQueues tag (killed_same (ctx_endPreempts ..) fun c' hc => ?_))
      rw [ctx_modCtx, if_pos rfl] at hc
      obtain ⟨c0, -, rfl⟩ := Option.map_eq_some_iff.mp hc
      rfl

/-- R437, R444: without a dump. -/
theorem killContext_kills {s : State} {tag : Nat} (trigger : List Byte)
    (undumped : ∀ c, s.ctx tag = some c → (s.mgmt (0x15000 + 0x100 * c.part + 0xA0)).getLsbD 0 = false) :
    Killed tag (killContext s tag trigger) := by
  unfold killContext
  split
  · next gone => exact fun c hc => absurd (gone.symm.trans hc) nofun
  · next c found =>
    split
    · next already => exact fun c' hc => Option.some.inj (found.symm.trans hc) ▸ already
    · rw [undumped c found]
      exact haltContext_kills s tag

theorem ctx_writeLog (s : State) (part : Nat) (bytes : List Byte) (k : Nat) : (writeLog s part bytes).ctx k = s.ctx k := by
  unfold writeLog
  dsimp only
  split
  · exact (deviceWrote_deviceWords s _ _).ctx k
  · rfl

/-- R437, R441, R444: what is done for an event whose action kills its context. -/
theorem actOn_kill {s : State} {e : Ev} {tag : Nat} (kills : actionOf s e = 3) (ctx : e.ctx = some tag) :
    ∃ bytes, actOn s e = killContext ((writeLog s (e.part.getD 0) bytes).send (.event bytes)) tag bytes := by
  refine ⟨recordOf s (e.part.getD 0) e 3, ?_⟩
  unfold actOn
  simp [kills, ctx]

/-- R434 to R437: an event of a context, where the matrix kills it for one and no dump is asked for. -/
theorem raise_kills {s : State} {e : Ev} {tag : Nat} (kills : actionOf s e = 3) (ctx : e.ctx = some tag) (some' : e.count ≠ 0)
    (cls : e.cls < 32) (part : ∀ c, s.ctx tag = some c → c.part = e.part.getD 0)
    (undumped : (s.mgmt (0x15000 + 0x100 * e.part.getD 0 + 0xA0)).getLsbD 0 = false) : Killed tag (raise s e) := by
  obtain ⟨bytes, acted⟩ := actOn_kill (s := countEvent s e) ((actionOf_countEvent cls).trans kills) ctx
  obtain ⟨-, word⟩ := aside_writeLog (c := 0x15000 + 0x100 * e.part.getD 0 + 0xA0) (part := e.part.getD 0) (countEvent s e) bytes (by omega)
  have counted : (countEvent s e).mgmt (0x15000 + 0x100 * e.part.getD 0 + 0xA0) = s.mgmt (0x15000 + 0x100 * e.part.getD 0 + 0xA0) :=
    (mgmt_setMgmt ..).trans (if_neg (by omega))
  rw [raise, if_neg some', acted]
  refine killContext_kills bytes fun c hc => ?_
  rw [part c ((ctx_writeLog (countEvent s e) _ bytes tag).symm.trans hc)]
  exact (congrArg (·.getLsbD 0) (word.trans counted)).trans undumped

/-- R54, R434: an error in near memory is an event of class 7 and source 3 of the context that met it. -/
theorem eccEvent_near (s : State) (tag part : Nat) {a q : Nat} (near : regionOf a = .near q) (unit : sget 0 s.mem.ecc a = 3) :
    let e := (eccEvent s (some tag) part a).2
    e.cls = 7 ∧ e.src = 3 ∧ e.ctx = some tag ∧ e.part = some part ∧ e.count = 1 := by
  have below : ¬ 0x10000000000000 ≤ a := fun high => by
    rw [regionOf, if_pos high] at near
    cases near
  simp [eccEvent, below, unit, near, memSource]

/-- R54, R384, R437: a word of near memory with an error, where the matrix kills the context that met it. -/
theorem detectEcc_kills {s : State} {tag a q : Nat} {c : Context} (near : regionOf a = .near q) (unit : sget 0 s.mem.ecc a = 3)
    (live : s.ctx tag = some c) (running : c.killed = false)
    (kills : ((s.mgmt (0x15000 + 0x100 * c.part + 4 * 7)).extractLsb' 9 3).toNat = 3) (idle : sget false s.host.resetting c.part = false)
    (undumped : (s.mgmt (0x15000 + 0x100 * c.part + 0xA0)).getLsbD 0 = false) : Killed tag (detectEcc s (some tag) c.part a) := by
  obtain ⟨cls, src, ctx, part, count⟩ := eccEvent_near s tag c.part near unit
  unfold detectEcc
  generalize eccEvent s (some tag) c.part a = qe at cls src ctx part count
  obtain ⟨quad, e⟩ := qe
  dsimp only at cls src ctx part count ⊢
  refine raise_kills ?_ ctx (by omega) (by omega) (fun c' hc => ?_) (by rw [part]; exact undumped)
  · simp only [actionOf, cls, src, ctx, part, Option.getD_some, withMem_ctx, withMem_host, withMem_mgmtAt, live, Option.all_some,
      running, idle, kills]
    rfl
  · rw [part, Option.some.inj (live.symm.trans hc)]
    rfl

/-! ## PREEMPT_SAVE (R394) -/

/-- R395: what PREEMPT_SAVE saves of a workgroup. -/
def savedImage (s : State) (w : WG) : Image := imageNumbered s.fresh.2 w s.exe.nextId

/-- R395, R431: the first and last place of each part of a slot that an image is written to. -/
def savedEnds (i : Image) : List Nat := (slotParts i.wg i.groups (i.records.map (·.1))).flatMap fun p => [p.1, p.1 + p.2 - 1]

/-- R394: a context that is killed as its slot's pages are noted is killed after the save. -/
theorem killed_saveWg {s : State} {w : WG} {slot : Nat} (killed : Killed w.ctx (markSaved
      (writeSlot s.fresh.2 (slotBase s w.ctx slot) (savedImage s w)) w.ctx (slotBase s w.ctx slot) (savedEnds (savedImage s w)))) :
    Killed w.ctx (saveWg s w slot) := by
  unfold saveWg imageOf
  exact killed_modCtx (fun _ h => h) (killed_same (by rfl) killed)

theorem killed_settlePreempt {s : State} {k : Nat} (tag : Nat) (killed : Killed k s) : Killed k (settlePreempt s tag) := by
  unfold settlePreempt
  split
  · exact killed
  · split
    · exact killed
    · exact killed_same (ctx_endPreempts ..) (killed_modCtx (fun _ h => h) killed)

theorem exec_preemptSave {s : State} {id slot : Nat} {w : WG} {c : Context} (found : s.wg id = some w) (named : w.id = id)
    (live : s.ctx w.ctx = some c) (stopping : c.stopping = true) (running : c.killed = false)
    (done : drained s (((s.exe.groups.map (·.2)).filter (·.wg = id)).map (·.id)) = true) (free : freeSlot s c = some slot) :
    exec (.preemptSave id) s = .next (settlePreempt (saveWg s w slot) w.ctx) := by
  subst named
  change execPreemptSave w.id s = _
  simp only [execPreemptSave, found, live, stopping, running, done, free, Bool.not_true, Bool.or_self, Bool.false_eq_true, if_false]

/-! ## The dirty map of a context that stops -/

/-- R391, R394, R436: the loaded workgroup, the only one of a context that stops for a pre-emption. Its save area begins at 0xE0000. Its
dirty map is at 0x50000 in near memory, the second word of which has an error that cannot be corrected, and the matrix kills the
context of such an event. -/
def tornSave : State :=
  let s := ((Tests.saving false).setMgmt (0x4000 + 32 * 1 + 8) 0xE0002).setMgmt (0x15000 + 4 * 7) 0x600
  upsetWord (s.setMgmt64 (0x4000 + 32 * 1 + 0x10) 0x50001) 0x50004 3

/-- The context. -/
def stoppingContext : Context := { tag := 1, part := 0, root := 0x10000, stopping := true }

/-- R394: its workgroup can be saved, to the first slot. -/
theorem tornSave_ready : tornSave.wg 1 = some loadWg ∧ tornSave.ctx loadWg.ctx = some stoppingContext ∧
    drained tornSave (((tornSave.exe.groups.map (·.2)).filter (·.wg = 1)).map (·.id)) = true ∧
    freeSlot tornSave stoppingContext = some 0 ∧ slotBase tornSave loadWg.ctx 0 = 0xE0000 ∧
    ∀ kw ∈ tornSave.exe.wgs, kw.1 ≠ 1 → kw.2.ctx ≠ loadWg.ctx := by decide +kernel

/-- R395: the pages of the slot that the image is written to. -/
theorem tornSave_pages : (List.range 80).filter (fun p => (savedEnds (savedImage tornSave loadWg)).any (· / 65536 = p)) =
    [0, 2, 3, 8, 16] ++ [18] := by decide +kernel

/-- R391: the bits of all pages but the last lie in the first word of the map. -/
theorem tornSave_map : tornSave.mem.ecc = [(0x50004, 3)] ∧ dirtyWord tornSave loadWg.ctx (0xE0000 + 65536 * 18) = 0x50004 ∧
    (∀ p ∈ [0, 2, 3, 8, 16], dirtyWord tornSave loadWg.ctx (0xE0000 + 65536 * p) = 0x50000) ∧
    (tornSave.mgmt64 (0x4000 + 32 * loadWg.ctx + 0x10)).getLsbD 0 = true ∧
    ((tornSave.mgmt (0x15000 + 0x100 * stoppingContext.part + 4 * 7)).extractLsb' 9 3).toNat = 3 ∧
    sget false tornSave.host.resetting stoppingContext.part = false ∧
    (tornSave.mgmt (0x15000 + 0x100 * stoppingContext.part + 0xA0)).getLsbD 0 = false := by decide +kernel

/-- R391, R437: the bit of the last page is in the word with the error, which kills the context. -/
theorem tornSave_killed {u : State} (wrote : DeviceWrote tornSave u) : Killed loadWg.ctx (noteDirty u loadWg.ctx (0xE0000 + 65536 * 18)) := by
  obtain ⟨-, live, -⟩ := tornSave_ready
  obtain ⟨ecc, word, -, on, matrix, idle, undumped⟩ := tornSave_map
  have word' : dirtyWord u loadWg.ctx (0xE0000 + 65536 * 18) = 0x50004 := (wrote.dirtyWord ..).trans word
  have ecc' : u.mem.ecc = [(0x50004, 3)] := wrote.1.trans ecc
  have live' : u.ctx loadWg.ctx = some stoppingContext := (wrote.ctx _).trans live
  rw [noteDirty_torn (by simpa only [State.mgmt64, wrote.mgmt] using on) (by decide) (by rw [word']; decide)
    (by rw [word', eccBad, ecc']; rfl), word', live']
  refine detectEcc_kills (q := 0) (by decide) (by rw [ecc']; rfl) live' rfl ?_ ?_ ?_
  · rw [wrote.mgmt]
    exact matrix
  · rw [wrote.2]
    exact idle
  · rw [wrote.mgmt]
    exact undumped

/-- R391, R394, R437: the context is killed after the save. -/
theorem tornSave_saved : Killed loadWg.ctx (settlePreempt (saveWg tornSave loadWg 0) loadWg.ctx) := by
  obtain ⟨-, -, -, -, base, -⟩ := tornSave_ready
  obtain ⟨ecc, -, first, -⟩ := tornSave_map
  refine killed_settlePreempt _ (killed_saveWg ?_)
  rw [base, markSaved, tornSave_pages, List.foldl_append, List.foldl_cons, List.foldl_nil]
  refine tornSave_killed (List.foldlRecOn _ _ (motive := DeviceWrote tornSave) ?_ fun t wrote p hp => ?_)
  · exact DeviceWrote.trans (t := tornSave.fresh.2) ⟨rfl, rfl⟩ (deviceWrote_writeSlot ..)
  · have word : dirtyWord t loadWg.ctx (0xE0000 + 65536 * p) = 0x50000 := (wrote.dirtyWord ..).trans (first p hp)
    have ecc' : t.mem.ecc = [(0x50004, 3)] := wrote.1.trans ecc
    exact wrote.trans (deviceWrote_noteDirty (by rw [word]; decide) (by rw [word, eccBad, ecc']; rfl))

/-- R394: the last workgroup is saved, but its context is killed and not just pre-empted. -/
theorem not_workgroupSaved : ¬ Claim.WorkgroupSaved := by
  intro claim
  obtain ⟨resident, live, done, free, -, only⟩ := tornSave_ready
  obtain ⟨t, i, saved, -, -, -, -, -, -, -, -, -, complete⟩ := claim tornSave 1 0 loadWg stoppingContext resident rfl live rfl rfl done free
  rw [exec_preemptSave resident rfl live rfl rfl done free] at saved
  obtain rfl := Host.Outcome.next.inj saved
  obtain ⟨preempted, -⟩ := complete only
  exact Bool.false_ne_true (tornSave_saved _ preempted)

/-- Refutes O46: a save enters the pages that it writes in the dirty map of the context. Where the map's word has an error that cannot be
corrected and the severity matrix kills the context for it, the context of the last workgroup saved is killed, where the statement lets
only its images, `stopping` and `preempted` differ. -/
theorem not_workgroupsSavedMovedRestored : ¬ Obligations.WorkgroupsSavedMovedRestored := fun ⟨_, saved, _⟩ => not_workgroupSaved saved

end Sys2Proof.Machine
end

section
/-!
SUPPORT. ACCST to a page whose table entry holds an error that cannot be corrected, on a partition that such an error resets (R54,
R306, R384, R389, R437).
-/

namespace Sys2Proof.Machine

open Sys2Proof Sys2Proof.Laws

/-! ## The elements that ACCST stores (R306) -/

/-- R290, R306: the elements of a full tile in row order, as stored where all are clean and convert. -/
def tileElements (d : TDesc) (fmt : Word) (x : Tile) : List TileStore :=
  (List.range 64).flatMap fun i => (List.range 64).map fun j =>
    { va := d.addr (elemSize (slotElem fmt)) i j, bits := (storeElem fmt (sget 0 x.elems (64 * i + j))).getD 0, poi := none }

theorem tileElements_cons (d : TDesc) (fmt : Word) (x : Tile) : ∃ rest, tileElements d fmt x =
    { va := d.addr (elemSize (slotElem fmt)) 0 0, bits := (storeElem fmt (sget 0 x.elems 0)).getD 0, poi := none } :: rest := ⟨_, rfl⟩

theorem mem_tileElements {d : TDesc} {fmt : Word} {x : Tile} {e : TileStore} (he : e ∈ tileElements d fmt x) :
    e.poi = none ∧ ∃ i j, j < 64 ∧ e.va = d.addr (elemSize (slotElem fmt)) i j := by
  obtain ⟨i, -, he⟩ := List.mem_flatMap.mp he
  obtain ⟨j, hj, rfl⟩ := List.mem_map.mp he
  exact ⟨rfl, i, j, List.mem_range.mp hj, rfl⟩

/-- R255, R306: the store of a clean element at the physical address `pa`. -/
def elementStore (s : State) (h : Here) (t size pa : Nat) (x : TileStore) : Eff :=
  { kind := .store, t := t, gid := h.g.id, ctx := h.w.ctx, part := (s.ctx h.w.ctx).elim 0 (·.part), core := h.w.coreNo
    ags := execAgents h true t, pc := h.p.pc, va := x.va, pa := pa, size := size, data := [x.bits], origin := 0 }

/-- R255: elements that may be stored leave the state as it is while their addresses are checked. -/
theorem foldl_checkAccess {s : State} {h : Here} {t size : Nat} {place : DWord → Nat} (l : List TileStore)
    (stores : ∀ x ∈ l, checkAccess s h t false { write := true } size size x.va = (.loc (place x.va), s)) (before : List (TileStore × AddrOut)) :
    l.foldl (fun acc x =>
      let (o, s) := checkAccess acc.2 h t false { write := true } size size x.va
      (acc.1 ++ [(x, o)], s)) (before, s) = (before ++ l.map fun x => (x, AddrOut.loc (place x.va)), s) := by
  induction l generalizing before with
  | nil => simp
  | cons x l ih =>
    rw [List.foldl_cons]
    dsimp only
    rw [stores x List.mem_cons_self]
    dsimp only
    rw [ih fun y hy => stores y (List.mem_cons_of_mem x hy)]
    simp

/-- R66: clean effects are performed, and nothing is counted. -/
theorem performAll_allClean {effs : List Eff} (clean : ∀ e ∈ effs, e.fate = .clean) (s : State) (gid : Nat) (pc : DWord) :
    performAll s gid pc effs = effs.foldl (submit effs) s := by
  unfold performAll
  dsimp only
  rw [List.filterMap_eq_nil_iff.mpr fun e he => by rw [clean e he], kept_nil,
    List.filterMap_eq_nil_iff.mpr fun e he => by rw [clean e he], dropped_nil]
  refine List.foldl_ext _ _ _ fun u e he => ?_
  rw [performOne, clean e he]

/-- R66, R306: clean elements that may be stored are submitted one after the other. -/
theorem storeTile_clean {s : State} {h : Here} {t size : Nat} {place : DWord → Nat} {l : List TileStore}
    (stores : ∀ x ∈ l, checkAccess s h t false { write := true } size size x.va = (.loc (place x.va), s)) (clean : ∀ x ∈ l, x.poi = none) :
    storeTile s h t none size l = l.foldl (fun u x => submit [] u (elementStore s h t size (place x.va) x)) s := by
  have fates : ∀ e ∈ l.map fun x => elementStore s h t size (place x.va) x, e.fate = .clean := by
    rintro e he
    obtain ⟨x, -, rfl⟩ := List.mem_map.mp he
    rfl
  unfold storeTile
  rw [foldl_checkAccess l stores]
  dsimp only
  rw [List.nil_append, List.filterMap_eq_nil_iff.mpr fun y hy => by obtain ⟨x, -, rfl⟩ := List.mem_map.mp hy; rfl, newRecords,
    List.foldl_nil, List.map_map]
  dsimp only
  trans performAll s h.g.id h.p.pc (l.map fun x => elementStore s h t size (place x.va) x)
  · refine congrArg (performAll s h.g.id h.p.pc) (List.map_congr_left fun x hx => ?_)
    simp [elementStore, clean x hx]
  · rw [performAll_allClean fates, List.foldl_map]
    rfl

/-- R290, R306: what ACCST makes of the elements of a tile: the address, the FP32 bits, whether it is poisoned, and what is stored. -/
def tileOuts (d : TDesc) (fmt : Word) (x : Tile) : List (DWord × Word × Bool × Option Word) :=
  (List.range 64).flatMap fun i => (List.range 64).map fun j =>
    (d.addr (elemSize (slotElem fmt)) i j, sget 0 x.elems (64 * i + j), sget false x.poi (64 * i + j),
      storeElem fmt (sget 0 x.elems (64 * i + j)))

section

variable {d : TDesc} {fmt : Word} {x : Tile} (poi : x.poi = [])
  (converts : ∀ e, e < 4096 → (storeElem fmt (sget 0 x.elems e)).isSome = true)

include poi converts

theorem tileOuts_clean {o : DWord × Word × Bool × Option Word} (ho : o ∈ tileOuts d fmt x) : o.2.2.1 = false ∧ o.2.2.2.isSome = true := by
  obtain ⟨i, hi, ho⟩ := List.mem_flatMap.mp ho
  obtain ⟨j, hj, rfl⟩ := List.mem_map.mp ho
  have hi := List.mem_range.mp hi
  have hj := List.mem_range.mp hj
  exact ⟨by rw [poi]; rfl, converts _ (by omega)⟩

/-- R66: no element of a clean tile that converts is poisoned on its way to memory. -/
theorem tileOuts_elements (k rt : Token) : ((tileOuts d fmt x).map fun o => ({
      va := o.1, bits := o.2.2.2.getD o.2.1
      poi := if o.2.2.1 then some k else if o.2.2.2.isNone then some rt else none } : TileStore)) =
    tileElements d fmt x := by
  rw [tileOuts, tileElements, List.map_flatMap]
  refine List.flatMap_congr fun i hi => ?_
  rw [List.map_map]
  refine List.map_congr_left fun j hj => ?_
  have hi := List.mem_range.mp hi
  have hj := List.mem_range.mp hj
  obtain ⟨w, hw⟩ := Option.isSome_iff_exists.mp (converts (64 * i + j) (by omega))
  simp only [Function.comp, hw, poi]
  rfl

end

/-- R261: where every element converts, no record is made. -/
theorem rangeToken_none (s : State) (h : Here) (t : Nat) : rangeToken s h t 0 = (0, s) := rfl

/-- R456: without watchpoints nothing hits one. -/
theorem watchHit_unwatched {s : State} {h : Here} (unseen : unwatched s h) (write : Bool) (size : Nat) (l : List (Nat × DWord)) :
    watchHit s h.w.ctx write size l = none := by
  rw [watchHit, unseen]
  rfl

/-- R306: ACCST of a full tile of clean elements that convert, with a valid descriptor. -/
theorem exec_accst_full {s : State} {h : Here} {c : BitVec 3} {ea : Bool} {a : BitVec 7} {sl : BitVec 3} {t0 : Nat} {ws : List Word} {fmt : Word}
    {x : Tile} (format : slotOf s h.w sl = fmt) (tile : sget ({} : Tile) h.w.tiles c.toNat = x) (hh : s.here = some h)
    (named : c.toNat < h.w.ntiles) (closed : closedSpan h) (unseen : unwatched s h) (full : x.full = true) (poi : x.poi = []) (last : x.last = [])
    (one : uniThreads h.g h.p = [(t0, none)]) (guard : guardFull h.g h.p = true) (read : readSrc h.g h.p (rSrc true a ea 4) t0 = .words ws)
    (valid : (TDesc.of ws).status = 0) (nk : (TDesc.of ws).nk = 4)
    (converts : ∀ e, e < 4096 → (storeElem fmt (sget 0 x.elems e)).isSome = true) : exec (.accst c ea a sl) s =
      .next (retire (storeTile s h t0 none (elemSize (slotElem fmt)) (tileElements (TDesc.of ws) fmt x)) h) := by
  have unopened : spanOpen h = false := by simpa [spanOpen, closedSpan] using closed
  have ready : srcReady h.g h.p (rSrc true a ea 4) [t0] = true := srcReady_of_words read
  have unwaited : operandsReady h [] [] none = true := by simp [operandsReady, guard]
  show execAccst c ea a sl s = _
  simp only [execAccst, issuing, hh, tileOf, format, tile, unopened, one, unwaited, List.map_cons, List.map_nil, ready, full,
    Nat.not_le.mpr named, joinTile, last, List.foldl_nil, blockDesc, read, valid, nk, Bool.not_true, Bool.false_and, Bool.or_false,
    decide_false, Bool.false_eq_true, if_false, ne_eq, not_true_eq_false]
  rw [← tileOuts, List.filter_eq_nil_iff.mpr fun o ho => by
    obtain ⟨clean, converted⟩ := tileOuts_clean poi converts ho
    simpa [clean, Option.isSome_iff_ne_none] using converted, List.length_nil, rangeToken_none]
  dsimp only
  rw [watchHit_unwatched unseen, watchStop, tileOuts_elements poi converts]

/-! ## Stores of a context that is gone -/

theorem ctx_writeHalf (s : State) (a : Nat) (be : BitVec 4) (tag : Nat) : (writeHalf s a be).ctx tag = s.ctx tag := by
  unfold writeHalf
  split <;> rfl

/-- R378, R437: a context and a group that are gone. -/
def Gone (tag gid : Nat) (s : State) : Prop := s.ctx tag = none ∧ s.group gid = none

section

variable {tag gid : Nat} {s : State} (gone : Gone tag gid s)

include gone

theorem gone_writeOne (ags : List Nat) (a : Nat) (v : Word) (be : BitVec 4) (poi : Bool) (o : Word) (va : DWord) :
    Gone tag gid (writeOne s ags a v be poi o va) := by
  obtain ⟨noCtx, noGroup⟩ := gone
  constructor
  · rw [writeOne, ctx_writeHalf]
    exact noCtx
  · have same := sameGroups_writeOne s ags v poi o va be (a := a) gid
    rw [noGroup] at same
    exact Option.map_eq_none_iff.mp same

theorem gone_writeWords (ags : List Nat) (a : Nat) (poi : Bool) (o : Word) (va : DWord) (ws : List Word) :
    Gone tag gid (writeWords s ags a poi o va ws) := by
  induction ws generalizing s a va with
  | nil => exact gone
  | cons w ws ih => exact ih (gone_writeOne gone ..) ..

/-- R262: a store in memory writes bytes. -/
theorem gone_performLocal {e : Eff} (kind : e.kind = .store) (flat : e.scratch = false) : Gone tag gid (performLocal s e) := by
  unfold performLocal
  simp only [kind, Eff.written, flat, Bool.false_eq_true, if_false]
  split
  · exact gone
  · split
    · exact gone_writeOne gone ..
    · exact gone_writeWords gone ..

/-- R78, R389: a store of a context that is gone waits or is performed, and no page is noted for it. -/
theorem gone_submit {e : Eff} (near : e.chord = none) (kind : e.kind = .store) (scratch : e.scratch = false) (ctx : e.ctx = tag) :
    Gone tag gid (submit [] s e) := by
  have unnoted : noteWrite s e.ctx (some e.core) e.va e.pa = some s := by rw [noteWrite, ctx, gone.1]
  have flat : e.flat = true := by simp [Eff.flat, scratch, kind]
  unfold submit
  simp only [near, flat, unnoted, Bool.not_true, Bool.false_eq_true, if_false]
  split
  · exact gone
  · exact gone_performLocal gone kind scratch

end

theorem group_retire_none {s : State} {h : Here} (gone : s.group h.g.id = none) : (retire s h).group h.g.id = none := by
  rw [retire, retireAt, State.modPath, countRetire, group_modGroup_same, group_modGroup_same, gone]
  rfl

/-! ## A page whose table entry has an error -/

/-- R54, R386, R436: the loaded group, with a full tile and the descriptor of one in s4 to s7, on a core whose TLB serves the page of the
elements; the word of its entry in near memory has an error that cannot be corrected since the TLB took it, and the matrix resets the
partition for one. -/
def tornTile : State := upsetWord ((Tests.tiled 4).setMgmt (0x15000 + 4 * 7) 0x800) 0x30000 3

/-- What issues there: the path of the loaded group. -/
def tornTileHere : Here := Tests.cur tornTile

/-- Its tile. -/
def tornTileData : Tile := sget ({} : Tile) tornTileHere.w.tiles (3 : BitVec 3).toNat

/-- R290, R306: one thread executes, nothing watches it, and its tile and its descriptor are what ACCST asks for. -/
theorem tornTile_ready : tornTile.here = some tornTileHere ∧ (3 : BitVec 3).toNat < tornTileHere.w.ntiles ∧ closedSpan tornTileHere ∧
    unwatched tornTile tornTileHere ∧ tornTileData.full = true ∧ tornTileData.poi = [] ∧ tornTileData.last = [] ∧
    uniThreads tornTileHere.g tornTileHere.p = [(0, none)] ∧ guardFull tornTileHere.g tornTileHere.p = true ∧
    readSrc tornTileHere.g tornTileHere.p (rSrc true 4 false 4) 0 = .words (Tests.flatTile 4) := by
  unfold closedSpan unwatched
  decide +kernel

/-- R290: the descriptor is valid and of four blocks of columns. -/
theorem tornTile_descriptor : (TDesc.of (Tests.flatTile 4)).status = 0 ∧ (TDesc.of (Tests.flatTile 4)).nk = 4 := by decide +kernel

/-- R120: the elements are FP32, which are stored as they are. -/
theorem tornTile_format : slotOf tornTile tornTileHere.w 0 = 0 := by decide +kernel

/-- R255: each element may be stored: its check changes nothing. -/
theorem tornTile_stores (i : Nat) {j : Nat} (hj : j < 64) : let va := (TDesc.of (Tests.flatTile 4)).addr 4 i j
    checkAccess tornTile tornTileHere 0 false { write := true } 4 4 va = (.loc (0x40000 + va.toNat), tornTile) := by
  have row : ∀ j, j < 64 → let va := (TDesc.of (Tests.flatTile 4)).addr 4 0 j
      checkAccess tornTile tornTileHere 0 false { write := true } 4 4 va = (.loc (0x40000 + va.toNat), tornTile) := by decide +kernel
  rw [Tests.flatTile_addr 4 (by decide)]
  exact row j hj

/-- R437: the first store updates the entry of its page, finds the error, and its event resets the partition. -/
theorem tornTile_reset : Gone tornTileHere.w.ctx tornTileHere.g.id (submit [] tornTile (elementStore tornTile tornTileHere 0 4 0x40080
    { va := 128, bits := (storeElem 0 (sget 0 tornTileData.elems 0)).getD 0, poi := none })) := by
  unfold Gone
  decide +kernel

/-- R306, R437: when all elements are stored, the group is gone. -/
theorem tornTile_stored : Gone tornTileHere.w.ctx tornTileHere.g.id
    (storeTile tornTile tornTileHere 0 none 4 (tileElements (TDesc.of (Tests.flatTile 4)) 0 tornTileData)) := by
  rw [storeTile_clean (place := fun va => 0x40000 + va.toNat) (fun e he => ?_) fun e he => (mem_tileElements he).1]
  · obtain ⟨rest, elements⟩ := tileElements_cons (TDesc.of (Tests.flatTile 4)) 0 tornTileData
    rw [elements, List.foldl_cons]
    exact List.foldlRecOn rest _ tornTile_reset fun u gone e _ => gone_submit gone rfl rfl rfl rfl
  · obtain ⟨-, i, j, hj, at'⟩ := mem_tileElements he
    rw [at']
    exact tornTile_stores i hj

/-- R306: ACCST does not merely go on: its group is gone. -/
theorem not_accstCompletes : ¬ Claim.AccstCompletes := by
  intro claim
  obtain ⟨issues, named, closed, unseen, full, poi, last, one, guard, read⟩ := tornTile_ready
  obtain ⟨valid, nk⟩ := tornTile_descriptor
  have converts : ∀ e, e < 4096 → (storeElem 0 (sget 0 tornTileData.elems e)).isSome = true := fun _ _ => rfl
  obtain ⟨t, g', done, found, -⟩ := claim tornTile tornTileHere 3 false 4 0 0 (Tests.flatTile 4) issues named closed unseen full poi last one
    guard read valid nk (by rw [tornTile_format]; exact converts) fun i j _ hj => by
      rw [tornTile_format]
      exact ⟨_, tornTile_stores i hj⟩
  rw [exec_accst_full tornTile_format rfl issues named closed unseen full poi last one guard read valid nk converts] at done
  obtain rfl := Host.Outcome.next.inj done
  obtain ⟨-, gone⟩ := tornTile_stored
  exact absurd ((group_retire_none gone).symm.trans found) nofun

/-- Refutes O36: a store of ACCST sets bits of its page's leaf. Where the leaf's word has an error that cannot be corrected and the
severity matrix resets the partition for it, the group of the ACCST is gone with its context, where the statement lets only its monitor
differ. -/
theorem not_tileTransfersComplete : ¬ Obligations.TileTransfersComplete := fun ⟨_, stores, _⟩ => not_accstCompletes stores

end Sys2Proof.Machine
end

section
/-!
SUPPORT. Worklists of a context and their units: what a change of a worklist leaves, where entries are placed, when nothing waits for
room at a unit, and what messages to other packages leave (R125 to R152).
-/

namespace Sys2Proof.Machine

open Sys2Proof Sys2Proof.Laws

/-! ## A worklist after a change -/

theorem mem_of_mem_sins {α : Type} {m : SMap α} {i : Nat} {y : α} {kx : Nat × α} (h : kx ∈ sins m i y) : kx = (i, y) ∨ kx ∈ m := by
  induction m with
  | nil => exact .inl (by simpa [sins] using h)
  | cons z m ih => grind [sins]

theorem mem_skeys_sins {α : Type} (m : SMap α) (i k : Nat) (y : α) : k ∈ skeys (sins m i y) ↔ k = i ∨ k ∈ skeys m := by
  induction m with
  | nil => simp [sins, skeys]
  | cons z m ih =>
    simp only [skeys] at ih
    grind [sins, skeys]

theorem mem_skeys_of_sfind {α : Type} {m : SMap α} {k : Nat} (h : (sfind m k).isSome = true) : k ∈ skeys m := by
  obtain ⟨x, hx⟩ := Option.isSome_iff_exists.mp h
  exact List.mem_map_of_mem (mem_of_sfind hx)

@[simp] theorem modList_mem (s : State) (ctx n : Nat) (f : Worklist → Worklist) : (modList s ctx n f).mem = s.mem := rfl
@[simp] theorem modList_exe (s : State) (ctx n : Nat) (f : Worklist → Worklist) : (modList s ctx n f).exe = s.exe := rfl
@[simp] theorem modList_group (s : State) (ctx n : Nat) (f : Worklist → Worklist) (k : Nat) : (modList s ctx n f).group k = s.group k := rfl
@[simp] theorem modList_nodeNo (s : State) (ctx n : Nat) (f : Worklist → Worklist) : nodeNo (modList s ctx n f) = nodeNo s := rfl
@[simp] theorem modList_localUnit (s : State) (ctx n : Nat) (f : Worklist → Worklist) (u : Nat) :
    localUnit (modList s ctx n f) u = localUnit s u := rfl

theorem ctx_modList_isSome (s : State) (ctx n k : Nat) (f : Worklist → Worklist) :
    ((modList s ctx n f).ctx k).isSome = (s.ctx k).isSome := by
  rw [modList, ctx_modCtx]
  split
  · next same => subst same; exact Option.isSome_map ..
  · rfl

/-- R125: a live context's worklist after a change of it. -/
theorem getList_modList {s : State} {ctx : Nat} (live : (s.ctx ctx).isSome = true) (n : Nat) (f : Worklist → Worklist) :
    getList (modList s ctx n f) ctx n = f (getList s ctx n) := by
  obtain ⟨c, hc⟩ := Option.isSome_iff_exists.mp live
  simp [getList, modList, ctx_modCtx, hc, sget]

/-- A worklist that is not as it was before any configuration is one of a live context. -/
theorem live_of_getList {s : State} {ctx n : Nat} (h : getList s ctx n ≠ {}) : (s.ctx ctx).isSome = true := by
  cases hc : s.ctx ctx with
  | some c => rfl
  | none => exact absurd (by simp [getList, hc]) h

theorem live_of_open {s : State} {ctx n : Nat} (h : (getList s ctx n).state = 1) : (s.ctx ctx).isSome = true :=
  live_of_getList fun none => by rw [none] at h; exact absurd h (by decide)

theorem unit_modUnit (l : Worklist) (u k : Nat) (f : WLUnit → WLUnit) :
    (l.modUnit u f).unit k = if k = u then f (l.unit u) else l.unit k := by
  simp only [Worklist.unit, Worklist.modUnit, sget, sfind_sins]
  split <;> rfl

@[simp] theorem unit_modUnit_same (l : Worklist) (u : Nat) (f : WLUnit → WLUnit) : (l.modUnit u f).unit u = f (l.unit u) := by
  simp [unit_modUnit]

theorem unit_modUnit_other (l : Worklist) {u k : Nat} (f : WLUnit → WLUnit) (h : k ≠ u) : (l.modUnit u f).unit k = l.unit k := by
  simp [unit_modUnit, h]

@[simp] theorem modUnit_state (l : Worklist) (u : Nat) (f : WLUnit → WLUnit) : (l.modUnit u f).state = l.state := rfl
@[simp] theorem modUnit_age (l : Worklist) (u : Nat) (f : WLUnit → WLUnit) : (l.modUnit u f).age = l.age := rfl
@[simp] theorem modUnit_bucket (l : Worklist) (u : Nat) (f : WLUnit → WLUnit) (e : Entry) : (l.modUnit u f).bucket e = l.bucket e := rfl

theorem mem_skeys_modUnit (l : Worklist) (u k : Nat) (f : WLUnit → WLUnit) : k ∈ skeys (l.modUnit u f).units ↔ k = u ∨ k ∈ skeys l.units :=
  mem_skeys_sins ..

/-- A unit that is not empty is one of a live context. -/
theorem live_of_unit {s : State} {ctx n u : Nat} (h : (getList s ctx n).unit u ≠ {}) : (s.ctx ctx).isSome = true :=
  live_of_getList fun none => h (by rw [none]; rfl)

/-! ## Where entries are placed (R142) -/

/-- A unit holds the same entries in the same order; only whether they are spilled may differ. -/
def Requeued (x y : WLUnit) : Prop := y = { x with queued := y.queued } ∧ queuedEntries y = queuedEntries x

theorem Requeued.refl (x : WLUnit) : Requeued x x := ⟨rfl, rfl⟩

theorem Requeued.trans {x y z : WLUnit} (h : Requeued x y) (k : Requeued y z) : Requeued x z :=
  ⟨by rw [k.1, h.1], k.2.trans h.2⟩

/-- Marking entries keeps them where they are. -/
theorem requeued_map (x : WLUnit) {f : QueuedEntry → QueuedEntry} (keeps : ∀ q, (f q).entry = q.entry) :
    Requeued x { x with queued := x.queued.map f } :=
  ⟨rfl, by simp [queuedEntries, keeps]⟩

theorem requeued_spillAbove (l : Worklist) (x : WLUnit) : Requeued x (l.spillAbove x) :=
  requeued_map x fun q => by split <;> rfl

theorem requeued_spillLast {x : WLUnit} {q : QueuedEntry} (last : x.queued.getLast? = some q) :
    Requeued x { x with queued := x.queued.dropLast ++ [{ q with spilled := true }] } := by
  obtain ⟨init, whole⟩ := List.getLast?_eq_some_iff.mp last
  exact ⟨rfl, by simp [queuedEntries, whole]⟩

theorem requeued_spillFor (l : Worklist) (b others n : Nat) (x : WLUnit) : Requeued x (l.spillFor b others n x) := by
  induction n generalizing x with
  | zero => exact .refl x
  | succ n ih =>
    unfold Worklist.spillFor
    dsimp only
    split
    · exact .refl x
    · split
      · split
        · next last => exact requeued_spillLast last
        · exact .refl x
      · exact (requeued_map x fun q => by split <;> rfl).trans (ih _)

theorem requeued_refill (l : Worklist) (before x : WLUnit) (others : Nat) : Requeued x (l.refill before x others) := by
  unfold Worklist.refill
  split
  · exact .refl x
  · exact requeued_map x fun q => by split <;> rfl

/-- R142, R143: an entry that finds room is the last of its unit's queue. -/
theorem place_requeued {l : Worklist} {x y : WLUnit} {others : Nat} {q : QueuedEntry} (placed : l.place x others q = some y) :
    Requeued { x with queued := x.queued ++ [q] } y := by
  unfold Worklist.place at placed
  dsimp only at placed
  split at placed
  · cases placed
  · cases placed
    exact (requeued_spillAbove ..).trans (requeued_spillFor ..)

theorem queuedEntries_place {l : Worklist} {x y : WLUnit} {others : Nat} {q : QueuedEntry} (placed : l.place x others q = some y) :
    queuedEntries y = queuedEntries x ++ [q.entry] := by
  rw [(place_requeued placed).2]
  simp [queuedEntries]

theorem place_frame {l : Worklist} {x y : WLUnit} {others : Nat} {q : QueuedEntry} (placed : l.place x others q = some y) :
    y = { x with queued := y.queued } := (place_requeued placed).1

/-- R142, R149: an entry that finds room is queued at its unit and counted. -/
theorem enqueue_placed {s : State} {ctx list u : Nat} {e : Entry} {y : WLUnit}
    (placed : (getList s ctx list).place ((getList s ctx list).unit u) (othersAt s (getList s ctx list) u)
      { age := (getList s ctx list).age, bin := binOf (entryPayload e), entry := e, spilled := false } = some y) :
    enqueue s ctx list u e = some (modList s ctx list fun l =>
      { l.modUnit u fun _ => { y with pushes := y.pushes + 1 } with age := l.age + 1 }) := by
  simp only [enqueue, placed]

theorem placed_of_enqueue {s s2 : State} {ctx list u : Nat} {e : Entry} (queued : enqueue s ctx list u e = some s2) :
    ∃ y, (getList s ctx list).place ((getList s ctx list).unit u) (othersAt s (getList s ctx list) u)
      { age := (getList s ctx list).age, bin := binOf (entryPayload e), entry := e, spilled := false } = some y ∧
      s2 = modList s ctx list fun l => { l.modUnit u fun _ => { y with pushes := y.pushes + 1 } with age := l.age + 1 } := by
  cases found : (getList s ctx list).place ((getList s ctx list).unit u) (othersAt s (getList s ctx list) u)
      { age := (getList s ctx list).age, bin := binOf (entryPayload e), entry := e, spilled := false } with
  | none => simp [enqueue, found] at queued
  | some y => exact ⟨y, rfl, by rw [enqueue_placed found] at queued; exact (Option.some.inj queued).symm⟩

/-! ## Nothing waits for room (R142, R143) -/

/-- No push waits for room at a unit, and no stolen entry. -/
def Roomy (x : WLUnit) : Prop := (x.waiting.all fun y => decide (y.why ≠ 0)) = true ∧ x.arriving = []

theorem Requeued.roomy {x y : WLUnit} (h : Requeued x y) (roomy : Roomy x) : Roomy y := by
  rw [h.1]
  exact roomy

theorem noneWaits_roomy {s : State} {u : Nat} (none : noneWaits s u) (ctx list : Nat) : Roomy ((getList s ctx list).unit u) := by
  have empty : Roomy (({} : Worklist).unit u) := ⟨rfl, rfl⟩
  unfold getList
  cases hc : s.ctx ctx with
  | none => exact empty
  | some c =>
    cases hl : sfind c.lists list with
    | none => simp only [Option.map_some, Option.getD_some, sget, hl, Option.getD_none, empty]
    | some l =>
      simp only [Option.map_some, Option.getD_some, sget, hl]
      exact none _ (mem_of_sfind hc) _ (mem_of_sfind hl)

theorem noneWaits_modList {s : State} {u ctx list : Nat} {f : Worklist → Worklist} (none : noneWaits s u)
    (keeps : Roomy ((f (getList s ctx list)).unit u)) : noneWaits (modList s ctx list f) u := by
  cases hc : s.ctx ctx with
  | none =>
    have same : modList s ctx list f = s := by
      have hc' : sfind s.host.ctxs ctx = Option.none := hc
      simp [modList, State.modCtx, smod, hc']
    rwa [same]
  | some c =>
    have hc' : sfind s.host.ctxs ctx = some c := hc
    intro kc hkc kl hkl
    rw [modList, State.modCtx, smod_of_sfind _ _ _ _ hc'] at hkc
    obtain rfl | old := mem_of_mem_sins hkc
    · obtain rfl | old := mem_of_mem_sins hkl
      · rw [getList, hc] at keeps
        exact keeps
      · exact none _ (mem_of_sfind hc') _ old
    · exact none _ old _ hkl

/-- R143: where nothing waits for room, nothing tries again. -/
theorem retryAll_roomy {s : State} {u : Nat} (none : noneWaits s u) : retryAll s u = s := by
  have lists : ∀ kc ∈ s.host.ctxs, ∀ t : State, kc.2.lists.foldl (fun s kl =>
      if (kl.2.unit u).waiting.any (·.why = 0) || !(kl.2.unit u).arriving.isEmpty then retryRoom s kc.1 kl.1 u else s) t = t := by
    intro kc hkc t
    refine List.foldlRecOn (motive := (· = t)) _ _ rfl fun t' same kl hkl => ?_
    obtain ⟨waiting, arriving⟩ := none kc hkc kl hkl
    have quiet : ((kl.2.unit u).waiting.any (·.why = 0)) = false := by
      simpa [List.any_eq_false] using waiting
    rw [if_neg (by simp [quiet, arriving])]
    exact same
  exact List.foldlRecOn (motive := (· = s)) _ _ rfl fun t same kc hkc => by rw [lists kc hkc t, same]

/-! ## A change of one unit -/

/-- One unit of a worklist has become `x`; the others, memory and all that executes are as they were. -/
structure UnitBecomes (ctx list u : Nat) (s t : State) (x : WLUnit) : Prop where
  mem : t.mem = s.mem
  exe : t.exe = s.exe
  live : (t.ctx ctx).isSome = (s.ctx ctx).isSome
  unit (k : Nat) : unitAt t ctx list k = if k = u then x else unitAt s ctx list k
  roomy (v : Nat) : noneWaits s v → (v = u → Roomy x) → noneWaits t v

theorem unitBecomes_modUnit {s : State} {ctx list u : Nat} {f : WLUnit → WLUnit} (live : (s.ctx ctx).isSome = true) :
    UnitBecomes ctx list u s (modList s ctx list fun l => l.modUnit u f) (f (unitAt s ctx list u)) where
  mem := rfl
  exe := rfl
  live := ctx_modList_isSome ..
  unit k := by
    rw [unitAt, getList_modList live, unit_modUnit]
    rfl
  roomy v none new := noneWaits_modList none (by
    rw [unit_modUnit]
    split
    · next at' => exact new at'
    · exact noneWaits_roomy none ctx list)

theorem UnitBecomes.same {ctx list u : Nat} {s t : State} {x : WLUnit} (h : UnitBecomes ctx list u s t x) : unitAt t ctx list u = x := by
  rw [h.unit, if_pos rfl]

theorem UnitBecomes.other {ctx list u k : Nat} {s t : State} {x : WLUnit} (h : UnitBecomes ctx list u s t x) (apart : k ≠ u) :
    unitAt t ctx list k = unitAt s ctx list k := by
  rw [h.unit, if_neg apart]

theorem UnitBecomes.trans {ctx list u : Nat} {s t v : State} {x y : WLUnit} (h : UnitBecomes ctx list u s t x)
    (h' : UnitBecomes ctx list u t v y) (keeps : Roomy x) : UnitBecomes ctx list u s v y where
  mem := h'.mem.trans h.mem
  exe := h'.exe.trans h.exe
  live := h'.live.trans h.live
  unit k := by
    rw [h'.unit, h.unit]
    split <;> rfl
  roomy k none new := h'.roomy k (h.roomy k none fun _ => keeps) new

/-- R142, R149: an entry that finds room is the last of its unit's queue, and counted. -/
theorem enqueue_becomes {s t : State} {ctx list u : Nat} {e : Entry} (live : (s.ctx ctx).isSome = true)
    (queued : enqueue s ctx list u e = some t) : ∃ y : WLUnit, y = { unitAt s ctx list u with queued := y.queued } ∧
      queuedEntries y = queuedEntries (unitAt s ctx list u) ++ [e] ∧ UnitBecomes ctx list u s t { y with pushes := y.pushes + 1 } := by
  obtain ⟨y, placed, rfl⟩ := placed_of_enqueue queued
  refine ⟨y, place_frame placed, queuedEntries_place placed, rfl, rfl, ctx_modList_isSome .., fun k => ?_, fun v none new => ?_⟩
  · rw [unitAt, getList_modList live]
    exact unit_modUnit (getList s ctx list) u k fun _ => { y with pushes := y.pushes + 1 }
  · refine noneWaits_modList none ((congrArg Roomy (unit_modUnit (getList s ctx list) u v fun _ => { y with pushes := y.pushes + 1 })).mpr ?_)
    split
    · next at' => exact new at'
    · exact noneWaits_roomy none ctx list

end Sys2Proof.Machine
end

section
/-!
SUPPORT. Events of the worklist units: summaries (R144), steals (R145), urgent pushes (R136), filled cells (R131) and waves (R149 to R151).
-/

namespace Sys2Proof.Machine

open Sys2Proof Sys2Proof.Laws

/-! ## Summaries (R144) -/

theorem summaryDue_iff (last : Option (Option Nat × Nat)) (x : Option Nat × Nat) : summaryDue last x = true ↔ due last x := by
  cases last with
  | none => simp [summaryDue, due, Option.isSome_iff_ne_none]
  | some y => simp [summaryDue, due]

/-- R136: a unit knows the floor that it learned last. -/
theorem sfind_lower (x : WLUnit) (source : Nat) (floor : Option Nat) : sfind (x.lower source floor).lowered source = floor := by
  cases floor with
  | none => simp [WLUnit.lower, sfind_sdel]
  | some f => simp [WLUnit.lower]

theorem exec_summary {s : State} {ctx list a b : Nat} (state : (getList s ctx list).state = 1) (apart : a ≠ b)
    (hasA : (sfind (getList s ctx list).units a).isSome = true) (hasB : (sfind (getList s ctx list).units b).isSome = true)
    (nearA : localUnit s a = true) (nearB : localUnit s b = true) : exec (.worklistOccupancySummary ctx list a b) s =
      let l := getList s ctx list
      if !summaryDue (sfind (l.unit b).seen a) (l.summary (l.unit a)) && sfind (l.unit b).lowered a = l.asks a then .next s
      else .next (learn s ctx list a b (l.summary (l.unit a)) (l.asks a)) := by
  refine (show exec (.worklistOccupancySummary ctx list a b) s = execWorklistOccupancySummary ctx list a b s from rfl).trans ?_
  simp [execWorklistOccupancySummary, state, apart, hasA, hasB, nearA, nearB]

/-- R136, R144, R145. -/
theorem summaryArrives : Claim.SummaryArrives := by
  intro s ctx list a b l state apart hasA hasB nearA nearB
  have run := exec_summary state apart hasA hasB nearA nearB
  have live := live_of_open state
  refine ⟨fun early asked => ?_, fun news => ?_⟩
  · rw [← summaryDue_iff] at early
    rw [run]
    exact if_pos (by simpa using ⟨by simpa using early, asked⟩)
  · rw [← summaryDue_iff] at news
    have learnt := unitBecomes_modUnit (list := list) (u := b)
      (f := fun u => ({ u with seen := sins u.seen a (l.summary (l.unit a)), asked := [] }).lower a (l.asks a)) live
    refine ⟨_, run.trans (if_neg (by simpa [or_iff_not_imp_left, l] using news)), rfl, rfl, ?_, fun k => learnt.other⟩
    exact ⟨_, learnt.same, sfind_lower _ a _⟩

/-! ## Steals (R145) -/

/-- R145: no unit asks itself. -/
theorem nextVictim_ne {x : WLUnit} {thief v : Nat} (next : nextVictim x thief = some v) : v ≠ thief := by
  have kept : ∀ m : Option (Nat × Nat), (∀ y ∈ m, y.2 ≠ thief) → ∀ z ∈ x.seen.foldl (fun (m : Option (Nat × Nat)) x' =>
      match x'.2.1 with
      | none => m
      | some b =>
        if x'.1 = thief || x.asked.contains x'.1 then m
        else match m with
          | none => some (b, x'.1)
          | some y => if b < y.1 then some (b, x'.1) else m) m, z.2 ≠ thief := fun m hm =>
    List.foldlRecOn (motive := fun m : Option (Nat × Nat) => ∀ y ∈ m, y.2 ≠ thief) _ _ hm fun m ih y _ => by
      grind
  obtain ⟨z, found, rfl⟩ := Option.map_eq_some_iff.mp next
  exact kept none nofun z found

/-- R133, R145: an entry has moved from a victim to a thief, which is then `x`. -/
def entryMoved (s : State) (ctx list a v : Nat) (q : QueuedEntry) (x : WLUnit) : State :=
  modList s ctx list fun l => (l.modUnit a fun _ => x).modUnit v fun v => { v with queued := v.queued.erase q }

/-- R142, R145: the thief may ask every unit again, and the victim, which was as in `s`, refills. -/
def stealEnded (s s1 : State) (ctx list a v : Nat) : State :=
  modList s1 ctx list fun l => (l.modUnit a fun u => { u with asked := [] }).modUnit v fun x =>
    l.refill ((getList s ctx list).unit v) x (othersAt s1 l v)

section

variable {s : State} {ctx list a v : Nat} (state : (getList s ctx list).state = 1) (nearA : localUnit s a = true) (nearV : localUnit s v = true)
  (sleeps : ((getList s ctx list).unit a).sleeping ≠ []) (empty : (getList s ctx list).canTake ((getList s ctx list).unit a) = false)
  (next : nextVictim ((getList s ctx list).unit a) a = some v) (idle : ((getList s ctx list).unit a).stealing = none)
  (arrived : ((getList s ctx list).unit a).arriving = [])
include state nearA nearV sleeps empty next idle arrived

/-- R145: a victim that hands over nothing. -/
theorem exec_steal_none (nothing : stealFrom (getList s ctx list) ((getList s ctx list).unit v) = []) :
    exec (.worklistStealRequest ctx list a v) s =
      .next (modList s ctx list fun l => l.modUnit a fun u => { u with asked := v :: u.asked }) := by
  refine (show exec (.worklistStealRequest ctx list a v) s = execWorklistStealRequest ctx list a v s from rfl).trans ?_
  simp [execWorklistStealRequest, state, nearA, nearV, sleeps, empty, next, idle, arrived, nothing]

/-- R145: a victim that hands over one entry, for which the thief has room. -/
theorem exec_steal_one {q : QueuedEntry} {x : WLUnit} (one : stealFrom (getList s ctx list) ((getList s ctx list).unit v) = [q])
    (placed : (getList s ctx list).place ((getList s ctx list).unit a) (othersAt s (getList s ctx list) a) { q with spilled := false } = some x) :
    exec (.worklistStealRequest ctx list a v) s = .next (retryAll (stealEnded s (entryMoved s ctx list a v q x) ctx list a v) v) := by
  refine (show exec (.worklistStealRequest ctx list a v) s = execWorklistStealRequest ctx list a v s from rfl).trans ?_
  simp [execWorklistStealRequest, state, nearA, nearV, sleeps, empty, next, idle, arrived, one, moveEntry, placed, stealEnded, entryMoved]

end

/-- A change of two units changes no other. -/
theorem unitAt_modUnits {s : State} {ctx : Nat} (live : (s.ctx ctx).isSome = true) (list a v k : Nat) (f : Worklist → WLUnit → WLUnit)
    (g : Worklist → WLUnit → WLUnit) :
    unitAt (modList s ctx list fun l => (l.modUnit a (f l)).modUnit v (g l)) ctx list k =
      if k = v then g (getList s ctx list) (if v = a then f (getList s ctx list) (unitAt s ctx list a) else unitAt s ctx list v)
      else if k = a then f (getList s ctx list) (unitAt s ctx list a) else unitAt s ctx list k := by
  rw [unitAt, getList_modList live, unit_modUnit, unit_modUnit, unit_modUnit]
  rfl

section

variable {s : State} {ctx list a v : Nat} {q : QueuedEntry} {x : WLUnit} (live : (s.ctx ctx).isSome = true) (apart : v ≠ a)
include live apart

theorem unitAt_entryMoved (k : Nat) : unitAt (entryMoved s ctx list a v q x) ctx list k =
    if k = v then { unitAt s ctx list v with queued := (unitAt s ctx list v).queued.erase q } else if k = a then x else unitAt s ctx list k := by
  rw [entryMoved, unitAt_modUnits live, if_neg apart]

omit live in
theorem unitAt_stealEnded {s1 : State} (live1 : (s1.ctx ctx).isSome = true) (k : Nat) : unitAt (stealEnded s s1 ctx list a v) ctx list k =
    if k = v then (getList s1 ctx list).refill (unitAt s ctx list v) (unitAt s1 ctx list v) (othersAt s1 (getList s1 ctx list) v)
    else if k = a then { unitAt s1 ctx list a with asked := [] } else unitAt s1 ctx list k := by
  rw [stealEnded, unitAt_modUnits live1, if_neg apart]
  rfl

omit live in
theorem noneWaits_entryMoved (none : noneWaits s v) : noneWaits (entryMoved s ctx list a v q x) v :=
  noneWaits_modList none (by
    rw [unit_modUnit_same, unit_modUnit_other _ _ apart]
    exact noneWaits_roomy none ctx list)

omit live in
theorem noneWaits_stealEnded {s1 : State} (none : noneWaits s1 v) : noneWaits (stealEnded s s1 ctx list a v) v :=
  noneWaits_modList none (by
    rw [unit_modUnit_same, unit_modUnit_other _ _ apart]
    exact (requeued_refill ..).roomy (noneWaits_roomy none ctx list))

end

/-- R145. -/
theorem stealAnswered : Claim.StealAnswered := by
  intro s ctx list a v l state nearA nearV sleeps empty next idle arrived
  have live := live_of_open state
  have apart := nextVictim_ne next
  refine ⟨fun nothing => ?_, fun q one none room => ?_⟩
  · have asks := unitBecomes_modUnit (list := list) (u := a) (f := fun u => { u with asked := v :: u.asked }) live
    exact ⟨_, exec_steal_none state nearA nearV sleeps empty next idle arrived nothing, rfl, rfl, asks.same, fun k => asks.other⟩
  · obtain ⟨x, placed⟩ := Option.isSome_iff_exists.mp room
    have run := exec_steal_one state nearA nearV sleeps empty next idle arrived one placed
    rw [retryAll_roomy (noneWaits_stealEnded apart (noneWaits_entryMoved apart none))] at run
    have live1 : ((entryMoved s ctx list a v q x).ctx ctx).isSome = true := (ctx_modList_isSome ..).trans live
    have ended := unitAt_stealEnded (s := s) (list := list) apart live1
    have moved := unitAt_entryMoved (list := list) (q := q) (x := x) live apart
    refine ⟨_, run, rfl, rfl, ?_, ?_, ?_, fun k notA notV => ?_⟩
    · rw [ended, if_neg apart.symm, if_pos rfl, moved, if_neg apart.symm, if_pos rfl]
      exact (queuedEntries_place placed : queuedEntries x = _)
    · rw [ended, if_neg apart.symm, if_pos rfl]
    · rw [ended, if_pos rfl]
      refine (requeued_refill ..).2.trans ?_
      rw [moved, if_pos rfl]
      rfl
    · rw [ended, if_neg notV, if_neg notA, moved, if_neg notV, if_neg notA]

/-! ## Urgent pushes (R136) -/

theorem foldl_idle {α β : Type} {f : α → β → α} {a : α} {l : List β} (idle : ∀ x ∈ l, f a x = a) : l.foldl f a = a :=
  List.foldlRecOn (motive := (· = a)) _ _ rfl fun _ same x hx => same ▸ idle x hx

/-- R136: the pushes that wait at a unit once another unit has acknowledged one of them. -/
def WLUnit.withAck (x : WLUnit) (u : Nat) (w : WaitingPush) : WLUnit :=
  { x with waiting := x.waiting.map fun y => if y = w then { y with acked := u :: y.acked } else y }

/-- R136: unit `u` has acknowledged the urgent push `w` of unit `v`, and knows its floor. -/
def Worklist.acknowledged (l : Worklist) (u v : Nat) (w : WaitingPush) : Worklist :=
  (l.modUnit u fun x => x.lower v (some (l.bucket w.entry))).modUnit v (·.withAck u w)

theorem asking_withAck {x : WLUnit} {w : WaitingPush} (u : Nat) (asks : x.asking = some w) :
    (x.withAck u w).asking = some { w with acked := u :: w.acked } := by
  have same : (fun y : WaitingPush => decide (y.why = 1)) ∘ (fun y => if y = w then { y with acked := u :: y.acked } else y) =
      fun y => decide (y.why = 1) := by
    funext y
    by_cases hy : y = w <;> simp [hy]
  have found : x.waiting.find? (fun y => decide (y.why = 1)) = some w := asks
  simp only [WLUnit.asking, WLUnit.withAck, List.find?_map, same, found, Option.map_some, if_true]

theorem unit_acknowledged (l : Worklist) {u v : Nat} (w : WaitingPush) (apart : u ≠ v) (k : Nat) : (l.acknowledged u v w).unit k =
    if k = v then (l.unit v).withAck u w else if k = u then (l.unit u).lower v (some (l.bucket w.entry)) else l.unit k := by
  rw [Worklist.acknowledged, unit_modUnit, unit_modUnit, unit_modUnit, if_neg apart.symm]

theorem mem_skeys_acknowledged (l : Worklist) (u v k : Nat) (w : WaitingPush) :
    k ∈ skeys (l.acknowledged u v w).units ↔ k = v ∨ k = u ∨ k ∈ skeys l.units := by
  rw [Worklist.acknowledged, mem_skeys_modUnit, mem_skeys_modUnit]

/-- R136: whether a push is urgent rests on what its unit knows, and on there being another unit. -/
theorem urgent_of {l l' : Worklist} {v b : Nat} (urgent : l.urgent v b = true) (other : ∃ k ∈ skeys l'.units, k ≠ v)
    (known : l'.known (l'.unit v) = l.known (l.unit v)) : l'.urgent v b = true := by
  obtain ⟨k, hk, apart⟩ := other
  obtain ⟨y, hy, rfl⟩ := List.mem_map.mp hk
  have others : (l'.units.any (·.1 ≠ v)) = true := List.any_eq_true.mpr ⟨y, hy, by simpa using apart⟩
  simp only [Worklist.urgent, Bool.and_eq_true] at urgent ⊢
  exact ⟨others, by rw [known]; exact urgent.2⟩

/-- R136: an acknowledgement leaves the push as urgent as it was. -/
theorem urgent_acknowledged {l : Worklist} {u v b : Nat} {w : WaitingPush} (apart : u ≠ v) (urgent : l.urgent v b = true) :
    (l.acknowledged u v w).urgent v b = true := by
  refine urgent_of urgent ⟨u, (mem_skeys_acknowledged ..).mpr (.inr (.inl rfl)), apart⟩ ?_
  rw [unit_acknowledged l w apart, if_pos rfl]
  rfl

/-- R136: an urgent push waits while a unit has not acknowledged it. -/
theorem settleUrgent_waits {s : State} {ctx list v : Nat} {w : WaitingPush} (asks : ((getList s ctx list).unit v).asking = some w)
    (urgent : (getList s ctx list).urgent v ((getList s ctx list).bucket w.entry) = true)
    (left : ∃ k ∈ skeys (getList s ctx list).units, w.acked.contains k = false) (n : Nat) : settleUrgent s ctx list v n = s := by
  cases n with
  | zero => rfl
  | succ n =>
    have waits : ((getList s ctx list).units.all fun ku => w.acked.contains ku.1) = false := by
      obtain ⟨k, hk, new⟩ := left
      obtain ⟨y, hy, rfl⟩ := List.mem_map.mp hk
      exact List.all_eq_false.mpr ⟨y, hy, by simpa using new⟩
    simp only [settleUrgent, asks, urgent, waits, Bool.not_false, Bool.and_self, if_true]

theorem acknowledge_none {s : State} {ctx list k : Nat} (u : Nat) (quiet : ((getList s ctx list).unit k).asking = none) :
    acknowledge s ctx list k u = s := by
  simp only [acknowledge, quiet]

theorem acknowledge_again {s : State} {ctx list v u : Nat} {w : WaitingPush} (asks : ((getList s ctx list).unit v).asking = some w)
    (old : w.acked.contains u = true) : acknowledge s ctx list v u = s := by
  simp only [acknowledge, asks, old, Bool.true_or, if_true]

/-- R136: an acknowledgement of a push for which other units are left. -/
theorem acknowledge_new {s : State} {ctx list u v : Nat} {w : WaitingPush} (live : (s.ctx ctx).isSome = true) (apart : u ≠ v)
    (asks : ((getList s ctx list).unit v).asking = some w) (new : w.acked.contains u = false) (has : u ∈ skeys (getList s ctx list).units)
    (urgent : (getList s ctx list).urgent v ((getList s ctx list).bucket w.entry) = true)
    (left : ∃ k ∈ skeys (getList s ctx list).units, k ≠ u ∧ w.acked.contains k = false) :
    acknowledge s ctx list v u = modList s ctx list fun l => l.acknowledged u v w := by
  have listed : ((getList s ctx list).units.any (·.1 = u)) = true := by
    obtain ⟨y, hy, rfl⟩ := List.mem_map.mp has
    exact List.any_eq_true.mpr ⟨y, hy, by simp⟩
  have after := getList_modList live list fun l => l.acknowledged u v w
  simp only [acknowledge, asks, new, listed, Bool.not_true, Bool.or_self, Bool.false_eq_true, if_false]
  refine settleUrgent_waits (s := modList s ctx list fun l => l.acknowledged u v w) (w := { w with acked := u :: w.acked }) ?_ ?_ ?_ _
  · rw [after, unit_acknowledged _ w apart, if_pos rfl]
    exact asking_withAck u asks
  · rw [after]
    exact urgent_acknowledged apart urgent
  · obtain ⟨k, hk, other, notYet⟩ := left
    rw [after]
    exact ⟨k, (mem_skeys_acknowledged ..).mpr (.inr (.inr hk)), by simpa [other] using notYet⟩

theorem untaken (x : WLUnit) (taken : x.taken = []) (p : Nat × Nat × List (Nat × Nat) → Bool) : { x with taken := x.taken.filter p } = x := by
  cases x
  cases taken
  rfl

/-- Every unit of a worklist is as it was, and so is all that the host's side of the machine does not hold. -/
structure SameUnits (ctx list : Nat) (s t : State) : Prop where
  mem : t.mem = s.mem
  exe : t.exe = s.exe
  node : nodeNo t = nodeNo s
  live : (t.ctx ctx).isSome = (s.ctx ctx).isSome
  bucket (e : Entry) : (getList t ctx list).bucket e = (getList s ctx list).bucket e
  unit (k : Nat) : (getList t ctx list).unit k = (getList s ctx list).unit k
  keys {k : Nat} : k ∈ skeys (getList s ctx list).units → k ∈ skeys (getList t ctx list).units

theorem sameUnits_modUnit {s : State} {ctx list u : Nat} {f : WLUnit → WLUnit} (live : (s.ctx ctx).isSome = true)
    (same : f ((getList s ctx list).unit u) = (getList s ctx list).unit u) :
    SameUnits ctx list s (modList s ctx list fun l => l.modUnit u f) where
  mem := rfl
  exe := rfl
  node := rfl
  live := ctx_modList_isSome ..
  bucket e := by rw [getList_modList live]; rfl
  unit k := by
    rw [getList_modList live, unit_modUnit]
    split
    · next at' => rw [at', same]
    · rfl
  keys hk := by
    rw [getList_modList live, mem_skeys_modUnit]
    exact .inr hk

theorem SameUnits.known {ctx list : Nat} {s t : State} (same : SameUnits ctx list s t) (x : WLUnit) :
    (getList t ctx list).known x = (getList s ctx list).known x := by
  have lowest : (getList t ctx list).lowestOwned x = (getList s ctx list).lowestOwned x := by
    simp only [Worklist.lowestOwned, same.bucket]
  simp only [Worklist.known, lowest]

/-- R138: a unit that took no steal reply tells nobody. -/
theorem confirmTaken_none {s : State} {ctx list u : Nat} (live : (s.ctx ctx).isSome = true)
    (taken : ((getList s ctx list).unit u).taken = []) : SameUnits ctx list s (confirmTaken s ctx list u) := by
  have told : ∃ p, confirmTaken s ctx list u =
      modList s ctx list fun l => l.modUnit u fun x => { x with taken := x.taken.filter p } := by
    simp only [confirmTaken, taken, List.filter_nil, List.foldl_nil]
    exact ⟨_, rfl⟩
  obtain ⟨p, told⟩ := told
  rw [told]
  exact sameUnits_modUnit live (untaken _ taken p)

/-- A run in which one element has an effect, once. -/
theorem foldl_once {α β : Type} {f : α → β → α} {a b : α} {v : β} {l : List β} (has : v ∈ l) (before : ∀ x ∈ l, x ≠ v → f a x = a)
    (now : f a v = b) (after : ∀ x ∈ l, f b x = b) : l.foldl f a = b := by
  induction l with
  | nil => cases has
  | cons x l ih =>
    have rest : ∀ y ∈ l, f b y = b := fun y hy => after y (List.mem_cons_of_mem _ hy)
    rw [List.foldl_cons]
    by_cases hx : x = v
    · rw [hx, now, foldl_idle rest]
    · rw [before x (List.mem_cons_self ..) hx]
      exact ih ((List.mem_cons.mp has).resolve_left (Ne.symm hx)) (fun y hy => before y (List.mem_cons_of_mem _ hy)) rest

section

variable {s : State} {ctx list u v : Nat} {w : WaitingPush} (live : (s.ctx ctx).isSome = true) (nearU : localUnit s u = true)
  (nearV : localUnit s v = true) (apart : u ≠ v) (hasU : u ∈ skeys (getList s ctx list).units) (hasV : v ∈ skeys (getList s ctx list).units)
  (taken : ((getList s ctx list).unit u).taken = []) (asks : ((getList s ctx list).unit v).asking = some w) (new : w.acked.contains u = false)
  (quiet : ∀ k ∈ skeys (getList s ctx list).units, k ≠ v → ((getList s ctx list).unit k).asking = none)
  (urgent : (getList s ctx list).urgent v ((getList s ctx list).bucket w.entry) = true)
  (left : ∃ k ∈ skeys (getList s ctx list).units, k ≠ u ∧ w.acked.contains k = false)

include live apart asks new hasU urgent left in
/-- R136: so it does in any state with the same units. -/
theorem acknowledge_same {t : State} (same : SameUnits ctx list s t) :
    acknowledge t ctx list v u = modList t ctx list fun l => l.acknowledged u v w := by
  obtain ⟨k, hk, other, notYet⟩ := left
  refine acknowledge_new (same.live.trans live) apart (by rw [same.unit]; exact asks) new (same.keys hasU) ?_ ⟨k, same.keys hk, other, notYet⟩
  rw [same.bucket]
  exact urgent_of urgent ⟨u, same.keys hasU, apart⟩ (by rw [same.known, same.unit])

include live apart asks quiet in
/-- R136: once it has acknowledged the push, the unit has nothing to acknowledge. -/
theorem acknowledge_idle {t : State} (same : SameUnits ctx list s t) {k : Nat} (hk : k ∈ skeys (getList s ctx list).units) (other : k ≠ u) :
    acknowledge (modList t ctx list fun l => l.acknowledged u v w) ctx list k u = modList t ctx list fun l => l.acknowledged u v w := by
  have after := getList_modList (same.live.trans live) list fun l => l.acknowledged u v w
  by_cases its : k = v
  · refine acknowledge_again (w := { w with acked := u :: w.acked }) ?_ (by simp)
    rw [after, its, unit_acknowledged _ w apart, if_pos rfl, same.unit]
    exact asking_withAck u asks
  · refine acknowledge_none u ?_
    rw [after, unit_acknowledged _ w apart, if_neg its, if_neg other, same.unit]
    exact quiet k hk its

include live nearU nearV apart hasU hasV taken asks new quiet urgent left in
/-- R136: a unit acknowledges the push of the one other unit that asks. -/
theorem exec_floorAcknowledgement : exec (.floorAcknowledgement ctx list u) s =
    .next (modList (confirmTaken s ctx list u) ctx list fun l => l.acknowledged u v w) := by
  have same := confirmTaken_none live taken
  refine (show exec (.floorAcknowledgement ctx list u) s = execFloorAcknowledgement ctx list u s from rfl).trans ?_
  rw [execFloorAcknowledgement, nearU]
  refine congrArg Host.Outcome.next (foldl_once hasV (fun k hk other => ?_) ?_ fun k hk => ?_)
  · rw [acknowledge_none u (by rw [same.unit]; exact quiet k hk other), ite_self]
  · have near : localUnit (confirmTaken s ctx list u) v = true := by rw [localUnit, same.node]; exact nearV
    rw [near, if_neg (by simpa using apart.symm), acknowledge_same live apart hasU asks new urgent left same]
  · by_cases its : k = u
    · simp [its]
    · rw [acknowledge_idle live apart asks quiet same hk its, ite_self]

end

/-- R136. -/
theorem floorAcknowledged : Claim.FloorAcknowledged := by
  intro s ctx list u v w l nearU nearV apart hasU hasV taken asks new quiet urgent left
  have live : (s.ctx ctx).isSome = true := live_of_unit (u := v) fun empty => by
    rw [show l.unit v = {} from empty] at asks
    cases asks
  have same := confirmTaken_none live taken
  have run := exec_floorAcknowledgement live nearU nearV apart (mem_skeys_of_sfind hasU) (mem_skeys_of_sfind hasV) taken asks new quiet urgent left
  have after (k : Nat) := unit_acknowledged (getList (confirmTaken s ctx list u) ctx list) w apart k
  refine ⟨_, run, same.mem, same.exe, ?_, ?_, ?_⟩ <;> rw [unitAt, getList_modList (same.live.trans live), after]
  · rw [if_neg apart, if_pos rfl, sfind_lower, same.bucket]
  · rw [if_pos rfl, same.unit]
    exact asking_withAck u asks
  · rw [if_pos rfl, same.unit]
    rfl

/-! ## Filled cells (R131) -/

/-- R131: a unit of this package with one parked entry whose cell was filled, for which there is room. -/
theorem exec_futureFillWake {s s2 : State} {ctx list u : Nat} {e : ParkedEntry} (near : localUnit s u = true)
    (one : ((getList s ctx list).unit u).parked.filter (·.woken) = [e])
    (room : enqueue (modList s ctx list fun l => l.modUnit u fun x => { x with parked := x.parked.erase e }) ctx list u e.entry = some s2) :
    exec (.futureFillWake ctx list u) s =
      .next (retryAll (modList s2 ctx list fun l => l.modUnit u fun x => { x with pushes := x.pushes - 1 }) u) := by
  refine (show exec (.futureFillWake ctx list u) s = execFutureFillWake ctx list u s from rfl).trans ?_
  simp only [execFutureFillWake, near, one, Bool.not_true, Bool.false_eq_true, if_false, List.isEmpty_cons, List.foldl_cons, room, List.foldl_nil]

/-- R131. -/
theorem fillWakes : Claim.FillWakes := by
  intro s s2 ctx list u e l near one none room
  have live : (s.ctx ctx).isSome = true := live_of_unit (u := u) fun empty => by
    rw [show l.unit u = {} from empty] at one
    cases one
  have run := exec_futureFillWake near one room
  have roomy : Roomy (l.unit u) := noneWaits_roomy none ctx list
  have first := unitBecomes_modUnit (list := list) (u := u) (f := fun x => { x with parked := x.parked.erase e }) live
  obtain ⟨y, frame, entries, second⟩ := enqueue_becomes (first.live.trans live) room
  rw [first.same] at frame entries
  have third := unitBecomes_modUnit (list := list) (u := u) (f := fun x => { x with pushes := x.pushes - 1 })
    (second.live.trans (first.live.trans live))
  rw [second.same] at third
  have roomyY : Roomy y := by
    rw [frame]
    exact roomy
  have all := (first.trans second roomy).trans third roomyY
  rw [retryAll_roomy (all.roomy u none fun _ => roomyY)] at run
  refine ⟨_, run, all.mem, all.exe, ?_, ?_, ?_, fun k other => all.other other⟩
  · rw [all.same]
    exact congrArg WLUnit.parked frame
  · rw [all.same]
    exact entries
  · have counted : y.pushes = (l.unit u).pushes := (congrArg WLUnit.pushes frame).trans rfl
    rw [all.same, ← counted]
    exact BitVec.add_sub_cancel ..

/-! ## Waves (R149 to R151) -/

theorem skeys_smapAll {α : Type} (m : SMap α) (f : α → α) : skeys (smapAll m f) = skeys m := by
  simp [skeys, smapAll]

/-- R150: a worklist of this package alone tells no other. -/
theorem tellOthers_alone {s : State} {ctx list : Nat} (alone : otherNodes s (getList s ctx list) = []) (m : ListMessage) :
    tellOthers s ctx list m = s := by
  rw [tellOthers, alone]
  rfl

/-- R150: a wave with all sums at hand. -/
theorem exec_terminationWave {s : State} {ctx list : Nat} (state : (getList s ctx list).state = 1) (armed : (getList s ctx list).armed = true)
    (leads : (getList s ctx list).leader.any (localUnit s ·) = true) (alone : otherNodes s (getList s ctx list) = [])
    (noSums : (getList s ctx list).remoteSums = []) : exec (.terminationWave ctx list) s =
      let sums := localSums s (getList s ctx list)
      if (getList s ctx list).wave = some sums && sums.1 = sums.2 then
        .next (tellOthers (modList s ctx list (·.terminate)) ctx list .terminated)
      else .next (modList s ctx list fun l => { l with wave := some sums, waveAsked := [], remoteSums := [] }) := by
  refine (show exec (.terminationWave ctx list) s = execTerminationWave ctx list s from rfl).trans ?_
  simp only [execTerminationWave, state, armed, leads, alone, noSums, List.any_nil, List.foldl_nil, ne_eq, not_true, decide_false,
    Bool.not_true, Bool.or_self, Bool.false_eq_true, if_false]

/-- R149 to R151. -/
theorem waveEnds : Claim.WaveEnds := by
  intro s ctx list l sums state armed leads alone noSums
  have live := live_of_open state
  have run := exec_terminationWave state armed leads alone noSums
  by_cases ends : l.wave = some sums ∧ sums.1 = sums.2
  · have after := getList_modList live list (·.terminate)
    have still : otherNodes (modList s ctx list (·.terminate)) (getList (modList s ctx list (·.terminate)) ctx list) = [] := by
      rw [after, otherNodes, show skeys (getList s ctx list).terminate.units = skeys l.units from skeys_smapAll ..]
      exact alone
    rw [tellOthers_alone still] at run
    refine ⟨_, run.trans (if_pos (by simpa using ends)), rfl, rfl, after.trans (Eq.trans ?_ (if_pos ends).symm)⟩
    rw [show l.remoteSums = [] from noSums]
    rfl
  · refine ⟨_, run.trans (if_neg (by simpa using ends)), rfl, rfl, ?_⟩
    refine (getList_modList live ..).trans (Eq.trans ?_ (if_neg ends).symm)
    rw [show l.remoteSums = [] from noSums]

/-- Settles O39: each event is run by its rule on the one or two units that it changes, and no unit that waits for room tries again. -/
theorem worklistEvents : Obligations.WorklistEvents := ⟨summaryArrives, stealAnswered, floorAcknowledged, fillWakes, waveEnds⟩

end Sys2Proof.Machine
end

section
/-!
SUPPORT. A push of one thread outside a span, performed at the unit of its quadrant (R125, R129 to R131, R142, R148, R149, R285).
-/

namespace Sys2Proof.Machine

open Sys2Proof Sys2Proof.Laws

/-! ## Messages to other packages (R146, R148) -/

/-- What telling other packages keeps: memory, the groups and the contexts. -/
def Told (s t : State) : Prop := t.mem = s.mem ∧ t.exe.groups = s.exe.groups ∧ t.host.ctxs = s.host.ctxs

theorem Told.refl (s : State) : Told s s := ⟨rfl, rfl, rfl⟩

theorem Told.trans {s t u : State} (h : Told s t) (k : Told t u) : Told s u := ⟨k.1.trans h.1, k.2.1.trans h.2.1, k.2.2.trans h.2.2⟩

theorem told_foldl {β : Type} {f : State → β → State} (hf : ∀ s x, Told s (f s x)) (l : List β) (s : State) : Told s (l.foldl f s) :=
  List.foldlRecOn l f (motive := Told s) (.refl s) fun t ht x _ => ht.trans (hf t x)

theorem told_sendData (s : State) (c : Nat) (ws : List (Word × Bool)) : Told s (sendData s c ws) := ⟨rfl, rfl, rfl⟩

theorem told_sendPacket (s : State) (c : Nat) (p : Packet) : Told s (sendPacket s c p) := by
  unfold sendPacket flushChord
  dsimp only
  split
  · exact .refl s
  · exact Told.trans ⟨rfl, rfl, rfl⟩ (told_foldl (fun t ws => told_sendData t c ws) _ _)

theorem told_sendMessage (s : State) (node ctx : Nat) (m : Message) : Told s (sendMessage s node ctx m) := by
  unfold sendMessage postMessage
  dsimp only
  split
  · exact ⟨rfl, rfl, rfl⟩
  · exact Told.trans ⟨rfl, rfl, rfl⟩ (told_sendPacket ..)

theorem told_tellOthers (s : State) (ctx list : Nat) (m : ListMessage) : Told s (tellOthers s ctx list m) :=
  told_foldl (fun s _ => told_sendMessage s ..) _ s

theorem Told.getList {s t : State} (h : Told s t) (ctx list : Nat) : getList t ctx list = getList s ctx list := by
  simp only [Machine.getList, State.ctx, h.2.2]

theorem Told.group {s t : State} (h : Told s t) (k : Nat) : t.group k = s.group k := by
  simp only [State.group, h.2.1]

/-- R148: arming a worklist changes none of its units. -/
theorem arm_frame {s : State} {ctx : Nat} (live : (s.ctx ctx).isSome = true) (list : Nat) : (arm s ctx list).mem = s.mem ∧
    (∀ k, (arm s ctx list).group k = s.group k) ∧ (∀ k, unitAt (arm s ctx list) ctx list k = unitAt s ctx list k) ∧
    (getList (arm s ctx list) ctx list).age = (getList s ctx list).age := by
  unfold arm
  split
  · exact ⟨rfl, fun _ => rfl, fun _ => rfl, rfl⟩
  · have told := told_tellOthers (modList s ctx list fun l => { l with armed := true }) ctx list .armed
    refine ⟨told.1, fun k => told.group k, fun k => ?_, ?_⟩
    · rw [unitAt, told.getList, getList_modList live]
      rfl
    · rw [told.getList, getList_modList live]

/-! ## The word of a push -/

/-- R285: the form of a push. -/
def pushForm (h : Here) (unif range : Bool) (d : BitVec 7) (list : Nat) : WriteForm :=
  { unif := unif, data := some (rSrc unif d false 4), size := 16, kind := .push list
    shape := fun ws => if range then [ws.getD 0 0, (ws.getD 1 0 &&& 0x0FFFFFFF#32) ||| 0x10000000#32, ws.getD 2 0, ws.getD 3 0] else ws
    pre := fun s => resetWatchdog s h.g.id }

/-- R57, R285: the effect of a push of one thread outside a span. -/
def pushEffect (s : State) (h : Here) (unif range : Bool) (d : BitVec 7) (list t0 : Nat) (ws : List Word) : Eff :=
  { kind := .push list, t := t0, gid := h.g.id, ctx := h.w.ctx, part := (s.ctx h.w.ctx).elim 0 (·.part), core := h.w.coreNo
    ags := execAgents h unif t0, pc := h.p.pc, scratch := false, va := 0, pa := 0, chord := none, size := 16
    data := (pushForm h unif range d list).shape ws, apoi := none, dpoi := none, gpoi := none
    origin := 0, inst := h.g.retired, owners := 0, level := 0 }

/-- R136, R285: the push as its unit takes it. -/
def pushOf (s : State) (h : Here) (range : Bool) (t0 : Nat) (ws : List Word) : WaitingPush :=
  { gid := h.g.id, t := t0, inst := h.g.retired, entry := pushedEntry range ws, why := 0, acked := [], page := 0, cell := 0
    priv := privileged s h.w }

theorem rangeControl_eq (x : Word) : (x &&& 0x0FFFFFFF#32) ||| 0x10000000#32 = (1#4 : BitVec 4) ++ x.extractLsb' 0 28 := by
  have low : ∀ i, i < 32 → (0x0FFFFFFF#32).getLsbD i = decide (i < 28) := by decide
  have kind : ∀ i, i < 32 → (0x10000000#32).getLsbD i = (decide (28 ≤ i) && (1#4).getLsbD (i - 28)) := by decide
  apply BitVec.eq_of_getLsbD_eq
  intro i hi
  rw [BitVec.getLsbD_or, BitVec.getLsbD_and, low i hi, kind i hi, BitVec.getLsbD_append]
  by_cases small : i < 28
  · have : ¬ 28 ≤ i := by omega
    simp [small, this]
  · have : 28 ≤ i := by omega
    simp [small, this]

/-- R12, R55: outside a span no executing thread of a word has its span open. -/
theorem closed_owners {h : Here} (closed : closedSpan h) {t : Nat} (active : t ∈ enabledThreads h.p) : (1#128 <<< t) &&& h.g.span.opened = 0 := by
  obtain ⟨small, bit⟩ := mem_threadsOf.mp (List.mem_filter.mp active).1
  apply BitVec.eq_of_getLsbD_eq
  intro i hi
  have none := congrArg (·.getLsbD i) closed
  rw [BitVec.getLsbD_and, getLsbD_oneAt _ _ hi, show BitVec.getLsbD (0 : Mask) i = false from BitVec.getLsbD_zero]
  by_cases its : i = t
  · subst its
    simpa [bit] using none
  · simp [its]

/-- R66: a write-type word whose one effect is no effect of an open span, in the state that the word has made. -/
theorem writeOp_after {i : Instr} {s s1 : State} {h : Here} {f : WriteForm} {e : Eff}
    (checked : operandCheck h (f.addr.toList ++ f.data.toList) none true = none)
    (ready : writeReady h f = true) (unseen : writeHit s h f = none) (made : effectsOf f s h = ([e], s1)) (outside : e.owners = 0)
    (clean : e.fate = .clean) : writeOp i s h f true = .next (retire (submit [e] (holdEffs s1 h.g.id []) e) h) := by
  simp only [writeOp, checked, ready, Bool.not_true, Bool.false_eq_true, if_false, unseen, issueEffects, made]
  simp [outside, watchRetired, watchStop, performAll_clean clean]

/-- R58: holding nothing changes nothing, once the group is listed where its changes go. -/
theorem holdEffs_resetWatchdog {s : State} {gid : Nat} {g : Group} (hg : s.group gid = some g) :
    holdEffs (resetWatchdog s gid) gid [] = resetWatchdog s gid := by
  have first : resetWatchdog s gid = s.withGroups (sins s.exe.groups gid { g with wdog := 0 }) := modGroup_of_group _ _ _ _ hg
  have found : (resetWatchdog s gid).group gid = some { g with wdog := 0 } := by rw [resetWatchdog, group_modGroup_same, hg]; rfl
  refine (modGroup_of_group _ _ _ _ found).trans ?_
  rw [first]
  simp only [State.withGroups, sins_sins]
  rfl

section

variable {s : State} {h : Here} {unif range : Bool} {d : BitVec 7} {list t0 : Nat} {ws : List Word} (hh : s.here = some h)
  (closed : closedSpan h) (one : execThreads unif h.g h.p = [(t0, none)]) (guard : guardFull h.g h.p = true)
  (checked : operandCheck h [rSrc unif d false 4] none true = none) (read : readSrc h.g h.p (rSrc unif d false 4) t0 = .words ws)

include closed one read in
theorem effectsOf_push : effectsOf (pushForm h unif range d list) s h =
    ([pushEffect s h unif range d list t0 ws], resetWatchdog s h.g.id) := by
  have drafted : draft h (pushForm h unif range d list) (resetWatchdog s h.g.id) (t0, none) = ({
      t := t0, guard := none, va := 0, addr := .loc 0, data := (pushForm h unif range d list).shape ws, dpoi := none, conv := none },
      resetWatchdog s h.g.id) := by
    simp only [draft, pushForm, rawData_words read]
  have ths : execThreads (pushForm h unif range d list).unif h.g h.p = [(t0, none)] := one
  have outside : (pushForm h unif range d list).threads h t0 &&& h.g.span.opened = 0 := by
    cases unif with
    | true => exact uniform_owners closed
    | false => exact closed_owners closed ((vecThreads_fst h.g h.p).subset (List.mem_map_of_mem (one ▸ List.mem_cons_self ..)))
  have pre : (pushForm h unif range d list).pre s = resetWatchdog s h.g.id := rfl
  simp only [effectsOf, pre, ths, List.foldl_cons, List.foldl_nil, drafted, List.nil_append,
    List.flatMap_cons, List.flatMap_nil, newRecords, List.map_cons, List.map_nil]
  refine congrArg (fun e => ([e], resetWatchdog s h.g.id)) ?_
  simp only [effectOf, pushEffect, outside]
  rfl

end

end Sys2Proof.Machine
end

section
/-!
THEOREM. What a push of one thread does at the unit of its quadrant (R125, R129, R131, R142, R149, R151, R285).
-/

namespace Sys2Proof.Machine

open Sys2Proof Sys2Proof.Laws

section

variable {i : Instr} {s : State} {h : Here} {unif range : Bool} {d : BitVec 7} {w : BitVec 4} {t0 : Nat} {ws : List Word}
  (hh : s.here = some h) (table : pushTable i = some (unif, d, w, range))
  (closed : closedSpan h) (one : execThreads unif h.g h.p = [(t0, none)]) (guard : guardFull h.g h.p = true)
  (checked : operandCheck h [rSrc unif d false 4] none true = none) (read : readSrc h.g h.p (rSrc unif d false 4) t0 = .words ws)
  (free : pushesWaiting s h.w h.g.id [t0] none = false) (turn : inTurn s h t0 (.push w.toNat) 16)

include table in
theorem exec_eq_push : exec i s = push i unif range d w s := by
  unfold pushTable at table
  split at table <;> cases table <;> rfl

/-- R285: the entry that the four data words of a push make. -/
theorem entry_shaped (h : Here) (unif range : Bool) (d : BitVec 7) (list : Nat) (ws : List Word) :
    let data := (pushForm h unif range d list).shape ws
    (⟨data.getD 0 0, data.getD 1 0, data.getD 2 0, data.getD 3 0⟩ : Entry) = pushedEntry range ws := by
  cases range with
  | false => rfl
  | true =>
    simp only [pushForm, pushedEntry, if_true, ← rangeControl_eq]
    rfl

include hh in
theorem group_resetWatchdog : (resetWatchdog s h.g.id).group h.g.id = some { h.g with wdog := 0 } := by
  obtain ⟨-, hg, -⟩ := here_eq s h hh
  rw [resetWatchdog, group_modGroup_same, hg]
  rfl

include hh turn in
/-- R285: a push whose turn it is goes to the unit of its quadrant. -/
theorem submit_push : submit [pushEffect s h unif range d w.toNat t0 ws] (resetWatchdog s h.g.id) (pushEffect s h unif range d w.toNat t0 ws) =
    pushEntry (resetWatchdog s h.g.id) h.w.ctx w.toNat (unitOf s h.w.quad) (pushOf s h range t0 ws) := by
  obtain ⟨-, -, hw, -⟩ := here_eq s h hh
  have next : (pushEffect s h unif range d w.toNat t0 ws).blocked (resetWatchdog s h.g.id) (resetWatchdog s h.g.id).exe.nextId = false :=
    turn { pushEffect s h unif range d w.toNat t0 ws with ags := execAgents h true t0 } rfl rfl rfl rfl rfl rfl rfl
  have unplaced : (pushEffect s h unif range d w.toNat t0 ws).flat = false := rfl
  have wg : ((resetWatchdog s h.g.id).group h.g.id).bind (fun g => (resetWatchdog s h.g.id).wg g.wg) = some h.w := by
    rw [group_resetWatchdog hh]
    exact hw
  have performed : performLocal (resetWatchdog s h.g.id) (pushEffect s h unif range d w.toNat t0 ws) =
      pushEntry (resetWatchdog s h.g.id) h.w.ctx w.toNat (unitOf s h.w.quad) (pushOf s h range t0 ws) := by
    unfold performLocal
    simp only [pushEffect, wg, entry_shaped]
    rfl
  have near : (pushEffect s h unif range d w.toNat t0 ws).chord = none := rfl
  simp only [submit, near, next, unplaced, Bool.false_eq_true, if_false, Bool.not_false, if_true, performed]

/-- R456: an instruction with no address hits no watchpoint. -/
theorem watchHit_nil (s : State) (tag : Nat) (write : Bool) (size : Nat) : watchHit s tag write size [] = none := by
  have unmarked : maskOf (fun _ => false) = 0 := by decide
  simp [watchHit, unmarked]

include hh table closed one guard checked read free turn in
/-- R285: a push of one thread outside a span, whose turn it is, is performed at the unit of its quadrant, and retires. -/
theorem exec_push : exec i s =
    .next (retire (pushEntry (resetWatchdog s h.g.id) h.w.ctx w.toNat (unitOf s h.w.quad) (pushOf s h range t0 ws)) h) := by
  have form : writeOp i s h (pushForm h unif range d w.toNat) true =
      .next (retire (submit [pushEffect s h unif range d w.toNat t0 ws] (holdEffs (resetWatchdog s h.g.id) h.g.id [])
        (pushEffect s h unif range d w.toNat t0 ws)) h) := by
    refine writeOp_after checked ?_ ?_ (effectsOf_push closed one read) rfl rfl
    · simp [writeReady, guard, pushForm, one, srcReady_of_words read]
    · exact watchHit_nil s h.w.ctx true 16
  obtain ⟨-, hg, -⟩ := here_eq s h hh
  rw [exec_eq_push table, push, issuing_eq s h _ hh, one, List.map_cons, List.map_nil, free]
  simp only [Bool.false_eq_true, if_false]
  rw [holdEffs_resetWatchdog hg, submit_push hh turn] at form
  exact form

include hh in
/-- A word whose changes before it retires are to worklists alone, and to the watchdog counter. -/
theorem pushed_of_retire {v : State} (mem : v.mem = s.mem) (group : v.group h.g.id = some { h.g with wdog := 0 })
    (he : exec i s = .next (retire v h)) : Pushed i s h (retire v h) := by
  obtain ⟨-, -, -, -, hp⟩ := here_eq s h hh
  exact ⟨he, mem, _, group_retire group, wentOn_goneOn hp rfl rfl _, rfl⟩

end

/-! ## At the unit -/

section

variable {s : State} {ctx list u : Nat} {p : WaitingPush} {e : Entry} (entry : p.entry = e)

include entry

/-- R125, R129: a push to a worklist that takes none, or of a malformed entry, is rejected. -/
theorem pushEntry_rejected (bad : (getList s ctx list).state ≠ 1 ∨ entryMalformed e = true) :
    ∃ late, pushEntry s ctx list u p = rejectPush s ctx list u late := by
  subst entry
  by_cases shut : (getList s ctx list).state ≠ 1
  · exact ⟨_, if_pos shut⟩
  · have malformed := bad.resolve_left shut
    exact ⟨false, by simp only [pushEntry, shut, malformed, if_false, if_true]⟩

/-- R136: a push that is not urgent is performed. -/
theorem pushEntry_accepted (opened : (getList s ctx list).state = 1) (formed : entryMalformed e = false)
    (calm : (getList s ctx list).urgent u ((getList s ctx list).bucket e) = false ∨ (entryKind e = 1 ∧ e.hi ≤ e.lo)) :
    pushEntry s ctx list u p = acceptPush s ctx list u p := by
  subst entry
  have prompt : ((getList s ctx list).urgent u ((getList s ctx list).bucket p.entry) &&
      !(decide (entryKind p.entry = 1) && decide (p.entry.hi ≤ p.entry.lo))) = false := by
    obtain calm | ⟨kind, empty⟩ := calm
    · simp [calm]
    · simp [kind, empty]
  simp only [pushEntry, opened, formed, prompt, ne_eq, not_true_eq_false, Bool.false_eq_true, if_false]

/-- R149: an empty range is counted, and no more. -/
theorem acceptPush_empty (opened : (getList s ctx list).state = 1) (kind : entryKind e = 1) (empty : e.hi ≤ e.lo) :
    acceptPush s ctx list u p =
      arm (modList s ctx list fun l => l.modUnit u fun x => { x with pushes := x.pushes + 1, dones := x.dones + 1 }) ctx list := by
  simp [acceptPush, entry, opened, kind, empty, countWork]

/-- R142: an entry that is no future fill is queued where there is room. -/
theorem acceptPush_queued (opened : (getList s ctx list).state = 1)
    (kind : entryKind e = 0 ∨ (entryKind e = 1 ∧ e.lo < e.hi)) {t : State}
    (queued : enqueue s ctx list u e = some t) : acceptPush s ctx list u p = arm t ctx list := by
  have full : ¬ (entryKind e = 1 ∧ e.hi ≤ e.lo) := by
    rintro ⟨range, empty⟩
    obtain none | ⟨-, some⟩ := kind
    · simp [none] at range
    · exact absurd some (by simpa using empty)
  have plain : entryKind e ≠ 2 := by
    obtain kind | ⟨kind, -⟩ := kind <;> simp [kind]
  simp [acceptPush, entry, opened, full, plain, queued]

/-- R131: a future-fill entry of an empty cell is parked where the share has room. -/
theorem acceptPush_parked (opened : (getList s ctx list).state = 1) (kind : entryKind e = 2) {pa : Nat} {poa : Bool}
    (cell : checkFlat s ctx none p.priv { future := true } (entryPayload e) = (.loc pa poa, s)) (empty : fullBit s.mem pa = false)
    {t : State} (parked : parkEntry s ctx list u e pa = some t) : acceptPush s ctx list u p = arm t ctx list := by
  simp [acceptPush, entry, opened, kind, cell, empty, parked]

end

/-! ## The obligation's first half -/

section

variable {i : Instr} {s : State} {h : Here} {list : Nat} {f : Worklist → Worklist} (hh : s.here = some h)
  (live : (s.ctx h.w.ctx).isSome = true)

include hh live in
/-- A push that changes its worklist and no more. -/
theorem pushed_modList (he : exec i s = .next (retire (modList (resetWatchdog s h.g.id) h.w.ctx list f) h)) :
    ∃ t, Pushed i s h t ∧ getList t h.w.ctx list = f (getList s h.w.ctx list) :=
  ⟨_, pushed_of_retire (v := modList (resetWatchdog s h.g.id) h.w.ctx list f) hh rfl (group_resetWatchdog hh) he,
    getList_modList (s := resetWatchdog s h.g.id) live list f⟩

include hh live in
/-- R148: a push that changes its worklist and arms it. -/
theorem pushed_armed (he : exec i s = .next (retire (arm (modList (resetWatchdog s h.g.id) h.w.ctx list f) h.w.ctx list) h)) :
    ∃ t, Pushed i s h t ∧ (∀ k, (getList t h.w.ctx list).unit k = (f (getList s h.w.ctx list)).unit k) ∧
      (getList t h.w.ctx list).age = (f (getList s h.w.ctx list)).age := by
  have changed : getList (modList (resetWatchdog s h.g.id) h.w.ctx list f) h.w.ctx list = f (getList s h.w.ctx list) :=
    getList_modList (s := resetWatchdog s h.g.id) live list f
  have live' : ((modList (resetWatchdog s h.g.id) h.w.ctx list f).ctx h.w.ctx).isSome = true := by
    rw [ctx_modList_isSome]
    exact live
  obtain ⟨mem, groups, units, age⟩ := arm_frame live' list
  refine ⟨_, pushed_of_retire hh mem ((groups _).trans (group_resetWatchdog hh)) he, fun k => ?_, ?_⟩
  · exact (units k).trans (congrArg (·.unit k) changed)
  · exact age.trans (congrArg (·.age) changed)

end

theorem worklistPushes : Claim.WorklistPushes := by
  intro i s h unif range d w t0 ws e l u x after hh table closed one guard checked read free turn live
  have he := exec_push hh table closed one guard checked read free turn
  have entry : (pushOf s h range t0 ws).entry = e := rfl
  refine ⟨fun bad => ?_, fun opened formed kind empty => ?_, fun opened formed kind calm y placed => ?_,
    fun opened formed kind calm pa poa cell empty room => ?_⟩
  · obtain ⟨late, rejected⟩ := pushEntry_rejected (s := resetWatchdog s h.g.id) (u := u) entry bad
    rw [rejected] at he
    obtain ⟨t, pushed, becomes⟩ := pushed_modList hh live he
    have unit : after t = _ := (congrArg (·.unit u) becomes).trans (unit_modUnit_same l u _)
    refine ⟨t, pushed, ?_, ?_⟩ <;> rw [unit]
  · have performed := (pushEntry_accepted (s := resetWatchdog s h.g.id) (u := u) entry opened formed
      (.inr ⟨kind, empty⟩)).trans (acceptPush_empty (s := resetWatchdog s h.g.id) (u := u) entry opened kind empty)
    rw [performed] at he
    obtain ⟨t, pushed, becomes, -⟩ := pushed_armed hh live he
    have unit : after t = _ := (becomes u).trans (unit_modUnit_same l u _)
    refine ⟨t, pushed, ?_, ?_, ?_⟩ <;> rw [unit]
  · have queued : enqueue (resetWatchdog s h.g.id) h.w.ctx w.toNat u e = _ := enqueue_placed (s := resetWatchdog s h.g.id) placed
    have performed := (pushEntry_accepted (s := resetWatchdog s h.g.id) (u := u) entry opened formed
      (.inl calm)).trans (acceptPush_queued (s := resetWatchdog s h.g.id) (u := u) entry opened kind queued)
    rw [performed] at he
    obtain ⟨t, pushed, becomes, age⟩ := pushed_armed hh live he
    have unit : after t = _ := (becomes u).trans (unit_modUnit_same l u fun _ => { y with pushes := y.pushes + 1 })
    refine ⟨t, pushed, ?_, ?_, age⟩ <;> rw [unit]
  · have parked : parkEntry (resetWatchdog s h.g.id) h.w.ctx w.toNat u e pa = _ := if_neg (Nat.not_le.mpr room)
    have performed := (pushEntry_accepted (s := resetWatchdog s h.g.id) (u := u) entry opened formed
      (.inl calm)).trans (acceptPush_parked (s := resetWatchdog s h.g.id) (u := u) entry opened kind cell empty parked)
    rw [performed] at he
    obtain ⟨t, pushed, becomes, -⟩ := pushed_armed hh live he
    have unit : after t = _ := (becomes u).trans (unit_modUnit_same l u _)
    refine ⟨t, pushed, ?_, ?_, ?_⟩ <;> rw [unit]

end Sys2Proof.Machine
end

section
/-!
SUPPORT. Pops that a word sends to their unit, the registers that they leave empty, and tasks that threads finish (R139, R147, R160,
R286, R287).
-/

namespace Sys2Proof.Machine

open Sys2Proof Sys2Proof.Laws

/-! ## Registers that are marked empty (R160) -/

/-- R160: a group with one destination marked empty. -/
def emptyDest (g : Group) (d : Dest) : Group :=
  match d.file with
  | 0 => vSet g d.reg d.t { val := 0, full := false }
  | 1 => sSet g d.reg { val := 0, full := false }
  | _ => pSet g d.reg d.t { full := false }

/-- R160: a group with destinations marked empty. -/
def emptyDests (g : Group) (ds : List Dest) : Group := ds.foldl emptyDest g

theorem markEmpty_eq (s : State) (gid : Nat) (ds : List Dest) : markEmpty s gid ds = s.modGroup gid (emptyDests · ds) := rfl

theorem emptyDest_empties (g : Group) (d : Dest) (small : d.t < 128) :
    (d.file = 0 → (vGet (emptyDest g d) d.reg d.t).full = false) ∧
      (d.file = 2 → d.reg ≠ 0 → (pGet (emptyDest g d) d.reg d.t).full = false) := by
  refine ⟨fun file => ?_, fun file named => ?_⟩
  · simp [emptyDest, file, vGet_vSet _ _ _ _ _ _ small small]
  · simp [emptyDest, file, pGet_pSet _ _ _ _ _ _ small small, named]

/-- A register that is empty stays so. -/
theorem emptyDest_keeps (g : Group) (d : Dest) (small : d.t < 128) (n : Nat) {t : Nat} (ht : t < 128) :
    ((vGet g n t).full = false → (vGet (emptyDest g d) n t).full = false) ∧
      ((pGet g n t).full = false → (pGet (emptyDest g d) n t).full = false) := by
  unfold emptyDest
  split
  · refine ⟨fun empty => ?_, id⟩
    rw [vGet_vSet _ _ _ _ _ _ small ht]
    split
    · rfl
    · exact empty
  · exact ⟨id, id⟩
  · refine ⟨fun empty => ?_, fun empty => ?_⟩
    · rw [vGet_congr (show (pSet g d.reg d.t _).v = g.v by unfold pSet; split <;> rfl)]
      exact empty
    · rw [pGet_pSet _ _ _ _ _ _ small ht]
      split
      · rfl
      · exact empty

theorem emptyDests_keeps {ds : List Dest} (small : ∀ d ∈ ds, d.t < 128) (g : Group) (n : Nat) {t : Nat} (ht : t < 128) :
    ((vGet g n t).full = false → (vGet (emptyDests g ds) n t).full = false) ∧
      ((pGet g n t).full = false → (pGet (emptyDests g ds) n t).full = false) :=
  List.foldlRecOn ds emptyDest (motive := fun g' => ((vGet g n t).full = false → (vGet g' n t).full = false) ∧
    ((pGet g n t).full = false → (pGet g' n t).full = false)) ⟨id, id⟩ fun g' kept d hd => by
      obtain ⟨v, p⟩ := emptyDest_keeps g' d (small d hd) n ht
      exact ⟨v ∘ kept.1, p ∘ kept.2⟩

/-- R160: every destination is empty. -/
theorem emptyDests_empties {ds : List Dest} (small : ∀ d ∈ ds, d.t < 128) (g : Group) {d : Dest} (hd : d ∈ ds) :
    (d.file = 0 → (vGet (emptyDests g ds) d.reg d.t).full = false) ∧
      (d.file = 2 → d.reg ≠ 0 → (pGet (emptyDests g ds) d.reg d.t).full = false) := by
  obtain ⟨before, after, rfl⟩ := List.append_of_mem hd
  obtain ⟨v, p⟩ := emptyDests_keeps (fun x hx => small x (by simp [hx])) (emptyDest (emptyDests g before) d) d.reg (small d hd) (ds := after)
  obtain ⟨v', p'⟩ := emptyDest_empties (emptyDests g before) d (small d hd)
  rw [emptyDests, List.foldl_append]
  exact ⟨v ∘ v', fun file named => p (p' file named)⟩

/-- Of a group only v-registers and predicates differ. -/
def OnlyVector (g g' : Group) : Prop := g' = { g with v := g'.v, p := g'.p }

/-- Destinations in v-registers and predicates leave the rest of a group. -/
theorem emptyDests_frame {ds : List Dest} (vector : ∀ d ∈ ds, d.file ≠ 1) (g : Group) : OnlyVector g (emptyDests g ds) :=
  List.foldlRecOn ds emptyDest (motive := OnlyVector g) rfl fun g' same d hd => by
    unfold OnlyVector at same
    unfold emptyDest
    split
    · rw [same]
      rfl
    · next scalar => exact absurd scalar (vector d hd)
    · rw [same]
      unfold pSet
      split <;> rfl

/-! ## Results in flight -/

/-- R160: a result of each of some threads is in flight, under a number that was given out. -/
structure Issued (h : Here) (dests : Nat → List Dest) (what : Nat → Delivery) (s t : State) (ts : List Nat) : Prop where
  mem : t.mem = s.mem
  group : t.group h.g.id = some (emptyDests h.g (ts.flatMap dests))
  flight : ∀ x ∈ ts, ∃ n p, n < t.exe.nextId ∧
    sfind t.exe.pendings n = some p ∧ p.gid = h.g.id ∧ p.t = x ∧ p.pc = h.p.pc ∧ p.what = what x

section

variable {h : Here} {dests : Nat → List Dest} {what : Nat → Delivery} {s t : State} {ts : List Nat}

theorem Issued.none (own : s.group h.g.id = some h.g) : Issued h dests what s s [] := ⟨rfl, own, nofun⟩

/-- One more thread's result is in flight, and its destinations are empty. -/
theorem Issued.add (issued : Issued h dests what s t ts) (x : Nat) :
    Issued h dests what s (addPending (markEmpty t h.g.id (dests x)) h.g.id x h.p.pc (what x)) (ts ++ [x]) where
  mem := issued.mem
  group := by
    show (markEmpty t h.g.id (dests x)).group h.g.id = _
    rw [markEmpty_eq, group_modGroup_same, issued.group]
    simp [emptyDests, List.foldl_append]
  flight y hy := by
    show ∃ n p, n < t.exe.nextId + 1 ∧ sfind (sins t.exe.pendings t.exe.nextId _) n = some p ∧ _
    obtain old | new := List.mem_append.mp hy
    · obtain ⟨n, p, lt, found, same⟩ := issued.flight y old
      exact ⟨n, p, by omega, by rw [sfind_sins_other _ _ _ _ (by omega)]; exact found, same⟩
    · obtain rfl := List.mem_singleton.mp new
      exact ⟨t.exe.nextId, _, by omega, sfind_sins_same .., rfl, rfl, rfl, rfl⟩

theorem Issued.modList (issued : Issued h dests what s t ts) (ctx list : Nat) (f : Worklist → Worklist) :
    Issued h dests what s (modList t ctx list f) ts := ⟨issued.mem, issued.group, issued.flight⟩

end

/-! ## Pops (R286) -/

/-- R286: the destinations of the pop of a thread. -/
def popDests (h : Here) (dst pdst : Dst) (t : Nat) : List Dest := destsOf h.g h.p dst t ++ [⟨2, pdst.reg, t⟩]

/-- R286: a pop that waits at its unit. -/
def popSent (h : Here) (list : Nat) (dst pdst : Dst) (t : Nat) : Delivery := .pop list (destsOf h.g h.p dst t) ⟨2, pdst.reg, t⟩

/-- R286: the answer to a pop of a worklist that is not open. -/
def popRefused (h : Here) (dst pdst : Dst) (t : Nat) : Delivery :=
  .ready (popRegs (destsOf h.g h.p dst t) ⟨2, pdst.reg, t⟩ ([0, 0, 0, 0], false))

/-- R459: four zeros and false pass through the log as they are while record mode is off. -/
theorem logPop_none {s : State} {tag : Nat} (unlogged : logging s tag = false) (g : Group) (t order : Nat) (count : Word) :
    logPop s g tag t order count (popWords none) = some (([0, 0, 0, 0], false), s) := by
  simp only [logPop, show List.range 4 = [0, 1, 2, 3] from rfl, List.foldl_cons, List.foldl_nil, Option.bind_some,
    receive_unlogged unlogged, Option.map_some]
  simp [popWords, bitW]

theorem finishTask_none {g : Group} {list t : Nat} (free : sfind g.held (taskKey list t) = none) (s : State) (w : WG) :
    finishTask s g w list t = s := by
  simp only [finishTask, free]

section

variable {h : Here} {list x : Nat} {dst pdst : Dst} {t : State} (free : sfind h.g.held (taskKey list x) = none)
include free

theorem issuePop_refused (shut : (getList t h.w.ctx list).state ≠ 1) (unlogged : logging t h.w.ctx = false) :
    issuePop h list dst pdst (some t) x =
      some (addPending (markEmpty t h.g.id (popDests h dst pdst x)) h.g.id x h.p.pc (popRefused h dst pdst x)) := by
  have shut' : (getList (markEmpty t h.g.id (popDests h dst pdst x)) h.w.ctx list).state ≠ 1 := shut
  have unlogged' : logging (markEmpty t h.g.id (popDests h dst pdst x)) h.w.ctx = false := unlogged
  simp only [issuePop, Option.bind_some, finishTask_none free]
  exact (if_pos shut').trans (congrArg (Option.map _) (logPop_none unlogged' ..))

theorem issuePop_sent (opened : (getList t h.w.ctx list).state = 1) : issuePop h list dst pdst (some t) x =
    some (modList (addPending (markEmpty t h.g.id (popDests h dst pdst x)) h.g.id x h.p.pc (popSent h list dst pdst x)) h.w.ctx list fun l =>
      l.modUnit (unitOf t h.w.quad) fun u => { u with sleeping := u.sleeping ++ [t.exe.nextId] }) := by
  have opened' : (getList (markEmpty t h.g.id (popDests h dst pdst x)) h.w.ctx list).state = 1 := opened
  simp only [issuePop, Option.bind_some, finishTask_none free]
  exact if_neg (not_not_intro opened')

end

section

variable {s : State} {h : Here} {list : Nat} {dst pdst : Dst} {ts : List Nat} (own : s.group h.g.id = some h.g)
  (free : ∀ x ∈ ts, sfind h.g.held (taskKey list x) = none)
include own free

/-- R139, R286: pops of a worklist that is not open are answered at once. -/
theorem pops_refused (shut : (getList s h.w.ctx list).state ≠ 1) (unlogged : logging s h.w.ctx = false) :
    ∃ t, ts.foldl (issuePop h list dst pdst) (some s) = some t ∧ Issued h (popDests h dst pdst) (popRefused h dst pdst) s t ts ∧
      t.host = s.host := by
  induction ts using List.reverseRecOn with
  | nil => exact ⟨s, rfl, .none own, rfl⟩
  | append_singleton ts x ih =>
    obtain ⟨t, issue, issued, host⟩ := ih fun y hy => free y (by simp [hy])
    have shut' : (getList t h.w.ctx list).state ≠ 1 := by
      rw [getList, State.ctx, host]
      exact shut
    have unlogged' : logging t h.w.ctx = false := by
      rw [logging, State.ctx, host]
      exact unlogged
    rw [List.foldl_append, issue]
    exact ⟨_, issuePop_refused (free x (by simp)) shut' unlogged', issued.add x, host⟩

/-- R139, R286: pops of an open worklist go to the unit of the quadrant. -/
theorem pops_sent (live : (s.ctx h.w.ctx).isSome = true) (opened : (getList s h.w.ctx list).state = 1) :
    ∃ t, ts.foldl (issuePop h list dst pdst) (some s) = some t ∧ Issued h (popDests h dst pdst) (popSent h list dst pdst) s t ts ∧
      (t.ctx h.w.ctx).isSome = true ∧ (getList t h.w.ctx list).state = 1 ∧ (∀ q, unitOf t q = unitOf s q) ∧
      (unitAt t h.w.ctx list (unitOf s h.w.quad)).sleeping.length =
        (unitAt s h.w.ctx list (unitOf s h.w.quad)).sleeping.length + ts.length := by
  induction ts using List.reverseRecOn with
  | nil => exact ⟨s, rfl, .none own, live, opened, fun _ => rfl, rfl⟩
  | append_singleton ts x ih =>
    obtain ⟨t, issue, issued, live', opened', units, asleep⟩ := ih fun y hy => free y (by simp [hy])
    rw [List.foldl_append, issue]
    have changed := getList_modList (s := addPending (markEmpty t h.g.id (popDests h dst pdst x)) h.g.id x h.p.pc (popSent h list dst pdst x))
      live' list fun l => l.modUnit (unitOf t h.w.quad) fun u => { u with sleeping := u.sleeping ++ [t.exe.nextId] }
    refine ⟨_, issuePop_sent (free x (by simp)) opened', (issued.add x).modList .., ?_, ?_, units, ?_⟩
    · rw [ctx_modList_isSome]
      exact live'
    · rw [changed]
      exact opened'
    · rw [unitAt, changed, units, unit_modUnit_same]
      simp only [List.length_append, List.length_singleton]
      rw [← Nat.add_assoc, ← asleep]
      rfl

end

/-! ## Tasks (R147, R149) -/

/-- R147: some threads have finished their tasks of a worklist; no other task of their group is new. -/
structure Finished (h : Here) (list : Nat) (s t : State) (ts : List Nat) (held : SMap Nat) : Prop where
  mem : t.mem = s.mem
  group : t.group h.g.id = some { h.g with held := held }
  done : ∀ x ∈ ts, sfind held (taskKey list x) = none
  rest : ∀ k, sfind h.g.held k = none → sfind held k = none

theorem finishTask_held {g : Group} {list t cfg : Nat} (task : sfind g.held (taskKey list t) = some cfg) (s : State) (w : WG) :
    finishTask s g w list t =
      if cfg = (getList s w.ctx list).config && (getList s w.ctx list).state ≠ 0 then
        countWork (s.modGroup g.id fun g => { g with held := sdel g.held (taskKey list t) }) w.ctx list (unitOf s w.quad) 0 1
      else s.modGroup g.id fun g => { g with held := sdel g.held (taskKey list t) } := by
  simp only [finishTask, task]
  rfl

/-- R147: a thread that finishes its task holds none. -/
theorem Finished.add {h : Here} {list : Nat} {s t : State} {ts : List Nat} {held : SMap Nat} (finished : Finished h list s t ts held)
    (x : Nat) : ∃ held', Finished h list s (finishTask t h.g h.w list x) (ts ++ [x]) held' := by
  cases task : sfind h.g.held (taskKey list x) with
  | none =>
    rw [finishTask_none task]
    refine ⟨held, finished.mem, finished.group, fun y hy => ?_, finished.rest⟩
    obtain old | new := List.mem_append.mp hy
    · exact finished.done y old
    · rw [List.mem_singleton.mp new]
      exact finished.rest _ task
  | some cfg =>
    have kept : ∀ k, sfind held k = none → sfind (sdel held (taskKey list x)) k = none := by
      intro k none
      rw [sfind_sdel, none, ite_self]
    have group : (t.modGroup h.g.id fun g => { g with held := sdel g.held (taskKey list x) }).group h.g.id =
        some { h.g with held := sdel held (taskKey list x) } := by
      rw [group_modGroup_same, finished.group]
      rfl
    refine ⟨sdel held (taskKey list x), ?_, ?_, fun y hy => ?_, fun k none => kept k (finished.rest k none)⟩
    · rw [finishTask_held task]
      split <;> exact finished.mem
    · rw [finishTask_held task]
      split <;> exact group
    · obtain old | new := List.mem_append.mp hy
      · exact kept _ (finished.done y old)
      · rw [List.mem_singleton.mp new, sfind_sdel, if_pos rfl]

theorem finished_foldl {h : Here} {s : State} (own : s.group h.g.id = some h.g) (list : Nat) (ts : List Nat) :
    ∃ held, Finished h list s (ts.foldl (fun s t => finishTask s h.g h.w list t) s) ts held := by
  induction ts using List.reverseRecOn with
  | nil => exact ⟨h.g.held, rfl, own, nofun, fun _ none => none⟩
  | append_singleton ts x ih =>
    obtain ⟨held, finished⟩ := ih
    rw [List.foldl_append]
    exact finished.add x

end Sys2Proof.Machine
end

section
/-!
THEOREM. WLPOP, WLDONE and WLSTAT (R139, R147, R152, R286, R287).
-/

namespace Sys2Proof.Machine

open Sys2Proof Sys2Proof.Laws

/-- Executions with no poisoned guard are all of the executions. -/
theorem clean_threads {ths : List (Nat × Option Token)} (clean : ∀ t ∈ ths, t.2 = none) : ths.filter (·.2.isNone) = ths :=
  List.filter_eq_self.mpr fun t ht => by simp [clean t ht]

section

variable {s : State} {h : Here} {w : BitVec 4} (hh : s.here = some h) (closed : closedSpan h)
include hh closed

/-- R286: a WLPOP whose threads' pops have been issued retires. -/
theorem exec_wlpop {d : BitVec 7} {p : BitVec 3} {t : State} (checked : operandCheck h [] (some ⟨.v, d.toNat, 4⟩) true = none)
    (ready : operandsReady h (vecThreads h.g h.p) [] (some ⟨.v, d.toNat, 4⟩) = true)
    (full : ∀ t ∈ vecThreads h.g h.p, dstFull h.g h.p ⟨.p, p.toNat, 1⟩ t.1 = true) (clean : ∀ t ∈ vecThreads h.g h.p, t.2 = none)
    (free : pushesWaiting s h.w h.g.id ((vecThreads h.g h.p).map (·.1)) (some w.toNat) = false)
    (issue : ((vecThreads h.g h.p).map (·.1)).foldl (issuePop h w.toNat ⟨.v, d.toNat, 4⟩ ⟨.p, p.toNat, 1⟩) (some s) = some t) :
    exec (.wlpop d p w) s =
      .next (resetWatchdog (retire (writeAll (writeAll t h ⟨.v, d.toNat, 4⟩ []) h ⟨.p, p.toNat, 1⟩ []) h) h.g.id) := by
  have none : (vecThreads h.g h.p).filterMap (fun t => t.2.map fun k => (t.1, ThreadOut.tok k)) = [] :=
    List.filterMap_eq_nil_iff.mpr fun t ht => by simp [clean t ht]
  have full' : ((vecThreads h.g h.p).all fun t => dstFull h.g h.p ⟨.p, p.toNat, 1⟩ t.1) = true := List.all_eq_true.mpr full
  show execWlpop d p w s = _
  rw [execWlpop, issuing_eq s h _ hh]
  simp only [checked, ready, full', free, withCommit_closed closed, clean_threads clean, issue, none, Bool.not_true, Bool.or_false,
    Bool.false_eq_true, if_false]

/-- R287: a WLDONE retires once its threads have finished their tasks. -/
theorem exec_wldone (guard : guardFull h.g h.p = true) (clean : ∀ t ∈ vecThreads h.g h.p, t.2 = none)
    (free : pushesWaiting s h.w h.g.id ((vecThreads h.g h.p).map (·.1)) (some w.toNat) = false) :
    exec (.wldone w) s = .next (resetWatchdog (retire
      (((vecThreads h.g h.p).map (·.1)).foldl (fun s t => finishTask s h.g h.w w.toNat t) s) h) h.g.id) := by
  have none : (vecThreads h.g h.p).filterMap (·.2) = [] := List.filterMap_eq_nil_iff.mpr clean
  show execWldone w s = _
  rw [execWldone, issuing_eq s h _ hh]
  simp only [guard, free, withCommit_closed closed, clean_threads clean, none, dropped_nil, Bool.not_true, Bool.or_false,
    Bool.false_eq_true, if_false]

end

/-- R36: the group of a word that retires and resets the watchdog counter. -/
theorem group_retire_reset {s : State} {h : Here} {g : Group} (own : s.group h.g.id = some g) :
    (resetWatchdog (retire s h) h.g.id).group h.g.id = some { g.goneOn h.pid (nextPc h.p.pc) with wdog := 0 } := by
  rw [resetWatchdog, group_modGroup_same, group_retire own]
  rfl

theorem wentOn_reset {h : Here} (listed : sfind h.g.paths h.pid = some h.p) {g : Group} (paths : g.paths = h.g.paths)
    (retired : g.retired = h.g.retired) (pc : DWord) : WentOn h { g.goneOn h.pid pc with wdog := 0 } pc :=
  wentOn_goneOn listed paths retired pc

section

variable {h : Here} {d : BitVec 7} {p : BitVec 3}

/-- R286: the destinations of a pop are the four v-registers and the predicate of its thread. -/
theorem mem_popDests {t : Nat} {x : Dest} : x ∈ popDests h ⟨.v, d.toNat, 4⟩ ⟨.p, p.toNat, 1⟩ t ↔
    (∃ j < 4, x = ⟨0, resolve h.g h.p d.toNat t + j, t⟩) ∨ x = ⟨2, p.toNat, t⟩ := by
  simp only [popDests, destsOf, List.mem_append, List.mem_map, List.mem_range, List.mem_singleton]
  refine or_congr (exists_congr fun j => and_congr_right fun _ => eq_comm) Iff.rfl

end

/-- R139, R286: the pops of the threads are in flight, and their destinations are empty. -/
theorem pop_leaves {s t : State} {h : Here} (hh : s.here = some h) {d : BitVec 7} {p : BitVec 3} {what : Nat → Delivery}
    (issued : Issued h (popDests h ⟨.v, d.toNat, 4⟩ ⟨.p, p.toNat, 1⟩) what s t ((vecThreads h.g h.p).map (·.1))) :
    let t' := resetWatchdog (retire (writeAll (writeAll t h ⟨.v, d.toNat, 4⟩ []) h ⟨.p, p.toNat, 1⟩ []) h) h.g.id
    ∃ g', t'.mem = s.mem ∧ t'.group h.g.id = some g' ∧ WentOn h g' (nextPc h.p.pc) ∧ OnlyWork h g' ∧
      (∀ x ∈ vecThreads h.g h.p, ∀ j, j < 4 → (vGet g' (resolve h.g h.p d.toNat x.1 + j) x.1).full = false) ∧
      (∀ x ∈ vecThreads h.g h.p, p ≠ 0 → (pGet g' p.toNat x.1).full = false) ∧
      ∀ x ∈ vecThreads h.g h.p, InFlight t' h x.1 (what x.1) := by
  intro t'
  obtain ⟨-, -, -, -, listed⟩ := here_eq s h hh
  let ds := ((vecThreads h.g h.p).map (·.1)).flatMap (popDests h ⟨.v, d.toNat, 4⟩ ⟨.p, p.toNat, 1⟩)
  have named {y : Dest} (hy : y ∈ ds) : ∃ x ∈ vecThreads h.g h.p, y ∈ popDests h ⟨.v, d.toNat, 4⟩ ⟨.p, p.toNat, 1⟩ x.1 := by
    obtain ⟨_, thread, hy⟩ := List.mem_flatMap.mp hy
    obtain ⟨x, hx, rfl⟩ := List.mem_map.mp thread
    exact ⟨x, hx, hy⟩
  have here {x : Nat × Option Token} (hx : x ∈ vecThreads h.g h.p) {y : Dest}
      (hy : y ∈ popDests h ⟨.v, d.toNat, 4⟩ ⟨.p, p.toNat, 1⟩ x.1) : y ∈ ds :=
    List.mem_flatMap.mpr ⟨_, List.mem_map_of_mem hx, hy⟩
  have small : ∀ y ∈ ds, y.t < 128 := by
    intro y hy
    obtain ⟨x, hx, hy⟩ := named hy
    obtain ⟨j, -, rfl⟩ | rfl := mem_popDests.mp hy <;> exact vecThreads_lt _ _ _ hx
  have vector : ∀ y ∈ ds, y.file ≠ 1 := by
    intro y hy
    obtain ⟨x, hx, hy⟩ := named hy
    obtain ⟨j, -, rfl⟩ | rfl := mem_popDests.mp hy <;> simp
  have frame := emptyDests_frame vector h.g
  have empty {y : Dest} (hy : y ∈ ds) := emptyDests_empties small h.g hy
  have group : t'.group h.g.id = some { (emptyDests h.g ds).goneOn h.pid (nextPc h.p.pc) with wdog := 0 } :=
    group_retire_reset (group_writeAll (group_writeAll issued.group ⟨.v, d.toNat, 4⟩ []) ⟨.p, p.toNat, 1⟩ [])
  generalize emptyDests h.g ds = e at frame empty group
  unfold OnlyVector at frame
  refine ⟨_, issued.mem, group, wentOn_reset listed (congrArg (·.paths) frame) (congrArg (·.retired) frame) _, ?_, fun x hx j hj => ?_,
    fun x hx named => ?_, fun x hx => ?_⟩
  · rw [frame]
    rfl
  · exact (empty (here hx (mem_popDests.mpr (.inl ⟨j, hj, rfl⟩)))).1 rfl
  · exact (empty (here hx (mem_popDests.mpr (.inr rfl)))).2 rfl fun zero => named (BitVec.eq_of_toNat_eq zero)
  · obtain ⟨n, q, -, flight⟩ := issued.flight x.1 (List.mem_map_of_mem hx)
    exact ⟨n, q, flight⟩

/-- R12: an s-register destination passes the checks of operands. -/
theorem operandCheck_rDst (h : Here) (d : BitVec 7) : operandCheck h [] (some (rDst true d)) true = none := by
  have named : renameOk h.g h.p .s d.toNat 1 = true := by
    unfold renameOk
    split <;> rfl
  simp [operandCheck, rDst, fileOf, inBudget, named]

theorem nextPc_ne (pc : DWord) : nextPc pc ≠ pc := by
  intro same
  have value := congrArg BitVec.toNat same
  simp only [nextPc, pcAdd, BitVec.toNat_setWidth, BitVec.toNat_add, show BitVec.toNat (4 : DWord) = 4 from rfl] at value
  omega

/-- R446: a path that went on no longer stands at its word. -/
theorem here_wentOn {s t : State} {h : Here} (hh : s.here = some h) (cur : t.ctl.cur = s.ctl.cur) {g : Group}
    (group : t.group h.g.id = some g) (went : WentOn h g (nextPc h.p.pc)) : t.here.any (·.p.pc = h.p.pc) = false := by
  cases found : t.here with
  | none => rfl
  | some h' =>
    obtain ⟨at', -⟩ := here_eq s h hh
    obtain ⟨now, own, -, -, listed⟩ := here_eq t h' found
    obtain ⟨same, path⟩ := Prod.mk.inj (Option.some.inj (now.symm.trans (cur.trans at')))
    rw [same, group] at own
    obtain ⟨-, at'', -⟩ := went
    rw [← Option.some.inj own, path, at''] at listed
    rw [Option.any_some, ← Option.some.inj listed]
    simpa using nextPc_ne h.p.pc

/-- R287: what WLDONE does. -/
theorem wldone_finishes {s : State} {h : Here} {w : BitVec 4} (hh : s.here = some h) (closed : closedSpan h)
    (live : (s.ctx h.w.ctx).isSome = true) (guard : guardFull h.g h.p = true) (clean : ∀ t ∈ vecThreads h.g h.p, t.2 = none)
    (free : pushesWaiting s h.w h.g.id ((vecThreads h.g h.p).map (·.1)) (some w.toNat) = false) :
    ∃ t g', exec (.wldone w) s = .next t ∧ t.mem = s.mem ∧ t.group h.g.id = some g' ∧ WentOn h g' (nextPc h.p.pc) ∧ OnlyWork h g' ∧
      (∀ x ∈ vecThreads h.g h.p, sfind g'.held (taskKey w.toNat x.1) = none) ∧ g'.v = h.g.v ∧ g'.p = h.g.p ∧
      (∀ t0, vecThreads h.g h.p = [(t0, none)] → sfind h.g.held (taskKey w.toNat t0) = some (getList s h.w.ctx w.toNat).config →
        (getList s h.w.ctx w.toNat).state ≠ 0 →
        (unitAt t h.w.ctx w.toNat (unitOf s h.w.quad)).dones = (unitAt s h.w.ctx w.toNat (unitOf s h.w.quad)).dones + 1) := by
  obtain ⟨-, own, -, -, listed⟩ := here_eq s h hh
  obtain ⟨held, finished⟩ := finished_foldl own w.toNat ((vecThreads h.g h.p).map (·.1))
  refine ⟨_, _, exec_wldone hh closed guard clean free, finished.mem, group_retire_reset finished.group, wentOn_reset listed rfl rfl _, rfl,
    fun x hx => finished.done x.1 (List.mem_map_of_mem hx), rfl, rfl, fun t0 one task counted => ?_⟩
  rw [one, List.map_cons, List.map_nil, List.foldl_cons, List.foldl_nil, finishTask_held task, if_pos (by simpa using counted)]
  exact congrArg (·.dones) (unitBecomes_modUnit (s := s.modGroup h.g.id fun g => { g with held := sdel g.held (taskKey w.toNat t0) })
    (list := w.toNat) (u := unitOf s h.w.quad)
    (f := fun x => { x with pushes := x.pushes + BitVec.ofNat 64 0, dones := x.dones + BitVec.ofNat 64 1 }) live).same

/-- R152: what WLSTAT does. -/
theorem wlstat_writes {s : State} {h : Here} {w : BitVec 4} {d : BitVec 7} {t0 : Nat} (hh : s.here = some h)
    (unlogged : logging s h.w.ctx = false) (one : uniThreads h.g h.p = [(t0, none)])
    (ready : operandsReady h [(t0, none)] [] (some (rDst true d)) = true) (running : s.ctl.stalled = false) :
    ∃ t g', Done (.wlstat d w) s h t g' ∧ OnlyRegisters { h.g with wdog := 0 } g' ∧ Wrote h g' (rDst true d) [t0] (fun _ =>
      .inr (.words [worklistStatus (getList s h.w.ctx w.toNat) (unitAt s h.w.ctx w.toNat (unitOf s h.w.quad))])) := by
  obtain ⟨-, own, -, -, listed⟩ := here_eq s h hh
  let status : Nat → Word := fun _ => worklistStatus (getList s h.w.ctx w.toNat) (unitAt s h.w.ctx w.toNat (unitOf s h.w.quad))
  have same := sameButRegs_writes h.p (rDst true d) (readOuts h true status) h.g
  have ths : execThreads true h.g h.p = [(t0, none)] := one
  have read : aluLogged (.wlstat d w) s h (readOp true d status) id =
      .next (retire (writeAll s h (rDst true d) (readOuts h true status)) h) := by
    rw [aluLogged_readOp s h true d status (operandCheck_rDst h d) (ths ▸ ready) _ id unlogged, id, ite_self]
  let t := retire (writeAll s h (rDst true d) (readOuts h true status)) h
  have went := wentOn_goneOn (pc := nextPc h.p.pc) listed (congrArg (·.paths) same) (congrArg (·.retired) same)
  have gone : t.here.any (·.p.pc = h.p.pc) = false := here_wentOn hh rfl (group_retire (group_writeAll own ..)) went
  have unstalled : t.ctl.stalled = false := running
  have done : exec (.wlstat d w) s = .next (resetWatchdog t h.g.id) := by
    refine (issuing_eq s h _ hh).trans ?_
    show (match aluLogged (.wlstat d w) s h (readOp true d status) id with
      | .next s' => Host.Outcome.next (if s'.ctl.stalled || s'.here.any fun x : Here => x.p.pc = h.p.pc then s' else resetWatchdog s' h.g.id)
      | r => r) = _
    rw [read]
    exact congrArg Host.Outcome.next (if_neg (by rw [unstalled, gone]; simp))
  refine ⟨_, _, ⟨done, fun _ => rfl, rfl, group_retire_reset (group_writeAll own ..), went⟩, ?_, ?_⟩
  · unfold OnlyRegisters
    rw [same]
    rfl
  · have wrote := wrote_readOuts (h := h) (unif := true) (d := d) (f := status) (res := fun _ => .inr (.words [status 0]))
    rw [ths] at wrote
    refine wrote ?_ ⟨rfl, rfl, rfl, rfl⟩
    intro x hx
    rw [List.mem_singleton.mp hx]
    rfl

theorem worklistTasks : Claim.WorklistTasks := by
  intro s h w l u hh closed live unlogged
  obtain ⟨-, own, -⟩ := here_eq s h hh
  refine ⟨fun d p checked ready threads free => ?_, fun guard clean free => wldone_finishes hh closed live guard clean free,
    fun d t0 one ready running => wlstat_writes hh unlogged one ready running⟩
  have full : ∀ t ∈ vecThreads h.g h.p, dstFull h.g h.p ⟨.p, p.toNat, 1⟩ t.1 = true := fun t ht => (threads t ht).2.1
  have clean : ∀ t ∈ vecThreads h.g h.p, t.2 = none := fun t ht => (threads t ht).1
  have idle : ∀ x ∈ (vecThreads h.g h.p).map (·.1), sfind h.g.held (taskKey w.toNat x) = none := by
    intro x hx
    obtain ⟨t, ht, rfl⟩ := List.mem_map.mp hx
    exact (threads t ht).2.2
  by_cases opened : l.state = 1
  · obtain ⟨t, issue, issued, -, -, -, asleep⟩ := pops_sent (dst := ⟨.v, d.toNat, 4⟩) (pdst := ⟨.p, p.toNat, 1⟩) own idle live opened
    obtain ⟨g', mem, group, went, work, v, pred, flight⟩ := pop_leaves hh issued
    rw [List.length_map] at asleep
    exact ⟨_, g', exec_wlpop hh closed checked ready full clean free issue, mem, group, went, work, v, pred,
      fun _ => ⟨flight, asleep⟩, fun shut => absurd opened shut⟩
  · obtain ⟨t, issue, issued, -⟩ := pops_refused (dst := ⟨.v, d.toNat, 4⟩) (pdst := ⟨.p, p.toNat, 1⟩) own idle opened unlogged
    obtain ⟨g', mem, group, went, work, v, pred, flight⟩ := pop_leaves hh issued
    exact ⟨_, g', exec_wlpop hh closed checked ready full clean free issue, mem, group, went, work, v, pred,
      fun opened' => absurd opened' opened, fun _ => flight⟩

/-- Settles O31: a push by what its unit does with its entry, pops and finished tasks thread by thread, and the status as a read. -/
theorem worklistPushesAndTasks : Obligations.WorklistPushesAndTasks := ⟨worklistPushes, worklistTasks⟩

end Sys2Proof.Machine
end

section
/-!
THEOREM. WLCFG (R126, R128, R255, R287): a descriptor that cannot be read, and a configuration that is taken by the units of one package.
-/

namespace Sys2Proof.Machine

open Sys2Proof Sys2Proof.Laws

/-! ## A configuration and its units (R126, R128) -/

/-- A unit with no entries: pops may sleep there, and pushes may have been rejected. -/
def Bare (x : WLUnit) : Prop := x = { sleeping := x.sleeping, rejected := x.rejected }

theorem Bare.roomy {x : WLUnit} (bare : Bare x) : Roomy x := by
  rw [bare]
  exact ⟨rfl, rfl⟩

theorem Bare.empty {x : WLUnit} (bare : Bare x) : x.queued = [] ∧ x.parked = [] := by
  rw [bare]
  exact ⟨rfl, rfl⟩

theorem bare_default : Bare {} := rfl

theorem sfind_smapAll {α : Type} (m : SMap α) (f : α → α) (k : Nat) : sfind (smapAll m f) k = (sfind m k).map f := by
  induction m with
  | nil => rfl
  | cons kx m ih =>
    simp only [smapAll, List.map_cons, sfind] at ih ⊢
    split
    · rfl
    · exact ih

/-- R125, R128: a disabled worklist has no entries. -/
theorem bare_disable (l : Worklist) (config k : Nat) : Bare ((l.disable config).unit k) := by
  rw [Worklist.unit, Worklist.disable, sget, sfind_smapAll]
  cases sfind l.units k <;> rfl

/-- R126: the units of a new configuration. -/
def freshUnits (l : Worklist) (us : List Nat) : SMap WLUnit := us.foldl (fun m u => sins m u { sleeping := (l.unit u).sleeping }) []

theorem bare_freshUnits (l : Worklist) (us : List Nat) (k : Nat) : Bare (sget {} (freshUnits l us) k) :=
  List.foldlRecOn (motive := fun m : SMap WLUnit => Bare (sget {} m k)) us _ bare_default fun m bare u _ => by
    rw [sget, sfind_sins]
    split
    · rfl
    · exact bare

theorem mem_skeys_freshUnits {l : Worklist} {us : List Nat} {k : Nat} (hk : k ∈ skeys (freshUnits l us)) : k ∈ us :=
  List.foldlRecOn (motive := fun m : SMap WLUnit => k ∈ skeys m → k ∈ us) us _ (fun none => absurd none List.not_mem_nil)
    (fun m sub u hu hk => by
      obtain rfl | old := (mem_skeys_sins ..).mp hk
      · exact hu
      · exact sub old) hk

/-- R126 to R128: a worklist that takes a configuration. -/
def reconfigured (s : State) (ctx config : Nat) (ws : List Word) (l : Worklist) : Worklist :=
  if !(ws.getD 0 0).getLsbD 31 then l.disable config
  else
    { state := 1, armed := (ws.getD 0 0).getLsbD 30, fabric := (ws.getD 0 0).getLsbD 29, shift := ((ws.getD 0 0).extractLsb' 21 5).toNat
      bound := ((ws.getD 0 0).extractLsb' 0 10).toNat, spbase := DWord.ofHalves (ws.getD 2 0) (ws.getD 3 0), spsize := (ws.getD 4 0).toNat
      config := config, confirm := l.confirm, early := l.early
      units := freshUnits l (domainUnits s ctx ((ws.getD 0 0).getLsbD 29)) }

theorem bare_reconfigured (s : State) (ctx config : Nat) (ws : List Word) (l : Worklist) (k : Nat) :
    Bare ((reconfigured s ctx config ws l).unit k) := by
  unfold reconfigured
  split
  · exact bare_disable ..
  · exact bare_freshUnits ..

/-- R126: the units of a worklist that takes a configuration are those that it had, or those of its domain. -/
theorem mem_skeys_reconfigured {s : State} {ctx config : Nat} {ws : List Word} {l : Worklist} {k : Nat}
    (hk : k ∈ skeys (reconfigured s ctx config ws l).units) :
    k ∈ skeys l.units ∨ ((ws.getD 0 0).getLsbD 31 = true ∧ k ∈ domainUnits s ctx ((ws.getD 0 0).getLsbD 29)) := by
  unfold reconfigured at hk
  split at hk
  · exact .inl (by rwa [Worklist.disable, skeys_smapAll] at hk)
  · next on => exact .inr ⟨by simpa using on, mem_skeys_freshUnits hk⟩

/-- R143, R145: where nothing waits, nothing waits at any unit of a listed worklist. -/
theorem nothingWaits_listed {s : State} (quiet : nothingWaits s) {kc : Nat × Context} (hkc : kc ∈ s.host.ctxs) {kl : Nat × Worklist}
    (hkl : kl ∈ kc.2.lists) (u : Nat) : (kl.2.unit u).waiting = [] ∧ (kl.2.unit u).arriving = [] := by
  rw [Worklist.unit, sget]
  cases found : sfind kl.2.units u with
  | none => exact ⟨rfl, rfl⟩
  | some x => exact quiet kc hkc kl hkl _ (mem_of_sfind found)

theorem nothingWaits_noneWaits {s : State} (quiet : nothingWaits s) (u : Nat) : noneWaits s u := by
  intro kc hkc kl hkl
  obtain ⟨waiting, arriving⟩ := nothingWaits_listed quiet hkc hkl u
  rw [waiting]
  exact ⟨rfl, arriving⟩

theorem nothingWaits_unit {s : State} (quiet : nothingWaits s) (ctx list u : Nat) : ((getList s ctx list).unit u).waiting = [] := by
  unfold getList
  cases hc : s.ctx ctx with
  | none => rfl
  | some c =>
    cases hl : sfind c.lists list with
    | none => simp [sget, hl, Worklist.unit]
    | some l =>
      simp only [Option.map_some, Option.getD_some, sget, hl]
      exact (nothingWaits_listed quiet (mem_of_sfind hc) (mem_of_sfind hl) u).1

/-- R126 to R128: where nothing waits, units that take a configuration have no push to take up again. -/
theorem takeConfig_quiet {s : State} (quiet : nothingWaits s) (ctx list config : Nat) (ws : List Word) :
    takeConfig s ctx list config ws = modList s ctx list (reconfigured s ctx config ws) := by
  show List.foldl _ (modList s ctx list (reconfigured s ctx config ws)) _ = _
  refine foldl_idle fun u _ => ?_
  rw [nothingWaits_unit quiet ctx list u, ite_self, List.foldl_nil]
  exact retryAll_roomy (noneWaits_modList (nothingWaits_noneWaits quiet u) (bare_reconfigured ..).roomy)

/-- R126: a worklist whose units are all of this package lies on no other. -/
theorem otherNodes_near {s : State} {l : Worklist} (near : ∀ u ∈ skeys l.units, u / 4 = nodeNo s) : otherNodes s l = [] := by
  refine List.filter_eq_nil_iff.mpr fun n hn => ?_
  obtain ⟨u, hu, rfl⟩ := List.mem_map.mp (List.mem_eraseDups.mp hn)
  simpa using near u hu

section

variable {s : State} {ctx list : Nat} {ws : List Word} (quiet : nothingWaits s) (live : (s.ctx ctx).isSome = true)
  (near : ∀ u ∈ skeys (getList s ctx list).units, u / 4 = nodeNo s)
  (domain : ∀ u ∈ domainUnits s ctx ((ws.getD 0 0).getLsbD 29), u / 4 = nodeNo s)
include quiet live near domain

/-- R126 to R128: in one package a descriptor is applied, and no other package must confirm it. -/
theorem configure_near : let ok := !(ws.getD 0 0).getLsbD 31 || descriptorOk s ctx ws
    ∃ t config, configure s ctx list ws = (if ok then 0 else 1, t) ∧ t.mem = s.mem ∧ t.exe = s.exe ∧ t.ctl = s.ctl ∧
      getList t ctx list = { reconfigured s ctx config (if ok then ws else []) (getList s ctx list) with confirm := [] } := by
  intro ok
  have old := otherNodes_near near
  have taken := takeConfig_quiet quiet ctx list (nextConfig s (getList s ctx list)) (if ok then ws else [])
  have changed := getList_modList live list (reconfigured s ctx (nextConfig s (getList s ctx list)) (if ok then ws else []))
  have applied : ((modList s ctx list (reconfigured s ctx (nextConfig s (getList s ctx list)) (if ok then ws else []))).ctx ctx).isSome = true := by
    rw [ctx_modList_isSome]
    exact live
  have new : otherNodes (modList s ctx list (reconfigured s ctx (nextConfig s (getList s ctx list)) (if ok then ws else [])))
      (reconfigured s ctx (nextConfig s (getList s ctx list)) (if ok then ws else []) (getList s ctx list)) = [] := by
    refine otherNodes_near fun u hu => ?_
    obtain kept | ⟨on, mine⟩ := mem_skeys_reconfigured hu
    · exact near u kept
    · split at mine
      · exact domain u mine
      · next bad => simp [bad] at on
  refine ⟨modList (modList s ctx list (reconfigured s ctx (nextConfig s (getList s ctx list)) (if ok then ws else []))) ctx list
    fun l => { l with confirm := [] }, nextConfig s (getList s ctx list), ?_, rfl, rfl, rfl, ?_⟩
  · unfold configure
    simp only [old, changed, new, taken, show (!(ws.getD 0 0).getLsbD 31 || descriptorOk s ctx ws) = ok from rfl]
    rfl
  · rw [getList_modList applied, changed]

end

/-! ## The word (R287) -/

theorem watchRetired_none (h : Here) (r : Result) : watchRetired h none r = r := by
  cases r with
  | next s => exact congrArg Host.Outcome.next (ite_self _)
  | _ => rfl

section

variable {s s1 : State} {h : Here} {d a : BitVec 7} {ea : Bool} {w : BitVec 4} {t0 : Nat} {x y : Word} (hh : s.here = some h)
include hh

/-- R126, R178: WLCFG in a launch that is not privileged is rejected. -/
theorem exec_wlcfg_unprivileged (denied : privileged s h.w = false) :
    exec (.wlcfg d ea a w) s = reject s h (.wlcfg d ea a w) 6 := by
  refine (issuing_eq s h _ hh).trans (if_pos ?_)
  rw [denied]
  rfl

/-- R287: WLCFG of a clean address reads a descriptor, and applies what it finds. -/
theorem exec_wlcfg (priv : privileged s h.w = true) (unseen : unwatched s h) (one : uniThreads h.g h.p = [(t0, none)])
    (free : ∀ kp ∈ s.exe.pendings, kp.2.gid ≠ h.g.id) (ungotten : h.g.gotten = [])
    (ready : operandsReady h [(t0, none)] [rSrc true a ea 2] (some (rDst true d)) = true)
    (named : readSrc h.g h.p (rSrc true a ea 2) t0 = .words [x, y]) {r : Sum Fresh (List Word)}
    (read : readDescriptor h t0 (DWord.ofHalves x y) 8 s = (match r with | .inl f => .failed f | .inr ws => .words ws, s1)) :
    exec (.wlcfg d ea a w) s = configApply s1 h t0 w.toNat (rDst true d) r := by
  have issued : configIssue h t0 w.toNat (rDst true d) (DWord.ofHalves x y) s = configApply s1 h t0 w.toNat (rDst true d) r := by
    simp only [configIssue, ungotten, sfind_nil]
    refine (if_neg fun asked => ?_).trans ?_
    · obtain ⟨kp, hkp, mine⟩ := List.any_eq_true.mp asked
      simp [free kp hkp] at mine
    simp only [Option.getD_none, List.length_nil, Nat.sub_zero, read]
    cases r <;> rfl
  refine (issuing_eq s h _ hh).trans ?_
  simp only [priv, one, ready, named, watchHit_unwatched unseen, watchRetired_none, Bool.not_true, Bool.false_eq_true, if_false]
  exact issued

end

/-- R287: how WLCFG is done. -/
theorem configDone_leaves {s1 : State} {h : Here} (listed : sfind h.g.paths h.pid = some h.p) (own : s1.group h.g.id = some h.g) {t0 : Nat}
    (small : t0 < 128) (d : BitVec 7) (n : Word) : ∃ t g', configDone s1 h t0 (rDst true d) n = .next t ∧ t.mem = s1.mem ∧ t.host = s1.host ∧
      t.exe.sides = s1.exe.sides ∧ t.group h.g.id = some g' ∧ WentOn h g' (nextPc h.p.pc) ∧
      Wrote h g' (rDst true d) [t0] fun _ => .inr (.words [n]) := by
  let outs : List (Nat × ThreadOut) := [(t0, .words [n])]
  let g : Group := { h.g with gotten := sdel (sdel h.g.gotten t0) (t0 + 128) }
  have cleared : (s1.modGroup h.g.id fun g => { g with gotten := sdel (sdel g.gotten t0) (t0 + 128) }).group h.g.id = some g := by
    rw [group_modGroup_same, own]
    rfl
  have same := sameButRegs_writes h.p (rDst true d) outs g
  refine ⟨_, _, rfl, rfl, rfl, rfl, group_retire_reset (group_writeAll cleared ..),
    wentOn_reset listed (congrArg (·.paths) same) (congrArg (·.retired) same) _, ?_⟩
  refine wrote_of h (rDst true d) outs _ (List.nodup_singleton _) ?_ (fun _ => Nat.le_refl 1) ?_ ?_ _ ⟨rfl, rfl, rfl, rfl⟩
  · simpa [outs] using small
  · simp [outs, toOut]
  · intro o ho v hv
    cases hv
    exact fits_rDst true d 1 _ rfl

/-! ## What WLCFG leaves -/

/-- R43, R44: where a group has no record yet, a new one takes a free entry, whichever path issues. -/
theorem newRecord_listed {s : State} {h : Here} {f : Fresh} {e : Nat} (own : s.group h.g.id = some h.g) (wg : s.wg h.g.wg = some h.w)
    (first : ∀ kr ∈ (sget ({} : Side) s.exe.sides h.w.coreNo).recs, kr.2.1 ≠ h.g.id)
    (room : freeEntry (sget ({} : Side) s.exe.sides h.w.coreNo).recs s.ctl.tick = some e)
    (plain : f.cause ≠ causeInvalid ∧ f.cause ≠ causeDenied) (pc : DWord) (inspan : Bool) (n : Nat) :
    newRecord s h.g.id pc inspan f n = (BitVec.ofNat 10 e, entered s h.w.coreNo e h.g.id (Record.first h.g h.w pc inspan f n)) := by
  have fresh : (sget ({} : Side) s.exe.sides h.w.coreNo).recs.find? (mergesInto h.g pc inspan f) = none :=
    List.find?_eq_none.mpr fun kr hkr => by simp [mergesInto, first kr hkr]
  simp only [newRecord, findGroup, own, recordsOf, wg, enterRecord, fresh, room, plain, Option.map_some, decide_false, Bool.or_self,
    Bool.false_eq_true, if_false]
  rfl

section

variable {s1 : State} {h : Here} {d : BitVec 7} {w : BitVec 4} {t0 : Nat} (listed : sfind h.g.paths h.pid = some h.p)
  (own : s1.group h.g.id = some h.g) (small : t0 < 128)
include listed own small

/-- R255, R287: a read that fails makes a record, and 2 says so. -/
theorem configApply_failed {f : Fresh} {e : Nat} (wg : s1.wg h.g.wg = some h.w)
    (first : ∀ kr ∈ (sget ({} : Side) s1.exe.sides h.w.coreNo).recs, kr.2.1 ≠ h.g.id)
    (room : freeEntry (sget ({} : Side) s1.exe.sides h.w.coreNo).recs s1.ctl.tick = some e)
    (plain : f.cause ≠ causeInvalid ∧ f.cause ≠ causeDenied) :
    ∃ t g' q, configApply s1 h t0 w.toNat (rDst true d) (.inl f) = .next t ∧ t.mem = s1.mem ∧ t.host = s1.host ∧
      t.group h.g.id = some g' ∧ WentOn h g' (nextPc h.p.pc) ∧ Wrote h g' (rDst true d) [t0] (fun _ => .inr (.words [2])) ∧
      recordAt t h.w.coreNo (BitVec.ofNat 10 e) = some q ∧ q.cause = f.cause := by
  let record := Record.first h.g h.w h.p.pc (h.g.span.opened.getLsbD t0) f 1
  obtain ⟨t, g', done, mem, host, sides, group, went, wrote⟩ :=
    configDone_leaves (s1 := entered s1 h.w.coreNo e h.g.id record) listed own small d 2
  refine ⟨t, g', record, ?_, mem, host, group, went, wrote, recordAt_entered (freeEntry_lt room) sides, rfl⟩
  rw [configApply, newRecord_listed own wg first room plain]
  exact done

/-- R126 to R128, R287: a descriptor that was read is applied in one package: 0 says so, and 1 that it is invalid. -/
theorem configApply_words {ws : List Word} (live : (s1.ctx h.w.ctx).isSome = true) (quiet : nothingWaits s1)
    (near : ∀ u ∈ skeys (getList s1 h.w.ctx w.toNat).units, u / 4 = nodeNo s1)
    (domain : ∀ u ∈ domainUnits s1 h.w.ctx ((ws.getD 0 0).getLsbD 29), u / 4 = nodeNo s1) :
    let ok := !(ws.getD 0 0).getLsbD 31 || descriptorOk s1 h.w.ctx ws
    ∃ t g' config, configApply s1 h t0 w.toNat (rDst true d) (.inr ws) = .next t ∧ t.mem = s1.mem ∧ t.group h.g.id = some g' ∧
      WentOn h g' (nextPc h.p.pc) ∧ Wrote h g' (rDst true d) [t0] (fun _ => .inr (.words [if ok then 0 else 1])) ∧
      getList t h.w.ctx w.toNat =
        { reconfigured s1 h.w.ctx config (if ok then ws else []) (getList s1 h.w.ctx w.toNat) with confirm := [] } := by
  intro ok
  obtain ⟨s2, config, run, mem, exe, -, list⟩ := configure_near (list := w.toNat) quiet live near domain
  have own2 : s2.group h.g.id = some h.g := by
    rw [State.group, exe]
    exact own
  obtain ⟨t, g', done, mem', host, -, group, went, wrote⟩ := configDone_leaves listed own2 small d (BitVec.ofNat 32 (if ok then 0 else 1))
  have confirmed : (getList s2 h.w.ctx w.toNat).confirm.isEmpty = true := by
    rw [list]
    rfl
  have code : BitVec.ofNat 32 (if ok then 0 else 1) = if ok then 0 else 1 := by split <;> rfl
  refine ⟨t, g', config, ?_, mem'.trans mem, group, went, code ▸ wrote, ?_⟩
  · rw [configApply, run]
    exact (if_pos confirmed).trans done
  · rw [getList, State.ctx, host]
    exact list

end

/-- R126: a worklist that an enabling descriptor configures. -/
theorem configured_reconfigured (s : State) (ctx config : Nat) {ws : List Word} (on : (ws.getD 0 0).getLsbD 31 = true) (l : Worklist) :
    Configured { reconfigured s ctx config ws l with confirm := [] } ws := by
  have bare := bare_reconfigured s ctx config ws l
  unfold reconfigured at bare ⊢
  rw [on] at bare ⊢
  exact ⟨rfl, rfl, rfl, rfl, rfl, rfl, fun k => (bare k).empty⟩

theorem state_reconfigured (s : State) (ctx config : Nat) {ws : List Word} (off : (ws.getD 0 0).getLsbD 31 = false) (l : Worklist) :
    (reconfigured s ctx config ws l).state = 0 := by
  rw [reconfigured, off]
  rfl

/-- Settles O32: the check of privilege, the record of a read that fails, and the configuration that the units of one package take. -/
theorem worklistConfiguration : Obligations.WorklistConfiguration := by
  intro s s1 h d a ea w t0 x y r hh
  obtain ⟨-, -, -, workgroup, listed⟩ := here_eq s h hh
  refine ⟨fun denied => illegal_of_reject (exec_wlcfg_unprivileged hh denied),
    fun priv unseen one _ small free ungotten ready named read own live => ⟨?_, ?_⟩⟩
  · rintro f rfl invalid denied first e wg room
    rw [exec_wlcfg hh priv unseen one free ungotten ready named (r := .inl f) read]
    exact configApply_failed listed own small (workgroup ▸ wg) first room ⟨invalid, denied⟩
  · rintro ws rfl quiet near off ok domain
    rw [exec_wlcfg hh priv unseen one free ungotten ready named (r := .inr ws) read]
    obtain ⟨t, g', config, done, mem, group, went, wrote, list⟩ := configApply_words (d := d) listed own small live quiet near domain
    have code : (if off ∨ ok then 0 else 1 : Word) = if !(ws.getD 0 0).getLsbD 31 || descriptorOk s1 h.w.ctx ws then 0 else 1 := by
      simp only [off, ok, Bool.or_eq_true, Bool.not_eq_true']
    refine ⟨t, g', done, mem, group, went, code ▸ wrote, fun disabled => ?_, fun on valid => ?_⟩
    · refine (congrArg (·.state) list).trans (state_reconfigured _ _ _ ?_ _)
      split
      · next applied =>
        obtain off | invalid := disabled
        · exact off
        · simpa [show descriptorOk s1 h.w.ctx ws = false by simpa [ok] using invalid] using applied
      · rfl
    · have applied : (!(ws.getD 0 0).getLsbD 31 || descriptorOk s1 h.w.ctx ws) = true := by simp [show descriptorOk s1 h.w.ctx ws = true from valid]
      rw [list, if_pos applied]
      exact configured_reconfigured _ _ _ (by simpa [off] using on) _

end Sys2Proof.Machine
end
